-- ==== Sys2Proof/Word.lean ====
section
/-! DEFINITION. The word types of the Coaros 4816 model (R8, R9): bytes, 16-, 32- and 64-bit words, and byte
strings in memory order. Nothing here computes; the helpers that do stand in Machine/Bits.lean. -/

namespace Sys2Proof

/-- One byte of memory or of a record. -/
abbrev Byte := BitVec 8
/-- A 32-bit register or FP32 bit pattern. -/
abbrev W32 := BitVec 32
/-- A 64-bit word: a stream variable, an argument, a key. -/
abbrev W64 := BitVec 64
/-- Bytes in memory order, first byte first (R9). -/
abbrev Bytes := List Byte
/-- What a read of host memory returned: its bytes, or nothing for a host-memory error (R365, R386). -/
abbrev HostRead := Option Bytes

end Sys2Proof
end

