-- ==== Sys2Proof/Syntax.lean ====
section
/-! DEFINITION. The commands and events of the block: one constructor of `Instr` per row of spec/opcode_table.json,
with the operands a row needs to say where it happens and what the environment brings (bytes, readings, outcomes).
Cores are named by logical number `l` where a stream is concerned (R6, R181) and by physical index
`c = 144d + 12y + x` where a register block is (R262). -/

namespace Sys2Proof

/-- A PCI Express function (R22, R366): the physical function, or VF p + 1 named by its partition p. -/
inductive Fn where
  | pf
  | vf (p : Nat)
  deriving DecidableEq, Repr

/-- A DMA channel (R225): channel `n` of logical core `l`, or channel `n` of base die `b`. -/
inductive Chan where
  | core (l n : Nat)
  | bulk (b n : Nat)
  deriving DecidableEq, Repr

/-- What the environment does to one memory access (R269 to R273, R288): nothing; symbol errors in the HBM code word
(symbol index below 272 and the error pattern, R270); an error in the Nimbus line; or no response at all. -/
inductive MemFault where
  | clean
  | symbols (errs : List (Nat × Byte))
  | nimCorrected
  | nimUncorrectable
  | noResponse
  deriving DecidableEq, Repr

/-- An atomic operation at a home slice with its operand (R286). -/
inductive AtomicOp where
  | add64 (v : W64)
  | addF32 (v : W32)
  | addW128 (v : BitVec 128)
  deriving DecidableEq, Repr

/-- One line of the threshold table of R406, with the part it concerns. -/
inductive FaultEvent where
  | laneReplays (port lane : Nat)
  | rowErrors (stack pc channel bank row : Nat)
  | channelErrors (stack channel : Nat)
  | pinErrors (stack channel pin : Nat)
  | rowsUnrepairable (stack channel : Nat)
  | parity (core : Nat)
  | storeCorrectable (core : Nat)
  | storeUncorrectable (core : Nat)
  | nimCorrectable (die slab : Nat)
  | nimPoisoned (die slab : Nat)
  deriving DecidableEq, Repr

/-- What one bring-up or partition reset finds (R393 to R403): images, tests and lane measurements. Lane errors are
(port, lane, errors in 10^12 bits), with 2^64 and above standing for no lock; `deepDue` tells that the last deep bring-up was
more than 30 days ago (R392). -/
structure Findings where
  mmcSlotA  : Bool
  mmcSlotB  : Bool
  baseDie   : Option Nat
  stackFail : List Nat
  chanFail  : List (Nat × Nat)
  coreFail  : List Nat
  slabFail  : List (Nat × Nat)
  laneErrs  : List (Nat × Nat × Nat)
  coreFwOk  : Bool
  cooler    : Option Bytes
  deepDue   : Bool
  deriving DecidableEq, Repr

/-- An MCTP binding of the management controller (R437). -/
inductive Binding where
  | i3c
  | smbus
  | vdm
  deriving DecidableEq, Repr

/-- A temperature reading of R429: the sensor group (0 to 3 compute die, 4 to 7 base die, 8 to 19 stack) and the
reading in units of 0.125 °C. -/
structure Reading where
  group : Nat
  temp  : Int
  deriving DecidableEq, Repr

/-- A counter whose _LO word is read (R462): stall counter (core, engine, cause), event counter (core, n) or global
counter n. -/
inductive CounterId where
  | stall (core e cause : Nat)
  | event (core n : Nat)
  | global (n : Nat)
  deriving DecidableEq, Repr

/-- A module request to host memory that can time out (R365, R386, R383). -/
inductive HostRequest where
  | submission (p ring : Nat)
  | copyList (p : Nat)
  | copyIn (p : Nat)
  | copyOut (p : Nat)
  deriving DecidableEq, Repr

/-- The commands of the block, row by row of the opcode table. -/
inductive Instr where
  -- stream records and the sequencer (R193 to R221)
  | recordFetch (l : Nat) (flt : MemFault)
  | recordDispatch (l parity : Nat)
  | recordComplete (l q n : Nat)
  | tokenTimeout (l q : Nat)
  | pass (l a : Nat)
  | front (l a : Nat)
  | preloadStaging (l a : Nat)
  | slotdrain (l a : Nat)
  | cirrus (l a : Nat)
  | cirrusRepeat (l a : Nat)
  | launch (l : Nat)
  | quant (l : Nat)
  | dma (l : Nat)
  | bdma (l : Nat)
  | nop (l : Nat)
  | barrier (l : Nat)
  | barrierRelease (p : Nat)
  | barrierTimeout (l : Nat)
  | signal (l : Nat)
  | tokset (l : Nat)
  | inval (l : Nat)
  | endStream (l : Nat)
  | loop (l : Nat)
  | endloop (l : Nat)
  | branchMisfit (l : Nat)
  | setsv (l : Nat)
  | addsv (l : Nat)
  | setpair (l : Nat)
  | swap (l : Nat)
  | setkey (l : Nat)
  -- vector kernel instructions of thread t (R222, R223)
  | add (l t : Nat)
  | sub (l t : Nat)
  | mul (l t : Nat)
  | fma (l t : Nat)
  | min (l t : Nat)
  | max (l t : Nat)
  | cmplt (l t : Nat)
  | cmpeq (l t : Nat)
  | cvt (l t : Nat)
  | sel (l t : Nat)
  | mov (l t : Nat)
  | movi (l t : Nat)
  | exp (l t : Nat)
  | exp2 (l t : Nat)
  | log (l t : Nat)
  | log2 (l t : Nat)
  | rsqrt (l t : Nat)
  | wadd (l t : Nat)
  | wsub (l t : Nat)
  | wneg (l t : Nat)
  | wfinish (l t : Nat)
  | wfinishb (l t : Nat)
  | load (l t : Nat)
  | store (l t : Nat)
  | gather (l t : Nat)
  | scatter (l t : Nat)
  | scatterAdd (l t : Nat)
  | fence (l t : Nat)
  | pack (l t : Nat)
  | unpack (l t : Nat)
  | range (l t : Nat)
  | mvBcast (l t : Nat)
  | mvReduce (l t : Nat)
  | br (l t : Nat)
  | brz (l t : Nat)
  | tbar (l t : Nat)
  | kernelEnd (l t : Nat)
  -- DMA channels and the forecast (R225 to R259)
  | descriptorFetch (ch : Chan)
  | descriptorStart (ch : Chan)
  | crcFinish (ch : Chan)
  | dmaBusError (ch : Chan)
  | deadlineMiss (ch : Chan)
  | streamEndDeadlineMiss (l : Nat)
  | staleCheck (l q : Nat)
  -- log store, barometer, breaks (R464 to R471)
  | logDrainWrite (c region : Nat)
  | logPadTimeout (c region : Nat)
  | barometerSample (c : Nat)
  | globalBarometerSample
  | tagBreak (l q : Nat)
  -- memory (R260 to R292, R406 to R410)
  | readRequest (ch : Chan) (flt : MemFault)
  | writeRequest (ch : Chan) (flt : MemFault)
  | atomicOperation (p addr : Nat) (op : AtomicOp) (flt : MemFault)
  | requestWatchdog (ch : Chan)
  | refresh (stack pc channel bank : Nat)
  | patrolScrub (stack : Nat) (flt : MemFault)
  | permanentFault (f : FaultEvent)
  | rowRepair (stack : Nat)
  | channelRetire (p : Nat)
  | spareSubstitution (p : Nat) (passed : Bool)
  -- jobs and host rings (R371 to R391)
  | jobStart (p : Nat) (entry copies : HostRead)
  | noOperationEntry (p ring : Nat) (entry : HostRead)
  | hostCopyIn (p : Nat) (data : HostRead)
  | hostCopyOut (p : Nat) (ok : Bool)
  | jobComplete (p : Nat)
  | hostCompletionTimeout (r : HostRequest)
  | eventIrqInterval (fn : Fn)
  | sqTail (p ring value : Nat)
  | cqHead (p ring value : Nat)
  | evtHead (fn : Fn) (value : Nat)
  | ringEnable (fn : Fn) (group : Nat) (value : W32)
  | ringDisable (fn : Fn) (group : Nat) (value : W32)
  | resume (p ring : Nat)
  | setupCommit
  | setupValidation
  | bar2Read (fn : Fn) (off len : Nat) (flt : MemFault)
  | bar2Write (fn : Fn) (off : Nat) (data : Bytes)
  | bar2ReadAbort (fn : Fn) (off : Nat)
  | registerWrite (fn : Fn) (off size : Nat) (value : W64)
  | ftimeLoRead
  | counterLoRead (k : CounterId)
  | functionLevelResetVf (p : Nat)
  | functionLevelResetPf
  | clear (ch : Chan)
  | apply (b : Nat)
  | flush (b : Nat)
  | go (stack channel : Nat)
  | force (stack channel : Nat)
  | disable (port : Nat)
  | retrain (port : Nat)
  | commit (p : Nat)
  | routeCommit (p : Nat)
  | arm (epochHi : Nat)
  | start (p : Nat)
  | exchCtrlLeave (p : Nat)
  | exchCtrlJoin (p : Nat)
  | fullReset
  | computeReset (p : Nat)
  | partReset (p : Nat)
  | lower (code : Nat)
  | dbgCountersClear (c : Nat)
  | globalCountersClear
  | logEnableWrite (c : Nat) (sample : Bool) (value : W32)
  | logResplit (c : Nat)
  | coreResume (c : Nat)
  | partitionResume (p : Nat)
  | partitionFreeze (p : Nat)
  -- pins, power, clocks (R416 to R434, R476 to R482)
  | hxPwrEnRise (afterOneSecond : Bool)
  | hxPwrEnFall
  | perstAssert
  | perstDeassert
  | bringup (f : Findings)
  | hxSyncEdge (latched : Bool) (sinceLastUs : Nat)
  | classStrapChange (straps : Nat)
  | inputVoltageExcursion (deciVolt durationUs : Nat)
  | regulatorFault
  | thermalSample (rs : List Reading)
  | throttleStep (d : Nat)
  | throttleRestore (d : Nat)
  | powerSample (watt deciVolt : Nat)
  | powerLimitStep
  | issueLevelUpdate (c : Nat)
  | rampAdmission (d : Nat)
  | droop (d : Nat)
  | droopResume (d : Nat)
  | refclkLockLoss
  -- the Bureg fabric (R293 to R328)
  | hello (port : Nat) (raw : Bytes)
  | helloSend (port : Nat)
  | helloTimeout (port : Nat)
  | lossOfSignal (port : Nat)
  | cableInsert (port : Nat) (laneErrs : List (Nat × Nat))
  | packetFlit (port : Nat) (raw : Bytes) (lane : Nat)
  | replayRequest (port : Nat) (raw : Bytes)
  | replayRequestRepeat (port : Nat)
  | timestamp (port t1 t2 t3 t4 : Nat)
  | timestampSend (port : Nat)
  | fabricStall (port tc vl : Nat)
  | tc0Inject (p : Nat)
  | withdrawalExpiry (port dest : Nat)
  | write (p : Nat)
  | read (p : Nat) (flt : MemFault)
  | readResp (p : Nat)
  | writeResp (p : Nat)
  | errorResp (p : Nat)
  | remoteSignal (p : Nat)
  | barArrive (p : Nat)
  | barRelease (p : Nat)
  | mgmtWrite (p : Nat)
  | mgmtRead (p : Nat)
  | mgmtResp (p : Nat)
  | unreachable (port : Nat)
  -- gradient exchange (R329 to R363)
  | chain (p : Nat)
  | publish (p : Nat)
  | pubDone (p : Nat)
  | pubDoneRepeat (p : Nat)
  | commitRepeat (p : Nat)
  | commitQuery (p : Nat)
  | commitQuerySend (p : Nat)
  | suspect (p : Nat)
  | leave (p : Nat)
  | join (p : Nat)
  | joinReady (p : Nat)
  | hopTimeout (p txn : Nat)
  | contributionDeadline (p : Nat)
  | takeover (p shard : Nat)
  | shardLost (p shard : Nat)
  | commitTimeout (p : Nat)
  | shardFetch (p shard : Nat) (bytes : HostRead)
  | stateCopy (p shard : Nat)
  -- management, firmware, trust (R437 to R457)
  | mmcRestart (newSlotOk : Bool)
  | coreFwActivation (p : Nat)
  | firmwareBroadcast (image : Bytes)
  | setEndpointId (b : Binding) (eid : Nat)
  | mctpUnsupportedType (b : Binding) (ty : Nat)
  | getTid (b : Binding)
  | setTid (b : Binding) (tid : Nat)
  | getPldmVersion (b : Binding) (ty : Nat)
  | getPldmTypes (b : Binding)
  | getPldmCommands (b : Binding) (ty : Nat)
  | getPdrRepositoryInfo (b : Binding)
  | getPdr (b : Binding) (record : Nat)
  | getSensorReading (b : Binding) (sensor : Nat)
  | getStateSensorReadings (b : Binding) (sensor : Nat)
  | setNumericSensorEnable (b : Binding) (sensor : Nat) (op : Nat)
  | setEventReceiver (b : Binding) (eid : Nat)
  | queryDeviceIdentifiers (b : Binding)
  | getFirmwareParameters (b : Binding)
  | requestUpdate (b : Binding) (ncomp : Nat)
  | passComponentTable (b : Binding) (component : Nat)
  | updateComponent (b : Binding) (component : Nat) (image : Bytes)
  | activateFirmware (b : Binding)
  | getStatus (b : Binding)
  | cancelUpdateComponent (b : Binding)
  | cancelUpdate (b : Binding)
  | getVersion (b : Binding)
  | getCapabilities (b : Binding)
  | negotiateAlgorithms (b : Binding) (offersLms : Bool)
  | getDigests (b : Binding)
  | getCertificate (b : Binding) (slot offset len : Nat)
  | challenge (b : Binding) (slot : Nat) (nonce : Bytes)
  | getMeasurements (b : Binding) (index : Nat) (signed : Bool) (nonce : Bytes)
  -- ends of waits (R276, R289, R298, R300, R411, R433, R434, R448, R480)
  | idleFlit (port : Nat) (raw : Bytes)
  | rootPllLockRegained
  | computeResetDone (p : Nat)
  | partResetDone (p : Nat) (f : Findings)
  | rowRepairDone (stack : Nat) (repaired : Bool)
  | nimBusyEnd (b : Nat)
  | portTrainingDone (port : Nat) (laneErrs : List (Nat × Nat))
  | coreVoltageRaised (d : Nat)
  | mmcRestartDone
  | pwrEnLowTimeElapsed
  | unsupportedPldmCmd (b : Binding) (ty cmd : Nat)
  | routeTableRegisterWrite (p off : Nat) (value : W32)
  deriving DecidableEq, Repr

end Sys2Proof
end

