-- ==== Sys2Proof/Decode.lean ====
section
/-! DEFINITION. The table's rows give no bits, so no word spells a command. -/

namespace Sys2Proof

/-- The command that a word of `nbits` bits spells: none, since no row of the opcode table gives bits (the commands are the steps
of the block, and what encodes a stream record, a kernel word or a descriptor is read in Machine/). -/
def decodeTableWord (_nbits _w : Nat) : Option Instr := none

end Sys2Proof
end

