-- ==== Sys2Proof/Machine/Codes.lean ====
section
/-! DEFINITION. Error and event codes (R12, R217, R243, R282 and the code tables of the other chapters). -/

namespace Sys2Proof.Machine.Code

/-- Success. -/
def ok : Nat := 0x0000
/-- Record names a core or function absent from the grade or partition (R217). -/
def noEngine : Nat := 0x0101
/-- Unknown opcode, reserved field non-zero, field out of range (R217). -/
def badCmd : Nat := 0x0102
/-- Product count over 2^24 (R217). -/
def kLimit : Nat := 0x0103
/-- Loop structure broken (R217). -/
def badLoop : Nat := 0x0104
/-- Fifth nested loop (R217). -/
def loopDepth : Nat := 0x0105
/-- Second parity error on one record (R217). -/
def parity : Nat := 0x0106
/-- Stream image header or directory invalid (R217). -/
def badImage : Nat := 0x0107
/-- Clip count over threshold, or cirrus repeats exhausted (R171). -/
def misfit : Nat := 0x0201
/-- Stale source after one re-issue (R243). -/
def stale : Nat := 0x0301
/-- Deadline missed under a valid forecast (R243). -/
def forecast : Nat := 0x0302
/-- DMA bus error (R243). -/
def busErr : Nat := 0x0303
/-- Record reached a channel with a latched bus error (R243). -/
def chanHalted : Nat := 0x0304
/-- Checksum compare failed (R243). -/
def crcMismatch : Nat := 0x0305
/-- The forecast breaks its layout (R243). -/
def fcastInvalid : Nat := 0x0306
/-- Token wait over `TOKEN_LIMIT` (R217). -/
def tokenTimeout : Nat := 0x0501
/-- Token counter over 65,535 (R217). -/
def tokenOverflow : Nat := 0x0502
/-- `BAR_SEQ` differs between arrivals (R217). -/
def barMismatch : Nat := 0x0503
/-- Another stream of the partition halted (R217). -/
def barAbort : Nat := 0x0504
/-- Barrier wait over `BAR_LIMIT` (R217). -/
def barTimeout : Nat := 0x0505
/-- An HBM code word is found uncorrectable (R282). -/
def memUncorr : Nat := 0x0601
/-- A row is marked for repair (R282). -/
def rowRepairPending : Nat := 0x0602
/-- A row repair has ended (R282). -/
def rowRepaired : Nat := 0x0603
/-- No spare row is left in the bank group (R282). -/
def rowUnrepairable : Nat := 0x0604
/-- A channel migration starts (R282). -/
def chEvacuating : Nat := 0x0605
/-- A channel has been retired (R282). -/
def chRetired : Nat := 0x0606
/-- A channel degrades with no reserve left (R282). -/
def noReserve : Nat := 0x0607
/-- A request watchdog expires (R282). -/
def reqWatchdog : Nat := 0x0608
/-- A Nimbus line is found uncorrectable (R282). -/
def nimUncorr : Nat := 0x0609

/-- A port goes `DOWN` (R327). -/
def portDown : Nat := 0x0701
/-- A port narrows (R327). -/
def laneRetired : Nat := 0x0702
/-- A condition of the TC0 bound fails (R327). -/
def tc0Bound : Nat := 0x0703
/-- A class and lane waits 10 ms for credit (R327). -/
def fabricStall : Nat := 0x0704
/-- A table write is refused (R327). -/
def routeTable : Nat := 0x0705
/-- A neighbour's serial changes on a port (R327). -/
def nbChange : Nat := 0x0706
/-- A neighbour shows this node's identifier (R327). -/
def nbConflict : Nat := 0x0707
/-- Fabric time loses lock (R327). -/
def ftimeLost : Nat := 0x0708
/-- A remote `SIGNAL` increment is discarded (R327). -/
def signalDropped : Nat := 0x0709

/-- A hop skips a rank (R362). -/
def chainSkip : Nat := 0x0801
/-- Own contribution left out (R362). -/
def contribLate : Nat := 0x0802
/-- The buddy publishes for the owner (R362). -/
def takeover : Nat := 0x0803
/-- Shards fetched (R362). -/
def epochResync : Nat := 0x0804
/-- Owner and buddy both lost before publishing (R362). -/
def shardLost : Nat := 0x0805
/-- Publication differs from the replica's result (R362). -/
def buddyMismatch : Nat := 0x0806
/-- Step barrier held beyond `COMMIT_LIMIT_MS` (R362). -/
def commitTimeout : Nat := 0x0807
/-- A `LEAVE` takes effect (R362). -/
def memberLeft : Nat := 0x0808
/-- A joining rank becomes active (R362). -/
def memberJoined : Nat := 0x0809
/-- Non-finite gradients replaced in a shard (R362). -/
def gradNonfinite : Nat := 0x080A
/-- A commit is rejected (R388). -/
def setup : Nat := 0x0401
/-- A submission entry is invalid (R388). -/
def badSub : Nat := 0x0402
/-- A host copy fails (R388). -/
def hostCopy : Nat := 0x0403
/-- A reset ends a running job (R388). -/
def jobAborted : Nat := 0x0404
/-- A ring stops on a host-memory error (R388). -/
def ringFault : Nat := 0x0405

/-- A bring-up fails (R414). -/
def bringupFail : Nat := 0x0901
/-- A core is retired, in test or in service (R414). -/
def coreRetired : Nat := 0x0902
/-- A spare has taken over a logical number (R414). -/
def spareSubst : Nat := 0x0903
/-- A partition becomes degraded, or ignores `START` or `JOIN` (R414). -/
def degraded : Nat := 0x0904
/-- The field-repair bank is full (R414). -/
def repairFull : Nat := 0x0905
/-- A stack fails training (R414). -/
def stackLost : Nat := 0x0906
/-- A Nimbus slab is retired (R414). -/
def slabRetired : Nat := 0x0907
/-- MMC firmware verification fails (R414). -/
def bootImage : Nat := 0x0908

/-- A die starts to throttle (R435). -/
def thermalThrottle : Nat := 0x0A01
/-- A recorded trip is reported (R435). -/
def thermalTrip : Nat := 0x0A02
/-- The power limiter acts (R435). -/
def powerLimit : Nat := 0x0A03
/-- The input leaves 48 to 54 V (R435). -/
def inputRange : Nat := 0x0A04
/-- EEPROM and straps disagree, or the straps change (R435). -/
def classMismatch : Nat := 0x0A05
/-- A droop stop (R435). -/
def droop : Nat := 0x0A06
/-- A recorded regulator fault is reported (R435). -/
def regFault : Nat := 0x0A07
/-- The root PLL lost lock (R435). -/
def clockLost : Nat := 0x0A08

/-- An image fails a check other than that of its security version (R456). -/
def fwAuth : Nat := 0x0B01
/-- An image's `SVN` is below the fused version (R456). -/
def fwRollback : Nat := 0x0B02
/-- The boot ROM started the old MMC slot (R456). -/
def fwFallback : Nat := 0x0B03
/-- A new identity epoch is in force (R456). -/
def identityEpoch : Nat := 0x0B04
/-- No identity epoch is left (R456). -/
def identityExhausted : Nat := 0x0B05

end Sys2Proof.Machine.Code
end

