-- ==== Sys2Proof/Config.lean ====
section
/-! DEFINITION. What an implementation fixes and the free values: constants with no body, of which no proof can know
anything. Each stands in the assumption log. -/

namespace Sys2Proof.Config

/-- exp on FP32 bits (R148): a fixed function of its input within 2 ulp. The bits are free. -/
opaque expBits : W32 → W32
/-- exp2 on FP32 bits (R148). -/
opaque exp2Bits : W32 → W32
/-- Natural logarithm on FP32 bits (R148). -/
opaque logBits : W32 → W32
/-- Binary logarithm on FP32 bits (R148). -/
opaque log2Bits : W32 → W32
/-- Reciprocal square root on FP32 bits (R148). -/
opaque rsqrtBits : W32 → W32
/-- The offset of an MX block whose scale is NaN; the line decodes to NaN whatever it is (R49). -/
opaque nanBlockOffset : BitVec 4
/-- The least value of a quantiser line that holds no finite input (R161 is silent). -/
opaque emptyRangeMin : W32
/-- The greatest value of a quantiser line that holds no finite input. -/
opaque emptyRangeMax : W32
/-- The code of an input, by its magnitude's FP32 bits, under a scale that is 0 or special (R163 is silent). -/
opaque zeroScaleCode : W32 → BitVec 8
/-- What a matrix-vector instruction writes (R150 names no operands): applied to the instruction word and to the value
of the model's counter. -/
opaque mvResult : W64 → Nat → BitVec 2048
/-- The format in which PACK writes a gradient tile, by the instruction word (R223 names no field for it): a number that
is taken modulo the six formats of R125. -/
opaque gradientFormat : W64 → Nat
/-- A fresh free value, one for each value of the model's counter (R67, R271). -/
opaque freeValue : Nat → W64
/-- What uncorrectable symbol errors turn a code word into when the code takes them for correctable ones (R271):
applied to the address and the stored byte; `none` in `miscorrects` means they are detected. -/
opaque miscorrectByte : Nat → Byte → Byte
/-- Whether five or more symbol errors in a half code word escape detection (R271). -/
opaque miscorrects : Nat → Bool
/-- Which line the instruction and constant cache gives up for a new one: the spec gives no replacement rule (R193). -/
opaque icacheVictim : Nat → Nat
/-- SHA-256 of a byte string, as the little-endian number that the digest's 32 bytes spell (R443, R451). -/
opaque sha256 : Bytes → BitVec 256
/-- Whether an HSS signature of a key verifies over a message (R443, R444): key, message, signature. -/
opaque hssVerify : Bytes → Bytes → Bytes → Bool
/-- The module's LMS signature (R452): epoch, leaf, message. -/
opaque lmsSign : Nat → Nat → Bytes → Bytes
/-- The certificate chain of an identity epoch (R452). -/
opaque certChain : Nat → Bytes
/-- The two fused signer digests (R444, R451). -/
opaque signerDigest : Nat → BitVec 256
/-- The digest of the boot ROM (R451). -/
opaque bootRomDigest : BitVec 256
/-- The version of PLDM for base that GetPLDMVersion reports: R439 names no version of DSP0240. -/
opaque pldmBaseVersion : W32

/-- The member nodes of a fabric group, by its number: the set-up table names a group and no list of its members (R212,
R311). -/
opaque groupMembers : Nat → List Nat

/-- The forecast model revisions that core firmware of a `BUILD` brings, by register number (R219, R391). -/
opaque forecastRev : Nat → Nat → W32

end Sys2Proof.Config
end

