-- ==== Sys2Proof/Machine/Bits.lean ====
section
/-! DEFINITION. Bit fields, little-endian fields of records (R9), sign extension and the integer helpers the spec's
formulas use. -/

namespace Sys2Proof.Machine

/-- Bits [lo + n − 1 : lo] of a number. -/
def bits (w lo n : Nat) : Nat := (w >>> lo) % 2 ^ n

/-- Bit `i` of a number as a truth value. -/
def bit (w i : Nat) : Bool := w.testBit i

/-- The little-endian number that bytes spell (R9). -/
def fromLe : Bytes → Nat
  | [] => 0
  | b :: bs => b.toNat + 256 * fromLe bs

/-- The `n` little-endian bytes of a number, taken modulo 256^n. -/
def toLe : Nat → Nat → Bytes
  | 0, _ => []
  | n + 1, v => BitVec.ofNat 8 v :: toLe n (v / 256)

/-- The little-endian field of `n` bytes at offset `off` of a record; bytes past the end read as 0. -/
def fieldAt (bs : Bytes) (off n : Nat) : Nat := fromLe ((bs.drop off).take n)

/-- Byte `off` of a record. -/
def u8 (bs : Bytes) (off : Nat) : Nat := (bs.getD off 0).toNat
/-- The 16-bit field at `off`. -/
def u16 (bs : Bytes) (off : Nat) : Nat := fieldAt bs off 2
/-- The 32-bit field at `off`. -/
def u32 (bs : Bytes) (off : Nat) : Nat := fieldAt bs off 4
/-- The 64-bit field at `off`. -/
def u64 (bs : Bytes) (off : Nat) : Nat := fieldAt bs off 8

/-- Whether bytes `off` to `off + n − 1` of a record are all 0, as a reserved field must be (R11). -/
def zeroAt (bs : Bytes) (off n : Nat) : Bool := ((bs.drop off).take n).all (· == 0)

/-- Replaces the bytes at offset `off` of a record. -/
def patch (bs : Bytes) (off : Nat) (v : Bytes) : Bytes := bs.take off ++ v ++ bs.drop (off + v.length)

/-- Bytes padded with zeros, or cut, to length `n`. -/
def padTo (n : Nat) (bs : Bytes) : Bytes := bs.take n ++ List.replicate (n - bs.length) 0

/-- An ASCII string as bytes. -/
def ascii (s : String) : Bytes := s.toList.map (fun c => BitVec.ofNat 8 c.toNat)

/-- The two's-complement integer of the low `w` bits of a number. -/
def signed (w v : Nat) : Int :=
  let r := v % 2 ^ w
  if 2 * r < 2 ^ w then (r : Int) else (r : Int) - (2 ^ w : Nat)

/-- The low `w` bits of an integer in two's complement. -/
def unsigned (w : Nat) (v : Int) : Nat := (v % ((2 ^ w : Nat) : Int)).toNat

/-- Whole quotient rounded up. -/
def ceilDiv (a b : Nat) : Nat := (a + b - 1) / b

/-- The least multiple of `b` that is at least `a`. -/
def alignUp (a b : Nat) : Nat := ceilDiv a b * b

/-- Whether `n` is a power of two. -/
def isPow2 (n : Nat) : Bool := n != 0 && n == 2 ^ n.log2

/-- Addition that stops at `top` and never wraps (R58). -/
def satAdd (top a b : Nat) : Nat := min top (a + b)

/-- A truth value as one bit. -/
def b2n (b : Bool) : Nat := if b then 1 else 0

/-- The first `n` numbers for which `f` holds, as a bit mask. -/
def maskOf (n : Nat) (f : Nat → Bool) : Nat :=
  (List.range n).foldl (fun acc i => acc + (if f i then 2 ^ i else 0)) 0

/-- Puts value `v` at position `i` of a list; positions past the end leave it unchanged. -/
def setAt {α : Type} (xs : List α) (i : Nat) (v : α) : List α := xs.set i v

/-- Changes the value at position `i` of a list. -/
def modAt {α : Type} (xs : List α) (i : Nat) (f : α → α) : List α := xs.modify i f

/-- One step of the bitwise division that a reflected CRC performs on a register of polynomial `poly`. -/
def crcBit (poly r : Nat) : Nat := if r % 2 = 1 then (r / 2) ^^^ poly else r / 2

/-- Eight such steps after one byte has entered. -/
def crcByte (poly r : Nat) (b : Byte) : Nat :=
  (List.range 8).foldl (fun acc _ => crcBit poly acc) (r ^^^ b.toNat)

/-- The running register of a reflected 32-bit CRC over bytes. -/
def crcRun (poly : Nat) (r : Nat) (bs : Bytes) : Nat := bs.foldl (crcByte poly) r

/-- CRC-32C (Castagnoli), initial value and final exclusive-or of all ones. -/
def crc32c (bs : Bytes) : Nat := crcRun 0x82F63B78 0xFFFFFFFF bs ^^^ 0xFFFFFFFF

/-- CRC-32 of IEEE 802.3, initial value and final exclusive-or of all ones. -/
def crc32 (bs : Bytes) : Nat := crcRun 0xEDB88320 0xFFFFFFFF bs ^^^ 0xFFFFFFFF

end Sys2Proof.Machine
end

