-- ==== Sys2Proof/Machine/Numbers.lean ====
section
/-! DEFINITION. Number formats, exact values, the three rounding modes, overflow and the overflow ledger (chapter
02_number_formats.md: R32 to R40, R51 to R60). Values are computed exactly as rationals and rounded once. -/

namespace Sys2Proof.Machine

/-- The format codes of R32. -/
inductive Fmt where
  | cb8e4 | cb8e5 | cb6e3 | cb6e2 | cb4 | b16 | int8 | int4
  | fp32 | bf16 | fp16 | w128
  | mx8e4 | mx8e5 | mx6e3 | mx6e2 | mx4
  deriving DecidableEq, Repr

/-- The format that a code of R32 names; codes not listed are reserved. -/
def Fmt.ofCode (c : Nat) : Option Fmt :=
  if c = 0x01 then some .cb8e4 else if c = 0x02 then some .cb8e5 else if c = 0x03 then some .cb6e3
  else if c = 0x04 then some .cb6e2 else if c = 0x05 then some .cb4 else if c = 0x08 then some .b16
  else if c = 0x10 then some .int8 else if c = 0x11 then some .int4 else if c = 0x20 then some .fp32
  else if c = 0x21 then some .bf16 else if c = 0x22 then some .fp16 else if c = 0x28 then some .w128
  else if c = 0x30 then some .mx8e4 else if c = 0x31 then some .mx8e5 else if c = 0x32 then some .mx6e3
  else if c = 0x33 then some .mx6e2 else if c = 0x34 then some .mx4 else none

/-- The code of a format (R32). -/
def Fmt.code : Fmt → Nat
  | .cb8e4 => 0x01 | .cb8e5 => 0x02 | .cb6e3 => 0x03 | .cb6e2 => 0x04 | .cb4 => 0x05 | .b16 => 0x08
  | .int8 => 0x10 | .int4 => 0x11 | .fp32 => 0x20 | .bf16 => 0x21 | .fp16 => 0x22 | .w128 => 0x28
  | .mx8e4 => 0x30 | .mx8e5 => 0x31 | .mx6e3 => 0x32 | .mx6e2 => 0x33 | .mx4 => 0x34

/-- Element width in bits (R30, R33, R35, R39). -/
def Fmt.width : Fmt → Nat
  | .cb8e4 | .cb8e5 | .int8 | .mx8e4 | .mx8e5 => 8
  | .cb6e3 | .cb6e2 | .mx6e3 | .mx6e2 => 6
  | .cb4 | .int4 | .mx4 => 4
  | .b16 | .bf16 | .fp16 => 16
  | .fp32 => 32
  | .w128 => 128

/-- The five CB formats. -/
def Fmt.isCB : Fmt → Bool
  | .cb8e4 | .cb8e5 | .cb6e3 | .cb6e2 | .cb4 => true
  | _ => false

/-- The two integer code forms (R37). -/
def Fmt.isInt : Fmt → Bool
  | .int8 | .int4 => true
  | _ => false

/-- The MX source formats (R32, R47). -/
def Fmt.isMX : Fmt → Bool
  | .mx8e4 | .mx8e5 | .mx6e3 | .mx6e2 | .mx4 => true
  | _ => false

/-- The three floating formats of the vector engine. -/
def Fmt.isFloat : Fmt → Bool
  | .fp32 | .bf16 | .fp16 => true
  | _ => false

/-- The CB format with the same element encoding as an MX format (R47). -/
def Fmt.mxTarget : Fmt → Option Fmt
  | .mx8e4 => some .cb8e4 | .mx8e5 => some .cb8e5 | .mx6e3 => some .cb6e3 | .mx6e2 => some .cb6e2
  | .mx4 => some .cb4
  | _ => none

/-- Bytes that `n` packed elements take, rounded up to whole bytes (R30). -/
def Fmt.packedBytes (f : Fmt) (n : Nat) : Nat := ceilDiv (n * f.width) 8

/-- An exact value as the arithmetic sees it: a signed magnitude, an infinity or NaN. -/
inductive FVal where
  | num (neg : Bool) (mag : Rat)
  | inf (neg : Bool)
  | nan
  deriving DecidableEq, Repr

/-- Two to an integer power, exactly. -/
def pow2 (e : Int) : Rat :=
  if 0 ≤ e then ((2 ^ e.toNat : Nat) : Rat) else 1 / ((2 ^ (-e).toNat : Nat) : Rat)

/-- The greatest integer e with 2^e at most `x`, for `x` above 0. -/
def floorLog2 (x : Rat) : Int :=
  let e : Int := (x.num.toNat.log2 : Int) - (x.den.log2 : Int)
  if pow2 e ≤ x then e else e - 1

/-- The least integer e with `x` at most 2^e, for `x` above 0. -/
def ceilLog2 (x : Rat) : Int :=
  let e := floorLog2 x
  if pow2 e = x then e else e + 1

/-- The magnitude of a rational. -/
def ratAbs (x : Rat) : Rat := if x < 0 then -x else x

/-- Whole part of a non-negative rational. -/
def floorNat (x : Rat) : Nat := x.num.toNat / x.den

/-- A finite value; an exact zero carries the sign +. -/
def FVal.ofRat (x : Rat) : FVal := .num (decide (x < 0)) (ratAbs x)

/-- The real number of a finite value; 0 for a special. -/
def FVal.toRat : FVal → Rat
  | .num neg m => if neg then -m else m
  | _ => 0

/-- Whether a value is an infinity or NaN. -/
def FVal.isSpecial : FVal → Bool
  | .num _ _ => false
  | _ => true

/-- The magnitude of a finite value; 0 for a special. -/
def FVal.mag : FVal → Rat
  | .num _ m => m
  | _ => 0

/-- Sign change. -/
def FVal.negate : FVal → FVal
  | .num s m => .num (!s) m
  | .inf s => .inf (!s)
  | .nan => .nan

/-- The exact IEEE 754 product (R71, R79, R147). -/
def FVal.mul : FVal → FVal → FVal
  | .nan, _ => .nan
  | _, .nan => .nan
  | .inf s, .inf t => .inf (s ^^ t)
  | .inf s, .num t m => if m = 0 then .nan else .inf (s ^^ t)
  | .num s m, .inf t => if m = 0 then .nan else .inf (s ^^ t)
  | .num s a, .num t b => .num (s ^^ t) (a * b)

/-- The exact IEEE 754 sum; an exact zero sum is +0 unless both operands are −0. -/
def FVal.add : FVal → FVal → FVal
  | .nan, _ => .nan
  | _, .nan => .nan
  | .inf s, .inf t => if s = t then .inf s else .nan
  | .inf s, .num _ _ => .inf s
  | .num _ _, .inf t => .inf t
  | .num s a, .num t b =>
    let r := (FVal.num s a).toRat + (FVal.num t b).toRat
    if r = 0 then .num (s && t && decide (a = 0)) 0 else FVal.ofRat r

/-- Whether one value is less than another; false when either is NaN. -/
def FVal.lt : FVal → FVal → Bool
  | .nan, _ => false
  | _, .nan => false
  | .inf s, .inf t => s && !t
  | .inf s, .num _ _ => s
  | .num _ _, .inf t => !t
  | a, b => decide (a.toRat < b.toRat)

/-- Whether two values are equal; false when either is NaN; −0 equals +0. -/
def FVal.eq : FVal → FVal → Bool
  | .nan, _ => false
  | _, .nan => false
  | .inf s, .inf t => s == t
  | .num s a, .num t b => decide ((FVal.num s a).toRat = (FVal.num t b).toRat)
  | _, _ => false

/-- The sign bit of a value; NaN is canonical and positive (R56). -/
def FVal.sign : FVal → Bool
  | .num s _ => s
  | .inf s => s
  | .nan => false

/-- IEEE 754-2019 minimum: NaN propagates and −0 is below +0 (R147). -/
def FVal.minimum (a b : FVal) : FVal :=
  if a = .nan ∨ b = .nan then .nan
  else if a.lt b then a else if b.lt a then b else if a.sign then a else b

/-- IEEE 754-2019 maximum: NaN propagates and +0 is above −0 (R147). -/
def FVal.maximum (a b : FVal) : FVal :=
  if a = .nan ∨ b = .nan then .nan
  else if a.lt b then b else if b.lt a then a else if a.sign then b else a

/-- A binary floating encoding: exponent and mantissa widths, bias, the magnitude code of the largest finite value, and
the codes of infinity and of the canonical NaN where the format has them (R33, R56). -/
structure FloatFmt where
  mant : Nat
  bias : Int
  top  : Nat
  inf  : Option Nat
  nan  : Option Nat
  width : Nat
  deriving DecidableEq, Repr

/-- The floating encodings of R33 and the IEEE formats FP32, BF16 and FP16. Other formats are not floating. -/
def Fmt.float : Fmt → Option FloatFmt
  | .cb8e4 | .mx8e4 => some ⟨3, 7, 0x7E, none, some 0x7F, 8⟩
  | .cb8e5 | .mx8e5 => some ⟨2, 15, 0x7B, some 0x7C, some 0x7E, 8⟩
  | .cb6e3 | .mx6e3 => some ⟨2, 3, 0x1F, none, none, 6⟩
  | .cb6e2 | .mx6e2 => some ⟨3, 1, 0x1F, none, none, 6⟩
  | .cb4 | .mx4 => some ⟨1, 1, 0x7, none, none, 4⟩
  | .fp32 => some ⟨23, 127, 0x7F7F_FFFF, some 0x7F80_0000, some 0x7FC0_0000, 32⟩
  | .bf16 => some ⟨7, 127, 0x7F7F, some 0x7F80, some 0x7FC0, 16⟩
  | .fp16 => some ⟨10, 15, 0x7BFF, some 0x7C00, some 0x7E00, 16⟩
  | _ => none

/-- FP32 as a floating encoding. -/
def FloatFmt.fp32 : FloatFmt := ⟨23, 127, 0x7F7F_FFFF, some 0x7F80_0000, some 0x7FC0_0000, 32⟩
/-- BF16 as a floating encoding. -/
def FloatFmt.bf16 : FloatFmt := ⟨7, 127, 0x7F7F, some 0x7F80, some 0x7FC0, 16⟩

/-- The exponent of the smallest normal value. -/
def FloatFmt.minExp (f : FloatFmt) : Int := 1 - f.bias

/-- The value of a finite magnitude code (R33). -/
def FloatFmt.magValue (f : FloatFmt) (c : Nat) : Rat :=
  let e := c >>> f.mant
  let m := c % 2 ^ f.mant
  if e = 0 then (m : Rat) * pow2 (f.minExp - f.mant)
  else ((2 ^ f.mant + m : Nat) : Rat) * pow2 ((e : Int) - f.bias - f.mant)

/-- The largest finite value A of a format. -/
def FloatFmt.largest (f : FloatFmt) : Rat := f.magValue f.top

/-- The value that an element's bits encode (R33). -/
def FloatFmt.decode (f : FloatFmt) (w : Nat) : FVal :=
  let s := w.testBit (f.width - 1)
  let c := w % 2 ^ (f.width - 1)
  if c ≤ f.top then .num s (f.magValue c)
  else if f.inf = some c then .inf s else .nan

/-- The quantum of a format at magnitude `x`: the distance between neighbouring values, with an unbounded exponent
upwards (R51). -/
def FloatFmt.quantum (f : FloatFmt) (x : Rat) : Rat :=
  pow2 ((if x = 0 then f.minExp else max (floorLog2 x) f.minExp) - f.mant)

/-- The magnitude code of a representable magnitude. -/
def FloatFmt.encodeMag (f : FloatFmt) (x : Rat) : Nat :=
  if x = 0 then 0 else
  let e := max (floorLog2 x) f.minExp
  floorNat (x / pow2 (e - f.mant)) + (e - f.minExp).toNat * 2 ^ f.mant

/-- The bits of a representable value. A NaN is canonical (R56); an infinity that the format lacks is the NaN element
with the infinity's sign where the format has a NaN (R46), and 0 where it has none. -/
def FloatFmt.encode (f : FloatFmt) : FVal → Nat
  | .num s m => b2n s * 2 ^ (f.width - 1) + f.encodeMag m
  | .inf s => match f.inf with
    | some c => b2n s * 2 ^ (f.width - 1) + c
    | none => match f.nan with
      | some c => b2n s * 2 ^ (f.width - 1) + c
      | none => 0
  | .nan => f.nan.getD 0

/-- The rounding modes of R51; the code 0b11 is reserved. -/
inductive RMode where
  | rne | rtz | sr
  deriving DecidableEq, Repr

/-- The mode that an `RMODE` field names (R51). -/
def RMode.ofCode (c : Nat) : Option RMode :=
  if c = 0 then some .rne else if c = 1 then some .rtz else if c = 2 then some .sr else none

/-- Rounds a non-negative number of units to a whole number of units; `q` is the random value of R52. -/
def roundUnits (mode : RMode) (q : Nat) (x : Rat) : Nat :=
  let k := floorNat x
  let r := x - (k : Rat)
  match mode with
  | .rtz => k
  | .rne => if 2 * r < 1 then k else if 1 < 2 * r then k + 1 else if k % 2 = 0 then k else k + 1
  | .sr => if q < floorNat (r * 16777216) then k + 1 else k

/-- Rounds a real number to an integer with its sign kept. -/
def roundInt (mode : RMode) (q : Nat) (x : Rat) : Int :=
  let k : Int := roundUnits mode q (ratAbs x)
  if x < 0 then -k else k

/-- The counter-based generator of R53: 24 random bits from the stream key, the site and the element index. -/
def srBits (key site index : Nat) : Nat :=
  let m := 2 ^ 64
  let x0 := (key % m) ^^^ ((site % 2 ^ 16) <<< 48) ^^^ (index % 2 ^ 48)
  let x1 := (x0 + 0x9E3779B97F4A7C15) % m
  let x2 := ((x1 ^^^ (x1 >>> 30)) * 0xBF58476D1CE4E5B9) % m
  let x3 := ((x2 ^^^ (x2 >>> 27)) * 0x94D049BB133111EB) % m
  let x4 := x3 ^^^ (x3 >>> 31)
  x4 >>> 40

/-- The overflow ledger record of R58. -/
structure Ledger where
  overflow    : Nat := 0
  saturate    : Nat := 0
  underflow   : Nat := 0
  specialIn   : Nat := 0
  offsetClamp : Nat := 0
  b16Flush    : Nat := 0
  cirrusSat   : Nat := 0
  quantClip   : Nat := 0
  deriving DecidableEq, Repr

/-- The largest value of a ledger counter (R58). -/
def Ledger.top : Nat := 0xFFFF_FFFF

/-- Sum of two ledgers, each counter stopping at its largest value (R58). -/
def Ledger.add (a b : Ledger) : Ledger :=
  { overflow := satAdd Ledger.top a.overflow b.overflow
    saturate := satAdd Ledger.top a.saturate b.saturate
    underflow := satAdd Ledger.top a.underflow b.underflow
    specialIn := satAdd Ledger.top a.specialIn b.specialIn
    offsetClamp := satAdd Ledger.top a.offsetClamp b.offsetClamp
    b16Flush := satAdd Ledger.top a.b16Flush b.b16Flush
    cirrusSat := satAdd Ledger.top a.cirrusSat b.cirrusSat
    quantClip := satAdd Ledger.top a.quantClip b.quantClip }

/-- Sum of a list of ledgers. -/
def Ledger.sum (ls : List Ledger) : Ledger := ls.foldl Ledger.add {}

/-- The eight counters in record order. -/
def Ledger.counters (l : Ledger) : List Nat :=
  [l.overflow, l.saturate, l.underflow, l.specialIn, l.offsetClamp, l.b16Flush, l.cirrusSat, l.quantClip]

/-- The 32 bytes of a ledger record (R58). -/
def Ledger.toBytes (l : Ledger) : Bytes := l.counters.flatMap (toLe 4)

/-- One event of each kind. -/
def Ledger.oneOverflow : Ledger := { overflow := 1 }
/-- One result clamped to ±A. -/
def Ledger.oneSaturate : Ledger := { saturate := 1 }
/-- One non-zero result rounded to zero. -/
def Ledger.oneUnderflow : Ledger := { underflow := 1 }
/-- One special input. -/
def Ledger.oneSpecial : Ledger := { specialIn := 1 }
/-- One B16 element with discarded bits. -/
def Ledger.oneFlush : Ledger := { b16Flush := 1 }
/-- One clipped code. -/
def Ledger.oneClip : Ledger := { quantClip := 1 }

/-- Rounds an exact value to a floating format with the overflow and underflow rules of R54 and R55, and what it counts
(R57). `sat` is `OVF_SAT`; formats without an infinity, and CB8e5 (R54), always saturate. -/
def FloatFmt.round (f : FloatFmt) (mode : RMode) (sat : Bool) (q : Nat) : FVal → FVal × Ledger
  | .nan => (.nan, {})
  | .inf s => (.inf s, {})
  | .num s m =>
    let u := f.quantum m
    let r := (roundUnits mode q (m / u) : Rat) * u
    if f.largest < r then
      if sat || f.width ≤ 8 || mode = .rtz then (.num s f.largest, .oneSaturate) else (.inf s, .oneOverflow)
    else if r = 0 ∧ m ≠ 0 then (.num s 0, .oneUnderflow)
    else (.num s r, {})

/-- Rounds to a floating format and encodes. -/
def FloatFmt.write (f : FloatFmt) (mode : RMode) (sat : Bool) (q : Nat) (v : FVal) : Nat × Ledger :=
  let r := f.round mode sat q v
  (f.encode r.1, r.2)

/-- The value of FP32 bits. -/
def fp32Val (w : Nat) : FVal := FloatFmt.fp32.decode (w % 2 ^ 32)

/-- The FP32 NaN of R56. -/
def fp32NaN : Nat := 0x7FC0_0000

/-- Whether an FP32 value is a finite power of two, of either sign. -/
def FVal.isPow2 : FVal → Bool
  | .num false m => decide (m ≠ 0) && decide (pow2 (floorLog2 m) = m)
  | _ => false

/-- The special states of a cumulus register (R63). -/
inductive Special where
  | none | pInf | nInf | nan
  deriving DecidableEq, Repr

/-- A cumulus register, a walk-slot cell or a W128 value: 120 bits of weight 2^−62 and a special state (R63, R39). -/
structure Cum where
  val  : BitVec 120
  spec : Special
  deriving DecidableEq, Repr

/-- The `ZERO` state of a register (R68). -/
def Cum.zero : Cum := ⟨0, .none⟩

/-- The weight of a register's least significant bit (R63). -/
def Cum.unit : Rat := pow2 (-62)

/-- Combines a special state with a special product or special operand (R72). -/
def Special.combine : Special → Special → Special
  | s, .none => s
  | .none, t => t
  | .nan, _ => .nan
  | _, .nan => .nan
  | .pInf, .pInf => .pInf
  | .nInf, .nInf => .nInf
  | .pInf, .nInf => .nan
  | .nInf, .pInf => .nan

/-- The exact value a register holds, its special state taken first (R79). -/
def Cum.toFVal (c : Cum) : FVal :=
  match c.spec with
  | .none => FVal.ofRat ((c.val.toInt : Rat) * Cum.unit)
  | .pInf => .inf false
  | .nInf => .inf true
  | .nan => .nan

/-- Adds one product to a register: exactly when it is finite, to the special state otherwise (R64, R72). -/
def Cum.addProduct (c : Cum) : FVal → Cum
  | .nan => { c with spec := c.spec.combine .nan }
  | .inf s => { c with spec := c.spec.combine (if s then .nInf else .pInf) }
  | .num s m =>
    let u := floorNat (m / Cum.unit)
    { c with val := if s then c.val - BitVec.ofNat 120 u else c.val + BitVec.ofNat 120 u }

/-- Adds a register into another, as a fold does: values exactly, special states by R72 (R132). -/
def Cum.fold (slot bank : Cum) : Cum := ⟨slot.val + bank.val, slot.spec.combine bank.spec⟩

/-- The 128 bits of a W128 value (R39). -/
def Cum.encode (c : Cum) : Nat :=
  match c.spec with
  | .none => (if c.val.msb then 0xFF * 2 ^ 120 else 0) + c.val.toNat
  | .pInf => 0x40 * 2 ^ 120
  | .nInf => 0x41 * 2 ^ 120
  | .nan => 0x42 * 2 ^ 120

/-- Whether 128 bits are a well-formed W128 value (R39). -/
def w128WellFormed (w : Nat) : Bool :=
  let hi := bits w 120 8
  let lo := w % 2 ^ 120
  (hi == 0x00 && !lo.testBit 119) || (hi == 0xFF && lo.testBit 119)
    || ((hi == 0x40 || hi == 0x41 || hi == 0x42) && lo == 0)

/-- The value of 128 bits; a malformed pattern reads as NaN (R39). -/
def Cum.decode (w : Nat) : Cum :=
  let hi := bits w 120 8
  let lo := w % 2 ^ 120
  if !w128WellFormed w then ⟨0, .nan⟩
  else if hi = 0x40 then ⟨0, .pInf⟩ else if hi = 0x41 then ⟨0, .nInf⟩ else if hi = 0x42 then ⟨0, .nan⟩
  else ⟨BitVec.ofNat 120 lo, .none⟩

/-- What reading a W128 value counts: one `SPECIAL_IN` for a malformed value (R39, R58). -/
def w128ReadLedger (w : Nat) : Ledger := if w128WellFormed w then {} else .oneSpecial

/-- The exact W128 sum of two values: specials by R72; a finite sum of magnitude 2^57 or more becomes an infinity of its
sign and counts in `OVERFLOW` (R83). -/
def Cum.wadd (a b : Cum) : Cum × Ledger :=
  match a.spec.combine b.spec with
  | .none =>
    let s := a.val.toInt + b.val.toInt
    if s.natAbs < 2 ^ 119 then (⟨BitVec.ofInt 120 s, .none⟩, {})
    else (⟨0, if s < 0 then .nInf else .pInf⟩, .oneOverflow)
  | sp => (⟨0, sp⟩, {})

/-- The W128 negation; −(−2^57) has magnitude 2^57 and becomes +Inf (R83). -/
def Cum.wneg (a : Cum) : Cum × Ledger :=
  match a.spec with
  | .none =>
    let s := -a.val.toInt
    if s.natAbs < 2 ^ 119 then (⟨BitVec.ofInt 120 s, .none⟩, {})
    else (⟨0, if s < 0 then .nInf else .pInf⟩, .oneOverflow)
  | .pInf => (⟨0, .nInf⟩, {})
  | .nInf => (⟨0, .pInf⟩, {})
  | .nan => (⟨0, .nan⟩, {})

/-- Whether a preloaded value's magnitude is 2^56 or more (R67). -/
def Cum.oversized (c : Cum) : Bool := c.spec = .none && decide (2 ^ 118 ≤ c.val.toInt.natAbs)

/-- An exact real result: the number 0 has no sign, and is written as +0 (R34, R43, R50, R75). DEDUCED (log 28). -/
def FVal.exact : FVal → FVal
  | .num neg m => .num (neg && decide (m ≠ 0)) m
  | v => v

/-- The drain formula V = S × sA × sB + β, exactly, with IEEE 754 rules for specials (R75, R79). -/
def drainValue (s sA sB beta : FVal) : FVal := (FVal.add (FVal.mul (FVal.mul s sA) sB) beta).exact

/-- The value at which a 32-bit cirrus register saturates (R85). -/
def cirrusMax : Nat := 2 ^ 31 - 1

/-- A product as it enters a cirrus register under shift `sh` (R90). -/
def cirrusEntering (sh p : Nat) : Nat := if sh = 0 then p else (p + 2 ^ (sh - 1)) / 2 ^ sh

end Sys2Proof.Machine
end

