-- ==== Sys2Proof/Machine/Convert.lean ====
section
/-! DEFINITION. Conversions into and out of the array formats, line by line and block by block (R36, R42 to R50, R495),
the quantiser's arithmetic (R161 to R164) and the packing of elements (R30). -/

namespace Sys2Proof.Machine

/-- Cuts a list into `k` pieces of `n`, the last ones shorter or empty. -/
def chunks {α : Type} (n : Nat) : Nat → List α → List (List α)
  | 0, _ => []
  | k + 1, xs => xs.take n :: chunks n k (xs.drop n)

/-- The 32-element blocks of a line (R28). -/
def blocksOf {α : Type} (xs : List α) : List (List α) := chunks 32 (ceilDiv xs.length 32) xs

/-- The largest finite magnitude among values, 0 when there is none. -/
def maxMag (xs : List FVal) : Rat := xs.foldl (fun a x => if a < x.mag then x.mag else a) 0

/-- Whether a destination format has an element for a special value; where it has none the line's scale becomes NaN
(R46). -/
def Fmt.hasSpecials (f : Fmt) : Bool :=
  match f with
  | .cb8e4 | .cb8e5 => true
  | _ => false

/-- The computed axis scale of a line as FP32 bits (R36 for B16, R42 for CB). -/
def computedScale (f : Fmt) (xs : List FVal) : Nat :=
  let m := maxMag xs
  let s : Rat :=
    if m = 0 then 1 else
    match f with
    | .b16 => pow2 (min (floorLog2 m + 1) 127)
    | _ => match f.float with
      | some ff => pow2 (max (ceilLog2 (m / ff.largest)) (-149))
      | none => 1
  FloatFmt.fp32.encode (.num false s)

/-- The largest b from 0 to 15 that satisfies `p`, or 0. -/
def largestOffset (p : Nat → Bool) : Nat := ((List.range 16).reverse.find? p).getD 0

/-- The offset of a block whose largest finite magnitude is `m` under a scale of magnitude `s` (R36, R42, R43, R495). -/
def offsetFor (f : Fmt) (s m : Rat) : Nat :=
  if m = 0 then 15 else
  match f with
  | .b16 => largestOffset (fun b => decide (m * (2 ^ b : Nat) < s))
  | _ => match f.float with
    | some ff => largestOffset (fun b => decide (m * (2 ^ b : Nat) ≤ s * ff.largest))
    | none => 0

/-- One element under scale `s` (signed, non-zero) and offset `b`, and what it counts (R36, R42, R43, R45, R46). -/
def convElem (f : Fmt) (mode : RMode) (s : Rat) (b q : Nat) (x : FVal) : Nat × Ledger :=
  match f, x with
  | .b16, .num neg m =>
    let v := (FVal.num neg m).toRat * (2 ^ b : Nat) * 32768 / s
    let e := roundInt mode q v
    let c : Int := if 32767 < e then 32767 else if e < -32768 then -32768 else e
    (unsigned 16 c, ({ saturate := if c = e then 0 else 1, b16Flush := if v.den = 1 then 0 else 1 } : Ledger))
  | _, .num neg m => match f.float with
    | some ff => ff.write mode true q (FVal.num (neg ^^ decide (s < 0)) (m * (2 ^ b : Nat) / ratAbs s)).exact
    | none => (0, {})
  | _, sp => match f.float with
    | some ff => (if f.hasSpecials then ff.encode sp else 0, .oneSpecial)
    | none => (0, .oneSpecial)

/-- What an input counts when its supplied scale is zero: its element is 0 (R43, R495, R46). -/
def zeroScaleLedger (f : Fmt) (x : FVal) : Ledger :=
  match x with
  | .num _ m => if m = 0 then {} else if f = .b16 then .oneFlush else .oneUnderflow
  | _ => .oneSpecial

/-- One block under the FP32 scale bits `sb`: its elements, its offset and what it counts. `q i` is the random value of
element `i`. -/
def convBlock (f : Fmt) (mode : RMode) (sb : Nat) (q : Nat → Nat) (xs : List FVal) : List Nat × Nat × Ledger :=
  match fp32Val sb with
  | .num neg m =>
    if m = 0 then (xs.map (fun _ => 0), 15, Ledger.sum (xs.map (zeroScaleLedger f)))
    else
      let b := offsetFor f m (maxMag xs)
      let es := xs.zipIdx.map (fun e => convElem f mode (FVal.num neg m).toRat b (q e.2) e.1)
      (es.map (·.1), b, Ledger.sum (es.map (·.2)))
  | _ => (xs.map (fun _ => 0), 15, {})

/-- A converted line: element bits, one offset per block, the FP32 bits of its axis scale, what it counts. -/
structure Line where
  elems : List Nat
  offs  : List Nat
  scale : Nat
  led   : Ledger
  deriving DecidableEq, Repr

/-- Converts a line into a CB format or B16, with computed scales when none is supplied (R36, R42, R43, R46, R495). -/
def convLine (f : Fmt) (mode : RMode) (supplied : Option Nat) (q : Nat → Nat) (xs : List FVal) : Line :=
  let sb := supplied.getD (computedScale f xs)
  let bs := (blocksOf xs).zipIdx.map (fun e => convBlock f mode sb (fun i => q (32 * e.2 + i)) e.1)
  let special := (fp32Val sb).isSpecial
  { elems := bs.flatMap (·.1)
    offs := bs.map (·.2.1)
    scale := if !special && !f.hasSpecials && xs.any FVal.isSpecial then fp32NaN else sb
    led := Ledger.sum ((if special then Ledger.oneSpecial else {}) :: bs.map (·.2.2)) }

/-- Converts an MX line, given as block scale codes and element codes (R47 to R49). -/
def mxLine (xj : List Nat) (blocks : List (List Nat)) : Line :=
  let xmax := (xj.filter (· ≠ 0xFF)).foldl max 0
  let hasNaN := xj.any (· == 0xFF)
  let bs := xj.zip blocks |>.map (fun e =>
    if e.1 = 0xFF then (e.2, Config.nanBlockOffset.toNat, Ledger.oneSpecial)
    else if 15 < xmax - e.1 then (e.2.map (fun _ => 0), 15, ({ offsetClamp := 1 } : Ledger))
    else (e.2, xmax - e.1, ({} : Ledger)))
  { elems := bs.flatMap (·.1)
    offs := bs.map (·.2.1)
    scale := if hasNaN then fp32NaN else FloatFmt.fp32.encode (.num false (pow2 ((xmax : Int) - 127)))
    led := Ledger.sum (bs.map (·.2.2)) }

/-- The value of an element with its block offset applied and its axis scale not (R34, R35, R40). -/
def arrayVal (f : Fmt) (elem off : Nat) : FVal :=
  match f with
  | .b16 => FVal.ofRat ((signed 16 elem : Rat) / 32768 / (2 ^ off : Nat))
  | .w128 => (Cum.decode elem).toFVal
  | _ => match f.float with
    | some ff => match ff.decode elem with
      | .num s m => .num s (m / (2 ^ off : Nat))
      | v => v
    | none => FVal.ofRat elem

/-- The exact value of a tensor entry (R34, R35, R37, R38): element bits, offset (or the E8M0 code of an MX block),
FP32 scale bits and zero point. -/
def entryVal (f : Fmt) (elem off scale zp : Nat) : FVal :=
  match f with
  | .int8 | .int4 =>
    if zp = 0xFFFF then fp32Val scale
    else (FVal.mul (FVal.ofRat ((elem : Rat) - (zp : Rat))) (fp32Val scale)).exact
  | .fp32 | .bf16 | .fp16 | .w128 => arrayVal f elem 0
  | .mx8e4 | .mx8e5 | .mx6e3 | .mx6e2 | .mx4 =>
    if off = 0xFF then .nan else (FVal.mul (arrayVal f elem 0) (.num false (pow2 ((off : Int) - 127)))).exact
  | _ => (FVal.mul (arrayVal f elem off) (fp32Val scale)).exact

/-- Packs elements by R30: element i at bits w·i of the little-endian group. -/
def packElems (f : Fmt) (es : List Nat) : Bytes :=
  toLe (f.packedBytes es.length) (es.zipIdx.foldl (fun acc e => acc + (e.1 % 2 ^ f.width) * 2 ^ (f.width * e.2)) 0)

/-- The `n` elements that packed bytes hold. -/
def unpackElems (f : Fmt) (n : Nat) (bs : Bytes) : List Nat :=
  let w := fromLe bs
  (List.range n).map (fun i => bits w (f.width * i) f.width)

/-- Packs block offsets two per byte; an unused high nibble is 0 (R29). -/
def packOffs (offs : List Nat) : Bytes :=
  toLe (ceilDiv offs.length 2) (offs.zipIdx.foldl (fun acc e => acc + (e.1 % 16) * 16 ^ e.2) 0)

/-- The parameters of a quantised line: FP32 scale bits and zero point (R37, R38). -/
structure QParams where
  scale : Nat
  zp    : Nat
  deriving DecidableEq, Repr

/-- The code range's top (R162). -/
def qTop (f : Fmt) : Nat := if f = .int4 then 15 else 255

/-- The least and greatest finite values of a line (R161). A line without a finite value has no range the spec states:
both ends are free values (log 6). -/
def rangeOf (xs : List FVal) : Rat × Rat :=
  match (xs.filter (fun x => !x.isSpecial)).map FVal.toRat with
  | [] => ((fp32Val Config.emptyRangeMin.toNat).toRat, (fp32Val Config.emptyRangeMax.toNat).toRat)
  | v :: vs => vs.foldl (fun a x => (if x < a.1 then x else a.1, if a.2 < x then x else a.2)) (v, v)

/-- FP32 bits of a real number, rounded to nearest even. -/
def toFp32 (x : Rat) : Nat := (FloatFmt.fp32.write .rne false 0 (FVal.ofRat x)).1

/-- Steps 2 to 4 of R162 on a range. A range so small that its scale rounds to 0 has no zero point the spec states: it
is a free value (log 6). -/
def qParamsOf (top : Nat) (mn mx : Rat) : QParams :=
  let lo := min mn 0
  let hi := max mx 0
  if lo = hi then ⟨0, 0xFFFF⟩ else
  let sb := toFp32 ((hi - lo) / (top : Rat))
  let s := (fp32Val sb).toRat
  let z : Int := if s = 0 then (Config.zeroScaleCode 0).toNat else roundInt .rne 0 (-lo / s)
  ⟨sb, (max 0 (min z (top : Int))).toNat⟩

/-- The computed parameters of a line (R162, step 1 first). -/
def qComputed (top : Nat) (mn mx : Rat) : QParams :=
  if mn = mx then ⟨toFp32 mn, 0xFFFF⟩ else qParamsOf top mn mx

/-- The carried parameters of a line: the previous window's range widened by an eighth of its width (R162). -/
def qCarried (top : Nat) (mn mx : Rat) : QParams :=
  let w := (mx - mn) / 8
  qParamsOf top (mn - w) (mx + w)

/-- The code of one input under a line's parameters and what it counts (R162, R163). `carriedConst` marks a carried line
that became a constant channel of 0. Under a scale that is 0 or special the code is a free value (log 6). -/
def qCode (top : Nat) (mode : RMode) (q : Nat) (p : QParams) (carriedConst : Bool) (x : FVal) : Nat × Ledger :=
  match x with
  | .nan => (if p.zp = 0xFFFF then 0 else p.zp, .oneSpecial)
  | .inf neg => (if p.zp = 0xFFFF then 0 else if neg then 0 else top, .oneSpecial)
  | .num neg m =>
    if p.zp = 0xFFFF then (0, if carriedConst && decide (m ≠ 0) then .oneClip else {})
    else
      match fp32Val p.scale with
      | .num sneg s =>
        if s = 0 then ((Config.zeroScaleCode (BitVec.ofNat 32 (toFp32 m))).toNat % (top + 1), {})
        else
          let u := roundInt mode q ((FVal.num neg m).toRat / (FVal.num sneg s).toRat) + (p.zp : Int)
          let c := max 0 (min u (top : Int))
          (c.toNat, if c = u then {} else .oneClip)
      | _ => ((Config.zeroScaleCode (BitVec.ofNat 32 (toFp32 m))).toNat % (top + 1), {})

end Sys2Proof.Machine
end

