-- ==== Sys2Proof/Machine/Store.lean ====
section
/-! DEFINITION. Finite tables held as plain data: a table is a list of key and value pairs in one canonical form (keys
strictly rising, no entry equal to what an unlisted key reads as), so that equal tables are equal data. Memory is such
a table of bytes. -/

namespace Sys2Proof.Machine

/-- A table from numbers to values, in canonical form (`SMap.wf`). -/
abbrev SMap (α : Type) := List (Nat × α)

/-- A byte memory: address and byte pairs. Every memory of the block has this form: HBM, scratchpad, core stores. -/
abbrev Mem := List Host.Cell

variable {α : Type}

/-- The value a table holds at key `k`; an unlisted key reads as `d`. -/
def SMap.get (d : α) (k : Nat) : SMap α → α
  | [] => d
  | (a, v) :: m => if a = k then v else SMap.get d k m

/-- Removes key `k` from a table. -/
def SMap.erase (k : Nat) : SMap α → SMap α
  | [] => []
  | (a, v) :: m => if a = k then SMap.erase k m else (a, v) :: SMap.erase k m

/-- Puts `v` at key `k` before the first larger key. -/
def SMap.insert (k : Nat) (v : α) : SMap α → SMap α
  | [] => [(k, v)]
  | (a, w) :: m => if a < k then (a, w) :: SMap.insert k v m else (k, v) :: (a, w) :: m

/-- Writes `v` at key `k`; writing what an unlisted key reads as removes the entry. -/
def SMap.set [DecidableEq α] (d : α) (k : Nat) (v : α) (m : SMap α) : SMap α :=
  if v = d then SMap.erase k m else SMap.insert k v (SMap.erase k m)

/-- The keys of a table rise strictly. -/
def SMap.rising : SMap α → Bool
  | [] => true
  | [_] => true
  | (a, _) :: (b, w) :: m => decide (a < b) && SMap.rising ((b, w) :: m)

/-- The canonical form of a table. -/
def SMap.wf [DecidableEq α] (d : α) (m : SMap α) : Bool :=
  SMap.rising m && m.all (fun e => decide (e.2 ≠ d))

/-- What a byte of memory that nothing has written reads as. DESIGN CHOICE (log 2): the spec gives no power-on
contents of HBM, Nimbus or a core store; the model reads 0. Unsafe. -/
def Mem.unwritten : Byte := 0

/-- One byte of a memory. -/
def Mem.read (m : Mem) (a : Nat) : Byte := SMap.get Mem.unwritten a m

/-- Writes one byte of a memory. -/
def Mem.write (m : Mem) (a : Nat) (b : Byte) : Mem := SMap.set Mem.unwritten a b m

/-- The canonical form of a memory. -/
def Memory.wf (m : Mem) : Bool := SMap.wf Mem.unwritten m

/-- `n` bytes from address `a` on, in memory order. -/
def Mem.readN (m : Mem) (a : Nat) : Nat → Bytes
  | 0 => []
  | n + 1 => m.read a :: Mem.readN m (a + 1) n

/-- Writes bytes from address `a` on. -/
def Mem.writeN (m : Mem) (a : Nat) : Bytes → Mem
  | [] => m
  | b :: bs => Mem.writeN (m.write a b) (a + 1) bs

/-- Clears the bytes whose address `keep` rejects. -/
def Mem.filter (m : Mem) (keep : Nat → Bool) : Mem := List.filter (fun e => keep e.1) m

end Sys2Proof.Machine
end

