-- ==== Sys2Proof/Machine/CoreParts.lean ====
section
/-! DEFINITION. The parts of one core as plain data: arrays, walk store, gradient tile buffer, vector threads, sequencer
and its queues (chapters 03 to 07). -/

namespace Sys2Proof.Machine

/-- A resolved address (R181): a device address of the partition, or an offset in the store of a physical core. -/
inductive Loc where
  | dev (a : Nat)
  | cst (phys off : Nat)
  deriving DecidableEq, Repr

/-- A location `n` bytes further. -/
def Loc.plus (l : Loc) (n : Nat) : Loc :=
  match l with
  | .dev a => .dev (a + n)
  | .cst c o => .cst c (o + n)

/-- The number of a location: the device address or the offset. -/
def Loc.num : Loc → Nat
  | .dev a => a
  | .cst _ o => o

/-- The 2,048 cells of a bank, row by row (cell 16m + n); an empty list is the `ZERO` state of every cell (R68, R96). -/
abbrev Tile := List Cum

/-- A bias vector attached to a bank for its drain (R69). -/
structure Bias where
  loc  : Loc
  axis : Bool
  deriving DecidableEq, Repr

/-- One physical bank of an array as the engine holds it: its registers and attached bias (R63, R69). -/
structure Bank where
  tile : Tile
  bias : Option Bias
  deriving DecidableEq, Repr

/-- One outer-product array with its drain unit and walk store (R96, R112, R116, R124, R131, R145). `cnt`, `biasOn` and
`slotCnt` are the sequencer's counts at dispatch, by bank name and slot (R66, R112, R132). -/
structure Arr where
  bank0   : Bank
  bank1   : Bank
  map     : Bool
  staged  : Option Tile
  hold    : Bool
  lastShift : Nat
  calmDis : Bool
  cnt     : List Nat
  biasOn  : List Bool
  slots   : SMap Tile
  slotCnt : List Nat
  deriving DecidableEq, Repr

/-- The side register of a buffer half: four offsets and an FP32 scale (R125). -/
structure Side where
  offs  : Nat
  scale : Nat
  deriving DecidableEq, Repr

/-- What a thread is doing (R152, R153, R155). -/
inductive ThreadSt where
  | free
  | running
  | atBarrier
  | ended
  | failed (code detail : Nat)
  deriving DecidableEq, Repr

/-- One of the 16 threads: the record it belongs to, its program counter and its 32 registers of 256 B, unlisted
registers zero (R146, R152). -/
structure Thread where
  st   : ThreadSt
  serial : Nat
  pc   : Loc
  regs : SMap (BitVec 2048)
  deriving DecidableEq, Repr

/-- An operand reference with its address resolved (R104, R184). -/
structure OpRef where
  fmt  : Fmt
  gtb  : Bool
  half : Bool
  down : Bool
  tile : Nat
  rows : Nat
  cols : Nat
  sa0  : Nat
  ka0  : Nat
  deriving DecidableEq, Repr

/-- Where a drain takes an axis scale from (R186): the record, or a plane. -/
inductive ScaleSrc where
  | scalar (lo hi : Nat)
  | plane (l : Loc)
  deriving DecidableEq, Repr

/-- A drain block with its addresses resolved (R186). -/
structure Drain where
  out    : Fmt
  mode   : RMode
  sat    : Bool
  add    : Bool
  biasAxis : Bool
  site   : Nat
  dest   : Loc
  stride : Nat
  scaleA : ScaleSrc
  scaleB : ScaleSrc
  deriving DecidableEq, Repr

/-- A cirrus record's outlier operands (R168, R188). -/
structure Outlier where
  list  : Loc
  plane : Loc
  nside : OpRef
  deriving DecidableEq, Repr

/-- A quantiser record's operand area with its addresses resolved (R190). -/
structure QuantOp where
  inHdr   : Loc
  outHdr  : Loc
  axis    : Bool
  qparam  : Nat
  mode    : RMode
  auto    : Nat
  win     : Nat
  seq     : Nat
  flag    : Nat
  thresh  : Nat
  site    : Nat
  list    : Option Loc
  plane   : Option Loc
  qscale  : Option Loc
  qzp     : Option Loc
  range   : Nat
  deriving DecidableEq, Repr

/-- A record as its engine receives it: its operand area decoded and every address resolved (R181, R185 to R192). -/
inductive Op where
  | pass (m n : OpRef) (k rows cols : Nat) (bank fold : Bool) (slot : Nat)
  | front (d : Option Drain) (bank swap : Bool) (preload : Nat) (rows cols tileNo : Nat) (pre : Option Loc)
      (biasAxis : Bool)
  | slotdrain (d : Drain) (slot rows cols tileNo : Nat) (bias : Option Loc)
  | cirrus (m n : OpRef) (k rows cols : Nat) (bank : Bool) (d : Drain) (bias : Option Loc) (repeats : Bool)
      (flag tileNo : Nat) (outl : Option Outlier)
  | launch (entry : Loc) (threads : Nat) (args : List Nat)
  | quant (q : QuantOp)
  | dma (chan count : Nat) (desc : Loc) (srcAdj dstAdj : Int) (sv : List Nat) (pairs : List (Nat × Nat))
  | bdma (bdie chan port count : Nat) (desc : Loc) (srcAdj dstAdj : Int) (sv : List Nat) (pairs : List (Nat × Nat))
  | nop
  | barrier (seq scope : Nat)
  | signal (core ctr inc module : Nat) (remote : Bool)
  | tokset (ctr value : Nat)
  | inval
  | endStream
  deriving DecidableEq, Repr

/-- How far a queued record has come (R194, R195, R198): waiting in its queue, running on its engine (`shift` is the
shift a saturated cirrus pass repeats with), or done with its outcome and waiting for its completion point. -/
inductive Phase where
  | waiting
  | running (shift : Nat)
  | done (status : Nat) (led : Ledger) (detail shift : Nat)
  deriving DecidableEq, Repr

/-- One queue entry (R178, R194): the record's header fields, its position and instance number, the stream key latched
at its dispatch (R206) and its operation. -/
structure QEntry where
  op      : Op
  phase   : Phase
  engine  : Nat
  places  : Nat
  serial  : Nat
  index   : Nat
  tag     : Nat
  opid    : Nat
  cpl     : Bool
  waitEn  : Bool
  observe : Bool
  waitCtr : Nat
  waitCnt : Nat
  sigEn   : Bool
  sigCtr  : Nat
  sigInc  : Nat
  key     : Nat
  headAt  : Option Nat
  led     : Ledger
  deriving DecidableEq, Repr

/-- An open loop (R207): the position of its `LOOP`, of its `ENDLOOP`, and the runs still to make. -/
structure LoopFrame where
  start  : Nat
  target : Nat
  left   : Nat
  deriving DecidableEq, Repr

/-- The fields of a stream result that the first failure, or the end, sets (R215, R216). -/
structure Failure where
  status : Nat
  engine : Nat
  tag    : Nat
  opid   : Nat
  index  : Nat
  detail : Nat
  ftime  : Nat
  deriving DecidableEq, Repr

/-- A core's sequencer and the state of its stream (R177, R193 to R209, R224). -/
structure Seq where
  running   : Bool
  halted    : Bool
  dirIndex  : Nat
  base      : Nat
  len       : Nat
  pos       : Nat
  ended     : Bool
  key       : Nat
  sv        : List Nat
  pairs     : List (Nat × Nat)
  loops     : List LoopFrame
  tokens    : List Nat
  misfit    : List Bool
  serial    : Nat
  retried   : Bool
  parityEvents : Nat
  error     : Nat
  failure   : Option Failure
  errCount  : Nat
  arrived   : Option Nat
  arrivedAt : Nat
  frozen    : Bool
  startFt   : Option Nat
  endMissed : Bool
  deriving DecidableEq, Repr

/-- An array after reset (R117, R124, R131): both banks and every slot in the `ZERO` state. -/
def Arr.reset : Arr :=
  { bank0 := ⟨[], none⟩, bank1 := ⟨[], none⟩, map := false, staged := none, hold := false, lastShift := 0,
    calmDis := false, cnt := [0, 0], biasOn := [false, false], slots := [], slotCnt := List.replicate 16 0 }

/-- The clearing of an array between jobs (R177): its `CALM_DIS` bit and last shift are registers and stay. -/
def Arr.cleared (a : Arr) : Arr := { Arr.reset with calmDis := a.calmDis, lastShift := a.lastShift }

/-- A free thread. -/
def Thread.reset : Thread := { st := .free, serial := 0, pc := .dev 0, regs := [] }

/-- A sequencer after reset (R224). -/
def Seq.reset : Seq :=
  { running := false, halted := false, dirIndex := 0, base := 0, len := 0, pos := 0, ended := false, key := 0,
    sv := List.replicate 16 0, pairs := List.replicate 8 (0, 0), loops := [], tokens := List.replicate 32 0,
    misfit := List.replicate 16 false, serial := 0, retried := false, parityEvents := 0, error := 0, failure := none,
    errCount := 0, arrived := none, arrivedAt := 0, frozen := false, startFt := none,
    endMissed := false }

end Sys2Proof.Machine
end

