-- ==== Sys2Proof/Machine/MemParts.lean ====
section
/-! DEFINITION. The parts of data movement and memory as plain data: DMA channels, stale-watch windows, Nimbus slices,
HBM controllers (chapters 08 and 09), and one core with all it holds. -/

namespace Sys2Proof.Machine

/-- A block tensor header with its plane addresses resolved (R31). -/
structure Tensor where
  fmt    : Fmt
  down   : Bool
  rows   : Nat
  cols   : Nat
  elem   : Option Loc
  offs   : Option Loc
  scale  : Option Loc
  zp     : Option Loc
  eStride : Nat
  oStride : Nat
  deriving DecidableEq, Repr

/-- A descriptor with its fields decoded and its addresses resolved (R229 to R235). For a conversion, `src` and `dst` are
the two headers. -/
structure Desc where
  index    : Nat
  crcEn    : Bool
  crcWrite : Bool
  crcCheck : Bool
  order    : Bool
  signx    : Bool
  gtb      : Bool
  watch    : Bool
  fresh    : Bool
  nomerge  : Bool
  remSrc   : Bool
  remDst   : Bool
  compute  : Bool
  mode     : RMode
  srcW     : Nat
  dstW     : Nat
  conv     : Nat
  rowBytes : Nat
  src      : Loc
  dst      : Loc
  rows     : Nat
  srcStride : Nat
  dstStride : Nat
  dlMode   : Nat
  win      : Nat
  watchTag : Nat
  deadline : Nat
  crcAddr  : Nat
  module   : Nat
  deriving DecidableEq, Repr

/-- A latched bus error (R241, R259). -/
structure ErrLatch where
  addr   : Nat
  write  : Bool
  index  : Nat
  cause  : Nat
  module : Nat
  remote : Bool
  deriving DecidableEq, Repr

/-- A descriptor in progress: the lengths and indices of the descriptors merged into it (R236), the two headers of a
conversion (R234), the reads still to issue, the bytes read so far of the row at hand, the writes still to issue, the row
at hand, the fabric-time tag of its requests (R244), the transaction a remote request waits for, whether its last request
got no response (R269), and the window it is a re-issue for (R253). -/
structure Cur where
  desc    : Desc
  lens    : List (Nat × Nat)
  conv    : Option (Tensor × Tensor)
  reads   : List (Loc × Nat)
  buf     : Bytes
  writes  : List (Loc × Bytes)
  row     : Nat
  tag     : Nat
  remote  : Option Nat
  lost    : Bool
  redo    : Option Nat
  deriving DecidableEq, Repr

/-- A record that runs on a channel (R195, R228, R231): whose record it is, its list, the latched copies of stream
variables and buffer pairs, the checked batch, the running checksum (R239), the ledger, the descriptors whose missed
deadline has been raised (R256), and the error response that stopped it (R241). -/
structure ChRun where
  core   : Nat
  serial : Nat
  port   : Nat
  count  : Nat
  next   : Nat
  list   : Loc
  srcAdj : Int
  dstAdj : Int
  sv     : List Nat
  pairs  : List (Nat × Nat)
  batch  : List (Desc × List (Nat × Nat))
  cur    : Option Cur
  crc    : Nat
  led    : Ledger
  missed : List Nat
  err    : Option ErrLatch
  deriving DecidableEq, Repr

/-- One DMA channel (R225, R242, R247, R259). `redo` is a watched descriptor to run once more, with its window (R253). -/
structure Chn where
  drizzle : Nat
  latch   : Option ErrLatch
  run     : Option ChRun
  redo    : Option (Desc × Nat)
  deriving DecidableEq, Repr

/-- One stale-watch window (R252, R253): its consumer's tag and, once dispatched, instance number, the watched lines and
those already read, the flag, and the descriptor for a re-issue. -/
structure Watch where
  armed    : Bool
  tag      : Nat
  recSerial : Nat
  lo       : Nat
  hi       : Nat
  served   : SMap Bool
  flag     : Bool
  fresh    : Bool
  chan     : Nat
  desc     : Option Desc
  reissued : Bool
  redoing  : Bool
  deriving DecidableEq, Repr

/-- One way of a Nimbus cache set that holds a line (R284). -/
structure CLine where
  valid : Bool
  addr  : Nat
  dirty : Bool
  deriving DecidableEq, Repr

/-- A no-allocate window (R291). -/
structure NoAlloc where
  base  : Nat
  en    : Bool
  limit : Nat
  deriving DecidableEq, Repr

/-- One Nimbus slice (R283 to R291): the slab modes written and in force, the slabs retired and marked for
retirement (R407), the cache directory (key 16·set + way), the
tree bits of each set, the bytes of its scratchpad slabs (key 1 MiB·slab + offset), the poison bits of its lines (key:
device address of the line), and the status fields. -/
structure Slice where
  mode     : List W32
  inForce  : Nat
  busy     : Bool
  pendingMode : Option Nat
  applyErr : Bool
  dir      : SMap CLine
  plru     : SMap Nat
  scratch  : Mem
  poison   : SMap Bool
  noalloc  : List NoAlloc
  retired  : Nat
  marked   : Nat
  ce       : Nat
  ue       : Nat
  deriving DecidableEq, Repr

/-- A row that waits for repair: pseudo-channel, channel, bank, row (R276). -/
structure RowId where
  pc      : Nat
  channel : Nat
  bank    : Nat
  row     : Nat
  deriving DecidableEq, Repr

/-- One stack's HBM controller (R270 to R280, R292). -/
structure Hbmc where
  trained  : Bool
  scrubActive : Bool
  migrating : Bool
  repairs  : Nat
  period   : Nat
  retired0 : Nat
  retired1 : Nat
  ce       : Nat
  pendRows : List RowId
  repairing : Option RowId
  scrubPos : Nat
  deriving DecidableEq, Repr

/-- A channel after reset (R259). -/
def Chn.reset : Chn := { drizzle := 0, latch := none, run := none, redo := none }

/-- A closed window (R252). -/
def Watch.reset : Watch :=
  { armed := false, tag := 0, recSerial := 0, lo := 0, hi := 0, served := [], flag := false, fresh := false, chan := 0,
    desc := none, reissued := false, redoing := false }

/-- Slabs of a slice (R283). -/
def slabCount : Nat := 144

/-- A Nimbus slice after reset (R291): every slab a cache slab. -/
def Slice.reset : Slice :=
  { mode := [0xFFFF_FFFF, 0xFFFF_FFFF, 0xFFFF_FFFF, 0xFFFF_FFFF, 0x0000_FFFF], inForce := 2 ^ 144 - 1, busy := false,
    pendingMode := none, applyErr := false, dir := [], plru := [], scratch := [], poison := [],
    noalloc := List.replicate 4 ⟨0, false, 0⟩, retired := 0, marked := 0, ce := 0, ue := 0 }

/-- A controller after full reset (R292). -/
def Hbmc.reset : Hbmc :=
  { trained := false, scrubActive := false, migrating := false, repairs := 0, period := 24, retired0 := 0,
    retired1 := 0, ce := 0, pendRows := [], repairing := none, scrubPos := 0 }

end Sys2Proof.Machine
end

