-- ==== Sys2Proof/Machine/Operands.lean ====
section
/-! DEFINITION. Operand forms: address fields and their selectors (R180, R181), core-store tiles (R99, R104), block
tensor headers (R31, R32), gradient tile images (R128). -/

namespace Sys2Proof.Machine

/-- Bytes of a core store (R98). -/
def coreStoreBytes : Nat := 2 * 1024 * 1024

/-- Bytes of the device address space (R260). -/
def deviceSpace : Nat := 2 ^ 44

/-- What a sequencer knows when it decodes an address field: its physical core, the stream variables and buffer pairs,
and the logical cores of its partition with the physical cores that carry them (R7, R181). -/
structure AddrEnv where
  phys  : Nat
  sv    : List Nat
  pairs : List (Nat × Nat)
  cores : List (Nat × Nat)
  deriving DecidableEq, Repr

/-- The physical core that carries logical core `l` of the partition. -/
def AddrEnv.carrier (e : AddrEnv) (l : Nat) : Option Nat := e.cores.lookup l

/-- `INDEX` of a selector. -/
def selIndex (sel : Nat) : Nat := bits sel 0 4
/-- `REL` of a selector. -/
def selRel (sel : Nat) : Nat := bits sel 4 2
/-- `SPACE` of a selector. -/
def selSpace (sel : Nat) : Nat := bits sel 6 2

/-- What a selector's `REL` adds to an address: nothing, a stream variable, or the half of a buffer pair (R180). -/
def AddrEnv.base (e : AddrEnv) (sel : Nat) : Option Nat :=
  match selRel sel with
  | 0 => some 0
  | 1 => some (e.sv.getD (selIndex sel) 0)
  | 2 =>
    if selSpace sel = 1 then
      let pr := e.pairs.getD (selIndex sel % 8) (0, 0)
      some (if 8 ≤ selIndex sel then pr.2 else pr.1)
    else none
  | _ => none

/-- The core that a 64-bit address field names is present in the partition (R181, step 3 of R196). -/
def AddrEnv.present (e : AddrEnv) (w : Nat) : Bool :=
  if selSpace (bits w 56 8) = 2 then (e.carrier (bits w 32 9)).isSome else true

/-- Resolves a 64-bit address field, or refuses it (R180, R181). -/
def AddrEnv.resolve (e : AddrEnv) (w : Nat) : Option Loc :=
  let sel := bits w 56 8
  if bits w 44 12 ≠ 0 then none else
  match e.base sel with
  | none => none
  | some b =>
    match selSpace sel with
    | 0 =>
      let a := bits w 0 44 + b
      if a < deviceSpace then some (.dev a) else none
    | 1 =>
      let o := bits w 0 21 + b
      if bits w 21 23 = 0 ∧ o < coreStoreBytes then some (.cst e.phys o) else none
    | 2 =>
      let o := bits w 0 21 + b
      match e.carrier (bits w 32 9) with
      | none => none
      | some c => if bits w 21 11 = 0 ∧ bits w 41 3 = 0 ∧ o < coreStoreBytes then some (.cst c o) else none
    | _ => none

/-- Resolves a 32-bit core-store field (R180): `SPACE` 01 only. -/
def AddrEnv.resolveTile (e : AddrEnv) (w : Nat) : Option Nat :=
  let sel := bits w 24 8
  if bits w 21 3 ≠ 0 ∨ selSpace sel ≠ 1 then none else
  match e.base sel with
  | none => none
  | some b => let o := bits w 0 21 + b; if o < coreStoreBytes then some o else none

/-- A location and `n` bytes from it on lie inside their space (R181). -/
def Loc.fits (l : Loc) (n : Nat) : Bool :=
  match l with
  | .dev a => decide (a + n ≤ deviceSpace)
  | .cst _ o => decide (o + n ≤ coreStoreBytes)

/-- A location that is in a core store. -/
def Loc.isCore : Loc → Bool
  | .cst _ _ => true
  | .dev _ => false

/-- The extent rule of R181 for an extent known at dispatch: it binds core-store extents. -/
def Loc.extentOk (l : Loc) (n : Nat) : Bool := !l.isCore || l.fits n

/-! ## Core-store tiles -/

/-- Where the parts of a core-store tile lie from its first byte (R99): offset lines, axis scales, zero points, and the
bytes it takes in all. The spec fixes the micro-tiles and leaves the order of the rest to the core DMA: DESIGN CHOICE
(log 7). -/
structure TileLayout where
  offsAt  : Nat
  scaleAt : Nat
  zpAt    : Nat
  bytes   : Nat
  deriving DecidableEq, Repr

/-- The number of block offsets of one line of `n` elements (R28). -/
def blocksIn (n : Nat) : Nat := ceilDiv n 32

/-- Bytes of one line of packed offsets (R29). -/
def offsLineBytes (n : Nat) : Nat := ceilDiv (blocksIn n) 2

/-- The layout of a tile of `rows` by `cols` elements; `down` is `BLOCK_AXIS`. -/
def tileLayout (f : Fmt) (rows cols : Nat) (down : Bool) : TileLayout :=
  let lines := if down then cols else rows
  let len := if down then rows else cols
  let elemBytes := rows * cols * f.width / 8
  let offsAt := alignUp elemBytes 64
  let scaleAt := if f.isInt then offsAt else alignUp (offsAt + lines * offsLineBytes len) 64
  let zpAt := alignUp (scaleAt + 4 * lines) 64
  { offsAt, scaleAt, zpAt, bytes := if f.isInt then alignUp (zpAt + 2 * lines) 64 else zpAt }

/-- The bit position, from the tile's first byte, of the element at stored row `r` and column `c`: micro-tiles of 16 by
16 in row-major order, each holding its packed rows in rising order (R99). -/
def tileElemBit (f : Fmt) (cols r c : Nat) : Nat :=
  ((r / 16 * (cols / 16) + c / 16) * (32 * f.width) + r % 16 * (2 * f.width)) * 8 + c % 16 * f.width

/-- Length of the scale axis of an operand. -/
def OpRef.scaleLen (o : OpRef) : Nat := if o.down then o.cols else o.rows
/-- Length of the block axis of an operand. -/
def OpRef.blockLen (o : OpRef) : Nat := if o.down then o.rows else o.cols
/-- The layout of an operand's tile. -/
def OpRef.layout (o : OpRef) : TileLayout := tileLayout o.fmt o.rows o.cols o.down

/-- An operand reference read from its 16 bytes (R184), its tile resolved. -/
def readOpRef (e : AddrEnv) (bs : Bytes) (off : Nat) : Option OpRef :=
  match Fmt.ofCode (u8 bs off) with
  | none => none
  | some f =>
    let fl := u8 bs (off + 1)
    let gtb := bit fl 0
    match (if gtb then some 0 else e.resolveTile (u32 bs (off + 4))) with
    | none => none
    | some t =>
      some { fmt := f, gtb, half := bit fl 2, down := bit fl 1, tile := t, rows := 16 * u16 bs (off + 8),
             cols := 16 * u16 bs (off + 10), sa0 := 16 * u16 bs (off + 12), ka0 := 32 * u16 bs (off + 14) }

/-- The reserved bits of an operand reference are zero. -/
def opRefReserved (bs : Bytes) (off : Nat) : Bool := bits (u8 bs (off + 1)) 3 5 == 0 && zeroAt bs (off + 2) 2

/-- The range checks of R104 and R130 on an operand that is read at `n` scale-axis and `k` block-axis indices; `mside`
tells the sides of the buffer apart. -/
def OpRef.valid (o : OpRef) (mside : Bool) (n k : Nat) : Bool :=
  if o.gtb then
    (o.fmt.isCB || o.fmt == .b16) && !(o.fmt == .b16 && o.half) && o.sa0 == 0
      && (if mside then o.ka0 == 0 && decide (k ≤ 16) else decide (o.ka0 < 128) && decide (o.ka0 + k ≤ 128))
  else
    o.tile % 512 == 0 && decide (16 ≤ o.rows) && decide (o.rows ≤ 16384) && decide (16 ≤ o.cols)
      && decide (o.cols ≤ 16384) && decide (o.sa0 + n ≤ o.scaleLen) && decide (o.ka0 + k ≤ o.blockLen)
      && decide (o.tile + o.layout.bytes ≤ coreStoreBytes)

/-! ## Block tensor headers -/

/-- A plane address field of a header: 0 names no plane; `REL` is 00 and the plane starts on a 64 B boundary (R31). -/
def headerPlane (e : AddrEnv) (w : Nat) : Option (Option Loc) :=
  if w = 0 then some none
  else if selRel (bits w 56 8) ≠ 0 then none
  else match e.resolve w with
    | none => none
    | some l => if l.num % 64 = 0 then some (some l) else none

/-- Whether a format keeps an offset plane (R27), or MX scale bytes in the same order (R32). -/
def Fmt.hasOffs (f : Fmt) : Bool := f.isCB || f == .b16
/-- Whether a format's header names a scale plane (R27, R32). -/
def Fmt.hasScale (f : Fmt) : Bool := f.isCB || f == .b16 || f.isInt || f.isMX

/-- Reads a header from its 64 bytes, or refuses it with the conditions of R31 and R32. -/
def readHeader (e : AddrEnv) (bs : Bytes) : Option Tensor :=
  match Fmt.ofCode (u8 bs 0), headerPlane e (u64 bs 16), headerPlane e (u64 bs 24), headerPlane e (u64 bs 32),
      headerPlane e (u64 bs 48) with
  | some f, some el, some of, some sc, some zp =>
    let rows := u32 bs 4
    let cols := u32 bs 8
    let es := u32 bs 40
    let os := u32 bs 44
    if bits (u8 bs 1) 2 6 == 0 && zeroAt bs 2 2 && zeroAt bs 12 4 && zeroAt bs 56 8
        && decide (1 ≤ rows) && decide (rows ≤ 2 ^ 24) && decide (1 ≤ cols) && decide (cols ≤ 2 ^ 24)
        && es % 64 == 0 && os % 64 == 0
        && (f.hasOffs || (of == none && os == 0)) && (f.isInt || zp == none) && (f.hasScale || sc == none)
    then some { fmt := f, down := bit (u8 bs 1) 0, rows, cols, elem := el, offs := of, scale := sc, zp,
                eStride := es, oStride := os }
    else none
  | _, _, _, _, _ => none

/-- Lines along the scale axis. -/
def Tensor.lines (t : Tensor) : Nat := if t.down then t.cols else t.rows
/-- Elements of one line. -/
def Tensor.lineLen (t : Tensor) : Nat := if t.down then t.rows else t.cols
/-- Stored rows of the element plane: the block-axis length is rounded up to whole blocks (R28). -/
def Tensor.storedRows (t : Tensor) : Nat := if t.down && t.fmt.hasScale then alignUp t.rows 32 else t.rows
/-- Stored columns of the element plane. -/
def Tensor.storedCols (t : Tensor) : Nat := if !t.down && t.fmt.hasScale then alignUp t.cols 32 else t.cols
/-- Bytes of one stored row. -/
def Tensor.rowBytes (t : Tensor) : Nat := t.fmt.packedBytes t.storedCols
/-- Bytes of one line of offsets, or of MX scale bytes (R29, R32). -/
def Tensor.offsBytes (t : Tensor) : Nat := if t.fmt.isMX then blocksIn t.lineLen else offsLineBytes t.lineLen

/-! ## Gradient tile images -/

/-- Element bytes of a gradient tile image (R128). -/
def gtElemBytes (f : Fmt) : Nat := 2048 * f.width / 8

/-- The formats that the shared gradient tile buffer holds (R125). -/
def gtFmtOk (f : Fmt) : Bool := f.isCB || f == .b16

/-- Whether bytes are a valid gradient tile image: a format of R125 and zero reserved bytes (R128). -/
def gtImageFmt (bs : Bytes) : Option Fmt :=
  match Fmt.ofCode (u8 bs (bs.length - 58)) with
  | none => none
  | some f =>
    if gtFmtOk f && bs.length == gtElemBytes f + 64 && zeroAt bs (bs.length - 57) 57 then some f else none

end Sys2Proof.Machine
end

