-- ==== Sys2Proof/Machine/Records.lean ====
section
/-! DEFINITION. The records of a command stream: header, reserved fields, presence, ranges and the resolved operation of
each queue record, in the order of checks of R196 (chapter 07: R178 to R192). -/

namespace Sys2Proof.Machine

/-- The opcodes of R182 with what the table gives each: its engine kind and how many extensions it takes. -/
inductive EngKind where
  | arrays | vec | dmaq | sync | seqr
  deriving DecidableEq, Repr

/-- The row of the opcode table for an opcode (R182). -/
def opcodeRow (op : Nat) : Option (EngKind × Nat × Nat) :=
  if op = 0x01 ∨ op = 0x02 ∨ op = 0x03 then some (.arrays, 0, 0)
  else if op = 0x04 then some (.arrays, 1, 2)
  else if op = 0x10 then some (.vec, 0, 0)
  else if op = 0x11 then some (.vec, 1, 1)
  else if op = 0x20 ∨ op = 0x21 then some (.dmaq, 0, 0)
  else if op = 0x30 ∨ op = 0x31 ∨ op = 0x32 ∨ op = 0x33 ∨ op = 0x34 ∨ op = 0x3F then some (.sync, 0, 0)
  else if 0x40 ≤ op ∧ op ≤ 0x47 then some (.seqr, 0, 0)
  else none

/-- Whether an `ENGINE` value belongs to an engine kind (R178, R182). -/
def EngKind.takes (k : EngKind) (engine : Nat) : Bool :=
  match k with
  | .arrays => engine == 0 || engine == 1
  | .vec => engine == 2
  | .dmaq => engine == 3
  | .sync => engine == 4
  | .seqr => engine == 7

/-- A record as it stands in memory: its 64 B and its extensions' 64 B (R178, R179). -/
structure Rec where
  main : Bytes
  exts : List Bytes
  deriving DecidableEq, Repr

/-- `OPCODE`. -/
def Rec.opcode (r : Rec) : Nat := u8 r.main 0
/-- `ENGINE`. -/
def Rec.engine (r : Rec) : Nat := bits (u8 r.main 1) 0 3
/-- `FLAGS`. -/
def Rec.flags (r : Rec) : Nat := u16 r.main 2
/-- `EXT_COUNT`. -/
def Rec.extCount (r : Rec) : Nat := bits r.flags 0 2
/-- `CPL`. -/
def Rec.cpl (r : Rec) : Bool := bit r.flags 2
/-- `WAIT_EN`. -/
def Rec.waitEn (r : Rec) : Bool := bit r.flags 3
/-- `WAIT_OBSERVE`. -/
def Rec.observe (r : Rec) : Bool := bit r.flags 4
/-- `SIG_EN`. -/
def Rec.sigEn (r : Rec) : Bool := bit r.flags 5
/-- `TAG`. -/
def Rec.tag (r : Rec) : Nat := u16 r.main 4
/-- `OPID`. -/
def Rec.opid (r : Rec) : Nat := u32 r.main 8
/-- Byte `i` of extension `n`. -/
def Rec.ext (r : Rec) (n : Nat) : Bytes := r.exts.getD n []

/-- The reserved bytes of an operand area, as pairs of offset and length, by opcode (R185, R187 to R192). -/
def reservedAreas (op : Nat) : List (Nat × Nat) :=
  if op = 0x01 then [(56, 8)] else if op = 0x02 then [(51, 1)] else if op = 0x03 then []
  else if op = 0x04 then [(56, 8)] else if op = 0x10 then [(28, 4)] else if op = 0x11 then [(39, 1), (46, 2)]
  else if op = 0x20 then [(17, 3), (48, 16)] else if op = 0x21 then [(19, 1), (48, 16)]
  else if op = 0x31 then [(19, 45)] else if op = 0x32 then [(23, 41)] else if op = 0x33 then [(17, 1), (20, 44)]
  else if op = 0x40 then [(17, 3), (28, 36)] else if op = 0x42 then [(18, 46)]
  else if op = 0x43 then [(18, 6), (32, 32)] else if op = 0x44 then [(17, 7), (32, 32)]
  else if op = 0x45 then [(17, 3), (28, 36)] else if op = 0x46 then [(17, 47)]
  else if op = 0x47 then [(16, 8), (32, 32)] else [(16, 48)]

/-- The reserved bits inside the bytes of an operand area are zero (R184 to R192). -/
def reservedBits (r : Rec) : Bool :=
  let m := r.main
  let op := r.opcode
  if op = 0x01 ∨ op = 0x04 then
    opRefReserved m 16 && opRefReserved m 32 && bits (u32 m 48) 25 7 == 0 && bits (u8 m 54) 2 6 == 0
      && bits (u8 m 55) 4 4 == 0
      && (op == 0x01 ||
        (zeroAt (r.ext 0) 49 3 && zeroAt (r.ext 0) 56 8 && bits (u8 (r.ext 0) 48) 7 1 == 0
          && bits (u8 (r.ext 0) 9) 7 1 == 0
          && (r.exts.length == 1 || (zeroAt (r.ext 1) 40 24 && opRefReserved (r.ext 1) 24))))
  else if op = 0x02 then bits (u8 m 17) 7 1 == 0 && bits (u8 m 48) 5 3 == 0
  else if op = 0x03 then bits (u8 m 17) 7 1 == 0 && bits (u8 m 48) 4 4 == 0 && bits (u8 m 51) 1 7 == 0
  else if op = 0x10 then bits (u8 m 25) 4 4 == 0
  else if op = 0x11 then
    bits (u8 m 32) 5 3 == 0 && bits (u8 m 38) 4 4 == 0 && zeroAt (r.ext 0) 28 4 && zeroAt (r.ext 0) 32 32
  else if op = 0x20 ∨ op = 0x21 then bits (u64 m 32) 48 8 == 0 && bits (u64 m 40) 48 8 == 0
  else if op = 0x32 then bits (u8 m 22) 1 7 == 0
  else if op = 0x40 then bits (u8 m 16) 1 3 == 0
  else if op = 0x42 then bits (u8 m 16) 4 3 == 0
  else if op = 0x43 then bits (u8 m 16) 4 4 == 0 && bits (u8 m 17) 4 3 == 0
  else if op = 0x44 then bits (u8 m 16) 4 4 == 0
  else if op = 0x45 ∨ op = 0x46 then bits (u8 m 16) 3 5 == 0
  else true

/-- Step 2 of R196: known opcode, matching `ENGINE`, extensions present and well formed, reserved fields zero, no token
fields on a sequencer operation (R178, R179, R182, R183). -/
def Rec.formOk (r : Rec) : Bool :=
  match opcodeRow r.opcode with
  | none => false
  | some (k, lo, hi) =>
    k.takes r.engine && bits (u8 r.main 1) 3 5 == 0 && bits r.flags 6 10 == 0
      && decide (lo ≤ r.extCount) && decide (r.extCount ≤ hi) && r.exts.length == r.extCount
      && r.exts.all (fun e => u8 e 0 == 0xFE && zeroAt e 1 7)
      && bits (u8 r.main 6) 5 3 == 0 && bits (u8 r.main 7) 5 3 == 0 && zeroAt r.main 15 1
      && !(k == .seqr && (r.waitEn || r.sigEn))
      && (reservedAreas r.opcode).all (fun a => zeroAt r.main a.1 a.2) && reservedBits r

/-- What presence checks need: the address environment, the grade, the partition's base dies and ports, and whether a
fabric group is assigned (R191, R200, R212). -/
structure RecEnv where
  addr   : AddrEnv
  gradeS : Bool
  dies   : List Nat
  ports  : List Nat
  fabric : Bool
  deriving DecidableEq, Repr

/-- The 64-bit address fields of a record that are in use, for the presence check (R181). -/
def Rec.addrFields (r : Rec) : List Nat :=
  let m := r.main
  let drainAt (b : Bytes) (o : Nat) : List Nat :=
    let fl := u8 b (o + 1)
    u64 b (o + 4) :: (if u8 b o = 0x28 then [] else
      (if bit fl 5 then [] else [u64 b (o + 16)]) ++ (if bit fl 6 then [] else [u64 b (o + 24)]))
  let op := r.opcode
  if op = 0x02 then (if bit (u8 m 48) 1 then drainAt m 16 else []) ++ [u64 m 56]
  else if op = 0x03 then drainAt m 16 ++ [u64 m 56]
  else if op = 0x04 then
    drainAt (r.ext 0) 8 ++ [u64 (r.ext 0) 40] ++ (if r.exts.length = 2 then [u64 (r.ext 1) 8, u64 (r.ext 1) 16] else [])
  else if op = 0x10 then [u64 m 16]
  else if op = 0x11 then [u64 m 16, u64 m 24, u64 m 48, u64 m 56, u64 (r.ext 0) 8, u64 (r.ext 0) 16]
  else if op = 0x20 ∨ op = 0x21 then [u64 m 24]
  else []

/-- Step 3 of R196: cores, functions, base dies and ports are present in the grade and partition (R4, R23, R181, R188,
R191, R200, R212). -/
def Rec.presentOk (r : Rec) (e : RecEnv) : Bool :=
  let m := r.main
  r.addrFields.all e.addr.present
    && !(r.opcode == 0x04 && e.gradeS && (u8 m 16 == 0x11 || u8 m 32 == 0x11))
    && !(r.opcode == 0x21 && (!e.dies.contains (u8 m 16) || !(u8 m 18 == 0xFF || e.ports.contains (u8 m 18))))
    && !(r.opcode == 0x31 && u8 m 18 == 1 && !e.fabric)
    && !(r.opcode == 0x32 &&
        (if bit (u8 m 22) 0 then !e.fabric else (e.addr.carrier (u16 m 16)).isNone))

/-- The token fields lie in their ranges (R178). -/
def Rec.tokensOk (r : Rec) : Bool :=
  let wc := u16 r.main 12
  let si := u8 r.main 14
  (if r.waitEn then decide (1 ≤ wc) else wc == 0) && (if r.sigEn then decide (1 ≤ si) else si == 0)

/-- An axis scale source of a drain block (R186). -/
def readScale (e : AddrEnv) (scalar : Bool) (w : Nat) : Option ScaleSrc :=
  if scalar then some (.scalar (bits w 0 32) (bits w 32 32)) else (e.resolve w).map ScaleSrc.plane

/-- Whether a format is a drain output format (R76). -/
def drainFmtOk (f : Fmt) : Bool := f.isCB || f.isFloat || f == .w128

/-- Bytes from a core-store drain's first to last byte, for the extent rule (R115, R181, R186). -/
def drainExtent (f : Fmt) (rows cols : Nat) : Nat :=
  if f.isCB then (tileLayout f 128 16 true).bytes
  else (16 * (rows - 1) + cols) * f.width / 8

/-- A drain block read from its 32 bytes at `off` for a tile of `rows` by `cols` (R186, R76, R497). -/
def readDrain (e : AddrEnv) (bs : Bytes) (off rows cols : Nat) : Option Drain :=
  let fl := u8 bs (off + 1)
  match Fmt.ofCode (u8 bs off), RMode.ofCode (bits fl 0 2), e.resolve (u64 bs (off + 4)) with
  | some f, some mode, some dest =>
    let stride := u32 bs (off + 12)
    let zero : Option ScaleSrc := some (.scalar 0 0)
    match (if f = .w128 then zero else readScale e (bit fl 5) (u64 bs (off + 16))),
        (if f = .w128 then zero else readScale e (bit fl 6) (u64 bs (off + 24))) with
    | some sa, some sb =>
      let own := match dest with
        | .dev _ => true
        | .cst c _ => c == e.phys && selSpace (bits (u64 bs (off + 4)) 56 8) == 1
      if drainFmtOk f && own && stride % 64 == 0 && (!dest.isCore || stride == 0)
          && !(f.isCB && !dest.isCore && stride == 0) && !(bit fl 3 && f != .fp32)
          && dest.extentOk (drainExtent f rows cols)
      then some { out := f, mode, sat := bit fl 2, add := bit fl 3, biasAxis := bit fl 4, site := u16 bs (off + 2),
                  dest, stride, scaleA := sa, scaleB := sb }
      else none
    | _, _ => none
  | _, _, _ => none

/-- An optional address field: 0 names nothing. -/
def optAddr (e : AddrEnv) (w : Nat) : Option (Option Loc) :=
  if w = 0 then some none else (e.resolve w).map some

/-- The tile shape of an array record lies in its ranges (R105). -/
def shapeOk (rows cols : Nat) : Bool := decide (1 ≤ rows) && decide (rows ≤ 128) && decide (1 ≤ cols) && decide (cols ≤ 16)

/-- The format pairs of a cumulus pass (R97). -/
def cumulusPair (a b : Fmt) : Bool :=
  (a.isCB && b.isCB) || (a == .b16 && (b == .b16 || b.isCB)) || (b == .b16 && a.isCB)

/-- Bytes of a bias vector for the extent rule (R69, R181). -/
def biasBytes (axis : Bool) (rows cols : Nat) : Nat := 4 * (if axis then cols else rows)

/-- A `PASS` (R104, R105, R185). -/
def buildPass (e : AddrEnv) (m : Bytes) : Option Op :=
  match readOpRef e m 16, readOpRef e m 32 with
  | some om, some on =>
    let k := bits (u32 m 48) 0 25
    let rows := u8 m 52
    let cols := u8 m 53
    let fold := bit (u8 m 54) 1
    let slot := bits (u8 m 55) 0 4
    if shapeOk rows cols && decide (k ≤ 2 ^ 24) && cumulusPair om.fmt on.fmt && om.valid true rows k
        && on.valid false cols k && (fold || slot == 0)
    then some (.pass om on k rows cols (bit (u8 m 54) 0) fold slot) else none
  | _, _ => none

/-- A `FRONT` (R68, R69, R111, R187). -/
def buildFront (e : AddrEnv) (m : Bytes) : Option Op :=
  let b := u8 m 48
  let rows := u8 m 49
  let cols := u8 m 50
  let pre := bits b 2 2
  let drain := bit b 1
  let axis := bit (u8 m 17) 4
  match (if drain then (readDrain e m 16 rows cols).map some else some none), optAddr e (u64 m 56) with
  | some d, some a =>
    let preOk := match pre, a with
      | 0, none => true
      | 1, some l => l.extentOk (biasBytes axis rows cols)
      | 2, some l => l.extentOk 32768
      | 3, none => drain
      | _, _ => false
    if shapeOk rows cols && preOk && (drain || (u64 m 32 == 0 && u64 m 40 == 0))
    then some (.front d (bit b 0) (bit b 4) pre rows cols (u32 m 52) a axis) else none
  | _, _ => none

/-- A `SLOTDRAIN` (R136, R187). -/
def buildSlotDrain (e : AddrEnv) (m : Bytes) : Option Op :=
  let rows := u8 m 49
  let cols := u8 m 50
  let en := bit (u8 m 51) 0
  match readDrain e m 16 rows cols, optAddr e (u64 m 56) with
  | some d, some a =>
    let biasOk := match a with
      | none => !en
      | some l => en && l.extentOk (biasBytes d.biasAxis rows cols)
    if shapeOk rows cols && biasOk && !(d.out == .w128 && en)
    then some (.slotdrain d (bits (u8 m 48) 0 4) rows cols (u32 m 52) a) else none
  | _, _ => none

/-- The outlier operands of a cirrus record's second extension (R168, R188). -/
def buildOutlier (e : AddrEnv) (r : Rec) (cols : Nat) : Option (Option Outlier) :=
  if r.exts.length ≠ 2 then some none else
  let x := r.ext 1
  match e.resolve (u64 x 8), e.resolve (u64 x 16), readOpRef e x 24 with
  | some l, some p, some o =>
    if l.num % 64 = 0 ∧ o.fmt.isCB ∧ o.fmt.width = 8 ∧ o.gtb = false ∧ o.valid false cols 0 = true
    then some (some ⟨l, p, o⟩) else none
  | _, _, _ => none

/-- A `CIRRUS` (R87, R97, R188). -/
def buildCirrus (e : AddrEnv) (r : Rec) : Option Op :=
  let m := r.main
  let x := r.ext 0
  let rows := u8 m 52
  let cols := u8 m 53
  let k := bits (u32 m 48) 0 25
  let pre := bits (u8 x 48) 0 2
  match readOpRef e m 16, readOpRef e m 32, readDrain e x 8 rows cols, optAddr e (u64 x 40), buildOutlier e r cols with
  | some om, some on, some d, some a, some ol =>
    let biasOk := match pre, a with
      | 0, none => true
      | 1, some l => l.extentOk (biasBytes d.biasAxis rows cols)
      | _, _ => false
    if shapeOk rows cols && decide (k ≤ 2 ^ 24) && om.fmt.isInt && om.fmt == on.fmt && !om.gtb && !on.gtb
        && om.valid true rows k && on.valid false cols k && biasOk && d.out != .w128
        && !bit (u8 m 54) 1 && u8 m 55 == 0
    then some (.cirrus om on k rows cols (bit (u8 m 54) 0) d a (bit (u8 x 48) 2) (bits (u8 x 48) 3 4) (u32 x 52) ol)
    else none
  | _, _, _, _, _ => none

/-- A `LAUNCH`: the entry is 8 B aligned, and named stream variables are added to the arguments (R189). -/
def buildLaunch (e : AddrEnv) (m : Bytes) : Option Op :=
  match e.resolve (u64 m 16) with
  | some entry =>
    let th := u8 m 24
    let arg (i : Nat) : Nat :=
      (u64 m (32 + 8 * i) + (if bit (u8 m 25) i then e.sv.getD (bits (u16 m 26) (4 * i) 4) 0 else 0)) % 2 ^ 64
    if entry.num % 8 = 0 ∧ 1 ≤ th ∧ th ≤ 16 then some (.launch entry th ((List.range 4).map arg)) else none
  | none => none

/-- A `QUANT` (R160, R162, R165, R166, R190). -/
def buildQuant (e : AddrEnv) (r : Rec) : Option Op :=
  let m := r.main
  let x := r.ext 0
  let fl := u8 m 32
  let axis := bit fl 0
  let qp := bits fl 1 2
  let auto := u8 m 33
  let win := u16 m 34
  match e.resolve (u64 m 16), e.resolve (u64 m 24), RMode.ofCode (bits fl 3 2), optAddr e (u64 m 48),
      optAddr e (u64 m 56), optAddr e (u64 x 8), optAddr e (u64 x 16), e.resolveTile (u32 x 24) with
  | some ih, some oh, some mode, some ol, some pl, some qs, some qz, some ra =>
    if qp ≠ 3 && decide (auto ≤ 64) && decide (1 ≤ win) && decide (win ≤ 64)
        && (auto == 0 || (qp == 0 && axis && ol.isSome)) && (axis || ol.isNone)
        && (pl.isNone || ol.isSome) && (qp == 1 || (qs.isNone && qz.isNone))
        && (match ol with
            | some l => l.num % 64 == 0
            | none => true)
        && decide (ra + 8 ≤ coreStoreBytes)
    then some (.quant { inHdr := ih, outHdr := oh, axis, qparam := qp, mode, auto, win := 128 * win, seq := u16 m 36,
                        flag := bits (u8 m 38) 0 4, thresh := u32 m 40, site := u16 m 44, list := ol, plane := pl,
                        qscale := qs, qzp := qz, range := ra })
    else none
  | _, _, _, _, _, _, _, _ => none

/-- An adjustment field of a DMA record: a signed offset and a selector with `REL` 00 or 01 and `SPACE` 00 (R191). -/
def readAdj (e : AddrEnv) (w : Nat) : Option Int :=
  let sel := bits w 56 8
  if selSpace sel = 0 ∧ selRel sel < 2 then
    some (signed 48 (bits w 0 48) + (if selRel sel = 1 then ((e.sv.getD (selIndex sel) 0 : Nat) : Int) else 0))
  else none

/-- A `DMA` or `BDMA` with the copies of stream variables and buffer pairs latched (R191, R228, R231). -/
def buildDma (e : AddrEnv) (m : Bytes) (bulk : Bool) : Option Op :=
  match e.resolve (u64 m 24), readAdj e (u64 m 32), readAdj e (u64 m 40) with
  | some l, some sa, some da =>
    let n := u32 m 20
    if l.num % 64 = 0 ∧ 1 ≤ n ∧ n ≤ 2 ^ 20 then
      if bulk then
        if u8 m 17 < 16 then some (.bdma (u8 m 16) (u8 m 17) (u8 m 18) n l sa da e.sv e.pairs) else none
      else if u8 m 16 < 8 then some (.dma (u8 m 16) n l sa da e.sv e.pairs) else none
    else none
  | _, _, _ => none

/-- Step 4 of R196: field ranges and address resolution. The operation of a queue record, or a refusal. -/
def Rec.build (r : Rec) (e : AddrEnv) : Option Op :=
  let m := r.main
  let op := r.opcode
  if !r.tokensOk then none
  else if op = 0x01 then buildPass e m
  else if op = 0x02 then buildFront e m
  else if op = 0x03 then buildSlotDrain e m
  else if op = 0x04 then buildCirrus e r
  else if op = 0x10 then buildLaunch e m
  else if op = 0x11 then buildQuant e r
  else if op = 0x20 then buildDma e m false
  else if op = 0x21 then buildDma e m true
  else if op = 0x30 then some .nop
  else if op = 0x31 then if u8 m 18 < 2 then some (.barrier (u16 m 16) (u8 m 18)) else none
  else if op = 0x32 then
    if u8 m 18 < 32 ∧ 1 ≤ u8 m 19 then
      some (.signal (u16 m 16) (u8 m 18) (u8 m 19) (u16 m 20) (bit (u8 m 22) 0))
    else none
  else if op = 0x33 then if u8 m 16 < 32 then some (.tokset (u8 m 16) (u16 m 18)) else none
  else if op = 0x34 then some .inval
  else if op = 0x3F then some .endStream
  else none

/-- Whether a record is a sequencer operation (R183). -/
def Rec.isSeq (r : Rec) : Bool := decide (0x40 ≤ r.opcode) && decide (r.opcode ≤ 0x47)

/-- Step 5 of R196 and the dispatch refusals that rest on the sequencer's counts (R66, R76, R132, R135): the code of the
refusal, or nothing. -/
def countsCheck (a : Arr) (op : Op) : Option Nat :=
  let cntOf (b : Bool) : Nat := a.cnt.getD (b2n b) 0
  let biasOf (b : Bool) : Bool := a.biasOn.getD (b2n b) false
  match op with
  | .pass _ _ k _ _ bank fold slot =>
    if fold && (cntOf bank != 0 || biasOf bank) then some Code.badCmd
    else if 2 ^ 24 < (if fold then a.slotCnt.getD slot 0 else cntOf bank) + k then some Code.kLimit
    else none
  | .front (some d) bank _ _ _ _ _ _ _ => if d.out == .w128 && biasOf bank then some Code.badCmd else none
  | _ => none

/-- What dispatching a record does to the sequencer's counts of its array (R66, R112, R132, R136). -/
def countsAfter (a : Arr) (op : Op) : Arr :=
  match op with
  | .pass _ _ k _ _ bank fold slot =>
    if fold then { a with slotCnt := modAt a.slotCnt slot (· + k) }
    else { a with cnt := modAt a.cnt (b2n bank) (· + k) }
  | .front _ bank swap pre _ _ _ _ _ =>
    let a1 := if pre = 3 then a
      else { a with cnt := setAt a.cnt (b2n bank) 0, biasOn := setAt a.biasOn (b2n bank) (pre == 1) }
    if swap then { a1 with cnt := a1.cnt.reverse, biasOn := a1.biasOn.reverse } else a1
  | .slotdrain _ slot _ _ _ _ => { a with slotCnt := setAt a.slotCnt slot 0 }
  | .cirrus _ _ k _ _ bank _ bias _ _ _ _ =>
    { a with cnt := setAt a.cnt (b2n bank) k, biasOn := setAt a.biasOn (b2n bank) bias.isSome }
  | _ => a

end Sys2Proof.Machine
end

