-- ==== Sys2Proof/Machine/Lanes.lean ====
section
/-! DEFINITION. Lane arithmetic of the vector engine on 256 B registers (R146 to R149, R222, R223). -/

namespace Sys2Proof.Machine

/-- A vector register: 2,048 bits, lane 0 lowest. -/
abbrev VReg := BitVec 2048

/-- Lane `i` of `w` bits. -/
def VReg.lane (r : VReg) (w i : Nat) : Nat := bits r.toNat (w * i) w

/-- A register from its lanes of `w` bits. -/
def VReg.ofLanes (w : Nat) (ls : List Nat) : VReg :=
  BitVec.ofNat 2048 (ls.zipIdx.foldl (fun a e => a + (e.1 % 2 ^ w) * 2 ^ (w * e.2)) 0)

/-- The lanes of `w` bits of a register. -/
def VReg.lanes (r : VReg) (w : Nat) : List Nat := (List.range (2048 / w)).map (r.lane w)

/-- A register with the lanes from `first` on replaced by those of a list, as far as the list goes. -/
def VReg.putLanes (r : VReg) (w first : Nat) (ls : List Nat) : VReg :=
  VReg.ofLanes w ((r.lanes w).zipIdx.map (fun e => if first ≤ e.2 then ls.getD (e.2 - first) e.1 else e.1))

/-- The 256 bytes of a register. -/
def VReg.toBytes (r : VReg) : Bytes := toLe 256 r.toNat
/-- A register from bytes. -/
def VReg.ofBytes (bs : Bytes) : VReg := BitVec.ofNat 2048 (fromLe bs)

/-- The fields of a kernel instruction word (R222). -/
structure KWord where
  raw  : Nat
  op   : Nat
  vd   : Nat
  va   : Nat
  vb   : Nat
  vc   : Nat
  type : Nat
  rm   : Nat
  imm  : Nat
  deriving DecidableEq, Repr

/-- Splits an instruction word into its fields (R222). -/
def KWord.ofNat (w : Nat) : KWord :=
  { raw := w % 2 ^ 64, op := bits w 0 8, vd := bits w 8 5, va := bits w 13 5, vb := bits w 18 5, vc := bits w 23 5,
    type := bits w 28 2, rm := bits w 30 2, imm := bits w 32 32 }

/-- The floating format of a `TYPE`; W128 has none (R222). -/
def typeFloat (t : Nat) : Option FloatFmt :=
  if t = 0 then Fmt.fp32.float else if t = 1 then Fmt.bf16.float else if t = 2 then Fmt.fp16.float else none

/-- Lane width of a `TYPE`. -/
def typeWidth (t : Nat) : Nat := if t = 0 then 32 else if t = 3 then 128 else 16

/-- The rounding mode of a lane instruction; stochastic rounding and the reserved code are undefined there (R147). -/
def laneMode (rm : Nat) : Option RMode := if rm = 0 then some .rne else if rm = 1 then some .rtz else none

/-- What a lane result counts (R149): overflow to ±Inf and underflow, only from finite operands. -/
def laneLedger (l : Ledger) (operands : List FVal) : Ledger :=
  if operands.any FVal.isSpecial then {} else { overflow := l.overflow, underflow := l.underflow }

/-- One lane result, rounded once and encoded (R147). -/
def laneWrite (f : FloatFmt) (mode : RMode) (operands : List FVal) (v : FVal) : Nat × Ledger :=
  let r := f.write mode false 0 v
  (r.1, laneLedger r.2 operands)

/-- A lane-wise operation on registers in a floating type. -/
def laneOp (f : FloatFmt) (mode : RMode) (g : List FVal → FVal) (srcs : List VReg) : VReg × Ledger :=
  let ws := (List.range (2048 / f.width)).map (fun i =>
    let xs := srcs.map (fun r => f.decode (r.lane f.width i))
    laneWrite f mode xs (g xs))
  (VReg.ofLanes f.width (ws.map (·.1)), Ledger.sum (ws.map (·.2)))

/-- A lane-wise comparison: all ones where it holds (R223). -/
def laneCmp (f : FloatFmt) (g : FVal → FVal → Bool) (a b : VReg) : VReg :=
  VReg.ofLanes f.width ((List.range (2048 / f.width)).map (fun i =>
    if g (f.decode (a.lane f.width i)) (f.decode (b.lane f.width i)) then 2 ^ f.width - 1 else 0))

/-- `SEL`: a where the lane of c is non-zero, otherwise b. -/
def laneSel (w : Nat) (a b c : VReg) : VReg :=
  VReg.ofLanes w ((List.range (2048 / w)).map (fun i => if c.lane w i = 0 then b.lane w i else a.lane w i))

/-- `CVT` between the floating types (R223): the half that `IMM` [2] selects when the widths differ. -/
def laneCvt (f g : FloatFmt) (mode : RMode) (hi : Bool) (a old : VReg) : VReg × Ledger :=
  let conv (w : Nat) : Nat × Ledger := let v := f.decode w; laneWrite g mode [v] v
  if f.width = g.width then
    let rs := (a.lanes f.width).map conv
    (VReg.ofLanes g.width (rs.map (·.1)), Ledger.sum (rs.map (·.2)))
  else if g.width < f.width then
    let rs := (a.lanes 32).map conv
    (old.putLanes 16 (if hi then 64 else 0) (rs.map (·.1)), Ledger.sum (rs.map (·.2)))
  else
    let rs := (((a.lanes 16).drop (if hi then 64 else 0)).take 64).map conv
    (VReg.ofLanes 32 (rs.map (·.1)), Ledger.sum (rs.map (·.2)))

/-- The transcendental functions of R148. -/
inductive TFun where
  | exp | exp2 | log | log2 | rsqrt
  deriving DecidableEq, Repr

/-- The free bits of a transcendental function. -/
def TFun.bits (t : TFun) (x : W32) : W32 :=
  match t with
  | .exp => Config.expBits x
  | .exp2 => Config.exp2Bits x
  | .log => Config.logBits x
  | .log2 => Config.log2Bits x
  | .rsqrt => Config.rsqrtBits x

/-- A transcendental function on FP32 bits: the special cases of R148 are fixed, every other result is a free function
of its input (log 4). -/
def TFun.apply (t : TFun) (x : Nat) : Nat :=
  let inf (neg : Bool) : Nat := FloatFmt.fp32.encode (.inf neg)
  match t, fp32Val x with
  | _, .nan => fp32NaN
  | .exp, .inf neg => if neg then 0 else inf false
  | .exp2, .inf neg => if neg then 0 else inf false
  | .log, .inf neg => if neg then fp32NaN else inf false
  | .log2, .inf neg => if neg then fp32NaN else inf false
  | .rsqrt, .inf neg => if neg then fp32NaN else 0
  | .exp, .num _ m => if m = 0 then 0x3F80_0000 else (t.bits (BitVec.ofNat 32 x)).toNat
  | .exp2, .num _ m => if m = 0 then 0x3F80_0000 else (t.bits (BitVec.ofNat 32 x)).toNat
  | .log, .num neg m =>
    if m = 0 then inf true else if neg then fp32NaN else (t.bits (BitVec.ofNat 32 x)).toNat
  | .log2, .num neg m =>
    if m = 0 then inf true else if neg then fp32NaN else (t.bits (BitVec.ofNat 32 x)).toNat
  | .rsqrt, .num neg m =>
    if m = 0 then inf neg else if neg then fp32NaN else (t.bits (BitVec.ofNat 32 x)).toNat

/-- What a transcendental result counts (R149): overflow to an infinity from a finite operand that is not one of the
listed special cases. -/
def TFun.ledger (x r : Nat) : Ledger :=
  match fp32Val x, fp32Val r with
  | .num _ m, .inf _ => if m = 0 then {} else .oneOverflow
  | _, _ => {}

/-- A transcendental instruction on a register. -/
def laneTrans (t : TFun) (a : VReg) : VReg × Ledger :=
  let rs := (a.lanes 32).map (fun x => (t.apply x, TFun.ledger x (t.apply x)))
  (VReg.ofLanes 32 (rs.map (·.1)), Ledger.sum (rs.map (·.2)))

/-- The exact W128 difference (R83). -/
def Cum.wsub (a b : Cum) : Cum × Ledger :=
  match a.spec, b.spec with
  | .none, .none =>
    let s := a.val.toInt - b.val.toInt
    if s.natAbs < 2 ^ 119 then (⟨BitVec.ofInt 120 s, .none⟩, {})
    else (⟨0, if s < 0 then .nInf else .pInf⟩, .oneOverflow)
  | x, y => (⟨0, x.combine (match y with
      | .pInf => .nInf
      | .nInf => .pInf
      | z => z)⟩, {})

/-- A lane-wise W128 operation; a malformed operand counts in `SPECIAL_IN` (R39, R83). -/
def laneWide (g : List Cum → Cum × Ledger) (srcs : List VReg) : VReg × Ledger :=
  let rs := (List.range 16).map (fun i =>
    let ws := srcs.map (fun r => r.lane 128 i)
    let v := g (ws.map Cum.decode)
    (v.1.encode, Ledger.sum (v.2 :: ws.map w128ReadLedger)))
  (VReg.ofLanes 128 (rs.map (·.1)), Ledger.sum (rs.map (·.2)))

/-- `WFINISH` (R84, R223): row m of a tile from 16 W128 values, scales, bias, tile number and site. -/
def wfinish (w : KWord) (f : FloatFmt) (mode : RMode) (key : Nat) (a b c old : VReg) : VReg × Ledger :=
  let m := bits w.imm 0 7
  let hasBias := bit w.imm 7
  let sa := b.lane 32 16
  let beta (n : Nat) : Nat := if hasBias then c.lane 32 n else 0
  let rs := (List.range 16).map (fun n =>
    let x := a.lane 128 n
    let v := drainValue (Cum.decode x).toFVal (fp32Val sa) (fp32Val (b.lane 32 n)) (fp32Val (beta n))
    let r := f.write mode (bit w.imm 10) (srBits key (c.lane 32 17) (c.lane 32 16 * 2048 + 16 * m + n)) v
    (r.1, Ledger.sum [r.2, w128ReadLedger x, if (fp32Val (b.lane 32 n)).isSpecial then .oneSpecial else {},
      if (fp32Val (beta n)).isSpecial then .oneSpecial else {}]))
  (old.putLanes f.width 0 (rs.map (·.1)),
   Ledger.sum ((if (fp32Val sa).isSpecial then Ledger.oneSpecial else {}) :: rs.map (·.2)))

/-- `WFINISHB` (R84, R77, R223): block r of column n into a CB format. -/
def wfinishb (w : KWord) (f : Fmt) (mode : RMode) (key : Nat) (a0 a1 b c : VReg) : VReg × Ledger :=
  let r := bits w.imm 0 2
  let n := bits w.imm 2 4
  let hasBias := bit w.imm 6
  let sb := b.lane 32 32
  let sout := b.lane 32 33
  let raw (i : Nat) : Nat := if i < 16 then a0.lane 128 i else a1.lane 128 (i - 16)
  let beta (i : Nat) : Nat := if hasBias then c.lane 32 i else 0
  let vs := (List.range 32).map (fun i =>
    drainValue (Cum.decode (raw i)).toFVal (fp32Val (b.lane 32 i)) (fp32Val sb) (fp32Val (beta i)))
  let blk := convBlock f mode sout
    (fun i => srBits key (c.lane 32 33) (c.lane 32 32 * 2048 + 16 * (32 * r + i) + n)) vs
  let special := vs.any FVal.isSpecial && !f.hasSpecials
  let sp (x : Nat) : Ledger := if (fp32Val x).isSpecial then .oneSpecial else {}
  let led := { blk.2.2 with specialIn := 0 }
  (VReg.ofBytes (padTo 32 (packElems f blk.1) ++ [BitVec.ofNat 8 (blk.2.1 + 16 * b2n special)]),
   Ledger.sum ([led, sp sb, sp sout] ++ (List.range 32).map (fun i =>
     (w128ReadLedger (raw i)).add ((sp (b.lane 32 i)).add (sp (beta i))))))

end Sys2Proof.Machine
end

