-- ==== Sys2Proof/Machine/ArrayMath.lean ====
section
/-! DEFINITION. What the arrays and drain units compute, on plain data: operand reads (R101, R126), rank updates (R64,
R71, R72), drains (R75 to R81), cirrus (R85 to R92) and its outlier sum (R168). -/

namespace Sys2Proof.Machine

/-- Cell 16m + n of a tile. -/
def Tile.cell (t : Tile) (m n : Nat) : Cum := t.getD (16 * m + n) .zero

/-- A tile from its cells; the `ZERO` state is the empty list. -/
def Tile.make (f : Nat → Nat → Cum) : Tile :=
  let l := (List.range 2048).map (fun i => f (i / 16) (i % 16))
  if l.all (· == .zero) then [] else l

/-- What a core's operand reads look at: its store, its gradient tile buffer and the buffer's side registers. -/
structure OpSource where
  store : Mem
  gtb   : Mem
  sides : List Side
  deriving DecidableEq, Repr

/-- `w` bits at bit position `b` after byte `base` of a memory. -/
def Mem.bitsAt (m : Mem) (base b w : Nat) : Nat :=
  bits (fromLe (m.readN (base + b / 8) (ceilDiv (b % 8 + w) 8))) (b % 8) w

/-- The element bits and block offset of an operand at scale-axis index `i` and block-axis index `k` (R101, R126,
R130). -/
def OpRef.read (o : OpRef) (s : OpSource) (mside : Bool) (i k : Nat) : Nat × Nat :=
  if o.gtb then
    let m := if mside then i else k
    let n := if mside then k else i
    let side := s.sides.getD (b2n o.half) ⟨0, 0⟩
    (s.gtb.bitsAt (2048 * b2n o.half) (o.fmt.width * (16 * m + n)) o.fmt.width, bits side.offs (4 * (m / 32)) 4)
  else
    let r := if o.down then k else i
    let c := if o.down then i else k
    let off := if o.fmt.hasOffs then
        s.store.bitsAt (o.tile + o.layout.offsAt + i * offsLineBytes o.blockLen) (4 * (k / 32)) 4
      else 0
    (s.store.bitsAt o.tile (tileElemBit o.fmt o.cols r c) o.fmt.width, off)

/-- The operand's values as the cells take them, for `n` scale-axis and `k` block-axis indices (R34, R35, R40). -/
def OpRef.values (o : OpRef) (s : OpSource) (mside : Bool) (n k : Nat) : List (List FVal) :=
  (List.range n).map (fun i => (List.range k).map (fun j =>
    let e := o.read s mside (o.sa0 + i) (o.ka0 + j)
    arrayVal o.fmt e.1 e.2))

/-- The raw codes of an integer operand (R85). -/
def OpRef.codes (o : OpRef) (s : OpSource) (mside : Bool) (n k : Nat) : List (List Nat) :=
  (List.range n).map (fun i => (List.range k).map (fun j => (o.read s mside (o.sa0 + i) (o.ka0 + j)).1))

/-- The zero point of scale-axis index `i` kept next to an integer tile (R37, R99). -/
def OpRef.zeroPoint (o : OpRef) (s : OpSource) (i : Nat) : Nat :=
  fromLe (s.store.readN (o.tile + o.layout.zpAt + 2 * (o.sa0 + i)) 2)

/-- Special elements of operand tiles, once per element (R74). -/
def specialCount (vs : List (List FVal)) : Ledger :=
  { specialIn := min Ledger.top ((vs.map (fun l => l.countP FVal.isSpecial)).sum) }

/-- Adds the products of two lines of values to a register (R64, R71, R72). -/
def dotInto (c : Cum) (a b : List FVal) : Cum :=
  (List.zipWith FVal.mul a b).foldl Cum.addProduct c

/-- A pass over the M side's `rows` lines and the N side's lines: each cell below `M` and `N` takes its dot product
(R105, R118). -/
def passTile (t : Tile) (ms ns : List (List FVal)) : Tile :=
  Tile.make (fun m n =>
    match ms[m]?, ns[n]? with
    | some a, some b => dotInto (t.cell m n) a b
    | _, _ => t.cell m n)

/-- Adds a bank into a slot cell by cell (R132). -/
def foldTile (slot bank : Tile) : Tile := Tile.make (fun m n => (slot.cell m n).fold (bank.cell m n))

/-- A W128 tile of 32 KiB as registers, row-major, and what reading it counts (R68, R39). -/
def tileOfW128 (bs : Bytes) : Tile × Ledger :=
  let ws := (List.range 2048).map (fun i => fieldAt bs (16 * i) 16)
  (Tile.make (fun m n => Cum.decode (ws.getD (16 * m + n) 0)),
   { specialIn := ws.countP (fun w => !w128WellFormed w) })

/-- Everything a drain reads besides the registers: FP32 bits of the row scales, of the column scales, of the supplied
output scales, and of the bias per cell. -/
structure DrainIn where
  sa   : List Nat
  sb   : List Nat
  sout : List Nat
  bias : List Nat
  axis : Bool
  deriving DecidableEq, Repr

/-- The bias of cell (m, n), 0 when none is attached (R69, R75). -/
def DrainIn.beta (x : DrainIn) (m n : Nat) : FVal :=
  if x.bias = [] then .num false 0 else fp32Val (x.bias.getD (if x.axis then n else m) 0)

/-- The special scales and biases that a drain reads, once each (R74); `ka` and `kb` are how many scale values were read
(one when scalar). -/
def DrainIn.specials (x : DrainIn) (ka kb : Nat) : Ledger :=
  { specialIn := (x.sa.take ka).countP (fun w => (fp32Val w).isSpecial)
      + (x.sb.take kb).countP (fun w => (fp32Val w).isSpecial) + x.bias.countP (fun w => (fp32Val w).isSpecial) }

/-- The bytes a drain writes and what it counts. For a CB output: packed rows, two bytes of offsets and the stored scale
per column. -/
structure DrainOut where
  rows   : List (List Nat)
  offs   : List Nat
  scales : List Nat
  led    : Ledger
  deriving DecidableEq, Repr

/-- One column of a CB drain: its elements, its four offsets packed, its stored scale (R77). -/
def cbColumn (f : Fmt) (mode : RMode) (sout : Nat) (q : Nat → Nat) (vs : List FVal) : List Nat × Nat × Nat × Ledger :=
  let bs := (chunks 32 4 vs).zipIdx.map (fun e =>
    if e.1 = [] then ([], 15, ({} : Ledger)) else convBlock f mode sout (fun i => q (32 * e.2 + i)) e.1)
  let special := (fp32Val sout).isSpecial
  let led := Ledger.sum (bs.map (·.2.2))
  (bs.flatMap (·.1), (bs.map (·.2.1)).zipIdx.foldl (fun a e => a + e.1 * 16 ^ e.2) 0,
   if !special && !f.hasSpecials && vs.any FVal.isSpecial then fp32NaN else sout,
   { led with specialIn := if special then 1 else 0 })

/-- The drain of values V over `rows` by `cols` (R75 to R77, R81): `old m n` is the destination's FP32 value under
`DRAIN_ADD`. -/
def drainValues (d : Drain) (x : DrainIn) (rows cols key tileNo : Nat) (v : Nat → Nat → FVal)
    (old : Nat → Nat → Nat) : DrainOut :=
  let q (m n : Nat) : Nat := srBits key d.site (tileNo * 2048 + 16 * m + n)
  match d.out.float with
  | none => { rows := [], offs := [], scales := [], led := {} }
  | some ff =>
    if d.out.isCB then
      let cs := (List.range cols).map (fun n =>
        cbColumn d.out d.mode (x.sout.getD n 0) (fun m => q m n) ((List.range rows).map (fun m => v m n)))
      { rows := (List.range rows).map (fun m => cs.map (fun c => c.1.getD m 0))
        offs := cs.map (·.2.1)
        scales := cs.map (·.2.2.1)
        led := Ledger.sum (cs.map (·.2.2.2)) }
    else
      let rs := (List.range rows).map (fun m => (List.range cols).map (fun n =>
        if d.add then
          let o := fp32Val (old m n)
          let w := ff.write d.mode d.sat (q m n) (FVal.add (v m n) o)
          (w.1, if o.isSpecial then w.2.add .oneSpecial else w.2)
        else ff.write d.mode d.sat (q m n) (v m n)))
      { rows := rs.map (fun r => r.map (·.1)), offs := [], scales := [],
        led := Ledger.sum (rs.map (fun r => Ledger.sum (r.map (·.2)))) }

/-- The drain of a tile of registers (R75 to R81). -/
def drainTile (d : Drain) (x : DrainIn) (rows cols key tileNo : Nat) (t : Tile) (old : Nat → Nat → Nat) : DrainOut :=
  if d.out = .w128 then
    { rows := (List.range rows).map (fun m => (List.range cols).map (fun n => (t.cell m n).encode)),
      offs := [], scales := [], led := {} }
  else
    drainValues d x rows cols key tileNo
      (fun m n => drainValue (t.cell m n).toFVal (fp32Val (x.sa.getD m 0)) (fp32Val (x.sb.getD n 0)) (x.beta m n)) old

/-- Where the elements of row `m` of a drain go: row-major with the record's stride in device memory, 16 elements apart
in a core store (R115, R186, R497; the core-store form is DESIGN CHOICE, log 7). -/
def drainRowLoc (d : Drain) (m : Nat) : Loc :=
  match d.dest with
  | .dev a => .dev (a + m * d.stride)
  | .cst c o => .cst c (o + m * (2 * d.out.width))

/-- The writes of a drain other than CB. -/
def drainWrites (d : Drain) (o : DrainOut) : List (Loc × Bytes) :=
  o.rows.zipIdx.map (fun e => (drainRowLoc d e.2, e.1.flatMap (toLe (d.out.width / 8))))

/-- The writes of a CB drain to device memory: packed rows and the side record (R497). -/
def cbImageWrites (d : Drain) (a : Nat) (o : DrainOut) : List (Loc × Bytes) :=
  let side := a + 128 * d.stride
  o.rows.zipIdx.map (fun e => (Loc.dev (a + e.2 * d.stride), packElems d.out e.1))
    ++ o.offs.zipIdx.map (fun e => (Loc.dev (side + 2 * e.2), toLe 2 e.1))
    ++ o.scales.zipIdx.map (fun e => (Loc.dev (side + 32 + 4 * e.2), toLe 4 e.1))
    ++ [(Loc.dev (side + 96), List.replicate 32 0)]

/-- The writes of a CB drain to a core-store tile of 128 by 16 with its block axis down the columns (R99, R186); columns
at and above `N` of a row keep their bits in `old`. -/
def cbTileWrites (d : Drain) (c off : Nat) (old : Nat → List Nat) (o : DrainOut) : List (Loc × Bytes) :=
  let l := tileLayout d.out 128 16 true
  o.rows.zipIdx.map (fun e =>
      (Loc.cst c (off + tileElemBit d.out 16 e.2 0 / 8), packElems d.out (e.1 ++ (old e.2).drop e.1.length)))
    ++ o.offs.zipIdx.map (fun e => (Loc.cst c (off + l.offsAt + 2 * e.2), toLe 2 e.1))
    ++ o.scales.zipIdx.map (fun e => (Loc.cst c (off + l.scaleAt + 4 * e.2), toLe 4 e.1))

/-! ## Cirrus -/

/-- A cirrus cell's register after a pass with shift `sh`, and whether it saturated (R85, R89, R90). -/
def cirrusCell (sh : Nat) (a b : List Nat) : Nat × Bool :=
  let t := (List.zipWith (fun x y => cirrusEntering sh (x * y)) a b).sum
  (min t cirrusMax, decide (cirrusMax ≤ t))

/-- T of R87 and R88 for a cell: register, shift, edge sums, zero points, K. -/
def cirrusT (c sh ra rb za zb k : Nat) : Int :=
  let kz (z : Nat) : Int := (k : Int) * (z : Int)
  if za = 0xFFFF then
    if zb = 0xFFFF then (k : Int) else (rb : Int) - kz zb
  else if zb = 0xFFFF then (ra : Int) - kz za
  else (2 ^ sh : Nat) * (c : Int) - (zb : Int) * (ra : Int) - (za : Int) * (rb : Int) + kz za * (zb : Int)

/-- A zero point is in the code range or marks a constant channel (R38). -/
def zeroPointOk (f : Fmt) (z : Nat) : Bool := z == 0xFFFF || decide (z ≤ qTop f)

/-- What a cirrus pass leaves: the registers of its cells, whether one saturated, and T of each cell. -/
structure CirrusPass where
  regs : Tile
  sat  : Bool
  t    : List (List Int)
  deriving DecidableEq, Repr

/-- One cirrus pass over codes (R85 to R90). -/
def cirrusPass (sh k : Nat) (as bs : List (List Nat)) (za zb : List Nat) : CirrusPass :=
  let cells := as.map (fun a => bs.map (fun b => cirrusCell sh a b))
  { regs := Tile.make (fun m n => ⟨BitVec.ofNat 120 ((cells.getD m []).getD n (0, false)).1, .none⟩)
    sat := cells.any (fun r => r.any (·.2))
    t := (as.zip cells).zipIdx.map (fun e => (bs.zip e.1.2).zipIdx.map (fun g =>
      cirrusT g.1.2.1 sh e.1.1.sum g.1.1.sum (za.getD e.2 0) (zb.getD g.2 0) k)) }

/-- The outlier sum of a cell: each group of 32 outlier values of the row, converted into CB8e4 as a line of its own,
times the column's values, under both axis scales (R168). `rows` holds the converted lines per group. -/
def outlierSum (groups : List Line) (ns : List FVal) (sb : Nat) : FVal :=
  groups.zipIdx.foldl (fun acc g =>
    let as := g.1.elems.map (fun e => arrayVal .cb8e4 e (g.1.offs.headD 0))
    let c := dotInto .zero as (ns.drop (32 * g.2))
    FVal.add acc (FVal.mul (FVal.mul c.toFVal (fp32Val g.1.scale)) (fp32Val sb))) (.num false 0)

end Sys2Proof.Machine
end

