-- ==== Sys2Proof/Machine/ChipParts.lean ====
section
/-! DEFINITION. The parts of bring-up and repair (chapter 13), the governor (chapter 14), the management controller
(chapter 15) and the pins (chapter 17) as plain data. -/

namespace Sys2Proof.Machine

/-- The power states of R422 that are no function of set-up and jobs: off, charging and ramping after a rise of `HX_PWR_EN`
is over at once, so on, tripped, or stopped with the root clock lost, or regained after a loss (R434). -/
inductive PowerSt where
  | off
  | on
  | tripped
  | noClock
  | clockBack
  deriving DecidableEq, Repr

/-- A core that has been retired in service and waits for its spare (R408): its logical number, its physical core, and the
`CAUSE` of its field-repair entry. -/
structure Failing where
  logical : Nat
  phys    : Nat
  cause   : Nat
  deriving DecidableEq, Repr

/-- Pins, bring-up and repair (R392 to R415, R476 to R482). Cores are physical, channels (stack, channel), slabs (base die,
slab). `trip` is the trip record of the MMC's flash with sensor group and reading. `memErr` tells that E_MEM_UNCORR or
E_ROW_UNREPAIRABLE has been raised since the last deep bring-up. `waitHold` and `waitFull` hold a compute reset or a full
reset that waits (R413, R448). -/
structure Chip where
  power      : PowerSt
  pwrEn      : Bool
  pwrgd      : Bool
  thermtrip  : Bool
  regAlert   : Bool
  perst      : Bool
  perstSeen  : Bool
  perstHeld  : Bool
  riseWaits  : Bool
  straps     : Nat
  trip       : Option (Nat × Nat × Int)
  lastCause  : Nat
  stepping   : Nat
  stepDone   : Nat
  deep       : Bool
  deepNext   : Bool
  result     : Nat
  failStep   : Nat
  bootFt     : Nat
  elapsed    : Nat
  nextDeep   : Bool
  memErr     : Bool
  recovery   : Bool
  fuseCores  : List Nat
  fuseChans  : List (Nat × Nat)
  fuseSlabs  : List (Nat × Nat)
  bank       : List Nat
  good       : List Nat
  spares     : List Nat
  lostStacks : List Nat
  failing    : List Failing
  waitHold   : List Bool
  waitFull   : Option Nat
  deriving DecidableEq, Repr

/-- The governor (R416 to R436): class sources, the limiter's and the thermal steps and caps, what each die runs at,
readings, counters, and the gust governor's state by core (issue level, admission, whether it issued in the interval at
hand) and die (ramp starts admitted in the slot, who waits, droop stop). Levels hold ARITH steps: 0 = 1.5, 1 = 1.2,
2 = 1.0, 3 = 0.75 GHz. -/
structure Gov where
  eepromCls   : Nat
  eepromValid : Bool
  strapCls    : Nat
  lower       : Nat
  lowerErr    : Bool
  actual      : List Nat
  raising     : List Bool
  limitStep   : Nat
  limitCap    : Nat
  thermStep   : List Nat
  thermCap    : List Nat
  throttled   : List Bool
  minMs       : List Nat
  limiting    : Bool
  lastLimit   : Option Nat
  inputBad    : Bool
  powerW      : Nat
  vinDv       : Nat
  temps       : List Int
  tempMax     : List Int
  droops      : List Nat
  lastDroop   : List (Option Nat)
  stopped     : List Bool
  belowAt     : List (Option Nat)
  throttleNs  : Nat
  levels      : SMap Nat
  admitted    : SMap Bool
  issued      : SMap Bool
  slotCount   : List Nat
  waiting     : List (Nat × Nat)
  deriving DecidableEq, Repr

/-- What a firmware slot holds (R441 to R447): whether its image is valid, its `BUILD`, its `SVN` and the digest of its header
and payload. -/
structure FwSlot where
  valid  : Bool
  build  : Nat
  svn    : Nat
  digest : Nat
  deriving DecidableEq, Repr

/-- A running firmware image. -/
structure FwImage where
  build  : Nat
  digest : Nat
  deriving DecidableEq, Repr

/-- A sensor event that waits until the MMC runs again: sensor, event value (R448). -/
structure SensorEvt where
  sensor : Nat
  value  : Int
  deriving DecidableEq, Repr

/-- The management controller (R437 to R457). `slots` and `active` go by component (0 MMC, 1 core, 2 base die); `update` is the
running update's binding, components and verified components; `leafNext` is the flash record r, `leafAt` and `leafEnd` the
reserved block in use; `measures` the digests of the components taken at their starts. -/
structure Mmc where
  up         : Bool
  restarting : Bool
  slots      : List (FwSlot × FwSlot)
  active     : List Bool
  pend       : List Bool
  update     : Nat
  updBy      : Option Binding
  updComps   : List Nat
  verified   : List Nat
  runMmc     : FwImage
  runCore    : List FwImage
  runBase    : FwImage
  coreOld    : Nat
  fallback   : Bool
  fusedSvn   : Nat
  revoked    : Nat
  eids       : List Nat
  tid        : Nat
  receiver   : Option (Binding × Nat)
  disabled   : List Nat
  waitEvts   : List SensorEvt
  lastStates : List Nat
  spdm       : List Nat
  epoch      : Nat
  exhausted  : Bool
  leafNext   : Nat
  leafAt     : Nat
  leafEnd    : Nat
  deriving DecidableEq, Repr

/-- The governor after a full reset, before the class has been read (R418, R436): DESIGN CHOICE (log 18): class A. -/
def Gov.reset : Gov :=
  { eepromCls := 0, eepromValid := false, strapCls := 0, lower := 3, lowerErr := false, actual := [3, 3, 3, 3],
    raising := [false, false, false, false], limitStep := 0, limitCap := 8, thermStep := [0, 0, 0, 0],
    thermCap := [8, 8, 8, 8], throttled := [false, false, false, false], minMs := [0, 0, 0, 0], limiting := false,
    lastLimit := none, inputBad := false, powerW := 0, vinDv := 0, temps := List.replicate 20 0,
    tempMax := List.replicate 20 0, droops := [0, 0, 0, 0], lastDroop := [none, none, none, none],
    stopped := [false, false, false, false], belowAt := [none, none, none, none], throttleNs := 0, levels := [],
    admitted := [], issued := [], slotCount := [0, 0, 0, 0], waiting := [] }

/-- Pins, fuses and boot status right after a full reset at power-up (R415, R478): the rails are good and bring-up has
begun; nothing is fused bad, no entry is programmed. DESIGN CHOICE (log 18): a fault-free part. -/
def Chip.reset : Chip :=
  { power := .on, pwrEn := true, pwrgd := true, thermtrip := false, regAlert := false, perst := true, perstSeen := false,
    perstHeld := false, riseWaits := false, straps := 3, trip := none, lastCause := 0, stepping := 0,
    stepDone := 0, deep := false, deepNext := true, result := 0, failStep := 0, bootFt := 0, elapsed := 0, nextDeep := false, memErr := false,
    recovery := false, fuseCores := [], fuseChans := [], fuseSlabs := [], bank := [], good := [], spares := [],
    lostStacks := [], failing := [], waitHold := [false, false, false, false], waitFull := none }

/-- The slot of an image as it leaves the factory: valid. The spec names no image, so its numbers have no stated value.
DESIGN CHOICE (log 18): zero. -/
def FwSlot.factory : FwSlot := { valid := true, build := 0, svn := 0, digest := 0 }

/-- An empty slot. -/
def FwSlot.empty : FwSlot := { valid := false, build := 0, svn := 0, digest := 0 }

/-- The running image of a slot. -/
def FwSlot.image (f : FwSlot) : FwImage := ⟨f.build, f.digest⟩

/-- The management controller right after a full reset of a part that has the factory's images in slots A and has never
signed (R457). DESIGN CHOICE (log 18). -/
def Mmc.reset : Mmc :=
  { up := false, restarting := false,
    slots := [(.factory, .empty), (.factory, .empty), (.factory, .empty)], active := [false, false, false],
    pend := [false, false, false], update := 0, updBy := none, updComps := [], verified := [],
    runMmc := FwSlot.factory.image, runCore := List.replicate 4 FwSlot.factory.image,
    runBase := FwSlot.factory.image, coreOld := 0, fallback := false, fusedSvn := 0, revoked := 0, eids := [0, 0, 0],
    tid := 0, receiver := none, disabled := [], waitEvts := [], lastStates := List.replicate 24 0 ++ [0, 2, 2, 2, 0], spdm := [0, 0, 0], epoch := 0,
    exhausted := false, leafNext := 0, leafAt := 0, leafEnd := 0 }

end Sys2Proof.Machine
end

