-- ==== Sys2Proof/Machine/DbgParts.lean ====
section
/-! DEFINITION. The parts of counters, trace, barometer and break logic as plain data (chapter 16). -/

namespace Sys2Proof.Machine

/-- One region of a log store (R464, R466): the position of its oldest byte, the bytes it holds, where in them each record
or sample begins, the records dropped since the last one written, and the bytes written to its ring. -/
structure LogRegion where
  pos    : Nat
  len    : Nat
  heads  : List Nat
  missed : Nat
  wptr   : Nat
  deriving DecidableEq, Repr

/-- The DBG registers of one core (R458 to R474): event selectors, counters and latched high words; stall counters (key
16·engine + cause); the written trace and sample controls beside the enables in effect; rings and regions; break logic with
the record that a resume let pass, and the records of the job completed on the core. -/
structure CoreDbg where
  evsel    : List Nat
  evcnt    : List Nat
  evHi     : List Nat
  stalls   : SMap Nat
  stallHi  : SMap Nat
  run      : Bool
  trace    : Nat
  sample   : Nat
  traceOn  : Bool
  sampleOn : Bool
  resplit  : Bool
  filter   : Nat
  ringBase : List Nat
  ringCfg  : List Nat
  regions  : List LogRegion
  trLost   : Nat
  smLost   : Nat
  gap      : Nat
  seq      : Nat
  brkCtrl  : Nat
  brkCount : Nat
  brkTag   : Nat
  byTag    : Bool
  tagPass  : Option Nat
  done     : Nat
  deriving DecidableEq, Repr

/-- The global DBG block (R463, R470, R475): selectors, counters and latched high words, the global barometer's ring with
the samples dropped before the next one. -/
structure GlobalDbg where
  gsel   : List Nat
  gcnt   : List Nat
  gcntHi : List Nat
  ctrl   : Nat
  mask   : Nat
  base   : Nat
  cfg    : Nat
  trig   : Nat
  wptr   : Nat
  seq    : Nat
  gap    : Nat
  deriving DecidableEq, Repr

/-- An empty region. -/
def LogRegion.reset : LogRegion := { pos := 0, len := 0, heads := [], missed := 0, wptr := 0 }

/-- The DBG registers of a core after reset (R474). -/
def CoreDbg.reset : CoreDbg :=
  { evsel := List.replicate 8 0, evcnt := List.replicate 8 0, evHi := List.replicate 8 0, stalls := [], stallHi := [],
    run := false, trace := 0, sample := 1000 * 2 ^ 9, traceOn := false, sampleOn := false, resplit := false,
    filter := 0xFFFF0000, ringBase := [0, 0], ringCfg := [12 * 2 ^ 12, 12 * 2 ^ 12],
    regions := [LogRegion.reset, LogRegion.reset], trLost := 0, smLost := 0, gap := 0, seq := 0, brkCtrl := 0,
    brkCount := 0, brkTag := 0xFFFF0000, byTag := false, tagPass := none, done := 0 }

/-- The global DBG block after a full reset (R475). -/
def GlobalDbg.reset : GlobalDbg :=
  { gsel := List.replicate 32 0, gcnt := List.replicate 32 0, gcntHi := List.replicate 32 0, ctrl := 1000 * 2 ^ 5, mask := 0,
    base := 0, cfg := 12 * 2 ^ 12, trig := 0, wptr := 0, seq := 0, gap := 0 }

end Sys2Proof.Machine
end

