-- ==== Sys2Proof/Machine/FabricParts.lean ====
section
/-! DEFINITION. The parts of the Bureg fabric as plain data (chapter 10): packets, ports with their replay buffers,
credits and egress queues, nodes with their route tables, and fabric time. -/

namespace Sys2Proof.Machine

/-- A packet (R303): its header fields and the payload after the header. -/
structure Packet where
  dest   : Nat
  src    : Nat
  kind   : Nat
  hops   : Nat
  bcast  : Bool
  fgroup : Nat
  addr   : Nat
  len    : Nat
  txn    : Nat
  key    : Nat
  status : Nat
  data   : Bytes
  deriving DecidableEq, Repr

/-- A packet in an egress queue (R307): its class and virtual lane, the ingress port it came from (32 for the node
itself), and how many of its flits have been sent. -/
structure EPkt where
  pkt     : Packet
  tc      : Nat
  vl      : Nat
  ingress : Nat
  inVl    : Nat
  sent    : Nat
  deriving DecidableEq, Repr

/-- What a neighbour's latest valid hello showed (R313). -/
structure Neighbour where
  id     : Nat
  port   : Nat
  state  : Nat
  serial : Nat
  rootSerial : Nat
  rootPrio : Nat
  rootDist : Nat
  deriving DecidableEq, Repr

/-- One Bureg port: state (R315: 0 DOWN, 1 TRAINING, 2 HELLO_ONLY, 3 UP, 4 RETRAIN), lanes (R300, R402), neighbour,
error counts (R328), sequenced replay (R298), credits by 2·class + lane (R308), TC0 bucket (R310), reassembly, egress
queue and withdrawals (R320). -/
structure Port where
  st       : Nat
  disabled : Bool
  cable    : Bool
  lanes    : Nat
  retired  : Nat
  marginal : Nat
  laneErr  : List Nat
  laneReplays : List Nat
  nbValid  : Bool
  nb       : Option Neighbour
  replays  : Nat
  crcFail  : Nat
  lost     : Nat
  qMax     : Nat
  qOver    : Nat
  txSeq    : Nat
  replay   : List (Nat × Bytes)
  rxSeq    : Nat
  rxWait   : Bool
  credits  : List Nat
  owed     : List Nat
  partials : SMap Bytes
  partialFlits : SMap Nat
  egress   : List EPkt
  slot     : Nat
  lastIn   : List Nat
  bucket   : Nat
  bucketAt : Nat
  withdrawn : List Nat
  notices  : SMap Nat
  asym     : Int
  deriving DecidableEq, Repr

/-- An entry of a group or member table (R317). -/
structure Route where
  primary   : Nat
  alternate : Nat
  valid     : Bool
  deriving DecidableEq, Repr

/-- An entry of the broadcast table (R318). -/
structure TreeEntry where
  tree  : Nat
  valid : Bool
  deriving DecidableEq, Repr

/-- One complete set of route tables (R316 to R319). -/
structure Tables where
  groups  : SMap Route
  members : SMap Route
  trees   : SMap TreeEntry
  deriving DecidableEq, Repr

/-- Who waits for the response to a request that the node sent (R303, R339, R356). -/
inductive Waiter where
  | dma (ch : Chan)
  | chain (rank shard seg : Nat) (level2 final : Bool)
  | fetch
  deriving DecidableEq, Repr

/-- A fabric node: a partition with ports (R301). `inbox` holds delivered packets with their ingress ports and classes until
their own commands handle them; `tc0` the TC0 messages that wait in front of the token bucket (R310); `waiters` the requests
without response by transaction. `voidAt` is the second in which each cause of R312 last raised its event; `arrivals`
counts fabric-barrier arrivals by `BAR_SEQ` (R212, R311). -/
structure Node where
  gen      : Nat
  fmAllow  : Nat
  fmAllow1 : Nat
  drops    : Nat
  voidHops : Nat
  voidQueue : Nat
  voidAt   : List (Option Nat)
  shadow   : Tables
  active   : Tables
  inbox    : List (Nat × Nat × Packet)
  tc0      : List Packet
  nextTxn  : Nat
  waiters  : SMap (Option Waiter)
  arrivals : SMap Nat
  deriving DecidableEq, Repr

/-- Fabric time (R322 to R326, R328) beside the counter itself: the rate correction that the last exchange or edge set,
in ns to drop (or add, negative) over the next interval, the run of offsets within ±8 ns, whether time was ever locked,
whether a lost parent holds it, FTIME at the last edge of `HX_SYNC` as time input, and the registers. -/
structure TimeSync where
  locked   : Bool
  everLocked : Bool
  run      : Nat
  root     : Bool
  parent   : Nat
  depth    : Nat
  prio     : Nat
  offset   : Int
  rate     : Int
  slew     : Nat
  hold     : Nat
  lostParent : Bool
  rootSerial : Nat
  rootPrio : Nat
  lastEdge : Option Nat
  hiLatch  : Nat
  period   : Nat
  epochLo  : Nat
  epochHi  : Nat
  arm      : Bool
  deriving DecidableEq, Repr

/-- The credits a sender has at first, by 2·class + lane: the reserved flits of R308, and for TC1 and TC2 an even part of
the shared 184. How the shared part is granted is not stated: DESIGN CHOICE (log 12). -/
def firstCredits : List Nat := [4, 4, 16 + 46, 16 + 46, 16 + 46, 16 + 46]

/-- A port after a full reset (R328). -/
def Port.reset : Port :=
  { st := 0, disabled := false, cable := false, lanes := 0, retired := 0, marginal := 0, laneErr := [0, 0, 0, 0],
    laneReplays := [0, 0, 0, 0], nbValid := false, nb := none, replays := 0, crcFail := 0, lost := 0, qMax := 0, qOver := 0,
    txSeq := 0, replay := [], rxSeq := 0, rxWait := false, credits := firstCredits, owed := [0, 0, 0, 0, 0, 0],
    partials := [], partialFlits := [], egress := [], slot := 0, lastIn := [0, 0, 0], bucket := 4, bucketAt := 0,
    withdrawn := [], notices := [], asym := 0 }

/-- Empty tables. -/
def Tables.reset : Tables := { groups := [], members := [], trees := [] }

/-- A node after a full reset (R328). -/
def Node.reset : Node :=
  { gen := 0, fmAllow := 0, fmAllow1 := 0, drops := 0, voidHops := 0, voidQueue := 0, voidAt := [none, none],
    shadow := .reset, active := .reset, inbox := [], tc0 := [], nextTxn := 0, waiters := [], arrivals := [] }

/-- Fabric time's registers after a full reset (R328). -/
def TimeSync.reset : TimeSync :=
  { locked := false, everLocked := false, run := 0, root := false, parent := 0, depth := 63, prio := 2, offset := 0,
    rate := 0, slew := 0, hold := 0, lostParent := false, rootSerial := 0, rootPrio := 2, lastEdge := none, hiLatch := 0, period := 1000000, epochLo := 0, epochHi := 0,
    arm := false }

/-- Completion codes of PLDM responses (R438 to R445), by name. -/
inductive PldmCc where
  | success
  | errorUnsupportedPldmCmd
  | errorNotReady
  | alreadyInUpdateMode
  | notInUpdateMode
  | invalidData
  deriving DecidableEq, Repr

/-- What an MCTP message of the management controller says (R437 to R454). Its encoding is that of the DMTF documents
that R437 to R450 name and no part of this model (log 19): a PLDM response or request is its type, its command by number
as `PldmCmd` counts them, its completion code, and its fields in order; an SPDM response is its request's place in R450's list and its fields; an SPDM error is its code. -/
inductive MgMsg where
  | endpointId (eid : Nat)
  | pldm (ty cmd : Nat) (cc : PldmCc) (vals : List Int)
  | pldmRequest (ty cmd : Nat) (vals : List Int)
  | spdm (rsp : Nat) (vals : List Nat) (data : Bytes)
  | spdmError (code : Nat)
  deriving DecidableEq, Repr

/-- What the module sends outside itself, oldest first: writes to host memory (R364, R385), MSI-X messages (R366), flits and
timestamp flits of a port (R296, R323), MCTP messages of the management controller (R437). -/
inductive OutMsg where
  | hostWrite (fn : Fn) (addr : Nat) (data : Bytes)
  | msix (fn : Fn) (vector : Nat)
  | flit (port : Nat) (raw : Bytes)
  | stamp (port ft : Nat)
  | mctp (b : Binding) (msg : MgMsg)
  | barData (fn : Fn) (data : Bytes) (poisoned : Bool)
  | barAbort (fn : Fn)
  deriving DecidableEq, Repr

end Sys2Proof.Machine
end

