-- ==== Sys2Proof/Machine/HostParts.lean ====
section
/-! DEFINITION. The parts of the host interface as plain data (chapter 12): ring registers, event rings, jobs and the HIF
registers. -/

namespace Sys2Proof.Machine

/-- One entry of a copy list (R383), as its 32 bytes and its index. -/
structure CopyEntry where
  index : Nat
  raw   : Bytes
  deriving DecidableEq, Repr

/-- A directory entry of a stream image (R175). -/
structure DirEntry where
  addr  : Nat
  lcore : Nat
  len   : Nat
  deriving DecidableEq, Repr

/-- The job of a partition from its selection to its completion (R175, R219, R380 to R386). `launched` tells that its
streams have started, `early` the status of a failure that kept them from starting, `copyFail` the list index of a failed
copy-out, `aborted` that a reset ended it, `discard` that its ring was disabled. -/
structure Job where
  ring       : Nat
  irq        : Bool
  stopOnErr  : Bool
  subTag     : Nat
  sqHead     : Nat
  image      : Nat
  args       : List Nat
  copyIns    : List CopyEntry
  copyOuts   : List CopyEntry
  launched   : Bool
  early      : Option (Nat × Nat)
  copyFail   : Option Nat
  aborted    : Bool
  discard    : Bool
  forecast   : Bool
  cplBase    : Nat
  cplSlots   : Nat
  tokenLimit : Nat
  resultBase : Nat
  barLimit   : Nat
  dir        : List DirEntry
  results    : SMap Bytes
  failed     : Bool
  breach     : Bool
  fcEnds     : List Nat
  total      : Ledger
  deriving DecidableEq, Repr

/-- One ring pair (R378, R379, R385, R390): its register group, the base and size latched at enable, the submission head
and tail, the completion write index with its pass's phase, and the host's completion head. -/
structure Ring where
  baseLo  : Nat
  baseHi  : Nat
  cfg     : Nat
  enabled : Bool
  refused : Bool
  stopped : Bool
  base    : Nat
  log2    : Nat
  head    : Nat
  tail    : Nat
  cqIdx   : Nat
  phase   : Bool
  cqHead  : Nat
  deriving DecidableEq, Repr

/-- One event ring (R387): besides the register group, the write index, the host's head, the events that wait, and the
10 µs interval of its vector. -/
structure EvtRing where
  baseLo  : Nat
  baseHi  : Nat
  cfg     : Nat
  enabled : Bool
  refused : Bool
  base    : Nat
  log2    : Nat
  idx     : Nat
  phase   : Bool
  head    : Nat
  seq     : Nat
  lost    : Nat
  lostFlag : Bool
  waiting : List Bytes
  interval : Bool
  irqDue  : Bool
  deriving DecidableEq, Repr

/-- The host interface (R372 to R377, R389 to R391): set-up buffer and commit, layout and reserves that the first
accepted commit fixed, rings (key 64·p + n), event rings (key 0 for the PF, p + 1 for VF p + 1), the MSI-X tables as bytes
by function, the round-robin turns (R382, by 4·partition + priority), windows and counters. -/
structure Hif where
  buffer   : Mem
  copy     : Option Bytes
  busy     : Bool
  valid    : Bool
  reason   : Nat
  sect : Nat
  detail   : Nat
  fixed    : Option (Nat × List Nat)
  pairs    : SMap Ring
  evts     : SMap EvtRing
  turn     : List Nat
  msix     : List Mem
  windows  : Nat
  vfBase   : List Nat
  breaches : List Nat
  badSize  : Nat
  readAbort : Nat
  fcRevs   : List Nat
  deriving DecidableEq, Repr

/-- A ring after reset (R390). -/
def Ring.reset : Ring :=
  { baseLo := 0, baseHi := 0, cfg := 0, enabled := false, refused := false, stopped := false, base := 0, log2 := 0,
    head := 0, tail := 0, cqIdx := 0, phase := true, cqHead := 0 }

/-- An event ring after reset (R390). -/
def EvtRing.reset : EvtRing :=
  { baseLo := 0, baseHi := 0, cfg := 0, enabled := false, refused := false, base := 0, log2 := 0, idx := 0, phase := true,
    head := 0, seq := 0, lost := 0, lostFlag := false, waiting := [], interval := false, irqDue := false }

/-- The host interface after a full reset (R391). The forecast model revisions come from firmware and have no value the
spec states: none is listed. DESIGN CHOICE (log 13). -/
def Hif.reset : Hif :=
  { buffer := [], copy := none, busy := false, valid := false, reason := 0, sect := 0, detail := 0, fixed := none,
    pairs := [], evts := [], turn := List.replicate 16 0, msix := [[], [], [], [], []], windows := 0, vfBase := [0, 0, 0, 0],
    breaches := [0, 0, 0, 0], badSize := 0, readAbort := 0, fcRevs := [0, 0, 0, 0] }

end Sys2Proof.Machine
end

