-- ==== Sys2Proof/Machine/ExchParts.lean ====
section
/-! DEFINITION. The parts of the gradient exchange as plain data (chapter 11) and the FP32 arithmetic of the chain and the
update engines (R337, R345, R346). -/

namespace Sys2Proof.Machine

/-- A tensor table entry (R332). -/
structure TEnt where
  elem0   : Nat
  rows    : Nat
  cols    : Nat
  fmt     : Fmt
  factored : Bool
  noDecay : Bool
  bankOff : Nat
  deriving DecidableEq, Repr

/-- An exchange table with the lists it names (R331, R332). -/
structure ExTable where
  g         : Nat
  rank      : Nat
  subgroup  : Nat
  stepSeq   : Nat
  prog      : Nat
  rescale   : Bool
  nonfinite : Bool
  takeoverMs : Nat
  hopUs     : Nat
  deadlineMs : Nat
  limitMs   : Nat
  key       : Nat
  firstOpen : Nat
  gradBase  : Nat
  curBase   : Nat
  nextBase  : Nat
  bankBytes : Nat
  stateBase : Nat
  replicaBase : Nat
  schedBase : Nat
  firstEpoch : Nat
  members   : List Nat
  tensors   : List TEnt
  edges     : List Nat
  deriving DecidableEq, Repr

/-- A chain segment: level, shard, segment index, contributions and FP32 values (R338). -/
structure ChainSeg where
  level2  : Bool
  shard   : Nat
  seg     : Nat
  contrib : Nat
  vals    : List Nat
  deriving DecidableEq, Repr

/-- A chain segment that waits for its answer (R339): the rank it went to, whether it is a `FINAL` copy, and the tries. -/
structure ChainSend where
  txn   : Nat
  rank  : Nat
  final : Bool
  seg   : ChainSeg
  tries : Nat
  deriving DecidableEq, Repr

/-- What a `PUB_DONE` said of a shard (R353). -/
structure PubInfo where
  src      : Nat
  crc      : Nat
  stateCrc : Nat
  count    : Nat
  deriving DecidableEq, Repr

/-- The exchange of a partition (R329 to R363). `status` holds per rank 0 active, 1 joining, 2 absent. `seen` holds the
(level, final, shard, segment) already handled (R340), `decided` per shard 1 for contributing and 2 for leaving out
(R341), `waiting` the segments held until gradients are ready, `level1` the level-1 results of a collector and `early2` the
level-2 sums that wait for them (R343), `red` the reduced segments taken (R342), `mine` the bytes this member computed for
the next bank, by bank offset (R348), `got` the bytes written per (shard, source), `pubDone` the notices, `commitSeen` a
COMMIT that waits for the flip, `suspects` the ranks suspected in this exchange and the one before. -/
structure Exch where
  tbl       : Option ExTable
  state     : Nat
  epoch     : Nat
  flipped   : Bool
  mover     : Nat
  skips     : Nat
  late      : Nat
  takeovers : Nat
  mstep     : Nat
  ready     : Bool
  held      : Bool
  heldAt    : Nat
  status    : List Nat
  gen       : Nat
  leaving   : List Nat
  joinReady : List Nat
  tOpen     : Nat
  failed    : List Nat
  seen      : List (Bool × Bool × Nat × Nat)
  decided   : SMap Nat
  lateDone  : Bool
  waiting   : List ChainSeg
  level1    : List ChainSeg
  early2    : List ChainSeg
  sends     : List ChainSend
  red       : List ChainSeg
  nonfinite : SMap Nat
  mine      : Mem
  mineRows  : List (Nat × Nat)
  published : List Nat
  got       : List (Nat × Nat × Nat)
  pubDone   : SMap (Option PubInfo)
  mismatch  : List Nat
  stateCopy : List Nat
  commitSeen : Option (Nat × Nat × Nat)
  commitSent : Option (Nat × Nat × Nat)
  complete  : List Nat
  suspects  : List Nat
  suspectsBefore : List Nat
  refetch   : List Nat
  bankValid : Bool
  deriving DecidableEq, Repr

/-- The exchange after a full reset (R363). -/
def Exch.reset : Exch :=
  { tbl := none, state := 0, epoch := 0, flipped := false, mover := 1, skips := 0, late := 0, takeovers := 0, mstep := 0,
    ready := false, held := false, heldAt := 0, status := [], gen := 0, leaving := [], joinReady := [], tOpen := 0,
    failed := [], seen := [], decided := [], lateDone := false, waiting := [], level1 := [], early2 := [], sends := [],
    red := [], nonfinite := [], mine := [], mineRows := [], published := [], got := [], pubDone := [], mismatch := [],
    stateCopy := [], commitSeen := none, commitSent := none, complete := [], suspects := [], suspectsBefore := [],
    refetch := [], bankValid := false }

/-- Everything that belongs to one exchange is cleared for the next. -/
def Exch.fresh (x : Exch) : Exch :=
  { x with mstep := 0, ready := false, held := false, heldAt := 0, failed := [], seen := [], decided := [],
           lateDone := false, waiting := [], level1 := [], early2 := [], sends := [], red := [], nonfinite := [], mine := [],
           mineRows := [], published := [], got := [], pubDone := [], mismatch := [], commitSeen := none,
           commitSent := none, complete := [], suspects := [], suspectsBefore := x.suspects }

/-! ## FP32 arithmetic, rounded to nearest even (R337, R345) -/

/-- Rounds a value to FP32 bits. -/
def f32 (v : FVal) : Nat := (FloatFmt.fp32.write .rne false 0 v).1
/-- The FP32 sum. -/
def fadd (a b : Nat) : Nat := f32 (FVal.add (fp32Val a) (fp32Val b))
/-- The FP32 difference. -/
def fsub (a b : Nat) : Nat := f32 (FVal.add (fp32Val a) (fp32Val b).negate)
/-- The FP32 product. -/
def fmul (a b : Nat) : Nat := f32 (FVal.mul (fp32Val a) (fp32Val b))

/-- The quotient of two values by IEEE 754. -/
def FVal.div : FVal → FVal → FVal
  | .nan, _ => .nan
  | _, .nan => .nan
  | .inf _, .inf _ => .nan
  | .inf s, .num t _ => .inf (s ^^ t)
  | .num s _, .inf t => .num (s ^^ t) 0
  | .num s m, .num t n => if n = 0 then (if m = 0 then .nan else .inf (s ^^ t)) else .num (s ^^ t) (m / n)

/-- The FP32 quotient. -/
def fdiv (a b : Nat) : Nat := f32 (FVal.div (fp32Val a) (fp32Val b))

/-- A value that rounds to FP32 as the square root of `x` does: the root in units far below half an ulp, with half a unit
added when it is not exact. -/
def sqrtMag (x : Rat) : Rat :=
  if x = 0 then 0 else
  let k : Int := floorLog2 x
  let sh : Nat := (((80 : Int) - k) / 2).toNat + 40
  let n := floorNat (x * ((4 ^ sh : Nat) : Rat))
  let r := Nat.sqrt n
  if r * r = n ∧ ((n : Rat) = x * ((4 ^ sh : Nat) : Rat)) then (r : Rat) / ((2 ^ sh : Nat) : Rat)
  else ((2 * r + 1 : Nat) : Rat) / ((2 ^ (sh + 1) : Nat) : Rat)

/-- The FP32 square root by IEEE 754. -/
def fsqrt (a : Nat) : Nat :=
  match fp32Val a with
  | .num true m => if m = 0 then a else f32 .nan
  | .num false m => f32 (.num false (sqrtMag m))
  | .inf false => f32 (.inf false)
  | _ => f32 .nan

/-- A whole number as FP32 bits. -/
def fnat (n : Nat) : Nat := f32 (FVal.ofRat (n : Rat))
/-- One. -/
def fone : Nat := 0x3F80_0000

/-- A schedule entry (R347). -/
structure Sched where
  lr : Nat
  b1 : Nat
  b2 : Nat
  eps : Nat
  wd : Nat
  scale : Nat
  bc1 : Nat
  bc2 : Nat
  mu : Nat
  nesterov : Bool
  mode : RMode
  deriving DecidableEq, Repr

/-- Reads a schedule entry; a reserved rounding code is taken as the value of round to nearest. -/
def Sched.read (bs : Bytes) : Sched :=
  { lr := u32 bs 0, b1 := u32 bs 4, b2 := u32 bs 8, eps := u32 bs 12, wd := u32 bs 16, scale := u32 bs 20,
    bc1 := u32 bs 24, bc2 := u32 bs 28, mu := u32 bs 32, nesterov := bit (u8 bs 36) 0,
    mode := (RMode.ofCode (bits (u8 bs 36) 1 2)).getD .rne }

/-- The AdamW step on (w, m, v) with a given second moment already updated: the new w and m (R345). -/
def adamStep (h : Sched) (wd w m v g : Nat) : Nat × Nat :=
  let m1 := fadd (fmul h.b1 m) (fmul (fsub fone h.b1) g)
  let d := fdiv (fmul m1 h.bc1) (fadd (fsqrt (fmul v h.bc2)) h.eps)
  (fsub w (fmul h.lr (fadd d (fmul wd w))), m1)

/-- Program 0x01 on one element: new w, m and v. -/
def adamW (h : Sched) (wd w m v g : Nat) : Nat × Nat × Nat :=
  let v1 := fadd (fmul h.b2 v) (fmul (fsub fone h.b2) (fmul g g))
  let r := adamStep h wd w m v1 g
  (r.1, r.2, v1)

/-- Program 0x02 on one element: new w and b. -/
def sgd (h : Sched) (wd w b g : Nat) : Nat × Nat :=
  let gl := fadd g (fmul wd w)
  let b1 := fadd (fmul h.mu b) gl
  (if h.nesterov then fsub w (fmul h.lr (fadd gl (fmul h.mu b1))) else fsub w (fmul h.lr b1), b1)

/-- The gradient of an element (R346): scaled, rescaled by G/CONTRIB when asked, and replaced by 0 when it is not finite
and the table asks so; the second part counts a replacement. -/
def gradOf (t : ExTable) (h : Sched) (contrib x : Nat) : Nat × Nat :=
  let g0 := fmul x h.scale
  let g := if t.rescale then fmul g0 (fdiv (fnat t.g) (fnat contrib)) else g0
  if t.nonfinite && (fp32Val g).isSpecial then (0, 1) else (g, 0)

end Sys2Proof.Machine
end

