-- ==== Sys2Proof/Machine/State.lean ====
section
/-! DEFINITION. The state of the block. -/

namespace Sys2Proof.Machine

/-- One core: its parts, its queues (one list per engine, OPA0, OPA1, VEC, DMA, SYNC), channels and windows (R14). -/
structure Core where
  arr0    : Arr
  arr1    : Arr
  gtb     : Mem
  sides   : List Side
  store   : Mem
  log     : Mem
  icache  : List (Loc × Bytes)
  threads : SMap Thread
  slotCap : Bool
  qseqs   : SMap Bool
  seq     : Seq
  queues  : List (List QEntry)
  chans   : List Chn
  watches : List Watch
  wStale  : Nat
  wReissued : Nat
  dbg     : CoreDbg
  deriving DecidableEq, Repr

/-- A core after a reset that includes it. -/
def Core.reset : Core :=
  { arr0 := .reset, arr1 := .reset, gtb := [], sides := [⟨0, 0⟩, ⟨0, 0⟩], store := [], log := [], icache := [],
    threads := [], slotCap := false, qseqs := [], seq := .reset, queues := [[], [], [], [], []], chans := List.replicate 8 .reset,
    watches := List.replicate 8 .reset, wStale := 0, wReissued := 0, dbg := .reset }

/-- A partition. -/
structure Part where
  hbm     : Mem
  poison  : SMap Bool
  topGib  : Nat
  reserve : Nat
  evac    : List (Nat × Nat × Bool)
  resetting : Nat
  hold    : Bool
  fabWait : Bool
  frozenAt : Option Nat
  left    : Bool
  degraded : Bool
  swap    : Option (Nat × Nat × Nat)
  job     : Option Job
  next    : Option Job
  exch    : Exch
  deriving DecidableEq, Repr

/-- A partition after reset. -/
def Part.reset : Part :=
  { hbm := [], poison := [], topGib := 0, reserve := 0, evac := [], resetting := 0, hold := false, fabWait := false, frozenAt := none, left := false, degraded := false, swap := none, job := none, next := none,
    exch := .reset }

/-- The state. -/
structure State where
  pending : List Instr
  freeCtr : Nat
  gradeS  : Bool
  ft      : Nat
  cls     : Nat
  layout  : Nat
  setup   : Option Bytes
  serial  : Nat
  bringing : Bool
  lmap    : List (Nat × Nat)
  parts   : SMap Part
  cores   : SMap Core
  slices  : SMap Slice
  hbmcs   : SMap Hbmc
  bdies   : SMap (List Chn)
  ports   : SMap Port
  nodes   : SMap Node
  time    : TimeSync
  out     : List OutMsg
  hif     : Hif
  chip    : Chip
  gov     : Gov
  mmc     : Mmc
  gdbg    : GlobalDbg
  deriving DecidableEq, Repr

/-- The machine right after the full reset of a power-up: the rails are good, the host still holds `PERST#` low, and bring-up
has begun (R393, R478, R479). Every register holds its reset value; memories, tables and queues list nothing. Grade, serial
number and what the fuses hold belong to one part: a grade A part with nothing fused bad. DESIGN CHOICE (log 18). -/
def State.reset : State :=
  { pending := [], freeCtr := 0, gradeS := false, ft := 0, cls := 0, layout := 1, setup := none, serial := 0,
    bringing := true, lmap := [], parts := [], cores := [], slices := [], hbmcs := [], bdies := [], ports := [],
    nodes := [], time := .reset, out := [], hif := .reset, chip := .reset, gov := .reset, mmc := .reset,
    gdbg := .reset }

/-- Why a step may stop with a fault: no command of this block does. Faults of the hardware (error responses, poison, resets,
trips) are states of the block. -/
inductive Fault where
  deriving DecidableEq, Repr

/-- Why a command may have no meaning. -/
inductive Refusal where
  /-- A row that the model does not give a meaning: raised by an arm of `exec` alone, and by none now. Safe. -/
  | notModelled (mnemonic : String)
  deriving DecidableEq, Repr

end Sys2Proof.Machine
end

