-- ==== Sys2Proof/Machine/Ops.lean ====
section
/-! DEFINITION. The named operations on the state: reading and writing its parts, numbering of cores, dies and
partitions (R6, R7, R20). -/

namespace Sys2Proof.Machine

/-- The core at a physical index 144d + 12y + x. -/
def State.core (s : State) (c : Nat) : Core := SMap.get Core.reset c s.cores
/-- Replaces a core. -/
def State.setCore (s : State) (c : Nat) (k : Core) : State := { s with cores := SMap.set Core.reset c k s.cores }
/-- Partition `p`. -/
def State.part (s : State) (p : Nat) : Part := SMap.get Part.reset p s.parts
/-- Replaces a partition. -/
def State.setPart (s : State) (p : Nat) (q : Part) : State := { s with parts := SMap.set Part.reset p q s.parts }
/-- The Nimbus slice of base die `b`. -/
def State.slice (s : State) (b : Nat) : Slice := SMap.get Slice.reset b s.slices
/-- Replaces a slice. -/
def State.setSlice (s : State) (b : Nat) (q : Slice) : State := { s with slices := SMap.set Slice.reset b q s.slices }
/-- The controller of stack `k`. -/
def State.hbmc (s : State) (k : Nat) : Hbmc := SMap.get Hbmc.reset k s.hbmcs
/-- Replaces a controller. -/
def State.setHbmc (s : State) (k : Nat) (q : Hbmc) : State := { s with hbmcs := SMap.set Hbmc.reset k q s.hbmcs }

/-- Logical cores per die of the grade (R3). -/
def State.coresPerDie (s : State) : Nat := if s.gradeS then 112 else 128
/-- Logical cores of the grade (R3). -/
def State.gradeCores (s : State) : Nat := 4 * s.coresPerDie
/-- The die of a logical core (R3). -/
def State.dieOf (s : State) (l : Nat) : Nat := l / s.coresPerDie
/-- Partitions of the layout in force (R20). -/
def State.partCount (s : State) : Nat := s.layout
/-- The dies of partition `p` (R20). -/
def State.dies (s : State) (p : Nat) : List Nat :=
  if s.layout = 1 then (if p = 0 then [0, 1, 2, 3] else [])
  else if s.layout = 2 then (if p < 2 then [2 * p, 2 * p + 1] else [])
  else if s.layout = 4 then (if p < 4 then [p] else []) else []
/-- The partition that owns die `d` (R20). -/
def State.partOfDie (s : State) (d : Nat) : Nat :=
  if s.layout = 2 then d / 2 else if s.layout = 4 then d else 0
/-- The partition of logical core `l`. -/
def State.partOf (s : State) (l : Nat) : Nat := s.partOfDie (s.dieOf l)
/-- The partition of a physical core. -/
def State.partOfPhys (s : State) (c : Nat) : Nat := s.partOfDie (c / 144)
/-- Ports of the grade (R3). -/
def State.portCount (s : State) : Nat := if s.gradeS then 24 else 32
/-- The ports of partition `p`: those of its base dies' macros, 8 to a base die (R6, R20). -/
def State.portsOf (s : State) (p : Nat) : List Nat :=
  (s.dies p).flatMap (fun d => (List.range 8).map (8 * d + ·)) |>.filter (· < s.portCount)
/-- The physical core that carries logical core `l` (R7); an unassigned number has none. -/
def State.physOf (s : State) (l : Nat) : Option Nat := s.lmap.lookup l
/-- The logical number that a physical core carries. -/
def State.logicalOf (s : State) (c : Nat) : Option Nat := (s.lmap.find? (fun e => e.2 == c)).map (·.1)
/-- The logical cores of partition `p` that are present, with their physical cores (R400). -/
def State.coresOf (s : State) (p : Nat) : List (Nat × Nat) :=
  s.lmap.filter (fun e => (s.dies p).contains (s.dieOf e.1))

/-- The state of logical core `l`. -/
def State.lcore (s : State) (l : Nat) : Core := s.core ((s.physOf l).getD 576)
/-- Replaces the core that carries logical core `l`. -/
def State.setLcore (s : State) (l : Nat) (k : Core) : State :=
  match s.physOf l with
  | some c => s.setCore c k
  | none => s

/-- The next free value of the model's counter and the state after taking it. -/
def State.fresh (s : State) : Nat × State := (s.freeCtr, { s with freeCtr := s.freeCtr + 1 })

/-- Port `n`. -/
def State.port (s : State) (n : Nat) : Port := SMap.get Port.reset n s.ports
/-- Replaces a port. -/
def State.setPort (s : State) (n : Nat) (q : Port) : State := { s with ports := SMap.set Port.reset n q s.ports }
/-- The fabric node of partition `p`. -/
def State.node (s : State) (p : Nat) : Node := SMap.get Node.reset p s.nodes
/-- Replaces a node. -/
def State.setNode (s : State) (p : Nat) (q : Node) : State := { s with nodes := SMap.set Node.reset p q s.nodes }
/-- Something leaves the module. -/
def State.emit (s : State) (m : OutMsg) : State := { s with out := s.out ++ [m] }

/-! ## The set-up table in force (R373, R374) -/

/-- The field of `n` bytes at offset `off` of section `p` of the table in force; 0 while none is. -/
def State.secField (s : State) (p off n : Nat) : Nat :=
  match s.setup with
  | some t => if p < s.layout then fieldAt t (64 + 64 * p + off) n else 0
  | none => 0
/-- `MODULE_ID`. -/
def State.moduleId (s : State) (p : Nat) : Nat := s.secField p 0 2
/-- `FGROUP`. -/
def State.fgroup (s : State) (p : Nat) : Nat := s.secField p 2 1
/-- `FABRIC_EN`. -/
def State.fabricOn (s : State) (p : Nat) : Bool := bit (s.secField p 3 1) 0
/-- `EXCH_EN`. -/
def State.exchOn (s : State) (p : Nat) : Bool := bit (s.secField p 3 1) 1
/-- `NODE_STATE` (R313). -/
def State.nodeState (s : State) (p : Nat) : Nat :=
  if s.bringing then 0
  else if s.setup = none then 1
  else if (s.part p).resetting = 2 then 4
  else if (s.part p).resetting = 1 then 3
  else if (s.part p).left || (s.part p).degraded then 5 else 2

/-! ## Events (R387) -/

/-- The key of a function's event ring. -/
def fnKey : Fn → Nat
  | .pf => 0
  | .vf p => p + 1

/-- The event ring of a function. -/
def State.evt (s : State) (fn : Fn) : EvtRing := SMap.get EvtRing.reset (fnKey fn) s.hif.evts
/-- Replaces the event ring of a function. -/
def State.setEvt (s : State) (fn : Fn) (r : EvtRing) : State :=
  { s with hif := { s.hif with evts := SMap.set EvtRing.reset (fnKey fn) r s.hif.evts } }

/-- Whether an event ring has a free entry: one entry always stays free. -/
def EvtRing.room (r : EvtRing) : Bool := (r.idx + 1) % 2 ^ r.log2 != r.head

/-- Writes one event entry, its `PHASE`, `LOST` and `SEQ` filled in, and signals the vector or leaves it to the end of the
10 µs interval (R387). -/
def State.writeEvent (s : State) (fn : Fn) (body : Bytes) : State :=
  let r := s.evt fn
  let entry := patch (patch body 3 (toLe 1 (b2n r.phase + 2 * b2n r.lostFlag))) 4 (toLe 4 r.seq)
  let next := (r.idx + 1) % 2 ^ r.log2
  let r1 := { r with idx := next, phase := if next = 0 then !r.phase else r.phase, seq := (r.seq + 1) % 2 ^ 32,
                     lostFlag := false, interval := true, irqDue := r.interval }
  let s1 := (s.setEvt fn r1).emit (.hostWrite fn (r.base + 128 * r.idx) entry)
  if r.interval then s1 else s1.emit (.msix fn (bits r.cfg 16 9))

/-- Puts an event in one ring: written while it has room and the outputs are not held for want of a clock (R434), kept waiting up
to 64, dropped and counted beyond or while the ring is disabled (R387). -/
def State.pushEvent (s : State) (fn : Fn) (body : Bytes) : State :=
  let r := s.evt fn
  if r.enabled && r.waiting.isEmpty && r.room && s.chip.power != .noClock then s.writeEvent fn body
  else if r.enabled && decide (r.waiting.length < 64) then s.setEvt fn { r with waiting := r.waiting ++ [body] }
  else s.setEvt fn { r with lost := satAdd 255 r.lost 1, lostFlag := true }

/-- The 128 bytes of an event entry before its ring's own fields (R387). -/
def eventBody (part code ft : Nat) (detail : Bytes) : Bytes :=
  toLe 2 code ++ toLe 1 part ++ toLe 1 0 ++ toLe 4 0 ++ toLe 8 ft ++ padTo 64 detail ++ toLe 48 0

/-- Posts an event in the ring of the partition it concerns, or of the PF, with the PF's copy when `ALL` is set (R387). -/
def State.postEvent (s : State) (ring : Fn) (code : Nat) (detail : Bytes) : State :=
  match ring with
  | .pf => s.pushEvent .pf (eventBody 0xFF code s.ft detail)
  | .vf p =>
    let b := eventBody p code s.ft detail
    let s1 := s.pushEvent (.vf p) b
    if bit (s.evt .pf).cfg 9 then s1.pushEvent .pf b else s1

/-- Array `a` of a core. -/
def Core.arr (k : Core) (a : Nat) : Arr := if a = 0 then k.arr0 else k.arr1
/-- Replaces array `a`. -/
def Core.setArr (k : Core) (a : Nat) (x : Arr) : Core := if a = 0 then { k with arr0 := x } else { k with arr1 := x }
/-- The physical bank that a bank name reaches (R112). -/
def Arr.bank (a : Arr) (name : Bool) : Bank := if name = a.map then a.bank0 else a.bank1
/-- Replaces the physical bank that a bank name reaches. -/
def Arr.setBank (a : Arr) (name : Bool) (b : Bank) : Arr :=
  if name = a.map then { a with bank0 := b } else { a with bank1 := b }
/-- A walk-store slot (R131). -/
def Arr.slot (a : Arr) (i : Nat) : Tile := SMap.get [] i a.slots
/-- Replaces a walk-store slot. -/
def Arr.setSlot (a : Arr) (i : Nat) (t : Tile) : Arr := { a with slots := SMap.set [] i t a.slots }
/-- Queue `q` of a core. -/
def Core.queue (k : Core) (q : Nat) : List QEntry := k.queues.getD q []
/-- Replaces queue `q`. -/
def Core.setQueue (k : Core) (q : Nat) (es : List QEntry) : Core := { k with queues := setAt k.queues q es }
/-- Thread `t` of a core. -/
def Core.thread (k : Core) (t : Nat) : Thread := SMap.get Thread.reset t k.threads
/-- Replaces thread `t`. -/
def Core.setThread (k : Core) (t : Nat) (x : Thread) : Core := { k with threads := SMap.set Thread.reset t x k.threads }
/-- What a core's operand reads look at. -/
def Core.source (k : Core) : OpSource := { store := k.store, gtb := k.gtb, sides := k.sides }

end Sys2Proof.Machine
end

