-- ==== Sys2Proof/Machine/Debug.lean ====
section
/-! DEFINITION. Shared operations of counters, trace and break logic (chapter 16): counting events, writing trace records
into the log store, freezing a core, and what every completed record counts. -/

namespace Sys2Proof.Machine

/-- Changes the DBG registers of a core. -/
def State.modDbg (s : State) (c : Nat) (f : CoreDbg → CoreDbg) : State :=
  s.setCore c { s.core c with dbg := f (s.core c).dbg }

/-- A 48-bit counter after adding; it stops at its top (R458, R461, R463). -/
def count48 (v n : Nat) : Nat := satAdd (2 ^ 48 - 1) v n

/-- The event counters of a core after `n` of event `ev` (R461). -/
def CoreDbg.addEvent (d : CoreDbg) (ev n : Nat) : CoreDbg :=
  if d.run then { d with evcnt := (d.evcnt.zip d.evsel).map (fun x => if x.2 = ev then count48 x.1 n else x.1) } else d

/-- Counts `n` of event `ev` on a core (R461). -/
def State.event (s : State) (c ev n : Nat) : State := s.modDbg c (·.addEvent ev n)

/-- Counts a global event of a block's instance in every global counter that selects it (R463). -/
def State.gevent (s : State) (block inst ev n : Nat) : State :=
  if !bit s.gdbg.ctrl 0 then s else
  { s with gdbg := { s.gdbg with gcnt := (s.gdbg.gcnt.zip s.gdbg.gsel).map (fun x =>
      if x.2 = block + 16 * inst + 4096 * ev then count48 x.1 n else x.1) } }

/-- Whether the job of a partition runs unforecast (R220). -/
def State.unforecast (s : State) (p : Nat) : Bool :=
  match (s.part p).job with
  | some j => !j.forecast
  | none => false

/-! ## The log store -/

/-- Base and size of region `r` (0 trace, 1 samples) under the enables in effect (R464). -/
def CoreDbg.split (d : CoreDbg) (r : Nat) : Nat × Nat :=
  if d.traceOn && d.sampleOn then (if r = 0 then (0, 49152) else (49152, 16384))
  else if (if r = 0 then d.traceOn else d.sampleOn) then (0, 65536) else (0, 0)

/-- Region `r`. -/
def CoreDbg.region (d : CoreDbg) (r : Nat) : LogRegion := d.regions.getD r .reset

/-- Replaces region `r`. -/
def CoreDbg.setRegion (d : CoreDbg) (r : Nat) (x : LogRegion) : CoreDbg := { d with regions := setAt d.regions r x }

/-- Whether region `r` has room for `n` more bytes. -/
def CoreDbg.hasRoom (d : CoreDbg) (r n : Nat) : Bool := decide ((d.region r).len + n ≤ (d.split r).2)

/-- Puts a record, sample or padding at the end of a region that has room for it (R464). -/
def Core.logPut (k : Core) (r : Nat) (bs : Bytes) (head : Bool) : Core :=
  let g := k.dbg.region r
  let sp := k.dbg.split r
  let heads := if head then g.heads ++ [g.len] else g.heads
  let log := bs.zipIdx.foldl (fun m e => m.write (sp.1 + (g.pos + g.len + e.2) % max 1 sp.2) e.1) k.log
  { k with log, dbg := k.dbg.setRegion r { g with len := g.len + bs.length, heads } }

/-- The 16 bytes of a trace record (R468). -/
def traceBytes (ft opid tag kind chan info : Nat) : Bytes :=
  toLe 8 ft ++ toLe 4 opid ++ toLe 2 tag ++ toLe 1 (kind + 16 * chan) ++ toLe 1 info

/-- Writes one trace record; one that finds its region full is dropped and counted, and a `LOST` record goes first when the
region has room again (R467, R468). The `ENGINE` field of a `LOST` record is not stated: `free`. -/
def Core.putTrace (k : Core) (bs : Bytes) (ft free : Nat) : Core :=
  let g := k.dbg.region 0
  let drop (x : Core) : Core :=
    { x with dbg := { x.dbg.setRegion 0 { x.dbg.region 0 with missed := satAdd 0xFFFFFFFF (x.dbg.region 0).missed 1 } with
                      trLost := satAdd 0x7FFF x.dbg.trLost 1 } }
  if g.missed = 0 then (if k.dbg.hasRoom 0 16 then k.logPut 0 bs true else drop k)
  else if k.dbg.hasRoom 0 16 then
    let k1 := k.logPut 0 (traceBytes ft g.missed 0 6 0 (free % 8)) true
    let k2 := { k1 with dbg := k1.dbg.setRegion 0 { k1.dbg.region 0 with missed := 0 } }
    if k2.dbg.hasRoom 0 16 then k2.logPut 0 bs true else drop k2
  else drop k

/-- Writes a trace record while trace is in effect (R468). -/
def State.trace (s : State) (c opid tag kind chan info : Nat) : State :=
  if !(s.core c).dbg.traceOn then s else
  let r := s.fresh
  r.2.setCore c ((r.2.core c).putTrace (traceBytes s.ft opid tag kind chan info) s.ft (Config.freeValue r.1).toNat)

/-- Whether the layer filter lets the record of an operator through (R468). -/
def CoreDbg.layerOk (d : CoreDbg) (opid : Nat) : Bool :=
  !bit d.trace 13 || (decide (bits d.filter 0 16 ≤ opid / 65536) && decide (opid / 65536 ≤ bits d.filter 16 16))

/-- The number by which masks and counters name a record's engine (R458), from its `ENGINE` code. -/
def engineIndex (engine : Nat) : Nat := if engine = 7 then 5 else engine

/-- `INFO` of a trace record (R468). -/
def State.traceInfo (s : State) (c engine status : Nat) (led : Ledger) (shift : Nat) : Nat :=
  engine + 8 * b2n (status != 0) + 16 * b2n (led != {}) + 32 * b2n (s.unforecast (s.partOfPhys c)) + 64 * (shift % 4)

/-- The `START` record of a record on a selected engine (R468). -/
def State.traceStart (s : State) (c engine opid tag chan : Nat) : State :=
  let d := (s.core c).dbg
  if bit d.trace (1 + engineIndex engine) && d.layerOk opid then s.trace c opid tag 1 chan (s.traceInfo c engine 0 {} 0) else s

/-- The `COMPLETE` record of a record on a selected engine, and of every failure (R468). -/
def State.traceDone (s : State) (c engine opid tag chan status : Nat) (led : Ledger) (shift : Nat) : State :=
  let d := (s.core c).dbg
  if (bit d.trace (7 + engineIndex engine) || status != 0) && d.layerOk opid then
    s.trace c opid tag 2 chan (s.traceInfo c engine status led shift) else s

/-! ## Breaks -/

/-- A core freezes (R471, R472): nothing of it starts any more, a `BREAK` record is written, and the job of its partition
runs in unforecast mode from now on. -/
def State.freeze (s : State) (c engine opid tag : Nat) (byTag : Bool) : State :=
  let k := s.core c
  if k.seq.frozen then s else
  let s1 := s.setCore c { k with seq := { k.seq with frozen := true }, dbg := { k.dbg with byTag } }
  let p := s.partOfPhys c
  let s2 := s1.setPart p { s1.part p with job := (s1.part p).job.map (fun j => { j with forecast := false }),
                                          frozenAt := some ((s1.part p).frozenAt.getD s.ft) }
  s2.trace c opid tag 4 0 (s2.traceInfo c engine 0 {} 0)

/-- Whether any core of a partition is frozen (R472). -/
def State.anyFrozen (s : State) (p : Nat) : Bool := (s.part p).frozenAt.isSome

/-- Freezes every core of a partition (R471, R475). No record breaks on them, so the fields that name one are free. -/
def State.freezePart (s : State) (p : Nat) : State :=
  (s.coresOf p).foldl (fun acc e =>
    let r := acc.fresh
    let v := (Config.freeValue r.1).toNat
    r.2.freeze e.2 (bits v 48 3) (bits v 0 32) (bits v 32 16) false) s

/-- A break condition of a core is met (R471): it freezes, signals its vector, and takes its partition with it when asked.
No MSI-X message leaves while outputs are held (R377). -/
def State.breakCore (s : State) (c engine opid tag : Nat) (byTag : Bool) : State :=
  let d := (s.core c).dbg
  let s1 := s.freeze c engine opid tag byTag
  let s2 := if bit d.brkCtrl 3 && s.setup.isSome then s1.emit (.msix .pf (bits d.brkCtrl 5 8)) else s1
  if bit d.brkCtrl 2 then s2.freezePart (s.partOfPhys c) else s2

/-- A record of the job is completed, refused ones and sequencer records included (R461, R471): it counts, and may meet the
count break. -/
def State.recordDone (s : State) (c engine opid tag : Nat) : State :=
  let s1 := (s.modDbg c (fun d => { d with done := (d.done + 1) % 2 ^ 32 })).event c 0x0500 1
  let d := (s1.core c).dbg
  if bit d.brkCtrl 0 && d.done == d.brkCount && !(s1.core c).seq.frozen then s1.breakCore c engine opid tag false else s1

/-- Whether the tag break of a core holds the record with a tag and instance number (R471, R473). -/
def CoreDbg.tagMatch (d : CoreDbg) (tag serial : Nat) : Bool :=
  bit d.brkCtrl 1 && (tag &&& bits d.brkTag 16 16) == bits d.brkTag 0 16 && d.tagPass != some serial

/-- Whether the sequencer of a core stands still because its trace region is full (R467). -/
def State.traceStall (s : State) (c : Nat) : Bool :=
  let d := (s.core c).dbg
  bit d.trace 14 && d.traceOn && !d.hasRoom 0 16 && s.unforecast (s.partOfPhys c)

end Sys2Proof.Machine
end

