-- ==== Sys2Proof/Machine/Governor.lean ====
section
/-! DEFINITION. Shared operations of the governor (chapter 14): class ceilings, what each die runs at, the issue level of a
core and its admission. -/

namespace Sys2Proof.Machine

/-- The ARITH ceiling of a class as a step: 0 = 1.5, 1 = 1.2, 2 = 1.0, 3 = 0.75 GHz (R421). -/
def classStep (cls : Nat) : Nat := if cls = 0 then 3 else if cls = 1 then 1 else 0

/-- The issue level maximum of a class and grade (R421). -/
def classCap (cls : Nat) (gradeS : Bool) : Nat := if cls = 2 ∧ gradeS = false then 7 else 8

/-- The envelope of a class in W (R421). -/
def envelope (cls : Nat) : Nat := if cls = 0 then 1300 else if cls = 1 then 2200 else if cls = 2 then 3000 else 3200

/-- The step a die is to run at: the slowest of the class's ceiling, the limiter's step, its thermal step and the hold of an
input excursion (R416, R423, R429). -/
def State.wantStep (s : State) (d : Nat) : Nat :=
  max (max (classStep s.cls) s.gov.limitStep) (max (s.gov.thermStep.getD d 0) (if s.gov.inputBad then 3 else 0))

/-- The issue level cap of a die (R425). -/
def State.issueCap (s : State) (d : Nat) : Nat :=
  min (min (classCap s.cls s.gradeS) s.gov.limitCap) (s.gov.thermCap.getD d 8)

/-- The step a die runs at (R433). -/
def State.arithStep (s : State) (d : Nat) : Nat := s.gov.actual.getD d 3

/-- A die counts as running ARITH below the ceiling (R428). -/
def State.dieBelow (s : State) (d : Nat) : Bool :=
  decide (classStep s.cls < s.arithStep d) || decide (s.issueCap d < classCap s.cls s.gradeS) || s.gov.stopped.getD d false

/-- The governor's settings take effect on one die (R428, R433): a fall at once, a rise once the core voltage has been
raised; a die below its ceiling is noted. -/
def State.settleDie (s : State) (d : Nat) : State :=
  let w := s.wantStep d
  let a := s.arithStep d
  let g := s.gov
  let s1 := { s with gov := { g with actual := setAt g.actual d (max a w), raising := setAt g.raising d (decide (w < a)) } }
  if s1.dieBelow d then { s1 with gov := { s1.gov with belowAt := setAt s1.gov.belowAt d (some s.ft) } } else s1

/-- The governor's settings take effect on every die. -/
def State.settleDies (s : State) : State := (List.range 4).foldl State.settleDie s

/-- The issue level of a core, which its die's cap bounds (R424, R425). -/
def State.issueLevel (s : State) (c : Nat) : Nat := min (SMap.get 1 c s.gov.levels) (s.issueCap (c / 144))

/-- A core needs admission before it issues: it is at level 1 and has not been admitted for this climb (R426). -/
def State.needsAdmission (s : State) (c : Nat) : Bool :=
  SMap.get 1 c s.gov.levels == 1 && !SMap.get false c s.gov.admitted

/-- A core's arrays may issue now: its die has no droop stop, and it is admitted, or needs no admission, or the slot at hand
has room (R426, R427). -/
def State.mayIssue (s : State) (c : Nat) : Bool :=
  !s.gov.stopped.getD (c / 144) false && (!s.needsAdmission c || decide (s.gov.slotCount.getD (c / 144) 0 < 16))

/-- A core's array issues (R425, R426): a ramp start is admitted, and the interval counts as one in which it issued. -/
def State.noteIssue (s : State) (c : Nat) : State :=
  let g := s.gov
  let g1 := if s.needsAdmission c then
      { g with admitted := SMap.set false c true g.admitted, slotCount := modAt g.slotCount (c / 144) (· + 1) }
    else g
  { s with gov := { g1 with issued := SMap.set false c true g1.issued } }

/-- A ramp start that finds its slot full waits for a later one, in order of the time it became ready and then of 12y + x
(R426). -/
def State.awaitSlot (s : State) (c : Nat) : State :=
  if s.gov.stopped.getD (c / 144) false ∨ s.gov.waiting.any (fun e => e.2 == c) then s else
  let before := s.gov.waiting.filter (fun e => decide (e.1 < s.ft) || (e.1 == s.ft && decide (e.2 < c)))
  let after := s.gov.waiting.filter (fun e => !(decide (e.1 < s.ft) || (e.1 == s.ft && decide (e.2 < c))))
  { s with gov := { s.gov with waiting := before ++ (s.ft, c) :: after } }

/-- Runs an array's issue when the governor lets it, and queues its core for a slot otherwise (R424, R426). -/
def State.issuing (s : State) (c : Nat) (f : State → State) : State :=
  if s.mayIssue c then f (s.noteIssue c) else s.awaitSlot c

end Sys2Proof.Machine
end

