-- ==== Sys2Proof/Machine/Memory.lean ====
section
/-! DEFINITION. The address map (R260, R261), the interleave (R263 to R265), Nimbus as cache directory over coherent
memory (R284, R288), the memory code's outcomes (R270 to R273) and the reads and writes every agent uses. -/

namespace Sys2Proof.Machine

/-- Bytes of one GiB. -/
def gib : Nat := 2 ^ 30
/-- The first address past the HBM window (R260). -/
def hbmWindow : Nat := 0x0C000000000
/-- The base of the scratch window (R260). -/
def scratchBase : Nat := 0x80000000000
/-- The base of the core-store window (R260). -/
def coreBase : Nat := 0xC0000000000
/-- The base of the register range (R260). -/
def regBase : Nat := 0xF0000000000
/-- Bytes of a slab (R283). -/
def slabBytes : Nat := 2 ^ 20
/-- Bytes of one slice's scratch window (R260). -/
def sliceBytes : Nat := slabCount * slabBytes

/-- What a device address reaches (R260). -/
inductive Target where
  | hbm (a : Nat)
  | scratch (die off : Nat)
  | coreWin (c off : Nat)
  | reg (off : Nat)
  deriving DecidableEq, Repr

/-- Whether slab `t` of a slice is in force as cache. -/
def Slice.isCache (sl : Slice) (t : Nat) : Bool := sl.inForce.testBit t

/-- Cache slabs in effect (R291). -/
def Slice.cacheSlabs (sl : Slice) : Nat := (List.range slabCount).countP sl.isCache

/-- Where `n` bytes at device address `a` of partition `p` lie, or the cause of R261 with which the access is refused.
`priv` is the physical function, the MMC or a mover. -/
def State.target (s : State) (p a n : Nat) (priv : Bool) : Except Nat Target :=
  if a + n ≤ hbmWindow then
    if a + n ≤ (s.part p).topGib * gib then .ok (.hbm a) else .error 1
  else if a < scratchBase then .error 0
  else if a < scratchBase + 4 * sliceBytes then
    let j := (a - scratchBase) / sliceBytes
    let o := (a - scratchBase) % sliceBytes
    match (s.dies p)[j]? with
    | none => .error 1
    | some d =>
      let t0 := o / slabBytes
      let t1 := (o + (n - 1)) / slabBytes
      if slabCount ≤ t1 ∨ (s.slice d).retired.testBit t0 ∨ (s.slice d).retired.testBit t1 ∨ (s.slice d).isCache t0 ∨ (s.slice d).isCache t1 then .error 0 else .ok (.scratch d o)
  else if coreBase ≤ a ∧ a < coreBase + 576 * 2 ^ 22 then
    if !priv then .error 3 else
    let c := (a - coreBase) / 2 ^ 22
    let o := (a - coreBase) % 2 ^ 22
    if !(s.dies p).contains (c / 144) then .error 1
    else if o + n ≤ coreStoreBytes ∨ (coreStoreBytes ≤ o ∧ o + n ≤ coreStoreBytes + 65536) then .ok (.coreWin c o)
    else .error 0
  else if regBase ≤ a ∧ a + n ≤ regBase + 0x10000000 then
    if priv then .ok (.reg (a - regBase)) else .error 3
  else .error 0

/-! ## Interleave -/

/-- A pseudo-channel: stack, channel, pseudo-channel. -/
structure PcId where
  stack : Nat
  channel : Nat
  pc : Nat
  deriving DecidableEq, Repr

/-- Whether a pseudo-channel is retired (R292). -/
def State.pcRetired (s : State) (i : PcId) : Bool :=
  (if i.pc = 0 then (s.hbmc i.stack).retired0 else (s.hbmc i.stack).retired1).testBit i.channel

/-- The stacks of partition `p` (R20). -/
def State.stacksOf (s : State) (p : Nat) : List Nat := (s.dies p).flatMap (fun d => [3 * d, 3 * d + 1, 3 * d + 2])

/-- The active pseudo-channels of a partition in the order of R263: pseudo-channel, then channel, then stack. -/
def State.activePcs (s : State) (p : Nat) : List PcId :=
  (([0, 1].flatMap (fun pc => (List.range 32).flatMap (fun c =>
      (s.stacksOf p).map (fun k => (⟨k, c, pc⟩ : PcId))))).filter (fun i => !s.pcRetired i))

/-- The pseudo-channel, row, bank and word of an HBM address under `n` active pseudo-channels (R264). -/
structure HbmPlace where
  index : Nat
  row   : Nat
  bank  : Nat
  word  : Nat
  deriving DecidableEq, Repr

/-- The mapping of R264. -/
def hbmPlace (n a : Nat) : HbmPlace :=
  let g := a >>> 11
  let q := g / n
  let r := g % n
  { index := (r + ((q ^^^ (q >>> 5) ^^^ (q >>> 11)) % n)) % n
    row := q >>> 6
    bank := (q ^^^ (q >>> 6)) % 64
    word := (a >>> 8) % 8 }

/-- Where an HBM address lies. -/
def State.placeOf (s : State) (p a : Nat) : HbmPlace := hbmPlace (max 1 (s.activePcs p).length) a

/-- The pseudo-channel that carries an HBM address. -/
def State.pcOf (s : State) (p a : Nat) : PcId := (s.activePcs p).getD (s.placeOf p a).index ⟨0, 0, 0⟩

/-- The home slice of an HBM line: the base die that carries the line's stack (R265). -/
def State.homeDie (s : State) (p a : Nat) : Nat := (s.pcOf p a).stack / 3

/-! ## Events -/

/-- The detail of a memory event (R281). -/
def memDetail (code stack channel pcByte bank row addr len symbols ft : Nat) : Bytes :=
  toLe 2 code ++ toLe 1 stack ++ toLe 1 channel ++ toLe 1 pcByte ++ toLe 1 bank ++ toLe 2 row ++ toLe 8 addr
    ++ toLe 4 len ++ toLe 2 symbols ++ toLe 2 0 ++ toLe 8 ft

/-- Raises E_NIM_UNCORR for a line of a slice (R281, R288). -/
def State.nimEvent (s : State) (p d line : Nat) : State :=
  s.postEvent (.vf p) Code.nimUncorr (memDetail Code.nimUncorr (0x80 + d) 0xFF 0 0xFF 0xFFFF line 256 0 s.ft)

/-- Raises E_MEM_UNCORR for a code word (R273, R281). -/
def State.memEvent (s : State) (p line : Nat) (recovered : Bool) (symbols : Nat) : State :=
  let i := s.pcOf p line
  let w := s.placeOf p line
  ({ s with chip := { s.chip with memErr := true } } : State).postEvent (.vf p) Code.memUncorr
    (memDetail Code.memUncorr i.stack i.channel (i.pc + 2 * b2n recovered) w.bank w.row line 256 symbols s.ft)

/-! ## Cache directory -/

/-- The tree bits of a 16-way set after an access to `way`: each node on the path points away from it. -/
def plruTouch (t way : Nat) : Nat :=
  (List.range 4).foldl (fun acc lvl =>
    let node := 2 ^ lvl - 1 + way / 2 ^ (4 - lvl)
    let right := (way / 2 ^ (3 - lvl)) % 2
    let cleared := acc - (if acc.testBit node then 2 ^ node else 0)
    if right = 0 then cleared + 2 ^ node else cleared) t

/-- The way that the tree bits give up (R284). -/
def plruVictim (t : Nat) : Nat :=
  (List.range 4).foldl (fun acc lvl => 2 * acc + b2n (t.testBit (2 ^ lvl - 1 + acc))) 0

/-- The set of a line (R284). -/
def Slice.setOf (sl : Slice) (line : Nat) : Nat := (line / 256) % (256 * max 1 sl.cacheSlabs)

/-- The directory entry of a way. -/
def Slice.way (sl : Slice) (set way : Nat) : CLine := SMap.get ⟨false, 0, false⟩ (16 * set + way) sl.dir

/-- The way that holds a line, if one does. -/
def Slice.find (sl : Slice) (line : Nat) : Option Nat :=
  (List.range 16).find? (fun w => (sl.way (sl.setOf line) w).valid && (sl.way (sl.setOf line) w).addr == line)

/-- Whether a line is present in the slice's cache. -/
def Slice.holds (sl : Slice) (line : Nat) : Bool := sl.cacheSlabs != 0 && (sl.find line).isSome

/-- Whether an address falls in an enabled no-allocate window (R284, R291). -/
def Slice.noAllocate (sl : Slice) (line : Nat) : Bool :=
  sl.noalloc.any (fun w => w.en && decide (w.base ≤ line / 65536) && decide (line / 65536 ≤ w.limit))

/-- Whether a line's poison bit is set in the slice (R288). -/
def Slice.poisoned (sl : Slice) (line : Nat) : Bool := SMap.get false line sl.poison

/-- Records an access to a line in its home slice's directory: a hit touches its way, a miss that may allocate takes a
free way or the one the tree gives up (R284). A poisoned dirty line that leaves writes a poisoned code word (R288). -/
def State.touchLine (s : State) (p d line : Nat) (dirty : Bool) : State :=
  let sl := s.slice d
  if sl.cacheSlabs = 0 then s else
  let set := sl.setOf line
  let put (w : Nat) (c : CLine) (x : Slice) : Slice :=
    { x with dir := SMap.set ⟨false, 0, false⟩ (16 * set + w) c x.dir,
             plru := SMap.set 0 set (plruTouch (SMap.get 0 set x.plru) w) x.plru }
  match sl.find line with
  | some w => (s.gevent 3 d 0 1).setSlice d (put w ⟨true, line, (sl.way set w).dirty || dirty⟩ sl)
  | none =>
    let s := s.gevent 3 d 1 1
    if sl.noAllocate line then s else
    match (List.range 16).find? (fun w => !(sl.way set w).valid) with
    | some w => s.setSlice d (put w ⟨true, line, dirty⟩ sl)
    | none =>
      let w := plruVictim (SMap.get 0 set sl.plru)
      let old := sl.way set w
      let s1 := s.setSlice d (put w ⟨true, line, dirty⟩ { sl with poison := SMap.set false old.addr false sl.poison })
      let s2 := if old.dirty then (s1.gevent 3 d 2 1).gevent 2 (s1.pcOf p old.addr).stack 1 1 else s1
      if old.dirty && sl.poisoned old.addr then
        s2.setPart p { s2.part p with poison := SMap.set false old.addr true (s2.part p).poison }
      else s2

/-! ## Stale watches -/

/-- A write to a line takes effect: every armed window of the partition's cores that has read the line takes its flag
(R252). A window without `FRESH` also keeps the event in `CDMA_WATCH`.`STALE` (R253, R259). -/
def Core.markStale (k : Core) (line : Nat) : Core :=
  let hit (w : Watch) : Bool := w.armed && SMap.get false line w.served
  { k with
    watches := k.watches.map (fun w => if hit w then { w with flag := true } else w)
    wStale := k.wStale ||| maskOf 8 (fun i => match k.watches[i]? with
      | some w => hit w && !w.fresh
      | none => false) }

/-- The write of a line reaches the windows of every core of the partition (R252). -/
def State.markStale (s : State) (p line : Nat) : State :=
  { s with cores := s.cores.map (fun e =>
      if (s.dies p).contains (e.1 / 144) then (e.1, e.2.markStale line) else e) }

/-! ## The memory code -/

/-- The half of a code word that a symbol belongs to (R270, R271): data bytes 0 to 255, check bytes 256 to 271. -/
def symbolHalf (i : Nat) : Nat := if i < 256 then (i / 32) % 2 else ((i - 256) / 2) % 2

/-- Distinct erroneous symbols in a half. -/
def halfErrors (errs : List (Nat × Byte)) (h : Nat) : Nat :=
  (List.range 272).countP (fun i => symbolHalf i == h && errs.any (fun e => e.1 == i && e.2 != 0))

/-- `SYMBOLS` of a memory event (R281). -/
def symbolField (errs : List (Nat × Byte)) : Nat :=
  let f (h : Nat) : Nat := if 4 < halfErrors errs h then 0xFF else halfErrors errs h
  f 0 + 256 * f 1

/-- Counts a corrected code word (R292). -/
def State.countCe (s : State) (p line : Nat) : State :=
  let k := (s.pcOf p line).stack
  (s.gevent 2 k 6 1).setHbmc k { s.hbmc k with ce := satAdd 0xFFFF_FFFF (s.hbmc k).ce 1 }

/-- Sets or clears the poison of an HBM code word. -/
def State.setPoison (s : State) (p line : Nat) (b : Bool) : State :=
  s.setPart p { s.part p with poison := SMap.set false line b (s.part p).poison }

/-- An HBM code word is read under an environment's symbol errors: whether it fails (R271 to R273). At most 4 errors in
each half are corrected and counted; more are found, unless the free value says that they pass for another code word,
which then stands in the memory unreported. -/
def State.readWord (s : State) (p line : Nat) (flt : MemFault) : State × Bool :=
  if SMap.get false line (s.part p).poison then (s, false) else
  match flt with
  | .symbols errs =>
    let n0 := halfErrors errs 0
    let n1 := halfErrors errs 1
    if n0 = 0 ∧ n1 = 0 then (s, true)
    else if n0 ≤ 4 ∧ n1 ≤ 4 then (s.countCe p line, true)
    else
      let (r, s1) := s.fresh
      if Config.miscorrects r then
        let bad := (List.range 256).map (fun i =>
          Config.miscorrectByte (line + i) ((s1.part p).hbm.read (line + i)))
        (s1.setPart p { s1.part p with hbm := (s1.part p).hbm.writeN line bad }, true)
      else ((s1.setPoison p line true).memEvent p line false (symbolField errs), false)
  | _ => (s, true)

/-- A code word found uncorrectable while its home slice holds the line: the slice writes its copy back and the event
carries `RECOVERED` (R273). -/
def State.recoverWord (s : State) (p line : Nat) (errs : List (Nat × Byte)) : State :=
  s.memEvent p line true (symbolField errs)

/-- The outcome of a Nimbus error on a line that the slice holds (R288): whether the line can be read. -/
def State.nimError (s : State) (p d line : Nat) (flt : MemFault) : State × Bool :=
  let sl := s.slice d
  if sl.poisoned line then (s, false) else
  match flt with
  | .nimCorrected => (s.setSlice d { sl with ce := satAdd 0xFFFF sl.ce 1 }, true)
  | .nimUncorrectable =>
    ((s.setSlice d { sl with ue := satAdd 0xFFFF sl.ue 1, poison := SMap.set false line true sl.poison }).nimEvent
      p d line, false)
  | _ => (s, true)

/-- The line that holds an address. -/
def lineOf (a : Nat) : Nat := a / 256 * 256

/-- The bytes that an HBM address reaches: while a partition's banks are flipped, an address in either bank region reaches
the other's bytes (R333). -/
def State.bankAddr (s : State) (p a : Nat) : Nat :=
  match (s.part p).swap with
  | none => a
  | some (cur, next, n) =>
    if cur ≤ a ∧ a < cur + n then next + (a - cur) else if next ≤ a ∧ a < next + n then cur + (a - next) else a

/-- Reads `n` bytes that lie within one line of partition `p`, under the environment's fault: the bytes, or the cause
(R261, R267, R272, R284, R288). -/
def State.readLine (s : State) (p a0 n : Nat) (priv : Bool) (flt : MemFault) : State × Except Nat Bytes :=
  let a := s.bankAddr p a0
  match s.target p a n priv with
  | .error c => (s, .error c)
  | .ok (.hbm _) =>
    let line := lineOf a
    let d := s.homeDie p a
    if (s.slice d).holds line then
      let (s1, ok) := s.nimError p d line flt
      let s2 := s1.touchLine p d line false
      if ok then (s2, .ok ((s2.part p).hbm.readN a n)) else (s2, .error 2)
    else
      let (s1, ok) := (s.gevent 2 (s.pcOf p a).stack 0 1).readWord p line flt
      if ok then
        let s2 := s1.touchLine p d line false
        (s2, .ok ((s2.part p).hbm.readN a n))
      else (s1, .error 2)
  | .ok (.scratch d o) =>
    let (s1, ok) := (s.gevent 3 d 4 1).nimError p d (lineOf a) flt
    if ok then (s1, .ok ((s1.slice d).scratch.readN o n)) else (s1, .error 2)
  | .ok (.coreWin c o) =>
    let m := if o < coreStoreBytes then (s.core c).store.readN o n else (s.core c).log.readN (o - coreStoreBytes) n
    (s, .ok m)
  | .ok (.reg _) => (s, .error 3)

/-- Writes bytes that lie within one line of partition `p`: success or the cause (R272, R284, R288). -/
def State.writeLine (s : State) (p a0 : Nat) (bs : Bytes) (priv : Bool) (flt : MemFault) : State × Except Nat Unit :=
  let a := s.bankAddr p a0
  let n := bs.length
  match s.target p a n priv with
  | .error c => (s, .error c)
  | .ok (.hbm _) =>
    let line := lineOf a
    let d := s.homeDie p a
    let whole := decide (n = 256)
    let put (x : State) : State :=
      ((x.setPart p { x.part p with hbm := (x.part p).hbm.writeN a bs }).touchLine p d line true).markStale p line
    let clean (x : State) : State :=
      (x.setPoison p line false).setSlice d { x.slice d with poison := SMap.set false line false (x.slice d).poison }
    if whole then (put (clean s), .ok ())
    else if (s.slice d).holds line then
      let (s1, ok) := s.nimError p d line flt
      if ok then (put s1, .ok ()) else (s1, .error 2)
    else
      let k := (s.pcOf p a).stack
      let (s1, ok) := ((s.gevent 2 k 0 1).gevent 2 k 2 1).readWord p line flt
      if ok then (put s1, .ok ()) else (s1, .error 2)
  | .ok (.scratch d o) =>
    let line := lineOf a
    let put (y : State) : State :=
      let x := y.gevent 3 d 4 1
      (x.setSlice d { x.slice d with scratch := (x.slice d).scratch.writeN o bs }).markStale p line
    if n = 256 then
      (put (s.setSlice d { s.slice d with poison := SMap.set false line false (s.slice d).poison }), .ok ())
    else
      let (s1, ok) := s.nimError p d line flt
      if ok then (put s1, .ok ()) else (s1, .error 2)
  | .ok (.coreWin c o) =>
    let k := s.core c
    (s.setCore c (if o < coreStoreBytes then { k with store := k.store.writeN o bs }
      else { k with log := k.log.writeN (o - coreStoreBytes) bs }), .ok ())
  | .ok (.reg _) => (s, .error 3)

/-- The pieces of a range of `n` bytes at `a`, one per 256 B line: address and length (R266). `fuel` bounds the
pieces. -/
def linePieces : Nat → Nat → Nat → List (Nat × Nat)
  | 0, _, _ => []
  | fuel + 1, a, n =>
    if n = 0 then [] else
    let k := min n (256 - a % 256)
    (a, k) :: linePieces fuel (a + k) (n - k)

/-- The line pieces of a range. -/
def pieces (a n : Nat) : List (Nat × Nat) := linePieces (n / 256 + 2) a n

/-- Reads a range of device memory, line by line; one failing word fails the whole request with its address (R272). -/
def State.devRead (s : State) (p a n : Nat) (priv : Bool) : State × Except (Nat × Nat) Bytes :=
  (pieces a n).foldl (fun acc e =>
    match acc.2 with
    | .error x => (acc.1, .error x)
    | .ok bs =>
      let r := acc.1.readLine p e.1 e.2 priv .clean
      match r.2 with
      | .ok b => (r.1, .ok (bs ++ b))
      | .error c => (r.1, .error (c, e.1))) (s, .ok [])

/-- Writes a range of device memory: every word that may be written is written, and a failing word fails the request
with its address (R272). -/
def State.devWrite (s : State) (p a : Nat) (bs : Bytes) (priv : Bool) : State × Except (Nat × Nat) Unit :=
  (pieces a bs.length).foldl (fun acc e =>
    let r := acc.1.writeLine p e.1 ((bs.drop (e.1 - a)).take e.2) priv .clean
    match acc.2, r.2 with
    | .ok _, .error c => (r.1, .error (c, e.1))
    | x, _ => (r.1, x)) (s, .ok ())

/-- The detail of E_REQ_WATCHDOG (R281): the code word of an HBM address with its place, another access by its own range. -/
def State.watchdogDetail (s : State) (p : Nat) (l : Option Loc) (a n : Nat) : Bytes :=
  let plain := memDetail Code.reqWatchdog 0xFF 0xFF 0 0xFF 0xFFFF a n 0 s.ft
  match l with
  | some (.dev x) =>
    match s.target p x 1 false with
    | .ok (.hbm _) =>
      let i := s.pcOf p x
      let w := s.placeOf p (lineOf x)
      memDetail Code.reqWatchdog i.stack i.channel i.pc w.bank w.row (lineOf x) 256 0 s.ft
    | _ => plain
  | _ => plain

/-- Reads `n` bytes at a location for partition `p`; an access that leaves its core store is not mapped (R181, R261). -/
def State.locRead (s : State) (p : Nat) (l : Loc) (n : Nat) : State × Except (Nat × Nat) Bytes :=
  match l with
  | .dev a => s.devRead p a n false
  | .cst c o => if o + n ≤ coreStoreBytes then (s, .ok ((s.core c).store.readN o n)) else (s, .error (0, o))

/-- Writes bytes at a location for partition `p`. -/
def State.locWrite (s : State) (p : Nat) (l : Loc) (bs : Bytes) : State × Except (Nat × Nat) Unit :=
  match l with
  | .dev a => s.devWrite p a bs false
  | .cst c o =>
    if o + bs.length ≤ coreStoreBytes then
      (s.setCore c { s.core c with store := (s.core c).store.writeN o bs }, .ok ())
    else (s, .error (0, o))

/-- Writes a list of pieces in order; the first failing address is kept, later pieces are still written. -/
def State.locWrites (s : State) (p : Nat) (ws : List (Loc × Bytes)) : State × Except (Nat × Nat) Unit :=
  ws.foldl (fun acc w =>
    let r := acc.1.locWrite p w.1 w.2
    match acc.2, r.2 with
    | .ok _, e => (r.1, e)
    | x, _ => (r.1, x)) (s, .ok ())

/-- Reads several pieces and joins them; the first failure ends it. -/
def State.locReads (s : State) (p : Nat) (ls : List (Loc × Nat)) : State × Except (Nat × Nat) Bytes :=
  ls.foldl (fun acc e =>
    match acc.2 with
    | .error x => (acc.1, .error x)
    | .ok bs =>
      let r := acc.1.locRead p e.1 e.2
      match r.2 with
      | .ok b => (r.1, .ok (bs ++ b))
      | .error x => (r.1, .error x)) (s, .ok [])

/-- An atomic operation on the bytes at an address within one line, as one locked step (R286): the 64-bit sum that stops
at its top, the FP32 sum rounded to nearest even, or the exact W128 sum; also what it counts. -/
def atomicResult (old : Bytes) (op : AtomicOp) : Bytes × Ledger :=
  match op with
  | .add64 v => (toLe 8 (min (2 ^ 64 - 1) (fromLe old + v.toNat)), {})
  | .addF32 v =>
    let r := FloatFmt.fp32.write .rne false 0 (FVal.add (fp32Val (fromLe old)) (fp32Val v.toNat))
    (toLe 4 r.1, r.2)
  | .addW128 v =>
    let r := (Cum.decode (fromLe old)).wadd (Cum.decode v.toNat)
    (toLe 16 r.1.encode, r.2.add (w128ReadLedger v.toNat))

/-- Bytes an atomic operation acts on. -/
def atomicWidth : AtomicOp → Nat
  | .add64 _ => 8
  | .addF32 _ => 4
  | .addW128 _ => 16

/-- The slice that an address of a partition reaches. -/
def State.homeSlice (s : State) (p a : Nat) : Nat :=
  match s.target p a 1 false with
  | .ok (.scratch d _) => d
  | _ => s.homeDie p a

/-- An atomic operation at the home slice (R286): success with what it counts, or the cause. -/
def State.atomic (s : State) (p a : Nat) (op : AtomicOp) (flt : MemFault) : State × Except Nat Ledger :=
  let r := (s.gevent 3 (s.homeSlice p a) 3 1).readLine p a (atomicWidth op) false flt
  match r.2 with
  | .error c => (r.1, .error c)
  | .ok old =>
    let v := atomicResult old op
    let w := r.1.writeLine p a v.1 false .clean
    match w.2 with
    | .ok _ => (w.1, .ok v.2)
    | .error c => (w.1, .error c)

end Sys2Proof.Machine
end

