-- ==== Sys2Proof/Machine/Queues.lean ====
section
/-! DEFINITION. The engine queues of a core: which record is at the head, when it may start, and how its phase moves on
(R194, R195, R197, R210, R253). -/

namespace Sys2Proof.Machine

/-- The index and entry of the first record of a queue that has not started. -/
def firstWaiting : Nat → List QEntry → Option (Nat × QEntry)
  | _, [] => none
  | i, e :: es => if e.phase = .waiting then some (i, e) else firstWaiting (i + 1) es

/-- Every queue entry of a core. -/
def Core.entries (k : Core) : List QEntry := k.queues.flatten

/-- A barrier that stands earlier in the stream and has not released (R210). -/
def Core.behindBarrier (k : Core) (serial : Nat) : Bool :=
  (k.queue 4).any (fun b => decide (b.serial < serial) && (match b.op with
    | .barrier _ _ => true
    | _ => false))

/-- The token wait of a record is satisfied and, when it consumes, granted in stream order (R197). -/
def Core.waitOk (k : Core) (e : QEntry) : Bool :=
  !e.waitEn || (decide (e.waitCnt ≤ k.seq.tokens.getD e.waitCtr 0)
    && (e.observe || !k.entries.any (fun x => x.phase == .waiting && x.waitEn && !x.observe
          && x.waitCtr == e.waitCtr && decide (x.serial < e.serial))))

/-- No stale-watch window holds the record (R253): every armed window that names it is clear, or records staleness
only. -/
def Core.watchOk (k : Core) (e : QEntry) : Bool :=
  k.watches.all (fun w => !(w.armed && w.recSerial == e.serial && ((w.flag && w.fresh) || w.redoing)))

/-- A record may start, as far as tokens, barriers, windows and break logic are concerned. -/
def Core.mayStart (k : Core) (e : QEntry) : Bool :=
  k.waitOk e && !k.behindBarrier e.serial && k.watchOk e && !k.seq.frozen && !k.dbg.tagMatch e.tag e.serial

/-- A queue has no record in its running phase. -/
def Core.idleQueue (k : Core) (q : Nat) : Bool :=
  (k.queue q).all (fun e => match e.phase with
    | .running _ => false
    | _ => true)

/-- The consuming part of a record's start (R197). -/
def Core.consume (k : Core) (e : QEntry) : Core :=
  if e.waitEn && !e.observe then
    { k with seq := { k.seq with tokens := modAt k.seq.tokens e.waitCtr (· - e.waitCnt) } }
  else k

/-- Changes entry `i` of queue `q`. -/
def Core.modEntry (k : Core) (q i : Nat) (f : QEntry → QEntry) : Core := k.setQueue q (modAt (k.queue q) i f)

/-- What else a queue asks before its next record starts: the arrays run one record at a time while a cirrus repeat is
open (R89), the sync queue runs one record at a time (R195). -/
def Core.queueFree (k : Core) (q i : Nat) : Bool :=
  if q < 2 then k.idleQueue q else if q = 4 then i == 0 else true

/-- The record that queue `q` of logical core `l` may start next: its physical core, its index and itself. -/
def State.ready (s : State) (l q : Nat) : Option (Nat × Nat × QEntry) :=
  match s.physOf l with
  | none => none
  | some c =>
    match firstWaiting 0 ((s.core c).queue q) with
    | none => none
    | some (i, e) => if (s.core c).mayStart e && (s.core c).queueFree q i then some (c, i, e) else none

/-- Notes the time at which the first waiting record of a queue reached its head (R202). -/
def markHead (ft : Nat) (es : List QEntry) : List QEntry :=
  match firstWaiting 0 es with
  | some (i, _) => modAt es i (fun e => { e with headAt := some (e.headAt.getD ft) })
  | none => es

/-- Notes head times in every queue of a core. -/
def Core.markHeads (k : Core) (ft : Nat) : Core := { k with queues := k.queues.map (markHead ft) }

/-- The DMA channel that a trace record of a record names (R468). -/
def QEntry.channel (e : QEntry) : Nat :=
  match e.op with
  | .dma n _ _ _ _ _ _ => n
  | _ => 0

/-- Starts the ready record: consumes its tokens, puts it in phase `ph`, and traces its start. -/
def State.startEntry (s : State) (c q i : Nat) (e : QEntry) (ph : Phase) : State :=
  (s.setCore c ((((s.core c).consume e).modEntry q i (fun x => { x with phase := ph })).markHeads s.ft)).traceStart
    c e.engine e.opid e.tag e.channel

/-- The outcome of an engine's work on a record. -/
structure Outcome where
  status : Nat
  led    : Ledger
  detail : Nat
  shift  : Nat
  deriving DecidableEq, Repr

/-- A successful outcome. -/
def Outcome.good (led : Ledger) : Outcome := ⟨Code.ok, led, 0, 0⟩
/-- A failed outcome. -/
def Outcome.bad (status detail : Nat) : Outcome := ⟨status, {}, detail, 0⟩
/-- The phase of a record whose engine has finished. -/
def Outcome.phase (o : Outcome) : Phase := .done o.status o.led o.detail o.shift

/-- Puts entry `i` of queue `q` of core `c` in a phase. -/
def State.setPhase (s : State) (c q i : Nat) (ph : Phase) : State :=
  s.setCore c ((s.core c).modEntry q i (fun x => { x with phase := ph }))

/-- Starts the ready record and runs its engine on it to its end. -/
def State.runEntry (s : State) (c q i : Nat) (e : QEntry) (run : State → State × Outcome) : State :=
  let r := run (s.startEntry c q i e (.running 0))
  r.1.setPhase c q i r.2.phase

end Sys2Proof.Machine
end

