-- ==== Sys2Proof/Machine/Vector.lean ====
section
/-! DEFINITION. Threads and their instructions: instruction fetch through the cache (R189, R193, R222), addresses
(R223), thread errors (R155), and what each kernel instruction does to its thread (R223). -/

namespace Sys2Proof.Machine

/-! ## The instruction and constant cache -/

/-- Lines of the instruction and constant cache: 64 KiB of 256 B (R193). -/
def icacheLines : Nat := 256

/-- A location rounded down to a multiple. -/
def Loc.floor (l : Loc) (n : Nat) : Loc :=
  match l with
  | .dev a => .dev (a / n * n)
  | .cst c o => .cst c (o / n * n)

/-- Places a line in a core's cache; a full cache gives up a line that the spec does not name (R193, log 5). -/
def State.icachePut (s : State) (c : Nat) (l : Loc) (bs : Bytes) : State :=
  let k := s.core c
  if (k.icache.lookup l).isSome then s
  else if k.icache.length < icacheLines then s.setCore c { k with icache := (l, bs) :: k.icache }
  else
    let (r, s1) := s.fresh
    s1.setCore c { k with icache := (l, bs) :: k.icache.eraseIdx (Config.icacheVictim r % icacheLines) }

/-- Fetches the 2 KiB burst around a location into a core's cache: each line of the burst that can be read is placed,
a failing line is not (R193). -/
def State.icacheBurst (s : State) (c p : Nat) (l : Loc) : State :=
  (List.range 8).foldl (fun acc i =>
    let x := (l.floor 2048).plus (256 * i)
    let r := acc.locRead p x 256
    match r.2 with
    | .ok bs => r.1.icachePut c x bs
    | .error _ => r.1) s

/-- Reads `n` bytes that lie within one line through a core's cache, fetching on a miss; the needed line that cannot be
read is an error with its address (R193). -/
def State.icacheRead (s : State) (c p : Nat) (l : Loc) (n : Nat) : State × Except (Nat × Nat) Bytes :=
  let x := l.floor 256
  let cut (bs : Bytes) : Bytes := (bs.drop (l.num - x.num)).take n
  match (s.core c).icache.lookup x with
  | some bs => (s, .ok (cut bs))
  | none =>
    let r := s.locRead p x 256
    match r.2 with
    | .ok bs => ((r.1.icacheBurst c p l).icachePut c x bs, .ok (cut bs))
    | .error _ => let q := r.1.locRead p l n; (q.1, q.2)

/-! ## Threads -/

/-- The entry of the vector queue with a given instance number. -/
def Core.vecEntry (k : Core) (serial : Nat) : Option (Nat × QEntry) :=
  ((k.queue 2).zipIdx.find? (fun e => e.1.serial == serial)).map (fun e => (e.2, e.1))

/-- The threads that belong to a record. -/
def Core.threadsOf (k : Core) (serial : Nat) : List Nat :=
  (List.range 16).filter (fun t => (k.thread t).st != .free && (k.thread t).serial == serial)

/-- Whether a thread counts as arrived at a thread barrier (R153). -/
def ThreadSt.arrived : ThreadSt → Bool
  | .atBarrier => true
  | .ended => true
  | .failed _ _ => true
  | _ => false

/-- Whether a thread has finished. -/
def ThreadSt.finished : ThreadSt → Bool
  | .ended => true
  | .failed _ _ => true
  | _ => false

/-- After a thread has stopped or arrived: a thread barrier that every other thread has reached lets its threads go on;
a record whose threads have all finished is done, with the error of its lowest failing thread (R153, R155). -/
def Core.settle (k : Core) (serial : Nat) : Core :=
  let ts := k.threadsOf serial
  if ts.all (fun t => (k.thread t).st.finished) then
    let fail := ts.findSome? (fun t => match (k.thread t).st with
      | .failed c d => some (c, d)
      | _ => none)
    let k1 := ts.foldl (fun acc t => acc.setThread t .reset) k
    match k1.vecEntry serial with
    | some (i, e) =>
      let o := fail.getD (Code.ok, 0)
      k1.modEntry 2 i (fun _ => { e with phase := .done o.1 e.led o.2 0 })
    | none => k1
  else if ts.all (fun t => (k.thread t).st.arrived) then
    ts.foldl (fun acc t =>
      if (acc.thread t).st = .atBarrier then acc.setThread t { acc.thread t with st := .running } else acc) k
  else k

/-- Adds to the ledger of a running vector record (R149). -/
def Core.addVecLedger (k : Core) (serial : Nat) (l : Ledger) : Core :=
  match k.vecEntry serial with
  | some (i, _) => k.modEntry 2 i (fun e => { e with led := e.led.add l })
  | none => k

/-- What an instruction asks of its thread. -/
inductive KAct where
  | advance
  | jump (target : Nat)
  | barrier
  | finish
  | fail (code detail : Nat)
  deriving DecidableEq, Repr

/-- What an instruction does: the state with its memory effects, the registers it writes, what it counts, how the thread
goes on. -/
structure KOut where
  st   : State
  regs : List (Nat × VReg)
  led  : Ledger
  act  : KAct

/-- The instruction that a thread is about to run: physical core, partition, thread, word, stream key. -/
structure KCtx where
  c    : Nat
  p    : Nat
  t    : Nat
  w    : KWord
  key  : Nat
  deriving DecidableEq, Repr

/-- Register `v` of the thread. -/
def KCtx.reg (x : KCtx) (s : State) (v : Nat) : VReg := SMap.get 0 v ((s.core x.c).thread x.t).regs

/-- An undefined instruction (R155). -/
def KOut.undefined (s : State) : KOut := ⟨s, [], {}, .fail Code.badCmd 0⟩
/-- A failing access (R155). -/
def KOut.busErr (s : State) (a : Nat) : KOut := ⟨s, [], {}, .fail Code.busErr a⟩
/-- A result written to one register. -/
def KOut.write (s : State) (v : Nat) (r : VReg × Ledger) : KOut := ⟨s, [(v, r.1)], r.2, .advance⟩

/-- Applies an instruction's outcome to its thread. -/
def KOut.finish (o : KOut) (x : KCtx) : State :=
  let k := o.st.core x.c
  let th := k.thread x.t
  let regs := o.regs.foldl (fun acc e => SMap.set 0 e.1 e.2 acc) th.regs
  let entry : Loc := match k.vecEntry th.serial with
    | some (_, e) => (match e.op with
      | .launch l _ _ => l
      | _ => th.pc)
    | none => th.pc
  let th1 : Thread := match o.act with
    | .advance => { th with regs, pc := th.pc.plus 8 }
    | .jump n => { th with regs, pc := entry.plus (8 * n) }
    | .barrier => { th with pc := th.pc.plus 8, st := .atBarrier }
    | .finish => { th with st := .ended }
    | .fail c d => { th with st := .failed c d }
  let k1 := (k.setThread x.t th1).addVecLedger th.serial o.led
  o.st.setCore x.c (match o.act with
    | .advance => k1
    | .jump _ => k1
    | _ => k1.settle th.serial)

/-- The opcodes of the kernel table (R222). -/
def kernelOps : List Nat :=
  [0x00, 0x01, 0x02, 0x03, 0x04, 0x05, 0x06, 0x07, 0x08, 0x09, 0x0A, 0x0B, 0x40, 0x41, 0x42, 0x43, 0x44,
   0x50, 0x51, 0x52, 0x58, 0x59, 0x60, 0x61, 0x68, 0x69, 0x6A, 0x7F, 0x80, 0x81, 0x90, 0xA0, 0xA1, 0xC0, 0xC1, 0xCE,
   0xCF]

/-- What one kernel instruction counts (R461). -/
def State.instrEvents (s : State) (c op : Nat) : State :=
  if op ≤ 0x0B then s.event c 0x0300 1
  else if 0x40 ≤ op ∧ op ≤ 0x44 then s.event c 0x0301 1
  else if op = 0x50 ∨ op = 0x51 then s.event c 0x0302 16
  else s

/-- One kernel instruction of thread `t` of core `l`: fetch, then `run` when the word's `OP` is `op`. An unreadable word
ends the thread with E_BUSERR, an undefined `OP` with E_BADCMD (R155, R193). A word of another opcode is another
command's. -/
def State.kernel (s : State) (l t op : Nat) (run : State → KCtx → KOut) : State :=
  match s.physOf l with
  | none => s
  | some c =>
    let th := (s.core c).thread t
    if th.st ≠ .running then s else
    let p := s.partOfPhys c
    let key := (((s.core c).vecEntry th.serial).map (fun e => e.2.key)).getD 0
    let f := s.icacheRead c p th.pc 8
    match f.2 with
    | .error e => (KOut.busErr f.1 e.2).finish ⟨c, p, t, KWord.ofNat 0, key⟩
    | .ok bs =>
      let w := KWord.ofNat (fromLe bs)
      let x : KCtx := ⟨c, p, t, w, key⟩
      if w.op = op then ((run f.1 x).finish x).instrEvents c op
      else if kernelOps.contains w.op then s
      else (KOut.undefined f.1).finish x

/-! ## Lane instructions -/

/-- A floating lane instruction with two or three operands (R147, R223). -/
def kLane (g : List FVal → FVal) (three : Bool) (s : State) (x : KCtx) : KOut :=
  match typeFloat x.w.type, laneMode x.w.rm with
  | some f, some mode =>
    let srcs := [x.reg s x.w.va, x.reg s x.w.vb] ++ (if three then [x.reg s x.w.vc] else [])
    .write s x.w.vd (laneOp f mode g srcs)
  | _, _ => .undefined s

/-- A lane comparison (R223). -/
def kCmp (g : FVal → FVal → Bool) (s : State) (x : KCtx) : KOut :=
  match typeFloat x.w.type, laneMode x.w.rm with
  | some f, some _ => .write s x.w.vd (laneCmp f g (x.reg s x.w.va) (x.reg s x.w.vb), {})
  | _, _ => .undefined s

/-- The first two values of an operand list under a binary function. -/
def bin (g : FVal → FVal → FVal) (xs : List FVal) : FVal := g (xs.getD 0 .nan) (xs.getD 1 .nan)

/-- `CVT` (R223). -/
def kCvt (s : State) (x : KCtx) : KOut :=
  match typeFloat x.w.type, typeFloat (bits x.w.imm 0 2), laneMode x.w.rm with
  | some f, some g, some mode =>
    .write s x.w.vd (laneCvt f g mode (bit x.w.imm 2) (x.reg s x.w.va) (x.reg s x.w.vd))
  | _, _, _ => .undefined s

/-- `SEL` (R223): the lane width is that of `TYPE`. -/
def kSel (s : State) (x : KCtx) : KOut :=
  match laneMode x.w.rm with
  | some _ => .write s x.w.vd (laneSel (typeWidth x.w.type) (x.reg s x.w.va) (x.reg s x.w.vb) (x.reg s x.w.vc), {})
  | none => .undefined s

/-- `MOV` (R223). -/
def kMov (s : State) (x : KCtx) : KOut :=
  match laneMode x.w.rm with
  | some _ => .write s x.w.vd (x.reg s x.w.va, {})
  | none => .undefined s

/-- `MOVI` (R223). -/
def kMovi (s : State) (x : KCtx) : KOut :=
  match typeFloat x.w.type, laneMode x.w.rm with
  | some f, some _ => .write s x.w.vd (VReg.ofLanes f.width (List.replicate (2048 / f.width) x.w.imm), {})
  | _, _ => .undefined s

/-- A transcendental instruction: `TYPE` FP32 only (R148, R223). -/
def kTrans (t : TFun) (s : State) (x : KCtx) : KOut :=
  if x.w.type = 0 then .write s x.w.vd (laneTrans t (x.reg s x.w.va)) else .undefined s

/-- A W128 lane instruction (R83, R223). -/
def kWide (g : List Cum → Cum × Ledger) (two : Bool) (s : State) (x : KCtx) : KOut :=
  if x.w.type = 3 then
    .write s x.w.vd (laneWide g (x.reg s x.w.va :: (if two then [x.reg s x.w.vb] else [])))
  else .undefined s

/-- The first two W128 operands under a binary function. -/
def wbin (g : Cum → Cum → Cum × Ledger) (xs : List Cum) : Cum × Ledger := g (xs.getD 0 .zero) (xs.getD 1 .zero)

/-- `WFINISH` (R223). -/
def kWfinish (s : State) (x : KCtx) : KOut :=
  let f := typeFloat (bits x.w.imm 8 2)
  match f, RMode.ofCode x.w.rm with
  | some f, some mode =>
    if x.w.type = 3 then
      .write s x.w.vd (wfinish x.w f mode x.key (x.reg s x.w.va) (x.reg s x.w.vb) (x.reg s x.w.vc) (x.reg s x.w.vd))
    else .undefined s
  | _, _ => .undefined s

/-- `WFINISHB` (R223). -/
def kWfinishb (s : State) (x : KCtx) : KOut :=
  match Fmt.ofCode (bits x.w.imm 8 8), RMode.ofCode x.w.rm with
  | some f, some mode =>
    if x.w.type = 3 ∧ f.isCB = true ∧ x.w.va % 2 = 0 then
      .write s x.w.vd (wfinishb x.w f mode x.key (x.reg s x.w.va) (x.reg s (x.w.va + 1)) (x.reg s x.w.vb)
        (x.reg s x.w.vc))
    else .undefined s
  | _, _ => .undefined s

/-! ## Memory instructions -/

/-- What a thread's address names (R223): a location plus an offset, an undefined form, or a bus error. -/
inductive KAddr where
  | at (l : Loc)
  | bad
  | unmapped (a : Nat)
  deriving DecidableEq, Repr

/-- The address in a register's bytes 0 to 7 plus a signed offset, for an access of `n` bytes (R180, R223). -/
def State.kaddr (s : State) (x : KCtx) (w : Nat) (off : Int) (n : Nat) : KAddr :=
  let sel := bits w 56 8
  if selRel sel ≠ 0 ∨ bits w 44 12 ≠ 0 then .bad else
  let inStore (c : Nat) : KAddr :=
    let o : Int := (bits w 0 21 : Int) + off
    if 0 ≤ o ∧ o + n ≤ (coreStoreBytes : Int) then .at (.cst c o.toNat) else .unmapped (unsigned 44 o)
  match selSpace sel with
  | 0 =>
    let a : Int := (bits w 0 44 : Int) + off
    if 0 ≤ a ∧ a + n ≤ (deviceSpace : Int) then .at (.dev a.toNat) else .unmapped (unsigned 44 a)
  | 1 => if bits w 21 23 = 0 then inStore x.c else .bad
  | 2 =>
    if bits w 21 11 ≠ 0 ∨ bits w 41 3 ≠ 0 then .bad
    else match (s.coresOf x.p).lookup (bits w 32 9) with
      | some c => inStore c
      | none => .unmapped (bits w 0 44)
  | _ => .bad

/-- `LOAD` and `STORE` of 256 B at a 64 B boundary (R223). -/
def kLoadStore (store : Bool) (s : State) (x : KCtx) : KOut :=
  match s.kaddr x ((x.reg s x.w.va).lane 64 0) (signed 32 x.w.imm) 256 with
  | .bad => .undefined s
  | .unmapped a => .busErr s a
  | .at l =>
    if l.num % 64 ≠ 0 then .undefined s
    else if store then
      let r := s.locWrite x.p l (x.reg s x.w.vd).toBytes
      match r.2 with
      | .ok _ => ⟨r.1, [], {}, .advance⟩
      | .error e => .busErr r.1 e.2
    else
      let r := s.locRead x.p l 256
      match r.2 with
      | .ok bs => ⟨r.1, [(x.w.vd, VReg.ofBytes bs)], {}, .advance⟩
      | .error e => .busErr r.1 e.2

/-- Element bytes of a gather or scatter (R223). -/
def gatherWidth (imm : Nat) : Option Nat := if bits imm 0 3 ≤ 4 then some (2 ^ bits imm 0 3) else none

/-- The active lanes of a gather or scatter (R157, R223). -/
def activeLanes (s : State) (x : KCtx) (w : Nat) : List Nat :=
  (List.range (min 64 (256 / w))).filter (fun i => !bit x.w.imm 3 || (x.reg s x.w.vc).lane 32 i != 0)

/-- The address of one lane's element. -/
def laneAddr (s : State) (x : KCtx) (w i : Nat) : KAddr :=
  s.kaddr x ((x.reg s x.w.vb).lane 64 0) (((x.reg s x.w.va).lane 32 i * w : Nat) : Int) w

/-- Counts the line requests of a gather or scatter: lanes in one 256 B line share a request (R157, R461). -/
def State.countLines (s : State) (x : KCtx) (w : Nat) : State :=
  let lines := (activeLanes s x w).filterMap (fun i => match laneAddr s x w i with
    | .at l => some (match l with
      | .dev a => (0, a / 256)
      | .cst c o => (c + 1, o / 256))
    | _ => none)
  s.event x.c 0x0303 lines.dedup.length

/-- `GATHER` (R157, R223). -/
def kGather (s : State) (x : KCtx) : KOut :=
  match gatherWidth x.w.imm with
  | none => .undefined s
  | some w =>
    let r := (activeLanes s x w).foldl (fun (acc : KOut × Bytes) i =>
      match acc.1.act with
      | .advance =>
        match laneAddr s x w i with
        | .bad => (.undefined acc.1.st, acc.2)
        | .unmapped a => (.busErr acc.1.st a, acc.2)
        | .at l =>
          let q := acc.1.st.locRead x.p l w
          match q.2 with
          | .ok bs => ({ acc.1 with st := q.1 }, patch acc.2 (i * w) bs)
          | .error e => (.busErr q.1 e.2, acc.2)
      | _ => acc) (⟨s.countLines x w, [], {}, .advance⟩, (x.reg s x.w.vd).toBytes)
    match r.1.act with
    | .advance => { r.1 with regs := [(x.w.vd, VReg.ofBytes r.2)] }
    | _ => r.1

/-- `SCATTER`, lanes in rising order so that the higher-numbered lane's value stays (R158, R223). -/
def kScatter (s : State) (x : KCtx) : KOut :=
  match gatherWidth x.w.imm with
  | none => .undefined s
  | some w =>
    let src := (x.reg s x.w.vd).toBytes
    (activeLanes s x w).foldl (fun (acc : KOut) i =>
      match acc.act with
      | .advance =>
        match laneAddr s x w i with
        | .bad => .undefined acc.st
        | .unmapped a => .busErr acc.st a
        | .at l =>
          let q := acc.st.locWrite x.p l ((src.drop (i * w)).take w)
          match q.2 with
          | .ok _ => { acc with st := q.1 }
          | .error e => .busErr q.1 e.2
      | _ => acc) ⟨s.countLines x w, [], {}, .advance⟩

/-- One atomic addition at a location (R158, R286); in a core store it acts on the store's bytes. -/
def State.locAtomic (s : State) (p : Nat) (l : Loc) (op : AtomicOp) : State × Except (Nat × Nat) Ledger :=
  match l with
  | .dev a =>
    let r := s.atomic p a op .clean
    (r.1, match r.2 with
      | .ok v => .ok v
      | .error c => .error (c, a))
  | .cst c o =>
    let v := atomicResult ((s.core c).store.readN o (atomicWidth op)) op
    let r := s.locWrite p (.cst c o) v.1
    (r.1, match r.2 with
      | .ok _ => .ok v.2
      | .error e => .error e)

/-- `SCATTER_ADD`: FP32 with w = 4 or W128 with w = 16 (R158, R223). -/
def kScatterAdd (s : State) (x : KCtx) : KOut :=
  match gatherWidth x.w.imm with
  | none => .undefined s
  | some w =>
    if !((x.w.type = 0 && w = 4) || (x.w.type = 3 && w = 16)) then .undefined s else
    (activeLanes s x w).foldl (fun (acc : KOut) i =>
      match acc.act with
      | .advance =>
        match laneAddr s x w i with
        | .bad => .undefined acc.st
        | .unmapped a => .busErr acc.st a
        | .at l =>
          let v := (x.reg s x.w.vd).lane (8 * w) i
          let op : AtomicOp := if w = 4 then .addF32 (BitVec.ofNat 32 v) else .addW128 (BitVec.ofNat 128 v)
          let q := acc.st.locAtomic x.p l op
          match q.2 with
          | .ok led => { acc with st := q.1, led := acc.led.add led }
          | .error e => .busErr q.1 e.2
      | _ => acc) ⟨s.countLines x w, [], {}, .advance⟩

/-! ## Packers -/

/-- The values of registers va to va + c in `TYPE`. -/
def regValues (s : State) (x : KCtx) (first count : Nat) (f : FloatFmt) : List FVal :=
  (List.range (count + 1)).flatMap (fun i => ((x.reg s (first + i)).lanes f.width).map f.decode)

/-- Reads and checks the block tensor header at a thread's address (R31, R155). -/
def State.kHeader (s : State) (x : KCtx) (w : Nat) : State × Except KAct (Loc × Tensor) :=
  match s.kaddr x w 0 64 with
  | .bad => (s, .error (.fail Code.badCmd 0))
  | .unmapped a => (s, .error (.fail Code.busErr a))
  | .at l =>
    let r := s.locRead x.p l 64
    match r.2 with
    | .error e => (r.1, .error (.fail Code.busErr e.2))
    | .ok bs =>
      match readHeader { phys := x.c, sv := [], pairs := [], cores := s.coresOf x.p } bs with
      | some t => (r.1, .ok (l, t))
      | none => (r.1, .error (.fail Code.badCmd 0))

/-- A segment of a line: the line, the first position in it, and how many positions it has (R223). -/
structure Seg where
  line  : Nat
  first : Nat
  count : Nat
  deriving DecidableEq, Repr

/-- The segment that `row` and `col` start, of at most `n` elements (R223). The line runs along the block axis: along
the stored row, or down the stored column when `BLOCK_AXIS` is 1 (log 8). -/
def segOf (t : Tensor) (row col n : Nat) : Seg :=
  if t.down && t.fmt.hasScale then ⟨col, row, min n (t.rows - row)⟩ else ⟨row, col, min n (t.cols - col)⟩

/-- The stored row and column of position `i` of a line. -/
def Tensor.coord (t : Tensor) (line i : Nat) : Nat × Nat := if t.down && t.fmt.hasScale then (i, line) else (line, i)

/-- Writes of packed elements of one line from position `first` on: whole packed rows along the row, single elements
merged into their bytes otherwise. `old` gives the bytes in place. -/
def Tensor.elemWrites (t : Tensor) (base : Loc) (line first : Nat) (es : List Nat) (old : Loc → Nat → Bytes) :
    List (Loc × Bytes) :=
  let w := t.fmt.width
  if w % 8 = 0 then
    es.zipIdx.map (fun e =>
      let rc := t.coord line (first + e.2)
      (base.plus (rc.1 * t.eStride + rc.2 * (w / 8)), toLe (w / 8) e.1))
  else
    es.zipIdx.map (fun e =>
      let rc := t.coord line (first + e.2)
      let b := rc.2 * w
      let l := base.plus (rc.1 * t.eStride + b / 8)
      let n := ceilDiv (b % 8 + w) 8
      let v := fromLe (old l n)
      let lo := v % 2 ^ (b % 8)
      let hi := v >>> (b % 8 + w)
      (l, toLe n (lo + (e.1 % 2 ^ w) * 2 ^ (b % 8) + hi * 2 ^ (b % 8 + w))))

/-- Bytes at a location, without any effect; an access that fails reads as zeros here and fails where it is made. -/
def State.peek (s : State) (p : Nat) (l : Loc) (n : Nat) : Bytes :=
  match (s.locRead p l n).2 with
  | .ok bs => bs
  | .error _ => List.replicate n 0

/-- Writes element bits one after another, each merged into the bytes that stand there at that moment. -/
def State.writeElems (s : State) (p : Nat) (t : Tensor) (base : Loc) (line first : Nat) (es : List Nat) :
    State × Except (Nat × Nat) Unit :=
  es.zipIdx.foldl (fun acc e =>
    match acc.2 with
    | .error x => (acc.1, .error x)
    | .ok _ => acc.1.locWrites p (t.elemWrites base line (first + e.2) [e.1] (fun l n => acc.1.peek p l n))) (s, .ok ())

/-- Writes the block offsets of a line from block `first` on, each into its nibble (R29). -/
def State.writeOffs (s : State) (p : Nat) (t : Tensor) (base : Loc) (line first : Nat) (os : List Nat) :
    State × Except (Nat × Nat) Unit :=
  os.zipIdx.foldl (fun acc e =>
    match acc.2 with
    | .error x => (acc.1, .error x)
    | .ok _ =>
      let i := first + e.2
      let l := base.plus (line * t.oStride + i / 2)
      let v := u8 (acc.1.peek p l 1) 0
      let nv := if i % 2 = 0 then v / 16 * 16 + e.1 % 16 else v % 16 + 16 * (e.1 % 16)
      acc.1.locWrite p l (toLe 1 nv)) (s, .ok ())

/-- Sets `SCALE_POW2` of a header (R31). -/
def State.writePow2 (s : State) (p : Nat) (hdr : Loc) (b : Bool) : State × Except (Nat × Nat) Unit :=
  let fl := u8 (s.peek p (hdr.plus 1) 1) 0
  s.locWrite p (hdr.plus 1) (toLe 1 (fl % 2 + 2 * b2n b))

/-- Chains two steps that can fail with an address. -/
def andThen (r : State × Except (Nat × Nat) Unit) (f : State → State × Except (Nat × Nat) Unit) :
    State × Except (Nat × Nat) Unit :=
  match r.2 with
  | .ok _ => f r.1
  | .error e => (r.1, .error e)

/-- The outcome of a chain as an instruction's outcome. -/
def KOut.ofChain (r : State × Except (Nat × Nat) Unit) (led : Ledger) : KOut :=
  match r.2 with
  | .ok _ => ⟨r.1, [], led, .advance⟩
  | .error e => .busErr r.1 e.2

/-- The six formats of a gradient tile (R125). -/
def gtFormats : List Fmt := [.cb8e4, .cb8e5, .cb6e3, .cb6e2, .cb4, .b16]

/-- The part of `PACK` that writes a gradient tile (R126, R128, R151): elements row-major from (row, column) on, the
offset of each rectangle chosen over the elements written to it, the tile scale beside them. The element format is a free
value (log 5). -/
def kPackTile (s : State) (x : KCtx) (mode : RMode) (vs : List FVal) : KOut :=
  let c := x.reg s x.w.vc
  let f := gtFormats.getD (Config.gradientFormat (BitVec.ofNat 64 x.w.raw) % 6) .cb8e4
  let first := 16 * c.lane 32 0 + c.lane 32 1
  let xs := vs.take (2048 - first)
  let scale := c.lane 32 2
  let q (i : Nat) : Nat := srBits x.key (bits x.w.imm 16 16) (first + i)
  let rect (i : Nat) : Nat := (first + i) / 512
  let blks := (List.range 4).map (fun r =>
    let part := xs.zipIdx.filter (fun e => rect e.2 == r)
    (r, part.map (·.2), convBlock f mode scale (fun j => q ((part.map (·.2)).getD j 0)) (part.map (·.1))))
    |>.filter (fun b => b.2.1 != [])
  let elems := blks.flatMap (fun b => b.2.1.zip b.2.2.1)
  let led := Ledger.sum ((if (fp32Val scale).isSpecial then Ledger.oneSpecial else {}) :: blks.map (·.2.2.2.2))
  let putOffs (o : Nat) : Nat :=
    blks.foldl (fun a b => a - bits a (4 * b.1) 4 * 16 ^ b.1 + (b.2.2.2.1 % 16) * 16 ^ b.1) o
  let merge (m : Mem) (base : Nat) : Mem :=
    elems.foldl (fun acc e =>
      let b := f.width * (first + e.1)
      let a := base + b / 8
      let n := ceilDiv (b % 8 + f.width) 8
      let v := fromLe (acc.readN a n)
      acc.writeN a (toLe n (v - bits v (b % 8) f.width * 2 ^ (b % 8) + (e.2 % 2 ^ f.width) * 2 ^ (b % 8)))) m
  if bit x.w.imm 4 then
    let h := if f = .b16 then false else bit x.w.imm 5
    let k := s.core x.c
    let old := k.sides.getD (b2n h) ⟨0, 0⟩
    let sides := setAt k.sides (b2n h) ⟨putOffs old.offs, scale⟩
    ⟨s.setCore x.c { k with gtb := merge k.gtb (2048 * b2n h), sides := sides }, [], led, .advance⟩
  else
    let n := gtElemBytes f + 64
    match s.kaddr x ((x.reg s x.w.vb).lane 64 0) 0 n with
    | .bad => .undefined s
    | .unmapped a => .busErr s a
    | .at l =>
      let r := s.locRead x.p l n
      match r.2 with
      | .error e => .busErr r.1 e.2
      | .ok bs =>
        let e := gtElemBytes f
        let body := (merge (Mem.writeN [] 0 (bs.take e)) 0).readN 0 e
        KOut.ofChain (r.1.locWrite x.p l (body ++ toLe 4 scale ++ toLe 2 (putOffs (u16 bs (e + 4))) ++ toLe 1 f.code
          ++ List.replicate 57 0)) led

/-- The part of `PACK` that writes a tensor segment (R36, R42, R43, R151, R495). -/
def kPackSeg (s : State) (x : KCtx) (mode : RMode) (vs : List FVal) : KOut :=
  let c := x.reg s x.w.vc
  let h := s.kHeader x ((x.reg s x.w.vb).lane 64 0)
  match h.2 with
  | .error a => ⟨h.1, [], {}, a⟩
  | .ok (hl, t) =>
    let sg := segOf t (c.lane 32 0) (c.lane 32 1) vs.length
    let xs := vs.take sg.count
    let q (i : Nat) : Nat :=
      let rc := t.coord sg.line (sg.first + i)
      srBits x.key (bits x.w.imm 16 16) (rc.1 * t.cols + rc.2)
    let compute := bit x.w.imm 2
    match t.elem, t.fmt.float with
    | some el, some ff =>
      if t.fmt.isFloat then
        let rs := xs.zipIdx.map (fun e => ff.write mode false (q e.2) e.1)
        KOut.ofChain (h.1.writeElems x.p t el sg.line sg.first (rs.map (·.1))) (Ledger.sum (rs.map (·.2)))
      else if t.fmt.isCB then packLine h.1 x t el sg xs q mode compute hl
      else .undefined h.1
    | some el, none =>
      if t.fmt = .b16 then packLine h.1 x t el sg xs q mode compute hl else .undefined h.1
    | none, _ => .undefined h.1
where
  /-- Converts the segment as a line and writes its elements with padding, offsets, scale and header flag. -/
  packLine (s : State) (x : KCtx) (t : Tensor) (el : Loc) (sg : Seg) (xs : List FVal) (q : Nat → Nat) (mode : RMode)
      (compute : Bool) (hl : Loc) : KOut :=
    match t.offs, t.scale with
    | some ol, some sl =>
      if compute && decide (256 < t.lineLen) then .undefined s else
      let sc := s.locRead x.p (sl.plus (4 * sg.line)) 4
      match sc.2 with
      | .error e => .busErr sc.1 e.2
      | .ok sb =>
        let ln := convLine t.fmt mode (if compute then none else some (fromLe sb)) q xs
        let pad := if sg.first + sg.count = t.lineLen then alignUp t.lineLen 32 - t.lineLen else 0
        let r := andThen (sc.1.writeElems x.p t el sg.line sg.first (ln.elems ++ List.replicate pad 0)) (fun s1 =>
          andThen (s1.writeOffs x.p t ol sg.line (sg.first / 32) ln.offs) (fun s2 =>
            andThen (s2.locWrite x.p (sl.plus (4 * sg.line)) (toLe 4 ln.scale)) (fun s3 =>
              s3.writePow2 x.p hl (fp32Val ln.scale).isPow2)))
        KOut.ofChain r ln.led
    | _, _ => .undefined s

/-- `PACK` (R151, R223). -/
def kPack (s : State) (x : KCtx) : KOut :=
  match typeFloat x.w.type, RMode.ofCode x.w.rm with
  | some f, some mode =>
    if 31 < x.w.va + bits x.w.imm 0 2 then .undefined s else
    let vs := regValues s x x.w.va (bits x.w.imm 0 2) f
    if bit x.w.imm 3 then kPackTile s x mode vs else kPackSeg s x mode vs
  | _, _ => .undefined s

/-- One element of a tensor with all that decodes it: element bits, offset or MX scale code, scale bits, zero point. -/
def State.readEntry (s : State) (p : Nat) (t : Tensor) (line i : Nat) : State × Except (Nat × Nat) (Nat × Nat × Nat × Nat) :=
  let rc := t.coord line i
  let w := t.fmt.width
  let b := rc.2 * w
  let n := ceilDiv (b % 8 + w) 8
  let stride := t.eStride
  let get (l : Option Loc) (off len : Nat) : List (Loc × Nat) := (l.map (fun x => (x.plus off, len))).toList
  let want := get t.elem (rc.1 * stride + b / 8) n
    ++ (if t.fmt.hasOffs then get t.offs (line * t.oStride + i / 64) 1 else [])
    ++ (if t.fmt.isMX then get t.scale (line * blocksIn t.lineLen + i / 32) 1
        else if t.fmt.hasScale then get t.scale (4 * line) 4 else [])
    ++ (if t.fmt.isInt then get t.zp (2 * line) 2 else [])
  let r := s.locReads p want
  (r.1, match r.2 with
    | .error e => .error e
    | .ok bs =>
      let el := bits (fromLe (bs.take n)) (b % 8) w
      let rest := bs.drop n
      if t.fmt.hasOffs then .ok (el, bits (u8 rest 0) (4 * (i / 32 % 2)) 4, fieldAt rest 1 4, 0)
      else if t.fmt.isMX then .ok (el, u8 rest 0, 0, 0)
      else if t.fmt.isInt then .ok (el, 0, fieldAt rest 0 4, fieldAt rest 4 2)
      else .ok (el, 0, 0, 0))

/-- `UNPACK` (R50, R151, R164, R223): lanes past the end of the line keep their values. -/
def kUnpack (s : State) (x : KCtx) : KOut :=
  match typeFloat x.w.type, laneMode x.w.rm with
  | some f, some mode =>
    let n := bits x.w.imm 0 2
    if 31 < x.w.vd + n then .undefined s else
    let c := x.reg s x.w.vc
    let h := s.kHeader x ((x.reg s x.w.vb).lane 64 0)
    match h.2 with
    | .error a => ⟨h.1, [], {}, a⟩
    | .ok (_, t) =>
      let lanes := 2048 / f.width
      let sg := segOf t (c.lane 32 0) (c.lane 32 1) ((n + 1) * lanes)
      let r := (List.range sg.count).foldl (fun (acc : State × Except KAct (List Nat × Ledger)) i =>
        match acc.2 with
        | .error e => (acc.1, .error e)
        | .ok (vs, led) =>
          let q := acc.1.readEntry x.p t sg.line (sg.first + i)
          match q.2 with
          | .error e => (q.1, .error (.fail Code.busErr e.2))
          | .ok (el, off, sc, zp) =>
            if t.fmt.isInt && !zeroOk t.fmt zp then (q.1, .error (.fail Code.badCmd 0)) else
            let v := entryVal t.fmt el off sc zp
            let w := f.write mode false 0 v
            let led1 := if v.isSpecial then Ledger.oneSpecial else w.2
            (q.1, .ok (vs ++ [w.1], led.add led1))) (h.1, .ok ([], {}))
      match r.2 with
      | .error a => ⟨r.1, [], {}, a⟩
      | .ok (vs, led) =>
        ⟨r.1, (List.range (n + 1)).map (fun i =>
          (x.w.vd + i, (x.reg s (x.w.vd + i)).putLanes f.width 0 ((vs.drop (lanes * i)).take lanes))), led, .advance⟩
  | _, _ => .undefined s
where
  /-- A zero point is in the code range or marks a constant channel (R38). -/
  zeroOk (f : Fmt) (z : Nat) : Bool := z == 0xFFFF || decide (z ≤ qTop f)

/-- `RANGE` (R161, R223). -/
def kRange (s : State) (x : KCtx) : KOut :=
  match typeFloat x.w.type with
  | some f =>
    let n := bits x.w.imm 0 2
    if 31 < x.w.va + n then .undefined s else
    let vs := regValues s x x.w.va n f
    let old := x.reg s x.w.vd
    let all := if bit x.w.imm 2 then vs else fp32Val (old.lane 32 0) :: fp32Val (old.lane 32 1) :: vs
    let r := rangeOf all
    .write s x.w.vd (old.putLanes 32 0 [toFp32 r.1, toFp32 r.2], { specialIn := vs.countP FVal.isSpecial })
  | none => .undefined s

/-- `MV_BCAST` and `MV_REDUCE`: the spec names the path (R150) and gives the instruction no operands, so what it writes
to VD is a free value (log 5). -/
def kMv (s : State) (x : KCtx) : KOut :=
  let (r, s1) := s.fresh
  .write s1 x.w.vd (Config.mvResult (BitVec.ofNat 64 x.w.raw) r, {})

/-- `BR` and `BRZ` (R223). -/
def kBranch (cond : Bool) (s : State) (x : KCtx) : KOut :=
  if !cond || (x.reg s x.w.va).lane (typeWidth x.w.type) 0 == 0 then ⟨s, [], {}, .jump x.w.imm⟩
  else ⟨s, [], {}, .advance⟩

end Sys2Proof.Machine
end

