-- ==== Sys2Proof/Machine/Streams.lean ====
section
/-! DEFINITION. Streams: completion records (R214), halting and stream results (R215, R216), the ledger table (R59 to
R61), token counters (R198, R201). -/

namespace Sys2Proof.Machine

/-- The 64 bytes of a completion record or stream result (R214). -/
def complBytes (status tag opid engine flags errCount index : Nat) (led : Ledger) (detail ft : Nat) : Bytes :=
  toLe 2 status ++ toLe 2 tag ++ toLe 4 opid ++ toLe 1 engine ++ toLe 1 flags ++ toLe 2 errCount ++ toLe 4 index
    ++ led.toBytes ++ toLe 8 detail ++ toLe 8 ft

/-- The running job of a partition, if one runs. -/
def State.job (s : State) (p : Nat) : Option Job := (s.part p).job

/-- Changes the running job of a partition. -/
def State.modJob (s : State) (p : Nat) (f : Job → Job) : State :=
  s.setPart p { s.part p with job := (s.part p).job.map f }

/-- `CPL_FLAGS` of a completion of partition `p` (R214, R220). -/
def State.cplFlags (s : State) (p shift : Nat) : Nat :=
  shift % 4 + (match s.job p with
    | some j => if j.forecast then 0 else 4
    | none => 0)

/-- Writes a 64 B record of the device to memory; a write that fails is dropped and reported by one E_BUSERR event whose
detail is the record with its `DETAIL` replaced by the failing address (R214). -/
def State.putRecord (s : State) (p addr : Nat) (bs : Bytes) : State :=
  let r := s.devWrite p addr bs false
  match r.2 with
  | .ok _ => r.1
  | .error e => r.1.postEvent (.vf p) Code.busErr (patch bs 48 (toLe 8 e.2))

/-- Writes a completion record to its slot, when the job has a completion area (R214). -/
def State.putCompletion (s : State) (p tag : Nat) (bs : Bytes) : State :=
  match s.job p with
  | some j => if j.cplSlots = 0 then s else s.putRecord p (j.cplBase + 64 * (tag % j.cplSlots)) bs
  | none => s

/-- The stream of a core has written its result: nothing of it is queued any more (R215). -/
def Core.drained (k : Core) : Bool := k.queues.all (· == [])

/-- Writes the stream result of a failed stream once everything that had started has completed (R215); the module keeps
it for the host completion too (R214). -/
def State.settleStream (s : State) (c : Nat) : State :=
  let k := s.core c
  let p := s.partOfPhys c
  match k.seq.failure with
  | none => s
  | some f =>
    if !(k.seq.running && k.drained) then s else
    let bs := complBytes f.status f.tag f.opid f.engine (s.cplFlags p 0) (min 0xFFFF k.seq.errCount) f.index {} f.detail
      f.ftime
    let s1 := s.setCore c { k with seq := { k.seq with running := false, halted := true, error := f.status } }
    match s1.job p with
    | some j =>
      (s1.modJob p (fun j => { j with results := SMap.set [] k.seq.dirIndex bs j.results })).putRecord p
        (j.resultBase + 64 * k.seq.dirIndex) bs
    | none => s1

/-- The failure that a queued record reports. -/
def State.failureOf (s : State) (e : QEntry) (status detail : Nat) : Failure :=
  { status, engine := e.engine, tag := e.tag, opid := e.opid, index := e.index, detail, ftime := s.ft }

/-- The failure of a stream that no record of its own caused: `STATUS`, `DETAIL` and `FTIME` are what the rules give, and which
record the result names is free (R201, R215). DESIGN CHOICE (log 29). -/
def State.blankFailure (s : State) (status : Nat) : State × Failure :=
  let r := s.fresh
  let q := r.2.fresh
  let w := (Config.freeValue r.1).toNat
  (q.2, { status, engine := bits w 48 8, tag := bits w 0 16, opid := bits w 16 32,
          index := bits (Config.freeValue q.1).toNat 0 32, detail := 0, ftime := s.ft })

/-- One stream halts (R213, R215): it dispatches nothing further, its records that have not started are discarded, the
first failure is kept and later ones are counted, and the barrier logic of its partition is marked failed. -/
def State.haltOne (s : State) (c : Nat) (f : Failure) : State :=
  let k := s.core c
  if !k.seq.running then s else
  let seq := match k.seq.failure with
    | none => { k.seq with failure := some f, ended := true, halted := true, arrived := none }
    | some _ => { k.seq with errCount := k.seq.errCount + 1 }
  let qs := k.queues.map (fun q => q.filter (fun e => e.phase != .waiting && (match e.op with
    | .barrier _ _ => false
    | _ => true)))
  ((s.setCore c { k with seq := seq, queues := qs }).modJob (s.partOfPhys c)
    (fun j => { j with failed := true })).settleStream c

/-- The physical cores of partition `p` that run a stream. -/
def State.streamCores (s : State) (p : Nat) : List Nat :=
  ((s.coresOf p).map (·.2)).filter (fun c => (s.core c).seq.running)

/-- A record fails before its engine has finished it: its completion record is written, and its stream halts (R202, R213 to
R215). -/
def State.failOne (s : State) (c : Nat) (e : QEntry) (status detail : Nat) : State :=
  let p := s.partOfPhys c
  let s1 := s.putCompletion p e.tag (complBytes status e.tag e.opid e.engine (s.cplFlags p 0) 0 e.index {} detail s.ft)
  let s2 := s1.traceDone c e.engine e.opid e.tag e.channel status {} 0
  (s2.haltOne c (s.failureOf e status detail)).recordDone c e.engine e.opid e.tag

/-- Once the barrier logic of a partition is marked failed, every core that waits at a barrier halts with E_BARRIER_ABORT
(R213). -/
def State.abortWaiting (s : State) (p : Nat) : State :=
  (s.streamCores p).foldl (fun acc c =>
    let k := acc.core c
    match k.seq.arrived, k.queue 4 with
    | some _, e :: _ => acc.failOne c e Code.barAbort 0
    | _, _ => acc) s

/-- A stream halts, and the cores of its partition that wait at a barrier with it (R213, R215). -/
def State.haltStream (s : State) (c : Nat) (f : Failure) : State :=
  if (s.core c).seq.running then (s.haltOne c f).abortWaiting (s.partOfPhys c) else s

/-- A record that fails halts its stream, and the cores that wait at a barrier with it (R202, R213). -/
def State.failStream (s : State) (c : Nat) (e : QEntry) (status detail : Nat) : State :=
  if (s.core c).seq.running then (s.failOne c e status detail).abortWaiting (s.partOfPhys c) else s

/-- Adds to a token counter; a counter that would pass 65,535 holds it and halts its owner's stream (R198, R201). -/
def State.addToken (s : State) (c ctr inc : Nat) : State :=
  let k := s.core c
  let v := k.seq.tokens.getD ctr 0 + inc
  let s1 := s.setCore c { k with seq := { k.seq with tokens := setAt k.seq.tokens ctr (min 65535 v) } }
  if 65535 < v then
    let r := s1.blankFailure Code.tokenOverflow
    r.1.haltStream c r.2
  else s1

/-- The index of an operator's entry in the ledger table (R59). -/
def ledgerIndex (layers ops opid : Nat) : Nat :=
  let l := opid / 65536
  let o := opid % 65536
  if l < layers ∧ o < ops then l * ops + o else layers * ops

/-- Adds a record's ledger to its table entry, counter by counter, as atomic additions at Nimbus (R60, R61); no table is
kept when its base is 0. -/
def State.addLedger (s : State) (p base layers ops opid : Nat) (led : Ledger) : State :=
  if base = 0 then s else
  let a := base + 128 * ledgerIndex layers ops opid
  (1 :: led.counters).zipIdx.foldl (fun acc e =>
    (acc.atomic p (a + 8 * e.2) (.add64 (BitVec.ofNat 64 e.1)) .clean).1) s

end Sys2Proof.Machine
end

