-- ==== Sys2Proof/Machine/Arrays.lean ====
section
/-! DEFINITION. The array commands: PASS, FRONT, PRELOAD_STAGING, SLOTDRAIN, CIRRUS and CIRRUS_REPEAT (chapters 03 to
05). -/

namespace Sys2Proof.Machine

/-! ## PASS -/

/-- A cumulus pass on array `a` of core `c`: products into the named bank, then, with `FOLD`, the bank into its slot
(R64, R101, R105, R132). -/
def State.passWork (s : State) (c a : Nat) (om on : OpRef) (k rows cols : Nat) (bank fold : Bool) (slot : Nat) :
    State × Outcome :=
  let cr := s.core c
  let x := cr.arr a
  let ms := om.values cr.source true rows k
  let ns := on.values cr.source false cols k
  let t := passTile (x.bank bank).tile ms ns
  let led := (specialCount ms).add (specialCount ns)
  let y := if fold then
      (x.setBank bank { x.bank bank with tile := [] }).setSlot slot (foldTile (x.slot slot) t)
    else x.setBank bank { x.bank bank with tile := t }
  (s.setCore c (cr.setArr a y), .good led)

/-- Folding passes whose folds are still in progress on a queue (R134). -/
def foldsActive (es : List QEntry) : Nat :=
  es.countP (fun e => match e.op, e.phase with
    | .pass _ _ _ _ _ _ fold _, .done _ _ _ _ => fold
    | _, _ => false)

/-- The rank of a pass: products per cell and cycle (R97, R101). -/
def passRank (om on : OpRef) : Nat :=
  let narrow (o : OpRef) : Bool := !o.gtb && !o.down && o.fmt.isCB && decide (o.fmt.width < 8)
  if om.fmt.isInt then (if om.fmt == .int4 then 16 else 8)
  else if om.fmt == .b16 || on.fmt == .b16 then 1
  else if om.fmt.width == 8 || on.fmt.width == 8 || narrow om || narrow on then 4 else 8

/-- Rank updates of a pass of `k` products (R106). -/
def passUpdates (om on : OpRef) (k : Nat) : Nat := ceilDiv k (passRank om on)

/-- What a pass counts: its updates and useful products (R461). -/
def State.passEvents (s : State) (c a : Nat) (om on : OpRef) (k rows cols : Nat) : State :=
  (s.event c (0x0200 + a) (passUpdates om on k)).event c 0x0205 (rows * cols * k)

/-- PASS: the array runs the pass at the head of its queue. A ninth fold in progress waits (R134). -/
def State.doPass (s : State) (l a : Nat) : State :=
  match s.ready l a with
  | some (c, i, e) =>
    match e.op with
    | .pass om on k rows cols bank fold slot =>
      if fold && decide (8 ≤ foldsActive ((s.core c).queue a)) then s
      else s.issuing c (fun s0 =>
        ((s0.passEvents c a om on k rows cols).event c 0x0203 (b2n fold)).runEntry c a i e
          (fun s1 => s1.passWork c a om on k rows cols bank fold slot))
    | _ => s
  | none => s

/-! ## Drains -/

/-- The FP32 values a drain reads from a scale source for `n` rows or columns: first and second words, and how many
were read (R186). -/
def State.readScales (s : State) (p : Nat) (src : ScaleSrc) (n : Nat) (pairs : Bool) :
    State × Except (Nat × Nat) (List Nat × List Nat × Nat) :=
  match src with
  | .scalar lo hi => (s, .ok (List.replicate n lo, List.replicate n hi, 1))
  | .plane l =>
    let w := if pairs then 8 else 4
    let r := s.locRead p l (w * n)
    match r.2 with
    | .ok bs => (r.1, .ok ((List.range n).map (fun i => fieldAt bs (w * i) 4),
        (List.range n).map (fun i => if pairs then fieldAt bs (w * i + 4) 4 else 0), n))
    | .error x => (r.1, .error x)

/-- The bias vector of a drain (R69). -/
def State.readBias (s : State) (p : Nat) (b : Option Loc) (n : Nat) : State × Except (Nat × Nat) (List Nat) :=
  match b with
  | none => (s, .ok [])
  | some l =>
    let r := s.locRead p l (4 * n)
    match r.2 with
    | .ok bs => (r.1, .ok ((List.range n).map (fun i => fieldAt bs (4 * i) 4)))
    | .error x => (r.1, .error x)

/-- What a drain has read: its inputs and the scales' and biases' specials (R74). -/
def State.readDrainIn (s : State) (p : Nat) (d : Drain) (bias : Option Loc) (axis : Bool) (rows cols : Nat) :
    State × Except (Nat × Nat) (DrainIn × Ledger) :=
  if d.out = .w128 then (s, .ok (⟨[], [], [], [], false⟩, {})) else
  let a := s.readScales p d.scaleA rows false
  match a.2 with
  | .error x => (a.1, .error x)
  | .ok (sa, _, ka) =>
    let b := a.1.readScales p d.scaleB cols d.out.isCB
    match b.2 with
    | .error x => (b.1, .error x)
    | .ok (sb, sout, kb) =>
      let g := b.1.readBias p bias (if axis then cols else rows)
      match g.2 with
      | .error x => (g.1, .error x)
      | .ok bv =>
        let x : DrainIn := { sa, sb, sout, bias := bv, axis }
        (g.1, .ok (x, x.specials ka kb))

/-- What a drain reads of its destination: rows under `DRAIN_ADD`, or a core-store CB tile's rows (R77, R81). -/
def State.readOld (s : State) (p : Nat) (d : Drain) (rows cols : Nat) : State × Except (Nat × Nat) (List Bytes) :=
  let want : List (Loc × Nat) :=
    if d.add then (List.range rows).map (fun m => (drainRowLoc d m, 4 * cols))
    else match d.out.isCB, d.dest with
      | true, .cst c o => (List.range rows).map (fun m => (.cst c (o + tileElemBit d.out 16 m 0 / 8), 2 * d.out.width))
      | _, _ => []
  want.foldl (fun acc e =>
    match acc.2 with
    | .error x => (acc.1, .error x)
    | .ok bss =>
      let r := acc.1.locRead p e.1 e.2
      match r.2 with
      | .ok b => (r.1, .ok (bss ++ [b]))
      | .error x => (r.1, .error x)) (s, .ok [])

/-- Writes the outcome of a drain to its destination (R115, R186, R497). -/
def State.putDrain (s : State) (p : Nat) (d : Drain) (old : List Bytes) (o : DrainOut) : State × Except (Nat × Nat) Unit :=
  if d.out.isCB then
    match d.dest with
    | .dev a => s.locWrites p (cbImageWrites d a o)
    | .cst c off =>
      s.locWrites p (cbTileWrites d c off (fun m => unpackElems d.out 16 (old.getD m [])) o)
  else s.locWrites p (drainWrites d o)

/-- A whole drain: reads scales, bias and old values, computes with `compute`, writes (R75 to R81). A failing access
completes the record with E_BUSERR and its address (R261). -/
def State.drainWork (s : State) (p : Nat) (d : Drain) (bias : Option Loc) (axis : Bool) (rows cols : Nat)
    (compute : DrainIn → (Nat → Nat → Nat) → DrainOut) : State × Outcome :=
  let i := s.readDrainIn p d bias axis rows cols
  match i.2 with
  | .error x => (i.1, .bad Code.busErr x.2)
  | .ok (x, led) =>
    let o := i.1.readOld p d rows cols
    match o.2 with
    | .error y => (o.1, .bad Code.busErr y.2)
    | .ok old =>
      let out := compute x (fun m n => fieldAt (old.getD m []) (4 * n) 4)
      let w := o.1.putDrain p d old out
      match w.2 with
      | .error y => (w.1, .bad Code.busErr y.2)
      | .ok _ => (w.1, .good (led.add out.led))

/-! ## FRONT -/

/-- A bank whose contents the spec leaves undefined: every cell a free value (R67, log 5). -/
def freeTile (r : Nat) : Tile :=
  Tile.make (fun m n =>
    let w := Config.freeValue (r + 16 * m + n)
    ⟨(Config.freeValue (r + 2048 + 16 * m + n)).setWidth 120 ++ w |>.setWidth 120,
     if w.getLsbD 0 then (if w.getLsbD 1 then .nan else .pInf) else (if w.getLsbD 1 then .nInf else .none)⟩)

/-- What the preload of a front leaves in the bank, whether it failed, and what it counts (R67, R68). -/
def preloadBank (pre : Nat) (staged : Option Tile) (bias : Option Loc) (axis : Bool) (b : Bank) (r : Nat) :
    Bank × Bool :=
  if pre = 0 then (⟨[], none⟩, true)
  else if pre = 1 then (⟨[], bias.map (fun l => ⟨l, axis⟩)⟩, true)
  else if pre = 2 then
    let t := staged.getD []
    if t.any Cum.oversized then (⟨freeTile r, none⟩, false) else (⟨t, none⟩, true)
  else (b, true)

/-- A front acts on the whole array: it reads the named bank for the drain, writes the preload, and exchanges the bank
names (R111, R112). -/
def State.frontWork (s : State) (c a : Nat) (e : QEntry) (d : Option Drain) (bank swap : Bool)
    (pre rows cols tileNo : Nat) (addr : Option Loc) (axis : Bool) : State × Outcome :=
  let p := s.partOfPhys c
  let cr := s.core c
  let x := cr.arr a
  let b := x.bank bank
  let nb := preloadBank pre x.staged addr axis b s.freeCtr
  let y := { (x.setBank bank nb.1) with staged := none, map := x.map ^^ swap }
  let s0 := if nb.2 then s else { s with freeCtr := s.freeCtr + 4096 }
  let s1 := s0.setCore c (cr.setArr a y)
  let r := match d with
    | none => (s1, Outcome.good {})
    | some dr =>
      s1.drainWork p dr (b.bias.map (·.loc)) ((b.bias.map (·.axis)).getD false) rows cols
        (fun di old => drainTile dr di rows cols e.key tileNo b.tile old)
  let led := if pre = 2 then r.2.led.add e.led else r.2.led
  if r.2.status ≠ Code.ok then r
  else if nb.2 then (r.1, .good led) else (r.1, ⟨Code.kLimit, led, 0, 0⟩)

/-- Drains of a queue that have issued and not completed: they hold the drain buffer's entries (R114). -/
def drainsActive (es : List QEntry) : Nat :=
  es.countP (fun e => match e.op, e.phase with
    | .front (some _) _ _ _ _ _ _ _ _, .done _ _ _ _ => true
    | .slotdrain _ _ _ _ _ _, .done _ _ _ _ => true
    | _, _ => false)

/-- FRONT: issues when a drain finds a free drain-buffer entry and a W128 preload is staged (R109, R114, R116). -/
def State.doFront (s : State) (l a : Nat) : State :=
  match s.ready l a with
  | some (c, i, e) =>
    match e.op with
    | .front d bank swap pre rows cols tileNo addr axis =>
      if (d.isSome && decide (2 ≤ drainsActive ((s.core c).queue a)))
          || (pre == 2 && ((s.core c).arr a).staged.isNone) then s
      else s.issuing c (fun s0 => (s0.event c 0x0202 1).runEntry c a i e
        (fun s1 => s1.frontWork c a e d bank swap pre rows cols tileNo addr axis))
    | _ => s
  | none => s

/-- PRELOAD_STAGING: the front at the head of the array's queue reads its W128 tile into the free staging buffer; an
error response completes the front with E_BUSERR and empties the buffer (R116). What the tile's malformed values count
stays with the record (R68). -/
def State.doStaging (s : State) (l a : Nat) : State :=
  match s.ready l a with
  | some (c, i, e) =>
    match e.op with
    | .front _ _ _ 2 _ _ _ (some addr) _ =>
      if ((s.core c).arr a).staged.isSome then s else
      let r := s.locRead (s.partOfPhys c) addr 32768
      match r.2 with
      | .ok bs =>
        let t := tileOfW128 bs
        let cr := r.1.core c
        r.1.setCore c ((cr.setArr a { cr.arr a with staged := some t.1 }).modEntry a i
          (fun z => { z with led := t.2 }))
      | .error x => r.1.startEntry c a i e (Outcome.bad Code.busErr x.2).phase
    | _ => s
  | none => s

/-! ## SLOTDRAIN -/

/-- A slot drain writes one tile and leaves the slot empty (R136). -/
def State.slotWork (s : State) (c a : Nat) (e : QEntry) (d : Drain) (slot rows cols tileNo : Nat) (bias : Option Loc) :
    State × Outcome :=
  let x := (s.core c).arr a
  let t := x.slot slot
  let s1 := s.setCore c ((s.core c).setArr a (x.setSlot slot []))
  s1.drainWork (s.partOfPhys c) d bias d.biasAxis rows cols
    (fun di old => drainTile d di rows cols e.key tileNo t old)

/-- SLOTDRAIN: takes a drain-buffer entry (R114, R136). -/
def State.doSlotDrain (s : State) (l a : Nat) : State :=
  match s.ready l a with
  | some (c, i, e) =>
    match e.op with
    | .slotdrain d slot rows cols tileNo bias =>
      if 2 ≤ drainsActive ((s.core c).queue a) then s
      else s.runEntry c a i e (fun s1 => s1.slotWork c a e d slot rows cols tileNo bias)
    | _ => s
  | none => s

/-! ## CIRRUS -/

/-- The outlier list of a cirrus record, valid by R165, as its channel indices; an invalid list is E_BADCMD. -/
def readOutlierList (bs : Bytes) (channels : Nat) : Option (List Nat) :=
  let n := u16 bs 0
  let idx := (List.range 64).map (fun i => u16 bs (8 + 2 * i))
  let used := idx.take n
  if n ≤ 64 ∧ zeroAt bs 2 6 = true ∧ (used.zip used.tail).all (fun e => decide (e.1 < e.2)) = true
      ∧ used.all (fun i => decide (i < channels)) = true ∧ (idx.drop n).all (· == 0xFFFF) = true
  then some used else none

/-- What array 1 contributes to a cirrus record with outliers (R168): the exact scaled sum per cell, and what the
packer's conversions count. -/
structure OutlierIn where
  sum   : List (List FVal)
  count : Nat
  led   : Ledger
  deriving DecidableEq, Repr

/-- Reads and computes the outlier sum of a cirrus record (R167, R168). The outlier plane's line of tile row m is
`SA0` + m. -/
def State.outlierWork (s : State) (p c : Nat) (e : QEntry) (om : OpRef) (d : Drain) (rows cols : Nat)
    (ol : Option Outlier) : State × Except Outcome OutlierIn :=
  match ol with
  | none => (s, .ok ⟨[], 0, {}⟩)
  | some o =>
    let r := s.locRead p o.list 136
    match r.2 with
    | .error x => (r.1, .error (.bad Code.busErr x.2))
    | .ok bs =>
      match readOutlierList bs om.blockLen with
      | none => (r.1, .error (.bad Code.badCmd 0))
      | some idx =>
        let n := idx.length
        let lineB := alignUp (2 * n) 64
        if !o.nside.valid false cols n then (r.1, .error (.bad Code.badCmd 0)) else
        let g := r.1.locReads p ((List.range rows).map (fun m => (o.plane.plus ((om.sa0 + m) * lineB), 2 * n)))
        match g.2 with
        | .error x => (g.1, .error (.bad Code.busErr x.2))
        | .ok pb =>
          let src := (g.1.core c).source
          let nv := o.nside.values src false cols n
          let sb := (List.range cols).map (fun j =>
            fromLe (src.store.readN (o.nside.tile + o.nside.layout.scaleAt + 4 * (o.nside.sa0 + j)) 4))
          let lines := (List.range rows).map (fun m =>
            let vs := (List.range n).map (fun j => FloatFmt.bf16.decode (fieldAt pb (2 * n * m + 2 * j) 2))
            (blocksOf vs).zipIdx.map (fun b =>
              convLine .cb8e4 d.mode none (fun q => srBits e.key d.site (n * m + 32 * b.2 + q)) b.1))
          (g.1, .ok { sum := lines.map (fun ls => (nv.zip sb).map (fun x => outlierSum ls x.1 x.2)), count := n,
                      led := Ledger.sum (lines.map (fun ls => Ledger.sum (ls.map (·.led)))) })

/-- The misfit flag of a stream is set (R172). -/
def State.setMisfit (s : State) (c flag : Nat) : State :=
  let k := s.core c
  s.setCore c { k with seq := { k.seq with misfit := setAt k.seq.misfit flag true } }

/-- One cirrus pass with shift `sh` and, when no cell saturates, its drain (R87 to R92). -/
def State.cirrusWork (s : State) (c a sh : Nat) (e : QEntry) (led0 : Ledger) (om on : OpRef) (k rows cols : Nat)
    (bank : Bool) (d : Drain) (bias : Option Loc) (repeats : Bool) (flag tileNo : Nat) (ol : Option Outlier) :
    State × Phase :=
  let p := s.partOfPhys c
  let cr := s.core c
  let src := cr.source
  let za := (List.range rows).map (om.zeroPoint src)
  let zb := (List.range cols).map (on.zeroPoint src)
  if !(za.all (zeroPointOk om.fmt) && zb.all (zeroPointOk on.fmt)) then
    (s, (Outcome.mk Code.badCmd led0 0 sh).phase)
  else
    let o := s.outlierWork p c e om d rows cols ol
    match o.2 with
    | .error x => (o.1, x.phase)
    | .ok out =>
      let s0 := (o.1.event c 0x0202 1).passEvents c a om on k rows cols
      let ps := cirrusPass sh k (om.codes src true rows k) (on.codes src false cols k) za zb
      let x := cr.arr a
      let pre : Bank := ⟨[], bias.map (fun l => ⟨l, d.biasAxis⟩)⟩
      let setArr (st : State) (y : Arr) : State := st.setCore c ((st.core c).setArr a y)
      if ps.sat then
        let led := led0.add { cirrusSat := 1 }
        let y := x.setBank bank pre
        if sh < 8 ∧ (repeats && decide (out.count ≤ 32)) then
          (setArr s0 { y with hold := true }, .running (sh + 4))
        else ((setArr s0 { y with hold := false, lastShift := 3 }).setMisfit c flag, .done Code.misfit led 0 3)
      else
        let s1 := setArr (s0.event c 0x0202 1) { x.setBank bank { pre with tile := ps.regs } with hold := false, lastShift := sh / 4 }
        let r := s1.drainWork p d bias d.biasAxis rows cols (fun di old =>
          drainValues d di rows cols e.key tileNo (fun m n =>
            let v := FVal.mul (FVal.mul (FVal.ofRat ((ps.t.getD m []).getD n 0 : Int)) (fp32Val (di.sa.getD m 0)))
              (fp32Val (di.sb.getD n 0))
            let w := FVal.add (FVal.add v (((out.sum.getD m []).getD n (.num false 0)))) (di.beta m n)
            match w with
            | .num _ _ => FVal.ofRat w.toRat
            | _ => w) old)
        (r.1, .done r.2.status ((led0.add out.led).add r.2.led) r.2.detail (sh / 4))

/-- The ledger a saturated cirrus pass carries into its repeat (R89): one `CIRRUS_SAT` per saturated pass so far. -/
def cirrusCarry (sh : Nat) : Ledger := { cirrusSat := sh / 4 }

/-- CIRRUS: the first pass of the record at the head of the array's queue (R87, R89). -/
def State.doCirrus (s : State) (l a : Nat) : State :=
  match s.ready l a with
  | some (c, i, e) =>
    match e.op with
    | .cirrus om on k rows cols bank d bias repeats flag tileNo ol =>
      s.issuing c (fun s0 =>
        let r := (s0.startEntry c a i e (.running 0)).cirrusWork c a 0 e {} om on k rows cols bank d bias repeats flag
          tileNo ol
        r.1.setPhase c a i r.2)
    | _ => s
  | none => s

/-- The running cirrus record of an array, if its last pass saturated: its index, itself and the shift it repeats
with. -/
def findRunning : Nat → List QEntry → Option (Nat × QEntry × Nat)
  | _, [] => none
  | i, e :: es => match e.phase with
    | .running sh => some (i, e, sh)
    | _ => findRunning (i + 1) es

/-- CIRRUS_REPEAT: the saturated record runs again with shift 4, then 8 (R89, R90). -/
def State.doCirrusRepeat (s : State) (l a : Nat) : State :=
  match s.physOf l with
  | none => s
  | some c =>
    match findRunning 0 ((s.core c).queue a) with
    | some (i, e, sh) =>
      match e.op with
      | .cirrus om on k rows cols bank d bias repeats flag tileNo ol =>
        s.issuing c (fun s0 =>
          let r := (s0.event c 0x0204 1).cirrusWork c a sh e (cirrusCarry sh) om on k rows cols bank d bias repeats flag
            tileNo ol
          r.1.setPhase c a i r.2)
      | _ => s
    | none => s

end Sys2Proof.Machine
end

