-- ==== Sys2Proof/Machine/VectorRecords.lean ====
section
/-! DEFINITION. The records of the vector queue: LAUNCH (R152, R189) and QUANT (R160 to R171, R190). -/

namespace Sys2Proof.Machine

/-- The free threads of a core, lowest first. -/
def Core.freeThreads (k : Core) : List Nat := (List.range 16).filter (fun t => (k.thread t).st == .free)

/-- Register v0 of a thread at launch: the four arguments in bytes 0 to 31 and the rank in bytes 32 to 35 (R152). -/
def launchV0 (args : List Nat) (rank : Nat) : VReg :=
  VReg.ofBytes (args.flatMap (toLe 8) ++ toLe 4 rank)

/-- The launch of a kernel on the lowest free threads (R152). -/
def Core.launch (k : Core) (e : QEntry) (entry : Loc) (threads : Nat) (args : List Nat) : Core :=
  ((k.freeThreads.take threads).zipIdx).foldl (fun acc x =>
    acc.setThread x.1 { st := .running, serial := e.serial, pc := entry, regs := SMap.set 0 0 (launchV0 args x.2) [] }) k

/-- LAUNCH: waits at the head of the vector queue until enough threads are free (R152). -/
def State.doLaunch (s : State) (l : Nat) : State :=
  match s.ready l 2 with
  | some (c, i, e) =>
    match e.op with
    | .launch entry th args =>
      if (s.core c).freeThreads.length < th then s
      else
        let s1 := s.startEntry c 2 i e (.running 0)
        s1.setCore c ((s1.core c).launch e entry th args)
    | _ => s
  | none => s

/-! ## QUANT -/

/-- A step of a record's work that can end with an outcome. -/
abbrev Work (α : Type) := State × Except Outcome α

/-- Continues a step's work. -/
def Work.next {α β : Type} (r : Work α) (f : State → α → Work β) : Work β :=
  match r.2 with
  | .ok a => f r.1 a
  | .error o => (r.1, .error o)

/-- A memory access as a step: a failing address ends it with E_BUSERR. -/
def Work.ofMem {α : Type} (r : State × Except (Nat × Nat) α) : Work α :=
  (r.1, match r.2 with
    | .ok a => .ok a
    | .error e => .error (.bad Code.busErr e.2))

/-- A check as a step: E_BADCMD where it fails. -/
def Work.guard (s : State) (b : Bool) : Work Unit := (s, if b then .ok () else .error (.bad Code.badCmd 0))

/-- A list of steps, their results joined. -/
def Work.each {α β : Type} (s : State) (xs : List α) (f : State → α → Work β) : Work (List β) :=
  xs.foldl (fun acc x => acc.next (fun s1 bs => (f s1 x).next (fun s2 b => (s2, .ok (bs ++ [b]))))) (s, .ok [])

/-- Reads and checks a header for a record of core `c` (R31). -/
def State.recHeader (s : State) (p c : Nat) (l : Loc) : Work Tensor :=
  (Work.ofMem (s.locRead p l 64)).next (fun s1 bs =>
    match readHeader { phys := c, sv := [], pairs := [], cores := s1.coresOf p } bs with
    | some t => (s1, .ok t)
    | none => (s1, .error (.bad Code.badCmd 0)))

/-- The values of a plain FP32 or BF16 tensor, row by row. -/
def State.plainRows (s : State) (p : Nat) (t : Tensor) (f : FloatFmt) : Work (List (List FVal)) :=
  match t.elem with
  | none => (s, .error (.bad Code.badCmd 0))
  | some el =>
    Work.each s (List.range t.rows) (fun s1 r =>
      (Work.ofMem (s1.locRead p (el.plus (r * t.eStride)) (t.cols * (f.width / 8)))).next (fun s2 bs =>
        (s2, .ok ((List.range t.cols).map (fun j => f.decode (fieldAt bs (j * (f.width / 8)) (f.width / 8)))))))

/-- The channels that `OUTLIER_AUTO` selects: those with the largest finite magnitudes, a tie to the lower index, in
rising order (R166). -/
def autoOutliers (rows : List (List FVal)) (channels n : Nat) : List Nat :=
  let mags := (List.range channels).map (fun j => (j, maxMag (rows.map (fun r => r.getD j (.num false 0)))))
  let rank (e : Nat × Rat) : Nat :=
    mags.countP (fun g => decide (e.2 < g.2) || (decide (g.2 = e.2) && decide (g.1 < e.1)))
  (mags.filter (fun e => decide (rank e < n))).map (·.1)

/-- The bytes of an outlier list (R165). -/
def outlierListBytes (idx : List Nat) : Bytes :=
  toLe 2 idx.length ++ toLe 6 0 ++ (List.range 64).flatMap (fun i => toLe 2 (idx.getD i 0xFFFF))

/-- The outlier channels of a record: chosen, read from its list, or none (R165, R166). -/
def State.quantOutliers (s : State) (p : Nat) (q : QuantOp) (rows : List (List FVal)) (channels : Nat) :
    Work (List Nat) :=
  match q.list with
  | none => (s, .ok [])
  | some l =>
    if q.auto ≠ 0 then
      let idx := autoOutliers rows channels q.auto
      (Work.ofMem (s.locWrite p l (outlierListBytes idx))).next (fun s1 _ => (s1, .ok idx))
    else
      (Work.ofMem (s.locRead p l 136)).next (fun s1 bs =>
        match readOutlierList bs channels with
        | some idx => (s1, .ok idx)
        | none => (s1, .error (.bad Code.badCmd 0)))

/-- Writes the outlier plane: one line of BF16 values per token, padded to 64 B (R167). -/
def State.outlierPlane (s : State) (p : Nat) (q : QuantOp) (rows : List (List FVal)) (idx : List Nat) : Work Unit :=
  match q.plane with
  | none => (s, .ok ())
  | some l =>
    if idx = [] then (s, .ok ()) else
    let b := alignUp (2 * idx.length) 64
    Work.ofMem (s.locWrites p (rows.zipIdx.map (fun r =>
      (l.plus (r.2 * b), padTo b (idx.flatMap (fun j =>
        toLe 2 (FloatFmt.bf16.write .rne false 0 (r.1.getD j (.num false 0))).1))))))

/-- The parameters of a window's lines (R162): also the ranges to record, as FP32 bits, and whether a carried line became
a constant channel of 0. `lines` holds each line's inputs without the outlier channels; `first` is the window's first
line in the record. -/
def State.quantParams (s : State) (p c : Nat) (q : QuantOp) (top : Nat) (carried : Bool) (first : Nat)
    (lines : List (List FVal)) : Work (List (QParams × Bool)) :=
  let area (i : Nat) : Loc := .cst c (q.range + 8 * (first + i))
  let ranges := lines.map rangeOf
  let record (s1 : State) : Work Unit :=
    Work.ofMem (s1.locWrites p (ranges.zipIdx.map (fun r => (area r.2, toLe 4 (toFp32 r.1.1) ++ toLe 4 (toFp32 r.1.2)))))
  if q.qparam = 1 then
    match q.qscale, q.qzp with
    | some sl, some zl =>
      Work.each s (List.range lines.length) (fun s1 i =>
        (Work.ofMem (s1.locReads p [(sl.plus (4 * (first + i)), 4), (zl.plus (2 * (first + i)), 2)])).next (fun s2 bs =>
          let z := fieldAt bs 4 2
          if z = 0xFFFF ∨ z ≤ top then (s2, .ok (⟨fieldAt bs 0 4, z⟩, false)) else (s2, .error (.bad Code.badCmd 0))))
    | _, _ => (s, .error (.bad Code.badCmd 0))
  else if carried then
    (Work.each s (List.range lines.length) (fun s1 i =>
      (Work.ofMem (s1.locRead p (area i) 8)).next (fun s2 bs =>
        let pr := qCarried top (fp32Val (fieldAt bs 0 4)).toRat (fp32Val (fieldAt bs 4 4)).toRat
        (s2, .ok (pr, pr.zp == 0xFFFF))))).next (fun s3 ps => (record s3).next (fun s4 _ => (s4, .ok ps)))
  else (record s).next (fun s1 _ => (s1, .ok (ranges.map (fun r => (qComputed top r.1 r.2, false)))))

/-- Codes one window and writes its planes (R160, R163, R28). -/
def State.quantWindow (s : State) (p c : Nat) (e : QEntry) (q : QuantOp) (w channels : Nat) (idx : List Nat)
    (carried : Bool) (rows : List (List FVal)) : Work Ledger :=
  let hl := q.outHdr.plus (64 * w)
  (s.recHeader p c hl).next (fun s1 t =>
    (Work.guard s1 (t.fmt.isInt && t.rows == rows.length && t.cols == channels && t.down == !q.axis)).next (fun s2 _ =>
      match t.elem, t.scale, t.zp with
      | some el, some sl, some zl =>
        let top := qTop t.fmt
        let column (j : Nat) : List FVal := rows.map (fun r => r.getD j (.num false 0))
        let kept (r : List FVal) : List FVal := (r.zipIdx.filter (fun x => !idx.contains x.2)).map (·.1)
        let lines := if q.axis then rows.map kept else (List.range channels).map column
        let first := if q.axis then q.win * w else 0
        (s2.quantParams p c q top carried first lines).next (fun s3 ps =>
          let code (r j : Nat) (x : FVal) : Nat × Ledger :=
            let pr := ps.getD (if q.axis then r else j) (⟨0, 0⟩, false)
            if idx.contains j then (if pr.1.zp = 0xFFFF then 0 else pr.1.zp, {})
            else qCode top q.mode (srBits e.key q.site (r * channels + j)) pr.1 pr.2 x
          let cs := rows.zipIdx.map (fun r => r.1.zipIdx.map (fun x => code r.2 x.2 x.1))
          let pad := t.storedCols - channels
          let rowWrites := cs.zipIdx.map (fun r =>
            (el.plus (r.2 * t.eStride), packElems t.fmt (r.1.map (·.1) ++ List.replicate pad 0)))
          let padRows := (List.range (t.storedRows - t.rows)).map (fun i =>
            (el.plus ((t.rows + i) * t.eStride), List.replicate (t.fmt.packedBytes channels) (0 : Byte)))
          let params := ps.zipIdx.flatMap (fun x =>
            [(sl.plus (4 * x.2), toLe 4 x.1.1.scale), (zl.plus (2 * x.2), toLe 2 x.1.1.zp)])
          (Work.ofMem (s3.locWrites p (rowWrites ++ padRows ++ params))).next (fun s4 _ =>
            (Work.ofMem (s4.writePow2 p hl (ps.all (fun x => (fp32Val x.1.scale).isPow2)))).next (fun s5 _ =>
              (s5, .ok (Ledger.sum (cs.map (fun r => Ledger.sum (r.map (·.2)))))))))
      | _, _, _ => (s2, .error (.bad Code.badCmd 0))))

/-- The whole work of a quantiser record (R160 to R171). -/
def State.quantWork (s : State) (c : Nat) (e : QEntry) (q : QuantOp) : State × Outcome :=
  let p := s.partOfPhys c
  let r : Work Ledger :=
    (s.recHeader p c q.inHdr).next (fun s1 t =>
      match (if t.fmt = .fp32 ∨ t.fmt = .bf16 then t.fmt.float else none) with
      | none => (s1, .error (.bad Code.badCmd 0))
      | some f =>
        let nLines := if q.axis then t.rows else t.cols
        (Work.guard s1 (decide (nLines ≤ 16384) && decide (q.range + 8 * nLines ≤ coreStoreBytes))).next (fun s2 _ =>
          (s2.plainRows p t f).next (fun s3 rows =>
            (s3.quantOutliers p q rows t.cols).next (fun s4 idx =>
              (s4.outlierPlane p q rows idx).next (fun s5 _ =>
                let wins := chunks q.win (ceilDiv t.rows q.win) rows
                let begun := SMap.get false q.seq (s5.core c).qseqs
                (Work.each s5 wins.zipIdx (fun s6 w =>
                  s6.quantWindow p c e q w.2 t.cols idx (q.qparam == 2 && (begun || decide (0 < w.2))) w.1)).next
                  (fun s7 ls =>
                    let k := s7.core c
                    (s7.setCore c (if q.qparam = 2 then { k with qseqs := SMap.set false q.seq true k.qseqs } else k),
                     .ok (Ledger.sum ls))))))))
  match r.2 with
  | .error o => (r.1, o)
  | .ok led =>
    if q.thresh < led.quantClip then (r.1.setMisfit c q.flag, ⟨Code.misfit, led, 0, 0⟩) else (r.1, .good led)

/-- QUANT: waits at the head of the vector queue until a thread is free (R190). -/
def State.doQuant (s : State) (l : Nat) : State :=
  match s.ready l 2 with
  | some (c, i, e) =>
    match e.op with
    | .quant q =>
      if (s.core c).freeThreads = [] then s else s.runEntry c 2 i e (fun s1 => s1.quantWork c e q)
    | _ => s
  | none => s

end Sys2Proof.Machine
end

