-- ==== Sys2Proof/Machine/DmaPlan.lean ====
section
/-! DEFINITION. Descriptors: decoding and the checks of R228 to R235, merging (R236), the reads a descriptor plans, the
width change (R232) and the conversions (R234) that turn what was read into writes. -/

namespace Sys2Proof.Machine

/-- A local device address that a descriptor may not name: the core-store window or the register range (R230). -/
def descForbidden (a : Nat) : Bool :=
  (decide (coreBase ≤ a) && decide (a < coreBase + 576 * 2 ^ 22)) || (decide (regBase ≤ a) && decide (a < regBase + 0x10000000))

/-- Resolves a descriptor's address field: a remote one holds a device address, a local device address takes the record's
adjustment (R230, R231). -/
def descAddr (e : AddrEnv) (remote : Bool) (adj : Int) (w : Nat) : Option Loc :=
  if remote then (if w < deviceSpace then some (.dev w) else none) else
  match e.resolve w with
  | some (.dev a) =>
    let b : Int := (a : Int) + adj
    if b < 0 ∨ (deviceSpace : Int) ≤ b ∨ descForbidden b.toNat then none else some (.dev b.toNat)
  | x => x

/-- Image sizes of R235. -/
def gtSizes : List Nat := [2112, 1600, 1088, 4160]

/-- The fields of a descriptor lie in their ranges and agree with one another, addresses apart (R229, R235, R252). -/
def descFieldsOk (core : Bool) (bs : Bytes) : Bool :=
  let fl := u16 bs 0
  let w := u8 bs 2
  let conv := u8 bs 3
  let rb := u32 bs 4
  let rows := u32 bs 24
  let crc := bit fl 1 || bit fl 2
  let remote := bit fl 9 || bit fl 10
  let watch := bit fl 6
  bits fl 13 3 == 0 && !bit w 3 && !bit w 7 && decide (bits w 0 3 ≤ 4) && decide (bits w 4 3 ≤ 4) && decide (conv ≤ 6)
    && !(bit fl 9 && bit fl 10) && !(bit fl 1 && bit fl 2)
    && (if core then !remote else !bit fl 5 && bits w 0 3 == bits w 4 3 && conv == 0 && !watch)
    && (if conv = 0 then decide (1 ≤ rb) && decide (rb ≤ 2 ^ 24) && rb % 2 ^ bits w 0 3 == 0 && decide (1 ≤ rows)
          && decide (rows ≤ 2 ^ 24)
        else rb == 0 && rows == 0 && !bit fl 5)
    && decide (bits (u8 bs 36) 0 2 ≤ 2) && bits (u8 bs 36) 2 6 == 0 && (bits (u8 bs 36) 0 2 != 0 || u64 bs 40 == 0)
    && bits (u8 bs 37) 3 5 == 0 && (watch || (u8 bs 37 == 0 && u16 bs 38 == 0))
    && (if crc then decide (u64 bs 48 + 4 ≤ deviceSpace) else u64 bs 48 == 0)
    && (remote || u16 bs 56 == 0) && zeroAt bs 58 6
    && (!bit fl 5 || (rows == 1 && gtSizes.contains rb && decide (u64 bs 16 ≤ 1)))

/-- Bytes of a descriptor's source range from its first to past its last byte (R252). A conversion's is its header. -/
def Desc.extent (d : Desc) : Nat := if d.conv = 0 then (d.rows - 1) * d.srcStride + d.rowBytes else 64

/-- The descriptor at index `i` of its list, or nothing when the check of R228 refuses it. -/
def readDesc (e : AddrEnv) (core : Bool) (srcAdj dstAdj : Int) (i : Nat) (bs : Bytes) : Option Desc :=
  let fl := u16 bs 0
  let gtb := bit fl 5
  let dst : Option Loc := if gtb then some (.cst e.phys (u64 bs 16)) else descAddr e (bit fl 10) dstAdj (u64 bs 16)
  match descFieldsOk core bs, descAddr e (bit fl 9) srcAdj (u64 bs 8), dst with
  | true, some src, some dst =>
    let rows := u32 bs 24
    let d : Desc :=
      { index := i, crcEn := bit fl 0, crcWrite := bit fl 1, crcCheck := bit fl 2, order := bit fl 3, signx := bit fl 4, gtb,
        watch := bit fl 6, fresh := bit fl 7, nomerge := bit fl 8, remSrc := bit fl 9, remDst := bit fl 10,
        compute := bit fl 11, mode := if bit fl 12 then .rtz else .rne, srcW := 2 ^ bits (u8 bs 2) 0 3,
        dstW := 2 ^ bits (u8 bs 2) 4 3, conv := u8 bs 3, rowBytes := u32 bs 4, src, dst, rows,
        srcStride := if rows ≤ 1 then 0 else u32 bs 28, dstStride := if rows ≤ 1 then 0 else u32 bs 32,
        dlMode := bits (u8 bs 36) 0 2, win := u8 bs 37, watchTag := u16 bs 38, deadline := u64 bs 40,
        crcAddr := u64 bs 48, module := u16 bs 56 }
    if d.watch && (d.src.isCore || decide (regBase ≤ d.src.num + d.extent)) then none else some d
  | _, _, _ => none

/-- A descriptor that merging leaves alone (R236). -/
def Desc.plain (d : Desc) : Bool :=
  d.rows == 1 && d.conv == 0 && d.srcW == d.dstW && d.dlMode == 0 && !d.nomerge && !d.watch && !d.order && !d.gtb
    && !d.crcWrite && !d.crcCheck && !d.remSrc && !d.remDst

/-- Whether a location starts at the byte after `n` bytes at another end, in the same space and core store. -/
def Loc.follows (b a : Loc) (n : Nat) : Bool := b == a.plus n

/-- Merges descriptors of a batch, each with the lengths and indices of what it holds (R236). -/
def mergeDescs : List (Desc × List (Nat × Nat)) → List Desc → List (Desc × List (Nat × Nat))
  | acc, [] => acc.reverse
  | [], d :: ds => mergeDescs [(d, [(d.rowBytes, d.index)])] ds
  | (m, ls) :: acc, d :: ds =>
    if m.plain && d.plain && m.srcW == d.srcW && m.crcEn == d.crcEn && m.signx == d.signx && d.src.follows m.src m.rowBytes
        && d.dst.follows m.dst m.rowBytes && decide (m.rowBytes + d.rowBytes ≤ 65536) then
      mergeDescs (({ m with rowBytes := m.rowBytes + d.rowBytes }, ls ++ [(d.rowBytes, d.index)]) :: acc) ds
    else mergeDescs ((d, [(d.rowBytes, d.index)]) :: (m, ls) :: acc) ds

/-- The index of the descriptor that holds byte `off` of a merged transfer (R236, R241). -/
def indexAt : List (Nat × Nat) → Nat → Nat → Nat
  | [], _, dflt => dflt
  | (n, i) :: ls, off, _ => if off < n then i else indexAt ls (off - n) i

/-- The pieces of a range, none of which crosses a 256 B line (R266). A row that runs past the end of its core store stays one
access, of which no byte takes effect (R181). -/
def locPieces (l : Loc) (n : Nat) : List (Loc × Nat) :=
  if !l.extentOk n then [(l, n)] else
  (pieces l.num n).map (fun e => (l.plus (e.1 - l.num), e.2))

/-- A write cut into such pieces. -/
def locWritePieces (l : Loc) (bs : Bytes) : List (Loc × Bytes) :=
  if !l.extentOk bs.length then [(l, bs)] else
  (pieces l.num bs.length).map (fun e => (l.plus (e.1 - l.num), (bs.drop (e.1 - l.num)).take e.2))

/-! ## Width change -/

/-- One element of R232: cut to its low bytes, or extended with zeros or copies of its top bit. -/
def widen (dstW : Nat) (signx : Bool) (e : Bytes) : Bytes :=
  let fill : Byte := if signx && bit (u8 e (e.length - 1)) 7 then 0xFF else 0
  e.take dstW ++ List.replicate (dstW - e.length) fill

/-- A row after its width change (R232). -/
def widthRow (d : Desc) (bs : Bytes) : Bytes :=
  if d.srcW = d.dstW then bs
  else (chunks d.srcW (bs.length / d.srcW) bs).flatMap (widen d.dstW d.signx)

/-- The address in the destination row of byte `n` of the source row. -/
def Desc.dstRow (d : Desc) (row : Nat) : Loc := d.dst.plus (row * d.dstStride)
/-- The source row. -/
def Desc.srcRow (d : Desc) (row : Nat) : Loc := d.src.plus (row * d.srcStride)

/-! ## Conversions -/

/-- The formats of a conversion match its row of R234, and the shapes agree. A block conversion of MX data keeps its
blocks, so both tensors have one block axis. -/
def convOk (conv : Nat) (s d : Tensor) : Bool :=
  s.rows == d.rows && s.cols == d.cols &&
    (if conv = 1 then (s.fmt == .bf16 || s.fmt == .fp16) && d.fmt == .b16
    else if conv = 2 then s.fmt == .fp32 && d.fmt == .b16
    else if conv = 3 then s.fmt.isMX && s.fmt.mxTarget == some d.fmt && s.down == d.down
    else if conv = 4 then s.fmt.isCB && (d.fmt == .bf16 || d.fmt == .fp16)
    else if conv = 5 then s.fmt.isCB && d.fmt == .fp32
    else (s.fmt == .fp32 || s.fmt == .bf16 || s.fmt == .fp16) && d.fmt.isCB)

/-- The planes that a tensor's format needs are named by its header. -/
def planesNamed (t : Tensor) : Bool :=
  t.elem.isSome && (!t.fmt.hasOffs || t.offs.isSome) && (!t.fmt.hasScale || t.scale.isSome)

/-- Bytes of one row of valid elements. -/
def Tensor.validRow (t : Tensor) : Nat := t.fmt.packedBytes t.cols

/-- The ranges that hold a tensor: element rows, offset lines, then the scale plane (R27, R32). -/
def Tensor.ranges (t : Tensor) : List (Loc × Nat) :=
  let el := t.elem.getD (.dev 0)
  let of := t.offs.getD (.dev 0)
  let sc := t.scale.getD (.dev 0)
  (List.range t.rows).map (fun r => (el.plus (r * t.eStride), t.validRow))
    ++ (if t.fmt.hasOffs then (List.range t.lines).map (fun i => (of.plus (i * t.oStride), t.offsBytes)) else [])
    ++ (if t.fmt.isMX then [(sc, t.lines * t.offsBytes)] else if t.fmt.hasScale then [(sc, 4 * t.lines)] else [])

/-- Scales are supplied by the destination's scale plane (R234). -/
def Desc.supplied (d : Desc) : Bool := !d.compute && (d.conv == 1 || d.conv == 2 || d.conv == 6)

/-- Every range that a conversion reads, in the order its bytes are kept. -/
def convRanges (d : Desc) (s t : Tensor) : List (Loc × Nat) :=
  s.ranges ++ (if d.supplied then [(t.scale.getD (.dev 0), 4 * t.lines)] else [])

/-- The bytes of a tensor as they were read: how to find its elements, offsets and scales. -/
structure Image where
  t   : Tensor
  bs  : Bytes
  deriving DecidableEq, Repr

/-- Bytes of a tensor's ranges. -/
def Tensor.imageBytes (t : Tensor) : Nat := (t.ranges.map (·.2)).sum

/-- The element bits at row `r` and column `c`. -/
def Image.elem (m : Image) (r c : Nat) : Nat :=
  let w := m.t.fmt.width
  let b := c * w
  bits (fieldAt m.bs (r * m.t.validRow + b / 8) (ceilDiv (b % 8 + w) 8)) (b % 8) w

/-- The offset of block `b` of line `i`. -/
def Image.offset (m : Image) (i b : Nat) : Nat :=
  let base := m.t.rows * m.t.validRow + i * m.t.offsBytes
  bits (u8 m.bs (base + b / 2)) (4 * (b % 2)) 4

/-- The scale of line `i`, or of block `b` of line `i` in an MX tensor. -/
def Image.scaleOf (m : Image) (i b : Nat) : Nat :=
  let base := m.t.rows * m.t.validRow + (if m.t.fmt.hasOffs then m.t.lines * m.t.offsBytes else 0)
  if m.t.fmt.isMX then u8 m.bs (base + i * m.t.offsBytes + b) else u32 m.bs (base + 4 * i)

/-- Row and column of position `j` of line `i` of a tensor. -/
def Tensor.at (t : Tensor) (i j : Nat) : Nat × Nat := if t.down && t.fmt.hasScale then (j, i) else (i, j)

/-- Line and position of row `r` and column `c` of a tensor. -/
def Tensor.lineAt (t : Tensor) (r c : Nat) : Nat × Nat := if t.down && t.fmt.hasScale then (c, r) else (r, c)

/-- The value at row `r` and column `c`. -/
def Image.value (m : Image) (r c : Nat) : FVal :=
  let p := m.t.lineAt r c
  let off := if m.t.fmt.hasOffs then m.offset p.1 (p.2 / 32) else if m.t.fmt.isMX then m.scaleOf p.1 (p.2 / 32) else 0
  let sc := if m.t.fmt.hasScale && !m.t.fmt.isMX then m.scaleOf p.1 0 else 0
  entryVal m.t.fmt (m.elem r c) off sc 0

/-- A converted line of a block tensor, with the scales that a supplied plane gives. -/
def convertLine (d : Desc) (m : Image) (t : Tensor) (i : Nat) : Line :=
  let at' (j : Nat) : Nat × Nat := t.at i j
  if d.conv = 3 then
    let nb := blocksIn t.lineLen
    mxLine ((List.range nb).map (m.scaleOf i))
      ((List.range nb).map (fun b => (List.range (min 32 (t.lineLen - 32 * b))).map (fun j =>
        m.elem (at' (32 * b + j)).1 (at' (32 * b + j)).2)))
  else
    let sup := if d.supplied then some (u32 m.bs (m.t.imageBytes + 4 * i)) else none
    convLine t.fmt d.mode sup (fun _ => 0) ((List.range t.lineLen).map (fun j => m.value (at' j).1 (at' j).2))

/-- One element of a plain destination (R50, R54): a special input counts, a result beyond the range is ±Inf. -/
def plainElem (f : FloatFmt) (mode : RMode) (v : FVal) : Nat × Ledger :=
  let w := f.write mode false 0 v
  (w.1, if v.isSpecial then Ledger.oneSpecial else w.2)

/-- What a conversion writes: plane writes in order (element, offset, scale plane), what it counts, and `SCALE_POW2`. -/
structure Conversion where
  writes : List (Loc × Bytes)
  led    : Ledger
  pow2   : Bool
  deriving DecidableEq, Repr

/-- The whole conversion of what was read (R234). -/
def convertAll (d : Desc) (m : Image) (t : Tensor) : Conversion :=
  let el := t.elem.getD (.dev 0)
  if t.fmt.hasScale then
    let ls := (List.range t.lines).map (convertLine d m t)
    let elemAt (r c : Nat) : Nat :=
      let p := t.lineAt r c
      (ls.getD p.1 ⟨[], [], 0, {}⟩).elems.getD p.2 0
    { writes :=
        ((List.range t.storedRows).flatMap (fun r =>
          locWritePieces (el.plus (r * t.eStride)) (packElems t.fmt ((List.range t.storedCols).map (elemAt r)))))
        ++ (ls.zipIdx.flatMap (fun x => locWritePieces ((t.offs.getD (.dev 0)).plus (x.2 * t.oStride)) (packOffs x.1.offs)))
        ++ locWritePieces (t.scale.getD (.dev 0)) (ls.flatMap (fun x => toLe 4 x.scale))
      led := Ledger.sum (ls.map (·.led))
      pow2 := ls.all (fun x => (fp32Val x.scale).isPow2) }
  else
    match t.fmt.float with
    | none => ⟨[], {}, false⟩
    | some f =>
      let rows := (List.range t.rows).map (fun r => (List.range t.cols).map (fun c => plainElem f d.mode (m.value r c)))
      { writes := rows.zipIdx.flatMap (fun x =>
          locWritePieces (el.plus (x.2 * t.eStride)) (x.1.flatMap (fun e => toLe (t.fmt.width / 8) e.1)))
        led := Ledger.sum (rows.map (fun x => Ledger.sum (x.map (·.2))))
        pow2 := true }

end Sys2Proof.Machine
end

