-- ==== Sys2Proof/Machine/Fabric.lean ====
section
/-! DEFINITION. The Bureg fabric's shared operations (chapter 10): packets and flits, routing and port choice, egress
service with credits and replay, reception and delivery, responses. -/

namespace Sys2Proof.Machine

/-! ## Packets and flits -/

/-- The packet's bytes: the 32 B header and the payload (R303). -/
def Packet.bytes (k : Packet) : Bytes :=
  toLe 2 k.dest ++ toLe 2 k.src ++ toLe 1 k.kind ++ toLe 1 (k.hops % 64 + 64 * b2n k.bcast) ++ toLe 1 k.fgroup ++ toLe 1 0
    ++ toLe 8 k.addr ++ toLe 2 k.len ++ toLe 2 k.txn ++ toLe 4 k.key ++ toLe 4 k.status ++ toLe 4 0 ++ k.data

/-- Reads a packet; nothing when a reserved field is not zero or the header is cut short (R303, R304). -/
def Packet.read (bs : Bytes) : Option Packet :=
  if bs.length < 32 ∨ bit (u8 bs 5) 7 ∨ u8 bs 7 ≠ 0 ∨ bits (u64 bs 8) 44 20 ≠ 0 ∨ 2048 < u16 bs 16
      ∨ 8 ≤ u32 bs 24 ∨ u32 bs 28 ≠ 0 then none
  else some { dest := u16 bs 0, src := u16 bs 2, kind := u8 bs 4, hops := bits (u8 bs 5) 0 6, bcast := bit (u8 bs 5) 6,
              fgroup := u8 bs 6, addr := u64 bs 8, len := u16 bs 16, txn := u16 bs 18, key := u32 bs 20,
              status := u32 bs 24, data := bs.drop 32 }

/-- A packet kind may travel in a class (R304). -/
def kindInClass (kind tc : Nat) : Bool :=
  if kind ∈ [0x01, 0x02, 0x03, 0x04, 0x05] then tc == 1 || tc == 2
  else if kind ∈ [0x10, 0x11, 0x12, 0x13, 0x18, 0x19, 0x1A, 0x1C] then tc == 0
  else if kind = 0x20 ∨ kind = 0x21 then tc == 1
  else false

/-- The packet is well formed for its class: kind, the one flit and 64 B of a TC0 packet, and a payload that `LEN` gives
(R304, R305). -/
def Packet.ok (k : Packet) (tc flits : Nat) : Bool :=
  kindInClass k.kind tc && (tc != 0 || (flits == 1 && decide (k.data.length ≤ 64)))
    && (if k.kind = 0x02 then decide (1 ≤ k.len) && k.data.isEmpty else k.data.length == k.len)
    && (k.kind != 0x01 || decide (1 ≤ k.len))

/-- Flits that a packet takes (R303). -/
def Packet.flits (k : Packet) : Nat := max 1 (ceilDiv (32 + k.data.length) 244)

/-- The header word of a flit (R296). -/
def flitHeader (ftype tc vl : Nat) (first last : Bool) (seq ack plen crIdx crCount : Nat) : Nat :=
  ftype + 16 * tc + 64 * vl + 128 * b2n first + 256 * b2n last + 2 ^ 9 * (seq % 4096) + 2 ^ 21 * (ack % 4096)
    + 2 ^ 33 * plen + 2 ^ 41 * (crIdx / 2) + 2 ^ 43 * (crIdx % 2) + 2 ^ 44 * crCount

/-- A whole flit: header, payload padded to 244 bytes, CRC-32 (R296, R297). -/
def flitBytes (header : Nat) (payload : Bytes) : Bytes :=
  let b := toLe 8 header ++ padTo 244 payload
  b ++ toLe 4 (crc32 b)

/-- A received flit is sound: 256 bytes whose CRC passes and whose reserved header bits are zero (R297). -/
def crcPasses (raw : Bytes) : Bool := raw.length == 256 && u32 raw 252 == crc32 (raw.take 252)

/-- The reserved bits of a flit header are zero and its type is the given one. -/
def flitIs (ftype : Nat) (raw : Bytes) : Bool := crcPasses raw && bits (u64 raw 0) 50 14 == 0 && bits (u64 raw 0) 0 4 == ftype

/-- `ACK` that a port sends: the last packet flit received in order. -/
def Port.ack (q : Port) : Nat := (q.rxSeq + 4095) % 4096

/-- The first class and lane with credits to return, and how many of them fit a header. -/
def Port.returnable (q : Port) : Option (Nat × Nat) :=
  ((List.range 6).find? (fun i => q.owed.getD i 0 != 0)).map (fun i => (i, min 63 (q.owed.getD i 0)))

/-- Sends one flit from a port, with its `ACK` and the credits its header returns (R296, R308). -/
def State.sendFlit (s : State) (n ftype tc vl : Nat) (first last : Bool) (seq : Nat) (payload : Bytes) : State × Bytes :=
  let q := s.port n
  let cr := q.returnable.getD (0, 0)
  let raw := flitBytes (flitHeader ftype tc vl first last seq q.ack payload.length cr.1 cr.2) payload
  (((if ftype = 1 then s.gevent 4 n tc 1 else s).setPort n { q with owed := modAt q.owed cr.1 (· - cr.2) }).emit (.flit n raw), raw)

/-- Returns every credit a port owes in idle flits, and always sends at least `least` of them (R308). -/
def State.sendIdles (s : State) (n least : Nat) : State :=
  let need := max least ((s.port n).owed.map (fun c => ceilDiv c 63)).sum
  (List.range need).foldl (fun acc _ => (acc.sendFlit n 0 0 0 false false 0 []).1) s

/-! ## Nodes and routing -/

/-- The partition that owns port `n` (R301). -/
def State.nodeOf (s : State) (n : Nat) : Nat := s.partOfDie (n / 8)

/-- Counts a discarded packet (R328). -/
def State.dropPacket (s : State) (p : Nat) : State :=
  let d := s.node p
  s.setNode p { d with drops := satAdd 0xFFFF_FFFF d.drops 1 }

/-- A port sends packets: it is `UP` and its neighbour's latest hello shows a state that takes them (R314). -/
def Port.open (q : Port) : Bool :=
  q.st == 3 && (match q.nb with
    | some nb => nb.state == 2 || nb.state == 3 || nb.state == 5
    | none => false)

/-- The node's ports that may be used towards a destination (R316, R320). -/
def State.usable (s : State) (p dest : Nat) : List Nat :=
  (s.portsOf p).filter (fun n => (s.port n).st == 3 && !(s.port n).withdrawn.contains dest)

/-- The ports of a list that a mask names. -/
def masked (mask : Nat) (ns : List Nat) : List Nat := ns.filter (fun n => mask.testBit n)

/-- The effective port set for a destination; empty where it is unreachable (R316). -/
def State.routeSet (s : State) (p dest : Nat) : List Nat :=
  let own := s.moduleId p
  let t := (s.node p).active
  let e := if dest / 256 ≠ own / 256 then SMap.get ⟨0, 0, false⟩ (dest / 256) t.groups
    else SMap.get ⟨0, 0, false⟩ (dest % 256) t.members
  if !e.valid then [] else
  let u := s.usable p dest
  if masked e.primary u = [] then masked e.alternate u else masked e.primary u

/-- The port that a packet takes of its set (port choice after R319): by rotation on TC0, by credits on TC1 and TC2. -/
def State.choosePort (s : State) (tc vl dest : Nat) (set : List Nat) : Option Nat :=
  if tc = 0 then ((List.range 32).map (fun i => (dest + i) % 32)).find? set.contains
  else
    set.foldl (fun (best : Option Nat) n =>
      match best with
      | none => some n
      | some b => if (s.port b).credits.getD (2 * tc + vl) 0 < (s.port n).credits.getD (2 * tc + vl) 0 then some n
          else some b) none

/-- The virtual lane of a packet that leaves node `p` (R309). A broadcast, which has no one destination, stays on lane 0:
DESIGN CHOICE (log 12). -/
def State.laneFor (s : State) (p : Nat) (k : Packet) : Nat :=
  if !k.bcast && k.dest / 256 == s.moduleId p / 256 then 1 else 0

/-- Counts a TC0 message that breaks a condition of R312 and raises E_TC0_BOUND in the first second of it. Cause 0 is the
hop count, cause 1 the queue. -/
def State.tc0Void (s : State) (p n cause : Nat) : State :=
  let d := s.node p
  let sec := s.ft / 10 ^ 9
  let d1 := if cause = 0 then { d with voidHops := satAdd 0xFFFF d.voidHops 1 }
    else { d with voidQueue := satAdd 0xFFFF d.voidQueue 1 }
  let s1 := s.setNode p { d1 with voidAt := setAt d1.voidAt cause (some sec) }
  if d.voidAt.getD cause none = some sec then s1 else s1.postEvent (.vf p) Code.tc0Bound (toLe 1 n ++ toLe 1 cause)

/-- Merges a counting message into one that waits already (R311). -/
def mergeCount (es : List EPkt) (k : Packet) : Option (List EPkt) :=
  let same (e : EPkt) : Bool :=
    e.pkt.kind == k.kind && e.pkt.dest == k.dest && e.pkt.fgroup == k.fgroup && e.pkt.key % 65536 == k.key % 65536
      && e.sent == 0 && decide (e.pkt.key / 65536 + k.key / 65536 ≤ 65535)
  if (k.kind = 0x10 ∨ k.kind = 0x11) ∧ es.any same then
    let i := es.findIdx same
    some (modAt es i (fun e => { e with pkt := { e.pkt with key := e.pkt.key + k.key / 65536 * 65536 } }))
  else none

/-- A packet joins the egress queue of port `n` of node `p`. -/
def State.joinEgress (s : State) (p n : Nat) (e : EPkt) : State :=
  let q := s.port n
  if e.tc ≠ 0 then s.setPort n { q with egress := q.egress ++ [e] } else
  let depth := q.egress.countP (fun x => x.tc == 0)
  match mergeCount q.egress e.pkt with
  | some es =>
    let s1 := s.setPort n { q with egress := es }
    let g := s1.port e.ingress
    if e.ingress < 32 then s1.setPort e.ingress { g with owed := modAt g.owed e.inVl (· + 1) } else s1
  | none =>
    let late := decide (16 ≤ depth)
    let s1 := s.setPort n { q with egress := q.egress ++ [e], qMax := max q.qMax (min 127 (depth + 1)),
                                   qOver := satAdd 0xFFFF q.qOver (b2n late) }
    if late then s1.tc0Void p n 1 else s1

/-! ## Egress service -/

/-- Whether a waiting packet has a credit for its next flit. -/
def Port.credited (q : Port) (e : EPkt) : Bool := q.credits.getD (2 * e.tc + e.vl) 0 != 0

/-- The packet of a class that sends next: one in progress, else by rotation over the ingress ports (R307). -/
def Port.nextOf (q : Port) (tc : Nat) : Option Nat :=
  let idx := (List.range q.egress.length).filter (fun i => match q.egress[i]? with
    | some e => e.tc == tc
    | none => false)
  let get (i : Nat) : EPkt := q.egress.getD i ⟨⟨0, 0, 0, 0, false, 0, 0, 0, 0, 0, 0, []⟩, 0, 0, 0, 0, 0⟩
  match idx.find? (fun i => (get i).sent != 0) with
  | some i => if q.credited (get i) then some i else none
  | none =>
    let order := (List.range 34).map (fun j => (q.lastIn.getD tc 0 + 1 + j) % 34)
    order.findSome? (fun g => idx.find? (fun i => (get i).ingress == g && q.credited (get i)))

/-- The index of the packet whose flit the port sends next: TC0 first, then TC1 before TC2, but for one slot in 8 that TC2
takes when it waits (R307). -/
def Port.pick (q : Port) : Option Nat :=
  match q.nextOf 0 with
  | some i => some i
  | none =>
    let a := if q.slot % 8 = 7 then q.nextOf 2 else q.nextOf 1
    match a with
    | some i => some i
    | none => if q.slot % 8 = 7 then q.nextOf 1 else q.nextOf 2

/-- Sends the next flit of packet `i` of a port's queue: it takes a credit, enters the replay buffer, and frees its place
in the buffer it came from (R298, R308). -/
def State.sendNext (s : State) (n i : Nat) : State :=
  let q := s.port n
  match q.egress[i]? with
  | none => s
  | some e =>
    let total := e.pkt.flits
    let last := decide (total ≤ e.sent + 1)
    let r := s.sendFlit n 1 e.tc e.vl (e.sent == 0) last q.txSeq ((e.pkt.bytes.drop (244 * e.sent)).take 244)
    let q1 := r.1.port n
    let s1 := r.1.setPort n { q1 with
      txSeq := (q1.txSeq + 1) % 4096, replay := q1.replay ++ [(q.txSeq, r.2)]
      credits := modAt q1.credits (2 * e.tc + e.vl) (· - 1)
      slot := if e.tc = 0 then q1.slot else q1.slot + 1
      lastIn := setAt q1.lastIn e.tc e.ingress
      egress := if last then q1.egress.eraseIdx i else modAt q1.egress i (fun x => { x with sent := x.sent + 1 }) }
    if e.ingress < 32 then
      let g := s1.port e.ingress
      s1.setPort e.ingress { g with owed := modAt g.owed (2 * e.tc + e.inVl) (· + 1) }
    else s1

/-- Sends what a port may send, at most `fuel` flits. -/
def State.pumpN (s : State) (n : Nat) : Nat → State
  | 0 => s
  | fuel + 1 =>
    let q := s.port n
    if q.open && decide (q.replay.length < 512) then
      match q.pick with
      | some i => (s.sendNext n i).pumpN n fuel
      | none => s
    else s

/-- Sends what a port may send now. -/
def State.pump (s : State) (n : Nat) : State :=
  s.pumpN n ((s.port n).egress.map (fun e => e.pkt.flits)).sum

/-! ## Sending -/

/-- A packet of node `p` joins the queue of port `n` and the port sends. -/
def State.egressTo (s : State) (p n tc vl ingress inVl : Nat) (k : Packet) : State :=
  (s.joinEgress p n ⟨k, tc, vl, ingress, inVl, 0⟩).pump n

/-- Sends a unicast packet of node `p`, pinned to a port when one is named; false when no port is usable (R227, R316,
R320). -/
def State.sendUnicast (s : State) (p tc ingress inVl : Nat) (pin : Option Nat) (k : Packet) : State × Bool :=
  let vl := s.laneFor p k
  let set := match pin with
    | some n => if (s.usable p k.dest).contains n then [n] else []
    | none => s.routeSet p k.dest
  match s.choosePort tc vl k.dest set with
  | some n => (s.egressTo p n tc vl ingress inVl k, true)
  | none => (s, false)

/-- Sends a broadcast packet of node `p` on a set of ports; a port of the tree that is not `UP` is counted (R318). -/
def State.sendTree (s : State) (p tc ingress inVl : Nat) (ns : List Nat) (k : Packet) : State :=
  ns.foldl (fun acc n =>
    if (acc.port n).st = 3 then acc.egressTo p n tc (acc.laneFor p k) ingress inVl k else acc.dropPacket p) s

/-- The ports of the broadcast tree of a fabric group, when its entry is valid (R318). -/
def State.treePorts (s : State) (p fg : Nat) : Option (List Nat) :=
  let e := SMap.get ⟨0, false⟩ fg (s.node p).active.trees
  if e.valid then some (masked e.tree (s.portsOf p)) else none

/-- A packet that node `p` originates. -/
def State.newPacket (s : State) (p dest kind : Nat) (bcast : Bool) (addr len txn key : Nat) (data : Bytes) : Packet :=
  { dest := if bcast then s.moduleId p else dest, src := s.moduleId p, kind, hops := 0, bcast, fgroup := s.fgroup p, addr,
    len, txn, key, status := 0, data }

/-- A packet reaches the node it names: it waits in the inbox for its own command. -/
def State.toInbox (s : State) (p n tc : Nat) (k : Packet) : State :=
  let d := s.node p
  s.setNode p { d with inbox := d.inbox ++ [(n, tc, k)] }

/-- Sends a packet of node `p` that originates there: to itself without the fabric, over the group's tree, or by route.
False when it is a unicast for which no port is usable; any other that cannot leave is counted (R318, R320). -/
def State.originate (s : State) (p tc : Nat) (pin : Option Nat) (k : Packet) : State × Bool :=
  if k.bcast then
    match s.treePorts p k.fgroup with
    | some ns => (s.sendTree p tc 32 0 ns k, true)
    | none => (s.dropPacket p, true)
  else if k.dest = s.moduleId p then (s.toInbox p 32 tc k, true)
  else s.sendUnicast p tc 32 0 pin k

/-- A TC0 message of the node waits in front of the token bucket (R310). -/
def State.queueTc0 (s : State) (p : Nat) (k : Packet) : State :=
  let d := s.node p
  s.setNode p { d with tc0 := d.tc0 ++ [k] }

/-- The node's next transaction number. -/
def State.newTxn (s : State) (p : Nat) (w : Waiter) : State × Nat :=
  let d := s.node p
  (s.setNode p { d with nextTxn := (d.nextTxn + 1) % 65536, waiters := SMap.set none d.nextTxn (some w) d.waiters }, d.nextTxn)

/-- Takes the waiter of a transaction. -/
def State.takeWaiter (s : State) (p txn : Nat) : State × Option Waiter :=
  let d := s.node p
  (s.setNode p { d with waiters := SMap.erase txn d.waiters }, SMap.get none txn d.waiters)

/-- Answers a request packet with a response of a kind, in the request's class (R304). An answer that has no usable port is
counted (R320). -/
def State.respond (s : State) (p tc : Nat) (req : Packet) (kind status : Nat) (data : Bytes) : State :=
  let k := { s.newPacket p req.src kind false req.addr data.length req.txn req.key data with fgroup := s.fgroup p, status }
  if tc = 0 then s.queueTc0 p k else
  let r := s.originate p tc none k
  if r.2 then r.1 else r.1.dropPacket p

/-- The answer to a request that cannot go on: an `ERROR_RESP` for a `WRITE` or `READ`, a count for any other (R305,
R320). A `CHAIN` packet, which R339 answers too, gets the error as well. -/
def State.refusePacket (s : State) (p tc cause : Nat) (k : Packet) : State :=
  if k.kind = 0x01 ∨ k.kind = 0x02 ∨ k.kind = 0x20 then s.respond p tc k 0x05 cause [] else s.dropPacket p

/-! ## Reception -/

/-- A packet is checked against the group of the node it names (R305): responses, management and link-local packets are
not. -/
def kindChecked (kind : Nat) : Bool := kind ∈ [0x01, 0x02, 0x10, 0x11, 0x12, 0x13, 0x20, 0x21]

/-- E_SIGNAL_DROPPED with its detail (R496). -/
def State.signalDropped (s : State) (p why : Nat) (k : Packet) : State :=
  (s.dropPacket p).postEvent (.vf p) Code.signalDropped
    (toLe 2 k.src ++ toLe 2 (bits k.key 0 9) ++ toLe 1 (bits k.key 9 5) ++ toLe 1 why ++ toLe 2 (k.key / 65536))

/-- A packet that names node `p` is refused or delivered (R305, R314). -/
def State.deliver (s : State) (p n tc : Nat) (k : Packet) : State :=
  let s1 := if tc = 0 ∧ 12 < k.hops then s.tc0Void p n 0 else s
  if kindChecked k.kind ∧ k.fgroup ≠ s.fgroup p then
    (if k.kind = 0x10 then s1.signalDropped p 2 k else s1.refusePacket p tc 5 k)
  else if (s.nodeState p = 3 ∨ s.nodeState p = 4) then
    (if k.kind = 0x10 then s1.signalDropped p 1 k else s1.refusePacket p tc 5 k)
  else s1.toInbox p n tc k

/-- A node that forwards transit traffic (R314). -/
def State.forwards (s : State) (p : Nat) : Bool := s.nodeState p == 2 || s.nodeState p == 3 || s.nodeState p == 5

/-- Sends an `UNREACHABLE` notice back on an ingress port, at most once per destination per millisecond (R320). -/
def State.notice (s : State) (p n dest : Nat) : State :=
  let q := s.port n
  if 32 ≤ n then s else
  let last := SMap.get 0 dest q.notices
  if last ≠ 0 ∧ s.ft < last + 10 ^ 6 then s else
  let s1 := s.setPort n { q with notices := SMap.set 0 dest (max 1 s.ft) q.notices }
  s1.egressTo p n 0 0 32 0 (s1.newPacket p ((q.nb.map (·.id)).getD 0) 0x1C false 0 0 0 dest [])

/-- A transit packet is forwarded by its route; one that cannot be is answered or counted, and its ingress port is told
(R314, R319, R320). True when it waits in an egress queue, where its flits free their places in the receive buffer as
they leave. -/
def State.forward (s : State) (p n tc vl : Nat) (k : Packet) : State × Bool :=
  if !s.forwards p then (s.dropPacket p, false)
  else if 63 ≤ k.hops then
    (if k.kind = 0x01 ∨ k.kind = 0x02 then (s.dropPacket p).respond p tc k 0x05 4 [] else s.dropPacket p, false)
  else
    let s1 := if tc = 0 ∧ 12 < k.hops then s.tc0Void p n 0 else s
    let r := s1.sendUnicast p tc n vl none { k with hops := k.hops + 1 }
    if r.2 then r else ((r.1.notice p n k.dest).refusePacket p tc 4 k, false)

/-- A broadcast packet arrives on port `n`: forwarded on the rest of the tree and delivered in its group (R318). -/
def State.takeBroadcast (s : State) (p n tc vl : Nat) (k : Packet) : State :=
  match s.treePorts p k.fgroup with
  | some ns =>
    if !ns.contains n then s.dropPacket p else
    let s1 := if !s.forwards p then s
      else if 63 ≤ k.hops then s.dropPacket p
      else s.sendTree p tc 33 vl (ns.filter (· != n)) { k with hops := k.hops + 1 }
    if s.fgroup p = k.fgroup ∧ s.fabricOn p then s1.deliver p n tc k else s1
  | none => s.dropPacket p

/-- A whole packet has arrived on port `n` in `flits` flits: its place in the receive buffer frees when it is delivered,
discarded or its flits have left (R304, R308). -/
def State.takePacket (s : State) (n tc vl flits : Nat) (bs : Bytes) : State :=
  let p := s.nodeOf n
  let q := s.port n
  let free := s.setPort n { q with owed := modAt q.owed (2 * tc + vl) (· + flits) }
  match Packet.read bs with
  | none => free.dropPacket p
  | some k =>
    if !k.ok tc flits then free.dropPacket p
    else if k.bcast then free.takeBroadcast p n tc vl k
    else if k.kind = 0x1C then free.toInbox p n tc k
    else if k.dest = s.moduleId p ∧ s.moduleId p ≠ 0 then free.deliver p n tc k
    else
      let r := s.forward p n tc vl k
      if r.2 then r.1
      else r.1.setPort n { r.1.port n with owed := modAt (r.1.port n).owed (2 * tc + vl) (· + flits) }

/-- What a flit's header brings back: the acknowledgement frees the replay buffer, the credits are added (R298, R308). -/
def Port.takeHeader (q : Port) (h : Nat) : Port :=
  let ack := bits h 21 12
  let keep := match q.replay.findIdx? (fun e => e.1 == ack) with
    | some i => q.replay.drop (i + 1)
    | none => q.replay
  let i := 2 * bits h 41 2 + bits h 43 1
  { q with replay := keep, credits := modAt q.credits i (· + bits h 44 6) }

/-- Sends a replay request that names the expected sequence number (R298). It stands in the `SEQ` field of the header. -/
def State.sendReplayRequest (s : State) (n : Nat) : State :=
  let q := s.port n
  (((s.gevent 4 n 5 1).setPort n { q with rxWait := true, replays := satAdd 0xFFFF q.replays 1 }).sendFlit n 4 0 0 false
    false q.rxSeq []).1

end Sys2Proof.Machine
end

