-- ==== Sys2Proof/Machine/Dma.lean ====
section
/-! DEFINITION. DMA channels (chapter 08): a record reaches its channel, descriptors are fetched, started, served request
by request, checked by their checksum and ended; bus errors, the watchdog and stale-watch windows. -/

namespace Sys2Proof.Machine

/-! ## Channels -/

/-- The channels of base die `b`: 16 that streams name and 2 of the module's own (R225). -/
def State.bdie (s : State) (b : Nat) : List Chn := SMap.get (List.replicate 18 Chn.reset) b s.bdies

/-- The state of a channel. -/
def State.chn (s : State) (ch : Chan) : Chn :=
  match ch with
  | .core l n => (s.lcore l).chans.getD n .reset
  | .bulk b n => (s.bdie b).getD n .reset

/-- Replaces the state of a channel. -/
def State.setChn (s : State) (ch : Chan) (x : Chn) : State :=
  match ch with
  | .core l n => s.setLcore l { s.lcore l with chans := setAt (s.lcore l).chans n x }
  | .bulk b n => { s with bdies := SMap.set (List.replicate 18 Chn.reset) b (setAt (s.bdie b) n x) s.bdies }

/-- The partition whose memory a channel reaches (R225). -/
def State.chanPart (s : State) (ch : Chan) : Nat :=
  match ch with
  | .core l _ => s.partOf l
  | .bulk b _ => s.partOfDie b

/-- A core DMA channel. -/
def chanIsCore : Chan → Bool
  | .core _ _ => true
  | .bulk _ _ => false

/-- Changes the run of a channel. -/
def State.modRun (s : State) (ch : Chan) (f : ChRun → ChRun) : State :=
  s.setChn ch { s.chn ch with run := (s.chn ch).run.map f }

/-- Changes the descriptor in progress of a channel. -/
def State.modCur (s : State) (ch : Chan) (f : Cur → Cur) : State :=
  s.modRun ch (fun r => { r with cur := r.cur.map f })

/-- The record of a channel's run has an outcome: the channel is free, and the record waits for its completion point. -/
def State.finishRun (s : State) (ch : Chan) (o : Outcome) : State :=
  match (s.chn ch).run with
  | none => s
  | some r =>
    let s1 := s.setChn ch { s.chn ch with run := none }
    let es := (s1.core r.core).queue 3
    s1.setCore r.core ((s1.core r.core).setQueue 3 (es.map (fun e =>
      if e.serial == r.serial then { e with phase := o.phase } else e)))

/-- The run that a record starts on its channel (R231, R239). -/
def newRun (c : Nat) (e : QEntry) (port count : Nat) (list : Loc) (sa da : Int) (sv : List Nat) (pairs : List (Nat × Nat)) :
    ChRun :=
  { core := c, serial := e.serial, port, count, next := 0, list, srcAdj := sa, dstAdj := da, sv, pairs, batch := [],
    cur := none, crc := 0xFFFFFFFF, led := {}, missed := [], err := none }

/-- A record reaches its channel: it waits while the channel runs another, completes with E_CHAN_HALTED on a halted one,
and runs otherwise (R195, R237, R242). -/
def State.startOnChannel (s : State) (c i : Nat) (e : QEntry) (ch : Chan) (r : ChRun) : State :=
  if (s.chn ch).run.isSome ∨ (s.chn ch).redo.isSome then s
  else if (s.chn ch).latch.isSome then s.startEntry c 3 i e (Outcome.bad Code.chanHalted 0).phase
  else
    let s1 := s.startEntry c 3 i e (.running 0)
    s1.setChn ch { s1.chn ch with run := some r }

/-- DMA: a record of the DMA queue runs a descriptor list on a core DMA channel (R191, R225). -/
def State.doDma (s : State) (l : Nat) : State :=
  match s.ready l 3 with
  | some (c, i, e) =>
    match e.op with
    | .dma n count list sa da sv pairs => s.startOnChannel c i e (.core l n) (newRun c e 0xFF count list sa da sv pairs)
    | _ => s
  | none => s

/-- BDMA: a record of the DMA queue runs a descriptor list on a bulk DMA channel (R191, R225, R227). -/
def State.doBdma (s : State) (l : Nat) : State :=
  match s.ready l 3 with
  | some (c, i, e) =>
    match e.op with
    | .bdma b n port count list sa da sv pairs => s.startOnChannel c i e (.bulk b n) (newRun c e port count list sa da sv pairs)
    | _ => s
  | none => s

/-! ## Fetch -/

/-- What a run's channel resolves addresses against (R231). -/
def State.runEnv (s : State) (r : ChRun) : AddrEnv :=
  { phys := r.core, sv := r.sv, pairs := r.pairs, cores := s.coresOf (s.partOfPhys r.core) }

/-- An error response stops the channel's issuing (R241); DMA_BUS_ERROR latches it. -/
def State.stopRun (s : State) (ch : Chan) (addr : Nat) (write : Bool) (index cause module : Nat) (remote : Bool) : State :=
  s.modRun ch (fun r => { r with err := some { addr, write, index, cause, module, remote } })

/-- A batch whose 64 B descriptors have arrived: all of them check, and the merged batch is ready, or the first that
does not fails the record (R228). -/
def State.takeBatch (s : State) (ch : Chan) (r : ChRun) (bs : Bytes) : State :=
  let n := bs.length / 64
  let ds := (List.range n).map (fun i =>
    readDesc (s.runEnv r) (chanIsCore ch) r.srcAdj r.dstAdj (r.next + i) ((bs.drop (64 * i)).take 64))
  match ds.findIdx? (·.isNone) with
  | some i => s.finishRun ch (.bad Code.badCmd (r.next + i))
  | none => s.modRun ch (fun r => { r with next := r.next + n, batch := mergeDescs [] ds.reduceOption })

/-- DESCRIPTOR_FETCH (R228): the next batch of up to 32 descriptors, once the previous batch has started its last. -/
def State.doDescriptorFetch (s : State) (ch : Chan) : State :=
  match (s.chn ch).run with
  | none => s
  | some r =>
    if r.err.isSome ∨ r.batch ≠ [] ∨ r.cur.isSome ∨ r.count ≤ r.next then s else
    let n := min 32 (r.count - r.next)
    let q := s.locRead (s.chanPart ch) (r.list.plus (64 * r.next)) (64 * n)
    match q.2 with
    | .ok bs => q.1.takeBatch ch r bs
    | .error (cause, addr) => q.1.stopRun ch addr false r.next cause 0 false

/-! ## Start -/

/-- 1/f_ceil of a cooling class, as stream cycles per 4 ns times 1 (R244): cycles in 20 ns. -/
def ceilCycles20 (cls : Nat) : Nat := if cls = 0 then 15 else if cls = 1 then 24 else 30

/-- The fabric time of a stream-cycle count (R244). -/
def streamTime (cls start cycles : Nat) : Nat := start + cycles * 20 / ceilCycles20 cls

/-- The fabric time that a descriptor's requests are tagged with (R244). -/
def State.tagOf (s : State) (c : Nat) (d : Desc) : Nat :=
  if d.dlMode = 1 then streamTime s.cls (((s.core c).seq.startFt).getD s.ft) d.deadline
  else if d.dlMode = 2 then d.deadline else s.ft + 50000

/-- The reads of one row of a copy. -/
def rowReads (d : Desc) (row : Nat) : List (Loc × Nat) := locPieces (d.srcRow row) d.rowBytes

/-- A descriptor starts: its requests are tagged and its first reads planned (R232, R234, R244). A conversion's headers
are read and checked first. -/
def State.beginDesc (s : State) (ch : Chan) (r : ChRun) (d : Desc) (lens : List (Nat × Nat)) (redo : Option Nat) : State :=
  let tag := s.tagOf r.core d
  let s := if chanIsCore ch then s.event r.core 0x0402 1 else s
  let cur (conv : Option (Tensor × Tensor)) (reads : List (Loc × Nat)) : Cur :=
    { desc := d, lens, conv, reads, buf := [], writes := [], row := 0, tag, remote := none, lost := false, redo }
  if d.conv = 0 then s.modRun ch (fun r => { r with cur := some (cur none (rowReads d 0)) })
  else
    let p := s.chanPart ch
    let a := s.locRead p d.src 64
    let b := a.1.locRead p d.dst 64
    match a.2, b.2 with
    | .error (c, x), _ => a.1.stopRun ch x false d.index c 0 false
    | _, .error (c, x) => b.1.stopRun ch x false d.index c 0 false
    | .ok x, .ok y =>
      match readHeader (s.runEnv r) x, readHeader (s.runEnv r) y with
      | some t, some u =>
        if convOk d.conv t u && planesNamed t && planesNamed u then
          b.1.modRun ch (fun r => { r with
            cur := some (cur (some (t, u)) ((convRanges d t u).flatMap (fun e => locPieces e.1 e.2))) })
        else b.1.finishRun ch (.bad Code.badCmd d.index)
      | _, _ => b.1.finishRun ch (.bad Code.badCmd d.index)

/-- The window that a watched descriptor names is armed for an earlier consumer (R252). -/
def State.windowBusy (s : State) (c : Nat) (d : Desc) : Bool :=
  d.watch && ((s.core c).watches.getD d.win .reset).armed

/-- DESCRIPTOR_START (R244): a re-issue first (R253), else the next descriptor of the batch, which waits while its
window is still open (R252). -/
def State.doDescriptorStart (s : State) (ch : Chan) : State :=
  match (s.chn ch).run, (s.chn ch).redo with
  | some r, _ =>
    if r.err.isSome ∨ r.cur.isSome then s else
    match r.batch with
    | [] => s
    | (d, lens) :: rest =>
      if s.windowBusy r.core d then s else
      (s.modRun ch (fun r => { r with batch := rest })).beginDesc ch r d lens none
  | none, some (d, w) =>
    match ch with
    | .core l _ =>
      match s.physOf l with
      | none => s
      | some c =>
        let r : ChRun := { core := c, serial := 0, port := 0xFF, count := 0, next := 0, list := d.src, srcAdj := 0, dstAdj := 0,
                           sv := [], pairs := [], batch := [], cur := none, crc := 0xFFFFFFFF, led := {}, missed := [],
                           err := none }
        let s1 := s.setChn ch { s.chn ch with run := some r, redo := none }
        s1.beginDesc ch r d [(d.rowBytes, d.index)] (some w)
    | .bulk _ _ => s
  | none, none => s

/-! ## Requests -/

/-- A remote request goes out on TC2 as a transaction of the channel, or fails at once where no port is usable (R227,
R320). -/
def State.sendRemote (s : State) (ch : Chan) (r : ChRun) (d : Desc) (kind addr len : Nat) (data : Bytes) (write : Bool)
    (index : Nat) : State :=
  let p := s.chanPart ch
  let t := s.newTxn p (.dma ch)
  let k := t.1.newPacket p d.module kind false addr len t.2 0 data
  let q := t.1.originate p 2 (if r.port = 0xFF then none else some r.port) k
  if q.2 then q.1.modCur ch (fun c => { c with remote := some t.2 })
  else (q.1.takeWaiter p t.2).1.stopRun ch addr write index 4 d.module true

/-- The lines of a watched range. -/
def watchLines (d : Desc) : Nat × Nat := (lineOf d.src.num, alignUp (d.src.num + d.extent) 256)

/-- The consumer of a window among the records already dispatched (R252): the first after the DMA record with its
tag. -/
def Core.consumerOf (k : Core) (after tag : Nat) : Nat :=
  (((k.entries.filter (fun e => decide (after < e.serial) && e.tag == tag)).map (·.serial)).min?).getD 0

/-- A line of a watched source has been read: the first read arms the window, and every line read is watched from then
on (R252). A re-issue finds its window armed. -/
def State.watchRead (s : State) (ch : Chan) (r : ChRun) (c : Cur) (line : Nat) : State :=
  let d := c.desc
  if !d.watch then s else
  let k := s.core r.core
  let w := k.watches.getD d.win .reset
  let n : Nat := match ch with
    | .core _ n => n
    | .bulk _ n => n
  let w1 : Watch := if w.armed then w else
    { armed := true, tag := d.watchTag, recSerial := k.consumerOf r.serial d.watchTag, lo := (watchLines d).1,
      hi := (watchLines d).2, served := [], flag := false, fresh := d.fresh, chan := n, desc := some d, reissued := false,
      redoing := false }
  s.setCore r.core { k with watches := setAt k.watches d.win { w1 with served := SMap.set false line true w1.served } }

/-- Adds written bytes to the running checksum when the descriptor asks (R239). -/
def addCrc (d : Desc) (r : ChRun) (bs : Bytes) : ChRun :=
  if d.crcEn then { r with crc := crcRun 0x82F63B78 r.crc bs } else r

/-- A descriptor has ended: a re-issue closes its hold; the record ends when its list has (R228, R238, R253). -/
def State.endDesc (s : State) (ch : Chan) : State :=
  match (s.chn ch).run with
  | none => s
  | some r =>
    let s1 := s.modRun ch (fun r => { r with cur := none })
    match r.cur.bind (·.redo) with
    | some w =>
      let k := s1.core r.core
      let f (x : Watch) : Watch := { x with redoing := false, reissued := true }
      let s2 := s1.setCore r.core { k with watches := modAt k.watches w f, wReissued := k.wReissued ||| 2 ^ w }
      s2.setChn ch { s2.chn ch with run := none }
    | none => if r.batch = [] ∧ r.count ≤ r.next then s1.finishRun ch (.good r.led) else s1

/-- The rows of a descriptor that are copied one after another. -/
def Cur.rowsLeft (c : Cur) : Bool := c.desc.conv == 0 && decide (c.row + 1 < c.desc.rows)

/-- Everything read of the row, or of the tensor, turns into writes (R232, R234, R235, R239). -/
def State.rowRead (s : State) (ch : Chan) (c : Cur) : State :=
  let d := c.desc
  if d.gtb then
    match gtImageFmt c.buf with
    | some f =>
      if f = .b16 ∧ d.dst.num ≠ 0 then s.finishRun ch (.bad Code.badCmd d.index)
      else s.modRun ch (fun r => { addCrc d r c.buf with cur := some { c with writes := [(d.dst, c.buf)], buf := [] } })
    | none => s.finishRun ch (.bad Code.badCmd d.index)
  else
    match c.conv with
    | some (t, u) =>
      let v := convertAll d ⟨t, c.buf⟩ u
      let hdr := d.dst.plus 1
      let fl := u8 (s.peek (s.chanPart ch) hdr 1) 0
      let body := v.writes.flatMap (·.2)
      s.modRun ch (fun r => { addCrc d r body with
        led := r.led.add v.led
        cur := some { c with writes := v.writes ++ [(hdr, toLe 1 (fl % 2 + 2 * b2n v.pow2))], buf := [] } })
    | none =>
      let bs := widthRow d c.buf
      s.modRun ch (fun r => { addCrc d r bs with
        cur := some { c with writes := locWritePieces (d.dstRow c.row) bs, buf := [] } })

/-- A read of the descriptor in progress has answered with bytes (R251). -/
def State.gotRead (s : State) (ch : Chan) (bs : Bytes) : State :=
  match (s.chn ch).run with
  | none => s
  | some r =>
    match r.cur with
    | none => s
    | some c =>
      match c.reads with
      | [] => s
      | (l, _) :: rest =>
        let s0 := if chanIsCore ch then s.event r.core 0x0400 bs.length else s
        let s1 := s0.watchRead ch r c (lineOf (s.bankAddr (s.chanPart ch) l.num))
        let c1 := { c with reads := rest, buf := c.buf ++ bs, remote := none, lost := false }
        let s2 := s1.modRun ch (fun r => { r with cur := some c1 })
        if rest = [] then s2.rowRead ch c1 else s2

/-- A write of the descriptor in progress has been answered: the next row, the checksum, or the end (R238, R240). -/
def State.gotWrite (s : State) (ch : Chan) : State :=
  match (s.chn ch).run with
  | none => s
  | some r =>
    match r.cur with
    | none => s
    | some c =>
      let rest := c.writes.drop 1
      let c1 := { c with writes := rest, remote := none, lost := false }
      if rest ≠ [] then s.modRun ch (fun r => { r with cur := some c1 })
      else if c1.rowsLeft then
        s.modRun ch (fun r => { r with cur := some { c1 with row := c1.row + 1, reads := rowReads c1.desc (c1.row + 1) } })
      else
        let s1 := s.modRun ch (fun r => { r with cur := some c1 })
        if c1.desc.crcWrite || c1.desc.crcCheck then s1 else s1.endDesc ch

/-- The index of the descriptor that holds an address of the transfer (R241). -/
def Cur.holder (c : Cur) (l : Loc) (write : Bool) : Nat :=
  indexAt c.lens (l.num - (if write then c.desc.dst else c.desc.src).num) c.desc.index

/-- Reads one piece at a location under an environment's fault. -/
def State.locReadFlt (s : State) (p : Nat) (l : Loc) (n : Nat) (flt : MemFault) : State × Except (Nat × Nat) Bytes :=
  match l with
  | .dev a =>
    let r := s.readLine p a n false flt
    (r.1, match r.2 with
      | .ok b => .ok b
      | .error c => .error (c, a))
  | .cst _ _ => s.locRead p l n

/-- Writes one piece at a location under an environment's fault. -/
def State.locWriteFlt (s : State) (p : Nat) (l : Loc) (bs : Bytes) (flt : MemFault) : State × Except (Nat × Nat) Unit :=
  match l with
  | .dev a =>
    let r := s.writeLine p a bs false flt
    (r.1, match r.2 with
      | .ok b => .ok b
      | .error c => .error (c, a))
  | .cst _ _ => s.locWrite p l bs

/-- READ_REQUEST (R267): the next read of a channel is served by its home slice or core store, or goes to the remote
module. -/
def State.doReadRequest (s : State) (ch : Chan) (flt : MemFault) : State :=
  match (s.chn ch).run with
  | none => s
  | some r =>
    match r.cur with
    | none => s
    | some c =>
      match c.reads with
      | [] => s
      | (l, n) :: _ =>
        if r.err.isSome ∨ c.remote.isSome ∨ c.lost then s
        else if c.desc.remSrc then s.sendRemote ch r c.desc 0x02 l.num n [] false (c.holder l false)
        else if flt = .noResponse then s.modCur ch (fun c => { c with lost := true })
        else
          let q := s.locReadFlt (s.chanPart ch) l n flt
          match q.2 with
          | .ok bs => q.1.gotRead ch bs
          | .error (cause, addr) => q.1.stopRun ch addr false (c.holder l false) cause 0 false

/-- A gradient tile image goes into its half, or into both for B16, and its scale and offsets into the side register
(R125, R128, R235). -/
def Core.loadTile (k : Core) (half : Nat) (image : Bytes) : Core :=
  let e := image.length - 64
  { k with gtb := k.gtb.writeN (2048 * half) (image.take e)
           sides := setAt k.sides half ⟨u16 image (e + 4), u32 image e⟩ }

/-- What one write of a core DMA channel counts (R461). -/
def State.wroteEvents (s : State) (c : Nat) (l : Loc) (n : Nat) : State :=
  let s1 := s.event c 0x0401 n
  match l with
  | .dev a => if a < hbmWindow ∧ n < 256 then s1.event c 0x0403 1 else s1
  | .cst _ _ => s1

/-- WRITE_REQUEST (R267): the next write of a channel takes effect at its home slice or core store, or goes to the remote
module. -/
def State.doWriteRequest (s : State) (ch : Chan) (flt : MemFault) : State :=
  match (s.chn ch).run with
  | none => s
  | some r =>
    match r.cur with
    | none => s
    | some c =>
      match c.writes with
      | [] => s
      | (l, bs) :: _ =>
        if r.err.isSome ∨ c.remote.isSome ∨ c.lost then s
        else if c.desc.gtb then (s.setCore r.core ((s.core r.core).loadTile l.num bs)).gotWrite ch
        else if c.desc.remDst then s.sendRemote ch r c.desc 0x01 l.num bs.length bs true (c.holder l true)
        else if flt = .noResponse then s.modCur ch (fun c => { c with lost := true })
        else
          let q := s.locWriteFlt (s.chanPart ch) l bs flt
          match q.2 with
          | .ok _ => (if chanIsCore ch then q.1.wroteEvents r.core l bs.length else q.1).gotWrite ch
          | .error (cause, addr) => q.1.stopRun ch addr true (c.holder l true) cause 0 false

/-- CRC_FINISH (R240): once the descriptor's data writes are out, the checksum is finished and written, or compared. -/
def State.doCrcFinish (s : State) (ch : Chan) : State :=
  match (s.chn ch).run with
  | none => s
  | some r =>
    match r.cur with
    | none => s
    | some c =>
      let d := c.desc
      if r.err.isSome ∨ c.reads ≠ [] ∨ c.writes ≠ [] ∨ c.rowsLeft ∨ !(d.crcWrite || d.crcCheck) then s else
      let v := r.crc ^^^ 0xFFFFFFFF
      let s0 := s.modRun ch (fun r => { r with crc := 0xFFFFFFFF })
      if d.crcWrite then
        let q := s0.devWrite (s.chanPart ch) d.crcAddr (toLe 4 v) false
        match q.2 with
        | .ok _ => q.1.endDesc ch
        | .error (cause, addr) => q.1.stopRun ch addr true d.index cause 0 false
      else
        let q := s0.devRead (s.chanPart ch) d.crcAddr 4 false
        match q.2 with
        | .ok bs =>
          if fromLe bs = v then q.1.endDesc ch else q.1.finishRun ch (.bad Code.crcMismatch (v + 2 ^ 32 * fromLe bs))
        | .error (cause, addr) => q.1.stopRun ch addr false d.index cause 0 false

/-- DMA_BUS_ERROR (R241): the channel halts with its latch set and its record fails. -/
def State.doDmaBusError (s : State) (ch : Chan) : State :=
  match (s.chn ch).run with
  | none => s
  | some r =>
    match r.err with
    | none => s
    | some e =>
      let s1 := s.setChn ch { s.chn ch with latch := some e }
      s1.finishRun ch (.bad Code.busErr e.addr)

/-- What a lost write leaves: of each byte either the old or the new value, a free choice (R269). -/
def State.lostWrite (s : State) (p : Nat) (l : Loc) (bs : Bytes) : State :=
  let r := s.fresh
  let mask := (List.range (ceilDiv bs.length 64 + 1)).map (fun i => Config.freeValue (r.1 + i))
  let s1 := { r.2 with freeCtr := r.2.freeCtr + mask.length }
  let old := s.peek p l bs.length
  let new := bs.zipIdx.map (fun e => if (mask.getD (e.2 / 64) 0).getLsbD (e.2 % 64) then e.1 else old.getD e.2 0)
  (s1.locWriteFlt p l new .clean).1

/-- REQUEST_WATCHDOG (R269): the request without response ends with an error response of cause 4 and E_REQ_WATCHDOG. -/
def State.doRequestWatchdog (s : State) (ch : Chan) : State :=
  match (s.chn ch).run with
  | none => s
  | some r =>
    match r.cur with
    | none => s
    | some c =>
      if r.err.isSome || (!c.lost && c.remote.isNone) then s else
      let p := s.chanPart ch
      let write := c.reads.isEmpty
      let l := if write then (c.writes.headD (c.desc.dst, [])).1 else (c.reads.headD (c.desc.src, 0)).1
      let bs := (c.writes.headD (c.desc.dst, [])).2
      let len := if write then bs.length else (c.reads.headD (c.desc.src, 0)).2
      let s1 := match c.remote with
        | some t => (s.takeWaiter p t).1
        | none => if write then s.lostWrite p l bs else s
      let s2 := s1.postEvent (.vf p) Code.reqWatchdog
        (s.watchdogDetail p (if c.remote.isSome then none else some l) l.num len)
      s2.stopRun ch l.num write (c.holder l write) 4 (if c.remote.isSome then c.desc.module else 0) c.remote.isSome

/-- CLEAR (R242): the channel's latch and `HALTED` are cleared. -/
def State.doClear (s : State) (ch : Chan) : State := s.setChn ch { s.chn ch with latch := none }

/-! ## Stale-watch windows -/

/-- The window that holds the record at the head of a queue, its index first (R253). -/
def Core.holding (k : Core) (e : QEntry) : Option (Nat × Watch) :=
  (k.watches.zipIdx.find? (fun x => x.1.armed && x.1.recSerial == e.serial && x.1.flag && x.1.fresh && !x.1.redoing)).map
    (fun x => (x.2, x.1))

/-- STALE_CHECK (R253): the consumer at the head of a queue, its token wait satisfied, finds its window's flag set. The
first time its descriptor runs once more; after that the consumer completes with E_STALE and never starts. -/
def State.doStaleCheck (s : State) (l q : Nat) : State :=
  match s.physOf l with
  | none => s
  | some c =>
    let k := s.core c
    match firstWaiting 0 (k.queue q) with
    | none => s
    | some (i, e) =>
      if !k.waitOk e || k.behindBarrier e.serial then s else
      match k.holding e with
      | none => s
      | some (w, x) =>
        if x.reissued then s.startEntry c q i e (Outcome.bad Code.stale 0).phase
        else
          match x.desc with
          | none => s
          | some d =>
            let f (y : Watch) : Watch := { y with flag := false, redoing := true, served := [] }
            let s1 := s.setCore c { k with watches := modAt k.watches w f }
            s1.setChn (.core l x.chan) { s1.chn (.core l x.chan) with redo := some (d, w) }

end Sys2Proof.Machine
end

