-- ==== Sys2Proof/Machine/Barriers.lean ====
section
/-! DEFINITION. Partition barriers (R210 to R213): arrival, release, and the halting of every core of a partition. -/

namespace Sys2Proof.Machine

/-- The `BAR_SEQ` at which a core waits, and whether its barrier is a fabric barrier. -/
def Core.barrierScope (k : Core) : Option (Nat × Nat) :=
  match k.queue 4 with
  | e :: _ => match e.op, k.seq.arrived with
    | .barrier q sc, some _ => some (q, sc)
    | _, _ => none
  | [] => none

/-- Every stream of the partition waits at a barrier; cores without a stream count as arrived (R176, R211). -/
def State.allArrived (s : State) (p : Nat) : Bool :=
  (s.streamCores p).all (fun c => ((s.core c).barrierScope).isSome) && !(s.streamCores p).isEmpty

/-- The barriers at which the cores of a partition wait. -/
def State.arrivals (s : State) (p : Nat) : List (Nat × Nat) := (s.streamCores p).filterMap (fun c => (s.core c).barrierScope)

/-- The barrier of one core releases: its record is done and waits for its completion point (R211). -/
def Core.release (k : Core) : Core :=
  match k.seq.arrived with
  | none => k
  | some _ =>
    { k with seq := { k.seq with arrived := none }
             queues := modAt k.queues 4 (fun q => modAt q 0 (fun e => { e with phase := .done Code.ok {} 0 0 })) }

/-- The barrier of a partition releases: the release reaches every core (R211). -/
def State.releaseBarrier (s : State) (p : Nat) : State :=
  (s.streamCores p).foldl (fun acc c => acc.setCore c (acc.core c).release) (s.setPart p { s.part p with fabWait := false })

/-- Halts the stream of a core for what its partition's barriers did: the barrier at which it waits fails, or no record does
(R211, R334). -/
def State.haltCore (s : State) (c code : Nat) : State :=
  let k := s.core c
  match k.seq.arrived, k.queue 4 with
  | some _, e :: _ => s.failOne c e code 0
  | _, _ =>
    let r := s.blankFailure code
    r.1.haltOne c r.2

/-- Halts every core of a partition (R211, R334). -/
def State.haltAll (s : State) (p code : Nat) : State := (s.streamCores p).foldl (fun acc c => acc.haltCore c code) s

end Sys2Proof.Machine
end

