-- ==== Sys2Proof/Machine/Exchange.lean ====
section
/-! DEFINITION. The gradient exchange's operations (chapter 11): ranks and shards, the chain, shard updates, publication,
commit and the flip. -/

namespace Sys2Proof.Machine

/-- The exchange of partition `p`. -/
def State.exch (s : State) (p : Nat) : Exch := (s.part p).exch
/-- Changes the exchange of partition `p`. -/
def State.modExch (s : State) (p : Nat) (f : Exch → Exch) : State :=
  s.setPart p { s.part p with exch := f (s.part p).exch }
/-- An event of the exchange with a 32-bit detail. -/
def State.exchEvent (s : State) (p code v : Nat) : State := s.postEvent (.vf p) code (toLe 4 v)

/-! ## Ranks and shards (R329, R336, R343) -/

/-- A rank is active. -/
def Exch.isActive (x : Exch) (r : Nat) : Bool := x.status.getD r 2 == 0
/-- The ranks from `r` on in rising order modulo G. -/
def ExTable.ring (t : ExTable) (r : Nat) : List Nat := (List.range t.g).map (fun i => (r + i) % t.g)
/-- The owner, or acting owner, of a shard (R329). -/
def Exch.owner (x : Exch) (t : ExTable) (s : Nat) : Option Nat := (t.ring s).find? x.isActive
/-- The buddy of a shard: the first active rank after its owner (R329). -/
def Exch.buddy (x : Exch) (t : ExTable) (s : Nat) : Option Nat :=
  match x.owner t s with
  | some o => ((t.ring (o + 1)).find? x.isActive).filter (· != o)
  | none => none
/-- The leader: the lowest active rank (R354). -/
def Exch.leader (x : Exch) (t : ExTable) : Option Nat := (List.range t.g).find? x.isActive
/-- The two ranks that back the leader (R354). -/
def Exch.backups (x : Exch) (t : ExTable) : List Nat := (((List.range t.g).filter x.isActive).drop 1).take 2

/-- The chain order of a shard: ranks s + 1 to s + G, the owner last (R336). -/
def ExTable.chainOrder (t : ExTable) (s : Nat) : List Nat := t.ring (s + 1)
/-- The sub-group of a rank (R343). -/
def ExTable.sub (t : ExTable) (r : Nat) : Nat := if t.subgroup = 0 then 0 else r / t.subgroup
/-- The ranks that a chain of a level visits: the active ones that are not marked failed; with sub-groups, those of one
sub-group at level 1 and the collectors at level 2 (R336, R343). -/
def Exch.visits (x : Exch) (t : ExTable) (level2 : Bool) (s sub : Nat) : List Nat :=
  let ok := (t.chainOrder s).filter (fun r => x.isActive r && !x.failed.contains r)
  if t.subgroup = 0 then ok
  else if level2 then
    ok.filter (fun r => ((ok.filter (fun q => t.sub q == t.sub r)).getLast?) == some r)
  else ok.filter (fun r => t.sub r == sub)
/-- The hop after rank `r` (R336). -/
def nextHop (visits : List Nat) (r : Nat) : Option Nat := ((visits.dropWhile (· != r)).drop 1).head?

/-- Elements of shard `s` (R329). -/
def ExTable.shardLen (t : ExTable) (s : Nat) : Nat := t.edges.getD (s + 1) 0 - t.edges.getD s 0
/-- Segments of shard `s` (R336). -/
def ExTable.segments (t : ExTable) (s : Nat) : Nat := ceilDiv (t.shardLen s) 504
/-- Values of segment `k`. -/
def ExTable.segLen (t : ExTable) (s k : Nat) : Nat := min 504 (t.shardLen s - 504 * k)

/-! ## Sending control and chain packets -/

/-- The 32 B payload of an exchange control packet (R353). -/
def ctrlBytes (epoch crc stateCrc count ftime gen : Nat) : Bytes :=
  toLe 4 epoch ++ toLe 4 crc ++ toLe 4 stateCrc ++ toLe 4 count ++ toLe 8 ftime ++ toLe 4 gen ++ toLe 4 0

/-- Sends an exchange control packet on TC0: broadcast, or to one rank (R353). -/
def State.sendCtrl (s : State) (p op arg : Nat) (dest : Option Nat) (body : Bytes) : State :=
  match dest with
  | none => s.queueTc0 p (s.newPacket p 0 0x13 true 0 body.length 0 (op + 256 * arg) body)
  | some id => s.queueTc0 p (s.newPacket p id 0x13 false 0 body.length 0 (op + 256 * arg) body)

/-- The module identifier of a rank. -/
def ExTable.idOf (t : ExTable) (r : Nat) : Nat := t.members.getD r 0

/-- The payload of a `CHAIN` packet (R338). -/
def chainBytes (x : Exch) (g : ChainSeg) : Bytes :=
  toLe 4 x.epoch ++ toLe 4 g.seg ++ toLe 2 g.vals.length ++ toLe 2 0 ++ toLe 4 g.contrib ++ toLe 4 x.gen
    ++ List.replicate 12 0 ++ g.vals.flatMap (toLe 4)

/-- Sends a segment to a rank on TC1 as a transaction of the chain (R338, R339). A rank that cannot be reached answers as
an error would: the fabric's error response is handled when it comes, so nothing is lost here. -/
def State.sendSeg (s : State) (p : Nat) (t : ExTable) (rank tries : Nat) (final : Bool) (g : ChainSeg) : State × Bool :=
  let x := s.exch p
  let body := chainBytes x g
  let r := s.newTxn p (.chain rank g.shard g.seg g.level2 final)
  let key := g.shard + 2 ^ 16 * b2n g.level2 + 2 ^ 17 * b2n final
  let q := r.1.originate p 1 none (r.1.newPacket p (t.idOf rank) 0x20 false 0 body.length r.2 key body)
  if q.2 then
    (q.1.modExch p (fun x => { x with sends := x.sends ++ [⟨r.2, rank, final, g, tries⟩] }), true)
  else ((q.1.takeWaiter p r.2).1, false)

/-! ## Shard updates (R345 to R348) -/

/-- FP32 words in device memory. -/
def State.words (s : State) (p a n : Nat) : State × Except (Nat × Nat) (List Nat) :=
  let r := s.devRead p a (4 * n) true
  (r.1, match r.2 with
    | .ok bs => .ok ((List.range n).map (fun i => u32 bs (4 * i)))
    | .error e => .error e)

/-- FP32 words without effect; a failing read gives zeros. -/
def State.peekWords (s : State) (p a n : Nat) : List Nat :=
  match (s.words p a n).2 with
  | .ok ws => ws
  | .error _ => List.replicate n 0

/-- Writes FP32 words. -/
def State.putWords (s : State) (p a : Nat) (ws : List Nat) : State := (s.devWrite p a (ws.flatMap (toLe 4)) true).1

/-- Where the state of a shard lies on this member: `STATE_BASE` for its own shard, `REPLICA_BASE` for another (R330). -/
def ExTable.stateAt (t : ExTable) (s : Nat) : Nat := if s = t.rank then t.stateBase else t.replicaBase

/-- The factored tensors of a shard, and whether it has others. -/
def ExTable.factoredIn (t : ExTable) (s : Nat) : List TEnt :=
  t.tensors.filter (fun e => e.factored && decide (t.edges.getD s 0 ≤ e.elem0) && decide (e.elem0 < t.edges.getD (s + 1) 0))

/-- State planes of a shard before the factored vectors (R345): w, then m and v, or b; under program 0x03 m is present when
β1 is not 0. That the plane v stands after them for the shard's tensors that are not factored is DESIGN CHOICE (log 15). -/
def planeCount (prog : Nat) (beta1Zero : Bool) : Nat :=
  if prog = 2 then 2 else if prog = 3 && beta1Zero then 2 else 3

/-- Bytes of a shard's state. -/
def ExTable.stateBytes (t : ExTable) (b1z : Bool) (s : Nat) : Nat :=
  4 * (planeCount t.prog b1z * t.shardLen s
    + (if t.prog = 3 then ((t.factoredIn s).map (fun e => e.rows + e.cols)).sum else 0))

/-- The schedule entry that produces epoch e + 1 (R347). -/
def State.sched (s : State) (p : Nat) (t : ExTable) (epoch : Nat) : Sched :=
  match (s.devRead p (t.schedBase + 64 * ((epoch + 1) % 256)) 64 true).2 with
  | .ok bs => Sched.read bs
  | .error _ => Sched.read []

/-- The tensor that holds an element, with its index. -/
def ExTable.tensorOf (t : ExTable) (i : Nat) : Option (Nat × TEnt) :=
  (t.tensors.zipIdx.find? (fun e => decide (e.1.elem0 ≤ i) && decide (i < e.1.elem0 + e.1.rows * e.1.cols))).map
    (fun e => (e.2, e.1))

/-- One element of a reduced segment goes through the program (R345, R346). `j` is its index in the shard. -/
def State.updateElem (s : State) (p : Nat) (t : ExTable) (h : Sched) (shard n j contrib x : Nat) : State × Nat :=
  match t.tensorOf (t.edges.getD shard 0 + j) with
  | none => (s, 0)
  | some (_, e) =>
    if e.factored && t.prog == 3 then (s, 0) else
    let gr := gradOf t h contrib x
    let wd := if e.noDecay then 0 else h.wd
    let at' (plane : Nat) : Nat := t.stateAt shard + 4 * (plane * n + j)
    let get (plane : Nat) : Nat := (s.peekWords p (at' plane) 1).headD 0
    let b1z := decide (h.b1 % 2 ^ 31 = 0) && t.prog == 3
    if t.prog = 2 then
      let r := sgd h wd (get 0) (get 1) gr.1
      ((s.putWords p (at' 0) [r.1]).putWords p (at' 1) [r.2], gr.2)
    else if b1z then
      let r := adamW h wd (get 0) 0 (get 1) gr.1
      ((s.putWords p (at' 0) [r.1]).putWords p (at' 1) [r.2.2], gr.2)
    else
      let r := adamW h wd (get 0) (get 1) (get 2) gr.1
      (((s.putWords p (at' 0) [r.1]).putWords p (at' 1) [r.2.1]).putWords p (at' 2) [r.2.2], gr.2)

/-- The FP32 sum of values in order. -/
def fsum (xs : List Nat) : Nat := xs.foldl fadd 0

/-- A factored tensor's update once all its segments have arrived (R345): `gs` holds its elements' gradients, `none` where
the segment carried no contribution. -/
def State.updateFactored (s : State) (p : Nat) (t : ExTable) (h : Sched) (shard n : Nat) (e : TEnt) (vecAt : Nat)
    (gs : List (Option Nat)) : State :=
  let g (i j : Nat) : Nat := (gs.getD (i * e.cols + j) none).getD 0
  let r0 := s.peekWords p vecAt e.rows
  let c0 := s.peekWords p (vecAt + 4 * e.rows) e.cols
  let sq (i j : Nat) : Nat := fmul (g i j) (g i j)
  let om := fsub fone h.b2
  let r1 := (List.range e.rows).map (fun i =>
    fadd (fmul h.b2 (r0.getD i 0)) (fmul om (fdiv (fsum ((List.range e.cols).map (sq i))) (fnat e.cols))))
  let c1 := (List.range e.cols).map (fun j =>
    fadd (fmul h.b2 (c0.getD j 0)) (fmul om (fdiv (fsum ((List.range e.rows).map (fun i => sq i j))) (fnat e.rows))))
  let mean := fdiv (fsum r1) (fnat e.rows)
  let b1z := decide (h.b1 % 2 ^ 31 = 0)
  let wd := if e.noDecay then 0 else h.wd
  let s1 := (s.putWords p vecAt r1).putWords p (vecAt + 4 * e.rows) c1
  (List.range (e.rows * e.cols)).foldl (fun acc q =>
    match gs.getD q none with
    | none => acc
    | some gq =>
      let j := e.elem0 - t.edges.getD shard 0 + q
      let wAt := t.stateAt shard + 4 * j
      let mAt := t.stateAt shard + 4 * (n + j)
      let v := fdiv (fmul (r1.getD (q / e.cols) 0) (c1.getD (q % e.cols) 0)) mean
      let m := if b1z then 0 else (acc.peekWords p mAt 1).headD 0
      let u := adamStep h wd ((acc.peekWords p wAt 1).headD 0) m v gq
      let a1 := acc.putWords p wAt [u.1]
      if b1z then a1 else a1.putWords p mAt [u.2]) s1

/-- A reduced segment of a shard, when this member has taken it. -/
def Exch.reduced (x : Exch) (shard k : Nat) : Option ChainSeg := x.red.find? (fun g => g.shard == shard && g.seg == k)

/-- The gradient of shard element `j` from the reduced segments; nothing without a contribution (R346). -/
def Exch.redGrad (x : Exch) (t : ExTable) (h : Sched) (shard j : Nat) : Option Nat :=
  match x.reduced shard (j / 504) with
  | some g => if g.contrib = 0 then none else some (gradOf t h g.contrib (g.vals.getD (j % 504) 0)).1
  | none => none

/-- Segments `lo` to `hi` of a shard have all been taken. -/
def Exch.haveSegs (x : Exch) (shard lo hi : Nat) : Bool :=
  (List.range (hi + 1 - lo)).all (fun i => (x.reduced shard (lo + i)).isSome)

/-- The update that a newly taken segment brings (R345): its own elements, and any factored tensor that it completes. -/
def State.updateSeg (s : State) (p : Nat) (t : ExTable) (g : ChainSeg) : State :=
  let x := s.exch p
  let h := s.sched p t x.epoch
  let n := t.shardLen g.shard
  let r := if g.contrib = 0 then (s, 0) else
    g.vals.zipIdx.foldl (fun (acc : State × Nat) v =>
      let u := acc.1.updateElem p t h g.shard n (504 * g.seg + v.2) g.contrib v.1
      (u.1, acc.2 + u.2)) (s, 0)
  let s1 := r.1.modExch p (fun x =>
    { x with nonfinite := SMap.set 0 g.shard (SMap.get 0 g.shard x.nonfinite + r.2) x.nonfinite })
  if t.prog ≠ 3 then s1 else
  let base := t.edges.getD g.shard 0
  let vec0 := t.stateAt g.shard + 4 * planeCount 3 (decide (h.b1 % 2 ^ 31 = 0)) * n
  ((t.factoredIn g.shard).foldl (fun (acc : State × Nat) e =>
    let lo := (e.elem0 - base) / 504
    let hi := (e.elem0 - base + e.rows * e.cols - 1) / 504
    let next := acc.2 + 4 * (e.rows + e.cols)
    if decide (lo ≤ g.seg) && decide (g.seg ≤ hi) && x.haveSegs g.shard lo hi then
      let gs := (List.range (e.rows * e.cols)).map (fun q => x.redGrad t h g.shard (e.elem0 - base + q))
      let bad := if t.nonfinite then gs.zipIdx.countP (fun v =>
          match x.reduced g.shard ((e.elem0 - base + v.2) / 504) with
          | some sg => sg.contrib != 0 &&
              (gradOf t h sg.contrib (sg.vals.getD ((e.elem0 - base + v.2) % 504) 0)).2 == 1
          | none => false) else 0
      ((acc.1.updateFactored p t h g.shard n e acc.2 gs).modExch p (fun x =>
        { x with nonfinite := SMap.set 0 g.shard (SMap.get 0 g.shard x.nonfinite + bad) x.nonfinite }), next)
    else (acc.1, next)) (s1, vec0)).1

/-! ## Packing and publication (R348 to R352) -/

/-- The header of a tensor in the bank region, as the streams read it (R332). -/
def State.bankHeader (s : State) (p : Nat) (t : ExTable) (e : TEnt) : Option Tensor :=
  match (s.devRead p (t.curBase + e.bankOff) 64 true).2 with
  | .ok bs => readHeader { phys := 0, sv := [], pairs := [], cores := [] } bs
  | .error _ => none

/-- The offset in the bank region of a plane address in the current region. -/
def ExTable.bankOffset (t : ExTable) (l : Loc) : Nat := l.num - t.curBase

/-- The plane pieces (bank offset and bytes) of row `i` of a tensor packed from FP32 words (R348). `b` is the tensor's
index, `e1` the epoch produced. -/
def packRow (t : ExTable) (h : Sched) (e1 b : Nat) (e : TEnt) (u : Tensor) (i : Nat) (ws : List Nat) : List (Nat × Bytes) :=
  let q (j : Nat) : Nat := srBits (t.key ^^^ e1) (b % 2 ^ 16) (i * e.cols + j)
  let off (l : Option Loc) (d : Nat) : Nat := t.bankOffset ((l.getD (.dev 0)).plus d)
  if e.fmt.isCB then
    let ln := convLine e.fmt h.mode none q (ws.map fp32Val)
    let pad := alignUp ws.length 32 - ws.length
    [(off u.elem (i * u.eStride), packElems e.fmt (ln.elems ++ List.replicate pad 0)),
     (off u.offs (i * u.oStride), packOffs ln.offs), (off u.scale (4 * i), toLe 4 ln.scale)]
  else
    match e.fmt.float with
    | some f => [(off u.elem (i * u.eStride), ws.zipIdx.flatMap (fun w =>
        toLe (e.fmt.width / 8) (f.write h.mode false (q w.2) (fp32Val w.1)).1))]
    | none => []

/-- The rows of a shard: tensor index, tensor, row. -/
def ExTable.shardRows (t : ExTable) (s : Nat) : List (Nat × TEnt × Nat) :=
  let lo := t.edges.getD s 0
  let hi := t.edges.getD (s + 1) 0
  t.tensors.zipIdx.flatMap (fun e =>
    (List.range e.1.rows).filterMap (fun i =>
      let a := e.1.elem0 + i * e.1.cols
      if lo ≤ a ∧ a < hi then some (e.2, e.1, i) else none))

/-- The bytes of a shard in a bank: offset and length of each plane piece, in rising offset order (R350). -/
def State.shardRanges (s : State) (p : Nat) (t : ExTable) (sh : Nat) : List (Nat × Nat) :=
  ((t.shardRows sh).flatMap (fun r =>
    match s.bankHeader p t r.2.1 with
    | some u => (packRow t (Sched.read []) 0 r.1 r.2.1 u r.2.2 (List.replicate r.2.1.cols 0)).map (fun x => (x.1, x.2.length))
    | none => [])).mergeSort (fun a b => decide (a.1 ≤ b.1))

/-- The shard's bytes in a bank region that starts at `base`. -/
def State.shardData (s : State) (p : Nat) (t : ExTable) (base sh : Nat) : Bytes :=
  (s.shardRanges p t sh).flatMap (fun r =>
    match (s.devRead p (base + r.1) r.2 true).2 with
    | .ok bs => bs
    | .error _ => [])

/-- Pieces of at most 2,048 bytes (R349). -/
def publishPieces (off : Nat) (bs : Bytes) : List (Nat × Bytes) :=
  (chunks 2048 (ceilDiv bs.length 2048) bs).zipIdx.map (fun c => (off + 2048 * c.2, c.1))

/-- Counts bytes written to the next bank for a shard from one source (R349). -/
def Exch.addGot (x : Exch) (shard src n : Nat) : Exch :=
  let old := ((x.got.find? (fun e => e.1 == shard && e.2.1 == src)).map (·.2.2)).getD 0
  { x with got := (shard, src, old + n) :: x.got.filter (fun e => !(e.1 == shard && e.2.1 == src)) }

/-- Sends one plane piece to the group and writes it into the own next bank (R349). -/
def State.publish (s : State) (p : Nat) (t : ExTable) (shard : Nat) (c : Nat × Bytes) : State :=
  let x := s.exch p
  let s1 := (s.devWrite p (t.nextBase + c.1) c.2 true).1
  let s2 := s1.modExch p (fun x => x.addGot shard (s1.moduleId p) c.2.length)
  (s2.originate p 1 none (s2.newPacket p 0 0x21 true c.1 c.2.length 0 (shard + 2 ^ 16 * ((x.epoch + 1) % 2 ^ 16)) c.2)).1

/-- Shard `s` is complete in the next bank (R350): one source's bytes are all there and its `PUB_DONE` has come. -/
def State.shardComplete (s : State) (p : Nat) (t : ExTable) (sh : Nat) : Bool :=
  let x := s.exch p
  x.complete.contains sh ||
    ((SMap.get none sh x.pubDone).isSome &&
      x.got.any (fun e => e.1 == sh && e.2.2 == ((s.shardRanges p t sh).map (·.2)).sum))

/-- Writes a shard's entry of the next bank's directory, at the end of the region (R333, R350). -/
def State.putDirectory (s : State) (p : Nat) (t : ExTable) (sh e1 crc : Nat) : State :=
  (s.devWrite p (t.nextBase + t.bankBytes - 8 * t.g + 8 * sh) (toLe 4 e1 ++ toLe 4 crc) true).1

/-- Sends or records `PUB_DONE` for a shard this member has published (R350). -/
def State.sendPubDone (s : State) (p : Nat) (t : ExTable) (sh : Nat) : State :=
  let x := s.exch p
  let h := s.sched p t x.epoch
  let crc := crc32c (s.shardData p t t.nextBase sh)
  let st := match (s.devRead p (t.stateAt sh) (t.stateBytes (decide (h.b1 % 2 ^ 31 = 0)) sh) true).2 with
    | .ok bs => crc32c bs
    | .error _ => 0
  let cnt := SMap.get 0 sh x.nonfinite
  let info : PubInfo := ⟨s.moduleId p, crc, st, cnt⟩
  let s1 := s.modExch p (fun x => { x with
    pubDone := SMap.set none sh (some ((SMap.get none sh x.pubDone).getD info)) x.pubDone
    published := if x.published.contains sh then x.published else x.published ++ [sh] })
  (s1.putDirectory p t sh (x.epoch + 1) crc).sendCtrl p 0x01 sh none (ctrlBytes (x.epoch + 1) crc st cnt 0 x.gen)

/-- The rows that a newly taken segment completes are packed; the owner publishes them, the buddy keeps them to compare or
to take over (R348, R349, R351, R352). -/
def State.packSeg (s : State) (p : Nat) (t : ExTable) (g : ChainSeg) (publishing : Bool) : State :=
  let x := s.exch p
  let h := s.sched p t x.epoch
  let base := t.edges.getD g.shard 0
  (t.shardRows g.shard).foldl (fun acc r =>
    let a := r.2.1.elem0 + r.2.2 * r.2.1.cols - base
    let lo := a / 504
    let hi := (a + r.2.1.cols - 1) / 504
    let facLo := (r.2.1.elem0 - base) / 504
    let facHi := (r.2.1.elem0 + r.2.1.rows * r.2.1.cols - base - 1) / 504
    let whole := r.2.1.factored && t.prog == 3
    let ok := if whole then decide (facLo ≤ g.seg) && decide (g.seg ≤ facHi) && x.haveSegs g.shard facLo facHi
      else decide (lo ≤ g.seg) && decide (g.seg ≤ hi) && x.haveSegs g.shard lo hi
    if !ok then acc else
    match acc.bankHeader p t r.2.1 with
    | none => acc
    | some u =>
      let ws := acc.peekWords p (t.stateAt g.shard + 4 * a) r.2.1.cols
      let ps := packRow t h (x.epoch + 1) r.1 r.2.1 u r.2.2 ws
      let acc1 := acc.modExch p (fun x => { x with
        mine := ps.foldl (fun m q => m.writeN q.1 q.2) x.mine, mineRows := x.mineRows ++ ps.map (fun q => (q.1, q.2.length)) })
      if publishing then (ps.flatMap (fun q => publishPieces q.1 q.2)).foldl (fun st c => st.publish p t g.shard c) acc1
      else acc1) s

/-- The buddy publishes what it has computed for a shard (R351). -/
def State.publishMine (s : State) (p : Nat) (t : ExTable) (sh : Nat) : State :=
  let x := s.exch p
  ((s.shardRanges p t sh).flatMap (fun r => publishPieces r.1 (x.mine.readN r.1 r.2))).foldl
    (fun acc c => acc.publish p t sh c) s

/-! ## Commit and flip (R353 to R356) -/

/-- Every shard has a `PUB_DONE`. -/
def Exch.allPublished (x : Exch) (t : ExTable) : Bool := (List.range t.g).all (fun s => (SMap.get none s x.pubDone).isSome)

/-- The ranks that the leader declares gone: suspected in this exchange and in the one before, and publisher of nothing
(R358). That two exchanges decide it is DESIGN CHOICE (log 15). -/
def Exch.goneRanks (x : Exch) (t : ExTable) : List Nat :=
  (List.range t.g).filter (fun r => x.isActive r && x.suspects.contains r && x.suspectsBefore.contains r
    && !((List.range t.g).any (fun s => ((SMap.get none s x.pubDone).map (·.src)) == some (t.idOf r))))

/-- Sends COMMIT(e + 1), keeps it for repeats and queries, and delivers the member's own copy (R354). T_open is the fabric
time of the sending: DESIGN CHOICE (log 15). -/
def State.sendCommit (s : State) (p : Nat) (t : ExTable) : State :=
  let x := s.exch p
  let gone := if x.leader t = some t.rank then x.goneRanks t else []
  let s1 := gone.foldl (fun acc r => acc.sendCtrl p 0x05 r none (ctrlBytes x.epoch 0 0 0 0 x.gen)) s
  let leaving := x.leaving ++ gone.filter (fun r => !x.leaving.contains r)
  let c := x.commitSent.getD (x.epoch + 1, s.ft, x.gen + leaving.length + x.joinReady.length)
  let body := ctrlBytes c.1 0 0 0 c.2.1 c.2.2
  let s2 := s1.modExch p (fun x => { x with commitSent := some c, leaving := leaving })
  let s3 := s2.sendCtrl p 0x02 0 none body
  if x.commitSent.isSome then s3
  else s3.toInbox p 32 0 (s3.newPacket p (s3.moduleId p) 0x13 false 0 body.length 0 0x02 body)

/-- A member acts as its role asks once every shard is published: the leader commits (R354). -/
def State.leaderCheck (s : State) (p : Nat) (t : ExTable) : State :=
  let x := s.exch p
  let s1 := if x.state = 2 ∧ x.allPublished t then s.modExch p (fun x => { x with state := 3 }) else s
  if x.leader t = some t.rank ∧ x.allPublished t ∧ x.commitSent.isNone ∧ (x.state = 1 ∨ x.state = 2 ∨ x.state = 3) then
    s1.sendCommit p t else s1

/-- The membership after a COMMIT of a generation: leaving ranks become absent, ranks reported ready, or joining ranks in
rising order where the report went to the leader only, become active (R358, R360). -/
def Exch.adopt (x : Exch) (t : ExTable) (gen : Nat) : Exch × List Nat × List Nat :=
  let left := x.leaving.filter (fun r => x.status.getD r 2 != 2)
  let joins := gen - x.gen - left.length
  let joined := if x.joinReady ≠ [] then x.joinReady
    else ((List.range t.g).filter (fun r => x.status.getD r 2 == 1)).take joins
  let st := (List.range t.g).map (fun r =>
    if left.contains r then 2 else if joined.contains r then 0 else x.status.getD r 2)
  ({ x with status := st, gen, leaving := [], joinReady := [] }, left, joined)

/-- Shards whose buddy moves when the membership changes, and that this member owns (R359). -/
def movedShards (t : ExTable) (before after : Exch) : List Nat :=
  (List.range t.g).filter (fun s => after.owner t s == some t.rank && before.buddy t s != after.buddy t s
    && (after.buddy t s).isSome)

/-- The flip to epoch e + 1 (R333, R355): banks and epoch change, the membership and T_open of the COMMIT are adopted, the
exchange is closed and the held step barrier releases. -/
def State.flip (s : State) (p : Nat) (t : ExTable) (tOpen gen : Nat) : State :=
  let x := s.exch p
  let a := x.adopt t gen
  let q := s.part p
  let active := a.1.isActive t.rank
  let x1 := { a.1.fresh with
    epoch := (x.epoch + 1) % 2 ^ 32, flipped := !x.flipped, tOpen, bankValid := true
    state := if x.state = 6 then 6 else if active then 1 else 5
    stateCopy := x.stateCopy ++ movedShards t x a.1 }
  let s1 := s.setPart p { q with
    exch := x1, swap := if x.flipped then none else some (t.curBase, t.nextBase, t.bankBytes) }
  let s2 := a.2.1.foldl (fun acc r => acc.exchEvent p Code.memberLeft r) s1
  let s3 := a.2.2.foldl (fun acc r => acc.exchEvent p Code.memberJoined r) s2
  if x.held then s3.releaseBarrier p else s3

/-- Whether every shard is complete in the next bank. -/
def State.bankComplete (s : State) (p : Nat) (t : ExTable) : Bool := (List.range t.g).all (s.shardComplete p t)

/-- A member that has seen COMMIT(e + 1) flips when its bank is complete and its step barrier is held, and fetches what is
missing otherwise (R355, R356). -/
def State.tryFlip (s : State) (p : Nat) (t : ExTable) : State :=
  let x := s.exch p
  match x.commitSeen with
  | none => s
  | some (_, tOpen, gen) =>
    if !s.bankComplete p t then
      (if x.state = 4 then s
       else (s.modExch p (fun x => { x with state := if x.state = 5 ∨ x.state = 6 then x.state else 4 })).exchEvent p
        Code.epochResync (x.epoch + 1))
    else if x.held ∨ x.state = 5 then s.flip p t tOpen gen
    else s

/-- The member treats a message of a later epoch as COMMIT(e + 1) (R356). -/
def State.proveCommit (s : State) (p : Nat) (t : ExTable) (epoch : Nat) : State :=
  let x := s.exch p
  if x.commitSeen.isNone ∧ x.epoch + 1 ≤ epoch ∧ (x.state = 1 ∨ x.state = 2 ∨ x.state = 3 ∨ x.state = 5) then
    let y := (s.modExch p (fun x => { x with commitSeen := some (x.epoch + 1, s.ft, x.gen) }))
    -- two or more epochs behind: every shard is fetched
    let z := if x.epoch + 2 ≤ epoch then y.modExch p (fun x => { x with complete := [], got := [] }) else y
    z.tryFlip p t
  else s

/-! ## The chain (R336 to R343) -/

/-- Marks a rank failed for this exchange, tells the leader (R339, R353). -/
def State.markFailed (s : State) (p : Nat) (t : ExTable) (rank : Nat) : State :=
  let x := s.exch p
  if x.failed.contains rank then s else
  let s1 := s.modExch p (fun x => { x with failed := x.failed ++ [rank], skips := satAdd 0xFFFF x.skips 1 })
  let s2 := s1.exchEvent p Code.chainSkip rank
  match x.leader t with
  | some l =>
    if l = t.rank then s2.modExch p (fun x => { x with suspects := x.suspects ++ [rank] })
    else s2.sendCtrl p 0x04 rank (some (t.idOf l)) (ctrlBytes x.epoch 0 0 0 0 x.gen)
  | none => s2

/-- A `FINAL` copy of a segment reaches this member (R340, R342): its shard is updated, and published when the member owns
it; after the last one the publisher sends `PUB_DONE`. -/
def State.takeFinal (s : State) (p : Nat) (t : ExTable) (g : ChainSeg) : State :=
  let x := s.exch p
  let owns := x.owner t g.shard = some t.rank
  let key := (g.level2, true, g.shard, g.seg)
  if x.seen.any (fun e => e.2.1 && e.2.2.1 == g.shard && e.2.2.2 == g.seg) ∨ !(owns || x.buddy t g.shard == some t.rank) then s else
  let s1 := s.modExch p (fun x => { x with seen := x.seen ++ [key], red := x.red ++ [g] })
  let s2 := (s1.updateSeg p t g).packSeg p t g owns
  if !(s2.exch p).haveSegs g.shard 0 (t.segments g.shard - 1) then s2 else
  let s3 := if SMap.get 0 g.shard (s2.exch p).nonfinite ≠ 0 then s2.exchEvent p Code.gradNonfinite g.shard else s2
  if owns then (s3.sendPubDone p t g.shard).leaderCheck p t else s3

/-- The final hop dual-casts a segment to owner and buddy (R342). -/
def State.dualCast (s : State) (p : Nat) (t : ExTable) (g : ChainSeg) : State :=
  let x := s.exch p
  let dests := (x.owner t g.shard).toList ++ (x.buddy t g.shard).toList
  dests.foldl (fun acc r =>
    if r = t.rank then acc.takeFinal p t g else (acc.sendSeg p t r 1 true g).1) s

/-- Sends a segment on from this member, skipping ranks that cannot be reached; `fuel` bounds the skips (R336, R339). -/
def State.passOnN (s : State) (p : Nat) (t : ExTable) (g : ChainSeg) : Nat → State
  | 0 => s
  | fuel + 1 =>
    let x := s.exch p
    let v := x.visits t g.level2 g.shard (t.sub t.rank)
    match nextHop v t.rank with
    | some r =>
      let q := s.sendSeg p t r 1 false g
      if q.2 then q.1 else (q.1.markFailed p t r).passOnN p t g fuel
    | none =>
      if t.subgroup = 0 ∨ g.level2 then s.dualCast p t g
      else
        -- the collector of a sub-group holds its level-1 result (R343)
        let first := (x.visits t true g.shard 0).head? == some t.rank
        let s1 := s.modExch p (fun x => { x with level1 := x.level1 ++ [g] })
        if first then
          (s1.modExch p (fun x => { x with seen := x.seen ++ [(true, false, g.shard, g.seg)] })).passOnN p t
            { g with level2 := true } fuel
        else
          match x.early2.find? (fun e => e.shard == g.shard && e.seg == g.seg) with
          | some e =>
            s1.passOnN p t { e with contrib := e.contrib + g.contrib, vals := List.zipWith fadd e.vals g.vals } fuel
          | none => s1

/-- Sends a segment on from this member. -/
def State.passOn (s : State) (p : Nat) (t : ExTable) (g : ChainSeg) : State := s.passOnN p t g (2 * t.g + 2)

/-- The segment with this member's contribution added, when it contributes and its gradients can be read (R337, R341). -/
def State.contribute (s : State) (p : Nat) (t : ExTable) (g : ChainSeg) (first : Bool) : State × ChainSeg :=
  let r := s.words p (t.gradBase + 4 * (t.edges.getD g.shard 0 + 504 * g.seg)) (t.segLen g.shard g.seg)
  match r.2 with
  | .ok ws => (r.1, { g with contrib := g.contrib + 1, vals := if first then ws else List.zipWith fadd g.vals ws })
  | .error _ => (r.1, g)

/-- A hop handles a running sum: it decides at the shard's first segment whether it contributes (R341). -/
def State.hop (s : State) (p : Nat) (t : ExTable) (g : ChainSeg) (first : Bool) : State :=
  let x := s.exch p
  let d := SMap.get 0 g.shard x.decided
  let dec := if d ≠ 0 then d else if x.ready then 1 else if x.lateDone then 2 else 0
  if dec = 0 then s.modExch p (fun x => { x with waiting := x.waiting ++ [g] }) else
  let s1 := s.modExch p (fun x => { x with decided := SMap.set 0 g.shard dec x.decided })
  let r := if dec = 1 then s1.contribute p t g first else (s1, g)
  r.1.passOn p t r.2

/-- This member starts the chain of a shard: it is the first active rank of its order, or of its sub-group's (R336,
R341). -/
def State.startShard (s : State) (p : Nat) (t : ExTable) (sh : Nat) : State :=
  let x := s.exch p
  if (x.visits t false sh (t.sub t.rank)).head? ≠ some t.rank then s else
  (List.range (t.segments sh)).foldl (fun acc k =>
    let g : ChainSeg := ⟨false, sh, k, 0, List.replicate (t.segLen sh k) 0⟩
    if (acc.exch p).seen.contains (false, false, sh, k) then acc else
    (acc.modExch p (fun x => { x with seen := x.seen ++ [(false, false, sh, k)] })).hop p t g true) s

/-- Gradients have become ready, or T_c has come: the chains this member starts go out and the segments that waited go on
(R341). -/
def State.runChains (s : State) (p : Nat) (t : ExTable) : State :=
  let held := (s.exch p).waiting
  let s1 := s.modExch p (fun x => { x with waiting := [] })
  let s2 := held.foldl (fun acc g => acc.hop p t g false) s1
  (List.range t.g).foldl (fun acc sh => acc.startShard p t sh) s2

/-- A chain segment that is not final arrives (R340, R343). -/
def State.takeSeg (s : State) (p : Nat) (t : ExTable) (g : ChainSeg) : State :=
  let x := s.exch p
  let key := (g.level2, false, g.shard, g.seg)
  if x.seen.contains key then s else
  let s1 := s.modExch p (fun x => { x with seen := x.seen ++ [key] })
  if g.level2 then
    match x.level1.find? (fun e => e.shard == g.shard && e.seg == g.seg) with
    | some e => s1.passOn p t { g with contrib := g.contrib + e.contrib, vals := List.zipWith fadd g.vals e.vals }
    | none => s1.modExch p (fun x => { x with early2 := x.early2 ++ [g] })
  else s1.hop p t g false

/-- A segment's send has failed for good (R339, R342): a running sum goes past the rank, a `FINAL` copy is given up. -/
def State.sendFailed (s : State) (p : Nat) (t : ExTable) (c : ChainSend) : State :=
  let s1 := s.modExch p (fun x => { x with sends := x.sends.filter (fun e => e.txn != c.txn) })
  let s2 := s1.markFailed p t c.rank
  if c.final then s2 else s2.passOn p t c.seg

/-- The partition's step barrier has fully arrived `ACCUM_STEPS` times: gradients are ready, the barrier is held, the chains
run (R334, R341). A COMMIT already seen flips at once, without contributing (R355). -/
def State.holdStep (s : State) (p : Nat) (t : ExTable) : State :=
  let x := s.exch p
  let s1 := s.modExch p (fun x => { x with held := true, heldAt := s.ft })
  if x.commitSeen.isSome then
    (s1.modExch p (fun x => { x with late := satAdd 0xFF x.late (if x.lateDone then 0 else 1) })).tryFlip p t
  else if x.state = 1 then
    (s1.modExch p (fun x => { x with ready := true, state := 2 })).runChains p t
  else s1

end Sys2Proof.Machine
end

