-- ==== Sys2Proof/Machine/ExchangeCmds.lean ====
section
/-! DEFINITION. The commands of the gradient exchange (R333 to R363): packets that reach a member, its timers, and the
writes of its registers. -/

namespace Sys2Proof.Machine

/-- The first packet of a node's inbox that `f` takes, with its class, removed (R304). -/
def State.takeInbox (s : State) (p : Nat) (f : Nat → Packet → Bool) : Option (State × Nat × Nat × Packet) :=
  let d := s.node p
  match d.inbox.findIdx? (fun e => f e.1 e.2.2) with
  | none => none
  | some i =>
    match d.inbox[i]? with
    | none => none
    | some e => some (s.setNode p { d with inbox := d.inbox.eraseIdx i }, e.1, e.2.1, e.2.2)

/-- The first packet of a kind. -/
def State.takeKind (s : State) (p kind : Nat) : Option (State × Nat × Nat × Packet) :=
  s.takeInbox p (fun _ k => k.kind == kind)

/-- The first exchange control packet of an operation (R353). -/
def State.takeCtrl (s : State) (p op : Nat) : Option (State × Packet) :=
  (s.takeInbox p (fun _ k => k.kind == 0x13 && k.key % 256 == op)).map (fun r => (r.1, r.2.2.2))

/-- The rank or shard of an exchange control packet. -/
def ctrlArg (k : Packet) : Nat := bits k.key 8 16

/-- Runs `f` on the exchange table of a partition whose exchange is set up. -/
def State.withTable (s : State) (p : Nat) (f : ExTable → State) : State :=
  match (s.exch p).tbl with
  | some t => f t
  | none => s

/-- The segment of a `CHAIN` payload (R338). -/
def readSeg (k : Packet) : ChainSeg :=
  let n := u16 k.data 8
  { level2 := bit k.key 16, shard := k.key % 65536, seg := u32 k.data 4, contrib := u32 k.data 12,
    vals := (List.range n).map (fun i => u32 k.data (32 + 4 * i)) }

/-- CHAIN: a segment arrives, is answered, and is added to and forwarded, or taken as final (R337 to R342). A member that
has left refuses it; a segment of another epoch is answered and discarded (R340, R356, R358). -/
def State.doChain (s : State) (p : Nat) : State :=
  match s.takeKind p 0x20 with
  | none => s
  | some (s1, _, tc, k) =>
    match (s1.exch p).tbl with
    | none => s1.respond p tc k 0x05 5 []
    | some t =>
      let x := s1.exch p
      if x.state = 6 ∨ x.state = 0 then s1.respond p tc k 0x05 5 [] else
      let s2 := s1.respond p tc k 0x04 0 []
      let e := u32 k.data 0
      if x.epoch < e then s2.proveCommit p t e
      else if e ≠ x.epoch ∨ x.state = 5 ∨ x.state = 4 then s2
      else
        let g := readSeg k
        if bit k.key 17 then s2.takeFinal p t g else s2.takeSeg p t g

/-- PUBLISH: a packet of the epoch that the member waits for is written into its next bank and counted; the buddy compares
it with its own result (R349, R352). -/
def State.doPublish (s : State) (p : Nat) : State :=
  match s.takeKind p 0x21 with
  | none => s
  | some (s1, _, _, k) =>
    s1.withTable p (fun t =>
      let x := s1.exch p
      let sh := k.key % 65536
      let e16 := k.key / 65536
      if !(1 ≤ x.state ∧ x.state ≤ 5) then s1
      else if e16 ≠ (x.epoch + 1) % 65536 then
        -- a later epoch proves the commit
        (if e16 = (x.epoch + 2) % 65536 then s1.proveCommit p t (x.epoch + 2) else s1)
      else
        let s2 := (s1.devWrite p (t.nextBase + k.addr) k.data true).1
        let s3 := s2.modExch p (fun x => x.addGot sh k.src k.data.length)
        let own := x.mineRows.any (fun r => decide (r.1 ≤ k.addr) && decide (k.addr + k.data.length ≤ r.1 + r.2))
        let s4 := if x.buddy t sh = some t.rank ∧ own ∧ x.mine.readN k.addr k.data.length ≠ k.data
            ∧ !x.mismatch.contains sh then
            (s3.modExch p (fun x => { x with mismatch := x.mismatch ++ [sh] })).exchEvent p Code.buddyMismatch sh else s3
        s4.tryFlip p t)

/-- PUB_DONE: a shard's published CRC goes into the next bank's directory; the leader commits once it holds one for every
shard (R350, R354). -/
def State.doPubDone (s : State) (p : Nat) : State :=
  match s.takeCtrl p 0x01 with
  | none => s
  | some (s1, k) =>
    s1.withTable p (fun t =>
      let x := s1.exch p
      let e := u32 k.data 0
      let sh := ctrlArg k
      if x.state = 0 ∨ x.state = 6 then s1
      else if x.epoch + 1 < e then s1.proveCommit p t (e - 1)
      else if e ≠ x.epoch + 1 then s1
      else
        let info : PubInfo := ⟨k.src, u32 k.data 4, u32 k.data 8, u32 k.data 12⟩
        let s2 := if (SMap.get none sh x.pubDone).isSome then s1 else
          (s1.modExch p (fun x => { x with pubDone := SMap.set none sh (some info) x.pubDone })).putDirectory p t sh e info.crc
        (s2.leaderCheck p t).tryFlip p t)

/-- PUB_DONE_REPEAT: every 10 ms a publisher repeats its notices until it sees COMMIT (R350). -/
def State.doPubDoneRepeat (s : State) (p : Nat) : State :=
  s.withTable p (fun t =>
    if (s.exch p).commitSeen.isSome then s else (s.exch p).published.foldl (fun acc sh => acc.sendPubDone p t sh) s)

/-- COMMIT: a member acts on the first copy of COMMIT(e + 1): it flips at its held step barrier, waits for it, or fetches
what is missing (R354 to R356). -/
def State.doCommit (s : State) (p : Nat) : State :=
  match s.takeCtrl p 0x02 with
  | none => s
  | some (s1, k) =>
    s1.withTable p (fun t =>
      let x := s1.exch p
      let e := u32 k.data 0
      if x.state = 0 ∨ x.state = 6 then s1
      else if e ≤ x.epoch then s1
      else if x.epoch + 1 < e then s1.proveCommit p t (e - 1)
      else if x.commitSeen.isSome then s1
      else (s1.modExch p (fun x => { x with commitSeen := some (e, u64 k.data 16, u32 k.data 24) })).tryFlip p t)

/-- COMMIT_REPEAT: the leader repeats its COMMIT; a backup that holds every `PUB_DONE` and has seen none sends it itself
(R354). -/
def State.doCommitRepeat (s : State) (p : Nat) : State :=
  s.withTable p (fun t =>
    let x := s.exch p
    if x.commitSent.isSome then s.sendCommit p t
    else if (x.backups t).contains t.rank ∧ x.allPublished t ∧ x.commitSeen.isNone then s.sendCommit p t
    else s)

/-- COMMIT_QUERY: the leader or a backup answers with the COMMIT it has sent (R354). -/
def State.doCommitQuery (s : State) (p : Nat) : State :=
  match s.takeCtrl p 0x03 with
  | none => s
  | some (s1, k) =>
    s1.withTable p (fun _ =>
      let x := s1.exch p
      let e := u32 k.data 0
      match x.commitSent with
      | some c => if c.1 = e then s1.sendCtrl p 0x02 0 (some k.src) (ctrlBytes c.1 0 0 0 c.2.1 c.2.2) else s1
      | none =>
        -- the flip has happened: the current epoch is the committed one
        if e = x.epoch then s1.sendCtrl p 0x02 0 (some k.src) (ctrlBytes e 0 0 0 x.tOpen x.gen) else s1)

/-- COMMIT_QUERY_SEND: a member that holds every `PUB_DONE` and has seen no COMMIT asks the leader and the backups
(R354). -/
def State.doCommitQuerySend (s : State) (p : Nat) : State :=
  s.withTable p (fun t =>
    let x := s.exch p
    if x.allPublished t ∧ x.commitSeen.isNone ∧ x.state ≠ 0 ∧ x.state ≠ 6 then
      (((x.leader t).toList ++ x.backups t).filter (· != t.rank)).foldl
        (fun acc r => acc.sendCtrl p 0x03 0 (some (t.idOf r)) (ctrlBytes (x.epoch + 1) 0 0 0 0 x.gen)) s
    else s)

/-- SUSPECT: the leader notes a suspected rank (R353, R358). -/
def State.doSuspect (s : State) (p : Nat) : State :=
  match s.takeCtrl p 0x04 with
  | none => s
  | some (s1, k) => s1.modExch p (fun x =>
      { x with suspects := if x.suspects.contains (ctrlArg k) then x.suspects else x.suspects ++ [ctrlArg k] })

/-- LEAVE: a rank is marked leaving, effective at the next COMMIT (R358). -/
def State.doLeave (s : State) (p : Nat) : State :=
  match s.takeCtrl p 0x05 with
  | none => s
  | some (s1, k) => s1.modExch p (fun x =>
      { x with leaving := if x.leaving.contains (ctrlArg k) then x.leaving else x.leaving ++ [ctrlArg k] })

/-- JOIN: a rank is marked joining (R360). -/
def State.doJoin (s : State) (p : Nat) : State :=
  match s.takeCtrl p 0x06 with
  | none => s
  | some (s1, k) => s1.modExch p (fun x => { x with status := setAt x.status (ctrlArg k) 1 })

/-- JOIN_READY: the leader marks the joining rank active at the next COMMIT (R360). -/
def State.doJoinReady (s : State) (p : Nat) : State :=
  match s.takeCtrl p 0x07 with
  | none => s
  | some (s1, k) => s1.modExch p (fun x =>
      { x with joinReady := if x.joinReady.contains (ctrlArg k) then x.joinReady else x.joinReady ++ [ctrlArg k] })

/-- HOP_TIMEOUT: a segment unanswered within `HOP_TIMEOUT_US` is sent once more; after the second try its rank is skipped
(R339). -/
def State.doHopTimeout (s : State) (p txn : Nat) : State :=
  s.withTable p (fun t =>
    match (s.exch p).sends.find? (fun e => e.txn == txn) with
    | none => s
    | some c =>
      let s1 := (s.takeWaiter p txn).1
      if 2 ≤ c.tries then s1.sendFailed p t c
      else
        let s2 := s1.modExch p (fun x => { x with sends := x.sends.filter (fun e => e.txn != txn) })
        let q := s2.sendSeg p t c.rank 2 c.final c.seg
        if q.2 then q.1 else q.1.sendFailed p t c)

/-- The contribution deadline of the open exchange (R335). -/
def Exch.deadline (x : Exch) (t : ExTable) : Nat := x.tOpen + t.deadlineMs * 10 ^ 6

/-- CONTRIBUTION_DEADLINE: at T_c(e) a member that is not ready leaves its contribution out, held segments go on, and
first hops start with zeros (R341). -/
def State.doContributionDeadline (s : State) (p : Nat) : State :=
  s.withTable p (fun t =>
    let x := s.exch p
    if s.ft < x.deadline t ∨ x.ready ∨ x.lateDone ∨ !(x.state = 1 ∨ x.state = 2) then s else
    let s1 := (s.modExch p (fun x => { x with lateDone := true, late := satAdd 0xFF x.late 1 })).exchEvent p
      Code.contribLate x.epoch
    s1.runChains p t)

/-- TAKEOVER: the buddy that has taken a shard's last `FINAL` segment and has seen no `PUB_DONE` of it publishes the shard
(R351). -/
def State.doTakeover (s : State) (p shard : Nat) : State :=
  s.withTable p (fun t =>
    let x := s.exch p
    if x.buddy t shard ≠ some t.rank ∨ (SMap.get none shard x.pubDone).isSome ∨ !x.haveSegs shard 0 (t.segments shard - 1)
        ∨ x.published.contains shard ∨ !(x.state = 1 ∨ x.state = 2 ∨ x.state = 3) then s else
    let s1 := (s.modExch p (fun x => { x with takeovers := satAdd 0xFF x.takeovers 1 })).exchEvent p Code.takeover shard
    ((s1.publishMine p t shard).sendPubDone p t shard).leaderCheck p t)

/-- SHARD_LOST: at twice `TAKEOVER_MS` without a shard's `PUB_DONE` the leader raises E_SHARD_LOST (R357). -/
def State.doShardLost (s : State) (p shard : Nat) : State :=
  s.withTable p (fun t =>
    let x := s.exch p
    if x.leader t = some t.rank ∧ (SMap.get none shard x.pubDone).isNone ∧ shard < t.g ∧ (x.state = 2 ∨ x.state = 3) then
      s.exchEvent p Code.shardLost shard
    else s)

/-- COMMIT_TIMEOUT: a step barrier held beyond `COMMIT_LIMIT_MS` halts every core of the partition; the banks stay
(R334). -/
def State.doCommitTimeout (s : State) (p : Nat) : State :=
  s.withTable p (fun t =>
    let x := s.exch p
    if !x.held ∨ s.ft ≤ x.heldAt + t.limitMs * 10 ^ 6 then s else
    ((s.haltAll p Code.commitTimeout).exchEvent p Code.commitTimeout x.epoch).modExch p
      (fun x => { x with held := false }))

/-- SHARD_FETCH: a shard's bytes come from a donor, in rising offset order, and are checked against the published CRC; a
joining member and one that missed data flip once every shard is complete (R356, R360, R361). -/
def State.doShardFetch (s : State) (p shard : Nat) (bytes : HostRead) : State :=
  s.withTable p (fun t =>
    let x := s.exch p
    match bytes with
    | none => s
    | some bs =>
      let rs := s.shardRanges p t shard
      let n := (rs.map (·.2)).sum
      let put (base : Nat) (st : State) : State := (rs.foldl (fun (acc : State × Nat) r =>
        ((acc.1.devWrite p (base + r.1) ((bs.drop acc.2).take r.2) true).1, acc.2 + r.2)) (st, 0)).1
      if bs.length ≠ n ∨ t.g ≤ shard then s
      else if x.refetch.contains shard then
        (put t.curBase s).modExch p (fun x => { x with refetch := x.refetch.filter (· != shard) })
      else if !(x.state = 4 ∨ x.state = 5) ∨ s.shardComplete p t shard then s
      else
        let ok := match SMap.get none shard x.pubDone with
          | some i => i.crc == crc32c bs
          | none => true
        if !ok then s else
        let s1 := (put t.nextBase s).modExch p (fun x => { x with complete := x.complete ++ [shard] })
        (s1.putDirectory p t shard (x.epoch + 1) (crc32c bs)).tryFlip p t)

/-- The shard that a joining rank will be buddy to: the one whose owner stands before it (R329, R360). -/
def Exch.futureReplica (x : Exch) (t : ExTable) : Option Nat :=
  let y := { x with status := setAt x.status t.rank 0 }
  (List.range t.g).find? (fun s => y.buddy t s == some t.rank)

/-- A joining member's copy of a shard's state has arrived and is checked against the `STATE_CRC` last published for it;
once its bank is at the group's epoch and both copies are verified it sends `JOIN_READY` (R359, R360). -/
def State.joinCopy (s : State) (p : Nat) (t : ExTable) (shard : Nat) : State :=
  let x := s.exch p
  let h := s.sched p t x.epoch
  let ok := match SMap.get none shard x.pubDone, (s.devRead p (t.stateAt shard)
      (t.stateBytes (decide (h.b1 % 2 ^ 31 = 0)) shard) true).2 with
    | some i, .ok bs => i.stateCrc == crc32c bs
    | none, .ok _ => true
    | _, .error _ => false
  if !ok ∨ !(shard = t.rank ∨ x.futureReplica t = some shard) ∨ x.stateCopy.contains shard then s else
  let y := { x with stateCopy := x.stateCopy ++ [shard] }
  let s1 := s.modExch p (fun _ => y)
  let both := y.stateCopy.contains t.rank && (match x.futureReplica t with
    | some r => y.stateCopy.contains r
    | none => true)
  match both && x.bankValid, x.leader t with
  | true, some l => s1.sendCtrl p 0x07 t.rank (some (t.idOf l)) (ctrlBytes x.epoch 0 0 0 0 x.gen)
  | _, _ => s1

/-- STATE_COPY: the owner of a shard copies its state to the new buddy, in `WRITE` packets of at most 2,048 B to that
member's `REPLICA_BASE` (R359); a joining member checks the copy it has received. Both members are taken to lay their replicas at the same address. DESIGN CHOICE (log
15). -/
def State.doStateCopy (s : State) (p shard : Nat) : State :=
  s.withTable p (fun t =>
    let x := s.exch p
    if x.state = 5 then s.joinCopy p t shard else
    if !x.stateCopy.contains shard then s else
    let h := s.sched p t x.epoch
    match x.buddy t shard, (s.devRead p (t.stateAt shard) (t.stateBytes (decide (h.b1 % 2 ^ 31 = 0)) shard) true).2 with
    | some b, .ok bs =>
      let s1 := (publishPieces 0 bs).foldl (fun acc c =>
        let r := acc.newTxn p .fetch
        (r.1.originate p 2 none (r.1.newPacket p (t.idOf b) 0x01 false (t.replicaBase + c.1) c.2.length r.2 0 c.2)).1) s
      s1.modExch p (fun x => { x with stateCopy := x.stateCopy.filter (· != shard) })
    | _, _ => s)

/-- START: the first epoch opens at `FIRST_OPEN` (R335); a degraded partition ignores it (R400). -/
def State.doStart (s : State) (p : Nat) : State :=
  s.withTable p (fun t =>
    if (s.part p).degraded then s.postEvent (.vf p) Code.degraded [] else
    let x := s.exch p
    if x.state ≠ 0 then s else
    s.modExch p (fun x => { x.fresh with state := 1, epoch := t.firstEpoch, tOpen := t.firstOpen, bankValid := true,
                                         status := List.replicate t.g 0 }))

/-- This member leaves its group (R358): it broadcasts `LEAVE` and takes no further part. -/
def State.leaveGroup (s : State) (p : Nat) : State :=
  s.withTable p (fun t =>
    let x := s.exch p
    if x.state = 0 ∨ x.state = 6 then s else
    let s1 := s.sendCtrl p 0x05 t.rank none (ctrlBytes x.epoch 0 0 0 0 x.gen)
    let s2 := s1.modExch p (fun x => { x with state := 6, status := setAt x.status t.rank 2 })
    (s2.setPart p { s2.part p with left := true }).exchEvent p Code.memberLeft t.rank)

/-- JOIN: a member starts to join in its table's rank (R360). After a full reset it has no valid bank and every shard must
be fetched; after a narrower reset the shards whose directory it kept may stand. A degraded partition ignores it
(R400). -/
def State.doJoinStart (s : State) (p : Nat) : State :=
  s.withTable p (fun t =>
    if (s.part p).degraded then s.postEvent (.vf p) Code.degraded [] else
    let x := s.exch p
    if !(x.state = 0 ∨ x.state = 6) then s else
    let s1 := s.modExch p (fun x => { x.fresh with
      state := 5, status := setAt (if x.status = [] then List.replicate t.g 0 else x.status) t.rank 1
      stateCopy := [], bankValid := false })
    let s2 := s1.setPart p { s1.part p with left := false }
    s2.sendCtrl p 0x06 t.rank none (ctrlBytes x.epoch 0 0 0 0 x.gen))

end Sys2Proof.Machine
end

