-- ==== Sys2Proof/Machine/Ports.lean ====
section
/-! DEFINITION. Ports and fabric time (chapters 10, 13 and 17): lane qualification, width, going down and training again,
hellos, the time tree and the correction of FTIME. -/

namespace Sys2Proof.Machine

/-! ## Lanes and width (R300, R402, R403) -/

/-- A lane's class by its errors in 10^12 bits: 0 ready, 1 marginal, 2 retired (R402). -/
def laneClass (errs : Nat) : Nat := if errs ≤ 10 ^ 7 then 0 else if errs ≤ 10 ^ 8 then 1 else 2

/-- The width that a number of usable lanes allows (R300). -/
def widthFor (n : Nat) : Nat := if n = 4 then 4 else if 2 ≤ n then 2 else n

/-- A port after a qualification that measured some lanes (R402, R403). -/
def Port.qualify (q : Port) (errs : List (Nat × Nat)) : Port :=
  let all := (List.range 4).map (fun l => (errs.lookup l).getD (2 ^ 64))
  let retired := maskOf 4 (fun l => laneClass (all.getD l 0) == 2)
  { q with laneErr := all.map (min (2 ^ 32 - 1)), retired, marginal := maskOf 4 (fun l => laneClass (all.getD l 0) == 1),
           lanes := widthFor ((List.range 4).countP (fun l => !retired.testBit l)) }

/-- Newly retired lanes raise E_LANE_RETIRED, one event per lane, while the port keeps a lane (R300, R402, R403). -/
def State.laneEvents (s : State) (n old : Nat) : State :=
  let q := s.port n
  if q.lanes = 0 then s else
  (List.range 4).foldl (fun acc l =>
    if q.retired.testBit l && !old.testBit l then
      acc.postEvent (.vf (acc.nodeOf n)) Code.laneRetired (toLe 1 n ++ toLe 1 l) else acc) s

/-! ## Down and up -/

/-- A link starts afresh: sequence numbers, credits, replay buffer and reassembly as at first training (R298, R308). -/
def Port.freshLink (q : Port) : Port :=
  { q with txSeq := 0, replay := [], rxSeq := 0, rxWait := false, credits := firstCredits, owed := [0, 0, 0, 0, 0, 0],
           partials := [], partialFlits := [], egress := [], nbValid := false, nb := none }

/-- The class of a stored packet flit. -/
def flitTc (raw : Bytes) : Nat := bits (u64 raw 0) 4 2

/-- A port goes `DOWN` (R315, R320, R321): its unacknowledged flits are discarded, TC0 flits among them counted, and the
packets that have not begun to leave are routed again. DESIGN CHOICE (log 17): the spec does not say what becomes of
them. -/
def State.portDown (s : State) (n : Nat) (event : Bool) : State :=
  let q := s.port n
  if q.st = 0 then s else
  let p := s.nodeOf n
  let lost := q.replay.countP (fun e => flitTc e.2 == 0)
  let s1 := s.setPort n { q.freshLink with st := 0, lost := satAdd 0xFF q.lost lost }
  let s2 := (q.egress.filter (fun e => e.sent == 0)).foldl (fun acc e =>
    if e.pkt.bcast || e.pkt.kind == 0x1C then acc.dropPacket p else
    let r := acc.sendUnicast p e.tc e.ingress e.inVl none e.pkt
    if r.2 then r.1 else r.1.refusePacket p e.tc 4 e.pkt) s1
  if event then s2.postEvent (.vf p) Code.portDown (toLe 1 n) else s2

/-- A port whose node and neighbour both forward is `UP`; a trained one is `HELLO_ONLY` otherwise (R315). -/
def State.raisePort (s : State) (n : Nat) : State :=
  let q := s.port n
  let nbOk : Bool := match q.nb with
    | some nb => nb.state == 2 || nb.state == 3 || nb.state == 5
    | none => false
  if q.st = 2 ∧ s.forwards (s.nodeOf n) ∧ nbOk then (s.setPort n { q with st := 3 }).pump n else s

/-- Trains a port on measured lanes (R402, R403, R485): it enters `HELLO_ONLY`, or stays `DOWN` without a usable lane. -/
def State.trainPort (s : State) (n : Nat) (errs : List (Nat × Nat)) (event : Bool) : State :=
  let q := s.port n
  let q1 := (q.freshLink).qualify errs
  let s1 := s.setPort n { q1 with cable := true, st := if q1.lanes = 0 ∨ q.disabled then 0 else 2 }
  if event then s1.laneEvents n 0 else s1

/-- The port drops to retraining: it leaves the effective sets and keeps what it holds (R300). -/
def State.startRetrain (s : State) (n : Nat) : State :=
  let q := s.port n
  if q.st = 3 ∨ q.st = 2 then s.setPort n { q with st := 4 } else s

/-- Retires a lane of a port (R300): the port retrains on the others, or goes down with its last one. -/
def State.retireLane (s : State) (n l : Nat) : State :=
  let q := s.port n
  if q.retired.testBit l ∨ 4 ≤ l then s else
  let retired := q.retired + 2 ^ l
  let left := (List.range 4).countP (fun i => !retired.testBit i)
  let s1 := s.setPort n { q with retired }
  if left = 0 then (s1.setPort n { s1.port n with lanes := 0 }).portDown n true
  else (s1.startRetrain n).postEvent (.vf (s1.nodeOf n)) Code.laneRetired (toLe 1 n ++ toLe 1 l)

/-- A retraining ends (R300): on its remaining lanes the port returns to the effective sets and re-sends every
unacknowledged flit. -/
def State.endRetrain (s : State) (n : Nat) : State :=
  let q := s.port n
  let w := widthFor ((List.range 4).countP (fun i => !q.retired.testBit i))
  let s1 := s.setPort n { q with lanes := w, st := if q.nb.isSome then 3 else 2 }
  (q.replay.foldl (fun acc e => acc.emit (.flit n e.2)) s1).pump n

/-! ## Time (R322, R323) -/

/-- `SYNC_TIME`, `SYNC_TRIGGER` and `TIME_ROOT` of the table in force (R373). -/
def State.syncBits (s : State) : Nat :=
  match s.setup with
  | some t => u8 t 9
  | none => match s.hif.copy with
    | some c => if s.hif.valid && bit (u8 c 9) 0 then 1 else 0
    | none => 0

/-- Whether pulses are arriving on the time input: the last edge is at most two periods old (R322 gives no bound; DESIGN CHOICE,
log 27). -/
def State.pulsing (s : State) : Bool :=
  match s.time.lastEdge with
  | some t => decide (s.ft ≤ t + 2000 * s.time.period)
  | none => false

/-- This module's own root priority (R322). -/
def State.ownPrio (s : State) : Nat :=
  if bit s.syncBits 0 && s.pulsing then 0 else if bit s.syncBits 2 then 1 else 2

/-- Whether offer (priority, serial, distance, port) `a` is better than `b`. -/
def betterOffer (a b : Nat × Nat × Nat × Nat) : Bool :=
  decide (a.1 < b.1) || (a.1 == b.1 && (decide (a.2.1 < b.2.1) || (a.2.1 == b.2.1 &&
    (decide (a.2.2.1 < b.2.2.1) || (a.2.2.1 == b.2.2.1 && decide (a.2.2.2 < b.2.2.2))))))

/-- What the neighbours offer: root priority, root serial, distance, port. -/
def State.offers (s : State) : List (Nat × Nat × Nat × Nat) :=
  (List.range 32).filterMap (fun n =>
    let q := s.port n
    if 2 ≤ q.st && q.nbValid then
      match q.nb with
      | some nb => if nb.rootDist < 62 then some (nb.rootPrio, nb.rootSerial, nb.rootDist, n) else none
      | none => none
    else none)

/-- The module chooses its root and parent again (R322); one that had locked and loses its parent without another raises
E_FTIME_LOST (R325). -/
def State.chooseParent (s : State) : State :=
  let own := (s.ownPrio, s.serial, 0, 32)
  let best := s.offers.foldl (fun (b : Option (Nat × Nat × Nat × Nat)) o =>
    match b with
    | none => some o
    | some c => if betterOffer o c then some o else some c) none
  let t := s.time
  let better := match best with
    | some o => decide (o.1 < own.1) || (o.1 == own.1 && decide (o.2.1 < own.2.1))
    | none => false
  match better, best with
  | true, some o =>
    { s with time := { t with root := false, parent := o.2.2.2, depth := o.2.2.1 + 1, prio := s.ownPrio, rootSerial := o.2.1,
                              rootPrio := o.1 } }
  | _, _ =>
    let lost := !t.root && t.locked
    let t1 := { t with root := true, parent := 0, depth := 0, prio := s.ownPrio, rootSerial := s.serial,
                       rootPrio := s.ownPrio, locked := if lost then false else t.locked, run := if lost then 0 else t.run,
                       lostParent := lost || t.lostParent }
    let s1 := { s with time := t1 }
    if lost then s1.postEvent (.vf (s.nodeOf t.parent)) Code.ftimeLost (toLe 1 t.parent) else s1

/-- One nanosecond of this module's clock under its rate correction (R323, R325): a hold keeps the count, a correction
drops or adds one count in at least 500. -/
def State.tick (s : State) : State :=
  let t := s.time
  if t.hold ≠ 0 then { s with time := { t with hold := t.hold - 1 } }
  else if t.rate ≠ 0 ∧ 499 ≤ t.slew then
    if 0 < t.rate then { s with time := { t with rate := t.rate - 1, slew := 0 } }
    else { s with ft := s.ft + 2, time := { t with rate := t.rate + 1, slew := 0 } }
  else { s with ft := s.ft + 1, time := { t with slew := t.slew + 1 } }

/-- An offset held at ±32,767 (R328). -/
def clampOffset (v : Int) : Int := max (-32767) (min 32767 v)

/-- An offset to the parent or to the edges is measured, the module ahead by `off` ns (R323, R325, R326): the rate is
corrected within 2,000 ppm, ten offsets within ±8 ns lock, one beyond 1 µs loses the lock. Before the first lock, and
after a lost parent, the count steps to the time it follows when that is later; after a lost parent it holds when it is
ahead. -/
def State.takeOffset (s : State) (off : Int) (port : Nat) : State :=
  let t := s.time
  let near := decide (-8 ≤ off) && decide (off ≤ 8)
  let run := if near then t.run + 1 else 0
  let t1 := { t with offset := clampOffset off, run, rate := max (-200) (min 200 off) }
  if !t.everLocked && !near then
    { s with ft := ((s.ft : Int) - off).toNat, time := { t1 with rate := 0 } }
  else if t.lostParent then
    if off < 0 then { s with ft := s.ft + (-off).toNat, time := { t1 with lostParent := false, rate := 0 } }
    else { s with time := { t1 with lostParent := false, rate := 0, hold := off.toNat } }
  else if t.locked && (decide (off < -1000) || decide (1000 < off)) then
    ({ s with time := { t1 with locked := false, run := 0 } } : State).postEvent (.vf (s.nodeOf port)) Code.ftimeLost (toLe 1 port)
  else if 10 ≤ run then { s with time := { t1 with locked := true, everLocked := true } }
  else { s with time := t1 }

/-! ## Hellos (R313) -/

/-- `LAYOUT` as hellos and registers code it. -/
def layoutCode (n : Nat) : Nat := if n = 4 then 2 else if n = 2 then 1 else 0

/-- The payload of a hello of port `n` (R313). -/
def State.helloBytes (s : State) (n : Nat) : Bytes :=
  let p := s.nodeOf n
  let q := s.port n
  let t := s.time
  toLe 2 (s.moduleId p) ++ toLe 1 n ++ toLe 1 (s.nodeState p) ++ toLe 8 s.serial ++ toLe 1 (q.lanes % 8 + 16 * q.marginal)
    ++ toLe 1 (if s.gradeS then 0x53 else 0x41) ++ toLe 1 s.cls ++ toLe 1 (p % 4 + 4 * layoutCode s.layout)
    ++ toLe 1 (s.fgroup p) ++ toLe 3 0 ++ toLe 8 (if t.root then s.serial else t.rootSerial)
    ++ toLe 1 (if t.root then s.ownPrio else t.rootPrio) ++ toLe 1 t.depth ++ toLe 1 (b2n t.locked) ++ toLe 1 0
    ++ toLe 4 (s.node p).gen

/-- What a received hello's payload shows (R313). -/
def readHello (bs : Bytes) : Neighbour :=
  { id := u16 bs 0, port := bits (u8 bs 2) 0 5, state := bits (u8 bs 3) 0 3, serial := u64 bs 4, rootSerial := u64 bs 20,
    rootPrio := u8 bs 28, rootDist := u8 bs 29 }

end Sys2Proof.Machine
end

