-- ==== Sys2Proof/Machine/FabricCmds.lean ====
section
/-! DEFINITION. The commands of the Bureg fabric (chapter 10): flits and hellos that arrive or go out, timers of ports,
remote requests and responses, tokens and barriers between modules, management messages and route tables. -/

namespace Sys2Proof.Machine

/-! ## Hellos and ports -/

/-- HELLO: a valid hello updates the neighbour, the time tree and the port's state (R302, R313 to R315, R322). -/
def State.doHello (s : State) (n : Nat) (raw : Bytes) : State :=
  let q := s.port n
  if q.st < 2 ∨ !flitIs 2 raw then s else
  let nb := readHello (raw.drop 8)
  let p := s.nodeOf n
  let q1 := q.takeHeader (u64 raw 0)
  let s1 := s.setPort n { q1 with nbValid := true, nb := some nb }
  let s2 := match q.nb with
    | some old => if old.serial ≠ nb.serial then s1.postEvent (.vf p) Code.nbChange (toLe 1 n) else s1
    | none => s1
  let s3 := if nb.id = s.moduleId p ∧ nb.id ≠ 0 then s2.postEvent (.vf p) Code.nbConflict (toLe 1 n) else s2
  ((s3.chooseParent).raisePort n).pump n

/-- HELLO_SEND: a trained port sends its hello (R313). -/
def State.doHelloSend (s : State) (n : Nat) : State :=
  if (s.port n).st < 2 then s else (s.sendFlit n 2 0 0 false false 0 (padTo 244 (s.helloBytes n))).1

/-- HELLO_TIMEOUT: no valid hello for 3 ms takes the port `DOWN` (R315, R320). -/
def State.doHelloTimeout (s : State) (n : Nat) : State :=
  if (s.port n).st < 2 then s else (s.portDown n true).chooseParent

/-- LOSS_OF_SIGNAL: the port leaves the effective sets and goes `DOWN` (R320, R321, R485). -/
def State.doLossOfSignal (s : State) (n : Nat) : State :=
  if (s.port n).st = 0 then s.setPort n { s.port n with cable := false } else
  let s1 := s.portDown n true
  (s1.setPort n { s1.port n with cable := false }).chooseParent

/-- CABLE_INSERT: a fitted cable is trained and qualified before its port enters `HELLO_ONLY` (R402, R403, R485). -/
def State.doCableInsert (s : State) (n : Nat) (errs : List (Nat × Nat)) : State :=
  if s.portCount ≤ n ∨ (s.port n).st ≠ 0 ∨ s.bringing then s
  else if (s.port n).disabled then s.setPort n { s.port n with cable := true }
  else s.trainPort n errs true

/-- PORT_TRAINING_DONE: training ends and the port enters `HELLO_ONLY`, or a retraining ends and the port returns on its
width and re-sends (R300, R315). Fresh measurements of a retraining are taken as R402 gives. -/
def State.doPortTrainingDone (s : State) (n : Nat) (errs : List (Nat × Nat)) : State :=
  let q := s.port n
  if q.st = 4 then
    if errs = [] then s.endRetrain n else
    let old := q.retired
    let s1 := (s.setPort n (q.qualify errs)).laneEvents n old
    if (s1.port n).lanes = 0 then s1.portDown n true else s1.endRetrain n
  else if q.st = 1 then s.trainPort n errs true
  else s

/-- RETRAIN: a port retrains without retiring a lane (R300, R328). -/
def State.doRetrain (s : State) (n : Nat) : State := s.startRetrain n

/-- DISABLE: a port goes `DOWN` and stays there (R328). -/
def State.doDisable (s : State) (n : Nat) : State :=
  let s1 := s.setPort n { s.port n with disabled := true }
  (s1.portDown n true).chooseParent

/-! ## Packet flits and replay (R296 to R298) -/

/-- A packet flit that its port accepts: acknowledged and credited, and its packet taken when it is whole. -/
def State.acceptFlit (s : State) (n : Nat) (raw : Bytes) : State :=
  let h := u64 raw 0
  let tc := bits h 4 2
  let vl := bits h 6 1
  let key := 2 * tc + vl
  let body := (raw.drop 8).take (bits h 33 8)
  let q := (s.port n).takeHeader h
  let first := bit h 7
  let got := (if first then [] else SMap.get [] key q.partials) ++ body
  let cnt := (if first then 0 else SMap.get 0 key q.partialFlits) + 1
  let q1 := { q with rxSeq := (q.rxSeq + 1) % 4096, rxWait := false }
  let s := s.gevent 4 n 3 1
  if bit h 8 then
    (s.setPort n { q1 with partials := SMap.set [] key [] q1.partials, partialFlits := SMap.set 0 key 0 q1.partialFlits })
      |>.takePacket n tc vl cnt got
  else s.setPort n { q1 with partials := SMap.set [] key got q1.partials, partialFlits := SMap.set 0 key cnt q1.partialFlits }

/-- PACKET_FLIT: a received packet flit is checked, accepted in sequence and its packet routed or delivered; any other is
discarded, and a replay is asked for and counted on the lane that the environment names (R297, R298). -/
def State.doPacketFlit (s : State) (n : Nat) (raw : Bytes) (lane : Nat) : State :=
  let q := s.port n
  if q.st ≠ 3 then s
  else if flitIs 1 raw && bits (u64 raw 0) 4 2 != 3 && decide (bits (u64 raw 0) 33 8 ≤ 244)
      && bits (u64 raw 0) 9 12 == q.rxSeq then
    (((s.acceptFlit n raw).pump n).sendIdles n 1)
  else
    let bad := !crcPasses raw
    let s1 := s.setPort n { q with crcFail := satAdd 0xFF q.crcFail (b2n bad) }
    if q.rxWait then s1 else
    (s1.setPort n { s1.port n with laneReplays := modAt (s1.port n).laneReplays lane (· + 1) }).sendReplayRequest n

/-- REPLAY_REQUEST: the port re-sends from the named flit onwards, in order (R298). -/
def State.doReplayRequest (s : State) (n : Nat) (raw : Bytes) : State :=
  let q := s.port n
  if q.st ≠ 3 ∨ !flitIs 4 raw then s else
  let q1 := q.takeHeader (u64 raw 0)
  let s1 := s.setPort n q1
  match q1.replay.findIdx? (fun e => e.1 == bits (u64 raw 0) 9 12) with
  | some i => (q1.replay.drop i).foldl (fun acc e => acc.emit (.flit n e.2)) s1
  | none => s1

/-- REPLAY_REQUEST_REPEAT: the receiver repeats its request until the expected flit arrives (R298). -/
def State.doReplayRequestRepeat (s : State) (n : Nat) : State :=
  if (s.port n).rxWait ∧ (s.port n).st = 3 then s.sendReplayRequest n else s

/-- IDLE_FLIT: the header of an idle flit frees replay-buffer space and returns credits (R298, R308). -/
def State.doIdleFlit (s : State) (n : Nat) (raw : Bytes) : State :=
  let q := s.port n
  if q.st < 2 ∨ !flitIs 0 raw then s else (s.setPort n (q.takeHeader (u64 raw 0))).pump n

/-- FABRIC_STALL: a class and lane with flits waiting has had no credit for 10 ms (R309). -/
def State.doFabricStall (s : State) (n tc vl : Nat) : State :=
  let q := s.port n
  if q.egress.any (fun e => e.tc == tc && e.vl == vl) && q.credits.getD (2 * tc + vl) 0 == 0 then
    s.postEvent (.vf (s.nodeOf n)) Code.fabricStall (toLe 1 n ++ toLe 1 tc ++ toLe 1 vl)
  else s

/-- The token bucket of a port refilled to now: a flit per 32 flit times of its width, 4 at most (R310). The level is kept
in hundredths of a nanosecond of credit. -/
def Port.refill (q : Port) (ft : Nat) : Port :=
  let period := 8192 * 4 / max 1 q.lanes
  { q with bucket := min (4 * period) (q.bucket + 100 * (ft - q.bucketAt)), bucketAt := ft }

/-- Whether the bucket admits a flit. -/
def Port.admits (q : Port) : Bool := decide (8192 * 4 / max 1 q.lanes ≤ q.bucket)

/-- Takes a flit's worth from the bucket. -/
def Port.spend (q : Port) : Port := { q with bucket := q.bucket - 8192 * 4 / max 1 q.lanes }

/-- The ports on which a TC0 message of a node leaves. -/
def State.tc0Ports (s : State) (p : Nat) (k : Packet) : List Nat :=
  if k.bcast then ((s.treePorts p k.fgroup).getD []).filter (fun n => (s.port n).st == 3)
  else if k.dest = s.moduleId p then []
  else ((s.choosePort 0 0 k.dest (s.routeSet p k.dest))).toList

/-- TC0_INJECT: the oldest TC0 message of a node passes the token bucket of each port it leaves on and is accepted
(R310). -/
def State.doTc0Inject (s : State) (p : Nat) : State :=
  let d := s.node p
  match d.tc0 with
  | [] => s
  | k :: rest =>
    let ns := s.tc0Ports p k
    let s1 := ns.foldl (fun acc n => acc.setPort n ((acc.port n).refill acc.ft)) s
    if ns.all (fun n => (s1.port n).admits) then
      let s2 := (ns.foldl (fun acc n => acc.setPort n (acc.port n).spend) s1).setNode p { d with tc0 := rest }
      let r := s2.originate p 0 none k
      if r.2 then r.1 else r.1.dropPacket p
    else s1

/-- WITHDRAWAL_EXPIRY: the withdrawal of a port for a destination ends (R320). -/
def State.doWithdrawalExpiry (s : State) (n dest : Nat) : State :=
  s.setPort n { s.port n with withdrawn := (s.port n).withdrawn.filter (· != dest) }

/-- UNREACHABLE: a notice withdraws its ingress port for a destination (R320). -/
def State.doUnreachable (s : State) (n : Nat) : State :=
  match s.takeInbox (s.nodeOf n) (fun i k => i == n && k.kind == 0x1C) with
  | none => s
  | some (s1, _, _, k) =>
    let q := s1.port n
    let d := k.key % 65536
    if q.withdrawn.contains d then s1 else s1.setPort n { q with withdrawn := q.withdrawn ++ [d] }

/-! ## Remote requests and responses -/

/-- A repair hold of the partition refuses what goes to its core stores (R410). -/
def State.holdRefuses (s : State) (p a : Nat) : Bool :=
  (s.part p).hold && decide (coreBase ≤ a) && decide (a < coreBase + 576 * 2 ^ 22)

/-- WRITE: a remote write takes effect at its home slice and is answered then (R304, R306). -/
def State.doWrite (s : State) (p : Nat) : State :=
  match s.takeKind p 0x01 with
  | none => s
  | some (s1, _, tc, k) =>
    if s1.holdRefuses p k.addr then s1.respond p tc k 0x05 5 [] else
    let r := s1.devWrite p k.addr k.data false
    match r.2 with
    | .ok _ => r.1.respond p tc k 0x04 0 []
    | .error (c, _) => r.1.respond p tc k 0x05 c []

/-- READ: a remote read is served and answered (R304). -/
def State.doRead (s : State) (p : Nat) (flt : MemFault) : State :=
  match s.takeKind p 0x02 with
  | none => s
  | some (s1, _, tc, k) =>
    if flt = .noResponse then s1 else
    match pieces k.addr k.len with
    | [] => s1.respond p tc k 0x05 0 []
    | (a, n) :: _ =>
      let r := s1.readLine p a n false flt
      match r.2 with
      | .error c => r.1.respond p tc k 0x05 c []
      | .ok bs =>
        let q := r.1.devRead p (a + n) (k.len - n) false
        match q.2 with
        | .ok more => q.1.respond p tc k 0x03 0 (bs ++ more)
        | .error (c, _) => q.1.respond p tc k 0x05 c []

/-- READ_RESP: remote read data reaches the channel that asked (R304). A response that nobody waits for is discarded
(R269). -/
def State.doReadResp (s : State) (p : Nat) : State :=
  match s.takeKind p 0x03 with
  | none => s
  | some (s1, _, _, k) =>
    let r := s1.takeWaiter p k.txn
    match r.2 with
    | some (.dma ch) => r.1.gotRead ch k.data
    | _ => r.1

/-- WRITE_RESP: a requester learns that its remote write, or its chain segment, has been taken (R306, R339). -/
def State.doWriteResp (s : State) (p : Nat) : State :=
  match s.takeKind p 0x04 with
  | none => s
  | some (s1, _, _, k) =>
    let r := s1.takeWaiter p k.txn
    match r.2 with
    | some (.dma ch) => r.1.gotWrite ch
    | some (.chain _ _ _ _ _) =>
      r.1.modExch p (fun x => { x with sends := x.sends.filter (fun e => e.txn != k.txn) })
    | _ => r.1

/-- A channel's remote request has failed with a cause (R241). -/
def State.remoteFailed (s : State) (ch : Chan) (cause : Nat) : State :=
  match (s.chn ch).run with
  | none => s
  | some r =>
    match r.cur with
    | none => s
    | some c =>
      let write := c.reads.isEmpty
      let l := if write then (c.writes.headD (c.desc.dst, [])).1 else (c.reads.headD (c.desc.src, 0)).1
      s.stopRun ch l.num write (c.holder l write) cause c.desc.module true

/-- ERROR_RESP: a remote request fails with its cause (R241); a chain segment's rank is skipped (R339). -/
def State.doErrorResp (s : State) (p : Nat) : State :=
  match s.takeKind p 0x05 with
  | none => s
  | some (s1, _, _, k) =>
    let r := s1.takeWaiter p k.txn
    match r.2 with
    | some (.dma ch) => r.1.remoteFailed ch (k.status % 8)
    | some (.chain _ _ _ _ _) =>
      r.1.withTable p (fun t =>
        match (r.1.exch p).sends.find? (fun e => e.txn == k.txn) with
        | some c => r.1.sendFailed p t c
        | none => r.1)
    | _ => r.1

/-! ## Tokens and barriers between modules -/

/-- REMOTE_SIGNAL: an increment from another module applies to a present core of a partition that runs a job, and is
discarded with E_SIGNAL_DROPPED otherwise (R200, R201, R410, R496). -/
def State.doRemoteSignal (s : State) (p : Nat) : State :=
  match s.takeKind p 0x10 with
  | none => s
  | some (s1, _, _, k) =>
    let l := bits k.key 0 9
    let inc := k.key / 65536
    if inc = 0 ∨ bits k.key 14 2 ≠ 0 then s1.dropPacket p
    else if !s1.fabricOn p then s1.signalDropped p 2 k
    else match (s1.coresOf p).lookup l with
      | none => s1.signalDropped p 0 k
      | some c =>
        if ((s1.part p).job.isNone || (s1.part p).hold || (s1.part p).resetting != 0) then s1.signalDropped p 1 k
        else s1.addToken c (bits k.key 9 5) inc

/-- The member nodes of the group that partition `p` belongs to (R212): those of its exchange table, else what the
set-up's fabric group means, which the tables do not list (log 16). -/
def State.groupOf (s : State) (p : Nat) : List Nat :=
  match (s.exch p).tbl with
  | some t => t.members
  | none => Config.groupMembers (s.fgroup p)

/-- The least identifier of a group. -/
def lowestMember (ms : List Nat) : Nat := ms.foldl min 0xFFFF

/-- The cores of partition `p` that wait at a fabric barrier of a sequence number release (R212). -/
def State.releaseFabric (s : State) (p seq : Nat) : State :=
  if (s.arrivals p).any (fun a => a == (seq, 1)) then s.releaseBarrier p else s

/-- An arrival at a fabric barrier is counted at the lowest member, which releases the group when every member has
arrived (R212, R311). -/
def State.countArrival (s : State) (p seq n : Nat) : State :=
  let d := s.node p
  let v := SMap.get 0 seq d.arrivals + n
  if v < (s.groupOf p).length then s.setNode p { d with arrivals := SMap.set 0 seq v d.arrivals }
  else
    let s1 := s.setNode p { d with arrivals := SMap.set 0 seq 0 d.arrivals }
    (s1.queueTc0 p (s1.newPacket p 0 0x12 true 0 0 0 seq [])).releaseFabric p seq

/-- The partition reports its arrival at a fabric barrier to the group's lowest member (R212). -/
def State.reportArrival (s : State) (p seq : Nat) : State :=
  let lo := lowestMember (s.groupOf p)
  if lo = s.moduleId p then s.countArrival p seq 1
  else s.queueTc0 p (s.newPacket p lo 0x11 false 0 0 0 (seq + 2 ^ 16) [])

/-- BAR_ARRIVE: arrivals carried by a packet reach the lowest member (R212, R311). -/
def State.doBarArrive (s : State) (p : Nat) : State :=
  match s.takeKind p 0x11 with
  | none => s
  | some (s1, _, _, k) => s1.countArrival p (k.key % 65536) (k.key / 65536)

/-- BAR_RELEASE: a fabric barrier's release reaches a member partition (R212). -/
def State.doBarRelease (s : State) (p : Nat) : State :=
  match s.takeKind p 0x12 with
  | none => s
  | some (s1, _, _, k) => s1.releaseFabric p (k.key % 65536)

/-! ## Route tables and management (R317 to R319, R328) -/

/-- The word of a table entry that a register offset names: table (0 group, 1 member, 2 broadcast), entry, word. -/
def tableWord (off : Nat) : Option (Nat × Nat × Nat) :=
  if off % 4 ≠ 0 then none
  else if 0x2000 ≤ off ∧ off < 0x3000 then some (0, (off - 0x2000) / 16, off % 16 / 4)
  else if 0x3000 ≤ off ∧ off < 0x4000 then some (1, (off - 0x3000) / 16, off % 16 / 4)
  else if 0x4000 ≤ off ∧ off < 0x4800 then some (2, (off - 0x4000) / 8, off % 8 / 4)
  else none

/-- Whether a table word may take a value: ports of the node only, reserved bits zero (R317, R318). -/
def State.tableWordOk (s : State) (p : Nat) (x : Nat × Nat × Nat) (v : Nat) : Bool :=
  let mask := maskOf 32 (s.portsOf p).contains
  if x.1 = 2 then (if x.2.2 = 0 then v &&& mask == v else decide (v < 2))
  else if x.2.2 ≤ 1 then v &&& mask == v else if x.2.2 = 2 then decide (v < 2) else v == 0

/-- A route entry with one word written. -/
def Route.putWord (r : Route) (w v : Nat) : Route :=
  if w = 0 then { r with primary := v } else if w = 1 then { r with alternate := v } else if w = 2 then { r with valid := bit v 0 } else r

/-- Tables with one word written. -/
def Tables.putWord (t : Tables) (x : Nat × Nat × Nat) (v : Nat) : Tables :=
  let r0 : Route := ⟨0, 0, false⟩
  if x.1 = 0 then { t with groups := SMap.set r0 x.2.1 ((SMap.get r0 x.2.1 t.groups).putWord x.2.2 v) t.groups }
  else if x.1 = 1 then { t with members := SMap.set r0 x.2.1 ((SMap.get r0 x.2.1 t.members).putWord x.2.2 v) t.members }
  else
    let e := SMap.get ⟨0, false⟩ x.2.1 t.trees
    let e1 : TreeEntry := if x.2.2 = 0 then { e with tree := v } else { e with valid := bit v 0 }
    { t with trees := SMap.set ⟨0, false⟩ x.2.1 e1 t.trees }

/-- The value of a table word. -/
def Tables.word (t : Tables) (x : Nat × Nat × Nat) : Nat :=
  let get (m : SMap Route) : Nat :=
    let r := SMap.get ⟨0, 0, false⟩ x.2.1 m
    if x.2.2 = 0 then r.primary else if x.2.2 = 1 then r.alternate else if x.2.2 = 2 then b2n r.valid else 0
  if x.1 = 0 then get t.groups else if x.1 = 1 then get t.members
  else
    let e := SMap.get ⟨0, false⟩ x.2.1 t.trees
    if x.2.2 = 0 then e.tree else b2n e.valid

/-- Writes one word of a shadow table. -/
def State.putTableWord (s : State) (p : Nat) (x : Nat × Nat × Nat) (v : Nat) : State :=
  s.setNode p { s.node p with shadow := (s.node p).shadow.putWord x v }

/-- A table write is refused with E_ROUTE_TABLE (R317). -/
def State.refuseTable (s : State) (p off : Nat) : State := s.postEvent (.vf p) Code.routeTable (toLe 4 off)

/-- ROUTE_TABLE_REGISTER_WRITE: the physical function writes a word of a shadow table, or is refused (R317). -/
def State.doRouteTableWrite (s : State) (p off v : Nat) : State :=
  match tableWord off with
  | none => s
  | some x => if s.tableWordOk p x v then s.putTableWord p x v else s.refuseTable p off

/-- ROUTE_COMMIT: the shadow tables become active between two packets, `GEN` rises, every withdrawal is cleared
(R319). -/
def State.doRouteCommit (s : State) (p : Nat) : State :=
  let d := s.node p
  let s1 := s.setNode p { d with active := d.shadow, gen := (d.gen + 1) % 2 ^ 31 }
  (s.portsOf p).foldl (fun acc n => acc.setPort n { acc.port n with withdrawn := [] }) s1

/-- A management message comes from an allowed manager (R319). -/
def Node.allows (d : Node) (src : Nat) : Bool :=
  bit d.fmAllow 31 && (src == d.fmAllow % 65536 || src == bits d.fmAllow 16 15 + 32768 * (d.fmAllow1 % 2))

/-- Port registers of a BRG block (R328, R403). -/
def Port.reg (q : Port) (off : Nat) : Nat :=
  if off = 0 then q.st + 8 * q.lanes + 64 * q.retired + 1024 * q.marginal + 16384 * b2n q.nbValid
  else if off = 4 then b2n q.disabled
  else if off = 8 then (match q.nb with
    | some nb => nb.id + 2 ^ 16 * nb.port + 2 ^ 21 * nb.state
    | none => 0)
  else if off = 0xC then q.replays + 2 ^ 16 * q.crcFail + 2 ^ 24 * q.lost
  else if off = 0x10 then q.qMax + 2 ^ 16 * q.qOver
  else if 0x20 ≤ off ∧ off < 0x30 then q.laneErr.getD ((off - 0x20) / 4) 0
  else 0

/-- What a register of the BRG block of node `p` reads (R328); the time registers lie in the block of M0. A read of the low
word of FTIME latches nothing here: FTIME_LO_READ is that read. -/
def State.brgRead (s : State) (p off : Nat) : Nat :=
  let d := s.node p
  let t := s.time
  if off < 0x100 then (s.port (8 * (s.dies p).headD 0 + off / 0x40)).reg (off % 0x40)
  else if off = 0x1000 then s.moduleId p + 2 ^ 16 * s.fgroup p + 2 ^ 24 * s.nodeState p
  else if off = 0x1004 then d.gen
  else if off = 0x1008 then d.fmAllow
  else if off = 0x100C then d.fmAllow1
  else if off = 0x1010 then d.drops
  else if off = 0x1014 then d.voidHops + 2 ^ 16 * d.voidQueue
  else match tableWord off with
    | some x => d.shadow.word x
    | none =>
      if !(s.dies p).contains 0 then 0
      else if off = 0x5000 then s.ft % 2 ^ 32
      else if off = 0x5004 then t.hiLatch
      else if off = 0x5008 then
        b2n t.locked + 2 * b2n t.root + 4 * t.parent + 128 * t.depth + 2 ^ 13 * t.prio + 2 ^ 16 * unsigned 16 t.offset
      else if off = 0x500C then t.period
      else if off = 0x5010 then t.epochLo
      else if off = 0x5014 then t.epochHi + 2 ^ 31 * b2n t.arm
      else 0

/-- A write of a register of port `n` (R328); a port beyond the grade's has none. -/
def State.portWrite (s : State) (n off v : Nat) : State :=
  if s.portCount ≤ n then s
  else if off = 4 then
    if bit v 0 then s.doDisable n
    else
      let q := s.port n
      let s1 := s.setPort n { q with disabled := false, st := if q.disabled && q.cable then 1 else q.st }
      if bit v 1 then s1.startRetrain n else s1
  else if off = 0x10 then (if bits v 0 7 = 127 then s.setPort n { s.port n with qMax := 0 } else s)
  else s

/-- A plain BRG register of the node takes a management write: `BRG_FM_ALLOW`, `BRG_FM_ALLOW1`, `BRG_ROUTE_GEN`, and
the writable fields of ports and time (R328). -/
def State.brgWrite (s : State) (p off v : Nat) : State :=
  let d := s.node p
  if off = 0x1004 then (if bit v 31 then s.doRouteCommit p else s)
  else if off = 0x1008 then s.setNode p { d with fmAllow := v % 2 ^ 32 }
  else if off = 0x100C then s.setNode p { d with fmAllow1 := v % 2 }
  else if off < 0x100 then s.portWrite (8 * (s.dies p).headD 0 + off / 0x40) (off % 0x40) v
  else if !(s.dies p).contains 0 then s
  else if off = 0x500C then { s with time := { s.time with period := v % 2 ^ 32 } }
  else if off = 0x5010 then { s with time := { s.time with epochLo := v % 2 ^ 32 } }
  else if off = 0x5014 then
    { s with time := { s.time with epochHi := v % 2 ^ 31, arm := s.time.arm || bit v 31 } }
  else s

/-- ARM: the epoch in `BRG_FTIME_EPOCH` is applied at the next `HX_SYNC` edge (R326). -/
def State.doArm (s : State) (hi : Nat) : State :=
  { s with time := { s.time with epochHi := hi % 2 ^ 31, arm := true } }

/-- FTIME_LO_READ: a read of the low word latches the high word (R328). -/
def State.doFtimeLoRead (s : State) : State := { s with time := { s.time with hiLatch := s.ft / 2 ^ 32 % 2 ^ 32 } }

/-- MGMT_WRITE: an allowed manager writes words of the node's shadow tables or BRG registers; a refused table write changes
nothing and is answered with cause 5, as is any other sender (R317, R319). -/
def State.doMgmtWrite (s : State) (p : Nat) : State :=
  match s.takeKind p 0x18 with
  | none => s
  | some (s1, _, tc, k) =>
    if !(s1.node p).allows k.src then s1.respond p tc k 0x1A 5 [] else
    let ws := (List.range (k.data.length / 4)).map (fun i => (k.key + 4 * i, u32 k.data (4 * i)))
    let ok := ws.all (fun w => match tableWord w.1 with
      | some x => s1.tableWordOk p x w.2
      | none => true)
    if !ok then (s1.refuseTable p k.key).respond p tc k 0x1A 5 [] else
    (ws.foldl (fun acc w => match tableWord w.1 with
      | some x => acc.putTableWord p x w.2
      | none => acc.brgWrite p w.1 w.2) s1).respond p tc k 0x1A 0 []

/-- MGMT_READ: an allowed manager reads a BRG register and is answered (R319). -/
def State.doMgmtRead (s : State) (p : Nat) : State :=
  match s.takeKind p 0x19 with
  | none => s
  | some (s1, _, tc, k) =>
    if !(s1.node p).allows k.src then s1.respond p tc k 0x1A 5 []
    else s1.respond p tc k 0x1A 0 (toLe 4 (s1.brgRead p k.key))

/-- MGMT_RESP: a management response reaches the fabric manager's node (R304). The fabric manager is software on the
host; what the node hands it is not described, so the packet leaves the node. -/
def State.doMgmtResp (s : State) (p : Nat) : State :=
  match s.takeKind p 0x1A with
  | none => s
  | some (s1, _, _, _) => s1

/-! ## Timestamps (R323) -/

/-- TIMESTAMP: an exchange with the parent corrects this module's time and lock (R323, R325). -/
def State.doTimestamp (s : State) (n t1 t2 t3 t4 : Nat) : State :=
  if s.time.root ∨ s.time.parent ≠ n ∨ (s.port n).st < 2 then s else
  let off := (((t2 : Int) - t1) - ((t4 : Int) - t3)) / 2 - (s.port n).asym
  s.takeOffset off n

/-- TIMESTAMP_SEND: a link sends a timestamp flit (R323). Its payload is not laid out by the spec: the message carries the
port and the time taken. -/
def State.doTimestampSend (s : State) (n : Nat) : State := if (s.port n).st < 2 then s else s.emit (.stamp n s.ft)

end Sys2Proof.Machine
end

