-- ==== Sys2Proof/Machine/Sequencer.lean ====
section
/-! DEFINITION. The sequencer: record fetch (R193), dispatch with its checks in order (R194, R196), parity (R221), and the
sequencer operations LOOP, ENDLOOP, BRANCH_MISFIT, SETSV, ADDSV, SETPAIR, SWAP, SETKEY (R204 to R209). -/

namespace Sys2Proof.Machine

/-- Where the record at a position of a core's stream lies (R175). -/
def Seq.recLoc (q : Seq) (pos : Nat) : Loc := .dev (q.base + 64 * pos)

/-- The 64 B record at a position, as the cache holds it. -/
def Core.cachedRec (k : Core) (pos : Nat) : Option Bytes :=
  let l := k.seq.recLoc pos
  let x := l.floor 256
  (k.icache.lookup x).map (fun bs => (bs.drop (l.num - x.num)).take 64)

/-- The 64 B record at a position, through the cache where it holds it and from memory where it does not: what the
structure checks of R208 look at. -/
def State.lookRec (s : State) (c pos : Nat) : Bytes :=
  ((s.core c).cachedRec pos).getD (s.peek (s.partOfPhys c) ((s.core c).seq.recLoc pos) 64)

/-- The extensions a record announces, as positions that must be fetched with it (R179). -/
def Core.neededPositions (k : Core) : List Nat :=
  let pos := k.seq.pos
  match k.cachedRec pos with
  | none => [pos]
  | some m => (List.range (bits (u16 m 2) 0 2 + 1)).map (pos + ·)

/-- The first position the sequencer needs and does not have in its cache. -/
def Core.missing (k : Core) : Option Nat := k.neededPositions.find? (fun p => (k.cachedRec p).isNone)

/-- A sequencer that goes on with its stream: running, not halted, not past its `END`, not frozen by break logic. -/
def Seq.active (q : Seq) : Bool := q.running && !q.halted && !q.ended && !q.frozen

/-- Reads the code word of a record under an environment's fault before the burst: nothing where it can be read, or the failing
address. A read that never answers ends by the request watchdog (R193, R269). -/
def State.probeRecord (s : State) (p : Nat) (l : Loc) (flt : MemFault) : State × Option Nat :=
  match l with
  | .cst _ _ => (s, none)
  | .dev a =>
    if flt = .noResponse then (s.postEvent (.vf p) Code.reqWatchdog (s.watchdogDetail p (some l) a 64), some a)
    else
      let r := s.readLine p a 64 false flt
      match r.2 with
      | .ok _ => (r.1, none)
      | .error _ => (r.1, some a)

/-- A record that the sequencer needs cannot be read: the stream halts with E_BUSERR, its position and the failing address
(R193). -/
def State.fetchFailed (s : State) (c pos addr : Nat) : State :=
  let b := s.blankFailure Code.busErr
  b.1.haltStream c { b.2 with tag := 0, opid := 0, index := pos, detail := addr }

/-- RECORD_FETCH: a 2 KiB burst into the cache for the record at hand (R193). -/
def State.doFetch (s : State) (l : Nat) (flt : MemFault) : State :=
  match s.physOf l with
  | none => s
  | some c =>
    let k := s.core c
    let p := s.partOfPhys c
    if !k.seq.active then s else
    match k.missing with
    | none => s
    | some pos =>
      let q := s.probeRecord p (k.seq.recLoc pos) flt
      match q.2 with
      | some a => q.1.fetchFailed c k.seq.pos a
      | none =>
        let r := q.1.icacheRead c p (k.seq.recLoc pos) 64
        match r.2 with
        | .ok _ => r.1
        | .error e => r.1.fetchFailed c k.seq.pos e.2

/-- The record at hand, with its extensions, once all of it is in the cache. -/
def Core.current (k : Core) : Option Rec :=
  if k.missing.isSome then none else
  match k.neededPositions.map (fun p => (k.cachedRec p).getD []) with
  | m :: xs => some ⟨m, xs⟩
  | [] => none

/-- The set-up facts that presence checks use (R196 step 3). -/
def State.recEnv (s : State) (c : Nat) : RecEnv :=
  let p := s.partOfPhys c
  let q := (s.core c).seq
  { addr := { phys := c, sv := q.sv, pairs := q.pairs, cores := s.coresOf p }, gradeS := s.gradeS, dies := s.dies p,
    ports := s.portsOf p, fabric := s.fabricOn p }

/-- Steps 2 to 5 of R196 on a queue record: its operation, or the code with which it is refused. -/
def State.checkRec (s : State) (c : Nat) (r : Rec) : Except Nat Op :=
  let e := s.recEnv c
  if !r.formOk then .error Code.badCmd
  else if !r.presentOk e then .error Code.noEngine
  else match r.build e.addr with
    | none => .error Code.badCmd
    | some op =>
      match (if r.engine < 2 then countsCheck ((s.core c).arr r.engine) op else none) with
      | some code => .error code
      | none => .ok op

/-- Queue entries that a queue holds, extensions counted (R179, R194). -/
def queuePlaces (es : List QEntry) : Nat := (es.map (·.places)).sum

/-- The instance number of the oldest dispatched record that has not completed (R194). -/
def Core.oldest (k : Core) : Option Nat := (k.entries.map (·.serial)).min?

/-- `RUNAHEAD`: how far the next record stands after the oldest dispatched one that has not completed (R194, R224). -/
def Core.runahead (k : Core) : Nat :=
  match k.oldest with
  | some o => k.seq.serial + 1 - o
  | none => 0

/-- Whether the limits of R194 let the record at hand be dispatched. -/
def Core.roomFor (k : Core) (r : Rec) : Bool :=
  (r.isSeq || decide (queuePlaces (k.queue r.engine) + r.extCount + 1 ≤ 256)) && decide (k.runahead < 1024)

/-- The failure of a refused record (R215): the moment of refusal, the record's own fields. -/
def State.refusal (s : State) (c : Nat) (r : Rec) (status : Nat) : Failure :=
  { status, engine := r.engine, tag := r.tag, opid := r.opid, index := (s.core c).seq.pos, detail := 0, ftime := s.ft }

/-- A record is refused: its completion record is written and its stream halts (R196, R214, R215). -/
def State.refuse (s : State) (c : Nat) (r : Rec) (status : Nat) : State :=
  let p := s.partOfPhys c
  let s1 := s.putCompletion p r.tag (complBytes status r.tag r.opid r.engine (s.cplFlags p 0) 0 (s.core c).seq.pos {} 0 s.ft)
  let s2 := s1.trace c r.opid r.tag 3 0 (s1.traceInfo c r.engine status {} 0)
  (s2.haltStream c (s.refusal c r status)).recordDone c r.engine r.opid r.tag

/-- The queue entry of a dispatched record. -/
def entryOf (r : Rec) (op : Op) (serial index key : Nat) : QEntry :=
  { op, phase := .waiting, engine := r.engine, places := r.extCount + 1, serial, index, tag := r.tag, opid := r.opid,
    cpl := r.cpl, waitEn := r.waitEn, observe := r.observe, waitCtr := bits (u8 r.main 6) 0 5, waitCnt := u16 r.main 12,
    sigEn := r.sigEn, sigCtr := bits (u8 r.main 7) 0 5, sigInc := u8 r.main 14, key, headAt := none, led := {} }

/-- An armed window whose consumer has not been dispatched takes the first later record with its tag (R252). -/
def bindWatch (tag serial : Nat) (w : Watch) : Watch :=
  if w.armed && w.recSerial == 0 && w.tag == tag then { w with recSerial := serial } else w

/-- A checked queue record enters its queue (R194, R206). -/
def Core.enqueue (k : Core) (r : Rec) (op : Op) (ft : Nat) : Core :=
  let serial := k.seq.serial + 1
  let e := entryOf r op serial k.seq.pos k.seq.key
  let k1 := k.setQueue r.engine (k.queue r.engine ++ [e])
  let k2 := if r.engine < 2 then k1.setArr r.engine (countsAfter (k1.arr r.engine) op) else k1
  let ended := match op with
    | .endStream => true
    | _ => false
  ({ k2 with
    seq := { k2.seq with serial := k2.seq.serial + r.extCount + 1, pos := k2.seq.pos + r.extCount + 1, retried := false,
                         startFt := some (k2.seq.startFt.getD ft),
                         ended := ended }
    watches := k2.watches.map (bindWatch r.tag serial) } : Core).markHeads ft

/-- A parity error on the record at hand (R221): the first makes the sequencer drop it and fetch it again, the second
halts the stream. -/
def State.parityError (s : State) (c : Nat) (r : Rec) : State :=
  let k := s.core c
  let q := { k.seq with parityEvents := satAdd 255 k.seq.parityEvents 1, retried := true }
  let x := (k.seq.recLoc k.seq.pos).floor 256
  let s1 := s.setCore c { k with seq := q, icache := k.icache.filter (fun e => e.1 != x) }
  if k.seq.retried then s1.refuse c r Code.parity else s1

/-- RECORD_DISPATCH: the record at hand meets `parity` parity errors, or is checked in the order of R196 and dispatched
or refused. Sequencer operations of valid form are left to their own commands. -/
def State.doDispatch (s : State) (l parity : Nat) : State :=
  match s.physOf l with
  | none => s
  | some c =>
    let k := s.core c
    if !k.seq.active || s.traceStall c then s else
    match k.current with
    | none => s
    | some r =>
      if parity = 1 then s.parityError c r
      else if 2 ≤ parity then (s.parityError c r).parityError c r
      else if !k.roomFor r then s
      else if r.isSeq && r.formOk && r.tokensOk then s
      else
        match s.checkRec c r with
        | .error code => s.refuse c r code
        | .ok op =>
          if r.opcode ≠ 0x3F ∧ k.seq.len ≤ k.seq.pos + r.extCount + 1 then s.refuse c r Code.badLoop
          else s.setCore c (k.enqueue r op s.ft)

/-! ## Sequencer operations -/

/-- What a sequencer operation of opcode `op` does at decode (R183): `run` gives the sequencer after it, or the code of a
refusal; it completes at once, advances by one record, and writes a completion record when `CPL` is set. -/
def State.seqOp (s : State) (l op : Nat) (run : State → Nat → Rec → Except Nat (State × Nat)) : State :=
  match s.physOf l with
  | none => s
  | some c =>
    let k := s.core c
    if !k.seq.active || s.traceStall c then s else
    match k.current with
    | none => s
    | some r =>
      if r.opcode ≠ op ∨ !r.formOk ∨ !r.tokensOk ∨ !k.roomFor r then s else
      match run s c r with
      | .error code => s.refuse c r code
      | .ok (s1, next) =>
        if k.seq.len ≤ next then s.refuse c r Code.badLoop else
        let k1 := s1.core c
        let q1 : Seq := { k1.seq with pos := next, serial := k1.seq.serial + 1, retried := false,
                                      startFt := some (k1.seq.startFt.getD s.ft) }
        let s2 := s1.setCore c { k1 with seq := q1 }
        let p := s.partOfPhys c
        let s3 := s2.traceStart c 7 r.opid r.tag 0
        let s4 := if r.cpl then
            s3.putCompletion p r.tag (complBytes Code.ok r.tag r.opid r.engine (s.cplFlags p 0) 0 k.seq.pos {} 0 s.ft)
          else s3
        (s4.traceDone c 7 r.opid r.tag 0 Code.ok {} 0).recordDone c 7 r.opid r.tag

/-- Changes the sequencer of a core. -/
def State.modSeq (s : State) (c : Nat) (f : Seq → Seq) : State :=
  s.setCore c { s.core c with seq := f (s.core c).seq }

/-- The position after the record at hand. -/
def State.after (s : State) (c : Nat) : Nat := (s.core c).seq.pos + 1

/-- `LOOP` (R192, R207, R208). -/
def runLoop (s : State) (c : Nat) (r : Rec) : Except Nat (State × Nat) :=
  let q := (s.core c).seq
  let skip := u32 r.main 24
  let target := q.pos + skip - 1
  let count := if bit (u8 r.main 16) 0 then q.sv.getD (bits (u8 r.main 16) 4 4) 0 % 2 ^ 32 else u32 r.main 20
  if 4 ≤ q.loops.length then .error Code.loopDepth
  else if skip < 2 ∨ q.len ≤ target ∨ u8 (s.lookRec c target) 0 ≠ 0x41 then .error Code.badLoop
  else if count = 0 then .ok (s, target + 1)
  else .ok (s.modSeq c (fun q => { q with loops := ⟨q.pos, target, count⟩ :: q.loops }), q.pos + 1)

/-- `ENDLOOP` (R207, R208). -/
def runEndLoop (s : State) (c : Nat) (_ : Rec) : Except Nat (State × Nat) :=
  let q := (s.core c).seq
  match q.loops with
  | [] => .error Code.badLoop
  | f :: fs =>
    if f.target ≠ q.pos then .error Code.badLoop
    else if 1 < f.left then
      .ok (s.modSeq c (fun q => { q with loops := { f with left := f.left - 1 } :: fs }), f.start + 1)
    else .ok (s.modSeq c (fun q => { q with loops := fs }), q.pos + 1)

/-- Whether a range of records holds only matched loops and does not end before an extension (R208). -/
def rangeMatched (ops : List Nat) (next : Nat) : Bool :=
  let r := ops.foldl (fun (acc : Option Nat) op =>
    match acc with
    | none => none
    | some d => if op = 0x40 then some (d + 1) else if op = 0x41 then (if d = 0 then none else some (d - 1)) else some d)
    (some 0)
  r == some 0 && next != 0xFE

/-- Records in the queues that name a misfit flag (R172). -/
def Core.flagPending (k : Core) (flag : Nat) : Bool :=
  k.entries.any (fun e => match e.op with
    | .cirrus _ _ _ _ _ _ _ _ _ f _ _ => f == flag
    | .quant q => q.flag == flag
    | _ => false)

/-- `BRANCH_MISFIT` (R172, R208, R209): when its flag is clear it skips its records and applies their token signals in
stream order. -/
def runBranch (s : State) (c : Nat) (r : Rec) : Except Nat (State × Nat) :=
  let q := (s.core c).seq
  let flag := bits (u8 r.main 16) 0 4
  let len := u8 r.main 17
  let recs := (List.range len).map (fun i => s.lookRec c (q.pos + 1 + i))
  if len = 0 then .error Code.badCmd
  else if q.len < q.pos + 1 + len
      ∨ !rangeMatched (recs.map (u8 · 0)) (u8 (s.lookRec c (q.pos + 1 + len)) 0) then .error Code.badLoop
  else
    let set := q.misfit.getD flag false
    let s1 := if set then s else
      recs.foldl (fun acc m =>
        if u8 m 0 ≠ 0xFE ∧ bit (u16 m 2) 5 then acc.addToken c (bits (u8 m 7) 0 5) (u8 m 14) else acc) s
    let s2 := if bit (u8 r.main 16) 7 then s1.modSeq c (fun q => { q with misfit := setAt q.misfit flag false }) else s1
    .ok (s2, if set then q.pos + 1 else q.pos + 1 + len)

/-- BRANCH_MISFIT: decoded once every earlier record that names its flag has completed (R172). -/
def State.doBranch (s : State) (l : Nat) : State :=
  match s.physOf l with
  | none => s
  | some c =>
    match (s.core c).current with
    | none => s
    | some r => if (s.core c).flagPending (bits (u8 r.main 16) 0 4) then s else s.seqOp l 0x42 runBranch

/-- `SETSV` (R192, R204). -/
def runSetSv (s : State) (c : Nat) (r : Rec) : Except Nat (State × Nat) :=
  let q := (s.core c).seq
  let from' := bit (u8 r.main 17) 7
  let v := (u64 r.main 24 + (if from' then q.sv.getD (bits (u8 r.main 17) 0 4) 0 else 0)) % 2 ^ 64
  .ok (s.modSeq c (fun q => { q with sv := setAt q.sv (bits (u8 r.main 16) 0 4) v }), s.after c)

/-- `ADDSV` (R192, R204). -/
def runAddSv (s : State) (c : Nat) (r : Rec) : Except Nat (State × Nat) :=
  let add (v : Nat) : Nat := (v + u64 r.main 24) % 2 ^ 64
  .ok (s.modSeq c (fun q => { q with sv := modAt q.sv (bits (u8 r.main 16) 0 4) add }), s.after c)

/-- `SETPAIR` (R192, R205): both halves are core-store offsets. -/
def runSetPair (s : State) (c : Nat) (r : Rec) : Except Nat (State × Nat) :=
  let h0 := u32 r.main 20
  let h1 := u32 r.main 24
  if h0 < coreStoreBytes ∧ h1 < coreStoreBytes then
    .ok (s.modSeq c (fun q => { q with pairs := setAt q.pairs (bits (u8 r.main 16) 0 3) (h0, h1) }), s.after c)
  else .error Code.badCmd

/-- `SWAP` (R192, R205). -/
def runSwap (s : State) (c : Nat) (r : Rec) : Except Nat (State × Nat) :=
  .ok (s.modSeq c (fun q => { q with pairs := modAt q.pairs (bits (u8 r.main 16) 0 3) (fun h => (h.2, h.1)) }), s.after c)

/-- `SETKEY` (R192, R206). -/
def runSetKey (s : State) (c : Nat) (r : Rec) : Except Nat (State × Nat) :=
  .ok (s.modSeq c (fun q => { q with key := u64 r.main 24 }), s.after c)

end Sys2Proof.Machine
end

