-- ==== Sys2Proof/Machine/Completion.lean ====
section
/-! DEFINITION. The sync queue and the completion of records (R195 to R216): RECORD_COMPLETE, NOP, BARRIER and its release and
timeout, SIGNAL, TOKSET, INVAL, END, and the token timer. -/

namespace Sys2Proof.Machine

/-! ## Completion (R198, R214, R215) -/

/-- A status with which a record counts as failed: any but success and E_MISFIT (R171, R198). -/
def failedStatus (status : Nat) : Bool := status != Code.ok && status != Code.misfit

/-- Whether a window with `FRESH` took its flag while this record ran (R253). -/
def Core.staleConsumer (k : Core) (serial : Nat) : Bool :=
  k.watches.any (fun w => w.armed && w.recSerial == serial && w.flag && w.fresh)

/-- The windows of a record close when it completes (R252). -/
def Core.closeWindows (k : Core) (serial : Nat) : Core :=
  { k with watches := k.watches.map (fun w => if w.armed && w.recSerial == serial then .reset else w) }

/-- The status a finished record completes with: E_STALE where its snapshot went stale while it ran (R253). -/
def Core.finalStatus (k : Core) (serial status : Nat) : Nat :=
  if !failedStatus status && k.staleConsumer serial then Code.stale else status

/-- Every queue without the record of an instance number. -/
def Core.dropEntry (k : Core) (serial : Nat) : Core :=
  { k with queues := k.queues.map (fun q => q.filter (fun e => e.serial != serial)) }

/-- The record's ledger is added to the ledger table of its partition and to the totals of its job (R59 to R61, R384). -/
def State.bookLedger (s : State) (p : Nat) (e : QEntry) (led : Ledger) : State :=
  (s.addLedger p (s.secField p 8 8) (s.secField p 16 4) (s.secField p 20 4) e.opid led).modJob p
    (fun j => { j with total := j.total.add led })

/-- RECORD_COMPLETE: record `n` of queue `q`, whose engine has finished, reaches its completion point: its ledger is added
(R61), its signal applied unless it failed (R198), its completion record written when asked or failed (R214), its windows
closed (R252), its place freed; a failure halts the stream (R215). -/
def State.doComplete (s : State) (l q n : Nat) : State :=
  match s.physOf l with
  | none => s
  | some c =>
    let k := s.core c
    match (k.queue q)[n]? with
    | none => s
    | some e =>
      match e.phase with
      | .done status0 led detail shift =>
        let p := s.partOfPhys c
        let status := k.finalStatus e.serial status0
        let bad := failedStatus status
        let s1 := s.setCore c (((k.dropEntry e.serial).closeWindows e.serial).markHeads s.ft)
        let s2 := if q = 4 then s1 else s1.bookLedger p e led
        let s3 := s2.event c 0x0502 led.counters.sum
        let s4 := if e.sigEn && !bad then s3.addToken c e.sigCtr e.sigInc else s3
        let s5 := if e.cpl || bad then
            s4.putCompletion p e.tag (complBytes status e.tag e.opid e.engine (s.cplFlags p shift) 0 e.index led detail s.ft)
          else s4
        let s6 := s5.traceDone c e.engine e.opid e.tag e.channel status led shift
        let s7 := if bad then s6.haltStream c (s6.failureOf e status detail) else s6.settleStream c
        s7.recordDone c e.engine e.opid e.tag
      | _ => s

/-! ## The sync queue -/

/-- Runs the sync record at the head of its queue, when it is of the kind that `f` gives an effect (R195, R198). -/
def State.syncOp (s : State) (l : Nat) (f : State → Nat → QEntry → Option State) : State :=
  match s.ready l 4 with
  | some (c, i, e) =>
    match f (s.startEntry c 4 i e (.running 0)) c e with
    | some s1 => s1.setPhase c 4 i (Outcome.good {}).phase
    | none => s
  | none => s

/-- NOP (R182, R198). -/
def State.doNop (s : State) (l : Nat) : State :=
  s.syncOp l (fun s1 _ e => if e.op = .nop then some s1 else none)

/-- TOKSET (R203). -/
def State.doTokset (s : State) (l : Nat) : State :=
  s.syncOp l (fun s1 c e => match e.op with
    | .tokset ctr v => some (s1.modSeq c (fun q => { q with tokens := setAt q.tokens ctr v }))
    | _ => none)

/-- INVAL (R198, R199, R285). -/
def State.doInval (s : State) (l : Nat) : State :=
  s.syncOp l (fun s1 c e => if e.op = .inval then some (s1.setCore c { s1.core c with icache := [] }) else none)

/-- The `KEY` of a remote signal (R200, R303). -/
def signalKey (core ctr inc : Nat) : Nat := core + 512 * ctr + 65536 * inc

/-- SIGNAL: adds to a counter of a core of the partition, or sends the increment to a module on TC0 (R200, R201). Increments
for cores that a repair hold holds are discarded (R410). -/
def State.doSignal (s : State) (l : Nat) : State :=
  s.syncOp l (fun s1 c e => match e.op with
    | .signal core ctr inc module remote =>
      let p := s1.partOfPhys c
      if remote then
        some (s1.queueTc0 p (s1.newPacket p module 0x10 false 0 0 0 (signalKey core ctr inc) []))
      else match (s1.coresOf p).lookup core with
        | some t => some (if (s1.part p).hold then s1 else s1.addToken t ctr inc)
        | none => some s1
    | _ => none)

/-- Every earlier record of the stream has completed (R210, R216). -/
def Core.earlierDone (k : Core) (serial : Nat) : Bool := k.entries.all (fun x => decide (serial ≤ x.serial))

/-- BARRIER: the core arrives, once its barrier is at the head of the sync queue, its wait satisfied and every earlier record
complete (R210); where the barrier logic has been marked failed it halts (R213). -/
def State.doBarrier (s : State) (l : Nat) : State :=
  match s.ready l 4 with
  | some (c, i, e) =>
    match e.op with
    | .barrier seq _ =>
      if !(s.core c).earlierDone e.serial then s else
      let s1 := s.startEntry c 4 i e (.running 0)
      let failed := match s.job (s.partOfPhys c) with
        | some j => j.failed
        | none => false
      if failed then s1.failStream c e Code.barAbort 0
      else s1.modSeq c (fun q => { q with arrived := some seq, arrivedAt := s.ft })
    | _ => s
  | none => s

/-- END: once every earlier record has completed it writes the stream result with `STATUS` 0x0000, and the stream has ended
(R216). -/
def State.doEnd (s : State) (l : Nat) : State :=
  match s.ready l 4 with
  | some (c, i, e) =>
    if e.op ≠ .endStream ∨ !(s.core c).earlierDone e.serial then s else
    let p := s.partOfPhys c
    let bs := complBytes Code.ok e.tag e.opid e.engine (s.cplFlags p 0) 0 e.index {} 0 s.ft
    let s1 := s.startEntry c 4 i e (.running 0)
    let s2 := if e.cpl then s1.putCompletion p e.tag bs else s1
    let k := (s2.core c).dropEntry e.serial
    let s3 := s2.setCore c { k with seq := { k.seq with running := false, error := 0 } }
    let s4 := s3.modJob p (fun j => { j with results := SMap.set [] k.seq.dirIndex bs j.results })
    let s5 := match s4.job p with
      | some j => s4.putRecord p (j.resultBase + 64 * k.seq.dirIndex) bs
      | none => s4
    (s5.traceDone c e.engine e.opid e.tag 0 Code.ok {} 0).recordDone c e.engine e.opid e.tag
  | none => s

/-! ## Barriers of a partition (R211 to R213, R334) -/

/-- A step barrier of the partition has fully arrived: below `ACCUM_STEPS` it releases, at `ACCUM_STEPS` it is held for the
exchange (R334). -/
def State.stepBarrier (s : State) (p : Nat) (t : ExTable) : State :=
  let m := (s.exch p).mstep + 1
  let s1 := s.modExch p (fun x => { x with mstep := m })
  if m < s.secField p 4 2 then s1.releaseBarrier p else s1.holdStep p t

/-- BARRIER_RELEASE: every core of the partition has arrived. Differing `BAR_SEQ` halt them all; a fabric barrier is reported
once to its group; a step barrier counts; any other releases (R211, R212, R334). -/
def State.doBarrierRelease (s : State) (p : Nat) : State :=
  if !s.allArrived p ∨ (s.exch p).held ∨ (s.part p).fabWait then s else
  match s.arrivals p with
  | [] => s
  | (seq, sc) :: rest =>
    if rest.any (fun a => a.1 != seq) then s.haltAll p Code.barMismatch
    else if sc = 1 ∨ rest.any (fun a => a.2 == 1) then
      (s.setPart p { s.part p with fabWait := true }).reportArrival p seq
    else match (s.exch p).tbl with
      | some t => if s.exchOn p ∧ seq = t.stepSeq then s.stepBarrier p t else s.releaseBarrier p
      | none => s.releaseBarrier p

/-- `BAR_LIMIT` in ns (R175). -/
def Job.barNs (j : Job) : Nat := (if j.barLimit = 0 then 1000 else j.barLimit) * 10 ^ 6

/-- `TOKEN_LIMIT` in ns; none for no limit (R175). -/
def Job.tokenNs (j : Job) : Option Nat :=
  if j.tokenLimit = 0xFFFFFFFF then none else some ((if j.tokenLimit = 0 then 100000 else j.tokenLimit) * 1000)

/-- BARRIER_TIMEOUT: a core that has waited at a barrier for longer than `BAR_LIMIT` halts (R213); not while the step barrier is
held (R334), nor while a core of the partition is frozen (R472). -/
def State.doBarrierTimeout (s : State) (l : Nat) : State :=
  match s.physOf l with
  | none => s
  | some c =>
    let p := s.partOfPhys c
    let k := s.core c
    match s.job p, k.seq.arrived, k.queue 4 with
    | some j, some _, e :: _ =>
      if s.anyFrozen p ∨ (s.exch p).held ∨ s.ft ≤ k.seq.arrivedAt + j.barNs then s
      else s.failStream c e Code.barTimeout 0
    | _, _, _ => s

/-- The record at the head of queue `q` that waits on a token (R202): on the sync queue only when nothing runs there. -/
def Core.headWait (k : Core) (q : Nat) : Option QEntry :=
  match firstWaiting 0 (k.queue q) with
  | some (i, e) => if e.waitEn && (q != 4 || i == 0) then some e else none
  | none => none

/-- TOKEN_TIMEOUT: the wait at the head of a queue has lasted longer than `TOKEN_LIMIT`, and the stream halts (R202). -/
def State.doTokenTimeout (s : State) (l q : Nat) : State :=
  match s.physOf l with
  | none => s
  | some c =>
    let p := s.partOfPhys c
    let k := s.core c
    match (s.job p).bind Job.tokenNs, k.headWait q with
    | some lim, some e =>
      if s.anyFrozen p ∨ s.ft ≤ (e.headAt.getD s.ft) + lim then s
      else s.failStream c e Code.tokenTimeout
        (e.waitCtr + 2 ^ 16 * k.seq.tokens.getD e.waitCtr 0 + 2 ^ 32 * e.waitCnt)
    | _, _ => s

end Sys2Proof.Machine
end

