-- ==== Sys2Proof/Machine/Jobs.lean ====
section
/-! DEFINITION. Jobs (R175 to R177, R219, R254, R380 to R386): submission entries, the stream image and its checks, the start
of a job's streams, copy lists and completion entries. -/

namespace Sys2Proof.Machine

/-! ## Rings -/

/-- Ring pair `n` of partition `p`. -/
def State.ring (s : State) (p n : Nat) : Ring := SMap.get Ring.reset (64 * p + n) s.hif.pairs
/-- Replaces a ring pair. -/
def State.setRing (s : State) (p n : Nat) (r : Ring) : State :=
  { s with hif := { s.hif with pairs := SMap.set Ring.reset (64 * p + n) r s.hif.pairs } }
/-- Changes a ring pair. -/
def State.modRing (s : State) (p n : Nat) (f : Ring → Ring) : State := s.setRing p n (f (s.ring p n))

/-- Entries of a ring. -/
def Ring.size (r : Ring) : Nat := 2 ^ r.log2
/-- `PRIO` (R390). -/
def Ring.prio (r : Ring) : Nat := bits r.cfg 6 2
/-- `VECTOR` (R390). -/
def Ring.vector (r : Ring) : Nat := bits r.cfg 16 9
/-- Whether the ring has an entry pending and may have it started (R381, R386). -/
def Ring.due (r : Ring) : Bool := r.enabled && !r.stopped && r.tail != r.head

/-- The jobs of a partition: the one that runs and the one selected behind it (R382). -/
def State.jobsOf (s : State) (p : Nat) : List Job := (s.part p).job.toList ++ (s.part p).next.toList

/-- Jobs of ring `n` that the module has taken and not completed. -/
def State.taken (s : State) (p n : Nat) : Nat := (s.jobsOf p).countP (fun j => j.ring == n)

/-- Whether a completion entry of the ring is free beside those of the jobs already taken (R382, R385). One entry always stays
free, as on the submission side (R381): DEDUCED. -/
def State.complRoom (s : State) (p n : Nat) : Bool :=
  let r := s.ring p n
  decide ((r.cqIdx + (r.size - r.cqHead)) % r.size + s.taken p n + 1 < r.size)

/-- The first pending entry of a ring leaves it. -/
def Ring.take (r : Ring) : Ring := { r with head := (r.head + 1) % r.size }

/-- A host-memory error while an entry or copy list is read: the ring stops with the entry still pending, and E_RING_FAULT is
raised (R386). Its chapter gives the event no detail. -/
def State.ringFault (s : State) (p n : Nat) : State :=
  (s.modRing p n (fun r => { r with stopped := true })).postEvent (.vf p) Code.ringFault []

/-! ## Submission entries (R380) and copy lists (R383) -/

/-- `COPY_COUNT`. -/
def copyCount (e : Bytes) : Nat := u16 e 56

/-- Whether a submission entry is invalid (R380). -/
def subBad (e : Bytes) : Bool :=
  (u8 e 0 != 1 && u8 e 0 != 2) || bits (u8 e 1) 2 6 != 0 || !zeroAt e 4 4 || !zeroAt e 58 6 ||
    decide (4096 < copyCount e) || (u64 e 48 == 0 && copyCount e != 0) || u64 e 48 % 8 != 0

/-- The host address of a copy. -/
def CopyEntry.host (c : CopyEntry) : Nat := u64 c.raw 0
/-- The device address of a copy. -/
def CopyEntry.dev (c : CopyEntry) : Nat := u64 c.raw 8
/-- Bytes copied. -/
def CopyEntry.len (c : CopyEntry) : Nat := u32 c.raw 16
/-- A copy-out. -/
def CopyEntry.out (c : CopyEntry) : Bool := bit (u8 c.raw 20) 0
/-- `ALWAYS`. -/
def CopyEntry.always (c : CopyEntry) : Bool := bit (u8 c.raw 20) 1
/-- A malformed entry (R383): a length out of range or a reserved bit set. -/
def CopyEntry.bad (c : CopyEntry) : Bool :=
  c.len == 0 || decide (2 ^ 30 < c.len) || bits (u8 c.raw 20) 2 6 != 0 || !zeroAt c.raw 21 11

/-- The entries of a copy list. -/
def readCopies (bs : Bytes) (n : Nat) : List CopyEntry :=
  (List.range n).map (fun i => ⟨i, (bs.drop (32 * i)).take 32⟩)

/-- The copy-ins of a list up to its first malformed entry, which ends them. -/
def copyInsOf : List CopyEntry → List CopyEntry
  | [] => []
  | c :: cs => if c.bad then [c] else if c.out then copyInsOf cs else c :: copyInsOf cs

/-- The job of a submission entry, before it has run. -/
def newJob (ring sqHead : Nat) (e : Bytes) (copies : List CopyEntry) (early : Option (Nat × Nat)) : Job :=
  { ring, irq := bit (u8 e 1) 0, stopOnErr := bit (u8 e 1) 1, subTag := u16 e 2, sqHead, image := u64 e 8,
    args := [u64 e 16, u64 e 24, u64 e 32, u64 e 40], copyIns := copyInsOf copies, copyOuts := copies.filter CopyEntry.out,
    launched := false, early, copyFail := none, aborted := false, discard := false, forecast := false, cplBase := 0,
    cplSlots := 0, tokenLimit := 0, resultBase := 0, barLimit := 0, dir := [], results := [], failed := false,
    breach := false, fcEnds := [], total := {} }

/-- The copying of a job has failed before it ran: nothing runs and nothing is copied out (R383). -/
def Job.copyInFailed (j : Job) (index : Nat) : Job :=
  { j with early := some (Code.hostCopy, index), copyIns := [], copyOuts := [] }

/-- A malformed entry at the front of the remaining copy-ins ends the copying (R383). -/
def Job.dropBad (j : Job) : Job :=
  match j.copyIns with
  | c :: _ => if c.bad then j.copyInFailed c.index else j
  | [] => j

/-! ## The stream image (R175, R176) -/

/-- What a directory says. -/
def readDir (bs : Bytes) (n : Nat) : List DirEntry :=
  (List.range n).map (fun i => { addr := u64 bs (16 * i), lcore := u16 bs (16 * i + 8), len := u32 bs (16 * i + 12) })

/-- A directory entry within its ranges. -/
def dirEntryOk (bs : Bytes) (i : Nat) : Bool :=
  u64 bs (16 * i) % 64 == 0 && decide (u64 bs (16 * i) < 2 ^ 44) && zeroAt bs (16 * i + 10) 2 &&
    decide (1 ≤ u32 bs (16 * i + 12)) && decide (u32 bs (16 * i + 12) ≤ 2 ^ 26)

/-- A header within its ranges (R175). -/
def headerOk (h : Bytes) : Bool :=
  u16 h 0 == 1 && decide (1 ≤ u16 h 2) && decide (u16 h 2 ≤ 512) && zeroAt h 4 4 && zeroAt h 60 4 &&
    (if u64 h 32 = 0 then u32 h 40 == 0 else isPow2 (u32 h 40) && decide (u32 h 40 ≤ 2 ^ 20))

/-- No number stands twice in a list. -/
def noRepeat : List Nat → Bool
  | [] => true
  | x :: xs => !xs.contains x && noRepeat xs

/-- Reads and checks the image at an address in the order of R176: its header and directory, or the status it fails with. -/
def State.readImage (s : State) (p a : Nat) : State × Except Nat (Bytes × List DirEntry) :=
  if a % 64 ≠ 0 then (s, .error Code.badImage) else
  let r := s.devRead p a 64 false
  match r.2 with
  | .error _ => (r.1, .error Code.busErr)
  | .ok h =>
    let n := min (u16 h 2) 512
    let d := r.1.devRead p (a + 64) (16 * n) false
    match d.2 with
    | .error _ => (d.1, .error Code.busErr)
    | .ok bs =>
      let dir := readDir bs n
      if !headerOk h ∨ (List.range n).any (fun i => !dirEntryOk bs i) then (d.1, .error Code.badImage)
      else if dir.any (fun e => ((s.coresOf p).lookup e.lcore).isNone) then (d.1, .error Code.noEngine)
      else if !noRepeat (dir.map (·.lcore)) then (d.1, .error Code.badImage)
      else (d.1, .ok (h, dir))

/-! ## The forecast (R219, R254) -/

/-- The grade code of R2. -/
def State.gradeCode (s : State) : Nat := if s.gradeS then 0x53 else 0x41

/-- Whether a signature matches the module and the class in force (R219). -/
def State.sigOk (s : State) (sig : Nat) : Bool :=
  bits sig 0 16 == 0x4816 && bits sig 16 8 == s.gradeCode && bits sig 24 8 == s.cls && bits sig 32 32 != 0 &&
    s.hif.fcRevs.contains (bits sig 32 32)

/-- Offset and cause of the first field of a forecast that breaks its layout (R254). -/
def forecastBad (fc : Bytes) (sig : Nat) (dir : List DirEntry) : Option (Nat × Nat) :=
  if u64 fc 0 ≠ sig then some (0, 1)
  else if u16 fc 8 ≠ dir.length then some (8, 2)
  else if u8 fc 10 ≠ 2 then some (10, 3)
  else if !zeroAt fc 11 5 then some (11, 4)
  else if !zeroAt fc 24 40 then some (24, 4)
  else dir.zipIdx.findSome? (fun e =>
    if u16 fc (64 + 16 * e.2) ≠ e.1.lcore then some (64 + 16 * e.2, 5)
    else if !zeroAt fc (66 + 16 * e.2) 6 then some (66 + 16 * e.2, 4) else none)

/-- Raises E_FCAST_INVALID (R254). -/
def State.fcastInvalid (s : State) (p off cause : Nat) : State :=
  s.postEvent (.vf p) Code.fcastInvalid (toLe 4 off ++ toLe 1 cause)

/-- The forecast of an image: its `FC_END` values, or none for unforecast mode. -/
def State.readForecast (s : State) (p : Nat) (h : Bytes) (dir : List DirEntry) : State × Option (List Nat) :=
  let a := u64 h 8
  if a = 0 ∨ !s.sigOk (u64 h 16) then (s, none)
  else if a % 64 ≠ 0 then (s.fcastInvalid p 0 6, none)
  else
    let r := s.devRead p a (64 + 16 * dir.length) false
    match r.2 with
    | .error _ => (r.1.fcastInvalid p 0 6, none)
    | .ok fc =>
      match forecastBad fc (u64 h 16) dir with
      | some (off, cause) => (r.1.fcastInvalid p off cause, none)
      | none => (r.1, some ((List.range dir.length).map (fun i => u64 fc (72 + 16 * i))))

/-! ## The start of a job (R177, R382) -/

/-- The core of logical number `l` set up for a job (R177): its stream state, arrays, walk stores, staging and windows;
register values that outlive a job stay. -/
def Core.jobReset (k : Core) (l : Nat) (args : List Nat) (key : Nat) : Core :=
  { k with
      arr0 := k.arr0.cleared, arr1 := k.arr1.cleared, threads := [], queues := [[], [], [], [], []],
      watches := List.replicate 8 .reset
      seq := { Seq.reset with
                 sv := args ++ l :: List.replicate 11 0, key, serial := k.seq.serial, parityEvents := k.seq.parityEvents,
                 error := k.seq.error, frozen := k.seq.frozen }
      dbg := { k.dbg with done := 0, tagPass := none } }

/-- The core that runs stream `i` of a directory begins it. -/
def Core.beginStream (k : Core) (i : Nat) (e : DirEntry) : Core :=
  { k with seq := { k.seq with running := true, dirIndex := i, base := e.addr, len := e.len } }

/-- Sets up every core of a partition and begins the streams of a directory. -/
def State.startCores (s : State) (p : Nat) (args : List Nat) (key : Nat) (dir : List DirEntry) : State :=
  let s1 := (s.coresOf p).foldl (fun acc e => acc.setCore e.2 ((acc.core e.2).jobReset e.1 args key)) s
  dir.zipIdx.foldl (fun acc e =>
    match (s.coresOf p).lookup e.1.lcore with
    | some c => acc.setCore c ((acc.core c).beginStream e.2 e.1)
    | none => acc) s1

/-- Checks the image of a partition's job and starts its streams, or fails the job with the image's status. -/
def State.launchJob (s : State) (p : Nat) (j : Job) : State :=
  let r := s.readImage p j.image
  match r.2 with
  | .error st => r.1.setPart p { r.1.part p with job := some { j with early := some (st, 0) } }
  | .ok (h, dir) =>
    let f := r.1.readForecast p h dir
    let j1 : Job :=
      { j with launched := true, forecast := f.2.isSome, fcEnds := f.2.getD [], cplBase := u64 h 32,
               cplSlots := if u64 h 32 = 0 then 0 else u32 h 40, tokenLimit := u32 h 44, resultBase := u64 h 48,
               barLimit := u32 h 56, dir }
    (f.1.setPart p { f.1.part p with job := some j1 }).startCores p j.args (u64 h 24) dir

/-- Whether a partition may start a job: a table is in force (R377), and no reset, repair hold, row repair or Nimbus work runs
on it (R276, R289, R382, R410, R411). -/
def State.jobsMayStart (s : State) (p : Nat) : Bool :=
  s.setup.isSome && decide (p < s.layout) && (s.part p).resetting == 0 && !(s.part p).hold &&
    !(s.dies p).any (fun d => (s.slice d).busy) && !(s.stacksOf p).any (fun k => (s.hbmc k).repairing.isSome)

/-- The selected job starts once the partition is idle and its copy-ins have taken effect (R382, R383). -/
def State.promote (s : State) (p : Nat) : State :=
  match (s.part p).job, (s.part p).next with
  | none, some j =>
    if !s.jobsMayStart p ∨ !j.copyIns.isEmpty then s else
    let s1 := s.setPart p { s.part p with job := some j, next := none }
    if j.early.isSome then s1 else s1.launchJob p j
  | _, _ => s

/-- The ring whose entry is next (R382): of the highest priority that has one pending, in round-robin order. -/
def State.selectRing (s : State) (p : Nat) : Option Nat :=
  let due := (List.range 64).filter (fun n => (s.ring p n).due && s.complRoom p n)
  let top := (due.map (fun n => (s.ring p n).prio)).foldl max 0
  let turn := s.hif.turn.getD (4 * p + top) 0
  (((List.range 64).map (fun i => (turn + i) % 64)).find? (fun n => due.contains n && (s.ring p n).prio == top))

/-- Ring `n` has had its turn. -/
def State.turned (s : State) (p n : Nat) : State :=
  { s with hif := { s.hif with turn := setAt s.hif.turn (4 * p + (s.ring p n).prio) ((n + 1) % 64) } }

/-- The copy list of a valid entry as the host answered its read: empty where there is none, nothing for an error. -/
def copiesRead (e : Bytes) (copies : HostRead) : Option (List CopyEntry) :=
  if copyCount e = 0 then some [] else copies.map (fun bs => readCopies bs (copyCount e))

/-- A valid or invalid job entry leaves its ring and becomes the selected job. -/
def State.takeJob (s : State) (p n : Nat) (e : Bytes) (copies : List CopyEntry) (early : Option (Nat × Nat)) : State :=
  let r := (s.ring p n).take
  let s1 := (s.turned p n).setRing p n r
  (s1.setPart p { s1.part p with next := some (newJob n r.head e copies early).dropBad }).promote p

/-- JOB_START: a job already selected starts if it can; otherwise the next entry is read with its copy list, and its job is
selected and started if the partition is idle (R382). A no-operation entry is left to its own command. -/
def State.doJobStart (s : State) (p : Nat) (entry copies : HostRead) : State :=
  if (s.part p).next.isSome then s.promote p
  else if !s.jobsMayStart p then s
  else match s.selectRing p with
    | none => s
    | some n =>
      match entry with
      | none => s.ringFault p n
      | some e =>
        if subBad e then s.takeJob p n e [] (some (Code.badSub, 0))
        else if u8 e 0 = 2 then s
        else match copiesRead e copies with
          | none => s.ringFault p n
          | some cs => s.takeJob p n e cs none

/-! ## Completion (R384, R385) -/

/-- The 32 bytes of a completion entry. -/
def complEntry (status tag sqHead ring flags detail lcore streams mask total ft : Nat) : Bytes :=
  toLe 2 status ++ toLe 2 tag ++ toLe 2 sqHead ++ toLe 1 ring ++ toLe 1 flags ++ toLe 4 detail ++ toLe 2 lcore
    ++ toLe 2 streams ++ toLe 1 mask ++ toLe 3 0 ++ toLe 4 total ++ toLe 8 ft

/-- Writes the next completion entry of a ring, its flags without `PHASE` given, and sends the ring's vector if asked
(R384, R385). -/
def State.putEntry (s : State) (p n : Nat) (irq : Bool) (entry : Nat → Bytes) : State :=
  let r := s.ring p n
  let next := (r.cqIdx + 1) % r.size
  let s1 := s.setRing p n { r with cqIdx := next, phase := if next = 0 then !r.phase else r.phase }
  let s2 := s1.emit (.hostWrite (.vf p) (r.base + 64 * r.size + 32 * r.cqIdx) (entry (b2n r.phase)))
  if irq then s2.emit (.msix (.vf p) r.vector) else s2

/-- The failed stream results of a job: completion time, logical core, status and `OPID`. -/
def Job.failures (j : Job) : List (Nat × Nat × Nat × Nat) :=
  j.results.filterMap (fun e =>
    if u16 e.2 0 = 0 then none else
    some (u64 e.2 56, ((j.dir.map (·.lcore)).getD e.1 0xFFFF), u16 e.2 0, u32 e.2 4))

/-- The failure that a completion reports: the earliest, and of equals that of the lower core (R384). -/
def Job.firstFailure (j : Job) : Option (Nat × Nat × Nat × Nat) :=
  j.failures.foldl (fun acc f => match acc with
    | none => some f
    | some g => if f.1 < g.1 ∨ (f.1 = g.1 ∧ f.2.1 < g.2.1) then some f else some g) none

/-- `STATUS`, `DETAIL` and `FAIL_LCORE` of a job's completion, in the order of R384. -/
def Job.verdict (j : Job) : Nat × Nat × Nat :=
  match j.early with
  | some (st, d) => (st, d, 0xFFFF)
  | none =>
    match j.firstFailure with
    | some (_, l, st, o) => (st, o, l)
    | none =>
      match j.copyFail with
      | some i => (Code.hostCopy, i, 0xFFFF)
      | none => (if j.aborted then Code.jobAborted else Code.ok, 0, 0xFFFF)

/-- Whether a job has failed so far, for its copy-outs (R383). -/
def Job.hasFailed (j : Job) : Bool := j.early.isSome || j.firstFailure.isSome || j.aborted

/-- Whether nothing of a job runs any more: it never started, was aborted, or every stream has its result. -/
def Job.over (j : Job) : Bool :=
  j.early.isSome || j.aborted || (j.launched && decide (j.dir.length ≤ j.results.length))

/-- The copy-outs that are still to be made (R379, R383). -/
def Job.outsDue (j : Job) : List CopyEntry :=
  if j.discard ∨ j.copyFail.isSome then [] else j.copyOuts.filter (fun c => c.always || !j.hasFailed)

/-- `LEDGER_MASK` (R384). -/
def Job.ledgerMask (j : Job) : Nat := maskOf 8 (fun i => j.total.counters.getD i 0 != 0)

/-- The completion entry of a job, given its `PHASE`. -/
def Job.entry (j : Job) (ft phase : Nat) : Bytes :=
  let v := j.verdict
  complEntry v.1 j.subTag j.sqHead j.ring (phase + 2 * b2n (j.launched && !j.forecast) + 4 * b2n j.breach) v.2.1 v.2.2
    j.failures.length j.ledgerMask (satAdd 0xFFFFFFFF 0 j.total.counters.sum) ft

/-- The selected job goes back to its ring, whose first pending entry it is again. -/
def State.unselect (s : State) (p : Nat) : State :=
  match (s.part p).next with
  | some j =>
    (s.setPart p { s.part p with next := none }).modRing p j.ring
      (fun r => { r with head := (r.head + (r.size - 1)) % r.size })
  | none => s

/-- JOB_COMPLETE: a job whose streams have ended and whose copies are made completes: its entry is written, its ring stops when
asked, and the selected job starts (R384 to R386). The completion of a job whose ring has been disabled is discarded (R379). -/
def State.doJobComplete (s : State) (p : Nat) : State :=
  match (s.part p).job with
  | none => s
  | some j =>
    if !j.over ∨ !j.outsDue.isEmpty then s else
    let s1 := s.setPart p { s.part p with job := none }
    let s2 := if j.discard then s1 else s1.putEntry p j.ring j.irq (j.entry s.ft)
    let stop : Bool := j.stopOnErr && j.verdict.1 != 0 && !j.discard
    let s3 := if stop then s2.modRing p j.ring (fun r => { r with stopped := true }) else s2
    let back : Bool := stop && (match (s3.part p).next with
      | some x => x.ring == j.ring
      | none => false)
    (if back then s3.unselect p else s3).promote p

/-- NO_OPERATION_ENTRY: the first pending entry of a ring is a no-operation, no earlier job of the ring is open, and it
completes (R380). -/
def State.doNoOperation (s : State) (p n : Nat) (entry : HostRead) : State :=
  if !(s.jobsMayStart p && (s.ring p n).due && s.complRoom p n && s.taken p n == 0) then s else
  match entry with
  | none => s.ringFault p n
  | some e =>
    if subBad e ∨ u8 e 0 ≠ 2 then s else
    let s1 := s.setRing p n (s.ring p n).take
    s1.putEntry p n (bit (u8 e 1) 0) (fun ph =>
      complEntry Code.ok (u16 e 2) (s1.ring p n).head n ph 0 0xFFFF 0 0 0 s.ft)

/-! ## Copies (R383) -/

/-- Changes the selected job. -/
def State.modNext (s : State) (p : Nat) (f : Job → Job) : State :=
  s.setPart p { s.part p with next := (s.part p).next.map f }

/-- HOST_COPY_IN: the next copy-in of the selected job is written to the partition, or fails; after the last one the job may
start. -/
def State.doHostCopyIn (s : State) (p : Nat) (data : HostRead) : State :=
  match (s.part p).next with
  | none => s
  | some j =>
    match j.copyIns with
    | [] => s
    | c :: _ =>
      match data with
      | none => (s.modNext p (fun j => j.copyInFailed c.index)).promote p
      | some bs =>
        let r := s.devWrite p c.dev (padTo c.len bs) false
        match r.2 with
        | .ok _ => ((r.1.gevent 6 0 3 c.len).modNext p (fun j => ({ j with copyIns := j.copyIns.drop 1 } : Job).dropBad)).promote p
        | .error _ => (r.1.modNext p (fun j => j.copyInFailed c.index)).promote p

/-- HOST_COPY_OUT: the next copy-out of a job whose streams have ended is written to the host, or fails. -/
def State.doHostCopyOut (s : State) (p : Nat) (ok : Bool) : State :=
  match (s.part p).job with
  | none => s
  | some j =>
    if !j.over then s else
    match j.outsDue with
    | [] => s
    | c :: _ =>
      let r := s.devRead p c.dev c.len false
      let failed := r.1.modJob p (fun j => { j with copyFail := some c.index })
      match r.2 with
      | .error _ => failed
      | .ok bs =>
        if !ok then failed else
        ((r.1.gevent 6 0 3 c.len).modJob p (fun j => { j with copyOuts := j.copyOuts.filter (fun x => decide (c.index < x.index)) })).emit
          (.hostWrite (.vf p) c.host bs)

/-- HOST_COMPLETION_TIMEOUT: a request of the module to host memory that times out is a host-memory error (R365, R386).
Copy-outs are posted writes, which await no completion. -/
def State.doHostTimeout (s : State) (r : HostRequest) : State :=
  match r with
  | .submission p n =>
    if (s.part p).next.isNone && s.jobsMayStart p && (s.ring p n).due then s.ringFault p n else s
  | .copyList p =>
    if (s.part p).next.isNone && s.jobsMayStart p then
      match s.selectRing p with
      | some n => s.ringFault p n
      | none => s
    else s
  | .copyIn p => s.doHostCopyIn p none
  | .copyOut _ => s

/-! ## The end of a job by a reset (R371, R408, R411) -/

/-- A reset ends the running job of a partition with E_JOB_ABORTED, and its streams are over; the job selected behind it is
fetched again afterwards. -/
def State.abortJob (s : State) (p : Nat) : State :=
  (s.unselect p).modJob p (fun j => { j with aborted := true })

end Sys2Proof.Machine
end

