-- ==== Sys2Proof/Machine/MemCmds.lean ====
section
/-! DEFINITION. Upkeep of memory (R274 to R280, R288 to R292) and the field-repair bank (R396 to R398): refresh, patrol scrub, row
repair, evacuation and retirement of channels, slab configuration and write-back of the slices. -/

namespace Sys2Proof.Machine

/-! ## The field-repair bank -/

/-- Whether the bank has its 256 entries (R397). -/
def State.bankFull (s : State) : Bool := decide (256 ≤ s.chip.bank.length)

/-- A retirement writes its entry, or raises E_REPAIR_FULL when the bank is full (R397, R398). -/
def State.fuseEntry (s : State) (p kind place cause : Nat) : State :=
  if s.bankFull then s.postEvent (.vf p) Code.repairFull []
  else { s with chip := { s.chip with bank := s.chip.bank ++ [kind + 16 * place + 2 ^ 20 * cause] } }

/-- `WHERE` of a physical core. -/
def corePlace (c : Nat) : Nat := c / 144 + 4 * (c % 12) + 64 * (c / 12 % 12)
/-- `WHERE` of a channel. -/
def chanPlace (stack ch : Nat) : Nat := stack + 16 * ch
/-- `WHERE` of a slab. -/
def slabPlace (d t : Nat) : Nat := d + 4 * t

/-! ## Rows and code words of a stack -/

/-- The partition that owns a stack. -/
def State.partOfStack (s : State) (k : Nat) : Nat := s.partOfDie (k / 3)

/-- The logical index of a pseudo-channel under R263, where it is active. -/
def State.pcIndex (s : State) (p : Nat) (i : PcId) : Option Nat :=
  let l := s.activePcs p
  let n := l.idxOf i
  if n < l.length then some n else none

/-- The address of the granule of index `i` in row-and-bank order `q`: the inverse of R264. -/
def granuleAt (n i q : Nat) : Nat :=
  let h := (q ^^^ (q >>> 5) ^^^ (q >>> 11)) % n
  2048 * (q * n + (i + (n - h)) % n)

/-- The first partition address of a row (R281). -/
def State.rowAddr (s : State) (p : Nat) (k : Nat) (r : RowId) : Nat :=
  match s.pcIndex p ⟨k, r.channel, r.pc⟩ with
  | some i => granuleAt (max 1 (s.activePcs p).length) i (64 * r.row + (r.bank ^^^ (r.row % 64)))
  | none => 0

/-- Raises an event about a row (R281, R282). -/
def State.rowEvent (s : State) (k code : Nat) (r : RowId) : State :=
  let p := s.partOfStack k
  s.postEvent (.vf p) code (memDetail code k r.channel r.pc r.bank r.row (s.rowAddr p k r) 2048 0 s.ft)

/-- The code word that the scrub of a stack reads next, by its position: word, then pseudo-channel, then row (R275). The
order is the model's: DESIGN CHOICE (log 21). -/
def State.scrubLine (s : State) (k : Nat) : Option Nat :=
  let p := s.partOfStack k
  let mine := (s.activePcs p).filter (fun i => i.stack == k)
  let pos := (s.hbmc k).scrubPos
  match mine[(pos / 8) % max 1 mine.length]? with
  | none => none
  | some i => (s.pcIndex p i).map (fun n =>
      granuleAt (max 1 (s.activePcs p).length) n (pos / 8 / max 1 mine.length) + 256 * (pos % 8))

/-- Code words of a stack's active pseudo-channels. -/
def State.scrubWords (s : State) (k : Nat) : Nat :=
  2 ^ 22 * ((s.activePcs (s.partOfStack k)).filter (fun i => i.stack == k)).length

/-- A code word is found uncorrectable while its home slice holds the line: the word is good again and the event says so
(R273). A pattern that passes for another code word is reported by nothing (R271). -/
def State.scrubHeld (s : State) (p line : Nat) (errs : List (Nat × Byte)) : State :=
  let r := s.fresh
  if Config.miscorrects r.1 then r.2 else r.2.recoverWord p line errs

/-- Whether symbol errors leave a code word uncorrectable (R271). -/
def uncorrectable (flt : MemFault) : Option (List (Nat × Byte)) :=
  match flt with
  | .symbols errs => if 4 < halfErrors errs 0 ∨ 4 < halfErrors errs 1 then some errs else none
  | _ => none

/-- The scrub of one code word (R273, R275). -/
def State.scrubWord (s : State) (p line : Nat) (flt : MemFault) : State :=
  match uncorrectable flt with
  | some errs =>
    if (s.slice (s.homeDie p line)).holds line && !SMap.get false line (s.part p).poison then s.scrubHeld p line errs
    else (s.readWord p line flt).1
  | none => (s.readWord p line flt).1

/-- PATROL_SCRUB: the controller reads the next code word of its stack, corrects or poisons it, and goes on; a period of 0
stops the scrub (R275). -/
def State.doPatrolScrub (s : State) (k : Nat) (flt : MemFault) : State :=
  let h := s.hbmc k
  if h.period = 0 ∨ !h.trained then s else
  match s.scrubLine k with
  | none => s
  | some line =>
    let s1 := s.scrubWord (s.partOfStack k) line flt
    let next := (h.scrubPos + 1) % max 1 (s.scrubWords k)
    s1.setHbmc k { s1.hbmc k with scrubPos := next, scrubActive := next != 0 }

/-- REFRESH: a bank is refreshed, which changes no data; the cycles that a refresh occupies its bank for are not stated, so a
free number of them counts (R274, R463). -/
def State.doRefresh (s : State) (stack _pc _channel _bank : Nat) : State :=
  let r := s.fresh
  r.2.gevent 2 stack 4 (Config.freeValue r.1).toNat

/-! ## Row repair (R276) -/

/-- A row is marked for repair. -/
def State.markRow (s : State) (k : Nat) (r : RowId) : State :=
  if (s.hbmc k).pendRows.contains r then s else
  (s.setHbmc k { s.hbmc k with pendRows := (s.hbmc k).pendRows ++ [r] }).rowEvent k Code.rowRepairPending r

/-- ROW_REPAIR: the first row that waits is repaired, while no job runs on the partition. -/
def State.doRowRepair (s : State) (k : Nat) : State :=
  let h := s.hbmc k
  match h.pendRows, h.repairing with
  | r :: rest, none =>
    if (s.part (s.partOfStack k)).job.isSome then s else s.setHbmc k { h with pendRows := rest, repairing := some r }
  | _, _ => s

/-- ROW_REPAIR_DONE: the bank reopens, and the event says whether a spare row was left; jobs that waited start. -/
def State.doRowRepairDone (s : State) (k : Nat) (repaired : Bool) : State :=
  let h := s.hbmc k
  match h.repairing with
  | none => s
  | some r =>
    let s1 := s.setHbmc k { h with repairing := none, repairs := if repaired then satAdd 255 h.repairs 1 else h.repairs }
    let s2 := if repaired then s1.rowEvent k Code.rowRepaired r
      else ({ s1 with chip := { s1.chip with memErr := true } } : State).rowEvent k Code.rowUnrepairable r
    s2.promote (s.partOfStack k)

/-! ## Evacuation and retirement of channels (R277 to R280) -/

/-- Raises an event about a channel; the range is the 2 GiB that its retirement discards (R281). -/
def State.chanEvent (s : State) (p code k c : Nat) : State :=
  s.postEvent (.vf p) code (memDetail code k c 0 0xFF 0xFFFF (((s.part p).topGib - 2) * gib) (2 * gib) 0 s.ft)

/-- Marks the stacks of a partition as taking part in a migration, or not (R292). -/
def State.markMigrating (s : State) (p : Nat) (b : Bool) : State :=
  (s.stacksOf p).foldl (fun acc k => acc.setHbmc k { acc.hbmc k with migrating := b }) s

/-- The migration of the first channel that waits begins, if the reserve or a forced retirement allows it; a channel that
finds no reserve is dropped from the list with E_NO_RESERVE (R278, R280). -/
def State.beginMigration (s : State) (p : Nat) : List (Nat × Nat × Bool) → State
  | [] => s.setPart p { s.part p with evac := [] }
  | (k, c, forced) :: rest =>
    if (s.part p).reserve = 0 ∧ !forced then (s.chanEvent p Code.noReserve k c).beginMigration p rest
    else ((s.setPart p { s.part p with evac := (k, c, forced) :: rest }).markMigrating p true).chanEvent p Code.chEvacuating k c

/-- A channel degrades, or is to be retired by the physical function: it is evacuated now, or waits for the migration at hand
(R278). -/
def State.degradeChannel (s : State) (k c : Nat) (forced : Bool) : State :=
  let p := s.partOfStack k
  let q := s.part p
  if s.pcRetired ⟨k, c, 0⟩ || q.evac.any (fun e => e.1 == k && e.2.1 == c) then s
  else if q.evac.isEmpty then s.beginMigration p [(k, c, forced)]
  else s.setPart p { q with evac := q.evac ++ [(k, c, forced)] }

/-- GO without `FORCE` (R292). -/
def State.doGo (s : State) (k c : Nat) : State := s.degradeChannel k c false
/-- GO with `FORCE` (R280, R292). -/
def State.doForce (s : State) (k c : Nat) : State := s.degradeChannel k c true

/-- Every dirty line of a slice is written back, a poisoned one as a poisoned code word (R288, R289). -/
def State.writeBack (s : State) (d : Nat) : State :=
  let p := s.partOfDie d
  let sl := s.slice d
  (sl.dir.filter (fun e => e.2.valid && e.2.dirty)).foldl (fun acc e =>
    let a := e.2.addr
    let s1 := (acc.gevent 3 d 2 1).gevent 2 (acc.pcOf p a).stack 1 1
    if sl.poisoned a then s1.setPoison p a true else s1)
    (s.setSlice d { sl with dir := sl.dir.map (fun e => (e.1, { e.2 with dirty := false })) })

/-- The cache of a slice is invalidated (R289, R290). -/
def Slice.emptied (sl : Slice) : Slice :=
  { sl with dir := [], plru := [], poison := sl.poison.filter (fun e => decide (scratchBase ≤ e.1)) }

/-- The caches of a partition's slices are written back and emptied. -/
def State.emptyCaches (s : State) (p : Nat) : State :=
  (s.dies p).foldl (fun acc d => let s1 := acc.writeBack d; s1.setSlice d (s1.slice d).emptied) s

/-- The interleave loses one channel: its pseudo-channels are retired and the top 2 GiB of the range are gone. Lines that the
slices hold move to their new homes through memory, since a line's home follows the interleave (R265): DEDUCED (log 21). -/
def State.dropChannel (s : State) (p k c : Nat) : State :=
  let s0 := s.emptyCaches p
  let h := s0.hbmc k
  let s1 := s0.setHbmc k { h with retired0 := h.retired0 ||| 2 ^ c, retired1 := h.retired1 ||| 2 ^ c }
  let q := s1.part p
  let top := q.topGib - 2
  s1.setPart p { q with topGib := top, hbm := q.hbm.filter (fun a => decide (a < top * gib))
                        poison := q.poison.filter (fun e => decide (e.1 < top * gib)) }

/-- CHANNEL_RETIRE: a migration has ended. The channel is retired, the top falls by 2 GiB and the reserve by one unit, its
field-repair entry is written, and the next channel that waits begins (R278, R406). -/
def State.doChannelRetire (s : State) (p : Nat) : State :=
  match (s.part p).evac with
  | [] => s
  | (k, c, _) :: rest =>
    let s1 := (s.dropChannel p k c).markMigrating p false
    let s2 := s1.setPart p { s1.part p with reserve := (s1.part p).reserve - 1 }
    let detail := memDetail Code.chRetired k c 0 0xFF 0xFFFF ((s2.part p).topGib * gib) (2 * gib) 0 s2.ft
    ((s2.postEvent (.vf p) Code.chRetired detail).fuseEntry p 2 (chanPlace k c) 4).beginMigration p rest

/-! ## Slabs (R288 to R291, R407) -/

/-- The slab configuration written in `NIM_SLAB_MODE`. -/
def Slice.modeMask (sl : Slice) : Nat :=
  ((sl.mode.zipIdx.map (fun e => e.1.toNat * 2 ^ (32 * e.2))).sum % 2 ^ 144) &&& (2 ^ 144 - 1 - sl.retired)

/-- Clears the scratchpad bytes, and poison, of the slabs that `keep` rejects. -/
def Slice.clearSlabs (sl : Slice) (keep : Nat → Bool) : Slice :=
  { sl with scratch := sl.scratch.filter (fun a => keep (a / slabBytes))
            poison := sl.poison.filter (fun e =>
              decide (e.1 < scratchBase) || keep ((e.1 - scratchBase) % sliceBytes / slabBytes)) }

/-- Marked slabs are retired (R407): neither cache nor scratchpad, their mode bits 0. -/
def Slice.retireMarked (sl : Slice) : Slice :=
  let retired := sl.retired ||| sl.marked
  { sl with retired, marked := 0
            mode := sl.mode.zipIdx.map (fun e => e.1 &&& BitVec.ofNat 32 (2 ^ 32 - 1 - bits retired (32 * e.2) 32)) }

/-- Raises E_SLAB_RETIRED for the marked slabs of a slice, which now are retired, and writes their entries (R396, R407, R414). -/
def State.retireMarked (s : State) (d : Nat) : State :=
  let p := s.partOfDie d
  let marked := (List.range slabCount).filter (fun t => (s.slice d).marked.testBit t)
  marked.foldl (fun acc t => (acc.postEvent (.vf p) Code.slabRetired []).fuseEntry p 3 (slabPlace d t) 5)
    (s.setSlice d (s.slice d).retireMarked)

/-- Puts a configuration of a slice in force: the slabs that become scratchpad read as zero (R289). -/
def State.switchSlabs (s : State) (d mode : Nat) : State :=
  let sl := (s.slice d).emptied
  let mask := mode &&& (2 ^ 144 - 1 - sl.retired)
  s.setSlice d { (sl.clearSlabs (fun t => !(sl.inForce.testBit t) && !mask.testBit t)) with inForce := mask }

/-- APPLY: while no job runs on the partition the slice becomes busy with its new configuration; otherwise it is ignored and
`APPLY_ERR` is set (R289). -/
def State.doApply (s : State) (d : Nat) : State :=
  let sl := s.slice d
  if (s.part (s.partOfDie d)).job.isSome then s.setSlice d { sl with applyErr := true }
  else (s.writeBack d).setSlice d { (s.writeBack d).slice d with busy := true, pendingMode := some sl.modeMask }

/-- FLUSH: every dirty line is written back and stays valid (R291). -/
def State.doFlush (s : State) (d : Nat) : State :=
  let s1 := s.writeBack d
  s1.setSlice d { s1.slice d with busy := true }

/-- NIM_BUSY_END: an apply, a flush or a reset's write-back ends. At the end of an apply the marked slabs are retired and the
slabs switch; jobs that waited start (R289, R291, R407). -/
def State.doNimBusyEnd (s : State) (d : Nat) : State :=
  let sl := s.slice d
  if !sl.busy then s else
  let s1 := s.setSlice d { sl with busy := false, pendingMode := none }
  let s2 := match sl.pendingMode with
    | some m => (s1.retireMarked d).switchSlabs d m
    | none => s1
  s2.promote (s.partOfDie d)

/-- The slices of a partition are emptied by a reset that keeps HBM: written back, invalidated, scratchpads cleared, marked
slabs retired, and the written configuration in force (R290, R407). -/
def State.resetSlice (s : State) (d : Nat) : State :=
  let s1 := (s.writeBack d).retireMarked d
  let sl := (s1.slice d).emptied
  s1.setSlice d { (sl.clearSlabs (fun _ => false)) with inForce := sl.modeMask, busy := true, pendingMode := none, applyErr := false }

end Sys2Proof.Machine
end

