-- ==== Sys2Proof/Machine/Power.lean ====
section
/-! DEFINITION. Power, cooling classes and clocks (R416 to R436): the class record, the power limiter, the gust governor's timers,
temperatures, trips and the clocks. -/

namespace Sys2Proof.Machine

/-- Changes the governor. -/
def State.modGov (s : State) (f : Gov → Gov) : State := { s with gov := f s.gov }
/-- Changes pins and boot status. -/
def State.modChip (s : State) (f : Chip → Chip) : State := { s with chip := f s.chip }

/-- Whether a job runs on any partition. -/
def State.anyJob (s : State) : Bool := (List.range 4).any (fun p => (s.part p).job.isSome)

/-! ## Classes (R418 to R421) -/

/-- The class of a cooler record that passes its checks (R419). -/
def coolerClass (rec : Option Bytes) : Option Nat :=
  match rec with
  | none => none
  | some bs =>
    if u32 bs 0 = 0x434F4F4C ∧ u8 bs 4 = 1 ∧ u8 bs 5 ≤ 3 ∧ u8 bs 7 = 0 ∧ zeroAt bs 24 4 ∧
      u32 bs 28 = crc32c (padTo 28 bs) then some (u8 bs 5) else none

/-- The MMC reads the class: the lower of the cooler's and the straps' codes; a difference raises E_CLASS_MISMATCH (R418). -/
def State.readClass (s : State) (rec : Option Bytes) : State :=
  let code := (coolerClass rec).getD 0
  let cls := min code s.chip.straps
  let g := { s.gov with eepromCls := code, eepromValid := (coolerClass rec).isSome, strapCls := s.chip.straps,
                        actual := List.replicate 4 (classStep cls) }
  let s1 := { s with cls, gov := g }
  if code = s.chip.straps then s1 else s1.postEvent .pf Code.classMismatch []

/-- LOWER: the physical function lowers the class while no job runs; otherwise the write is ignored and `LOWER_ERR` is set
(R420, R436). -/
def State.doLower (s : State) (code : Nat) : State :=
  let v := code % 4
  if s.cls ≤ v then s.modGov (fun g => { g with lower := v })
  else if s.anyJob then s.modGov (fun g => { g with lowerErr := true })
  else ({ s with cls := v, gov := { s.gov with lower := v } } : State).settleDies

/-- CLASS_STRAP_CHANGE: the change is ignored until the next full reset and raises E_CLASS_MISMATCH once (R420). -/
def State.doStrapChange (s : State) (straps : Nat) : State :=
  if straps % 4 = s.chip.straps then s else
  let s1 := s.modChip (fun c => { c with straps := straps % 4 })
  if s.chip.power = .on ∧ !s.chip.perstHeld then s1.postEvent .pf Code.classMismatch [] else s1

/-! ## Shutting down (R416, R430, R431) -/

/-- The module shuts down into the Tripped state: every regulator but the MMC's goes off, `HX_PWRGD` with them, and the flash
keeps why (R430, R431). `cause` is that of `LAST_CAUSE`. -/
def State.shutDown (s : State) (cause group : Nat) (temp : Int) : State :=
  if s.chip.power = .off ∨ s.chip.power = .tripped then s else
  s.modChip (fun c => { c with power := .tripped, pwrgd := false, thermtrip := cause == 3, regAlert := cause == 4,
                               trip := some (cause, group, temp) })

/-- REGULATOR_FAULT (R431). -/
def State.doRegulatorFault (s : State) : State := s.shutDown 4 0 0

/-- INPUT_VOLTAGE_EXCURSION: a voltage outside 44 to 57 V for 100 µs is a regulator fault; one outside 48 to 54 V for 1 ms holds
every die at 0.75 GHz and raises E_INPUT_RANGE once per excursion (R416). -/
def State.doInputExcursion (s : State) (dv us : Nat) : State :=
  if dv < 440 ∨ 570 < dv then (if 100 ≤ us then s.doRegulatorFault else s)
  else if 480 ≤ dv ∧ dv ≤ 540 then (s.modGov (fun g => { g with inputBad := false })).settleDies
  else if us < 1000 then s
  else
    let s1 := (s.modGov (fun g => { g with inputBad := true })).settleDies
    if s.gov.inputBad then s1 else s1.postEvent .pf Code.inputRange []

/-! ## The power limiter (R423) -/

/-- The limiter acts: the first action in each second raises E_POWER_LIMIT. -/
def State.limiterActs (s : State) (f : Gov → Gov) : State :=
  let recent : Bool := match s.gov.lastLimit with
    | some t => decide (s.ft < t + 10 ^ 9)
    | none => false
  let s1 := (s.modGov (fun g => { f g with limiting := true, lastLimit := if recent then g.lastLimit else some s.ft })).settleDies
  if recent then s1 else s1.postEvent .pf Code.powerLimit []

/-- One limiting step: the issue level cap of every die falls by one down to 4, and then ARITH by one step. -/
def State.limitDown (s : State) : State :=
  let cap := min s.gov.limitCap (classCap s.cls s.gradeS)
  if 4 < cap then s.limiterActs (fun g => { g with limitCap := cap - 1 })
  else
    let step := max s.gov.limitStep (classStep s.cls)
    if step < 3 then s.limiterActs (fun g => { g with limitStep := step + 1 }) else s

/-- One restoring step: ARITH first, then the cap, up to the class values. -/
def State.limitUp (s : State) : State :=
  let g := s.gov
  let done (x : Gov) : Gov :=
    if x.limitStep ≤ classStep s.cls ∧ classCap s.cls s.gradeS ≤ x.limitCap then
      { x with limiting := false, limitStep := 0, limitCap := 8 } else x
  if classStep s.cls < g.limitStep then (s.modGov (fun g => done { g with limitStep := g.limitStep - 1 })).settleDies
  else (s.modGov (fun g => done { g with limitCap := min 8 (g.limitCap + 1) })).settleDies

/-- POWER_SAMPLE: the 1 ms average and the input voltage are taken; an average above the envelope starts the limiter
(R423, R436), and a voltage within range ends an excursion (R416). -/
def State.doPowerSample (s : State) (watt dv : Nat) : State :=
  let back : Bool := decide (480 ≤ dv) && decide (dv ≤ 540)
  let s1 := s.modGov (fun g => { g with powerW := min 4095 watt, vinDv := min 1023 dv, inputBad := g.inputBad && !back })
  let s2 := if s.gov.inputBad && back then s1.settleDies else s1
  if envelope s.cls < watt ∧ !s.gov.limiting then s2.limitDown else s2

/-- POWER_LIMIT_STEP: a timer of the limiter ends: one more step down while the average stays above the envelope, one step back
while it stays below 95 % of it (R423). -/
def State.doPowerLimitStep (s : State) : State :=
  if !s.gov.limiting then s
  else if envelope s.cls < s.gov.powerW then s.limitDown
  else if 100 * s.gov.powerW < 95 * envelope s.cls then s.limitUp
  else s

/-! ## The gust governor (R425 to R427) -/

/-- ISSUE_LEVEL_UPDATE: the end of a core's 250 ns interval (R425, R426). -/
def State.doIssueLevel (s : State) (c : Nat) : State :=
  let l := s.issueLevel c
  let went := SMap.get false c s.gov.issued
  let next := if went then min (s.issueCap (c / 144)) (l + 1) else max 1 (l - 1)
  s.modGov (fun g => { g with
    levels := SMap.set 1 c next g.levels
    issued := SMap.set false c false g.issued
    admitted := if l = 1 ∧ !went then SMap.set false c false g.admitted else g.admitted })

/-- RAMP_ADMISSION: a slot of a die begins and admits up to 16 of the cores that wait, in order (R426). -/
def State.doRampAdmission (s : State) (d : Nat) : State :=
  let due := (s.gov.waiting.filter (fun e => e.2 / 144 == d)).take 16
  s.modGov (fun g => { g with
    slotCount := setAt g.slotCount d due.length
    waiting := g.waiting.filter (fun e => !due.contains e)
    admitted := due.foldl (fun m e => SMap.set false e.2 true m) g.admitted })

/-- DROOP: the die stops issuing array work, the droop counts, and the first in each second raises E_DROOP (R427, R428). -/
def State.doDroop (s : State) (d : Nat) : State :=
  let recent : Bool := match s.gov.lastDroop.getD d none with
    | some t => decide (s.ft < t + 10 ^ 9)
    | none => false
  let s1 := s.modGov (fun g => { g with
    stopped := setAt g.stopped d true
    droops := modAt g.droops d (fun n => satAdd 0xFFFFFFFF n 1)
    belowAt := setAt g.belowAt d (some s.ft)
    lastDroop := if recent then g.lastDroop else setAt g.lastDroop d (some s.ft) })
  if recent then s1 else s1.postEvent .pf Code.droop []

/-- DROOP_RESUME: the die issues again, each core at the lower of its level and 4 (R427). -/
def State.doDroopResume (s : State) (d : Nat) : State :=
  if !s.gov.stopped.getD d false then s else
  s.modGov (fun g => { g with
    stopped := setAt g.stopped d false
    belowAt := setAt g.belowAt d (some s.ft)
    levels := g.levels.map (fun e => if e.1 / 144 = d then (e.1, min 4 e.2) else e) })

/-! ## Temperature (R429, R430) -/

/-- The hottest reading of die pair `d` in 0.125 °C. -/
def Gov.hottest (g : Gov) (d : Nat) : Int :=
  [4 + d, 8 + 3 * d, 9 + 3 * d, 10 + 3 * d].foldl (fun m i => max m (g.temps.getD i 0)) (g.temps.getD d 0)

/-- A reading is taken. -/
def Gov.take (g : Gov) (r : Reading) : Gov :=
  { g with temps := setAt g.temps r.group r.temp, tempMax := modAt g.tempMax r.group (max r.temp) }

/-- A die pair at 95 °C or above starts to throttle. -/
def State.heedDie (s : State) (d : Nat) : State :=
  if s.gov.throttled.getD d false ∨ s.gov.hottest d < 760 then s else
  (s.modGov (fun g => { g with throttled := setAt g.throttled d true })).postEvent .pf Code.thermalThrottle []

/-- THERMAL_SAMPLE: the readings are taken; one at 105 °C or above trips the module, and die pairs at 95 °C or above start to
throttle (R429, R430). -/
def State.doThermalSample (s : State) (rs : List Reading) : State :=
  let s1 := s.modGov (fun g => rs.foldl Gov.take g)
  match rs.find? (fun r => decide (840 ≤ r.temp)) with
  | some r => s1.shutDown 3 r.group r.temp
  | none => (List.range 4).foldl State.heedDie s1

/-- THROTTLE_STEP: a further millisecond at or above 95 °C (R429). -/
def State.doThrottleStep (s : State) (d : Nat) : State :=
  if !s.gov.throttled.getD d false ∨ s.gov.hottest d < 760 then s
  else if s.wantStep d < 3 then (s.modGov (fun g => { g with thermStep := setAt g.thermStep d (s.wantStep d + 1) })).settleDie d
  else if s.gov.minMs.getD d 0 < 10 then s.modGov (fun g => { g with minMs := modAt g.minMs d (· + 1) })
  else (s.modGov (fun g => { g with thermCap := setAt g.thermCap d (max 1 (s.issueCap d - 1)) })).settleDie d

/-- A die whose settings are back at the class values throttles no more. -/
def Gov.unthrottle (g : Gov) (d step cap : Nat) : Gov :=
  if g.thermStep.getD d 0 ≤ step ∧ cap ≤ g.thermCap.getD d 8 then
    { g with throttled := setAt g.throttled d false, thermStep := setAt g.thermStep d 0, thermCap := setAt g.thermCap d 8,
             minMs := setAt g.minMs d 0 }
  else g

/-- THROTTLE_RESTORE: after 100 ms below 90 °C the settings rise one step, the issue cap first and then ARITH (R429). -/
def State.doThrottleRestore (s : State) (d : Nat) : State :=
  if !s.gov.throttled.getD d false ∨ 720 ≤ s.gov.hottest d then s else
  let step := classStep s.cls
  let cap := classCap s.cls s.gradeS
  let f (g : Gov) : Gov :=
    if g.thermCap.getD d 8 < cap then { g with thermCap := modAt g.thermCap d (· + 1) }
    else { g with thermStep := modAt g.thermStep d (· - 1) }
  (s.modGov (fun g => (f g).unthrottle d step cap)).settleDie d

/-- The level of `HX_ALERT#`: asserted while a die throttles or the limiter acts, after a regulator fault, and in recovery mode
(R429, R431, R449). -/
def State.alert (s : State) : Bool :=
  s.gov.throttled.any id || s.gov.limiting || s.chip.regAlert || s.chip.recovery

/-! ## Clocks (R433, R434) -/

/-- CORE_VOLTAGE_RAISED: a rise of ARITH takes effect on its clock edge (R433). -/
def State.doVoltageRaised (s : State) (d : Nat) : State :=
  if !s.gov.raising.getD d false then s else
  (s.modGov (fun g => { g with actual := setAt g.actual d (s.wantStep d), raising := setAt g.raising d false })).settleDie d

/-- REFCLK_LOCK_LOSS: every engine stops and the outputs are held (R434). -/
def State.doLockLoss (s : State) : State :=
  if s.chip.power = .on then s.modChip (fun c => { c with power := .noClock }) else s

/-- ROOT_PLL_LOCK_REGAINED: E_CLOCK_LOST is raised; the module waits for a full reset (R434). -/
def State.doLockRegained (s : State) : State :=
  if s.chip.power = .noClock then
    (s.modChip (fun c => { c with power := .clockBack })).postEvent .pf Code.clockLost []
  else s

/-- One nanosecond of the time during which a die ran below its class values counts (R436). -/
def State.throttleTick (s : State) : State :=
  if (List.range 4).any (fun d => decide (classStep s.cls < s.arithStep d) || decide (s.issueCap d < classCap s.cls s.gradeS)) then
    s.modGov (fun g => { g with throttleNs := g.throttleNs + 1 })
  else s

end Sys2Proof.Machine
end

