-- ==== Sys2Proof/Machine/Reset.lean ====
section
/-! DEFINITION. Bring-up, numbering of cores, repair holds with spare substitution, and the reset scopes (R392 to R415, R446 to
R449). -/

namespace Sys2Proof.Machine

/-! ## Good cores and numbering (R396, R399, R400) -/

/-- Logical cores on a die. -/
def State.share (s : State) : Nat := s.coresPerDie

/-- Whether the field-repair bank has an entry of a kind for a place (R397). -/
def Chip.fused (c : Chip) (kind place : Nat) : Bool :=
  c.bank.any (fun e => bits e 0 4 == kind && bits e 4 16 == place)

/-- Whether a core may be tested at all (R396). -/
def Chip.coreKept (ch : Chip) (c : Nat) : Bool := !ch.fuseCores.contains c && !ch.fused 1 (corePlace c)

/-- The good cores of a die in rising order of 12y + x. -/
def Chip.goodOn (ch : Chip) (d : Nat) : List Nat := ((List.range 144).map (144 * d + ·)).filter ch.good.contains

/-- Numbers the cores of some dies afresh; the remaining good cores of those dies are their spares (R399). -/
def State.numberDies (s : State) (ds : List Nat) : State :=
  let n := s.share
  let kept := s.lmap.filter (fun e => !ds.contains (e.2 / 144))
  let new := ds.flatMap (fun d => ((s.chip.goodOn d).take n).zipIdx.map (fun e => (n * d + e.2, e.1)))
  let spares := s.chip.spares.filter (fun c => !ds.contains (c / 144)) ++ ds.flatMap (fun d => (s.chip.goodOn d).drop n)
  { s with lmap := kept ++ new, chip := { s.chip with spares } }

/-- Logical cores of a die that are present. -/
def State.presentOn (s : State) (d : Nat) : Nat := s.lmap.countP (fun e => s.dieOf e.1 == d)

/-- Whether a die of a partition lacks part of its logical share (R400). -/
def State.shortOf (s : State) (p : Nat) : Bool := (s.dies p).any (fun d => decide (s.presentOn d < s.share))

/-- A partition is found degraded, or not (R400). One that becomes degraded raises E_DEGRADED. -/
def State.setDegraded (s : State) (p : Nat) : State :=
  let now := s.shortOf p
  let s1 := s.setPart p { s.part p with degraded := now }
  if now && !(s.part p).degraded then s1.postEvent (.vf p) Code.degraded [] else s1

/-- A core is retired: it is no longer good, and E_CORE_RETIRED is raised (R396, R414). -/
def State.dropCore (s : State) (c : Nat) : State :=
  (s.modChip (fun h => { h with good := h.good.filter (· != c), spares := h.spares.filter (· != c) })).postEvent
    (.vf (s.partOfPhys c)) Code.coreRetired []

/-- A core fails its test: it is retired with its entry (R396). -/
def State.failCore (s : State) (c cause : Nat) : State :=
  if s.chip.good.contains c then (s.dropCore c).fuseEntry (s.partOfPhys c) 1 (corePlace c) cause else s

/-! ## Repair holds (R408 to R410) -/

/-- Whether a queued record is a barrier. -/
def QEntry.isBarrier (e : QEntry) : Bool :=
  match e.op with
  | .barrier _ _ => true
  | _ => false

/-- A core stops at a repair hold: it dispatches nothing, and records that have not started are discarded. -/
def Core.quiesce (k : Core) : Core :=
  { k with
      queues := k.queues.map (fun q => q.filter (fun e => e.phase != .waiting && !e.isBarrier))
      seq := { k.seq with running := false, ended := true, arrived := none } }

/-- Changes every core of a partition that differs from a core after reset, or carries a logical number. -/
def State.modCores (s : State) (p : Nat) (f : Core → Core) : State :=
  let here (e : Nat × Core) : Nat × Core := if (s.dies p).contains (e.1 / 144) then (e.1, f e.2) else e
  { s with cores := (s.cores.map here).filter (fun e => decide (e.2 ≠ Core.reset)) }

/-- A repair hold begins (R408, R410): its job ends with E_JOB_ABORTED, and the step barriers count from the first. -/
def State.beginHold (s : State) (p : Nat) : State :=
  if (s.part p).hold ∨ (s.part p).resetting ≠ 0 ∨ s.mmc.restarting then s else
  let s1 := (s.abortJob p).modCores p Core.quiesce
  (s1.setPart p { s1.part p with hold := true, fabWait := false }).modExch p (fun x => { x with mstep := 0 })

/-- The repair hold that failed cores ask for begins, once nothing forbids it (R408, R448). -/
def State.holdIfDue (s : State) (p : Nat) : State :=
  if s.chip.failing.any (fun f => s.partOfPhys f.phys == p) then s.beginHold p else s

/-- A core is retired in service (R406, R408): one that carries a logical number waits for its spare under a repair hold, a
spare gets its entry at once. -/
def State.retireCore (s : State) (c cause : Nat) : State :=
  if !s.chip.good.contains c then s else
  match s.logicalOf c with
  | some l =>
    ((s.dropCore c).modChip (fun h => { h with failing := h.failing ++ [⟨l, c, cause⟩] })).holdIfDue (s.partOfPhys c)
  | none => s.failCore c cause

/-- Mesh hops between two cores of a die (R409). -/
def meshHops (a b : Nat) : Nat :=
  let dx := (a % 12 : Int) - (b % 12 : Int)
  let dy := (a / 12 % 12 : Int) - (b / 12 % 12 : Int)
  dx.natAbs + dy.natAbs

/-- The spare of a failed core: the nearest of its die, and of equals the lower 12y + x (R409). -/
def State.spareFor (s : State) (c : Nat) : Option Nat :=
  (s.chip.spares.filter (fun x => x / 144 == c / 144)).foldl (fun acc x => match acc with
    | none => some x
    | some y => if meshHops x c < meshHops y c ∨ (meshHops x c = meshHops y c ∧ x < y) then some x else some y) none

/-- Every freeze of a partition ends (R473). -/
def State.thaw (s : State) (p : Nat) : State := s.setPart p { s.part p with frozenAt := none }

/-- The members of a partition's cores are as after a reset (R401, R411). -/
def State.resetCores (s : State) (p : Nat) : State := (s.modCores p (fun _ => Core.reset)).thaw p

/-- A reset that a hold made wait runs now (R413): see `State.startReset`. -/
def State.holdOver (s : State) (p : Nat) : Bool := !(s.chip.failing.any (fun f => s.partOfPhys f.phys == p))

/-! ## Compute and partition resets (R290, R411 to R413) -/

/-- A bulk DMA after a reset. -/
def State.resetBulk (s : State) (p : Nat) : State :=
  { s with bdies := s.bdies.filter (fun e => !(s.dies p).contains e.1) }

/-- The exchange of a partition after a compute or partition reset: membership has ended, and `EXCH_EPOCH`, `EXCH_BANK` and
`MOVER_DRIZZLE` are kept (R358, R363). -/
def Exch.afterReset (x : Exch) : Exch :=
  { Exch.reset with tbl := x.tbl, epoch := x.epoch, flipped := x.flipped, mover := x.mover, status := x.status, gen := x.gen,
                    bankValid := x.bankValid, state := if x.state = 0 then 0 else 6 }

/-- The write-back of a reset is over with the reset (R290, R291). -/
def State.settleSlices (s : State) (p : Nat) : State :=
  (s.dies p).foldl (fun acc d => acc.setSlice d { acc.slice d with busy := false }) s

/-- The slabs of a partition's slices after a compute or partition reset (R290). -/
def State.resetSlices (s : State) (p : Nat) : State := (s.dies p).foldl State.resetSlice s

/-- A compute reset (`kind` 1) or partition reset (`kind` 2) of a partition begins: the running job ends with E_JOB_ABORTED,
cores, engines and Nimbus are reset, membership ends, and HBM and set-up are kept (R411). -/
def State.startReset (s : State) (p kind : Nat) : State :=
  let s1 := ((s.abortJob p).leaveGroup p).resetCores p
  let s2 := (s1.resetSlices p).resetBulk p
  let s3 := s2.modExch p Exch.afterReset
  let s4 := s3.setPart p { s3.part p with resetting := kind, hold := false, fabWait := false }
  s4.setNode p { s4.node p with inbox := [], tc0 := [], waiters := [], arrivals := [] }

/-- COMPUTE_RESET: it waits for a repair hold to end, and is ignored while a reset of the partition runs (R411 to R413). -/
def State.doComputeReset (s : State) (p : Nat) : State :=
  if s.bringing ∨ s.layout ≤ p ∨ (s.part p).resetting ≠ 0 then s
  else if (s.part p).hold then s.modChip (fun h => { h with waitHold := setAt h.waitHold p true })
  else s.startReset p 1

/-- A repair hold ends once no failed core of the partition is left: every core is as after a reset, and what waited runs
(R408, R410, R413). -/
def State.endHold (s : State) (p : Nat) : State :=
  if !s.holdOver p then s else
  let s1 := s.resetCores p
  let s2 := s1.setPart p { s1.part p with hold := false }
  if s.chip.waitHold.getD p false then
    (s2.modChip (fun h => { h with waitHold := setAt h.waitHold p false })).startReset p 1
  else s2.promote p

/-- The failed core at the front of a partition's hold has been dealt with. -/
def State.settleFailing (s : State) (f : Failing) : State :=
  s.modChip (fun h => { h with failing := h.failing.filter (fun g => g.phys != f.phys) })

/-- SPARE_SUBSTITUTION: the test of the spare chosen for the first failed core has ended. A spare that passes takes over the
logical number; one that fails is retired and the next is tried; with none left the number becomes absent, the partition is
degraded, and a member of a group leaves it (R400, R408, R409). -/
def State.doSubstitution (s : State) (p : Nat) (passed : Bool) : State :=
  if !(s.part p).hold then s else
  match s.chip.failing.find? (fun f => s.partOfPhys f.phys == p) with
  | none => s
  | some f =>
    match s.spareFor f.phys with
    | some c =>
      if passed then
        let s1 := (s.fuseEntry p 1 (corePlace f.phys) f.cause).settleFailing f
        let s2 := { s1 with lmap := s1.lmap.map (fun (e : Nat × Nat) => if e.1 = f.logical then (e.1, c) else e),
                            chip := { s1.chip with spares := s1.chip.spares.filter (· != c) } }
        (s2.postEvent (.vf p) Code.spareSubst (toLe 2 f.logical ++ toLe 2 f.phys ++ toLe 2 c)).endHold p
      else s.failCore c 1
    | none =>
      let s1 := (s.fuseEntry p 1 (corePlace f.phys) f.cause).settleFailing f
      let s2 := ({ s1 with lmap := s1.lmap.filter (fun e => e.1 != f.logical) } : State).setDegraded p
      (s2.leaveGroup p).endHold p

/-- Failed cores of a partition that a wider reset takes over: they stay retired, with their entries (R413). -/
def State.fuseFailing (s : State) (p : Nat) : State :=
  (s.chip.failing.filter (fun f => s.partOfPhys f.phys == p)).foldl
    (fun acc f => (acc.fuseEntry p 1 (corePlace f.phys) f.cause).settleFailing f) s

/-- PART_RESET: it takes over a repair hold or a compute reset, and its ports retrain (R411 to R413). -/
def State.doPartReset (s : State) (p : Nat) : State :=
  if s.bringing ∨ s.layout ≤ p ∨ (s.part p).resetting = 2 then s else
  let s1 := (s.fuseFailing p).startReset p 2
  let s2 := s1.modChip (fun h => { h with waitHold := setAt h.waitHold p false })
  (s2.portsOf p).foldl (fun acc n =>
    let q := acc.port n
    if q.st = 0 then acc else acc.setPort n { q.freshLink with st := 1 }) s2

/-- The ports of a partition whose neighbours forward come up again (R315). -/
def State.raisePorts (s : State) (p : Nat) : State := (s.portsOf p).foldl State.raisePort s

/-- COMPUTE_RESET_DONE: the ports leave `QUIESCENT`, the status bit clears, a repair hold that was asked for meanwhile begins,
and jobs that waited run (R411). -/
def State.doComputeResetDone (s : State) (p : Nat) : State :=
  if (s.part p).resetting ≠ 1 then s else
  ((((s.setPart p { s.part p with resetting := 0 }).settleSlices p).raisePorts p).holdIfDue p).promote p

/-! ## Firmware slots (R441, R446, R447) -/

/-- The slot of a component in use, or the other one. -/
def Mmc.slotOf (m : Mmc) (c : Nat) (inUse : Bool) : FwSlot :=
  let x := m.slots.getD c (.empty, .empty)
  if m.active.getD c false = inUse then x.2 else x.1

/-- Replaces the slot of a component in use, or the other one. -/
def Mmc.setSlot (m : Mmc) (c : Nat) (inUse : Bool) (f : FwSlot) : Mmc :=
  { m with slots := modAt m.slots c (fun x => if m.active.getD c false = inUse then (x.1, f) else (f, x.2)) }

/-- A component changes to its other slot. -/
def Mmc.flip (m : Mmc) (c : Nat) : Mmc := { m with active := modAt m.active c (! ·), pend := setAt m.pend c false }

/-- A component starts from its slot without failure for the first time: fuses are blown up to its `SVN` (R447). -/
def Mmc.proved (m : Mmc) (c : Nat) : Mmc := { m with fusedSvn := max m.fusedSvn (min 64 (m.slotOf c true).svn) }

/-- Changes the management controller. -/
def State.modMmc (s : State) (f : Mmc → Mmc) : State := { s with mmc := f s.mmc }

/-- The forecast model revisions of the running core firmware (R219, R391): free values. -/
def State.loadRevs (s : State) : State :=
  { s with hif := { s.hif with fcRevs := (List.range 4).map (fun n =>
      (Config.forecastRev (s.mmc.slotOf 1 true).build n).toNat) } }

/-- A partition's cores load the image in the core slot in use (R446, R447). -/
def Mmc.loadCore (m : Mmc) (p : Nat) : Mmc :=
  { m with runCore := setAt m.runCore p (m.slotOf 1 true).image, coreOld := m.coreOld &&& (15 - 2 ^ p) }

/-- `UPDATE` returns to idle once no MMC or core image is still to be activated (R446, R457). -/
def Mmc.settleUpdate (m : Mmc) : Mmc :=
  if m.update = 3 ∧ !m.pend.getD 0 false ∧ !m.pend.getD 1 false then { m with update := 0, updBy := none } else m

/-- A partition reset activates a pending core image: the first one changes the slot, the last one ends the activation
(R446). -/
def State.activateCore (s : State) (p : Nat) : State :=
  let all := maskOf 4 (fun i => decide (i < s.layout))
  let m := if s.mmc.pend.getD 1 false ∧ s.mmc.coreOld = 0 then { s.mmc.flip 1 with coreOld := all, pend := s.mmc.pend }
    else s.mmc
  let m1 := if m.coreOld.testBit p then (m.proved 1).loadCore p else m
  let m2 := if m1.coreOld = 0 then ({ m1 with pend := setAt m1.pend 1 false } : Mmc).settleUpdate else m1
  ({ s with mmc := m2 } : State).loadRevs

/-- PART_RESET_DONE: cores that failed their test are retired, the dies numbered, the ports qualified, a pending core image
activated, and the partition leaves `PART_RESET` (R399, R402, R411, R446). -/
def State.doPartResetDone (s : State) (p : Nat) (f : Findings) : State :=
  if (s.part p).resetting ≠ 2 then s else
  let s1 := (f.coreFail.filter (fun c => (s.dies p).contains (c / 144))).foldl (fun acc c => acc.failCore c 1) s
  let s2 := ((s1.numberDies (s.dies p)).setDegraded p).activateCore p
  let s3 := (s2.portsOf p).foldl (fun acc n =>
    if (acc.port n).st ≠ 1 then acc else
    acc.trainPort n ((f.laneErrs.filter (fun e => e.1 == n)).map (fun e => e.2)) true) s2
  ((((s3.setPart p { s3.part p with resetting := 0 }).settleSlices p).raisePorts p).holdIfDue p).promote p

/-! ## Full reset (R411, R412, R446) -/

/-- The flash of the MMC across a full reset: an interrupted update leaves its slots invalid, pending images become those in
use (R445, R446). What is not in flash is as after a reset. -/
def Mmc.rebooted (m : Mmc) : Mmc :=
  let broken := if m.update = 1 ∨ m.update = 2 then m.updComps.filter (fun c => !m.pend.getD c false) else []
  let m1 := broken.foldl (fun acc c => acc.setSlot c false { acc.slotOf c false with valid := false }) m
  let m2 := (List.range 3).foldl (fun acc c => if acc.pend.getD c false ∧ !(c = 1 ∧ acc.coreOld ≠ 0) then acc.flip c else acc) m1
  { Mmc.reset with slots := m2.slots, active := m2.active, fusedSvn := m2.fusedSvn, revoked := m2.revoked,
                   epoch := m2.epoch, exhausted := m2.exhausted, leafNext := m2.leafNext }

/-- A full reset: everything is as after power-up but the fuses, the flash and the pins; cause codes are those of `LAST_CAUSE`
(R411, R412, R415). While the rails stay good, cores and slabs that wait for their retirement get their entries (R407, R413).
The log of what has left the module stays, and so does the queue of commands. -/
def State.fullReset (s0 : State) (cause : Nat) (powerUp : Bool) : State :=
  let s := if powerUp then s0 else [0, 1, 2, 3].foldl State.retireMarked ([0, 1, 2, 3].foldl State.fuseFailing s0)
  let h := s.chip
  { State.reset with
      pending := s.pending, freeCtr := s.freeCtr, gradeS := s.gradeS, serial := s.serial, out := s.out,
      mmc := s.mmc.rebooted
      chip := { Chip.reset with
        perst := h.perst, perstSeen := h.perstSeen, perstHeld := h.perstHeld, straps := h.straps, trip := h.trip,
        lastCause := cause, stepping := h.stepping, deepNext := powerUp, nextDeep := h.nextDeep, memErr := h.memErr,
        fuseCores := h.fuseCores, fuseChans := h.fuseChans, fuseSlabs := h.fuseSlabs, bank := h.bank } }

/-- FULL_RESET: started by `MMC_BOOT_CTRL`; one that falls in an MMC restart waits for it to end (R412, R448). -/
def State.requestFullReset (s : State) (cause : Nat) : State :=
  if s.mmc.restarting then s.modChip (fun h => { h with waitFull := some cause }) else s.fullReset cause false

/-! ## Bring-up (R392 to R404) -/

/-- A bring-up fails at a step (R395). -/
def State.failBringup (s : State) (step done : Nat) : State :=
  (s.modChip (fun h => { h with result := 3, failStep := step, stepDone := done, elapsed := (s.ft - h.bootFt) / 10 ^ 9 })).postEvent
    .pf Code.bringupFail []

/-- The code of R444 for a stored image, or nothing for one that passes; `ok` tells whether the checks other than that of its
security version pass on what is read from flash. -/
def Mmc.slotVerdict (m : Mmc) (f : FwSlot) (ok : Bool) : Option Nat :=
  if f.valid && decide (f.svn < m.fusedSvn) then some Code.fwRollback else if f.valid && ok then none else some Code.fwAuth

/-- Raises the code of an image that has been turned down. -/
def State.turnDown (s : State) (v : Option Nat) : State :=
  match v with
  | some code => s.postEvent .pf code []
  | none => s

/-- The MMC starts from its other slot, and the slot that failed is marked invalid (R446). -/
def Mmc.fallBack (m : Mmc) : Mmc := (m.setSlot 0 true { m.slotOf 0 true with valid := false }).flip 0

/-- The boot ROM starts the MMC from the slot in use, or from the other one when that fails; none when both fail (R395,
R446). -/
def State.bootMmc (s : State) (a b : Bool) : State × Bool :=
  let m := s.mmc
  let verdict (inUse : Bool) : Option Nat := m.slotVerdict (m.slotOf 0 inUse) (if m.active.getD 0 false = inUse then b else a)
  if verdict true = none then
    ({ s with mmc := { m.proved 0 with up := true, fallback := false, runMmc := (m.slotOf 0 true).image } }, true)
  else
    let s1 := s.turnDown (verdict true)
    if verdict false = none then
      let m1 := m.fallBack
      (({ s1 with mmc := { m1.proved 0 with up := true, fallback := true, runMmc := (m1.slotOf 0 true).image } } : State).postEvent
        .pf Code.fwFallback [], true)
    else (s1.turnDown (verdict false), false)

/-- A channel is out of use: fused bad, with an entry, or failed now. -/
def State.retireChan (s : State) (k c : Nat) : State :=
  let h := s.hbmc k
  s.setHbmc k { h with retired0 := h.retired0 ||| 2 ^ c, retired1 := h.retired1 ||| 2 ^ c }

/-- A channel fails in bring-up: it is retired with its entry (R396). -/
def State.failChan (s : State) (cause : Nat) (e : Nat × Nat) : State :=
  if s.pcRetired ⟨e.1, e.2, 0⟩ then s else (s.retireChan e.1 e.2).fuseEntry (s.partOfStack e.1) 2 (chanPlace e.1 e.2) cause

/-- Step 3: stacks train; those that fail are lost, and channels without a spare lane are retired (R393, R395). -/
def State.trainStacks (s : State) (f : Findings) : State :=
  let s1 := (List.range 12).foldl (fun acc k => acc.setHbmc k { acc.hbmc k with trained := !f.stackFail.contains k }) s
  let bad := s.chip.fuseChans ++ (s.chip.bank.filter (fun e => bits e 0 4 == 2)).map (fun e => (bits e 4 4, bits e 8 5))
  let s2 := bad.foldl (fun acc e => acc.retireChan e.1 e.2) s1
  let s3 := f.stackFail.foldl (fun acc k =>
    ((List.range 32).foldl (fun acc c => acc.failChan 7 (k, c)) acc).postEvent (.vf (acc.partOfStack k)) Code.stackLost []) s2
  f.chanFail.foldl (fun acc e => acc.failChan 6 e) s3

/-- Step 5: every core not marked bad is tested (R393, R396). -/
def State.testCores (s : State) (f : Findings) : State :=
  let s1 := s.modChip (fun h => { h with good := (List.range 576).filter h.coreKept })
  f.coreFail.foldl (fun acc c => acc.failCore c 1) s1

/-- Slab `t` of slice `d` is out of use. -/
def State.retireSlab (s : State) (d t : Nat) : State :=
  let sl := { s.slice d with marked := 2 ^ t }
  s.setSlice d { sl.retireMarked with inForce := sl.retireMarked.modeMask }

/-- Step 6: every slab not marked bad is tested (R393, R396). -/
def State.testSlabs (s : State) (f : Findings) : State :=
  let bad := s.chip.fuseSlabs ++ (s.chip.bank.filter (fun e => bits e 0 4 == 3)).map (fun e => (bits e 4 2, bits e 6 8))
  let s1 := bad.foldl (fun acc e => acc.retireSlab e.1 e.2) s
  f.slabFail.foldl (fun acc e =>
    if (acc.slice e.1).retired.testBit e.2 then acc
    else ((acc.retireSlab e.1 e.2).postEvent (.vf (acc.partOfDie e.1)) Code.slabRetired []).fuseEntry (acc.partOfDie e.1) 3
      (slabPlace e.1 e.2) 1) s1

/-- Step 7: every lane of the grade's ports is trained and qualified (R393, R402, R403). -/
def State.trainPorts (s : State) (f : Findings) : State :=
  (List.range s.portCount).foldl (fun acc n =>
    let errs := (f.laneErrs.filter (fun e => e.1 == n)).map (fun e => e.2)
    if errs.isEmpty then acc else acc.trainPort n errs true) s

/-- Capacity of every partition of the layout, and its reserve (R263, R277, R291, R393). -/
def State.setCapacity (s : State) (reserves : List Nat) : State :=
  (List.range s.layout).foldl (fun acc p =>
    (acc.setPart p { acc.part p with topGib := (acc.activePcs p).length, reserve := reserves.getD p 2 }).setDegraded p) s

/-- Step 9: the cores are numbered, capacity and slabs set, and the module holds its outputs (R393, R395). -/
def State.assign (s : State) (deep : Bool) : State :=
  let s1 := ((s.numberDies [0, 1, 2, 3]).setCapacity []).loadRevs
  let m := { s1.mmc with runCore := List.replicate 4 (s1.mmc.slotOf 1 true).image, runBase := (s1.mmc.slotOf 2 true).image }
  let s2 := { s1 with bringing := false, mmc := (m.proved 1).proved 2 }
  s2.modChip (fun h => { h with
    result := if (s2.part 0).degraded then 2 else 1, stepDone := if deep then 0x3FF else 0x3FE
    elapsed := (s2.ft - h.bootFt) / 10 ^ 9, nextDeep := h.nextDeep && !deep, memErr := h.memErr && !deep })

/-- The steps after the MMC has started. -/
def State.bringSteps (s : State) (f : Findings) (deep : Bool) : State :=
  let base := b2n deep
  let s1 := s.readClass f.cooler
  if f.baseDie.isSome then s1.failBringup 2 (base + 2) else
  let s2 := ((s1.trainStacks f).testCores f).testSlabs f
  if (s2.activePcs 0).isEmpty then s2.failBringup 3 (base + 0xE6)
  else
    let v := s2.mmc.slotVerdict (s2.mmc.slotOf 1 true) f.coreFwOk
    if v.isSome then (s2.turnDown v).failBringup 8 (base + 0xFE) else (s2.trainPorts f).assign deep

/-- BRINGUP: the module runs the bring-up that R392 selects. With no MMC image that starts it stops in recovery mode
(R395, R449). -/
def State.doBringup (s : State) (f : Findings) : State :=
  if !(s.bringing && s.chip.result == 0 && s.chip.power == .on && !s.chip.perstHeld) then s else
  let deep := s.chip.deepNext || s.chip.nextDeep || s.chip.memErr || f.deepDue
  let s1 := s.modChip (fun h => { h with deep, bootFt := s.ft })
  let r := s1.bootMmc f.mmcSlotA f.mmcSlotB
  if r.2 then r.1.bringSteps f deep
  else ((r.1.modChip (fun h => { h with recovery := true })).postEvent .pf Code.bootImage []).failBringup 1 (b2n deep)

/-! ## Permanent faults (R406) -/

/-- PERMANENT_FAULT: a count has passed its limit, and the module acts as the last column of R406 gives. -/
def State.doPermanentFault (s : State) : FaultEvent → State
  | .laneReplays port lane => s.retireLane port lane
  | .rowErrors k pc c bank row => s.markRow k ⟨pc, c, bank, row⟩
  | .channelErrors k c => s.degradeChannel k c false
  | .pinErrors k c _ => s.degradeChannel k c false
  | .rowsUnrepairable k c => s.degradeChannel k c false
  | .parity c => s.retireCore c 2
  | .storeCorrectable c => s.retireCore c 3
  | .storeUncorrectable c => s.retireCore c 3
  | .nimCorrectable d t => s.setSlice d { s.slice d with marked := (s.slice d).marked ||| 2 ^ t }
  | .nimPoisoned d t => s.setSlice d { s.slice d with marked := (s.slice d).marked ||| 2 ^ t }

/-! ## Pins (R478 to R480) -/

/-- The module powers up (R430, R478): the cause of the last full reset is the trip that the flash records, or power-up. -/
def State.powerUp (s : State) : State :=
  let cause := match s.chip.trip with
    | some t => t.1
    | none => 0
  let s1 := s.modChip (fun h => { h with perst := true, perstSeen := false, perstHeld := false })
  s1.fullReset cause true

/-- HX_PWR_EN_RISE: the module powers up; a rise within 1 s of the fall is ignored until the second has passed (R478, R480). -/
def State.doPwrRise (s : State) (afterOneSecond : Bool) : State :=
  if s.chip.pwrEn then s
  else if afterOneSecond then s.powerUp
  else s.modChip (fun h => { h with pwrEn := true, riseWaits := true })

/-- PWR_EN_LOW_TIME_ELAPSED: the deferred power-up proceeds (R480). -/
def State.doLowTimeElapsed (s : State) : State :=
  if s.chip.riseWaits && s.chip.pwrEn then s.powerUp else s

/-- HX_PWR_EN_FALL: the module switches off; `HX_PWRGD`, `HX_THERMTRIP#` and `HX_ALERT#` are released or deasserted (R480). -/
def State.doPwrFall (s : State) : State :=
  if !s.chip.pwrEn then s else
  let s1 := s.fullReset s.chip.lastCause true
  s1.modChip (fun h => { h with power := .off, pwrEn := false, pwrgd := false, thermtrip := false, regAlert := false })

/-- PERST_ASSERT: the level held from power-up holds the endpoint only; every later assertion is a full reset (R479). -/
def State.doPerstAssert (s : State) : State :=
  let s1 := s.modChip (fun h => { h with perst := true })
  if s.chip.perst ∨ !s.chip.perstSeen ∨ s.chip.power = .off ∨ s.chip.power = .tripped then s1
  else (s1.modChip (fun h => { h with perstHeld := true })).requestFullReset 1

/-- PERST_DEASSERT: the bring-up that was selected may start (R479). -/
def State.doPerstDeassert (s : State) : State :=
  s.modChip (fun h => { h with perst := false, perstSeen := true, perstHeld := false })

end Sys2Proof.Machine
end

