-- ==== Sys2Proof/Machine/Forecast.lean ====
section
/-! DEFINITION. Breaches of a forecast (R256 to R258): DEADLINE_MISS and STREAM_END_DEADLINE_MISS. -/

namespace Sys2Proof.Machine

/-- The cause of a breach on a core (R256): the first of causes 1 to 4 that applies, else 0. Cause 5 is a matter of bank timing,
which the model leaves out (log 23). -/
def State.breachCause (s : State) (p c : Nat) (drizzled : Bool) : Nat :=
  let slow : Bool := s.dieBelow (c / 144) || (match s.gov.belowAt.getD (c / 144) none with
    | some t => decide (((s.core c).seq.startFt).getD 0 ≤ t)
    | none => false)
  if slow then 1
  else if !(s.part p).evac.isEmpty then 2
  else if drizzled then 3
  else if (s.stacksOf p).any (fun k => (s.hbmc k).period != 0 && decide ((s.hbmc k).period < 24)) then 4
  else 0

/-- Raises one breach record: to the completion slot of its tag whatever `CPL` says, to the event ring, and to the counters
(R256 to R258). -/
def State.breach (s : State) (p c : Nat) (tag opid engine index detail deadline : Nat) : State :=
  let bs := complBytes Code.forecast tag opid engine (s.cplFlags p 0) 0 index {} detail deadline
  let s1 := ((s.putCompletion p tag bs).postEvent (.vf p) Code.forecast bs).event c 0x0503 1
  let s2 := s1.modJob p (fun j => { j with breach := true })
  { s2 with hif := { s2.hif with breaches := modAt s2.hif.breaches p (fun n => satAdd 0xFFFFFFFF n 1) } }

/-- `DETAIL` of a breach record (R256). -/
def breachDetail (desc chan die : Nat) (bulk : Bool) (cause : Nat) : Nat :=
  desc % 2 ^ 20 + 2 ^ 20 * (chan % 16) + 2 ^ 24 * (die % 8) + 2 ^ 27 * b2n bulk + 2 ^ 32 * (cause % 256)

/-- The deadline of a descriptor of a run in fabric time (R244); none without one, and none for a remote transfer or a re-issue,
whose deadlines are advisory (R255). -/
def State.deadlineOf (s : State) (r : ChRun) (d : Desc) : Option Nat :=
  if d.remSrc ∨ d.remDst then none
  else if d.dlMode = 1 then some (streamTime s.cls (((s.core r.core).seq.startFt).getD s.ft) d.deadline)
  else if d.dlMode = 2 then some d.deadline else none

/-- The descriptors of a run that are not finished: the one in progress and those of the batch that have not started. -/
def ChRun.open (r : ChRun) : List Desc :=
  (match r.cur with
    | some x => if x.redo.isSome then [] else [x.desc]
    | none => []) ++ r.batch.map (·.1)

/-- The first unfinished descriptor of a run whose deadline has passed and has not been reported, with that deadline. -/
def State.missedDesc (s : State) (r : ChRun) : Option (Desc × Nat) :=
  r.open.findSome? (fun d => match s.deadlineOf r d with
    | some t => if t < s.ft ∧ !r.missed.contains d.index then some (d, t) else none
    | none => none)

/-- The number, base die and kind of a channel for a breach record. -/
def chanCode : Chan → Nat × Nat × Bool
  | .core _ n => (n, 0, false)
  | .bulk b n => (n, b, true)

/-- DEADLINE_MISS: a deadline passes under a valid forecast before the descriptor's writes have all taken effect; a record that
has failed raises none (R220, R256). -/
def State.doDeadlineMiss (s : State) (ch : Chan) : State :=
  match (s.chn ch).run with
  | none => s
  | some r =>
    let p := s.chanPart ch
    match (s.core r.core).entries.find? (fun e => e.serial == r.serial), s.missedDesc r with
    | some e, some (d, t) =>
      if s.unforecast p ∨ r.err.isSome ∨ (s.job p).isNone then s else
      let k := chanCode ch
      let s1 := s.modRun ch (fun r => { r with missed := r.missed ++ [d.index] })
      s1.breach p r.core e.tag e.opid e.engine e.index
        (breachDetail d.index k.1 k.2.1 k.2.2 (s.breachCause p r.core ((s.chn ch).drizzle != 0))) t
    | _, _ => s

/-- The oldest record of a core that has not completed: tag, operator, engine, position. -/
def Core.oldestRec (k : Core) : Nat × Nat × Nat × Nat :=
  match k.entries.find? (fun e => some e.serial == k.oldest) with
  | some e => (e.tag, e.opid, e.engine, e.index)
  | none => (0, 0, 7, k.seq.pos)

/-- STREAM_END_DEADLINE_MISS: a stream has not run `END` by its `FC_END` (R257). -/
def State.doStreamEndMiss (s : State) (l : Nat) : State :=
  match s.physOf l with
  | none => s
  | some c =>
    let p := s.partOfPhys c
    let k := s.core c
    match s.job p, k.seq.startFt with
    | some j, some t0 =>
      let t := streamTime s.cls t0 (j.fcEnds.getD k.seq.dirIndex 0)
      if !k.seq.running ∨ k.seq.endMissed ∨ !j.forecast ∨ s.ft ≤ t then s else
      let r := k.oldestRec
      let s1 := s.modSeq c (fun q => { q with endMissed := true })
      s1.breach p c r.1 r.2.1 r.2.2.1 r.2.2.2 (breachDetail 0xFFFFF 0 0 false (s.breachCause p c false)) t
    | _, _ => s

end Sys2Proof.Machine
end

