-- ==== Sys2Proof/Machine/Setup.lean ====
section
/-! DEFINITION. Set-up (R331, R332, R372 to R377): the commit, the checks of a committed table reason by reason, and what an
accepted or rejected table does. -/

namespace Sys2Proof.Machine

/-! ## Fields of a committed table (R373, R374) -/

/-- Partitions of a `LAYOUT` code; none for an unknown code. -/
def layoutOf (code : Nat) : Option Nat := if code = 0 then some 1 else if code = 1 then some 2 else if code = 2 then some 4 else none

/-- The field of `n` bytes at `off` of section `p` of a table. -/
def secOf (t : Bytes) (p off n : Nat) : Nat := fieldAt t (64 + 64 * p + off) n
/-- `FABRIC_EN` of a section. -/
def secFabric (t : Bytes) (p : Nat) : Bool := bit (secOf t p 3 1) 0
/-- `EXCH_EN` of a section. -/
def secExch (t : Bytes) (p : Nat) : Bool := bit (secOf t p 3 1) 1
/-- `HBM_RESERVE` in effect: 0xFF selects the default of 2 (R374, R376). -/
def secReserve (t : Bytes) (p : Nat) : Nat := if secOf t p 6 1 = 0xFF then 2 else secOf t p 6 1

/-- A failure: reason, section (7 for the header), detail (R375). -/
abbrev Reject := Nat × Nat × Nat

/-- The offset of a field of section `p`. -/
def secAt (p off : Nat) : Nat := 64 + 64 * p + off

/-- The first section of the first `n` for which a check gives a failing offset. -/
def inSections (reason n : Nat) (f : Nat → Option Nat) : Option Reject :=
  (List.range n).findSome? (fun p => (f p).map (fun off => (reason, p, off)))

/-- The first failing field of a list of fields and verdicts. -/
def firstBad (fs : List (Nat × Bool)) : Option Nat := (fs.find? (fun f => !f.2)).map (·.1)

/-! ## Reasons 0x01 to 0x09 -/

/-- Reasons 0x01 and 0x02 (R373). -/
def rejectForm (t : Bytes) : Option Reject :=
  if u32 t 320 ≠ crc32c (t.take 320) then some (1, 7, 320)
  else (firstBad [(0, u32 t 0 == 0x48585355), (4, u16 t 4 == 1), (6, u16 t 6 == 324)]).map (fun off => (2, 7, off))

/-- Reason 0x03: reserved fields, by the offset of the field, and sections that must be zero, by the offset of the section. -/
def rejectReserved (t : Bytes) : Option Reject :=
  let n := (layoutOf (u8 t 8)).getD 4
  match firstBad [(9, bits (u8 t 9) 3 5 == 0), (12, zeroAt t 12 52)] with
  | some off => some (3, 7, off)
  | none => inSections 3 4 (fun p =>
      if p < n then firstBad [(secAt p 3, bits (secOf t p 3 1) 2 6 == 0), (secAt p 32, zeroAt t (secAt p 32) 32)]
      else firstBad [(secAt p 0, zeroAt t (secAt p 0) 64)])

/-- Reasons 0x04 to 0x07. -/
def State.rejectLayout (s : State) (t : Bytes) : Option Reject :=
  match layoutOf (u8 t 8) with
  | none => some (4, 7, 8)
  | some n =>
    let differs : Option Reject := match s.hif.fixed with
      | none => none
      | some (l, rs) =>
        if n ≠ l then some (5, 7, 8)
        else inSections 5 n (fun p => firstBad [(secAt p 6, secReserve t p == rs.getD p 0)])
    if differs.isSome then differs
    else if bit (u8 t 9) 0 ∧ bit (u8 t 9) 1 then some (6, 7, 9)
    else if s.gradeS ∧ n = 4 ∧ secFabric t 3 then some (7, 3, secAt 3 3)
    else none

/-- Reason 0x08: two fabric nodes with one identifier; the later section is named. -/
def rejectIds (t : Bytes) (n : Nat) : Option Reject :=
  inSections 8 n (fun p => firstBad [(secAt p 0,
    !(secFabric t p && (List.range p).any (fun q => secFabric t q && secOf t q 0 2 == secOf t p 0 2)))])

/-- Reason 0x09: fields outside their ranges (R374). -/
def rejectRanges (t : Bytes) (n : Nat) : Option Reject :=
  inSections 9 n (fun p =>
    let ledger (off : Nat) : Bool :=
      if secOf t p 8 8 = 0 then secOf t p off 4 == 0 else decide (1 ≤ secOf t p off 4) && decide (secOf t p off 4 ≤ 65536)
    firstBad [
      (secAt p 0, secFabric t p == (secOf t p 0 2 != 0)),
      (secAt p 2, secFabric t p || secOf t p 2 1 == 0),
      (secAt p 4, if secExch t p then decide (1 ≤ secOf t p 4 2) && decide (secOf t p 4 2 ≤ 256) else secOf t p 4 2 == 0),
      (secAt p 6, decide (secOf t p 6 1 ≤ 8) || secOf t p 6 1 == 0xFF),
      (secAt p 7, decide (1 ≤ secOf t p 7 1) && decide (secOf t p 7 1 ≤ 64)),
      (secAt p 16, ledger 16), (secAt p 20, ledger 20),
      (secAt p 24, secExch t p == (secOf t p 24 8 != 0))])

/-! ## Memory limits, ledger and exchange tables (reasons 0x0A to 0x0E) -/

/-- The end of the memory that a table may use: `NIM_PART_TOP` less the reserve (R375). -/
def State.limitOf (s : State) (p : Nat) : Nat := ((s.part p).topGib - 2 * (s.part p).reserve) * gib

/-- Whether `n` bytes at `a` lie wholly below the limit. -/
def State.below (s : State) (p a n : Nat) : Bool := decide (a + n ≤ s.limitOf p)

/-- Reason 0x0A. -/
def State.rejectPlaces (s : State) (t : Bytes) (n : Nat) : Option Reject :=
  inSections 0x0A n (fun p =>
    let lb := secOf t p 8 8
    let ln := 128 * (secOf t p 16 4 * secOf t p 20 4 + 1)
    let xb := secOf t p 24 8
    firstBad [
      (secAt p 8, lb == 0 || (lb % 128 == 0 && s.below p lb ln)),
      (secAt p 24, xb == 0 || (xb % 64 == 0 && s.below p xb 128)),
      (secAt p 24, lb == 0 || xb == 0 || decide (lb + ln ≤ xb) || decide (xb + 128 ≤ lb))])

/-- Bytes of device memory as the module reads them at a commit; nothing where they cannot be read. -/
def State.look (s : State) (p a n : Nat) : Option Bytes :=
  match (s.devRead p a n true).2 with
  | .ok bs => some bs
  | .error _ => none

/-- A tensor table entry (R332). -/
def readTensor (bs : Bytes) : TEnt :=
  { elem0 := u64 bs 0, rows := u32 bs 8, cols := u32 bs 12, fmt := (Fmt.ofCode (u8 bs 16)).getD .fp32,
    factored := bit (u8 bs 17) 0, noDecay := bit (u8 bs 17) 1, bankOff := u64 bs 24 }

/-- A field whose value 0 stands for a default. -/
def orDefault (v d : Nat) : Nat := if v = 0 then d else v

/-- The exchange table that a header names, with its lists as bytes (R331). -/
def readExTable (h members tensors edges : Bytes) : ExTable :=
  { g := u16 h 2, rank := u16 h 4, subgroup := u16 h 6, stepSeq := u16 h 8, prog := u8 h 10, rescale := bit (u8 h 11) 0,
    nonfinite := bit (u8 h 11) 1, takeoverMs := orDefault (u16 h 12) 250, hopUs := orDefault (u16 h 14) 2000,
    deadlineMs := u32 h 16, limitMs := orDefault (u32 h 20) 10000, key := u64 h 24, firstOpen := u64 h 32,
    gradBase := u64 h 40, curBase := u64 h 48, nextBase := u64 h 56, bankBytes := u64 h 64, stateBase := u64 h 72,
    replicaBase := u64 h 80, schedBase := u64 h 88, firstEpoch := u32 h 116,
    members := (List.range (u16 h 2)).map (fun i => u16 members (2 * i)),
    tensors := (List.range (u32 h 112)).map (fun i => readTensor ((tensors.drop (32 * i)).take 32)),
    edges := (List.range (u16 h 2 + 1)).map (fun i => u64 edges (8 * i)) }

/-- The exchange table of section `p` with its lists: what cannot be read reads as no bytes, and fails its check. -/
def State.exTableAt (s : State) (p a : Nat) : Bytes × ExTable :=
  let h := (s.look p a 128).getD []
  let list (off n : Nat) : Bytes := if s.below p (u64 h off) n then (s.look p (u64 h off) n).getD [] else []
  (h, readExTable h (list 96 (2 * u16 h 2))
    (if u32 h 112 ≤ 2 ^ 20 then list 104 (32 * u32 h 112) else []) (list 120 (8 * (u16 h 2 + 1))))

/-- Elements of the parameter vector (R329). -/
def ExTable.elems (t : ExTable) : Nat := (t.tensors.map (fun e => e.rows * e.cols)).sum

/-- Reason 0x0B: the header (R331, R345), and the regions it names. -/
def State.badExHeader (s : State) (p : Nat) (fabric : Bool) (h : Bytes) (x : ExTable) : Option Nat :=
  firstBad [
    (0, u16 h 0 == 1),
    (2, decide (1 ≤ x.g) && (fabric || decide (x.g ≤ 1))),
    (4, decide (x.rank < x.g)),
    (6, x.subgroup == 0 || (decide (2 ≤ x.subgroup) && decide (x.subgroup < x.g) && x.g % x.subgroup == 0)),
    (10, decide (1 ≤ x.prog) && decide (x.prog ≤ 3)),
    (11, bits (u8 h 11) 2 6 == 0),
    (16, decide (1 ≤ x.deadlineMs) && decide (x.deadlineMs ≤ 600000)),
    (40, s.below p x.gradBase (4 * x.elems)),
    (48, s.below p x.curBase x.bankBytes),
    (56, s.below p x.nextBase x.bankBytes),
    (64, x.bankBytes % 2048 == 0),
    (72, s.below p x.stateBase (x.stateBytes false x.rank)),
    (80, x.g == 1 || s.below p x.replicaBase (x.stateBytes false ((x.rank + x.g - 1) % max 1 x.g))),
    (88, s.below p x.schedBase (256 * 64)),
    (112, decide (1 ≤ u32 h 112) && decide (u32 h 112 ≤ 2 ^ 20))]

/-- Reason 0x0C: the member list lies below the limit, can be read, and names nodes (R302, R331). -/
def State.badMembers (s : State) (p : Nat) (fabric : Bool) (h : Bytes) (x : ExTable) : Option Nat :=
  if !s.below p (u64 h 96) (2 * x.g) ∨ s.look p (u64 h 96) (2 * x.g) = none then some 0
  else firstBad (x.members.zipIdx.map (fun e => (2 * e.2, !fabric || e.1 != 0)))

/-- Whether element `i` begins a row, and no factored tensor holds it beyond its first element (R332). -/
def ExTable.edgeOk (x : ExTable) (i : Nat) : Bool :=
  i == x.elems || (match x.tensorOf i with
    | some (_, e) => (i - e.elem0) % max 1 e.cols == 0 && (!e.factored || i == e.elem0)
    | none => false)

/-- Reason 0x0D: the shard edges (R332). -/
def State.badEdges (s : State) (p : Nat) (h : Bytes) (x : ExTable) : Option Nat :=
  if !s.below p (u64 h 120) (8 * (x.g + 1)) ∨ s.look p (u64 h 120) (8 * (x.g + 1)) = none then some 0
  else firstBad (x.edges.zipIdx.map (fun e =>
    (8 * e.2, (if e.2 = 0 then e.1 == 0 else decide (x.edges.getD (e.2 - 1) 0 < e.1)) &&
      (e.2 != x.g || e.1 == x.elems) && x.edgeOk e.1)))

/-- A `BANK_FMT` that R332 allows. -/
def bankFmtOk (code : Nat) : Bool := code == 0x20 || code == 0x21 || (decide (1 ≤ code) && decide (code ≤ 5))

/-- Reason 0x0E: the tensor table (R332). -/
def State.badTensors (s : State) (p : Nat) (h : Bytes) (x : ExTable) : Option Nat :=
  let n := u32 h 112
  match (if s.below p (u64 h 104) (32 * n) then s.look p (u64 h 104) (32 * n) else none) with
  | none => some 0
  | some bs =>
    (x.tensors.zipIdx.findSome? (fun e =>
      let o := 32 * e.2
      let start := ((x.tensors.take e.2).map (fun y => y.rows * y.cols)).sum
      firstBad [(o, e.1.elem0 == start), (o + 8, e.1.rows != 0), (o + 12, e.1.cols != 0),
        (o + 16, bankFmtOk (u8 bs (o + 16))), (o + 17, bits (u8 bs (o + 17)) 2 6 == 0), (o + 18, zeroAt bs (o + 18) 6),
        (o + 24, decide (e.1.bankOff + 64 ≤ x.bankBytes))]))

/-- Reasons 0x0B to 0x0E, in this order over the sections with `EXCH_EN`. -/
def State.rejectExchange (s : State) (t : Bytes) (n : Nat) : Option Reject :=
  let tables := (List.range n).map (fun p => s.exTableAt p (secOf t p 24 8))
  let each (reason : Nat) (f : Nat → Bytes → ExTable → Option Nat) : Option Reject :=
    inSections reason n (fun p =>
      if !secExch t p then none else
      match tables[p]? with
      | some x => f p x.1 x.2
      | none => none)
  ((each 0x0B (fun p => s.badExHeader p (secFabric t p))).or
    (each 0x0C (fun p => s.badMembers p (secFabric t p)))).or
    ((each 0x0D (fun p => s.badEdges p)).or (each 0x0E (fun p => s.badTensors p)))

/-! ## Reason 0x0F (R376) -/

/-- Whether a job of a partition is pending (R376): a selected one, or an entry in an enabled ring. -/
def State.pendingJob (s : State) (p : Nat) : Bool :=
  (s.part p).next.isSome || (List.range 64).any (fun n => (s.ring p n).enabled && (s.ring p n).tail != (s.ring p n).head)

/-- Whether a partition is busy (R376). -/
def State.partBusy (s : State) (p : Nat) : Bool :=
  (s.part p).job.isSome || s.pendingJob p || (s.part p).hold || (s.part p).resetting != 0

/-- Reason 0x0F: a section changes that may not. -/
def State.rejectChange (s : State) (t : Bytes) (n : Nat) : Option Reject :=
  match s.setup with
  | none => none
  | some old =>
    inSections 0x0F n (fun p =>
      let same : Bool := ((t.drop (secAt p 0)).take 64) == ((old.drop (secAt p 0)).take 64)
      let free : Bool := !s.partBusy p && ((s.exch p).state == 0 || (s.exch p).state == 6) &&
        !(List.range 64).any (fun n => (s.ring p n).enabled && decide (secOf t p 7 1 ≤ n))
      firstBad [(secAt p 0, same || free)])

/-! ## Decision (R372, R375 to R377) -/

/-- The module with a layout and reserves fixed for the first time: partitions are formed, each with its capacity and its
reserve. What HBM held under another interleave is lost to the new partitions (R25, R263, R277, R376). -/
def State.formParts (s : State) (n : Nat) (reserves : List Nat) : State :=
  let s1 := (List.range s.layout).foldl State.emptyCaches s
  let s2 := if n = s.layout then s1 else { s1 with layout := n, parts := [] }
  s2.setCapacity reserves

/-- The state against which a table with a known layout is checked further: with its partitions formed. -/
def State.formed (s : State) (t : Bytes) (n : Nat) : State :=
  if s.hif.fixed.isSome then s else s.formParts n ((List.range 4).map (secReserve t))

/-- The verdict on a committed table: its first failure in the order of R375, or none. -/
def State.verdict (s : State) (t : Bytes) : Option Reject :=
  ((rejectForm t).or (rejectReserved t)).or ((s.rejectLayout t).or
    (match layoutOf (u8 t 8) with
      | none => none
      | some n =>
        let f := s.formed t n
        ((rejectIds t n).or (rejectRanges t n)).or ((f.rejectPlaces t n).or ((f.rejectExchange t n).or (s.rejectChange t n)))))

/-- Changes the host interface. -/
def State.modHif (s : State) (f : Hif → Hif) : State := { s with hif := f s.hif }

/-- A decision is shown in `HIF_SETUP_RESULT` and `HIF_SETUP_DETAIL` (R372). -/
def State.showResult (s : State) (r : Reject) : State :=
  s.modHif (fun h => { h with busy := false, valid := true, reason := r.1, sect := r.2.1, detail := r.2.2 })

/-- The exchange tables of an accepted table take the place of the old ones (R331). -/
def State.takeExTables (s : State) (t : Bytes) (n : Nat) : State :=
  (List.range n).foldl (fun acc p =>
    acc.modExch p (fun x => { x with tbl := if secExch t p then some (acc.exTableAt p (secOf t p 24 8)).2 else none })) s

/-- Every port follows its node's state: up where both ends forward, in `HELLO_ONLY` where its own end does not (R315, R377). -/
def State.settlePorts (s : State) : State :=
  (List.range s.portCount).foldl (fun acc n =>
    if acc.forwards (acc.nodeOf n) then acc.raisePort n
    else if (acc.port n).st = 3 then acc.setPort n { acc.port n with st := 2 } else acc) s

/-- A table comes into force whole (R376). -/
def State.acceptTable (s : State) (t : Bytes) (n : Nat) : State :=
  let s1 := s.formed t n
  let s2 := { s1 with setup := some t
                      hif := { s1.hif with fixed := s1.hif.fixed.or (some (n, (List.range 4).map (secReserve t))) } }
  (((s2.showResult (0, 0, 0)).takeExTables t n).settlePorts).chooseParent

/-- A table is rejected; with another in force, the PF event ring receives E_SETUP (R377). -/
def State.rejectTable (s : State) (r : Reject) : State :=
  let s1 := s.showResult r
  if s.setup.isNone then s1 else
  s1.postEvent .pf Code.setup (toLe 1 r.1 ++ toLe 1 r.2.1 ++ toLe 2 0 ++ toLe 4 r.2.2)

/-- SETUP_COMMIT: the buffer is copied and validation begins; a commit while one is validated is ignored (R372). -/
def State.doSetupCommit (s : State) : State :=
  if s.hif.busy then s else
  s.modHif (fun h => { h with copy := some (h.buffer.readN 0 324), busy := true, valid := false })

/-- SETUP_VALIDATION: the committed copy is accepted or rejected, once bring-up has ended (R372, R375). -/
def State.doSetupValidation (s : State) : State :=
  if !s.hif.busy ∨ s.bringing then s else
  match s.hif.copy with
  | none => s
  | some t =>
    match s.verdict t, layoutOf (u8 t 8) with
    | none, some n => s.acceptTable t n
    | some r, _ => s.rejectTable r
    | none, none => s

end Sys2Proof.Machine
end

