-- ==== Sys2Proof/Machine/Rings.lean ====
section
/-! DEFINITION. Host accesses (R364 to R371, R377 to R391): doorbells, ring registers, event vectors, BAR2 and the Function
Level Resets. -/

namespace Sys2Proof.Machine

/-- Whether the module holds its outputs (R377, R434). -/
def State.held (s : State) : Bool := s.setup.isNone || s.chip.power != .on

/-- An access is dropped and counted (R368, R381). -/
def State.badAccess (s : State) : State := s.modHif (fun h => { h with badSize := satAdd 0xFFFF h.badSize 1 })

/-! ## Doorbells (R381) -/

/-- A doorbell reaches the endpoint and takes effect, or is dropped and counted. -/
def State.doorbell (s : State) (ok : Bool) (f : State → State) : State :=
  let s1 := s.gevent 6 0 0 1
  if ok && !s.held then f s1 else s1.badAccess

/-- SQ_TAIL: entries up to the tail are new. -/
def State.doSqTail (s : State) (p n v : Nat) : State :=
  s.doorbell (decide (n < 64) && (s.ring p n).enabled && decide (v < (s.ring p n).size)) (fun s1 =>
    s1.modRing p n (fun r => { r with tail := v }))

/-- CQ_HEAD: completion entries before the head are free again. -/
def State.doCqHead (s : State) (p n v : Nat) : State :=
  s.doorbell (decide (n < 64) && (s.ring p n).enabled && decide (v < (s.ring p n).size)) (fun s1 =>
    s1.modRing p n (fun r => { r with cqHead := v }))

/-- The events that wait are written while their ring has room (R387). -/
def State.drainEvents (s : State) (fn : Fn) : List Bytes → State
  | [] => s
  | b :: rest =>
    if (s.evt fn).room then ((s.setEvt fn { s.evt fn with waiting := rest }).writeEvent fn b).drainEvents fn rest else s

/-- EVT_HEAD: event entries before the head are free again, and events that waited are written. -/
def State.doEvtHead (s : State) (fn : Fn) (v : Nat) : State :=
  s.doorbell ((s.evt fn).enabled && decide (v < 2 ^ (s.evt fn).log2)) (fun s1 =>
    (s1.setEvt fn { s1.evt fn with head := v }).drainEvents fn (s1.evt fn).waiting)

/-- EVENT_IRQ_INTERVAL: the 10 µs after a vector end; events written meanwhile are signalled now, which begins the next
interval (R387). -/
def State.doIrqInterval (s : State) (fn : Fn) : State :=
  let r := s.evt fn
  if !r.interval then s
  else if r.irqDue && r.enabled && !s.held then (s.setEvt fn { r with irqDue := false }).emit (.msix fn (bits r.cfg 16 9))
  else s.setEvt fn { r with interval := false, irqDue := false }

/-! ## Ring registers (R379, R386, R390) -/

/-- A `LOG2_SIZE` that a ring may have. -/
def log2Ok (cfg : Nat) : Bool := decide (4 ≤ bits cfg 0 5) && decide (bits cfg 0 5 ≤ 16)

/-- Whether a function's partition has a set-up section. -/
def State.hasSection (s : State) : Fn → Bool
  | .pf => true
  | .vf p => decide (p < s.layout)

/-- Whether a disabled ring still drains its job (R379). -/
def State.draining (s : State) (p n : Nat) : Bool :=
  match (s.part p).job with
  | some j => j.discard && j.ring == n
  | none => false

/-- A recorded trip or regulator fault is reported in the PF event ring, once: when that ring is first enabled, since no event
reaches it before (R387, R430, R431). DEDUCED (log 24). -/
def State.reportTrip (s : State) : State :=
  match s.chip.trip with
  | some t =>
    (s.modChip (fun h => { h with trip := none })).postEvent .pf (if t.1 = 3 then Code.thermalTrip else Code.regFault) []
  | none => s

/-- The bits of `RING_CFG` that a group keeps (R390). -/
def cfgMask (fn : Fn) (event : Bool) : Nat :=
  0x1FF003F + (if event then (if fn = .pf then 0x200 else 0) else 0xC0)

/-- A ring pair is enabled, or the enable is refused (R379). -/
def State.enablePair (s : State) (p n cfg : Nat) : State :=
  let r := { s.ring p n with cfg }
  if r.enabled then s.setRing p n r
  else if !s.held && s.hasSection (.vf p) && decide (n < s.secField p 7 1) && log2Ok cfg && !s.draining p n then
    s.setRing p n { r with enabled := true, refused := false, stopped := false, base := r.baseLo + 2 ^ 32 * r.baseHi,
                           log2 := bits cfg 0 5, head := 0, tail := 0, cqIdx := 0, phase := true, cqHead := 0 }
  else s.setRing p n { r with refused := true }

/-- An event ring is enabled, or the enable is refused (R379, R387). -/
def State.enableEvents (s : State) (fn : Fn) (cfg : Nat) : State :=
  let r := { s.evt fn with cfg }
  if r.enabled then s.setEvt fn r
  else if !s.held && s.hasSection fn && log2Ok cfg then
    let s1 := s.setEvt fn { EvtRing.reset with
      baseLo := r.baseLo, baseHi := r.baseHi, cfg, enabled := true, base := r.baseLo + 2 ^ 32 * r.baseHi, log2 := bits cfg 0 5 }
    if fn = .pf then s1.reportTrip else s1
  else s.setEvt fn { r with refused := true }

/-- A ring pair is disabled: it takes no more jobs, pending entries are discarded, a selected job of it is dropped, and the
completion of a running one will be discarded (R379). -/
def State.disablePair (s : State) (p n cfg : Nat) : State :=
  let r := s.ring p n
  let s1 := s.setRing p n { r with cfg, enabled := false, head := if r.enabled then r.tail else r.head }
  if !r.enabled then s1 else
  let q := s1.part p
  s1.setPart p { q with next := q.next.filter (fun j => j.ring != n)
                        job := q.job.map (fun j => if j.ring = n then { j with discard := true } else j) }

/-- An event ring is disabled, and the events that wait for it are dropped. -/
def State.disableEvents (s : State) (fn : Fn) (cfg : Nat) : State :=
  s.setEvt fn { s.evt fn with cfg, enabled := false, waiting := [] }

/-- RESUME: a stopped ring may start jobs again (R386). -/
def State.doResume (s : State) (p n : Nat) : State := s.modRing p n (fun r => { r with stopped := false })

/-- A write of `RING_CFG` of group `n` (64 is the event ring). -/
def State.writeRingCfg (s : State) (fn : Fn) (n v : Nat) : State :=
  match fn, decide (n < 64) with
  | .vf p, true =>
    let s1 := if bit v 8 then s.doResume p n else s
    let cfg := v &&& cfgMask fn false
    if bit v 5 then s1.enablePair p n cfg else s1.disablePair p n cfg
  | _, _ =>
    let cfg := v &&& cfgMask fn true
    if bit v 5 then s.enableEvents fn cfg else s.disableEvents fn cfg

/-- RING_ENABLE: a write of `RING_CFG` with `ENABLE` = 1 (R379). -/
def State.doRingEnable (s : State) (fn : Fn) (n v : Nat) : State := if bit v 5 then s.writeRingCfg fn n v else s

/-- RING_DISABLE: a write of `RING_CFG` with `ENABLE` = 0 (R379). -/
def State.doRingDisable (s : State) (fn : Fn) (n v : Nat) : State := if bit v 5 then s else s.writeRingCfg fn n v

/-! ## BAR2 (R366, R369) -/

/-- Where a byte of a function's BAR2 lies: partition and device address; nothing for a partition that does not exist or before
bring-up has ended. The core-store window belongs to the physical function. -/
def State.bar2Place (s : State) (fn : Fn) (off : Nat) : Option (Nat × Nat) :=
  let w := s.hif.windows
  let r : Nat × Nat := match fn with
    | .pf => (bits w 0 2, if bit w 2 then coreBase + off else bits w 8 10 * gib + off)
    | .vf p => (p, s.hif.vfBase.getD p 0 * gib + off)
  if s.bringing ∨ s.layout ≤ r.1 then none else some r

/-- Bytes of an access at `a` that lie below the end of the partition's HBM (R369); all of them in the core-store window. -/
def State.bar2Reach (s : State) (p a n : Nat) : Nat :=
  if coreBase ≤ a then n else min n ((s.part p).topGib * gib - a)

/-- Reads a range for the host, the environment's fault on its first line. -/
def State.hostRead (s : State) (p a n : Nat) (flt : MemFault) : State × Except (Nat × Nat) Bytes :=
  (pieces a n).zipIdx.foldl (fun acc e =>
    match acc.2 with
    | .error x => (acc.1, .error x)
    | .ok bs =>
      let r := acc.1.readLine p e.1.1 e.1.2 true (if e.2 = 0 then flt else .clean)
      match r.2 with
      | .ok b => (r.1, .ok (bs ++ b))
      | .error c => (r.1, .error (c, e.1.1))) (s, .ok [])

/-- BAR2_READ: bytes at or above the top read as ones; a poisoned or uncorrectable word makes all of them ones with the EP bit
(R369). What an access to an unmapped address returns is not stated: ones, DESIGN CHOICE (log 24). -/
def State.doBar2Read (s : State) (fn : Fn) (off n : Nat) (flt : MemFault) : State :=
  let ones (k : Nat) : Bytes := List.replicate k 0xFF
  match s.bar2Place fn off with
  | none => s.emit (.barData fn (ones n) false)
  | some (p, a) =>
    let k := s.bar2Reach p a n
    let r := (s.gevent 6 0 1 n).hostRead p a k flt
    match r.2 with
    | .ok bs => r.1.emit (.barData fn (bs ++ ones (n - k)) false)
    | .error e => r.1.emit (.barData fn (ones n) (e.1 == 2))

/-- BAR2_WRITE: bytes at or above the top are dropped (R369). A posted write that its target refuses is dropped too. -/
def State.doBar2Write (s : State) (fn : Fn) (off : Nat) (data : Bytes) : State :=
  match s.bar2Place fn off with
  | none => s
  | some (p, a) => ((s.gevent 6 0 2 data.length).devWrite p a (data.take (s.bar2Reach p a data.length)) true).1

/-- BAR2_READ_ABORT: a read without data after 10 ms completes with Completer Abort and counts (R369). -/
def State.doBar2Abort (s : State) (fn : Fn) : State :=
  (s.modHif (fun h => { h with readAbort := satAdd 0xFFFF h.readAbort 1 })).emit (.barAbort fn)

/-! ## Function Level Reset (R371, R390, R391) -/

/-- What a VF's reset does to its own registers: rings, event ring, MSI-X table, `VF_STATUS`. -/
def Hif.resetVf (h : Hif) (p : Nat) : Hif :=
  { h with pairs := h.pairs.filter (fun e => e.1 / 64 != p), evts := h.evts.filter (fun e => e.1 != p + 1),
           msix := setAt h.msix (p + 1) [], vfBase := setAt h.vfBase p 0 }

/-- FUNCTION_LEVEL_RESET_VF: rings and event ring are disabled, pending jobs discarded, and a running job ended by a compute
reset, without completions (R371). -/
def State.doFlrVf (s : State) (p : Nat) : State :=
  let ran := (s.part p).job.isSome
  let s1 := s.modHif (fun h => h.resetVf p)
  let s2 := s1.setPart p { s1.part p with job := none, next := none }
  if ran then s2.doComputeReset p else s2

/-- FUNCTION_LEVEL_RESET_PF: as on every VF, and the set-up table is withdrawn; layout and reserves stay in force (R371, R377). -/
def State.doFlrPf (s : State) : State :=
  let s1 := [0, 1, 2, 3].foldl State.doFlrVf s
  let s2 := s1.modHif (fun h => { h with
    evts := h.evts.filter (fun e => e.1 != 0), msix := setAt h.msix 0 [], windows := 0, valid := false, reason := 0,
    sect := 0, detail := 0 })
  let s3 := [0, 1, 2, 3].foldl (fun acc p => acc.modExch p (fun x => { x with tbl := none })) { s2 with setup := none }
  (s3.settlePorts).chooseParent

end Sys2Proof.Machine
end

