-- ==== Sys2Proof/Machine/Mmc.lean ====
section
/-! DEFINITION. The management controller (chapter 15): MCTP, PLDM monitoring and firmware update, activation, SPDM attestation
and the identity key. Messages are abstract (log 19). -/

namespace Sys2Proof.Machine

/-! ## Sensors (R440) -/

/-- The module state that its sensor shows: bring-up, held, idle, running, failed or recovery. -/
def State.moduleState (s : State) : Nat :=
  if s.chip.recovery then 5
  else if s.chip.result = 3 ∨ s.chip.power = .tripped then 4
  else if s.bringing then 0
  else if s.held then 1
  else if s.anyJob then 3 else 2

/-- The state that the partition sensor shows: normal, degraded or absent. -/
def State.partState (s : State) (p : Nat) : Nat :=
  if s.layout ≤ p then 2 else if (s.part p).degraded then 1 else 0

/-- The state that the firmware update sensor shows: idle, downloading, pending activation or activating. -/
def State.updateState (s : State) : Nat :=
  if s.mmc.restarting ∨ s.mmc.coreOld ≠ 0 then 3
  else if s.mmc.pend.any id then 2
  else if s.mmc.update = 1 ∨ s.mmc.update = 2 then 1 else 0

/-- Whether the strap or cooler codes disagree, and with which straps, once the class has been read (R418, R420). -/
def State.classMismatch (s : State) : Nat :=
  if s.chip.result = 0 ∨ (s.gov.eepromCls = s.gov.strapCls ∧ s.chip.straps = s.gov.strapCls) then 0 else 1 + s.chip.straps

/-- The state by which sensor `i` sends its events: numeric sensors show which of their conditions hold. Sensors 0 to 19 are the
temperatures, 20 the input power, 21 the input voltage, 22 the class, 23 the module, 24 to 27 the partitions, 28 the update. -/
def State.sensorState (s : State) (i : Nat) : Nat :=
  if i < 20 then (let t := s.gov.temps.getD i 0; if 840 ≤ t then 2 else if 760 ≤ t then 1 else 0)
  else if i = 20 then b2n (decide (envelope s.cls < s.gov.powerW))
  else if i = 21 then b2n (s.gov.vinDv != 0 && (decide (s.gov.vinDv < 480) || decide (540 < s.gov.vinDv)))
  else if i = 22 then s.classMismatch
  else if i = 23 then s.moduleState
  else if i < 28 then s.partState (i - 24) else s.updateState

/-- The reading of a numeric sensor: 0.125 °C, W or 0.1 V. -/
def State.reading (s : State) (i : Nat) : Int :=
  if i < 20 then s.gov.temps.getD i 0 else if i = 20 then s.gov.powerW else s.gov.vinDv

/-- The state that a state sensor reads. -/
def State.stateReading (s : State) (i : Nat) : Nat := if i = 22 then s.cls else s.sensorState i

/-- Whether messages of a binding pass (R437, R422): the pins' while the MMC rail is on, the host's while the link is up. -/
def State.reaches (s : State) (b : Binding) : Bool :=
  match b with
  | .vdm => s.chip.power == .on && !s.chip.perst
  | _ => s.chip.power != .off

/-- PlatformEventMessage (R440): sent to the event receiver, kept while the MMC restarts (R448), and not sent for a disabled
sensor or with no receiver set. -/
def State.sendSensor (s : State) (e : SensorEvt) : State :=
  if s.mmc.disabled.contains e.sensor then s
  else if s.mmc.restarting then s.modMmc (fun m => { m with waitEvts := m.waitEvts ++ [e] })
  else match s.mmc.receiver with
    | some (b, eid) =>
      if s.mmc.up && s.reaches b then s.emit (.mctp b (.pldmRequest 2 0x0A [eid, e.sensor, e.value])) else s
    | none => s

/-- A change of one sensor's state is noted, and sent when its condition has come to hold. -/
def State.reportSensor (s : State) (i : Nat) : State :=
  let now := s.sensorState i
  let old := s.mmc.lastStates.getD i 0
  if now = old then s else
  let s1 := s.modMmc (fun m => { m with lastStates := setAt m.lastStates i now })
  if i < 23 ∧ now < old then s1
  else s1.sendSensor ⟨i, if i < 22 then s.reading i else s.stateReading i⟩

/-- Every sensor's event. -/
def State.reportSensors (s : State) : State := (List.range 29).foldl State.reportSensor s

/-- A command's effect, and the sensor events that follow from it (R440). -/
def State.reporting (s : State) (f : State → State) : State := (f s).reportSensors

/-! ## Requests -/

/-- The place of a binding. -/
def bindingIndex : Binding → Nat
  | .i3c => 0
  | .smbus => 1
  | .vdm => 2

/-- Whether the MMC answers on a binding: it runs, or the boot ROM serves the two pin bindings in recovery mode (R437, R448,
R449). -/
def State.serves (s : State) (b : Binding) (inRecovery : Bool) : Bool :=
  s.reaches b && ((s.mmc.up && !s.mmc.restarting) || (s.chip.recovery && inRecovery && b != .vdm))

/-- A request is served, or is lost. -/
def State.serve (s : State) (b : Binding) (inRecovery : Bool) (f : State → State) : State :=
  if s.serves b inRecovery then f s else s

/-- A PLDM response. -/
def State.answer (s : State) (b : Binding) (ty cmd : Nat) (cc : PldmCc) (vals : List Int) : State :=
  s.emit (.mctp b (.pldm ty cmd cc vals))

/-- SET_ENDPOINT_ID: one assignment per binding (R437). -/
def State.doSetEndpointId (s : State) (b : Binding) (eid : Nat) : State :=
  s.serve b true (fun s => (s.modMmc (fun m => { m with eids := setAt m.eids (bindingIndex b) (eid % 256) })).emit
    (.mctp b (.endpointId (eid % 256))))

/-! ## PLDM for base and for monitoring (R439, R440) -/

/-- GETTID. -/
def State.doGetTid (s : State) (b : Binding) : State := s.serve b false (fun s => s.answer b 0 2 .success [s.mmc.tid])

/-- SETTID: 0 and 0xFF are no terminus identifiers (DSP0240; PRESUMED, log 19). -/
def State.doSetTid (s : State) (b : Binding) (tid : Nat) : State :=
  s.serve b false (fun s =>
    if tid = 0 ∨ 255 ≤ tid then s.answer b 0 1 .invalidData []
    else (s.modMmc (fun m => { m with tid })).answer b 0 1 .success [])

/-- GETPLDMVERSION: the versions of R439. -/
def State.doGetPldmVersion (s : State) (b : Binding) (ty : Nat) : State :=
  s.serve b false (fun s =>
    if ty = 0 then s.answer b 0 3 .success [Config.pldmBaseVersion.toNat]
    else if ty = 2 then s.answer b 0 3 .success [1, 2]
    else if ty = 5 then s.answer b 0 3 .success [1, 1]
    else s.answer b 0 3 .invalidData [])

/-- GETPLDMTYPES. -/
def State.doGetPldmTypes (s : State) (b : Binding) : State := s.serve b false (fun s => s.answer b 0 4 .success [0, 2, 5])

/-- The commands of each type (R439), by their DMTF numbers (PRESUMED, log 19). -/
def pldmCommands (ty : Nat) : List Int :=
  if ty = 0 then [1, 2, 3, 4, 5]
  else if ty = 2 then [0x04, 0x0A, 0x10, 0x11, 0x21, 0x50, 0x51]
  else if ty = 5 then [0x01, 0x02, 0x10, 0x13, 0x14, 0x15, 0x16, 0x17, 0x18, 0x1A, 0x1B, 0x1C, 0x1D] else []

/-- GETPLDMCOMMANDS. -/
def State.doGetPldmCommands (s : State) (b : Binding) (ty : Nat) : State :=
  s.serve b false (fun s =>
    if pldmCommands ty = [] then s.answer b 0 5 .invalidData [] else s.answer b 0 5 .success (pldmCommands ty))

/-- UNSUPPORTED_PLDM_CMD (R439). -/
def State.doUnsupported (s : State) (b : Binding) (ty cmd : Nat) : State :=
  s.serve b (ty == 5) (fun s => s.answer b ty cmd .errorUnsupportedPldmCmd [])

/-- GETPDRREPOSITORYINFO: the repository holds the 29 sensors of R440. -/
def State.doGetPdrInfo (s : State) (b : Binding) : State := s.serve b false (fun s => s.answer b 2 0x50 .success [29])

/-- What the record of a sensor says: its number, whether it is a state sensor, and its unit (0 none, 1 °C, 2 W, 3 V). -/
def pdrOf (i : Nat) : List Int := [i, b2n (decide (22 ≤ i)), if i < 20 then 1 else if i = 20 then 2 else if i = 21 then 3 else 0]

/-- GETPDR. -/
def State.doGetPdr (s : State) (b : Binding) (record : Nat) : State :=
  s.serve b false (fun s =>
    if record < 29 then s.answer b 2 0x51 .success (pdrOf record) else s.answer b 2 0x51 .invalidData [])

/-- GETSENSORREADING: whether the sensor is enabled, and the reading the governor last took (R440). -/
def State.doGetSensorReading (s : State) (b : Binding) (i : Nat) : State :=
  s.serve b false (fun s =>
    if i < 22 then s.answer b 2 0x11 .success [b2n (!s.mmc.disabled.contains i), s.reading i]
    else s.answer b 2 0x11 .invalidData [])

/-- GETSTATESENSORREADINGS. -/
def State.doGetStateReadings (s : State) (b : Binding) (i : Nat) : State :=
  s.serve b false (fun s =>
    if 22 ≤ i ∧ i < 29 then s.answer b 2 0x21 .success [s.stateReading i] else s.answer b 2 0x21 .invalidData [])

/-- SETNUMERICSENSORENABLE: operation 0 enables, 1 and 2 disable (DSP0248; PRESUMED, log 19). -/
def State.doSensorEnable (s : State) (b : Binding) (i op : Nat) : State :=
  s.serve b false (fun s =>
    if 22 ≤ i ∨ 3 ≤ op then s.answer b 2 0x10 .invalidData []
    else (s.modMmc (fun m => { m with
      disabled := (if op = 0 then [] else [i]) ++ m.disabled.filter (· != i) })).answer b 2 0x10 .success [])

/-- SETEVENTRECEIVER. -/
def State.doSetReceiver (s : State) (b : Binding) (eid : Nat) : State :=
  s.serve b false (fun s => (s.modMmc (fun m => { m with receiver := some (b, eid) })).answer b 2 0x04 .success [])

/-! ## The checks of an image (R442, R444) -/

/-- Bytes of the payload that a header names. -/
def imagePayload (img : Bytes) : Bytes := (img.drop 4096).take (u32 img 24)

/-- Whether a signer key's digest is one of the two fused ones and is not revoked. -/
def State.signerOk (s : State) (key : Bytes) : Bool :=
  (Config.sha256 key == Config.signerDigest 0 && !s.mmc.revoked.testBit 0) ||
    (Config.sha256 key == Config.signerDigest 1 && !s.mmc.revoked.testBit 1)

/-- The first failed check's code of an image for component `c` (1 to 3), in the order of R444; none when all pass. -/
def State.imageVerdict (s : State) (c : Nat) (img : Bytes) : Option Nat :=
  let target := u32 img 28
  if u32 img 0 ≠ 0x48465749 ∨ u16 img 4 ≠ 1 ∨ u8 img 6 ≠ c ∨ u8 img 7 ≠ 0 ∨ bits target 20 12 ≠ 0 ∨ !zeroAt img 64 64 ∨
    !zeroAt img 188 4 ∨ !zeroAt img 3796 300 then some Code.fwAuth
  else if bits target 0 16 ≠ 0x4816 ∨ !bit target (16 + b2n s.gradeS) ∨ !bit target (18 + s.chip.stepping) then some Code.fwAuth
  else if u64 img 8 < s.mmc.fusedSvn then some Code.fwRollback
  else if !s.signerOk ((img.drop 128).take 60) then some Code.fwAuth
  else if !Config.hssVerify ((img.drop 128).take 60) (img.take 192) ((img.drop 192).take 3604) then some Code.fwAuth
  else if (Config.sha256 (imagePayload img)).toNat ≠ fieldAt img 32 32 then some Code.fwAuth
  else none

/-- The slot that an image fills: its measurement is of its header and payload (R451). -/
def slotFor (img : Bytes) (valid : Bool) : FwSlot :=
  { valid, build := u64 img 16, svn := u64 img 8, digest := (Config.sha256 (img.take 4096 ++ imagePayload img)).toNat }

/-! ## Firmware update (R445, R446, R449) -/

/-- Whether an update that a binding started is under way. -/
def State.updating (s : State) (b : Binding) : Bool := (s.mmc.update == 1 || s.mmc.update == 2) && s.mmc.updBy == some b

/-- Whether a component may be updated now: in recovery mode only the MMC's. -/
def State.updatable (s : State) (c : Nat) : Bool := decide (1 ≤ c) && decide (c ≤ 3) && (!s.chip.recovery || c == 1)

/-- QUERYDEVICEIDENTIFIERS: part code, grade and serial number (R2, log 19). -/
def State.doQueryIds (s : State) (b : Binding) : State :=
  s.serve b true (fun s => s.answer b 5 0x01 .success [0x4816, s.gradeCode, s.serial])

/-- The `BUILD` of a component's running image (R457). -/
def State.buildOf (s : State) (c : Nat) : Nat :=
  if c = 0 then s.mmc.runMmc.build else if c = 1 then (s.mmc.slotOf 1 true).build else s.mmc.runBase.build

/-- Active and pending version of a component; 0 when none is pending. -/
def State.versionsOf (s : State) (c : Nat) : List Int :=
  [s.buildOf c, if s.mmc.pend.getD c false then ((s.mmc.slotOf c false).build : Int) else 0]

/-- GETFIRMWAREPARAMETERS. -/
def State.doFwParameters (s : State) (b : Binding) : State :=
  s.serve b true (fun s => s.answer b 5 0x02 .success
    (if s.chip.recovery then s.versionsOf 0 else s.versionsOf 0 ++ s.versionsOf 1 ++ s.versionsOf 2))

/-- REQUESTUPDATE: one update at a time, whichever binding it arrives on (R445). The number of components is not checked: the
spec gives no rule for it. -/
def State.doRequestUpdate (s : State) (b : Binding) (_ncomp : Nat) : State :=
  s.serve b true (fun s =>
    if s.mmc.update ≠ 0 then s.answer b 5 0x10 .alreadyInUpdateMode []
    else (s.modMmc (fun m => { m with update := 1, updBy := some b, updComps := [], verified := [] })).answer b 5 0x10 .success [])

/-- PASSCOMPONENTTABLE: a component takes part in the update. -/
def State.doPassComponent (s : State) (b : Binding) (c : Nat) : State :=
  s.serve b true (fun s =>
    if !s.updating b then s.answer b 5 0x13 .notInUpdateMode []
    else if !s.updatable c then s.answer b 5 0x13 .invalidData []
    else (s.modMmc (fun m => { m with updComps := (c - 1) :: m.updComps.filter (· != c - 1) })).answer b 5 0x13 .success [])

/-- An image is written to the inactive slot of a component, and is checked as written; the slot is valid only when every check
passes, and an image that was pending there is pending no more (R445). -/
def Mmc.putImage (m : Mmc) (c : Nat) (img : Bytes) (good : Bool) : Mmc :=
  { m.setSlot c false (slotFor img good) with
    pend := setAt m.pend c false
    verified := (if good then [c] else []) ++ m.verified.filter (· != c) }

/-- UPDATECOMPONENT: the MMC requests and downloads the image, reports the transfer, the verdict and the apply, and raises the
code of a failed check (R439, R444, R445). In recovery mode the boot ROM writes slot A (R449). -/
def State.doUpdateComponent (s : State) (b : Binding) (c : Nat) (img : Bytes) : State :=
  s.serve b true (fun s =>
    if !s.updating b then s.answer b 5 0x14 .notInUpdateMode []
    else if !s.updatable c ∨ !s.mmc.updComps.contains (c - 1) then s.answer b 5 0x14 .invalidData []
    else
      let v := s.imageVerdict c img
      let s1 := ((s.answer b 5 0x14 .success []).emit (.mctp b (.pldmRequest 5 0x15 [c]))).emit (.mctp b (.pldmRequest 5 0x16 [c]))
      let s2 := s1.emit (.mctp b (.pldmRequest 5 0x17 [c, b2n v.isSome]))
      let s3 := s2.modMmc (fun m =>
        let m1 := if s.chip.recovery then { m with active := setAt m.active 0 true } else m
        { m1.putImage (c - 1) img v.isNone with update := if v.isNone then 2 else m.update, active := m1.active })
      if v.isSome then s3.turnDown v else s3.emit (.mctp b (.pldmRequest 5 0x18 [c])))

/-- ACTIVATEFIRMWARE: every verified component becomes pending (R446). In recovery mode the module starts a deep bring-up from
the image in slot A (R449). -/
def State.doActivate (s : State) (b : Binding) : State :=
  s.serve b true (fun s =>
    if !s.updating b then s.answer b 5 0x1A .notInUpdateMode []
    else if s.mmc.verified = [] then s.answer b 5 0x1A .invalidData []
    else
      let s1 := s.answer b 5 0x1A .success []
      if s.chip.recovery then
        let s2 := (s1.modMmc (fun m => { m with active := setAt m.active 0 false, update := 0 })).fullReset s.chip.lastCause false
        s2.modChip (fun h => { h with deepNext := true })
      else s1.modMmc (fun m =>
        ({ m with pend := m.verified.foldl (fun acc c => setAt acc c true) m.pend, update := 3 } : Mmc).settleUpdate))

/-- GETSTATUS. -/
def State.doGetStatus (s : State) (b : Binding) : State := s.serve b true (fun s => s.answer b 5 0x1B .success [s.mmc.update])

/-- CANCELUPDATECOMPONENT: a download ends within its own command, so none is left to cancel. -/
def State.doCancelComponent (s : State) (b : Binding) : State :=
  s.serve b true (fun s => s.answer b 5 0x1C (if s.updating b then .success else .notInUpdateMode) [])

/-- CANCELUPDATE: the update ends, and what it wrote is not used. -/
def State.doCancelUpdate (s : State) (b : Binding) : State :=
  s.serve b true (fun s =>
    if !s.updating b then s.answer b 5 0x1D .notInUpdateMode []
    else
      let drop (m : Mmc) (c : Nat) : Mmc := m.setSlot c false { m.slotOf c false with valid := false }
      (s.modMmc (fun m => { m.verified.foldl drop m with update := 0, updBy := none, updComps := [], verified := [] })).answer b 5
        0x1D .success [])

/-! ## Activation and restart (R405, R446 to R448) -/

/-- Whether the MMC may restart from its new slot now (R448). -/
def State.mayRestart (s : State) : Bool :=
  s.chip.power != .off && s.mmc.up && !s.mmc.restarting && s.mmc.pend.getD 0 false &&
    !(List.range 4).any (fun p => [2, 3, 4].contains (s.exch p).state)

/-- MMC_RESTART: the boot ROM checks the new slot; when that fails it starts the old one, marks the new one invalid and raises
E_FW_FALLBACK (R446, R448). -/
def State.doMmcRestart (s : State) (newSlotOk : Bool) : State :=
  if !s.mayRestart then s else
  let v := s.mmc.slotVerdict (s.mmc.slotOf 0 false) newSlotOk
  let go (m : Mmc) : Mmc := { m with restarting := true }
  match v with
  | none => s.modMmc (fun m => { go (m.flip 0) with fallback := false })
  | some _ =>
    ((s.turnDown v).modMmc (fun m => { go ((m.setSlot 0 false { m.slotOf 0 false with valid := false })) with
      fallback := true, pend := setAt m.pend 0 false })).postEvent .pf Code.fwFallback []

/-- MMC_RESTART_DONE: the image that runs has proved good, sensor events that waited are sent, repair holds that were put off
begin, and a full reset that waited runs (R447, R448). -/
def State.doMmcRestartDone (s : State) : State :=
  if !s.mmc.restarting then s else
  let m := ({ s.mmc.proved 0 with restarting := false, runMmc := (s.mmc.slotOf 0 true).image,
                                         leafAt := 0, leafEnd := 0 } : Mmc).settleUpdate
  let s1 := { s with mmc := { m with waitEvts := [] } }
  let s2 := s.mmc.waitEvts.foldl State.sendSensor s1
  let s3 := (List.range 4).foldl State.holdIfDue s2
  match s3.chip.waitFull with
  | some cause => s3.fullReset cause false
  | none => s3

/-- Whether a partition may activate a pending core image now (R446). -/
def State.mayActivate (s : State) (p : Nat) : Bool :=
  s.chip.power == .on && s.mmc.up && !s.mmc.restarting && s.mmc.pend.getD 1 false && decide (p < s.layout) && !s.bringing &&
    (s.part p).resetting == 0 && (s.part p).job.isNone && (s.part p).next.isNone && !(List.range 64).any (fun n => (s.ring p n).due) &&
    ((s.exch p).state == 0 || (s.exch p).state == 6) && (s.mmc.coreOld == 0 || s.mmc.coreOld.testBit p)

/-- CORE_FW_ACTIVATION: the MMC starts a partition reset of an idle partition (R405, R446). -/
def State.doCoreActivation (s : State) (p : Nat) : State := if s.mayActivate p then s.doPartReset p else s

/-- Whether a node takes a broadcast image: it has a fabric, the MMC runs, and neither an update nor an activation has the core
slots in use. -/
def State.takesBroadcast (s : State) : Bool :=
  s.chip.power == .on && s.mmc.up && !s.mmc.restarting && (List.range 4).any s.fabricOn && (s.mmc.update == 0 || s.mmc.update == 3) &&
    s.mmc.coreOld == 0

/-- FIRMWARE_BROADCAST: the node verifies the core image before it accepts it (R405). An accepted image is pending activation:
nothing else would activate it (DESIGN CHOICE, log 26). -/
def State.doBroadcast (s : State) (img : Bytes) : State :=
  if !s.takesBroadcast then s else
  match s.imageVerdict 2 img with
  | some code => s.turnDown (some code)
  | none => s.modMmc (fun m => { m.setSlot 1 false (slotFor img true) with pend := setAt m.pend 1 true, update := 3 })

/-! ## The device identity (R452 to R454) -/

/-- The epoch in force has no leaf left: the next one is taken, or none is left (R454). -/
def State.settleEpoch (s : State) : State :=
  let m := s.mmc
  if m.exhausted ∨ m.leafAt < m.leafEnd ∨ m.leafNext < 32768 then s
  else if m.epoch < 15 then
    (s.modMmc (fun m => { m with epoch := m.epoch + 1, leafNext := 0, leafAt := 0, leafEnd := 0 })).postEvent .pf Code.identityEpoch []
  else (s.modMmc (fun m => { m with exhausted := true })).postEvent .pf Code.identityExhausted []

/-- The next leaf: of the reserved block, or the first of a block reserved now (R453). -/
def Mmc.takeLeaf (m : Mmc) : Nat × Mmc :=
  if m.leafAt < m.leafEnd then (m.leafAt, { m with leafAt := m.leafAt + 1 })
  else (m.leafNext, { m with leafNext := m.leafNext + 256, leafAt := m.leafNext + 1, leafEnd := m.leafNext + 256 })

/-- Sends an SPDM response that the identity key signs, or UnsupportedRequest once no epoch is left (R452 to R454). -/
def State.signed (s : State) (b : Binding) (rsp : Nat) (vals : List Nat) (msg : Bytes) : State :=
  let s1 := s.settleEpoch
  if s1.mmc.exhausted then s1.emit (.mctp b (.spdmError 7))
  else
    let l := s1.mmc.takeLeaf
    (({ s1 with mmc := l.2 } : State).emit
      (.mctp b (.spdm rsp (vals ++ [s1.mmc.epoch, l.1]) (msg ++ Config.lmsSign s1.mmc.epoch l.1 msg)))).settleEpoch

/-! ## SPDM (R450, R451) -/

/-- How far a binding's requester has come: 1 after GET_VERSION, 2 after GET_CAPABILITIES, 3 after NEGOTIATE_ALGORITHMS. A request
before its turn is unexpected (DSP0274; PRESUMED, log 19). -/
def State.spdmStep (s : State) (b : Binding) (least : Nat) (f : State → State) : State :=
  s.serve b false (fun s =>
    if s.mmc.spdm.getD (bindingIndex b) 0 < least then s.emit (.mctp b (.spdmError 4)) else f s)

/-- Notes how far a binding's requester has come. -/
def State.spdmAt (s : State) (b : Binding) (n : Nat) : State :=
  s.modMmc (fun m => { m with spdm := setAt m.spdm (bindingIndex b) n })

/-- GET_VERSION: SPDM 1.2. -/
def State.doGetVersion (s : State) (b : Binding) : State :=
  s.spdmStep b 0 (fun s => (s.spdmAt b 1).emit (.mctp b (.spdm 0 [0x12] [])))

/-- GET_CAPABILITIES: CERT_CAP, CHAL_CAP and MEAS_CAP with signatures, as DSP0274 places their bits. -/
def State.doGetCapabilities (s : State) (b : Binding) : State :=
  s.spdmStep b 1 (fun s => (s.spdmAt b 2).emit (.mctp b (.spdm 1 [0x16] [])))

/-- NEGOTIATE_ALGORITHMS: the hash by its bit, no base algorithm, and the extended algorithm of R450 by registry and number. -/
def State.doNegotiate (s : State) (b : Binding) (offersLms : Bool) : State :=
  s.spdmStep b 2 (fun s =>
    if offersLms then (s.spdmAt b 3).emit (.mctp b (.spdm 2 [1, 0, 3, 1] [])) else s.emit (.mctp b (.spdmError 7)))

/-- GET_DIGESTS: the digest of the chain in slot 0. -/
def State.doGetDigests (s : State) (b : Binding) : State :=
  s.spdmStep b 3 (fun s => s.emit (.mctp b (.spdm 3 [1] (toLe 32 (Config.sha256 (Config.certChain s.mmc.epoch)).toNat))))

/-- GET_CERTIFICATE: a portion of the chain in slot 0, and how much remains. -/
def State.doGetCertificate (s : State) (b : Binding) (slot off len : Nat) : State :=
  s.spdmStep b 3 (fun s =>
    let chain := Config.certChain s.mmc.epoch
    if slot ≠ 0 ∨ chain.length ≤ off then s.emit (.mctp b (.spdmError 1))
    else
      let part := (chain.drop off).take len
      s.emit (.mctp b (.spdm 4 [0, part.length, chain.length - off - part.length] part)))

/-- The measurement of index `i` (R451). -/
def State.measurement (s : State) (i : Nat) : Bytes :=
  let m := s.mmc
  let hash (bs : Bytes) : Bytes := toLe 32 (Config.sha256 bs).toNat
  if i = 1 then toLe 32 Config.bootRomDigest.toNat
  else if i = 2 then toLe 32 m.runMmc.digest
  else if i ≤ 6 then toLe 32 (if i - 3 < s.layout then (m.runCore.getD (i - 3) ⟨0, 0⟩).digest else 0)
  else if i = 7 then toLe 32 m.runBase.digest
  else if i = 8 then hash (toLe 1 m.fusedSvn ++ toLe 32 (Config.signerDigest 0).toNat ++ toLe 32 (Config.signerDigest 1).toNat ++
    toLe 1 m.revoked)
  else if i = 9 then hash (toLe 1 s.gradeCode ++ toLe 1 s.chip.stepping ++ toLe 8 s.serial ++ toLe 1 s.cls ++ toLe 1 s.layout)
  else match s.setup with
    | some t => hash t
    | none => toLe 32 0

/-- The measurements that an index of GET_MEASUREMENTS asks for: none for 0, one, or all for 0xFF. -/
def measureList (i : Nat) : List Nat := if i = 0xFF then (List.range 10).map (· + 1) else if i = 0 then [] else [i]

/-- Measurement blocks: index and digest. -/
def State.measureBytes (s : State) (i : Nat) : Bytes := (measureList i).flatMap (fun k => toLe 1 k ++ s.measurement k)

/-- CHALLENGE: CHALLENGE_AUTH over the nonce, the chain's digest and the measurements, signed with the next leaf. -/
def State.doChallenge (s : State) (b : Binding) (slot : Nat) (nonce : Bytes) : State :=
  s.spdmStep b 3 (fun s =>
    if s.mmc.exhausted then s.emit (.mctp b (.spdmError 7))
    else if slot ≠ 0 then s.emit (.mctp b (.spdmError 1))
    else s.signed b 5 [0] (nonce ++ toLe 32 (Config.sha256 (Config.certChain s.mmc.epoch)).toNat ++ s.measureBytes 0xFF))

/-- GET_MEASUREMENTS: index 0 asks for their number; unsigned requests are answered even with no epoch left (R454). -/
def State.doGetMeasurements (s : State) (b : Binding) (i : Nat) (wantSigned : Bool) (nonce : Bytes) : State :=
  s.spdmStep b 3 (fun s =>
    if 10 < i ∧ i ≠ 0xFF then s.emit (.mctp b (.spdmError 1))
    else if wantSigned then s.signed b 6 [10, i] (nonce ++ s.measureBytes i)
    else s.emit (.mctp b (.spdm 6 [10, i] (s.measureBytes i))))

end Sys2Proof.Machine
end

