-- ==== Sys2Proof/Machine/DbgCmds.lean ====
section
/-! DEFINITION. Counters, log store, barometer, breaks and the `HX_SYNC` pin (R458 to R475, R481, R482). -/

namespace Sys2Proof.Machine

/-! ## Counters (R461 to R463) -/

/-- DBG_COUNTERS_CLEAR: every event and stall counter of a core is 0 (R474). -/
def State.doCountersClear (s : State) (c : Nat) : State :=
  s.modDbg c (fun d => { d with evcnt := List.replicate 8 0, stalls := [] })

/-- GLOBAL_COUNTERS_CLEAR (R475). -/
def State.doGlobalClear (s : State) : State := { s with gdbg := { s.gdbg with gcnt := List.replicate 32 0 } }

/-- COUNTER_LO_READ: a read of a low word latches bits [47:32] (R462). -/
def State.doCounterRead (s : State) (k : CounterId) : State :=
  match k with
  | .stall c e cause =>
    s.modDbg c (fun d => { d with stallHi := SMap.set 0 (16 * e + cause) (SMap.get 0 (16 * e + cause) d.stalls / 2 ^ 32) d.stallHi })
  | .event c n => s.modDbg c (fun d => { d with evHi := setAt d.evHi n (d.evcnt.getD n 0 / 2 ^ 32) })
  | .global n => { s with gdbg := { s.gdbg with gcntHi := setAt s.gdbg.gcntHi n (s.gdbg.gcnt.getD n 0 / 2 ^ 32) } }

/-! ## The log store (R464 to R467) -/

/-- Whether the enables as written differ from those in effect. -/
def CoreDbg.enablesDiffer (d : CoreDbg) : Bool := bit d.trace 0 != d.traceOn || bit d.sample 0 != d.sampleOn

/-- The trace and sample controls as written; new enables wait for the resplit (R465). -/
def CoreDbg.control (d : CoreDbg) (trace sample : Nat) : CoreDbg :=
  let d1 := { d with trace, sample }
  { d1 with resplit := d1.enablesDiffer }

/-- LOG_ENABLE_WRITE: a write of `DBG_TRACE_CTRL` or `DBG_SAMPLE_CTRL` (R465). -/
def State.doLogEnable (s : State) (c : Nat) (sample : Bool) (v : Nat) : State :=
  s.modDbg c (fun d => if sample then d.control d.trace (v % 2 ^ 29) else d.control (v % 2 ^ 17) d.sample)

/-- Whether both regions are empty. -/
def CoreDbg.logEmpty (d : CoreDbg) : Bool := d.regions.all (fun g => g.len == 0)

/-- The new enables take effect (R465, R466, R470): rings whose data begins to flow count from 0. -/
def CoreDbg.applyEnables (d : CoreDbg) : CoreDbg :=
  let tr := bit d.trace 0
  let sm := bit d.sample 0
  let fresh (on was : Bool) (r : Nat) : LogRegion :=
    { LogRegion.reset with wptr := if on && !was then 0 else (d.region r).wptr, missed := (d.region r).missed }
  { d with traceOn := tr, sampleOn := sm, resplit := false, regions := [fresh tr d.traceOn 0, fresh sm d.sampleOn 1],
           seq := if sm && !d.sampleOn then 0 else d.seq, gap := if sm && !d.sampleOn then 0 else d.gap }

/-- LOG_RESPLIT: both regions are empty and the split changes (R465). -/
def State.doResplit (s : State) (c : Nat) : State :=
  s.modDbg c (fun d => if d.resplit && d.logEmpty then d.applyEnables else d)

/-- Base address of ring `r`. -/
def CoreDbg.ringBaseOf (d : CoreDbg) (r : Nat) : Nat :=
  256 * (d.ringBase.getD r 0 / 256) + 2 ^ 32 * bits (d.ringCfg.getD r 0) 0 12
/-- `LOG2_SIZE` of ring `r`. -/
def CoreDbg.ringLog2 (d : CoreDbg) (r : Nat) : Nat := bits (d.ringCfg.getD r 0) 12 5
/-- Whether ring `r` takes 256 B more: it wraps, or is not full (R466). -/
def CoreDbg.ringTakes (d : CoreDbg) (r : Nat) : Bool :=
  bit (d.ringCfg.getD r 0) 17 || decide ((d.region r).wptr + 256 ≤ 2 ^ d.ringLog2 r)

/-- Whether a ring of 2^`n` bytes at `base` has a size it may have and lies within the partition's HBM (R474). -/
def State.ringFits (s : State) (p base n : Nat) : Bool :=
  decide (12 ≤ n) && decide (n ≤ 30) && decide (base + 2 ^ n ≤ (s.part p).topGib * gib)

/-- The oldest 256 B of region `r`. -/
def Core.logHead (k : Core) (r : Nat) : Bytes :=
  let g := k.dbg.region r
  let sp := k.dbg.split r
  (List.range 256).map (fun i => k.log.read (sp.1 + (g.pos + i) % max 1 sp.2))

/-- Region `r` after its oldest 256 B have left it. -/
def CoreDbg.drained (d : CoreDbg) (r : Nat) (written : Bool) : CoreDbg :=
  let g := d.region r
  d.setRegion r { g with
    pos := (g.pos + 256) % max 1 (d.split r).2
    len := g.len - 256
    heads := (g.heads.filter (fun h => decide (256 ≤ h))).map (· - 256)
    wptr := if written then (g.wptr + 256) % 2 ^ 32 else g.wptr }

/-- `n` records or samples of region `r` are lost. -/
def CoreDbg.loseRecords (d : CoreDbg) (r n : Nat) : CoreDbg :=
  if r = 0 then { d with trLost := satAdd 0x7FFF d.trLost n } else { d with smLost := satAdd 0xFFFF d.smLost n }

/-- LOG_DRAIN_WRITE: 256 B of a region go to its ring; a ring that leaves the partition drops its data and counts it as lost
(R466, R474). -/
def State.doLogDrain (s : State) (c r : Nat) : State :=
  let k := s.core c
  let d := k.dbg
  let p := s.partOfPhys c
  let g := d.region r
  if g.len < 256 ∨ !d.ringTakes r then s
  else if !s.ringFits p (d.ringBaseOf r) (d.ringLog2 r) then
    s.modDbg c (fun d => (d.drained r false).loseRecords r (g.heads.countP (fun h => decide (h < 256))))
  else
    let s1 := s.modDbg c (fun d => d.drained r true)
    (s1.putRecord p (d.ringBaseOf r + g.wptr % 2 ^ d.ringLog2 r) (k.logHead r)).event c 0x0401 256

/-- LOG_PAD_TIMEOUT: a region that has held a partial 256 B for 100 µs is padded with zeros (R466); the drain writes it. -/
def State.doLogPad (s : State) (c r : Nat) : State :=
  let k := s.core c
  let n := (k.dbg.region r).len % 256
  if n = 0 ∨ !k.dbg.hasRoom r (256 - n) then s else s.setCore c (k.logPut r (List.replicate (256 - n) 0) false)

/-! ## The barometer (R470) -/

/-- The bytes of a sample. -/
def sampleBytes (ft seq gap : Nat) (values : List Nat) : Bytes :=
  toLe 8 ft ++ toLe 4 seq ++ toLe 1 values.length ++ toLe 1 gap ++ toLe 2 0 ++ values.flatMap (toLe 8)

/-- The multiple of an interval in µs that fabric time has passed last; an interval of 0 is read as 1. -/
def lastMultiple (ft us : Nat) : Nat := ft / (1000 * max 1 us) * (1000 * max 1 us)

/-- BAROMETER_SAMPLE: the selected event counters of a core, or one more sample dropped (R467, R470). -/
def State.doSample (s : State) (c : Nat) : State :=
  let k := s.core c
  let d := k.dbg
  if !d.sampleOn then s else
  let values := ((List.range 8).filter (fun n => bit d.sample (1 + n))).map (fun n => d.evcnt.getD n 0)
  let bs := sampleBytes (lastMultiple s.ft (bits d.sample 9 20)) d.seq d.gap values
  let d1 := { d with seq := (d.seq + 1) % 2 ^ 32 }
  if d.hasRoom 1 bs.length then s.setCore c (({ k with dbg := { d1 with gap := 0 } } : Core).logPut 1 bs true)
  else s.modDbg c (fun _ => { d1 with gap := satAdd 255 d.gap 1, smLost := satAdd 0xFFFF d.smLost 1 })

/-- A byte string written into a ring, in the pieces that its end makes. -/
def State.ringWrite (s : State) (p base n at' : Nat) (bs : Bytes) : State :=
  let room := 2 ^ n - at' % 2 ^ n
  let s1 := s.putRecord p (base + at' % 2 ^ n) (bs.take room)
  if bs.length ≤ room then s1 else s1.putRecord p base (bs.drop room)

/-- GLOBAL_BAROMETER_SAMPLE: the lowest 30 selected global counters go to the ring of partition `GS_PART`; a sample that cannot
be written is dropped (R470, R475). -/
def State.doGlobalSample (s : State) : State :=
  let g := s.gdbg
  let p := bits g.ctrl 3 2
  if !bit g.ctrl 2 ∨ s.bringing ∨ s.layout ≤ p then s else
  let values := (((List.range 32).filter (fun n => bit g.mask n)).take 30).map (fun n => g.gcnt.getD n 0)
  let bs := sampleBytes (lastMultiple s.ft (bits g.ctrl 5 20)) g.seq g.gap values
  let base := 256 * (g.base / 256) + 2 ^ 32 * bits g.cfg 0 12
  let n := bits g.cfg 12 5
  let g1 := { g with seq := (g.seq + 1) % 2 ^ 32 }
  if s.ringFits p base n then
    ({ s with gdbg := { g1 with gap := 0, wptr := (g.wptr + bs.length) % 2 ^ 32 } } : State).ringWrite p base n g.wptr bs
  else { s with gdbg := { g1 with gap := satAdd 255 g.gap 1 } }

/-! ## Breaks (R471 to R473) -/

/-- TAG_BREAK: the record at the head of a queue matches, and the core breaks before it starts (R471). -/
def State.doTagBreak (s : State) (l q : Nat) : State :=
  match s.physOf l with
  | none => s
  | some c =>
    let k := s.core c
    match firstWaiting 0 (k.queue q) with
    | none => s
    | some (_, e) =>
      if !k.dbg.tagMatch e.tag e.serial ∨ k.seq.frozen ∨ k.seq.halted then s else
      (s.modDbg c (fun d => { d with tagPass := some e.serial })).breakCore c e.engine e.opid e.tag true

/-- A time stamp that a pause from `since` to `now` puts off. -/
def putOff (since now stamp : Nat) : Nat := stamp + (now - max since stamp)

/-- The timers of a core after a pause (R472). -/
def Core.putOff (k : Core) (since now : Nat) : Core :=
  { k with
      queues := k.queues.map (fun q => q.map (fun e => { e with headAt := e.headAt.map (Machine.putOff since now) }))
      seq := { k.seq with arrivedAt := Machine.putOff since now k.seq.arrivedAt } }

/-- The pause of a partition's timers ends once none of its cores is frozen (R472). -/
def State.endPause (s : State) (p : Nat) : State :=
  match (s.part p).frozenAt with
  | none => s
  | some t =>
    if (s.coresOf p).any (fun e => (s.core e.2).seq.frozen) then s else
    let s1 := (s.coresOf p).foldl (fun acc e => acc.setCore e.2 ((acc.core e.2).putOff t s.ft)) s
    s1.setPart p { s1.part p with frozenAt := none }

/-- A frozen core resumes and writes its `RESUME` record; the fields of the record that R468 leaves open are free. -/
def State.resumeOne (s : State) (c : Nat) : State :=
  let k := s.core c
  if !k.seq.frozen then s else
  let s1 := s.setCore c { k with seq := { k.seq with frozen := false } }
  let r := s1.fresh
  let v := (Config.freeValue r.1).toNat
  r.2.trace c (bits v 0 32) 0 7 0 (r.2.traceInfo c (bits v 32 3) 0 {} 0)

/-- CORE_RESUME (R473). -/
def State.doCoreResume (s : State) (c : Nat) : State := (s.resumeOne c).endPause (s.partOfPhys c)

/-- PARTITION_RESUME (R473). -/
def State.doPartResume (s : State) (p : Nat) : State :=
  ((s.coresOf p).foldl (fun acc e => acc.resumeOne e.2) s).endPause p

/-- PARTITION_FREEZE (R475). -/
def State.doPartFreeze (s : State) (p : Nat) : State := s.freezePart p

/-! ## HX_SYNC (R326, R469, R481, R482) -/

/-- How far the clock is ahead of the nearest multiple of a period. -/
def aheadOf (ft period : Nat) : Int :=
  let r := ft % max 1 period
  if 2 * r ≤ period then (r : Int) else (r : Int) - period

/-- An edge of the time input (R326): the root takes the armed epoch, or corrects its rate towards its edges within 2,000 ppm and
locks as R323 gives; another module only measures. -/
def State.timeEdge (s : State) : State :=
  let t := s.time
  let p := 1000 * t.period
  let off := aheadOf s.ft p
  if !t.root then { s with time := { t with offset := clampOffset off, lastEdge := some s.ft } }
  else if t.arm then
    let e := t.epochLo + 2 ^ 32 * t.epochHi
    { s with ft := e, time := { t with arm := false, rate := 0, lastEdge := some e } }
  else
    let run := if -8 ≤ off ∧ off ≤ 8 then t.run + 1 else 0
    let lim : Int := p / 500
    let lost := t.locked && (decide (off < -1000) || decide (1000 < off))
    let s1 := { s with time := { t with
      offset := clampOffset off, run, rate := max (-lim) (min lim off), lastEdge := some s.ft
      locked := !lost && (t.locked || decide (10 ≤ run)), everLocked := t.everLocked || decide (10 ≤ run) } }
    if lost then s1.postEvent (.vf (s.partOfDie 0)) Code.ftimeLost [] else s1

/-- What a trigger does to one core (R469). -/
def State.triggerCore (s : State) (c : Nat) : State :=
  let r := s.fresh
  let v := (Config.freeValue r.1).toNat
  let s1 := if (s.core c).dbg.traceOn then r.2.trace c (bits v 0 32) 0 5 0 (r.2.traceInfo c (bits v 32 3) 0 {} 0) else s
  s1.modDbg c (fun d =>
    let d1 := if bit d.trace 15 then { d with run := true } else d
    if bit d1.trace 16 then d1.control (d1.trace ||| 1) d1.sample else d1)

/-- An edge of the trace trigger: every core with trace settings, and the partitions that it freezes (R469). -/
def State.traceEdge (s : State) : State :=
  let s1 := (s.cores.map (·.1)).foldl State.triggerCore s
  ((List.range s.layout).filter (fun p => bit s.gdbg.trig (12 + p))).foldl State.freezePart s1

/-- HX_SYNC_EDGE: a rising edge acts by the function of the pin; one that is not latched, or that follows a trigger edge by less
than 10 µs, is ignored (R481, R482). -/
def State.doSyncEdge (s : State) (latched : Bool) (sinceLastUs : Nat) : State :=
  if !latched then s
  else if bit s.syncBits 0 then s.timeEdge
  else if bit s.syncBits 1 && decide (10 ≤ sinceLastUs) then s.traceEdge
  else s

end Sys2Proof.Machine
end

