-- ==== Sys2Proof/Machine/Registers.lean ====
section
/-! DEFINITION. Register writes of the host (R10, R11, R262, R368, R389 to R391): every writable field of every block. A field
with behaviour of its own acts through the same operation as its own command. -/

namespace Sys2Proof.Machine

/-! ## Core register blocks (R124, R174, R259, R474) -/

/-- Registers of one DMA channel at `off` within its 0x20 bytes (R259). -/
def State.writeChannel (s : State) (ch : Chan) (off v : Nat) : State :=
  if off ≠ 4 then s else
  let s1 := s.setChn ch { s.chn ch with drizzle := bits v 0 6 }
  if bit v 8 then s1.doClear ch else s1

/-- `CDMA_WATCH`: stale and re-issued bits clear by ones (R259). -/
def Core.clearWatch (k : Core) (v : Nat) : Core :=
  { k with wStale := k.wStale &&& (255 - bits v 8 8), wReissued := k.wReissued &&& (255 - bits v 16 8) }

/-- Core DBG registers (R474). -/
def State.writeCoreDbg (s : State) (c off v : Nat) : State :=
  if 0x4C00 ≤ off ∧ off < 0x4C20 then
    s.modDbg c (fun d => { d with evsel := setAt d.evsel ((off - 0x4C00) / 4) (v % 65536) })
  else if off = 0x4C80 then
    let s1 := s.modDbg c (fun d => { d with run := bit v 0 })
    if bit v 1 then s1.doCountersClear c else s1
  else if off = 0x4D00 then s.doLogEnable c false v
  else if off = 0x4D04 then s.modDbg c (fun d => { d with filter := v })
  else if off = 0x4D08 then s.doLogEnable c true v
  else if off = 0x4D10 ∨ off = 0x4D20 then
    s.modDbg c (fun d => { d with ringBase := setAt d.ringBase ((off - 0x4D10) / 16) (v / 256 * 256) })
  else if off = 0x4D14 ∨ off = 0x4D24 then
    s.modDbg c (fun d => { d with ringCfg := setAt d.ringCfg ((off - 0x4D14) / 16) (v % 2 ^ 18) })
  else if off = 0x4E00 then
    let s1 := s.modDbg c (fun d => { d with brkCtrl := v &&& 0x1FEF })
    if bit v 4 then s1.doCoreResume c else s1
  else if off = 0x4E04 then s.modDbg c (fun d => { d with brkCount := v })
  else if off = 0x4E08 then s.modDbg c (fun d => { d with brkTag := v })
  else s

/-- The register block of a physical core. Channel registers name their core by its logical number. -/
def State.writeCore (s : State) (c off v : Nat) : State :=
  if off = 0x4000 then s.setCore c { s.core c with arr0 := { (s.core c).arr0 with calmDis := bit v 0 } }
  else if off = 0x4100 then s.setCore c { s.core c with arr1 := { (s.core c).arr1 with calmDis := bit v 0 } }
  else if off = 0x4204 then s.setCore c { s.core c with slotCap := bit v 0 }
  else if 0x4600 ≤ off ∧ off < 0x4700 then
    let n := (off - 0x4600) / 0x20
    match s.logicalOf c with
    | some l => s.writeChannel (.core l n) (off % 0x20) v
    | none =>
      if off % 0x20 ≠ 4 then s else
      let k := s.core c
      s.setCore c { k with chans := modAt k.chans n (fun x =>
        { x with drizzle := bits v 0 6, latch := if bit v 8 then none else x.latch }) }
  else if off = 0x4700 then s.setCore c ((s.core c).clearWatch v)
  else s.writeCoreDbg c off v

/-! ## Base dies (R259, R291, R292, R328, R363) -/

/-- The NIM block of base die `b` (R291). -/
def State.writeNim (s : State) (b off v : Nat) : State :=
  let sl := s.slice b
  if off < 0x14 then
    s.setSlice b { sl with mode := setAt sl.mode (off / 4) (BitVec.ofNat 32 (if off = 0x10 then v % 65536 else v)) }
  else if off = 0x20 then
    let s1 := if bit v 0 then s.doApply b else s
    if bit v 1 then s1.doFlush b else s1
  else if off = 0x24 then s.setSlice b { sl with applyErr := sl.applyErr && !bit v 1 }
  else if 0x40 ≤ off ∧ off < 0x80 ∧ off % 16 = 0 then
    s.setSlice b { sl with noalloc := modAt sl.noalloc ((off - 0x40) / 16) (fun w => { w with base := v % 2 ^ 28, en := bit v 31 }) }
  else if 0x40 ≤ off ∧ off < 0x80 ∧ off % 16 = 4 then
    s.setSlice b { sl with noalloc := modAt sl.noalloc ((off - 0x40) / 16) (fun w => { w with limit := v % 2 ^ 28 }) }
  else s

/-- The HBMC block of stack `k` (R292): `FORCE` acts with `GO`. -/
def State.writeHbmc (s : State) (k off v : Nat) : State :=
  if off = 4 then s.setHbmc k { s.hbmc k with period := v % 256 }
  else if off = 0x14 ∧ bit v 8 then (if bit v 9 then s.doForce k (v % 32) else s.doGo k (v % 32))
  else s

/-- The BRG block of macro `m` (R328): its four ports, the node's registers and tables in the node's lowest macro, time in M0. -/
def State.writeBrg (s : State) (m off v : Nat) : State :=
  let p := s.partOfDie (m / 2)
  if off < 0x100 then s.portWrite (4 * m + off / 0x40) (off % 0x40) v
  else if m ≠ 2 * (s.dies p).headD 0 then s
  else if (tableWord off).isSome then s.doRouteTableWrite p off v
  else s.brgWrite p off v

/-- `EXCH_CTRL` of a partition (R363). -/
def State.writeExch (s : State) (p off v : Nat) : State :=
  if off ≠ 8 then s else
  let s1 := s.modExch p (fun x => { x with mover := bits v 8 6 })
  let s2 := if bit v 0 then s1.doStart p else s1
  let s3 := if bit v 1 then s2.leaveGroup p else s2
  if bit v 2 then s3.doJoinStart p else s3

/-- The blocks of base die `b` (R262). -/
def State.writeBase (s : State) (b off v : Nat) : State :=
  let blk := off / 0x10000
  let o := off % 0x10000
  if blk = 0 then s.writeNim b o v
  else if blk ≤ 3 then s.writeHbmc (3 * b + blk - 1) o v
  else if blk = 4 then
    if 0x4600 ≤ o ∧ o < 0x4800 then s.writeChannel (.bulk b ((o - 0x4600) / 0x20)) (o % 0x20) v else s
  else if blk = 5 then s.writeBrg (2 * b) o v
  else if blk = 6 then s.writeBrg (2 * b + 1) o v
  else if blk = 7 ∧ (s.dies (s.partOfDie b)).headD 9 = b then s.writeExch (s.partOfDie b) o v
  else s

/-! ## Module registers (R389 to R391, R415, R436, R457, R475) -/

/-- `MMC_BOOT_CTRL` (R415). -/
def State.writeBootCtrl (s : State) (v : Nat) : State :=
  let s1 := s.modChip (fun h => { h with nextDeep := bit v 0 })
  if bit v 1 then s1.requestFullReset 2 else
  let s2 := ((List.range 4).filter (fun p => bit v (4 + p))).foldl State.doComputeReset s1
  ((List.range 4).filter (fun p => bit v (8 + p))).foldl State.doPartReset s2

/-- The GOV block (R436). -/
def State.writeGov (s : State) (off v : Nat) : State :=
  if off = 0 then
    let s1 := s.modGov (fun g => { g with lowerErr := g.lowerErr && !bit v 9 })
    s1.doLower (bits v 7 2)
  else if 0x10 ≤ off ∧ off < 0x60 ∧ bits v 12 12 = 0xFFF then
    s.modGov (fun g => { g with tempMax := setAt g.tempMax ((off - 0x10) / 4) (g.temps.getD ((off - 0x10) / 4) 0) })
  else s

/-- The global DBG block (R475). -/
def State.writeGlobalDbg (s : State) (off v : Nat) : State :=
  let g := s.gdbg
  if off < 0x80 then { s with gdbg := { g with gsel := setAt g.gsel (off / 4) (v % 2 ^ 20) } }
  else if off = 0x200 then
    let starts : Bool := bit v 2 && !bit g.ctrl 2
    let g1 := { g with ctrl := v &&& 0x1FFFFFD, wptr := if starts then 0 else g.wptr, seq := if starts then 0 else g.seq,
                       gap := if starts then 0 else g.gap }
    let s1 := { s with gdbg := g1 }
    if bit v 1 then s1.doGlobalClear else s1
  else if off = 0x204 then { s with gdbg := { g with mask := v } }
  else if off = 0x208 then { s with gdbg := { g with base := v / 256 * 256 } }
  else if off = 0x20C then { s with gdbg := { g with cfg := v % 2 ^ 17 } }
  else if off = 0x210 then
    let s1 := { s with gdbg := { g with trig := v &&& 0xF000 } }
    let s2 := ((List.range 4).filter (fun p => bit v (4 + p))).foldl State.doPartResume s1
    ((List.range 4).filter (fun p => bit v (8 + p))).foldl State.doPartFreeze s2
  else s

/-- A register of a ring group at `off` within its 16 bytes (R390); group 64 is the event ring. -/
def State.writeRing (s : State) (fn : Fn) (n off v : Nat) : State :=
  if off = 8 then s.writeRingCfg fn n v
  else match fn, decide (n < 64) with
    | .vf p, true =>
      if off = 0 then s.modRing p n (fun r => { r with baseLo := v / 4096 * 4096 })
      else if off = 4 then s.modRing p n (fun r => { r with baseHi := v })
      else s
    | _, _ =>
      if off = 0 then s.setEvt fn { s.evt fn with baseLo := v / 4096 * 4096 }
      else if off = 4 then s.setEvt fn { s.evt fn with baseHi := v }
      else s

/-- A word of a function's MSI-X table (R366, R389). -/
def State.writeMsix (s : State) (fn : Fn) (off v : Nat) : State :=
  s.modHif (fun h => { h with msix := modAt h.msix (fnKey fn) (fun m => m.writeN off (toLe 4 v)) })

/-- The HIF block of the physical function (R389, R391). -/
def State.writeHif (s : State) (off v : Nat) : State :=
  if off = 0x24 then (if bit v 0 then s.doSetupCommit else s)
  else if off = 0x30 then s.modHif (fun h => { h with windows := v &&& 0xFFFF07 })
  else if 0x200 ≤ off ∧ off < 0x210 then s.writeRing .pf 64 (off - 0x200) v
  else if 0x8000 ≤ off ∧ off < 0x9000 then s.writeMsix .pf (off - 0x8000) v
  else if 0xE000 ≤ off ∧ off < 0xF000 then s.modHif (fun h => { h with buffer := h.buffer.writeN (off - 0xE000) (toLe 4 v) })
  else if off = 0xF000 then s.doEvtHead .pf v
  else if 0xF000 < off ∧ off < 0x10000 then s.doorbell false id
  else s

/-- A write in the register range, `a` counted from 0xF00_0000_0000 (R262). -/
def State.writeReg (s : State) (a v : Nat) : State :=
  if a < 0x10000 then s.writeHif a v
  else if a = 0x100104 then s.writeBootCtrl v
  else if 0x200000 ≤ a ∧ a < 0x200100 then s.writeGov (a - 0x200000) v
  else if 0x300000 ≤ a ∧ a < 0x300400 then s.writeGlobalDbg (a - 0x300000) v
  else if 0x1000000 ≤ a ∧ a < 0x1000000 + 576 * 0x10000 then s.writeCore ((a - 0x1000000) / 0x10000) (a % 0x10000) v
  else if 0x4000000 ≤ a ∧ a < 0x8000000 then
    match s.physOf ((a - 0x4000000) / 0x10000) with
    | some c => s.writeCore c (a % 0x10000) v
    | none => s
  else if 0x8000000 ≤ a ∧ a < 0x8400000 then s.writeBase ((a - 0x8000000) / 0x100000) (a % 0x100000) v
  else s

/-- A word of PF BAR0 (R389): the register range directly, or through its window. -/
def State.writePf (s : State) (off v : Nat) : State :=
  if off < 0xC00000 then s.writeReg off v
  else if off < 0x1000000 then s.writeReg (0x400000 * bits s.hif.windows 18 6 + (off - 0xC00000)) v
  else s

/-- A word of the BAR0 of VF p + 1 (R389): doorbell pages, ring groups, `VF_STATUS` and the MSI-X table. -/
def State.writeVf (s : State) (p off v : Nat) : State :=
  if off < 0x40000 then
    if off % 4096 = 0 then s.doSqTail p (off / 4096) v
    else if off % 4096 = 4 then s.doCqHead p (off / 4096) v
    else s.doorbell false id
  else if off = 0x40000 then s.doEvtHead (.vf p) v
  else if off < 0x41000 then s.doorbell false id
  else if off < 0x41410 then s.writeRing (.vf p) ((off - 0x41000) / 16) (off % 16) v
  else if off = 0x42000 then s.modHif (fun h => { h with vfBase := setAt h.vfBase p (bits v 8 10) })
  else if 0x50000 ≤ off ∧ off < 0x51C00 then s.writeMsix (.vf p) (off - 0x50000) v
  else s

/-- One aligned 32-bit write of a function's BAR0. -/
def State.writeWord (s : State) (fn : Fn) (off v : Nat) : State :=
  match fn with
  | .pf => s.writePf off v
  | .vf p => s.writeVf p off v

/-- REGISTER_WRITE: aligned words, an aligned 64-bit access as two of them, lower address first; any other size or alignment
changes nothing and counts in `BAD_SIZE` (R368). -/
def State.doRegisterWrite (s : State) (fn : Fn) (off size : Nat) (v : Nat) : State :=
  if size = 4 ∧ off % 4 = 0 then s.writeWord fn off (v % 2 ^ 32)
  else if size = 8 ∧ off % 8 = 0 then (s.writeWord fn off (v % 2 ^ 32)).writeWord fn (off + 4) (v / 2 ^ 32 % 2 ^ 32)
  else s.badAccess

end Sys2Proof.Machine
end

