-- ==== Sys2Proof/Machine/Gates.lean ====
section
/-! DEFINITION. When a command can act at all: with the rails on, over the PCIe link, or with the engines released (R377, R422,
R434). A command that cannot act leaves the state as it is (log 1). -/

namespace Sys2Proof.Machine

/-- A command of the powered and clocked module (R422, R434). -/
def State.whenOn (s : State) (f : State → State) : State := if s.chip.power = .on then f s else s

/-- A command of an engine: none starts while the module holds its outputs (R377, R434). -/
def State.engine (s : State) (f : State → State) : State := if s.held then s else f s

/-- An access of the host: it needs the PCIe link, which `PERST#` and a lost clock take down (R434, R479). -/
def State.overLink (s : State) (f : State → State) : State := if s.chip.power = .on ∧ s.chip.perst = false then f s else s

/-- A command of the protection that hardware gives as long as the rails are on (R429 to R431). -/
def State.onRails (s : State) (f : State → State) : State :=
  if s.chip.power = .off ∨ s.chip.power = .tripped then s else f s

/-- ATOMIC_OPERATION acts within one 256 B line of a partition (R286). -/
def State.doAtomic (s : State) (p addr : Nat) (op : AtomicOp) (flt : MemFault) : State :=
  if p < s.layout ∧ addr % 256 + atomicWidth op ≤ 256 then (s.atomic p addr op flt).1 else s

/-- MCTP_UNSUPPORTED_TYPE: a message of a type other than control, PLDM or SPDM is discarded (R437). -/
def State.doUnsupportedType (s : State) (_b : Binding) (_ty : Nat) : State := s

/-- One nanosecond passes (R322 to R326, R436): fabric time counts while the block has its clock, and so does the time a die ran
below its class values. DESIGN CHOICE (log 3): this is what a step does on an empty queue. -/
def State.idle (s : State) : State :=
  if s.chip.power = .on ∨ s.chip.power = .clockBack then s.tick.throttleTick else s

end Sys2Proof.Machine
end

