-- ==== Sys2Proof/Machine/ExecExchange.lean ====
section
/-! DEFINITION. What each command of the gradient exchange does to the block (chapter 11). -/

namespace Sys2Proof.Machine

/-- COMMIT (R355): A COMMIT exchange message makes a member flip its banks at the held step barrier and release it. -/
def execCommit (p : Nat) (s : State) : Host.Outcome State Fault Refusal :=
  .next (s.engine (fun s => s.doCommit p))

/-- START (R335): A write of EXCH_CTRL.START opens the first epoch at FIRST_OPEN. -/
def execStart (p : Nat) (s : State) : Host.Outcome State Fault Refusal :=
  .next (s.overLink (fun s => s.doStart p))

/-- EXCH_CTRL_LEAVE (R358): A write of EXCH_CTRL.LEAVE makes this member leave its group. -/
def execExchCtrlLeave (p : Nat) (s : State) : Host.Outcome State Fault Refusal :=
  .next (s.overLink (fun s => s.leaveGroup p))

/-- EXCH_CTRL_JOIN (R360): A write of EXCH_CTRL.JOIN starts a join in the table's rank. -/
def execExchCtrlJoin (p : Nat) (s : State) : Host.Outcome State Fault Refusal :=
  .next (s.overLink (fun s => s.doJoinStart p))

/-- CHAIN (R337): A chain segment arrives, is answered, has the local contribution added and is forwarded or taken as final. -/
def execChain (p : Nat) (s : State) : Host.Outcome State Fault Refusal :=
  .next (s.engine (fun s => s.doChain p))

/-- PUBLISH (R349): A PUBLISH packet is written into the next bank region of a waiting member. -/
def execPublish (p : Nat) (s : State) : Host.Outcome State Fault Refusal :=
  .next (s.engine (fun s => s.doPublish p))

/-- PUB_DONE (R350): A PUB_DONE records a shard's published CRC in the next bank directory. -/
def execPubDone (p : Nat) (s : State) : Host.Outcome State Fault Refusal :=
  .next (s.engine (fun s => s.doPubDone p))

/-- PUB_DONE_REPEAT (R350): Every 10 ms a publisher repeats PUB_DONE until it sees COMMIT. -/
def execPubDoneRepeat (p : Nat) (s : State) : Host.Outcome State Fault Refusal :=
  .next (s.engine (fun s => s.doPubDoneRepeat p))

/-- COMMIT_REPEAT (R354): The leader repeats COMMIT 1 ms and 2 ms after its first send; backups send at 5 ms and 10 ms. -/
def execCommitRepeat (p : Nat) (s : State) : Host.Outcome State Fault Refusal :=
  .next (s.engine (fun s => s.doCommitRepeat p))

/-- COMMIT_QUERY (R354): A COMMIT_QUERY is answered by the leader or a backup with COMMIT. -/
def execCommitQuery (p : Nat) (s : State) : Host.Outcome State Fault Refusal :=
  .next (s.engine (fun s => s.doCommitQuery p))

/-- COMMIT_QUERY_SEND (R354): A member holding every PUB_DONE and no COMMIT for 20 ms sends COMMIT_QUERY. -/
def execCommitQuerySend (p : Nat) (s : State) : Host.Outcome State Fault Refusal :=
  .next (s.engine (fun s => s.doCommitQuerySend p))

/-- SUSPECT (R353): A SUSPECT message reports a skipped rank to the leader. -/
def execSuspect (p : Nat) (s : State) : Host.Outcome State Fault Refusal :=
  .next (s.engine (fun s => s.doSuspect p))

/-- LEAVE (R358): A LEAVE message marks a rank leaving, effective at the next COMMIT. -/
def execLeave (p : Nat) (s : State) : Host.Outcome State Fault Refusal :=
  .next (s.engine (fun s => s.doLeave p))

/-- JOIN (R360): A JOIN message marks a rank joining. -/
def execJoin (p : Nat) (s : State) : Host.Outcome State Fault Refusal :=
  .next (s.engine (fun s => s.doJoin p))

/-- JOIN_READY (R360): A JOIN_READY tells the leader the joining rank's bank and copies are verified. -/
def execJoinReady (p : Nat) (s : State) : Host.Outcome State Fault Refusal :=
  .next (s.engine (fun s => s.doJoinReady p))

/-- HOP_TIMEOUT (R339): A chain segment unanswered within HOP_TIMEOUT_US is re-sent, or the rank is skipped. -/
def execHopTimeout (p : Nat) (txn : Nat) (s : State) : Host.Outcome State Fault Refusal :=
  .next (s.engine (fun s => s.doHopTimeout p txn))

/-- CONTRIBUTION_DEADLINE (R341): At T_c(e) a member not ready leaves its contribution out and first hops start with zeros. -/
def execContributionDeadline (p : Nat) (s : State) : Host.Outcome State Fault Refusal :=
  .next (s.engine (fun s => s.doContributionDeadline p))

/-- TAKEOVER (R351): The owner's PUB_DONE missing after TAKEOVER_MS makes the buddy publish the shard. -/
def execTakeover (p : Nat) (shard : Nat) (s : State) : Host.Outcome State Fault Refusal :=
  .next (s.engine (fun s => s.doTakeover p shard))

/-- SHARD_LOST (R357): At 2 × TAKEOVER_MS without a shard's PUB_DONE the leader raises E_SHARD_LOST. -/
def execShardLost (p : Nat) (shard : Nat) (s : State) : Host.Outcome State Fault Refusal :=
  .next (s.engine (fun s => s.doShardLost p shard))

/-- COMMIT_TIMEOUT (R334): A step barrier held beyond COMMIT_LIMIT_MS halts every core of the partition. -/
def execCommitTimeout (p : Nat) (s : State) : Host.Outcome State Fault Refusal :=
  .next (s.engine (fun s => s.doCommitTimeout p))

/-- SHARD_FETCH (R356): A member fetches missing shards from donors and flips when all are complete. -/
def execShardFetch (p : Nat) (shard : Nat) (bytes : HostRead) (s : State) : Host.Outcome State Fault Refusal :=
  .next (s.engine (fun s => s.doShardFetch p shard bytes))

/-- STATE_COPY (R359): A shard's owner copies its optimizer state to a new buddy between updates. -/
def execStateCopy (p : Nat) (shard : Nat) (s : State) : Host.Outcome State Fault Refusal :=
  .next (s.engine (fun s => s.doStateCopy p shard))

end Sys2Proof.Machine
end

