-- ==== Sys2Proof/Machine/ExecFabric.lean ====
section
/-! DEFINITION. What each command of the Bureg fabric does to the block (chapter 10). -/

namespace Sys2Proof.Machine

/-- DISABLE (R328): A write of BRG_PORT_CTRL.DISABLE takes a port DOWN and keeps it there. -/
def execDisable (port : Nat) (s : State) : Host.Outcome State Fault Refusal :=
  .next (s.overLink (fun s => s.doDisable port))

/-- RETRAIN (R300): A write of BRG_PORT_CTRL.RETRAIN retrains a port without retiring a lane. -/
def execRetrain (port : Nat) (s : State) : Host.Outcome State Fault Refusal :=
  .next (s.overLink (fun s => s.doRetrain port))

/-- ROUTE_COMMIT (R319): A write of BRG_ROUTE_GEN.COMMIT makes the shadow route tables active. -/
def execRouteCommit (p : Nat) (s : State) : Host.Outcome State Fault Refusal :=
  .next (s.overLink (fun s => s.doRouteCommit p))

/-- ARM (R326): A write of BRG_FTIME_EPOCH_HI.ARM applies the epoch at the next HX_SYNC edge. -/
def execArm (epochHi : Nat) (s : State) : Host.Outcome State Fault Refusal :=
  .next (s.overLink (fun s => s.doArm epochHi))

/-- HELLO (R313): A received hello flit updates the neighbour state, time tree choice and port state. -/
def execHello (port : Nat) (raw : Bytes) (s : State) : Host.Outcome State Fault Refusal :=
  .next (s.whenOn (fun s => s.doHello port raw))

/-- HELLO_SEND (R313): Every 1 ms a trained port sends a hello flit. -/
def execHelloSend (port : Nat) (s : State) : Host.Outcome State Fault Refusal :=
  .next (s.whenOn (fun s => s.doHelloSend port))

/-- HELLO_TIMEOUT (R315): No valid hello for 3 ms takes the port DOWN. -/
def execHelloTimeout (port : Nat) (s : State) : Host.Outcome State Fault Refusal :=
  .next (s.whenOn (fun s => s.doHelloTimeout port))

/-- LOSS_OF_SIGNAL (R320): Loss of signal or FEC alignment takes a port out of the effective sets. -/
def execLossOfSignal (port : Nat) (s : State) : Host.Outcome State Fault Refusal :=
  .next (s.whenOn (fun s => s.doLossOfSignal port))

/-- CABLE_INSERT (R485): A fitted fly-over cable is trained and qualified before its port enters HELLO_ONLY. -/
def execCableInsert (port : Nat) (laneErrs : List (Nat × Nat)) (s : State) : Host.Outcome State Fault Refusal :=
  .next (s.whenOn (fun s => s.doCableInsert port laneErrs))

/-- PACKET_FLIT (R298): A received packet flit is checked, sequenced, acknowledged and routed or delivered. -/
def execPacketFlit (port : Nat) (raw : Bytes) (lane : Nat) (s : State) : Host.Outcome State Fault Refusal :=
  .next (s.whenOn (fun s => s.doPacketFlit port raw lane))

/-- REPLAY_REQUEST (R298): A received replay request makes the sender re-send from the named flit. -/
def execReplayRequest (port : Nat) (raw : Bytes) (s : State) : Host.Outcome State Fault Refusal :=
  .next (s.whenOn (fun s => s.doReplayRequest port raw))

/-- REPLAY_REQUEST_REPEAT (R298): Every 1 µs the receiver repeats its replay request until the expected flit arrives. -/
def execReplayRequestRepeat (port : Nat) (s : State) : Host.Outcome State Fault Refusal :=
  .next (s.whenOn (fun s => s.doReplayRequestRepeat port))

/-- TIMESTAMP (R323): A timestamp exchange with the parent corrects the child's FTIME rate and lock state. -/
def execTimestamp (port : Nat) (t1 : Nat) (t2 : Nat) (t3 : Nat) (t4 : Nat) (s : State) : Host.Outcome State Fault Refusal :=
  .next (s.whenOn (fun s => s.doTimestamp port t1 t2 t3 t4))

/-- TIMESTAMP_SEND (R323): Every 100 µs a link sends a timestamp flit in each direction. -/
def execTimestampSend (port : Nat) (s : State) : Host.Outcome State Fault Refusal :=
  .next (s.whenOn (fun s => s.doTimestampSend port))

/-- FABRIC_STALL (R309): A class and lane without credit for 10 ms raises E_FABRIC_STALL. -/
def execFabricStall (port : Nat) (tc : Nat) (vl : Nat) (s : State) : Host.Outcome State Fault Refusal :=
  .next (s.whenOn (fun s => s.doFabricStall port tc vl))

/-- TC0_INJECT (R310): A TC0 message passes the token bucket and is accepted for injection. -/
def execTc0Inject (p : Nat) (s : State) : Host.Outcome State Fault Refusal :=
  .next (s.whenOn (fun s => s.doTc0Inject p))

/-- WITHDRAWAL_EXPIRY (R320): An UNREACHABLE withdrawal of a port for a destination ends after 100 ms. -/
def execWithdrawalExpiry (port : Nat) (dest : Nat) (s : State) : Host.Outcome State Fault Refusal :=
  .next (s.whenOn (fun s => s.doWithdrawalExpiry port dest))

/-- WRITE (R306): A remote WRITE packet takes effect at its home slice and is answered. -/
def execWrite (p : Nat) (s : State) : Host.Outcome State Fault Refusal :=
  .next (s.whenOn (fun s => s.doWrite p))

/-- READ (R304): A remote READ packet is served and answered with READ_RESP. -/
def execRead (p : Nat) (flt : MemFault) (s : State) : Host.Outcome State Fault Refusal :=
  .next (s.whenOn (fun s => s.doRead p flt))

/-- READ_RESP (R304): A READ_RESP delivers remote read data to its requester. -/
def execReadResp (p : Nat) (s : State) : Host.Outcome State Fault Refusal :=
  .next (s.whenOn (fun s => s.doReadResp p))

/-- WRITE_RESP (R306): A WRITE_RESP tells the requester that its remote write took effect. -/
def execWriteResp (p : Nat) (s : State) : Host.Outcome State Fault Refusal :=
  .next (s.whenOn (fun s => s.doWriteResp p))

/-- ERROR_RESP (R241): An ERROR_RESP fails the remote request with its cause. -/
def execErrorResp (p : Nat) (s : State) : Host.Outcome State Fault Refusal :=
  .next (s.whenOn (fun s => s.doErrorResp p))

/-- REMOTE_SIGNAL (R200): A remote SIGNAL packet increments a target counter or is dropped with E_SIGNAL_DROPPED. -/
def execRemoteSignal (p : Nat) (s : State) : Host.Outcome State Fault Refusal :=
  .next (s.whenOn (fun s => s.doRemoteSignal p))

/-- BAR_ARRIVE (R212): A partition arrival at a fabric barrier reaches the group's lowest member. -/
def execBarArrive (p : Nat) (s : State) : Host.Outcome State Fault Refusal :=
  .next (s.whenOn (fun s => s.doBarArrive p))

/-- BAR_RELEASE (R212): A broadcast fabric barrier release reaches a member partition. -/
def execBarRelease (p : Nat) (s : State) : Host.Outcome State Fault Refusal :=
  .next (s.whenOn (fun s => s.doBarRelease p))

/-- MGMT_WRITE (R319): A management message writes the node's shadow tables or BRG registers. -/
def execMgmtWrite (p : Nat) (s : State) : Host.Outcome State Fault Refusal :=
  .next (s.whenOn (fun s => s.doMgmtWrite p))

/-- MGMT_READ (R319): A management message reads a BRG register and is answered. -/
def execMgmtRead (p : Nat) (s : State) : Host.Outcome State Fault Refusal :=
  .next (s.whenOn (fun s => s.doMgmtRead p))

/-- MGMT_RESP (R304): A management response reaches the fabric manager's node. -/
def execMgmtResp (p : Nat) (s : State) : Host.Outcome State Fault Refusal :=
  .next (s.whenOn (fun s => s.doMgmtResp p))

/-- UNREACHABLE (R320): An UNREACHABLE notice withdraws the ingress port for a destination. -/
def execUnreachable (port : Nat) (s : State) : Host.Outcome State Fault Refusal :=
  .next (s.whenOn (fun s => s.doUnreachable port))

/-- IDLE_FLIT (R298): A received idle flit delivers its ACK and credit-return header fields, freeing replay-buffer space and sender credits. -/
def execIdleFlit (port : Nat) (raw : Bytes) (s : State) : Host.Outcome State Fault Refusal :=
  .next (s.whenOn (fun s => s.doIdleFlit port raw))

/-- PORT_TRAINING_DONE (R300): A port's training or retraining ends; it enters HELLO_ONLY, or returns to the effective port sets on its new width and re-sends unacknowledged flits. -/
def execPortTrainingDone (port : Nat) (laneErrs : List (Nat × Nat)) (s : State) : Host.Outcome State Fault Refusal :=
  .next (s.whenOn (fun s => s.doPortTrainingDone port laneErrs))

/-- ROUTE_TABLE_REGISTER_WRITE (R317): A physical-function write to a shadow route table entry is performed, or refused with E_ROUTE_TABLE when it names a foreign port or sets a reserved bit. -/
def execRouteTableRegisterWrite (p : Nat) (off : Nat) (value : W32) (s : State) : Host.Outcome State Fault Refusal :=
  .next (s.overLink (fun s => s.doRouteTableWrite p off value.toNat))

end Sys2Proof.Machine
end

