-- ==== Sys2Proof/Machine/ExecHost.lean ====
section
/-! DEFINITION. What each command of jobs, host rings, set-up and host accesses does to the block (chapter 12). -/

namespace Sys2Proof.Machine

/-- JOB_START (R382): An idle partition selects the next job, checks its image and clears core state before dispatching. -/
def execJobStart (p : Nat) (entry : HostRead) (copies : HostRead) (s : State) : Host.Outcome State Fault Refusal :=
  .next (s.reporting (fun s => s.engine (fun s => s.doJobStart p entry copies)))

/-- NO_OPERATION_ENTRY (R380): A no-operation submission entry completes once every earlier job of its ring has completed. -/
def execNoOperationEntry (p : Nat) (ring : Nat) (entry : HostRead) (s : State) : Host.Outcome State Fault Refusal :=
  .next (s.engine (fun s => s.doNoOperation p ring entry))

/-- HOST_COPY_IN (R383): The copy engine runs a job's copy-ins from host memory before its first dispatch. -/
def execHostCopyIn (p : Nat) (data : HostRead) (s : State) : Host.Outcome State Fault Refusal :=
  .next (s.reporting (fun s => s.engine (fun s => s.doHostCopyIn p data)))

/-- HOST_COPY_OUT (R383): The copy engine runs a job's copy-outs after every stream has ended. -/
def execHostCopyOut (p : Nat) (ok : Bool) (s : State) : Host.Outcome State Fault Refusal :=
  .next (s.engine (fun s => s.doHostCopyOut p ok))

/-- JOB_COMPLETE (R384): The module writes the job's completion entry and sends its MSI-X message if asked. -/
def execJobComplete (p : Nat) (s : State) : Host.Outcome State Fault Refusal :=
  .next (s.reporting (fun s => s.engine (fun s => s.doJobComplete p)))

/-- HOST_COMPLETION_TIMEOUT (R365): A module request to host memory gets no completion within the programmed timeout. -/
def execHostCompletionTimeout (r : HostRequest) (s : State) : Host.Outcome State Fault Refusal :=
  .next (s.reporting (fun s => s.engine (fun s => s.doHostTimeout r)))

/-- EVENT_IRQ_INTERVAL (R387): At the end of the 10 µs interval the event ring's vector signals entries written during it. -/
def execEventIrqInterval (fn : Fn) (s : State) : Host.Outcome State Fault Refusal :=
  .next (s.whenOn (fun s => s.doIrqInterval fn))

/-- SQ_TAIL (R381): The host writes a submission tail doorbell, making entries new. -/
def execSqTail (p : Nat) (ring : Nat) (value : Nat) (s : State) : Host.Outcome State Fault Refusal :=
  .next (s.overLink (fun s => s.doSqTail p ring value))

/-- CQ_HEAD (R381): The host writes a completion head doorbell, releasing completion entries. -/
def execCqHead (p : Nat) (ring : Nat) (value : Nat) (s : State) : Host.Outcome State Fault Refusal :=
  .next (s.overLink (fun s => s.doCqHead p ring value))

/-- EVT_HEAD (R381): The host writes the event ring head doorbell. -/
def execEvtHead (fn : Fn) (value : Nat) (s : State) : Host.Outcome State Fault Refusal :=
  .next (s.overLink (fun s => s.doEvtHead fn value))

/-- RING_ENABLE (R379): A write of ENABLE = 1 latches a ring's base and size and starts it, or is refused. -/
def execRingEnable (fn : Fn) (group : Nat) (value : W32) (s : State) : Host.Outcome State Fault Refusal :=
  .next (s.overLink (fun s => s.doRingEnable fn group value.toNat))

/-- RING_DISABLE (R379): A write of ENABLE = 0 stops the ring and discards its pending entries. -/
def execRingDisable (fn : Fn) (group : Nat) (value : W32) (s : State) : Host.Outcome State Fault Refusal :=
  .next (s.overLink (fun s => s.doRingDisable fn group value.toNat))

/-- RESUME (R386): A write of RING_CFG.RESUME clears STOPPED and lets the ring start jobs again. -/
def execResume (p : Nat) (ring : Nat) (s : State) : Host.Outcome State Fault Refusal :=
  .next (s.overLink (fun s => s.doResume p ring))

/-- SETUP_COMMIT (R372): A write of HIF_SETUP_COMMIT.COMMIT copies the set-up buffer and starts validation. -/
def execSetupCommit (s : State) : Host.Outcome State Fault Refusal :=
  .next (s.overLink (fun s => s.doSetupCommit))

/-- SETUP_VALIDATION (R375): Validation of the committed set-up table ends with acceptance or rejection reason. -/
def execSetupValidation (s : State) : Host.Outcome State Fault Refusal :=
  .next (s.reporting (fun s => s.whenOn (fun s => s.doSetupValidation)))

/-- BAR2_READ (R369): A host BAR2 read reaches a partition byte through its home slice. -/
def execBar2Read (fn : Fn) (off : Nat) (len : Nat) (flt : MemFault) (s : State) : Host.Outcome State Fault Refusal :=
  .next (s.overLink (fun s => s.doBar2Read fn off len flt))

/-- BAR2_WRITE (R369): A host BAR2 write reaches a partition byte through its home slice. -/
def execBar2Write (fn : Fn) (off : Nat) (data : Bytes) (s : State) : Host.Outcome State Fault Refusal :=
  .next (s.overLink (fun s => s.doBar2Write fn off data))

/-- BAR2_READ_ABORT (R369): A BAR read without data after 10 ms completes with Completer Abort. -/
def execBar2ReadAbort (fn : Fn) (_off : Nat) (s : State) : Host.Outcome State Fault Refusal :=
  .next (s.overLink (fun s => s.doBar2Abort fn))

/-- REGISTER_WRITE (R10): A register write to a field without behaviour of its own, including rejected size or alignment. -/
def execRegisterWrite (fn : Fn) (off : Nat) (size : Nat) (value : W64) (s : State) : Host.Outcome State Fault Refusal :=
  .next (s.reporting (fun s => s.overLink (fun s => s.doRegisterWrite fn off size value.toNat)))

/-- FTIME_LO_READ (R328): A read of BRG_FTIME_LO latches FTIME bits [63:32] into BRG_FTIME_HI. -/
def execFtimeLoRead (s : State) : Host.Outcome State Fault Refusal :=
  .next (s.overLink (fun s => s.doFtimeLoRead))

/-- FUNCTION_LEVEL_RESET_VF (R371): A VF Function Level Reset disables its rings, discards pending jobs and ends a running job. -/
def execFunctionLevelResetVf (p : Nat) (s : State) : Host.Outcome State Fault Refusal :=
  .next (s.reporting (fun s => s.overLink (fun s => s.doFlrVf p)))

/-- FUNCTION_LEVEL_RESET_PF (R371): A PF Function Level Reset resets every VF and withdraws the set-up table. -/
def execFunctionLevelResetPf (s : State) : Host.Outcome State Fault Refusal :=
  .next (s.reporting (fun s => s.overLink (fun s => s.doFlrPf)))

end Sys2Proof.Machine
end

