-- ==== Sys2Proof/Machine/ExecKernels.lean ====
section
/-! DEFINITION. What each vector kernel instruction does to the block (chapters 06 and 07). -/

namespace Sys2Proof.Machine

/-- ADD (R223): Kernel instruction: lane-wise addition. -/
def execAdd (l : Nat) (t : Nat) (s : State) : Host.Outcome State Fault Refusal :=
  .next (s.engine (fun s => s.kernel l t 0x00 (kLane (bin FVal.add) false)))

/-- SUB (R223): Kernel instruction: lane-wise subtraction. -/
def execSub (l : Nat) (t : Nat) (s : State) : Host.Outcome State Fault Refusal :=
  .next (s.engine (fun s => s.kernel l t 0x01 (kLane (bin (fun x y => x.add y.negate)) false)))

/-- MUL (R223): Kernel instruction: lane-wise multiplication. -/
def execMul (l : Nat) (t : Nat) (s : State) : Host.Outcome State Fault Refusal :=
  .next (s.engine (fun s => s.kernel l t 0x02 (kLane (bin FVal.mul) false)))

/-- FMA (R223): Kernel instruction: fused multiply-add with one rounding. -/
def execFma (l : Nat) (t : Nat) (s : State) : Host.Outcome State Fault Refusal :=
  .next (s.engine (fun s => s.kernel l t 0x03 (kLane (fun xs => (bin FVal.mul xs).add (xs.getD 2 .nan)) true)))

/-- MIN (R223): Kernel instruction: lane-wise minimum. -/
def execMin (l : Nat) (t : Nat) (s : State) : Host.Outcome State Fault Refusal :=
  .next (s.engine (fun s => s.kernel l t 0x04 (kLane (bin FVal.minimum) false)))

/-- MAX (R223): Kernel instruction: lane-wise maximum. -/
def execMax (l : Nat) (t : Nat) (s : State) : Host.Outcome State Fault Refusal :=
  .next (s.engine (fun s => s.kernel l t 0x05 (kLane (bin FVal.maximum) false)))

/-- CMPLT (R223): Kernel instruction: lane-wise less-than compare to a mask. -/
def execCmplt (l : Nat) (t : Nat) (s : State) : Host.Outcome State Fault Refusal :=
  .next (s.engine (fun s => s.kernel l t 0x06 (kCmp FVal.lt)))

/-- CMPEQ (R223): Kernel instruction: lane-wise equality compare to a mask. -/
def execCmpeq (l : Nat) (t : Nat) (s : State) : Host.Outcome State Fault Refusal :=
  .next (s.engine (fun s => s.kernel l t 0x07 (kCmp FVal.eq)))

/-- CVT (R223): Kernel instruction: converts lanes between FP32, BF16 and FP16. -/
def execCvt (l : Nat) (t : Nat) (s : State) : Host.Outcome State Fault Refusal :=
  .next (s.engine (fun s => s.kernel l t 0x08 (kCvt)))

/-- SEL (R223): Kernel instruction: lane-wise select by mask. -/
def execSel (l : Nat) (t : Nat) (s : State) : Host.Outcome State Fault Refusal :=
  .next (s.engine (fun s => s.kernel l t 0x09 (kSel)))

/-- MOV (R223): Kernel instruction: copies a whole register. -/
def execMov (l : Nat) (t : Nat) (s : State) : Host.Outcome State Fault Refusal :=
  .next (s.engine (fun s => s.kernel l t 0x0A (kMov)))

/-- MOVI (R223): Kernel instruction: broadcasts an immediate into every lane. -/
def execMovi (l : Nat) (t : Nat) (s : State) : Host.Outcome State Fault Refusal :=
  .next (s.engine (fun s => s.kernel l t 0x0B (kMovi)))

/-- EXP (R148): Kernel instruction: natural exponential on the transcendental unit. -/
def execExp (l : Nat) (t : Nat) (s : State) : Host.Outcome State Fault Refusal :=
  .next (s.engine (fun s => s.kernel l t 0x40 (kTrans .exp)))

/-- EXP2 (R148): Kernel instruction: base-2 exponential. -/
def execExp2 (l : Nat) (t : Nat) (s : State) : Host.Outcome State Fault Refusal :=
  .next (s.engine (fun s => s.kernel l t 0x41 (kTrans .exp2)))

/-- LOG (R148): Kernel instruction: natural logarithm. -/
def execLog (l : Nat) (t : Nat) (s : State) : Host.Outcome State Fault Refusal :=
  .next (s.engine (fun s => s.kernel l t 0x42 (kTrans .log)))

/-- LOG2 (R148): Kernel instruction: base-2 logarithm. -/
def execLog2 (l : Nat) (t : Nat) (s : State) : Host.Outcome State Fault Refusal :=
  .next (s.engine (fun s => s.kernel l t 0x43 (kTrans .log2)))

/-- RSQRT (R148): Kernel instruction: reciprocal square root. -/
def execRsqrt (l : Nat) (t : Nat) (s : State) : Host.Outcome State Fault Refusal :=
  .next (s.engine (fun s => s.kernel l t 0x44 (kTrans .rsqrt)))

/-- WADD (R83): Kernel instruction: exact W128 addition. -/
def execWadd (l : Nat) (t : Nat) (s : State) : Host.Outcome State Fault Refusal :=
  .next (s.engine (fun s => s.kernel l t 0x50 (kWide (wbin Cum.wadd) true)))

/-- WSUB (R83): Kernel instruction: exact W128 subtraction. -/
def execWsub (l : Nat) (t : Nat) (s : State) : Host.Outcome State Fault Refusal :=
  .next (s.engine (fun s => s.kernel l t 0x51 (kWide (wbin Cum.wsub) true)))

/-- WNEG (R83): Kernel instruction: exact W128 negation. -/
def execWneg (l : Nat) (t : Nat) (s : State) : Host.Outcome State Fault Refusal :=
  .next (s.engine (fun s => s.kernel l t 0x52 (kWide (fun xs => (xs.getD 0 .zero).wneg) false)))

/-- WFINISH (R84): Kernel instruction: finishes a row of W128 values with scales and bias into FP32, BF16 or FP16. -/
def execWfinish (l : Nat) (t : Nat) (s : State) : Host.Outcome State Fault Refusal :=
  .next (s.engine (fun s => s.kernel l t 0x58 (kWfinish)))

/-- WFINISHB (R223): Kernel instruction: finishes a 32-row block of W128 values into a CB format with offset. -/
def execWfinishb (l : Nat) (t : Nat) (s : State) : Host.Outcome State Fault Refusal :=
  .next (s.engine (fun s => s.kernel l t 0x59 (kWfinishb)))

/-- LOAD (R223): Kernel instruction: loads 256 B into a register from a core store or device memory. -/
def execLoad (l : Nat) (t : Nat) (s : State) : Host.Outcome State Fault Refusal :=
  .next (s.engine (fun s => s.kernel l t 0x60 (kLoadStore false)))

/-- STORE (R223): Kernel instruction: stores 256 B of a register to a core store or device memory. -/
def execStore (l : Nat) (t : Nat) (s : State) : Host.Outcome State Fault Refusal :=
  .next (s.engine (fun s => s.kernel l t 0x61 (kLoadStore true)))

/-- GATHER (R157): Kernel instruction: reads one indexed element per active lane. -/
def execGather (l : Nat) (t : Nat) (s : State) : Host.Outcome State Fault Refusal :=
  .next (s.engine (fun s => s.kernel l t 0x68 (kGather)))

/-- SCATTER (R158): Kernel instruction: writes one indexed element per active lane. -/
def execScatter (l : Nat) (t : Nat) (s : State) : Host.Outcome State Fault Refusal :=
  .next (s.engine (fun s => s.kernel l t 0x69 (kScatter)))

/-- SCATTER_ADD (R158): Kernel instruction: atomically adds one indexed element per lane at Nimbus. -/
def execScatterAdd (l : Nat) (t : Nat) (s : State) : Host.Outcome State Fault Refusal :=
  .next (s.engine (fun s => s.kernel l t 0x6A (kScatterAdd)))

/-- FENCE (R154): Kernel instruction: waits until every earlier access of the thread has taken effect. -/
def execFence (l : Nat) (t : Nat) (s : State) : Host.Outcome State Fault Refusal :=
  .next (s.engine (fun s => s.kernel l t 0x7F (fun s1 _ => ⟨s1, [], {}, .advance⟩)))

/-- PACK (R151): Kernel instruction: packs a line segment into an array format or a gradient tile. -/
def execPack (l : Nat) (t : Nat) (s : State) : Host.Outcome State Fault Refusal :=
  .next (s.engine (fun s => s.kernel l t 0x80 (kPack)))

/-- UNPACK (R151): Kernel instruction: unpacks a segment of any format into FP32, BF16 or FP16 registers. -/
def execUnpack (l : Nat) (t : Nat) (s : State) : Host.Outcome State Fault Refusal :=
  .next (s.engine (fun s => s.kernel l t 0x81 (kUnpack)))

/-- RANGE (R161): Kernel instruction: folds finite values into a running minimum and maximum. -/
def execRange (l : Nat) (t : Nat) (s : State) : Host.Outcome State Fault Refusal :=
  .next (s.engine (fun s => s.kernel l t 0x90 (kRange)))

/-- MV_BCAST (R150): Kernel instruction: broadcast-form matrix-vector product on the vector path. -/
def execMvBcast (l : Nat) (t : Nat) (s : State) : Host.Outcome State Fault Refusal :=
  .next (s.engine (fun s => s.kernel l t 0xA0 (kMv)))

/-- MV_REDUCE (R150): Kernel instruction: reduce-form matrix-vector product on the vector path. -/
def execMvReduce (l : Nat) (t : Nat) (s : State) : Host.Outcome State Fault Refusal :=
  .next (s.engine (fun s => s.kernel l t 0xA1 (kMv)))

/-- BR (R223): Kernel instruction: unconditional branch. -/
def execBr (l : Nat) (t : Nat) (s : State) : Host.Outcome State Fault Refusal :=
  .next (s.engine (fun s => s.kernel l t 0xC0 (kBranch false)))

/-- BRZ (R223): Kernel instruction: branches when lane 0 of VA is all zero bits. -/
def execBrz (l : Nat) (t : Nat) (s : State) : Host.Outcome State Fault Refusal :=
  .next (s.engine (fun s => s.kernel l t 0xC1 (kBranch true)))

/-- TBAR (R153): Kernel instruction: synchronises the threads of its own record. -/
def execTbar (l : Nat) (t : Nat) (s : State) : Host.Outcome State Fault Refusal :=
  .next (s.engine (fun s => s.kernel l t 0xCE (fun s1 _ => ⟨s1, [], {}, .barrier⟩)))

/-- KERNEL_END (R153): Kernel instruction END: the thread finishes; the record completes when all threads have ended. -/
def execKernelEnd (l : Nat) (t : Nat) (s : State) : Host.Outcome State Fault Refusal :=
  .next (s.engine (fun s => s.kernel l t 0xCF (fun s1 _ => ⟨s1, [], {}, .finish⟩)))

end Sys2Proof.Machine
end

