-- ==== Sys2Proof/Machine/ExecMemory.lean ====
section
/-! DEFINITION. What each command of the DMA channels, of memory and of counters, trace and breaks does to the block (chapters 08, 09, 16). -/

namespace Sys2Proof.Machine

/-- DESCRIPTOR_FETCH (R228): A DMA channel fetches and checks a batch of up to 32 descriptors, merging where allowed. -/
def execDescriptorFetch (ch : Chan) (s : State) : Host.Outcome State Fault Refusal :=
  .next (s.engine (fun s => s.doDescriptorFetch ch))

/-- DESCRIPTOR_START (R244): A channel starts a descriptor, converts its deadline to fabric time and tags its requests. -/
def execDescriptorStart (ch : Chan) (s : State) : Host.Outcome State Fault Refusal :=
  .next (s.engine (fun s => s.doDescriptorStart ch))

/-- CRC_FINISH (R240): After a descriptor's data writes the channel finishes the CRC-32C and writes or compares it. -/
def execCrcFinish (ch : Chan) (s : State) : Host.Outcome State Fault Refusal :=
  .next (s.engine (fun s => s.doCrcFinish ch))

/-- DMA_BUS_ERROR (R241): An error response halts the channel, latches the fault and fails its record. -/
def execDmaBusError (ch : Chan) (s : State) : Host.Outcome State Fault Refusal :=
  .next (s.engine (fun s => s.doDmaBusError ch))

/-- DEADLINE_MISS (R256): A descriptor's deadline passes with writes outstanding and a breach record is raised. -/
def execDeadlineMiss (ch : Chan) (s : State) : Host.Outcome State Fault Refusal :=
  .next (s.engine (fun s => s.doDeadlineMiss ch))

/-- STREAM_END_DEADLINE_MISS (R257): A stream that has not run END by its FC_END raises one breach record. -/
def execStreamEndDeadlineMiss (l : Nat) (s : State) : Host.Outcome State Fault Refusal :=
  .next (s.engine (fun s => s.doStreamEndMiss l))

/-- STALE_CHECK (R253): Before a watched consumer starts, the core checks the stale flag and re-issues or fails with E_STALE. -/
def execStaleCheck (l : Nat) (q : Nat) (s : State) : Host.Outcome State Fault Refusal :=
  .next (s.engine (fun s => s.doStaleCheck l q))

/-- LOG_DRAIN_WRITE (R466): The log-store drain writes 256 B of trace or samples to its HBM ring. -/
def execLogDrainWrite (c : Nat) (region : Nat) (s : State) : Host.Outcome State Fault Refusal :=
  .next (s.engine (fun s => s.doLogDrain c region))

/-- LOG_PAD_TIMEOUT (R466): A region holding a partial 256 B for 100 µs is padded with zeros and written. -/
def execLogPadTimeout (c : Nat) (region : Nat) (s : State) : Host.Outcome State Fault Refusal :=
  .next (s.whenOn (fun s => s.doLogPad c region))

/-- BAROMETER_SAMPLE (R470): When FTIME passes a multiple of the interval a core samples its selected event counters. -/
def execBarometerSample (c : Nat) (s : State) : Host.Outcome State Fault Refusal :=
  .next (s.whenOn (fun s => s.doSample c))

/-- GLOBAL_BAROMETER_SAMPLE (R470): The global barometer samples selected global counters and writes them to the global ring. -/
def execGlobalBarometerSample (s : State) : Host.Outcome State Fault Refusal :=
  .next (s.whenOn (fun s => s.doGlobalSample))

/-- TAG_BREAK (R471): A record matching the tag condition reaches its queue head and the core freezes before it starts. -/
def execTagBreak (l : Nat) (q : Nat) (s : State) : Host.Outcome State Fault Refusal :=
  .next (s.engine (fun s => s.doTagBreak l q))

/-- READ_REQUEST (R267): A read reaches its line's home Nimbus slice and is served from cache, scratchpad or HBM. -/
def execReadRequest (ch : Chan) (flt : MemFault) (s : State) : Host.Outcome State Fault Refusal :=
  .next (s.engine (fun s => s.doReadRequest ch flt))

/-- WRITE_REQUEST (R267): A write reaches its home slice and takes effect in cache, scratchpad or HBM, setting any stale flags. -/
def execWriteRequest (ch : Chan) (flt : MemFault) (s : State) : Host.Outcome State Fault Refusal :=
  .next (s.engine (fun s => s.doWriteRequest ch flt))

/-- ATOMIC_OPERATION (R286): An atomic addition acts at the home slice as one locked step. -/
def execAtomicOperation (p : Nat) (addr : Nat) (op : AtomicOp) (flt : MemFault) (s : State) : Host.Outcome State Fault Refusal :=
  .next (s.engine (fun s => s.doAtomic p addr op flt))

/-- REQUEST_WATCHDOG (R269): A request without response after 50 ms ends with an error response of cause 4. -/
def execRequestWatchdog (ch : Chan) (s : State) : Host.Outcome State Fault Refusal :=
  .next (s.engine (fun s => s.doRequestWatchdog ch))

/-- REFRESH (R274): The controller refreshes a bank by per-bank refresh. -/
def execRefresh (stack : Nat) (pc : Nat) (channel : Nat) (bank : Nat) (s : State) : Host.Outcome State Fault Refusal :=
  .next (s.whenOn (fun s => s.doRefresh stack pc channel bank))

/-- PATROL_SCRUB (R275): The controller scrubs the next code word, correcting or poisoning it. -/
def execPatrolScrub (stack : Nat) (flt : MemFault) (s : State) : Host.Outcome State Fault Refusal :=
  .next (s.whenOn (fun s => s.doPatrolScrub stack flt))

/-- ROW_REPAIR (R276): A pending row repair runs by post-package repair once no job runs on the partition. -/
def execRowRepair (stack : Nat) (s : State) : Host.Outcome State Fault Refusal :=
  .next (s.whenOn (fun s => s.doRowRepair stack))

/-- CHANNEL_RETIRE (R278): When migration ends the channel is retired and the partition top falls by 2 GiB. -/
def execChannelRetire (p : Nat) (s : State) : Host.Outcome State Fault Refusal :=
  .next (s.whenOn (fun s => s.doChannelRetire p))

/-- COUNTER_LO_READ (R462): A read of a counter _LO word latches its bits [47:32] into the _HI word. -/
def execCounterLoRead (k : CounterId) (s : State) : Host.Outcome State Fault Refusal :=
  .next (s.overLink (fun s => s.doCounterRead k))

/-- CLEAR (R242): A write of CDMA_CH_CTRL.CLEAR clears a halted channel's latch. -/
def execClear (ch : Chan) (s : State) : Host.Outcome State Fault Refusal :=
  .next (s.overLink (fun s => s.doClear ch))

/-- APPLY (R289): A write of NIM_CTRL.APPLY writes back, invalidates and switches the slab configuration. -/
def execApply (b : Nat) (s : State) : Host.Outcome State Fault Refusal :=
  .next (s.overLink (fun s => s.doApply b))

/-- FLUSH (R291): A write of NIM_CTRL.FLUSH writes back every dirty Nimbus line. -/
def execFlush (b : Nat) (s : State) : Host.Outcome State Fault Refusal :=
  .next (s.overLink (fun s => s.doFlush b))

/-- GO (R292): A write of HBMC_RETIRE.GO starts evacuation and retirement of a channel. -/
def execGo (stack : Nat) (channel : Nat) (s : State) : Host.Outcome State Fault Refusal :=
  .next (s.overLink (fun s => s.doGo stack channel))

/-- FORCE (R280): A write of HBMC_RETIRE.GO with FORCE retires a channel without reserve, discarding the top 2 GiB. -/
def execForce (stack : Nat) (channel : Nat) (s : State) : Host.Outcome State Fault Refusal :=
  .next (s.overLink (fun s => s.doForce stack channel))

/-- DBG_COUNTERS_CLEAR (R474): A write of DBG_CTR_CTRL.CLEAR zeroes every event and stall counter of the core. -/
def execDbgCountersClear (c : Nat) (s : State) : Host.Outcome State Fault Refusal :=
  .next (s.overLink (fun s => s.doCountersClear c))

/-- GLOBAL_COUNTERS_CLEAR (R475): A write of DBG_GCTRL.CLEAR zeroes every global counter. -/
def execGlobalCountersClear (s : State) : Host.Outcome State Fault Refusal :=
  .next (s.overLink (fun s => s.doGlobalClear))

/-- LOG_ENABLE_WRITE (R465): A write of the trace or sampling enable records new enables pending a resplit. -/
def execLogEnableWrite (c : Nat) (sample : Bool) (value : W32) (s : State) : Host.Outcome State Fault Refusal :=
  .next (s.overLink (fun s => s.doLogEnable c sample value.toNat))

/-- LOG_RESPLIT (R465): When both log regions are empty the new split and enables take effect. -/
def execLogResplit (c : Nat) (s : State) : Host.Outcome State Fault Refusal :=
  .next (s.whenOn (fun s => s.doResplit c))

/-- CORE_RESUME (R473): A write of DBG_BRK_CTRL.RESUME resumes a frozen core. -/
def execCoreResume (c : Nat) (s : State) : Host.Outcome State Fault Refusal :=
  .next (s.overLink (fun s => s.doCoreResume c))

/-- PARTITION_RESUME (R473): A write of DBG_FREEZE.RESUME resumes every core of a partition. -/
def execPartitionResume (p : Nat) (s : State) : Host.Outcome State Fault Refusal :=
  .next (s.overLink (fun s => s.doPartResume p))

/-- PARTITION_FREEZE (R475): A write of DBG_FREEZE.FREEZE freezes every core of a partition. -/
def execPartitionFreeze (p : Nat) (s : State) : Host.Outcome State Fault Refusal :=
  .next (s.overLink (fun s => s.doPartFreeze p))

/-- ROW_REPAIR_DONE (R276): Post-package repair of a row ends within 20 ms; the bank reopens and E_ROW_REPAIRED or E_ROW_UNREPAIRABLE is raised. -/
def execRowRepairDone (stack : Nat) (repaired : Bool) (s : State) : Host.Outcome State Fault Refusal :=
  .next (s.reporting (fun s => s.whenOn (fun s => s.doRowRepairDone stack repaired)))

/-- NIM_BUSY_END (R289): A Nimbus apply, flush or reset write-back finishes and NIM_STATUS.BUSY clears, letting waiting jobs start. -/
def execNimBusyEnd (b : Nat) (s : State) : Host.Outcome State Fault Refusal :=
  .next (s.reporting (fun s => s.whenOn (fun s => s.doNimBusyEnd b)))

end Sys2Proof.Machine
end

