-- ==== Sys2Proof/Machine/ExecMmc.lean ====
section
/-! DEFINITION. What each command of the management controller does to the block (chapter 15). -/

namespace Sys2Proof.Machine

/-- MMC_RESTART (R448): The MMC restarts from its new firmware slot once no repair or exchange forbids it. -/
def execMmcRestart (newSlotOk : Bool) (s : State) : Host.Outcome State Fault Refusal :=
  .next (s.reporting (fun s => s.doMmcRestart newSlotOk))

/-- CORE_FW_ACTIVATION (R446): The MMC partition-resets an idle partition to activate a pending core image. -/
def execCoreFwActivation (p : Nat) (s : State) : Host.Outcome State Fault Refusal :=
  .next (s.reporting (fun s => s.whenOn (fun s => s.doCoreActivation p)))

/-- FIRMWARE_BROADCAST (R405): A node receives, verifies and accepts a core firmware image broadcast over the fabric. -/
def execFirmwareBroadcast (image : Bytes) (s : State) : Host.Outcome State Fault Refusal :=
  .next (s.reporting (fun s => s.whenOn (fun s => s.doBroadcast image)))

/-- SET_ENDPOINT_ID (R437): A bus owner assigns the MMC's endpoint ID on a binding. -/
def execSetEndpointId (b : Binding) (eid : Nat) (s : State) : Host.Outcome State Fault Refusal :=
  .next (s.doSetEndpointId b eid)

/-- MCTP_UNSUPPORTED_TYPE (R437): An MCTP message of an unsupported type is discarded. -/
def execMctpUnsupportedType (b : Binding) (ty : Nat) (s : State) : Host.Outcome State Fault Refusal :=
  .next (s.doUnsupportedType b ty)

/-- GETTID (R439): PLDM GetTID request. -/
def execGetTid (b : Binding) (s : State) : Host.Outcome State Fault Refusal :=
  .next (s.doGetTid b)

/-- SETTID (R439): PLDM SetTID request. -/
def execSetTid (b : Binding) (tid : Nat) (s : State) : Host.Outcome State Fault Refusal :=
  .next (s.doSetTid b tid)

/-- GETPLDMVERSION (R439): PLDM GetPLDMVersion request. -/
def execGetPldmVersion (b : Binding) (ty : Nat) (s : State) : Host.Outcome State Fault Refusal :=
  .next (s.doGetPldmVersion b ty)

/-- GETPLDMTYPES (R439): PLDM GetPLDMTypes request. -/
def execGetPldmTypes (b : Binding) (s : State) : Host.Outcome State Fault Refusal :=
  .next (s.doGetPldmTypes b)

/-- GETPLDMCOMMANDS (R439): PLDM GetPLDMCommands request. -/
def execGetPldmCommands (b : Binding) (ty : Nat) (s : State) : Host.Outcome State Fault Refusal :=
  .next (s.doGetPldmCommands b ty)

/-- GETPDRREPOSITORYINFO (R439): PLDM GetPDRRepositoryInfo request. -/
def execGetPdrRepositoryInfo (b : Binding) (s : State) : Host.Outcome State Fault Refusal :=
  .next (s.doGetPdrInfo b)

/-- GETPDR (R439): PLDM GetPDR request. -/
def execGetPdr (b : Binding) (record : Nat) (s : State) : Host.Outcome State Fault Refusal :=
  .next (s.doGetPdr b record)

/-- GETSENSORREADING (R440): PLDM GetSensorReading returns a numeric sensor value. -/
def execGetSensorReading (b : Binding) (sensor : Nat) (s : State) : Host.Outcome State Fault Refusal :=
  .next (s.doGetSensorReading b sensor)

/-- GETSTATESENSORREADINGS (R440): PLDM GetStateSensorReadings returns state sensor values. -/
def execGetStateSensorReadings (b : Binding) (sensor : Nat) (s : State) : Host.Outcome State Fault Refusal :=
  .next (s.doGetStateReadings b sensor)

/-- SETNUMERICSENSORENABLE (R439): PLDM SetNumericSensorEnable request. -/
def execSetNumericSensorEnable (b : Binding) (sensor : Nat) (op : Nat) (s : State) : Host.Outcome State Fault Refusal :=
  .next (s.doSensorEnable b sensor op)

/-- SETEVENTRECEIVER (R439): PLDM SetEventReceiver sets where sensor events go. -/
def execSetEventReceiver (b : Binding) (eid : Nat) (s : State) : Host.Outcome State Fault Refusal :=
  .next (s.doSetReceiver b eid)

/-- QUERYDEVICEIDENTIFIERS (R439): PLDM QueryDeviceIdentifiers request. -/
def execQueryDeviceIdentifiers (b : Binding) (s : State) : Host.Outcome State Fault Refusal :=
  .next (s.doQueryIds b)

/-- GETFIRMWAREPARAMETERS (R439): PLDM GetFirmwareParameters request. -/
def execGetFirmwareParameters (b : Binding) (s : State) : Host.Outcome State Fault Refusal :=
  .next (s.doFwParameters b)

/-- REQUESTUPDATE (R445): PLDM RequestUpdate enters update mode, or is refused during another update. -/
def execRequestUpdate (b : Binding) (ncomp : Nat) (s : State) : Host.Outcome State Fault Refusal :=
  .next (s.reporting (fun s => s.doRequestUpdate b ncomp))

/-- PASSCOMPONENTTABLE (R439): PLDM PassComponentTable request. -/
def execPassComponentTable (b : Binding) (component : Nat) (s : State) : Host.Outcome State Fault Refusal :=
  .next (s.doPassComponent b component)

/-- UPDATECOMPONENT (R445): PLDM UpdateComponent makes the MMC download an image into the inactive slot. -/
def execUpdateComponent (b : Binding) (component : Nat) (image : Bytes) (s : State) : Host.Outcome State Fault Refusal :=
  .next (s.reporting (fun s => s.doUpdateComponent b component image))

/-- ACTIVATEFIRMWARE (R446): PLDM ActivateFirmware marks verified components pending activation. -/
def execActivateFirmware (b : Binding) (s : State) : Host.Outcome State Fault Refusal :=
  .next (s.reporting (fun s => s.doActivate b))

/-- GETSTATUS (R439): PLDM GetStatus returns the update state. -/
def execGetStatus (b : Binding) (s : State) : Host.Outcome State Fault Refusal :=
  .next (s.doGetStatus b)

/-- CANCELUPDATECOMPONENT (R439): PLDM CancelUpdateComponent cancels a component download. -/
def execCancelUpdateComponent (b : Binding) (s : State) : Host.Outcome State Fault Refusal :=
  .next (s.doCancelComponent b)

/-- CANCELUPDATE (R439): PLDM CancelUpdate ends update mode. -/
def execCancelUpdate (b : Binding) (s : State) : Host.Outcome State Fault Refusal :=
  .next (s.reporting (fun s => s.doCancelUpdate b))

/-- GET_VERSION (R450): SPDM GET_VERSION request. -/
def execGetVersion (b : Binding) (s : State) : Host.Outcome State Fault Refusal :=
  .next (s.doGetVersion b)

/-- GET_CAPABILITIES (R450): SPDM GET_CAPABILITIES request. -/
def execGetCapabilities (b : Binding) (s : State) : Host.Outcome State Fault Refusal :=
  .next (s.doGetCapabilities b)

/-- NEGOTIATE_ALGORITHMS (R450): SPDM NEGOTIATE_ALGORITHMS selects SHA-256 and the LMS extended algorithm. -/
def execNegotiateAlgorithms (b : Binding) (offersLms : Bool) (s : State) : Host.Outcome State Fault Refusal :=
  .next (s.doNegotiate b offersLms)

/-- GET_DIGESTS (R450): SPDM GET_DIGESTS returns certificate chain digests. -/
def execGetDigests (b : Binding) (s : State) : Host.Outcome State Fault Refusal :=
  .next (s.doGetDigests b)

/-- GET_CERTIFICATE (R452): SPDM GET_CERTIFICATE returns the identity certificate chain. -/
def execGetCertificate (b : Binding) (slot : Nat) (offset : Nat) (len : Nat) (s : State) : Host.Outcome State Fault Refusal :=
  .next (s.doGetCertificate b slot offset len)

/-- CHALLENGE (R452): SPDM CHALLENGE is answered with a CHALLENGE_AUTH signed by the identity key. -/
def execChallenge (b : Binding) (slot : Nat) (nonce : Bytes) (s : State) : Host.Outcome State Fault Refusal :=
  .next (s.doChallenge b slot nonce)

/-- GET_MEASUREMENTS (R451): SPDM GET_MEASUREMENTS returns measurement blocks, signed if asked. -/
def execGetMeasurements (b : Binding) (index : Nat) (signed : Bool) (nonce : Bytes) (s : State) : Host.Outcome State Fault Refusal :=
  .next (s.doGetMeasurements b index signed nonce)

/-- MMC_RESTART_DONE (R448): An MMC restart ends within 2 s; PLDM service resumes, delayed sensor events are sent, and deferred repair holds start. -/
def execMmcRestartDone (s : State) : Host.Outcome State Fault Refusal :=
  .next (s.reporting (fun s => s.doMmcRestartDone))

/-- UNSUPPORTED_PLDM_CMD (R439): A PLDM request with an unsupported command is answered with ERROR_UNSUPPORTED_PLDM_CMD. -/
def execUnsupportedPldmCmd (b : Binding) (ty : Nat) (cmd : Nat) (s : State) : Host.Outcome State Fault Refusal :=
  .next (s.doUnsupported b ty cmd)

end Sys2Proof.Machine
end

