-- ==== Sys2Proof/Machine/ExecModule.lean ====
section
/-! DEFINITION. What each command of resets, repair, pins, power and clocks does to the block (chapters 13, 14, 17). -/

namespace Sys2Proof.Machine

/-- PERMANENT_FAULT (R406): A fault count passes its limit and the part is marked for repair, degraded or retired. -/
def execPermanentFault (f : FaultEvent) (s : State) : Host.Outcome State Fault Refusal :=
  .next (s.reporting (fun s => s.whenOn (fun s => s.doPermanentFault f)))

/-- SPARE_SUBSTITUTION (R408): After the spare passes its test the failed core's logical number moves to it and the hold ends. -/
def execSpareSubstitution (p : Nat) (passed : Bool) (s : State) : Host.Outcome State Fault Refusal :=
  .next (s.reporting (fun s => s.whenOn (fun s => s.doSubstitution p passed)))

/-- FULL_RESET (R411): A full reset loses Nimbus, HBM and set-up and leads to a bring-up. -/
def execFullReset (s : State) : Host.Outcome State Fault Refusal :=
  .next (s.reporting (fun s => s.overLink (fun s => s.requestFullReset 2)))

/-- COMPUTE_RESET (R411): A compute reset resets a partition's cores and engines, empties Nimbus and keeps HBM. -/
def execComputeReset (p : Nat) (s : State) : Host.Outcome State Fault Refusal :=
  .next (s.reporting (fun s => s.overLink (fun s => s.doComputeReset p)))

/-- PART_RESET (R411): A partition reset also retests and renumbers cores and requalifies ports. -/
def execPartReset (p : Nat) (s : State) : Host.Outcome State Fault Refusal :=
  .next (s.reporting (fun s => s.overLink (fun s => s.doPartReset p)))

/-- LOWER (R420): A write of GOV_CLASS.LOWER lowers the cooling class when no job runs. -/
def execLower (code : Nat) (s : State) : Host.Outcome State Fault Refusal :=
  .next (s.reporting (fun s => s.overLink (fun s => s.doLower code)))

/-- HX_PWR_EN_RISE (R478): HX_PWR_EN rises and the module charges, ramps and starts deep bring-up. -/
def execHxPwrEnRise (afterOneSecond : Bool) (s : State) : Host.Outcome State Fault Refusal :=
  .next (s.reporting (fun s => s.doPwrRise afterOneSecond))

/-- HX_PWR_EN_FALL (R480): HX_PWR_EN falls and the module deasserts HX_PWRGD and switches off. -/
def execHxPwrEnFall (s : State) : Host.Outcome State Fault Refusal :=
  .next (s.reporting (fun s => s.doPwrFall))

/-- PERST_ASSERT (R479): A PERST# assertion after the first deassertion starts a full reset. -/
def execPerstAssert (s : State) : Host.Outcome State Fault Refusal :=
  .next (s.reporting (fun s => s.doPerstAssert))

/-- PERST_DEASSERT (R479): PERST# deasserts and the selected bring-up starts or link training proceeds. -/
def execPerstDeassert (s : State) : Host.Outcome State Fault Refusal :=
  .next (s.reporting (fun s => s.doPerstDeassert))

/-- BRINGUP (R392): The module runs a deep or quick bring-up, tests, numbers cores and enters the held state. -/
def execBringup (f : Findings) (s : State) : Host.Outcome State Fault Refusal :=
  .next (s.reporting (fun s => s.doBringup f))

/-- HX_SYNC_EDGE (R481): A rising edge on HX_SYNC serves as time input or trace trigger per the set-up in force. -/
def execHxSyncEdge (latched : Bool) (sinceLastUs : Nat) (s : State) : Host.Outcome State Fault Refusal :=
  .next (s.whenOn (fun s => s.doSyncEdge latched sinceLastUs))

/-- CLASS_STRAP_CHANGE (R420): A change on HX_CLASS while out of reset raises E_CLASS_MISMATCH once. -/
def execClassStrapChange (straps : Nat) (s : State) : Host.Outcome State Fault Refusal :=
  .next (s.reporting (fun s => s.doStrapChange straps))

/-- INPUT_VOLTAGE_EXCURSION (R416): The 48 V input leaves its range, holding dies at 0.75 GHz or causing a regulator fault. -/
def execInputVoltageExcursion (deciVolt : Nat) (durationUs : Nat) (s : State) : Host.Outcome State Fault Refusal :=
  .next (s.reporting (fun s => s.onRails (fun s => s.doInputExcursion deciVolt durationUs)))

/-- REGULATOR_FAULT (R431): A regulator fault shuts the module down with HX_ALERT# asserted. -/
def execRegulatorFault (s : State) : Host.Outcome State Fault Refusal :=
  .next (s.reporting (fun s => s.onRails (fun s => s.doRegulatorFault)))

/-- THERMAL_SAMPLE (R429): The module reads its temperatures every 100 µs and starts throttling at 95 °C. -/
def execThermalSample (rs : List Reading) (s : State) : Host.Outcome State Fault Refusal :=
  .next (s.reporting (fun s => s.onRails (fun s => s.doThermalSample rs)))

/-- THROTTLE_STEP (R429): Each further 1 ms at or above 95 °C lowers a die's ARITH or issue cap one step. -/
def execThrottleStep (d : Nat) (s : State) : Host.Outcome State Fault Refusal :=
  .next (s.onRails (fun s => s.doThrottleStep d))

/-- THROTTLE_RESTORE (R429): After 100 ms below 90 °C a die's settings rise one step per 100 ms. -/
def execThrottleRestore (d : Nat) (s : State) : Host.Outcome State Fault Refusal :=
  .next (s.onRails (fun s => s.doThrottleRestore d))

/-- POWER_SAMPLE (R423): The input stage measures power every 10 µs and the limiter acts on the 1 ms average. -/
def execPowerSample (watt : Nat) (deciVolt : Nat) (s : State) : Host.Outcome State Fault Refusal :=
  .next (s.reporting (fun s => s.onRails (fun s => s.doPowerSample watt deciVolt)))

/-- POWER_LIMIT_STEP (R423): The power limiter lowers or restores the issue cap or ARITH by one step on its timers. -/
def execPowerLimitStep (s : State) : Host.Outcome State Fault Refusal :=
  .next (s.onRails (fun s => s.doPowerLimitStep))

/-- ISSUE_LEVEL_UPDATE (R425): Every 250 ns a core's issue level rises or falls one step. -/
def execIssueLevelUpdate (c : Nat) (s : State) : Host.Outcome State Fault Refusal :=
  .next (s.whenOn (fun s => s.doIssueLevel c))

/-- RAMP_ADMISSION (R426): Each 125 ns slot admits up to 16 ramp starts per die. -/
def execRampAdmission (d : Nat) (s : State) : Host.Outcome State Fault Refusal :=
  .next (s.whenOn (fun s => s.doRampAdmission d))

/-- DROOP (R427): A rail droop beyond 45 mV stops array issue on the die within 20 ns. -/
def execDroop (d : Nat) (s : State) : Host.Outcome State Fault Refusal :=
  .next (s.whenOn (fun s => s.doDroop d))

/-- DROOP_RESUME (R427): After 64 ARITH cycles of droop stop the die resumes at level 4 at most. -/
def execDroopResume (d : Nat) (s : State) : Host.Outcome State Fault Refusal :=
  .next (s.whenOn (fun s => s.doDroopResume d))

/-- REFCLK_LOCK_LOSS (R434): The root PLL loses lock for 1 µs and the module stops every engine and holds outputs. -/
def execRefclkLockLoss (s : State) : Host.Outcome State Fault Refusal :=
  .next (s.reporting (fun s => s.doLockLoss))

/-- ROOT_PLL_LOCK_REGAINED (R434): The root PLL regains lock after a loss and the module raises E_CLOCK_LOST in the PF event ring. -/
def execRootPllLockRegained (s : State) : Host.Outcome State Fault Refusal :=
  .next (s.reporting (fun s => s.doLockRegained))

/-- COMPUTE_RESET_DONE (R411): A compute reset ends within 1 s; the partition's ports leave QUIESCENT, the reset status bit clears and kept jobs may run. -/
def execComputeResetDone (p : Nat) (s : State) : Host.Outcome State Fault Refusal :=
  .next (s.reporting (fun s => s.whenOn (fun s => s.doComputeResetDone p)))

/-- PART_RESET_DONE (R411): A partition reset ends within 25 s after core test, renumbering and port requalification, and the partition leaves PART_RESET. -/
def execPartResetDone (p : Nat) (f : Findings) (s : State) : Host.Outcome State Fault Refusal :=
  .next (s.reporting (fun s => s.whenOn (fun s => s.doPartResetDone p f)))

/-- CORE_VOLTAGE_RAISED (R433): A die's regulator finishes raising the core voltage, and the pending ARITH rise takes effect on one clock edge. -/
def execCoreVoltageRaised (d : Nat) (s : State) : Host.Outcome State Fault Refusal :=
  .next (s.whenOn (fun s => s.doVoltageRaised d))

/-- PWR_EN_LOW_TIME_ELAPSED (R480): The 1 s minimum low time of HX_PWR_EN passes while the pin is already high again, and the deferred power-up proceeds. -/
def execPwrEnLowTimeElapsed (s : State) : Host.Outcome State Fault Refusal :=
  .next (s.reporting (fun s => s.doLowTimeElapsed))

end Sys2Proof.Machine
end

