-- ==== Sys2Proof/Machine/ExecStreams.lean ====
section
/-! DEFINITION. What each command of the sequencer and the record engines does to the block (chapters 03 to 07). -/

namespace Sys2Proof.Machine

/-- RECORD_FETCH (R193): The sequencer fetches a 2 KiB burst of stream records through the instruction and constant cache after a miss. -/
def execRecordFetch (l : Nat) (flt : MemFault) (s : State) : Host.Outcome State Fault Refusal :=
  .next (s.engine (fun s => s.doFetch l flt))

/-- RECORD_DISPATCH (R196): The sequencer decodes one record and dispatches it to its engine queue once the queue has room and the run-ahead limit allows. -/
def execRecordDispatch (l : Nat) (parity : Nat) (s : State) : Host.Outcome State Fault Refusal :=
  .next (s.engine (fun s => s.doDispatch l parity))

/-- RECORD_COMPLETE (R198): A record reaches its signal and completion point, adds its token signal, writes its completion and adds its ledger to the ledger table. -/
def execRecordComplete (l : Nat) (q : Nat) (n : Nat) (s : State) : Host.Outcome State Fault Refusal :=
  .next (s.engine (fun s => s.doComplete l q n))

/-- TOKEN_TIMEOUT (R202): A wait that stays unsatisfied at its queue head beyond TOKEN_LIMIT halts the stream with E_TOKEN_TIMEOUT. -/
def execTokenTimeout (l : Nat) (q : Nat) (s : State) : Host.Outcome State Fault Refusal :=
  .next (s.engine (fun s => s.doTokenTimeout l q))

/-- PASS (R105): An array runs a cumulus pass of rank updates into a bank, optionally folding it into a walk-store slot. -/
def execPass (l : Nat) (a : Nat) (s : State) : Host.Outcome State Fault Refusal :=
  .next (s.engine (fun s => s.doPass l a))

/-- FRONT (R111): An array issues a front that drains, preloads and/or swaps a bank as it ripples through the row-groups. -/
def execFront (l : Nat) (a : Nat) (s : State) : Host.Outcome State Fault Refusal :=
  .next (s.engine (fun s => s.doFront l a))

/-- PRELOAD_STAGING (R116): A W128 preload tile is staged into the array's preload staging buffer once the front is next and the buffer is free. -/
def execPreloadStaging (l : Nat) (a : Nat) (s : State) : Host.Outcome State Fault Refusal :=
  .next (s.engine (fun s => s.doStaging l a))

/-- SLOTDRAIN (R136): The drain unit reads a walk-store slot, writes one output tile and empties the slot. -/
def execSlotdrain (l : Nat) (a : Nat) (s : State) : Host.Outcome State Fault Refusal :=
  .next (s.engine (fun s => s.doSlotDrain l a))

/-- CIRRUS (R87): An array runs one cirrus tile: preload, one pass of integer code products and a drain with zero-point correction. -/
def execCirrus (l : Nat) (a : Nat) (s : State) : Host.Outcome State Fault Refusal :=
  .next (s.engine (fun s => s.doCirrus l a))

/-- CIRRUS_REPEAT (R89): At the end of the settling hold a saturated cirrus pass is repeated with a larger shift, or completes with E_MISFIT. -/
def execCirrusRepeat (l : Nat) (a : Nat) (s : State) : Host.Outcome State Fault Refusal :=
  .next (s.engine (fun s => s.doCirrusRepeat l a))

/-- LAUNCH (R152): A vector kernel record takes the lowest free threads and starts them with their arguments in v0. -/
def execLaunch (l : Nat) (s : State) : Host.Outcome State Fault Refusal :=
  .next (s.engine (fun s => s.doLaunch l))

/-- QUANT (R160): A quantiser record codes FP32 or BF16 windows into INT8 or INT4 codes with per-line scales and zero points. -/
def execQuant (l : Nat) (s : State) : Host.Outcome State Fault Refusal :=
  .next (s.engine (fun s => s.doQuant l))

/-- DMA (R228): A core DMA record runs a descriptor list on one channel of the core DMA. -/
def execDma (l : Nat) (s : State) : Host.Outcome State Fault Refusal :=
  .next (s.engine (fun s => s.doDma l))

/-- BDMA (R191): A bulk DMA record runs a descriptor list on a channel of a base die's bulk DMA. -/
def execBdma (l : Nat) (s : State) : Host.Outcome State Fault Refusal :=
  .next (s.engine (fun s => s.doBdma l))

/-- NOP (R182): A sync-queue record that does nothing but wait and signal. -/
def execNop (l : Nat) (s : State) : Host.Outcome State Fault Refusal :=
  .next (s.engine (fun s => s.doNop l))

/-- BARRIER (R210): A core arrives at a partition or fabric barrier once every earlier record has completed. -/
def execBarrier (l : Nat) (s : State) : Host.Outcome State Fault Refusal :=
  .next (s.engine (fun s => s.doBarrier l))

/-- BARRIER_RELEASE (R211): A partition barrier releases when every core has arrived, checking BAR_SEQ agreement. -/
def execBarrierRelease (p : Nat) (s : State) : Host.Outcome State Fault Refusal :=
  .next (s.engine (fun s => s.doBarrierRelease p))

/-- BARRIER_TIMEOUT (R213): A core that waits at a barrier longer than BAR_LIMIT halts with E_BARRIER_TIMEOUT. -/
def execBarrierTimeout (l : Nat) (s : State) : Host.Outcome State Fault Refusal :=
  .next (s.engine (fun s => s.doBarrierTimeout l))

/-- SIGNAL (R200): A record adds an increment to a token counter of another core of the partition or of a remote module. -/
def execSignal (l : Nat) (s : State) : Host.Outcome State Fault Refusal :=
  .next (s.engine (fun s => s.doSignal l))

/-- TOKSET (R203): A record sets a local token counter to a value. -/
def execTokset (l : Nat) (s : State) : Host.Outcome State Fault Refusal :=
  .next (s.engine (fun s => s.doTokset l))

/-- INVAL (R199): A record invalidates the core's instruction and constant cache. -/
def execInval (l : Nat) (s : State) : Host.Outcome State Fault Refusal :=
  .next (s.engine (fun s => s.doInval l))

/-- END (R216): The stream ends once every earlier record has completed and writes its stream result. -/
def execEndStream (l : Nat) (s : State) : Host.Outcome State Fault Refusal :=
  .next (s.engine (fun s => s.doEnd l))

/-- LOOP (R207): The sequencer latches a loop count and enters or skips the loop body. -/
def execLoop (l : Nat) (s : State) : Host.Outcome State Fault Refusal :=
  .next (s.engine (fun s => s.seqOp l 0x40 runLoop))

/-- ENDLOOP (R207): The sequencer closes a loop iteration and returns to the body or continues. -/
def execEndloop (l : Nat) (s : State) : Host.Outcome State Fault Refusal :=
  .next (s.engine (fun s => s.seqOp l 0x41 runEndLoop))

/-- BRANCH_MISFIT (R172): The sequencer waits for records naming a misfit flag, then runs or skips the wider variant. -/
def execBranchMisfit (l : Nat) (s : State) : Host.Outcome State Fault Refusal :=
  .next (s.engine (fun s => s.doBranch l))

/-- SETSV (R204): The sequencer sets a stream variable at decode. -/
def execSetsv (l : Nat) (s : State) : Host.Outcome State Fault Refusal :=
  .next (s.engine (fun s => s.seqOp l 0x43 runSetSv))

/-- ADDSV (R204): The sequencer adds a value to a stream variable at decode. -/
def execAddsv (l : Nat) (s : State) : Host.Outcome State Fault Refusal :=
  .next (s.engine (fun s => s.seqOp l 0x44 runAddSv))

/-- SETPAIR (R205): The sequencer sets the two core-store offsets of a buffer pair. -/
def execSetpair (l : Nat) (s : State) : Host.Outcome State Fault Refusal :=
  .next (s.engine (fun s => s.seqOp l 0x45 runSetPair))

/-- SWAP (R205): The sequencer exchanges the halves of a buffer pair at decode. -/
def execSwap (l : Nat) (s : State) : Host.Outcome State Fault Refusal :=
  .next (s.engine (fun s => s.seqOp l 0x46 runSwap))

/-- SETKEY (R206): The sequencer sets the stream key for stochastic rounding. -/
def execSetkey (l : Nat) (s : State) : Host.Outcome State Fault Refusal :=
  .next (s.engine (fun s => s.seqOp l 0x47 runSetKey))

end Sys2Proof.Machine
end

