-- ==== Sys2Proof/Machine/Dispatch.lean ====
section
/-! DEFINITION. One arm per command: the meaning that the row of the opcode table has. -/

namespace Sys2Proof.Machine

/-- The effect of a command on everything but the queue. -/
def exec (i : Instr) (s : State) : Host.Outcome State Fault Refusal :=
  match i with
  | .recordFetch l flt => Sys2Proof.Machine.execRecordFetch l flt s
  | .recordDispatch l parity => Sys2Proof.Machine.execRecordDispatch l parity s
  | .recordComplete l q n => Sys2Proof.Machine.execRecordComplete l q n s
  | .tokenTimeout l q => Sys2Proof.Machine.execTokenTimeout l q s
  | .pass l a => Sys2Proof.Machine.execPass l a s
  | .front l a => Sys2Proof.Machine.execFront l a s
  | .preloadStaging l a => Sys2Proof.Machine.execPreloadStaging l a s
  | .slotdrain l a => Sys2Proof.Machine.execSlotdrain l a s
  | .cirrus l a => Sys2Proof.Machine.execCirrus l a s
  | .cirrusRepeat l a => Sys2Proof.Machine.execCirrusRepeat l a s
  | .launch l => Sys2Proof.Machine.execLaunch l s
  | .quant l => Sys2Proof.Machine.execQuant l s
  | .dma l => Sys2Proof.Machine.execDma l s
  | .bdma l => Sys2Proof.Machine.execBdma l s
  | .nop l => Sys2Proof.Machine.execNop l s
  | .barrier l => Sys2Proof.Machine.execBarrier l s
  | .barrierRelease p => Sys2Proof.Machine.execBarrierRelease p s
  | .barrierTimeout l => Sys2Proof.Machine.execBarrierTimeout l s
  | .signal l => Sys2Proof.Machine.execSignal l s
  | .tokset l => Sys2Proof.Machine.execTokset l s
  | .inval l => Sys2Proof.Machine.execInval l s
  | .endStream l => Sys2Proof.Machine.execEndStream l s
  | .loop l => Sys2Proof.Machine.execLoop l s
  | .endloop l => Sys2Proof.Machine.execEndloop l s
  | .branchMisfit l => Sys2Proof.Machine.execBranchMisfit l s
  | .setsv l => Sys2Proof.Machine.execSetsv l s
  | .addsv l => Sys2Proof.Machine.execAddsv l s
  | .setpair l => Sys2Proof.Machine.execSetpair l s
  | .swap l => Sys2Proof.Machine.execSwap l s
  | .setkey l => Sys2Proof.Machine.execSetkey l s
  | .add l t => Sys2Proof.Machine.execAdd l t s
  | .sub l t => Sys2Proof.Machine.execSub l t s
  | .mul l t => Sys2Proof.Machine.execMul l t s
  | .fma l t => Sys2Proof.Machine.execFma l t s
  | .min l t => Sys2Proof.Machine.execMin l t s
  | .max l t => Sys2Proof.Machine.execMax l t s
  | .cmplt l t => Sys2Proof.Machine.execCmplt l t s
  | .cmpeq l t => Sys2Proof.Machine.execCmpeq l t s
  | .cvt l t => Sys2Proof.Machine.execCvt l t s
  | .sel l t => Sys2Proof.Machine.execSel l t s
  | .mov l t => Sys2Proof.Machine.execMov l t s
  | .movi l t => Sys2Proof.Machine.execMovi l t s
  | .exp l t => Sys2Proof.Machine.execExp l t s
  | .exp2 l t => Sys2Proof.Machine.execExp2 l t s
  | .log l t => Sys2Proof.Machine.execLog l t s
  | .log2 l t => Sys2Proof.Machine.execLog2 l t s
  | .rsqrt l t => Sys2Proof.Machine.execRsqrt l t s
  | .wadd l t => Sys2Proof.Machine.execWadd l t s
  | .wsub l t => Sys2Proof.Machine.execWsub l t s
  | .wneg l t => Sys2Proof.Machine.execWneg l t s
  | .wfinish l t => Sys2Proof.Machine.execWfinish l t s
  | .wfinishb l t => Sys2Proof.Machine.execWfinishb l t s
  | .load l t => Sys2Proof.Machine.execLoad l t s
  | .store l t => Sys2Proof.Machine.execStore l t s
  | .gather l t => Sys2Proof.Machine.execGather l t s
  | .scatter l t => Sys2Proof.Machine.execScatter l t s
  | .scatterAdd l t => Sys2Proof.Machine.execScatterAdd l t s
  | .fence l t => Sys2Proof.Machine.execFence l t s
  | .pack l t => Sys2Proof.Machine.execPack l t s
  | .unpack l t => Sys2Proof.Machine.execUnpack l t s
  | .range l t => Sys2Proof.Machine.execRange l t s
  | .mvBcast l t => Sys2Proof.Machine.execMvBcast l t s
  | .mvReduce l t => Sys2Proof.Machine.execMvReduce l t s
  | .br l t => Sys2Proof.Machine.execBr l t s
  | .brz l t => Sys2Proof.Machine.execBrz l t s
  | .tbar l t => Sys2Proof.Machine.execTbar l t s
  | .kernelEnd l t => Sys2Proof.Machine.execKernelEnd l t s
  | .descriptorFetch ch => Sys2Proof.Machine.execDescriptorFetch ch s
  | .descriptorStart ch => Sys2Proof.Machine.execDescriptorStart ch s
  | .crcFinish ch => Sys2Proof.Machine.execCrcFinish ch s
  | .dmaBusError ch => Sys2Proof.Machine.execDmaBusError ch s
  | .deadlineMiss ch => Sys2Proof.Machine.execDeadlineMiss ch s
  | .streamEndDeadlineMiss l => Sys2Proof.Machine.execStreamEndDeadlineMiss l s
  | .staleCheck l q => Sys2Proof.Machine.execStaleCheck l q s
  | .logDrainWrite c region => Sys2Proof.Machine.execLogDrainWrite c region s
  | .logPadTimeout c region => Sys2Proof.Machine.execLogPadTimeout c region s
  | .barometerSample c => Sys2Proof.Machine.execBarometerSample c s
  | .globalBarometerSample => Sys2Proof.Machine.execGlobalBarometerSample s
  | .tagBreak l q => Sys2Proof.Machine.execTagBreak l q s
  | .readRequest ch flt => Sys2Proof.Machine.execReadRequest ch flt s
  | .writeRequest ch flt => Sys2Proof.Machine.execWriteRequest ch flt s
  | .atomicOperation p addr op flt => Sys2Proof.Machine.execAtomicOperation p addr op flt s
  | .requestWatchdog ch => Sys2Proof.Machine.execRequestWatchdog ch s
  | .refresh stack pc channel bank => Sys2Proof.Machine.execRefresh stack pc channel bank s
  | .patrolScrub stack flt => Sys2Proof.Machine.execPatrolScrub stack flt s
  | .permanentFault f => Sys2Proof.Machine.execPermanentFault f s
  | .rowRepair stack => Sys2Proof.Machine.execRowRepair stack s
  | .channelRetire p => Sys2Proof.Machine.execChannelRetire p s
  | .spareSubstitution p passed => Sys2Proof.Machine.execSpareSubstitution p passed s
  | .jobStart p entry copies => Sys2Proof.Machine.execJobStart p entry copies s
  | .noOperationEntry p ring entry => Sys2Proof.Machine.execNoOperationEntry p ring entry s
  | .hostCopyIn p data => Sys2Proof.Machine.execHostCopyIn p data s
  | .hostCopyOut p ok => Sys2Proof.Machine.execHostCopyOut p ok s
  | .jobComplete p => Sys2Proof.Machine.execJobComplete p s
  | .hostCompletionTimeout r => Sys2Proof.Machine.execHostCompletionTimeout r s
  | .eventIrqInterval fn => Sys2Proof.Machine.execEventIrqInterval fn s
  | .sqTail p ring value => Sys2Proof.Machine.execSqTail p ring value s
  | .cqHead p ring value => Sys2Proof.Machine.execCqHead p ring value s
  | .evtHead fn value => Sys2Proof.Machine.execEvtHead fn value s
  | .ringEnable fn group value => Sys2Proof.Machine.execRingEnable fn group value s
  | .ringDisable fn group value => Sys2Proof.Machine.execRingDisable fn group value s
  | .resume p ring => Sys2Proof.Machine.execResume p ring s
  | .setupCommit => Sys2Proof.Machine.execSetupCommit s
  | .setupValidation => Sys2Proof.Machine.execSetupValidation s
  | .bar2Read fn off len flt => Sys2Proof.Machine.execBar2Read fn off len flt s
  | .bar2Write fn off data => Sys2Proof.Machine.execBar2Write fn off data s
  | .bar2ReadAbort fn off => Sys2Proof.Machine.execBar2ReadAbort fn off s
  | .registerWrite fn off size value => Sys2Proof.Machine.execRegisterWrite fn off size value s
  | .ftimeLoRead => Sys2Proof.Machine.execFtimeLoRead s
  | .counterLoRead k => Sys2Proof.Machine.execCounterLoRead k s
  | .functionLevelResetVf p => Sys2Proof.Machine.execFunctionLevelResetVf p s
  | .functionLevelResetPf => Sys2Proof.Machine.execFunctionLevelResetPf s
  | .clear ch => Sys2Proof.Machine.execClear ch s
  | .apply b => Sys2Proof.Machine.execApply b s
  | .flush b => Sys2Proof.Machine.execFlush b s
  | .go stack channel => Sys2Proof.Machine.execGo stack channel s
  | .force stack channel => Sys2Proof.Machine.execForce stack channel s
  | .disable port => Sys2Proof.Machine.execDisable port s
  | .retrain port => Sys2Proof.Machine.execRetrain port s
  | .commit p => Sys2Proof.Machine.execCommit p s
  | .routeCommit p => Sys2Proof.Machine.execRouteCommit p s
  | .arm epochHi => Sys2Proof.Machine.execArm epochHi s
  | .start p => Sys2Proof.Machine.execStart p s
  | .exchCtrlLeave p => Sys2Proof.Machine.execExchCtrlLeave p s
  | .exchCtrlJoin p => Sys2Proof.Machine.execExchCtrlJoin p s
  | .fullReset => Sys2Proof.Machine.execFullReset s
  | .computeReset p => Sys2Proof.Machine.execComputeReset p s
  | .partReset p => Sys2Proof.Machine.execPartReset p s
  | .lower code => Sys2Proof.Machine.execLower code s
  | .dbgCountersClear c => Sys2Proof.Machine.execDbgCountersClear c s
  | .globalCountersClear => Sys2Proof.Machine.execGlobalCountersClear s
  | .logEnableWrite c sample value => Sys2Proof.Machine.execLogEnableWrite c sample value s
  | .logResplit c => Sys2Proof.Machine.execLogResplit c s
  | .coreResume c => Sys2Proof.Machine.execCoreResume c s
  | .partitionResume p => Sys2Proof.Machine.execPartitionResume p s
  | .partitionFreeze p => Sys2Proof.Machine.execPartitionFreeze p s
  | .hxPwrEnRise afterOneSecond => Sys2Proof.Machine.execHxPwrEnRise afterOneSecond s
  | .hxPwrEnFall => Sys2Proof.Machine.execHxPwrEnFall s
  | .perstAssert => Sys2Proof.Machine.execPerstAssert s
  | .perstDeassert => Sys2Proof.Machine.execPerstDeassert s
  | .bringup f => Sys2Proof.Machine.execBringup f s
  | .hxSyncEdge latched sinceLastUs => Sys2Proof.Machine.execHxSyncEdge latched sinceLastUs s
  | .classStrapChange straps => Sys2Proof.Machine.execClassStrapChange straps s
  | .inputVoltageExcursion deciVolt durationUs => Sys2Proof.Machine.execInputVoltageExcursion deciVolt durationUs s
  | .regulatorFault => Sys2Proof.Machine.execRegulatorFault s
  | .thermalSample rs => Sys2Proof.Machine.execThermalSample rs s
  | .throttleStep d => Sys2Proof.Machine.execThrottleStep d s
  | .throttleRestore d => Sys2Proof.Machine.execThrottleRestore d s
  | .powerSample watt deciVolt => Sys2Proof.Machine.execPowerSample watt deciVolt s
  | .powerLimitStep => Sys2Proof.Machine.execPowerLimitStep s
  | .issueLevelUpdate c => Sys2Proof.Machine.execIssueLevelUpdate c s
  | .rampAdmission d => Sys2Proof.Machine.execRampAdmission d s
  | .droop d => Sys2Proof.Machine.execDroop d s
  | .droopResume d => Sys2Proof.Machine.execDroopResume d s
  | .refclkLockLoss => Sys2Proof.Machine.execRefclkLockLoss s
  | .hello port raw => Sys2Proof.Machine.execHello port raw s
  | .helloSend port => Sys2Proof.Machine.execHelloSend port s
  | .helloTimeout port => Sys2Proof.Machine.execHelloTimeout port s
  | .lossOfSignal port => Sys2Proof.Machine.execLossOfSignal port s
  | .cableInsert port laneErrs => Sys2Proof.Machine.execCableInsert port laneErrs s
  | .packetFlit port raw lane => Sys2Proof.Machine.execPacketFlit port raw lane s
  | .replayRequest port raw => Sys2Proof.Machine.execReplayRequest port raw s
  | .replayRequestRepeat port => Sys2Proof.Machine.execReplayRequestRepeat port s
  | .timestamp port t1 t2 t3 t4 => Sys2Proof.Machine.execTimestamp port t1 t2 t3 t4 s
  | .timestampSend port => Sys2Proof.Machine.execTimestampSend port s
  | .fabricStall port tc vl => Sys2Proof.Machine.execFabricStall port tc vl s
  | .tc0Inject p => Sys2Proof.Machine.execTc0Inject p s
  | .withdrawalExpiry port dest => Sys2Proof.Machine.execWithdrawalExpiry port dest s
  | .write p => Sys2Proof.Machine.execWrite p s
  | .read p flt => Sys2Proof.Machine.execRead p flt s
  | .readResp p => Sys2Proof.Machine.execReadResp p s
  | .writeResp p => Sys2Proof.Machine.execWriteResp p s
  | .errorResp p => Sys2Proof.Machine.execErrorResp p s
  | .remoteSignal p => Sys2Proof.Machine.execRemoteSignal p s
  | .barArrive p => Sys2Proof.Machine.execBarArrive p s
  | .barRelease p => Sys2Proof.Machine.execBarRelease p s
  | .mgmtWrite p => Sys2Proof.Machine.execMgmtWrite p s
  | .mgmtRead p => Sys2Proof.Machine.execMgmtRead p s
  | .mgmtResp p => Sys2Proof.Machine.execMgmtResp p s
  | .unreachable port => Sys2Proof.Machine.execUnreachable port s
  | .chain p => Sys2Proof.Machine.execChain p s
  | .publish p => Sys2Proof.Machine.execPublish p s
  | .pubDone p => Sys2Proof.Machine.execPubDone p s
  | .pubDoneRepeat p => Sys2Proof.Machine.execPubDoneRepeat p s
  | .commitRepeat p => Sys2Proof.Machine.execCommitRepeat p s
  | .commitQuery p => Sys2Proof.Machine.execCommitQuery p s
  | .commitQuerySend p => Sys2Proof.Machine.execCommitQuerySend p s
  | .suspect p => Sys2Proof.Machine.execSuspect p s
  | .leave p => Sys2Proof.Machine.execLeave p s
  | .join p => Sys2Proof.Machine.execJoin p s
  | .joinReady p => Sys2Proof.Machine.execJoinReady p s
  | .hopTimeout p txn => Sys2Proof.Machine.execHopTimeout p txn s
  | .contributionDeadline p => Sys2Proof.Machine.execContributionDeadline p s
  | .takeover p shard => Sys2Proof.Machine.execTakeover p shard s
  | .shardLost p shard => Sys2Proof.Machine.execShardLost p shard s
  | .commitTimeout p => Sys2Proof.Machine.execCommitTimeout p s
  | .shardFetch p shard bytes => Sys2Proof.Machine.execShardFetch p shard bytes s
  | .stateCopy p shard => Sys2Proof.Machine.execStateCopy p shard s
  | .mmcRestart newSlotOk => Sys2Proof.Machine.execMmcRestart newSlotOk s
  | .coreFwActivation p => Sys2Proof.Machine.execCoreFwActivation p s
  | .firmwareBroadcast image => Sys2Proof.Machine.execFirmwareBroadcast image s
  | .setEndpointId b eid => Sys2Proof.Machine.execSetEndpointId b eid s
  | .mctpUnsupportedType b ty => Sys2Proof.Machine.execMctpUnsupportedType b ty s
  | .getTid b => Sys2Proof.Machine.execGetTid b s
  | .setTid b tid => Sys2Proof.Machine.execSetTid b tid s
  | .getPldmVersion b ty => Sys2Proof.Machine.execGetPldmVersion b ty s
  | .getPldmTypes b => Sys2Proof.Machine.execGetPldmTypes b s
  | .getPldmCommands b ty => Sys2Proof.Machine.execGetPldmCommands b ty s
  | .getPdrRepositoryInfo b => Sys2Proof.Machine.execGetPdrRepositoryInfo b s
  | .getPdr b record => Sys2Proof.Machine.execGetPdr b record s
  | .getSensorReading b sensor => Sys2Proof.Machine.execGetSensorReading b sensor s
  | .getStateSensorReadings b sensor => Sys2Proof.Machine.execGetStateSensorReadings b sensor s
  | .setNumericSensorEnable b sensor op => Sys2Proof.Machine.execSetNumericSensorEnable b sensor op s
  | .setEventReceiver b eid => Sys2Proof.Machine.execSetEventReceiver b eid s
  | .queryDeviceIdentifiers b => Sys2Proof.Machine.execQueryDeviceIdentifiers b s
  | .getFirmwareParameters b => Sys2Proof.Machine.execGetFirmwareParameters b s
  | .requestUpdate b ncomp => Sys2Proof.Machine.execRequestUpdate b ncomp s
  | .passComponentTable b component => Sys2Proof.Machine.execPassComponentTable b component s
  | .updateComponent b component image => Sys2Proof.Machine.execUpdateComponent b component image s
  | .activateFirmware b => Sys2Proof.Machine.execActivateFirmware b s
  | .getStatus b => Sys2Proof.Machine.execGetStatus b s
  | .cancelUpdateComponent b => Sys2Proof.Machine.execCancelUpdateComponent b s
  | .cancelUpdate b => Sys2Proof.Machine.execCancelUpdate b s
  | .getVersion b => Sys2Proof.Machine.execGetVersion b s
  | .getCapabilities b => Sys2Proof.Machine.execGetCapabilities b s
  | .negotiateAlgorithms b offersLms => Sys2Proof.Machine.execNegotiateAlgorithms b offersLms s
  | .getDigests b => Sys2Proof.Machine.execGetDigests b s
  | .getCertificate b slot offset len => Sys2Proof.Machine.execGetCertificate b slot offset len s
  | .challenge b slot nonce => Sys2Proof.Machine.execChallenge b slot nonce s
  | .getMeasurements b index signed nonce => Sys2Proof.Machine.execGetMeasurements b index signed nonce s
  | .idleFlit port raw => Sys2Proof.Machine.execIdleFlit port raw s
  | .rootPllLockRegained => Sys2Proof.Machine.execRootPllLockRegained s
  | .computeResetDone p => Sys2Proof.Machine.execComputeResetDone p s
  | .partResetDone p f => Sys2Proof.Machine.execPartResetDone p f s
  | .rowRepairDone stack repaired => Sys2Proof.Machine.execRowRepairDone stack repaired s
  | .nimBusyEnd b => Sys2Proof.Machine.execNimBusyEnd b s
  | .portTrainingDone port laneErrs => Sys2Proof.Machine.execPortTrainingDone port laneErrs s
  | .coreVoltageRaised d => Sys2Proof.Machine.execCoreVoltageRaised d s
  | .mmcRestartDone => Sys2Proof.Machine.execMmcRestartDone s
  | .pwrEnLowTimeElapsed => Sys2Proof.Machine.execPwrEnLowTimeElapsed s
  | .unsupportedPldmCmd b ty cmd => Sys2Proof.Machine.execUnsupportedPldmCmd b ty cmd s
  | .routeTableRegisterWrite p off value => Sys2Proof.Machine.execRouteTableRegisterWrite p off value s

end Sys2Proof.Machine
end

