-- ==== Sys2Proof/Safety.lean ====
section
/-! DEFINITION. What a safe run is, and the terms in which the statements speak of states. -/

namespace Sys2Proof.Machine

/-- The part of a core that its engines and its sequencer work on; break logic's freeze is no part of it. -/
def Core.engines (k : Core) : Seq × List (List QEntry) × Arr × Arr × SMap Thread × List Chn × SMap Bool × Bool :=
  ({ k.seq with frozen := false }, k.queues, k.arr0, k.arr1, k.threads, k.chans, k.qseqs, k.slotCap)

/-- Where the log store keeps byte `i` after the last of region `r`. -/
def Core.logAt (k : Core) (r i : Nat) : Nat :=
  (k.dbg.split r).1 + ((k.dbg.region r).pos + (k.dbg.region r).len + i) % max 1 (k.dbg.split r).2

/-- A port but for what its traffic changes: queue, sequence and buffer of what it sends, credits, and the times of its notices. -/
def Port.link (q : Port) : Port :=
  { q with
      txSeq := 0, replay := [], credits := [], owed := [], egress := [], slot := 0, lastIn := [], qMax := 0, qOver := 0
      bucket := 0, bucketAt := 0, notices := [], replays := 0 }

end Sys2Proof.Machine

namespace Sys2Proof.Safety

open Sys2Proof.Machine

/-- A step that neither faults nor refuses. -/
def completes (s : State) : Prop := ∃ t, step s = .next t

/-- A run of `n` steps from `s` that ends in `t`. -/
def reaches : Nat → State → State → Prop
  | 0, s, t => s = t
  | n + 1, s, t => ∃ u, step s = .next u ∧ reaches n u t

/-- Every run from `s` can be continued. -/
def safe (s : State) : Prop := ∀ n t, reaches n s t → completes t

/-! ## Frames -/

/-- The module around its engines is as before: the queue of commands, the grade, the class, set-up, layout, core numbers, serial
number, base-die channels, ports, nodes, the time of the fabric and the management controller. -/
def sameAround (s t : State) : Prop :=
  t.pending = s.pending ∧ t.gradeS = s.gradeS ∧ t.ft = s.ft ∧ t.cls = s.cls ∧ t.layout = s.layout ∧ t.setup = s.setup ∧
    t.serial = s.serial ∧ t.bringing = s.bringing ∧ t.lmap = s.lmap ∧ t.bdies = s.bdies ∧ t.ports = s.ports ∧
    t.nodes = s.nodes ∧ t.time = s.time ∧ t.mmc = s.mmc

/-- The module around its engines is as before, the governor too. -/
def sameModule (s t : State) : Prop := sameAround s t ∧ t.gov = s.gov

/-- The engines, threads, queues and stream of every core are as before, but those of core `c`, which are those of `k`. -/
def onlyCore (s t : State) (c : Nat) (k : Core) : Prop :=
  ∀ d, (t.core d).engines = if d = c then k.engines else (s.core d).engines

/-- Nothing but cores, channels, memory and its controllers, partitions, host structures and what was sent has changed. -/
def sameBlock (s t : State) : Prop :=
  t.pending = s.pending ∧ t.gradeS = s.gradeS ∧ t.ft = s.ft ∧ t.cls = s.cls ∧ t.layout = s.layout ∧ t.setup = s.setup ∧
    t.serial = s.serial ∧ t.bringing = s.bringing ∧ t.lmap = s.lmap ∧ t.time = s.time ∧ t.gov = s.gov ∧ t.mmc = s.mmc

/-- Nothing but core `c` has changed, which now is `k`. -/
def coreIs (s t : State) (c : Nat) (k : Core) : Prop :=
  t = { s with cores := t.cores } ∧ ∀ x, t.core x = if x = c then k else s.core x

/-- Nothing but ports, nodes, event rings, counters, the fabric's time and what was sent has changed. -/
def fabricOnly (s t : State) : Prop :=
  t = { s with
    freeCtr := t.freeCtr, ports := t.ports, nodes := t.nodes, time := t.time, out := t.out, gdbg := t.gdbg
    hif := { s.hif with evts := t.hif.evts } }

/-- Nothing but port `n` has changed, which now is `q`. -/
def portIs (s t : State) (n : Nat) (q : Port) : Prop :=
  t = { s with ports := t.ports } ∧ ∀ m, t.port m = if m = n then q else s.port m

/-- One event has been posted and nothing else has changed. -/
def posted (s t : State) : Prop := t = { s with hif := { s.hif with evts := t.hif.evts }, out := t.out }

/-! ## Streams -/

/-- The record at place `i` of queue `q` of core `c`. -/
def entry (s : State) (c q i : Nat) : Option QEntry := ((s.core c).queue q)[i]?

/-- The record `e` at place `i` of queue `q` of logical core `l`, which the physical core `c` carries, may start now. -/
def starts (s : State) (l q c i : Nat) (e : QEntry) : Prop := s.held = false ∧ s.ready l q = some (c, i, e)

/-- The sequencer of logical core `l`, which the physical core `c` carries, has the well-formed record `r` of opcode `op` at hand and
may decode it now, and it is not the stream's last record (R183, R194, R196). -/
def decodes (s : State) (l op c : Nat) (r : Rec) : Prop :=
  s.held = false ∧ s.physOf l = some c ∧ (s.core c).seq.active = true ∧ s.traceStall c = false ∧
    (s.core c).current = some r ∧ r.opcode = op ∧ r.formOk = true ∧ r.tokensOk = true ∧ (s.core c).roomFor r = true ∧
    (s.core c).seq.pos + 1 < (s.core c).seq.len

/-- A core whose sequencer has gone on to position `next` and is otherwise `q`. -/
def sequenced (k : Core) (q : Seq) (next ft : Nat) : Core :=
  { k with seq := { q with pos := next, serial := q.serial + 1, retried := false, startFt := some (q.startFt.getD ft) } }

/-! ## Kernels -/

/-- Thread `n` of logical core `l` runs on the physical core `x.c`, and its next word `x.w`, of opcode `op`, can be fetched, which
leaves `u` (R155, R193, R222). -/
def fetches (s : State) (l n op : Nat) (u : State) (x : KCtx) : Prop :=
  s.held = false ∧ s.physOf l = some x.c ∧ x.p = s.partOfPhys x.c ∧ x.t = n ∧ ((s.core x.c).thread n).st = .running ∧
    x.key = (((s.core x.c).vecEntry ((s.core x.c).thread n).serial).map (fun e => e.2.key)).getD 0 ∧ x.w.op = op ∧
    ∃ bs, s.icacheRead x.c x.p ((s.core x.c).thread n).pc 8 = (u, .ok bs) ∧ x.w = KWord.ofNat (fromLe bs)

/-- From `s` to `t` one kernel instruction has left thread `n` of core `c` as `th` and added `led` to the ledger of its record; no
other thread, engine or stream of any core and nothing of the module around them has changed. -/
def ran (s t : State) (c n : Nat) (th : Thread) (led : Ledger) : Prop :=
  onlyCore s t c (((s.core c).setThread n th).addVecLedger ((s.core c).thread n).serial led) ∧ sameModule s t

/-- A thread that has gone on to its next word with its registers as given. -/
def advanced (th : Thread) (regs : SMap VReg) : Thread := { th with regs := regs, pc := th.pc.plus 8 }

/-! ## Power and resets -/

/-- The settings of the governor have taken effect on every die: a fall at once, a rise once the core voltage has been raised; nothing
else has changed. -/
def settled (s t : State) : Prop :=
  t = { s with gov := { s.gov with actual := t.gov.actual, raising := t.gov.raising, belowAt := t.gov.belowAt } } ∧
    ∀ d < 4, (d < s.gov.actual.length → t.arithStep d = max (s.arithStep d) (s.wantStep d)) ∧
      (d < s.gov.raising.length → t.gov.raising.getD d false = decide (s.wantStep d < s.arithStep d))

/-- The module has shut down for a cause, with the sensor group and reading that the flash keeps. -/
def tripped (s t : State) (cause group : Nat) (temp : Int) : Prop :=
  t = { s with
    chip := { s.chip with
      power := .tripped, pwrgd := false, thermtrip := cause == 3, regAlert := cause == 4, trip := some (cause, group, temp) } }

/-- A full reset: everything is as after power-up but the queue of commands, what has left the module, fuses, pins and the flash. -/
def fullyReset (s t : State) (cause : Nat) : Prop :=
  t = { State.reset with
    pending := s.pending, freeCtr := t.freeCtr, gradeS := s.gradeS, serial := s.serial, out := t.out, mmc := t.mmc, chip := t.chip } ∧
    s.out <+: t.out ∧ s.chip.bank <+: t.chip.bank ∧ t.chip.fuseCores = s.chip.fuseCores ∧ t.chip.fuseChans = s.chip.fuseChans ∧
    t.chip.fuseSlabs = s.chip.fuseSlabs ∧ t.chip.straps = s.chip.straps ∧ t.chip.lastCause = cause ∧ t.chip.result = 0 ∧
    t.chip.stepDone = 0 ∧ t.chip.good = [] ∧ t.chip.failing = [] ∧ t.mmc.fusedSvn = s.mmc.fusedSvn ∧ t.mmc.revoked = s.mmc.revoked ∧
    t.mmc.epoch = s.mmc.epoch ∧ t.mmc.leafNext = s.mmc.leafNext ∧ t.mmc.restarting = false ∧ t.mmc.update = 0

/-! ## The identity key -/

/-- The reserved block of leaves lies below the flash record, which is a whole number of blocks within the epoch, and the epoch is
one of the sixteen (R452, R453). -/
def leavesKept (s : State) : Prop :=
  s.mmc.leafAt ≤ s.mmc.leafEnd ∧ s.mmc.leafEnd ≤ s.mmc.leafNext ∧ s.mmc.leafNext ≤ 32768 ∧ s.mmc.leafNext % 256 = 0 ∧ s.mmc.epoch ≤ 15

/-- The leaf that the next signature would use, counted over the epochs. -/
def nextLeaf (s : State) : Nat := 32768 * s.mmc.epoch + if s.mmc.leafAt < s.mmc.leafEnd then s.mmc.leafAt else s.mmc.leafNext

/-! ## DMA channels -/

/-- The channel `ch` exists and its state is `x` (R225). -/
def channelIs (s : State) (ch : Chan) (x : Chn) : Prop :=
  match ch with
  | .core l n => ∃ c, s.physOf l = some c ∧ (s.core c).chans[n]? = some x
  | .bulk b n => (s.bdie b)[n]? = some x

end Sys2Proof.Safety
end

