-- ==== Sys2Proof/Certificates/Slice0/Obligations.lean ====
section
/-! DEFINITION. The statements about the model, for the provers. -/

open Sys2Proof Sys2Proof.Machine Sys2Proof.Safety

/-- SETSV, ADDSV, SETPAIR, SWAP and SETKEY take effect at decode. A SETSV, ADDSV, SETPAIR with two core-store offsets, SWAP or
SETKEY record that the sequencer may decode completes: it sets the stream variable to its value or to the sum with the named
variable, adds to it modulo 2^64, sets the halves of the pair, exchanges them, or sets the stream key, goes on by one record,
and changes no other engine, queue, thread or stream of any core and nothing of the module around them. (R183, R204, R205,
R206) -/
def Obligations.SequencerWrites : Prop :=
  ∀ (s : State) (l c : Nat) (r : Rec),
    let q := (s.core c).seq
    let i := bits (u8 r.main 16) 0 4
    let j := bits (u8 r.main 16) 0 3
    let went (i : Instr) (q1 : Seq) : Prop :=
      ∃ t, exec i s = .next t ∧ onlyCore s t c (sequenced (s.core c) q1 (q.pos + 1) s.ft) ∧ sameModule s t
    (decodes s l 0x43 c r → went (.setsv l) { q with sv := setAt q.sv i ((u64 r.main 24 +
      (if bit (u8 r.main 17) 7 then q.sv.getD (bits (u8 r.main 17) 0 4) 0 else 0)) % 2 ^ 64) }) ∧
    (decodes s l 0x44 c r → went (.addsv l) { q with sv := modAt q.sv i (fun v => (v + u64 r.main 24) % 2 ^ 64) }) ∧
    (decodes s l 0x45 c r → u32 r.main 20 < coreStoreBytes → u32 r.main 24 < coreStoreBytes →
      went (.setpair l) { q with pairs := setAt q.pairs j (u32 r.main 20, u32 r.main 24) }) ∧
    (decodes s l 0x46 c r → went (.swap l) { q with pairs := modAt q.pairs j (fun h => (h.2, h.1)) }) ∧
    (decodes s l 0x47 c r → went (.setkey l) { q with key := u64 r.main 24 })

/-- LOOP, ENDLOOP and BRANCH_MISFIT move the sequencer as their rules say. A LOOP record whose loop is well formed enters its
body with its latched count, or goes to the record after its ENDLOOP when the count is 0; the ENDLOOP of the innermost loop
goes back to the record after the LOOP while runs are left, and else closes the loop and goes on; a BRANCH_MISFIT whose flag
no queued record names goes on by one record when its flag is set, clearing the flag when asked, and past its LEN records when
the flag is clear. LOOP, ENDLOOP and a taken BRANCH_MISFIT change nothing else of the engines of any core nor of the module
around them. (R172, R183, R207, R208, R209) -/
def Obligations.LoopsAndBranches : Prop :=
  ∀ (s : State) (l c : Nat) (r : Rec),
    let q := (s.core c).seq
    let went (i : Instr) (q1 : Seq) (next : Nat) : Prop :=
      ∃ t, exec i s = .next t ∧ onlyCore s t c (sequenced (s.core c) q1 next s.ft) ∧ sameModule s t
    let target := q.pos + u32 r.main 24 - 1
    let count := if bit (u8 r.main 16) 0 then q.sv.getD (bits (u8 r.main 16) 4 4) 0 % 2 ^ 32 else u32 r.main 20
    let flag := bits (u8 r.main 16) 0 4
    let len := u8 r.main 17
    let recs := (List.range len).map (fun i => s.lookRec c (q.pos + 1 + i))
    (decodes s l 0x40 c r → q.loops.length < 4 → 2 ≤ u32 r.main 24 → target + 1 < q.len → u8 (s.lookRec c target) 0 = 0x41 →
      (count = 0 → went (.loop l) q (target + 1)) ∧
      (count ≠ 0 → went (.loop l) { q with loops := ⟨q.pos, target, count⟩ :: q.loops } (q.pos + 1))) ∧
    (∀ (f : LoopFrame) (fs : List LoopFrame), decodes s l 0x41 c r → q.loops = f :: fs → f.target = q.pos → f.start < q.pos →
      (1 < f.left → went (.endloop l) { q with loops := { f with left := f.left - 1 } :: fs } (f.start + 1)) ∧
      (f.left ≤ 1 → went (.endloop l) { q with loops := fs } (q.pos + 1))) ∧
    (decodes s l 0x42 c r → (s.core c).flagPending flag = false → len ≠ 0 → q.pos + 1 + len < q.len →
      rangeMatched (recs.map (u8 · 0)) (u8 (s.lookRec c (q.pos + 1 + len)) 0) = true →
      (q.misfit.getD flag false = true → went (.branchMisfit l)
        (if bit (u8 r.main 16) 7 then { q with misfit := setAt q.misfit flag false } else q) (q.pos + 1)) ∧
      (q.misfit.getD flag false = false → ∃ t, exec (.branchMisfit l) s = .next t ∧
        (t.core c).seq.pos = q.pos + 1 + len))

/-- NOP, TOKSET, INVAL and SIGNAL run on the sync queue. The record at the head of the sync queue that may start is done
afterwards, with success; a NOP does nothing more to any stream, a TOKSET has put its value into its counter after its own
wait consumed, an INVAL has emptied the core's instruction and constant cache, a SIGNAL to a core of its partition has added
its increment to the counter named, which holds at 65,535 at most, and a SIGNAL to another module has put one packet into the
node's control queue. (R182, R195, R198, R199, R200, R203) -/
def Obligations.SyncRecords : Prop :=
  ∀ (s : State) (l c i : Nat) (e : QEntry), starts s l 4 c i e →
    let done (t : State) : Prop := entry t c 4 i = some { e with phase := (Outcome.good {}).phase }
    (e.op = .nop → ∃ t, exec (.nop l) s = .next t ∧ done t ∧ sameModule s t ∧
      ∀ d, (t.core d).seq.tokens = if d = c then ((s.core c).consume e).seq.tokens else (s.core d).seq.tokens) ∧
    (∀ ctr v, e.op = .tokset ctr v → ∃ t, exec (.tokset l) s = .next t ∧ done t ∧ sameModule s t ∧
      (t.core c).seq.tokens = setAt ((s.core c).consume e).seq.tokens ctr v) ∧
    (e.op = .inval → ∃ t, exec (.inval l) s = .next t ∧ done t ∧ sameModule s t ∧ (t.core c).icache = []) ∧
    (∀ core ctr inc module d, e.op = .signal core ctr inc module false → (s.coresOf (s.partOfPhys c)).lookup core = some d →
      d ≠ c → (s.part (s.partOfPhys c)).hold = false → (s.core d).seq.tokens.getD ctr 0 + inc ≤ 65535 →
      ∃ t, exec (.signal l) s = .next t ∧ done t ∧
        (t.core d).seq.tokens = setAt (s.core d).seq.tokens ctr ((s.core d).seq.tokens.getD ctr 0 + inc)) ∧
    (∀ core ctr inc module, e.op = .signal core ctr inc module true → ∃ t k, exec (.signal l) s = .next t ∧ done t ∧
      (t.node (s.partOfPhys c)).tc0 = (s.node (s.partOfPhys c)).tc0 ++ [k] ∧ k.kind = 0x10 ∧ k.dest = module ∧
      k.key = core + 512 * ctr + 65536 * inc)

/-- PASS, FRONT, SLOTDRAIN, CIRRUS and PRELOAD_STAGING run the record at the head of an array's queue. A record at the head of
an array's queue that may start, on a core whose arrays may issue, runs: a PASS is done with success and has added its
products to the named bank, or folded the bank with its products into the slot and emptied the bank; a FRONT whose drain finds
a free entry and whose W128 tile is staged has exchanged the bank names when asked, freed the staging buffer and is done; a
SLOTDRAIN with a free drain-buffer entry has left its slot empty and is done; a CIRRUS record has run its first pass and waits
no more; a front's preload tile that can be read is staged. None of them changes the module around the engines. (R75, R87,
R105, R111, R112, R116, R131, R136) -/
def Obligations.ArrayRecords : Prop :=
  ∀ (s : State) (l a c i : Nat) (e : QEntry), starts s l a c i e →
    let x := (s.core c).arr a
    let done (t : State) : Prop := ∃ (st : Nat) (led : Ledger) (det sh : Nat), entry t c a i = some { e with phase := .done st led det sh }
    (∀ om on k rows cols bank fold slot, e.op = .pass om on k rows cols bank fold slot → s.mayIssue c = true →
      (fold = true → foldsActive ((s.core c).queue a) < 8) →
      let ms := om.values (s.core c).source true rows k
      let ns := on.values (s.core c).source false cols k
      let sum := passTile (x.bank bank).tile ms ns
      ∃ t, exec (.pass l a) s = .next t ∧ sameAround s t ∧
        entry t c a i = some { e with phase := .done Code.ok ((specialCount ms).add (specialCount ns)) 0 0 } ∧
        (t.core c).arr a = if fold then (x.setBank bank { x.bank bank with tile := [] }).setSlot slot (foldTile (x.slot slot) sum)
          else x.setBank bank { x.bank bank with tile := sum }) ∧
    (∀ d bank swap pre rows cols tileNo addr axis, e.op = .front d bank swap pre rows cols tileNo addr axis → s.mayIssue c = true →
      (d.isSome = true → drainsActive ((s.core c).queue a) < 2) → (pre = 2 → x.staged.isSome = true) →
      ∃ t, exec (.front l a) s = .next t ∧ done t ∧ sameAround s t ∧ ((t.core c).arr a).staged = none ∧
        ((t.core c).arr a).map = (x.map ^^ swap) ∧ ((t.core c).arr a).slots = x.slots) ∧
    (∀ d slot rows cols tileNo bias, e.op = .slotdrain d slot rows cols tileNo bias → drainsActive ((s.core c).queue a) < 2 →
      ∃ t, exec (.slotdrain l a) s = .next t ∧ done t ∧ sameModule s t ∧ (t.core c).arr a = x.setSlot slot []) ∧
    (∀ om on k rows cols bank d bias repeats flag tileNo ol, e.op = .cirrus om on k rows cols bank d bias repeats flag tileNo ol →
      s.mayIssue c = true → ∃ t ph, exec (.cirrus l a) s = .next t ∧ entry t c a i = some { e with phase := ph } ∧ ph ≠ .waiting ∧
        sameAround s t) ∧
    (∀ d bank swap rows cols tileNo addr axis u bs, e.op = .front d bank swap 2 rows cols tileNo (some addr) axis → x.staged = none →
      s.locRead (s.partOfPhys c) addr 32768 = (u, .ok bs) →
      ∃ t, exec (.preloadStaging l a) s = .next t ∧ sameModule s t ∧ (t.core c).arr a = { x with staged := some (tileOfW128 bs).1 } ∧
        entry t c a i = some { e with led := (tileOfW128 bs).2 })

/-- LAUNCH, QUANT, DMA, BDMA and CIRRUS_REPEAT run the record of their queue. A kernel record at the head of the vector queue
that may start and finds enough free threads runs on the lowest of them; a quantiser record that finds a free thread is done
with an outcome; a core or bulk DMA record whose channel exists, is free and not halted gives its channel a run of its
descriptor list for that record and stays running; the running cirrus record of an array whose core may issue runs again and
does not go back to waiting. (R89, R152, R160, R190, R191, R195, R225, R237) -/
def Obligations.VectorAndDmaRecords : Prop :=
  ∀ (s : State) (l c i : Nat) (e : QEntry),
    (∀ loc th args, starts s l 2 c i e → e.op = .launch loc th args → th ≤ (s.core c).freeThreads.length →
      ∃ t, exec (.launch l) s = .next t ∧ sameModule s t ∧ entry t c 2 i = some { e with phase := .running 0 } ∧
        (t.core c).threads = ((s.core c).launch e loc th args).threads) ∧
    (∀ q, starts s l 2 c i e → e.op = .quant q → (s.core c).freeThreads ≠ [] →
      ∃ t, exec (.quant l) s = .next t ∧ sameModule s t ∧ ∃ st led det sh,
        entry t c 2 i = some { e with phase := .done st led det sh }) ∧
    (∀ n count list sa da sv pairs, starts s l 3 c i e → e.op = .dma n count list sa da sv pairs →
      n < (s.core c).chans.length → ((s.core c).chans.getD n .reset).run = none → ((s.core c).chans.getD n .reset).redo = none →
      ((s.core c).chans.getD n .reset).latch = none →
      ∃ t, exec (.dma l) s = .next t ∧ sameModule s t ∧ entry t c 3 i = some { e with phase := .running 0 } ∧
        ((t.core c).chans.getD n .reset).run = some (newRun c e 0xFF count list sa da sv pairs)) ∧
    (∀ b n port count list sa da sv pairs, starts s l 3 c i e → e.op = .bdma b n port count list sa da sv pairs →
      n < (s.bdie b).length → ((s.bdie b).getD n .reset).run = none → ((s.bdie b).getD n .reset).redo = none →
      ((s.bdie b).getD n .reset).latch = none →
      ∃ t, exec (.bdma l) s = .next t ∧ entry t c 3 i = some { e with phase := .running 0 } ∧ t.mmc = s.mmc ∧ t.gov = s.gov ∧
        ((t.bdie b).getD n .reset).run = some (newRun c e port count list sa da sv pairs)) ∧
    (∀ a sh om on k rows cols bank d bias repeats flag tileNo ol, s.held = false → s.physOf l = some c → s.mayIssue c = true →
      findRunning 0 ((s.core c).queue a) = some (i, e, sh) → e.op = .cirrus om on k rows cols bank d bias repeats flag tileNo ol →
      entry s c a i = some e →
      ∃ t ph, exec (.cirrusRepeat l a) s = .next t ∧ sameAround s t ∧ ph ≠ .waiting ∧ entry t c a i = some { e with phase := ph })

/-- BARRIER, BARRIER_RELEASE, BARRIER_TIMEOUT, TOKEN_TIMEOUT and END. A barrier at the head of the sync queue whose earlier
records have all completed, in a partition whose barrier logic has not failed, makes its core arrive with its BAR_SEQ. When
every stream of a partition without exchange waits at a partition barrier with one BAR_SEQ, the release leaves none of them
arrived. A core that has waited longer than BAR_LIMIT halts with E_BARRIER_TIMEOUT, and a record that has waited on its tokens
longer than TOKEN_LIMIT halts its stream with E_TOKEN_TIMEOUT, naming the counter, its value and what the record waited for.
An END whose earlier records have all completed ends its stream with STATUS 0 and leaves the queues. (R202, R210, R211, R213,
R216) -/
def Obligations.BarriersAndTimers : Prop :=
  ∀ (s : State) (l c : Nat), s.held = false → s.physOf l = some c →
    let p := s.partOfPhys c
    (∀ i e seq sc, starts s l 4 c i e → e.op = .barrier seq sc → (s.core c).earlierDone e.serial = true →
      ((s.job p).map (·.failed)).getD false = false →
      ∃ t, exec (.barrier l) s = .next t ∧ sameModule s t ∧ entry t c 4 i = some { e with phase := .running 0 } ∧
        (t.core c).seq.arrived = some seq ∧ (t.core c).seq.arrivedAt = s.ft) ∧
    (∀ q, s.allArrived p = true → (s.exch p).held = false → (s.exch p).tbl = none → (s.part p).fabWait = false →
      (∀ a ∈ s.arrivals p, a = (q, 0)) →
      ∃ t, exec (.barrierRelease p) s = .next t ∧ sameModule s t ∧ ∀ d ∈ s.streamCores p, (t.core d).seq.arrived = none) ∧
    (∀ j seq e es, s.job p = some j → (s.core c).seq.running = true → (s.core c).seq.failure = none →
      (s.core c).seq.arrived = some seq → (s.core c).queue 4 = e :: es → s.anyFrozen p = false → (s.exch p).held = false →
      (s.core c).seq.arrivedAt + j.barNs < s.ft →
      ∃ t, exec (.barrierTimeout l) s = .next t ∧ sameModule s t ∧ (t.core c).seq.halted = true ∧
        (t.core c).seq.failure = some (s.failureOf e 0x0505 0)) ∧
    (∀ q j lim e, s.job p = some j → j.tokenNs = some lim → (s.core c).seq.running = true → (s.core c).seq.failure = none →
      (s.core c).headWait q = some e → s.anyFrozen p = false → e.headAt.getD s.ft + lim < s.ft →
      ∃ t, exec (.tokenTimeout l q) s = .next t ∧ sameModule s t ∧ (t.core c).seq.halted = true ∧
        (t.core c).seq.failure = some (s.failureOf e 0x0501
          (e.waitCtr + 2 ^ 16 * (s.core c).seq.tokens.getD e.waitCtr 0 + 2 ^ 32 * e.waitCnt))) ∧
    (∀ i e, starts s l 4 c i e → e.op = .endStream → (s.core c).earlierDone e.serial = true →
      ∃ t, exec (.endStream l) s = .next t ∧ sameModule s t ∧ (t.core c).seq.running = false ∧ (t.core c).seq.error = 0 ∧
        ∀ q, ∀ x ∈ (t.core c).queue q, x.serial ≠ e.serial)

/-- RECORD_FETCH, RECORD_DISPATCH and RECORD_COMPLETE move records through the core. A record the sequencer needs and does not
hold, which can be read, is in the core's cache after the fetch, and no engine of any core has changed. A record of a queue
that passes its checks and fits is dispatched: it stands last in its queue, waiting, with its operation, position, tag, stream
key and the next instance number, and the sequencer has gone past it and its extensions. A record whose engine has finished
without failure leaves the queues when it completes and adds its signal to its token counter. None of them changes the module
around the engines. (R179, R193, R194, R196, R198) -/
def Obligations.RecordMoves : Prop :=
  ∀ (s : State) (l c : Nat), s.held = false → s.physOf l = some c →
    (∀ pos flt u v bs, (s.core c).seq.active = true → (s.core c).missing = some pos →
      s.probeRecord (s.partOfPhys c) ((s.core c).seq.recLoc pos) flt = (u, none) →
      u.locRead (s.partOfPhys c) (((s.core c).seq.recLoc pos).floor 256) 256 = (v, .ok bs) →
      ∃ t, exec (.recordFetch l flt) s = .next t ∧ ((t.core c).cachedRec pos).isSome = true ∧ sameModule s t ∧
        ∀ d, (t.core d).engines = (s.core d).engines) ∧
    (∀ r op, (s.core c).seq.active = true → s.traceStall c = false → (s.core c).current = some r → r.isSeq = false →
      (s.core c).roomFor r = true → s.checkRec c r = .ok op → r.engine < (s.core c).queues.length →
      (r.opcode = 0x3F ∨ (s.core c).seq.pos + r.extCount + 1 < (s.core c).seq.len) →
      ∃ t e, exec (.recordDispatch l 0) s = .next t ∧ sameModule s t ∧
        entry t c r.engine ((s.core c).queue r.engine).length = some e ∧ e.op = op ∧ e.phase = .waiting ∧ e.tag = r.tag ∧
        e.index = (s.core c).seq.pos ∧ e.key = (s.core c).seq.key ∧ e.serial = (s.core c).seq.serial + 1 ∧
        (t.core c).seq.pos = (s.core c).seq.pos + r.extCount + 1 ∧
        (t.core c).seq.serial = (s.core c).seq.serial + r.extCount + 1 ∧
        (∀ d, d ≠ c → t.core d = s.core d)) ∧
    (∀ q n e st led det sh, entry s c q n = some e → e.phase = .done st led det sh →
      failedStatus ((s.core c).finalStatus e.serial st) = false → (s.core c).seq.failure = none →
      (s.core c).seq.tokens.getD e.sigCtr 0 + e.sigInc ≤ 65535 →
      ∃ t, exec (.recordComplete l q n) s = .next t ∧ sameModule s t ∧
        (∀ j, ∀ x ∈ (t.core c).queue j, x.serial ≠ e.serial) ∧
        (t.core c).seq.tokens = if e.sigEn then
          setAt (s.core c).seq.tokens e.sigCtr ((s.core c).seq.tokens.getD e.sigCtr 0 + e.sigInc) else (s.core c).seq.tokens)

/-- ADD, SUB, MUL, FMA, MIN, MAX, CMPLT and CMPEQ write one register, lane by lane. On a running thread whose next word can be
fetched, names a floating TYPE and rounds to nearest or toward zero, ADD, SUB, MUL, FMA, MIN and MAX write VD with the lane
results, rounded once, of the exact sum, difference, product, product plus VC, lesser and greater of the lanes of VA and VB;
CMPLT and CMPEQ write 1 and 0 per lane. The ledger of the record grows by what the lanes count, the thread goes on by one
word, and no other thread, engine or stream and nothing of the module around them changes. (R147, R149, R222, R223) -/
def Obligations.LaneArithmetic : Prop :=
  ∀ (s u : State) (l n : Nat) (x : KCtx) (f : FloatFmt) (mode : RMode),
    typeFloat x.w.type = some f → laneMode x.w.rm = some mode →
    let th := (s.core x.c).thread n
    let a := x.reg s x.w.va
    let b := x.reg s x.w.vb
    let lanes (op : Nat) (i : Instr) (g : List FVal → FVal) (srcs : List VReg) : Prop :=
      fetches s l n op u x → ∃ t, exec i s = .next t ∧ ran s t x.c n
        (advanced th (SMap.set 0 x.w.vd (laneOp f mode g srcs).1 th.regs)) (laneOp f mode g srcs).2
    let compares (op : Nat) (i : Instr) (g : FVal → FVal → Bool) : Prop :=
      fetches s l n op u x → ∃ t, exec i s = .next t ∧ ran s t x.c n
        (advanced th (SMap.set 0 x.w.vd (laneCmp f g a b) th.regs)) {}
    lanes 0x00 (.add l n) (bin FVal.add) [a, b] ∧
    lanes 0x01 (.sub l n) (bin (fun p q => p.add q.negate)) [a, b] ∧
    lanes 0x02 (.mul l n) (bin FVal.mul) [a, b] ∧
    lanes 0x03 (.fma l n) (fun vs => (bin FVal.mul vs).add (vs.getD 2 .nan)) [a, b, x.reg s x.w.vc] ∧
    lanes 0x04 (.min l n) (bin FVal.minimum) [a, b] ∧
    lanes 0x05 (.max l n) (bin FVal.maximum) [a, b] ∧
    compares 0x06 (.cmplt l n) FVal.lt ∧
    compares 0x07 (.cmpeq l n) FVal.eq

/-- CVT, SEL, MOV, MOVI and the transcendental instructions write one register. On a running thread whose next word can be
fetched and allows the form, CVT converts the lanes of VA between floating formats, SEL takes each lane from VA or VB by VC,
MOV copies VA, MOVI writes the immediate to every lane, and EXP, EXP2, LOG, LOG2 and RSQRT, which take TYPE FP32 alone, write
the function of every lane; each writes VD, counts its lanes, moves the thread on by one word and changes no other thread,
engine or stream and nothing of the module around them. What a transcendental writes where the spec states no exact result is
a free value of the model (log 4). (R147, R148, R149, R222, R223) -/
def Obligations.LaneMoves : Prop :=
  ∀ (s u : State) (l n : Nat) (x : KCtx),
    let th := (s.core x.c).thread n
    let a := x.reg s x.w.va
    let writes (op : Nat) (i : Instr) (r : VReg × Ledger) : Prop :=
      fetches s l n op u x → ∃ t, exec i s = .next t ∧ ran s t x.c n (advanced th (SMap.set 0 x.w.vd r.1 th.regs)) r.2
    (∀ f g mode, typeFloat x.w.type = some f → typeFloat (bits x.w.imm 0 2) = some g → laneMode x.w.rm = some mode →
      writes 0x08 (.cvt l n) (laneCvt f g mode (bit x.w.imm 2) a (x.reg s x.w.vd))) ∧
    (∀ mode, laneMode x.w.rm = some mode →
      writes 0x09 (.sel l n) (laneSel (typeWidth x.w.type) a (x.reg s x.w.vb) (x.reg s x.w.vc), {}) ∧
      writes 0x0A (.mov l n) (a, {}) ∧
      ∀ f, typeFloat x.w.type = some f →
        writes 0x0B (.movi l n) (VReg.ofLanes f.width (List.replicate (2048 / f.width) x.w.imm), {})) ∧
    (x.w.type = 0 →
      writes 0x40 (.exp l n) (laneTrans .exp a) ∧ writes 0x41 (.exp2 l n) (laneTrans .exp2 a) ∧
      writes 0x42 (.log l n) (laneTrans .log a) ∧ writes 0x43 (.log2 l n) (laneTrans .log2 a) ∧
      writes 0x44 (.rsqrt l n) (laneTrans .rsqrt a))

/-- WADD, WSUB, WNEG, WFINISH and WFINISHB act on W128 lanes. On a running thread whose next word can be fetched and has TYPE
W128, WADD, WSUB and WNEG write the W128 sums, differences and negations of the lanes, WFINISH writes the lanes scaled and
rounded to a floating format, and WFINISHB, with an even VA, writes a block of a cumulus format; each counts what its lanes
count, moves the thread on by one word and changes no other thread, engine or stream and nothing of the module around them.
(R83, R84, R149, R222, R223) -/
def Obligations.WideLanes : Prop :=
  ∀ (s u : State) (l n : Nat) (x : KCtx), x.w.type = 3 →
    let th := (s.core x.c).thread n
    let a := x.reg s x.w.va
    let b := x.reg s x.w.vb
    let writes (op : Nat) (i : Instr) (r : VReg × Ledger) : Prop :=
      fetches s l n op u x → ∃ t, exec i s = .next t ∧ ran s t x.c n (advanced th (SMap.set 0 x.w.vd r.1 th.regs)) r.2
    writes 0x50 (.wadd l n) (laneWide (wbin Cum.wadd) [a, b]) ∧
    writes 0x51 (.wsub l n) (laneWide (wbin Cum.wsub) [a, b]) ∧
    writes 0x52 (.wneg l n) (laneWide (fun vs => (vs.getD 0 .zero).wneg) [a]) ∧
    (∀ f mode, typeFloat (bits x.w.imm 8 2) = some f → RMode.ofCode x.w.rm = some mode →
      writes 0x58 (.wfinish l n) (wfinish x.w f mode x.key a b (x.reg s x.w.vc) (x.reg s x.w.vd))) ∧
    (∀ f mode, Fmt.ofCode (bits x.w.imm 8 8) = some f → f.isCB = true → RMode.ofCode x.w.rm = some mode → x.w.va % 2 = 0 →
      writes 0x59 (.wfinishb l n) (wfinishb x.w f mode x.key a (x.reg s (x.w.va + 1)) b (x.reg s x.w.vc)))

/-- LOAD, STORE, GATHER, SCATTER, SCATTER_ADD and FENCE. On a running thread whose next word can be fetched, a LOAD from a
256-byte range at a multiple of 64 that can be read writes VD with its bytes; a STORE to one that can be written leaves memory
as that write does and no register changed; a GATHER writes VD with each active lane's element and leaves the bytes of the
other lanes; SCATTER and SCATTER_ADD let the thread go on with its registers unchanged; these three complete whenever every
active lane names a place in a core store. FENCE changes nothing but the thread's place. Each moves the thread on by one word
and changes no other thread, engine or stream and nothing of the module around them. (R155, R157, R158, R222, R223) -/
def Obligations.KernelMemory : Prop :=
  ∀ (s u : State) (l n : Nat) (x : KCtx),
    let th := (s.core x.c).thread n
    let base := (x.reg s x.w.va).lane 64 0
    let onCore (w : Nat) : Prop := ∀ i ∈ activeLanes u x w, ∃ c o, laneAddr u x w i = .at (.cst c o) ∧ o + w ≤ coreStoreBytes
    (∀ loc v bs, fetches s l n 0x60 u x → u.kaddr x base (signed 32 x.w.imm) 256 = .at loc → loc.num % 64 = 0 →
      u.locRead x.p loc 256 = (v, .ok bs) →
      ∃ t, exec (.load l n) s = .next t ∧
        ran s t x.c n (advanced th (SMap.set 0 x.w.vd (VReg.ofBytes bs) th.regs)) {}) ∧
    (∀ loc v, fetches s l n 0x61 u x → u.kaddr x base (signed 32 x.w.imm) 256 = .at loc → loc.num % 64 = 0 →
      u.locWrite x.p loc (x.reg s x.w.vd).toBytes = (v, .ok ()) →
      ∃ t, exec (.store l n) s = .next t ∧ ran s t x.c n (advanced th th.regs) {} ∧ t.parts = v.parts ∧
        ∀ d, (t.core d).store = (v.core d).store) ∧
    (∀ w, fetches s l n 0x68 u x → gatherWidth x.w.imm = some w → onCore w →
      ∃ t r, exec (.gather l n) s = .next t ∧ ran s t x.c n (advanced th (SMap.set 0 x.w.vd r th.regs)) {}) ∧
    (∀ w, fetches s l n 0x69 u x → gatherWidth x.w.imm = some w → onCore w →
      ∃ t, exec (.scatter l n) s = .next t ∧ ran s t x.c n (advanced th th.regs) {}) ∧
    (∀ w, fetches s l n 0x6A u x → gatherWidth x.w.imm = some w → (x.w.type = 0 ∧ w = 4 ∨ x.w.type = 3 ∧ w = 16) → onCore w →
      ∃ t led, exec (.scatterAdd l n) s = .next t ∧ ran s t x.c n (advanced th th.regs) led) ∧
    (fetches s l n 0x7F u x → ∃ t, exec (.fence l n) s = .next t ∧ ran s t x.c n (advanced th th.regs) {})

/-- PACK, UNPACK, RANGE, MV_BCAST and MV_REDUCE. On a running thread whose next word can be fetched, a PACK of registers into
a gradient tile held in the core completes, and so does any PACK none of whose accesses fails, and writes no register; an
UNPACK none of whose accesses fails writes VD to VD + n alone; a RANGE writes the least and greatest value into lanes 0 and 1
of VD and leaves its other lanes; MV_BCAST and MV_REDUCE write VD, with a free value of the model, since the spec gives them
no operands (log 5). Each moves the thread on by one word and changes no other thread, engine or stream and nothing of the
module around them. (R126, R150, R151, R161, R164, R222, R223) -/
def Obligations.PackersAndRanges : Prop :=
  ∀ (s u : State) (l n : Nat) (x : KCtx),
    let th := (s.core x.c).thread n
    (∀ f mode, fetches s l n 0x80 u x → typeFloat x.w.type = some f → RMode.ofCode x.w.rm = some mode →
      x.w.va + bits x.w.imm 0 2 ≤ 31 → (bit x.w.imm 3 = true ∧ bit x.w.imm 4 = true ∨ (kPack u x).act = .advance) →
      ∃ t led, exec (.pack l n) s = .next t ∧ ran s t x.c n (advanced th th.regs) led) ∧
    (fetches s l n 0x81 u x → (kUnpack u x).act = .advance →
      ∃ t regs led, exec (.unpack l n) s = .next t ∧ ran s t x.c n (advanced th regs) led ∧
        ∀ v, v < x.w.vd ∨ x.w.vd + bits x.w.imm 0 2 < v → SMap.get 0 v regs = SMap.get 0 v th.regs) ∧
    (∀ f, fetches s l n 0x90 u x → typeFloat x.w.type = some f → x.w.va + bits x.w.imm 0 2 ≤ 31 →
      let vs := regValues s x x.w.va (bits x.w.imm 0 2) f
      let old := x.reg s x.w.vd
      let r := rangeOf (if bit x.w.imm 2 then vs else fp32Val (old.lane 32 0) :: fp32Val (old.lane 32 1) :: vs)
      ∃ t, exec (.range l n) s = .next t ∧ ran s t x.c n
        (advanced th (SMap.set 0 x.w.vd (old.putLanes 32 0 [toFp32 r.1, toFp32 r.2]) th.regs))
        { specialIn := vs.countP FVal.isSpecial }) ∧
    (fetches s l n 0xA0 u x → ∃ t r, exec (.mvBcast l n) s = .next t ∧ ran s t x.c n (advanced th (SMap.set 0 x.w.vd r th.regs)) {}) ∧
    (fetches s l n 0xA1 u x → ∃ t r, exec (.mvReduce l n) s = .next t ∧ ran s t x.c n (advanced th (SMap.set 0 x.w.vd r th.regs)) {})

/-- BR, BRZ, TBAR and END move and end threads. On a running thread of a launched kernel whose next word can be fetched, BR
takes the thread to word IMM of its kernel, BRZ does so when lane 0 of VA is 0 and moves it on by one word otherwise; TBAR
leaves it waiting at the thread barrier and END leaves it ended, while another thread of its record still runs; the END of the
last thread, once every other thread of the record has ended, completes the record with success and frees its threads. A word
whose OP no instruction has, or which an instruction does not allow, ends the thread as failed with E_BADCMD while another
thread of its record still runs. (R152, R153, R155, R222, R223) -/
def Obligations.KernelControl : Prop :=
  ∀ (s u : State) (l n : Nat) (x : KCtx),
    let th := (s.core x.c).thread n
    let others : Prop := ∃ m, m < 16 ∧ m ≠ n ∧ ((s.core x.c).thread m).serial = th.serial ∧ ((s.core x.c).thread m).st = .running
    let jump (loc : Loc) : Thread := { th with pc := loc.plus (8 * x.w.imm) }
    (∀ i e loc m args, (s.core x.c).vecEntry th.serial = some (i, e) → e.op = .launch loc m args →
      (fetches s l n 0xC0 u x → ∃ t, exec (.br l n) s = .next t ∧ ran s t x.c n (jump loc) {}) ∧
      (fetches s l n 0xC1 u x → ∃ t, exec (.brz l n) s = .next t ∧ ran s t x.c n
        (if (x.reg s x.w.va).lane (typeWidth x.w.type) 0 = 0 then jump loc else advanced th th.regs) {})) ∧
    (fetches s l n 0xCE u x → others → ∃ t, exec (.tbar l n) s = .next t ∧
      ran s t x.c n { th with pc := th.pc.plus 8, st := .atBarrier } {}) ∧
    (fetches s l n 0xCF u x → others → ∃ t, exec (.kernelEnd l n) s = .next t ∧ ran s t x.c n { th with st := .ended } {}) ∧
    (∀ i e, n < 16 → fetches s l n 0xCF u x → (s.core x.c).vecEntry th.serial = some (i, e) → 
      (∀ m, m ≠ n → ((s.core x.c).thread m).st ≠ .free → ((s.core x.c).thread m).serial = th.serial →
        ((s.core x.c).thread m).st = .ended) →
      ∃ t led, exec (.kernelEnd l n) s = .next t ∧ sameModule s t ∧ (t.core x.c).thread n = .reset ∧
        entry t x.c 2 i = some { e with phase := .done Code.ok led 0 0, led := led }) ∧
    (x.w.type = 3 → fetches s l n 0x00 u x → others → ∃ t, exec (.add l n) s = .next t ∧
      ran s t x.c n { th with st := .failed Code.badCmd 0 } {})

/-- DESCRIPTOR_FETCH, DESCRIPTOR_START, READ_REQUEST, WRITE_REQUEST and CRC_FINISH move a channel's run on. On a channel that
runs a record without an error: a fetch of descriptors that can be read and all check takes up to 32 of them into the batch;
the next descriptor of the batch without conversion starts, tagged, with its first reads planned; a local read that its home
serves adds its bytes to what the descriptor has read; a local write that its home takes is done as that write does; and once
the last descriptor's data writes are out, its running checksum is written, the channel is free and its record is done with
the run's ledger. Nothing outside cores, channels, memory and what was sent changes. (R228, R232, R233, R240, R244, R251,
R267) -/
def Obligations.DescriptorMoves : Prop :=
  ∀ (s : State) (ch : Chan) (k : Chn) (r : ChRun), s.held = false → channelIs s ch k → k.run = some r → r.err = none →
    let p := s.chanPart ch
    (∀ u bs ds, r.batch = [] → r.cur = none → r.next < r.count →
      s.locRead p (r.list.plus (64 * r.next)) (64 * min 32 (r.count - r.next)) = (u, .ok bs) →
      (List.range (bs.length / 64)).map (fun i => readDesc (s.runEnv r) (chanIsCore ch) r.srcAdj r.dstAdj (r.next + i)
        ((bs.drop (64 * i)).take 64)) = ds.map some →
      ∃ t, exec (.descriptorFetch ch) s = .next t ∧ sameBlock s t ∧
        channelIs t ch { k with run := some { r with next := r.next + bs.length / 64, batch := mergeDescs [] ds } }) ∧
    (∀ d lens rest, r.cur = none → r.batch = (d, lens) :: rest → s.windowBusy r.core d = false → d.conv = 0 →
      ∃ t, exec (.descriptorStart ch) s = .next t ∧ sameBlock s t ∧
        channelIs t ch { k with run := some { r with
          batch := rest
          cur := some { desc := d, lens, conv := none, reads := locPieces (d.srcRow 0) d.rowBytes, buf := [], writes := [], row := 0,
                        tag := s.tagOf r.core d, remote := none, lost := false, redo := none } } }) ∧
    (∀ c l n l2 rest flt u bs, r.cur = some c → c.reads = (l, n) :: l2 :: rest → c.remote = none → c.lost = false →
      c.desc.remSrc = false → flt ≠ .noResponse → s.locReadFlt p l n flt = (u, .ok bs) →
      ∃ t, exec (.readRequest ch flt) s = .next t ∧ sameBlock s t ∧
        channelIs t ch { k with run := some { r with
          cur := some { c with reads := l2 :: rest, buf := c.buf ++ bs } } }) ∧
    (∀ c l bs w rest flt u, r.cur = some c → c.writes = (l, bs) :: w :: rest → c.remote = none → c.lost = false →
      c.desc.remDst = false → c.desc.gtb = false → flt ≠ .noResponse → s.locWriteFlt p l bs flt = (u, .ok ()) →
      ∃ t, exec (.writeRequest ch flt) s = .next t ∧ sameBlock s t ∧ t.parts = u.parts ∧
        (∀ d, (t.core d).store = (u.core d).store) ∧
        channelIs t ch { k with run := some { r with cur := some { c with writes := w :: rest } } }) ∧
    (∀ c u, r.cur = some c → c.reads = [] → c.writes = [] → c.rowsLeft = false → c.redo = none → c.desc.crcWrite = true →
      r.batch = [] → r.count ≤ r.next →
      (s.modRun ch (fun r => { r with crc := 0xFFFFFFFF })).devWrite p c.desc.crcAddr (toLe 4 (r.crc ^^^ 0xFFFFFFFF)) false = (u, .ok ()) →
      ∃ t, exec (.crcFinish ch) s = .next t ∧ sameBlock s t ∧ t.parts = u.parts ∧ channelIs t ch { k with run := none } ∧
        ∀ i e, entry s r.core 3 i = some e → e.serial = r.serial →
          entry t r.core 3 i = some { e with phase := .done Code.ok r.led 0 0 })

/-- DMA_BUS_ERROR, REQUEST_WATCHDOG, CLEAR, STALE_CHECK, DEADLINE_MISS and STREAM_END_DEADLINE_MISS. A channel whose run has
met an error latches it, is free, and its record fails with E_BUSERR and the address; a lost local read ends by the watchdog
as an error of cause 4 at its address; CLEAR empties the latch. A consumer held by its stale window completes with E_STALE
once the window has been re-issued, and otherwise its channel takes the descriptor again and the window's flag is clear. A
descriptor whose deadline passes under a forecast is noted as missed once, and a stream past its forecast end likewise; each
counts one breach of its partition and marks the job. Nothing outside cores, channels, memory, partitions, host structures and
what was sent changes. (R241, R242, R253, R256, R257, R269) -/
def Obligations.ChannelErrors : Prop :=
  ∀ (s : State) (ch : Chan) (k : Chn),
    (∀ r x, s.held = false → channelIs s ch k → k.run = some r → r.err = some x →
      ∃ t, exec (.dmaBusError ch) s = .next t ∧ sameBlock s t ∧ channelIs t ch { k with run := none, latch := some x } ∧
        ∀ i e, entry s r.core 3 i = some e → e.serial = r.serial →
          entry t r.core 3 i = some { e with phase := .done 0x0303 {} x.addr 0 }) ∧
    (∀ r c l n rest, s.held = false → channelIs s ch k → k.run = some r → r.err = none → r.cur = some c → c.reads = (l, n) :: rest →
      c.lost = true → c.remote = none →
      ∃ t, exec (.requestWatchdog ch) s = .next t ∧ sameBlock s t ∧
        channelIs t ch { k with run := some { r with
          err := some { addr := l.num, write := false, index := c.holder l false, cause := 4, module := 0, remote := false } } }) ∧
    (s.chip.power = .on → s.chip.perst = false → channelIs s ch k →
      ∃ t, exec (.clear ch) s = .next t ∧ sameBlock s t ∧ channelIs t ch { k with latch := none }) ∧
    (∀ l c q i e w x, s.held = false → s.physOf l = some c → firstWaiting 0 ((s.core c).queue q) = some (i, e) →
      (s.core c).waitOk e = true → (s.core c).behindBarrier e.serial = false → (s.core c).holding e = some (w, x) →
      (x.reissued = true → ∃ t, exec (.staleCheck l q) s = .next t ∧ sameModule s t ∧
        entry t c q i = some { e with phase := .done 0x0301 {} 0 0 }) ∧
      (∀ d, x.reissued = false → x.desc = some d → ch = .core l x.chan → channelIs s ch k → w < (s.core c).watches.length →
        ∃ t, exec (.staleCheck l q) s = .next t ∧ sameModule s t ∧ channelIs t ch { k with redo := some (d, w) } ∧
          ((t.core c).watches.getD w .reset).flag = false ∧ ((t.core c).watches.getD w .reset).redoing = true)) ∧
    (∀ r e d t0, s.held = false → channelIs s ch k → k.run = some r → r.err = none →
      (s.core r.core).entries.find? (fun e => e.serial == r.serial) = some e → s.missedDesc r = some (d, t0) →
      s.unforecast (s.chanPart ch) = false → (s.job (s.chanPart ch)).isSome = true →
      ∃ t, exec (.deadlineMiss ch) s = .next t ∧ sameBlock s t ∧
        channelIs t ch { k with run := some { r with missed := r.missed ++ [d.index] } } ∧
        t.hif.breaches = modAt s.hif.breaches (s.chanPart ch) (fun n => satAdd 0xFFFFFFFF n 1) ∧
        (t.job (s.chanPart ch)).map (·.breach) = some true) ∧
    (∀ l c j t0, s.held = false → s.physOf l = some c → s.job (s.partOfPhys c) = some j → (s.core c).seq.startFt = some t0 →
      (s.core c).seq.running = true → (s.core c).seq.endMissed = false → j.forecast = true →
      streamTime s.cls t0 (j.fcEnds.getD (s.core c).seq.dirIndex 0) < s.ft →
      ∃ t, exec (.streamEndDeadlineMiss l) s = .next t ∧ sameModule s t ∧ (t.core c).seq.endMissed = true ∧
        t.hif.breaches = modAt s.hif.breaches (s.partOfPhys c) (fun n => satAdd 0xFFFFFFFF n 1) ∧
        (t.job (s.partOfPhys c)).map (·.breach) = some true)

/-- DBG_COUNTERS_CLEAR, GLOBAL_COUNTERS_CLEAR and COUNTER_LO_READ. Over the link, DBG_COUNTERS_CLEAR zeroes every event and
stall counter of its core, GLOBAL_COUNTERS_CLEAR every global counter, and a read of a low word of a counter latches its bits
from 32 up into its high word and changes no other high word. No other register of the module changes. (R461, R462, R463,
R474, R475) -/
def Obligations.CountersCleared : Prop :=
  ∀ s : State, s.chip.power = .on → s.chip.perst = false →
    (∀ c, ∃ t, exec (.dbgCountersClear c) s = .next t ∧
      coreIs s t c { s.core c with dbg := { (s.core c).dbg with evcnt := (t.core c).dbg.evcnt, stalls := (t.core c).dbg.stalls } } ∧
      (∀ n, (t.core c).dbg.evcnt.getD n 0 = 0) ∧ ∀ k, SMap.get 0 k (t.core c).dbg.stalls = 0) ∧
    (∃ t, exec .globalCountersClear s = .next t ∧ t = { s with gdbg := { s.gdbg with gcnt := t.gdbg.gcnt } } ∧
      ∀ n, t.gdbg.gcnt.getD n 0 = 0) ∧
    (∀ c n, n < (s.core c).dbg.evHi.length → ∃ t, exec (.counterLoRead (.event c n)) s = .next t ∧
      coreIs s t c { s.core c with dbg := { (s.core c).dbg with evHi := (t.core c).dbg.evHi } } ∧
      ∀ m, (t.core c).dbg.evHi.getD m 0 =
        if m = n then (s.core c).dbg.evcnt.getD n 0 / 2 ^ 32 else (s.core c).dbg.evHi.getD m 0) ∧
    (∀ c e x, ∃ t, exec (.counterLoRead (.stall c e x)) s = .next t ∧
      coreIs s t c { s.core c with dbg := { (s.core c).dbg with stallHi := (t.core c).dbg.stallHi } } ∧
      ∀ m, SMap.get 0 m (t.core c).dbg.stallHi =
        if m = 16 * e + x then SMap.get 0 (16 * e + x) (s.core c).dbg.stalls / 2 ^ 32 else SMap.get 0 m (s.core c).dbg.stallHi) ∧
    (∀ n, n < s.gdbg.gcntHi.length → ∃ t, exec (.counterLoRead (.global n)) s = .next t ∧
      t = { s with gdbg := { s.gdbg with gcntHi := t.gdbg.gcntHi } } ∧
      ∀ m, t.gdbg.gcntHi.getD m 0 = if m = n then s.gdbg.gcnt.getD n 0 / 2 ^ 32 else s.gdbg.gcntHi.getD m 0)

/-- LOG_ENABLE_WRITE, LOG_RESPLIT, LOG_PAD_TIMEOUT and LOG_DRAIN_WRITE. A write of the trace or sampling control takes the new
value and leaves the enables in effect as they are; they take effect at the resplit, once both regions are empty. A region
holding a partial 256 B is padded with zeros up to the next multiple of 256. The drain moves the oldest 256 B of a region to
its ring in memory and advances the region and the ring pointer; a ring that takes no data leaves everything as it is. Of the
module around cores and memory nothing changes. (R464, R465, R466, R467) -/
def Obligations.LogStore : Prop :=
  ∀ (s : State) (c r : Nat),
    let k := s.core c
    let d := k.dbg
    let g := d.region r
    (∀ v : W32, s.chip.power = .on → s.chip.perst = false →
      (∃ t, exec (.logEnableWrite c false v) s = .next t ∧
        coreIs s t c { k with dbg := { d with trace := v.toNat % 2 ^ 17, resplit := (t.core c).dbg.resplit } } ∧
        ((t.core c).dbg.resplit = true ↔ (v.toNat.testBit 0 ≠ d.traceOn ∨ d.sample.testBit 0 ≠ d.sampleOn))) ∧
      ∃ t, exec (.logEnableWrite c true v) s = .next t ∧
        coreIs s t c { k with dbg := { d with sample := v.toNat % 2 ^ 29, resplit := (t.core c).dbg.resplit } } ∧
        ((t.core c).dbg.resplit = true ↔ (d.trace.testBit 0 ≠ d.traceOn ∨ v.toNat.testBit 0 ≠ d.sampleOn))) ∧
    (s.chip.power = .on → (d.resplit = false ∨ d.logEmpty = false) →
      ∃ t, exec (.logResplit c) s = .next t ∧ coreIs s t c k) ∧
    (s.chip.power = .on → d.resplit = true → d.logEmpty = true → ∃ t, exec (.logResplit c) s = .next t ∧
      coreIs s t c { k with dbg := { d with
        traceOn := d.trace.testBit 0, sampleOn := d.sample.testBit 0, resplit := false,
        regions := (t.core c).dbg.regions, seq := (t.core c).dbg.seq, gap := (t.core c).dbg.gap } } ∧
      (t.core c).dbg.logEmpty = true) ∧
    (s.chip.power = .on → r < d.regions.length → g.len % 256 ≠ 0 → g.len + (256 - g.len % 256) ≤ (d.split r).2 →
      ∃ t, exec (.logPadTimeout c r) s = .next t ∧
        coreIs s t c { k with dbg := { d with regions := (t.core c).dbg.regions }, log := (t.core c).log } ∧
        (∀ q, (t.core c).dbg.region q = if q = r then { g with len := g.len + (256 - g.len % 256) } else d.region q) ∧
        (∀ i, i < 256 - g.len % 256 → (t.core c).log.read (k.logAt r i) = 0) ∧
        ∀ a, (∀ i, i < 256 - g.len % 256 → a ≠ k.logAt r i) → (t.core c).log.read a = k.log.read a) ∧
    (s.held = false → d.ringTakes r = false → exec (.logDrainWrite c r) s = .next s) ∧
    (s.held = false → r < d.regions.length → 256 ≤ g.len → d.ringTakes r = true →
      s.ringFits (s.partOfPhys c) (d.ringBaseOf r) (d.ringLog2 r) = true →
      ∃ t u, exec (.logDrainWrite c r) s = .next t ∧ sameBlock s t ∧ (∀ x, (t.core x).engines = (s.core x).engines) ∧
        (∀ q, (t.core c).dbg.region q = if q ≠ r then d.region q else
          { pos := (g.pos + 256) % max 1 (d.split r).2, len := g.len - 256,
            heads := (g.heads.filter (256 ≤ ·)).map (· - 256), missed := g.missed, wptr := (g.wptr + 256) % 2 ^ 32 }) ∧
        coreIs s u c (u.core c) ∧
        t.parts = (u.devWrite (s.partOfPhys c) (d.ringBaseOf r + g.wptr % 2 ^ d.ringLog2 r) (k.logHead r) false).1.parts)

/-- BAROMETER_SAMPLE and GLOBAL_BAROMETER_SAMPLE. A core that samples puts one sample of its selected event counters, with the
multiple of the interval passed last, its number and the samples dropped before it, at the end of its sample region and counts
on; a sample that finds the region full is dropped and counted. The global barometer writes its sample to its ring, counts on
and drops one that its ring cannot hold. A barometer that is off changes nothing. (R467, R470) -/
def Obligations.Barometers : Prop :=
  ∀ (s : State) (c : Nat),
    let k := s.core c
    let d := k.dbg
    let g := d.region 1
    let values := ((List.range 8).filter (fun n => d.sample.testBit (1 + n))).map (fun n => d.evcnt.getD n 0)
    let bs := sampleBytes (lastMultiple s.ft (bits d.sample 9 20)) d.seq d.gap values
    let b := s.gdbg
    let all := ((List.range 32).filter (fun n => b.mask.testBit n)).map (fun n => b.gcnt.getD n 0)
    let gs := sampleBytes (lastMultiple s.ft (bits b.ctrl 5 20)) b.seq b.gap (all.take 30)
    let base := 256 * (b.base / 256) + 2 ^ 32 * bits b.cfg 0 12
    let p := bits b.ctrl 3 2
    s.chip.power = .on →
    (d.sampleOn = false → exec (.barometerSample c) s = .next s) ∧
    (d.sampleOn = true → 1 < d.regions.length → g.len + bs.length ≤ (d.split 1).2 →
      ∃ t, exec (.barometerSample c) s = .next t ∧
        coreIs s t c { k with
          dbg := { d with seq := (d.seq + 1) % 2 ^ 32, gap := 0, regions := (t.core c).dbg.regions }, log := (t.core c).log } ∧
        (∀ q, (t.core c).dbg.region q = if q = 1 then { g with len := g.len + bs.length, heads := g.heads ++ [g.len] } else d.region q) ∧
        (∀ i, i < bs.length → (t.core c).log.read (k.logAt 1 i) = bs.getD i 0) ∧
        ∀ a, (∀ i, i < bs.length → a ≠ k.logAt 1 i) → (t.core c).log.read a = k.log.read a) ∧
    (d.sampleOn = true → (d.split 1).2 < g.len + bs.length → ∃ t, exec (.barometerSample c) s = .next t ∧
      coreIs s t c { k with dbg := { d with
        seq := (d.seq + 1) % 2 ^ 32, gap := min 255 (d.gap + 1), smLost := min 0xFFFF (d.smLost + 1) } }) ∧
    (b.ctrl.testBit 2 = false → exec .globalBarometerSample s = .next s) ∧
    (b.ctrl.testBit 2 = true → s.bringing = false → p < s.layout → s.ringFits p base (bits b.cfg 12 5) = false →
      exec .globalBarometerSample s = .next { s with gdbg := { b with seq := (b.seq + 1) % 2 ^ 32, gap := min 255 (b.gap + 1) } }) ∧
    (b.ctrl.testBit 2 = true → s.bringing = false → p < s.layout → s.ringFits p base (bits b.cfg 12 5) = true →
      b.wptr % 2 ^ bits b.cfg 12 5 + gs.length ≤ 2 ^ bits b.cfg 12 5 →
      ∃ t u : State, exec .globalBarometerSample s = .next t ∧ sameBlock s t ∧ (∀ x, (t.core x).engines = (s.core x).engines) ∧
        t.gdbg = { b with seq := (b.seq + 1) % 2 ^ 32, gap := 0, wptr := (b.wptr + gs.length) % 2 ^ 32, gcnt := t.gdbg.gcnt } ∧
        u = { s with gdbg := u.gdbg } ∧
        t.parts = (u.devWrite p (base + b.wptr % 2 ^ bits b.cfg 12 5) gs false).1.parts)

/-- TAG_BREAK, CORE_RESUME, PARTITION_RESUME and PARTITION_FREEZE. A waiting record that matches the tag condition freezes its
core, and every core of the partition when FREEZE_PART is set, lets that record pass the next time, pauses the partition's
timers and makes its job run unforecast. A freeze of a partition freezes each of its cores; a resume ends the freeze of one
core or of all of a partition, and once no core of the partition is frozen its timers go on, put off by the pause. The
engines, queues and streams of every core and the module around them are otherwise as before. (R471, R472, R473, R475) -/
def Obligations.Breaks : Prop :=
  ∀ s : State,
    (∀ l q c i e, s.held = false → s.physOf l = some c → firstWaiting 0 ((s.core c).queue q) = some (i, e) →
      (s.core c).dbg.tagMatch e.tag e.serial = true → (s.core c).seq.frozen = false → (s.core c).seq.halted = false →
      ∃ t, exec (.tagBreak l q) s = .next t ∧ sameModule s t ∧ (∀ d, (t.core d).engines = (s.core d).engines) ∧
        (∀ d, (t.core d).seq.frozen = true ↔ (d = c ∨
          ((s.core c).dbg.brkCtrl.testBit 2 = true ∧ ∃ x ∈ s.coresOf (s.partOfPhys c), x.2 = d) ∨ (s.core d).seq.frozen = true)) ∧
        (t.core c).dbg.tagPass = some e.serial ∧ (t.part (s.partOfPhys c)).frozenAt.isSome = true ∧
        ((s.job (s.partOfPhys c)).isSome = true → t.unforecast (s.partOfPhys c) = true)) ∧
    (s.chip.power = .on → s.chip.perst = false → ∀ p,
      (∃ t, exec (.partitionFreeze p) s = .next t ∧ sameModule s t ∧ (∀ d, (t.core d).engines = (s.core d).engines) ∧
        (∀ d, (t.core d).seq.frozen = true ↔ ((∃ x ∈ s.coresOf p, x.2 = d) ∨ (s.core d).seq.frozen = true)) ∧
        ∀ x ∈ s.coresOf p, (s.core x.2).seq.frozen = false → (t.part (s.partOfPhys x.2)).frozenAt.isSome = true ∧
          ((s.job (s.partOfPhys x.2)).isSome = true → t.unforecast (s.partOfPhys x.2) = true)) ∧
      ∃ t, exec (.partitionResume p) s = .next t ∧ sameModule s t ∧
        ∀ d, (t.core d).seq.frozen = true ↔ ((∀ x ∈ s.coresOf p, x.2 ≠ d) ∧ (s.core d).seq.frozen = true)) ∧
    (s.chip.power = .on → s.chip.perst = false → ∀ c,
      ∃ t, exec (.coreResume c) s = .next t ∧ sameModule s t ∧
        (∀ d, (t.core d).seq.frozen = true ↔ (d ≠ c ∧ (s.core d).seq.frozen = true)) ∧
        ((∃ x ∈ s.coresOf (s.partOfPhys c), x.2 ≠ c ∧ (s.core x.2).seq.frozen = true) →
          t.parts = s.parts ∧ ∀ d, (t.core d).engines = (s.core d).engines) ∧
        (∀ t0, (s.part (s.partOfPhys c)).frozenAt = some t0 → ((s.coresOf (s.partOfPhys c)).map (·.2)).Nodup →
          (∀ x ∈ s.coresOf (s.partOfPhys c), x.2 ≠ c → (s.core x.2).seq.frozen = false) →
          (t.part (s.partOfPhys c)).frozenAt = none ∧ ∀ d, (t.core d).engines =
            if (s.coresOf (s.partOfPhys c)).any (·.2 == d) then ((s.core d).putOff t0 s.ft).engines else (s.core d).engines))

/-- ATOMIC_OPERATION and REFRESH. An atomic operation whose line can be read and written is one read and one write of its home
line: the bytes at its address become the sum with its operand, and no other byte of memory changes when the address lies in
HBM and no error is found. An operation that leaves its line or names no partition does nothing. A refresh changes no state
but counters. (R267, R274, R286, R333) -/
def Obligations.AtomicsAndRefresh : Prop :=
  ∀ s : State,
    (∀ p a op flt u v old, s.held = false → p < s.layout → a % 256 + atomicWidth op ≤ 256 →
      (s.gevent 3 (s.homeSlice p a) 3 1).readLine p a (atomicWidth op) false flt = (u, .ok old) →
      u.writeLine p a (atomicResult old op).1 false .clean = (v, .ok ()) →
      exec (.atomicOperation p a op flt) s = .next v ∧ sameBlock s v ∧ (∀ d, (v.core d).engines = (s.core d).engines) ∧
        ∀ x, flt = .clean → s.target p (s.bankAddr p a) (atomicWidth op) false = .ok (.hbm x) →
          (v.part p).hbm.readN (s.bankAddr p a) (atomicWidth op) =
            (atomicResult ((s.part p).hbm.readN (s.bankAddr p a) (atomicWidth op)) op).1 ∧
          (∀ y, (y < s.bankAddr p a ∨ s.bankAddr p a + atomicWidth op ≤ y) → (v.part p).hbm.read y = (s.part p).hbm.read y) ∧
          ∀ q, q ≠ p → (v.part q).hbm = (s.part q).hbm) ∧
    (∀ p a op flt, s.held = false → (s.layout ≤ p ∨ 256 < a % 256 + atomicWidth op) →
      exec (.atomicOperation p a op flt) s = .next s) ∧
    (∀ k x c b, s.chip.power = .on → ∃ t, exec (.refresh k x c b) s = .next t ∧
      t = { s with freeCtr := t.freeCtr, gdbg := { s.gdbg with gcnt := t.gdbg.gcnt } })

/-- PATROL_SCRUB, ROW_REPAIR and ROW_REPAIR_DONE. The scrub reads the next code word of its stack and goes on to the one after
it, from the last to the first; without errors, or with at most four in each half, no memory changes, and one with more in a
word that is good and not held by its slice is poisoned unless it passes for another word. A row repair begins with the first
row that waits while no job runs and none is being repaired; its end is counted if the row was repaired and raises the
memory-error state if not, and then jobs that waited start. (R271, R273, R275, R276) -/
def Obligations.RowsAndScrub : Prop :=
  ∀ (s : State) (k : Nat),
    let h := s.hbmc k
    let p := s.partOfStack k
    s.chip.power = .on →
    (∀ flt, (h.period = 0 ∨ h.trained = false ∨ s.scrubLine k = none) → exec (.patrolScrub k flt) s = .next s) ∧
    (∀ flt line, h.period ≠ 0 → h.trained = true → s.scrubLine k = some line →
      ∃ t, exec (.patrolScrub k flt) s = .next t ∧ sameBlock s t ∧ t.cores = s.cores ∧ t.slices = s.slices ∧
        (t.hbmc k).scrubPos = (h.scrubPos + 1) % max 1 (s.scrubWords k) ∧
        (t.hbmc k).scrubActive = ((t.hbmc k).scrubPos != 0) ∧
        (∀ q y, ¬(q = p ∧ line ≤ y ∧ y < line + 256) → (t.part q).hbm.read y = (s.part q).hbm.read y) ∧
        (flt = .clean → t.parts = s.parts) ∧
        (∀ errs, flt = .symbols errs → halfErrors errs 0 ≤ 4 → halfErrors errs 1 ≤ 4 → t.parts = s.parts) ∧
        (∀ errs, flt = .symbols errs → (4 < halfErrors errs 0 ∨ 4 < halfErrors errs 1) →
          SMap.get false line (s.part p).poison = false → (s.slice (s.homeDie p line)).holds line = false →
          Config.miscorrects s.freeCtr = false →
          SMap.get false line (t.part p).poison = true ∧ (t.part p).hbm = (s.part p).hbm)) ∧
    (∀ r rest, h.pendRows = r :: rest → h.repairing = none →
      ∃ t, exec (.rowRepair k) s = .next t ∧ t = { s with hbmcs := t.hbmcs } ∧
        ∀ x, t.hbmc x = if x = k ∧ (s.part p).job = none then { h with pendRows := rest, repairing := some r } else s.hbmc x) ∧
    (∀ ok r, h.repairing = some r →
      ∃ u : State, exec (.rowRepairDone k ok) s = .next ((u.promote p).reportSensors) ∧
        u = { s with
          hbmcs := u.hbmcs, hif := { s.hif with evts := u.hif.evts }, out := u.out
          chip := { s.chip with memErr := s.chip.memErr || !ok } } ∧
        ∀ x, u.hbmc x = if x = k then { h with repairing := none, repairs := if ok then min 255 (h.repairs + 1) else h.repairs }
          else s.hbmc x)

/-- GO, FORCE and CHANNEL_RETIRE. A retirement asked for of a channel that is not retired or waiting begins the partition's
migration at once if none is under way and there is reserve or it is forced; without reserve it is dropped, and during a
migration it waits. When a migration ends the channel is retired, the partition's top falls by 2 GiB and its reserve by one,
the bytes below the new top stay and those above are gone, and a bank with room takes one entry for it; the next channel that
waits begins. (R277, R278, R280, R292, R397) -/
def Obligations.ChannelRetirement : Prop :=
  ∀ (s : State) (k c : Nat),
    let p := s.partOfStack k
    let q := s.part p
    let ask (f : Bool) : Instr := if f then .force k c else .go k c
    let names (e : Nat × Nat × Bool) : Bool := e.1 == k && e.2.1 == c
    (s.chip.power = .on → s.chip.perst = false → ∀ f,
      ((s.pcRetired ⟨k, c, 0⟩ = true ∨ q.evac.any names = true) → exec (ask f) s = .next s) ∧
      (s.pcRetired ⟨k, c, 0⟩ = false → q.evac = [] → (f = true ∨ q.reserve ≠ 0) →
        ∃ t, exec (ask f) s = .next t ∧ sameBlock s t ∧ t.cores = s.cores ∧ t.part p = { q with evac := [(k, c, f)] } ∧
          ∀ x, t.hbmc x = if x ∈ s.stacksOf p then { s.hbmc x with migrating := true } else s.hbmc x) ∧
      (s.pcRetired ⟨k, c, 0⟩ = false → q.evac = [] → f = false → q.reserve = 0 →
        ∃ t, exec (ask f) s = .next t ∧ sameBlock s t ∧ t.cores = s.cores ∧ t.part p = q ∧ t.hbmcs = s.hbmcs) ∧
      (s.pcRetired ⟨k, c, 0⟩ = false → q.evac ≠ [] → q.evac.any names = false →
        ∃ t, exec (ask f) s = .next t ∧ t = { s with parts := t.parts } ∧
          ∀ x, t.part x = if x = p then { q with evac := q.evac ++ [(k, c, f)] } else s.part x)) ∧
    (∀ p f, s.chip.power = .on → (s.part p).evac = [(k, c, f)] →
      ∃ t, exec (.channelRetire p) s = .next t ∧ sameBlock s t ∧ t.cores = s.cores ∧ (t.part p).evac = [] ∧
        (t.part p).topGib = (s.part p).topGib - 2 ∧ (t.part p).reserve = (s.part p).reserve - 1 ∧
        (∀ y, (t.part p).hbm.read y = if y < ((s.part p).topGib - 2) * gib then (s.part p).hbm.read y else 0) ∧
        t.pcRetired ⟨k, c, 0⟩ = true ∧ (∀ x, (t.hbmc x).pendRows = (s.hbmc x).pendRows) ∧
        t.chip.bank.length = (if s.chip.bank.length < 256 then s.chip.bank.length + 1 else s.chip.bank.length))

/-- APPLY, FLUSH and NIM_BUSY_END. While a job runs on the partition an APPLY only sets its error. Otherwise an APPLY, and a
FLUSH at any time, writes back every dirty line of the slice, which stays, and makes the slice busy, the APPLY with the
configuration to come. When the busy time ends the slice is not busy; at the end of an APPLY its marked slabs are retired, the
configuration is in force without retired slabs, the directory is empty, and the scratchpad of a slab that was or becomes
cache reads 0 while the other keeps its bytes. The memory of every partition keeps its bytes. (R289, R290, R291, R407) -/
def Obligations.Slabs : Prop :=
  ∀ (s : State) (b : Nat),
    let sl := s.slice b
    let p := s.partOfDie b
    let clean := sl.dir.map (fun e => (e.1, { e.2 with dirty := false }))
    s.chip.power = .on →
    (s.chip.perst = false → (s.part p).job.isSome = true → ∃ t, exec (.apply b) s = .next t ∧ t = { s with slices := t.slices } ∧
      ∀ x, t.slice x = if x = b then { sl with applyErr := true } else s.slice x) ∧
    (s.chip.perst = false → (s.part p).job = none → ∃ t, exec (.apply b) s = .next t ∧
      t = { s with slices := t.slices, parts := t.parts, gdbg := { s.gdbg with gcnt := t.gdbg.gcnt } } ∧
      (∀ x, t.slice x = if x = b then { sl with dir := clean, busy := true, pendingMode := some sl.modeMask } else s.slice x) ∧
      ∀ q, (t.part q).hbm = (s.part q).hbm) ∧
    (s.chip.perst = false → ∃ t, exec (.flush b) s = .next t ∧
      t = { s with slices := t.slices, parts := t.parts, gdbg := { s.gdbg with gcnt := t.gdbg.gcnt } } ∧
      (∀ x, t.slice x = if x = b then { sl with dir := clean, busy := true } else s.slice x) ∧
      ∀ q, (t.part q).hbm = (s.part q).hbm) ∧
    (sl.busy = false → exec (.nimBusyEnd b) s = .next s.reportSensors) ∧
    (sl.busy = true → ∃ u : State, exec (.nimBusyEnd b) s = .next ((u.promote p).reportSensors) ∧ sameBlock s u ∧ u.cores = s.cores ∧
      (∀ q, (u.part q).hbm = (s.part q).hbm) ∧ (∀ x, x ≠ b → u.slice x = s.slice x) ∧
      (sl.pendingMode = none → u.slice b = { sl with busy := false }) ∧
      ∀ m, sl.pendingMode = some m →
        (u.slice b).busy = false ∧ (u.slice b).pendingMode = none ∧ (u.slice b).marked = 0 ∧
        (u.slice b).retired = sl.retired ||| sl.marked ∧ (u.slice b).dir = [] ∧
        (u.slice b).inForce = m &&& (2 ^ 144 - 1 - (sl.retired ||| sl.marked)) ∧
        ∀ y, (u.slice b).scratch.read y =
          if sl.inForce.testBit (y / slabBytes) || (u.slice b).inForce.testBit (y / slabBytes) then 0 else sl.scratch.read y)

/-- SQ_TAIL, CQ_HEAD and EVT_HEAD. Over the link, a doorbell write below the size of an enabled ring, while outputs are not
held, moves that ring's tail or head and no other ring's; any other is dropped and counted. An event head also lets waiting
events be written in order until none waits or the ring is full. Nothing but the host interface, the counters and what is sent
changes. (R377, R381, R387) -/
def Obligations.Doorbells : Prop :=
  ∀ s : State, s.chip.power = .on → s.chip.perst = false →
    let dropped (t : State) : Prop :=
      t = { s with hif := { s.hif with badSize := min 0xFFFF (s.hif.badSize + 1) }, gdbg := { s.gdbg with gcnt := t.gdbg.gcnt } }
    let moved (t : State) (p n : Nat) (r : Ring) : Prop :=
      t = { s with hif := { s.hif with pairs := t.hif.pairs }, gdbg := { s.gdbg with gcnt := t.gdbg.gcnt } } ∧
        ∀ q m, m < 64 → t.ring q m = if q = p ∧ m = n then r else s.ring q m
    (∀ p n v, s.held = false → n < 64 → (s.ring p n).enabled = true → v < (s.ring p n).size →
      (∃ t, exec (.sqTail p n v) s = .next t ∧ moved t p n { s.ring p n with tail := v }) ∧
      ∃ t, exec (.cqHead p n v) s = .next t ∧ moved t p n { s.ring p n with cqHead := v }) ∧
    (∀ p n v, (s.held = true ∨ 64 ≤ n ∨ (s.ring p n).enabled = false ∨ (s.ring p n).size ≤ v) →
      (∃ t, exec (.sqTail p n v) s = .next t ∧ dropped t) ∧ ∃ t, exec (.cqHead p n v) s = .next t ∧ dropped t) ∧
    (∀ fn v, s.held = false → (s.evt fn).enabled = true → v < 2 ^ (s.evt fn).log2 →
      ∃ t k, exec (.evtHead fn v) s = .next t ∧
        t = { s with hif := { s.hif with evts := t.hif.evts }, gdbg := { s.gdbg with gcnt := t.gdbg.gcnt }, out := t.out } ∧
        (∀ f, fnKey f ≠ fnKey fn → t.evt f = s.evt f) ∧ (t.evt fn).head = v ∧ k ≤ (s.evt fn).waiting.length ∧
        (t.evt fn).waiting = (s.evt fn).waiting.drop k ∧ ((t.evt fn).waiting = [] ∨ (t.evt fn).room = false) ∧
        (t.evt fn).idx % 2 ^ (s.evt fn).log2 = ((s.evt fn).idx + k) % 2 ^ (s.evt fn).log2) ∧
    (∀ fn v, (s.held = true ∨ (s.evt fn).enabled = false ∨ 2 ^ (s.evt fn).log2 ≤ v) →
      ∃ t, exec (.evtHead fn v) s = .next t ∧ dropped t)

/-- RING_ENABLE, RING_DISABLE, RESUME and EVENT_IRQ_INTERVAL. An enable of a ring pair that may be enabled latches its base
and size and sets its indices to 0 and its phase to 1; one that may not is refused and changes nothing else but the written
configuration; one of an enabled pair changes the configuration alone. A disable discards the pending entries, drops the
selected job of the pair and marks its running job's completion to be discarded. Event rings are enabled and disabled alike,
and a disabled one drops the events that wait. RESUME clears STOPPED. At the end of the interval a ring that has written
events meanwhile signals its vector once and begins another interval. No other ring changes. (R379, R386, R387, R390) -/
def Obligations.RingRegisters : Prop :=
  ∀ s : State, s.chip.power = .on →
    let pairIs (t : State) (p n : Nat) (r : Ring) : Prop :=
      t = { s with hif := { s.hif with pairs := t.hif.pairs } } ∧ ∀ q m, m < 64 → t.ring q m = if q = p ∧ m = n then r else s.ring q m
    let evtIs (t : State) (fn : Fn) (r : EvtRing) : Prop :=
      t = { s with hif := { s.hif with evts := t.hif.evts } } ∧ ∀ f, t.evt f = if fnKey f = fnKey fn then r else s.evt f
    let may (p n cfg : Nat) : Prop := s.held = false ∧ p < s.layout ∧ n < s.secField p 7 1 ∧
      4 ≤ bits cfg 0 5 ∧ bits cfg 0 5 ≤ 16 ∧ s.draining p n = false
    (s.chip.perst = false →
      (∀ p n (v : W32), n < 64 → v.toNat.testBit 5 = true →
        let r := s.ring p n
        let cfg := v.toNat &&& cfgMask (.vf p) false
        (r.enabled = false → may p n cfg → ∃ t, exec (.ringEnable (.vf p) n v) s = .next t ∧
          pairIs t p n { r with
            cfg := cfg, enabled := true, refused := false, stopped := false, base := r.baseLo + 2 ^ 32 * r.baseHi, log2 := bits cfg 0 5
            head := 0, tail := 0, cqIdx := 0, phase := true, cqHead := 0 }) ∧
        (r.enabled = false → ¬may p n cfg → ∃ t, exec (.ringEnable (.vf p) n v) s = .next t ∧
          pairIs t p n { r with cfg := cfg, refused := true, stopped := r.stopped && !v.toNat.testBit 8 }) ∧
        (r.enabled = true → ∃ t, exec (.ringEnable (.vf p) n v) s = .next t ∧
          pairIs t p n { r with cfg := cfg, stopped := r.stopped && !v.toNat.testBit 8 })) ∧
      (∀ p n (v : W32), n < 64 → v.toNat.testBit 5 = false → ∃ t, exec (.ringDisable (.vf p) n v) s = .next t ∧
        t = { s with hif := { s.hif with pairs := t.hif.pairs }, parts := t.parts } ∧
        (∀ q m, m < 64 → ¬(q = p ∧ m = n) → t.ring q m = s.ring q m) ∧ (t.ring p n).enabled = false ∧
        (t.ring p n).tail = (s.ring p n).tail ∧
        ((s.ring p n).enabled = true → (t.ring p n).head = (s.ring p n).tail ∧
          (t.part p).next = (s.part p).next.filter (fun j => j.ring != n) ∧
          (t.part p).job = (s.part p).job.map (fun j => if j.ring = n then { j with discard := true } else j)) ∧
        ((s.ring p n).enabled = false → t.parts = s.parts)) ∧
      (∀ fn n (v : W32), (fn = .pf ∨ 64 ≤ n) → v.toNat.testBit 5 = true →
        let r := s.evt fn
        let cfg := v.toNat &&& cfgMask fn true
        let ok : Prop := s.held = false ∧ s.hasSection fn = true ∧ 4 ≤ bits cfg 0 5 ∧ bits cfg 0 5 ≤ 16
        (r.enabled = false → ok → (fn ≠ .pf ∨ s.chip.trip = none) → ∃ t, exec (.ringEnable fn n v) s = .next t ∧
          evtIs t fn { EvtRing.reset with
            baseLo := r.baseLo, baseHi := r.baseHi, cfg := cfg, enabled := true, base := r.baseLo + 2 ^ 32 * r.baseHi
            log2 := bits cfg 0 5 }) ∧
        (r.enabled = false → ¬ok → ∃ t, exec (.ringEnable fn n v) s = .next t ∧ evtIs t fn { r with cfg := cfg, refused := true }) ∧
        (r.enabled = true → ∃ t, exec (.ringEnable fn n v) s = .next t ∧ evtIs t fn { r with cfg := cfg })) ∧
      (∀ fn n (v : W32), (fn = .pf ∨ 64 ≤ n) → v.toNat.testBit 5 = false → ∃ t, exec (.ringDisable fn n v) s = .next t ∧
        evtIs t fn { s.evt fn with cfg := v.toNat &&& cfgMask fn true, enabled := false, waiting := [] }) ∧
      ∀ p n, n < 64 → ∃ t, exec (.resume p n) s = .next t ∧ pairIs t p n { s.ring p n with stopped := false }) ∧
    ∀ fn, ((s.evt fn).interval = false → exec (.eventIrqInterval fn) s = .next s) ∧
      ((s.evt fn).interval = true → (s.evt fn).irqDue = true → (s.evt fn).enabled = true → s.held = false →
        ∃ t u, exec (.eventIrqInterval fn) s = .next t ∧ evtIs u fn { s.evt fn with irqDue := false } ∧
          t = { u with out := s.out ++ [.msix fn (bits (s.evt fn).cfg 16 9)] }) ∧
      ((s.evt fn).interval = true → ((s.evt fn).irqDue = false ∨ (s.evt fn).enabled = false ∨ s.held = true) →
        ∃ t, exec (.eventIrqInterval fn) s = .next t ∧ evtIs t fn { s.evt fn with interval := false, irqDue := false })

/-- JOB_START, NO_OPERATION_ENTRY and HOST_COMPLETION_TIMEOUT. An idle partition that may start jobs and has none selected
takes the next entry of the ring whose turn it is: a valid job becomes the selected job with its copy-ins, an invalid one a
job that fails with E_BADSUB, and the job then starts if it can. An entry or copy list that cannot be read, or whose read
times out, stops its ring with the entry still pending. A no-operation entry with no earlier job of its ring open completes:
its entry is written at the ring's completion index and its vector sent if asked. What is started, the sensors and events
apart, nothing but the ring and the selected job changes. (R365, R380, R382, R383, R385, R386) -/
def Obligations.JobEntries : Prop :=
  ∀ (s : State) (p n : Nat), s.held = false → n < 64 →
    let r := s.ring p n
    let ringIs (u : State) (x : Ring) : Prop := ∀ q m, m < 64 → u.ring q m = if q = p ∧ m = n then x else s.ring q m
    let faulted (u : State) : Prop :=
      u = { s with hif := { s.hif with pairs := u.hif.pairs, evts := u.hif.evts }, out := u.out } ∧ ringIs u { r with stopped := true }
    let selected (u : State) (j : Job) : Prop :=
      u = { s with hif := { s.hif with pairs := u.hif.pairs, turn := u.hif.turn }, parts := u.parts } ∧ ringIs u r.take ∧
        ∀ q, u.part q = if q = p then { s.part p with next := some j } else s.part q
    (s.jobsMayStart p = true → (s.part p).next = none → s.selectRing p = some n →
      (∀ e copies, subBad e = false → u8 e 0 = 1 → ∀ cs, copiesRead e copies = some cs →
        ∃ u : State, exec (.jobStart p (some e) copies) s = .next (u.promote p).reportSensors ∧
          selected u (newJob n r.take.head e cs none).dropBad) ∧
      (∀ e copies, subBad e = true → ∃ u : State, exec (.jobStart p (some e) copies) s = .next (u.promote p).reportSensors ∧
        selected u (newJob n r.take.head e [] (some (Code.badSub, 0)))) ∧
      (∀ entry copies, (entry = none ∨ ∃ e, entry = some e ∧ subBad e = false ∧ u8 e 0 = 1 ∧ copiesRead e copies = none) →
        ∃ u : State, exec (.jobStart p entry copies) s = .next u.reportSensors ∧ faulted u) ∧
      ∃ u : State, exec (.hostCompletionTimeout (.copyList p)) s = .next u.reportSensors ∧ faulted u) ∧
    (s.jobsMayStart p = true → (s.part p).next = none → r.due = true →
      ∃ u : State, exec (.hostCompletionTimeout (.submission p n)) s = .next u.reportSensors ∧ faulted u) ∧
    (∀ j, (s.part p).next = some j → ∀ entry copies,
      exec (.jobStart p entry copies) s = .next (s.promote p).reportSensors) ∧
    (s.jobsMayStart p = true → r.due = true → s.complRoom p n = true → s.taken p n = 0 →
      (∃ u : State, exec (.noOperationEntry p n none) s = .next u ∧ faulted u) ∧
      ∀ e, subBad e = false → u8 e 0 = 2 → ∃ u : State, exec (.noOperationEntry p n (some e)) s = .next u ∧
        u = { s with hif := { s.hif with pairs := u.hif.pairs }, out := u.out } ∧
        ringIs u { r.take with
          cqIdx := (r.cqIdx + 1) % r.size, phase := if (r.cqIdx + 1) % r.size = 0 then !r.phase else r.phase } ∧
        u.out = s.out ++ .hostWrite (.vf p) (r.base + 64 * r.size + 32 * r.cqIdx)
          (complEntry Code.ok (u16 e 2) r.take.head n (b2n r.phase) 0 0xFFFF 0 0 0 s.ft) ::
            if (u8 e 1).testBit 0 then [.msix (.vf p) r.vector] else [])

/-- HOST_COPY_IN, HOST_COPY_OUT, JOB_COMPLETE and the start of a selected job. A copy-in of the selected job is written to the
partition and leaves the list; one that cannot be read or written ends the job's copying with E_HOST_COPY. A copy-out of a job
that is over is written to the host and leaves the list, or fails the copying. A job that is over with no copy-out due
completes: it leaves the partition, its completion entry is written unless discarded, and its ring stops if asked and the job
failed. A selected job without copy-ins starts on an idle partition that may start jobs, with a readable and correct image: it
becomes the running job and the core of each directory entry runs its stream from its first record. (R175, R177, R382, R383,
R384, R386) -/
def Obligations.JobsRun : Prop :=
  ∀ (s : State) (p : Nat), s.held = false →
    (∀ j c rest data, (s.part p).next = some j → j.copyIns = c :: rest →
      (∀ bs w, data = some bs → s.devWrite p c.dev (padTo c.len bs) false = (w, .ok ()) →
        ∃ u : State, exec (.hostCopyIn p data) s = .next (u.promote p).reportSensors ∧ sameBlock s u ∧
          (∀ d, (u.core d).engines = (s.core d).engines) ∧ (∀ q, (u.part q).hbm = (w.part q).hbm) ∧ u.slices = w.slices ∧
          (u.part p).next = some ({ j with copyIns := rest } : Job).dropBad ∧ (u.part p).job = (s.part p).job) ∧
      ((data = none ∨ ∃ bs e, data = some bs ∧ (s.devWrite p c.dev (padTo c.len bs) false).2 = .error e) →
        ∃ u : State, exec (.hostCopyIn p data) s = .next (u.promote p).reportSensors ∧ sameBlock s u ∧
          (∀ d, (u.core d).engines = (s.core d).engines) ∧ (u.part p).next = some (j.copyInFailed c.index) ∧
          (u.part p).job = (s.part p).job)) ∧
    (∀ j c rest ok, (s.part p).job = some j → j.over = true → j.outsDue = c :: rest →
      ∃ t, exec (.hostCopyOut p ok) s = .next t ∧ sameBlock s t ∧ t.cores = s.cores ∧ (∀ q, (t.part q).hbm = (s.part q).hbm) ∧
        (∀ bs w, ok = true → s.devRead p c.dev c.len false = (w, .ok bs) →
          (t.part p).job = some { j with copyOuts := j.copyOuts.filter (fun x => decide (c.index < x.index)) } ∧
          .hostWrite (.vf p) c.host bs ∈ t.out) ∧
        ((ok = false ∨ ∃ e, (s.devRead p c.dev c.len false).2 = .error e) →
          (t.part p).job = some { j with copyFail := some c.index })) ∧
    (∀ j, (s.part p).job = some j → j.over = true → j.outsDue = [] → j.ring < 64 →
      ∃ u : State, exec (.jobComplete p) s = .next (u.promote p).reportSensors ∧
        u = { s with parts := u.parts, hif := { s.hif with pairs := u.hif.pairs }, out := u.out } ∧ (u.part p).job = none ∧
        (∀ q m, m < 64 → ¬(q = p ∧ m = j.ring) → u.ring q m = s.ring q m) ∧
        (j.discard = true → u.out = s.out ∧ u.hif = s.hif) ∧
        (j.discard = false → u.out = s.out ++ .hostWrite (.vf p)
            ((s.ring p j.ring).base + 64 * (s.ring p j.ring).size + 32 * (s.ring p j.ring).cqIdx) (j.entry s.ft (b2n (s.ring p j.ring).phase)) ::
              (if j.irq then [.msix (.vf p) (s.ring p j.ring).vector] else []) ∧
          (u.ring p j.ring).stopped = ((s.ring p j.ring).stopped || (j.stopOnErr && j.verdict.1 != 0)))) ∧
    (∀ j u h dir entry copies, (s.part p).job = none → (s.part p).next = some j → s.jobsMayStart p = true → j.copyIns = [] →
      j.early = none →
      let s1 := s.setPart p { s.part p with job := some j, next := none }
      s1.readImage p j.image = (u, .ok (h, dir)) → ((s.coresOf p).map (·.2)).Nodup →
      ∃ t : State, exec (.jobStart p entry copies) s = .next t.reportSensors ∧ sameBlock s t ∧ (t.part p).next = none ∧
        (∃ x, (t.part p).job = some x ∧ x.launched = true ∧ x.dir = dir ∧ x.args = j.args ∧ x.ring = j.ring) ∧
        (∀ d, (∀ e ∈ s.coresOf p, e.2 ≠ d) → t.core d = s.core d) ∧
        ∀ i e c, dir[i]? = some e → (s.coresOf p).lookup e.lcore = some c →
          (t.core c).seq.running = true ∧ (t.core c).seq.dirIndex = i ∧ (t.core c).seq.base = e.addr ∧
          (t.core c).seq.len = e.len ∧ (t.core c).seq.pos = 0 ∧ (t.core c).queues = [[], [], [], [], []])

/-- SETUP_COMMIT and SETUP_VALIDATION. A commit copies the 324 bytes of the set-up buffer and makes the block busy, unless a
commit is being validated. The end of validation shows the verdict. An accepted table comes into force whole and its exchange
tables replace the old ones; the layout and reserves are fixed by the first accepted one. A rejected table leaves the table in
force, the exchange tables and everything else as they are, but for an event while a table is in force. A table whose CRC is
wrong is rejected with reason 1. (R372, R375, R376, R377) -/
def Obligations.SetupDecision : Prop :=
  ∀ s : State, s.chip.power = .on →
    (s.chip.perst = false →
      (s.hif.busy = true → exec .setupCommit s = .next s) ∧
      (s.hif.busy = false → exec .setupCommit s =
        .next { s with hif := { s.hif with copy := some (s.hif.buffer.readN 0 324), busy := true, valid := false } })) ∧
    ((s.hif.busy = false ∨ s.bringing = true) → exec .setupValidation s = .next s.reportSensors) ∧
    (∀ b : Bytes, u32 b 320 ≠ crc32c (b.take 320) → s.verdict b = some (1, 7, 320)) ∧
    ∀ b, s.hif.busy = true → s.bringing = false → s.hif.copy = some b →
      (∀ r, s.verdict b = some r → ∃ u : State, exec .setupValidation s = .next u.reportSensors ∧
        u = { s with
          out := u.out
          hif := { s.hif with busy := false, valid := true, reason := r.1, sect := r.2.1, detail := r.2.2, evts := u.hif.evts } } ∧
        (s.setup = none → u.out = s.out ∧ u.hif.evts = s.hif.evts)) ∧
      ∀ n, s.verdict b = none → layoutOf (u8 b 8) = some n → ∃ u : State, exec .setupValidation s = .next u.reportSensors ∧
        u.setup = some b ∧ u.cores = s.cores ∧ u.chip = s.chip ∧ u.lmap = s.lmap ∧ u.cls = s.cls ∧ u.gov = s.gov ∧ u.mmc = s.mmc ∧
        u.hif = { s.hif with
          busy := false, valid := true, reason := 0, sect := 0, detail := 0, evts := u.hif.evts
          fixed := s.hif.fixed.or (some (n, (List.range 4).map (secReserve b))) } ∧
        (s.hif.fixed = none → u.layout = n) ∧ (s.hif.fixed ≠ none → u.layout = s.layout ∧ ∀ p, (u.part p).hbm = (s.part p).hbm) ∧
        ∀ p, p < n → ((u.exch p).tbl.isSome = true ↔ secExch b p = true)

/-- BAR2_READ, BAR2_WRITE, BAR2_READ_ABORT and FTIME_LO_READ. A BAR2 write that lies within one line of its partition's HBM
and succeeds changes exactly its bytes there; bytes at or above the top are dropped, and no memory of another partition
changes. A read of such a range answers its bytes, one above the top answers ones, and one of a poisoned word answers ones
with the EP bit. A function whose partition does not exist reads ones and writes nothing. An abort counts, and a read of the
low word of FTIME latches the high word. (R260, R328, R366, R369) -/
def Obligations.BarAccesses : Prop :=
  ∀ s : State, s.chip.power = .on → s.chip.perst = false →
    exec .ftimeLoRead s = .next { s with time := { s.time with hiLatch := s.ft / 2 ^ 32 % 2 ^ 32 } } ∧
    (∀ fn off, exec (.bar2ReadAbort fn off) s = .next { s with
      hif := { s.hif with readAbort := min 0xFFFF (s.hif.readAbort + 1) }, out := s.out ++ [.barAbort fn] }) ∧
    (∀ fn off n flt data, s.bar2Place fn off = none →
      exec (.bar2Write fn off data) s = .next s ∧
      exec (.bar2Read fn off n flt) s = .next { s with out := s.out ++ [.barData fn (List.replicate n 0xFF) false] }) ∧
    (∀ p off, s.bringing = false → p < s.layout → s.bar2Place (.vf p) off = some (p, s.hif.vfBase.getD p 0 * gib + off)) ∧
    (∀ p off, s.layout ≤ p → s.bar2Place (.vf p) off = none) ∧
    ∀ fn off p a, s.bar2Place fn off = some (p, a) →
      (∀ data, ∃ t, exec (.bar2Write fn off data) s = .next t ∧ ∀ q, q ≠ p → (t.part q).hbm = (s.part q).hbm) ∧
      (∀ data, (s.part p).topGib * gib ≤ a → a < coreBase → ∃ t, exec (.bar2Write fn off data) s = .next t ∧
        t = { s with freeCtr := t.freeCtr, gdbg := { s.gdbg with gcnt := t.gdbg.gcnt } }) ∧
      (∀ n flt, (s.part p).topGib * gib ≤ a → a < coreBase → ∃ t, exec (.bar2Read fn off n flt) s = .next t ∧
        t = { s with
          freeCtr := t.freeCtr, gdbg := { s.gdbg with gcnt := t.gdbg.gcnt }
          out := s.out ++ [.barData fn (List.replicate n 0xFF) false] }) ∧
      (∀ data u, 0 < data.length → a % 256 + data.length ≤ 256 → a + data.length ≤ (s.part p).topGib * gib →
        (s.gevent 6 0 2 data.length).writeLine p a data true .clean = (u, .ok ()) →
        exec (.bar2Write fn off data) s = .next u ∧ sameBlock s u ∧ (∀ d, (u.core d).engines = (s.core d).engines) ∧
        ∀ x, s.target p (s.bankAddr p a) data.length true = .ok (.hbm x) →
          (u.part p).hbm.readN (s.bankAddr p a) data.length = data ∧
          ∀ y, (y < s.bankAddr p a ∨ s.bankAddr p a + data.length ≤ y) → (u.part p).hbm.read y = (s.part p).hbm.read y) ∧
      ∀ n u flt r, 0 < n → a % 256 + n ≤ 256 → a + n ≤ (s.part p).topGib * gib →
        (s.gevent 6 0 1 n).readLine p a n true flt = (u, r) →
        sameBlock s u ∧ (∀ d, (u.core d).engines = (s.core d).engines) ∧
        (∀ bs, r = .ok bs → exec (.bar2Read fn off n flt) s = .next { u with out := u.out ++ [.barData fn bs false] } ∧
          ∀ x, flt = .clean → s.target p (s.bankAddr p a) n true = .ok (.hbm x) →
            bs = (s.part p).hbm.readN (s.bankAddr p a) n ∧ ∀ q, (u.part q).hbm = (s.part q).hbm) ∧
        ∀ c, r = .error c →
          exec (.bar2Read fn off n flt) s = .next { u with out := u.out ++ [.barData fn (List.replicate n 0xFF) (c == 2)] }

/-- REGISTER_WRITE. A register write of a size other than 4 or 8 bytes, or one that is not aligned to its size, changes
nothing and counts. A word written in the set-up buffer, the window register or a VF's BAR2 base takes its value, and an
aligned write of 8 bytes acts as its low word, then its high word. Whatever a VF writes, the rings, the event ring, the memory
and the jobs of every other partition, the set-up table, the cores and the rest of the module stay as they are; only sensors
are reported besides. (R10, R366, R368, R389, R391) -/
def Obligations.RegisterWrites : Prop :=
  ∀ (s : State) (v : W64), s.chip.power = .on → s.chip.perst = false →
    let now (fn : Fn) (off size : Nat) (u : State) : Prop := exec (.registerWrite fn off size v) s = .next u.reportSensors
    (∀ fn off size, ¬(size = 4 ∧ off % 4 = 0) → ¬(size = 8 ∧ off % 8 = 0) →
      now fn off size { s with hif := { s.hif with badSize := min 0xFFFF (s.hif.badSize + 1) } }) ∧
    (∀ off, off % 4 = 0 → 0xE000 ≤ off → off < 0xF000 → now .pf off 4 { s with
      hif := { s.hif with buffer := s.hif.buffer.writeN (off - 0xE000) (toLe 4 (v.toNat % 2 ^ 32)) } }) ∧
    (∀ off, off % 8 = 0 → 0xE000 ≤ off → off < 0xF000 → 
      let low := s.hif.buffer.writeN (off - 0xE000) (toLe 4 (v.toNat % 2 ^ 32))
      now .pf off 8 { s with
        hif := { s.hif with buffer := low.writeN (off - 0xE000 + 4) (toLe 4 (v.toNat / 2 ^ 32 % 2 ^ 32)) } }) ∧
    now .pf 0x30 4 { s with hif := { s.hif with windows := v.toNat % 2 ^ 32 &&& 0xFFFF07 } } ∧
    (∀ p, now (.vf p) 0x42000 4 { s with hif := { s.hif with vfBase := setAt s.hif.vfBase p (bits (v.toNat % 2 ^ 32) 8 10) } }) ∧
    ∀ p off size, ∃ u, now (.vf p) off size u ∧
      u = { s with hif := u.hif, parts := u.parts, gdbg := u.gdbg, out := u.out } ∧
      ∀ q, q ≠ p → u.part q = s.part q ∧ u.evt (.vf q) = s.evt (.vf q) ∧ ∀ m, m < 64 → u.ring q m = s.ring q m

/-- The states of a port. A port goes DOWN when it is disabled, when its neighbour has not been heard for 3 ms, or when its
signal is lost, and the links of all other ports stay. A retraining takes an UP or HELLO_ONLY port to RETRAIN and changes
nothing else; its end returns the port on the width of its usable lanes. Training qualifies the lanes and leads to HELLO_ONLY,
or to DOWN without a usable lane. A valid hello shows the neighbour, and a port whose node and neighbour forward is then UP. A
trained port sends its hello. No part of the module outside the fabric changes but event rings. (R300, R313, R315, R320, R328,
R402, R485) -/
def Obligations.PortStates : Prop :=
  ∀ (s : State) (n : Nat), s.chip.power = .on →
    let q := s.port n
    let others (t : State) : Prop := ∀ m, m ≠ n → (t.port m).link = (s.port m).link
    let w := widthFor ((List.range 4).countP (fun i => !q.retired.testBit i))
    let forwarding (v : Nat) : Prop := v = 2 ∨ v = 3 ∨ v = 5
    (s.chip.perst = false →
      ((q.st = 2 ∨ q.st = 3) → ∃ t, exec (.retrain n) s = .next t ∧ portIs s t n { q with st := 4 }) ∧
      (q.st ≠ 2 → q.st ≠ 3 → exec (.retrain n) s = .next s) ∧
      ∃ t, exec (.disable n) s = .next t ∧ fabricOnly s t ∧ (t.port n).st = 0 ∧ (t.port n).disabled = true ∧ others t) ∧
    (q.st < 2 → exec (.helloTimeout n) s = .next s ∧ exec (.helloSend n) s = .next s ∧ ∀ raw, exec (.hello n raw) s = .next s) ∧
    (2 ≤ q.st → ∃ t, exec (.helloTimeout n) s = .next t ∧ fabricOnly s t ∧ (t.port n).st = 0 ∧ others t) ∧
    (∃ t, exec (.lossOfSignal n) s = .next t ∧ fabricOnly s t ∧ (t.port n).st = 0 ∧ (t.port n).cable = false ∧ others t) ∧
    (2 ≤ q.st → ∃ t h, exec (.helloSend n) s = .next t ∧ fabricOnly s t ∧ bits h 0 4 = 2 ∧
      t.out = s.out ++ [.flit n (flitBytes h (padTo 244 (s.helloBytes n)))] ∧ ∀ m, (t.port m).link = (s.port m).link) ∧
    (∀ raw, flitIs 2 raw = false → exec (.hello n raw) s = .next s) ∧
    (∀ raw, 2 ≤ q.st → flitIs 2 raw = true → ∃ t, exec (.hello n raw) s = .next t ∧ fabricOnly s t ∧ others t ∧
      (t.port n).nbValid = true ∧ (t.port n).nb = some (readHello (raw.drop 8)) ∧
      (t.port n).st = if q.st = 2 ∧ forwarding (s.nodeState (s.nodeOf n)) ∧ forwarding (readHello (raw.drop 8)).state then 3 else q.st) ∧
    (∀ errs, (s.portCount ≤ n ∨ q.st ≠ 0 ∨ s.bringing = true) → exec (.cableInsert n errs) s = .next s) ∧
    (∀ errs, n < s.portCount → q.st = 0 → s.bringing = false → q.disabled = true →
      ∃ t, exec (.cableInsert n errs) s = .next t ∧ portIs s t n { q with cable := true }) ∧
    (∀ errs, n < s.portCount → q.st = 0 → s.bringing = false → q.disabled = false →
      ∃ t, exec (.cableInsert n errs) s = .next t ∧ fabricOnly s t ∧
        ∀ m, t.port m = if m = n then
          { q.freshLink.qualify errs with cable := true, st := if (q.freshLink.qualify errs).lanes = 0 then 0 else 2 } else s.port m) ∧
    (∀ errs, q.st ≠ 1 → q.st ≠ 4 → exec (.portTrainingDone n errs) s = .next s) ∧
    (∀ errs, q.st = 1 → ∃ t, exec (.portTrainingDone n errs) s = .next t ∧ fabricOnly s t ∧
      (t.port n).st = (if (q.freshLink.qualify errs).lanes = 0 ∨ q.disabled = true then 0 else 2) ∧ others t) ∧
    (q.st = 4 → ∃ t, exec (.portTrainingDone n []) s = .next t ∧ fabricOnly s t ∧ (t.port n).lanes = w ∧
      (t.port n).st = (if q.nb.isSome then 3 else 2) ∧ others t ∧ ∃ more, t.out = s.out ++ q.replay.map (fun e => .flit n e.2) ++ more)

/-- Flits, replay, stalls and timestamps. On a port that is UP the packet flit that is due is accepted, and the next sequence
number is due; any other flit is discarded and a replay is asked for once. A replay request takes the acknowledgement of its
header and sends the stored flits again from the one it names. A request is repeated while the flit that is due has not come.
An idle flit gives back credits and frees acknowledged flits. A class and lane that waits without credit raises one event. A
timestamp from the parent yields the offset, clamped to 16 bits, and changes nothing but fabric time and event rings; one from
another port changes nothing. ARM keeps the epoch for the next edge. (R297, R298, R308, R309, R323, R325, R326) -/
def Obligations.FlitsAndTime : Prop :=
  ∀ (s : State) (n : Nat), s.chip.power = .on →
    let q := s.port n
    let others (t : State) : Prop := ∀ m, m ≠ n → (t.port m).link = (s.port m).link
    let due (raw : Bytes) : Prop := flitIs 1 raw = true ∧ bits (u64 raw 0) 4 2 ≠ 3 ∧ bits (u64 raw 0) 33 8 ≤ 244 ∧ bits (u64 raw 0) 9 12 = q.rxSeq
    (∀ raw lane, q.st ≠ 3 → exec (.packetFlit n raw lane) s = .next s) ∧
    (∀ raw lane, q.st = 3 → due raw → ∃ t, exec (.packetFlit n raw lane) s = .next t ∧ fabricOnly s t ∧ others t ∧
      (t.port n).st = 3 ∧ (t.port n).rxSeq = (q.rxSeq + 1) % 4096 ∧ (t.port n).rxWait = false) ∧
    (∀ raw lane, q.st = 3 → ¬due raw → ∃ t, exec (.packetFlit n raw lane) s = .next t ∧ fabricOnly s t ∧ others t ∧
      (t.port n).rxSeq = q.rxSeq ∧ (t.port n).rxWait = true ∧ t.nodes = s.nodes ∧
      (t.port n).crcFail = min 0xFF (q.crcFail + if crcPasses raw then 0 else 1) ∧
      (q.rxWait = true → t.out = s.out) ∧
      (q.rxWait = false → ∃ h, bits h 0 4 = 4 ∧ bits h 9 12 = q.rxSeq % 4096 ∧ t.out = s.out ++ [.flit n (flitBytes h [])])) ∧
    (∀ raw, (q.st ≠ 3 ∨ flitIs 4 raw = false) → exec (.replayRequest n raw) s = .next s) ∧
    (∀ raw i, q.st = 3 → flitIs 4 raw = true →
      (q.takeHeader (u64 raw 0)).replay.findIdx? (fun e => e.1 == bits (u64 raw 0) 9 12) = some i →
      ∃ t u, exec (.replayRequest n raw) s = .next t ∧ portIs s u n (q.takeHeader (u64 raw 0)) ∧
        t = { u with out := s.out ++ ((q.takeHeader (u64 raw 0)).replay.drop i).map (fun e => .flit n e.2) }) ∧
    (∀ raw, q.st = 3 → flitIs 4 raw = true →
      (q.takeHeader (u64 raw 0)).replay.findIdx? (fun e => e.1 == bits (u64 raw 0) 9 12) = none →
      ∃ t, exec (.replayRequest n raw) s = .next t ∧ portIs s t n (q.takeHeader (u64 raw 0))) ∧
    ((q.rxWait = false ∨ q.st ≠ 3) → exec (.replayRequestRepeat n) s = .next s) ∧
    (q.rxWait = true → q.st = 3 → ∃ t h, exec (.replayRequestRepeat n) s = .next t ∧ fabricOnly s t ∧ others t ∧
      bits h 0 4 = 4 ∧ bits h 9 12 = q.rxSeq % 4096 ∧ t.out = s.out ++ [.flit n (flitBytes h [])] ∧
      (t.port n).replays = min 0xFFFF (q.replays + 1) ∧ (t.port n).rxSeq = q.rxSeq ∧ (t.port n).rxWait = true) ∧
    (∀ raw, (q.st < 2 ∨ flitIs 0 raw = false) → exec (.idleFlit n raw) s = .next s) ∧
    (∀ raw, 2 ≤ q.st → flitIs 0 raw = true → ∃ t, exec (.idleFlit n raw) s = .next t ∧ fabricOnly s t ∧
      (∀ m, (t.port m).link = (s.port m).link) ∧ (q.egress = [] → portIs s t n (q.takeHeader (u64 raw 0)))) ∧
    (∀ tc vl, (q.egress.any (fun e => e.tc == tc && e.vl == vl) && q.credits.getD (2 * tc + vl) 0 == 0) = false →
      exec (.fabricStall n tc vl) s = .next s) ∧
    (∀ tc vl, (q.egress.any (fun e => e.tc == tc && e.vl == vl) && q.credits.getD (2 * tc + vl) 0 == 0) = true →
      ∃ t, exec (.fabricStall n tc vl) s = .next t ∧ posted s t) ∧
    (∀ a b c d, (s.time.root = true ∨ s.time.parent ≠ n ∨ q.st < 2) → exec (.timestamp n a b c d) s = .next s) ∧
    (∀ a b c d : Nat, s.time.root = false → s.time.parent = n → 2 ≤ q.st →
      ∃ t, exec (.timestamp n a b c d) s = .next t ∧
        t = { s with ft := t.ft, time := t.time, out := t.out, hif := { s.hif with evts := t.hif.evts } } ∧
        t.time.offset = max (-32767) (min 32767 ((((b : Int) - a) - ((d : Int) - c)) / 2 - q.asym)) ∧
        (s.time.everLocked = true → s.time.lostParent = false → t.ft = s.ft)) ∧
    (q.st < 2 → exec (.timestampSend n) s = .next s) ∧
    (2 ≤ q.st → exec (.timestampSend n) s = .next { s with out := s.out ++ [.stamp n s.ft] }) ∧
    ∀ hi, s.chip.perst = false →
      exec (.arm hi) s = .next { s with time := { s.time with epochHi := hi % 2 ^ 31, arm := true } }

/-- Route tables and management messages. A write of a word of a shadow table takes effect when it names ports of the node
only and leaves reserved bits zero; any other raises one event and changes nothing else. The tables in force change at a
commit alone, which makes them the shadow tables, counts the generation up and clears the withdrawals of the node's ports. A
management message of a manager that the node does not allow is answered with cause 5 and changes no table; an allowed read is
answered with the register. Nothing outside the fabric changes but event rings. (R317, R318, R319, R328) -/
def Obligations.RouteTables : Prop :=
  ∀ (s : State) (p : Nat), s.chip.power = .on →
    let d := s.node p
    (s.chip.perst = false →
      (∀ off (v : W32) x, tableWord off = some x → s.tableWordOk p x v.toNat = true →
        ∃ t, exec (.routeTableRegisterWrite p off v) s = .next t ∧ t = { s with nodes := t.nodes } ∧
          (∀ m, t.node m = if m = p then { d with shadow := d.shadow.putWord x v.toNat } else s.node m) ∧
          (t.node p).shadow.word x = v.toNat) ∧
      (∀ off (v : W32) x, tableWord off = some x → s.tableWordOk p x v.toNat = false →
        ∃ t, exec (.routeTableRegisterWrite p off v) s = .next t ∧ posted s t) ∧
      (∀ off (v : W32), tableWord off = none → exec (.routeTableRegisterWrite p off v) s = .next s) ∧
      ∃ t, exec (.routeCommit p) s = .next t ∧ t = { s with nodes := t.nodes, ports := t.ports } ∧
        (∀ m, t.node m = if m = p then { d with active := d.shadow, gen := (d.gen + 1) % 2 ^ 31 } else s.node m) ∧
        ∀ n, t.port n = if (s.portsOf p).contains n then { s.port n with withdrawn := [] } else s.port n) ∧
    (s.takeKind p 0x18 = none → exec (.mgmtWrite p) s = .next s) ∧
    (s.takeKind p 0x19 = none → exec (.mgmtRead p) s = .next s) ∧
    (s.takeKind p 0x1A = none → exec (.mgmtResp p) s = .next s) ∧
    (∀ u n tc k, s.takeKind p 0x1A = some (u, n, tc, k) → exec (.mgmtResp p) s = .next u ∧ u = { s with nodes := u.nodes }) ∧
    (∀ u n tc k, s.takeKind p 0x18 = some (u, n, tc, k) → (u.node p).allows k.src = false →
      ∃ t, exec (.mgmtWrite p) s = .next t ∧ t = u.respond p tc k 0x1A 5 [] ∧ fabricOnly s t ∧
        (t.node p).shadow = d.shadow ∧ (t.node p).active = d.active) ∧
    (∀ u n tc k x, s.takeKind p 0x18 = some (u, n, tc, k) → (u.node p).allows k.src = true → k.data.length = 4 →
      tableWord k.key = some x → u.tableWordOk p x (u32 k.data 0) = true →
      ∃ t, exec (.mgmtWrite p) s = .next t ∧ t = (u.putTableWord p x (u32 k.data 0)).respond p tc k 0x1A 0 [] ∧ fabricOnly s t ∧
        (t.node p).shadow = d.shadow.putWord x (u32 k.data 0) ∧ (t.node p).active = d.active) ∧
    ∀ u n tc k, s.takeKind p 0x19 = some (u, n, tc, k) →
      ∃ t, exec (.mgmtRead p) s = .next t ∧ fabricOnly s t ∧ (t.node p).shadow = d.shadow ∧ (t.node p).active = d.active ∧
        t = if (u.node p).allows k.src then u.respond p tc k 0x1A 0 (toLe 4 (u.brgRead p k.key)) else u.respond p tc k 0x1A 5 []

/-- WRITE, READ and the responses. A remote request is taken from the inbox of its node in the order of arrival. A write that
succeeds is answered when its bytes are in memory, and no other byte of the line's memory changes; one that fails, or goes to
a core store of a partition under a repair hold, is answered with its cause. A read is answered with its bytes or with its
cause; one that gets no response stays unanswered. A response reaches the channel or the segment that waits for its
transaction, which then waits no longer; one that nobody waits for changes nothing but the inbox. A response on TC0 waits in
front of the token bucket and carries the request's transaction back to its source. (R241, R269, R304, R306, R339, R410) -/
def Obligations.RemoteRequests : Prop :=
  ∀ (s : State) (p : Nat), s.chip.power = .on →
    (∀ kind u n tc k, s.takeKind p kind = some (u, n, tc, k) → k.kind = kind ∧ ∃ i, (s.node p).inbox[i]? = some (n, tc, k) ∧
      u = { s with nodes := u.nodes } ∧ ∀ m, u.node m = if m = p then { s.node p with inbox := (s.node p).inbox.eraseIdx i } else s.node m) ∧
    (∀ (u : State) k kind st data, ∃ r, u.respond p 0 k kind st data = u.setNode p { u.node p with tc0 := (u.node p).tc0 ++ [r] } ∧
      r.dest = k.src ∧ r.txn = k.txn ∧ r.kind = kind ∧ r.status = st ∧ r.data = data) ∧
    (s.takeKind p 0x01 = none → exec (.write p) s = .next s) ∧
    (s.takeKind p 0x02 = none → ∀ flt, exec (.read p flt) s = .next s) ∧
    (s.takeKind p 0x03 = none → exec (.readResp p) s = .next s) ∧
    (s.takeKind p 0x04 = none → exec (.writeResp p) s = .next s) ∧
    (s.takeKind p 0x05 = none → exec (.errorResp p) s = .next s) ∧
    (∀ u n tc k, s.takeKind p 0x01 = some (u, n, tc, k) →
      (u.holdRefuses p k.addr = true → exec (.write p) s = .next (u.respond p tc k 0x05 5 [])) ∧
      (∀ v c a, u.holdRefuses p k.addr = false → u.devWrite p k.addr k.data false = (v, .error (c, a)) →
        exec (.write p) s = .next (v.respond p tc k 0x05 c [])) ∧
      ∀ v, u.holdRefuses p k.addr = false → u.devWrite p k.addr k.data false = (v, .ok ()) →
        exec (.write p) s = .next (v.respond p tc k 0x04 0 []) ∧ (v.respond p tc k 0x04 0 []).parts = v.parts ∧
        (∀ q, q ≠ p → (v.part q).hbm = (s.part q).hbm) ∧
        ∀ x, 0 < k.data.length → k.addr % 256 + k.data.length ≤ 256 →
          u.target p (u.bankAddr p k.addr) k.data.length false = .ok (.hbm x) →
          (v.part p).hbm.readN (s.bankAddr p k.addr) k.data.length = k.data ∧
          ∀ y, (y < s.bankAddr p k.addr ∨ s.bankAddr p k.addr + k.data.length ≤ y) → (v.part p).hbm.read y = (s.part p).hbm.read y) ∧
    (∀ u n tc k, s.takeKind p 0x02 = some (u, n, tc, k) →
      exec (.read p .noResponse) s = .next u ∧
      ∀ flt, flt ≠ .noResponse →
        (∀ v c, 0 < k.len → u.readLine p k.addr (min k.len (256 - k.addr % 256)) false flt = (v, .error c) →
          exec (.read p flt) s = .next (v.respond p tc k 0x05 c [])) ∧
        ∀ v bs, 0 < k.len → k.addr % 256 + k.len ≤ 256 → u.readLine p k.addr k.len false flt = (v, .ok bs) →
          exec (.read p flt) s = .next (v.respond p tc k 0x03 0 bs)) ∧
    (∀ u n tc k w wt, u.takeWaiter p k.txn = (w, wt) →
      (s.takeKind p 0x03 = some (u, n, tc, k) → exec (.readResp p) s = .next (match wt with
        | some (.dma ch) => w.gotRead ch k.data
        | _ => w)) ∧
      (s.takeKind p 0x04 = some (u, n, tc, k) → exec (.writeResp p) s = .next (match wt with
        | some (.dma ch) => w.gotWrite ch
        | some (.chain _ _ _ _ _) => w.modExch p (fun x => { x with sends := x.sends.filter (fun e => e.txn != k.txn) })
        | _ => w)) ∧
      (s.takeKind p 0x05 = some (u, n, tc, k) →
        (∀ ch, wt = some (.dma ch) → exec (.errorResp p) s = .next (w.remoteFailed ch (k.status % 8))) ∧
        ((wt = none ∨ wt = some .fetch) → exec (.errorResp p) s = .next w)) ∧
      w = { u with nodes := w.nodes } ∧ SMap.get none k.txn (w.node p).waiters = none)

/-- REMOTE_SIGNAL, BAR_ARRIVE, BAR_RELEASE, TC0_INJECT and withdrawals. A signal from another module for a present core of a
partition that runs a job, outside holds and resets, adds its increment to the core's counter; any other is dropped and
counted. Arrivals add up at the lowest member until the whole group has arrived, when a release leaves to the group and the
sum starts again; a release frees the partition's cores that wait at its barrier and does nothing without them. A TC0 message
is accepted when every port it leaves on admits it, and waits otherwise. A withdrawal of a port for a destination ends at its
expiry and begins with a notice. (R200, R201, R212, R310, R311, R320, R496) -/
def Obligations.TokensAndArrivals : Prop :=
  ∀ (s : State) (p : Nat), s.chip.power = .on →
    (s.takeKind p 0x10 = none → exec (.remoteSignal p) s = .next s) ∧
    (s.takeKind p 0x11 = none → exec (.barArrive p) s = .next s) ∧
    (s.takeKind p 0x12 = none → exec (.barRelease p) s = .next s) ∧
    (∀ u n tc k c, s.takeKind p 0x10 = some (u, n, tc, k) → k.key / 65536 ≠ 0 → bits k.key 14 2 = 0 → s.fabricOn p = true →
      (s.coresOf p).lookup (bits k.key 0 9) = some c →
      ((s.part p).job.isSome = true → (s.part p).hold = false → (s.part p).resetting = 0 →
        (s.core c).seq.tokens.getD (bits k.key 9 5) 0 + k.key / 65536 ≤ 65535 →
        ∃ t, exec (.remoteSignal p) s = .next t ∧ t = { s with cores := t.cores, nodes := u.nodes } ∧
          ∀ x, t.core x = if x = c then
            { s.core c with seq := { (s.core c).seq with
              tokens := setAt (s.core c).seq.tokens (bits k.key 9 5) ((s.core c).seq.tokens.getD (bits k.key 9 5) 0 + k.key / 65536) } }
            else s.core x) ∧
      (((s.part p).job = none ∨ (s.part p).hold = true ∨ (s.part p).resetting ≠ 0) →
        ∃ t, exec (.remoteSignal p) s = .next t ∧ fabricOnly s t ∧ (t.node p).drops = min 0xFFFF_FFFF ((s.node p).drops + 1))) ∧
    (∀ u n tc k, s.takeKind p 0x11 = some (u, n, tc, k) →
      SMap.get 0 (k.key % 65536) (s.node p).arrivals + k.key / 65536 < (s.groupOf p).length →
      ∃ t, exec (.barArrive p) s = .next t ∧ t = { s with nodes := t.nodes } ∧ (∀ m, m ≠ p → t.node m = s.node m) ∧
        ∀ q, SMap.get 0 q (t.node p).arrivals =
          SMap.get 0 q (s.node p).arrivals + if q = k.key % 65536 then k.key / 65536 else 0) ∧
    (∀ u n tc k, s.takeKind p 0x11 = some (u, n, tc, k) →
      (s.groupOf p).length ≤ SMap.get 0 (k.key % 65536) (s.node p).arrivals + k.key / 65536 →
      ∃ t r, exec (.barArrive p) s = .next t ∧ SMap.get 0 (k.key % 65536) (t.node p).arrivals = 0 ∧
        (t.node p).tc0 = (s.node p).tc0 ++ [r] ∧ r.kind = 0x12 ∧ r.bcast = true ∧ r.key = k.key % 65536 ∧ sameBlock s t) ∧
    (∀ u n tc k, s.takeKind p 0x12 = some (u, n, tc, k) →
      ((s.arrivals p).any (fun a => a == (k.key % 65536, 1)) = false → exec (.barRelease p) s = .next u) ∧
      ((s.arrivals p).any (fun a => a == (k.key % 65536, 1)) = true → exec (.barRelease p) s = .next (u.releaseBarrier p))) ∧
    ((s.node p).tc0 = [] → exec (.tc0Inject p) s = .next s) ∧
    (∀ k rest, (s.node p).tc0 = k :: rest →
      let s1 := (s.tc0Ports p k).foldl (fun acc n => acc.setPort n ((acc.port n).refill acc.ft)) s
      ∃ t, exec (.tc0Inject p) s = .next t ∧ fabricOnly s t ∧
        (t.node p).tc0 = if (s.tc0Ports p k).all (fun n => (s1.port n).admits) then rest else k :: rest) ∧
    ∀ n,
      (∀ dest, ∃ t, exec (.withdrawalExpiry n dest) s = .next t ∧
        portIs s t n { s.port n with withdrawn := (s.port n).withdrawn.filter (· != dest) }) ∧
      (s.takeInbox (s.nodeOf n) (fun i k => i == n && k.kind == 0x1C) = none → exec (.unreachable n) s = .next s) ∧
      ∀ u i tc k, s.takeInbox (s.nodeOf n) (fun i k => i == n && k.kind == 0x1C) = some (u, i, tc, k) →
        ∃ t, exec (.unreachable n) s = .next t ∧ t = { s with nodes := u.nodes, ports := t.ports } ∧
          (t.port n).withdrawn.contains (k.key % 65536) = true ∧ ∀ m, m ≠ n → t.port m = s.port m

/-- Writes of EXCH_CTRL. START opens the first epoch of an exchange that is set up and idle: EXCH_EPOCH becomes FIRST_EPOCH,
the epoch opens at FIRST_OPEN, and every rank is active. LEAVE marks the member's own rank absent and broadcasts LEAVE; JOIN
begins to join in the table's rank without a valid bank and broadcasts JOIN. A degraded partition answers START and JOIN with
an event alone. Writes in another state, or without an exchange table, change nothing. That every rank starts active is the
model's choice (log 15). (R329, R335, R353, R358, R360, R400) -/
def Obligations.ExchangeControl : Prop :=
  ∀ (s : State) (p : Nat), s.chip.power = .on → s.chip.perst = false →
    let x := s.exch p
    let exchIs (u : State) (q : Part) : Prop := ∀ d, u.part d = if d = p then q else s.part d
    let sent (u : State) (k : Packet) : Prop := ∀ d, u.node d = if d = p then { s.node p with tc0 := (s.node p).tc0 ++ [k] } else s.node d
    (x.tbl = none → exec (.start p) s = .next s ∧ exec (.exchCtrlLeave p) s = .next s ∧ exec (.exchCtrlJoin p) s = .next s) ∧
    ∀ t, x.tbl = some t →
      ((s.part p).degraded = true → ∃ u, exec (.start p) s = .next u ∧ exec (.exchCtrlJoin p) s = .next u ∧ posted s u) ∧
      ((s.part p).degraded = false → x.state ≠ 0 → exec (.start p) s = .next s) ∧
      ((s.part p).degraded = false → x.state = 0 → ∃ u, exec (.start p) s = .next u ∧ u = { s with parts := u.parts } ∧
        exchIs u { s.part p with
          exch := { x.fresh with
            state := 1, epoch := t.firstEpoch, tOpen := t.firstOpen, bankValid := true, status := List.replicate t.g 0 } }) ∧
      ((x.state = 0 ∨ x.state = 6) → exec (.exchCtrlLeave p) s = .next s) ∧
      (x.state ≠ 0 → x.state ≠ 6 → ∃ u k, exec (.exchCtrlLeave p) s = .next u ∧
        u = { s with parts := u.parts, nodes := u.nodes, out := u.out, hif := { s.hif with evts := u.hif.evts } } ∧
        exchIs u { s.part p with left := true, exch := { x with state := 6, status := setAt x.status t.rank 2 } } ∧ sent u k ∧
        k.kind = 0x13 ∧ k.bcast = true ∧ k.key = 5 + 256 * t.rank ∧ k.data = ctrlBytes x.epoch 0 0 0 0 x.gen) ∧
      ((s.part p).degraded = false → x.state ≠ 0 → x.state ≠ 6 → exec (.exchCtrlJoin p) s = .next s) ∧
      ((s.part p).degraded = false → (x.state = 0 ∨ x.state = 6) → ∃ u k, exec (.exchCtrlJoin p) s = .next u ∧
        u = { s with parts := u.parts, nodes := u.nodes } ∧
        exchIs u { s.part p with
          left := false
          exch := { x.fresh with
            state := 5, status := setAt (if x.status = [] then List.replicate t.g 0 else x.status) t.rank 1
            stateCopy := [], bankValid := false } } ∧ sent u k ∧
        k.kind = 0x13 ∧ k.bcast = true ∧ k.key = 6 + 256 * t.rank ∧ k.data = ctrlBytes x.epoch 0 0 0 0 x.gen)

/-- SUSPECT, LEAVE, JOIN, JOIN_READY and COMMIT_QUERY. SUSPECT, LEAVE and JOIN_READY note their rank once, and JOIN marks it
joining; nothing else changes but the inbox. A COMMIT_QUERY of the epoch that was committed is answered to its sender with
COMMIT, its T_open and its generation. A member that holds every PUB_DONE and no COMMIT asks the leader and the backups for
the epoch to come. (R304, R353, R354, R358, R360) -/
def Obligations.ExchangeMessages : Prop :=
  ∀ (s : State) (p : Nat), s.held = false →
    let exchIs (u v : State) (x : Exch) : Prop := v = { u with parts := v.parts } ∧
      ∀ d, v.part d = if d = p then { u.part p with exch := x } else u.part d
    let noted (l : List Nat) (r : Nat) : List Nat := if l.contains r then l else l ++ [r]
    (s.takeCtrl p 3 = none → exec (.commitQuery p) s = .next s) ∧
    (s.takeCtrl p 4 = none → exec (.suspect p) s = .next s) ∧
    (s.takeCtrl p 5 = none → exec (.leave p) s = .next s) ∧
    (s.takeCtrl p 6 = none → exec (.join p) s = .next s) ∧
    (s.takeCtrl p 7 = none → exec (.joinReady p) s = .next s) ∧
    (∀ u k, s.takeCtrl p 4 = some (u, k) → ∃ v, exec (.suspect p) s = .next v ∧
      exchIs u v { s.exch p with suspects := noted (s.exch p).suspects (bits k.key 8 16) }) ∧
    (∀ u k, s.takeCtrl p 5 = some (u, k) → ∃ v, exec (.leave p) s = .next v ∧
      exchIs u v { s.exch p with leaving := noted (s.exch p).leaving (bits k.key 8 16) }) ∧
    (∀ u k, s.takeCtrl p 6 = some (u, k) → ∃ v, exec (.join p) s = .next v ∧
      exchIs u v { s.exch p with status := setAt (s.exch p).status (bits k.key 8 16) 1 }) ∧
    (∀ u k, s.takeCtrl p 7 = some (u, k) → ∃ v, exec (.joinReady p) s = .next v ∧
      exchIs u v { s.exch p with joinReady := noted (s.exch p).joinReady (bits k.key 8 16) }) ∧
    (∀ u k op, s.takeCtrl p op = some (u, k) → k.kind = 0x13 ∧ k.key % 256 = op ∧ u = { s with nodes := u.nodes }) ∧
    (∀ u k c, s.takeCtrl p 3 = some (u, k) → (s.exch p).tbl.isSome = true → (s.exch p).commitSent = some c → c.1 = u32 k.data 0 →
      ∃ v r, exec (.commitQuery p) s = .next v ∧ v = { s with nodes := v.nodes } ∧
        (v.node p).tc0 = (u.node p).tc0 ++ [r] ∧ r.dest = k.src ∧ r.bcast = false ∧ r.kind = 0x13 ∧ r.key = 2 ∧
        r.data = ctrlBytes c.1 0 0 0 c.2.1 c.2.2) ∧
    (∀ u k c, s.takeCtrl p 3 = some (u, k) → (s.exch p).commitSent = some c → c.1 ≠ u32 k.data 0 →
      exec (.commitQuery p) s = .next u) ∧
    ∀ t, (s.exch p).tbl = some t →
      (((s.exch p).allPublished t = false ∨ (s.exch p).commitSeen.isSome = true ∨ (s.exch p).state = 0 ∨ (s.exch p).state = 6) →
        exec (.commitQuerySend p) s = .next s) ∧
      ((s.exch p).allPublished t = true → (s.exch p).commitSeen = none → (s.exch p).state ≠ 0 → (s.exch p).state ≠ 6 →
        ∃ v ks, exec (.commitQuerySend p) s = .next v ∧ v = { s with nodes := v.nodes } ∧
          (v.node p).tc0 = (s.node p).tc0 ++ ks ∧
          ks.map (·.dest) = ((((s.exch p).leader t).toList ++ (s.exch p).backups t).filter (· != t.rank)).map t.idOf ∧
          ∀ k ∈ ks, k.kind = 0x13 ∧ k.bcast = false ∧ k.key = 3 ∧
            k.data = ctrlBytes ((s.exch p).epoch + 1) 0 0 0 0 (s.exch p).gen)

/-- CHAIN, HOP_TIMEOUT and CONTRIBUTION_DEADLINE. A chain segment that reaches a member without an open exchange gets an error
response; any other is answered with success. One of another epoch, and a copy of a segment handled before, is answered and
changes nothing more. A segment that comes before the gradients are ready and before the deadline waits. A hop that
contributes adds its gradients value by value in FP32 and counts one contribution. A segment unanswered after its second try
marks its rank failed; after the first it is sent once more, or its rank is marked failed. At the deadline a member that is
not ready counts the late contribution, once an exchange. No command of the chain changes another partition's exchange. (R337,
R339, R340, R341, R356, R358) -/
def Obligations.Chains : Prop :=
  ∀ (s : State) (p : Nat), s.held = false →
    (s.takeKind p 0x20 = none → exec (.chain p) s = .next s) ∧
    (∀ u n tc k, s.takeKind p 0x20 = some (u, n, tc, k) →
      ((s.exch p).tbl = none ∨ (s.exch p).state = 0 ∨ (s.exch p).state = 6 → exec (.chain p) s = .next (u.respond p tc k 0x05 5 [])) ∧
      ∀ t, (s.exch p).tbl = some t → (s.exch p).state ≠ 0 → (s.exch p).state ≠ 6 →
        (u32 k.data 0 < (s.exch p).epoch → exec (.chain p) s = .next (u.respond p tc k 0x04 0 [])) ∧
        (u32 k.data 0 = (s.exch p).epoch → (s.exch p).state = 4 ∨ (s.exch p).state = 5 →
          exec (.chain p) s = .next (u.respond p tc k 0x04 0 [])) ∧
        (u32 k.data 0 = (s.exch p).epoch → bit k.key 17 = false →
          (s.exch p).seen.contains (bit k.key 16, false, k.key % 65536, u32 k.data 4) = true →
          exec (.chain p) s = .next (u.respond p tc k 0x04 0 [])) ∧
        (u32 k.data 0 = (s.exch p).epoch → bit k.key 17 = true →
          (s.exch p).seen.any (fun e => e.2.1 && e.2.2.1 == k.key % 65536 && e.2.2.2 == u32 k.data 4) = true →
          exec (.chain p) s = .next (u.respond p tc k 0x04 0 [])) ∧
        (u32 k.data 0 = (s.exch p).epoch → (s.exch p).state ≠ 4 → (s.exch p).state ≠ 5 → bit k.key 17 = false → bit k.key 16 = false →
          (s.exch p).seen.contains (false, false, k.key % 65536, u32 k.data 4) = false →
          SMap.get 0 (k.key % 65536) (s.exch p).decided = 0 → (s.exch p).ready = false → (s.exch p).lateDone = false →
          ∃ v, exec (.chain p) s = .next v ∧ fabricOnly { s with parts := v.parts } v ∧
            ∀ d, v.part d = if d = p then
              { s.part p with
                exch := { s.exch p with
                  seen := (s.exch p).seen ++ [(false, false, k.key % 65536, u32 k.data 4)]
                  waiting := (s.exch p).waiting ++ [readSeg k] } } else s.part d)) ∧
    (∀ t g first v ws, s.words p (t.gradBase + 4 * (t.edges.getD g.shard 0 + 504 * g.seg)) (t.segLen g.shard g.seg) = (v, .ok ws) →
      s.contribute p t g first =
        (v, { g with contrib := g.contrib + 1, vals := if first then ws else List.zipWith fadd g.vals ws })) ∧
    (∀ t txn, (s.exch p).tbl = some t →
      ((s.exch p).sends.find? (fun e => e.txn == txn) = none → exec (.hopTimeout p txn) s = .next s) ∧
      ∀ c, (s.exch p).sends.find? (fun e => e.txn == txn) = some c →
        ∃ v, exec (.hopTimeout p txn) s = .next v ∧ sameBlock s v ∧ (∀ d, d ≠ p → v.exch d = s.exch d) ∧
          (2 ≤ c.tries → (v.exch p).failed.contains c.rank = true) ∧
          (c.tries < 2 → (v.exch p).failed.contains c.rank = true ∨
            ∃ e ∈ (v.exch p).sends, e.rank = c.rank ∧ e.final = c.final ∧ e.seg = c.seg ∧ e.tries = 2)) ∧
    ∀ t, (s.exch p).tbl = some t →
      (s.ft < (s.exch p).deadline t ∨ (s.exch p).ready = true ∨ (s.exch p).lateDone = true ∨
        ((s.exch p).state ≠ 1 ∧ (s.exch p).state ≠ 2) → exec (.contributionDeadline p) s = .next s) ∧
      ((s.exch p).deadline t ≤ s.ft → (s.exch p).ready = false → (s.exch p).lateDone = false →
        (s.exch p).state = 1 ∨ (s.exch p).state = 2 →
        ∃ v, exec (.contributionDeadline p) s = .next v ∧ sameBlock s v ∧ (∀ d, d ≠ p → v.exch d = s.exch d) ∧
          (v.exch p).lateDone = true ∧ (v.exch p).late = min 0xFF ((s.exch p).late + 1) ∧ (v.exch p).epoch = (s.exch p).epoch)

/-- PUBLISH, PUB_DONE, TAKEOVER, SHARD_LOST, SHARD_FETCH and STATE_COPY. While no COMMIT has been seen: a PUBLISH packet for
the epoch to come lies in the next bank afterwards and its bytes are counted for its shard and source; the first PUB_DONE of a
shard is recorded and a later one changes no record. A publisher repeats the notice of every shard it has published until it
sees COMMIT. A buddy that takes a shard over publishes it and counts the takeover. The leader raises one event for a shard
that nobody has published. A fetched shard whose CRC is the published one is complete. A joining member notes a verified copy
of a shard's state at most once; an owner that has sent a copy no longer owes it. (R349, R350, R351, R352, R356, R357, R359) -/
def Obligations.Publication : Prop :=
  ∀ (s : State) (p : Nat), s.held = false →
    (s.takeKind p 0x21 = none → exec (.publish p) s = .next s) ∧
    (s.takeCtrl p 1 = none → exec (.pubDone p) s = .next s) ∧
    ∀ t, (s.exch p).tbl = some t →
      let x := s.exch p
      (∀ u n tc k, s.takeKind p 0x21 = some (u, n, tc, k) →
        ((x.state = 0 ∨ 5 < x.state) → exec (.publish p) s = .next u) ∧
        (1 ≤ x.state → x.state ≤ 5 → k.key / 65536 ≠ (x.epoch + 1) % 65536 → k.key / 65536 ≠ (x.epoch + 2) % 65536 →
          exec (.publish p) s = .next u) ∧
        (1 ≤ x.state → x.state ≤ 5 → k.key / 65536 = (x.epoch + 1) % 65536 → x.commitSeen = none →
          ∃ v, exec (.publish p) s = .next v ∧ sameBlock s v ∧ (∀ d, d ≠ p → v.exch d = s.exch d) ∧
            (v.exch p).got = (x.addGot (k.key % 65536) k.src k.data.length).got ∧ (v.exch p).epoch = x.epoch ∧
            (v.exch p).pubDone = x.pubDone ∧
            (v.part p).hbm = ((u.devWrite p (t.nextBase + k.addr) k.data true).1.part p).hbm)) ∧
      (∀ u k, s.takeCtrl p 1 = some (u, k) →
        ((x.state = 0 ∨ x.state = 6 ∨ u32 k.data 0 ≤ x.epoch) → exec (.pubDone p) s = .next u) ∧
        (x.state ≠ 0 → x.state ≠ 6 → u32 k.data 0 = x.epoch + 1 → x.commitSeen = none →
          ∃ v, exec (.pubDone p) s = .next v ∧ sameBlock s v ∧ (∀ d, d ≠ p → v.exch d = s.exch d) ∧ (v.exch p).epoch = x.epoch ∧
            (v.exch p).pubDone = (if (SMap.get none (bits k.key 8 16) x.pubDone).isSome then x.pubDone else
              SMap.set none (bits k.key 8 16) (some ⟨k.src, u32 k.data 4, u32 k.data 8, u32 k.data 12⟩) x.pubDone) ∧
            (x.leader t ≠ some t.rank → (v.exch p).commitSent = x.commitSent))) ∧
      (x.commitSeen.isSome = true → exec (.pubDoneRepeat p) s = .next s) ∧
      (x.commitSeen = none → ∃ v ks, exec (.pubDoneRepeat p) s = .next v ∧ sameBlock s v ∧ (v.node p).tc0 = (s.node p).tc0 ++ ks ∧
        ks.map (·.key) = x.published.map (fun sh => 1 + 256 * sh) ∧ (∀ k ∈ ks, k.kind = 0x13 ∧ k.bcast = true) ∧
        (v.exch p).published = x.published) ∧
      (∀ sh, x.buddy t sh ≠ some t.rank ∨ (SMap.get none sh x.pubDone).isSome = true ∨ x.haveSegs sh 0 (t.segments sh - 1) = false ∨
        x.published.contains sh = true ∨ ¬(x.state = 1 ∨ x.state = 2 ∨ x.state = 3) → exec (.takeover p sh) s = .next s) ∧
      (∀ sh, x.buddy t sh = some t.rank → SMap.get none sh x.pubDone = none → x.haveSegs sh 0 (t.segments sh - 1) = true →
        x.published.contains sh = false → (x.state = 1 ∨ x.state = 2 ∨ x.state = 3) →
        ∃ v, exec (.takeover p sh) s = .next v ∧ sameBlock s v ∧ (∀ d, d ≠ p → v.exch d = s.exch d) ∧
          (v.exch p).published = x.published ++ [sh] ∧ (v.exch p).takeovers = min 0xFF (x.takeovers + 1) ∧
          (SMap.get none sh (v.exch p).pubDone).isSome = true ∧ (v.exch p).epoch = x.epoch) ∧
      (∀ sh, ∃ v, exec (.shardLost p sh) s = .next v ∧
        if x.leader t = some t.rank ∧ SMap.get none sh x.pubDone = none ∧ sh < t.g ∧ (x.state = 2 ∨ x.state = 3) then
          v = s.postEvent (.vf p) Code.shardLost (toLe 4 sh) ∧ posted s v
        else v = s) ∧
      (∀ sh, exec (.shardFetch p sh none) s = .next s) ∧
      (∀ sh bs, bs.length ≠ ((s.shardRanges p t sh).map (·.2)).sum ∨ t.g ≤ sh → exec (.shardFetch p sh (some bs)) s = .next s) ∧
      (∀ sh bs, bs.length = ((s.shardRanges p t sh).map (·.2)).sum → sh < t.g → x.refetch.contains sh = false →
        (x.state = 4 ∨ x.state = 5) → s.shardComplete p t sh = false →
        (∀ i, SMap.get none sh x.pubDone = some i → i.crc ≠ crc32c bs → exec (.shardFetch p sh (some bs)) s = .next s) ∧
        (∀ i, SMap.get none sh x.pubDone = some i → i.crc = crc32c bs → x.commitSeen = none →
          ∃ v, exec (.shardFetch p sh (some bs)) s = .next v ∧ sameBlock s v ∧ (∀ d, d ≠ p → v.exch d = s.exch d) ∧
            v.exch p = { x with complete := x.complete ++ [sh] })) ∧
      (∀ sh bs, bs.length = ((s.shardRanges p t sh).map (·.2)).sum → sh < t.g → x.refetch.contains sh = true →
        ∃ v, exec (.shardFetch p sh (some bs)) s = .next v ∧ sameBlock s v ∧ (∀ d, d ≠ p → v.exch d = s.exch d) ∧
          v.exch p = { x with refetch := x.refetch.filter (· != sh) }) ∧
      (∀ sh, x.state ≠ 5 → x.stateCopy.contains sh = false → exec (.stateCopy p sh) s = .next s) ∧
      (∀ sh, x.state = 5 → ∃ v, exec (.stateCopy p sh) s = .next v ∧ sameBlock s v ∧ (∀ d, d ≠ p → v.exch d = s.exch d) ∧
        ((v.exch p).stateCopy = x.stateCopy ∨ ((v.exch p).stateCopy = x.stateCopy ++ [sh] ∧ x.stateCopy.contains sh = false)) ∧
        (v.exch p).epoch = x.epoch) ∧
      ∀ sh b w bs, x.state ≠ 5 → x.stateCopy.contains sh = true → x.buddy t sh = some b →
        s.devRead p (t.stateAt sh) (t.stateBytes (decide ((s.sched p t x.epoch).b1 % 2 ^ 31 = 0)) sh) true = (w, .ok bs) →
        ∃ v, exec (.stateCopy p sh) s = .next v ∧ sameBlock s v ∧ (∀ d, d ≠ p → v.exch d = s.exch d) ∧
          v.exch p = { x with stateCopy := x.stateCopy.filter (· != sh) }

/-- COMMIT, COMMIT_REPEAT and COMMIT_TIMEOUT. The first COMMIT for the epoch to come is acted on: with a complete bank and a
held step barrier the member flips, which inverts FLIPPED, raises EXCH_EPOCH by one, exchanges the two bank ranges and leaves
every byte of the partition's memory as it is; without the barrier it waits; without the bank it fetches what is missing. A
COMMIT of an epoch not later than its own, or a second copy, changes nothing but the inbox. The leader, and a backup that has
every notice and has seen none, sends COMMIT again. A step barrier held beyond the limit halts every stream of the partition
with E_COMMIT_TIMEOUT, and epoch and banks stay. (R333, R334, R354, R355, R356) -/
def Obligations.CommitAndFlip : Prop :=
  ∀ (s : State) (p : Nat), s.held = false →
    (s.takeCtrl p 2 = none → exec (.commit p) s = .next s) ∧
    ∀ t, (s.exch p).tbl = some t →
      let x := s.exch p
      (∀ u k, s.takeCtrl p 2 = some (u, k) →
        ((x.state = 0 ∨ x.state = 6 ∨ u32 k.data 0 ≤ x.epoch) → exec (.commit p) s = .next u) ∧
        (u32 k.data 0 = x.epoch + 1 → x.commitSeen.isSome = true → exec (.commit p) s = .next u) ∧
        (x.state ≠ 0 → x.state ≠ 6 → u32 k.data 0 = x.epoch + 1 → x.commitSeen = none →
          let y := { x with commitSeen := some (x.epoch + 1, u64 k.data 16, u32 k.data 24) }
          let w := u.modExch p (fun _ => y)
          ∃ v, exec (.commit p) s = .next v ∧ sameBlock s v ∧ (∀ d, d ≠ p → v.part d = s.part d) ∧ (v.part p).hbm = (s.part p).hbm ∧
            (w.bankComplete p t = false → v.exch p = { y with state := if x.state = 5 then 5 else 4 } ∧
              (v.part p).swap = (s.part p).swap) ∧
            (w.bankComplete p t = true → x.held = false → x.state ≠ 5 → v = w) ∧
            (w.bankComplete p t = true → x.held = true ∨ x.state = 5 →
              (v.exch p).epoch = (x.epoch + 1) % 2 ^ 32 ∧ (v.exch p).flipped = !x.flipped ∧ (v.exch p).bankValid = true ∧
              (v.exch p).commitSeen = none ∧ (v.exch p).held = false ∧ (v.exch p).tOpen = u64 k.data 16 ∧
              (v.exch p).gen = u32 k.data 24 ∧ (v.exch p).refetch = x.refetch ∧
              (v.part p).swap = (if x.flipped then none else some (t.curBase, t.nextBase, t.bankBytes)) ∧
              (x.held = true → ∀ c ∈ s.streamCores p, (v.core c).seq.arrived = none)))) ∧
      (x.commitSent = none → ((x.backups t).contains t.rank = false ∨ x.allPublished t = false ∨ x.commitSeen.isSome = true) →
        exec (.commitRepeat p) s = .next s) ∧
      (∀ c, x.commitSent = some c → ∃ v ks k, exec (.commitRepeat p) s = .next v ∧
        v = { s with parts := v.parts, nodes := v.nodes } ∧ (v.node p).tc0 = (s.node p).tc0 ++ ks ++ [k] ∧
        k.bcast = true ∧ k.kind = 0x13 ∧ k.key = 2 ∧ k.data = ctrlBytes c.1 0 0 0 c.2.1 c.2.2 ∧
        (v.exch p).commitSent = some c ∧ (v.exch p).epoch = x.epoch) ∧
      (x.commitSent = none → (x.backups t).contains t.rank = true → x.allPublished t = true → x.commitSeen = none →
        ∃ v ks k, exec (.commitRepeat p) s = .next v ∧ v = { s with parts := v.parts, nodes := v.nodes } ∧
          (v.node p).tc0 = (s.node p).tc0 ++ ks ++ [k] ∧ k.bcast = true ∧ k.kind = 0x13 ∧ k.key = 2 ∧
          ∃ c, (v.exch p).commitSent = some c ∧ c.1 = x.epoch + 1 ∧ k.data = ctrlBytes c.1 0 0 0 c.2.1 c.2.2) ∧
      ((x.held = false ∨ s.ft ≤ x.heldAt + t.limitMs * 10 ^ 6) → exec (.commitTimeout p) s = .next s) ∧
      (x.held = true → x.heldAt + t.limitMs * 10 ^ 6 < s.ft →
        ∃ v, exec (.commitTimeout p) s = .next v ∧ sameBlock s v ∧ v.exch p = { x with held := false } ∧
          (v.part p).swap = (s.part p).swap ∧
          ∀ c ∈ s.streamCores p, (s.core c).seq.failure = none → (v.core c).seq.halted = true ∧
            ∃ f, (v.core c).seq.failure = some f ∧ f.status = Code.commitTimeout)

/-- HX_PWR_EN, PERST# and full resets. A rise of HX_PWR_EN powers the module up, and one within a second of the fall waits for
that second. A fall switches it off and releases HX_PWRGD, HX_THERMTRIP# and HX_ALERT#. A full reset keeps only the queue of
commands, the part's fuses, pins and flash: memory, registers, set-up and jobs are as after power-up, and LAST_CAUSE tells
what asked for it. The PERST# level held from power-up holds the endpoint only; a later assertion is a full reset, which waits
while the MMC restarts. The deassertion frees the bring-up that was selected. (R392, R411, R412, R415, R430, R448, R478, R479,
R480) -/
def Obligations.Pins : Prop :=
  ∀ s : State,
    let h := s.chip
    let up (u : State) : Prop := fullyReset s u ((h.trip.map (·.1)).getD 0) ∧ u.chip.power = .on ∧ u.chip.pwrEn = true ∧ u.chip.pwrgd = true ∧
      u.chip.perst = true ∧ u.chip.perstSeen = false ∧ u.chip.perstHeld = false ∧ u.chip.deepNext = true ∧ u.chip.bank = h.bank ∧ u.chip.trip = h.trip
    let waits (u : State) (cause : Nat) : Prop := u.chip = { h with perst := u.chip.perst, perstHeld := u.chip.perstHeld, waitFull := some cause } ∧
      u = { s with chip := u.chip }
    (h.pwrEn = true → ∀ b, exec (.hxPwrEnRise b) s = .next s.reportSensors) ∧
    (h.pwrEn = false → ∃ u : State, exec (.hxPwrEnRise true) s = .next u.reportSensors ∧ up u) ∧
    (h.pwrEn = false → exec (.hxPwrEnRise false) s =
      .next (State.reportSensors { s with chip := { h with pwrEn := true, riseWaits := true } })) ∧
    ((h.riseWaits = false ∨ h.pwrEn = false) → exec .pwrEnLowTimeElapsed s = .next s.reportSensors) ∧
    (h.riseWaits = true → h.pwrEn = true → ∃ u : State, exec .pwrEnLowTimeElapsed s = .next u.reportSensors ∧ up u) ∧
    (h.pwrEn = false → exec .hxPwrEnFall s = .next s.reportSensors) ∧
    (h.pwrEn = true → ∃ u : State, exec .hxPwrEnFall s = .next u.reportSensors ∧ fullyReset s u h.lastCause ∧ u.chip.power = .off ∧
      u.chip.pwrEn = false ∧ u.chip.pwrgd = false ∧ u.chip.thermtrip = false ∧ u.chip.regAlert = false ∧ u.chip.trip = h.trip) ∧
    ((h.perst = true ∨ h.perstSeen = false ∨ h.power = .off ∨ h.power = .tripped) →
      exec .perstAssert s = .next (State.reportSensors { s with chip := { h with perst := true } })) ∧
    (h.perst = false → h.perstSeen = true → h.power ≠ .off → h.power ≠ .tripped →
      (s.mmc.restarting = true → ∃ u : State, exec .perstAssert s = .next u.reportSensors ∧ waits u 1 ∧ u.chip.perst = true ∧ u.chip.perstHeld = true) ∧
      (s.mmc.restarting = false → ∃ u : State, exec .perstAssert s = .next u.reportSensors ∧ fullyReset s u 1 ∧ u.chip.perst = true ∧
        u.chip.perstHeld = true ∧ u.chip.deepNext = false ∧ u.chip.power = .on)) ∧
    exec .perstDeassert s = .next (State.reportSensors { s with
      chip := { h with perst := false, perstSeen := true, perstHeld := false } }) ∧
    ((h.power ≠ .on ∨ h.perst = true) → exec .fullReset s = .next s.reportSensors) ∧
    (h.power = .on → h.perst = false →
      (s.mmc.restarting = true → ∃ u : State, exec .fullReset s = .next u.reportSensors ∧ waits u 2 ∧ u.chip.perst = false ∧ u.chip.perstHeld = h.perstHeld) ∧
      (s.mmc.restarting = false → ∃ u : State, exec .fullReset s = .next u.reportSensors ∧ fullyReset s u 2 ∧ u.chip.perst = false ∧
        u.chip.deepNext = false ∧ u.chip.power = .on))

/-- BRINGUP. A bring-up that is not due changes nothing. With no MMC image that passes the module stops in recovery mode,
failing at step 1. With a failed base die it fails at step 2. Every bring-up ends failed, and the module stays in bring-up, or
succeeded, and the module holds its outputs: cores are numbered on good cores only, and set-up, layout and queue are as
before. With nothing found and nothing fused bad it succeeds, the MMC runs, and every partition's cores have the core firmware
of the slot in use. (R392, R393, R395, R396, R399, R446, R449) -/
def Obligations.BringUp : Prop :=
  ∀ (s : State) (f : Findings),
    let due : Bool := s.bringing && s.chip.result == 0 && s.chip.power == .on && !s.chip.perstHeld
    let deep : Bool := s.chip.deepNext || s.chip.nextDeep || s.chip.memErr || f.deepDue
    let inUse := s.mmc.slotVerdict (s.mmc.slotOf 0 true) (if s.mmc.active.getD 0 false then f.mmcSlotB else f.mmcSlotA)
    let other := s.mmc.slotVerdict (s.mmc.slotOf 0 false) (if s.mmc.active.getD 0 false then f.mmcSlotA else f.mmcSlotB)
    (due = false → exec (.bringup f) s = .next s.reportSensors) ∧
    (due = true → ∃ u : State, exec (.bringup f) s = .next u.reportSensors ∧ u.pending = s.pending ∧ u.setup = s.setup ∧ u.layout = s.layout ∧
      u.serial = s.serial ∧ u.gradeS = s.gradeS ∧ u.ft = s.ft ∧ u.chip.deep = deep ∧ u.chip.bootFt = s.ft ∧
      ((u.bringing = true ∧ u.chip.result = 3 ∧ (u.chip.failStep = 1 ∨ u.chip.failStep = 2 ∨ u.chip.failStep = 3 ∨ u.chip.failStep = 8)) ∨
        (u.bringing = false ∧ (u.chip.result = 1 ∨ u.chip.result = 2) ∧ u.chip.stepDone = (if deep then 0x3FF else 0x3FE) ∧
          u.mmc.up = true ∧ (∀ e ∈ u.lmap, e.2 / 144 < 4 → u.chip.good.contains e.2 = true) ∧
          ∀ c, s.chip.fuseCores.contains c = true → u.chip.good.contains c = false))) ∧
    (due = true → inUse ≠ none → other ≠ none → ∃ u : State, exec (.bringup f) s = .next u.reportSensors ∧ u.chip.recovery = true ∧
      u.chip.failStep = 1 ∧ u.chip.result = 3 ∧ u.bringing = true ∧ u.mmc = s.mmc) ∧
    (due = true → inUse = none → f.baseDie ≠ none → ∃ u : State, exec (.bringup f) s = .next u.reportSensors ∧ u.chip.failStep = 2 ∧
      u.chip.result = 3 ∧ u.bringing = true ∧ u.mmc.up = true ∧ u.mmc.fallback = false) ∧
    (due = true → inUse ≠ none → other = none → f.baseDie ≠ none → ∃ u : State, exec (.bringup f) s = .next u.reportSensors ∧
      u.chip.failStep = 2 ∧ u.mmc.up = true ∧ u.mmc.fallback = true) ∧
    (due = true → inUse = none → f.baseDie = none → f.stackFail = [] → f.chanFail = [] → f.coreFail = [] → f.slabFail = [] →
      s.chip.bank = [] → s.chip.fuseCores = [] → s.chip.fuseChans = [] → s.chip.fuseSlabs = [] → s.hbmcs = [] → s.layout = 1 →
      (s.mmc.proved 0).slotVerdict (s.mmc.slotOf 1 true) f.coreFwOk = none →
      ∃ u : State, exec (.bringup f) s = .next u.reportSensors ∧ u.bringing = false ∧ u.chip.result = 1 ∧
        u.chip.good = List.range 576 ∧ u.mmc.up = true ∧ u.mmc.fallback = false ∧
        u.mmc.runCore = List.replicate 4 (s.mmc.slotOf 1 true).image)

/-- Compute, partition and function-level resets. A compute or partition reset of a partition empties its cores and keeps HBM,
set-up, EXCH_EPOCH and EXCH_BANK; it is ignored during bring-up, for a partition outside the layout and while a reset runs,
but a partition reset takes over a compute reset; a compute reset waits for a repair hold. A partition reset retrains the
ports. Their end clears the status, and after a partition reset logical numbers stand on good cores only and the partition is
degraded exactly when a die lacks part of its share. A reset of a VF ends its jobs, disables its rings and clears VF_STATUS;
one of the PF does so for each and withdraws set-up, while the layout stays. Nothing happens without the link. (R290, R358,
R363, R371, R377, R411, R412, R413) -/
def Obligations.Resets : Prop :=
  ∀ (s : State) (p : Nat),
    let q := s.part p
    let begun (u : State) (kind : Nat) : Prop := (u.part p).resetting = kind ∧ (u.part p).hold = false ∧ (u.part p).frozenAt = none ∧
      (∀ c, (s.dies p).contains (c / 144) = true → u.core c = Core.reset) ∧
      (∀ c, (s.dies p).contains (c / 144) = false → s.core c ≠ Core.reset → u.core c = s.core c) ∧
      (∀ d, (u.part d).hbm = (s.part d).hbm) ∧ u.setup = s.setup ∧ u.layout = s.layout ∧ u.lmap = s.lmap ∧ u.chip.good = s.chip.good ∧
      (u.exch p).epoch = q.exch.epoch ∧ (u.exch p).flipped = q.exch.flipped ∧ (u.exch p).tbl = q.exch.tbl ∧ (u.node p).inbox = []
    ((s.chip.power ≠ .on ∨ s.chip.perst = true) → exec (.computeReset p) s = .next s.reportSensors ∧
      exec (.partReset p) s = .next s.reportSensors ∧ exec (.functionLevelResetVf p) s = .next s.reportSensors ∧
      exec .functionLevelResetPf s = .next s.reportSensors) ∧
    (s.chip.power = .on → s.chip.perst = false →
      ((s.bringing = true ∨ s.layout ≤ p ∨ q.resetting ≠ 0) → exec (.computeReset p) s = .next s.reportSensors) ∧
      (s.bringing = false → p < s.layout → q.resetting = 0 → q.hold = true → exec (.computeReset p) s =
        .next (State.reportSensors { s with chip := { s.chip with waitHold := setAt s.chip.waitHold p true } })) ∧
      (s.bringing = false → p < s.layout → q.resetting = 0 → q.hold = false →
        ∃ u : State, exec (.computeReset p) s = .next u.reportSensors ∧ begun u 1 ∧ u.ports = s.ports ∧ u.chip.failing = s.chip.failing) ∧
      ((s.bringing = true ∨ s.layout ≤ p ∨ q.resetting = 2) → exec (.partReset p) s = .next s.reportSensors) ∧
      (s.bringing = false → p < s.layout → q.resetting ≠ 2 →
        ∃ u : State, exec (.partReset p) s = .next u.reportSensors ∧ begun u 2 ∧ u.chip.waitHold.getD p false = false ∧
          (∀ g ∈ u.chip.failing, u.partOfPhys g.phys ≠ p) ∧
          ∀ n ∈ s.portsOf p, (u.port n).st = if (s.port n).st = 0 then 0 else 1) ∧
      (∃ u : State, exec (.functionLevelResetVf p) s = .next u.reportSensors ∧ (u.part p).job = none ∧ (u.part p).next = none ∧
        (∀ e ∈ u.hif.pairs, e.1 / 64 ≠ p) ∧ u.setup = s.setup ∧ u.layout = s.layout ∧ (∀ d, (u.part d).hbm = (s.part d).hbm) ∧
        (q.job.isSome = false → u = { s with parts := u.parts, hif := s.hif.resetVf p })) ∧
      ∃ u : State, exec .functionLevelResetPf s = .next u.reportSensors ∧ u.setup = none ∧ u.hif.valid = false ∧ u.hif.windows = 0 ∧
        u.layout = s.layout ∧ u.lmap = s.lmap ∧ (∀ d, (u.part d).hbm = (s.part d).hbm) ∧ (∀ e ∈ u.hif.pairs, 4 ≤ e.1 / 64) ∧
        ∀ d < 4, (u.part d).job = none ∧ (u.part d).next = none ∧ (u.exch d).tbl = none ∧ (u.part d).reserve = (s.part d).reserve) ∧
    (s.chip.power = .on → q.resetting ≠ 1 → exec (.computeResetDone p) s = .next s.reportSensors) ∧
    (s.chip.power = .on → q.resetting = 1 → ∃ u : State, exec (.computeResetDone p) s = .next u.reportSensors ∧ (u.part p).resetting = 0 ∧
      u.setup = s.setup ∧ u.lmap = s.lmap ∧
      (s.chip.failing.any (fun g => s.partOfPhys g.phys == p) = true → s.mmc.restarting = false → (u.part p).hold = true)) ∧
    (∀ f, s.chip.power = .on → q.resetting ≠ 2 → exec (.partResetDone p f) s = .next s.reportSensors) ∧
    ∀ f, s.chip.power = .on → q.resetting = 2 → ∃ u : State, exec (.partResetDone p f) s = .next u.reportSensors ∧ (u.part p).resetting = 0 ∧
      u.setup = s.setup ∧ (u.part p).degraded = u.shortOf p ∧
      (∀ e ∈ u.lmap, (s.dies p).contains (e.2 / 144) = true → u.chip.good.contains e.2 = true) ∧
      (∀ c ∈ f.coreFail, (s.dies p).contains (c / 144) = true → u.chip.good.contains c = false) ∧
      ∀ e ∈ s.lmap, (s.dies p).contains (e.2 / 144) = false → e ∈ u.lmap

/-- PERMANENT_FAULT and SPARE_SUBSTITUTION. A lane, a row, a slab or a core that has passed its limit is retired, marked for
repair or marked for retirement at the next reset; a core with a logical number puts its partition under a repair hold, and a
spare gets its field-repair entry at once. The spare of a failed core is the nearest of its die and of equals the lower. A
spare that passes its test takes the logical number over; one that fails is retired; without a spare the number becomes
absent. The hold ends with the last failed core of the partition. (R300, R397, R398, R400, R406, R408, R409, R410, R414) -/
def Obligations.Repair : Prop :=
  ∀ s : State, s.chip.power = .on →
    let fault (f : FaultEvent) (u : State) : Prop := exec (.permanentFault f) s = .next u.reportSensors
    (∀ n l, (4 ≤ l ∨ (s.port n).retired.testBit l = true) → fault (.laneReplays n l) s) ∧
    (∀ n l, l < 4 → (s.port n).retired.testBit l = false → ∃ u, fault (.laneReplays n l) u ∧ fabricOnly s u ∧
      (u.port n).retired = (s.port n).retired + 2 ^ l ∧ ∀ m, m ≠ n → (u.port m).link = (s.port m).link) ∧
    (∀ k pc c b r, (s.hbmc k).pendRows.contains ⟨pc, c, b, r⟩ = true → fault (.rowErrors k pc c b r) s) ∧
    (∀ k pc c b r, (s.hbmc k).pendRows.contains ⟨pc, c, b, r⟩ = false → ∃ u, fault (.rowErrors k pc c b r) u ∧
      u = { s with hbmcs := u.hbmcs, out := u.out, hif := { s.hif with evts := u.hif.evts } } ∧
      ∀ x, u.hbmc x = if x = k then { s.hbmc k with pendRows := (s.hbmc k).pendRows ++ [⟨pc, c, b, r⟩] } else s.hbmc x) ∧
    (∀ k c pin, ∃ u, fault (.channelErrors k c) u ∧ fault (.pinErrors k c pin) u ∧ fault (.rowsUnrepairable k c) u ∧ sameBlock s u ∧
      u.cores = s.cores ∧
      (s.pcRetired ⟨k, c, 0⟩ = true → u = s) ∧
      (s.pcRetired ⟨k, c, 0⟩ = false → (s.part (s.partOfStack k)).evac = [] → (s.part (s.partOfStack k)).reserve ≠ 0 →
        (u.part (s.partOfStack k)).evac = [(k, c, false)])) ∧
    (∀ d t, ∃ u, fault (.nimCorrectable d t) u ∧ fault (.nimPoisoned d t) u ∧ u = { s with slices := u.slices } ∧
      ∀ x, u.slice x = if x = d then { s.slice d with marked := (s.slice d).marked ||| 2 ^ t } else s.slice x) ∧
    (∀ c, s.chip.good.contains c = false → fault (.parity c) s ∧ fault (.storeCorrectable c) s ∧ fault (.storeUncorrectable c) s) ∧
    (∀ c l, s.chip.good.contains c = true → s.logicalOf c = some l →
      (∃ u, fault (.parity c) u ∧ u.chip.good = s.chip.good.filter (· != c) ∧ u.chip.failing = s.chip.failing ++ [⟨l, c, 2⟩] ∧
        ((s.part (s.partOfPhys c)).resetting = 0 → s.mmc.restarting = false → (u.part (s.partOfPhys c)).hold = true) ∧ u.lmap = s.lmap) ∧
      ∃ u, fault (.storeCorrectable c) u ∧ fault (.storeUncorrectable c) u ∧ u.chip.failing = s.chip.failing ++ [⟨l, c, 3⟩] ∧ u.lmap = s.lmap) ∧
    (∀ c, s.chip.good.contains c = true → s.logicalOf c = none → ∃ u, fault (.parity c) u ∧
      u = { s with chip := u.chip, out := u.out, hif := { s.hif with evts := u.hif.evts } } ∧
      u.chip.good = s.chip.good.filter (· != c) ∧
      u.chip.bank = (if s.chip.bank.length < 256 then s.chip.bank ++ [1 + 16 * corePlace c + 2 ^ 20 * 2] else s.chip.bank)) ∧
    (∀ c x, s.spareFor c = some x → x ∈ s.chip.spares ∧ x / 144 = c / 144 ∧
      ∀ y ∈ s.chip.spares, y / 144 = c / 144 → meshHops x c < meshHops y c ∨ (meshHops x c = meshHops y c ∧ x ≤ y)) ∧
    ∀ p passed,
      ((s.part p).hold = false ∨ s.chip.failing.find? (fun g => s.partOfPhys g.phys == p) = none →
        exec (.spareSubstitution p passed) s = .next s.reportSensors) ∧
      ∀ g, (s.part p).hold = true → s.chip.failing.find? (fun g => s.partOfPhys g.phys == p) = some g →
        let rest := s.chip.failing.filter (fun x => x.phys != g.phys)
        (∀ c, s.spareFor g.phys = some c → passed = true → ∃ u : State, exec (.spareSubstitution p passed) s = .next u.reportSensors ∧
          u.lmap = s.lmap.map (fun e => if e.1 = g.logical then (e.1, c) else e) ∧ u.chip.spares = s.chip.spares.filter (· != c) ∧
          u.chip.failing = rest ∧ (u.part p).hold = rest.any (fun x => s.partOfPhys x.phys == p)) ∧
        (∀ c, s.spareFor g.phys = some c → passed = false → s.chip.good.contains c = true →
          ∃ u : State, exec (.spareSubstitution p passed) s = .next u.reportSensors ∧ u.lmap = s.lmap ∧ u.chip.spares = s.chip.spares.filter (· != c) ∧
            u.chip.good = s.chip.good.filter (· != c) ∧ u.chip.failing = s.chip.failing ∧ (u.part p).hold = true) ∧
        (s.spareFor g.phys = none → ∃ u : State, exec (.spareSubstitution p passed) s = .next u.reportSensors ∧
          u.lmap = s.lmap.filter (fun e => e.1 != g.logical) ∧ u.chip.failing = rest ∧ (u.part p).degraded = u.shortOf p ∧
          (u.part p).hold = rest.any (fun x => s.partOfPhys x.phys == p))

/-- Classes, input voltage, regulators and the power limiter. LOWER lowers the class while no job runs, is ignored when it
would raise it, and sets LOWER_ERR while a job runs. A change of the straps waits for the next full reset and raises one
event. A voltage outside 44 to 57 V for 100 us, and a regulator fault, shut the module down; one outside 48 to 54 V for 1 ms
holds every die at 0.75 GHz until the voltage is back. An average above the class's envelope lowers the issue cap by one, down
to 4, and then ARITH by one step; one below 95 per cent of it restores ARITH first. A die's fall takes effect at once and its
rise once the core voltage has been raised. (R416, R418, R420, R421, R423, R430, R431, R433, R436) -/
def Obligations.PowerLimits : Prop :=
  ∀ s : State,
    let rails := s.chip.power ≠ .off ∧ s.chip.power ≠ .tripped
    let cap := min s.gov.limitCap (classCap s.cls s.gradeS)
    let step := max s.gov.limitStep (classStep s.cls)
    let acted (t u : State) (g : Gov) : Prop := ∃ w, settled { t with gov := g } w ∧ (u = w ∨ posted w u) ∧
      g.limiting = true ∧ g.lastLimit.isSome = true
    (s.chip.power = .on → s.chip.perst = false → ∀ code,
      (s.cls ≤ code % 4 → exec (.lower code) s = .next (State.reportSensors { s with gov := { s.gov with lower := code % 4 } })) ∧
      (code % 4 < s.cls → s.anyJob = true → exec (.lower code) s = .next (State.reportSensors { s with gov := { s.gov with lowerErr := true } })) ∧
      (code % 4 < s.cls → s.anyJob = false → ∃ u : State, exec (.lower code) s = .next u.reportSensors ∧
        settled { s with cls := code % 4, gov := { s.gov with lower := code % 4 } } u)) ∧
    (∀ v, v % 4 = s.chip.straps → exec (.classStrapChange v) s = .next s.reportSensors) ∧
    (∀ v, v % 4 ≠ s.chip.straps → ∃ u : State, exec (.classStrapChange v) s = .next u.reportSensors ∧ u.cls = s.cls ∧
      let t := { s with chip := { s.chip with straps := v % 4 } }
      if s.chip.power = .on ∧ s.chip.perstHeld = false then posted t u else u = t) ∧
    (¬rails → exec .regulatorFault s = .next s.reportSensors ∧ (∀ w v, exec (.powerSample w v) s = .next s.reportSensors) ∧
      (∀ v us, exec (.inputVoltageExcursion v us) s = .next s.reportSensors) ∧ exec .powerLimitStep s = .next s) ∧
    (rails →
      (∃ u : State, exec .regulatorFault s = .next u.reportSensors ∧ tripped s u 4 0 0) ∧
      (∀ v us, (v < 440 ∨ 570 < v) → 100 ≤ us → ∃ u : State, exec (.inputVoltageExcursion v us) s = .next u.reportSensors ∧ tripped s u 4 0 0) ∧
      (∀ v us, (v < 440 ∨ 570 < v) → us < 100 → exec (.inputVoltageExcursion v us) s = .next s.reportSensors) ∧
      (∀ v us, 480 ≤ v → v ≤ 540 → ∃ u : State, exec (.inputVoltageExcursion v us) s = .next u.reportSensors ∧
        settled { s with gov := { s.gov with inputBad := false } } u) ∧
      (∀ v us, 440 ≤ v → v ≤ 570 → (v < 480 ∨ 540 < v) → us < 1000 → exec (.inputVoltageExcursion v us) s = .next s.reportSensors) ∧
      (∀ v us, 440 ≤ v → v ≤ 570 → (v < 480 ∨ 540 < v) → 1000 ≤ us → ∃ u w : State, exec (.inputVoltageExcursion v us) s = .next u.reportSensors ∧
        settled { s with gov := { s.gov with inputBad := true } } w ∧ if s.gov.inputBad then u = w else posted w u) ∧
      (∀ watt v, (watt ≤ envelope s.cls ∨ s.gov.limiting = true) → s.gov.inputBad = false → exec (.powerSample watt v) s =
        .next (State.reportSensors { s with gov := { s.gov with powerW := min 4095 watt, vinDv := min 1023 v } })) ∧
      (∀ watt v, envelope s.cls < watt → s.gov.limiting = false → s.gov.inputBad = false → 4 < cap →
        ∃ (u : State) (g : Gov), exec (.powerSample watt v) s = .next u.reportSensors ∧ acted s u g ∧ g.limitCap = cap - 1 ∧ g.limitStep = s.gov.limitStep ∧
          g.powerW = min 4095 watt ∧ g.vinDv = min 1023 v) ∧
      (s.gov.limiting = false → exec .powerLimitStep s = .next s) ∧
      (s.gov.limiting = true → s.gov.powerW ≤ envelope s.cls → 95 * envelope s.cls ≤ 100 * s.gov.powerW → exec .powerLimitStep s = .next s) ∧
      (s.gov.limiting = true → envelope s.cls < s.gov.powerW →
        (4 < cap → ∃ (u : State) (g : Gov), exec .powerLimitStep s = .next u ∧ acted s u g ∧ g.limitCap = cap - 1 ∧ g.limitStep = s.gov.limitStep) ∧
        (cap ≤ 4 → step < 3 → ∃ (u : State) (g : Gov), exec .powerLimitStep s = .next u ∧ acted s u g ∧ g.limitCap = s.gov.limitCap ∧ g.limitStep = step + 1) ∧
        (cap ≤ 4 → 3 ≤ step → exec .powerLimitStep s = .next s)) ∧
      (s.gov.limiting = true → 100 * s.gov.powerW < 95 * envelope s.cls →
        (classStep s.cls + 1 < s.gov.limitStep → ∃ u : State, exec .powerLimitStep s = .next u ∧
          settled { s with gov := { s.gov with limitStep := s.gov.limitStep - 1 } } u) ∧
        (s.gov.limitStep ≤ classStep s.cls → s.gov.limitCap + 1 < classCap s.cls s.gradeS → ∃ u : State, exec .powerLimitStep s = .next u ∧
          settled { s with gov := { s.gov with limitCap := s.gov.limitCap + 1 } } u) ∧
        (s.gov.limitStep ≤ classStep s.cls → s.gov.limitCap + 1 = classCap s.cls s.gradeS → ∃ u : State, exec .powerLimitStep s = .next u ∧
          settled { s with gov := { s.gov with limiting := false, limitStep := 0, limitCap := 8 } } u))) ∧
    ∀ d, s.chip.power = .on →
      (s.gov.raising.getD d false = false → exec (.coreVoltageRaised d) s = .next s) ∧
      (s.gov.raising.getD d false = true → d < s.gov.actual.length → ∃ u : State, exec (.coreVoltageRaised d) s = .next u ∧ u = { s with gov := u.gov } ∧
        u.arithStep d = s.wantStep d ∧ u.gov.raising.getD d false = false ∧ ∀ e, e ≠ d → u.arithStep e = s.arithStep e)

/-- THERMAL_SAMPLE, THROTTLE_STEP and THROTTLE_RESTORE. A reading at 105 C or above trips the module, and the flash keeps the
first such sensor group and reading. Otherwise a die pair whose hottest reading is 95 C or above throttles afterwards, and no
die pair stops throttling. A further millisecond at or above 95 C lowers ARITH by one step, then waits 10 ms at the slowest
step, then lowers the issue cap by one, never below 1. Below 90 C the settings rise one step, the issue cap first. The highest
reading of each group is kept. (R429, R430, R436) -/
def Obligations.Temperatures : Prop :=
  ∀ s : State, s.chip.power ≠ .off → s.chip.power ≠ .tripped →
    (∀ rs r, rs.find? (fun r => decide (840 ≤ r.temp)) = some r → ∃ u : State, exec (.thermalSample rs) s = .next u.reportSensors ∧
      tripped { s with gov := u.gov } u 3 r.group r.temp ∧ u.gov.throttled = s.gov.throttled) ∧
    (∀ rs, rs.find? (fun r => decide (840 ≤ r.temp)) = none → ∃ u : State, exec (.thermalSample rs) s = .next u.reportSensors ∧
      u = { s with gov := u.gov, out := u.out, hif := { s.hif with evts := u.hif.evts } } ∧
      (∀ d < 4, d < s.gov.throttled.length →
        u.gov.throttled.getD d false = (s.gov.throttled.getD d false || decide (760 ≤ u.gov.hottest d))) ∧
      (∀ i, (∀ r ∈ rs, r.group ≠ i) → u.gov.temps.getD i 0 = s.gov.temps.getD i 0) ∧
      (∀ i, s.gov.tempMax.getD i 0 ≤ u.gov.tempMax.getD i 0) ∧
      ∀ r ∈ rs, r.group < s.gov.tempMax.length → r.temp ≤ u.gov.tempMax.getD r.group 0) ∧
    (∀ d, (s.gov.throttled.getD d false = false ∨ s.gov.hottest d < 760) → exec (.throttleStep d) s = .next s) ∧
    (∀ d, s.gov.throttled.getD d false = true → 760 ≤ s.gov.hottest d → d < s.gov.thermStep.length → d < s.gov.actual.length →
      (s.wantStep d < 3 → ∃ u : State, exec (.throttleStep d) s = .next u ∧ u = { s with gov := u.gov } ∧ u.wantStep d = s.wantStep d + 1 ∧
        u.arithStep d = max (s.arithStep d) (s.wantStep d + 1) ∧ ∀ e, e ≠ d → u.wantStep e = s.wantStep e ∧ u.arithStep e = s.arithStep e) ∧
      (3 ≤ s.wantStep d → s.gov.minMs.getD d 0 < 10 →
        exec (.throttleStep d) s = .next { s with gov := { s.gov with minMs := modAt s.gov.minMs d (· + 1) } }) ∧
      (3 ≤ s.wantStep d → 10 ≤ s.gov.minMs.getD d 0 → d < s.gov.thermCap.length → ∃ u : State, exec (.throttleStep d) s = .next u ∧
        u = { s with gov := u.gov } ∧ u.gov.thermCap.getD d 8 = max 1 (s.issueCap d - 1) ∧ ∀ e, e ≠ d → u.issueCap e = s.issueCap e)) ∧
    (∀ d, (s.gov.throttled.getD d false = false ∨ 720 ≤ s.gov.hottest d) → exec (.throttleRestore d) s = .next s) ∧
    ∀ d, s.gov.throttled.getD d false = true → s.gov.hottest d < 720 → d < s.gov.thermCap.length → d < s.gov.thermStep.length →
      (s.gov.thermCap.getD d 8 + 1 < classCap s.cls s.gradeS → ∃ u : State, exec (.throttleRestore d) s = .next u ∧ u = { s with gov := u.gov } ∧
        u.gov.thermCap.getD d 8 = s.gov.thermCap.getD d 8 + 1 ∧ u.gov.thermStep = s.gov.thermStep ∧ u.gov.throttled = s.gov.throttled) ∧
      (classCap s.cls s.gradeS ≤ s.gov.thermCap.getD d 8 → classStep s.cls + 1 < s.gov.thermStep.getD d 0 →
        ∃ u : State, exec (.throttleRestore d) s = .next u ∧ u = { s with gov := u.gov } ∧
          u.gov.thermStep.getD d 0 = s.gov.thermStep.getD d 0 - 1 ∧ u.gov.thermCap = s.gov.thermCap ∧ u.gov.throttled = s.gov.throttled) ∧
      (classCap s.cls s.gradeS ≤ s.gov.thermCap.getD d 8 → s.gov.thermStep.getD d 0 ≤ classStep s.cls + 1 → d < s.gov.throttled.length →
        ∃ u : State, exec (.throttleRestore d) s = .next u ∧ u = { s with gov := u.gov } ∧ u.gov.throttled.getD d false = false)

/-- The gust governor, the root clock and HX_SYNC. At the end of an interval a core's issue level rises by one, up to its
die's cap, when it issued, and falls by one, down to 1, when it did not. A slot admits at most 16 of the cores of its die that
wait, in order. A droop stops its die and counts; the resumption leaves each of its cores at level 4 at most. A lost clock
stops every engine until a full reset, and its return raises one event. A latched edge on HX_SYNC takes the armed epoch at the
root, measures on another module, or triggers trace, as set-up says; any other edge changes nothing. (R323, R326, R425, R426,
R427, R428, R434, R481) -/
def Obligations.GustAndClocks : Prop :=
  ∀ s : State,
    (s.chip.power = .on → ∀ c, ∃ u : State, exec (.issueLevelUpdate c) s = .next u ∧ u = { s with gov := u.gov } ∧
      SMap.get 1 c u.gov.levels = (if SMap.get false c s.gov.issued then min (s.issueCap (c / 144)) (s.issueLevel c + 1)
        else max 1 (s.issueLevel c - 1)) ∧
      SMap.get false c u.gov.issued = false ∧
      ∀ x, x ≠ c → SMap.get 1 x u.gov.levels = SMap.get 1 x s.gov.levels ∧ SMap.get false x u.gov.admitted = SMap.get false x s.gov.admitted) ∧
    (s.chip.power = .on → ∀ d, ∃ (u : State) (due : List (Nat × Nat)), exec (.rampAdmission d) s = .next u ∧
      due = (s.gov.waiting.filter (fun e => e.2 / 144 == d)).take 16 ∧
      u = { s with
        gov := { s.gov with
          slotCount := setAt s.gov.slotCount d due.length, waiting := s.gov.waiting.filter (fun e => !due.contains e)
          admitted := u.gov.admitted } } ∧
      ∀ x, SMap.get false x u.gov.admitted = (due.any (fun e => e.2 == x) || SMap.get false x s.gov.admitted)) ∧
    (s.chip.power = .on → ∀ d, ∃ u t : State, exec (.droop d) s = .next u ∧ (u = t ∨ posted t u) ∧ t = { s with gov := t.gov } ∧
      t.gov = { s.gov with
        stopped := setAt s.gov.stopped d true, droops := modAt s.gov.droops d (fun n => min 0xFFFFFFFF (n + 1))
        belowAt := setAt s.gov.belowAt d (some s.ft), lastDroop := t.gov.lastDroop } ∧
      (s.gov.lastDroop.getD d none = none → posted t u)) ∧
    (s.chip.power = .on → ∀ d, s.gov.stopped.getD d false = false → exec (.droopResume d) s = .next s) ∧
    (s.chip.power = .on → ∀ d, s.gov.stopped.getD d false = true → ∃ u : State, exec (.droopResume d) s = .next u ∧ u = { s with gov := u.gov } ∧
      u.gov.stopped = setAt s.gov.stopped d false ∧ u.gov.droops = s.gov.droops ∧
      ∀ x, SMap.get 1 x u.gov.levels = if x / 144 = d then min 4 (SMap.get 1 x s.gov.levels) else SMap.get 1 x s.gov.levels) ∧
    (s.chip.power = .on → exec .refclkLockLoss s = .next (State.reportSensors { s with chip := { s.chip with power := .noClock } })) ∧
    (s.chip.power ≠ .on → exec .refclkLockLoss s = .next s.reportSensors) ∧
    (s.chip.power = .noClock → ∃ u : State, exec .rootPllLockRegained s = .next u.reportSensors ∧
      posted { s with chip := { s.chip with power := .clockBack } } u) ∧
    (s.chip.power ≠ .noClock → exec .rootPllLockRegained s = .next s.reportSensors) ∧
    ((s.chip.power ≠ .on) → ∀ b us, exec (.hxSyncEdge b us) s = .next s) ∧
    (∀ us, exec (.hxSyncEdge false us) s = .next s) ∧
    (s.chip.power = .on → bit s.syncBits 0 = true → ∀ us,
      (s.time.root = false → ∃ u : State, exec (.hxSyncEdge true us) s = .next u ∧
        u = { s with time := { s.time with offset := u.time.offset, lastEdge := some s.ft } }) ∧
      (s.time.root = true → s.time.arm = true → ∃ u : State, exec (.hxSyncEdge true us) s = .next u ∧
        u = { s with ft := s.time.epochLo + 2 ^ 32 * s.time.epochHi, time := u.time } ∧ u.time.arm = false ∧ u.time.rate = 0 ∧
        u.time.locked = s.time.locked ∧ u.time.root = true)) ∧
    (s.chip.power = .on → bit s.syncBits 0 = false → ∀ us, (bit s.syncBits 1 = false ∨ us < 10) → exec (.hxSyncEdge true us) s = .next s) ∧
    (s.chip.power = .on → bit s.syncBits 0 = false → ∀ us, bit s.syncBits 1 = true → 10 ≤ us → ∃ u : State, exec (.hxSyncEdge true us) s = .next u ∧
      sameBlock s u ∧ u.ports = s.ports ∧
      ∀ p < s.layout, bit s.gdbg.trig (12 + p) = true → ∀ e ∈ s.coresOf p, (u.core e.2).seq.frozen = true)

/-- Endpoint identifiers and PLDM for base. A request that the management controller does not serve changes nothing.
SET_ENDPOINT_ID assigns the identifier of its binding and answers with it, also in recovery mode. GetTID and SetTID read and
write the terminus identifier, and SetTID refuses 0 and 0xFF. Versions, types and commands are those of the spec; another type
gets invalid data, and another command ERROR_UNSUPPORTED_PLDM_CMD. A message of another MCTP type is discarded. The repository
has 29 records. Which identifiers SetTID refuses and the numbers of the commands are presumed from DSP0240 (log 19). (R437,
R439, R440, R448, R449) -/
def Obligations.Discovery : Prop :=
  ∀ (s : State) (b : Binding),
    let tells (c : Instr) (m : MgMsg) : Prop := exec c s = .next { s with out := s.out ++ [.mctp b m] }
    (∀ ty, exec (.mctpUnsupportedType b ty) s = .next s) ∧
    (s.serves b true = false → ∀ e, exec (.setEndpointId b e) s = .next s) ∧
    (s.serves b true = true → ∀ e, exec (.setEndpointId b e) s = .next { s with
      mmc := { s.mmc with eids := setAt s.mmc.eids (bindingIndex b) (e % 256) }, out := s.out ++ [.mctp b (.endpointId (e % 256))] }) ∧
    (s.serves b false = false → exec (.getTid b) s = .next s ∧ (∀ t, exec (.setTid b t) s = .next s) ∧
      (∀ ty, exec (.getPldmVersion b ty) s = .next s) ∧ exec (.getPldmTypes b) s = .next s ∧
      (∀ ty, exec (.getPldmCommands b ty) s = .next s) ∧ exec (.getPdrRepositoryInfo b) s = .next s ∧
      ∀ r, exec (.getPdr b r) s = .next s) ∧
    (∀ ty cmd, exec (.unsupportedPldmCmd b ty cmd) s = if s.serves b (ty == 5) then
      .next { s with out := s.out ++ [.mctp b (.pldm ty cmd .errorUnsupportedPldmCmd [])] } else .next s) ∧
    (s.serves b false = true →
      tells (.getTid b) (.pldm 0 2 .success [s.mmc.tid]) ∧
      (∀ t, (t = 0 ∨ 255 ≤ t) → tells (.setTid b t) (.pldm 0 1 .invalidData [])) ∧
      (∀ t, 0 < t → t < 255 → exec (.setTid b t) s = .next { s with
        mmc := { s.mmc with tid := t }, out := s.out ++ [.mctp b (.pldm 0 1 .success [])] }) ∧
      tells (.getPldmVersion b 0) (.pldm 0 3 .success [Config.pldmBaseVersion.toNat]) ∧
      tells (.getPldmVersion b 2) (.pldm 0 3 .success [1, 2]) ∧ tells (.getPldmVersion b 5) (.pldm 0 3 .success [1, 1]) ∧
      (∀ ty, ty ≠ 0 → ty ≠ 2 → ty ≠ 5 → tells (.getPldmVersion b ty) (.pldm 0 3 .invalidData []) ∧
        tells (.getPldmCommands b ty) (.pldm 0 5 .invalidData [])) ∧
      tells (.getPldmTypes b) (.pldm 0 4 .success [0, 2, 5]) ∧
      tells (.getPldmCommands b 0) (.pldm 0 5 .success [1, 2, 3, 4, 5]) ∧
      tells (.getPldmCommands b 2) (.pldm 0 5 .success [0x04, 0x0A, 0x10, 0x11, 0x21, 0x50, 0x51]) ∧
      tells (.getPldmCommands b 5) (.pldm 0 5 .success [0x01, 0x02, 0x10, 0x13, 0x14, 0x15, 0x16, 0x17, 0x18, 0x1A, 0x1B, 0x1C, 0x1D]) ∧
      tells (.getPdrRepositoryInfo b) (.pldm 2 0x50 .success [29]) ∧
      (∀ r, 29 ≤ r → tells (.getPdr b r) (.pldm 2 0x51 .invalidData [])) ∧
      ∀ r : Nat, r < 29 → tells (.getPdr b r) (.pldm 2 0x51 .success
        [r, b2n (decide (22 ≤ r)), if r < 20 then 1 else if r = 20 then 2 else if r = 21 then 3 else 0]))

/-- Sensor readings and sensor events. A numeric sensor answers with whether it is enabled and with its reading, a state
sensor with its state, and another number with invalid data. SetNumericSensorEnable and SetEventReceiver change only what they
name. After a command that reports, every sensor's state has been noted; events go to the receiver for enabled sensors alone,
wait while the MMC restarts, and nothing else changes. The operations of SetNumericSensorEnable are presumed from DSP0248 (log
19). (R429, R436, R439, R440, R448) -/
def Obligations.Sensors : Prop :=
  ∀ s : State,
    (∀ b, s.serves b false = false → (∀ i, exec (.getSensorReading b i) s = .next s ∧ exec (.getStateSensorReadings b i) s = .next s) ∧
      (∀ i op, exec (.setNumericSensorEnable b i op) s = .next s) ∧ ∀ e, exec (.setEventReceiver b e) s = .next s) ∧
    (∀ b, s.serves b false = true →
      (∀ i < 22, exec (.getSensorReading b i) s = .next { s with
        out := s.out ++ [.mctp b (.pldm 2 0x11 .success [b2n (!s.mmc.disabled.contains i), s.reading i])] }) ∧
      (∀ i, 22 ≤ i → exec (.getSensorReading b i) s = .next { s with out := s.out ++ [.mctp b (.pldm 2 0x11 .invalidData [])] }) ∧
      (∀ i, 22 ≤ i → i < 29 → exec (.getStateSensorReadings b i) s = .next { s with
        out := s.out ++ [.mctp b (.pldm 2 0x21 .success [s.stateReading i])] }) ∧
      (∀ i, (i < 22 ∨ 29 ≤ i) → exec (.getStateSensorReadings b i) s = .next { s with
        out := s.out ++ [.mctp b (.pldm 2 0x21 .invalidData [])] }) ∧
      (∀ i op, (22 ≤ i ∨ 3 ≤ op) → exec (.setNumericSensorEnable b i op) s = .next { s with
        out := s.out ++ [.mctp b (.pldm 2 0x10 .invalidData [])] }) ∧
      (∀ i op, i < 22 → op < 3 → ∃ u : State, exec (.setNumericSensorEnable b i op) s = .next u ∧
        u = { s with
          mmc := { s.mmc with disabled := u.mmc.disabled }, out := s.out ++ [.mctp b (.pldm 2 0x10 .success [])] } ∧
        ∀ x, u.mmc.disabled.contains x = if x = i then decide (op ≠ 0) else s.mmc.disabled.contains x) ∧
      ∀ e, exec (.setEventReceiver b e) s = .next { s with
        mmc := { s.mmc with receiver := some (b, e) }, out := s.out ++ [.mctp b (.pldm 2 0x04 .success [])] }) ∧
    ∃ u, u = s.reportSensors ∧ u = { s with
        mmc := { s.mmc with lastStates := u.mmc.lastStates, waitEvts := u.mmc.waitEvts }, out := u.out } ∧
      (∀ i < 29, i < s.mmc.lastStates.length → u.mmc.lastStates.getD i 0 = s.sensorState i) ∧
      (s.mmc.restarting = true → u.out = s.out) ∧ (s.mmc.restarting = false → u.mmc.waitEvts = s.mmc.waitEvts) ∧
      (s.mmc.restarting = false → s.mmc.receiver = none → u.out = s.out) ∧
      ∀ b eid, s.mmc.receiver = some (b, eid) → ∃ es : List SensorEvt,
        u.out = s.out ++ es.map (fun e => .mctp b (.pldmRequest 2 0x0A [eid, e.sensor, e.value])) ∧
        ∀ e ∈ es, e.sensor < 29 ∧ s.mmc.disabled.contains e.sensor = false ∧ s.sensorState e.sensor ≠ s.mmc.lastStates.getD e.sensor 0

/-- PLDM firmware update and broadcast. One update runs at a time, whichever binding asks; the other requests of an update are
answered only on its binding. An image that passes every check fills the slot not in use and is verified; one that fails any
leaves that slot invalid, is not verified, and its code is raised; no image is pending then. Activation makes the verified
components pending, and in recovery mode starts a deep bring-up. A cancelled update leaves what it wrote invalid. A broadcast
core image is taken only when it passes the checks and no update is running. That an accepted broadcast is pending at once is
the model's choice (log 26). (R2, R405, R439, R442, R444, R445, R446, R449) -/
def Obligations.FirmwareUpdate : Prop :=
  ∀ (s : State) (b : Binding),
    let tells (u : State) (m : List MgMsg) : State := { u with out := u.out ++ m.map (.mctp b) }
    (s.serves b true = false → exec (.queryDeviceIdentifiers b) s = .next s ∧ exec (.getFirmwareParameters b) s = .next s ∧
      exec (.getStatus b) s = .next s ∧ exec (.cancelUpdateComponent b) s = .next s ∧ (∀ c, exec (.passComponentTable b c) s = .next s) ∧
      (∀ n, exec (.requestUpdate b n) s = .next s.reportSensors) ∧ (∀ c i, exec (.updateComponent b c i) s = .next s.reportSensors) ∧
      exec (.activateFirmware b) s = .next s.reportSensors ∧ exec (.cancelUpdate b) s = .next s.reportSensors) ∧
    (s.serves b true = true →
      exec (.queryDeviceIdentifiers b) s = .next (tells s [.pldm 5 0x01 .success [0x4816, s.gradeCode, s.serial]]) ∧
      exec (.getFirmwareParameters b) s = .next (tells s [.pldm 5 0x02 .success
        (if s.chip.recovery then s.versionsOf 0 else s.versionsOf 0 ++ s.versionsOf 1 ++ s.versionsOf 2)]) ∧
      exec (.getStatus b) s = .next (tells s [.pldm 5 0x1B .success [s.mmc.update]]) ∧
      exec (.cancelUpdateComponent b) s = .next (tells s [.pldm 5 0x1C (if s.updating b then .success else .notInUpdateMode) []]) ∧
      (∀ n, s.mmc.update ≠ 0 → exec (.requestUpdate b n) s = .next (tells s [.pldm 5 0x10 .alreadyInUpdateMode []]).reportSensors) ∧
      (∀ n, s.mmc.update = 0 → exec (.requestUpdate b n) s = .next (State.reportSensors (tells { s with
        mmc := { s.mmc with update := 1, updBy := some b, updComps := [], verified := [] } } [.pldm 5 0x10 .success []]))) ∧
      (s.updating b = false → (∀ c, exec (.passComponentTable b c) s = .next (tells s [.pldm 5 0x13 .notInUpdateMode []])) ∧
        (∀ c i, exec (.updateComponent b c i) s = .next (tells s [.pldm 5 0x14 .notInUpdateMode []]).reportSensors) ∧
        exec (.activateFirmware b) s = .next (tells s [.pldm 5 0x1A .notInUpdateMode []]).reportSensors ∧
        exec (.cancelUpdate b) s = .next (tells s [.pldm 5 0x1D .notInUpdateMode []]).reportSensors) ∧
      (s.updating b = true →
        (∀ c, s.updatable c = false → exec (.passComponentTable b c) s = .next (tells s [.pldm 5 0x13 .invalidData []]) ∧
          ∀ i, exec (.updateComponent b c i) s = .next (tells s [.pldm 5 0x14 .invalidData []]).reportSensors) ∧
        (∀ c, s.updatable c = true → exec (.passComponentTable b c) s = .next (tells { s with
          mmc := { s.mmc with updComps := (c - 1) :: s.mmc.updComps.filter (· != c - 1) } } [.pldm 5 0x13 .success []])) ∧
        (∀ c img, s.updatable c = true → s.mmc.updComps.contains (c - 1) = true → s.chip.recovery = false → s.imageVerdict c img = none →
          exec (.updateComponent b c img) s = .next (State.reportSensors (tells { s with
            mmc := { s.mmc.putImage (c - 1) img true with update := 2 } }
            [.pldm 5 0x14 .success [], .pldmRequest 5 0x15 [c], .pldmRequest 5 0x16 [c], .pldmRequest 5 0x17 [c, 0], .pldmRequest 5 0x18 [c]]))) ∧
        (∀ c img code, s.updatable c = true → s.mmc.updComps.contains (c - 1) = true → s.chip.recovery = false →
          s.imageVerdict c img = some code → ∃ u : State, exec (.updateComponent b c img) s = .next u.reportSensors ∧
            posted (tells { s with mmc := s.mmc.putImage (c - 1) img false }
              [.pldm 5 0x14 .success [], .pldmRequest 5 0x15 [c], .pldmRequest 5 0x16 [c], .pldmRequest 5 0x17 [c, 1]]) u) ∧
        (s.mmc.verified = [] → exec (.activateFirmware b) s = .next (tells s [.pldm 5 0x1A .invalidData []]).reportSensors) ∧
        (s.mmc.verified ≠ [] → s.chip.recovery = false → ∃ u : State, exec (.activateFirmware b) s = .next u.reportSensors ∧
          u = { (tells s [.pldm 5 0x1A .success []]) with
            mmc := { s.mmc with pend := u.mmc.pend, update := u.mmc.update, updBy := u.mmc.updBy } } ∧
          (∀ c, c < s.mmc.pend.length → u.mmc.pend.getD c false = (s.mmc.verified.contains c || s.mmc.pend.getD c false)) ∧
          (u.mmc.pend.getD 0 false = true ∨ u.mmc.pend.getD 1 false = true → u.mmc.update = 3)) ∧
        (s.mmc.verified ≠ [] → s.chip.recovery = true → ∃ u : State, exec (.activateFirmware b) s = .next u.reportSensors ∧
          fullyReset (tells s [.pldm 5 0x1A .success []]) u s.chip.lastCause ∧ u.chip.deepNext = true) ∧
        ∃ u : State, exec (.cancelUpdate b) s = .next u.reportSensors ∧
          u = { (tells s [.pldm 5 0x1D .success []]) with
            mmc := { s.mmc with slots := u.mmc.slots, update := 0, updBy := none, updComps := [], verified := [] } } ∧
          ∀ c ∈ s.mmc.verified, c < s.mmc.slots.length → (u.mmc.slotOf c false).valid = false)) ∧
    (∀ img, (s.chip.power ≠ .on ∨ s.takesBroadcast = false) → exec (.firmwareBroadcast img) s = .next s.reportSensors) ∧
    (∀ img, s.takesBroadcast = true → s.imageVerdict 2 img = none → exec (.firmwareBroadcast img) s =
      .next (State.reportSensors { s with
        mmc := { s.mmc.setSlot 1 false (slotFor img true) with pend := setAt s.mmc.pend 1 true, update := 3 } })) ∧
    ∀ img code, s.takesBroadcast = true → s.imageVerdict 2 img = some code →
      ∃ u : State, exec (.firmwareBroadcast img) s = .next u.reportSensors ∧ u = s.postEvent .pf code [] ∧ posted s u

/-- MMC_RESTART, MMC_RESTART_DONE and CORE_FW_ACTIVATION. The MMC restarts only with a pending image and while no partition is
in the reduction, publication or fetch phase of an exchange. A slot that passes its check is in use then; one that fails is
invalid, the other stays in use, and the fallback is noted. When the restart is over the fuses hold the security version of
the image that runs, waiting sensor events are gone, and a full reset that waited runs. A partition reset for core firmware
starts only on a partition without jobs, resets or an exchange. (R395, R405, R411, R446, R447, R448) -/
def Obligations.Activation : Prop :=
  ∀ s : State,
    (s.mayRestart = true → s.mmc.pend.getD 0 false = true ∧ s.mmc.up = true ∧ s.mmc.restarting = false ∧
      ∀ p < 4, (s.exch p).state ≠ 2 ∧ (s.exch p).state ≠ 3 ∧ (s.exch p).state ≠ 4) ∧
    (∀ ok, s.mayRestart = false → exec (.mmcRestart ok) s = .next s.reportSensors) ∧
    (∀ ok, s.mayRestart = true → s.mmc.slotVerdict (s.mmc.slotOf 0 false) ok = none →
      exec (.mmcRestart ok) s = .next (State.reportSensors { s with mmc := { s.mmc.flip 0 with restarting := true, fallback := false } })) ∧
    (∀ ok code, s.mayRestart = true → s.mmc.slotVerdict (s.mmc.slotOf 0 false) ok = some code →
      ∃ u : State, exec (.mmcRestart ok) s = .next u.reportSensors ∧
        u = { s with
          out := u.out, hif := { s.hif with evts := u.hif.evts }
          mmc := { s.mmc with slots := u.mmc.slots, restarting := true, fallback := true, pend := setAt s.mmc.pend 0 false } } ∧
        (0 < s.mmc.slots.length → (u.mmc.slotOf 0 false).valid = false) ∧ u.mmc.slotOf 0 true = s.mmc.slotOf 0 true) ∧
    (s.mmc.restarting = false → exec .mmcRestartDone s = .next s.reportSensors) ∧
    (s.mmc.restarting = true → s.chip.waitFull = none → ∃ u : State, exec .mmcRestartDone s = .next u.reportSensors ∧ u.mmc.restarting = false ∧
      u.mmc.waitEvts = [] ∧ u.mmc.runMmc = (s.mmc.slotOf 0 true).image ∧ u.mmc.leafAt = 0 ∧ u.mmc.leafEnd = 0 ∧
      u.mmc.leafNext = s.mmc.leafNext ∧ u.mmc.epoch = s.mmc.epoch ∧ u.mmc.slots = s.mmc.slots ∧ u.setup = s.setup ∧ u.lmap = s.lmap ∧
      u.mmc.fusedSvn = max s.mmc.fusedSvn (min 64 (s.mmc.slotOf 0 true).svn) ∧
      ∀ p < 4, s.chip.failing.any (fun g => s.partOfPhys g.phys == p) = true → (s.part p).resetting = 0 → (u.part p).hold = true) ∧
    (∀ cause, s.mmc.restarting = true → s.chip.waitFull = some cause → ∃ u : State, exec .mmcRestartDone s = .next u.reportSensors ∧
      u.bringing = true ∧ u.setup = none ∧ u.parts = [] ∧ u.cores = [] ∧ u.chip.lastCause = cause ∧ u.mmc.restarting = false ∧
      u.mmc.leafNext = s.mmc.leafNext ∧ u.mmc.epoch = s.mmc.epoch) ∧
    ∀ p, (s.mayActivate p = true → (s.part p).job = none ∧ (s.part p).next = none ∧ (s.part p).resetting = 0 ∧ s.bringing = false ∧
        ((s.exch p).state = 0 ∨ (s.exch p).state = 6)) ∧
      ((s.chip.power ≠ .on ∨ s.mayActivate p = false) → exec (.coreFwActivation p) s = .next s.reportSensors) ∧
      (s.mayActivate p = true → ∃ u : State, exec (.coreFwActivation p) s = .next u.reportSensors ∧ (u.part p).resetting = 2 ∧
        u.setup = s.setup ∧ u.lmap = s.lmap ∧ (∀ d, (u.part d).hbm = (s.part d).hbm) ∧
        ∀ c, (s.dies p).contains (c / 144) = true → u.core c = Core.reset)

/-- SPDM attestation. A requester is served in the order GET_VERSION, GET_CAPABILITIES, NEGOTIATE_ALGORITHMS, and a request
before its turn is refused. Version, capabilities, algorithms, digests, certificate and measurements are answered as the spec
gives them. A signed response uses the next leaf of the epoch in force, which is then spent; a leaf that opens a new block
reserves 256. With no epoch left signed requests are refused, and unsigned measurements are still answered. The refusal of
requests before their turn is presumed from DSP0274 (log 19). (R448, R450, R451, R452, R453, R454) -/
def Obligations.Attestation : Prop :=
  ∀ (s : State) (b : Binding),
    let far := s.mmc.spdm.getD (bindingIndex b) 0
    let tells (u : State) (m : MgMsg) : State := { u with out := u.out ++ [.mctp b m] }
    let got (n : Nat) : State := { s with mmc := { s.mmc with spdm := setAt s.mmc.spdm (bindingIndex b) n } }
    let chain := Config.certChain s.mmc.epoch
    let digest := toLe 32 (Config.sha256 chain).toNat
    let signs (u : State) (rsp : Nat) (vals : List Nat) (msg : Bytes) : Prop :=
      (s.mmc.leafAt < s.mmc.leafEnd → ∃ more, u.out = s.out ++
          .mctp b (.spdm rsp (vals ++ [s.mmc.epoch, s.mmc.leafAt]) (msg ++ Config.lmsSign s.mmc.epoch s.mmc.leafAt msg)) :: more ∧
        ((s.mmc.leafAt + 1 < s.mmc.leafEnd ∨ s.mmc.leafNext < 32768) → u = { s with
          mmc := { s.mmc with leafAt := s.mmc.leafAt + 1 }, out := u.out } ∧ more = [])) ∧
      (s.mmc.leafEnd ≤ s.mmc.leafAt → s.mmc.leafNext < 32768 →
        u = tells { s with
          mmc := { s.mmc with leafNext := s.mmc.leafNext + 256, leafAt := s.mmc.leafNext + 1, leafEnd := s.mmc.leafNext + 256 } }
          (.spdm rsp (vals ++ [s.mmc.epoch, s.mmc.leafNext]) (msg ++ Config.lmsSign s.mmc.epoch s.mmc.leafNext msg))) ∧
      (s.mmc.leafEnd ≤ s.mmc.leafAt → 32768 ≤ s.mmc.leafNext → s.mmc.epoch = 15 → u.mmc.exhausted = true ∧
        ∃ more, u.out = s.out ++ more ++ [.mctp b (.spdmError 7)])
    (s.serves b false = false → exec (.getVersion b) s = .next s ∧ exec (.getCapabilities b) s = .next s ∧
      (∀ o, exec (.negotiateAlgorithms b o) s = .next s) ∧ exec (.getDigests b) s = .next s ∧
      (∀ x y z, exec (.getCertificate b x y z) s = .next s) ∧ (∀ x n, exec (.challenge b x n) s = .next s) ∧
      ∀ i w n, exec (.getMeasurements b i w n) s = .next s) ∧
    (s.serves b false = true →
      exec (.getVersion b) s = .next (tells (got 1) (.spdm 0 [0x12] [])) ∧
      (far = 0 → exec (.getCapabilities b) s = .next (tells s (.spdmError 4))) ∧
      (1 ≤ far → exec (.getCapabilities b) s = .next (tells (got 2) (.spdm 1 [0x16] []))) ∧
      (∀ o, far < 2 → exec (.negotiateAlgorithms b o) s = .next (tells s (.spdmError 4))) ∧
      (2 ≤ far → exec (.negotiateAlgorithms b true) s = .next (tells (got 3) (.spdm 2 [1, 0, 3, 1] [])) ∧
        exec (.negotiateAlgorithms b false) s = .next (tells s (.spdmError 7))) ∧
      (far < 3 → exec (.getDigests b) s = .next (tells s (.spdmError 4)) ∧
        (∀ x y z, exec (.getCertificate b x y z) s = .next (tells s (.spdmError 4))) ∧
        (∀ x n, exec (.challenge b x n) s = .next (tells s (.spdmError 4))) ∧
        ∀ i w n, exec (.getMeasurements b i w n) s = .next (tells s (.spdmError 4))) ∧
      (3 ≤ far →
        exec (.getDigests b) s = .next (tells s (.spdm 3 [1] digest)) ∧
        (∀ x y z, (x ≠ 0 ∨ chain.length ≤ y) → exec (.getCertificate b x y z) s = .next (tells s (.spdmError 1))) ∧
        (∀ y z, y < chain.length → exec (.getCertificate b 0 y z) s = .next (tells s (.spdm 4
          [0, min z (chain.length - y), chain.length - y - min z (chain.length - y)] ((chain.drop y).take z)))) ∧
        (∀ x n, s.mmc.exhausted = true → exec (.challenge b x n) s = .next (tells s (.spdmError 7))) ∧
        (∀ x n, s.mmc.exhausted = false → x ≠ 0 → exec (.challenge b x n) s = .next (tells s (.spdmError 1))) ∧
        (∀ n, s.mmc.exhausted = false → ∃ u : State, exec (.challenge b 0 n) s = .next u ∧
          signs u 5 [0] (n ++ digest ++ s.measureBytes 0xFF)) ∧
        (∀ i w n, 10 < i → i ≠ 0xFF → exec (.getMeasurements b i w n) s = .next (tells s (.spdmError 1))) ∧
        (∀ i n, (i ≤ 10 ∨ i = 0xFF) → exec (.getMeasurements b i false n) s = .next (tells s (.spdm 6 [10, i] (s.measureBytes i)))) ∧
        (∀ i n, (i ≤ 10 ∨ i = 0xFF) → s.mmc.exhausted = true → exec (.getMeasurements b i true n) s = .next (tells s (.spdmError 7))) ∧
        ∀ i n, (i ≤ 10 ∨ i = 0xFF) → s.mmc.exhausted = false → ∃ u : State, exec (.getMeasurements b i true n) s = .next u ∧
          signs u 6 [10, i] (n ++ s.measureBytes i)))

/-- A step runs the command at the front of the queue. For every command and state, a step of the state with the command at
the front of its queue is the command's effect on the state with the queue's rest. With an empty queue a step is the passing
of one nanosecond: a block without its clock stays as it is, and with it fabric time counts by one unless a correction is at
work. That time passes on an empty queue is the model's choice (log 3). (R322, R325, R434) -/
def Obligations.StepTakesTheFront : Prop :=
  ∀ s : State,
    (∀ c cs, step { s with pending := c :: cs } = exec c { s with pending := cs }) ∧
    (s.pending = [] → s.chip.power ≠ .on → s.chip.power ≠ .clockBack → step s = .next s) ∧
    (s.pending = [] → (s.chip.power = .on ∨ s.chip.power = .clockBack) → s.time.hold = 0 → s.time.rate = 0 →
      ∃ t, step s = .next t ∧ t.ft = s.ft + 1 ∧ t = { s with ft := s.ft + 1, time := t.time, gov := t.gov } ∧
        t.gov = { s.gov with throttleNs := t.gov.throttleNs })

/-- Every step completes and takes one command. No command stops the block: from every state a step answers a next state,
whose queue is the queue before without its first command. So every run can be continued. Errors of the hardware are effects
of commands: statuses, events, counts and error responses. (R215, R241, R368, R377) -/
def Obligations.EveryStepCompletes : Prop :=
  (∀ s : State, ∃ t, step s = .next t ∧ t.pending = s.pending.tail) ∧ ∀ s : State, safe s

/-- No engine starts while the module holds its outputs. While no set-up table is in force, or the module has no clock or
power, no command of a sequencer, array, vector engine, DMA channel, barrier or of the exchange's traffic has an effect.
(R193, R211, R222, R377, R434) -/
def Obligations.HeldEngines : Prop :=
  ∀ s : State, (s.setup = none ∨ s.chip.power ≠ .on) →
    (∀ a, exec (.launch a) s = .next s) ∧ (∀ a, exec (.quant a) s = .next s) ∧ (∀ a, exec (.dma a) s = .next s) ∧ (∀ a, exec (.bdma a) s = .next s) ∧
    (∀ a, exec (.nop a) s = .next s) ∧ (∀ a, exec (.barrier a) s = .next s) ∧ (∀ a, exec (.barrierRelease a) s = .next s) ∧
    (∀ a, exec (.barrierTimeout a) s = .next s) ∧ (∀ a, exec (.signal a) s = .next s) ∧ (∀ a, exec (.tokset a) s = .next s) ∧
    (∀ a, exec (.inval a) s = .next s) ∧ (∀ a, exec (.endStream a) s = .next s) ∧ (∀ a, exec (.loop a) s = .next s) ∧
    (∀ a, exec (.endloop a) s = .next s) ∧ (∀ a, exec (.branchMisfit a) s = .next s) ∧ (∀ a, exec (.setsv a) s = .next s) ∧
    (∀ a, exec (.addsv a) s = .next s) ∧ (∀ a, exec (.setpair a) s = .next s) ∧ (∀ a, exec (.swap a) s = .next s) ∧
    (∀ a, exec (.setkey a) s = .next s) ∧ (∀ a, exec (.descriptorFetch a) s = .next s) ∧ (∀ a, exec (.descriptorStart a) s = .next s) ∧
    (∀ a, exec (.crcFinish a) s = .next s) ∧ (∀ a, exec (.dmaBusError a) s = .next s) ∧ (∀ a, exec (.deadlineMiss a) s = .next s) ∧
    (∀ a, exec (.streamEndDeadlineMiss a) s = .next s) ∧ (∀ a, exec (.requestWatchdog a) s = .next s) ∧ (∀ a, exec (.commit a) s = .next s) ∧
    (∀ a, exec (.chain a) s = .next s) ∧ (∀ a, exec (.publish a) s = .next s) ∧ (∀ a, exec (.pubDone a) s = .next s) ∧
    (∀ a, exec (.pubDoneRepeat a) s = .next s) ∧ (∀ a, exec (.commitRepeat a) s = .next s) ∧ (∀ a, exec (.commitQuery a) s = .next s) ∧
    (∀ a, exec (.commitQuerySend a) s = .next s) ∧ (∀ a, exec (.suspect a) s = .next s) ∧ (∀ a, exec (.leave a) s = .next s) ∧
    (∀ a, exec (.join a) s = .next s) ∧ (∀ a, exec (.joinReady a) s = .next s) ∧ (∀ a, exec (.contributionDeadline a) s = .next s) ∧
    (∀ a, exec (.commitTimeout a) s = .next s) ∧ (∀ a b, exec (.recordFetch a b) s = .next s) ∧ (∀ a b, exec (.recordDispatch a b) s = .next s) ∧
    (∀ a b, exec (.tokenTimeout a b) s = .next s) ∧ (∀ a b, exec (.pass a b) s = .next s) ∧ (∀ a b, exec (.front a b) s = .next s) ∧
    (∀ a b, exec (.preloadStaging a b) s = .next s) ∧ (∀ a b, exec (.slotdrain a b) s = .next s) ∧ (∀ a b, exec (.cirrus a b) s = .next s) ∧
    (∀ a b, exec (.cirrusRepeat a b) s = .next s) ∧ (∀ a b, exec (.add a b) s = .next s) ∧ (∀ a b, exec (.sub a b) s = .next s) ∧
    (∀ a b, exec (.mul a b) s = .next s) ∧ (∀ a b, exec (.fma a b) s = .next s) ∧ (∀ a b, exec (.min a b) s = .next s) ∧
    (∀ a b, exec (.max a b) s = .next s) ∧ (∀ a b, exec (.cmplt a b) s = .next s) ∧ (∀ a b, exec (.cmpeq a b) s = .next s) ∧
    (∀ a b, exec (.cvt a b) s = .next s) ∧ (∀ a b, exec (.sel a b) s = .next s) ∧ (∀ a b, exec (.mov a b) s = .next s) ∧
    (∀ a b, exec (.movi a b) s = .next s) ∧ (∀ a b, exec (.exp a b) s = .next s) ∧ (∀ a b, exec (.exp2 a b) s = .next s) ∧
    (∀ a b, exec (.log a b) s = .next s) ∧ (∀ a b, exec (.log2 a b) s = .next s) ∧ (∀ a b, exec (.rsqrt a b) s = .next s) ∧
    (∀ a b, exec (.wadd a b) s = .next s) ∧ (∀ a b, exec (.wsub a b) s = .next s) ∧ (∀ a b, exec (.wneg a b) s = .next s) ∧
    (∀ a b, exec (.wfinish a b) s = .next s) ∧ (∀ a b, exec (.wfinishb a b) s = .next s) ∧ (∀ a b, exec (.load a b) s = .next s) ∧
    (∀ a b, exec (.store a b) s = .next s) ∧ (∀ a b, exec (.gather a b) s = .next s) ∧ (∀ a b, exec (.scatter a b) s = .next s) ∧
    (∀ a b, exec (.scatterAdd a b) s = .next s) ∧ (∀ a b, exec (.fence a b) s = .next s) ∧ (∀ a b, exec (.pack a b) s = .next s) ∧
    (∀ a b, exec (.unpack a b) s = .next s) ∧ (∀ a b, exec (.range a b) s = .next s) ∧ (∀ a b, exec (.mvBcast a b) s = .next s) ∧
    (∀ a b, exec (.mvReduce a b) s = .next s) ∧ (∀ a b, exec (.br a b) s = .next s) ∧ (∀ a b, exec (.brz a b) s = .next s) ∧
    (∀ a b, exec (.tbar a b) s = .next s) ∧ (∀ a b, exec (.kernelEnd a b) s = .next s) ∧ (∀ a b, exec (.staleCheck a b) s = .next s) ∧
    (∀ a b, exec (.logDrainWrite a b) s = .next s) ∧ (∀ a b, exec (.tagBreak a b) s = .next s) ∧ (∀ a b, exec (.readRequest a b) s = .next s) ∧
    (∀ a b, exec (.writeRequest a b) s = .next s) ∧ (∀ a b, exec (.hostCopyOut a b) s = .next s) ∧ (∀ a b, exec (.hopTimeout a b) s = .next s) ∧
    (∀ a b, exec (.takeover a b) s = .next s) ∧ (∀ a b, exec (.shardLost a b) s = .next s) ∧ (∀ a b, exec (.stateCopy a b) s = .next s) ∧
    (∀ a b c, exec (.recordComplete a b c) s = .next s) ∧ (∀ a b c, exec (.noOperationEntry a b c) s = .next s) ∧
    (∀ a b c, exec (.shardFetch a b c) s = .next s) ∧ (∀ a b c d, exec (.atomicOperation a b c d) s = .next s)

/-- The state after reset. After reset the queue is empty, no set-up table is in force and the module holds its outputs,
bring-up has begun, HX_PWRGD is up and PERST# is still held, layout is 1, no job or exchange is there, MOVER is 1, no byte of
memory is listed and every byte reads as after power-up, every port is down, counters and fabric time are 0, no leaf of the
identity key is in use, and the flash record and the epoch fuse are inside their ranges. The layout, the MOVER reset value and
what an unlisted byte reads are the model's choices (logs 2 and 18). (R363, R377, R392, R411, R436, R453, R478) -/
def Obligations.ResetState : Prop :=
  let s := State.reset
  s.pending = [] ∧ s.setup = none ∧ s.held = true ∧ s.bringing = true ∧ s.layout = 1 ∧ s.ft = 0 ∧ s.lmap = [] ∧ s.out = [] ∧
    s.chip.power = .on ∧ s.chip.pwrEn = true ∧ s.chip.pwrgd = true ∧ s.chip.perst = true ∧ s.chip.result = 0 ∧ s.chip.deepNext = true ∧
    (∀ p, (s.part p).job = none ∧ (s.part p).next = none ∧ (s.part p).resetting = 0 ∧ (s.part p).hold = false ∧
      (s.exch p).tbl = none ∧ (s.exch p).state = 0 ∧ (s.exch p).epoch = 0 ∧ (s.exch p).flipped = false ∧ (s.exch p).mover = 1 ∧
      Memory.wf (s.part p).hbm = true ∧ (s.node p).inbox = [] ∧ (s.node p).tc0 = []) ∧
    (∀ n, (s.port n).st = 0 ∧ (s.port n).egress = []) ∧
    (∀ c, s.core c = Core.reset ∧ (s.core c).seq.running = false ∧ Memory.wf (s.core c).store = true) ∧
    (∀ d, s.gov.stopped.getD d false = false ∧ s.gov.throttled.getD d false = false) ∧ s.gov.limiting = false ∧ s.gov.throttleNs = 0 ∧
    s.time.locked = false ∧ s.mmc.up = false ∧ s.mmc.update = 0 ∧ leavesKept s

/-- The arrays of a core after a reset. After a compute reset, a partition reset, a Function Level Reset that ends a job, and
a full reset, for every core that it includes and for both of its arrays: every cell of both banks has the value 0 and no
special state, the product count of both banks is 0, the bank names are not swapped, and nothing is in the drain and staging
buffers. (R117) -/
def Obligations.ArraysAfterReset : Prop :=
  ∀ (s : State) (p c : Nat),
    let zeroed (u : State) : Prop := ∀ a : Arr, (a = (u.core c).arr0 ∨ a = (u.core c).arr1) →
      (∀ bank : Bank, (bank = a.bank0 ∨ bank = a.bank1) → bank.bias = none ∧
        ∀ m n, (bank.tile.cell m n).val = 0 ∧ (bank.tile.cell m n).spec = .none) ∧
      (∀ name, a.cnt.getD name 0 = 0) ∧ a.map = false ∧ a.staged = none ∧ a.hold = false
    (s.chip.power = .on → s.chip.perst = false →
      (s.bringing = false → p < s.layout → (s.dies p).contains (c / 144) = true →
        ((s.part p).resetting = 0 → (s.part p).hold = false →
          (∃ u : State, exec (.computeReset p) s = .next u ∧ zeroed u) ∧
          ((s.part p).job.isSome = true → ∃ u : State, exec (.functionLevelResetVf p) s = .next u ∧ zeroed u)) ∧
        ((s.part p).resetting ≠ 2 → ∃ u : State, exec (.partReset p) s = .next u ∧ zeroed u)) ∧
      (s.mmc.restarting = false → ∃ u : State, exec .fullReset s = .next u ∧ zeroed u)) ∧
    (s.chip.pwrEn = false → ∃ u : State, exec (.hxPwrEnRise true) s = .next u ∧ zeroed u) ∧
    (s.chip.perst = false → s.chip.perstSeen = true → s.chip.power = .on → s.mmc.restarting = false →
      ∃ u : State, exec .perstAssert s = .next u ∧ zeroed u)

/-- The values of B16 and integer tensor entries. A B16 entry of a block with offset b has the value (e / 2^15) × 2^-b × s,
with e its 16 bits as two's complement, and under a scale that is a number it is a number. A code q of INT8 or INT4 with an
ordinary zero point z has the value s × (q - z). (R35, R37) -/
def Obligations.EntryValues : Prop :=
  ∀ (scale : Nat) (neg : Bool) (m : Rat), fp32Val scale = .num neg m →
    let s : Rat := if neg then -m else m
    (∀ e b zp : Nat, e < 2 ^ 16 → b < 16 → (entryVal .b16 e b scale zp).isSpecial = false ∧
      (entryVal .b16 e b scale zp).toRat = ((if e < 2 ^ 15 then (e : Rat) else (e : Rat) - 2 ^ 16) / 2 ^ 15) * (1 / 2 ^ b) * s) ∧
    (∀ q b zp : Nat, q ≤ 255 → zp ≤ 255 → (entryVal .int8 q b scale zp).isSpecial = false ∧
      (entryVal .int8 q b scale zp).toRat = s * ((q : Rat) - zp)) ∧
    ∀ q b zp : Nat, q ≤ 15 → zp ≤ 15 → (entryVal .int4 q b scale zp).isSpecial = false ∧
      (entryVal .int4 q b scale zp).toRat = s * ((q : Rat) - zp)

/-- What a step never takes back. Whatever command a step runs, in whatever state: grade, serial number, the fuses of the
factory and the revocation fuses are as before; the fused security version and the identity epoch never fall; the field-repair
bank only grows at its end, and stays within its 256 entries. (R2, R396, R397, R444, R447, R454) -/
def Obligations.OneTimeMemory : Prop :=
  ∀ s t : State, step s = .next t →
    t.gradeS = s.gradeS ∧ t.serial = s.serial ∧ t.chip.stepping = s.chip.stepping ∧ t.chip.fuseCores = s.chip.fuseCores ∧
      t.chip.fuseChans = s.chip.fuseChans ∧ t.chip.fuseSlabs = s.chip.fuseSlabs ∧ t.mmc.revoked = s.mmc.revoked ∧
      s.mmc.fusedSvn ≤ t.mmc.fusedSvn ∧ s.mmc.epoch ≤ t.mmc.epoch ∧ s.chip.bank <+: t.chip.bank ∧
      (s.chip.bank.length ≤ 256 → t.chip.bank.length ≤ 256)

/-- Every step keeps the identity key's leaves in order. In every state in which the reserved block lies below the flash
record, the flash record is a whole number of blocks within the epoch, and the epoch is at most 15, every step leaves a state
of that kind, and the next leaf to be used, counted over the epochs, never goes back. ResetState says that reset is such a
state. (R452, R453, R454) -/
def Obligations.LeavesNeverRepeat : Prop :=
  ∀ s t : State, leavesKept s → step s = .next t → leavesKept t ∧ nextLeaf s ≤ nextLeaf t
end

