-- ==== Sys2Proof/Laws/Gates.lean ====
section
/-! SUPPORT. When the gates of R377, R422, R434 and R479 let a command act, and what a closed gate leaves. -/

namespace Sys2Proof.Machine

theorem State.engine_open {s : State} (f : State → State) (h : s.held = false) : s.engine f = f s := by simp [State.engine, h]

theorem State.engine_held {s : State} (f : State → State) (h : s.held = true) : s.engine f = s := by simp [State.engine, h]

theorem State.whenOn_on {s : State} (f : State → State) (h : s.chip.power = .on) : s.whenOn f = f s := by simp [State.whenOn, h]

theorem State.overLink_up {s : State} (f : State → State) (h : s.chip.power = .on) (hp : s.chip.perst = false) :
    s.overLink f = f s := by simp [State.overLink, h, hp]

theorem State.onRails_on {s : State} (f : State → State) (h : s.chip.power = .on) : s.onRails f = f s := by simp [State.onRails, h]

theorem State.syncOp_some {s s1 : State} {l c i : Nat} {e : QEntry} {f : State → Nat → QEntry → Option State}
    (hr : s.ready l 4 = some (c, i, e)) (hf : f (s.startEntry c 4 i e (.running 0)) c e = some s1) :
    s.syncOp l f = s1.setPhase c 4 i (Outcome.good {}).phase := by
  simp [State.syncOp, hr, hf]

end Sys2Proof.Machine
end

