-- ==== Sys2Proof/Laws/Store.lean ====
section
/-! SUPPORT. Laws of the finite tables and byte memories: a read after a write, what a write leaves alone, and that every operation
keeps the canonical form. -/

namespace Sys2Proof.Machine

variable {α : Type}

/-! ## What a table reads after an update -/

@[simp] theorem SMap.get_nil (d : α) (k : Nat) : SMap.get d k [] = d := rfl

theorem SMap.get_cons (d : α) (k a : Nat) (v : α) (m : SMap α) :
    SMap.get d k ((a, v) :: m) = if a = k then v else SMap.get d k m := rfl

theorem SMap.get_erase (d : α) (j k : Nat) (m : SMap α) :
    SMap.get d j (SMap.erase k m) = if j = k then d else SMap.get d j m := by
  induction m with
  | nil => simp [SMap.erase]
  | cons e m ih =>
    obtain ⟨a, w⟩ := e
    simp only [SMap.erase]
    by_cases h : a = k <;> by_cases h' : j = k <;> simp_all [SMap.get_cons]
    exact fun hk => absurd hk.symm h'

theorem SMap.get_insert (d : α) (j k : Nat) (v : α) (m : SMap α) (h : ∀ e ∈ m, e.1 ≠ k) :
    SMap.get d j (SMap.insert k v m) = if j = k then v else SMap.get d j m := by
  induction m with
  | nil => simp only [SMap.insert, SMap.get_cons, SMap.get_nil, eq_comm]
  | cons e m ih =>
    obtain ⟨a, w⟩ := e
    have ha : a ≠ k := h (a, w) (by simp)
    have ih := ih (fun e he => h e (by simp [he]))
    simp only [SMap.insert]
    split
    · simp only [SMap.get_cons, ih]; split <;> split <;> simp_all
    · simp only [SMap.get_cons, eq_comm]

theorem SMap.mem_erase {k : Nat} {m : SMap α} {e : Nat × α} (h : e ∈ SMap.erase k m) : e ∈ m ∧ e.1 ≠ k := by
  induction m with
  | nil => simp [SMap.erase] at h
  | cons f m ih =>
    obtain ⟨a, w⟩ := f
    simp only [SMap.erase] at h
    split at h
    · exact ⟨List.mem_cons_of_mem _ (ih h).1, (ih h).2⟩
    · rcases List.mem_cons.1 h with rfl | h
      · exact ⟨by simp, ‹_›⟩
      · exact ⟨List.mem_cons_of_mem _ (ih h).1, (ih h).2⟩

/-- A table reads what was written at the key written, and what it read before everywhere else. -/
theorem SMap.get_set [DecidableEq α] (d : α) (j k : Nat) (v : α) (m : SMap α) :
    SMap.get d j (SMap.set d k v m) = if j = k then v else SMap.get d j m := by
  unfold SMap.set
  split
  · simp_all [SMap.get_erase]
  · rw [SMap.get_insert _ _ _ _ _ (fun e he => (SMap.mem_erase he).2)]
    split <;> simp_all [SMap.get_erase]

@[simp] theorem SMap.get_set_self [DecidableEq α] (d : α) (k : Nat) (v : α) (m : SMap α) :
    SMap.get d k (SMap.set d k v m) = v := by simp [SMap.get_set]

theorem SMap.get_set_ne [DecidableEq α] (d : α) {j k : Nat} (v : α) (m : SMap α) (h : j ≠ k) :
    SMap.get d j (SMap.set d k v m) = SMap.get d j m := by simp [SMap.get_set, h]

/-! ## The canonical form -/

/-- The keys of a table rise from the first on: the form of `SMap.rising` that inductions use. -/
theorem SMap.rising_cons (a : Nat) (v : α) (m : SMap α) :
    SMap.rising ((a, v) :: m) = true ↔ (∀ e ∈ m, a < e.1) ∧ SMap.rising m = true := by
  induction m generalizing a v with
  | nil => simp [SMap.rising]
  | cons f m ih =>
    obtain ⟨b, w⟩ := f
    simp only [SMap.rising, Bool.and_eq_true, decide_eq_true_eq, ih b w]
    constructor
    · rintro ⟨h, hb, hm⟩
      refine ⟨fun e he => ?_, hb, hm⟩
      rcases List.mem_cons.1 he with rfl | he
      · exact h
      · exact h.trans (hb e he)
    · rintro ⟨h, hb, hm⟩
      exact ⟨h (b, w) (by simp), hb, hm⟩

theorem SMap.rising_erase (k : Nat) {m : SMap α} (h : SMap.rising m = true) : SMap.rising (SMap.erase k m) = true := by
  induction m with
  | nil => simp [SMap.erase, SMap.rising]
  | cons e m ih =>
    obtain ⟨a, w⟩ := e
    rw [SMap.rising_cons] at h
    simp only [SMap.erase]
    split
    · exact ih h.2
    · rw [SMap.rising_cons]
      exact ⟨fun e he => h.1 e (SMap.mem_erase he).1, ih h.2⟩

theorem SMap.mem_insert {k : Nat} {v : α} {m : SMap α} {e : Nat × α} (h : e ∈ SMap.insert k v m) : e = (k, v) ∨ e ∈ m := by
  induction m with
  | nil => simp [SMap.insert] at h; exact .inl h
  | cons f m ih =>
    obtain ⟨a, w⟩ := f
    simp only [SMap.insert] at h
    split at h
    · rcases List.mem_cons.1 h with rfl | h
      · exact .inr (by simp)
      · exact (ih h).imp id (List.mem_cons_of_mem _)
    · rcases List.mem_cons.1 h with h | h
      · exact .inl h
      · exact .inr h

theorem SMap.rising_insert (k : Nat) (v : α) {m : SMap α} (h : SMap.rising m = true) (hk : ∀ e ∈ m, e.1 ≠ k) :
    SMap.rising (SMap.insert k v m) = true := by
  induction m with
  | nil => simp [SMap.insert, SMap.rising]
  | cons e m ih =>
    obtain ⟨a, w⟩ := e
    rw [SMap.rising_cons] at h
    simp only [SMap.insert]
    split
    · rw [SMap.rising_cons]
      refine ⟨fun e he => ?_, ih h.2 (fun e he => hk e (by simp [he]))⟩
      rcases SMap.mem_insert he with rfl | he
      · assumption
      · exact h.1 e he
    · have hak : a ≠ k := hk (a, w) (by simp)
      rw [SMap.rising_cons, SMap.rising_cons]
      refine ⟨fun e he => ?_, h⟩
      rcases List.mem_cons.1 he with rfl | he
      · simp only; omega
      · have := h.1 e he; omega

/-- The canonical form, said of each entry. -/
theorem SMap.wf_iff [DecidableEq α] (d : α) (m : SMap α) :
    SMap.wf d m = true ↔ SMap.rising m = true ∧ ∀ e ∈ m, e.2 ≠ d := by
  simp [SMap.wf]

@[simp] theorem SMap.wf_nil [DecidableEq α] (d : α) : SMap.wf d ([] : SMap α) = true := rfl

/-- Writing one key keeps the canonical form. -/
theorem SMap.wf_set [DecidableEq α] (d : α) (k : Nat) (v : α) {m : SMap α} (h : SMap.wf d m = true) :
    SMap.wf d (SMap.set d k v m) = true := by
  rw [SMap.wf_iff] at *
  unfold SMap.set
  split
  · exact ⟨SMap.rising_erase k h.1, fun e he => h.2 e (SMap.mem_erase he).1⟩
  · refine ⟨SMap.rising_insert k v (SMap.rising_erase k h.1) (fun e he => (SMap.mem_erase he).2), fun e he => ?_⟩
    rcases SMap.mem_insert he with rfl | he
    · assumption
    · exact h.2 e (SMap.mem_erase he).1

/-! ## Byte memories -/

@[simp] theorem Mem.read_nil (a : Nat) : Mem.read [] a = Mem.unwritten := rfl

theorem Mem.read_write (m : Mem) (a x : Nat) (b : Byte) : (m.write x b).read a = if a = x then b else m.read a :=
  SMap.get_set _ _ _ _ _

@[simp] theorem Mem.read_write_self (m : Mem) (a : Nat) (b : Byte) : (m.write a b).read a = b := by simp [Mem.read_write]

theorem Mem.wf_write (m : Mem) (a : Nat) (b : Byte) (h : Memory.wf m = true) : Memory.wf (m.write a b) = true :=
  SMap.wf_set _ _ _ h

theorem Mem.wf_writeN (bs : Bytes) (m : Mem) (a : Nat) (h : Memory.wf m = true) : Memory.wf (m.writeN a bs) = true := by
  induction bs generalizing m a with
  | nil => exact h
  | cons b bs ih => exact ih _ _ (Mem.wf_write m a b h)

theorem Mem.wf_filter (m : Mem) (keep : Nat → Bool) (h : Memory.wf m = true) : Memory.wf (m.filter keep) = true := by
  unfold Memory.wf Mem.filter at *
  rw [SMap.wf_iff] at *
  refine ⟨?_, fun e he => h.2 e (List.mem_of_mem_filter he)⟩
  have hr := h.1
  clear h
  induction m with
  | nil => rfl
  | cons e m ih =>
    obtain ⟨a, v⟩ := e
    rw [SMap.rising_cons] at hr
    by_cases hk : keep a = true
    · rw [List.filter_cons_of_pos (by simpa using hk), SMap.rising_cons]
      exact ⟨fun e he => hr.1 e (List.mem_of_mem_filter he), ih hr.2⟩
    · rw [List.filter_cons_of_neg (by simpa using hk)]
      exact ih hr.2

/-- A write of bytes leaves every address outside them alone. -/
theorem Mem.read_writeN_outside (bs : Bytes) (m : Mem) (x a : Nat) (h : a < x ∨ x + bs.length ≤ a) :
    (m.writeN x bs).read a = m.read a := by
  induction bs generalizing m x with
  | nil => rfl
  | cons b bs ih =>
    simp only [List.length_cons] at h
    rw [Mem.writeN, ih _ _ (by omega), Mem.read_write, if_neg (by omega)]

/-- A read of a byte just written gives the byte written. -/
theorem Mem.read_writeN_inside (bs : Bytes) (m : Mem) (x i : Nat) (h : i < bs.length) :
    (m.writeN x bs).read (x + i) = bs[i] := by
  induction bs generalizing m x i with
  | nil => simp at h
  | cons b bs ih =>
    cases i with
    | zero => rw [Mem.writeN, Mem.read_writeN_outside _ _ _ _ (by omega)]; simp
    | succ i =>
      have := ih (m.write x b) (x + 1) i (by simpa using h)
      rw [Mem.writeN, show x + (i + 1) = x + 1 + i by omega, this]
      rfl

@[simp] theorem Mem.length_readN (m : Mem) (a n : Nat) : (m.readN a n).length = n := by
  induction n generalizing a with
  | zero => rfl
  | succ n ih => simp [Mem.readN, ih]

theorem Mem.readN_get (m : Mem) (a n i : Nat) (h : i < n) : (m.readN a n)[i]'(by simpa using h) = m.read (a + i) := by
  induction n generalizing a i with
  | zero => omega
  | succ n ih =>
    cases i with
    | zero => rfl
    | succ i =>
      simp only [Mem.readN, List.getElem_cons_succ]
      rw [ih (a + 1) i (by omega), show a + 1 + i = a + (i + 1) by omega]

/-- A read after a write to the same place gives the bytes written. -/
theorem Mem.readN_writeN (m : Mem) (a : Nat) (bs : Bytes) : (m.writeN a bs).readN a bs.length = bs := by
  apply List.ext_getElem (by simp)
  intro i h1 h2
  rw [Mem.readN_get _ _ _ _ h2, Mem.read_writeN_inside _ _ _ _ h2]

end Sys2Proof.Machine
end

