-- ==== Sys2Proof/Laws/State.lean ====
section
/-! SUPPORT. What each named update of the state leaves in every field, and what reading a part after an update gives. -/

namespace Sys2Proof.Machine

/-! ## `State.setCore` -/

@[simp] theorem State.setCore_pending (s : State) (c : Nat) (k : Core) : (s.setCore c k).pending = s.pending := (rfl)
@[simp] theorem State.setCore_freeCtr (s : State) (c : Nat) (k : Core) : (s.setCore c k).freeCtr = s.freeCtr := (rfl)
@[simp] theorem State.setCore_gradeS (s : State) (c : Nat) (k : Core) : (s.setCore c k).gradeS = s.gradeS := (rfl)
@[simp] theorem State.setCore_ft (s : State) (c : Nat) (k : Core) : (s.setCore c k).ft = s.ft := (rfl)
@[simp] theorem State.setCore_cls (s : State) (c : Nat) (k : Core) : (s.setCore c k).cls = s.cls := (rfl)
@[simp] theorem State.setCore_layout (s : State) (c : Nat) (k : Core) : (s.setCore c k).layout = s.layout := (rfl)
@[simp] theorem State.setCore_setup (s : State) (c : Nat) (k : Core) : (s.setCore c k).setup = s.setup := (rfl)
@[simp] theorem State.setCore_serial (s : State) (c : Nat) (k : Core) : (s.setCore c k).serial = s.serial := (rfl)
@[simp] theorem State.setCore_bringing (s : State) (c : Nat) (k : Core) : (s.setCore c k).bringing = s.bringing := (rfl)
@[simp] theorem State.setCore_lmap (s : State) (c : Nat) (k : Core) : (s.setCore c k).lmap = s.lmap := (rfl)
@[simp] theorem State.setCore_parts (s : State) (c : Nat) (k : Core) : (s.setCore c k).parts = s.parts := (rfl)
theorem State.setCore_cores (s : State) (c : Nat) (k : Core) : (s.setCore c k).cores = SMap.set Core.reset c k s.cores := (rfl)
@[simp] theorem State.setCore_slices (s : State) (c : Nat) (k : Core) : (s.setCore c k).slices = s.slices := (rfl)
@[simp] theorem State.setCore_hbmcs (s : State) (c : Nat) (k : Core) : (s.setCore c k).hbmcs = s.hbmcs := (rfl)
@[simp] theorem State.setCore_bdies (s : State) (c : Nat) (k : Core) : (s.setCore c k).bdies = s.bdies := (rfl)
@[simp] theorem State.setCore_ports (s : State) (c : Nat) (k : Core) : (s.setCore c k).ports = s.ports := (rfl)
@[simp] theorem State.setCore_nodes (s : State) (c : Nat) (k : Core) : (s.setCore c k).nodes = s.nodes := (rfl)
@[simp] theorem State.setCore_time (s : State) (c : Nat) (k : Core) : (s.setCore c k).time = s.time := (rfl)
@[simp] theorem State.setCore_out (s : State) (c : Nat) (k : Core) : (s.setCore c k).out = s.out := (rfl)
@[simp] theorem State.setCore_hif (s : State) (c : Nat) (k : Core) : (s.setCore c k).hif = s.hif := (rfl)
@[simp] theorem State.setCore_chip (s : State) (c : Nat) (k : Core) : (s.setCore c k).chip = s.chip := (rfl)
@[simp] theorem State.setCore_gov (s : State) (c : Nat) (k : Core) : (s.setCore c k).gov = s.gov := (rfl)
@[simp] theorem State.setCore_mmc (s : State) (c : Nat) (k : Core) : (s.setCore c k).mmc = s.mmc := (rfl)
@[simp] theorem State.setCore_gdbg (s : State) (c : Nat) (k : Core) : (s.setCore c k).gdbg = s.gdbg := (rfl)

/-! ## `State.setPart` -/

@[simp] theorem State.setPart_pending (s : State) (p : Nat) (q : Part) : (s.setPart p q).pending = s.pending := (rfl)
@[simp] theorem State.setPart_freeCtr (s : State) (p : Nat) (q : Part) : (s.setPart p q).freeCtr = s.freeCtr := (rfl)
@[simp] theorem State.setPart_gradeS (s : State) (p : Nat) (q : Part) : (s.setPart p q).gradeS = s.gradeS := (rfl)
@[simp] theorem State.setPart_ft (s : State) (p : Nat) (q : Part) : (s.setPart p q).ft = s.ft := (rfl)
@[simp] theorem State.setPart_cls (s : State) (p : Nat) (q : Part) : (s.setPart p q).cls = s.cls := (rfl)
@[simp] theorem State.setPart_layout (s : State) (p : Nat) (q : Part) : (s.setPart p q).layout = s.layout := (rfl)
@[simp] theorem State.setPart_setup (s : State) (p : Nat) (q : Part) : (s.setPart p q).setup = s.setup := (rfl)
@[simp] theorem State.setPart_serial (s : State) (p : Nat) (q : Part) : (s.setPart p q).serial = s.serial := (rfl)
@[simp] theorem State.setPart_bringing (s : State) (p : Nat) (q : Part) : (s.setPart p q).bringing = s.bringing := (rfl)
@[simp] theorem State.setPart_lmap (s : State) (p : Nat) (q : Part) : (s.setPart p q).lmap = s.lmap := (rfl)
theorem State.setPart_parts (s : State) (p : Nat) (q : Part) : (s.setPart p q).parts = SMap.set Part.reset p q s.parts := (rfl)
@[simp] theorem State.setPart_cores (s : State) (p : Nat) (q : Part) : (s.setPart p q).cores = s.cores := (rfl)
@[simp] theorem State.setPart_slices (s : State) (p : Nat) (q : Part) : (s.setPart p q).slices = s.slices := (rfl)
@[simp] theorem State.setPart_hbmcs (s : State) (p : Nat) (q : Part) : (s.setPart p q).hbmcs = s.hbmcs := (rfl)
@[simp] theorem State.setPart_bdies (s : State) (p : Nat) (q : Part) : (s.setPart p q).bdies = s.bdies := (rfl)
@[simp] theorem State.setPart_ports (s : State) (p : Nat) (q : Part) : (s.setPart p q).ports = s.ports := (rfl)
@[simp] theorem State.setPart_nodes (s : State) (p : Nat) (q : Part) : (s.setPart p q).nodes = s.nodes := (rfl)
@[simp] theorem State.setPart_time (s : State) (p : Nat) (q : Part) : (s.setPart p q).time = s.time := (rfl)
@[simp] theorem State.setPart_out (s : State) (p : Nat) (q : Part) : (s.setPart p q).out = s.out := (rfl)
@[simp] theorem State.setPart_hif (s : State) (p : Nat) (q : Part) : (s.setPart p q).hif = s.hif := (rfl)
@[simp] theorem State.setPart_chip (s : State) (p : Nat) (q : Part) : (s.setPart p q).chip = s.chip := (rfl)
@[simp] theorem State.setPart_gov (s : State) (p : Nat) (q : Part) : (s.setPart p q).gov = s.gov := (rfl)
@[simp] theorem State.setPart_mmc (s : State) (p : Nat) (q : Part) : (s.setPart p q).mmc = s.mmc := (rfl)
@[simp] theorem State.setPart_gdbg (s : State) (p : Nat) (q : Part) : (s.setPart p q).gdbg = s.gdbg := (rfl)

/-! ## `State.setSlice` -/

@[simp] theorem State.setSlice_pending (s : State) (b : Nat) (q : Slice) : (s.setSlice b q).pending = s.pending := (rfl)
@[simp] theorem State.setSlice_freeCtr (s : State) (b : Nat) (q : Slice) : (s.setSlice b q).freeCtr = s.freeCtr := (rfl)
@[simp] theorem State.setSlice_gradeS (s : State) (b : Nat) (q : Slice) : (s.setSlice b q).gradeS = s.gradeS := (rfl)
@[simp] theorem State.setSlice_ft (s : State) (b : Nat) (q : Slice) : (s.setSlice b q).ft = s.ft := (rfl)
@[simp] theorem State.setSlice_cls (s : State) (b : Nat) (q : Slice) : (s.setSlice b q).cls = s.cls := (rfl)
@[simp] theorem State.setSlice_layout (s : State) (b : Nat) (q : Slice) : (s.setSlice b q).layout = s.layout := (rfl)
@[simp] theorem State.setSlice_setup (s : State) (b : Nat) (q : Slice) : (s.setSlice b q).setup = s.setup := (rfl)
@[simp] theorem State.setSlice_serial (s : State) (b : Nat) (q : Slice) : (s.setSlice b q).serial = s.serial := (rfl)
@[simp] theorem State.setSlice_bringing (s : State) (b : Nat) (q : Slice) : (s.setSlice b q).bringing = s.bringing := (rfl)
@[simp] theorem State.setSlice_lmap (s : State) (b : Nat) (q : Slice) : (s.setSlice b q).lmap = s.lmap := (rfl)
@[simp] theorem State.setSlice_parts (s : State) (b : Nat) (q : Slice) : (s.setSlice b q).parts = s.parts := (rfl)
@[simp] theorem State.setSlice_cores (s : State) (b : Nat) (q : Slice) : (s.setSlice b q).cores = s.cores := (rfl)
theorem State.setSlice_slices (s : State) (b : Nat) (q : Slice) : (s.setSlice b q).slices = SMap.set Slice.reset b q s.slices := (rfl)
@[simp] theorem State.setSlice_hbmcs (s : State) (b : Nat) (q : Slice) : (s.setSlice b q).hbmcs = s.hbmcs := (rfl)
@[simp] theorem State.setSlice_bdies (s : State) (b : Nat) (q : Slice) : (s.setSlice b q).bdies = s.bdies := (rfl)
@[simp] theorem State.setSlice_ports (s : State) (b : Nat) (q : Slice) : (s.setSlice b q).ports = s.ports := (rfl)
@[simp] theorem State.setSlice_nodes (s : State) (b : Nat) (q : Slice) : (s.setSlice b q).nodes = s.nodes := (rfl)
@[simp] theorem State.setSlice_time (s : State) (b : Nat) (q : Slice) : (s.setSlice b q).time = s.time := (rfl)
@[simp] theorem State.setSlice_out (s : State) (b : Nat) (q : Slice) : (s.setSlice b q).out = s.out := (rfl)
@[simp] theorem State.setSlice_hif (s : State) (b : Nat) (q : Slice) : (s.setSlice b q).hif = s.hif := (rfl)
@[simp] theorem State.setSlice_chip (s : State) (b : Nat) (q : Slice) : (s.setSlice b q).chip = s.chip := (rfl)
@[simp] theorem State.setSlice_gov (s : State) (b : Nat) (q : Slice) : (s.setSlice b q).gov = s.gov := (rfl)
@[simp] theorem State.setSlice_mmc (s : State) (b : Nat) (q : Slice) : (s.setSlice b q).mmc = s.mmc := (rfl)
@[simp] theorem State.setSlice_gdbg (s : State) (b : Nat) (q : Slice) : (s.setSlice b q).gdbg = s.gdbg := (rfl)

/-! ## `State.setHbmc` -/

@[simp] theorem State.setHbmc_pending (s : State) (b : Nat) (q : Hbmc) : (s.setHbmc b q).pending = s.pending := (rfl)
@[simp] theorem State.setHbmc_freeCtr (s : State) (b : Nat) (q : Hbmc) : (s.setHbmc b q).freeCtr = s.freeCtr := (rfl)
@[simp] theorem State.setHbmc_gradeS (s : State) (b : Nat) (q : Hbmc) : (s.setHbmc b q).gradeS = s.gradeS := (rfl)
@[simp] theorem State.setHbmc_ft (s : State) (b : Nat) (q : Hbmc) : (s.setHbmc b q).ft = s.ft := (rfl)
@[simp] theorem State.setHbmc_cls (s : State) (b : Nat) (q : Hbmc) : (s.setHbmc b q).cls = s.cls := (rfl)
@[simp] theorem State.setHbmc_layout (s : State) (b : Nat) (q : Hbmc) : (s.setHbmc b q).layout = s.layout := (rfl)
@[simp] theorem State.setHbmc_setup (s : State) (b : Nat) (q : Hbmc) : (s.setHbmc b q).setup = s.setup := (rfl)
@[simp] theorem State.setHbmc_serial (s : State) (b : Nat) (q : Hbmc) : (s.setHbmc b q).serial = s.serial := (rfl)
@[simp] theorem State.setHbmc_bringing (s : State) (b : Nat) (q : Hbmc) : (s.setHbmc b q).bringing = s.bringing := (rfl)
@[simp] theorem State.setHbmc_lmap (s : State) (b : Nat) (q : Hbmc) : (s.setHbmc b q).lmap = s.lmap := (rfl)
@[simp] theorem State.setHbmc_parts (s : State) (b : Nat) (q : Hbmc) : (s.setHbmc b q).parts = s.parts := (rfl)
@[simp] theorem State.setHbmc_cores (s : State) (b : Nat) (q : Hbmc) : (s.setHbmc b q).cores = s.cores := (rfl)
@[simp] theorem State.setHbmc_slices (s : State) (b : Nat) (q : Hbmc) : (s.setHbmc b q).slices = s.slices := (rfl)
theorem State.setHbmc_hbmcs (s : State) (b : Nat) (q : Hbmc) : (s.setHbmc b q).hbmcs = SMap.set Hbmc.reset b q s.hbmcs := (rfl)
@[simp] theorem State.setHbmc_bdies (s : State) (b : Nat) (q : Hbmc) : (s.setHbmc b q).bdies = s.bdies := (rfl)
@[simp] theorem State.setHbmc_ports (s : State) (b : Nat) (q : Hbmc) : (s.setHbmc b q).ports = s.ports := (rfl)
@[simp] theorem State.setHbmc_nodes (s : State) (b : Nat) (q : Hbmc) : (s.setHbmc b q).nodes = s.nodes := (rfl)
@[simp] theorem State.setHbmc_time (s : State) (b : Nat) (q : Hbmc) : (s.setHbmc b q).time = s.time := (rfl)
@[simp] theorem State.setHbmc_out (s : State) (b : Nat) (q : Hbmc) : (s.setHbmc b q).out = s.out := (rfl)
@[simp] theorem State.setHbmc_hif (s : State) (b : Nat) (q : Hbmc) : (s.setHbmc b q).hif = s.hif := (rfl)
@[simp] theorem State.setHbmc_chip (s : State) (b : Nat) (q : Hbmc) : (s.setHbmc b q).chip = s.chip := (rfl)
@[simp] theorem State.setHbmc_gov (s : State) (b : Nat) (q : Hbmc) : (s.setHbmc b q).gov = s.gov := (rfl)
@[simp] theorem State.setHbmc_mmc (s : State) (b : Nat) (q : Hbmc) : (s.setHbmc b q).mmc = s.mmc := (rfl)
@[simp] theorem State.setHbmc_gdbg (s : State) (b : Nat) (q : Hbmc) : (s.setHbmc b q).gdbg = s.gdbg := (rfl)

/-! ## `State.setPort` -/

@[simp] theorem State.setPort_pending (s : State) (n : Nat) (q : Port) : (s.setPort n q).pending = s.pending := (rfl)
@[simp] theorem State.setPort_freeCtr (s : State) (n : Nat) (q : Port) : (s.setPort n q).freeCtr = s.freeCtr := (rfl)
@[simp] theorem State.setPort_gradeS (s : State) (n : Nat) (q : Port) : (s.setPort n q).gradeS = s.gradeS := (rfl)
@[simp] theorem State.setPort_ft (s : State) (n : Nat) (q : Port) : (s.setPort n q).ft = s.ft := (rfl)
@[simp] theorem State.setPort_cls (s : State) (n : Nat) (q : Port) : (s.setPort n q).cls = s.cls := (rfl)
@[simp] theorem State.setPort_layout (s : State) (n : Nat) (q : Port) : (s.setPort n q).layout = s.layout := (rfl)
@[simp] theorem State.setPort_setup (s : State) (n : Nat) (q : Port) : (s.setPort n q).setup = s.setup := (rfl)
@[simp] theorem State.setPort_serial (s : State) (n : Nat) (q : Port) : (s.setPort n q).serial = s.serial := (rfl)
@[simp] theorem State.setPort_bringing (s : State) (n : Nat) (q : Port) : (s.setPort n q).bringing = s.bringing := (rfl)
@[simp] theorem State.setPort_lmap (s : State) (n : Nat) (q : Port) : (s.setPort n q).lmap = s.lmap := (rfl)
@[simp] theorem State.setPort_parts (s : State) (n : Nat) (q : Port) : (s.setPort n q).parts = s.parts := (rfl)
@[simp] theorem State.setPort_cores (s : State) (n : Nat) (q : Port) : (s.setPort n q).cores = s.cores := (rfl)
@[simp] theorem State.setPort_slices (s : State) (n : Nat) (q : Port) : (s.setPort n q).slices = s.slices := (rfl)
@[simp] theorem State.setPort_hbmcs (s : State) (n : Nat) (q : Port) : (s.setPort n q).hbmcs = s.hbmcs := (rfl)
@[simp] theorem State.setPort_bdies (s : State) (n : Nat) (q : Port) : (s.setPort n q).bdies = s.bdies := (rfl)
theorem State.setPort_ports (s : State) (n : Nat) (q : Port) : (s.setPort n q).ports = SMap.set Port.reset n q s.ports := (rfl)
@[simp] theorem State.setPort_nodes (s : State) (n : Nat) (q : Port) : (s.setPort n q).nodes = s.nodes := (rfl)
@[simp] theorem State.setPort_time (s : State) (n : Nat) (q : Port) : (s.setPort n q).time = s.time := (rfl)
@[simp] theorem State.setPort_out (s : State) (n : Nat) (q : Port) : (s.setPort n q).out = s.out := (rfl)
@[simp] theorem State.setPort_hif (s : State) (n : Nat) (q : Port) : (s.setPort n q).hif = s.hif := (rfl)
@[simp] theorem State.setPort_chip (s : State) (n : Nat) (q : Port) : (s.setPort n q).chip = s.chip := (rfl)
@[simp] theorem State.setPort_gov (s : State) (n : Nat) (q : Port) : (s.setPort n q).gov = s.gov := (rfl)
@[simp] theorem State.setPort_mmc (s : State) (n : Nat) (q : Port) : (s.setPort n q).mmc = s.mmc := (rfl)
@[simp] theorem State.setPort_gdbg (s : State) (n : Nat) (q : Port) : (s.setPort n q).gdbg = s.gdbg := (rfl)

/-! ## `State.setNode` -/

@[simp] theorem State.setNode_pending (s : State) (p : Nat) (q : Node) : (s.setNode p q).pending = s.pending := (rfl)
@[simp] theorem State.setNode_freeCtr (s : State) (p : Nat) (q : Node) : (s.setNode p q).freeCtr = s.freeCtr := (rfl)
@[simp] theorem State.setNode_gradeS (s : State) (p : Nat) (q : Node) : (s.setNode p q).gradeS = s.gradeS := (rfl)
@[simp] theorem State.setNode_ft (s : State) (p : Nat) (q : Node) : (s.setNode p q).ft = s.ft := (rfl)
@[simp] theorem State.setNode_cls (s : State) (p : Nat) (q : Node) : (s.setNode p q).cls = s.cls := (rfl)
@[simp] theorem State.setNode_layout (s : State) (p : Nat) (q : Node) : (s.setNode p q).layout = s.layout := (rfl)
@[simp] theorem State.setNode_setup (s : State) (p : Nat) (q : Node) : (s.setNode p q).setup = s.setup := (rfl)
@[simp] theorem State.setNode_serial (s : State) (p : Nat) (q : Node) : (s.setNode p q).serial = s.serial := (rfl)
@[simp] theorem State.setNode_bringing (s : State) (p : Nat) (q : Node) : (s.setNode p q).bringing = s.bringing := (rfl)
@[simp] theorem State.setNode_lmap (s : State) (p : Nat) (q : Node) : (s.setNode p q).lmap = s.lmap := (rfl)
@[simp] theorem State.setNode_parts (s : State) (p : Nat) (q : Node) : (s.setNode p q).parts = s.parts := (rfl)
@[simp] theorem State.setNode_cores (s : State) (p : Nat) (q : Node) : (s.setNode p q).cores = s.cores := (rfl)
@[simp] theorem State.setNode_slices (s : State) (p : Nat) (q : Node) : (s.setNode p q).slices = s.slices := (rfl)
@[simp] theorem State.setNode_hbmcs (s : State) (p : Nat) (q : Node) : (s.setNode p q).hbmcs = s.hbmcs := (rfl)
@[simp] theorem State.setNode_bdies (s : State) (p : Nat) (q : Node) : (s.setNode p q).bdies = s.bdies := (rfl)
@[simp] theorem State.setNode_ports (s : State) (p : Nat) (q : Node) : (s.setNode p q).ports = s.ports := (rfl)
theorem State.setNode_nodes (s : State) (p : Nat) (q : Node) : (s.setNode p q).nodes = SMap.set Node.reset p q s.nodes := (rfl)
@[simp] theorem State.setNode_time (s : State) (p : Nat) (q : Node) : (s.setNode p q).time = s.time := (rfl)
@[simp] theorem State.setNode_out (s : State) (p : Nat) (q : Node) : (s.setNode p q).out = s.out := (rfl)
@[simp] theorem State.setNode_hif (s : State) (p : Nat) (q : Node) : (s.setNode p q).hif = s.hif := (rfl)
@[simp] theorem State.setNode_chip (s : State) (p : Nat) (q : Node) : (s.setNode p q).chip = s.chip := (rfl)
@[simp] theorem State.setNode_gov (s : State) (p : Nat) (q : Node) : (s.setNode p q).gov = s.gov := (rfl)
@[simp] theorem State.setNode_mmc (s : State) (p : Nat) (q : Node) : (s.setNode p q).mmc = s.mmc := (rfl)
@[simp] theorem State.setNode_gdbg (s : State) (p : Nat) (q : Node) : (s.setNode p q).gdbg = s.gdbg := (rfl)

/-! ## `State.emit` -/

@[simp] theorem State.emit_pending (s : State) (m : OutMsg) : (s.emit m).pending = s.pending := (rfl)
@[simp] theorem State.emit_freeCtr (s : State) (m : OutMsg) : (s.emit m).freeCtr = s.freeCtr := (rfl)
@[simp] theorem State.emit_gradeS (s : State) (m : OutMsg) : (s.emit m).gradeS = s.gradeS := (rfl)
@[simp] theorem State.emit_ft (s : State) (m : OutMsg) : (s.emit m).ft = s.ft := (rfl)
@[simp] theorem State.emit_cls (s : State) (m : OutMsg) : (s.emit m).cls = s.cls := (rfl)
@[simp] theorem State.emit_layout (s : State) (m : OutMsg) : (s.emit m).layout = s.layout := (rfl)
@[simp] theorem State.emit_setup (s : State) (m : OutMsg) : (s.emit m).setup = s.setup := (rfl)
@[simp] theorem State.emit_serial (s : State) (m : OutMsg) : (s.emit m).serial = s.serial := (rfl)
@[simp] theorem State.emit_bringing (s : State) (m : OutMsg) : (s.emit m).bringing = s.bringing := (rfl)
@[simp] theorem State.emit_lmap (s : State) (m : OutMsg) : (s.emit m).lmap = s.lmap := (rfl)
@[simp] theorem State.emit_parts (s : State) (m : OutMsg) : (s.emit m).parts = s.parts := (rfl)
@[simp] theorem State.emit_cores (s : State) (m : OutMsg) : (s.emit m).cores = s.cores := (rfl)
@[simp] theorem State.emit_slices (s : State) (m : OutMsg) : (s.emit m).slices = s.slices := (rfl)
@[simp] theorem State.emit_hbmcs (s : State) (m : OutMsg) : (s.emit m).hbmcs = s.hbmcs := (rfl)
@[simp] theorem State.emit_bdies (s : State) (m : OutMsg) : (s.emit m).bdies = s.bdies := (rfl)
@[simp] theorem State.emit_ports (s : State) (m : OutMsg) : (s.emit m).ports = s.ports := (rfl)
@[simp] theorem State.emit_nodes (s : State) (m : OutMsg) : (s.emit m).nodes = s.nodes := (rfl)
@[simp] theorem State.emit_time (s : State) (m : OutMsg) : (s.emit m).time = s.time := (rfl)
theorem State.emit_out (s : State) (m : OutMsg) : (s.emit m).out = s.out ++ [m] := (rfl)
@[simp] theorem State.emit_hif (s : State) (m : OutMsg) : (s.emit m).hif = s.hif := (rfl)
@[simp] theorem State.emit_chip (s : State) (m : OutMsg) : (s.emit m).chip = s.chip := (rfl)
@[simp] theorem State.emit_gov (s : State) (m : OutMsg) : (s.emit m).gov = s.gov := (rfl)
@[simp] theorem State.emit_mmc (s : State) (m : OutMsg) : (s.emit m).mmc = s.mmc := (rfl)
@[simp] theorem State.emit_gdbg (s : State) (m : OutMsg) : (s.emit m).gdbg = s.gdbg := (rfl)

/-! ## `State.setEvt` -/

@[simp] theorem State.setEvt_pending (s : State) (fn : Fn) (r : EvtRing) : (s.setEvt fn r).pending = s.pending := (rfl)
@[simp] theorem State.setEvt_freeCtr (s : State) (fn : Fn) (r : EvtRing) : (s.setEvt fn r).freeCtr = s.freeCtr := (rfl)
@[simp] theorem State.setEvt_gradeS (s : State) (fn : Fn) (r : EvtRing) : (s.setEvt fn r).gradeS = s.gradeS := (rfl)
@[simp] theorem State.setEvt_ft (s : State) (fn : Fn) (r : EvtRing) : (s.setEvt fn r).ft = s.ft := (rfl)
@[simp] theorem State.setEvt_cls (s : State) (fn : Fn) (r : EvtRing) : (s.setEvt fn r).cls = s.cls := (rfl)
@[simp] theorem State.setEvt_layout (s : State) (fn : Fn) (r : EvtRing) : (s.setEvt fn r).layout = s.layout := (rfl)
@[simp] theorem State.setEvt_setup (s : State) (fn : Fn) (r : EvtRing) : (s.setEvt fn r).setup = s.setup := (rfl)
@[simp] theorem State.setEvt_serial (s : State) (fn : Fn) (r : EvtRing) : (s.setEvt fn r).serial = s.serial := (rfl)
@[simp] theorem State.setEvt_bringing (s : State) (fn : Fn) (r : EvtRing) : (s.setEvt fn r).bringing = s.bringing := (rfl)
@[simp] theorem State.setEvt_lmap (s : State) (fn : Fn) (r : EvtRing) : (s.setEvt fn r).lmap = s.lmap := (rfl)
@[simp] theorem State.setEvt_parts (s : State) (fn : Fn) (r : EvtRing) : (s.setEvt fn r).parts = s.parts := (rfl)
@[simp] theorem State.setEvt_cores (s : State) (fn : Fn) (r : EvtRing) : (s.setEvt fn r).cores = s.cores := (rfl)
@[simp] theorem State.setEvt_slices (s : State) (fn : Fn) (r : EvtRing) : (s.setEvt fn r).slices = s.slices := (rfl)
@[simp] theorem State.setEvt_hbmcs (s : State) (fn : Fn) (r : EvtRing) : (s.setEvt fn r).hbmcs = s.hbmcs := (rfl)
@[simp] theorem State.setEvt_bdies (s : State) (fn : Fn) (r : EvtRing) : (s.setEvt fn r).bdies = s.bdies := (rfl)
@[simp] theorem State.setEvt_ports (s : State) (fn : Fn) (r : EvtRing) : (s.setEvt fn r).ports = s.ports := (rfl)
@[simp] theorem State.setEvt_nodes (s : State) (fn : Fn) (r : EvtRing) : (s.setEvt fn r).nodes = s.nodes := (rfl)
@[simp] theorem State.setEvt_time (s : State) (fn : Fn) (r : EvtRing) : (s.setEvt fn r).time = s.time := (rfl)
@[simp] theorem State.setEvt_out (s : State) (fn : Fn) (r : EvtRing) : (s.setEvt fn r).out = s.out := (rfl)
@[simp] theorem State.setEvt_chip (s : State) (fn : Fn) (r : EvtRing) : (s.setEvt fn r).chip = s.chip := (rfl)
@[simp] theorem State.setEvt_gov (s : State) (fn : Fn) (r : EvtRing) : (s.setEvt fn r).gov = s.gov := (rfl)
@[simp] theorem State.setEvt_mmc (s : State) (fn : Fn) (r : EvtRing) : (s.setEvt fn r).mmc = s.mmc := (rfl)
@[simp] theorem State.setEvt_gdbg (s : State) (fn : Fn) (r : EvtRing) : (s.setEvt fn r).gdbg = s.gdbg := (rfl)

/-! ## Reading a part after an update -/

@[simp] theorem State.core_setCore (s : State) (c : Nat) (k : Core) : (s.setCore c k).core c = k :=
  SMap.get_set_self _ _ _ _
theorem State.core_setCore_ne (s : State) {c j : Nat} (k : Core) (h : j ≠ c) : (s.setCore c k).core j = s.core j :=
  SMap.get_set_ne _ _ _ h
@[simp] theorem State.core_setPart (s : State) (j : Nat) (p : Nat) (q : Part) : (s.setPart p q).core j = s.core j := (rfl)
@[simp] theorem State.core_setSlice (s : State) (j : Nat) (b : Nat) (q : Slice) : (s.setSlice b q).core j = s.core j := (rfl)
@[simp] theorem State.core_setHbmc (s : State) (j : Nat) (b : Nat) (q : Hbmc) : (s.setHbmc b q).core j = s.core j := (rfl)
@[simp] theorem State.core_setPort (s : State) (j : Nat) (n : Nat) (q : Port) : (s.setPort n q).core j = s.core j := (rfl)
@[simp] theorem State.core_setNode (s : State) (j : Nat) (p : Nat) (q : Node) : (s.setNode p q).core j = s.core j := (rfl)
@[simp] theorem State.core_emit (s : State) (j : Nat) (m : OutMsg) : (s.emit m).core j = s.core j := (rfl)
@[simp] theorem State.core_setEvt (s : State) (j : Nat) (fn : Fn) (r : EvtRing) : (s.setEvt fn r).core j = s.core j := (rfl)

@[simp] theorem State.part_setPart (s : State) (p : Nat) (q : Part) : (s.setPart p q).part p = q :=
  SMap.get_set_self _ _ _ _
theorem State.part_setPart_ne (s : State) {p j : Nat} (q : Part) (h : j ≠ p) : (s.setPart p q).part j = s.part j :=
  SMap.get_set_ne _ _ _ h
@[simp] theorem State.part_setCore (s : State) (j : Nat) (c : Nat) (k : Core) : (s.setCore c k).part j = s.part j := (rfl)
@[simp] theorem State.part_setSlice (s : State) (j : Nat) (b : Nat) (q : Slice) : (s.setSlice b q).part j = s.part j := (rfl)
@[simp] theorem State.part_setHbmc (s : State) (j : Nat) (b : Nat) (q : Hbmc) : (s.setHbmc b q).part j = s.part j := (rfl)
@[simp] theorem State.part_setPort (s : State) (j : Nat) (n : Nat) (q : Port) : (s.setPort n q).part j = s.part j := (rfl)
@[simp] theorem State.part_setNode (s : State) (j : Nat) (p : Nat) (q : Node) : (s.setNode p q).part j = s.part j := (rfl)
@[simp] theorem State.part_emit (s : State) (j : Nat) (m : OutMsg) : (s.emit m).part j = s.part j := (rfl)
@[simp] theorem State.part_setEvt (s : State) (j : Nat) (fn : Fn) (r : EvtRing) : (s.setEvt fn r).part j = s.part j := (rfl)

@[simp] theorem State.slice_setSlice (s : State) (b : Nat) (q : Slice) : (s.setSlice b q).slice b = q :=
  SMap.get_set_self _ _ _ _
theorem State.slice_setSlice_ne (s : State) {b j : Nat} (q : Slice) (h : j ≠ b) : (s.setSlice b q).slice j = s.slice j :=
  SMap.get_set_ne _ _ _ h
@[simp] theorem State.slice_setCore (s : State) (j : Nat) (c : Nat) (k : Core) : (s.setCore c k).slice j = s.slice j := (rfl)
@[simp] theorem State.slice_setPart (s : State) (j : Nat) (p : Nat) (q : Part) : (s.setPart p q).slice j = s.slice j := (rfl)
@[simp] theorem State.slice_setHbmc (s : State) (j : Nat) (b : Nat) (q : Hbmc) : (s.setHbmc b q).slice j = s.slice j := (rfl)
@[simp] theorem State.slice_setPort (s : State) (j : Nat) (n : Nat) (q : Port) : (s.setPort n q).slice j = s.slice j := (rfl)
@[simp] theorem State.slice_setNode (s : State) (j : Nat) (p : Nat) (q : Node) : (s.setNode p q).slice j = s.slice j := (rfl)
@[simp] theorem State.slice_emit (s : State) (j : Nat) (m : OutMsg) : (s.emit m).slice j = s.slice j := (rfl)
@[simp] theorem State.slice_setEvt (s : State) (j : Nat) (fn : Fn) (r : EvtRing) : (s.setEvt fn r).slice j = s.slice j := (rfl)

@[simp] theorem State.hbmc_setHbmc (s : State) (b : Nat) (q : Hbmc) : (s.setHbmc b q).hbmc b = q :=
  SMap.get_set_self _ _ _ _
theorem State.hbmc_setHbmc_ne (s : State) {b j : Nat} (q : Hbmc) (h : j ≠ b) : (s.setHbmc b q).hbmc j = s.hbmc j :=
  SMap.get_set_ne _ _ _ h
@[simp] theorem State.hbmc_setCore (s : State) (j : Nat) (c : Nat) (k : Core) : (s.setCore c k).hbmc j = s.hbmc j := (rfl)
@[simp] theorem State.hbmc_setPart (s : State) (j : Nat) (p : Nat) (q : Part) : (s.setPart p q).hbmc j = s.hbmc j := (rfl)
@[simp] theorem State.hbmc_setSlice (s : State) (j : Nat) (b : Nat) (q : Slice) : (s.setSlice b q).hbmc j = s.hbmc j := (rfl)
@[simp] theorem State.hbmc_setPort (s : State) (j : Nat) (n : Nat) (q : Port) : (s.setPort n q).hbmc j = s.hbmc j := (rfl)
@[simp] theorem State.hbmc_setNode (s : State) (j : Nat) (p : Nat) (q : Node) : (s.setNode p q).hbmc j = s.hbmc j := (rfl)
@[simp] theorem State.hbmc_emit (s : State) (j : Nat) (m : OutMsg) : (s.emit m).hbmc j = s.hbmc j := (rfl)
@[simp] theorem State.hbmc_setEvt (s : State) (j : Nat) (fn : Fn) (r : EvtRing) : (s.setEvt fn r).hbmc j = s.hbmc j := (rfl)

@[simp] theorem State.port_setPort (s : State) (n : Nat) (q : Port) : (s.setPort n q).port n = q :=
  SMap.get_set_self _ _ _ _
theorem State.port_setPort_ne (s : State) {n j : Nat} (q : Port) (h : j ≠ n) : (s.setPort n q).port j = s.port j :=
  SMap.get_set_ne _ _ _ h
@[simp] theorem State.port_setCore (s : State) (j : Nat) (c : Nat) (k : Core) : (s.setCore c k).port j = s.port j := (rfl)
@[simp] theorem State.port_setPart (s : State) (j : Nat) (p : Nat) (q : Part) : (s.setPart p q).port j = s.port j := (rfl)
@[simp] theorem State.port_setSlice (s : State) (j : Nat) (b : Nat) (q : Slice) : (s.setSlice b q).port j = s.port j := (rfl)
@[simp] theorem State.port_setHbmc (s : State) (j : Nat) (b : Nat) (q : Hbmc) : (s.setHbmc b q).port j = s.port j := (rfl)
@[simp] theorem State.port_setNode (s : State) (j : Nat) (p : Nat) (q : Node) : (s.setNode p q).port j = s.port j := (rfl)
@[simp] theorem State.port_emit (s : State) (j : Nat) (m : OutMsg) : (s.emit m).port j = s.port j := (rfl)
@[simp] theorem State.port_setEvt (s : State) (j : Nat) (fn : Fn) (r : EvtRing) : (s.setEvt fn r).port j = s.port j := (rfl)

@[simp] theorem State.node_setNode (s : State) (p : Nat) (q : Node) : (s.setNode p q).node p = q :=
  SMap.get_set_self _ _ _ _
theorem State.node_setNode_ne (s : State) {p j : Nat} (q : Node) (h : j ≠ p) : (s.setNode p q).node j = s.node j :=
  SMap.get_set_ne _ _ _ h
@[simp] theorem State.node_setCore (s : State) (j : Nat) (c : Nat) (k : Core) : (s.setCore c k).node j = s.node j := (rfl)
@[simp] theorem State.node_setPart (s : State) (j : Nat) (p : Nat) (q : Part) : (s.setPart p q).node j = s.node j := (rfl)
@[simp] theorem State.node_setSlice (s : State) (j : Nat) (b : Nat) (q : Slice) : (s.setSlice b q).node j = s.node j := (rfl)
@[simp] theorem State.node_setHbmc (s : State) (j : Nat) (b : Nat) (q : Hbmc) : (s.setHbmc b q).node j = s.node j := (rfl)
@[simp] theorem State.node_setPort (s : State) (j : Nat) (n : Nat) (q : Port) : (s.setPort n q).node j = s.node j := (rfl)
@[simp] theorem State.node_emit (s : State) (j : Nat) (m : OutMsg) : (s.emit m).node j = s.node j := (rfl)
@[simp] theorem State.node_setEvt (s : State) (j : Nat) (fn : Fn) (r : EvtRing) : (s.setEvt fn r).node j = s.node j := (rfl)

/-! ## Fields of a conditional state -/

@[simp] theorem State.ite_pending (c : Prop) [Decidable c] (s t : State) :
    (if c then s else t).pending = if c then s.pending else t.pending := apply_ite _ _ _ _
@[simp] theorem State.ite_freeCtr (c : Prop) [Decidable c] (s t : State) :
    (if c then s else t).freeCtr = if c then s.freeCtr else t.freeCtr := apply_ite _ _ _ _
@[simp] theorem State.ite_gradeS (c : Prop) [Decidable c] (s t : State) :
    (if c then s else t).gradeS = if c then s.gradeS else t.gradeS := apply_ite _ _ _ _
@[simp] theorem State.ite_ft (c : Prop) [Decidable c] (s t : State) :
    (if c then s else t).ft = if c then s.ft else t.ft := apply_ite _ _ _ _
@[simp] theorem State.ite_cls (c : Prop) [Decidable c] (s t : State) :
    (if c then s else t).cls = if c then s.cls else t.cls := apply_ite _ _ _ _
@[simp] theorem State.ite_layout (c : Prop) [Decidable c] (s t : State) :
    (if c then s else t).layout = if c then s.layout else t.layout := apply_ite _ _ _ _
@[simp] theorem State.ite_setup (c : Prop) [Decidable c] (s t : State) :
    (if c then s else t).setup = if c then s.setup else t.setup := apply_ite _ _ _ _
@[simp] theorem State.ite_serial (c : Prop) [Decidable c] (s t : State) :
    (if c then s else t).serial = if c then s.serial else t.serial := apply_ite _ _ _ _
@[simp] theorem State.ite_bringing (c : Prop) [Decidable c] (s t : State) :
    (if c then s else t).bringing = if c then s.bringing else t.bringing := apply_ite _ _ _ _
@[simp] theorem State.ite_lmap (c : Prop) [Decidable c] (s t : State) :
    (if c then s else t).lmap = if c then s.lmap else t.lmap := apply_ite _ _ _ _
@[simp] theorem State.ite_parts (c : Prop) [Decidable c] (s t : State) :
    (if c then s else t).parts = if c then s.parts else t.parts := apply_ite _ _ _ _
@[simp] theorem State.ite_cores (c : Prop) [Decidable c] (s t : State) :
    (if c then s else t).cores = if c then s.cores else t.cores := apply_ite _ _ _ _
@[simp] theorem State.ite_slices (c : Prop) [Decidable c] (s t : State) :
    (if c then s else t).slices = if c then s.slices else t.slices := apply_ite _ _ _ _
@[simp] theorem State.ite_hbmcs (c : Prop) [Decidable c] (s t : State) :
    (if c then s else t).hbmcs = if c then s.hbmcs else t.hbmcs := apply_ite _ _ _ _
@[simp] theorem State.ite_bdies (c : Prop) [Decidable c] (s t : State) :
    (if c then s else t).bdies = if c then s.bdies else t.bdies := apply_ite _ _ _ _
@[simp] theorem State.ite_ports (c : Prop) [Decidable c] (s t : State) :
    (if c then s else t).ports = if c then s.ports else t.ports := apply_ite _ _ _ _
@[simp] theorem State.ite_nodes (c : Prop) [Decidable c] (s t : State) :
    (if c then s else t).nodes = if c then s.nodes else t.nodes := apply_ite _ _ _ _
@[simp] theorem State.ite_time (c : Prop) [Decidable c] (s t : State) :
    (if c then s else t).time = if c then s.time else t.time := apply_ite _ _ _ _
@[simp] theorem State.ite_out (c : Prop) [Decidable c] (s t : State) :
    (if c then s else t).out = if c then s.out else t.out := apply_ite _ _ _ _
@[simp] theorem State.ite_hif (c : Prop) [Decidable c] (s t : State) :
    (if c then s else t).hif = if c then s.hif else t.hif := apply_ite _ _ _ _
@[simp] theorem State.ite_chip (c : Prop) [Decidable c] (s t : State) :
    (if c then s else t).chip = if c then s.chip else t.chip := apply_ite _ _ _ _
@[simp] theorem State.ite_gov (c : Prop) [Decidable c] (s t : State) :
    (if c then s else t).gov = if c then s.gov else t.gov := apply_ite _ _ _ _
@[simp] theorem State.ite_mmc (c : Prop) [Decidable c] (s t : State) :
    (if c then s else t).mmc = if c then s.mmc else t.mmc := apply_ite _ _ _ _
@[simp] theorem State.ite_gdbg (c : Prop) [Decidable c] (s t : State) :
    (if c then s else t).gdbg = if c then s.gdbg else t.gdbg := apply_ite _ _ _ _
@[simp] theorem State.ite_fst {α : Type} (c : Prop) [Decidable c] (x y : State × α) :
    (if c then x else y).1 = if c then x.1 else y.1 := apply_ite _ _ _ _

/-! ## Folds that keep a part -/

/-- A fold whose every step keeps a part of what it folds keeps it. -/
theorem foldl_keeps {σ ι κ : Type} (part : σ → κ) (f : σ → ι → σ) (h : ∀ a i, part (f a i) = part a) (l : List ι) (s : σ) :
    part (l.foldl f s) = part s := by
  induction l generalizing s with
  | nil => rfl
  | cons i l ih => rw [List.foldl_cons, ih, h]


@[simp] theorem State.foldl_pending {ι : Type} (f : State → ι → State) (l : List ι) (s : State)
    (h : ∀ a i, (f a i).pending = a.pending) : (l.foldl f s).pending = s.pending := foldl_keeps (·.pending) f h l s
@[simp] theorem State.foldl_freeCtr {ι : Type} (f : State → ι → State) (l : List ι) (s : State)
    (h : ∀ a i, (f a i).freeCtr = a.freeCtr) : (l.foldl f s).freeCtr = s.freeCtr := foldl_keeps (·.freeCtr) f h l s
@[simp] theorem State.foldl_gradeS {ι : Type} (f : State → ι → State) (l : List ι) (s : State)
    (h : ∀ a i, (f a i).gradeS = a.gradeS) : (l.foldl f s).gradeS = s.gradeS := foldl_keeps (·.gradeS) f h l s
@[simp] theorem State.foldl_ft {ι : Type} (f : State → ι → State) (l : List ι) (s : State)
    (h : ∀ a i, (f a i).ft = a.ft) : (l.foldl f s).ft = s.ft := foldl_keeps (·.ft) f h l s
@[simp] theorem State.foldl_cls {ι : Type} (f : State → ι → State) (l : List ι) (s : State)
    (h : ∀ a i, (f a i).cls = a.cls) : (l.foldl f s).cls = s.cls := foldl_keeps (·.cls) f h l s
@[simp] theorem State.foldl_layout {ι : Type} (f : State → ι → State) (l : List ι) (s : State)
    (h : ∀ a i, (f a i).layout = a.layout) : (l.foldl f s).layout = s.layout := foldl_keeps (·.layout) f h l s
@[simp] theorem State.foldl_setup {ι : Type} (f : State → ι → State) (l : List ι) (s : State)
    (h : ∀ a i, (f a i).setup = a.setup) : (l.foldl f s).setup = s.setup := foldl_keeps (·.setup) f h l s
@[simp] theorem State.foldl_serial {ι : Type} (f : State → ι → State) (l : List ι) (s : State)
    (h : ∀ a i, (f a i).serial = a.serial) : (l.foldl f s).serial = s.serial := foldl_keeps (·.serial) f h l s
@[simp] theorem State.foldl_bringing {ι : Type} (f : State → ι → State) (l : List ι) (s : State)
    (h : ∀ a i, (f a i).bringing = a.bringing) : (l.foldl f s).bringing = s.bringing := foldl_keeps (·.bringing) f h l s
@[simp] theorem State.foldl_lmap {ι : Type} (f : State → ι → State) (l : List ι) (s : State)
    (h : ∀ a i, (f a i).lmap = a.lmap) : (l.foldl f s).lmap = s.lmap := foldl_keeps (·.lmap) f h l s
@[simp] theorem State.foldl_parts {ι : Type} (f : State → ι → State) (l : List ι) (s : State)
    (h : ∀ a i, (f a i).parts = a.parts) : (l.foldl f s).parts = s.parts := foldl_keeps (·.parts) f h l s
@[simp] theorem State.foldl_cores {ι : Type} (f : State → ι → State) (l : List ι) (s : State)
    (h : ∀ a i, (f a i).cores = a.cores) : (l.foldl f s).cores = s.cores := foldl_keeps (·.cores) f h l s
@[simp] theorem State.foldl_slices {ι : Type} (f : State → ι → State) (l : List ι) (s : State)
    (h : ∀ a i, (f a i).slices = a.slices) : (l.foldl f s).slices = s.slices := foldl_keeps (·.slices) f h l s
@[simp] theorem State.foldl_hbmcs {ι : Type} (f : State → ι → State) (l : List ι) (s : State)
    (h : ∀ a i, (f a i).hbmcs = a.hbmcs) : (l.foldl f s).hbmcs = s.hbmcs := foldl_keeps (·.hbmcs) f h l s
@[simp] theorem State.foldl_bdies {ι : Type} (f : State → ι → State) (l : List ι) (s : State)
    (h : ∀ a i, (f a i).bdies = a.bdies) : (l.foldl f s).bdies = s.bdies := foldl_keeps (·.bdies) f h l s
@[simp] theorem State.foldl_ports {ι : Type} (f : State → ι → State) (l : List ι) (s : State)
    (h : ∀ a i, (f a i).ports = a.ports) : (l.foldl f s).ports = s.ports := foldl_keeps (·.ports) f h l s
@[simp] theorem State.foldl_nodes {ι : Type} (f : State → ι → State) (l : List ι) (s : State)
    (h : ∀ a i, (f a i).nodes = a.nodes) : (l.foldl f s).nodes = s.nodes := foldl_keeps (·.nodes) f h l s
@[simp] theorem State.foldl_time {ι : Type} (f : State → ι → State) (l : List ι) (s : State)
    (h : ∀ a i, (f a i).time = a.time) : (l.foldl f s).time = s.time := foldl_keeps (·.time) f h l s
@[simp] theorem State.foldl_out {ι : Type} (f : State → ι → State) (l : List ι) (s : State)
    (h : ∀ a i, (f a i).out = a.out) : (l.foldl f s).out = s.out := foldl_keeps (·.out) f h l s
@[simp] theorem State.foldl_hif {ι : Type} (f : State → ι → State) (l : List ι) (s : State)
    (h : ∀ a i, (f a i).hif = a.hif) : (l.foldl f s).hif = s.hif := foldl_keeps (·.hif) f h l s
@[simp] theorem State.foldl_chip {ι : Type} (f : State → ι → State) (l : List ι) (s : State)
    (h : ∀ a i, (f a i).chip = a.chip) : (l.foldl f s).chip = s.chip := foldl_keeps (·.chip) f h l s
@[simp] theorem State.foldl_gov {ι : Type} (f : State → ι → State) (l : List ι) (s : State)
    (h : ∀ a i, (f a i).gov = a.gov) : (l.foldl f s).gov = s.gov := foldl_keeps (·.gov) f h l s
@[simp] theorem State.foldl_mmc {ι : Type} (f : State → ι → State) (l : List ι) (s : State)
    (h : ∀ a i, (f a i).mmc = a.mmc) : (l.foldl f s).mmc = s.mmc := foldl_keeps (·.mmc) f h l s
@[simp] theorem State.foldl_gdbg {ι : Type} (f : State → ι → State) (l : List ι) (s : State)
    (h : ∀ a i, (f a i).gdbg = a.gdbg) : (l.foldl f s).gdbg = s.gdbg := foldl_keeps (·.gdbg) f h l s
@[simp] theorem State.foldlFst_pending {ι α : Type} (f : State × α → ι → State × α) (l : List ι) (x : State × α)
    (h : ∀ a i, (f a i).1.pending = a.1.pending) : (l.foldl f x).1.pending = x.1.pending := foldl_keeps (·.1.pending) f h l x
@[simp] theorem State.foldlFst_freeCtr {ι α : Type} (f : State × α → ι → State × α) (l : List ι) (x : State × α)
    (h : ∀ a i, (f a i).1.freeCtr = a.1.freeCtr) : (l.foldl f x).1.freeCtr = x.1.freeCtr := foldl_keeps (·.1.freeCtr) f h l x
@[simp] theorem State.foldlFst_gradeS {ι α : Type} (f : State × α → ι → State × α) (l : List ι) (x : State × α)
    (h : ∀ a i, (f a i).1.gradeS = a.1.gradeS) : (l.foldl f x).1.gradeS = x.1.gradeS := foldl_keeps (·.1.gradeS) f h l x
@[simp] theorem State.foldlFst_ft {ι α : Type} (f : State × α → ι → State × α) (l : List ι) (x : State × α)
    (h : ∀ a i, (f a i).1.ft = a.1.ft) : (l.foldl f x).1.ft = x.1.ft := foldl_keeps (·.1.ft) f h l x
@[simp] theorem State.foldlFst_cls {ι α : Type} (f : State × α → ι → State × α) (l : List ι) (x : State × α)
    (h : ∀ a i, (f a i).1.cls = a.1.cls) : (l.foldl f x).1.cls = x.1.cls := foldl_keeps (·.1.cls) f h l x
@[simp] theorem State.foldlFst_layout {ι α : Type} (f : State × α → ι → State × α) (l : List ι) (x : State × α)
    (h : ∀ a i, (f a i).1.layout = a.1.layout) : (l.foldl f x).1.layout = x.1.layout := foldl_keeps (·.1.layout) f h l x
@[simp] theorem State.foldlFst_setup {ι α : Type} (f : State × α → ι → State × α) (l : List ι) (x : State × α)
    (h : ∀ a i, (f a i).1.setup = a.1.setup) : (l.foldl f x).1.setup = x.1.setup := foldl_keeps (·.1.setup) f h l x
@[simp] theorem State.foldlFst_serial {ι α : Type} (f : State × α → ι → State × α) (l : List ι) (x : State × α)
    (h : ∀ a i, (f a i).1.serial = a.1.serial) : (l.foldl f x).1.serial = x.1.serial := foldl_keeps (·.1.serial) f h l x
@[simp] theorem State.foldlFst_bringing {ι α : Type} (f : State × α → ι → State × α) (l : List ι) (x : State × α)
    (h : ∀ a i, (f a i).1.bringing = a.1.bringing) : (l.foldl f x).1.bringing = x.1.bringing := foldl_keeps (·.1.bringing) f h l x
@[simp] theorem State.foldlFst_lmap {ι α : Type} (f : State × α → ι → State × α) (l : List ι) (x : State × α)
    (h : ∀ a i, (f a i).1.lmap = a.1.lmap) : (l.foldl f x).1.lmap = x.1.lmap := foldl_keeps (·.1.lmap) f h l x
@[simp] theorem State.foldlFst_parts {ι α : Type} (f : State × α → ι → State × α) (l : List ι) (x : State × α)
    (h : ∀ a i, (f a i).1.parts = a.1.parts) : (l.foldl f x).1.parts = x.1.parts := foldl_keeps (·.1.parts) f h l x
@[simp] theorem State.foldlFst_cores {ι α : Type} (f : State × α → ι → State × α) (l : List ι) (x : State × α)
    (h : ∀ a i, (f a i).1.cores = a.1.cores) : (l.foldl f x).1.cores = x.1.cores := foldl_keeps (·.1.cores) f h l x
@[simp] theorem State.foldlFst_slices {ι α : Type} (f : State × α → ι → State × α) (l : List ι) (x : State × α)
    (h : ∀ a i, (f a i).1.slices = a.1.slices) : (l.foldl f x).1.slices = x.1.slices := foldl_keeps (·.1.slices) f h l x
@[simp] theorem State.foldlFst_hbmcs {ι α : Type} (f : State × α → ι → State × α) (l : List ι) (x : State × α)
    (h : ∀ a i, (f a i).1.hbmcs = a.1.hbmcs) : (l.foldl f x).1.hbmcs = x.1.hbmcs := foldl_keeps (·.1.hbmcs) f h l x
@[simp] theorem State.foldlFst_bdies {ι α : Type} (f : State × α → ι → State × α) (l : List ι) (x : State × α)
    (h : ∀ a i, (f a i).1.bdies = a.1.bdies) : (l.foldl f x).1.bdies = x.1.bdies := foldl_keeps (·.1.bdies) f h l x
@[simp] theorem State.foldlFst_ports {ι α : Type} (f : State × α → ι → State × α) (l : List ι) (x : State × α)
    (h : ∀ a i, (f a i).1.ports = a.1.ports) : (l.foldl f x).1.ports = x.1.ports := foldl_keeps (·.1.ports) f h l x
@[simp] theorem State.foldlFst_nodes {ι α : Type} (f : State × α → ι → State × α) (l : List ι) (x : State × α)
    (h : ∀ a i, (f a i).1.nodes = a.1.nodes) : (l.foldl f x).1.nodes = x.1.nodes := foldl_keeps (·.1.nodes) f h l x
@[simp] theorem State.foldlFst_time {ι α : Type} (f : State × α → ι → State × α) (l : List ι) (x : State × α)
    (h : ∀ a i, (f a i).1.time = a.1.time) : (l.foldl f x).1.time = x.1.time := foldl_keeps (·.1.time) f h l x
@[simp] theorem State.foldlFst_out {ι α : Type} (f : State × α → ι → State × α) (l : List ι) (x : State × α)
    (h : ∀ a i, (f a i).1.out = a.1.out) : (l.foldl f x).1.out = x.1.out := foldl_keeps (·.1.out) f h l x
@[simp] theorem State.foldlFst_hif {ι α : Type} (f : State × α → ι → State × α) (l : List ι) (x : State × α)
    (h : ∀ a i, (f a i).1.hif = a.1.hif) : (l.foldl f x).1.hif = x.1.hif := foldl_keeps (·.1.hif) f h l x
@[simp] theorem State.foldlFst_chip {ι α : Type} (f : State × α → ι → State × α) (l : List ι) (x : State × α)
    (h : ∀ a i, (f a i).1.chip = a.1.chip) : (l.foldl f x).1.chip = x.1.chip := foldl_keeps (·.1.chip) f h l x
@[simp] theorem State.foldlFst_gov {ι α : Type} (f : State × α → ι → State × α) (l : List ι) (x : State × α)
    (h : ∀ a i, (f a i).1.gov = a.1.gov) : (l.foldl f x).1.gov = x.1.gov := foldl_keeps (·.1.gov) f h l x
@[simp] theorem State.foldlFst_mmc {ι α : Type} (f : State × α → ι → State × α) (l : List ι) (x : State × α)
    (h : ∀ a i, (f a i).1.mmc = a.1.mmc) : (l.foldl f x).1.mmc = x.1.mmc := foldl_keeps (·.1.mmc) f h l x
@[simp] theorem State.foldlFst_gdbg {ι α : Type} (f : State × α → ι → State × α) (l : List ι) (x : State × α)
    (h : ∀ a i, (f a i).1.gdbg = a.1.gdbg) : (l.foldl f x).1.gdbg = x.1.gdbg := foldl_keeps (·.1.gdbg) f h l x

end Sys2Proof.Machine
end

