-- ==== Sys2Proof/Laws/FrameOps.lean ====
section
/-! SUPPORT. Frames: which fields of the state each operation of Machine/Ops, Debug, Governor leaves as they are. -/

namespace Sys2Proof.Machine

@[simp] theorem State.setLcore_frame (s : State) (l : Nat) (k : Core) :
    (State.setLcore s l k).pending = s.pending ∧ (State.setLcore s l k).freeCtr = s.freeCtr ∧
    (State.setLcore s l k).gradeS = s.gradeS ∧ (State.setLcore s l k).ft = s.ft ∧ (State.setLcore s l k).cls = s.cls ∧
    (State.setLcore s l k).layout = s.layout ∧ (State.setLcore s l k).setup = s.setup ∧
    (State.setLcore s l k).serial = s.serial ∧ (State.setLcore s l k).bringing = s.bringing ∧
    (State.setLcore s l k).lmap = s.lmap ∧ (State.setLcore s l k).parts = s.parts ∧
    (State.setLcore s l k).slices = s.slices ∧ (State.setLcore s l k).hbmcs = s.hbmcs ∧
    (State.setLcore s l k).bdies = s.bdies ∧ (State.setLcore s l k).ports = s.ports ∧
    (State.setLcore s l k).nodes = s.nodes ∧ (State.setLcore s l k).time = s.time ∧
    (State.setLcore s l k).out = s.out ∧ (State.setLcore s l k).hif = s.hif ∧ (State.setLcore s l k).chip = s.chip ∧
    (State.setLcore s l k).gov = s.gov ∧ (State.setLcore s l k).mmc = s.mmc ∧
    (State.setLcore s l k).gdbg = s.gdbg := by
  unfold State.setLcore
  (repeat' split) <;> simp

@[simp] theorem State.fresh_frame (s : State) :
    (State.fresh s).2.pending = s.pending ∧ (State.fresh s).2.gradeS = s.gradeS ∧ (State.fresh s).2.ft = s.ft ∧
    (State.fresh s).2.cls = s.cls ∧ (State.fresh s).2.layout = s.layout ∧ (State.fresh s).2.setup = s.setup ∧
    (State.fresh s).2.serial = s.serial ∧ (State.fresh s).2.bringing = s.bringing ∧ (State.fresh s).2.lmap = s.lmap ∧
    (State.fresh s).2.parts = s.parts ∧ (State.fresh s).2.cores = s.cores ∧ (State.fresh s).2.slices = s.slices ∧
    (State.fresh s).2.hbmcs = s.hbmcs ∧ (State.fresh s).2.bdies = s.bdies ∧ (State.fresh s).2.ports = s.ports ∧
    (State.fresh s).2.nodes = s.nodes ∧ (State.fresh s).2.time = s.time ∧ (State.fresh s).2.out = s.out ∧
    (State.fresh s).2.hif = s.hif ∧ (State.fresh s).2.chip = s.chip ∧ (State.fresh s).2.gov = s.gov ∧
    (State.fresh s).2.mmc = s.mmc ∧ (State.fresh s).2.gdbg = s.gdbg := by
  unfold State.fresh
  (repeat' split) <;> simp

@[simp] theorem State.writeEvent_frame (s : State) (fn : Fn) (body : Bytes) :
    (State.writeEvent s fn body).pending = s.pending ∧ (State.writeEvent s fn body).freeCtr = s.freeCtr ∧
    (State.writeEvent s fn body).gradeS = s.gradeS ∧ (State.writeEvent s fn body).ft = s.ft ∧
    (State.writeEvent s fn body).cls = s.cls ∧ (State.writeEvent s fn body).layout = s.layout ∧
    (State.writeEvent s fn body).setup = s.setup ∧ (State.writeEvent s fn body).serial = s.serial ∧
    (State.writeEvent s fn body).bringing = s.bringing ∧ (State.writeEvent s fn body).lmap = s.lmap ∧
    (State.writeEvent s fn body).parts = s.parts ∧ (State.writeEvent s fn body).cores = s.cores ∧
    (State.writeEvent s fn body).slices = s.slices ∧ (State.writeEvent s fn body).hbmcs = s.hbmcs ∧
    (State.writeEvent s fn body).bdies = s.bdies ∧ (State.writeEvent s fn body).ports = s.ports ∧
    (State.writeEvent s fn body).nodes = s.nodes ∧ (State.writeEvent s fn body).time = s.time ∧
    (State.writeEvent s fn body).chip = s.chip ∧ (State.writeEvent s fn body).gov = s.gov ∧
    (State.writeEvent s fn body).mmc = s.mmc ∧ (State.writeEvent s fn body).gdbg = s.gdbg := by
  unfold State.writeEvent
  (repeat' split) <;> simp

@[simp] theorem State.pushEvent_frame (s : State) (fn : Fn) (body : Bytes) :
    (State.pushEvent s fn body).pending = s.pending ∧ (State.pushEvent s fn body).freeCtr = s.freeCtr ∧
    (State.pushEvent s fn body).gradeS = s.gradeS ∧ (State.pushEvent s fn body).ft = s.ft ∧
    (State.pushEvent s fn body).cls = s.cls ∧ (State.pushEvent s fn body).layout = s.layout ∧
    (State.pushEvent s fn body).setup = s.setup ∧ (State.pushEvent s fn body).serial = s.serial ∧
    (State.pushEvent s fn body).bringing = s.bringing ∧ (State.pushEvent s fn body).lmap = s.lmap ∧
    (State.pushEvent s fn body).parts = s.parts ∧ (State.pushEvent s fn body).cores = s.cores ∧
    (State.pushEvent s fn body).slices = s.slices ∧ (State.pushEvent s fn body).hbmcs = s.hbmcs ∧
    (State.pushEvent s fn body).bdies = s.bdies ∧ (State.pushEvent s fn body).ports = s.ports ∧
    (State.pushEvent s fn body).nodes = s.nodes ∧ (State.pushEvent s fn body).time = s.time ∧
    (State.pushEvent s fn body).chip = s.chip ∧ (State.pushEvent s fn body).gov = s.gov ∧
    (State.pushEvent s fn body).mmc = s.mmc ∧ (State.pushEvent s fn body).gdbg = s.gdbg := by
  unfold State.pushEvent
  (repeat' split) <;> simp

@[simp] theorem State.postEvent_frame (s : State) (ring : Fn) (code : Nat) (detail : Bytes) :
    (State.postEvent s ring code detail).pending = s.pending ∧
    (State.postEvent s ring code detail).freeCtr = s.freeCtr ∧ (State.postEvent s ring code detail).gradeS = s.gradeS ∧
    (State.postEvent s ring code detail).ft = s.ft ∧ (State.postEvent s ring code detail).cls = s.cls ∧
    (State.postEvent s ring code detail).layout = s.layout ∧ (State.postEvent s ring code detail).setup = s.setup ∧
    (State.postEvent s ring code detail).serial = s.serial ∧
    (State.postEvent s ring code detail).bringing = s.bringing ∧ (State.postEvent s ring code detail).lmap = s.lmap ∧
    (State.postEvent s ring code detail).parts = s.parts ∧ (State.postEvent s ring code detail).cores = s.cores ∧
    (State.postEvent s ring code detail).slices = s.slices ∧ (State.postEvent s ring code detail).hbmcs = s.hbmcs ∧
    (State.postEvent s ring code detail).bdies = s.bdies ∧ (State.postEvent s ring code detail).ports = s.ports ∧
    (State.postEvent s ring code detail).nodes = s.nodes ∧ (State.postEvent s ring code detail).time = s.time ∧
    (State.postEvent s ring code detail).chip = s.chip ∧ (State.postEvent s ring code detail).gov = s.gov ∧
    (State.postEvent s ring code detail).mmc = s.mmc ∧ (State.postEvent s ring code detail).gdbg = s.gdbg := by
  unfold State.postEvent
  (repeat' split) <;> simp

@[simp] theorem State.modDbg_frame (s : State) (c : Nat) (f : CoreDbg → CoreDbg) :
    (State.modDbg s c f).pending = s.pending ∧ (State.modDbg s c f).freeCtr = s.freeCtr ∧
    (State.modDbg s c f).gradeS = s.gradeS ∧ (State.modDbg s c f).ft = s.ft ∧ (State.modDbg s c f).cls = s.cls ∧
    (State.modDbg s c f).layout = s.layout ∧ (State.modDbg s c f).setup = s.setup ∧
    (State.modDbg s c f).serial = s.serial ∧ (State.modDbg s c f).bringing = s.bringing ∧
    (State.modDbg s c f).lmap = s.lmap ∧ (State.modDbg s c f).parts = s.parts ∧
    (State.modDbg s c f).slices = s.slices ∧ (State.modDbg s c f).hbmcs = s.hbmcs ∧
    (State.modDbg s c f).bdies = s.bdies ∧ (State.modDbg s c f).ports = s.ports ∧
    (State.modDbg s c f).nodes = s.nodes ∧ (State.modDbg s c f).time = s.time ∧ (State.modDbg s c f).out = s.out ∧
    (State.modDbg s c f).hif = s.hif ∧ (State.modDbg s c f).chip = s.chip ∧ (State.modDbg s c f).gov = s.gov ∧
    (State.modDbg s c f).mmc = s.mmc ∧ (State.modDbg s c f).gdbg = s.gdbg := by
  unfold State.modDbg
  (repeat' split) <;> simp

@[simp] theorem State.event_frame (s : State) (c ev n : Nat) :
    (State.event s c ev n).pending = s.pending ∧ (State.event s c ev n).freeCtr = s.freeCtr ∧
    (State.event s c ev n).gradeS = s.gradeS ∧ (State.event s c ev n).ft = s.ft ∧ (State.event s c ev n).cls = s.cls ∧
    (State.event s c ev n).layout = s.layout ∧ (State.event s c ev n).setup = s.setup ∧
    (State.event s c ev n).serial = s.serial ∧ (State.event s c ev n).bringing = s.bringing ∧
    (State.event s c ev n).lmap = s.lmap ∧ (State.event s c ev n).parts = s.parts ∧
    (State.event s c ev n).slices = s.slices ∧ (State.event s c ev n).hbmcs = s.hbmcs ∧
    (State.event s c ev n).bdies = s.bdies ∧ (State.event s c ev n).ports = s.ports ∧
    (State.event s c ev n).nodes = s.nodes ∧ (State.event s c ev n).time = s.time ∧
    (State.event s c ev n).out = s.out ∧ (State.event s c ev n).hif = s.hif ∧ (State.event s c ev n).chip = s.chip ∧
    (State.event s c ev n).gov = s.gov ∧ (State.event s c ev n).mmc = s.mmc ∧
    (State.event s c ev n).gdbg = s.gdbg := by
  unfold State.event
  (repeat' split) <;> simp

@[simp] theorem State.gevent_frame (s : State) (block inst ev n : Nat) :
    (State.gevent s block inst ev n).pending = s.pending ∧ (State.gevent s block inst ev n).freeCtr = s.freeCtr ∧
    (State.gevent s block inst ev n).gradeS = s.gradeS ∧ (State.gevent s block inst ev n).ft = s.ft ∧
    (State.gevent s block inst ev n).cls = s.cls ∧ (State.gevent s block inst ev n).layout = s.layout ∧
    (State.gevent s block inst ev n).setup = s.setup ∧ (State.gevent s block inst ev n).serial = s.serial ∧
    (State.gevent s block inst ev n).bringing = s.bringing ∧ (State.gevent s block inst ev n).lmap = s.lmap ∧
    (State.gevent s block inst ev n).parts = s.parts ∧ (State.gevent s block inst ev n).cores = s.cores ∧
    (State.gevent s block inst ev n).slices = s.slices ∧ (State.gevent s block inst ev n).hbmcs = s.hbmcs ∧
    (State.gevent s block inst ev n).bdies = s.bdies ∧ (State.gevent s block inst ev n).ports = s.ports ∧
    (State.gevent s block inst ev n).nodes = s.nodes ∧ (State.gevent s block inst ev n).time = s.time ∧
    (State.gevent s block inst ev n).out = s.out ∧ (State.gevent s block inst ev n).hif = s.hif ∧
    (State.gevent s block inst ev n).chip = s.chip ∧ (State.gevent s block inst ev n).gov = s.gov ∧
    (State.gevent s block inst ev n).mmc = s.mmc := by
  unfold State.gevent
  (repeat' split) <;> simp

@[simp] theorem State.trace_frame (s : State) (c opid tag kind chan info : Nat) :
    (State.trace s c opid tag kind chan info).pending = s.pending ∧
    (State.trace s c opid tag kind chan info).gradeS = s.gradeS ∧ (State.trace s c opid tag kind chan info).ft = s.ft ∧
    (State.trace s c opid tag kind chan info).cls = s.cls ∧
    (State.trace s c opid tag kind chan info).layout = s.layout ∧
    (State.trace s c opid tag kind chan info).setup = s.setup ∧
    (State.trace s c opid tag kind chan info).serial = s.serial ∧
    (State.trace s c opid tag kind chan info).bringing = s.bringing ∧
    (State.trace s c opid tag kind chan info).lmap = s.lmap ∧
    (State.trace s c opid tag kind chan info).parts = s.parts ∧
    (State.trace s c opid tag kind chan info).slices = s.slices ∧
    (State.trace s c opid tag kind chan info).hbmcs = s.hbmcs ∧
    (State.trace s c opid tag kind chan info).bdies = s.bdies ∧
    (State.trace s c opid tag kind chan info).ports = s.ports ∧
    (State.trace s c opid tag kind chan info).nodes = s.nodes ∧
    (State.trace s c opid tag kind chan info).time = s.time ∧ (State.trace s c opid tag kind chan info).out = s.out ∧
    (State.trace s c opid tag kind chan info).hif = s.hif ∧ (State.trace s c opid tag kind chan info).chip = s.chip ∧
    (State.trace s c opid tag kind chan info).gov = s.gov ∧ (State.trace s c opid tag kind chan info).mmc = s.mmc ∧
    (State.trace s c opid tag kind chan info).gdbg = s.gdbg := by
  unfold State.trace
  (repeat' split) <;> simp

@[simp] theorem State.traceStart_frame (s : State) (c engine opid tag chan : Nat) :
    (State.traceStart s c engine opid tag chan).pending = s.pending ∧
    (State.traceStart s c engine opid tag chan).gradeS = s.gradeS ∧
    (State.traceStart s c engine opid tag chan).ft = s.ft ∧ (State.traceStart s c engine opid tag chan).cls = s.cls ∧
    (State.traceStart s c engine opid tag chan).layout = s.layout ∧
    (State.traceStart s c engine opid tag chan).setup = s.setup ∧
    (State.traceStart s c engine opid tag chan).serial = s.serial ∧
    (State.traceStart s c engine opid tag chan).bringing = s.bringing ∧
    (State.traceStart s c engine opid tag chan).lmap = s.lmap ∧
    (State.traceStart s c engine opid tag chan).parts = s.parts ∧
    (State.traceStart s c engine opid tag chan).slices = s.slices ∧
    (State.traceStart s c engine opid tag chan).hbmcs = s.hbmcs ∧
    (State.traceStart s c engine opid tag chan).bdies = s.bdies ∧
    (State.traceStart s c engine opid tag chan).ports = s.ports ∧
    (State.traceStart s c engine opid tag chan).nodes = s.nodes ∧
    (State.traceStart s c engine opid tag chan).time = s.time ∧
    (State.traceStart s c engine opid tag chan).out = s.out ∧ (State.traceStart s c engine opid tag chan).hif = s.hif ∧
    (State.traceStart s c engine opid tag chan).chip = s.chip ∧
    (State.traceStart s c engine opid tag chan).gov = s.gov ∧ (State.traceStart s c engine opid tag chan).mmc = s.mmc ∧
    (State.traceStart s c engine opid tag chan).gdbg = s.gdbg := by
  unfold State.traceStart
  (repeat' split) <;> simp

@[simp] theorem State.traceDone_frame (s : State) (c engine opid tag chan status : Nat) (led : Ledger) (shift : Nat) :
    (State.traceDone s c engine opid tag chan status led shift).pending = s.pending ∧
    (State.traceDone s c engine opid tag chan status led shift).gradeS = s.gradeS ∧
    (State.traceDone s c engine opid tag chan status led shift).ft = s.ft ∧
    (State.traceDone s c engine opid tag chan status led shift).cls = s.cls ∧
    (State.traceDone s c engine opid tag chan status led shift).layout = s.layout ∧
    (State.traceDone s c engine opid tag chan status led shift).setup = s.setup ∧
    (State.traceDone s c engine opid tag chan status led shift).serial = s.serial ∧
    (State.traceDone s c engine opid tag chan status led shift).bringing = s.bringing ∧
    (State.traceDone s c engine opid tag chan status led shift).lmap = s.lmap ∧
    (State.traceDone s c engine opid tag chan status led shift).parts = s.parts ∧
    (State.traceDone s c engine opid tag chan status led shift).slices = s.slices ∧
    (State.traceDone s c engine opid tag chan status led shift).hbmcs = s.hbmcs ∧
    (State.traceDone s c engine opid tag chan status led shift).bdies = s.bdies ∧
    (State.traceDone s c engine opid tag chan status led shift).ports = s.ports ∧
    (State.traceDone s c engine opid tag chan status led shift).nodes = s.nodes ∧
    (State.traceDone s c engine opid tag chan status led shift).time = s.time ∧
    (State.traceDone s c engine opid tag chan status led shift).out = s.out ∧
    (State.traceDone s c engine opid tag chan status led shift).hif = s.hif ∧
    (State.traceDone s c engine opid tag chan status led shift).chip = s.chip ∧
    (State.traceDone s c engine opid tag chan status led shift).gov = s.gov ∧
    (State.traceDone s c engine opid tag chan status led shift).mmc = s.mmc ∧
    (State.traceDone s c engine opid tag chan status led shift).gdbg = s.gdbg := by
  unfold State.traceDone
  (repeat' split) <;> simp

@[simp] theorem State.freeze_frame (s : State) (c engine opid tag : Nat) (byTag : Bool) :
    (State.freeze s c engine opid tag byTag).pending = s.pending ∧
    (State.freeze s c engine opid tag byTag).gradeS = s.gradeS ∧ (State.freeze s c engine opid tag byTag).ft = s.ft ∧
    (State.freeze s c engine opid tag byTag).cls = s.cls ∧ (State.freeze s c engine opid tag byTag).layout = s.layout ∧
    (State.freeze s c engine opid tag byTag).setup = s.setup ∧
    (State.freeze s c engine opid tag byTag).serial = s.serial ∧
    (State.freeze s c engine opid tag byTag).bringing = s.bringing ∧
    (State.freeze s c engine opid tag byTag).lmap = s.lmap ∧
    (State.freeze s c engine opid tag byTag).slices = s.slices ∧
    (State.freeze s c engine opid tag byTag).hbmcs = s.hbmcs ∧
    (State.freeze s c engine opid tag byTag).bdies = s.bdies ∧
    (State.freeze s c engine opid tag byTag).ports = s.ports ∧
    (State.freeze s c engine opid tag byTag).nodes = s.nodes ∧ (State.freeze s c engine opid tag byTag).time = s.time ∧
    (State.freeze s c engine opid tag byTag).out = s.out ∧ (State.freeze s c engine opid tag byTag).hif = s.hif ∧
    (State.freeze s c engine opid tag byTag).chip = s.chip ∧ (State.freeze s c engine opid tag byTag).gov = s.gov ∧
    (State.freeze s c engine opid tag byTag).mmc = s.mmc ∧ (State.freeze s c engine opid tag byTag).gdbg = s.gdbg := by
  unfold State.freeze
  (repeat' split) <;> simp

@[simp] theorem State.freezePart_frame (s : State) (p : Nat) :
    (State.freezePart s p).pending = s.pending ∧ (State.freezePart s p).gradeS = s.gradeS ∧
    (State.freezePart s p).ft = s.ft ∧ (State.freezePart s p).cls = s.cls ∧ (State.freezePart s p).layout = s.layout ∧
    (State.freezePart s p).setup = s.setup ∧ (State.freezePart s p).serial = s.serial ∧
    (State.freezePart s p).bringing = s.bringing ∧ (State.freezePart s p).lmap = s.lmap ∧
    (State.freezePart s p).slices = s.slices ∧ (State.freezePart s p).hbmcs = s.hbmcs ∧
    (State.freezePart s p).bdies = s.bdies ∧ (State.freezePart s p).ports = s.ports ∧
    (State.freezePart s p).nodes = s.nodes ∧ (State.freezePart s p).time = s.time ∧
    (State.freezePart s p).out = s.out ∧ (State.freezePart s p).hif = s.hif ∧ (State.freezePart s p).chip = s.chip ∧
    (State.freezePart s p).gov = s.gov ∧ (State.freezePart s p).mmc = s.mmc ∧
    (State.freezePart s p).gdbg = s.gdbg := by
  unfold State.freezePart
  (repeat' split) <;> simp

@[simp] theorem State.breakCore_frame (s : State) (c engine opid tag : Nat) (byTag : Bool) :
    (State.breakCore s c engine opid tag byTag).pending = s.pending ∧
    (State.breakCore s c engine opid tag byTag).gradeS = s.gradeS ∧
    (State.breakCore s c engine opid tag byTag).ft = s.ft ∧ (State.breakCore s c engine opid tag byTag).cls = s.cls ∧
    (State.breakCore s c engine opid tag byTag).layout = s.layout ∧
    (State.breakCore s c engine opid tag byTag).setup = s.setup ∧
    (State.breakCore s c engine opid tag byTag).serial = s.serial ∧
    (State.breakCore s c engine opid tag byTag).bringing = s.bringing ∧
    (State.breakCore s c engine opid tag byTag).lmap = s.lmap ∧
    (State.breakCore s c engine opid tag byTag).slices = s.slices ∧
    (State.breakCore s c engine opid tag byTag).hbmcs = s.hbmcs ∧
    (State.breakCore s c engine opid tag byTag).bdies = s.bdies ∧
    (State.breakCore s c engine opid tag byTag).ports = s.ports ∧
    (State.breakCore s c engine opid tag byTag).nodes = s.nodes ∧
    (State.breakCore s c engine opid tag byTag).time = s.time ∧
    (State.breakCore s c engine opid tag byTag).hif = s.hif ∧
    (State.breakCore s c engine opid tag byTag).chip = s.chip ∧
    (State.breakCore s c engine opid tag byTag).gov = s.gov ∧ (State.breakCore s c engine opid tag byTag).mmc = s.mmc ∧
    (State.breakCore s c engine opid tag byTag).gdbg = s.gdbg := by
  unfold State.breakCore
  (repeat' split) <;> simp

@[simp] theorem State.recordDone_frame (s : State) (c engine opid tag : Nat) :
    (State.recordDone s c engine opid tag).pending = s.pending ∧
    (State.recordDone s c engine opid tag).gradeS = s.gradeS ∧ (State.recordDone s c engine opid tag).ft = s.ft ∧
    (State.recordDone s c engine opid tag).cls = s.cls ∧ (State.recordDone s c engine opid tag).layout = s.layout ∧
    (State.recordDone s c engine opid tag).setup = s.setup ∧ (State.recordDone s c engine opid tag).serial = s.serial ∧
    (State.recordDone s c engine opid tag).bringing = s.bringing ∧
    (State.recordDone s c engine opid tag).lmap = s.lmap ∧ (State.recordDone s c engine opid tag).slices = s.slices ∧
    (State.recordDone s c engine opid tag).hbmcs = s.hbmcs ∧ (State.recordDone s c engine opid tag).bdies = s.bdies ∧
    (State.recordDone s c engine opid tag).ports = s.ports ∧ (State.recordDone s c engine opid tag).nodes = s.nodes ∧
    (State.recordDone s c engine opid tag).time = s.time ∧ (State.recordDone s c engine opid tag).hif = s.hif ∧
    (State.recordDone s c engine opid tag).chip = s.chip ∧ (State.recordDone s c engine opid tag).gov = s.gov ∧
    (State.recordDone s c engine opid tag).mmc = s.mmc ∧ (State.recordDone s c engine opid tag).gdbg = s.gdbg := by
  unfold State.recordDone
  (repeat' split) <;> simp

@[simp] theorem State.settleDie_frame (s : State) (d : Nat) :
    (State.settleDie s d).pending = s.pending ∧ (State.settleDie s d).freeCtr = s.freeCtr ∧
    (State.settleDie s d).gradeS = s.gradeS ∧ (State.settleDie s d).ft = s.ft ∧ (State.settleDie s d).cls = s.cls ∧
    (State.settleDie s d).layout = s.layout ∧ (State.settleDie s d).setup = s.setup ∧
    (State.settleDie s d).serial = s.serial ∧ (State.settleDie s d).bringing = s.bringing ∧
    (State.settleDie s d).lmap = s.lmap ∧ (State.settleDie s d).parts = s.parts ∧
    (State.settleDie s d).cores = s.cores ∧ (State.settleDie s d).slices = s.slices ∧
    (State.settleDie s d).hbmcs = s.hbmcs ∧ (State.settleDie s d).bdies = s.bdies ∧
    (State.settleDie s d).ports = s.ports ∧ (State.settleDie s d).nodes = s.nodes ∧
    (State.settleDie s d).time = s.time ∧ (State.settleDie s d).out = s.out ∧ (State.settleDie s d).hif = s.hif ∧
    (State.settleDie s d).chip = s.chip ∧ (State.settleDie s d).mmc = s.mmc ∧ (State.settleDie s d).gdbg = s.gdbg := by
  unfold State.settleDie
  (repeat' split) <;> simp

@[simp] theorem State.settleDies_frame (s : State) :
    (State.settleDies s).pending = s.pending ∧ (State.settleDies s).freeCtr = s.freeCtr ∧
    (State.settleDies s).gradeS = s.gradeS ∧ (State.settleDies s).ft = s.ft ∧ (State.settleDies s).cls = s.cls ∧
    (State.settleDies s).layout = s.layout ∧ (State.settleDies s).setup = s.setup ∧
    (State.settleDies s).serial = s.serial ∧ (State.settleDies s).bringing = s.bringing ∧
    (State.settleDies s).lmap = s.lmap ∧ (State.settleDies s).parts = s.parts ∧ (State.settleDies s).cores = s.cores ∧
    (State.settleDies s).slices = s.slices ∧ (State.settleDies s).hbmcs = s.hbmcs ∧
    (State.settleDies s).bdies = s.bdies ∧ (State.settleDies s).ports = s.ports ∧
    (State.settleDies s).nodes = s.nodes ∧ (State.settleDies s).time = s.time ∧ (State.settleDies s).out = s.out ∧
    (State.settleDies s).hif = s.hif ∧ (State.settleDies s).chip = s.chip ∧ (State.settleDies s).mmc = s.mmc ∧
    (State.settleDies s).gdbg = s.gdbg := by
  unfold State.settleDies
  (repeat' split) <;> simp

@[simp] theorem State.noteIssue_frame (s : State) (c : Nat) :
    (State.noteIssue s c).pending = s.pending ∧ (State.noteIssue s c).freeCtr = s.freeCtr ∧
    (State.noteIssue s c).gradeS = s.gradeS ∧ (State.noteIssue s c).ft = s.ft ∧ (State.noteIssue s c).cls = s.cls ∧
    (State.noteIssue s c).layout = s.layout ∧ (State.noteIssue s c).setup = s.setup ∧
    (State.noteIssue s c).serial = s.serial ∧ (State.noteIssue s c).bringing = s.bringing ∧
    (State.noteIssue s c).lmap = s.lmap ∧ (State.noteIssue s c).parts = s.parts ∧
    (State.noteIssue s c).cores = s.cores ∧ (State.noteIssue s c).slices = s.slices ∧
    (State.noteIssue s c).hbmcs = s.hbmcs ∧ (State.noteIssue s c).bdies = s.bdies ∧
    (State.noteIssue s c).ports = s.ports ∧ (State.noteIssue s c).nodes = s.nodes ∧
    (State.noteIssue s c).time = s.time ∧ (State.noteIssue s c).out = s.out ∧ (State.noteIssue s c).hif = s.hif ∧
    (State.noteIssue s c).chip = s.chip ∧ (State.noteIssue s c).mmc = s.mmc ∧ (State.noteIssue s c).gdbg = s.gdbg := by
  unfold State.noteIssue
  (repeat' split) <;> simp

@[simp] theorem State.awaitSlot_frame (s : State) (c : Nat) :
    (State.awaitSlot s c).pending = s.pending ∧ (State.awaitSlot s c).freeCtr = s.freeCtr ∧
    (State.awaitSlot s c).gradeS = s.gradeS ∧ (State.awaitSlot s c).ft = s.ft ∧ (State.awaitSlot s c).cls = s.cls ∧
    (State.awaitSlot s c).layout = s.layout ∧ (State.awaitSlot s c).setup = s.setup ∧
    (State.awaitSlot s c).serial = s.serial ∧ (State.awaitSlot s c).bringing = s.bringing ∧
    (State.awaitSlot s c).lmap = s.lmap ∧ (State.awaitSlot s c).parts = s.parts ∧
    (State.awaitSlot s c).cores = s.cores ∧ (State.awaitSlot s c).slices = s.slices ∧
    (State.awaitSlot s c).hbmcs = s.hbmcs ∧ (State.awaitSlot s c).bdies = s.bdies ∧
    (State.awaitSlot s c).ports = s.ports ∧ (State.awaitSlot s c).nodes = s.nodes ∧
    (State.awaitSlot s c).time = s.time ∧ (State.awaitSlot s c).out = s.out ∧ (State.awaitSlot s c).hif = s.hif ∧
    (State.awaitSlot s c).chip = s.chip ∧ (State.awaitSlot s c).mmc = s.mmc ∧ (State.awaitSlot s c).gdbg = s.gdbg := by
  unfold State.awaitSlot
  (repeat' split) <;> simp

@[simp] theorem State.issuing_pending (s : State) (c : Nat) (f : State → State)
    (h : ∀ s, (f s).pending = s.pending) : (State.issuing s c f).pending = s.pending := by
  unfold State.issuing
  (repeat' split) <;> simp [h]
@[simp] theorem State.issuing_freeCtr (s : State) (c : Nat) (f : State → State)
    (h : ∀ s, (f s).freeCtr = s.freeCtr) : (State.issuing s c f).freeCtr = s.freeCtr := by
  unfold State.issuing
  (repeat' split) <;> simp [h]
@[simp] theorem State.issuing_gradeS (s : State) (c : Nat) (f : State → State)
    (h : ∀ s, (f s).gradeS = s.gradeS) : (State.issuing s c f).gradeS = s.gradeS := by
  unfold State.issuing
  (repeat' split) <;> simp [h]
@[simp] theorem State.issuing_ft (s : State) (c : Nat) (f : State → State)
    (h : ∀ s, (f s).ft = s.ft) : (State.issuing s c f).ft = s.ft := by
  unfold State.issuing
  (repeat' split) <;> simp [h]
@[simp] theorem State.issuing_cls (s : State) (c : Nat) (f : State → State)
    (h : ∀ s, (f s).cls = s.cls) : (State.issuing s c f).cls = s.cls := by
  unfold State.issuing
  (repeat' split) <;> simp [h]
@[simp] theorem State.issuing_layout (s : State) (c : Nat) (f : State → State)
    (h : ∀ s, (f s).layout = s.layout) : (State.issuing s c f).layout = s.layout := by
  unfold State.issuing
  (repeat' split) <;> simp [h]
@[simp] theorem State.issuing_setup (s : State) (c : Nat) (f : State → State)
    (h : ∀ s, (f s).setup = s.setup) : (State.issuing s c f).setup = s.setup := by
  unfold State.issuing
  (repeat' split) <;> simp [h]
@[simp] theorem State.issuing_serial (s : State) (c : Nat) (f : State → State)
    (h : ∀ s, (f s).serial = s.serial) : (State.issuing s c f).serial = s.serial := by
  unfold State.issuing
  (repeat' split) <;> simp [h]
@[simp] theorem State.issuing_bringing (s : State) (c : Nat) (f : State → State)
    (h : ∀ s, (f s).bringing = s.bringing) : (State.issuing s c f).bringing = s.bringing := by
  unfold State.issuing
  (repeat' split) <;> simp [h]
@[simp] theorem State.issuing_lmap (s : State) (c : Nat) (f : State → State)
    (h : ∀ s, (f s).lmap = s.lmap) : (State.issuing s c f).lmap = s.lmap := by
  unfold State.issuing
  (repeat' split) <;> simp [h]
@[simp] theorem State.issuing_parts (s : State) (c : Nat) (f : State → State)
    (h : ∀ s, (f s).parts = s.parts) : (State.issuing s c f).parts = s.parts := by
  unfold State.issuing
  (repeat' split) <;> simp [h]
@[simp] theorem State.issuing_cores (s : State) (c : Nat) (f : State → State)
    (h : ∀ s, (f s).cores = s.cores) : (State.issuing s c f).cores = s.cores := by
  unfold State.issuing
  (repeat' split) <;> simp [h]
@[simp] theorem State.issuing_slices (s : State) (c : Nat) (f : State → State)
    (h : ∀ s, (f s).slices = s.slices) : (State.issuing s c f).slices = s.slices := by
  unfold State.issuing
  (repeat' split) <;> simp [h]
@[simp] theorem State.issuing_hbmcs (s : State) (c : Nat) (f : State → State)
    (h : ∀ s, (f s).hbmcs = s.hbmcs) : (State.issuing s c f).hbmcs = s.hbmcs := by
  unfold State.issuing
  (repeat' split) <;> simp [h]
@[simp] theorem State.issuing_bdies (s : State) (c : Nat) (f : State → State)
    (h : ∀ s, (f s).bdies = s.bdies) : (State.issuing s c f).bdies = s.bdies := by
  unfold State.issuing
  (repeat' split) <;> simp [h]
@[simp] theorem State.issuing_ports (s : State) (c : Nat) (f : State → State)
    (h : ∀ s, (f s).ports = s.ports) : (State.issuing s c f).ports = s.ports := by
  unfold State.issuing
  (repeat' split) <;> simp [h]
@[simp] theorem State.issuing_nodes (s : State) (c : Nat) (f : State → State)
    (h : ∀ s, (f s).nodes = s.nodes) : (State.issuing s c f).nodes = s.nodes := by
  unfold State.issuing
  (repeat' split) <;> simp [h]
@[simp] theorem State.issuing_time (s : State) (c : Nat) (f : State → State)
    (h : ∀ s, (f s).time = s.time) : (State.issuing s c f).time = s.time := by
  unfold State.issuing
  (repeat' split) <;> simp [h]
@[simp] theorem State.issuing_out (s : State) (c : Nat) (f : State → State)
    (h : ∀ s, (f s).out = s.out) : (State.issuing s c f).out = s.out := by
  unfold State.issuing
  (repeat' split) <;> simp [h]
@[simp] theorem State.issuing_hif (s : State) (c : Nat) (f : State → State)
    (h : ∀ s, (f s).hif = s.hif) : (State.issuing s c f).hif = s.hif := by
  unfold State.issuing
  (repeat' split) <;> simp [h]
@[simp] theorem State.issuing_chip (s : State) (c : Nat) (f : State → State)
    (h : ∀ s, (f s).chip = s.chip) : (State.issuing s c f).chip = s.chip := by
  unfold State.issuing
  (repeat' split) <;> simp [h]
@[simp] theorem State.issuing_mmc (s : State) (c : Nat) (f : State → State)
    (h : ∀ s, (f s).mmc = s.mmc) : (State.issuing s c f).mmc = s.mmc := by
  unfold State.issuing
  (repeat' split) <;> simp [h]
@[simp] theorem State.issuing_gdbg (s : State) (c : Nat) (f : State → State)
    (h : ∀ s, (f s).gdbg = s.gdbg) : (State.issuing s c f).gdbg = s.gdbg := by
  unfold State.issuing
  (repeat' split) <;> simp [h]

end Sys2Proof.Machine
end

