-- ==== Sys2Proof/Laws/FrameMemory.lean ====
section
/-! SUPPORT. Frames: which fields of the state each operation of Machine/Memory, Queues leaves as they are. -/

namespace Sys2Proof.Machine

@[simp] theorem State.nimEvent_frame (s : State) (p d line : Nat) :
    (State.nimEvent s p d line).pending = s.pending ∧ (State.nimEvent s p d line).freeCtr = s.freeCtr ∧
    (State.nimEvent s p d line).gradeS = s.gradeS ∧ (State.nimEvent s p d line).ft = s.ft ∧
    (State.nimEvent s p d line).cls = s.cls ∧ (State.nimEvent s p d line).layout = s.layout ∧
    (State.nimEvent s p d line).setup = s.setup ∧ (State.nimEvent s p d line).serial = s.serial ∧
    (State.nimEvent s p d line).bringing = s.bringing ∧ (State.nimEvent s p d line).lmap = s.lmap ∧
    (State.nimEvent s p d line).parts = s.parts ∧ (State.nimEvent s p d line).cores = s.cores ∧
    (State.nimEvent s p d line).slices = s.slices ∧ (State.nimEvent s p d line).hbmcs = s.hbmcs ∧
    (State.nimEvent s p d line).bdies = s.bdies ∧ (State.nimEvent s p d line).ports = s.ports ∧
    (State.nimEvent s p d line).nodes = s.nodes ∧ (State.nimEvent s p d line).time = s.time ∧
    (State.nimEvent s p d line).chip = s.chip ∧ (State.nimEvent s p d line).gov = s.gov ∧
    (State.nimEvent s p d line).mmc = s.mmc ∧ (State.nimEvent s p d line).gdbg = s.gdbg := by
  unfold State.nimEvent
  (repeat' split) <;> simp

@[simp] theorem State.memEvent_frame (s : State) (p line : Nat) (recovered : Bool) (symbols : Nat) :
    (State.memEvent s p line recovered symbols).pending = s.pending ∧
    (State.memEvent s p line recovered symbols).freeCtr = s.freeCtr ∧
    (State.memEvent s p line recovered symbols).gradeS = s.gradeS ∧
    (State.memEvent s p line recovered symbols).ft = s.ft ∧ (State.memEvent s p line recovered symbols).cls = s.cls ∧
    (State.memEvent s p line recovered symbols).layout = s.layout ∧
    (State.memEvent s p line recovered symbols).setup = s.setup ∧
    (State.memEvent s p line recovered symbols).serial = s.serial ∧
    (State.memEvent s p line recovered symbols).bringing = s.bringing ∧
    (State.memEvent s p line recovered symbols).lmap = s.lmap ∧
    (State.memEvent s p line recovered symbols).parts = s.parts ∧
    (State.memEvent s p line recovered symbols).cores = s.cores ∧
    (State.memEvent s p line recovered symbols).slices = s.slices ∧
    (State.memEvent s p line recovered symbols).hbmcs = s.hbmcs ∧
    (State.memEvent s p line recovered symbols).bdies = s.bdies ∧
    (State.memEvent s p line recovered symbols).ports = s.ports ∧
    (State.memEvent s p line recovered symbols).nodes = s.nodes ∧
    (State.memEvent s p line recovered symbols).time = s.time ∧
    (State.memEvent s p line recovered symbols).gov = s.gov ∧ (State.memEvent s p line recovered symbols).mmc = s.mmc ∧
    (State.memEvent s p line recovered symbols).gdbg = s.gdbg := by
  unfold State.memEvent
  (repeat' split) <;> simp

@[simp] theorem State.touchLine_frame (s : State) (p d line : Nat) (dirty : Bool) :
    (State.touchLine s p d line dirty).pending = s.pending ∧ (State.touchLine s p d line dirty).freeCtr = s.freeCtr ∧
    (State.touchLine s p d line dirty).gradeS = s.gradeS ∧ (State.touchLine s p d line dirty).ft = s.ft ∧
    (State.touchLine s p d line dirty).cls = s.cls ∧ (State.touchLine s p d line dirty).layout = s.layout ∧
    (State.touchLine s p d line dirty).setup = s.setup ∧ (State.touchLine s p d line dirty).serial = s.serial ∧
    (State.touchLine s p d line dirty).bringing = s.bringing ∧ (State.touchLine s p d line dirty).lmap = s.lmap ∧
    (State.touchLine s p d line dirty).cores = s.cores ∧ (State.touchLine s p d line dirty).hbmcs = s.hbmcs ∧
    (State.touchLine s p d line dirty).bdies = s.bdies ∧ (State.touchLine s p d line dirty).ports = s.ports ∧
    (State.touchLine s p d line dirty).nodes = s.nodes ∧ (State.touchLine s p d line dirty).time = s.time ∧
    (State.touchLine s p d line dirty).out = s.out ∧ (State.touchLine s p d line dirty).hif = s.hif ∧
    (State.touchLine s p d line dirty).chip = s.chip ∧ (State.touchLine s p d line dirty).gov = s.gov ∧
    (State.touchLine s p d line dirty).mmc = s.mmc := by
  unfold State.touchLine
  simp
  (repeat' split) <;> simp

@[simp] theorem State.markStale_frame (s : State) (p line : Nat) :
    (State.markStale s p line).pending = s.pending ∧ (State.markStale s p line).freeCtr = s.freeCtr ∧
    (State.markStale s p line).gradeS = s.gradeS ∧ (State.markStale s p line).ft = s.ft ∧
    (State.markStale s p line).cls = s.cls ∧ (State.markStale s p line).layout = s.layout ∧
    (State.markStale s p line).setup = s.setup ∧ (State.markStale s p line).serial = s.serial ∧
    (State.markStale s p line).bringing = s.bringing ∧ (State.markStale s p line).lmap = s.lmap ∧
    (State.markStale s p line).parts = s.parts ∧ (State.markStale s p line).slices = s.slices ∧
    (State.markStale s p line).hbmcs = s.hbmcs ∧ (State.markStale s p line).bdies = s.bdies ∧
    (State.markStale s p line).ports = s.ports ∧ (State.markStale s p line).nodes = s.nodes ∧
    (State.markStale s p line).time = s.time ∧ (State.markStale s p line).out = s.out ∧
    (State.markStale s p line).hif = s.hif ∧ (State.markStale s p line).chip = s.chip ∧
    (State.markStale s p line).gov = s.gov ∧ (State.markStale s p line).mmc = s.mmc ∧
    (State.markStale s p line).gdbg = s.gdbg := by
  unfold State.markStale
  (repeat' split) <;> simp

@[simp] theorem State.countCe_frame (s : State) (p line : Nat) :
    (State.countCe s p line).pending = s.pending ∧ (State.countCe s p line).freeCtr = s.freeCtr ∧
    (State.countCe s p line).gradeS = s.gradeS ∧ (State.countCe s p line).ft = s.ft ∧
    (State.countCe s p line).cls = s.cls ∧ (State.countCe s p line).layout = s.layout ∧
    (State.countCe s p line).setup = s.setup ∧ (State.countCe s p line).serial = s.serial ∧
    (State.countCe s p line).bringing = s.bringing ∧ (State.countCe s p line).lmap = s.lmap ∧
    (State.countCe s p line).parts = s.parts ∧ (State.countCe s p line).cores = s.cores ∧
    (State.countCe s p line).slices = s.slices ∧ (State.countCe s p line).bdies = s.bdies ∧
    (State.countCe s p line).ports = s.ports ∧ (State.countCe s p line).nodes = s.nodes ∧
    (State.countCe s p line).time = s.time ∧ (State.countCe s p line).out = s.out ∧
    (State.countCe s p line).hif = s.hif ∧ (State.countCe s p line).chip = s.chip ∧
    (State.countCe s p line).gov = s.gov ∧ (State.countCe s p line).mmc = s.mmc := by
  unfold State.countCe
  (repeat' split) <;> simp

@[simp] theorem State.setPoison_frame (s : State) (p line : Nat) (b : Bool) :
    (State.setPoison s p line b).pending = s.pending ∧ (State.setPoison s p line b).freeCtr = s.freeCtr ∧
    (State.setPoison s p line b).gradeS = s.gradeS ∧ (State.setPoison s p line b).ft = s.ft ∧
    (State.setPoison s p line b).cls = s.cls ∧ (State.setPoison s p line b).layout = s.layout ∧
    (State.setPoison s p line b).setup = s.setup ∧ (State.setPoison s p line b).serial = s.serial ∧
    (State.setPoison s p line b).bringing = s.bringing ∧ (State.setPoison s p line b).lmap = s.lmap ∧
    (State.setPoison s p line b).cores = s.cores ∧ (State.setPoison s p line b).slices = s.slices ∧
    (State.setPoison s p line b).hbmcs = s.hbmcs ∧ (State.setPoison s p line b).bdies = s.bdies ∧
    (State.setPoison s p line b).ports = s.ports ∧ (State.setPoison s p line b).nodes = s.nodes ∧
    (State.setPoison s p line b).time = s.time ∧ (State.setPoison s p line b).out = s.out ∧
    (State.setPoison s p line b).hif = s.hif ∧ (State.setPoison s p line b).chip = s.chip ∧
    (State.setPoison s p line b).gov = s.gov ∧ (State.setPoison s p line b).mmc = s.mmc ∧
    (State.setPoison s p line b).gdbg = s.gdbg := by
  unfold State.setPoison
  (repeat' split) <;> simp

@[simp] theorem State.readWord_frame (s : State) (p line : Nat) (flt : MemFault) :
    (State.readWord s p line flt).1.pending = s.pending ∧ (State.readWord s p line flt).1.gradeS = s.gradeS ∧
    (State.readWord s p line flt).1.ft = s.ft ∧ (State.readWord s p line flt).1.cls = s.cls ∧
    (State.readWord s p line flt).1.layout = s.layout ∧ (State.readWord s p line flt).1.setup = s.setup ∧
    (State.readWord s p line flt).1.serial = s.serial ∧ (State.readWord s p line flt).1.bringing = s.bringing ∧
    (State.readWord s p line flt).1.lmap = s.lmap ∧ (State.readWord s p line flt).1.cores = s.cores ∧
    (State.readWord s p line flt).1.slices = s.slices ∧ (State.readWord s p line flt).1.bdies = s.bdies ∧
    (State.readWord s p line flt).1.ports = s.ports ∧ (State.readWord s p line flt).1.nodes = s.nodes ∧
    (State.readWord s p line flt).1.time = s.time ∧ (State.readWord s p line flt).1.gov = s.gov ∧
    (State.readWord s p line flt).1.mmc = s.mmc := by
  unfold State.readWord
  simp
  (repeat' split) <;> simp

@[simp] theorem State.recoverWord_frame (s : State) (p line : Nat) (errs : List (Nat × Byte)) :
    (State.recoverWord s p line errs).pending = s.pending ∧ (State.recoverWord s p line errs).freeCtr = s.freeCtr ∧
    (State.recoverWord s p line errs).gradeS = s.gradeS ∧ (State.recoverWord s p line errs).ft = s.ft ∧
    (State.recoverWord s p line errs).cls = s.cls ∧ (State.recoverWord s p line errs).layout = s.layout ∧
    (State.recoverWord s p line errs).setup = s.setup ∧ (State.recoverWord s p line errs).serial = s.serial ∧
    (State.recoverWord s p line errs).bringing = s.bringing ∧ (State.recoverWord s p line errs).lmap = s.lmap ∧
    (State.recoverWord s p line errs).parts = s.parts ∧ (State.recoverWord s p line errs).cores = s.cores ∧
    (State.recoverWord s p line errs).slices = s.slices ∧ (State.recoverWord s p line errs).hbmcs = s.hbmcs ∧
    (State.recoverWord s p line errs).bdies = s.bdies ∧ (State.recoverWord s p line errs).ports = s.ports ∧
    (State.recoverWord s p line errs).nodes = s.nodes ∧ (State.recoverWord s p line errs).time = s.time ∧
    (State.recoverWord s p line errs).gov = s.gov ∧ (State.recoverWord s p line errs).mmc = s.mmc ∧
    (State.recoverWord s p line errs).gdbg = s.gdbg := by
  unfold State.recoverWord
  (repeat' split) <;> simp

@[simp] theorem State.nimError_frame (s : State) (p d line : Nat) (flt : MemFault) :
    (State.nimError s p d line flt).1.pending = s.pending ∧ (State.nimError s p d line flt).1.freeCtr = s.freeCtr ∧
    (State.nimError s p d line flt).1.gradeS = s.gradeS ∧ (State.nimError s p d line flt).1.ft = s.ft ∧
    (State.nimError s p d line flt).1.cls = s.cls ∧ (State.nimError s p d line flt).1.layout = s.layout ∧
    (State.nimError s p d line flt).1.setup = s.setup ∧ (State.nimError s p d line flt).1.serial = s.serial ∧
    (State.nimError s p d line flt).1.bringing = s.bringing ∧ (State.nimError s p d line flt).1.lmap = s.lmap ∧
    (State.nimError s p d line flt).1.parts = s.parts ∧ (State.nimError s p d line flt).1.cores = s.cores ∧
    (State.nimError s p d line flt).1.hbmcs = s.hbmcs ∧ (State.nimError s p d line flt).1.bdies = s.bdies ∧
    (State.nimError s p d line flt).1.ports = s.ports ∧ (State.nimError s p d line flt).1.nodes = s.nodes ∧
    (State.nimError s p d line flt).1.time = s.time ∧ (State.nimError s p d line flt).1.chip = s.chip ∧
    (State.nimError s p d line flt).1.gov = s.gov ∧ (State.nimError s p d line flt).1.mmc = s.mmc ∧
    (State.nimError s p d line flt).1.gdbg = s.gdbg := by
  unfold State.nimError
  (repeat' split) <;> simp

@[simp] theorem State.readLine_frame (s : State) (p a0 n : Nat) (priv : Bool) (flt : MemFault) :
    (State.readLine s p a0 n priv flt).1.pending = s.pending ∧ (State.readLine s p a0 n priv flt).1.gradeS = s.gradeS ∧
    (State.readLine s p a0 n priv flt).1.ft = s.ft ∧ (State.readLine s p a0 n priv flt).1.cls = s.cls ∧
    (State.readLine s p a0 n priv flt).1.layout = s.layout ∧ (State.readLine s p a0 n priv flt).1.setup = s.setup ∧
    (State.readLine s p a0 n priv flt).1.serial = s.serial ∧
    (State.readLine s p a0 n priv flt).1.bringing = s.bringing ∧ (State.readLine s p a0 n priv flt).1.lmap = s.lmap ∧
    (State.readLine s p a0 n priv flt).1.cores = s.cores ∧ (State.readLine s p a0 n priv flt).1.bdies = s.bdies ∧
    (State.readLine s p a0 n priv flt).1.ports = s.ports ∧ (State.readLine s p a0 n priv flt).1.nodes = s.nodes ∧
    (State.readLine s p a0 n priv flt).1.time = s.time ∧ (State.readLine s p a0 n priv flt).1.gov = s.gov ∧
    (State.readLine s p a0 n priv flt).1.mmc = s.mmc := by
  unfold State.readLine
  simp
  (repeat' split) <;> simp

@[simp] theorem State.writeLine_frame (s : State) (p a0 : Nat) (bs : Bytes) (priv : Bool) (flt : MemFault) :
    (State.writeLine s p a0 bs priv flt).1.pending = s.pending ∧
    (State.writeLine s p a0 bs priv flt).1.gradeS = s.gradeS ∧ (State.writeLine s p a0 bs priv flt).1.ft = s.ft ∧
    (State.writeLine s p a0 bs priv flt).1.cls = s.cls ∧ (State.writeLine s p a0 bs priv flt).1.layout = s.layout ∧
    (State.writeLine s p a0 bs priv flt).1.setup = s.setup ∧ (State.writeLine s p a0 bs priv flt).1.serial = s.serial ∧
    (State.writeLine s p a0 bs priv flt).1.bringing = s.bringing ∧
    (State.writeLine s p a0 bs priv flt).1.lmap = s.lmap ∧ (State.writeLine s p a0 bs priv flt).1.bdies = s.bdies ∧
    (State.writeLine s p a0 bs priv flt).1.ports = s.ports ∧ (State.writeLine s p a0 bs priv flt).1.nodes = s.nodes ∧
    (State.writeLine s p a0 bs priv flt).1.time = s.time ∧ (State.writeLine s p a0 bs priv flt).1.gov = s.gov ∧
    (State.writeLine s p a0 bs priv flt).1.mmc = s.mmc := by
  unfold State.writeLine
  simp
  (repeat' split) <;> simp

@[simp] theorem State.devRead_frame (s : State) (p a n : Nat) (priv : Bool) :
    (State.devRead s p a n priv).1.pending = s.pending ∧ (State.devRead s p a n priv).1.gradeS = s.gradeS ∧
    (State.devRead s p a n priv).1.ft = s.ft ∧ (State.devRead s p a n priv).1.cls = s.cls ∧
    (State.devRead s p a n priv).1.layout = s.layout ∧ (State.devRead s p a n priv).1.setup = s.setup ∧
    (State.devRead s p a n priv).1.serial = s.serial ∧ (State.devRead s p a n priv).1.bringing = s.bringing ∧
    (State.devRead s p a n priv).1.lmap = s.lmap ∧ (State.devRead s p a n priv).1.cores = s.cores ∧
    (State.devRead s p a n priv).1.bdies = s.bdies ∧ (State.devRead s p a n priv).1.ports = s.ports ∧
    (State.devRead s p a n priv).1.nodes = s.nodes ∧ (State.devRead s p a n priv).1.time = s.time ∧
    (State.devRead s p a n priv).1.gov = s.gov ∧ (State.devRead s p a n priv).1.mmc = s.mmc := by
  unfold State.devRead
  exact ⟨foldl_keeps (fun x : State × _ => x.1.pending) _ (fun a i => by (try dsimp only); (repeat' split) <;> simp) _ _,
    foldl_keeps (fun x : State × _ => x.1.gradeS) _ (fun a i => by (try dsimp only); (repeat' split) <;> simp) _ _,
    foldl_keeps (fun x : State × _ => x.1.ft) _ (fun a i => by (try dsimp only); (repeat' split) <;> simp) _ _,
    foldl_keeps (fun x : State × _ => x.1.cls) _ (fun a i => by (try dsimp only); (repeat' split) <;> simp) _ _,
    foldl_keeps (fun x : State × _ => x.1.layout) _ (fun a i => by (try dsimp only); (repeat' split) <;> simp) _ _,
    foldl_keeps (fun x : State × _ => x.1.setup) _ (fun a i => by (try dsimp only); (repeat' split) <;> simp) _ _,
    foldl_keeps (fun x : State × _ => x.1.serial) _ (fun a i => by (try dsimp only); (repeat' split) <;> simp) _ _,
    foldl_keeps (fun x : State × _ => x.1.bringing) _ (fun a i => by (try dsimp only); (repeat' split) <;> simp) _ _,
    foldl_keeps (fun x : State × _ => x.1.lmap) _ (fun a i => by (try dsimp only); (repeat' split) <;> simp) _ _,
    foldl_keeps (fun x : State × _ => x.1.cores) _ (fun a i => by (try dsimp only); (repeat' split) <;> simp) _ _,
    foldl_keeps (fun x : State × _ => x.1.bdies) _ (fun a i => by (try dsimp only); (repeat' split) <;> simp) _ _,
    foldl_keeps (fun x : State × _ => x.1.ports) _ (fun a i => by (try dsimp only); (repeat' split) <;> simp) _ _,
    foldl_keeps (fun x : State × _ => x.1.nodes) _ (fun a i => by (try dsimp only); (repeat' split) <;> simp) _ _,
    foldl_keeps (fun x : State × _ => x.1.time) _ (fun a i => by (try dsimp only); (repeat' split) <;> simp) _ _,
    foldl_keeps (fun x : State × _ => x.1.gov) _ (fun a i => by (try dsimp only); (repeat' split) <;> simp) _ _,
    foldl_keeps (fun x : State × _ => x.1.mmc) _ (fun a i => by (try dsimp only); (repeat' split) <;> simp) _ _⟩

@[simp] theorem State.devWrite_frame (s : State) (p a : Nat) (bs : Bytes) (priv : Bool) :
    (State.devWrite s p a bs priv).1.pending = s.pending ∧ (State.devWrite s p a bs priv).1.gradeS = s.gradeS ∧
    (State.devWrite s p a bs priv).1.ft = s.ft ∧ (State.devWrite s p a bs priv).1.cls = s.cls ∧
    (State.devWrite s p a bs priv).1.layout = s.layout ∧ (State.devWrite s p a bs priv).1.setup = s.setup ∧
    (State.devWrite s p a bs priv).1.serial = s.serial ∧ (State.devWrite s p a bs priv).1.bringing = s.bringing ∧
    (State.devWrite s p a bs priv).1.lmap = s.lmap ∧ (State.devWrite s p a bs priv).1.bdies = s.bdies ∧
    (State.devWrite s p a bs priv).1.ports = s.ports ∧ (State.devWrite s p a bs priv).1.nodes = s.nodes ∧
    (State.devWrite s p a bs priv).1.time = s.time ∧ (State.devWrite s p a bs priv).1.gov = s.gov ∧
    (State.devWrite s p a bs priv).1.mmc = s.mmc := by
  unfold State.devWrite
  exact ⟨foldl_keeps (fun x : State × _ => x.1.pending) _ (fun a i => by (try dsimp only); (repeat' split) <;> simp) _ _,
    foldl_keeps (fun x : State × _ => x.1.gradeS) _ (fun a i => by (try dsimp only); (repeat' split) <;> simp) _ _,
    foldl_keeps (fun x : State × _ => x.1.ft) _ (fun a i => by (try dsimp only); (repeat' split) <;> simp) _ _,
    foldl_keeps (fun x : State × _ => x.1.cls) _ (fun a i => by (try dsimp only); (repeat' split) <;> simp) _ _,
    foldl_keeps (fun x : State × _ => x.1.layout) _ (fun a i => by (try dsimp only); (repeat' split) <;> simp) _ _,
    foldl_keeps (fun x : State × _ => x.1.setup) _ (fun a i => by (try dsimp only); (repeat' split) <;> simp) _ _,
    foldl_keeps (fun x : State × _ => x.1.serial) _ (fun a i => by (try dsimp only); (repeat' split) <;> simp) _ _,
    foldl_keeps (fun x : State × _ => x.1.bringing) _ (fun a i => by (try dsimp only); (repeat' split) <;> simp) _ _,
    foldl_keeps (fun x : State × _ => x.1.lmap) _ (fun a i => by (try dsimp only); (repeat' split) <;> simp) _ _,
    foldl_keeps (fun x : State × _ => x.1.bdies) _ (fun a i => by (try dsimp only); (repeat' split) <;> simp) _ _,
    foldl_keeps (fun x : State × _ => x.1.ports) _ (fun a i => by (try dsimp only); (repeat' split) <;> simp) _ _,
    foldl_keeps (fun x : State × _ => x.1.nodes) _ (fun a i => by (try dsimp only); (repeat' split) <;> simp) _ _,
    foldl_keeps (fun x : State × _ => x.1.time) _ (fun a i => by (try dsimp only); (repeat' split) <;> simp) _ _,
    foldl_keeps (fun x : State × _ => x.1.gov) _ (fun a i => by (try dsimp only); (repeat' split) <;> simp) _ _,
    foldl_keeps (fun x : State × _ => x.1.mmc) _ (fun a i => by (try dsimp only); (repeat' split) <;> simp) _ _⟩

@[simp] theorem State.locRead_frame (s : State) (p : Nat) (l : Loc) (n : Nat) :
    (State.locRead s p l n).1.pending = s.pending ∧ (State.locRead s p l n).1.gradeS = s.gradeS ∧
    (State.locRead s p l n).1.ft = s.ft ∧ (State.locRead s p l n).1.cls = s.cls ∧
    (State.locRead s p l n).1.layout = s.layout ∧ (State.locRead s p l n).1.setup = s.setup ∧
    (State.locRead s p l n).1.serial = s.serial ∧ (State.locRead s p l n).1.bringing = s.bringing ∧
    (State.locRead s p l n).1.lmap = s.lmap ∧ (State.locRead s p l n).1.cores = s.cores ∧
    (State.locRead s p l n).1.bdies = s.bdies ∧ (State.locRead s p l n).1.ports = s.ports ∧
    (State.locRead s p l n).1.nodes = s.nodes ∧ (State.locRead s p l n).1.time = s.time ∧
    (State.locRead s p l n).1.gov = s.gov ∧ (State.locRead s p l n).1.mmc = s.mmc := by
  unfold State.locRead
  (repeat' split) <;> simp

@[simp] theorem State.locWrite_frame (s : State) (p : Nat) (l : Loc) (bs : Bytes) :
    (State.locWrite s p l bs).1.pending = s.pending ∧ (State.locWrite s p l bs).1.gradeS = s.gradeS ∧
    (State.locWrite s p l bs).1.ft = s.ft ∧ (State.locWrite s p l bs).1.cls = s.cls ∧
    (State.locWrite s p l bs).1.layout = s.layout ∧ (State.locWrite s p l bs).1.setup = s.setup ∧
    (State.locWrite s p l bs).1.serial = s.serial ∧ (State.locWrite s p l bs).1.bringing = s.bringing ∧
    (State.locWrite s p l bs).1.lmap = s.lmap ∧ (State.locWrite s p l bs).1.bdies = s.bdies ∧
    (State.locWrite s p l bs).1.ports = s.ports ∧ (State.locWrite s p l bs).1.nodes = s.nodes ∧
    (State.locWrite s p l bs).1.time = s.time ∧ (State.locWrite s p l bs).1.gov = s.gov ∧
    (State.locWrite s p l bs).1.mmc = s.mmc := by
  unfold State.locWrite
  (repeat' split) <;> simp

@[simp] theorem State.locWrites_frame (s : State) (p : Nat) (ws : List (Loc × Bytes)) :
    (State.locWrites s p ws).1.pending = s.pending ∧ (State.locWrites s p ws).1.gradeS = s.gradeS ∧
    (State.locWrites s p ws).1.ft = s.ft ∧ (State.locWrites s p ws).1.cls = s.cls ∧
    (State.locWrites s p ws).1.layout = s.layout ∧ (State.locWrites s p ws).1.setup = s.setup ∧
    (State.locWrites s p ws).1.serial = s.serial ∧ (State.locWrites s p ws).1.bringing = s.bringing ∧
    (State.locWrites s p ws).1.lmap = s.lmap ∧ (State.locWrites s p ws).1.bdies = s.bdies ∧
    (State.locWrites s p ws).1.ports = s.ports ∧ (State.locWrites s p ws).1.nodes = s.nodes ∧
    (State.locWrites s p ws).1.time = s.time ∧ (State.locWrites s p ws).1.gov = s.gov ∧
    (State.locWrites s p ws).1.mmc = s.mmc := by
  unfold State.locWrites
  exact ⟨foldl_keeps (fun x : State × _ => x.1.pending) _ (fun a i => by (try dsimp only); (repeat' split) <;> simp) _ _,
    foldl_keeps (fun x : State × _ => x.1.gradeS) _ (fun a i => by (try dsimp only); (repeat' split) <;> simp) _ _,
    foldl_keeps (fun x : State × _ => x.1.ft) _ (fun a i => by (try dsimp only); (repeat' split) <;> simp) _ _,
    foldl_keeps (fun x : State × _ => x.1.cls) _ (fun a i => by (try dsimp only); (repeat' split) <;> simp) _ _,
    foldl_keeps (fun x : State × _ => x.1.layout) _ (fun a i => by (try dsimp only); (repeat' split) <;> simp) _ _,
    foldl_keeps (fun x : State × _ => x.1.setup) _ (fun a i => by (try dsimp only); (repeat' split) <;> simp) _ _,
    foldl_keeps (fun x : State × _ => x.1.serial) _ (fun a i => by (try dsimp only); (repeat' split) <;> simp) _ _,
    foldl_keeps (fun x : State × _ => x.1.bringing) _ (fun a i => by (try dsimp only); (repeat' split) <;> simp) _ _,
    foldl_keeps (fun x : State × _ => x.1.lmap) _ (fun a i => by (try dsimp only); (repeat' split) <;> simp) _ _,
    foldl_keeps (fun x : State × _ => x.1.bdies) _ (fun a i => by (try dsimp only); (repeat' split) <;> simp) _ _,
    foldl_keeps (fun x : State × _ => x.1.ports) _ (fun a i => by (try dsimp only); (repeat' split) <;> simp) _ _,
    foldl_keeps (fun x : State × _ => x.1.nodes) _ (fun a i => by (try dsimp only); (repeat' split) <;> simp) _ _,
    foldl_keeps (fun x : State × _ => x.1.time) _ (fun a i => by (try dsimp only); (repeat' split) <;> simp) _ _,
    foldl_keeps (fun x : State × _ => x.1.gov) _ (fun a i => by (try dsimp only); (repeat' split) <;> simp) _ _,
    foldl_keeps (fun x : State × _ => x.1.mmc) _ (fun a i => by (try dsimp only); (repeat' split) <;> simp) _ _⟩

@[simp] theorem State.locReads_frame (s : State) (p : Nat) (ls : List (Loc × Nat)) :
    (State.locReads s p ls).1.pending = s.pending ∧ (State.locReads s p ls).1.gradeS = s.gradeS ∧
    (State.locReads s p ls).1.ft = s.ft ∧ (State.locReads s p ls).1.cls = s.cls ∧
    (State.locReads s p ls).1.layout = s.layout ∧ (State.locReads s p ls).1.setup = s.setup ∧
    (State.locReads s p ls).1.serial = s.serial ∧ (State.locReads s p ls).1.bringing = s.bringing ∧
    (State.locReads s p ls).1.lmap = s.lmap ∧ (State.locReads s p ls).1.cores = s.cores ∧
    (State.locReads s p ls).1.bdies = s.bdies ∧ (State.locReads s p ls).1.ports = s.ports ∧
    (State.locReads s p ls).1.nodes = s.nodes ∧ (State.locReads s p ls).1.time = s.time ∧
    (State.locReads s p ls).1.gov = s.gov ∧ (State.locReads s p ls).1.mmc = s.mmc := by
  unfold State.locReads
  exact ⟨foldl_keeps (fun x : State × _ => x.1.pending) _ (fun a i => by (try dsimp only); (repeat' split) <;> simp) _ _,
    foldl_keeps (fun x : State × _ => x.1.gradeS) _ (fun a i => by (try dsimp only); (repeat' split) <;> simp) _ _,
    foldl_keeps (fun x : State × _ => x.1.ft) _ (fun a i => by (try dsimp only); (repeat' split) <;> simp) _ _,
    foldl_keeps (fun x : State × _ => x.1.cls) _ (fun a i => by (try dsimp only); (repeat' split) <;> simp) _ _,
    foldl_keeps (fun x : State × _ => x.1.layout) _ (fun a i => by (try dsimp only); (repeat' split) <;> simp) _ _,
    foldl_keeps (fun x : State × _ => x.1.setup) _ (fun a i => by (try dsimp only); (repeat' split) <;> simp) _ _,
    foldl_keeps (fun x : State × _ => x.1.serial) _ (fun a i => by (try dsimp only); (repeat' split) <;> simp) _ _,
    foldl_keeps (fun x : State × _ => x.1.bringing) _ (fun a i => by (try dsimp only); (repeat' split) <;> simp) _ _,
    foldl_keeps (fun x : State × _ => x.1.lmap) _ (fun a i => by (try dsimp only); (repeat' split) <;> simp) _ _,
    foldl_keeps (fun x : State × _ => x.1.cores) _ (fun a i => by (try dsimp only); (repeat' split) <;> simp) _ _,
    foldl_keeps (fun x : State × _ => x.1.bdies) _ (fun a i => by (try dsimp only); (repeat' split) <;> simp) _ _,
    foldl_keeps (fun x : State × _ => x.1.ports) _ (fun a i => by (try dsimp only); (repeat' split) <;> simp) _ _,
    foldl_keeps (fun x : State × _ => x.1.nodes) _ (fun a i => by (try dsimp only); (repeat' split) <;> simp) _ _,
    foldl_keeps (fun x : State × _ => x.1.time) _ (fun a i => by (try dsimp only); (repeat' split) <;> simp) _ _,
    foldl_keeps (fun x : State × _ => x.1.gov) _ (fun a i => by (try dsimp only); (repeat' split) <;> simp) _ _,
    foldl_keeps (fun x : State × _ => x.1.mmc) _ (fun a i => by (try dsimp only); (repeat' split) <;> simp) _ _⟩

@[simp] theorem State.atomic_frame (s : State) (p a : Nat) (op : AtomicOp) (flt : MemFault) :
    (State.atomic s p a op flt).1.pending = s.pending ∧ (State.atomic s p a op flt).1.gradeS = s.gradeS ∧
    (State.atomic s p a op flt).1.ft = s.ft ∧ (State.atomic s p a op flt).1.cls = s.cls ∧
    (State.atomic s p a op flt).1.layout = s.layout ∧ (State.atomic s p a op flt).1.setup = s.setup ∧
    (State.atomic s p a op flt).1.serial = s.serial ∧ (State.atomic s p a op flt).1.bringing = s.bringing ∧
    (State.atomic s p a op flt).1.lmap = s.lmap ∧ (State.atomic s p a op flt).1.bdies = s.bdies ∧
    (State.atomic s p a op flt).1.ports = s.ports ∧ (State.atomic s p a op flt).1.nodes = s.nodes ∧
    (State.atomic s p a op flt).1.time = s.time ∧ (State.atomic s p a op flt).1.gov = s.gov ∧
    (State.atomic s p a op flt).1.mmc = s.mmc := by
  unfold State.atomic
  simp
  (repeat' split) <;> simp

@[simp] theorem State.startEntry_frame (s : State) (c q i : Nat) (e : QEntry) (ph : Phase) :
    (State.startEntry s c q i e ph).pending = s.pending ∧ (State.startEntry s c q i e ph).gradeS = s.gradeS ∧
    (State.startEntry s c q i e ph).ft = s.ft ∧ (State.startEntry s c q i e ph).cls = s.cls ∧
    (State.startEntry s c q i e ph).layout = s.layout ∧ (State.startEntry s c q i e ph).setup = s.setup ∧
    (State.startEntry s c q i e ph).serial = s.serial ∧ (State.startEntry s c q i e ph).bringing = s.bringing ∧
    (State.startEntry s c q i e ph).lmap = s.lmap ∧ (State.startEntry s c q i e ph).parts = s.parts ∧
    (State.startEntry s c q i e ph).slices = s.slices ∧ (State.startEntry s c q i e ph).hbmcs = s.hbmcs ∧
    (State.startEntry s c q i e ph).bdies = s.bdies ∧ (State.startEntry s c q i e ph).ports = s.ports ∧
    (State.startEntry s c q i e ph).nodes = s.nodes ∧ (State.startEntry s c q i e ph).time = s.time ∧
    (State.startEntry s c q i e ph).out = s.out ∧ (State.startEntry s c q i e ph).hif = s.hif ∧
    (State.startEntry s c q i e ph).chip = s.chip ∧ (State.startEntry s c q i e ph).gov = s.gov ∧
    (State.startEntry s c q i e ph).mmc = s.mmc ∧ (State.startEntry s c q i e ph).gdbg = s.gdbg := by
  unfold State.startEntry
  (repeat' split) <;> simp

@[simp] theorem State.setPhase_frame (s : State) (c q i : Nat) (ph : Phase) :
    (State.setPhase s c q i ph).pending = s.pending ∧ (State.setPhase s c q i ph).freeCtr = s.freeCtr ∧
    (State.setPhase s c q i ph).gradeS = s.gradeS ∧ (State.setPhase s c q i ph).ft = s.ft ∧
    (State.setPhase s c q i ph).cls = s.cls ∧ (State.setPhase s c q i ph).layout = s.layout ∧
    (State.setPhase s c q i ph).setup = s.setup ∧ (State.setPhase s c q i ph).serial = s.serial ∧
    (State.setPhase s c q i ph).bringing = s.bringing ∧ (State.setPhase s c q i ph).lmap = s.lmap ∧
    (State.setPhase s c q i ph).parts = s.parts ∧ (State.setPhase s c q i ph).slices = s.slices ∧
    (State.setPhase s c q i ph).hbmcs = s.hbmcs ∧ (State.setPhase s c q i ph).bdies = s.bdies ∧
    (State.setPhase s c q i ph).ports = s.ports ∧ (State.setPhase s c q i ph).nodes = s.nodes ∧
    (State.setPhase s c q i ph).time = s.time ∧ (State.setPhase s c q i ph).out = s.out ∧
    (State.setPhase s c q i ph).hif = s.hif ∧ (State.setPhase s c q i ph).chip = s.chip ∧
    (State.setPhase s c q i ph).gov = s.gov ∧ (State.setPhase s c q i ph).mmc = s.mmc ∧
    (State.setPhase s c q i ph).gdbg = s.gdbg := by
  unfold State.setPhase
  (repeat' split) <;> simp

@[simp] theorem State.runEntry_pending (s : State) (c q i : Nat) (e : QEntry) (run : State → State × Outcome)
    (h : ∀ s, (run s).1.pending = s.pending) : (State.runEntry s c q i e run).pending = s.pending := by
  unfold State.runEntry
  simp [h]
@[simp] theorem State.runEntry_gradeS (s : State) (c q i : Nat) (e : QEntry) (run : State → State × Outcome)
    (h : ∀ s, (run s).1.gradeS = s.gradeS) : (State.runEntry s c q i e run).gradeS = s.gradeS := by
  unfold State.runEntry
  simp [h]
@[simp] theorem State.runEntry_ft (s : State) (c q i : Nat) (e : QEntry) (run : State → State × Outcome)
    (h : ∀ s, (run s).1.ft = s.ft) : (State.runEntry s c q i e run).ft = s.ft := by
  unfold State.runEntry
  simp [h]
@[simp] theorem State.runEntry_cls (s : State) (c q i : Nat) (e : QEntry) (run : State → State × Outcome)
    (h : ∀ s, (run s).1.cls = s.cls) : (State.runEntry s c q i e run).cls = s.cls := by
  unfold State.runEntry
  simp [h]
@[simp] theorem State.runEntry_layout (s : State) (c q i : Nat) (e : QEntry) (run : State → State × Outcome)
    (h : ∀ s, (run s).1.layout = s.layout) : (State.runEntry s c q i e run).layout = s.layout := by
  unfold State.runEntry
  simp [h]
@[simp] theorem State.runEntry_setup (s : State) (c q i : Nat) (e : QEntry) (run : State → State × Outcome)
    (h : ∀ s, (run s).1.setup = s.setup) : (State.runEntry s c q i e run).setup = s.setup := by
  unfold State.runEntry
  simp [h]
@[simp] theorem State.runEntry_serial (s : State) (c q i : Nat) (e : QEntry) (run : State → State × Outcome)
    (h : ∀ s, (run s).1.serial = s.serial) : (State.runEntry s c q i e run).serial = s.serial := by
  unfold State.runEntry
  simp [h]
@[simp] theorem State.runEntry_bringing (s : State) (c q i : Nat) (e : QEntry) (run : State → State × Outcome)
    (h : ∀ s, (run s).1.bringing = s.bringing) : (State.runEntry s c q i e run).bringing = s.bringing := by
  unfold State.runEntry
  simp [h]
@[simp] theorem State.runEntry_lmap (s : State) (c q i : Nat) (e : QEntry) (run : State → State × Outcome)
    (h : ∀ s, (run s).1.lmap = s.lmap) : (State.runEntry s c q i e run).lmap = s.lmap := by
  unfold State.runEntry
  simp [h]
@[simp] theorem State.runEntry_parts (s : State) (c q i : Nat) (e : QEntry) (run : State → State × Outcome)
    (h : ∀ s, (run s).1.parts = s.parts) : (State.runEntry s c q i e run).parts = s.parts := by
  unfold State.runEntry
  simp [h]
@[simp] theorem State.runEntry_slices (s : State) (c q i : Nat) (e : QEntry) (run : State → State × Outcome)
    (h : ∀ s, (run s).1.slices = s.slices) : (State.runEntry s c q i e run).slices = s.slices := by
  unfold State.runEntry
  simp [h]
@[simp] theorem State.runEntry_hbmcs (s : State) (c q i : Nat) (e : QEntry) (run : State → State × Outcome)
    (h : ∀ s, (run s).1.hbmcs = s.hbmcs) : (State.runEntry s c q i e run).hbmcs = s.hbmcs := by
  unfold State.runEntry
  simp [h]
@[simp] theorem State.runEntry_bdies (s : State) (c q i : Nat) (e : QEntry) (run : State → State × Outcome)
    (h : ∀ s, (run s).1.bdies = s.bdies) : (State.runEntry s c q i e run).bdies = s.bdies := by
  unfold State.runEntry
  simp [h]
@[simp] theorem State.runEntry_ports (s : State) (c q i : Nat) (e : QEntry) (run : State → State × Outcome)
    (h : ∀ s, (run s).1.ports = s.ports) : (State.runEntry s c q i e run).ports = s.ports := by
  unfold State.runEntry
  simp [h]
@[simp] theorem State.runEntry_nodes (s : State) (c q i : Nat) (e : QEntry) (run : State → State × Outcome)
    (h : ∀ s, (run s).1.nodes = s.nodes) : (State.runEntry s c q i e run).nodes = s.nodes := by
  unfold State.runEntry
  simp [h]
@[simp] theorem State.runEntry_time (s : State) (c q i : Nat) (e : QEntry) (run : State → State × Outcome)
    (h : ∀ s, (run s).1.time = s.time) : (State.runEntry s c q i e run).time = s.time := by
  unfold State.runEntry
  simp [h]
@[simp] theorem State.runEntry_out (s : State) (c q i : Nat) (e : QEntry) (run : State → State × Outcome)
    (h : ∀ s, (run s).1.out = s.out) : (State.runEntry s c q i e run).out = s.out := by
  unfold State.runEntry
  simp [h]
@[simp] theorem State.runEntry_hif (s : State) (c q i : Nat) (e : QEntry) (run : State → State × Outcome)
    (h : ∀ s, (run s).1.hif = s.hif) : (State.runEntry s c q i e run).hif = s.hif := by
  unfold State.runEntry
  simp [h]
@[simp] theorem State.runEntry_chip (s : State) (c q i : Nat) (e : QEntry) (run : State → State × Outcome)
    (h : ∀ s, (run s).1.chip = s.chip) : (State.runEntry s c q i e run).chip = s.chip := by
  unfold State.runEntry
  simp [h]
@[simp] theorem State.runEntry_gov (s : State) (c q i : Nat) (e : QEntry) (run : State → State × Outcome)
    (h : ∀ s, (run s).1.gov = s.gov) : (State.runEntry s c q i e run).gov = s.gov := by
  unfold State.runEntry
  simp [h]
@[simp] theorem State.runEntry_mmc (s : State) (c q i : Nat) (e : QEntry) (run : State → State × Outcome)
    (h : ∀ s, (run s).1.mmc = s.mmc) : (State.runEntry s c q i e run).mmc = s.mmc := by
  unfold State.runEntry
  simp [h]
@[simp] theorem State.runEntry_gdbg (s : State) (c q i : Nat) (e : QEntry) (run : State → State × Outcome)
    (h : ∀ s, (run s).1.gdbg = s.gdbg) : (State.runEntry s c q i e run).gdbg = s.gdbg := by
  unfold State.runEntry
  simp [h]

end Sys2Proof.Machine
end

