-- ==== Sys2Proof/Laws/FrameVector.lean ====
section
/-! SUPPORT. Frames: which fields of the state each operation of Machine/Vector, Arrays, VectorRecords leaves as they are. -/

namespace Sys2Proof.Machine

@[simp] theorem State.icachePut_frame (s : State) (c : Nat) (l : Loc) (bs : Bytes) :
    (State.icachePut s c l bs).pending = s.pending ∧ (State.icachePut s c l bs).gradeS = s.gradeS ∧
    (State.icachePut s c l bs).ft = s.ft ∧ (State.icachePut s c l bs).cls = s.cls ∧
    (State.icachePut s c l bs).layout = s.layout ∧ (State.icachePut s c l bs).setup = s.setup ∧
    (State.icachePut s c l bs).serial = s.serial ∧ (State.icachePut s c l bs).bringing = s.bringing ∧
    (State.icachePut s c l bs).lmap = s.lmap ∧ (State.icachePut s c l bs).parts = s.parts ∧
    (State.icachePut s c l bs).slices = s.slices ∧ (State.icachePut s c l bs).hbmcs = s.hbmcs ∧
    (State.icachePut s c l bs).bdies = s.bdies ∧ (State.icachePut s c l bs).ports = s.ports ∧
    (State.icachePut s c l bs).nodes = s.nodes ∧ (State.icachePut s c l bs).time = s.time ∧
    (State.icachePut s c l bs).out = s.out ∧ (State.icachePut s c l bs).hif = s.hif ∧
    (State.icachePut s c l bs).chip = s.chip ∧ (State.icachePut s c l bs).gov = s.gov ∧
    (State.icachePut s c l bs).mmc = s.mmc ∧ (State.icachePut s c l bs).gdbg = s.gdbg := by
  unfold State.icachePut
  dsimp only
  (repeat' split) <;> simp

@[simp] theorem State.icacheBurst_frame (s : State) (c p : Nat) (l : Loc) :
    (State.icacheBurst s c p l).pending = s.pending ∧ (State.icacheBurst s c p l).gradeS = s.gradeS ∧
    (State.icacheBurst s c p l).ft = s.ft ∧ (State.icacheBurst s c p l).cls = s.cls ∧
    (State.icacheBurst s c p l).layout = s.layout ∧ (State.icacheBurst s c p l).setup = s.setup ∧
    (State.icacheBurst s c p l).serial = s.serial ∧ (State.icacheBurst s c p l).bringing = s.bringing ∧
    (State.icacheBurst s c p l).lmap = s.lmap ∧ (State.icacheBurst s c p l).bdies = s.bdies ∧
    (State.icacheBurst s c p l).ports = s.ports ∧ (State.icacheBurst s c p l).nodes = s.nodes ∧
    (State.icacheBurst s c p l).time = s.time ∧ (State.icacheBurst s c p l).gov = s.gov ∧
    (State.icacheBurst s c p l).mmc = s.mmc := by
  unfold State.icacheBurst
  exact ⟨foldl_keeps (fun x : State => x.pending) _ (fun a i => by (try dsimp only); (repeat' split) <;> simp) _ _,
    foldl_keeps (fun x : State => x.gradeS) _ (fun a i => by (try dsimp only); (repeat' split) <;> simp) _ _,
    foldl_keeps (fun x : State => x.ft) _ (fun a i => by (try dsimp only); (repeat' split) <;> simp) _ _,
    foldl_keeps (fun x : State => x.cls) _ (fun a i => by (try dsimp only); (repeat' split) <;> simp) _ _,
    foldl_keeps (fun x : State => x.layout) _ (fun a i => by (try dsimp only); (repeat' split) <;> simp) _ _,
    foldl_keeps (fun x : State => x.setup) _ (fun a i => by (try dsimp only); (repeat' split) <;> simp) _ _,
    foldl_keeps (fun x : State => x.serial) _ (fun a i => by (try dsimp only); (repeat' split) <;> simp) _ _,
    foldl_keeps (fun x : State => x.bringing) _ (fun a i => by (try dsimp only); (repeat' split) <;> simp) _ _,
    foldl_keeps (fun x : State => x.lmap) _ (fun a i => by (try dsimp only); (repeat' split) <;> simp) _ _,
    foldl_keeps (fun x : State => x.bdies) _ (fun a i => by (try dsimp only); (repeat' split) <;> simp) _ _,
    foldl_keeps (fun x : State => x.ports) _ (fun a i => by (try dsimp only); (repeat' split) <;> simp) _ _,
    foldl_keeps (fun x : State => x.nodes) _ (fun a i => by (try dsimp only); (repeat' split) <;> simp) _ _,
    foldl_keeps (fun x : State => x.time) _ (fun a i => by (try dsimp only); (repeat' split) <;> simp) _ _,
    foldl_keeps (fun x : State => x.gov) _ (fun a i => by (try dsimp only); (repeat' split) <;> simp) _ _,
    foldl_keeps (fun x : State => x.mmc) _ (fun a i => by (try dsimp only); (repeat' split) <;> simp) _ _⟩

@[simp] theorem State.icacheRead_frame (s : State) (c p : Nat) (l : Loc) (n : Nat) :
    (State.icacheRead s c p l n).1.pending = s.pending ∧ (State.icacheRead s c p l n).1.gradeS = s.gradeS ∧
    (State.icacheRead s c p l n).1.ft = s.ft ∧ (State.icacheRead s c p l n).1.cls = s.cls ∧
    (State.icacheRead s c p l n).1.layout = s.layout ∧ (State.icacheRead s c p l n).1.setup = s.setup ∧
    (State.icacheRead s c p l n).1.serial = s.serial ∧ (State.icacheRead s c p l n).1.bringing = s.bringing ∧
    (State.icacheRead s c p l n).1.lmap = s.lmap ∧ (State.icacheRead s c p l n).1.bdies = s.bdies ∧
    (State.icacheRead s c p l n).1.ports = s.ports ∧ (State.icacheRead s c p l n).1.nodes = s.nodes ∧
    (State.icacheRead s c p l n).1.time = s.time ∧ (State.icacheRead s c p l n).1.gov = s.gov ∧
    (State.icacheRead s c p l n).1.mmc = s.mmc := by
  unfold State.icacheRead
  simp
  (repeat' split) <;> simp

@[simp] theorem KOut.undefined_st (s : State) : (KOut.undefined s).st = s := (rfl)


@[simp] theorem KOut.busErr_st (s : State) (a : Nat) : (KOut.busErr s a).st = s := (rfl)


@[simp] theorem KOut.write_st (s : State) (v : Nat) (r : VReg × Ledger) : (KOut.write s v r).st = s := (rfl)


@[simp] theorem KOut.finish_pending (o : KOut) (x : KCtx) : (o.finish x).pending = o.st.pending := by
  unfold KOut.finish
  simp

@[simp] theorem KOut.finish_freeCtr (o : KOut) (x : KCtx) : (o.finish x).freeCtr = o.st.freeCtr := by
  unfold KOut.finish
  simp

@[simp] theorem KOut.finish_gradeS (o : KOut) (x : KCtx) : (o.finish x).gradeS = o.st.gradeS := by
  unfold KOut.finish
  simp

@[simp] theorem KOut.finish_ft (o : KOut) (x : KCtx) : (o.finish x).ft = o.st.ft := by
  unfold KOut.finish
  simp

@[simp] theorem KOut.finish_cls (o : KOut) (x : KCtx) : (o.finish x).cls = o.st.cls := by
  unfold KOut.finish
  simp

@[simp] theorem KOut.finish_layout (o : KOut) (x : KCtx) : (o.finish x).layout = o.st.layout := by
  unfold KOut.finish
  simp

@[simp] theorem KOut.finish_setup (o : KOut) (x : KCtx) : (o.finish x).setup = o.st.setup := by
  unfold KOut.finish
  simp

@[simp] theorem KOut.finish_serial (o : KOut) (x : KCtx) : (o.finish x).serial = o.st.serial := by
  unfold KOut.finish
  simp

@[simp] theorem KOut.finish_bringing (o : KOut) (x : KCtx) : (o.finish x).bringing = o.st.bringing := by
  unfold KOut.finish
  simp

@[simp] theorem KOut.finish_lmap (o : KOut) (x : KCtx) : (o.finish x).lmap = o.st.lmap := by
  unfold KOut.finish
  simp

@[simp] theorem KOut.finish_parts (o : KOut) (x : KCtx) : (o.finish x).parts = o.st.parts := by
  unfold KOut.finish
  simp

@[simp] theorem KOut.finish_slices (o : KOut) (x : KCtx) : (o.finish x).slices = o.st.slices := by
  unfold KOut.finish
  simp

@[simp] theorem KOut.finish_hbmcs (o : KOut) (x : KCtx) : (o.finish x).hbmcs = o.st.hbmcs := by
  unfold KOut.finish
  simp

@[simp] theorem KOut.finish_bdies (o : KOut) (x : KCtx) : (o.finish x).bdies = o.st.bdies := by
  unfold KOut.finish
  simp

@[simp] theorem KOut.finish_ports (o : KOut) (x : KCtx) : (o.finish x).ports = o.st.ports := by
  unfold KOut.finish
  simp

@[simp] theorem KOut.finish_nodes (o : KOut) (x : KCtx) : (o.finish x).nodes = o.st.nodes := by
  unfold KOut.finish
  simp

@[simp] theorem KOut.finish_time (o : KOut) (x : KCtx) : (o.finish x).time = o.st.time := by
  unfold KOut.finish
  simp

@[simp] theorem KOut.finish_out (o : KOut) (x : KCtx) : (o.finish x).out = o.st.out := by
  unfold KOut.finish
  simp

@[simp] theorem KOut.finish_hif (o : KOut) (x : KCtx) : (o.finish x).hif = o.st.hif := by
  unfold KOut.finish
  simp

@[simp] theorem KOut.finish_chip (o : KOut) (x : KCtx) : (o.finish x).chip = o.st.chip := by
  unfold KOut.finish
  simp

@[simp] theorem KOut.finish_gov (o : KOut) (x : KCtx) : (o.finish x).gov = o.st.gov := by
  unfold KOut.finish
  simp

@[simp] theorem KOut.finish_mmc (o : KOut) (x : KCtx) : (o.finish x).mmc = o.st.mmc := by
  unfold KOut.finish
  simp

@[simp] theorem KOut.finish_gdbg (o : KOut) (x : KCtx) : (o.finish x).gdbg = o.st.gdbg := by
  unfold KOut.finish
  simp


@[simp] theorem State.instrEvents_frame (s : State) (c op : Nat) :
    (State.instrEvents s c op).pending = s.pending ∧ (State.instrEvents s c op).freeCtr = s.freeCtr ∧
    (State.instrEvents s c op).gradeS = s.gradeS ∧ (State.instrEvents s c op).ft = s.ft ∧
    (State.instrEvents s c op).cls = s.cls ∧ (State.instrEvents s c op).layout = s.layout ∧
    (State.instrEvents s c op).setup = s.setup ∧ (State.instrEvents s c op).serial = s.serial ∧
    (State.instrEvents s c op).bringing = s.bringing ∧ (State.instrEvents s c op).lmap = s.lmap ∧
    (State.instrEvents s c op).parts = s.parts ∧ (State.instrEvents s c op).slices = s.slices ∧
    (State.instrEvents s c op).hbmcs = s.hbmcs ∧ (State.instrEvents s c op).bdies = s.bdies ∧
    (State.instrEvents s c op).ports = s.ports ∧ (State.instrEvents s c op).nodes = s.nodes ∧
    (State.instrEvents s c op).time = s.time ∧ (State.instrEvents s c op).out = s.out ∧
    (State.instrEvents s c op).hif = s.hif ∧ (State.instrEvents s c op).chip = s.chip ∧
    (State.instrEvents s c op).gov = s.gov ∧ (State.instrEvents s c op).mmc = s.mmc ∧
    (State.instrEvents s c op).gdbg = s.gdbg := by
  unfold State.instrEvents
  (repeat' split) <;> simp

@[simp] theorem State.kernel_pending (s : State) (l t op : Nat) (run : State → KCtx → KOut)
    (h : ∀ s x, (run s x).st.pending = s.pending) : (State.kernel s l t op run).pending = s.pending := by
  unfold State.kernel
  simp
  (repeat' split) <;> simp [h]
@[simp] theorem State.kernel_gradeS (s : State) (l t op : Nat) (run : State → KCtx → KOut)
    (h : ∀ s x, (run s x).st.gradeS = s.gradeS) : (State.kernel s l t op run).gradeS = s.gradeS := by
  unfold State.kernel
  simp
  (repeat' split) <;> simp [h]
@[simp] theorem State.kernel_ft (s : State) (l t op : Nat) (run : State → KCtx → KOut)
    (h : ∀ s x, (run s x).st.ft = s.ft) : (State.kernel s l t op run).ft = s.ft := by
  unfold State.kernel
  simp
  (repeat' split) <;> simp [h]
@[simp] theorem State.kernel_cls (s : State) (l t op : Nat) (run : State → KCtx → KOut)
    (h : ∀ s x, (run s x).st.cls = s.cls) : (State.kernel s l t op run).cls = s.cls := by
  unfold State.kernel
  simp
  (repeat' split) <;> simp [h]
@[simp] theorem State.kernel_layout (s : State) (l t op : Nat) (run : State → KCtx → KOut)
    (h : ∀ s x, (run s x).st.layout = s.layout) : (State.kernel s l t op run).layout = s.layout := by
  unfold State.kernel
  simp
  (repeat' split) <;> simp [h]
@[simp] theorem State.kernel_setup (s : State) (l t op : Nat) (run : State → KCtx → KOut)
    (h : ∀ s x, (run s x).st.setup = s.setup) : (State.kernel s l t op run).setup = s.setup := by
  unfold State.kernel
  simp
  (repeat' split) <;> simp [h]
@[simp] theorem State.kernel_serial (s : State) (l t op : Nat) (run : State → KCtx → KOut)
    (h : ∀ s x, (run s x).st.serial = s.serial) : (State.kernel s l t op run).serial = s.serial := by
  unfold State.kernel
  simp
  (repeat' split) <;> simp [h]
@[simp] theorem State.kernel_bringing (s : State) (l t op : Nat) (run : State → KCtx → KOut)
    (h : ∀ s x, (run s x).st.bringing = s.bringing) : (State.kernel s l t op run).bringing = s.bringing := by
  unfold State.kernel
  simp
  (repeat' split) <;> simp [h]
@[simp] theorem State.kernel_lmap (s : State) (l t op : Nat) (run : State → KCtx → KOut)
    (h : ∀ s x, (run s x).st.lmap = s.lmap) : (State.kernel s l t op run).lmap = s.lmap := by
  unfold State.kernel
  simp
  (repeat' split) <;> simp [h]
@[simp] theorem State.kernel_bdies (s : State) (l t op : Nat) (run : State → KCtx → KOut)
    (h : ∀ s x, (run s x).st.bdies = s.bdies) : (State.kernel s l t op run).bdies = s.bdies := by
  unfold State.kernel
  simp
  (repeat' split) <;> simp [h]
@[simp] theorem State.kernel_ports (s : State) (l t op : Nat) (run : State → KCtx → KOut)
    (h : ∀ s x, (run s x).st.ports = s.ports) : (State.kernel s l t op run).ports = s.ports := by
  unfold State.kernel
  simp
  (repeat' split) <;> simp [h]
@[simp] theorem State.kernel_nodes (s : State) (l t op : Nat) (run : State → KCtx → KOut)
    (h : ∀ s x, (run s x).st.nodes = s.nodes) : (State.kernel s l t op run).nodes = s.nodes := by
  unfold State.kernel
  simp
  (repeat' split) <;> simp [h]
@[simp] theorem State.kernel_time (s : State) (l t op : Nat) (run : State → KCtx → KOut)
    (h : ∀ s x, (run s x).st.time = s.time) : (State.kernel s l t op run).time = s.time := by
  unfold State.kernel
  simp
  (repeat' split) <;> simp [h]
@[simp] theorem State.kernel_gov (s : State) (l t op : Nat) (run : State → KCtx → KOut)
    (h : ∀ s x, (run s x).st.gov = s.gov) : (State.kernel s l t op run).gov = s.gov := by
  unfold State.kernel
  simp
  (repeat' split) <;> simp [h]
@[simp] theorem State.kernel_mmc (s : State) (l t op : Nat) (run : State → KCtx → KOut)
    (h : ∀ s x, (run s x).st.mmc = s.mmc) : (State.kernel s l t op run).mmc = s.mmc := by
  unfold State.kernel
  simp
  (repeat' split) <;> simp [h]

@[simp] theorem kLane_frame (g : List FVal → FVal) (three : Bool) (s : State) (x : KCtx) :
    (kLane g three s x).st.pending = s.pending ∧ (kLane g three s x).st.freeCtr = s.freeCtr ∧
    (kLane g three s x).st.gradeS = s.gradeS ∧ (kLane g three s x).st.ft = s.ft ∧ (kLane g three s x).st.cls = s.cls ∧
    (kLane g three s x).st.layout = s.layout ∧ (kLane g three s x).st.setup = s.setup ∧
    (kLane g three s x).st.serial = s.serial ∧ (kLane g three s x).st.bringing = s.bringing ∧
    (kLane g three s x).st.lmap = s.lmap ∧ (kLane g three s x).st.parts = s.parts ∧
    (kLane g three s x).st.cores = s.cores ∧ (kLane g three s x).st.slices = s.slices ∧
    (kLane g three s x).st.hbmcs = s.hbmcs ∧ (kLane g three s x).st.bdies = s.bdies ∧
    (kLane g three s x).st.ports = s.ports ∧ (kLane g three s x).st.nodes = s.nodes ∧
    (kLane g three s x).st.time = s.time ∧ (kLane g three s x).st.out = s.out ∧ (kLane g three s x).st.hif = s.hif ∧
    (kLane g three s x).st.chip = s.chip ∧ (kLane g three s x).st.gov = s.gov ∧ (kLane g three s x).st.mmc = s.mmc ∧
    (kLane g three s x).st.gdbg = s.gdbg := by
  unfold kLane
  (repeat' split) <;> simp

@[simp] theorem kCmp_frame (g : FVal → FVal → Bool) (s : State) (x : KCtx) :
    (kCmp g s x).st.pending = s.pending ∧ (kCmp g s x).st.freeCtr = s.freeCtr ∧ (kCmp g s x).st.gradeS = s.gradeS ∧
    (kCmp g s x).st.ft = s.ft ∧ (kCmp g s x).st.cls = s.cls ∧ (kCmp g s x).st.layout = s.layout ∧
    (kCmp g s x).st.setup = s.setup ∧ (kCmp g s x).st.serial = s.serial ∧ (kCmp g s x).st.bringing = s.bringing ∧
    (kCmp g s x).st.lmap = s.lmap ∧ (kCmp g s x).st.parts = s.parts ∧ (kCmp g s x).st.cores = s.cores ∧
    (kCmp g s x).st.slices = s.slices ∧ (kCmp g s x).st.hbmcs = s.hbmcs ∧ (kCmp g s x).st.bdies = s.bdies ∧
    (kCmp g s x).st.ports = s.ports ∧ (kCmp g s x).st.nodes = s.nodes ∧ (kCmp g s x).st.time = s.time ∧
    (kCmp g s x).st.out = s.out ∧ (kCmp g s x).st.hif = s.hif ∧ (kCmp g s x).st.chip = s.chip ∧
    (kCmp g s x).st.gov = s.gov ∧ (kCmp g s x).st.mmc = s.mmc ∧ (kCmp g s x).st.gdbg = s.gdbg := by
  unfold kCmp
  (repeat' split) <;> simp

@[simp] theorem kCvt_frame (s : State) (x : KCtx) :
    (kCvt s x).st.pending = s.pending ∧ (kCvt s x).st.freeCtr = s.freeCtr ∧ (kCvt s x).st.gradeS = s.gradeS ∧
    (kCvt s x).st.ft = s.ft ∧ (kCvt s x).st.cls = s.cls ∧ (kCvt s x).st.layout = s.layout ∧
    (kCvt s x).st.setup = s.setup ∧ (kCvt s x).st.serial = s.serial ∧ (kCvt s x).st.bringing = s.bringing ∧
    (kCvt s x).st.lmap = s.lmap ∧ (kCvt s x).st.parts = s.parts ∧ (kCvt s x).st.cores = s.cores ∧
    (kCvt s x).st.slices = s.slices ∧ (kCvt s x).st.hbmcs = s.hbmcs ∧ (kCvt s x).st.bdies = s.bdies ∧
    (kCvt s x).st.ports = s.ports ∧ (kCvt s x).st.nodes = s.nodes ∧ (kCvt s x).st.time = s.time ∧
    (kCvt s x).st.out = s.out ∧ (kCvt s x).st.hif = s.hif ∧ (kCvt s x).st.chip = s.chip ∧ (kCvt s x).st.gov = s.gov ∧
    (kCvt s x).st.mmc = s.mmc ∧ (kCvt s x).st.gdbg = s.gdbg := by
  unfold kCvt
  (repeat' split) <;> simp

@[simp] theorem kSel_frame (s : State) (x : KCtx) :
    (kSel s x).st.pending = s.pending ∧ (kSel s x).st.freeCtr = s.freeCtr ∧ (kSel s x).st.gradeS = s.gradeS ∧
    (kSel s x).st.ft = s.ft ∧ (kSel s x).st.cls = s.cls ∧ (kSel s x).st.layout = s.layout ∧
    (kSel s x).st.setup = s.setup ∧ (kSel s x).st.serial = s.serial ∧ (kSel s x).st.bringing = s.bringing ∧
    (kSel s x).st.lmap = s.lmap ∧ (kSel s x).st.parts = s.parts ∧ (kSel s x).st.cores = s.cores ∧
    (kSel s x).st.slices = s.slices ∧ (kSel s x).st.hbmcs = s.hbmcs ∧ (kSel s x).st.bdies = s.bdies ∧
    (kSel s x).st.ports = s.ports ∧ (kSel s x).st.nodes = s.nodes ∧ (kSel s x).st.time = s.time ∧
    (kSel s x).st.out = s.out ∧ (kSel s x).st.hif = s.hif ∧ (kSel s x).st.chip = s.chip ∧ (kSel s x).st.gov = s.gov ∧
    (kSel s x).st.mmc = s.mmc ∧ (kSel s x).st.gdbg = s.gdbg := by
  unfold kSel
  (repeat' split) <;> simp

@[simp] theorem kMov_frame (s : State) (x : KCtx) :
    (kMov s x).st.pending = s.pending ∧ (kMov s x).st.freeCtr = s.freeCtr ∧ (kMov s x).st.gradeS = s.gradeS ∧
    (kMov s x).st.ft = s.ft ∧ (kMov s x).st.cls = s.cls ∧ (kMov s x).st.layout = s.layout ∧
    (kMov s x).st.setup = s.setup ∧ (kMov s x).st.serial = s.serial ∧ (kMov s x).st.bringing = s.bringing ∧
    (kMov s x).st.lmap = s.lmap ∧ (kMov s x).st.parts = s.parts ∧ (kMov s x).st.cores = s.cores ∧
    (kMov s x).st.slices = s.slices ∧ (kMov s x).st.hbmcs = s.hbmcs ∧ (kMov s x).st.bdies = s.bdies ∧
    (kMov s x).st.ports = s.ports ∧ (kMov s x).st.nodes = s.nodes ∧ (kMov s x).st.time = s.time ∧
    (kMov s x).st.out = s.out ∧ (kMov s x).st.hif = s.hif ∧ (kMov s x).st.chip = s.chip ∧ (kMov s x).st.gov = s.gov ∧
    (kMov s x).st.mmc = s.mmc ∧ (kMov s x).st.gdbg = s.gdbg := by
  unfold kMov
  (repeat' split) <;> simp

@[simp] theorem kMovi_frame (s : State) (x : KCtx) :
    (kMovi s x).st.pending = s.pending ∧ (kMovi s x).st.freeCtr = s.freeCtr ∧ (kMovi s x).st.gradeS = s.gradeS ∧
    (kMovi s x).st.ft = s.ft ∧ (kMovi s x).st.cls = s.cls ∧ (kMovi s x).st.layout = s.layout ∧
    (kMovi s x).st.setup = s.setup ∧ (kMovi s x).st.serial = s.serial ∧ (kMovi s x).st.bringing = s.bringing ∧
    (kMovi s x).st.lmap = s.lmap ∧ (kMovi s x).st.parts = s.parts ∧ (kMovi s x).st.cores = s.cores ∧
    (kMovi s x).st.slices = s.slices ∧ (kMovi s x).st.hbmcs = s.hbmcs ∧ (kMovi s x).st.bdies = s.bdies ∧
    (kMovi s x).st.ports = s.ports ∧ (kMovi s x).st.nodes = s.nodes ∧ (kMovi s x).st.time = s.time ∧
    (kMovi s x).st.out = s.out ∧ (kMovi s x).st.hif = s.hif ∧ (kMovi s x).st.chip = s.chip ∧
    (kMovi s x).st.gov = s.gov ∧ (kMovi s x).st.mmc = s.mmc ∧ (kMovi s x).st.gdbg = s.gdbg := by
  unfold kMovi
  (repeat' split) <;> simp

@[simp] theorem kTrans_frame (t : TFun) (s : State) (x : KCtx) :
    (kTrans t s x).st.pending = s.pending ∧ (kTrans t s x).st.freeCtr = s.freeCtr ∧
    (kTrans t s x).st.gradeS = s.gradeS ∧ (kTrans t s x).st.ft = s.ft ∧ (kTrans t s x).st.cls = s.cls ∧
    (kTrans t s x).st.layout = s.layout ∧ (kTrans t s x).st.setup = s.setup ∧ (kTrans t s x).st.serial = s.serial ∧
    (kTrans t s x).st.bringing = s.bringing ∧ (kTrans t s x).st.lmap = s.lmap ∧ (kTrans t s x).st.parts = s.parts ∧
    (kTrans t s x).st.cores = s.cores ∧ (kTrans t s x).st.slices = s.slices ∧ (kTrans t s x).st.hbmcs = s.hbmcs ∧
    (kTrans t s x).st.bdies = s.bdies ∧ (kTrans t s x).st.ports = s.ports ∧ (kTrans t s x).st.nodes = s.nodes ∧
    (kTrans t s x).st.time = s.time ∧ (kTrans t s x).st.out = s.out ∧ (kTrans t s x).st.hif = s.hif ∧
    (kTrans t s x).st.chip = s.chip ∧ (kTrans t s x).st.gov = s.gov ∧ (kTrans t s x).st.mmc = s.mmc ∧
    (kTrans t s x).st.gdbg = s.gdbg := by
  unfold kTrans
  (repeat' split) <;> simp

@[simp] theorem kWide_frame (g : List Cum → Cum × Ledger) (two : Bool) (s : State) (x : KCtx) :
    (kWide g two s x).st.pending = s.pending ∧ (kWide g two s x).st.freeCtr = s.freeCtr ∧
    (kWide g two s x).st.gradeS = s.gradeS ∧ (kWide g two s x).st.ft = s.ft ∧ (kWide g two s x).st.cls = s.cls ∧
    (kWide g two s x).st.layout = s.layout ∧ (kWide g two s x).st.setup = s.setup ∧
    (kWide g two s x).st.serial = s.serial ∧ (kWide g two s x).st.bringing = s.bringing ∧
    (kWide g two s x).st.lmap = s.lmap ∧ (kWide g two s x).st.parts = s.parts ∧ (kWide g two s x).st.cores = s.cores ∧
    (kWide g two s x).st.slices = s.slices ∧ (kWide g two s x).st.hbmcs = s.hbmcs ∧
    (kWide g two s x).st.bdies = s.bdies ∧ (kWide g two s x).st.ports = s.ports ∧
    (kWide g two s x).st.nodes = s.nodes ∧ (kWide g two s x).st.time = s.time ∧ (kWide g two s x).st.out = s.out ∧
    (kWide g two s x).st.hif = s.hif ∧ (kWide g two s x).st.chip = s.chip ∧ (kWide g two s x).st.gov = s.gov ∧
    (kWide g two s x).st.mmc = s.mmc ∧ (kWide g two s x).st.gdbg = s.gdbg := by
  unfold kWide
  (repeat' split) <;> simp

@[simp] theorem kWfinish_frame (s : State) (x : KCtx) :
    (kWfinish s x).st.pending = s.pending ∧ (kWfinish s x).st.freeCtr = s.freeCtr ∧
    (kWfinish s x).st.gradeS = s.gradeS ∧ (kWfinish s x).st.ft = s.ft ∧ (kWfinish s x).st.cls = s.cls ∧
    (kWfinish s x).st.layout = s.layout ∧ (kWfinish s x).st.setup = s.setup ∧ (kWfinish s x).st.serial = s.serial ∧
    (kWfinish s x).st.bringing = s.bringing ∧ (kWfinish s x).st.lmap = s.lmap ∧ (kWfinish s x).st.parts = s.parts ∧
    (kWfinish s x).st.cores = s.cores ∧ (kWfinish s x).st.slices = s.slices ∧ (kWfinish s x).st.hbmcs = s.hbmcs ∧
    (kWfinish s x).st.bdies = s.bdies ∧ (kWfinish s x).st.ports = s.ports ∧ (kWfinish s x).st.nodes = s.nodes ∧
    (kWfinish s x).st.time = s.time ∧ (kWfinish s x).st.out = s.out ∧ (kWfinish s x).st.hif = s.hif ∧
    (kWfinish s x).st.chip = s.chip ∧ (kWfinish s x).st.gov = s.gov ∧ (kWfinish s x).st.mmc = s.mmc ∧
    (kWfinish s x).st.gdbg = s.gdbg := by
  unfold kWfinish
  simp
  (repeat' split) <;> simp

@[simp] theorem kWfinishb_frame (s : State) (x : KCtx) :
    (kWfinishb s x).st.pending = s.pending ∧ (kWfinishb s x).st.freeCtr = s.freeCtr ∧
    (kWfinishb s x).st.gradeS = s.gradeS ∧ (kWfinishb s x).st.ft = s.ft ∧ (kWfinishb s x).st.cls = s.cls ∧
    (kWfinishb s x).st.layout = s.layout ∧ (kWfinishb s x).st.setup = s.setup ∧ (kWfinishb s x).st.serial = s.serial ∧
    (kWfinishb s x).st.bringing = s.bringing ∧ (kWfinishb s x).st.lmap = s.lmap ∧ (kWfinishb s x).st.parts = s.parts ∧
    (kWfinishb s x).st.cores = s.cores ∧ (kWfinishb s x).st.slices = s.slices ∧ (kWfinishb s x).st.hbmcs = s.hbmcs ∧
    (kWfinishb s x).st.bdies = s.bdies ∧ (kWfinishb s x).st.ports = s.ports ∧ (kWfinishb s x).st.nodes = s.nodes ∧
    (kWfinishb s x).st.time = s.time ∧ (kWfinishb s x).st.out = s.out ∧ (kWfinishb s x).st.hif = s.hif ∧
    (kWfinishb s x).st.chip = s.chip ∧ (kWfinishb s x).st.gov = s.gov ∧ (kWfinishb s x).st.mmc = s.mmc ∧
    (kWfinishb s x).st.gdbg = s.gdbg := by
  unfold kWfinishb
  (repeat' split) <;> simp

@[simp] theorem kLoadStore_frame (store : Bool) (s : State) (x : KCtx) :
    (kLoadStore store s x).st.pending = s.pending ∧ (kLoadStore store s x).st.gradeS = s.gradeS ∧
    (kLoadStore store s x).st.ft = s.ft ∧ (kLoadStore store s x).st.cls = s.cls ∧
    (kLoadStore store s x).st.layout = s.layout ∧ (kLoadStore store s x).st.setup = s.setup ∧
    (kLoadStore store s x).st.serial = s.serial ∧ (kLoadStore store s x).st.bringing = s.bringing ∧
    (kLoadStore store s x).st.lmap = s.lmap ∧ (kLoadStore store s x).st.bdies = s.bdies ∧
    (kLoadStore store s x).st.ports = s.ports ∧ (kLoadStore store s x).st.nodes = s.nodes ∧
    (kLoadStore store s x).st.time = s.time ∧ (kLoadStore store s x).st.gov = s.gov := by
  unfold kLoadStore
  simp
  (repeat' split) <;> simp

@[simp] theorem State.countLines_frame (s : State) (x : KCtx) (w : Nat) :
    (State.countLines s x w).pending = s.pending ∧ (State.countLines s x w).freeCtr = s.freeCtr ∧
    (State.countLines s x w).gradeS = s.gradeS ∧ (State.countLines s x w).ft = s.ft ∧
    (State.countLines s x w).cls = s.cls ∧ (State.countLines s x w).layout = s.layout ∧
    (State.countLines s x w).setup = s.setup ∧ (State.countLines s x w).serial = s.serial ∧
    (State.countLines s x w).bringing = s.bringing ∧ (State.countLines s x w).lmap = s.lmap ∧
    (State.countLines s x w).parts = s.parts ∧ (State.countLines s x w).slices = s.slices ∧
    (State.countLines s x w).hbmcs = s.hbmcs ∧ (State.countLines s x w).bdies = s.bdies ∧
    (State.countLines s x w).ports = s.ports ∧ (State.countLines s x w).nodes = s.nodes ∧
    (State.countLines s x w).time = s.time ∧ (State.countLines s x w).out = s.out ∧
    (State.countLines s x w).hif = s.hif ∧ (State.countLines s x w).chip = s.chip ∧
    (State.countLines s x w).gov = s.gov ∧ (State.countLines s x w).mmc = s.mmc ∧
    (State.countLines s x w).gdbg = s.gdbg := by
  unfold State.countLines
  (repeat' split) <;> simp

@[simp] theorem kGather_frame (s : State) (x : KCtx) :
    (kGather s x).st.pending = s.pending ∧ (kGather s x).st.gradeS = s.gradeS ∧ (kGather s x).st.ft = s.ft ∧
    (kGather s x).st.cls = s.cls ∧ (kGather s x).st.layout = s.layout ∧ (kGather s x).st.setup = s.setup ∧
    (kGather s x).st.serial = s.serial ∧ (kGather s x).st.bringing = s.bringing ∧ (kGather s x).st.lmap = s.lmap ∧
    (kGather s x).st.bdies = s.bdies ∧ (kGather s x).st.ports = s.ports ∧ (kGather s x).st.nodes = s.nodes ∧
    (kGather s x).st.time = s.time ∧ (kGather s x).st.gov = s.gov ∧ (kGather s x).st.mmc = s.mmc := by
  unfold kGather
  dsimp only
  (repeat' split)
  all_goals first
    | (simp; done)
    | exact ⟨(foldl_keeps (fun x : KOut × Bytes => x.1.st.pending) _ (fun a i => by (try dsimp only); (repeat' split) <;> simp) _ _).trans (by simp),
        (foldl_keeps (fun x : KOut × Bytes => x.1.st.gradeS) _ (fun a i => by (try dsimp only); (repeat' split) <;> simp) _ _).trans (by simp),
        (foldl_keeps (fun x : KOut × Bytes => x.1.st.ft) _ (fun a i => by (try dsimp only); (repeat' split) <;> simp) _ _).trans (by simp),
        (foldl_keeps (fun x : KOut × Bytes => x.1.st.cls) _ (fun a i => by (try dsimp only); (repeat' split) <;> simp) _ _).trans (by simp),
        (foldl_keeps (fun x : KOut × Bytes => x.1.st.layout) _ (fun a i => by (try dsimp only); (repeat' split) <;> simp) _ _).trans (by simp),
        (foldl_keeps (fun x : KOut × Bytes => x.1.st.setup) _ (fun a i => by (try dsimp only); (repeat' split) <;> simp) _ _).trans (by simp),
        (foldl_keeps (fun x : KOut × Bytes => x.1.st.serial) _ (fun a i => by (try dsimp only); (repeat' split) <;> simp) _ _).trans (by simp),
        (foldl_keeps (fun x : KOut × Bytes => x.1.st.bringing) _ (fun a i => by (try dsimp only); (repeat' split) <;> simp) _ _).trans (by simp),
        (foldl_keeps (fun x : KOut × Bytes => x.1.st.lmap) _ (fun a i => by (try dsimp only); (repeat' split) <;> simp) _ _).trans (by simp),
        (foldl_keeps (fun x : KOut × Bytes => x.1.st.bdies) _ (fun a i => by (try dsimp only); (repeat' split) <;> simp) _ _).trans (by simp),
        (foldl_keeps (fun x : KOut × Bytes => x.1.st.ports) _ (fun a i => by (try dsimp only); (repeat' split) <;> simp) _ _).trans (by simp),
        (foldl_keeps (fun x : KOut × Bytes => x.1.st.nodes) _ (fun a i => by (try dsimp only); (repeat' split) <;> simp) _ _).trans (by simp),
        (foldl_keeps (fun x : KOut × Bytes => x.1.st.time) _ (fun a i => by (try dsimp only); (repeat' split) <;> simp) _ _).trans (by simp),
        (foldl_keeps (fun x : KOut × Bytes => x.1.st.gov) _ (fun a i => by (try dsimp only); (repeat' split) <;> simp) _ _).trans (by simp),
        (foldl_keeps (fun x : KOut × Bytes => x.1.st.mmc) _ (fun a i => by (try dsimp only); (repeat' split) <;> simp) _ _).trans (by simp)⟩

@[simp] theorem kScatter_frame (s : State) (x : KCtx) :
    (kScatter s x).st.pending = s.pending ∧ (kScatter s x).st.gradeS = s.gradeS ∧ (kScatter s x).st.ft = s.ft ∧
    (kScatter s x).st.cls = s.cls ∧ (kScatter s x).st.layout = s.layout ∧ (kScatter s x).st.setup = s.setup ∧
    (kScatter s x).st.serial = s.serial ∧ (kScatter s x).st.bringing = s.bringing ∧ (kScatter s x).st.lmap = s.lmap ∧
    (kScatter s x).st.bdies = s.bdies ∧ (kScatter s x).st.ports = s.ports ∧ (kScatter s x).st.nodes = s.nodes ∧
    (kScatter s x).st.time = s.time ∧ (kScatter s x).st.gov = s.gov ∧ (kScatter s x).st.mmc = s.mmc := by
  unfold kScatter
  dsimp only
  (repeat' split)
  all_goals first
    | (simp; done)
    | exact ⟨(foldl_keeps (fun x : KOut => x.st.pending) _ (fun a i => by (try dsimp only); (repeat' split) <;> simp) _ _).trans (by simp),
        (foldl_keeps (fun x : KOut => x.st.gradeS) _ (fun a i => by (try dsimp only); (repeat' split) <;> simp) _ _).trans (by simp),
        (foldl_keeps (fun x : KOut => x.st.ft) _ (fun a i => by (try dsimp only); (repeat' split) <;> simp) _ _).trans (by simp),
        (foldl_keeps (fun x : KOut => x.st.cls) _ (fun a i => by (try dsimp only); (repeat' split) <;> simp) _ _).trans (by simp),
        (foldl_keeps (fun x : KOut => x.st.layout) _ (fun a i => by (try dsimp only); (repeat' split) <;> simp) _ _).trans (by simp),
        (foldl_keeps (fun x : KOut => x.st.setup) _ (fun a i => by (try dsimp only); (repeat' split) <;> simp) _ _).trans (by simp),
        (foldl_keeps (fun x : KOut => x.st.serial) _ (fun a i => by (try dsimp only); (repeat' split) <;> simp) _ _).trans (by simp),
        (foldl_keeps (fun x : KOut => x.st.bringing) _ (fun a i => by (try dsimp only); (repeat' split) <;> simp) _ _).trans (by simp),
        (foldl_keeps (fun x : KOut => x.st.lmap) _ (fun a i => by (try dsimp only); (repeat' split) <;> simp) _ _).trans (by simp),
        (foldl_keeps (fun x : KOut => x.st.bdies) _ (fun a i => by (try dsimp only); (repeat' split) <;> simp) _ _).trans (by simp),
        (foldl_keeps (fun x : KOut => x.st.ports) _ (fun a i => by (try dsimp only); (repeat' split) <;> simp) _ _).trans (by simp),
        (foldl_keeps (fun x : KOut => x.st.nodes) _ (fun a i => by (try dsimp only); (repeat' split) <;> simp) _ _).trans (by simp),
        (foldl_keeps (fun x : KOut => x.st.time) _ (fun a i => by (try dsimp only); (repeat' split) <;> simp) _ _).trans (by simp),
        (foldl_keeps (fun x : KOut => x.st.gov) _ (fun a i => by (try dsimp only); (repeat' split) <;> simp) _ _).trans (by simp),
        (foldl_keeps (fun x : KOut => x.st.mmc) _ (fun a i => by (try dsimp only); (repeat' split) <;> simp) _ _).trans (by simp)⟩

@[simp] theorem State.locAtomic_frame (s : State) (p : Nat) (l : Loc) (op : AtomicOp) :
    (State.locAtomic s p l op).1.pending = s.pending ∧ (State.locAtomic s p l op).1.gradeS = s.gradeS ∧
    (State.locAtomic s p l op).1.ft = s.ft ∧ (State.locAtomic s p l op).1.cls = s.cls ∧
    (State.locAtomic s p l op).1.layout = s.layout ∧ (State.locAtomic s p l op).1.setup = s.setup ∧
    (State.locAtomic s p l op).1.serial = s.serial ∧ (State.locAtomic s p l op).1.bringing = s.bringing ∧
    (State.locAtomic s p l op).1.lmap = s.lmap ∧ (State.locAtomic s p l op).1.bdies = s.bdies ∧
    (State.locAtomic s p l op).1.ports = s.ports ∧ (State.locAtomic s p l op).1.nodes = s.nodes ∧
    (State.locAtomic s p l op).1.time = s.time ∧ (State.locAtomic s p l op).1.gov = s.gov ∧
    (State.locAtomic s p l op).1.mmc = s.mmc := by
  unfold State.locAtomic
  (repeat' split) <;> simp

@[simp] theorem kScatterAdd_frame (s : State) (x : KCtx) :
    (kScatterAdd s x).st.pending = s.pending ∧ (kScatterAdd s x).st.gradeS = s.gradeS ∧
    (kScatterAdd s x).st.ft = s.ft ∧ (kScatterAdd s x).st.cls = s.cls ∧ (kScatterAdd s x).st.layout = s.layout ∧
    (kScatterAdd s x).st.setup = s.setup ∧ (kScatterAdd s x).st.serial = s.serial ∧
    (kScatterAdd s x).st.bringing = s.bringing ∧ (kScatterAdd s x).st.lmap = s.lmap ∧
    (kScatterAdd s x).st.bdies = s.bdies ∧ (kScatterAdd s x).st.ports = s.ports ∧
    (kScatterAdd s x).st.nodes = s.nodes ∧ (kScatterAdd s x).st.time = s.time ∧ (kScatterAdd s x).st.gov = s.gov ∧
    (kScatterAdd s x).st.mmc = s.mmc := by
  unfold kScatterAdd
  dsimp only
  (repeat' split)
  all_goals first
    | (simp; done)
    | exact ⟨(foldl_keeps (fun x : KOut => x.st.pending) _ (fun a i => by (try dsimp only); (repeat' split) <;> simp) _ _).trans (by simp),
        (foldl_keeps (fun x : KOut => x.st.gradeS) _ (fun a i => by (try dsimp only); (repeat' split) <;> simp) _ _).trans (by simp),
        (foldl_keeps (fun x : KOut => x.st.ft) _ (fun a i => by (try dsimp only); (repeat' split) <;> simp) _ _).trans (by simp),
        (foldl_keeps (fun x : KOut => x.st.cls) _ (fun a i => by (try dsimp only); (repeat' split) <;> simp) _ _).trans (by simp),
        (foldl_keeps (fun x : KOut => x.st.layout) _ (fun a i => by (try dsimp only); (repeat' split) <;> simp) _ _).trans (by simp),
        (foldl_keeps (fun x : KOut => x.st.setup) _ (fun a i => by (try dsimp only); (repeat' split) <;> simp) _ _).trans (by simp),
        (foldl_keeps (fun x : KOut => x.st.serial) _ (fun a i => by (try dsimp only); (repeat' split) <;> simp) _ _).trans (by simp),
        (foldl_keeps (fun x : KOut => x.st.bringing) _ (fun a i => by (try dsimp only); (repeat' split) <;> simp) _ _).trans (by simp),
        (foldl_keeps (fun x : KOut => x.st.lmap) _ (fun a i => by (try dsimp only); (repeat' split) <;> simp) _ _).trans (by simp),
        (foldl_keeps (fun x : KOut => x.st.bdies) _ (fun a i => by (try dsimp only); (repeat' split) <;> simp) _ _).trans (by simp),
        (foldl_keeps (fun x : KOut => x.st.ports) _ (fun a i => by (try dsimp only); (repeat' split) <;> simp) _ _).trans (by simp),
        (foldl_keeps (fun x : KOut => x.st.nodes) _ (fun a i => by (try dsimp only); (repeat' split) <;> simp) _ _).trans (by simp),
        (foldl_keeps (fun x : KOut => x.st.time) _ (fun a i => by (try dsimp only); (repeat' split) <;> simp) _ _).trans (by simp),
        (foldl_keeps (fun x : KOut => x.st.gov) _ (fun a i => by (try dsimp only); (repeat' split) <;> simp) _ _).trans (by simp),
        (foldl_keeps (fun x : KOut => x.st.mmc) _ (fun a i => by (try dsimp only); (repeat' split) <;> simp) _ _).trans (by simp)⟩

@[simp] theorem State.kHeader_frame (s : State) (x : KCtx) (w : Nat) :
    (State.kHeader s x w).1.pending = s.pending ∧ (State.kHeader s x w).1.gradeS = s.gradeS ∧
    (State.kHeader s x w).1.ft = s.ft ∧ (State.kHeader s x w).1.cls = s.cls ∧
    (State.kHeader s x w).1.layout = s.layout ∧ (State.kHeader s x w).1.setup = s.setup ∧
    (State.kHeader s x w).1.serial = s.serial ∧ (State.kHeader s x w).1.bringing = s.bringing ∧
    (State.kHeader s x w).1.lmap = s.lmap ∧ (State.kHeader s x w).1.cores = s.cores ∧
    (State.kHeader s x w).1.bdies = s.bdies ∧ (State.kHeader s x w).1.ports = s.ports ∧
    (State.kHeader s x w).1.nodes = s.nodes ∧ (State.kHeader s x w).1.time = s.time ∧
    (State.kHeader s x w).1.gov = s.gov ∧ (State.kHeader s x w).1.mmc = s.mmc := by
  unfold State.kHeader
  simp
  (repeat' split) <;> simp

@[simp] theorem State.writeElems_frame (s : State) (p : Nat) (t : Tensor) (base : Loc) (line first : Nat) (es : List Nat) :
    (State.writeElems s p t base line first es).1.pending = s.pending ∧
    (State.writeElems s p t base line first es).1.gradeS = s.gradeS ∧
    (State.writeElems s p t base line first es).1.ft = s.ft ∧
    (State.writeElems s p t base line first es).1.cls = s.cls ∧
    (State.writeElems s p t base line first es).1.layout = s.layout ∧
    (State.writeElems s p t base line first es).1.setup = s.setup ∧
    (State.writeElems s p t base line first es).1.serial = s.serial ∧
    (State.writeElems s p t base line first es).1.bringing = s.bringing ∧
    (State.writeElems s p t base line first es).1.lmap = s.lmap ∧
    (State.writeElems s p t base line first es).1.bdies = s.bdies ∧
    (State.writeElems s p t base line first es).1.ports = s.ports ∧
    (State.writeElems s p t base line first es).1.nodes = s.nodes ∧
    (State.writeElems s p t base line first es).1.time = s.time ∧
    (State.writeElems s p t base line first es).1.gov = s.gov ∧
    (State.writeElems s p t base line first es).1.mmc = s.mmc := by
  unfold State.writeElems
  exact ⟨foldl_keeps (fun x : State × _ => x.1.pending) _ (fun a i => by (try dsimp only); (repeat' split) <;> simp) _ _,
    foldl_keeps (fun x : State × _ => x.1.gradeS) _ (fun a i => by (try dsimp only); (repeat' split) <;> simp) _ _,
    foldl_keeps (fun x : State × _ => x.1.ft) _ (fun a i => by (try dsimp only); (repeat' split) <;> simp) _ _,
    foldl_keeps (fun x : State × _ => x.1.cls) _ (fun a i => by (try dsimp only); (repeat' split) <;> simp) _ _,
    foldl_keeps (fun x : State × _ => x.1.layout) _ (fun a i => by (try dsimp only); (repeat' split) <;> simp) _ _,
    foldl_keeps (fun x : State × _ => x.1.setup) _ (fun a i => by (try dsimp only); (repeat' split) <;> simp) _ _,
    foldl_keeps (fun x : State × _ => x.1.serial) _ (fun a i => by (try dsimp only); (repeat' split) <;> simp) _ _,
    foldl_keeps (fun x : State × _ => x.1.bringing) _ (fun a i => by (try dsimp only); (repeat' split) <;> simp) _ _,
    foldl_keeps (fun x : State × _ => x.1.lmap) _ (fun a i => by (try dsimp only); (repeat' split) <;> simp) _ _,
    foldl_keeps (fun x : State × _ => x.1.bdies) _ (fun a i => by (try dsimp only); (repeat' split) <;> simp) _ _,
    foldl_keeps (fun x : State × _ => x.1.ports) _ (fun a i => by (try dsimp only); (repeat' split) <;> simp) _ _,
    foldl_keeps (fun x : State × _ => x.1.nodes) _ (fun a i => by (try dsimp only); (repeat' split) <;> simp) _ _,
    foldl_keeps (fun x : State × _ => x.1.time) _ (fun a i => by (try dsimp only); (repeat' split) <;> simp) _ _,
    foldl_keeps (fun x : State × _ => x.1.gov) _ (fun a i => by (try dsimp only); (repeat' split) <;> simp) _ _,
    foldl_keeps (fun x : State × _ => x.1.mmc) _ (fun a i => by (try dsimp only); (repeat' split) <;> simp) _ _⟩

@[simp] theorem State.writeOffs_frame (s : State) (p : Nat) (t : Tensor) (base : Loc) (line first : Nat) (os : List Nat) :
    (State.writeOffs s p t base line first os).1.pending = s.pending ∧
    (State.writeOffs s p t base line first os).1.gradeS = s.gradeS ∧
    (State.writeOffs s p t base line first os).1.ft = s.ft ∧ (State.writeOffs s p t base line first os).1.cls = s.cls ∧
    (State.writeOffs s p t base line first os).1.layout = s.layout ∧
    (State.writeOffs s p t base line first os).1.setup = s.setup ∧
    (State.writeOffs s p t base line first os).1.serial = s.serial ∧
    (State.writeOffs s p t base line first os).1.bringing = s.bringing ∧
    (State.writeOffs s p t base line first os).1.lmap = s.lmap ∧
    (State.writeOffs s p t base line first os).1.bdies = s.bdies ∧
    (State.writeOffs s p t base line first os).1.ports = s.ports ∧
    (State.writeOffs s p t base line first os).1.nodes = s.nodes ∧
    (State.writeOffs s p t base line first os).1.time = s.time ∧
    (State.writeOffs s p t base line first os).1.gov = s.gov ∧
    (State.writeOffs s p t base line first os).1.mmc = s.mmc := by
  unfold State.writeOffs
  exact ⟨foldl_keeps (fun x : State × _ => x.1.pending) _ (fun a i => by (try dsimp only); (repeat' split) <;> simp) _ _,
    foldl_keeps (fun x : State × _ => x.1.gradeS) _ (fun a i => by (try dsimp only); (repeat' split) <;> simp) _ _,
    foldl_keeps (fun x : State × _ => x.1.ft) _ (fun a i => by (try dsimp only); (repeat' split) <;> simp) _ _,
    foldl_keeps (fun x : State × _ => x.1.cls) _ (fun a i => by (try dsimp only); (repeat' split) <;> simp) _ _,
    foldl_keeps (fun x : State × _ => x.1.layout) _ (fun a i => by (try dsimp only); (repeat' split) <;> simp) _ _,
    foldl_keeps (fun x : State × _ => x.1.setup) _ (fun a i => by (try dsimp only); (repeat' split) <;> simp) _ _,
    foldl_keeps (fun x : State × _ => x.1.serial) _ (fun a i => by (try dsimp only); (repeat' split) <;> simp) _ _,
    foldl_keeps (fun x : State × _ => x.1.bringing) _ (fun a i => by (try dsimp only); (repeat' split) <;> simp) _ _,
    foldl_keeps (fun x : State × _ => x.1.lmap) _ (fun a i => by (try dsimp only); (repeat' split) <;> simp) _ _,
    foldl_keeps (fun x : State × _ => x.1.bdies) _ (fun a i => by (try dsimp only); (repeat' split) <;> simp) _ _,
    foldl_keeps (fun x : State × _ => x.1.ports) _ (fun a i => by (try dsimp only); (repeat' split) <;> simp) _ _,
    foldl_keeps (fun x : State × _ => x.1.nodes) _ (fun a i => by (try dsimp only); (repeat' split) <;> simp) _ _,
    foldl_keeps (fun x : State × _ => x.1.time) _ (fun a i => by (try dsimp only); (repeat' split) <;> simp) _ _,
    foldl_keeps (fun x : State × _ => x.1.gov) _ (fun a i => by (try dsimp only); (repeat' split) <;> simp) _ _,
    foldl_keeps (fun x : State × _ => x.1.mmc) _ (fun a i => by (try dsimp only); (repeat' split) <;> simp) _ _⟩

@[simp] theorem State.writePow2_frame (s : State) (p : Nat) (hdr : Loc) (b : Bool) :
    (State.writePow2 s p hdr b).1.pending = s.pending ∧ (State.writePow2 s p hdr b).1.gradeS = s.gradeS ∧
    (State.writePow2 s p hdr b).1.ft = s.ft ∧ (State.writePow2 s p hdr b).1.cls = s.cls ∧
    (State.writePow2 s p hdr b).1.layout = s.layout ∧ (State.writePow2 s p hdr b).1.setup = s.setup ∧
    (State.writePow2 s p hdr b).1.serial = s.serial ∧ (State.writePow2 s p hdr b).1.bringing = s.bringing ∧
    (State.writePow2 s p hdr b).1.lmap = s.lmap ∧ (State.writePow2 s p hdr b).1.bdies = s.bdies ∧
    (State.writePow2 s p hdr b).1.ports = s.ports ∧ (State.writePow2 s p hdr b).1.nodes = s.nodes ∧
    (State.writePow2 s p hdr b).1.time = s.time ∧ (State.writePow2 s p hdr b).1.gov = s.gov ∧
    (State.writePow2 s p hdr b).1.mmc = s.mmc := by
  unfold State.writePow2
  (repeat' split) <;> simp

@[simp] theorem andThen_pending (r : State × Except (Nat × Nat) Unit) (f : State → State × Except (Nat × Nat) Unit)
    (h : ∀ s, (f s).1.pending = s.pending) : (andThen r f).1.pending = r.1.pending := by
  unfold andThen
  split <;> simp [h]

@[simp] theorem andThen_freeCtr (r : State × Except (Nat × Nat) Unit) (f : State → State × Except (Nat × Nat) Unit)
    (h : ∀ s, (f s).1.freeCtr = s.freeCtr) : (andThen r f).1.freeCtr = r.1.freeCtr := by
  unfold andThen
  split <;> simp [h]

@[simp] theorem andThen_gradeS (r : State × Except (Nat × Nat) Unit) (f : State → State × Except (Nat × Nat) Unit)
    (h : ∀ s, (f s).1.gradeS = s.gradeS) : (andThen r f).1.gradeS = r.1.gradeS := by
  unfold andThen
  split <;> simp [h]

@[simp] theorem andThen_ft (r : State × Except (Nat × Nat) Unit) (f : State → State × Except (Nat × Nat) Unit)
    (h : ∀ s, (f s).1.ft = s.ft) : (andThen r f).1.ft = r.1.ft := by
  unfold andThen
  split <;> simp [h]

@[simp] theorem andThen_cls (r : State × Except (Nat × Nat) Unit) (f : State → State × Except (Nat × Nat) Unit)
    (h : ∀ s, (f s).1.cls = s.cls) : (andThen r f).1.cls = r.1.cls := by
  unfold andThen
  split <;> simp [h]

@[simp] theorem andThen_layout (r : State × Except (Nat × Nat) Unit) (f : State → State × Except (Nat × Nat) Unit)
    (h : ∀ s, (f s).1.layout = s.layout) : (andThen r f).1.layout = r.1.layout := by
  unfold andThen
  split <;> simp [h]

@[simp] theorem andThen_setup (r : State × Except (Nat × Nat) Unit) (f : State → State × Except (Nat × Nat) Unit)
    (h : ∀ s, (f s).1.setup = s.setup) : (andThen r f).1.setup = r.1.setup := by
  unfold andThen
  split <;> simp [h]

@[simp] theorem andThen_serial (r : State × Except (Nat × Nat) Unit) (f : State → State × Except (Nat × Nat) Unit)
    (h : ∀ s, (f s).1.serial = s.serial) : (andThen r f).1.serial = r.1.serial := by
  unfold andThen
  split <;> simp [h]

@[simp] theorem andThen_bringing (r : State × Except (Nat × Nat) Unit) (f : State → State × Except (Nat × Nat) Unit)
    (h : ∀ s, (f s).1.bringing = s.bringing) : (andThen r f).1.bringing = r.1.bringing := by
  unfold andThen
  split <;> simp [h]

@[simp] theorem andThen_lmap (r : State × Except (Nat × Nat) Unit) (f : State → State × Except (Nat × Nat) Unit)
    (h : ∀ s, (f s).1.lmap = s.lmap) : (andThen r f).1.lmap = r.1.lmap := by
  unfold andThen
  split <;> simp [h]

@[simp] theorem andThen_parts (r : State × Except (Nat × Nat) Unit) (f : State → State × Except (Nat × Nat) Unit)
    (h : ∀ s, (f s).1.parts = s.parts) : (andThen r f).1.parts = r.1.parts := by
  unfold andThen
  split <;> simp [h]

@[simp] theorem andThen_cores (r : State × Except (Nat × Nat) Unit) (f : State → State × Except (Nat × Nat) Unit)
    (h : ∀ s, (f s).1.cores = s.cores) : (andThen r f).1.cores = r.1.cores := by
  unfold andThen
  split <;> simp [h]

@[simp] theorem andThen_slices (r : State × Except (Nat × Nat) Unit) (f : State → State × Except (Nat × Nat) Unit)
    (h : ∀ s, (f s).1.slices = s.slices) : (andThen r f).1.slices = r.1.slices := by
  unfold andThen
  split <;> simp [h]

@[simp] theorem andThen_hbmcs (r : State × Except (Nat × Nat) Unit) (f : State → State × Except (Nat × Nat) Unit)
    (h : ∀ s, (f s).1.hbmcs = s.hbmcs) : (andThen r f).1.hbmcs = r.1.hbmcs := by
  unfold andThen
  split <;> simp [h]

@[simp] theorem andThen_bdies (r : State × Except (Nat × Nat) Unit) (f : State → State × Except (Nat × Nat) Unit)
    (h : ∀ s, (f s).1.bdies = s.bdies) : (andThen r f).1.bdies = r.1.bdies := by
  unfold andThen
  split <;> simp [h]

@[simp] theorem andThen_ports (r : State × Except (Nat × Nat) Unit) (f : State → State × Except (Nat × Nat) Unit)
    (h : ∀ s, (f s).1.ports = s.ports) : (andThen r f).1.ports = r.1.ports := by
  unfold andThen
  split <;> simp [h]

@[simp] theorem andThen_nodes (r : State × Except (Nat × Nat) Unit) (f : State → State × Except (Nat × Nat) Unit)
    (h : ∀ s, (f s).1.nodes = s.nodes) : (andThen r f).1.nodes = r.1.nodes := by
  unfold andThen
  split <;> simp [h]

@[simp] theorem andThen_time (r : State × Except (Nat × Nat) Unit) (f : State → State × Except (Nat × Nat) Unit)
    (h : ∀ s, (f s).1.time = s.time) : (andThen r f).1.time = r.1.time := by
  unfold andThen
  split <;> simp [h]

@[simp] theorem andThen_out (r : State × Except (Nat × Nat) Unit) (f : State → State × Except (Nat × Nat) Unit)
    (h : ∀ s, (f s).1.out = s.out) : (andThen r f).1.out = r.1.out := by
  unfold andThen
  split <;> simp [h]

@[simp] theorem andThen_hif (r : State × Except (Nat × Nat) Unit) (f : State → State × Except (Nat × Nat) Unit)
    (h : ∀ s, (f s).1.hif = s.hif) : (andThen r f).1.hif = r.1.hif := by
  unfold andThen
  split <;> simp [h]

@[simp] theorem andThen_chip (r : State × Except (Nat × Nat) Unit) (f : State → State × Except (Nat × Nat) Unit)
    (h : ∀ s, (f s).1.chip = s.chip) : (andThen r f).1.chip = r.1.chip := by
  unfold andThen
  split <;> simp [h]

@[simp] theorem andThen_gov (r : State × Except (Nat × Nat) Unit) (f : State → State × Except (Nat × Nat) Unit)
    (h : ∀ s, (f s).1.gov = s.gov) : (andThen r f).1.gov = r.1.gov := by
  unfold andThen
  split <;> simp [h]

@[simp] theorem andThen_mmc (r : State × Except (Nat × Nat) Unit) (f : State → State × Except (Nat × Nat) Unit)
    (h : ∀ s, (f s).1.mmc = s.mmc) : (andThen r f).1.mmc = r.1.mmc := by
  unfold andThen
  split <;> simp [h]

@[simp] theorem andThen_gdbg (r : State × Except (Nat × Nat) Unit) (f : State → State × Except (Nat × Nat) Unit)
    (h : ∀ s, (f s).1.gdbg = s.gdbg) : (andThen r f).1.gdbg = r.1.gdbg := by
  unfold andThen
  split <;> simp [h]

/-- What no memory access of an engine changes. -/
def State.still (s : State) :=
  (s.pending, s.gradeS, s.ft, s.cls, s.layout, s.setup, s.serial, s.bringing, s.lmap, s.bdies, s.ports, s.nodes, s.time, s.gov, s.mmc)

theorem State.still_iff (s t : State) : s.still = t.still ↔ s.pending = t.pending ∧ s.gradeS = t.gradeS ∧ s.ft = t.ft ∧ s.cls = t.cls ∧ s.layout = t.layout ∧ s.setup = t.setup ∧ s.serial = t.serial ∧ s.bringing = t.bringing ∧ s.lmap = t.lmap ∧ s.bdies = t.bdies ∧ s.ports = t.ports ∧ s.nodes = t.nodes ∧ s.time = t.time ∧ s.gov = t.gov ∧ s.mmc = t.mmc := by
  simp [State.still]

theorem andThen_keeps {κ : Type} (part : State → κ) (r : State × Except (Nat × Nat) Unit)
    (f : State → State × Except (Nat × Nat) Unit) (h : ∀ s, part (f s).1 = part s) : part (andThen r f).1 = part r.1 := by
  unfold andThen
  split <;> simp [h]


@[simp] theorem KOut.ofChain_st (r : State × Except (Nat × Nat) Unit) (led : Ledger) :
    (KOut.ofChain r led).st = r.1 := by
  unfold KOut.ofChain
  split <;> rfl


@[simp] theorem kPackTile_frame (s : State) (x : KCtx) (mode : RMode) (vs : List FVal) :
    (kPackTile s x mode vs).st.pending = s.pending ∧ (kPackTile s x mode vs).st.gradeS = s.gradeS ∧
    (kPackTile s x mode vs).st.ft = s.ft ∧ (kPackTile s x mode vs).st.cls = s.cls ∧
    (kPackTile s x mode vs).st.layout = s.layout ∧ (kPackTile s x mode vs).st.setup = s.setup ∧
    (kPackTile s x mode vs).st.serial = s.serial ∧ (kPackTile s x mode vs).st.bringing = s.bringing ∧
    (kPackTile s x mode vs).st.lmap = s.lmap ∧ (kPackTile s x mode vs).st.bdies = s.bdies ∧
    (kPackTile s x mode vs).st.ports = s.ports ∧ (kPackTile s x mode vs).st.nodes = s.nodes ∧
    (kPackTile s x mode vs).st.time = s.time ∧ (kPackTile s x mode vs).st.gov = s.gov ∧
    (kPackTile s x mode vs).st.mmc = s.mmc := by
  unfold kPackTile
  simp
  (repeat' split) <;> simp

theorem kPackSeg.packLine_still (s : State) (x : KCtx) (t : Tensor) (el : Loc) (sg : Seg) (xs : List FVal)
    (q : Nat → Nat) (mode : RMode) (compute : Bool) (hl : Loc) :
    (kPackSeg.packLine s x t el sg xs q mode compute hl).st.still = s.still := by
  unfold kPackSeg.packLine
  try dsimp only
  repeat' first
    | rw [KOut.ofChain_st]
    | refine (andThen_keeps State.still _ _ (fun _ => ?_)).trans ?_
    | split
    | (simp [State.still]; done)

@[simp] theorem kPackSeg.packLine_frame (s : State) (x : KCtx) (t : Tensor) (el : Loc) (sg : Seg) (xs : List FVal)
    (q : Nat → Nat) (mode : RMode) (compute : Bool) (hl : Loc) :
    (kPackSeg.packLine s x t el sg xs q mode compute hl).st.pending = s.pending ∧
    (kPackSeg.packLine s x t el sg xs q mode compute hl).st.gradeS = s.gradeS ∧
    (kPackSeg.packLine s x t el sg xs q mode compute hl).st.ft = s.ft ∧
    (kPackSeg.packLine s x t el sg xs q mode compute hl).st.cls = s.cls ∧
    (kPackSeg.packLine s x t el sg xs q mode compute hl).st.layout = s.layout ∧
    (kPackSeg.packLine s x t el sg xs q mode compute hl).st.setup = s.setup ∧
    (kPackSeg.packLine s x t el sg xs q mode compute hl).st.serial = s.serial ∧
    (kPackSeg.packLine s x t el sg xs q mode compute hl).st.bringing = s.bringing ∧
    (kPackSeg.packLine s x t el sg xs q mode compute hl).st.lmap = s.lmap ∧
    (kPackSeg.packLine s x t el sg xs q mode compute hl).st.bdies = s.bdies ∧
    (kPackSeg.packLine s x t el sg xs q mode compute hl).st.ports = s.ports ∧
    (kPackSeg.packLine s x t el sg xs q mode compute hl).st.nodes = s.nodes ∧
    (kPackSeg.packLine s x t el sg xs q mode compute hl).st.time = s.time ∧
    (kPackSeg.packLine s x t el sg xs q mode compute hl).st.gov = s.gov ∧
    (kPackSeg.packLine s x t el sg xs q mode compute hl).st.mmc = s.mmc :=
  (State.still_iff _ _).1 (kPackSeg.packLine_still _ _ _ _ _ _ _ _ _ _)


@[simp] theorem kPackSeg_frame (s : State) (x : KCtx) (mode : RMode) (vs : List FVal) :
    (kPackSeg s x mode vs).st.pending = s.pending ∧ (kPackSeg s x mode vs).st.gradeS = s.gradeS ∧
    (kPackSeg s x mode vs).st.ft = s.ft ∧ (kPackSeg s x mode vs).st.cls = s.cls ∧
    (kPackSeg s x mode vs).st.layout = s.layout ∧ (kPackSeg s x mode vs).st.setup = s.setup ∧
    (kPackSeg s x mode vs).st.serial = s.serial ∧ (kPackSeg s x mode vs).st.bringing = s.bringing ∧
    (kPackSeg s x mode vs).st.lmap = s.lmap ∧ (kPackSeg s x mode vs).st.bdies = s.bdies ∧
    (kPackSeg s x mode vs).st.ports = s.ports ∧ (kPackSeg s x mode vs).st.nodes = s.nodes ∧
    (kPackSeg s x mode vs).st.time = s.time ∧ (kPackSeg s x mode vs).st.gov = s.gov ∧
    (kPackSeg s x mode vs).st.mmc = s.mmc := by
  unfold kPackSeg
  simp
  (repeat' split) <;> simp

@[simp] theorem kPack_frame (s : State) (x : KCtx) :
    (kPack s x).st.pending = s.pending ∧ (kPack s x).st.gradeS = s.gradeS ∧ (kPack s x).st.ft = s.ft ∧
    (kPack s x).st.cls = s.cls ∧ (kPack s x).st.layout = s.layout ∧ (kPack s x).st.setup = s.setup ∧
    (kPack s x).st.serial = s.serial ∧ (kPack s x).st.bringing = s.bringing ∧ (kPack s x).st.lmap = s.lmap ∧
    (kPack s x).st.bdies = s.bdies ∧ (kPack s x).st.ports = s.ports ∧ (kPack s x).st.nodes = s.nodes ∧
    (kPack s x).st.time = s.time ∧ (kPack s x).st.gov = s.gov ∧ (kPack s x).st.mmc = s.mmc := by
  unfold kPack
  (repeat' split) <;> simp

@[simp] theorem State.readEntry_frame (s : State) (p : Nat) (t : Tensor) (line i : Nat) :
    (State.readEntry s p t line i).1.pending = s.pending ∧ (State.readEntry s p t line i).1.gradeS = s.gradeS ∧
    (State.readEntry s p t line i).1.ft = s.ft ∧ (State.readEntry s p t line i).1.cls = s.cls ∧
    (State.readEntry s p t line i).1.layout = s.layout ∧ (State.readEntry s p t line i).1.setup = s.setup ∧
    (State.readEntry s p t line i).1.serial = s.serial ∧ (State.readEntry s p t line i).1.bringing = s.bringing ∧
    (State.readEntry s p t line i).1.lmap = s.lmap ∧ (State.readEntry s p t line i).1.cores = s.cores ∧
    (State.readEntry s p t line i).1.bdies = s.bdies ∧ (State.readEntry s p t line i).1.ports = s.ports ∧
    (State.readEntry s p t line i).1.nodes = s.nodes ∧ (State.readEntry s p t line i).1.time = s.time ∧
    (State.readEntry s p t line i).1.gov = s.gov ∧ (State.readEntry s p t line i).1.mmc = s.mmc := by
  unfold State.readEntry
  (repeat' split) <;> simp

@[simp] theorem kUnpack_frame (s : State) (x : KCtx) :
    (kUnpack s x).st.pending = s.pending ∧ (kUnpack s x).st.gradeS = s.gradeS ∧ (kUnpack s x).st.ft = s.ft ∧
    (kUnpack s x).st.cls = s.cls ∧ (kUnpack s x).st.layout = s.layout ∧ (kUnpack s x).st.setup = s.setup ∧
    (kUnpack s x).st.serial = s.serial ∧ (kUnpack s x).st.bringing = s.bringing ∧ (kUnpack s x).st.lmap = s.lmap ∧
    (kUnpack s x).st.cores = s.cores ∧ (kUnpack s x).st.bdies = s.bdies ∧ (kUnpack s x).st.ports = s.ports ∧
    (kUnpack s x).st.nodes = s.nodes ∧ (kUnpack s x).st.time = s.time ∧ (kUnpack s x).st.gov = s.gov ∧
    (kUnpack s x).st.mmc = s.mmc := by
  unfold kUnpack
  dsimp only
  (repeat' split)
  all_goals first
    | (simp; done)
    | exact ⟨(foldl_keeps (fun x : State × Except KAct (List Nat × Ledger) => x.1.pending) _ (fun a i => by (try dsimp only); (repeat' split) <;> simp) _ _).trans (by simp),
        (foldl_keeps (fun x : State × Except KAct (List Nat × Ledger) => x.1.gradeS) _ (fun a i => by (try dsimp only); (repeat' split) <;> simp) _ _).trans (by simp),
        (foldl_keeps (fun x : State × Except KAct (List Nat × Ledger) => x.1.ft) _ (fun a i => by (try dsimp only); (repeat' split) <;> simp) _ _).trans (by simp),
        (foldl_keeps (fun x : State × Except KAct (List Nat × Ledger) => x.1.cls) _ (fun a i => by (try dsimp only); (repeat' split) <;> simp) _ _).trans (by simp),
        (foldl_keeps (fun x : State × Except KAct (List Nat × Ledger) => x.1.layout) _ (fun a i => by (try dsimp only); (repeat' split) <;> simp) _ _).trans (by simp),
        (foldl_keeps (fun x : State × Except KAct (List Nat × Ledger) => x.1.setup) _ (fun a i => by (try dsimp only); (repeat' split) <;> simp) _ _).trans (by simp),
        (foldl_keeps (fun x : State × Except KAct (List Nat × Ledger) => x.1.serial) _ (fun a i => by (try dsimp only); (repeat' split) <;> simp) _ _).trans (by simp),
        (foldl_keeps (fun x : State × Except KAct (List Nat × Ledger) => x.1.bringing) _ (fun a i => by (try dsimp only); (repeat' split) <;> simp) _ _).trans (by simp),
        (foldl_keeps (fun x : State × Except KAct (List Nat × Ledger) => x.1.lmap) _ (fun a i => by (try dsimp only); (repeat' split) <;> simp) _ _).trans (by simp),
        (foldl_keeps (fun x : State × Except KAct (List Nat × Ledger) => x.1.cores) _ (fun a i => by (try dsimp only); (repeat' split) <;> simp) _ _).trans (by simp),
        (foldl_keeps (fun x : State × Except KAct (List Nat × Ledger) => x.1.bdies) _ (fun a i => by (try dsimp only); (repeat' split) <;> simp) _ _).trans (by simp),
        (foldl_keeps (fun x : State × Except KAct (List Nat × Ledger) => x.1.ports) _ (fun a i => by (try dsimp only); (repeat' split) <;> simp) _ _).trans (by simp),
        (foldl_keeps (fun x : State × Except KAct (List Nat × Ledger) => x.1.nodes) _ (fun a i => by (try dsimp only); (repeat' split) <;> simp) _ _).trans (by simp),
        (foldl_keeps (fun x : State × Except KAct (List Nat × Ledger) => x.1.time) _ (fun a i => by (try dsimp only); (repeat' split) <;> simp) _ _).trans (by simp),
        (foldl_keeps (fun x : State × Except KAct (List Nat × Ledger) => x.1.gov) _ (fun a i => by (try dsimp only); (repeat' split) <;> simp) _ _).trans (by simp),
        (foldl_keeps (fun x : State × Except KAct (List Nat × Ledger) => x.1.mmc) _ (fun a i => by (try dsimp only); (repeat' split) <;> simp) _ _).trans (by simp)⟩

@[simp] theorem kRange_frame (s : State) (x : KCtx) :
    (kRange s x).st.pending = s.pending ∧ (kRange s x).st.freeCtr = s.freeCtr ∧ (kRange s x).st.gradeS = s.gradeS ∧
    (kRange s x).st.ft = s.ft ∧ (kRange s x).st.cls = s.cls ∧ (kRange s x).st.layout = s.layout ∧
    (kRange s x).st.setup = s.setup ∧ (kRange s x).st.serial = s.serial ∧ (kRange s x).st.bringing = s.bringing ∧
    (kRange s x).st.lmap = s.lmap ∧ (kRange s x).st.parts = s.parts ∧ (kRange s x).st.cores = s.cores ∧
    (kRange s x).st.slices = s.slices ∧ (kRange s x).st.hbmcs = s.hbmcs ∧ (kRange s x).st.bdies = s.bdies ∧
    (kRange s x).st.ports = s.ports ∧ (kRange s x).st.nodes = s.nodes ∧ (kRange s x).st.time = s.time ∧
    (kRange s x).st.out = s.out ∧ (kRange s x).st.hif = s.hif ∧ (kRange s x).st.chip = s.chip ∧
    (kRange s x).st.gov = s.gov ∧ (kRange s x).st.mmc = s.mmc ∧ (kRange s x).st.gdbg = s.gdbg := by
  unfold kRange
  simp
  (repeat' split) <;> simp

@[simp] theorem kMv_frame (s : State) (x : KCtx) :
    (kMv s x).st.pending = s.pending ∧ (kMv s x).st.gradeS = s.gradeS ∧ (kMv s x).st.ft = s.ft ∧
    (kMv s x).st.cls = s.cls ∧ (kMv s x).st.layout = s.layout ∧ (kMv s x).st.setup = s.setup ∧
    (kMv s x).st.serial = s.serial ∧ (kMv s x).st.bringing = s.bringing ∧ (kMv s x).st.lmap = s.lmap ∧
    (kMv s x).st.parts = s.parts ∧ (kMv s x).st.cores = s.cores ∧ (kMv s x).st.slices = s.slices ∧
    (kMv s x).st.hbmcs = s.hbmcs ∧ (kMv s x).st.bdies = s.bdies ∧ (kMv s x).st.ports = s.ports ∧
    (kMv s x).st.nodes = s.nodes ∧ (kMv s x).st.time = s.time ∧ (kMv s x).st.out = s.out ∧ (kMv s x).st.hif = s.hif ∧
    (kMv s x).st.chip = s.chip ∧ (kMv s x).st.gov = s.gov ∧ (kMv s x).st.mmc = s.mmc ∧ (kMv s x).st.gdbg = s.gdbg := by
  unfold kMv
  dsimp only
  (repeat' split) <;> simp

@[simp] theorem kBranch_frame (cond : Bool) (s : State) (x : KCtx) :
    (kBranch cond s x).st.pending = s.pending ∧ (kBranch cond s x).st.freeCtr = s.freeCtr ∧
    (kBranch cond s x).st.gradeS = s.gradeS ∧ (kBranch cond s x).st.ft = s.ft ∧ (kBranch cond s x).st.cls = s.cls ∧
    (kBranch cond s x).st.layout = s.layout ∧ (kBranch cond s x).st.setup = s.setup ∧
    (kBranch cond s x).st.serial = s.serial ∧ (kBranch cond s x).st.bringing = s.bringing ∧
    (kBranch cond s x).st.lmap = s.lmap ∧ (kBranch cond s x).st.parts = s.parts ∧
    (kBranch cond s x).st.cores = s.cores ∧ (kBranch cond s x).st.slices = s.slices ∧
    (kBranch cond s x).st.hbmcs = s.hbmcs ∧ (kBranch cond s x).st.bdies = s.bdies ∧
    (kBranch cond s x).st.ports = s.ports ∧ (kBranch cond s x).st.nodes = s.nodes ∧
    (kBranch cond s x).st.time = s.time ∧ (kBranch cond s x).st.out = s.out ∧ (kBranch cond s x).st.hif = s.hif ∧
    (kBranch cond s x).st.chip = s.chip ∧ (kBranch cond s x).st.gov = s.gov ∧ (kBranch cond s x).st.mmc = s.mmc ∧
    (kBranch cond s x).st.gdbg = s.gdbg := by
  unfold kBranch
  (repeat' split) <;> simp

@[simp] theorem State.passWork_frame (s : State) (c a : Nat) (om on : OpRef) (k rows cols : Nat) (bank fold : Bool) (slot : Nat) :
    (State.passWork s c a om on k rows cols bank fold slot).1.pending = s.pending ∧
    (State.passWork s c a om on k rows cols bank fold slot).1.freeCtr = s.freeCtr ∧
    (State.passWork s c a om on k rows cols bank fold slot).1.gradeS = s.gradeS ∧
    (State.passWork s c a om on k rows cols bank fold slot).1.ft = s.ft ∧
    (State.passWork s c a om on k rows cols bank fold slot).1.cls = s.cls ∧
    (State.passWork s c a om on k rows cols bank fold slot).1.layout = s.layout ∧
    (State.passWork s c a om on k rows cols bank fold slot).1.setup = s.setup ∧
    (State.passWork s c a om on k rows cols bank fold slot).1.serial = s.serial ∧
    (State.passWork s c a om on k rows cols bank fold slot).1.bringing = s.bringing ∧
    (State.passWork s c a om on k rows cols bank fold slot).1.lmap = s.lmap ∧
    (State.passWork s c a om on k rows cols bank fold slot).1.parts = s.parts ∧
    (State.passWork s c a om on k rows cols bank fold slot).1.slices = s.slices ∧
    (State.passWork s c a om on k rows cols bank fold slot).1.hbmcs = s.hbmcs ∧
    (State.passWork s c a om on k rows cols bank fold slot).1.bdies = s.bdies ∧
    (State.passWork s c a om on k rows cols bank fold slot).1.ports = s.ports ∧
    (State.passWork s c a om on k rows cols bank fold slot).1.nodes = s.nodes ∧
    (State.passWork s c a om on k rows cols bank fold slot).1.time = s.time ∧
    (State.passWork s c a om on k rows cols bank fold slot).1.out = s.out ∧
    (State.passWork s c a om on k rows cols bank fold slot).1.hif = s.hif ∧
    (State.passWork s c a om on k rows cols bank fold slot).1.chip = s.chip ∧
    (State.passWork s c a om on k rows cols bank fold slot).1.gov = s.gov ∧
    (State.passWork s c a om on k rows cols bank fold slot).1.mmc = s.mmc ∧
    (State.passWork s c a om on k rows cols bank fold slot).1.gdbg = s.gdbg := by
  unfold State.passWork
  (repeat' split) <;> simp

@[simp] theorem State.passEvents_frame (s : State) (c a : Nat) (om on : OpRef) (k rows cols : Nat) :
    (State.passEvents s c a om on k rows cols).pending = s.pending ∧
    (State.passEvents s c a om on k rows cols).freeCtr = s.freeCtr ∧
    (State.passEvents s c a om on k rows cols).gradeS = s.gradeS ∧
    (State.passEvents s c a om on k rows cols).ft = s.ft ∧ (State.passEvents s c a om on k rows cols).cls = s.cls ∧
    (State.passEvents s c a om on k rows cols).layout = s.layout ∧
    (State.passEvents s c a om on k rows cols).setup = s.setup ∧
    (State.passEvents s c a om on k rows cols).serial = s.serial ∧
    (State.passEvents s c a om on k rows cols).bringing = s.bringing ∧
    (State.passEvents s c a om on k rows cols).lmap = s.lmap ∧
    (State.passEvents s c a om on k rows cols).parts = s.parts ∧
    (State.passEvents s c a om on k rows cols).slices = s.slices ∧
    (State.passEvents s c a om on k rows cols).hbmcs = s.hbmcs ∧
    (State.passEvents s c a om on k rows cols).bdies = s.bdies ∧
    (State.passEvents s c a om on k rows cols).ports = s.ports ∧
    (State.passEvents s c a om on k rows cols).nodes = s.nodes ∧
    (State.passEvents s c a om on k rows cols).time = s.time ∧ (State.passEvents s c a om on k rows cols).out = s.out ∧
    (State.passEvents s c a om on k rows cols).hif = s.hif ∧ (State.passEvents s c a om on k rows cols).chip = s.chip ∧
    (State.passEvents s c a om on k rows cols).gov = s.gov ∧ (State.passEvents s c a om on k rows cols).mmc = s.mmc ∧
    (State.passEvents s c a om on k rows cols).gdbg = s.gdbg := by
  unfold State.passEvents
  (repeat' split) <;> simp

@[simp] theorem State.doPass_frame (s : State) (l a : Nat) :
    (State.doPass s l a).pending = s.pending ∧ (State.doPass s l a).gradeS = s.gradeS ∧
    (State.doPass s l a).ft = s.ft ∧ (State.doPass s l a).cls = s.cls ∧ (State.doPass s l a).layout = s.layout ∧
    (State.doPass s l a).setup = s.setup ∧ (State.doPass s l a).serial = s.serial ∧
    (State.doPass s l a).bringing = s.bringing ∧ (State.doPass s l a).lmap = s.lmap ∧
    (State.doPass s l a).parts = s.parts ∧ (State.doPass s l a).slices = s.slices ∧
    (State.doPass s l a).hbmcs = s.hbmcs ∧ (State.doPass s l a).bdies = s.bdies ∧
    (State.doPass s l a).ports = s.ports ∧ (State.doPass s l a).nodes = s.nodes ∧ (State.doPass s l a).time = s.time ∧
    (State.doPass s l a).out = s.out ∧ (State.doPass s l a).hif = s.hif ∧ (State.doPass s l a).chip = s.chip ∧
    (State.doPass s l a).mmc = s.mmc ∧ (State.doPass s l a).gdbg = s.gdbg := by
  unfold State.doPass
  (repeat' split) <;> simp

@[simp] theorem State.readScales_frame (s : State) (p : Nat) (src : ScaleSrc) (n : Nat) (pairs : Bool) :
    (State.readScales s p src n pairs).1.pending = s.pending ∧ (State.readScales s p src n pairs).1.gradeS = s.gradeS ∧
    (State.readScales s p src n pairs).1.ft = s.ft ∧ (State.readScales s p src n pairs).1.cls = s.cls ∧
    (State.readScales s p src n pairs).1.layout = s.layout ∧ (State.readScales s p src n pairs).1.setup = s.setup ∧
    (State.readScales s p src n pairs).1.serial = s.serial ∧
    (State.readScales s p src n pairs).1.bringing = s.bringing ∧ (State.readScales s p src n pairs).1.lmap = s.lmap ∧
    (State.readScales s p src n pairs).1.cores = s.cores ∧ (State.readScales s p src n pairs).1.bdies = s.bdies ∧
    (State.readScales s p src n pairs).1.ports = s.ports ∧ (State.readScales s p src n pairs).1.nodes = s.nodes ∧
    (State.readScales s p src n pairs).1.time = s.time ∧ (State.readScales s p src n pairs).1.gov = s.gov ∧
    (State.readScales s p src n pairs).1.mmc = s.mmc := by
  unfold State.readScales
  simp
  (repeat' split) <;> simp

@[simp] theorem State.readBias_frame (s : State) (p : Nat) (b : Option Loc) (n : Nat) :
    (State.readBias s p b n).1.pending = s.pending ∧ (State.readBias s p b n).1.gradeS = s.gradeS ∧
    (State.readBias s p b n).1.ft = s.ft ∧ (State.readBias s p b n).1.cls = s.cls ∧
    (State.readBias s p b n).1.layout = s.layout ∧ (State.readBias s p b n).1.setup = s.setup ∧
    (State.readBias s p b n).1.serial = s.serial ∧ (State.readBias s p b n).1.bringing = s.bringing ∧
    (State.readBias s p b n).1.lmap = s.lmap ∧ (State.readBias s p b n).1.cores = s.cores ∧
    (State.readBias s p b n).1.bdies = s.bdies ∧ (State.readBias s p b n).1.ports = s.ports ∧
    (State.readBias s p b n).1.nodes = s.nodes ∧ (State.readBias s p b n).1.time = s.time ∧
    (State.readBias s p b n).1.gov = s.gov ∧ (State.readBias s p b n).1.mmc = s.mmc := by
  unfold State.readBias
  simp
  (repeat' split) <;> simp

@[simp] theorem State.readDrainIn_frame (s : State) (p : Nat) (d : Drain) (bias : Option Loc) (axis : Bool) (rows cols : Nat) :
    (State.readDrainIn s p d bias axis rows cols).1.pending = s.pending ∧
    (State.readDrainIn s p d bias axis rows cols).1.gradeS = s.gradeS ∧
    (State.readDrainIn s p d bias axis rows cols).1.ft = s.ft ∧
    (State.readDrainIn s p d bias axis rows cols).1.cls = s.cls ∧
    (State.readDrainIn s p d bias axis rows cols).1.layout = s.layout ∧
    (State.readDrainIn s p d bias axis rows cols).1.setup = s.setup ∧
    (State.readDrainIn s p d bias axis rows cols).1.serial = s.serial ∧
    (State.readDrainIn s p d bias axis rows cols).1.bringing = s.bringing ∧
    (State.readDrainIn s p d bias axis rows cols).1.lmap = s.lmap ∧
    (State.readDrainIn s p d bias axis rows cols).1.cores = s.cores ∧
    (State.readDrainIn s p d bias axis rows cols).1.bdies = s.bdies ∧
    (State.readDrainIn s p d bias axis rows cols).1.ports = s.ports ∧
    (State.readDrainIn s p d bias axis rows cols).1.nodes = s.nodes ∧
    (State.readDrainIn s p d bias axis rows cols).1.time = s.time ∧
    (State.readDrainIn s p d bias axis rows cols).1.gov = s.gov ∧
    (State.readDrainIn s p d bias axis rows cols).1.mmc = s.mmc := by
  unfold State.readDrainIn
  simp
  (repeat' split) <;> simp

@[simp] theorem State.readOld_frame (s : State) (p : Nat) (d : Drain) (rows cols : Nat) :
    (State.readOld s p d rows cols).1.pending = s.pending ∧ (State.readOld s p d rows cols).1.gradeS = s.gradeS ∧
    (State.readOld s p d rows cols).1.ft = s.ft ∧ (State.readOld s p d rows cols).1.cls = s.cls ∧
    (State.readOld s p d rows cols).1.layout = s.layout ∧ (State.readOld s p d rows cols).1.setup = s.setup ∧
    (State.readOld s p d rows cols).1.serial = s.serial ∧ (State.readOld s p d rows cols).1.bringing = s.bringing ∧
    (State.readOld s p d rows cols).1.lmap = s.lmap ∧ (State.readOld s p d rows cols).1.cores = s.cores ∧
    (State.readOld s p d rows cols).1.bdies = s.bdies ∧ (State.readOld s p d rows cols).1.ports = s.ports ∧
    (State.readOld s p d rows cols).1.nodes = s.nodes ∧ (State.readOld s p d rows cols).1.time = s.time ∧
    (State.readOld s p d rows cols).1.gov = s.gov ∧ (State.readOld s p d rows cols).1.mmc = s.mmc := by
  unfold State.readOld
  exact ⟨foldl_keeps (fun x : State × _ => x.1.pending) _ (fun a i => by (try dsimp only); (repeat' split) <;> simp) _ _,
    foldl_keeps (fun x : State × _ => x.1.gradeS) _ (fun a i => by (try dsimp only); (repeat' split) <;> simp) _ _,
    foldl_keeps (fun x : State × _ => x.1.ft) _ (fun a i => by (try dsimp only); (repeat' split) <;> simp) _ _,
    foldl_keeps (fun x : State × _ => x.1.cls) _ (fun a i => by (try dsimp only); (repeat' split) <;> simp) _ _,
    foldl_keeps (fun x : State × _ => x.1.layout) _ (fun a i => by (try dsimp only); (repeat' split) <;> simp) _ _,
    foldl_keeps (fun x : State × _ => x.1.setup) _ (fun a i => by (try dsimp only); (repeat' split) <;> simp) _ _,
    foldl_keeps (fun x : State × _ => x.1.serial) _ (fun a i => by (try dsimp only); (repeat' split) <;> simp) _ _,
    foldl_keeps (fun x : State × _ => x.1.bringing) _ (fun a i => by (try dsimp only); (repeat' split) <;> simp) _ _,
    foldl_keeps (fun x : State × _ => x.1.lmap) _ (fun a i => by (try dsimp only); (repeat' split) <;> simp) _ _,
    foldl_keeps (fun x : State × _ => x.1.cores) _ (fun a i => by (try dsimp only); (repeat' split) <;> simp) _ _,
    foldl_keeps (fun x : State × _ => x.1.bdies) _ (fun a i => by (try dsimp only); (repeat' split) <;> simp) _ _,
    foldl_keeps (fun x : State × _ => x.1.ports) _ (fun a i => by (try dsimp only); (repeat' split) <;> simp) _ _,
    foldl_keeps (fun x : State × _ => x.1.nodes) _ (fun a i => by (try dsimp only); (repeat' split) <;> simp) _ _,
    foldl_keeps (fun x : State × _ => x.1.time) _ (fun a i => by (try dsimp only); (repeat' split) <;> simp) _ _,
    foldl_keeps (fun x : State × _ => x.1.gov) _ (fun a i => by (try dsimp only); (repeat' split) <;> simp) _ _,
    foldl_keeps (fun x : State × _ => x.1.mmc) _ (fun a i => by (try dsimp only); (repeat' split) <;> simp) _ _⟩

@[simp] theorem State.putDrain_frame (s : State) (p : Nat) (d : Drain) (old : List Bytes) (o : DrainOut) :
    (State.putDrain s p d old o).1.pending = s.pending ∧ (State.putDrain s p d old o).1.gradeS = s.gradeS ∧
    (State.putDrain s p d old o).1.ft = s.ft ∧ (State.putDrain s p d old o).1.cls = s.cls ∧
    (State.putDrain s p d old o).1.layout = s.layout ∧ (State.putDrain s p d old o).1.setup = s.setup ∧
    (State.putDrain s p d old o).1.serial = s.serial ∧ (State.putDrain s p d old o).1.bringing = s.bringing ∧
    (State.putDrain s p d old o).1.lmap = s.lmap ∧ (State.putDrain s p d old o).1.bdies = s.bdies ∧
    (State.putDrain s p d old o).1.ports = s.ports ∧ (State.putDrain s p d old o).1.nodes = s.nodes ∧
    (State.putDrain s p d old o).1.time = s.time ∧ (State.putDrain s p d old o).1.gov = s.gov ∧
    (State.putDrain s p d old o).1.mmc = s.mmc := by
  unfold State.putDrain
  (repeat' split) <;> simp

@[simp] theorem State.drainWork_frame (s : State) (p : Nat) (d : Drain) (bias : Option Loc) (axis : Bool) (rows cols : Nat) (compute : DrainIn → (Nat → Nat → Nat) → DrainOut) :
    (State.drainWork s p d bias axis rows cols compute).1.pending = s.pending ∧
    (State.drainWork s p d bias axis rows cols compute).1.gradeS = s.gradeS ∧
    (State.drainWork s p d bias axis rows cols compute).1.ft = s.ft ∧
    (State.drainWork s p d bias axis rows cols compute).1.cls = s.cls ∧
    (State.drainWork s p d bias axis rows cols compute).1.layout = s.layout ∧
    (State.drainWork s p d bias axis rows cols compute).1.setup = s.setup ∧
    (State.drainWork s p d bias axis rows cols compute).1.serial = s.serial ∧
    (State.drainWork s p d bias axis rows cols compute).1.bringing = s.bringing ∧
    (State.drainWork s p d bias axis rows cols compute).1.lmap = s.lmap ∧
    (State.drainWork s p d bias axis rows cols compute).1.bdies = s.bdies ∧
    (State.drainWork s p d bias axis rows cols compute).1.ports = s.ports ∧
    (State.drainWork s p d bias axis rows cols compute).1.nodes = s.nodes ∧
    (State.drainWork s p d bias axis rows cols compute).1.time = s.time ∧
    (State.drainWork s p d bias axis rows cols compute).1.gov = s.gov ∧
    (State.drainWork s p d bias axis rows cols compute).1.mmc = s.mmc := by
  unfold State.drainWork
  simp
  (repeat' split) <;> simp

@[simp] theorem State.frontWork_frame (s : State) (c a : Nat) (e : QEntry) (d : Option Drain) (bank swap : Bool) (pre rows cols tileNo : Nat) (addr : Option Loc) (axis : Bool) :
    (State.frontWork s c a e d bank swap pre rows cols tileNo addr axis).1.pending = s.pending ∧
    (State.frontWork s c a e d bank swap pre rows cols tileNo addr axis).1.gradeS = s.gradeS ∧
    (State.frontWork s c a e d bank swap pre rows cols tileNo addr axis).1.ft = s.ft ∧
    (State.frontWork s c a e d bank swap pre rows cols tileNo addr axis).1.cls = s.cls ∧
    (State.frontWork s c a e d bank swap pre rows cols tileNo addr axis).1.layout = s.layout ∧
    (State.frontWork s c a e d bank swap pre rows cols tileNo addr axis).1.setup = s.setup ∧
    (State.frontWork s c a e d bank swap pre rows cols tileNo addr axis).1.serial = s.serial ∧
    (State.frontWork s c a e d bank swap pre rows cols tileNo addr axis).1.bringing = s.bringing ∧
    (State.frontWork s c a e d bank swap pre rows cols tileNo addr axis).1.lmap = s.lmap ∧
    (State.frontWork s c a e d bank swap pre rows cols tileNo addr axis).1.bdies = s.bdies ∧
    (State.frontWork s c a e d bank swap pre rows cols tileNo addr axis).1.ports = s.ports ∧
    (State.frontWork s c a e d bank swap pre rows cols tileNo addr axis).1.nodes = s.nodes ∧
    (State.frontWork s c a e d bank swap pre rows cols tileNo addr axis).1.time = s.time ∧
    (State.frontWork s c a e d bank swap pre rows cols tileNo addr axis).1.gov = s.gov ∧
    (State.frontWork s c a e d bank swap pre rows cols tileNo addr axis).1.mmc = s.mmc := by
  unfold State.frontWork
  (repeat' split) <;> simp

@[simp] theorem State.doFront_frame (s : State) (l a : Nat) :
    (State.doFront s l a).pending = s.pending ∧ (State.doFront s l a).gradeS = s.gradeS ∧
    (State.doFront s l a).ft = s.ft ∧ (State.doFront s l a).cls = s.cls ∧ (State.doFront s l a).layout = s.layout ∧
    (State.doFront s l a).setup = s.setup ∧ (State.doFront s l a).serial = s.serial ∧
    (State.doFront s l a).bringing = s.bringing ∧ (State.doFront s l a).lmap = s.lmap ∧
    (State.doFront s l a).bdies = s.bdies ∧ (State.doFront s l a).ports = s.ports ∧
    (State.doFront s l a).nodes = s.nodes ∧ (State.doFront s l a).time = s.time ∧
    (State.doFront s l a).mmc = s.mmc := by
  unfold State.doFront
  (repeat' split) <;> simp

@[simp] theorem State.doStaging_frame (s : State) (l a : Nat) :
    (State.doStaging s l a).pending = s.pending ∧ (State.doStaging s l a).gradeS = s.gradeS ∧
    (State.doStaging s l a).ft = s.ft ∧ (State.doStaging s l a).cls = s.cls ∧
    (State.doStaging s l a).layout = s.layout ∧ (State.doStaging s l a).setup = s.setup ∧
    (State.doStaging s l a).serial = s.serial ∧ (State.doStaging s l a).bringing = s.bringing ∧
    (State.doStaging s l a).lmap = s.lmap ∧ (State.doStaging s l a).bdies = s.bdies ∧
    (State.doStaging s l a).ports = s.ports ∧ (State.doStaging s l a).nodes = s.nodes ∧
    (State.doStaging s l a).time = s.time ∧ (State.doStaging s l a).gov = s.gov ∧
    (State.doStaging s l a).mmc = s.mmc := by
  unfold State.doStaging
  simp
  (repeat' split) <;> simp

@[simp] theorem State.slotWork_frame (s : State) (c a : Nat) (e : QEntry) (d : Drain) (slot rows cols tileNo : Nat) (bias : Option Loc) :
    (State.slotWork s c a e d slot rows cols tileNo bias).1.pending = s.pending ∧
    (State.slotWork s c a e d slot rows cols tileNo bias).1.gradeS = s.gradeS ∧
    (State.slotWork s c a e d slot rows cols tileNo bias).1.ft = s.ft ∧
    (State.slotWork s c a e d slot rows cols tileNo bias).1.cls = s.cls ∧
    (State.slotWork s c a e d slot rows cols tileNo bias).1.layout = s.layout ∧
    (State.slotWork s c a e d slot rows cols tileNo bias).1.setup = s.setup ∧
    (State.slotWork s c a e d slot rows cols tileNo bias).1.serial = s.serial ∧
    (State.slotWork s c a e d slot rows cols tileNo bias).1.bringing = s.bringing ∧
    (State.slotWork s c a e d slot rows cols tileNo bias).1.lmap = s.lmap ∧
    (State.slotWork s c a e d slot rows cols tileNo bias).1.bdies = s.bdies ∧
    (State.slotWork s c a e d slot rows cols tileNo bias).1.ports = s.ports ∧
    (State.slotWork s c a e d slot rows cols tileNo bias).1.nodes = s.nodes ∧
    (State.slotWork s c a e d slot rows cols tileNo bias).1.time = s.time ∧
    (State.slotWork s c a e d slot rows cols tileNo bias).1.gov = s.gov ∧
    (State.slotWork s c a e d slot rows cols tileNo bias).1.mmc = s.mmc := by
  unfold State.slotWork
  (repeat' split) <;> simp

@[simp] theorem State.doSlotDrain_frame (s : State) (l a : Nat) :
    (State.doSlotDrain s l a).pending = s.pending ∧ (State.doSlotDrain s l a).gradeS = s.gradeS ∧
    (State.doSlotDrain s l a).ft = s.ft ∧ (State.doSlotDrain s l a).cls = s.cls ∧
    (State.doSlotDrain s l a).layout = s.layout ∧ (State.doSlotDrain s l a).setup = s.setup ∧
    (State.doSlotDrain s l a).serial = s.serial ∧ (State.doSlotDrain s l a).bringing = s.bringing ∧
    (State.doSlotDrain s l a).lmap = s.lmap ∧ (State.doSlotDrain s l a).bdies = s.bdies ∧
    (State.doSlotDrain s l a).ports = s.ports ∧ (State.doSlotDrain s l a).nodes = s.nodes ∧
    (State.doSlotDrain s l a).time = s.time ∧ (State.doSlotDrain s l a).gov = s.gov ∧
    (State.doSlotDrain s l a).mmc = s.mmc := by
  unfold State.doSlotDrain
  (repeat' split) <;> simp

@[simp] theorem State.outlierWork_frame (s : State) (p c : Nat) (e : QEntry) (om : OpRef) (d : Drain) (rows cols : Nat) (ol : Option Outlier) :
    (State.outlierWork s p c e om d rows cols ol).1.pending = s.pending ∧
    (State.outlierWork s p c e om d rows cols ol).1.gradeS = s.gradeS ∧
    (State.outlierWork s p c e om d rows cols ol).1.ft = s.ft ∧
    (State.outlierWork s p c e om d rows cols ol).1.cls = s.cls ∧
    (State.outlierWork s p c e om d rows cols ol).1.layout = s.layout ∧
    (State.outlierWork s p c e om d rows cols ol).1.setup = s.setup ∧
    (State.outlierWork s p c e om d rows cols ol).1.serial = s.serial ∧
    (State.outlierWork s p c e om d rows cols ol).1.bringing = s.bringing ∧
    (State.outlierWork s p c e om d rows cols ol).1.lmap = s.lmap ∧
    (State.outlierWork s p c e om d rows cols ol).1.cores = s.cores ∧
    (State.outlierWork s p c e om d rows cols ol).1.bdies = s.bdies ∧
    (State.outlierWork s p c e om d rows cols ol).1.ports = s.ports ∧
    (State.outlierWork s p c e om d rows cols ol).1.nodes = s.nodes ∧
    (State.outlierWork s p c e om d rows cols ol).1.time = s.time ∧
    (State.outlierWork s p c e om d rows cols ol).1.gov = s.gov ∧
    (State.outlierWork s p c e om d rows cols ol).1.mmc = s.mmc := by
  unfold State.outlierWork
  simp
  (repeat' split) <;> simp

@[simp] theorem State.setMisfit_frame (s : State) (c flag : Nat) :
    (State.setMisfit s c flag).pending = s.pending ∧ (State.setMisfit s c flag).freeCtr = s.freeCtr ∧
    (State.setMisfit s c flag).gradeS = s.gradeS ∧ (State.setMisfit s c flag).ft = s.ft ∧
    (State.setMisfit s c flag).cls = s.cls ∧ (State.setMisfit s c flag).layout = s.layout ∧
    (State.setMisfit s c flag).setup = s.setup ∧ (State.setMisfit s c flag).serial = s.serial ∧
    (State.setMisfit s c flag).bringing = s.bringing ∧ (State.setMisfit s c flag).lmap = s.lmap ∧
    (State.setMisfit s c flag).parts = s.parts ∧ (State.setMisfit s c flag).slices = s.slices ∧
    (State.setMisfit s c flag).hbmcs = s.hbmcs ∧ (State.setMisfit s c flag).bdies = s.bdies ∧
    (State.setMisfit s c flag).ports = s.ports ∧ (State.setMisfit s c flag).nodes = s.nodes ∧
    (State.setMisfit s c flag).time = s.time ∧ (State.setMisfit s c flag).out = s.out ∧
    (State.setMisfit s c flag).hif = s.hif ∧ (State.setMisfit s c flag).chip = s.chip ∧
    (State.setMisfit s c flag).gov = s.gov ∧ (State.setMisfit s c flag).mmc = s.mmc ∧
    (State.setMisfit s c flag).gdbg = s.gdbg := by
  unfold State.setMisfit
  (repeat' split) <;> simp

@[simp] theorem State.cirrusWork_frame (s : State) (c a sh : Nat) (e : QEntry) (led0 : Ledger) (om on : OpRef) (k rows cols : Nat) (bank : Bool) (d : Drain) (bias : Option Loc) (repeats : Bool) (flag tileNo : Nat) (ol : Option Outlier) :
    (State.cirrusWork s c a sh e led0 om on k rows cols bank d bias repeats flag tileNo ol).1.pending = s.pending ∧
    (State.cirrusWork s c a sh e led0 om on k rows cols bank d bias repeats flag tileNo ol).1.gradeS = s.gradeS ∧
    (State.cirrusWork s c a sh e led0 om on k rows cols bank d bias repeats flag tileNo ol).1.ft = s.ft ∧
    (State.cirrusWork s c a sh e led0 om on k rows cols bank d bias repeats flag tileNo ol).1.cls = s.cls ∧
    (State.cirrusWork s c a sh e led0 om on k rows cols bank d bias repeats flag tileNo ol).1.layout = s.layout ∧
    (State.cirrusWork s c a sh e led0 om on k rows cols bank d bias repeats flag tileNo ol).1.setup = s.setup ∧
    (State.cirrusWork s c a sh e led0 om on k rows cols bank d bias repeats flag tileNo ol).1.serial = s.serial ∧
    (State.cirrusWork s c a sh e led0 om on k rows cols bank d bias repeats flag tileNo ol).1.bringing = s.bringing ∧
    (State.cirrusWork s c a sh e led0 om on k rows cols bank d bias repeats flag tileNo ol).1.lmap = s.lmap ∧
    (State.cirrusWork s c a sh e led0 om on k rows cols bank d bias repeats flag tileNo ol).1.bdies = s.bdies ∧
    (State.cirrusWork s c a sh e led0 om on k rows cols bank d bias repeats flag tileNo ol).1.ports = s.ports ∧
    (State.cirrusWork s c a sh e led0 om on k rows cols bank d bias repeats flag tileNo ol).1.nodes = s.nodes ∧
    (State.cirrusWork s c a sh e led0 om on k rows cols bank d bias repeats flag tileNo ol).1.time = s.time ∧
    (State.cirrusWork s c a sh e led0 om on k rows cols bank d bias repeats flag tileNo ol).1.gov = s.gov ∧
    (State.cirrusWork s c a sh e led0 om on k rows cols bank d bias repeats flag tileNo ol).1.mmc = s.mmc := by
  unfold State.cirrusWork
  simp
  (repeat' split) <;> simp

@[simp] theorem State.doCirrus_frame (s : State) (l a : Nat) :
    (State.doCirrus s l a).pending = s.pending ∧ (State.doCirrus s l a).gradeS = s.gradeS ∧
    (State.doCirrus s l a).ft = s.ft ∧ (State.doCirrus s l a).cls = s.cls ∧ (State.doCirrus s l a).layout = s.layout ∧
    (State.doCirrus s l a).setup = s.setup ∧ (State.doCirrus s l a).serial = s.serial ∧
    (State.doCirrus s l a).bringing = s.bringing ∧ (State.doCirrus s l a).lmap = s.lmap ∧
    (State.doCirrus s l a).bdies = s.bdies ∧ (State.doCirrus s l a).ports = s.ports ∧
    (State.doCirrus s l a).nodes = s.nodes ∧ (State.doCirrus s l a).time = s.time ∧
    (State.doCirrus s l a).mmc = s.mmc := by
  unfold State.doCirrus
  (repeat' split) <;> simp

@[simp] theorem State.doCirrusRepeat_frame (s : State) (l a : Nat) :
    (State.doCirrusRepeat s l a).pending = s.pending ∧ (State.doCirrusRepeat s l a).gradeS = s.gradeS ∧
    (State.doCirrusRepeat s l a).ft = s.ft ∧ (State.doCirrusRepeat s l a).cls = s.cls ∧
    (State.doCirrusRepeat s l a).layout = s.layout ∧ (State.doCirrusRepeat s l a).setup = s.setup ∧
    (State.doCirrusRepeat s l a).serial = s.serial ∧ (State.doCirrusRepeat s l a).bringing = s.bringing ∧
    (State.doCirrusRepeat s l a).lmap = s.lmap ∧ (State.doCirrusRepeat s l a).bdies = s.bdies ∧
    (State.doCirrusRepeat s l a).ports = s.ports ∧ (State.doCirrusRepeat s l a).nodes = s.nodes ∧
    (State.doCirrusRepeat s l a).time = s.time ∧ (State.doCirrusRepeat s l a).mmc = s.mmc := by
  unfold State.doCirrusRepeat
  (repeat' split) <;> simp

@[simp] theorem State.doLaunch_frame (s : State) (l : Nat) :
    (State.doLaunch s l).pending = s.pending ∧ (State.doLaunch s l).gradeS = s.gradeS ∧
    (State.doLaunch s l).ft = s.ft ∧ (State.doLaunch s l).cls = s.cls ∧ (State.doLaunch s l).layout = s.layout ∧
    (State.doLaunch s l).setup = s.setup ∧ (State.doLaunch s l).serial = s.serial ∧
    (State.doLaunch s l).bringing = s.bringing ∧ (State.doLaunch s l).lmap = s.lmap ∧
    (State.doLaunch s l).parts = s.parts ∧ (State.doLaunch s l).slices = s.slices ∧
    (State.doLaunch s l).hbmcs = s.hbmcs ∧ (State.doLaunch s l).bdies = s.bdies ∧
    (State.doLaunch s l).ports = s.ports ∧ (State.doLaunch s l).nodes = s.nodes ∧ (State.doLaunch s l).time = s.time ∧
    (State.doLaunch s l).out = s.out ∧ (State.doLaunch s l).hif = s.hif ∧ (State.doLaunch s l).chip = s.chip ∧
    (State.doLaunch s l).gov = s.gov ∧ (State.doLaunch s l).mmc = s.mmc ∧ (State.doLaunch s l).gdbg = s.gdbg := by
  unfold State.doLaunch
  (repeat' split) <;> simp



@[simp] theorem Work.ofMem_fst {α : Type} (r : State × Except (Nat × Nat) α) : (Work.ofMem r).1 = r.1 := (rfl)


@[simp] theorem Work.guard_fst (s : State) (b : Bool) : (Work.guard s b).1 = s := (rfl)


theorem Work.next_keeps {κ α β : Type} (part : State → κ) (r : Work α) (f : State → α → Work β)
    (h : ∀ s a, part (f s a).1 = part s) : part (r.next f).1 = part r.1 := by
  unfold Work.next
  split <;> simp [h]

theorem Work.each_keeps {κ α β : Type} (part : State → κ) (s : State) (xs : List α) (f : State → α → Work β)
    (h : ∀ s a, part (f s a).1 = part s) : part (Work.each s xs f).1 = part s :=
  foldl_keeps (fun x : Work (List β) => part x.1) _
    (fun _ i => Work.next_keeps part _ _ (fun a _ =>
      (Work.next_keeps part (f a i) _ (fun _ _ => (rfl))).trans (h a i))) _ _


theorem State.recHeader_still (s : State) (p c : Nat) (l : Loc) :
    (State.recHeader s p c l).1.still = s.still := by
  unfold State.recHeader
  try dsimp only
  repeat' first
    | rw [KOut.ofChain_st]
    | refine (andThen_keeps State.still _ _ (fun _ => ?_)).trans ?_
    | refine (Work.next_keeps State.still _ _ (fun _ _ => ?_)).trans ?_
    | refine Work.each_keeps State.still _ _ _ (fun _ _ => ?_)
    | split
    | (simp [State.still]; done)

@[simp] theorem State.recHeader_frame (s : State) (p c : Nat) (l : Loc) :
    (State.recHeader s p c l).1.pending = s.pending ∧
    (State.recHeader s p c l).1.gradeS = s.gradeS ∧
    (State.recHeader s p c l).1.ft = s.ft ∧
    (State.recHeader s p c l).1.cls = s.cls ∧
    (State.recHeader s p c l).1.layout = s.layout ∧
    (State.recHeader s p c l).1.setup = s.setup ∧
    (State.recHeader s p c l).1.serial = s.serial ∧
    (State.recHeader s p c l).1.bringing = s.bringing ∧
    (State.recHeader s p c l).1.lmap = s.lmap ∧
    (State.recHeader s p c l).1.bdies = s.bdies ∧
    (State.recHeader s p c l).1.ports = s.ports ∧
    (State.recHeader s p c l).1.nodes = s.nodes ∧
    (State.recHeader s p c l).1.time = s.time ∧
    (State.recHeader s p c l).1.gov = s.gov ∧
    (State.recHeader s p c l).1.mmc = s.mmc :=
  (State.still_iff _ _).1 (State.recHeader_still _ _ _ _)


theorem State.plainRows_still (s : State) (p : Nat) (t : Tensor) (f : FloatFmt) :
    (State.plainRows s p t f).1.still = s.still := by
  unfold State.plainRows
  try dsimp only
  repeat' first
    | rw [KOut.ofChain_st]
    | refine (andThen_keeps State.still _ _ (fun _ => ?_)).trans ?_
    | refine (Work.next_keeps State.still _ _ (fun _ _ => ?_)).trans ?_
    | refine Work.each_keeps State.still _ _ _ (fun _ _ => ?_)
    | split
    | (simp [State.still]; done)

@[simp] theorem State.plainRows_frame (s : State) (p : Nat) (t : Tensor) (f : FloatFmt) :
    (State.plainRows s p t f).1.pending = s.pending ∧
    (State.plainRows s p t f).1.gradeS = s.gradeS ∧
    (State.plainRows s p t f).1.ft = s.ft ∧
    (State.plainRows s p t f).1.cls = s.cls ∧
    (State.plainRows s p t f).1.layout = s.layout ∧
    (State.plainRows s p t f).1.setup = s.setup ∧
    (State.plainRows s p t f).1.serial = s.serial ∧
    (State.plainRows s p t f).1.bringing = s.bringing ∧
    (State.plainRows s p t f).1.lmap = s.lmap ∧
    (State.plainRows s p t f).1.bdies = s.bdies ∧
    (State.plainRows s p t f).1.ports = s.ports ∧
    (State.plainRows s p t f).1.nodes = s.nodes ∧
    (State.plainRows s p t f).1.time = s.time ∧
    (State.plainRows s p t f).1.gov = s.gov ∧
    (State.plainRows s p t f).1.mmc = s.mmc :=
  (State.still_iff _ _).1 (State.plainRows_still _ _ _ _)


theorem State.quantOutliers_still (s : State) (p : Nat) (q : QuantOp) (rows : List (List FVal)) (channels : Nat) :
    (State.quantOutliers s p q rows channels).1.still = s.still := by
  unfold State.quantOutliers
  try dsimp only
  repeat' first
    | rw [KOut.ofChain_st]
    | refine (andThen_keeps State.still _ _ (fun _ => ?_)).trans ?_
    | refine (Work.next_keeps State.still _ _ (fun _ _ => ?_)).trans ?_
    | refine Work.each_keeps State.still _ _ _ (fun _ _ => ?_)
    | split
    | (simp [State.still]; done)

@[simp] theorem State.quantOutliers_frame (s : State) (p : Nat) (q : QuantOp) (rows : List (List FVal)) (channels : Nat) :
    (State.quantOutliers s p q rows channels).1.pending = s.pending ∧
    (State.quantOutliers s p q rows channels).1.gradeS = s.gradeS ∧
    (State.quantOutliers s p q rows channels).1.ft = s.ft ∧
    (State.quantOutliers s p q rows channels).1.cls = s.cls ∧
    (State.quantOutliers s p q rows channels).1.layout = s.layout ∧
    (State.quantOutliers s p q rows channels).1.setup = s.setup ∧
    (State.quantOutliers s p q rows channels).1.serial = s.serial ∧
    (State.quantOutliers s p q rows channels).1.bringing = s.bringing ∧
    (State.quantOutliers s p q rows channels).1.lmap = s.lmap ∧
    (State.quantOutliers s p q rows channels).1.bdies = s.bdies ∧
    (State.quantOutliers s p q rows channels).1.ports = s.ports ∧
    (State.quantOutliers s p q rows channels).1.nodes = s.nodes ∧
    (State.quantOutliers s p q rows channels).1.time = s.time ∧
    (State.quantOutliers s p q rows channels).1.gov = s.gov ∧
    (State.quantOutliers s p q rows channels).1.mmc = s.mmc :=
  (State.still_iff _ _).1 (State.quantOutliers_still _ _ _ _ _)


theorem State.outlierPlane_still (s : State) (p : Nat) (q : QuantOp) (rows : List (List FVal)) (idx : List Nat) :
    (State.outlierPlane s p q rows idx).1.still = s.still := by
  unfold State.outlierPlane
  try dsimp only
  repeat' first
    | rw [KOut.ofChain_st]
    | refine (andThen_keeps State.still _ _ (fun _ => ?_)).trans ?_
    | refine (Work.next_keeps State.still _ _ (fun _ _ => ?_)).trans ?_
    | refine Work.each_keeps State.still _ _ _ (fun _ _ => ?_)
    | split
    | (simp [State.still]; done)

@[simp] theorem State.outlierPlane_frame (s : State) (p : Nat) (q : QuantOp) (rows : List (List FVal)) (idx : List Nat) :
    (State.outlierPlane s p q rows idx).1.pending = s.pending ∧
    (State.outlierPlane s p q rows idx).1.gradeS = s.gradeS ∧
    (State.outlierPlane s p q rows idx).1.ft = s.ft ∧
    (State.outlierPlane s p q rows idx).1.cls = s.cls ∧
    (State.outlierPlane s p q rows idx).1.layout = s.layout ∧
    (State.outlierPlane s p q rows idx).1.setup = s.setup ∧
    (State.outlierPlane s p q rows idx).1.serial = s.serial ∧
    (State.outlierPlane s p q rows idx).1.bringing = s.bringing ∧
    (State.outlierPlane s p q rows idx).1.lmap = s.lmap ∧
    (State.outlierPlane s p q rows idx).1.bdies = s.bdies ∧
    (State.outlierPlane s p q rows idx).1.ports = s.ports ∧
    (State.outlierPlane s p q rows idx).1.nodes = s.nodes ∧
    (State.outlierPlane s p q rows idx).1.time = s.time ∧
    (State.outlierPlane s p q rows idx).1.gov = s.gov ∧
    (State.outlierPlane s p q rows idx).1.mmc = s.mmc :=
  (State.still_iff _ _).1 (State.outlierPlane_still _ _ _ _ _)


theorem State.quantParams_still (s : State) (p c : Nat) (q : QuantOp) (top : Nat) (carried : Bool) (first : Nat) (lines : List (List FVal)) :
    (State.quantParams s p c q top carried first lines).1.still = s.still := by
  unfold State.quantParams
  try dsimp only
  repeat' first
    | rw [KOut.ofChain_st]
    | refine (andThen_keeps State.still _ _ (fun _ => ?_)).trans ?_
    | refine (Work.next_keeps State.still _ _ (fun _ _ => ?_)).trans ?_
    | refine Work.each_keeps State.still _ _ _ (fun _ _ => ?_)
    | split
    | (simp [State.still]; done)

@[simp] theorem State.quantParams_frame (s : State) (p c : Nat) (q : QuantOp) (top : Nat) (carried : Bool) (first : Nat) (lines : List (List FVal)) :
    (State.quantParams s p c q top carried first lines).1.pending = s.pending ∧
    (State.quantParams s p c q top carried first lines).1.gradeS = s.gradeS ∧
    (State.quantParams s p c q top carried first lines).1.ft = s.ft ∧
    (State.quantParams s p c q top carried first lines).1.cls = s.cls ∧
    (State.quantParams s p c q top carried first lines).1.layout = s.layout ∧
    (State.quantParams s p c q top carried first lines).1.setup = s.setup ∧
    (State.quantParams s p c q top carried first lines).1.serial = s.serial ∧
    (State.quantParams s p c q top carried first lines).1.bringing = s.bringing ∧
    (State.quantParams s p c q top carried first lines).1.lmap = s.lmap ∧
    (State.quantParams s p c q top carried first lines).1.bdies = s.bdies ∧
    (State.quantParams s p c q top carried first lines).1.ports = s.ports ∧
    (State.quantParams s p c q top carried first lines).1.nodes = s.nodes ∧
    (State.quantParams s p c q top carried first lines).1.time = s.time ∧
    (State.quantParams s p c q top carried first lines).1.gov = s.gov ∧
    (State.quantParams s p c q top carried first lines).1.mmc = s.mmc :=
  (State.still_iff _ _).1 (State.quantParams_still _ _ _ _ _ _ _ _)


theorem State.quantWindow_still (s : State) (p c : Nat) (e : QEntry) (q : QuantOp) (w channels : Nat) (idx : List Nat) (carried : Bool) (rows : List (List FVal)) :
    (State.quantWindow s p c e q w channels idx carried rows).1.still = s.still := by
  unfold State.quantWindow
  try dsimp only
  repeat' first
    | rw [KOut.ofChain_st]
    | refine (andThen_keeps State.still _ _ (fun _ => ?_)).trans ?_
    | refine (Work.next_keeps State.still _ _ (fun _ _ => ?_)).trans ?_
    | refine Work.each_keeps State.still _ _ _ (fun _ _ => ?_)
    | split
    | (simp [State.still]; done)

@[simp] theorem State.quantWindow_frame (s : State) (p c : Nat) (e : QEntry) (q : QuantOp) (w channels : Nat) (idx : List Nat) (carried : Bool) (rows : List (List FVal)) :
    (State.quantWindow s p c e q w channels idx carried rows).1.pending = s.pending ∧
    (State.quantWindow s p c e q w channels idx carried rows).1.gradeS = s.gradeS ∧
    (State.quantWindow s p c e q w channels idx carried rows).1.ft = s.ft ∧
    (State.quantWindow s p c e q w channels idx carried rows).1.cls = s.cls ∧
    (State.quantWindow s p c e q w channels idx carried rows).1.layout = s.layout ∧
    (State.quantWindow s p c e q w channels idx carried rows).1.setup = s.setup ∧
    (State.quantWindow s p c e q w channels idx carried rows).1.serial = s.serial ∧
    (State.quantWindow s p c e q w channels idx carried rows).1.bringing = s.bringing ∧
    (State.quantWindow s p c e q w channels idx carried rows).1.lmap = s.lmap ∧
    (State.quantWindow s p c e q w channels idx carried rows).1.bdies = s.bdies ∧
    (State.quantWindow s p c e q w channels idx carried rows).1.ports = s.ports ∧
    (State.quantWindow s p c e q w channels idx carried rows).1.nodes = s.nodes ∧
    (State.quantWindow s p c e q w channels idx carried rows).1.time = s.time ∧
    (State.quantWindow s p c e q w channels idx carried rows).1.gov = s.gov ∧
    (State.quantWindow s p c e q w channels idx carried rows).1.mmc = s.mmc :=
  (State.still_iff _ _).1 (State.quantWindow_still _ _ _ _ _ _ _ _ _ _)


theorem State.quantWork_still (s : State) (c : Nat) (e : QEntry) (q : QuantOp) :
    (State.quantWork s c e q).1.still = s.still := by
  unfold State.quantWork
  try dsimp only
  repeat' first
    | rw [KOut.ofChain_st]
    | refine (andThen_keeps State.still _ _ (fun _ => ?_)).trans ?_
    | refine (Work.next_keeps State.still _ _ (fun _ _ => ?_)).trans ?_
    | refine Work.each_keeps State.still _ _ _ (fun _ _ => ?_)
    | split
    | (simp [State.still]; done)

@[simp] theorem State.quantWork_frame (s : State) (c : Nat) (e : QEntry) (q : QuantOp) :
    (State.quantWork s c e q).1.pending = s.pending ∧
    (State.quantWork s c e q).1.gradeS = s.gradeS ∧
    (State.quantWork s c e q).1.ft = s.ft ∧
    (State.quantWork s c e q).1.cls = s.cls ∧
    (State.quantWork s c e q).1.layout = s.layout ∧
    (State.quantWork s c e q).1.setup = s.setup ∧
    (State.quantWork s c e q).1.serial = s.serial ∧
    (State.quantWork s c e q).1.bringing = s.bringing ∧
    (State.quantWork s c e q).1.lmap = s.lmap ∧
    (State.quantWork s c e q).1.bdies = s.bdies ∧
    (State.quantWork s c e q).1.ports = s.ports ∧
    (State.quantWork s c e q).1.nodes = s.nodes ∧
    (State.quantWork s c e q).1.time = s.time ∧
    (State.quantWork s c e q).1.gov = s.gov ∧
    (State.quantWork s c e q).1.mmc = s.mmc :=
  (State.still_iff _ _).1 (State.quantWork_still _ _ _ _)


@[simp] theorem State.doQuant_frame (s : State) (l : Nat) :
    (State.doQuant s l).pending = s.pending ∧ (State.doQuant s l).gradeS = s.gradeS ∧ (State.doQuant s l).ft = s.ft ∧
    (State.doQuant s l).cls = s.cls ∧ (State.doQuant s l).layout = s.layout ∧ (State.doQuant s l).setup = s.setup ∧
    (State.doQuant s l).serial = s.serial ∧ (State.doQuant s l).bringing = s.bringing ∧
    (State.doQuant s l).lmap = s.lmap ∧ (State.doQuant s l).bdies = s.bdies ∧ (State.doQuant s l).ports = s.ports ∧
    (State.doQuant s l).nodes = s.nodes ∧ (State.doQuant s l).time = s.time ∧ (State.doQuant s l).gov = s.gov ∧
    (State.doQuant s l).mmc = s.mmc := by
  unfold State.doQuant
  (repeat' split) <;> simp

end Sys2Proof.Machine
end

