-- ==== Sys2Proof/Laws/FrameStreams.lean ====
section
/-! SUPPORT. Frames: which fields of the state each operation of Machine/Streams, Barriers leaves as they are. -/

namespace Sys2Proof.Machine

@[simp] theorem State.modJob_frame (s : State) (p : Nat) (f : Job → Job) :
    (State.modJob s p f).pending = s.pending ∧ (State.modJob s p f).freeCtr = s.freeCtr ∧
    (State.modJob s p f).gradeS = s.gradeS ∧ (State.modJob s p f).ft = s.ft ∧ (State.modJob s p f).cls = s.cls ∧
    (State.modJob s p f).layout = s.layout ∧ (State.modJob s p f).setup = s.setup ∧
    (State.modJob s p f).serial = s.serial ∧ (State.modJob s p f).bringing = s.bringing ∧
    (State.modJob s p f).lmap = s.lmap ∧ (State.modJob s p f).cores = s.cores ∧
    (State.modJob s p f).slices = s.slices ∧ (State.modJob s p f).hbmcs = s.hbmcs ∧
    (State.modJob s p f).bdies = s.bdies ∧ (State.modJob s p f).ports = s.ports ∧
    (State.modJob s p f).nodes = s.nodes ∧ (State.modJob s p f).time = s.time ∧ (State.modJob s p f).out = s.out ∧
    (State.modJob s p f).hif = s.hif ∧ (State.modJob s p f).chip = s.chip ∧ (State.modJob s p f).gov = s.gov ∧
    (State.modJob s p f).mmc = s.mmc ∧ (State.modJob s p f).gdbg = s.gdbg := by
  unfold State.modJob
  (repeat' split) <;> simp

@[simp] theorem State.putRecord_frame (s : State) (p addr : Nat) (bs : Bytes) :
    (State.putRecord s p addr bs).pending = s.pending ∧ (State.putRecord s p addr bs).gradeS = s.gradeS ∧
    (State.putRecord s p addr bs).ft = s.ft ∧ (State.putRecord s p addr bs).cls = s.cls ∧
    (State.putRecord s p addr bs).layout = s.layout ∧ (State.putRecord s p addr bs).setup = s.setup ∧
    (State.putRecord s p addr bs).serial = s.serial ∧ (State.putRecord s p addr bs).bringing = s.bringing ∧
    (State.putRecord s p addr bs).lmap = s.lmap ∧ (State.putRecord s p addr bs).bdies = s.bdies ∧
    (State.putRecord s p addr bs).ports = s.ports ∧ (State.putRecord s p addr bs).nodes = s.nodes ∧
    (State.putRecord s p addr bs).time = s.time ∧ (State.putRecord s p addr bs).gov = s.gov ∧
    (State.putRecord s p addr bs).mmc = s.mmc := by
  unfold State.putRecord
  simp
  (repeat' split) <;> simp

@[simp] theorem State.putCompletion_frame (s : State) (p tag : Nat) (bs : Bytes) :
    (State.putCompletion s p tag bs).pending = s.pending ∧ (State.putCompletion s p tag bs).gradeS = s.gradeS ∧
    (State.putCompletion s p tag bs).ft = s.ft ∧ (State.putCompletion s p tag bs).cls = s.cls ∧
    (State.putCompletion s p tag bs).layout = s.layout ∧ (State.putCompletion s p tag bs).setup = s.setup ∧
    (State.putCompletion s p tag bs).serial = s.serial ∧ (State.putCompletion s p tag bs).bringing = s.bringing ∧
    (State.putCompletion s p tag bs).lmap = s.lmap ∧ (State.putCompletion s p tag bs).bdies = s.bdies ∧
    (State.putCompletion s p tag bs).ports = s.ports ∧ (State.putCompletion s p tag bs).nodes = s.nodes ∧
    (State.putCompletion s p tag bs).time = s.time ∧ (State.putCompletion s p tag bs).gov = s.gov ∧
    (State.putCompletion s p tag bs).mmc = s.mmc := by
  unfold State.putCompletion
  (repeat' split) <;> simp

@[simp] theorem State.settleStream_frame (s : State) (c : Nat) :
    (State.settleStream s c).pending = s.pending ∧ (State.settleStream s c).gradeS = s.gradeS ∧
    (State.settleStream s c).ft = s.ft ∧ (State.settleStream s c).cls = s.cls ∧
    (State.settleStream s c).layout = s.layout ∧ (State.settleStream s c).setup = s.setup ∧
    (State.settleStream s c).serial = s.serial ∧ (State.settleStream s c).bringing = s.bringing ∧
    (State.settleStream s c).lmap = s.lmap ∧ (State.settleStream s c).bdies = s.bdies ∧
    (State.settleStream s c).ports = s.ports ∧ (State.settleStream s c).nodes = s.nodes ∧
    (State.settleStream s c).time = s.time ∧ (State.settleStream s c).gov = s.gov ∧
    (State.settleStream s c).mmc = s.mmc := by
  unfold State.settleStream
  simp
  (repeat' split) <;> simp

@[simp] theorem State.blankFailure_frame (s : State) (status : Nat) :
    (State.blankFailure s status).1.pending = s.pending ∧ (State.blankFailure s status).1.gradeS = s.gradeS ∧
    (State.blankFailure s status).1.ft = s.ft ∧ (State.blankFailure s status).1.cls = s.cls ∧
    (State.blankFailure s status).1.layout = s.layout ∧ (State.blankFailure s status).1.setup = s.setup ∧
    (State.blankFailure s status).1.serial = s.serial ∧ (State.blankFailure s status).1.bringing = s.bringing ∧
    (State.blankFailure s status).1.lmap = s.lmap ∧ (State.blankFailure s status).1.parts = s.parts ∧
    (State.blankFailure s status).1.cores = s.cores ∧ (State.blankFailure s status).1.slices = s.slices ∧
    (State.blankFailure s status).1.hbmcs = s.hbmcs ∧ (State.blankFailure s status).1.bdies = s.bdies ∧
    (State.blankFailure s status).1.ports = s.ports ∧ (State.blankFailure s status).1.nodes = s.nodes ∧
    (State.blankFailure s status).1.time = s.time ∧ (State.blankFailure s status).1.out = s.out ∧
    (State.blankFailure s status).1.hif = s.hif ∧ (State.blankFailure s status).1.chip = s.chip ∧
    (State.blankFailure s status).1.gov = s.gov ∧ (State.blankFailure s status).1.mmc = s.mmc ∧
    (State.blankFailure s status).1.gdbg = s.gdbg := by
  unfold State.blankFailure
  (repeat' split) <;> simp

@[simp] theorem State.haltOne_frame (s : State) (c : Nat) (f : Failure) :
    (State.haltOne s c f).pending = s.pending ∧ (State.haltOne s c f).gradeS = s.gradeS ∧
    (State.haltOne s c f).ft = s.ft ∧ (State.haltOne s c f).cls = s.cls ∧ (State.haltOne s c f).layout = s.layout ∧
    (State.haltOne s c f).setup = s.setup ∧ (State.haltOne s c f).serial = s.serial ∧
    (State.haltOne s c f).bringing = s.bringing ∧ (State.haltOne s c f).lmap = s.lmap ∧
    (State.haltOne s c f).bdies = s.bdies ∧ (State.haltOne s c f).ports = s.ports ∧
    (State.haltOne s c f).nodes = s.nodes ∧ (State.haltOne s c f).time = s.time ∧ (State.haltOne s c f).gov = s.gov ∧
    (State.haltOne s c f).mmc = s.mmc := by
  unfold State.haltOne
  (repeat' split) <;> simp

@[simp] theorem State.failOne_frame (s : State) (c : Nat) (e : QEntry) (status detail : Nat) :
    (State.failOne s c e status detail).pending = s.pending ∧ (State.failOne s c e status detail).gradeS = s.gradeS ∧
    (State.failOne s c e status detail).ft = s.ft ∧ (State.failOne s c e status detail).cls = s.cls ∧
    (State.failOne s c e status detail).layout = s.layout ∧ (State.failOne s c e status detail).setup = s.setup ∧
    (State.failOne s c e status detail).serial = s.serial ∧ (State.failOne s c e status detail).bringing = s.bringing ∧
    (State.failOne s c e status detail).lmap = s.lmap ∧ (State.failOne s c e status detail).bdies = s.bdies ∧
    (State.failOne s c e status detail).ports = s.ports ∧ (State.failOne s c e status detail).nodes = s.nodes ∧
    (State.failOne s c e status detail).time = s.time ∧ (State.failOne s c e status detail).gov = s.gov ∧
    (State.failOne s c e status detail).mmc = s.mmc := by
  unfold State.failOne
  (repeat' split) <;> simp

@[simp] theorem State.abortWaiting_frame (s : State) (p : Nat) :
    (State.abortWaiting s p).pending = s.pending ∧ (State.abortWaiting s p).gradeS = s.gradeS ∧
    (State.abortWaiting s p).ft = s.ft ∧ (State.abortWaiting s p).cls = s.cls ∧
    (State.abortWaiting s p).layout = s.layout ∧ (State.abortWaiting s p).setup = s.setup ∧
    (State.abortWaiting s p).serial = s.serial ∧ (State.abortWaiting s p).bringing = s.bringing ∧
    (State.abortWaiting s p).lmap = s.lmap ∧ (State.abortWaiting s p).bdies = s.bdies ∧
    (State.abortWaiting s p).ports = s.ports ∧ (State.abortWaiting s p).nodes = s.nodes ∧
    (State.abortWaiting s p).time = s.time ∧ (State.abortWaiting s p).gov = s.gov ∧
    (State.abortWaiting s p).mmc = s.mmc := by
  unfold State.abortWaiting
  exact ⟨foldl_keeps (fun x : State => x.pending) _ (fun a i => by (try dsimp only); (repeat' split) <;> simp) _ _,
    foldl_keeps (fun x : State => x.gradeS) _ (fun a i => by (try dsimp only); (repeat' split) <;> simp) _ _,
    foldl_keeps (fun x : State => x.ft) _ (fun a i => by (try dsimp only); (repeat' split) <;> simp) _ _,
    foldl_keeps (fun x : State => x.cls) _ (fun a i => by (try dsimp only); (repeat' split) <;> simp) _ _,
    foldl_keeps (fun x : State => x.layout) _ (fun a i => by (try dsimp only); (repeat' split) <;> simp) _ _,
    foldl_keeps (fun x : State => x.setup) _ (fun a i => by (try dsimp only); (repeat' split) <;> simp) _ _,
    foldl_keeps (fun x : State => x.serial) _ (fun a i => by (try dsimp only); (repeat' split) <;> simp) _ _,
    foldl_keeps (fun x : State => x.bringing) _ (fun a i => by (try dsimp only); (repeat' split) <;> simp) _ _,
    foldl_keeps (fun x : State => x.lmap) _ (fun a i => by (try dsimp only); (repeat' split) <;> simp) _ _,
    foldl_keeps (fun x : State => x.bdies) _ (fun a i => by (try dsimp only); (repeat' split) <;> simp) _ _,
    foldl_keeps (fun x : State => x.ports) _ (fun a i => by (try dsimp only); (repeat' split) <;> simp) _ _,
    foldl_keeps (fun x : State => x.nodes) _ (fun a i => by (try dsimp only); (repeat' split) <;> simp) _ _,
    foldl_keeps (fun x : State => x.time) _ (fun a i => by (try dsimp only); (repeat' split) <;> simp) _ _,
    foldl_keeps (fun x : State => x.gov) _ (fun a i => by (try dsimp only); (repeat' split) <;> simp) _ _,
    foldl_keeps (fun x : State => x.mmc) _ (fun a i => by (try dsimp only); (repeat' split) <;> simp) _ _⟩

@[simp] theorem State.haltStream_frame (s : State) (c : Nat) (f : Failure) :
    (State.haltStream s c f).pending = s.pending ∧ (State.haltStream s c f).gradeS = s.gradeS ∧
    (State.haltStream s c f).ft = s.ft ∧ (State.haltStream s c f).cls = s.cls ∧
    (State.haltStream s c f).layout = s.layout ∧ (State.haltStream s c f).setup = s.setup ∧
    (State.haltStream s c f).serial = s.serial ∧ (State.haltStream s c f).bringing = s.bringing ∧
    (State.haltStream s c f).lmap = s.lmap ∧ (State.haltStream s c f).bdies = s.bdies ∧
    (State.haltStream s c f).ports = s.ports ∧ (State.haltStream s c f).nodes = s.nodes ∧
    (State.haltStream s c f).time = s.time ∧ (State.haltStream s c f).gov = s.gov ∧
    (State.haltStream s c f).mmc = s.mmc := by
  unfold State.haltStream
  (repeat' split) <;> simp

@[simp] theorem State.failStream_frame (s : State) (c : Nat) (e : QEntry) (status detail : Nat) :
    (State.failStream s c e status detail).pending = s.pending ∧
    (State.failStream s c e status detail).gradeS = s.gradeS ∧ (State.failStream s c e status detail).ft = s.ft ∧
    (State.failStream s c e status detail).cls = s.cls ∧ (State.failStream s c e status detail).layout = s.layout ∧
    (State.failStream s c e status detail).setup = s.setup ∧ (State.failStream s c e status detail).serial = s.serial ∧
    (State.failStream s c e status detail).bringing = s.bringing ∧
    (State.failStream s c e status detail).lmap = s.lmap ∧ (State.failStream s c e status detail).bdies = s.bdies ∧
    (State.failStream s c e status detail).ports = s.ports ∧ (State.failStream s c e status detail).nodes = s.nodes ∧
    (State.failStream s c e status detail).time = s.time ∧ (State.failStream s c e status detail).gov = s.gov ∧
    (State.failStream s c e status detail).mmc = s.mmc := by
  unfold State.failStream
  (repeat' split) <;> simp

@[simp] theorem State.addToken_frame (s : State) (c ctr inc : Nat) :
    (State.addToken s c ctr inc).pending = s.pending ∧ (State.addToken s c ctr inc).gradeS = s.gradeS ∧
    (State.addToken s c ctr inc).ft = s.ft ∧ (State.addToken s c ctr inc).cls = s.cls ∧
    (State.addToken s c ctr inc).layout = s.layout ∧ (State.addToken s c ctr inc).setup = s.setup ∧
    (State.addToken s c ctr inc).serial = s.serial ∧ (State.addToken s c ctr inc).bringing = s.bringing ∧
    (State.addToken s c ctr inc).lmap = s.lmap ∧ (State.addToken s c ctr inc).bdies = s.bdies ∧
    (State.addToken s c ctr inc).ports = s.ports ∧ (State.addToken s c ctr inc).nodes = s.nodes ∧
    (State.addToken s c ctr inc).time = s.time ∧ (State.addToken s c ctr inc).gov = s.gov ∧
    (State.addToken s c ctr inc).mmc = s.mmc := by
  unfold State.addToken
  (repeat' split) <;> simp

@[simp] theorem State.addLedger_frame (s : State) (p base layers ops opid : Nat) (led : Ledger) :
    (State.addLedger s p base layers ops opid led).pending = s.pending ∧
    (State.addLedger s p base layers ops opid led).gradeS = s.gradeS ∧
    (State.addLedger s p base layers ops opid led).ft = s.ft ∧
    (State.addLedger s p base layers ops opid led).cls = s.cls ∧
    (State.addLedger s p base layers ops opid led).layout = s.layout ∧
    (State.addLedger s p base layers ops opid led).setup = s.setup ∧
    (State.addLedger s p base layers ops opid led).serial = s.serial ∧
    (State.addLedger s p base layers ops opid led).bringing = s.bringing ∧
    (State.addLedger s p base layers ops opid led).lmap = s.lmap ∧
    (State.addLedger s p base layers ops opid led).bdies = s.bdies ∧
    (State.addLedger s p base layers ops opid led).ports = s.ports ∧
    (State.addLedger s p base layers ops opid led).nodes = s.nodes ∧
    (State.addLedger s p base layers ops opid led).time = s.time ∧
    (State.addLedger s p base layers ops opid led).gov = s.gov ∧
    (State.addLedger s p base layers ops opid led).mmc = s.mmc := by
  unfold State.addLedger
  (repeat' split) <;> simp

@[simp] theorem State.releaseBarrier_frame (s : State) (p : Nat) :
    (State.releaseBarrier s p).pending = s.pending ∧ (State.releaseBarrier s p).freeCtr = s.freeCtr ∧
    (State.releaseBarrier s p).gradeS = s.gradeS ∧ (State.releaseBarrier s p).ft = s.ft ∧
    (State.releaseBarrier s p).cls = s.cls ∧ (State.releaseBarrier s p).layout = s.layout ∧
    (State.releaseBarrier s p).setup = s.setup ∧ (State.releaseBarrier s p).serial = s.serial ∧
    (State.releaseBarrier s p).bringing = s.bringing ∧ (State.releaseBarrier s p).lmap = s.lmap ∧
    (State.releaseBarrier s p).slices = s.slices ∧ (State.releaseBarrier s p).hbmcs = s.hbmcs ∧
    (State.releaseBarrier s p).bdies = s.bdies ∧ (State.releaseBarrier s p).ports = s.ports ∧
    (State.releaseBarrier s p).nodes = s.nodes ∧ (State.releaseBarrier s p).time = s.time ∧
    (State.releaseBarrier s p).out = s.out ∧ (State.releaseBarrier s p).hif = s.hif ∧
    (State.releaseBarrier s p).chip = s.chip ∧ (State.releaseBarrier s p).gov = s.gov ∧
    (State.releaseBarrier s p).mmc = s.mmc ∧ (State.releaseBarrier s p).gdbg = s.gdbg := by
  unfold State.releaseBarrier
  (repeat' split) <;> simp

@[simp] theorem State.haltCore_frame (s : State) (c code : Nat) :
    (State.haltCore s c code).pending = s.pending ∧ (State.haltCore s c code).gradeS = s.gradeS ∧
    (State.haltCore s c code).ft = s.ft ∧ (State.haltCore s c code).cls = s.cls ∧
    (State.haltCore s c code).layout = s.layout ∧ (State.haltCore s c code).setup = s.setup ∧
    (State.haltCore s c code).serial = s.serial ∧ (State.haltCore s c code).bringing = s.bringing ∧
    (State.haltCore s c code).lmap = s.lmap ∧ (State.haltCore s c code).bdies = s.bdies ∧
    (State.haltCore s c code).ports = s.ports ∧ (State.haltCore s c code).nodes = s.nodes ∧
    (State.haltCore s c code).time = s.time ∧ (State.haltCore s c code).gov = s.gov ∧
    (State.haltCore s c code).mmc = s.mmc := by
  unfold State.haltCore
  simp
  (repeat' split) <;> simp

@[simp] theorem State.haltAll_frame (s : State) (p code : Nat) :
    (State.haltAll s p code).pending = s.pending ∧ (State.haltAll s p code).gradeS = s.gradeS ∧
    (State.haltAll s p code).ft = s.ft ∧ (State.haltAll s p code).cls = s.cls ∧
    (State.haltAll s p code).layout = s.layout ∧ (State.haltAll s p code).setup = s.setup ∧
    (State.haltAll s p code).serial = s.serial ∧ (State.haltAll s p code).bringing = s.bringing ∧
    (State.haltAll s p code).lmap = s.lmap ∧ (State.haltAll s p code).bdies = s.bdies ∧
    (State.haltAll s p code).ports = s.ports ∧ (State.haltAll s p code).nodes = s.nodes ∧
    (State.haltAll s p code).time = s.time ∧ (State.haltAll s p code).gov = s.gov ∧
    (State.haltAll s p code).mmc = s.mmc := by
  unfold State.haltAll
  (repeat' split) <;> simp

end Sys2Proof.Machine
end

