-- ==== Sys2Proof/Laws/Engines.lean ====
section
/-! SUPPORT. What the memory, trace and counting operations leave of a core: its engines, threads, queues and stream. -/

namespace Sys2Proof.Machine

@[simp] theorem State.ite_core (p : Prop) [Decidable p] (s t : State) (d : Nat) :
    (if p then s else t).core d = if p then s.core d else t.core d := apply_ite (State.core · d) _ _ _

@[simp] theorem Core.ite_engines (p : Prop) [Decidable p] (j k : Core) :
    (if p then j else k).engines = if p then j.engines else k.engines := apply_ite _ _ _ _

theorem State.core_setCore_if (s : State) (c d : Nat) (k : Core) : (s.setCore c k).core d = if d = c then k else s.core d :=
  SMap.get_set _ _ _ _ _

/-- A core replaced by one with the same engines leaves every core's engines as they were. -/
theorem State.engines_setCore (s : State) (c d : Nat) (k : Core) (h : k.engines = (s.core c).engines) :
    ((s.setCore c k).core d).engines = (s.core d).engines := by
  rw [State.core_setCore_if]
  split
  · subst_vars; exact h
  · rfl

@[simp] theorem Core.logPut_engines (k : Core) (r : Nat) (bs : Bytes) (head : Bool) : (k.logPut r bs head).engines = k.engines := rfl

@[simp] theorem Core.putTrace_engines (k : Core) (bs : Bytes) (ft free : Nat) : (k.putTrace bs ft free).engines = k.engines := by
  unfold Core.putTrace
  dsimp only
  (repeat' split) <;> rfl

@[simp] theorem State.fresh_core (s : State) (jj : Nat) :
    (State.fresh s).2.core jj = s.core jj := by
  simp [State.core]

@[simp] theorem State.writeEvent_core (s : State) (fn : Fn) (body : Bytes) (jj : Nat) :
    (State.writeEvent s fn body).core jj = s.core jj := by
  simp [State.core]

@[simp] theorem State.pushEvent_core (s : State) (fn : Fn) (body : Bytes) (jj : Nat) :
    (State.pushEvent s fn body).core jj = s.core jj := by
  simp [State.core]

@[simp] theorem State.postEvent_core (s : State) (ring : Fn) (code : Nat) (detail : Bytes) (jj : Nat) :
    (State.postEvent s ring code detail).core jj = s.core jj := by
  simp [State.core]

@[simp] theorem State.modDbg_engines (s : State) (c : Nat) (f : CoreDbg → CoreDbg) (jj : Nat) :
    ((State.modDbg s c f).core jj).engines = (s.core jj).engines := by
  unfold State.modDbg
  try dsimp only
  (repeat' split) <;> first | (simp; done) | (refine (State.engines_setCore _ _ _ _ ?_).trans ?_ <;> simp [Core.engines]; done) | (simp; refine (State.engines_setCore _ _ _ _ ?_).trans ?_ <;> simp [Core.engines])

@[simp] theorem State.event_engines (s : State) (c ev n : Nat) (jj : Nat) :
    ((State.event s c ev n).core jj).engines = (s.core jj).engines := by
  unfold State.event
  try dsimp only
  (repeat' split) <;> first | (simp; done) | (refine (State.engines_setCore _ _ _ _ ?_).trans ?_ <;> simp [Core.engines]; done) | (simp; refine (State.engines_setCore _ _ _ _ ?_).trans ?_ <;> simp [Core.engines])

@[simp] theorem State.gevent_core (s : State) (block inst ev n : Nat) (jj : Nat) :
    (State.gevent s block inst ev n).core jj = s.core jj := by
  simp [State.core]

@[simp] theorem State.trace_engines (s : State) (c opid tag kind chan info : Nat) (jj : Nat) :
    ((State.trace s c opid tag kind chan info).core jj).engines = (s.core jj).engines := by
  unfold State.trace
  split
  · rfl
  · exact (State.engines_setCore _ _ _ _ (by simp)).trans (by simp)

@[simp] theorem State.traceStart_engines (s : State) (c engine opid tag chan : Nat) (jj : Nat) :
    ((State.traceStart s c engine opid tag chan).core jj).engines = (s.core jj).engines := by
  unfold State.traceStart
  try dsimp only
  (repeat' split) <;> first | (simp; done) | (refine (State.engines_setCore _ _ _ _ ?_).trans ?_ <;> simp [Core.engines]; done) | (simp; refine (State.engines_setCore _ _ _ _ ?_).trans ?_ <;> simp [Core.engines])

@[simp] theorem State.traceDone_engines (s : State) (c engine opid tag chan status : Nat) (led : Ledger) (shift : Nat) (jj : Nat) :
    ((State.traceDone s c engine opid tag chan status led shift).core jj).engines = (s.core jj).engines := by
  unfold State.traceDone
  try dsimp only
  (repeat' split) <;> first | (simp; done) | (refine (State.engines_setCore _ _ _ _ ?_).trans ?_ <;> simp [Core.engines]; done) | (simp; refine (State.engines_setCore _ _ _ _ ?_).trans ?_ <;> simp [Core.engines])

@[simp] theorem State.freeze_engines (s : State) (c engine opid tag : Nat) (byTag : Bool) (jj : Nat) :
    ((State.freeze s c engine opid tag byTag).core jj).engines = (s.core jj).engines := by
  unfold State.freeze
  dsimp only
  split
  · rfl
  · rw [State.trace_engines]
    exact (State.engines_setCore _ _ _ _ (by simp [Core.engines]))

@[simp] theorem State.freezePart_engines (s : State) (p : Nat) (jj : Nat) :
    ((State.freezePart s p).core jj).engines = (s.core jj).engines := by
  unfold State.freezePart
  exact foldl_keeps (fun x : State => ((x).core jj).engines) _ (fun a i => by (try dsimp only); (repeat' split) <;> simp) _ _

@[simp] theorem State.breakCore_engines (s : State) (c engine opid tag : Nat) (byTag : Bool) (jj : Nat) :
    ((State.breakCore s c engine opid tag byTag).core jj).engines = (s.core jj).engines := by
  unfold State.breakCore
  try dsimp only
  (repeat' split) <;> first | (simp; done) | (refine (State.engines_setCore _ _ _ _ ?_).trans ?_ <;> simp [Core.engines]; done) | (simp; refine (State.engines_setCore _ _ _ _ ?_).trans ?_ <;> simp [Core.engines])

@[simp] theorem State.recordDone_engines (s : State) (c engine opid tag : Nat) (jj : Nat) :
    ((State.recordDone s c engine opid tag).core jj).engines = (s.core jj).engines := by
  unfold State.recordDone
  try dsimp only
  (repeat' split) <;> first | (simp; done) | (refine (State.engines_setCore _ _ _ _ ?_).trans ?_ <;> simp [Core.engines]; done) | (simp; refine (State.engines_setCore _ _ _ _ ?_).trans ?_ <;> simp [Core.engines])

@[simp] theorem State.settleDie_core (s : State) (d : Nat) (jj : Nat) :
    (State.settleDie s d).core jj = s.core jj := by
  simp [State.core]

@[simp] theorem State.settleDies_core (s : State) (jj : Nat) :
    (State.settleDies s).core jj = s.core jj := by
  simp [State.core]

@[simp] theorem State.noteIssue_core (s : State) (c : Nat) (jj : Nat) :
    (State.noteIssue s c).core jj = s.core jj := by
  simp [State.core]

@[simp] theorem State.awaitSlot_core (s : State) (c : Nat) (jj : Nat) :
    (State.awaitSlot s c).core jj = s.core jj := by
  simp [State.core]

@[simp] theorem State.nimEvent_core (s : State) (p d line : Nat) (jj : Nat) :
    (State.nimEvent s p d line).core jj = s.core jj := by
  simp [State.core]

@[simp] theorem State.memEvent_core (s : State) (p line : Nat) (recovered : Bool) (symbols : Nat) (jj : Nat) :
    (State.memEvent s p line recovered symbols).core jj = s.core jj := by
  simp [State.core]

@[simp] theorem State.touchLine_core (s : State) (p d line : Nat) (dirty : Bool) (jj : Nat) :
    (State.touchLine s p d line dirty).core jj = s.core jj := by
  simp [State.core]

@[simp] theorem State.markStale_engines (s : State) (p line : Nat) (jj : Nat) :
    ((State.markStale s p line).core jj).engines = (s.core jj).engines := by
  unfold State.markStale State.core
  dsimp only
  induction s.cores with
  | nil => rfl
  | cons e m ih =>
    obtain ⟨a, k⟩ := e
    simp only [List.map_cons]
    split <;> simp only [SMap.get_cons] <;> split <;> first | rfl | exact ih

@[simp] theorem State.countCe_core (s : State) (p line : Nat) (jj : Nat) :
    (State.countCe s p line).core jj = s.core jj := by
  simp [State.core]

@[simp] theorem State.setPoison_core (s : State) (p line : Nat) (b : Bool) (jj : Nat) :
    (State.setPoison s p line b).core jj = s.core jj := by
  simp [State.core]

@[simp] theorem State.readWord_core (s : State) (p line : Nat) (flt : MemFault) (jj : Nat) :
    (State.readWord s p line flt).1.core jj = s.core jj := by
  simp [State.core]

@[simp] theorem State.recoverWord_core (s : State) (p line : Nat) (errs : List (Nat × Byte)) (jj : Nat) :
    (State.recoverWord s p line errs).core jj = s.core jj := by
  simp [State.core]

@[simp] theorem State.nimError_core (s : State) (p d line : Nat) (flt : MemFault) (jj : Nat) :
    (State.nimError s p d line flt).1.core jj = s.core jj := by
  simp [State.core]

@[simp] theorem State.readLine_core (s : State) (p a0 n : Nat) (priv : Bool) (flt : MemFault) (jj : Nat) :
    (State.readLine s p a0 n priv flt).1.core jj = s.core jj := by
  simp [State.core]

@[simp] theorem State.writeLine_engines (s : State) (p a0 : Nat) (bs : Bytes) (priv : Bool) (flt : MemFault) (jj : Nat) :
    ((State.writeLine s p a0 bs priv flt).1.core jj).engines = (s.core jj).engines := by
  unfold State.writeLine
  try dsimp only
  (repeat' split) <;> first | (simp; done) | (refine (State.engines_setCore _ _ _ _ ?_).trans ?_ <;> simp [Core.engines]; done) | (simp; refine (State.engines_setCore _ _ _ _ ?_).trans ?_ <;> simp [Core.engines])

@[simp] theorem State.devRead_core (s : State) (p a n : Nat) (priv : Bool) (jj : Nat) :
    (State.devRead s p a n priv).1.core jj = s.core jj := by
  simp [State.core]

@[simp] theorem State.devWrite_engines (s : State) (p a : Nat) (bs : Bytes) (priv : Bool) (jj : Nat) :
    ((State.devWrite s p a bs priv).1.core jj).engines = (s.core jj).engines := by
  unfold State.devWrite
  exact foldl_keeps (fun x : State × _ => ((x.1).core jj).engines) _ (fun a i => by (try dsimp only); (repeat' split) <;> simp) _ _

@[simp] theorem State.locRead_core (s : State) (p : Nat) (l : Loc) (n : Nat) (jj : Nat) :
    (State.locRead s p l n).1.core jj = s.core jj := by
  simp [State.core]

@[simp] theorem State.locWrite_engines (s : State) (p : Nat) (l : Loc) (bs : Bytes) (jj : Nat) :
    ((State.locWrite s p l bs).1.core jj).engines = (s.core jj).engines := by
  unfold State.locWrite
  try dsimp only
  (repeat' split) <;> first | (simp; done) | (refine (State.engines_setCore _ _ _ _ ?_).trans ?_ <;> simp [Core.engines]; done) | (simp; refine (State.engines_setCore _ _ _ _ ?_).trans ?_ <;> simp [Core.engines])

@[simp] theorem State.locWrites_engines (s : State) (p : Nat) (ws : List (Loc × Bytes)) (jj : Nat) :
    ((State.locWrites s p ws).1.core jj).engines = (s.core jj).engines := by
  unfold State.locWrites
  exact foldl_keeps (fun x : State × _ => ((x.1).core jj).engines) _ (fun a i => by (try dsimp only); (repeat' split) <;> simp) _ _

@[simp] theorem State.locReads_core (s : State) (p : Nat) (ls : List (Loc × Nat)) (jj : Nat) :
    (State.locReads s p ls).1.core jj = s.core jj := by
  simp [State.core]

@[simp] theorem State.atomic_engines (s : State) (p a : Nat) (op : AtomicOp) (flt : MemFault) (jj : Nat) :
    ((State.atomic s p a op flt).1.core jj).engines = (s.core jj).engines := by
  unfold State.atomic
  try dsimp only
  (repeat' split) <;> first | (simp; done) | (refine (State.engines_setCore _ _ _ _ ?_).trans ?_ <;> simp [Core.engines]; done) | (simp; refine (State.engines_setCore _ _ _ _ ?_).trans ?_ <;> simp [Core.engines])

@[simp] theorem State.icachePut_engines (s : State) (c : Nat) (l : Loc) (bs : Bytes) (jj : Nat) :
    ((State.icachePut s c l bs).core jj).engines = (s.core jj).engines := by
  unfold State.icachePut
  try dsimp only
  (repeat' split) <;> first | (simp; done) | (refine (State.engines_setCore _ _ _ _ ?_).trans ?_ <;> simp [Core.engines]; done) | (simp; refine (State.engines_setCore _ _ _ _ ?_).trans ?_ <;> simp [Core.engines])

@[simp] theorem State.icacheBurst_engines (s : State) (c p : Nat) (l : Loc) (jj : Nat) :
    ((State.icacheBurst s c p l).core jj).engines = (s.core jj).engines := by
  unfold State.icacheBurst
  exact foldl_keeps (fun x : State => ((x).core jj).engines) _ (fun a i => by (try dsimp only); (repeat' split) <;> simp) _ _

@[simp] theorem State.icacheRead_engines (s : State) (c p : Nat) (l : Loc) (n : Nat) (jj : Nat) :
    ((State.icacheRead s c p l n).1.core jj).engines = (s.core jj).engines := by
  unfold State.icacheRead
  try dsimp only
  (repeat' split) <;> first | (simp; done) | (refine (State.engines_setCore _ _ _ _ ?_).trans ?_ <;> simp [Core.engines]; done) | (simp; refine (State.engines_setCore _ _ _ _ ?_).trans ?_ <;> simp [Core.engines])

@[simp] theorem State.instrEvents_engines (s : State) (c op : Nat) (jj : Nat) :
    ((State.instrEvents s c op).core jj).engines = (s.core jj).engines := by
  unfold State.instrEvents
  try dsimp only
  (repeat' split) <;> first | (simp; done) | (refine (State.engines_setCore _ _ _ _ ?_).trans ?_ <;> simp [Core.engines]; done) | (simp; refine (State.engines_setCore _ _ _ _ ?_).trans ?_ <;> simp [Core.engines])

@[simp] theorem State.countLines_engines (s : State) (x : KCtx) (w : Nat) (jj : Nat) :
    ((State.countLines s x w).core jj).engines = (s.core jj).engines := by
  unfold State.countLines
  try dsimp only
  (repeat' split) <;> first | (simp; done) | (refine (State.engines_setCore _ _ _ _ ?_).trans ?_ <;> simp [Core.engines]; done) | (simp; refine (State.engines_setCore _ _ _ _ ?_).trans ?_ <;> simp [Core.engines])

@[simp] theorem State.locAtomic_engines (s : State) (p : Nat) (l : Loc) (op : AtomicOp) (jj : Nat) :
    ((State.locAtomic s p l op).1.core jj).engines = (s.core jj).engines := by
  unfold State.locAtomic
  try dsimp only
  (repeat' split) <;> first | (simp; done) | (refine (State.engines_setCore _ _ _ _ ?_).trans ?_ <;> simp [Core.engines]; done) | (simp; refine (State.engines_setCore _ _ _ _ ?_).trans ?_ <;> simp [Core.engines])

@[simp] theorem State.kHeader_core (s : State) (x : KCtx) (w : Nat) (jj : Nat) :
    (State.kHeader s x w).1.core jj = s.core jj := by
  simp [State.core]

@[simp] theorem State.writeElems_engines (s : State) (p : Nat) (t : Tensor) (base : Loc) (line first : Nat) (es : List Nat) (jj : Nat) :
    ((State.writeElems s p t base line first es).1.core jj).engines = (s.core jj).engines := by
  unfold State.writeElems
  exact foldl_keeps (fun x : State × _ => ((x.1).core jj).engines) _ (fun a i => by (try dsimp only); (repeat' split) <;> simp) _ _

@[simp] theorem State.writeOffs_engines (s : State) (p : Nat) (t : Tensor) (base : Loc) (line first : Nat) (os : List Nat) (jj : Nat) :
    ((State.writeOffs s p t base line first os).1.core jj).engines = (s.core jj).engines := by
  unfold State.writeOffs
  exact foldl_keeps (fun x : State × _ => ((x.1).core jj).engines) _ (fun a i => by (try dsimp only); (repeat' split) <;> simp) _ _

@[simp] theorem State.writePow2_engines (s : State) (p : Nat) (hdr : Loc) (b : Bool) (jj : Nat) :
    ((State.writePow2 s p hdr b).1.core jj).engines = (s.core jj).engines := by
  unfold State.writePow2
  try dsimp only
  (repeat' split) <;> first | (simp; done) | (refine (State.engines_setCore _ _ _ _ ?_).trans ?_ <;> simp [Core.engines]; done) | (simp; refine (State.engines_setCore _ _ _ _ ?_).trans ?_ <;> simp [Core.engines])

@[simp] theorem State.readEntry_core (s : State) (p : Nat) (t : Tensor) (line i : Nat) (jj : Nat) :
    (State.readEntry s p t line i).1.core jj = s.core jj := by
  simp [State.core]

@[simp] theorem State.passEvents_engines (s : State) (c a : Nat) (om on : OpRef) (k rows cols : Nat) (jj : Nat) :
    ((State.passEvents s c a om on k rows cols).core jj).engines = (s.core jj).engines := by
  unfold State.passEvents
  try dsimp only
  (repeat' split) <;> first | (simp; done) | (refine (State.engines_setCore _ _ _ _ ?_).trans ?_ <;> simp [Core.engines]; done) | (simp; refine (State.engines_setCore _ _ _ _ ?_).trans ?_ <;> simp [Core.engines])

@[simp] theorem State.readScales_core (s : State) (p : Nat) (src : ScaleSrc) (n : Nat) (pairs : Bool) (jj : Nat) :
    (State.readScales s p src n pairs).1.core jj = s.core jj := by
  simp [State.core]

@[simp] theorem State.readBias_core (s : State) (p : Nat) (b : Option Loc) (n : Nat) (jj : Nat) :
    (State.readBias s p b n).1.core jj = s.core jj := by
  simp [State.core]

@[simp] theorem State.readDrainIn_core (s : State) (p : Nat) (d : Drain) (bias : Option Loc) (axis : Bool) (rows cols : Nat) (jj : Nat) :
    (State.readDrainIn s p d bias axis rows cols).1.core jj = s.core jj := by
  simp [State.core]

@[simp] theorem State.readOld_core (s : State) (p : Nat) (d : Drain) (rows cols : Nat) (jj : Nat) :
    (State.readOld s p d rows cols).1.core jj = s.core jj := by
  simp [State.core]

@[simp] theorem State.putDrain_engines (s : State) (p : Nat) (d : Drain) (old : List Bytes) (o : DrainOut) (jj : Nat) :
    ((State.putDrain s p d old o).1.core jj).engines = (s.core jj).engines := by
  unfold State.putDrain
  try dsimp only
  (repeat' split) <;> first | (simp; done) | (refine (State.engines_setCore _ _ _ _ ?_).trans ?_ <;> simp [Core.engines]; done) | (simp; refine (State.engines_setCore _ _ _ _ ?_).trans ?_ <;> simp [Core.engines])

@[simp] theorem State.drainWork_engines (s : State) (p : Nat) (d : Drain) (bias : Option Loc) (axis : Bool) (rows cols : Nat) (compute : DrainIn → (Nat → Nat → Nat) → DrainOut) (jj : Nat) :
    ((State.drainWork s p d bias axis rows cols compute).1.core jj).engines = (s.core jj).engines := by
  unfold State.drainWork
  try dsimp only
  (repeat' split) <;> first | (simp; done) | (refine (State.engines_setCore _ _ _ _ ?_).trans ?_ <;> simp [Core.engines]; done) | (simp; refine (State.engines_setCore _ _ _ _ ?_).trans ?_ <;> simp [Core.engines])

@[simp] theorem State.outlierWork_core (s : State) (p c : Nat) (e : QEntry) (om : OpRef) (d : Drain) (rows cols : Nat) (ol : Option Outlier) (jj : Nat) :
    (State.outlierWork s p c e om d rows cols ol).1.core jj = s.core jj := by
  simp [State.core]

@[simp] theorem Work.guard_core (s : State) (b : Bool) (jj : Nat) :
    (Work.guard s b).1.core jj = s.core jj := by
  simp [State.core]

@[simp] theorem State.recHeader_core (s : State) (p c : Nat) (l : Loc) (jj : Nat) :
    (State.recHeader s p c l).1.core jj = s.core jj := by
  unfold State.recHeader
  repeat' first
    | refine (Work.next_keeps (fun s : State => s.core jj) _ _ (fun _ _ => ?_)).trans ?_
    | refine Work.each_keeps (fun s : State => s.core jj) _ _ _ (fun _ _ => ?_)
    | split
    | (simp; done)

@[simp] theorem State.plainRows_core (s : State) (p : Nat) (t : Tensor) (f : FloatFmt) (jj : Nat) :
    (State.plainRows s p t f).1.core jj = s.core jj := by
  unfold State.plainRows
  repeat' first
    | refine (Work.next_keeps (fun s : State => s.core jj) _ _ (fun _ _ => ?_)).trans ?_
    | refine Work.each_keeps (fun s : State => s.core jj) _ _ _ (fun _ _ => ?_)
    | split
    | (simp; done)

@[simp] theorem State.outlierPlane_engines (s : State) (p : Nat) (q : QuantOp) (rows : List (List FVal)) (idx : List Nat) (jj : Nat) :
    ((State.outlierPlane s p q rows idx).1.core jj).engines = (s.core jj).engines := by
  unfold State.outlierPlane
  try dsimp only
  (repeat' split) <;> first | (simp; done) | (refine (State.engines_setCore _ _ _ _ ?_).trans ?_ <;> simp [Core.engines]; done) | (simp; refine (State.engines_setCore _ _ _ _ ?_).trans ?_ <;> simp [Core.engines])

@[simp] theorem State.modJob_core (s : State) (p : Nat) (f : Job → Job) (jj : Nat) :
    (State.modJob s p f).core jj = s.core jj := by
  simp [State.core]

@[simp] theorem State.putRecord_engines (s : State) (p addr : Nat) (bs : Bytes) (jj : Nat) :
    ((State.putRecord s p addr bs).core jj).engines = (s.core jj).engines := by
  unfold State.putRecord
  try dsimp only
  (repeat' split) <;> first | (simp; done) | (refine (State.engines_setCore _ _ _ _ ?_).trans ?_ <;> simp [Core.engines]; done) | (simp; refine (State.engines_setCore _ _ _ _ ?_).trans ?_ <;> simp [Core.engines])

@[simp] theorem State.putCompletion_engines (s : State) (p tag : Nat) (bs : Bytes) (jj : Nat) :
    ((State.putCompletion s p tag bs).core jj).engines = (s.core jj).engines := by
  unfold State.putCompletion
  try dsimp only
  (repeat' split) <;> first | (simp; done) | (refine (State.engines_setCore _ _ _ _ ?_).trans ?_ <;> simp [Core.engines]; done) | (simp; refine (State.engines_setCore _ _ _ _ ?_).trans ?_ <;> simp [Core.engines])

@[simp] theorem State.blankFailure_core (s : State) (status : Nat) (jj : Nat) :
    (State.blankFailure s status).1.core jj = s.core jj := by
  simp [State.core]

@[simp] theorem State.addLedger_engines (s : State) (p base layers ops opid : Nat) (led : Ledger) (jj : Nat) :
    ((State.addLedger s p base layers ops opid led).core jj).engines = (s.core jj).engines := by
  unfold State.addLedger
  split
  · rfl
  · exact foldl_keeps (fun x : State => (x.core jj).engines) _ (fun a i => by simp) _ _

end Sys2Proof.Machine
end

