-- ==== Sys2Proof/Laws/Queues.lean ====
section
/-! SUPPORT. Which operations leave the queues of every core as they are. -/

namespace Sys2Proof.Machine

theorem Core.queues_of_engines {j k : Core} (h : j.engines = k.engines) : j.queues = k.queues := congrArg (·.2.1) h

@[simp] theorem Core.ite_queues (p : Prop) [Decidable p] (j k : Core) :
    (if p then j else k).queues = if p then j.queues else k.queues := apply_ite _ _ _ _

theorem State.queues_setCore (s : State) (c d : Nat) (k : Core) (h : k.queues = (s.core c).queues) :
    ((s.setCore c k).core d).queues = (s.core d).queues := by
  rw [State.core_setCore_if]
  split
  · subst_vars; exact h
  · rfl

@[simp] theorem Core.setArr_queues (k : Core) (a : Nat) (x : Arr) : (k.setArr a x).queues = k.queues := by
  unfold Core.setArr
  split <;> rfl

@[simp] theorem State.modDbg_queues (s : State) (c : Nat) (f : CoreDbg → CoreDbg) (jj : Nat) :
    ((State.modDbg s c f).core jj).queues = (s.core jj).queues :=
  Core.queues_of_engines (State.modDbg_engines s c f jj)

@[simp] theorem State.event_queues (s : State) (c ev n : Nat) (jj : Nat) :
    ((State.event s c ev n).core jj).queues = (s.core jj).queues :=
  Core.queues_of_engines (State.event_engines s c ev n jj)

@[simp] theorem State.trace_queues (s : State) (c opid tag kind chan info : Nat) (jj : Nat) :
    ((State.trace s c opid tag kind chan info).core jj).queues = (s.core jj).queues :=
  Core.queues_of_engines (State.trace_engines s c opid tag kind chan info jj)

@[simp] theorem State.traceStart_queues (s : State) (c engine opid tag chan : Nat) (jj : Nat) :
    ((State.traceStart s c engine opid tag chan).core jj).queues = (s.core jj).queues :=
  Core.queues_of_engines (State.traceStart_engines s c engine opid tag chan jj)

@[simp] theorem State.traceDone_queues (s : State) (c engine opid tag chan status : Nat) (led : Ledger) (shift : Nat) (jj : Nat) :
    ((State.traceDone s c engine opid tag chan status led shift).core jj).queues = (s.core jj).queues :=
  Core.queues_of_engines (State.traceDone_engines s c engine opid tag chan status led shift jj)

@[simp] theorem State.freeze_queues (s : State) (c engine opid tag : Nat) (byTag : Bool) (jj : Nat) :
    ((State.freeze s c engine opid tag byTag).core jj).queues = (s.core jj).queues :=
  Core.queues_of_engines (State.freeze_engines s c engine opid tag byTag jj)

@[simp] theorem State.freezePart_queues (s : State) (p : Nat) (jj : Nat) :
    ((State.freezePart s p).core jj).queues = (s.core jj).queues :=
  Core.queues_of_engines (State.freezePart_engines s p jj)

@[simp] theorem State.breakCore_queues (s : State) (c engine opid tag : Nat) (byTag : Bool) (jj : Nat) :
    ((State.breakCore s c engine opid tag byTag).core jj).queues = (s.core jj).queues :=
  Core.queues_of_engines (State.breakCore_engines s c engine opid tag byTag jj)

@[simp] theorem State.recordDone_queues (s : State) (c engine opid tag : Nat) (jj : Nat) :
    ((State.recordDone s c engine opid tag).core jj).queues = (s.core jj).queues :=
  Core.queues_of_engines (State.recordDone_engines s c engine opid tag jj)

@[simp] theorem State.markStale_queues (s : State) (p line : Nat) (jj : Nat) :
    ((State.markStale s p line).core jj).queues = (s.core jj).queues :=
  Core.queues_of_engines (State.markStale_engines s p line jj)

@[simp] theorem State.writeLine_queues (s : State) (p a0 : Nat) (bs : Bytes) (priv : Bool) (flt : MemFault) (jj : Nat) :
    ((State.writeLine s p a0 bs priv flt).1.core jj).queues = (s.core jj).queues :=
  Core.queues_of_engines (State.writeLine_engines s p a0 bs priv flt jj)

@[simp] theorem State.devWrite_queues (s : State) (p a : Nat) (bs : Bytes) (priv : Bool) (jj : Nat) :
    ((State.devWrite s p a bs priv).1.core jj).queues = (s.core jj).queues :=
  Core.queues_of_engines (State.devWrite_engines s p a bs priv jj)

@[simp] theorem State.locWrite_queues (s : State) (p : Nat) (l : Loc) (bs : Bytes) (jj : Nat) :
    ((State.locWrite s p l bs).1.core jj).queues = (s.core jj).queues :=
  Core.queues_of_engines (State.locWrite_engines s p l bs jj)

@[simp] theorem State.locWrites_queues (s : State) (p : Nat) (ws : List (Loc × Bytes)) (jj : Nat) :
    ((State.locWrites s p ws).1.core jj).queues = (s.core jj).queues :=
  Core.queues_of_engines (State.locWrites_engines s p ws jj)

@[simp] theorem State.atomic_queues (s : State) (p a : Nat) (op : AtomicOp) (flt : MemFault) (jj : Nat) :
    ((State.atomic s p a op flt).1.core jj).queues = (s.core jj).queues :=
  Core.queues_of_engines (State.atomic_engines s p a op flt jj)

@[simp] theorem State.icachePut_queues (s : State) (c : Nat) (l : Loc) (bs : Bytes) (jj : Nat) :
    ((State.icachePut s c l bs).core jj).queues = (s.core jj).queues :=
  Core.queues_of_engines (State.icachePut_engines s c l bs jj)

@[simp] theorem State.icacheBurst_queues (s : State) (c p : Nat) (l : Loc) (jj : Nat) :
    ((State.icacheBurst s c p l).core jj).queues = (s.core jj).queues :=
  Core.queues_of_engines (State.icacheBurst_engines s c p l jj)

@[simp] theorem State.icacheRead_queues (s : State) (c p : Nat) (l : Loc) (n : Nat) (jj : Nat) :
    ((State.icacheRead s c p l n).1.core jj).queues = (s.core jj).queues :=
  Core.queues_of_engines (State.icacheRead_engines s c p l n jj)

@[simp] theorem State.instrEvents_queues (s : State) (c op : Nat) (jj : Nat) :
    ((State.instrEvents s c op).core jj).queues = (s.core jj).queues :=
  Core.queues_of_engines (State.instrEvents_engines s c op jj)

@[simp] theorem State.countLines_queues (s : State) (x : KCtx) (w : Nat) (jj : Nat) :
    ((State.countLines s x w).core jj).queues = (s.core jj).queues :=
  Core.queues_of_engines (State.countLines_engines s x w jj)

@[simp] theorem State.locAtomic_queues (s : State) (p : Nat) (l : Loc) (op : AtomicOp) (jj : Nat) :
    ((State.locAtomic s p l op).1.core jj).queues = (s.core jj).queues :=
  Core.queues_of_engines (State.locAtomic_engines s p l op jj)

@[simp] theorem State.writeElems_queues (s : State) (p : Nat) (t : Tensor) (base : Loc) (line first : Nat) (es : List Nat) (jj : Nat) :
    ((State.writeElems s p t base line first es).1.core jj).queues = (s.core jj).queues :=
  Core.queues_of_engines (State.writeElems_engines s p t base line first es jj)

@[simp] theorem State.writeOffs_queues (s : State) (p : Nat) (t : Tensor) (base : Loc) (line first : Nat) (os : List Nat) (jj : Nat) :
    ((State.writeOffs s p t base line first os).1.core jj).queues = (s.core jj).queues :=
  Core.queues_of_engines (State.writeOffs_engines s p t base line first os jj)

@[simp] theorem State.writePow2_queues (s : State) (p : Nat) (hdr : Loc) (b : Bool) (jj : Nat) :
    ((State.writePow2 s p hdr b).1.core jj).queues = (s.core jj).queues :=
  Core.queues_of_engines (State.writePow2_engines s p hdr b jj)

@[simp] theorem State.passWork_queues (s : State) (c a : Nat) (om on : OpRef) (k rows cols : Nat) (bank fold : Bool) (slot : Nat) (jj : Nat) :
    ((State.passWork s c a om on k rows cols bank fold slot).1.core jj).queues = (s.core jj).queues := by
  unfold State.passWork
  try dsimp only
  (repeat' split) <;> first | (simp; done) | (refine (State.queues_setCore _ _ _ _ ?_).trans ?_ <;> simp; done) | (simp; refine (State.queues_setCore _ _ _ _ ?_).trans ?_ <;> simp)

@[simp] theorem State.passEvents_queues (s : State) (c a : Nat) (om on : OpRef) (k rows cols : Nat) (jj : Nat) :
    ((State.passEvents s c a om on k rows cols).core jj).queues = (s.core jj).queues :=
  Core.queues_of_engines (State.passEvents_engines s c a om on k rows cols jj)

@[simp] theorem State.putDrain_queues (s : State) (p : Nat) (d : Drain) (old : List Bytes) (o : DrainOut) (jj : Nat) :
    ((State.putDrain s p d old o).1.core jj).queues = (s.core jj).queues :=
  Core.queues_of_engines (State.putDrain_engines s p d old o jj)

@[simp] theorem State.drainWork_queues (s : State) (p : Nat) (d : Drain) (bias : Option Loc) (axis : Bool) (rows cols : Nat) (compute : DrainIn → (Nat → Nat → Nat) → DrainOut) (jj : Nat) :
    ((State.drainWork s p d bias axis rows cols compute).1.core jj).queues = (s.core jj).queues :=
  Core.queues_of_engines (State.drainWork_engines s p d bias axis rows cols compute jj)

@[simp] theorem State.frontWork_queues (s : State) (c a : Nat) (e : QEntry) (d : Option Drain) (bank swap : Bool) (pre rows cols tileNo : Nat) (addr : Option Loc) (axis : Bool) (jj : Nat) :
    ((State.frontWork s c a e d bank swap pre rows cols tileNo addr axis).1.core jj).queues = (s.core jj).queues := by
  unfold State.frontWork
  extract_lets p cr x b nb y0 y s0 s1 r led
  have h0 : s0.core jj = s.core jj ∧ s0.core c = s.core c := by
    unfold s0; split <;> simp [State.core]
  have h1 : (s1.core jj).queues = (s.core jj).queues := by
    unfold s1
    rw [State.queues_setCore _ _ _ _ (by rw [h0.2, Core.setArr_queues]), h0.1]
  have hr : (r.1.core jj).queues = (s.core jj).queues := by
    unfold r; split <;> simp [h1]
  (repeat' split) <;> exact hr

@[simp] theorem State.slotWork_queues (s : State) (c a : Nat) (e : QEntry) (d : Drain) (slot rows cols tileNo : Nat) (bias : Option Loc) (jj : Nat) :
    ((State.slotWork s c a e d slot rows cols tileNo bias).1.core jj).queues = (s.core jj).queues := by
  unfold State.slotWork
  try dsimp only
  (repeat' split) <;> first | (simp; done) | (refine (State.queues_setCore _ _ _ _ ?_).trans ?_ <;> simp; done) | (simp; refine (State.queues_setCore _ _ _ _ ?_).trans ?_ <;> simp)

@[simp] theorem State.setMisfit_queues (s : State) (c flag : Nat) (jj : Nat) :
    ((State.setMisfit s c flag).core jj).queues = (s.core jj).queues := by
  unfold State.setMisfit
  try dsimp only
  (repeat' split) <;> first | (simp; done) | (refine (State.queues_setCore _ _ _ _ ?_).trans ?_ <;> simp; done) | (simp; refine (State.queues_setCore _ _ _ _ ?_).trans ?_ <;> simp)

@[simp] theorem State.cirrusWork_queues (s : State) (c a sh : Nat) (e : QEntry) (led0 : Ledger) (om on : OpRef) (k rows cols : Nat) (bank : Bool) (d : Drain) (bias : Option Loc) (repeats : Bool) (flag tileNo : Nat) (ol : Option Outlier) (jj : Nat) :
    ((State.cirrusWork s c a sh e led0 om on k rows cols bank d bias repeats flag tileNo ol).1.core jj).queues = (s.core jj).queues := by
  unfold State.cirrusWork
  try dsimp only
  (repeat' split) <;> first | (simp; done) | (refine (State.queues_setCore _ _ _ _ ?_).trans ?_ <;> simp; done) | (simp; refine (State.queues_setCore _ _ _ _ ?_).trans ?_ <;> simp)

@[simp] theorem State.quantOutliers_queues (s : State) (p : Nat) (q : QuantOp) (rows : List (List FVal)) (channels : Nat) (jj : Nat) :
    ((State.quantOutliers s p q rows channels).1.core jj).queues = (s.core jj).queues := by
  unfold State.quantOutliers
  try dsimp only
  repeat' first
    | refine (Work.next_keeps (fun s : State => (s.core jj).queues) _ _ (fun _ _ => ?_)).trans ?_
    | refine Work.each_keeps (fun s : State => (s.core jj).queues) _ _ _ (fun _ _ => ?_)
    | split
    | (simp; done)
    | ((try simp); refine (State.queues_setCore _ _ _ _ ?_).trans ?_ <;> simp)

@[simp] theorem State.outlierPlane_queues (s : State) (p : Nat) (q : QuantOp) (rows : List (List FVal)) (idx : List Nat) (jj : Nat) :
    ((State.outlierPlane s p q rows idx).1.core jj).queues = (s.core jj).queues :=
  Core.queues_of_engines (State.outlierPlane_engines s p q rows idx jj)

@[simp] theorem State.quantParams_queues (s : State) (p c : Nat) (q : QuantOp) (top : Nat) (carried : Bool) (first : Nat) (lines : List (List FVal)) (jj : Nat) :
    ((State.quantParams s p c q top carried first lines).1.core jj).queues = (s.core jj).queues := by
  unfold State.quantParams
  try dsimp only
  repeat' first
    | refine (Work.next_keeps (fun s : State => (s.core jj).queues) _ _ (fun _ _ => ?_)).trans ?_
    | refine Work.each_keeps (fun s : State => (s.core jj).queues) _ _ _ (fun _ _ => ?_)
    | split
    | (simp; done)
    | ((try simp); refine (State.queues_setCore _ _ _ _ ?_).trans ?_ <;> simp)

@[simp] theorem State.quantWindow_queues (s : State) (p c : Nat) (e : QEntry) (q : QuantOp) (w channels : Nat) (idx : List Nat) (carried : Bool) (rows : List (List FVal)) (jj : Nat) :
    ((State.quantWindow s p c e q w channels idx carried rows).1.core jj).queues = (s.core jj).queues := by
  unfold State.quantWindow
  try dsimp only
  repeat' first
    | refine (Work.next_keeps (fun s : State => (s.core jj).queues) _ _ (fun _ _ => ?_)).trans ?_
    | refine Work.each_keeps (fun s : State => (s.core jj).queues) _ _ _ (fun _ _ => ?_)
    | split
    | (simp; done)
    | ((try simp); refine (State.queues_setCore _ _ _ _ ?_).trans ?_ <;> simp)

@[simp] theorem State.quantWork_queues (s : State) (c : Nat) (e : QEntry) (q : QuantOp) (jj : Nat) :
    ((State.quantWork s c e q).1.core jj).queues = (s.core jj).queues := by
  unfold State.quantWork
  extract_lets p r
  have hr : (r.1.core jj).queues = (s.core jj).queues := by
    unfold r
    repeat' first
      | refine (Work.next_keeps (fun s : State => (s.core jj).queues) _ _ (fun _ _ => ?_)).trans ?_
      | refine Work.each_keeps (fun s : State => (s.core jj).queues) _ _ _ (fun _ _ => ?_)
      | split
      | (simp; done)
      | ((try simp); refine (State.queues_setCore _ _ _ _ ?_).trans ?_ <;> simp)
  split
  · exact hr
  · split
    · simp [hr]
    · exact hr

@[simp] theorem State.putRecord_queues (s : State) (p addr : Nat) (bs : Bytes) (jj : Nat) :
    ((State.putRecord s p addr bs).core jj).queues = (s.core jj).queues :=
  Core.queues_of_engines (State.putRecord_engines s p addr bs jj)

@[simp] theorem State.putCompletion_queues (s : State) (p tag : Nat) (bs : Bytes) (jj : Nat) :
    ((State.putCompletion s p tag bs).core jj).queues = (s.core jj).queues :=
  Core.queues_of_engines (State.putCompletion_engines s p tag bs jj)

@[simp] theorem State.addLedger_queues (s : State) (p base layers ops opid : Nat) (led : Ledger) (jj : Nat) :
    ((State.addLedger s p base layers ops opid led).core jj).queues = (s.core jj).queues :=
  Core.queues_of_engines (State.addLedger_engines s p base layers ops opid led jj)

end Sys2Proof.Machine
end

