-- ==== Sys2Proof/Laws/FrameFabric.lean ====
section
/-! SUPPORT. Frames: which fields of the state each operation of Machine/Fabric, Ports leaves as they are. -/

namespace Sys2Proof.Machine

@[simp] theorem State.sendFlit_frame (s : State) (n ftype tc vl : Nat) (first last : Bool) (seq : Nat) (payload : Bytes) :
    (State.sendFlit s n ftype tc vl first last seq payload).1.pending = s.pending ∧
    (State.sendFlit s n ftype tc vl first last seq payload).1.freeCtr = s.freeCtr ∧
    (State.sendFlit s n ftype tc vl first last seq payload).1.gradeS = s.gradeS ∧
    (State.sendFlit s n ftype tc vl first last seq payload).1.ft = s.ft ∧
    (State.sendFlit s n ftype tc vl first last seq payload).1.cls = s.cls ∧
    (State.sendFlit s n ftype tc vl first last seq payload).1.layout = s.layout ∧
    (State.sendFlit s n ftype tc vl first last seq payload).1.setup = s.setup ∧
    (State.sendFlit s n ftype tc vl first last seq payload).1.serial = s.serial ∧
    (State.sendFlit s n ftype tc vl first last seq payload).1.bringing = s.bringing ∧
    (State.sendFlit s n ftype tc vl first last seq payload).1.lmap = s.lmap ∧
    (State.sendFlit s n ftype tc vl first last seq payload).1.parts = s.parts ∧
    (State.sendFlit s n ftype tc vl first last seq payload).1.cores = s.cores ∧
    (State.sendFlit s n ftype tc vl first last seq payload).1.slices = s.slices ∧
    (State.sendFlit s n ftype tc vl first last seq payload).1.hbmcs = s.hbmcs ∧
    (State.sendFlit s n ftype tc vl first last seq payload).1.bdies = s.bdies ∧
    (State.sendFlit s n ftype tc vl first last seq payload).1.nodes = s.nodes ∧
    (State.sendFlit s n ftype tc vl first last seq payload).1.time = s.time ∧
    (State.sendFlit s n ftype tc vl first last seq payload).1.hif = s.hif ∧
    (State.sendFlit s n ftype tc vl first last seq payload).1.chip = s.chip ∧
    (State.sendFlit s n ftype tc vl first last seq payload).1.gov = s.gov ∧
    (State.sendFlit s n ftype tc vl first last seq payload).1.mmc = s.mmc := by
  unfold State.sendFlit
  (repeat' split) <;> simp

@[simp] theorem State.sendIdles_frame (s : State) (n least : Nat) :
    (State.sendIdles s n least).pending = s.pending ∧ (State.sendIdles s n least).freeCtr = s.freeCtr ∧
    (State.sendIdles s n least).gradeS = s.gradeS ∧ (State.sendIdles s n least).ft = s.ft ∧
    (State.sendIdles s n least).cls = s.cls ∧ (State.sendIdles s n least).layout = s.layout ∧
    (State.sendIdles s n least).setup = s.setup ∧ (State.sendIdles s n least).serial = s.serial ∧
    (State.sendIdles s n least).bringing = s.bringing ∧ (State.sendIdles s n least).lmap = s.lmap ∧
    (State.sendIdles s n least).parts = s.parts ∧ (State.sendIdles s n least).cores = s.cores ∧
    (State.sendIdles s n least).slices = s.slices ∧ (State.sendIdles s n least).hbmcs = s.hbmcs ∧
    (State.sendIdles s n least).bdies = s.bdies ∧ (State.sendIdles s n least).nodes = s.nodes ∧
    (State.sendIdles s n least).time = s.time ∧ (State.sendIdles s n least).hif = s.hif ∧
    (State.sendIdles s n least).chip = s.chip ∧ (State.sendIdles s n least).gov = s.gov ∧
    (State.sendIdles s n least).mmc = s.mmc := by
  unfold State.sendIdles
  (repeat' split) <;> simp

@[simp] theorem State.dropPacket_frame (s : State) (p : Nat) :
    (State.dropPacket s p).pending = s.pending ∧ (State.dropPacket s p).freeCtr = s.freeCtr ∧
    (State.dropPacket s p).gradeS = s.gradeS ∧ (State.dropPacket s p).ft = s.ft ∧ (State.dropPacket s p).cls = s.cls ∧
    (State.dropPacket s p).layout = s.layout ∧ (State.dropPacket s p).setup = s.setup ∧
    (State.dropPacket s p).serial = s.serial ∧ (State.dropPacket s p).bringing = s.bringing ∧
    (State.dropPacket s p).lmap = s.lmap ∧ (State.dropPacket s p).parts = s.parts ∧
    (State.dropPacket s p).cores = s.cores ∧ (State.dropPacket s p).slices = s.slices ∧
    (State.dropPacket s p).hbmcs = s.hbmcs ∧ (State.dropPacket s p).bdies = s.bdies ∧
    (State.dropPacket s p).ports = s.ports ∧ (State.dropPacket s p).time = s.time ∧
    (State.dropPacket s p).out = s.out ∧ (State.dropPacket s p).hif = s.hif ∧ (State.dropPacket s p).chip = s.chip ∧
    (State.dropPacket s p).gov = s.gov ∧ (State.dropPacket s p).mmc = s.mmc ∧
    (State.dropPacket s p).gdbg = s.gdbg := by
  unfold State.dropPacket
  (repeat' split) <;> simp

@[simp] theorem State.tc0Void_frame (s : State) (p n cause : Nat) :
    (State.tc0Void s p n cause).pending = s.pending ∧ (State.tc0Void s p n cause).freeCtr = s.freeCtr ∧
    (State.tc0Void s p n cause).gradeS = s.gradeS ∧ (State.tc0Void s p n cause).ft = s.ft ∧
    (State.tc0Void s p n cause).cls = s.cls ∧ (State.tc0Void s p n cause).layout = s.layout ∧
    (State.tc0Void s p n cause).setup = s.setup ∧ (State.tc0Void s p n cause).serial = s.serial ∧
    (State.tc0Void s p n cause).bringing = s.bringing ∧ (State.tc0Void s p n cause).lmap = s.lmap ∧
    (State.tc0Void s p n cause).parts = s.parts ∧ (State.tc0Void s p n cause).cores = s.cores ∧
    (State.tc0Void s p n cause).slices = s.slices ∧ (State.tc0Void s p n cause).hbmcs = s.hbmcs ∧
    (State.tc0Void s p n cause).bdies = s.bdies ∧ (State.tc0Void s p n cause).ports = s.ports ∧
    (State.tc0Void s p n cause).time = s.time ∧ (State.tc0Void s p n cause).chip = s.chip ∧
    (State.tc0Void s p n cause).gov = s.gov ∧ (State.tc0Void s p n cause).mmc = s.mmc ∧
    (State.tc0Void s p n cause).gdbg = s.gdbg := by
  unfold State.tc0Void
  (repeat' split) <;> simp

@[simp] theorem State.joinEgress_frame (s : State) (p n : Nat) (e : EPkt) :
    (State.joinEgress s p n e).pending = s.pending ∧ (State.joinEgress s p n e).freeCtr = s.freeCtr ∧
    (State.joinEgress s p n e).gradeS = s.gradeS ∧ (State.joinEgress s p n e).ft = s.ft ∧
    (State.joinEgress s p n e).cls = s.cls ∧ (State.joinEgress s p n e).layout = s.layout ∧
    (State.joinEgress s p n e).setup = s.setup ∧ (State.joinEgress s p n e).serial = s.serial ∧
    (State.joinEgress s p n e).bringing = s.bringing ∧ (State.joinEgress s p n e).lmap = s.lmap ∧
    (State.joinEgress s p n e).parts = s.parts ∧ (State.joinEgress s p n e).cores = s.cores ∧
    (State.joinEgress s p n e).slices = s.slices ∧ (State.joinEgress s p n e).hbmcs = s.hbmcs ∧
    (State.joinEgress s p n e).bdies = s.bdies ∧ (State.joinEgress s p n e).time = s.time ∧
    (State.joinEgress s p n e).chip = s.chip ∧ (State.joinEgress s p n e).gov = s.gov ∧
    (State.joinEgress s p n e).mmc = s.mmc ∧ (State.joinEgress s p n e).gdbg = s.gdbg := by
  unfold State.joinEgress
  simp
  (repeat' split) <;> simp

@[simp] theorem State.sendNext_frame (s : State) (n i : Nat) :
    (State.sendNext s n i).pending = s.pending ∧ (State.sendNext s n i).freeCtr = s.freeCtr ∧
    (State.sendNext s n i).gradeS = s.gradeS ∧ (State.sendNext s n i).ft = s.ft ∧ (State.sendNext s n i).cls = s.cls ∧
    (State.sendNext s n i).layout = s.layout ∧ (State.sendNext s n i).setup = s.setup ∧
    (State.sendNext s n i).serial = s.serial ∧ (State.sendNext s n i).bringing = s.bringing ∧
    (State.sendNext s n i).lmap = s.lmap ∧ (State.sendNext s n i).parts = s.parts ∧
    (State.sendNext s n i).cores = s.cores ∧ (State.sendNext s n i).slices = s.slices ∧
    (State.sendNext s n i).hbmcs = s.hbmcs ∧ (State.sendNext s n i).bdies = s.bdies ∧
    (State.sendNext s n i).nodes = s.nodes ∧ (State.sendNext s n i).time = s.time ∧
    (State.sendNext s n i).hif = s.hif ∧ (State.sendNext s n i).chip = s.chip ∧ (State.sendNext s n i).gov = s.gov ∧
    (State.sendNext s n i).mmc = s.mmc := by
  unfold State.sendNext
  simp
  (repeat' split) <;> simp

@[simp] theorem State.pumpN_frame (s : State) (n : Nat) (x : Nat) :
    (State.pumpN s n x).pending = s.pending ∧ (State.pumpN s n x).freeCtr = s.freeCtr ∧
    (State.pumpN s n x).gradeS = s.gradeS ∧ (State.pumpN s n x).ft = s.ft ∧ (State.pumpN s n x).cls = s.cls ∧
    (State.pumpN s n x).layout = s.layout ∧ (State.pumpN s n x).setup = s.setup ∧
    (State.pumpN s n x).serial = s.serial ∧ (State.pumpN s n x).bringing = s.bringing ∧
    (State.pumpN s n x).lmap = s.lmap ∧ (State.pumpN s n x).parts = s.parts ∧ (State.pumpN s n x).cores = s.cores ∧
    (State.pumpN s n x).slices = s.slices ∧ (State.pumpN s n x).hbmcs = s.hbmcs ∧ (State.pumpN s n x).bdies = s.bdies ∧
    (State.pumpN s n x).nodes = s.nodes ∧ (State.pumpN s n x).time = s.time ∧ (State.pumpN s n x).hif = s.hif ∧
    (State.pumpN s n x).chip = s.chip ∧ (State.pumpN s n x).gov = s.gov ∧ (State.pumpN s n x).mmc = s.mmc := by
  induction x generalizing s with
  | zero => simp [State.pumpN]
  | succ x ih =>
    simp only [State.pumpN]
    (repeat' split) <;> simp [ih]

@[simp] theorem State.pump_frame (s : State) (n : Nat) :
    (State.pump s n).pending = s.pending ∧ (State.pump s n).freeCtr = s.freeCtr ∧ (State.pump s n).gradeS = s.gradeS ∧
    (State.pump s n).ft = s.ft ∧ (State.pump s n).cls = s.cls ∧ (State.pump s n).layout = s.layout ∧
    (State.pump s n).setup = s.setup ∧ (State.pump s n).serial = s.serial ∧ (State.pump s n).bringing = s.bringing ∧
    (State.pump s n).lmap = s.lmap ∧ (State.pump s n).parts = s.parts ∧ (State.pump s n).cores = s.cores ∧
    (State.pump s n).slices = s.slices ∧ (State.pump s n).hbmcs = s.hbmcs ∧ (State.pump s n).bdies = s.bdies ∧
    (State.pump s n).nodes = s.nodes ∧ (State.pump s n).time = s.time ∧ (State.pump s n).hif = s.hif ∧
    (State.pump s n).chip = s.chip ∧ (State.pump s n).gov = s.gov ∧ (State.pump s n).mmc = s.mmc := by
  unfold State.pump
  (repeat' split) <;> simp

@[simp] theorem State.egressTo_frame (s : State) (p n tc vl ingress inVl : Nat) (k : Packet) :
    (State.egressTo s p n tc vl ingress inVl k).pending = s.pending ∧
    (State.egressTo s p n tc vl ingress inVl k).freeCtr = s.freeCtr ∧
    (State.egressTo s p n tc vl ingress inVl k).gradeS = s.gradeS ∧
    (State.egressTo s p n tc vl ingress inVl k).ft = s.ft ∧ (State.egressTo s p n tc vl ingress inVl k).cls = s.cls ∧
    (State.egressTo s p n tc vl ingress inVl k).layout = s.layout ∧
    (State.egressTo s p n tc vl ingress inVl k).setup = s.setup ∧
    (State.egressTo s p n tc vl ingress inVl k).serial = s.serial ∧
    (State.egressTo s p n tc vl ingress inVl k).bringing = s.bringing ∧
    (State.egressTo s p n tc vl ingress inVl k).lmap = s.lmap ∧
    (State.egressTo s p n tc vl ingress inVl k).parts = s.parts ∧
    (State.egressTo s p n tc vl ingress inVl k).cores = s.cores ∧
    (State.egressTo s p n tc vl ingress inVl k).slices = s.slices ∧
    (State.egressTo s p n tc vl ingress inVl k).hbmcs = s.hbmcs ∧
    (State.egressTo s p n tc vl ingress inVl k).bdies = s.bdies ∧
    (State.egressTo s p n tc vl ingress inVl k).time = s.time ∧
    (State.egressTo s p n tc vl ingress inVl k).chip = s.chip ∧
    (State.egressTo s p n tc vl ingress inVl k).gov = s.gov ∧
    (State.egressTo s p n tc vl ingress inVl k).mmc = s.mmc := by
  unfold State.egressTo
  (repeat' split) <;> simp

@[simp] theorem State.sendUnicast_frame (s : State) (p tc ingress inVl : Nat) (pin : Option Nat) (k : Packet) :
    (State.sendUnicast s p tc ingress inVl pin k).1.pending = s.pending ∧
    (State.sendUnicast s p tc ingress inVl pin k).1.freeCtr = s.freeCtr ∧
    (State.sendUnicast s p tc ingress inVl pin k).1.gradeS = s.gradeS ∧
    (State.sendUnicast s p tc ingress inVl pin k).1.ft = s.ft ∧
    (State.sendUnicast s p tc ingress inVl pin k).1.cls = s.cls ∧
    (State.sendUnicast s p tc ingress inVl pin k).1.layout = s.layout ∧
    (State.sendUnicast s p tc ingress inVl pin k).1.setup = s.setup ∧
    (State.sendUnicast s p tc ingress inVl pin k).1.serial = s.serial ∧
    (State.sendUnicast s p tc ingress inVl pin k).1.bringing = s.bringing ∧
    (State.sendUnicast s p tc ingress inVl pin k).1.lmap = s.lmap ∧
    (State.sendUnicast s p tc ingress inVl pin k).1.parts = s.parts ∧
    (State.sendUnicast s p tc ingress inVl pin k).1.cores = s.cores ∧
    (State.sendUnicast s p tc ingress inVl pin k).1.slices = s.slices ∧
    (State.sendUnicast s p tc ingress inVl pin k).1.hbmcs = s.hbmcs ∧
    (State.sendUnicast s p tc ingress inVl pin k).1.bdies = s.bdies ∧
    (State.sendUnicast s p tc ingress inVl pin k).1.time = s.time ∧
    (State.sendUnicast s p tc ingress inVl pin k).1.chip = s.chip ∧
    (State.sendUnicast s p tc ingress inVl pin k).1.gov = s.gov ∧
    (State.sendUnicast s p tc ingress inVl pin k).1.mmc = s.mmc := by
  unfold State.sendUnicast
  simp
  (repeat' split) <;> simp

@[simp] theorem State.sendTree_frame (s : State) (p tc ingress inVl : Nat) (ns : List Nat) (k : Packet) :
    (State.sendTree s p tc ingress inVl ns k).pending = s.pending ∧
    (State.sendTree s p tc ingress inVl ns k).freeCtr = s.freeCtr ∧
    (State.sendTree s p tc ingress inVl ns k).gradeS = s.gradeS ∧ (State.sendTree s p tc ingress inVl ns k).ft = s.ft ∧
    (State.sendTree s p tc ingress inVl ns k).cls = s.cls ∧
    (State.sendTree s p tc ingress inVl ns k).layout = s.layout ∧
    (State.sendTree s p tc ingress inVl ns k).setup = s.setup ∧
    (State.sendTree s p tc ingress inVl ns k).serial = s.serial ∧
    (State.sendTree s p tc ingress inVl ns k).bringing = s.bringing ∧
    (State.sendTree s p tc ingress inVl ns k).lmap = s.lmap ∧
    (State.sendTree s p tc ingress inVl ns k).parts = s.parts ∧
    (State.sendTree s p tc ingress inVl ns k).cores = s.cores ∧
    (State.sendTree s p tc ingress inVl ns k).slices = s.slices ∧
    (State.sendTree s p tc ingress inVl ns k).hbmcs = s.hbmcs ∧
    (State.sendTree s p tc ingress inVl ns k).bdies = s.bdies ∧
    (State.sendTree s p tc ingress inVl ns k).time = s.time ∧ (State.sendTree s p tc ingress inVl ns k).chip = s.chip ∧
    (State.sendTree s p tc ingress inVl ns k).gov = s.gov ∧ (State.sendTree s p tc ingress inVl ns k).mmc = s.mmc := by
  unfold State.sendTree
  (repeat' split) <;> simp

@[simp] theorem State.toInbox_frame (s : State) (p n tc : Nat) (k : Packet) :
    (State.toInbox s p n tc k).pending = s.pending ∧ (State.toInbox s p n tc k).freeCtr = s.freeCtr ∧
    (State.toInbox s p n tc k).gradeS = s.gradeS ∧ (State.toInbox s p n tc k).ft = s.ft ∧
    (State.toInbox s p n tc k).cls = s.cls ∧ (State.toInbox s p n tc k).layout = s.layout ∧
    (State.toInbox s p n tc k).setup = s.setup ∧ (State.toInbox s p n tc k).serial = s.serial ∧
    (State.toInbox s p n tc k).bringing = s.bringing ∧ (State.toInbox s p n tc k).lmap = s.lmap ∧
    (State.toInbox s p n tc k).parts = s.parts ∧ (State.toInbox s p n tc k).cores = s.cores ∧
    (State.toInbox s p n tc k).slices = s.slices ∧ (State.toInbox s p n tc k).hbmcs = s.hbmcs ∧
    (State.toInbox s p n tc k).bdies = s.bdies ∧ (State.toInbox s p n tc k).ports = s.ports ∧
    (State.toInbox s p n tc k).time = s.time ∧ (State.toInbox s p n tc k).out = s.out ∧
    (State.toInbox s p n tc k).hif = s.hif ∧ (State.toInbox s p n tc k).chip = s.chip ∧
    (State.toInbox s p n tc k).gov = s.gov ∧ (State.toInbox s p n tc k).mmc = s.mmc ∧
    (State.toInbox s p n tc k).gdbg = s.gdbg := by
  unfold State.toInbox
  (repeat' split) <;> simp

@[simp] theorem State.originate_frame (s : State) (p tc : Nat) (pin : Option Nat) (k : Packet) :
    (State.originate s p tc pin k).1.pending = s.pending ∧ (State.originate s p tc pin k).1.freeCtr = s.freeCtr ∧
    (State.originate s p tc pin k).1.gradeS = s.gradeS ∧ (State.originate s p tc pin k).1.ft = s.ft ∧
    (State.originate s p tc pin k).1.cls = s.cls ∧ (State.originate s p tc pin k).1.layout = s.layout ∧
    (State.originate s p tc pin k).1.setup = s.setup ∧ (State.originate s p tc pin k).1.serial = s.serial ∧
    (State.originate s p tc pin k).1.bringing = s.bringing ∧ (State.originate s p tc pin k).1.lmap = s.lmap ∧
    (State.originate s p tc pin k).1.parts = s.parts ∧ (State.originate s p tc pin k).1.cores = s.cores ∧
    (State.originate s p tc pin k).1.slices = s.slices ∧ (State.originate s p tc pin k).1.hbmcs = s.hbmcs ∧
    (State.originate s p tc pin k).1.bdies = s.bdies ∧ (State.originate s p tc pin k).1.time = s.time ∧
    (State.originate s p tc pin k).1.chip = s.chip ∧ (State.originate s p tc pin k).1.gov = s.gov ∧
    (State.originate s p tc pin k).1.mmc = s.mmc := by
  unfold State.originate
  (repeat' split) <;> simp

@[simp] theorem State.queueTc0_frame (s : State) (p : Nat) (k : Packet) :
    (State.queueTc0 s p k).pending = s.pending ∧ (State.queueTc0 s p k).freeCtr = s.freeCtr ∧
    (State.queueTc0 s p k).gradeS = s.gradeS ∧ (State.queueTc0 s p k).ft = s.ft ∧ (State.queueTc0 s p k).cls = s.cls ∧
    (State.queueTc0 s p k).layout = s.layout ∧ (State.queueTc0 s p k).setup = s.setup ∧
    (State.queueTc0 s p k).serial = s.serial ∧ (State.queueTc0 s p k).bringing = s.bringing ∧
    (State.queueTc0 s p k).lmap = s.lmap ∧ (State.queueTc0 s p k).parts = s.parts ∧
    (State.queueTc0 s p k).cores = s.cores ∧ (State.queueTc0 s p k).slices = s.slices ∧
    (State.queueTc0 s p k).hbmcs = s.hbmcs ∧ (State.queueTc0 s p k).bdies = s.bdies ∧
    (State.queueTc0 s p k).ports = s.ports ∧ (State.queueTc0 s p k).time = s.time ∧
    (State.queueTc0 s p k).out = s.out ∧ (State.queueTc0 s p k).hif = s.hif ∧ (State.queueTc0 s p k).chip = s.chip ∧
    (State.queueTc0 s p k).gov = s.gov ∧ (State.queueTc0 s p k).mmc = s.mmc ∧
    (State.queueTc0 s p k).gdbg = s.gdbg := by
  unfold State.queueTc0
  (repeat' split) <;> simp

@[simp] theorem State.newTxn_frame (s : State) (p : Nat) (w : Waiter) :
    (State.newTxn s p w).1.pending = s.pending ∧ (State.newTxn s p w).1.freeCtr = s.freeCtr ∧
    (State.newTxn s p w).1.gradeS = s.gradeS ∧ (State.newTxn s p w).1.ft = s.ft ∧ (State.newTxn s p w).1.cls = s.cls ∧
    (State.newTxn s p w).1.layout = s.layout ∧ (State.newTxn s p w).1.setup = s.setup ∧
    (State.newTxn s p w).1.serial = s.serial ∧ (State.newTxn s p w).1.bringing = s.bringing ∧
    (State.newTxn s p w).1.lmap = s.lmap ∧ (State.newTxn s p w).1.parts = s.parts ∧
    (State.newTxn s p w).1.cores = s.cores ∧ (State.newTxn s p w).1.slices = s.slices ∧
    (State.newTxn s p w).1.hbmcs = s.hbmcs ∧ (State.newTxn s p w).1.bdies = s.bdies ∧
    (State.newTxn s p w).1.ports = s.ports ∧ (State.newTxn s p w).1.time = s.time ∧
    (State.newTxn s p w).1.out = s.out ∧ (State.newTxn s p w).1.hif = s.hif ∧ (State.newTxn s p w).1.chip = s.chip ∧
    (State.newTxn s p w).1.gov = s.gov ∧ (State.newTxn s p w).1.mmc = s.mmc ∧
    (State.newTxn s p w).1.gdbg = s.gdbg := by
  unfold State.newTxn
  (repeat' split) <;> simp

@[simp] theorem State.takeWaiter_frame (s : State) (p txn : Nat) :
    (State.takeWaiter s p txn).1.pending = s.pending ∧ (State.takeWaiter s p txn).1.freeCtr = s.freeCtr ∧
    (State.takeWaiter s p txn).1.gradeS = s.gradeS ∧ (State.takeWaiter s p txn).1.ft = s.ft ∧
    (State.takeWaiter s p txn).1.cls = s.cls ∧ (State.takeWaiter s p txn).1.layout = s.layout ∧
    (State.takeWaiter s p txn).1.setup = s.setup ∧ (State.takeWaiter s p txn).1.serial = s.serial ∧
    (State.takeWaiter s p txn).1.bringing = s.bringing ∧ (State.takeWaiter s p txn).1.lmap = s.lmap ∧
    (State.takeWaiter s p txn).1.parts = s.parts ∧ (State.takeWaiter s p txn).1.cores = s.cores ∧
    (State.takeWaiter s p txn).1.slices = s.slices ∧ (State.takeWaiter s p txn).1.hbmcs = s.hbmcs ∧
    (State.takeWaiter s p txn).1.bdies = s.bdies ∧ (State.takeWaiter s p txn).1.ports = s.ports ∧
    (State.takeWaiter s p txn).1.time = s.time ∧ (State.takeWaiter s p txn).1.out = s.out ∧
    (State.takeWaiter s p txn).1.hif = s.hif ∧ (State.takeWaiter s p txn).1.chip = s.chip ∧
    (State.takeWaiter s p txn).1.gov = s.gov ∧ (State.takeWaiter s p txn).1.mmc = s.mmc ∧
    (State.takeWaiter s p txn).1.gdbg = s.gdbg := by
  unfold State.takeWaiter
  (repeat' split) <;> simp

@[simp] theorem State.respond_frame (s : State) (p tc : Nat) (req : Packet) (kind status : Nat) (data : Bytes) :
    (State.respond s p tc req kind status data).pending = s.pending ∧
    (State.respond s p tc req kind status data).freeCtr = s.freeCtr ∧
    (State.respond s p tc req kind status data).gradeS = s.gradeS ∧
    (State.respond s p tc req kind status data).ft = s.ft ∧ (State.respond s p tc req kind status data).cls = s.cls ∧
    (State.respond s p tc req kind status data).layout = s.layout ∧
    (State.respond s p tc req kind status data).setup = s.setup ∧
    (State.respond s p tc req kind status data).serial = s.serial ∧
    (State.respond s p tc req kind status data).bringing = s.bringing ∧
    (State.respond s p tc req kind status data).lmap = s.lmap ∧
    (State.respond s p tc req kind status data).parts = s.parts ∧
    (State.respond s p tc req kind status data).cores = s.cores ∧
    (State.respond s p tc req kind status data).slices = s.slices ∧
    (State.respond s p tc req kind status data).hbmcs = s.hbmcs ∧
    (State.respond s p tc req kind status data).bdies = s.bdies ∧
    (State.respond s p tc req kind status data).time = s.time ∧
    (State.respond s p tc req kind status data).chip = s.chip ∧
    (State.respond s p tc req kind status data).gov = s.gov ∧
    (State.respond s p tc req kind status data).mmc = s.mmc := by
  unfold State.respond
  (repeat' split) <;> simp

@[simp] theorem State.refusePacket_frame (s : State) (p tc cause : Nat) (k : Packet) :
    (State.refusePacket s p tc cause k).pending = s.pending ∧ (State.refusePacket s p tc cause k).freeCtr = s.freeCtr ∧
    (State.refusePacket s p tc cause k).gradeS = s.gradeS ∧ (State.refusePacket s p tc cause k).ft = s.ft ∧
    (State.refusePacket s p tc cause k).cls = s.cls ∧ (State.refusePacket s p tc cause k).layout = s.layout ∧
    (State.refusePacket s p tc cause k).setup = s.setup ∧ (State.refusePacket s p tc cause k).serial = s.serial ∧
    (State.refusePacket s p tc cause k).bringing = s.bringing ∧ (State.refusePacket s p tc cause k).lmap = s.lmap ∧
    (State.refusePacket s p tc cause k).parts = s.parts ∧ (State.refusePacket s p tc cause k).cores = s.cores ∧
    (State.refusePacket s p tc cause k).slices = s.slices ∧ (State.refusePacket s p tc cause k).hbmcs = s.hbmcs ∧
    (State.refusePacket s p tc cause k).bdies = s.bdies ∧ (State.refusePacket s p tc cause k).time = s.time ∧
    (State.refusePacket s p tc cause k).chip = s.chip ∧ (State.refusePacket s p tc cause k).gov = s.gov ∧
    (State.refusePacket s p tc cause k).mmc = s.mmc := by
  unfold State.refusePacket
  (repeat' split) <;> simp

@[simp] theorem State.signalDropped_frame (s : State) (p why : Nat) (k : Packet) :
    (State.signalDropped s p why k).pending = s.pending ∧ (State.signalDropped s p why k).freeCtr = s.freeCtr ∧
    (State.signalDropped s p why k).gradeS = s.gradeS ∧ (State.signalDropped s p why k).ft = s.ft ∧
    (State.signalDropped s p why k).cls = s.cls ∧ (State.signalDropped s p why k).layout = s.layout ∧
    (State.signalDropped s p why k).setup = s.setup ∧ (State.signalDropped s p why k).serial = s.serial ∧
    (State.signalDropped s p why k).bringing = s.bringing ∧ (State.signalDropped s p why k).lmap = s.lmap ∧
    (State.signalDropped s p why k).parts = s.parts ∧ (State.signalDropped s p why k).cores = s.cores ∧
    (State.signalDropped s p why k).slices = s.slices ∧ (State.signalDropped s p why k).hbmcs = s.hbmcs ∧
    (State.signalDropped s p why k).bdies = s.bdies ∧ (State.signalDropped s p why k).ports = s.ports ∧
    (State.signalDropped s p why k).time = s.time ∧ (State.signalDropped s p why k).chip = s.chip ∧
    (State.signalDropped s p why k).gov = s.gov ∧ (State.signalDropped s p why k).mmc = s.mmc ∧
    (State.signalDropped s p why k).gdbg = s.gdbg := by
  unfold State.signalDropped
  (repeat' split) <;> simp

@[simp] theorem State.deliver_frame (s : State) (p n tc : Nat) (k : Packet) :
    (State.deliver s p n tc k).pending = s.pending ∧ (State.deliver s p n tc k).freeCtr = s.freeCtr ∧
    (State.deliver s p n tc k).gradeS = s.gradeS ∧ (State.deliver s p n tc k).ft = s.ft ∧
    (State.deliver s p n tc k).cls = s.cls ∧ (State.deliver s p n tc k).layout = s.layout ∧
    (State.deliver s p n tc k).setup = s.setup ∧ (State.deliver s p n tc k).serial = s.serial ∧
    (State.deliver s p n tc k).bringing = s.bringing ∧ (State.deliver s p n tc k).lmap = s.lmap ∧
    (State.deliver s p n tc k).parts = s.parts ∧ (State.deliver s p n tc k).cores = s.cores ∧
    (State.deliver s p n tc k).slices = s.slices ∧ (State.deliver s p n tc k).hbmcs = s.hbmcs ∧
    (State.deliver s p n tc k).bdies = s.bdies ∧ (State.deliver s p n tc k).time = s.time ∧
    (State.deliver s p n tc k).chip = s.chip ∧ (State.deliver s p n tc k).gov = s.gov ∧
    (State.deliver s p n tc k).mmc = s.mmc := by
  unfold State.deliver
  (repeat' split) <;> simp

@[simp] theorem State.notice_frame (s : State) (p n dest : Nat) :
    (State.notice s p n dest).pending = s.pending ∧ (State.notice s p n dest).freeCtr = s.freeCtr ∧
    (State.notice s p n dest).gradeS = s.gradeS ∧ (State.notice s p n dest).ft = s.ft ∧
    (State.notice s p n dest).cls = s.cls ∧ (State.notice s p n dest).layout = s.layout ∧
    (State.notice s p n dest).setup = s.setup ∧ (State.notice s p n dest).serial = s.serial ∧
    (State.notice s p n dest).bringing = s.bringing ∧ (State.notice s p n dest).lmap = s.lmap ∧
    (State.notice s p n dest).parts = s.parts ∧ (State.notice s p n dest).cores = s.cores ∧
    (State.notice s p n dest).slices = s.slices ∧ (State.notice s p n dest).hbmcs = s.hbmcs ∧
    (State.notice s p n dest).bdies = s.bdies ∧ (State.notice s p n dest).time = s.time ∧
    (State.notice s p n dest).chip = s.chip ∧ (State.notice s p n dest).gov = s.gov ∧
    (State.notice s p n dest).mmc = s.mmc := by
  unfold State.notice
  (repeat' split) <;> simp

@[simp] theorem State.forward_frame (s : State) (p n tc vl : Nat) (k : Packet) :
    (State.forward s p n tc vl k).1.pending = s.pending ∧ (State.forward s p n tc vl k).1.freeCtr = s.freeCtr ∧
    (State.forward s p n tc vl k).1.gradeS = s.gradeS ∧ (State.forward s p n tc vl k).1.ft = s.ft ∧
    (State.forward s p n tc vl k).1.cls = s.cls ∧ (State.forward s p n tc vl k).1.layout = s.layout ∧
    (State.forward s p n tc vl k).1.setup = s.setup ∧ (State.forward s p n tc vl k).1.serial = s.serial ∧
    (State.forward s p n tc vl k).1.bringing = s.bringing ∧ (State.forward s p n tc vl k).1.lmap = s.lmap ∧
    (State.forward s p n tc vl k).1.parts = s.parts ∧ (State.forward s p n tc vl k).1.cores = s.cores ∧
    (State.forward s p n tc vl k).1.slices = s.slices ∧ (State.forward s p n tc vl k).1.hbmcs = s.hbmcs ∧
    (State.forward s p n tc vl k).1.bdies = s.bdies ∧ (State.forward s p n tc vl k).1.time = s.time ∧
    (State.forward s p n tc vl k).1.chip = s.chip ∧ (State.forward s p n tc vl k).1.gov = s.gov ∧
    (State.forward s p n tc vl k).1.mmc = s.mmc := by
  unfold State.forward
  (repeat' split) <;> simp

@[simp] theorem State.takeBroadcast_frame (s : State) (p n tc vl : Nat) (k : Packet) :
    (State.takeBroadcast s p n tc vl k).pending = s.pending ∧ (State.takeBroadcast s p n tc vl k).freeCtr = s.freeCtr ∧
    (State.takeBroadcast s p n tc vl k).gradeS = s.gradeS ∧ (State.takeBroadcast s p n tc vl k).ft = s.ft ∧
    (State.takeBroadcast s p n tc vl k).cls = s.cls ∧ (State.takeBroadcast s p n tc vl k).layout = s.layout ∧
    (State.takeBroadcast s p n tc vl k).setup = s.setup ∧ (State.takeBroadcast s p n tc vl k).serial = s.serial ∧
    (State.takeBroadcast s p n tc vl k).bringing = s.bringing ∧ (State.takeBroadcast s p n tc vl k).lmap = s.lmap ∧
    (State.takeBroadcast s p n tc vl k).parts = s.parts ∧ (State.takeBroadcast s p n tc vl k).cores = s.cores ∧
    (State.takeBroadcast s p n tc vl k).slices = s.slices ∧ (State.takeBroadcast s p n tc vl k).hbmcs = s.hbmcs ∧
    (State.takeBroadcast s p n tc vl k).bdies = s.bdies ∧ (State.takeBroadcast s p n tc vl k).time = s.time ∧
    (State.takeBroadcast s p n tc vl k).chip = s.chip ∧ (State.takeBroadcast s p n tc vl k).gov = s.gov ∧
    (State.takeBroadcast s p n tc vl k).mmc = s.mmc := by
  unfold State.takeBroadcast
  (repeat' split) <;> simp

@[simp] theorem State.takePacket_frame (s : State) (n tc vl flits : Nat) (bs : Bytes) :
    (State.takePacket s n tc vl flits bs).pending = s.pending ∧
    (State.takePacket s n tc vl flits bs).freeCtr = s.freeCtr ∧
    (State.takePacket s n tc vl flits bs).gradeS = s.gradeS ∧ (State.takePacket s n tc vl flits bs).ft = s.ft ∧
    (State.takePacket s n tc vl flits bs).cls = s.cls ∧ (State.takePacket s n tc vl flits bs).layout = s.layout ∧
    (State.takePacket s n tc vl flits bs).setup = s.setup ∧ (State.takePacket s n tc vl flits bs).serial = s.serial ∧
    (State.takePacket s n tc vl flits bs).bringing = s.bringing ∧ (State.takePacket s n tc vl flits bs).lmap = s.lmap ∧
    (State.takePacket s n tc vl flits bs).parts = s.parts ∧ (State.takePacket s n tc vl flits bs).cores = s.cores ∧
    (State.takePacket s n tc vl flits bs).slices = s.slices ∧ (State.takePacket s n tc vl flits bs).hbmcs = s.hbmcs ∧
    (State.takePacket s n tc vl flits bs).bdies = s.bdies ∧ (State.takePacket s n tc vl flits bs).time = s.time ∧
    (State.takePacket s n tc vl flits bs).chip = s.chip ∧ (State.takePacket s n tc vl flits bs).gov = s.gov ∧
    (State.takePacket s n tc vl flits bs).mmc = s.mmc := by
  unfold State.takePacket
  (repeat' split) <;> simp

@[simp] theorem State.sendReplayRequest_frame (s : State) (n : Nat) :
    (State.sendReplayRequest s n).pending = s.pending ∧ (State.sendReplayRequest s n).freeCtr = s.freeCtr ∧
    (State.sendReplayRequest s n).gradeS = s.gradeS ∧ (State.sendReplayRequest s n).ft = s.ft ∧
    (State.sendReplayRequest s n).cls = s.cls ∧ (State.sendReplayRequest s n).layout = s.layout ∧
    (State.sendReplayRequest s n).setup = s.setup ∧ (State.sendReplayRequest s n).serial = s.serial ∧
    (State.sendReplayRequest s n).bringing = s.bringing ∧ (State.sendReplayRequest s n).lmap = s.lmap ∧
    (State.sendReplayRequest s n).parts = s.parts ∧ (State.sendReplayRequest s n).cores = s.cores ∧
    (State.sendReplayRequest s n).slices = s.slices ∧ (State.sendReplayRequest s n).hbmcs = s.hbmcs ∧
    (State.sendReplayRequest s n).bdies = s.bdies ∧ (State.sendReplayRequest s n).nodes = s.nodes ∧
    (State.sendReplayRequest s n).time = s.time ∧ (State.sendReplayRequest s n).hif = s.hif ∧
    (State.sendReplayRequest s n).chip = s.chip ∧ (State.sendReplayRequest s n).gov = s.gov ∧
    (State.sendReplayRequest s n).mmc = s.mmc := by
  unfold State.sendReplayRequest
  (repeat' split) <;> simp

@[simp] theorem State.laneEvents_frame (s : State) (n old : Nat) :
    (State.laneEvents s n old).pending = s.pending ∧ (State.laneEvents s n old).freeCtr = s.freeCtr ∧
    (State.laneEvents s n old).gradeS = s.gradeS ∧ (State.laneEvents s n old).ft = s.ft ∧
    (State.laneEvents s n old).cls = s.cls ∧ (State.laneEvents s n old).layout = s.layout ∧
    (State.laneEvents s n old).setup = s.setup ∧ (State.laneEvents s n old).serial = s.serial ∧
    (State.laneEvents s n old).bringing = s.bringing ∧ (State.laneEvents s n old).lmap = s.lmap ∧
    (State.laneEvents s n old).parts = s.parts ∧ (State.laneEvents s n old).cores = s.cores ∧
    (State.laneEvents s n old).slices = s.slices ∧ (State.laneEvents s n old).hbmcs = s.hbmcs ∧
    (State.laneEvents s n old).bdies = s.bdies ∧ (State.laneEvents s n old).ports = s.ports ∧
    (State.laneEvents s n old).nodes = s.nodes ∧ (State.laneEvents s n old).time = s.time ∧
    (State.laneEvents s n old).chip = s.chip ∧ (State.laneEvents s n old).gov = s.gov ∧
    (State.laneEvents s n old).mmc = s.mmc ∧ (State.laneEvents s n old).gdbg = s.gdbg := by
  unfold State.laneEvents
  (repeat' split) <;> simp

@[simp] theorem State.portDown_frame (s : State) (n : Nat) (event : Bool) :
    (State.portDown s n event).pending = s.pending ∧ (State.portDown s n event).freeCtr = s.freeCtr ∧
    (State.portDown s n event).gradeS = s.gradeS ∧ (State.portDown s n event).ft = s.ft ∧
    (State.portDown s n event).cls = s.cls ∧ (State.portDown s n event).layout = s.layout ∧
    (State.portDown s n event).setup = s.setup ∧ (State.portDown s n event).serial = s.serial ∧
    (State.portDown s n event).bringing = s.bringing ∧ (State.portDown s n event).lmap = s.lmap ∧
    (State.portDown s n event).parts = s.parts ∧ (State.portDown s n event).slices = s.slices ∧
    (State.portDown s n event).hbmcs = s.hbmcs ∧ (State.portDown s n event).bdies = s.bdies ∧
    (State.portDown s n event).time = s.time ∧ (State.portDown s n event).chip = s.chip ∧
    (State.portDown s n event).gov = s.gov ∧ (State.portDown s n event).mmc = s.mmc := by
  unfold State.portDown
  (repeat' split) <;> simp

@[simp] theorem State.raisePort_frame (s : State) (n : Nat) :
    (State.raisePort s n).pending = s.pending ∧ (State.raisePort s n).freeCtr = s.freeCtr ∧
    (State.raisePort s n).gradeS = s.gradeS ∧ (State.raisePort s n).ft = s.ft ∧ (State.raisePort s n).cls = s.cls ∧
    (State.raisePort s n).layout = s.layout ∧ (State.raisePort s n).setup = s.setup ∧
    (State.raisePort s n).serial = s.serial ∧ (State.raisePort s n).bringing = s.bringing ∧
    (State.raisePort s n).lmap = s.lmap ∧ (State.raisePort s n).parts = s.parts ∧
    (State.raisePort s n).cores = s.cores ∧ (State.raisePort s n).slices = s.slices ∧
    (State.raisePort s n).hbmcs = s.hbmcs ∧ (State.raisePort s n).bdies = s.bdies ∧
    (State.raisePort s n).nodes = s.nodes ∧ (State.raisePort s n).time = s.time ∧ (State.raisePort s n).hif = s.hif ∧
    (State.raisePort s n).chip = s.chip ∧ (State.raisePort s n).gov = s.gov ∧ (State.raisePort s n).mmc = s.mmc := by
  unfold State.raisePort
  (repeat' split) <;> simp

@[simp] theorem State.trainPort_frame (s : State) (n : Nat) (errs : List (Nat × Nat)) (event : Bool) :
    (State.trainPort s n errs event).pending = s.pending ∧ (State.trainPort s n errs event).freeCtr = s.freeCtr ∧
    (State.trainPort s n errs event).gradeS = s.gradeS ∧ (State.trainPort s n errs event).ft = s.ft ∧
    (State.trainPort s n errs event).cls = s.cls ∧ (State.trainPort s n errs event).layout = s.layout ∧
    (State.trainPort s n errs event).setup = s.setup ∧ (State.trainPort s n errs event).serial = s.serial ∧
    (State.trainPort s n errs event).bringing = s.bringing ∧ (State.trainPort s n errs event).lmap = s.lmap ∧
    (State.trainPort s n errs event).parts = s.parts ∧ (State.trainPort s n errs event).slices = s.slices ∧
    (State.trainPort s n errs event).hbmcs = s.hbmcs ∧ (State.trainPort s n errs event).bdies = s.bdies ∧
    (State.trainPort s n errs event).nodes = s.nodes ∧ (State.trainPort s n errs event).time = s.time ∧
    (State.trainPort s n errs event).chip = s.chip ∧ (State.trainPort s n errs event).gov = s.gov ∧
    (State.trainPort s n errs event).mmc = s.mmc ∧ (State.trainPort s n errs event).gdbg = s.gdbg := by
  unfold State.trainPort
  (repeat' split) <;> simp

@[simp] theorem State.startRetrain_frame (s : State) (n : Nat) :
    (State.startRetrain s n).pending = s.pending ∧ (State.startRetrain s n).freeCtr = s.freeCtr ∧
    (State.startRetrain s n).gradeS = s.gradeS ∧ (State.startRetrain s n).ft = s.ft ∧
    (State.startRetrain s n).cls = s.cls ∧ (State.startRetrain s n).layout = s.layout ∧
    (State.startRetrain s n).setup = s.setup ∧ (State.startRetrain s n).serial = s.serial ∧
    (State.startRetrain s n).bringing = s.bringing ∧ (State.startRetrain s n).lmap = s.lmap ∧
    (State.startRetrain s n).parts = s.parts ∧ (State.startRetrain s n).cores = s.cores ∧
    (State.startRetrain s n).slices = s.slices ∧ (State.startRetrain s n).hbmcs = s.hbmcs ∧
    (State.startRetrain s n).bdies = s.bdies ∧ (State.startRetrain s n).nodes = s.nodes ∧
    (State.startRetrain s n).time = s.time ∧ (State.startRetrain s n).out = s.out ∧
    (State.startRetrain s n).hif = s.hif ∧ (State.startRetrain s n).chip = s.chip ∧
    (State.startRetrain s n).gov = s.gov ∧ (State.startRetrain s n).mmc = s.mmc ∧
    (State.startRetrain s n).gdbg = s.gdbg := by
  unfold State.startRetrain
  (repeat' split) <;> simp

@[simp] theorem State.retireLane_frame (s : State) (n l : Nat) :
    (State.retireLane s n l).pending = s.pending ∧ (State.retireLane s n l).freeCtr = s.freeCtr ∧
    (State.retireLane s n l).gradeS = s.gradeS ∧ (State.retireLane s n l).ft = s.ft ∧
    (State.retireLane s n l).cls = s.cls ∧ (State.retireLane s n l).layout = s.layout ∧
    (State.retireLane s n l).setup = s.setup ∧ (State.retireLane s n l).serial = s.serial ∧
    (State.retireLane s n l).bringing = s.bringing ∧ (State.retireLane s n l).lmap = s.lmap ∧
    (State.retireLane s n l).parts = s.parts ∧ (State.retireLane s n l).slices = s.slices ∧
    (State.retireLane s n l).hbmcs = s.hbmcs ∧ (State.retireLane s n l).bdies = s.bdies ∧
    (State.retireLane s n l).time = s.time ∧ (State.retireLane s n l).chip = s.chip ∧
    (State.retireLane s n l).gov = s.gov ∧ (State.retireLane s n l).mmc = s.mmc := by
  unfold State.retireLane
  (repeat' split) <;> simp

@[simp] theorem State.endRetrain_frame (s : State) (n : Nat) :
    (State.endRetrain s n).pending = s.pending ∧ (State.endRetrain s n).freeCtr = s.freeCtr ∧
    (State.endRetrain s n).gradeS = s.gradeS ∧ (State.endRetrain s n).ft = s.ft ∧ (State.endRetrain s n).cls = s.cls ∧
    (State.endRetrain s n).layout = s.layout ∧ (State.endRetrain s n).setup = s.setup ∧
    (State.endRetrain s n).serial = s.serial ∧ (State.endRetrain s n).bringing = s.bringing ∧
    (State.endRetrain s n).lmap = s.lmap ∧ (State.endRetrain s n).parts = s.parts ∧
    (State.endRetrain s n).cores = s.cores ∧ (State.endRetrain s n).slices = s.slices ∧
    (State.endRetrain s n).hbmcs = s.hbmcs ∧ (State.endRetrain s n).bdies = s.bdies ∧
    (State.endRetrain s n).nodes = s.nodes ∧ (State.endRetrain s n).time = s.time ∧
    (State.endRetrain s n).hif = s.hif ∧ (State.endRetrain s n).chip = s.chip ∧ (State.endRetrain s n).gov = s.gov ∧
    (State.endRetrain s n).mmc = s.mmc := by
  unfold State.endRetrain
  (repeat' split) <;> simp

@[simp] theorem State.chooseParent_frame (s : State) :
    (State.chooseParent s).pending = s.pending ∧ (State.chooseParent s).freeCtr = s.freeCtr ∧
    (State.chooseParent s).gradeS = s.gradeS ∧ (State.chooseParent s).ft = s.ft ∧ (State.chooseParent s).cls = s.cls ∧
    (State.chooseParent s).layout = s.layout ∧ (State.chooseParent s).setup = s.setup ∧
    (State.chooseParent s).serial = s.serial ∧ (State.chooseParent s).bringing = s.bringing ∧
    (State.chooseParent s).lmap = s.lmap ∧ (State.chooseParent s).parts = s.parts ∧
    (State.chooseParent s).cores = s.cores ∧ (State.chooseParent s).slices = s.slices ∧
    (State.chooseParent s).hbmcs = s.hbmcs ∧ (State.chooseParent s).bdies = s.bdies ∧
    (State.chooseParent s).ports = s.ports ∧ (State.chooseParent s).nodes = s.nodes ∧
    (State.chooseParent s).chip = s.chip ∧ (State.chooseParent s).gov = s.gov ∧ (State.chooseParent s).mmc = s.mmc ∧
    (State.chooseParent s).gdbg = s.gdbg := by
  unfold State.chooseParent
  simp
  (repeat' split) <;> simp

@[simp] theorem State.tick_frame (s : State) :
    (State.tick s).pending = s.pending ∧ (State.tick s).freeCtr = s.freeCtr ∧ (State.tick s).gradeS = s.gradeS ∧
    (State.tick s).cls = s.cls ∧ (State.tick s).layout = s.layout ∧ (State.tick s).setup = s.setup ∧
    (State.tick s).serial = s.serial ∧ (State.tick s).bringing = s.bringing ∧ (State.tick s).lmap = s.lmap ∧
    (State.tick s).parts = s.parts ∧ (State.tick s).cores = s.cores ∧ (State.tick s).slices = s.slices ∧
    (State.tick s).hbmcs = s.hbmcs ∧ (State.tick s).bdies = s.bdies ∧ (State.tick s).ports = s.ports ∧
    (State.tick s).nodes = s.nodes ∧ (State.tick s).out = s.out ∧ (State.tick s).hif = s.hif ∧
    (State.tick s).chip = s.chip ∧ (State.tick s).gov = s.gov ∧ (State.tick s).mmc = s.mmc ∧
    (State.tick s).gdbg = s.gdbg := by
  unfold State.tick
  (repeat' split) <;> simp

@[simp] theorem State.takeOffset_frame (s : State) (off : Int) (port : Nat) :
    (State.takeOffset s off port).pending = s.pending ∧ (State.takeOffset s off port).freeCtr = s.freeCtr ∧
    (State.takeOffset s off port).gradeS = s.gradeS ∧ (State.takeOffset s off port).cls = s.cls ∧
    (State.takeOffset s off port).layout = s.layout ∧ (State.takeOffset s off port).setup = s.setup ∧
    (State.takeOffset s off port).serial = s.serial ∧ (State.takeOffset s off port).bringing = s.bringing ∧
    (State.takeOffset s off port).lmap = s.lmap ∧ (State.takeOffset s off port).parts = s.parts ∧
    (State.takeOffset s off port).cores = s.cores ∧ (State.takeOffset s off port).slices = s.slices ∧
    (State.takeOffset s off port).hbmcs = s.hbmcs ∧ (State.takeOffset s off port).bdies = s.bdies ∧
    (State.takeOffset s off port).ports = s.ports ∧ (State.takeOffset s off port).nodes = s.nodes ∧
    (State.takeOffset s off port).chip = s.chip ∧ (State.takeOffset s off port).gov = s.gov ∧
    (State.takeOffset s off port).mmc = s.mmc ∧ (State.takeOffset s off port).gdbg = s.gdbg := by
  unfold State.takeOffset
  (repeat' split) <;> simp

end Sys2Proof.Machine
end

