-- ==== Sys2Proof/Laws/FrameDma.lean ====
section
/-! SUPPORT. Frames: which fields of the state each operation of Machine/Dma leaves as they are. -/

namespace Sys2Proof.Machine

@[simp] theorem State.setChn_frame (s : State) (ch : Chan) (x : Chn) :
    (State.setChn s ch x).pending = s.pending ∧ (State.setChn s ch x).freeCtr = s.freeCtr ∧
    (State.setChn s ch x).gradeS = s.gradeS ∧ (State.setChn s ch x).ft = s.ft ∧ (State.setChn s ch x).cls = s.cls ∧
    (State.setChn s ch x).layout = s.layout ∧ (State.setChn s ch x).setup = s.setup ∧
    (State.setChn s ch x).serial = s.serial ∧ (State.setChn s ch x).bringing = s.bringing ∧
    (State.setChn s ch x).lmap = s.lmap ∧ (State.setChn s ch x).parts = s.parts ∧
    (State.setChn s ch x).slices = s.slices ∧ (State.setChn s ch x).hbmcs = s.hbmcs ∧
    (State.setChn s ch x).ports = s.ports ∧ (State.setChn s ch x).nodes = s.nodes ∧
    (State.setChn s ch x).time = s.time ∧ (State.setChn s ch x).out = s.out ∧ (State.setChn s ch x).hif = s.hif ∧
    (State.setChn s ch x).chip = s.chip ∧ (State.setChn s ch x).gov = s.gov ∧ (State.setChn s ch x).mmc = s.mmc ∧
    (State.setChn s ch x).gdbg = s.gdbg := by
  unfold State.setChn
  (repeat' split) <;> simp

@[simp] theorem State.modRun_frame (s : State) (ch : Chan) (f : ChRun → ChRun) :
    (State.modRun s ch f).pending = s.pending ∧ (State.modRun s ch f).freeCtr = s.freeCtr ∧
    (State.modRun s ch f).gradeS = s.gradeS ∧ (State.modRun s ch f).ft = s.ft ∧ (State.modRun s ch f).cls = s.cls ∧
    (State.modRun s ch f).layout = s.layout ∧ (State.modRun s ch f).setup = s.setup ∧
    (State.modRun s ch f).serial = s.serial ∧ (State.modRun s ch f).bringing = s.bringing ∧
    (State.modRun s ch f).lmap = s.lmap ∧ (State.modRun s ch f).parts = s.parts ∧
    (State.modRun s ch f).slices = s.slices ∧ (State.modRun s ch f).hbmcs = s.hbmcs ∧
    (State.modRun s ch f).ports = s.ports ∧ (State.modRun s ch f).nodes = s.nodes ∧
    (State.modRun s ch f).time = s.time ∧ (State.modRun s ch f).out = s.out ∧ (State.modRun s ch f).hif = s.hif ∧
    (State.modRun s ch f).chip = s.chip ∧ (State.modRun s ch f).gov = s.gov ∧ (State.modRun s ch f).mmc = s.mmc ∧
    (State.modRun s ch f).gdbg = s.gdbg := by
  unfold State.modRun
  (repeat' split) <;> simp

@[simp] theorem State.modCur_frame (s : State) (ch : Chan) (f : Cur → Cur) :
    (State.modCur s ch f).pending = s.pending ∧ (State.modCur s ch f).freeCtr = s.freeCtr ∧
    (State.modCur s ch f).gradeS = s.gradeS ∧ (State.modCur s ch f).ft = s.ft ∧ (State.modCur s ch f).cls = s.cls ∧
    (State.modCur s ch f).layout = s.layout ∧ (State.modCur s ch f).setup = s.setup ∧
    (State.modCur s ch f).serial = s.serial ∧ (State.modCur s ch f).bringing = s.bringing ∧
    (State.modCur s ch f).lmap = s.lmap ∧ (State.modCur s ch f).parts = s.parts ∧
    (State.modCur s ch f).slices = s.slices ∧ (State.modCur s ch f).hbmcs = s.hbmcs ∧
    (State.modCur s ch f).ports = s.ports ∧ (State.modCur s ch f).nodes = s.nodes ∧
    (State.modCur s ch f).time = s.time ∧ (State.modCur s ch f).out = s.out ∧ (State.modCur s ch f).hif = s.hif ∧
    (State.modCur s ch f).chip = s.chip ∧ (State.modCur s ch f).gov = s.gov ∧ (State.modCur s ch f).mmc = s.mmc ∧
    (State.modCur s ch f).gdbg = s.gdbg := by
  unfold State.modCur
  (repeat' split) <;> simp

@[simp] theorem State.finishRun_frame (s : State) (ch : Chan) (o : Outcome) :
    (State.finishRun s ch o).pending = s.pending ∧ (State.finishRun s ch o).freeCtr = s.freeCtr ∧
    (State.finishRun s ch o).gradeS = s.gradeS ∧ (State.finishRun s ch o).ft = s.ft ∧
    (State.finishRun s ch o).cls = s.cls ∧ (State.finishRun s ch o).layout = s.layout ∧
    (State.finishRun s ch o).setup = s.setup ∧ (State.finishRun s ch o).serial = s.serial ∧
    (State.finishRun s ch o).bringing = s.bringing ∧ (State.finishRun s ch o).lmap = s.lmap ∧
    (State.finishRun s ch o).parts = s.parts ∧ (State.finishRun s ch o).slices = s.slices ∧
    (State.finishRun s ch o).hbmcs = s.hbmcs ∧ (State.finishRun s ch o).ports = s.ports ∧
    (State.finishRun s ch o).nodes = s.nodes ∧ (State.finishRun s ch o).time = s.time ∧
    (State.finishRun s ch o).out = s.out ∧ (State.finishRun s ch o).hif = s.hif ∧
    (State.finishRun s ch o).chip = s.chip ∧ (State.finishRun s ch o).gov = s.gov ∧
    (State.finishRun s ch o).mmc = s.mmc ∧ (State.finishRun s ch o).gdbg = s.gdbg := by
  unfold State.finishRun
  (repeat' split) <;> simp

@[simp] theorem State.startOnChannel_frame (s : State) (c i : Nat) (e : QEntry) (ch : Chan) (r : ChRun) :
    (State.startOnChannel s c i e ch r).pending = s.pending ∧ (State.startOnChannel s c i e ch r).gradeS = s.gradeS ∧
    (State.startOnChannel s c i e ch r).ft = s.ft ∧ (State.startOnChannel s c i e ch r).cls = s.cls ∧
    (State.startOnChannel s c i e ch r).layout = s.layout ∧ (State.startOnChannel s c i e ch r).setup = s.setup ∧
    (State.startOnChannel s c i e ch r).serial = s.serial ∧ (State.startOnChannel s c i e ch r).bringing = s.bringing ∧
    (State.startOnChannel s c i e ch r).lmap = s.lmap ∧ (State.startOnChannel s c i e ch r).parts = s.parts ∧
    (State.startOnChannel s c i e ch r).slices = s.slices ∧ (State.startOnChannel s c i e ch r).hbmcs = s.hbmcs ∧
    (State.startOnChannel s c i e ch r).ports = s.ports ∧ (State.startOnChannel s c i e ch r).nodes = s.nodes ∧
    (State.startOnChannel s c i e ch r).time = s.time ∧ (State.startOnChannel s c i e ch r).out = s.out ∧
    (State.startOnChannel s c i e ch r).hif = s.hif ∧ (State.startOnChannel s c i e ch r).chip = s.chip ∧
    (State.startOnChannel s c i e ch r).gov = s.gov ∧ (State.startOnChannel s c i e ch r).mmc = s.mmc ∧
    (State.startOnChannel s c i e ch r).gdbg = s.gdbg := by
  unfold State.startOnChannel
  (repeat' split) <;> simp

@[simp] theorem State.doDma_frame (s : State) (l : Nat) :
    (State.doDma s l).pending = s.pending ∧ (State.doDma s l).gradeS = s.gradeS ∧ (State.doDma s l).ft = s.ft ∧
    (State.doDma s l).cls = s.cls ∧ (State.doDma s l).layout = s.layout ∧ (State.doDma s l).setup = s.setup ∧
    (State.doDma s l).serial = s.serial ∧ (State.doDma s l).bringing = s.bringing ∧ (State.doDma s l).lmap = s.lmap ∧
    (State.doDma s l).parts = s.parts ∧ (State.doDma s l).slices = s.slices ∧ (State.doDma s l).hbmcs = s.hbmcs ∧
    (State.doDma s l).ports = s.ports ∧ (State.doDma s l).nodes = s.nodes ∧ (State.doDma s l).time = s.time ∧
    (State.doDma s l).out = s.out ∧ (State.doDma s l).hif = s.hif ∧ (State.doDma s l).chip = s.chip ∧
    (State.doDma s l).gov = s.gov ∧ (State.doDma s l).mmc = s.mmc ∧ (State.doDma s l).gdbg = s.gdbg := by
  unfold State.doDma
  (repeat' split) <;> simp

@[simp] theorem State.doBdma_frame (s : State) (l : Nat) :
    (State.doBdma s l).pending = s.pending ∧ (State.doBdma s l).gradeS = s.gradeS ∧ (State.doBdma s l).ft = s.ft ∧
    (State.doBdma s l).cls = s.cls ∧ (State.doBdma s l).layout = s.layout ∧ (State.doBdma s l).setup = s.setup ∧
    (State.doBdma s l).serial = s.serial ∧ (State.doBdma s l).bringing = s.bringing ∧
    (State.doBdma s l).lmap = s.lmap ∧ (State.doBdma s l).parts = s.parts ∧ (State.doBdma s l).slices = s.slices ∧
    (State.doBdma s l).hbmcs = s.hbmcs ∧ (State.doBdma s l).ports = s.ports ∧ (State.doBdma s l).nodes = s.nodes ∧
    (State.doBdma s l).time = s.time ∧ (State.doBdma s l).out = s.out ∧ (State.doBdma s l).hif = s.hif ∧
    (State.doBdma s l).chip = s.chip ∧ (State.doBdma s l).gov = s.gov ∧ (State.doBdma s l).mmc = s.mmc ∧
    (State.doBdma s l).gdbg = s.gdbg := by
  unfold State.doBdma
  (repeat' split) <;> simp

@[simp] theorem State.stopRun_frame (s : State) (ch : Chan) (addr : Nat) (write : Bool) (index cause module : Nat) (remote : Bool) :
    (State.stopRun s ch addr write index cause module remote).pending = s.pending ∧
    (State.stopRun s ch addr write index cause module remote).freeCtr = s.freeCtr ∧
    (State.stopRun s ch addr write index cause module remote).gradeS = s.gradeS ∧
    (State.stopRun s ch addr write index cause module remote).ft = s.ft ∧
    (State.stopRun s ch addr write index cause module remote).cls = s.cls ∧
    (State.stopRun s ch addr write index cause module remote).layout = s.layout ∧
    (State.stopRun s ch addr write index cause module remote).setup = s.setup ∧
    (State.stopRun s ch addr write index cause module remote).serial = s.serial ∧
    (State.stopRun s ch addr write index cause module remote).bringing = s.bringing ∧
    (State.stopRun s ch addr write index cause module remote).lmap = s.lmap ∧
    (State.stopRun s ch addr write index cause module remote).parts = s.parts ∧
    (State.stopRun s ch addr write index cause module remote).slices = s.slices ∧
    (State.stopRun s ch addr write index cause module remote).hbmcs = s.hbmcs ∧
    (State.stopRun s ch addr write index cause module remote).ports = s.ports ∧
    (State.stopRun s ch addr write index cause module remote).nodes = s.nodes ∧
    (State.stopRun s ch addr write index cause module remote).time = s.time ∧
    (State.stopRun s ch addr write index cause module remote).out = s.out ∧
    (State.stopRun s ch addr write index cause module remote).hif = s.hif ∧
    (State.stopRun s ch addr write index cause module remote).chip = s.chip ∧
    (State.stopRun s ch addr write index cause module remote).gov = s.gov ∧
    (State.stopRun s ch addr write index cause module remote).mmc = s.mmc ∧
    (State.stopRun s ch addr write index cause module remote).gdbg = s.gdbg := by
  unfold State.stopRun
  (repeat' split) <;> simp

@[simp] theorem State.takeBatch_frame (s : State) (ch : Chan) (r : ChRun) (bs : Bytes) :
    (State.takeBatch s ch r bs).pending = s.pending ∧ (State.takeBatch s ch r bs).freeCtr = s.freeCtr ∧
    (State.takeBatch s ch r bs).gradeS = s.gradeS ∧ (State.takeBatch s ch r bs).ft = s.ft ∧
    (State.takeBatch s ch r bs).cls = s.cls ∧ (State.takeBatch s ch r bs).layout = s.layout ∧
    (State.takeBatch s ch r bs).setup = s.setup ∧ (State.takeBatch s ch r bs).serial = s.serial ∧
    (State.takeBatch s ch r bs).bringing = s.bringing ∧ (State.takeBatch s ch r bs).lmap = s.lmap ∧
    (State.takeBatch s ch r bs).parts = s.parts ∧ (State.takeBatch s ch r bs).slices = s.slices ∧
    (State.takeBatch s ch r bs).hbmcs = s.hbmcs ∧ (State.takeBatch s ch r bs).ports = s.ports ∧
    (State.takeBatch s ch r bs).nodes = s.nodes ∧ (State.takeBatch s ch r bs).time = s.time ∧
    (State.takeBatch s ch r bs).out = s.out ∧ (State.takeBatch s ch r bs).hif = s.hif ∧
    (State.takeBatch s ch r bs).chip = s.chip ∧ (State.takeBatch s ch r bs).gov = s.gov ∧
    (State.takeBatch s ch r bs).mmc = s.mmc ∧ (State.takeBatch s ch r bs).gdbg = s.gdbg := by
  unfold State.takeBatch
  simp
  (repeat' split) <;> simp

@[simp] theorem State.doDescriptorFetch_frame (s : State) (ch : Chan) :
    (State.doDescriptorFetch s ch).pending = s.pending ∧ (State.doDescriptorFetch s ch).gradeS = s.gradeS ∧
    (State.doDescriptorFetch s ch).ft = s.ft ∧ (State.doDescriptorFetch s ch).cls = s.cls ∧
    (State.doDescriptorFetch s ch).layout = s.layout ∧ (State.doDescriptorFetch s ch).setup = s.setup ∧
    (State.doDescriptorFetch s ch).serial = s.serial ∧ (State.doDescriptorFetch s ch).bringing = s.bringing ∧
    (State.doDescriptorFetch s ch).lmap = s.lmap ∧ (State.doDescriptorFetch s ch).ports = s.ports ∧
    (State.doDescriptorFetch s ch).nodes = s.nodes ∧ (State.doDescriptorFetch s ch).time = s.time ∧
    (State.doDescriptorFetch s ch).gov = s.gov ∧ (State.doDescriptorFetch s ch).mmc = s.mmc := by
  unfold State.doDescriptorFetch
  simp
  (repeat' split) <;> simp

@[simp] theorem State.beginDesc_frame (s : State) (ch : Chan) (r : ChRun) (d : Desc) (lens : List (Nat × Nat)) (redo : Option Nat) :
    (State.beginDesc s ch r d lens redo).pending = s.pending ∧ (State.beginDesc s ch r d lens redo).gradeS = s.gradeS ∧
    (State.beginDesc s ch r d lens redo).ft = s.ft ∧ (State.beginDesc s ch r d lens redo).cls = s.cls ∧
    (State.beginDesc s ch r d lens redo).layout = s.layout ∧ (State.beginDesc s ch r d lens redo).setup = s.setup ∧
    (State.beginDesc s ch r d lens redo).serial = s.serial ∧
    (State.beginDesc s ch r d lens redo).bringing = s.bringing ∧ (State.beginDesc s ch r d lens redo).lmap = s.lmap ∧
    (State.beginDesc s ch r d lens redo).ports = s.ports ∧ (State.beginDesc s ch r d lens redo).nodes = s.nodes ∧
    (State.beginDesc s ch r d lens redo).time = s.time ∧ (State.beginDesc s ch r d lens redo).gov = s.gov ∧
    (State.beginDesc s ch r d lens redo).mmc = s.mmc := by
  unfold State.beginDesc
  simp
  (repeat' split) <;> simp

@[simp] theorem State.doDescriptorStart_frame (s : State) (ch : Chan) :
    (State.doDescriptorStart s ch).pending = s.pending ∧ (State.doDescriptorStart s ch).gradeS = s.gradeS ∧
    (State.doDescriptorStart s ch).ft = s.ft ∧ (State.doDescriptorStart s ch).cls = s.cls ∧
    (State.doDescriptorStart s ch).layout = s.layout ∧ (State.doDescriptorStart s ch).setup = s.setup ∧
    (State.doDescriptorStart s ch).serial = s.serial ∧ (State.doDescriptorStart s ch).bringing = s.bringing ∧
    (State.doDescriptorStart s ch).lmap = s.lmap ∧ (State.doDescriptorStart s ch).ports = s.ports ∧
    (State.doDescriptorStart s ch).nodes = s.nodes ∧ (State.doDescriptorStart s ch).time = s.time ∧
    (State.doDescriptorStart s ch).gov = s.gov ∧ (State.doDescriptorStart s ch).mmc = s.mmc := by
  unfold State.doDescriptorStart
  (repeat' split) <;> simp

@[simp] theorem State.sendRemote_frame (s : State) (ch : Chan) (r : ChRun) (d : Desc) (kind addr len : Nat) (data : Bytes) (write : Bool) (index : Nat) :
    (State.sendRemote s ch r d kind addr len data write index).pending = s.pending ∧
    (State.sendRemote s ch r d kind addr len data write index).freeCtr = s.freeCtr ∧
    (State.sendRemote s ch r d kind addr len data write index).gradeS = s.gradeS ∧
    (State.sendRemote s ch r d kind addr len data write index).ft = s.ft ∧
    (State.sendRemote s ch r d kind addr len data write index).cls = s.cls ∧
    (State.sendRemote s ch r d kind addr len data write index).layout = s.layout ∧
    (State.sendRemote s ch r d kind addr len data write index).setup = s.setup ∧
    (State.sendRemote s ch r d kind addr len data write index).serial = s.serial ∧
    (State.sendRemote s ch r d kind addr len data write index).bringing = s.bringing ∧
    (State.sendRemote s ch r d kind addr len data write index).lmap = s.lmap ∧
    (State.sendRemote s ch r d kind addr len data write index).parts = s.parts ∧
    (State.sendRemote s ch r d kind addr len data write index).slices = s.slices ∧
    (State.sendRemote s ch r d kind addr len data write index).hbmcs = s.hbmcs ∧
    (State.sendRemote s ch r d kind addr len data write index).time = s.time ∧
    (State.sendRemote s ch r d kind addr len data write index).chip = s.chip ∧
    (State.sendRemote s ch r d kind addr len data write index).gov = s.gov ∧
    (State.sendRemote s ch r d kind addr len data write index).mmc = s.mmc := by
  unfold State.sendRemote
  (repeat' split) <;> simp

@[simp] theorem State.watchRead_frame (s : State) (ch : Chan) (r : ChRun) (c : Cur) (line : Nat) :
    (State.watchRead s ch r c line).pending = s.pending ∧ (State.watchRead s ch r c line).gradeS = s.gradeS ∧
    (State.watchRead s ch r c line).ft = s.ft ∧ (State.watchRead s ch r c line).cls = s.cls ∧
    (State.watchRead s ch r c line).layout = s.layout ∧ (State.watchRead s ch r c line).setup = s.setup ∧
    (State.watchRead s ch r c line).serial = s.serial ∧ (State.watchRead s ch r c line).bringing = s.bringing ∧
    (State.watchRead s ch r c line).lmap = s.lmap ∧ (State.watchRead s ch r c line).parts = s.parts ∧
    (State.watchRead s ch r c line).slices = s.slices ∧ (State.watchRead s ch r c line).hbmcs = s.hbmcs ∧
    (State.watchRead s ch r c line).bdies = s.bdies ∧ (State.watchRead s ch r c line).ports = s.ports ∧
    (State.watchRead s ch r c line).nodes = s.nodes ∧ (State.watchRead s ch r c line).time = s.time ∧
    (State.watchRead s ch r c line).out = s.out ∧ (State.watchRead s ch r c line).hif = s.hif ∧
    (State.watchRead s ch r c line).chip = s.chip ∧ (State.watchRead s ch r c line).gov = s.gov ∧
    (State.watchRead s ch r c line).mmc = s.mmc ∧ (State.watchRead s ch r c line).gdbg = s.gdbg := by
  unfold State.watchRead
  (repeat' split) <;> simp

@[simp] theorem State.endDesc_frame (s : State) (ch : Chan) :
    (State.endDesc s ch).pending = s.pending ∧ (State.endDesc s ch).freeCtr = s.freeCtr ∧
    (State.endDesc s ch).gradeS = s.gradeS ∧ (State.endDesc s ch).ft = s.ft ∧ (State.endDesc s ch).cls = s.cls ∧
    (State.endDesc s ch).layout = s.layout ∧ (State.endDesc s ch).setup = s.setup ∧
    (State.endDesc s ch).serial = s.serial ∧ (State.endDesc s ch).bringing = s.bringing ∧
    (State.endDesc s ch).lmap = s.lmap ∧ (State.endDesc s ch).parts = s.parts ∧
    (State.endDesc s ch).slices = s.slices ∧ (State.endDesc s ch).hbmcs = s.hbmcs ∧
    (State.endDesc s ch).ports = s.ports ∧ (State.endDesc s ch).nodes = s.nodes ∧ (State.endDesc s ch).time = s.time ∧
    (State.endDesc s ch).out = s.out ∧ (State.endDesc s ch).hif = s.hif ∧ (State.endDesc s ch).chip = s.chip ∧
    (State.endDesc s ch).gov = s.gov ∧ (State.endDesc s ch).mmc = s.mmc ∧ (State.endDesc s ch).gdbg = s.gdbg := by
  unfold State.endDesc
  (repeat' split) <;> simp

@[simp] theorem State.rowRead_frame (s : State) (ch : Chan) (c : Cur) :
    (State.rowRead s ch c).pending = s.pending ∧ (State.rowRead s ch c).freeCtr = s.freeCtr ∧
    (State.rowRead s ch c).gradeS = s.gradeS ∧ (State.rowRead s ch c).ft = s.ft ∧ (State.rowRead s ch c).cls = s.cls ∧
    (State.rowRead s ch c).layout = s.layout ∧ (State.rowRead s ch c).setup = s.setup ∧
    (State.rowRead s ch c).serial = s.serial ∧ (State.rowRead s ch c).bringing = s.bringing ∧
    (State.rowRead s ch c).lmap = s.lmap ∧ (State.rowRead s ch c).parts = s.parts ∧
    (State.rowRead s ch c).slices = s.slices ∧ (State.rowRead s ch c).hbmcs = s.hbmcs ∧
    (State.rowRead s ch c).ports = s.ports ∧ (State.rowRead s ch c).nodes = s.nodes ∧
    (State.rowRead s ch c).time = s.time ∧ (State.rowRead s ch c).out = s.out ∧ (State.rowRead s ch c).hif = s.hif ∧
    (State.rowRead s ch c).chip = s.chip ∧ (State.rowRead s ch c).gov = s.gov ∧ (State.rowRead s ch c).mmc = s.mmc ∧
    (State.rowRead s ch c).gdbg = s.gdbg := by
  unfold State.rowRead
  (repeat' split) <;> simp

@[simp] theorem State.gotRead_frame (s : State) (ch : Chan) (bs : Bytes) :
    (State.gotRead s ch bs).pending = s.pending ∧ (State.gotRead s ch bs).gradeS = s.gradeS ∧
    (State.gotRead s ch bs).ft = s.ft ∧ (State.gotRead s ch bs).cls = s.cls ∧
    (State.gotRead s ch bs).layout = s.layout ∧ (State.gotRead s ch bs).setup = s.setup ∧
    (State.gotRead s ch bs).serial = s.serial ∧ (State.gotRead s ch bs).bringing = s.bringing ∧
    (State.gotRead s ch bs).lmap = s.lmap ∧ (State.gotRead s ch bs).parts = s.parts ∧
    (State.gotRead s ch bs).slices = s.slices ∧ (State.gotRead s ch bs).hbmcs = s.hbmcs ∧
    (State.gotRead s ch bs).ports = s.ports ∧ (State.gotRead s ch bs).nodes = s.nodes ∧
    (State.gotRead s ch bs).time = s.time ∧ (State.gotRead s ch bs).out = s.out ∧ (State.gotRead s ch bs).hif = s.hif ∧
    (State.gotRead s ch bs).chip = s.chip ∧ (State.gotRead s ch bs).gov = s.gov ∧ (State.gotRead s ch bs).mmc = s.mmc ∧
    (State.gotRead s ch bs).gdbg = s.gdbg := by
  unfold State.gotRead
  (repeat' split) <;> simp

@[simp] theorem State.gotWrite_frame (s : State) (ch : Chan) :
    (State.gotWrite s ch).pending = s.pending ∧ (State.gotWrite s ch).freeCtr = s.freeCtr ∧
    (State.gotWrite s ch).gradeS = s.gradeS ∧ (State.gotWrite s ch).ft = s.ft ∧ (State.gotWrite s ch).cls = s.cls ∧
    (State.gotWrite s ch).layout = s.layout ∧ (State.gotWrite s ch).setup = s.setup ∧
    (State.gotWrite s ch).serial = s.serial ∧ (State.gotWrite s ch).bringing = s.bringing ∧
    (State.gotWrite s ch).lmap = s.lmap ∧ (State.gotWrite s ch).parts = s.parts ∧
    (State.gotWrite s ch).slices = s.slices ∧ (State.gotWrite s ch).hbmcs = s.hbmcs ∧
    (State.gotWrite s ch).ports = s.ports ∧ (State.gotWrite s ch).nodes = s.nodes ∧
    (State.gotWrite s ch).time = s.time ∧ (State.gotWrite s ch).out = s.out ∧ (State.gotWrite s ch).hif = s.hif ∧
    (State.gotWrite s ch).chip = s.chip ∧ (State.gotWrite s ch).gov = s.gov ∧ (State.gotWrite s ch).mmc = s.mmc ∧
    (State.gotWrite s ch).gdbg = s.gdbg := by
  unfold State.gotWrite
  (repeat' split) <;> simp

@[simp] theorem State.locReadFlt_frame (s : State) (p : Nat) (l : Loc) (n : Nat) (flt : MemFault) :
    (State.locReadFlt s p l n flt).1.pending = s.pending ∧ (State.locReadFlt s p l n flt).1.gradeS = s.gradeS ∧
    (State.locReadFlt s p l n flt).1.ft = s.ft ∧ (State.locReadFlt s p l n flt).1.cls = s.cls ∧
    (State.locReadFlt s p l n flt).1.layout = s.layout ∧ (State.locReadFlt s p l n flt).1.setup = s.setup ∧
    (State.locReadFlt s p l n flt).1.serial = s.serial ∧ (State.locReadFlt s p l n flt).1.bringing = s.bringing ∧
    (State.locReadFlt s p l n flt).1.lmap = s.lmap ∧ (State.locReadFlt s p l n flt).1.cores = s.cores ∧
    (State.locReadFlt s p l n flt).1.bdies = s.bdies ∧ (State.locReadFlt s p l n flt).1.ports = s.ports ∧
    (State.locReadFlt s p l n flt).1.nodes = s.nodes ∧ (State.locReadFlt s p l n flt).1.time = s.time ∧
    (State.locReadFlt s p l n flt).1.gov = s.gov ∧ (State.locReadFlt s p l n flt).1.mmc = s.mmc := by
  unfold State.locReadFlt
  (repeat' split) <;> simp

@[simp] theorem State.locWriteFlt_frame (s : State) (p : Nat) (l : Loc) (bs : Bytes) (flt : MemFault) :
    (State.locWriteFlt s p l bs flt).1.pending = s.pending ∧ (State.locWriteFlt s p l bs flt).1.gradeS = s.gradeS ∧
    (State.locWriteFlt s p l bs flt).1.ft = s.ft ∧ (State.locWriteFlt s p l bs flt).1.cls = s.cls ∧
    (State.locWriteFlt s p l bs flt).1.layout = s.layout ∧ (State.locWriteFlt s p l bs flt).1.setup = s.setup ∧
    (State.locWriteFlt s p l bs flt).1.serial = s.serial ∧ (State.locWriteFlt s p l bs flt).1.bringing = s.bringing ∧
    (State.locWriteFlt s p l bs flt).1.lmap = s.lmap ∧ (State.locWriteFlt s p l bs flt).1.bdies = s.bdies ∧
    (State.locWriteFlt s p l bs flt).1.ports = s.ports ∧ (State.locWriteFlt s p l bs flt).1.nodes = s.nodes ∧
    (State.locWriteFlt s p l bs flt).1.time = s.time ∧ (State.locWriteFlt s p l bs flt).1.gov = s.gov ∧
    (State.locWriteFlt s p l bs flt).1.mmc = s.mmc := by
  unfold State.locWriteFlt
  (repeat' split) <;> simp

@[simp] theorem State.doReadRequest_frame (s : State) (ch : Chan) (flt : MemFault) :
    (State.doReadRequest s ch flt).pending = s.pending ∧ (State.doReadRequest s ch flt).gradeS = s.gradeS ∧
    (State.doReadRequest s ch flt).ft = s.ft ∧ (State.doReadRequest s ch flt).cls = s.cls ∧
    (State.doReadRequest s ch flt).layout = s.layout ∧ (State.doReadRequest s ch flt).setup = s.setup ∧
    (State.doReadRequest s ch flt).serial = s.serial ∧ (State.doReadRequest s ch flt).bringing = s.bringing ∧
    (State.doReadRequest s ch flt).lmap = s.lmap ∧ (State.doReadRequest s ch flt).time = s.time ∧
    (State.doReadRequest s ch flt).gov = s.gov ∧ (State.doReadRequest s ch flt).mmc = s.mmc := by
  unfold State.doReadRequest
  simp
  (repeat' split) <;> simp

@[simp] theorem State.wroteEvents_frame (s : State) (c : Nat) (l : Loc) (n : Nat) :
    (State.wroteEvents s c l n).pending = s.pending ∧ (State.wroteEvents s c l n).freeCtr = s.freeCtr ∧
    (State.wroteEvents s c l n).gradeS = s.gradeS ∧ (State.wroteEvents s c l n).ft = s.ft ∧
    (State.wroteEvents s c l n).cls = s.cls ∧ (State.wroteEvents s c l n).layout = s.layout ∧
    (State.wroteEvents s c l n).setup = s.setup ∧ (State.wroteEvents s c l n).serial = s.serial ∧
    (State.wroteEvents s c l n).bringing = s.bringing ∧ (State.wroteEvents s c l n).lmap = s.lmap ∧
    (State.wroteEvents s c l n).parts = s.parts ∧ (State.wroteEvents s c l n).slices = s.slices ∧
    (State.wroteEvents s c l n).hbmcs = s.hbmcs ∧ (State.wroteEvents s c l n).bdies = s.bdies ∧
    (State.wroteEvents s c l n).ports = s.ports ∧ (State.wroteEvents s c l n).nodes = s.nodes ∧
    (State.wroteEvents s c l n).time = s.time ∧ (State.wroteEvents s c l n).out = s.out ∧
    (State.wroteEvents s c l n).hif = s.hif ∧ (State.wroteEvents s c l n).chip = s.chip ∧
    (State.wroteEvents s c l n).gov = s.gov ∧ (State.wroteEvents s c l n).mmc = s.mmc ∧
    (State.wroteEvents s c l n).gdbg = s.gdbg := by
  unfold State.wroteEvents
  (repeat' split) <;> simp

@[simp] theorem State.doWriteRequest_frame (s : State) (ch : Chan) (flt : MemFault) :
    (State.doWriteRequest s ch flt).pending = s.pending ∧ (State.doWriteRequest s ch flt).gradeS = s.gradeS ∧
    (State.doWriteRequest s ch flt).ft = s.ft ∧ (State.doWriteRequest s ch flt).cls = s.cls ∧
    (State.doWriteRequest s ch flt).layout = s.layout ∧ (State.doWriteRequest s ch flt).setup = s.setup ∧
    (State.doWriteRequest s ch flt).serial = s.serial ∧ (State.doWriteRequest s ch flt).bringing = s.bringing ∧
    (State.doWriteRequest s ch flt).lmap = s.lmap ∧ (State.doWriteRequest s ch flt).time = s.time ∧
    (State.doWriteRequest s ch flt).gov = s.gov ∧ (State.doWriteRequest s ch flt).mmc = s.mmc := by
  unfold State.doWriteRequest
  simp
  (repeat' split) <;> simp

@[simp] theorem State.doCrcFinish_frame (s : State) (ch : Chan) :
    (State.doCrcFinish s ch).pending = s.pending ∧ (State.doCrcFinish s ch).gradeS = s.gradeS ∧
    (State.doCrcFinish s ch).ft = s.ft ∧ (State.doCrcFinish s ch).cls = s.cls ∧
    (State.doCrcFinish s ch).layout = s.layout ∧ (State.doCrcFinish s ch).setup = s.setup ∧
    (State.doCrcFinish s ch).serial = s.serial ∧ (State.doCrcFinish s ch).bringing = s.bringing ∧
    (State.doCrcFinish s ch).lmap = s.lmap ∧ (State.doCrcFinish s ch).ports = s.ports ∧
    (State.doCrcFinish s ch).nodes = s.nodes ∧ (State.doCrcFinish s ch).time = s.time ∧
    (State.doCrcFinish s ch).gov = s.gov ∧ (State.doCrcFinish s ch).mmc = s.mmc := by
  unfold State.doCrcFinish
  simp
  (repeat' split) <;> simp

@[simp] theorem State.doDmaBusError_frame (s : State) (ch : Chan) :
    (State.doDmaBusError s ch).pending = s.pending ∧ (State.doDmaBusError s ch).freeCtr = s.freeCtr ∧
    (State.doDmaBusError s ch).gradeS = s.gradeS ∧ (State.doDmaBusError s ch).ft = s.ft ∧
    (State.doDmaBusError s ch).cls = s.cls ∧ (State.doDmaBusError s ch).layout = s.layout ∧
    (State.doDmaBusError s ch).setup = s.setup ∧ (State.doDmaBusError s ch).serial = s.serial ∧
    (State.doDmaBusError s ch).bringing = s.bringing ∧ (State.doDmaBusError s ch).lmap = s.lmap ∧
    (State.doDmaBusError s ch).parts = s.parts ∧ (State.doDmaBusError s ch).slices = s.slices ∧
    (State.doDmaBusError s ch).hbmcs = s.hbmcs ∧ (State.doDmaBusError s ch).ports = s.ports ∧
    (State.doDmaBusError s ch).nodes = s.nodes ∧ (State.doDmaBusError s ch).time = s.time ∧
    (State.doDmaBusError s ch).out = s.out ∧ (State.doDmaBusError s ch).hif = s.hif ∧
    (State.doDmaBusError s ch).chip = s.chip ∧ (State.doDmaBusError s ch).gov = s.gov ∧
    (State.doDmaBusError s ch).mmc = s.mmc ∧ (State.doDmaBusError s ch).gdbg = s.gdbg := by
  unfold State.doDmaBusError
  (repeat' split) <;> simp

@[simp] theorem State.lostWrite_frame (s : State) (p : Nat) (l : Loc) (bs : Bytes) :
    (State.lostWrite s p l bs).pending = s.pending ∧ (State.lostWrite s p l bs).gradeS = s.gradeS ∧
    (State.lostWrite s p l bs).ft = s.ft ∧ (State.lostWrite s p l bs).cls = s.cls ∧
    (State.lostWrite s p l bs).layout = s.layout ∧ (State.lostWrite s p l bs).setup = s.setup ∧
    (State.lostWrite s p l bs).serial = s.serial ∧ (State.lostWrite s p l bs).bringing = s.bringing ∧
    (State.lostWrite s p l bs).lmap = s.lmap ∧ (State.lostWrite s p l bs).bdies = s.bdies ∧
    (State.lostWrite s p l bs).ports = s.ports ∧ (State.lostWrite s p l bs).nodes = s.nodes ∧
    (State.lostWrite s p l bs).time = s.time ∧ (State.lostWrite s p l bs).gov = s.gov ∧
    (State.lostWrite s p l bs).mmc = s.mmc := by
  unfold State.lostWrite
  (repeat' split) <;> simp

@[simp] theorem State.doRequestWatchdog_frame (s : State) (ch : Chan) :
    (State.doRequestWatchdog s ch).pending = s.pending ∧ (State.doRequestWatchdog s ch).gradeS = s.gradeS ∧
    (State.doRequestWatchdog s ch).ft = s.ft ∧ (State.doRequestWatchdog s ch).cls = s.cls ∧
    (State.doRequestWatchdog s ch).layout = s.layout ∧ (State.doRequestWatchdog s ch).setup = s.setup ∧
    (State.doRequestWatchdog s ch).serial = s.serial ∧ (State.doRequestWatchdog s ch).bringing = s.bringing ∧
    (State.doRequestWatchdog s ch).lmap = s.lmap ∧ (State.doRequestWatchdog s ch).ports = s.ports ∧
    (State.doRequestWatchdog s ch).time = s.time ∧ (State.doRequestWatchdog s ch).gov = s.gov ∧
    (State.doRequestWatchdog s ch).mmc = s.mmc := by
  unfold State.doRequestWatchdog
  (repeat' split) <;> simp

@[simp] theorem State.doClear_frame (s : State) (ch : Chan) :
    (State.doClear s ch).pending = s.pending ∧ (State.doClear s ch).freeCtr = s.freeCtr ∧
    (State.doClear s ch).gradeS = s.gradeS ∧ (State.doClear s ch).ft = s.ft ∧ (State.doClear s ch).cls = s.cls ∧
    (State.doClear s ch).layout = s.layout ∧ (State.doClear s ch).setup = s.setup ∧
    (State.doClear s ch).serial = s.serial ∧ (State.doClear s ch).bringing = s.bringing ∧
    (State.doClear s ch).lmap = s.lmap ∧ (State.doClear s ch).parts = s.parts ∧
    (State.doClear s ch).slices = s.slices ∧ (State.doClear s ch).hbmcs = s.hbmcs ∧
    (State.doClear s ch).ports = s.ports ∧ (State.doClear s ch).nodes = s.nodes ∧ (State.doClear s ch).time = s.time ∧
    (State.doClear s ch).out = s.out ∧ (State.doClear s ch).hif = s.hif ∧ (State.doClear s ch).chip = s.chip ∧
    (State.doClear s ch).gov = s.gov ∧ (State.doClear s ch).mmc = s.mmc ∧ (State.doClear s ch).gdbg = s.gdbg := by
  unfold State.doClear
  (repeat' split) <;> simp

@[simp] theorem State.doStaleCheck_frame (s : State) (l q : Nat) :
    (State.doStaleCheck s l q).pending = s.pending ∧ (State.doStaleCheck s l q).gradeS = s.gradeS ∧
    (State.doStaleCheck s l q).ft = s.ft ∧ (State.doStaleCheck s l q).cls = s.cls ∧
    (State.doStaleCheck s l q).layout = s.layout ∧ (State.doStaleCheck s l q).setup = s.setup ∧
    (State.doStaleCheck s l q).serial = s.serial ∧ (State.doStaleCheck s l q).bringing = s.bringing ∧
    (State.doStaleCheck s l q).lmap = s.lmap ∧ (State.doStaleCheck s l q).parts = s.parts ∧
    (State.doStaleCheck s l q).slices = s.slices ∧ (State.doStaleCheck s l q).hbmcs = s.hbmcs ∧
    (State.doStaleCheck s l q).ports = s.ports ∧ (State.doStaleCheck s l q).nodes = s.nodes ∧
    (State.doStaleCheck s l q).time = s.time ∧ (State.doStaleCheck s l q).out = s.out ∧
    (State.doStaleCheck s l q).hif = s.hif ∧ (State.doStaleCheck s l q).chip = s.chip ∧
    (State.doStaleCheck s l q).gov = s.gov ∧ (State.doStaleCheck s l q).mmc = s.mmc ∧
    (State.doStaleCheck s l q).gdbg = s.gdbg := by
  unfold State.doStaleCheck
  simp
  (repeat' split) <;> simp

end Sys2Proof.Machine
end

