-- ==== Sys2Proof/Laws/FrameExchange.lean ====
section
/-! SUPPORT. Frames: which fields of the state each operation of Machine/Exchange, ExchangeCmds leaves as they are. -/

namespace Sys2Proof.Machine

@[simp] theorem State.modExch_frame (s : State) (p : Nat) (f : Exch → Exch) :
    (State.modExch s p f).pending = s.pending ∧ (State.modExch s p f).freeCtr = s.freeCtr ∧
    (State.modExch s p f).gradeS = s.gradeS ∧ (State.modExch s p f).ft = s.ft ∧ (State.modExch s p f).cls = s.cls ∧
    (State.modExch s p f).layout = s.layout ∧ (State.modExch s p f).setup = s.setup ∧
    (State.modExch s p f).serial = s.serial ∧ (State.modExch s p f).bringing = s.bringing ∧
    (State.modExch s p f).lmap = s.lmap ∧ (State.modExch s p f).cores = s.cores ∧
    (State.modExch s p f).slices = s.slices ∧ (State.modExch s p f).hbmcs = s.hbmcs ∧
    (State.modExch s p f).bdies = s.bdies ∧ (State.modExch s p f).ports = s.ports ∧
    (State.modExch s p f).nodes = s.nodes ∧ (State.modExch s p f).time = s.time ∧ (State.modExch s p f).out = s.out ∧
    (State.modExch s p f).hif = s.hif ∧ (State.modExch s p f).chip = s.chip ∧ (State.modExch s p f).gov = s.gov ∧
    (State.modExch s p f).mmc = s.mmc ∧ (State.modExch s p f).gdbg = s.gdbg := by
  unfold State.modExch
  (repeat' split) <;> simp

@[simp] theorem State.exchEvent_frame (s : State) (p code v : Nat) :
    (State.exchEvent s p code v).pending = s.pending ∧ (State.exchEvent s p code v).freeCtr = s.freeCtr ∧
    (State.exchEvent s p code v).gradeS = s.gradeS ∧ (State.exchEvent s p code v).ft = s.ft ∧
    (State.exchEvent s p code v).cls = s.cls ∧ (State.exchEvent s p code v).layout = s.layout ∧
    (State.exchEvent s p code v).setup = s.setup ∧ (State.exchEvent s p code v).serial = s.serial ∧
    (State.exchEvent s p code v).bringing = s.bringing ∧ (State.exchEvent s p code v).lmap = s.lmap ∧
    (State.exchEvent s p code v).parts = s.parts ∧ (State.exchEvent s p code v).cores = s.cores ∧
    (State.exchEvent s p code v).slices = s.slices ∧ (State.exchEvent s p code v).hbmcs = s.hbmcs ∧
    (State.exchEvent s p code v).bdies = s.bdies ∧ (State.exchEvent s p code v).ports = s.ports ∧
    (State.exchEvent s p code v).nodes = s.nodes ∧ (State.exchEvent s p code v).time = s.time ∧
    (State.exchEvent s p code v).chip = s.chip ∧ (State.exchEvent s p code v).gov = s.gov ∧
    (State.exchEvent s p code v).mmc = s.mmc ∧ (State.exchEvent s p code v).gdbg = s.gdbg := by
  unfold State.exchEvent
  (repeat' split) <;> simp

@[simp] theorem State.sendCtrl_frame (s : State) (p op arg : Nat) (dest : Option Nat) (body : Bytes) :
    (State.sendCtrl s p op arg dest body).pending = s.pending ∧
    (State.sendCtrl s p op arg dest body).freeCtr = s.freeCtr ∧
    (State.sendCtrl s p op arg dest body).gradeS = s.gradeS ∧ (State.sendCtrl s p op arg dest body).ft = s.ft ∧
    (State.sendCtrl s p op arg dest body).cls = s.cls ∧ (State.sendCtrl s p op arg dest body).layout = s.layout ∧
    (State.sendCtrl s p op arg dest body).setup = s.setup ∧ (State.sendCtrl s p op arg dest body).serial = s.serial ∧
    (State.sendCtrl s p op arg dest body).bringing = s.bringing ∧ (State.sendCtrl s p op arg dest body).lmap = s.lmap ∧
    (State.sendCtrl s p op arg dest body).parts = s.parts ∧ (State.sendCtrl s p op arg dest body).cores = s.cores ∧
    (State.sendCtrl s p op arg dest body).slices = s.slices ∧ (State.sendCtrl s p op arg dest body).hbmcs = s.hbmcs ∧
    (State.sendCtrl s p op arg dest body).bdies = s.bdies ∧ (State.sendCtrl s p op arg dest body).ports = s.ports ∧
    (State.sendCtrl s p op arg dest body).time = s.time ∧ (State.sendCtrl s p op arg dest body).out = s.out ∧
    (State.sendCtrl s p op arg dest body).hif = s.hif ∧ (State.sendCtrl s p op arg dest body).chip = s.chip ∧
    (State.sendCtrl s p op arg dest body).gov = s.gov ∧ (State.sendCtrl s p op arg dest body).mmc = s.mmc ∧
    (State.sendCtrl s p op arg dest body).gdbg = s.gdbg := by
  unfold State.sendCtrl
  (repeat' split) <;> simp

@[simp] theorem State.sendSeg_frame (s : State) (p : Nat) (t : ExTable) (rank tries : Nat) (final : Bool) (g : ChainSeg) :
    (State.sendSeg s p t rank tries final g).1.pending = s.pending ∧
    (State.sendSeg s p t rank tries final g).1.freeCtr = s.freeCtr ∧
    (State.sendSeg s p t rank tries final g).1.gradeS = s.gradeS ∧
    (State.sendSeg s p t rank tries final g).1.ft = s.ft ∧ (State.sendSeg s p t rank tries final g).1.cls = s.cls ∧
    (State.sendSeg s p t rank tries final g).1.layout = s.layout ∧
    (State.sendSeg s p t rank tries final g).1.setup = s.setup ∧
    (State.sendSeg s p t rank tries final g).1.serial = s.serial ∧
    (State.sendSeg s p t rank tries final g).1.bringing = s.bringing ∧
    (State.sendSeg s p t rank tries final g).1.lmap = s.lmap ∧
    (State.sendSeg s p t rank tries final g).1.cores = s.cores ∧
    (State.sendSeg s p t rank tries final g).1.slices = s.slices ∧
    (State.sendSeg s p t rank tries final g).1.hbmcs = s.hbmcs ∧
    (State.sendSeg s p t rank tries final g).1.bdies = s.bdies ∧
    (State.sendSeg s p t rank tries final g).1.time = s.time ∧
    (State.sendSeg s p t rank tries final g).1.chip = s.chip ∧ (State.sendSeg s p t rank tries final g).1.gov = s.gov ∧
    (State.sendSeg s p t rank tries final g).1.mmc = s.mmc := by
  unfold State.sendSeg
  (repeat' split) <;> simp

@[simp] theorem State.words_frame (s : State) (p a n : Nat) :
    (State.words s p a n).1.pending = s.pending ∧ (State.words s p a n).1.gradeS = s.gradeS ∧
    (State.words s p a n).1.ft = s.ft ∧ (State.words s p a n).1.cls = s.cls ∧
    (State.words s p a n).1.layout = s.layout ∧ (State.words s p a n).1.setup = s.setup ∧
    (State.words s p a n).1.serial = s.serial ∧ (State.words s p a n).1.bringing = s.bringing ∧
    (State.words s p a n).1.lmap = s.lmap ∧ (State.words s p a n).1.cores = s.cores ∧
    (State.words s p a n).1.bdies = s.bdies ∧ (State.words s p a n).1.ports = s.ports ∧
    (State.words s p a n).1.nodes = s.nodes ∧ (State.words s p a n).1.time = s.time ∧
    (State.words s p a n).1.gov = s.gov ∧ (State.words s p a n).1.mmc = s.mmc := by
  unfold State.words
  (repeat' split) <;> simp

@[simp] theorem State.putWords_frame (s : State) (p a : Nat) (ws : List Nat) :
    (State.putWords s p a ws).pending = s.pending ∧ (State.putWords s p a ws).gradeS = s.gradeS ∧
    (State.putWords s p a ws).ft = s.ft ∧ (State.putWords s p a ws).cls = s.cls ∧
    (State.putWords s p a ws).layout = s.layout ∧ (State.putWords s p a ws).setup = s.setup ∧
    (State.putWords s p a ws).serial = s.serial ∧ (State.putWords s p a ws).bringing = s.bringing ∧
    (State.putWords s p a ws).lmap = s.lmap ∧ (State.putWords s p a ws).bdies = s.bdies ∧
    (State.putWords s p a ws).ports = s.ports ∧ (State.putWords s p a ws).nodes = s.nodes ∧
    (State.putWords s p a ws).time = s.time ∧ (State.putWords s p a ws).gov = s.gov ∧
    (State.putWords s p a ws).mmc = s.mmc := by
  unfold State.putWords
  (repeat' split) <;> simp

@[simp] theorem State.updateElem_frame (s : State) (p : Nat) (t : ExTable) (h : Sched) (shard n j contrib x : Nat) :
    (State.updateElem s p t h shard n j contrib x).1.pending = s.pending ∧
    (State.updateElem s p t h shard n j contrib x).1.gradeS = s.gradeS ∧
    (State.updateElem s p t h shard n j contrib x).1.ft = s.ft ∧
    (State.updateElem s p t h shard n j contrib x).1.cls = s.cls ∧
    (State.updateElem s p t h shard n j contrib x).1.layout = s.layout ∧
    (State.updateElem s p t h shard n j contrib x).1.setup = s.setup ∧
    (State.updateElem s p t h shard n j contrib x).1.serial = s.serial ∧
    (State.updateElem s p t h shard n j contrib x).1.bringing = s.bringing ∧
    (State.updateElem s p t h shard n j contrib x).1.lmap = s.lmap ∧
    (State.updateElem s p t h shard n j contrib x).1.bdies = s.bdies ∧
    (State.updateElem s p t h shard n j contrib x).1.ports = s.ports ∧
    (State.updateElem s p t h shard n j contrib x).1.nodes = s.nodes ∧
    (State.updateElem s p t h shard n j contrib x).1.time = s.time ∧
    (State.updateElem s p t h shard n j contrib x).1.gov = s.gov ∧
    (State.updateElem s p t h shard n j contrib x).1.mmc = s.mmc := by
  unfold State.updateElem
  (repeat' split) <;> simp

@[simp] theorem State.updateFactored_frame (s : State) (p : Nat) (t : ExTable) (h : Sched) (shard n : Nat) (e : TEnt) (vecAt : Nat) (gs : List (Option Nat)) :
    (State.updateFactored s p t h shard n e vecAt gs).pending = s.pending ∧
    (State.updateFactored s p t h shard n e vecAt gs).gradeS = s.gradeS ∧
    (State.updateFactored s p t h shard n e vecAt gs).ft = s.ft ∧
    (State.updateFactored s p t h shard n e vecAt gs).cls = s.cls ∧
    (State.updateFactored s p t h shard n e vecAt gs).layout = s.layout ∧
    (State.updateFactored s p t h shard n e vecAt gs).setup = s.setup ∧
    (State.updateFactored s p t h shard n e vecAt gs).serial = s.serial ∧
    (State.updateFactored s p t h shard n e vecAt gs).bringing = s.bringing ∧
    (State.updateFactored s p t h shard n e vecAt gs).lmap = s.lmap ∧
    (State.updateFactored s p t h shard n e vecAt gs).bdies = s.bdies ∧
    (State.updateFactored s p t h shard n e vecAt gs).ports = s.ports ∧
    (State.updateFactored s p t h shard n e vecAt gs).nodes = s.nodes ∧
    (State.updateFactored s p t h shard n e vecAt gs).time = s.time ∧
    (State.updateFactored s p t h shard n e vecAt gs).gov = s.gov ∧
    (State.updateFactored s p t h shard n e vecAt gs).mmc = s.mmc := by
  unfold State.updateFactored
  simp
  exact ⟨(foldl_keeps (fun x : State => x.pending) _ (fun a i => by (try dsimp only); (repeat' split) <;> simp) _ _).trans (by simp),
    (foldl_keeps (fun x : State => x.gradeS) _ (fun a i => by (try dsimp only); (repeat' split) <;> simp) _ _).trans (by simp),
    (foldl_keeps (fun x : State => x.ft) _ (fun a i => by (try dsimp only); (repeat' split) <;> simp) _ _).trans (by simp),
    (foldl_keeps (fun x : State => x.cls) _ (fun a i => by (try dsimp only); (repeat' split) <;> simp) _ _).trans (by simp),
    (foldl_keeps (fun x : State => x.layout) _ (fun a i => by (try dsimp only); (repeat' split) <;> simp) _ _).trans (by simp),
    (foldl_keeps (fun x : State => x.setup) _ (fun a i => by (try dsimp only); (repeat' split) <;> simp) _ _).trans (by simp),
    (foldl_keeps (fun x : State => x.serial) _ (fun a i => by (try dsimp only); (repeat' split) <;> simp) _ _).trans (by simp),
    (foldl_keeps (fun x : State => x.bringing) _ (fun a i => by (try dsimp only); (repeat' split) <;> simp) _ _).trans (by simp),
    (foldl_keeps (fun x : State => x.lmap) _ (fun a i => by (try dsimp only); (repeat' split) <;> simp) _ _).trans (by simp),
    (foldl_keeps (fun x : State => x.bdies) _ (fun a i => by (try dsimp only); (repeat' split) <;> simp) _ _).trans (by simp),
    (foldl_keeps (fun x : State => x.ports) _ (fun a i => by (try dsimp only); (repeat' split) <;> simp) _ _).trans (by simp),
    (foldl_keeps (fun x : State => x.nodes) _ (fun a i => by (try dsimp only); (repeat' split) <;> simp) _ _).trans (by simp),
    (foldl_keeps (fun x : State => x.time) _ (fun a i => by (try dsimp only); (repeat' split) <;> simp) _ _).trans (by simp),
    (foldl_keeps (fun x : State => x.gov) _ (fun a i => by (try dsimp only); (repeat' split) <;> simp) _ _).trans (by simp),
    (foldl_keeps (fun x : State => x.mmc) _ (fun a i => by (try dsimp only); (repeat' split) <;> simp) _ _).trans (by simp)⟩

@[simp] theorem State.updateSeg_frame (s : State) (p : Nat) (t : ExTable) (g : ChainSeg) :
    (State.updateSeg s p t g).pending = s.pending ∧ (State.updateSeg s p t g).gradeS = s.gradeS ∧
    (State.updateSeg s p t g).ft = s.ft ∧ (State.updateSeg s p t g).cls = s.cls ∧
    (State.updateSeg s p t g).layout = s.layout ∧ (State.updateSeg s p t g).setup = s.setup ∧
    (State.updateSeg s p t g).serial = s.serial ∧ (State.updateSeg s p t g).bringing = s.bringing ∧
    (State.updateSeg s p t g).lmap = s.lmap ∧ (State.updateSeg s p t g).bdies = s.bdies ∧
    (State.updateSeg s p t g).ports = s.ports ∧ (State.updateSeg s p t g).nodes = s.nodes ∧
    (State.updateSeg s p t g).time = s.time ∧ (State.updateSeg s p t g).gov = s.gov ∧
    (State.updateSeg s p t g).mmc = s.mmc := by
  unfold State.updateSeg
  (repeat' split) <;> simp

@[simp] theorem State.publish_frame (s : State) (p : Nat) (t : ExTable) (shard : Nat) (c : Nat × Bytes) :
    (State.publish s p t shard c).pending = s.pending ∧ (State.publish s p t shard c).gradeS = s.gradeS ∧
    (State.publish s p t shard c).ft = s.ft ∧ (State.publish s p t shard c).cls = s.cls ∧
    (State.publish s p t shard c).layout = s.layout ∧ (State.publish s p t shard c).setup = s.setup ∧
    (State.publish s p t shard c).serial = s.serial ∧ (State.publish s p t shard c).bringing = s.bringing ∧
    (State.publish s p t shard c).lmap = s.lmap ∧ (State.publish s p t shard c).bdies = s.bdies ∧
    (State.publish s p t shard c).time = s.time ∧ (State.publish s p t shard c).gov = s.gov ∧
    (State.publish s p t shard c).mmc = s.mmc := by
  unfold State.publish
  (repeat' split) <;> simp

@[simp] theorem State.putDirectory_frame (s : State) (p : Nat) (t : ExTable) (sh e1 crc : Nat) :
    (State.putDirectory s p t sh e1 crc).pending = s.pending ∧ (State.putDirectory s p t sh e1 crc).gradeS = s.gradeS ∧
    (State.putDirectory s p t sh e1 crc).ft = s.ft ∧ (State.putDirectory s p t sh e1 crc).cls = s.cls ∧
    (State.putDirectory s p t sh e1 crc).layout = s.layout ∧ (State.putDirectory s p t sh e1 crc).setup = s.setup ∧
    (State.putDirectory s p t sh e1 crc).serial = s.serial ∧
    (State.putDirectory s p t sh e1 crc).bringing = s.bringing ∧ (State.putDirectory s p t sh e1 crc).lmap = s.lmap ∧
    (State.putDirectory s p t sh e1 crc).bdies = s.bdies ∧ (State.putDirectory s p t sh e1 crc).ports = s.ports ∧
    (State.putDirectory s p t sh e1 crc).nodes = s.nodes ∧ (State.putDirectory s p t sh e1 crc).time = s.time ∧
    (State.putDirectory s p t sh e1 crc).gov = s.gov ∧ (State.putDirectory s p t sh e1 crc).mmc = s.mmc := by
  unfold State.putDirectory
  (repeat' split) <;> simp

@[simp] theorem State.sendPubDone_frame (s : State) (p : Nat) (t : ExTable) (sh : Nat) :
    (State.sendPubDone s p t sh).pending = s.pending ∧ (State.sendPubDone s p t sh).gradeS = s.gradeS ∧
    (State.sendPubDone s p t sh).ft = s.ft ∧ (State.sendPubDone s p t sh).cls = s.cls ∧
    (State.sendPubDone s p t sh).layout = s.layout ∧ (State.sendPubDone s p t sh).setup = s.setup ∧
    (State.sendPubDone s p t sh).serial = s.serial ∧ (State.sendPubDone s p t sh).bringing = s.bringing ∧
    (State.sendPubDone s p t sh).lmap = s.lmap ∧ (State.sendPubDone s p t sh).bdies = s.bdies ∧
    (State.sendPubDone s p t sh).ports = s.ports ∧ (State.sendPubDone s p t sh).time = s.time ∧
    (State.sendPubDone s p t sh).gov = s.gov ∧ (State.sendPubDone s p t sh).mmc = s.mmc := by
  unfold State.sendPubDone
  (repeat' split) <;> simp

@[simp] theorem State.packSeg_frame (s : State) (p : Nat) (t : ExTable) (g : ChainSeg) (publishing : Bool) :
    (State.packSeg s p t g publishing).pending = s.pending ∧ (State.packSeg s p t g publishing).gradeS = s.gradeS ∧
    (State.packSeg s p t g publishing).ft = s.ft ∧ (State.packSeg s p t g publishing).cls = s.cls ∧
    (State.packSeg s p t g publishing).layout = s.layout ∧ (State.packSeg s p t g publishing).setup = s.setup ∧
    (State.packSeg s p t g publishing).serial = s.serial ∧ (State.packSeg s p t g publishing).bringing = s.bringing ∧
    (State.packSeg s p t g publishing).lmap = s.lmap ∧ (State.packSeg s p t g publishing).bdies = s.bdies ∧
    (State.packSeg s p t g publishing).time = s.time ∧ (State.packSeg s p t g publishing).gov = s.gov ∧
    (State.packSeg s p t g publishing).mmc = s.mmc := by
  unfold State.packSeg
  exact ⟨foldl_keeps (fun x : State => x.pending) _ (fun a i => by (try dsimp only); (repeat' split) <;> simp) _ _,
    foldl_keeps (fun x : State => x.gradeS) _ (fun a i => by (try dsimp only); (repeat' split) <;> simp) _ _,
    foldl_keeps (fun x : State => x.ft) _ (fun a i => by (try dsimp only); (repeat' split) <;> simp) _ _,
    foldl_keeps (fun x : State => x.cls) _ (fun a i => by (try dsimp only); (repeat' split) <;> simp) _ _,
    foldl_keeps (fun x : State => x.layout) _ (fun a i => by (try dsimp only); (repeat' split) <;> simp) _ _,
    foldl_keeps (fun x : State => x.setup) _ (fun a i => by (try dsimp only); (repeat' split) <;> simp) _ _,
    foldl_keeps (fun x : State => x.serial) _ (fun a i => by (try dsimp only); (repeat' split) <;> simp) _ _,
    foldl_keeps (fun x : State => x.bringing) _ (fun a i => by (try dsimp only); (repeat' split) <;> simp) _ _,
    foldl_keeps (fun x : State => x.lmap) _ (fun a i => by (try dsimp only); (repeat' split) <;> simp) _ _,
    foldl_keeps (fun x : State => x.bdies) _ (fun a i => by (try dsimp only); (repeat' split) <;> simp) _ _,
    foldl_keeps (fun x : State => x.time) _ (fun a i => by (try dsimp only); (repeat' split) <;> simp) _ _,
    foldl_keeps (fun x : State => x.gov) _ (fun a i => by (try dsimp only); (repeat' split) <;> simp) _ _,
    foldl_keeps (fun x : State => x.mmc) _ (fun a i => by (try dsimp only); (repeat' split) <;> simp) _ _⟩

@[simp] theorem State.publishMine_frame (s : State) (p : Nat) (t : ExTable) (sh : Nat) :
    (State.publishMine s p t sh).pending = s.pending ∧ (State.publishMine s p t sh).gradeS = s.gradeS ∧
    (State.publishMine s p t sh).ft = s.ft ∧ (State.publishMine s p t sh).cls = s.cls ∧
    (State.publishMine s p t sh).layout = s.layout ∧ (State.publishMine s p t sh).setup = s.setup ∧
    (State.publishMine s p t sh).serial = s.serial ∧ (State.publishMine s p t sh).bringing = s.bringing ∧
    (State.publishMine s p t sh).lmap = s.lmap ∧ (State.publishMine s p t sh).bdies = s.bdies ∧
    (State.publishMine s p t sh).time = s.time ∧ (State.publishMine s p t sh).gov = s.gov ∧
    (State.publishMine s p t sh).mmc = s.mmc := by
  unfold State.publishMine
  (repeat' split) <;> simp

@[simp] theorem State.sendCommit_frame (s : State) (p : Nat) (t : ExTable) :
    (State.sendCommit s p t).pending = s.pending ∧ (State.sendCommit s p t).freeCtr = s.freeCtr ∧
    (State.sendCommit s p t).gradeS = s.gradeS ∧ (State.sendCommit s p t).ft = s.ft ∧
    (State.sendCommit s p t).cls = s.cls ∧ (State.sendCommit s p t).layout = s.layout ∧
    (State.sendCommit s p t).setup = s.setup ∧ (State.sendCommit s p t).serial = s.serial ∧
    (State.sendCommit s p t).bringing = s.bringing ∧ (State.sendCommit s p t).lmap = s.lmap ∧
    (State.sendCommit s p t).cores = s.cores ∧ (State.sendCommit s p t).slices = s.slices ∧
    (State.sendCommit s p t).hbmcs = s.hbmcs ∧ (State.sendCommit s p t).bdies = s.bdies ∧
    (State.sendCommit s p t).ports = s.ports ∧ (State.sendCommit s p t).time = s.time ∧
    (State.sendCommit s p t).out = s.out ∧ (State.sendCommit s p t).hif = s.hif ∧
    (State.sendCommit s p t).chip = s.chip ∧ (State.sendCommit s p t).gov = s.gov ∧
    (State.sendCommit s p t).mmc = s.mmc ∧ (State.sendCommit s p t).gdbg = s.gdbg := by
  unfold State.sendCommit
  (repeat' split) <;> simp

@[simp] theorem State.leaderCheck_frame (s : State) (p : Nat) (t : ExTable) :
    (State.leaderCheck s p t).pending = s.pending ∧ (State.leaderCheck s p t).freeCtr = s.freeCtr ∧
    (State.leaderCheck s p t).gradeS = s.gradeS ∧ (State.leaderCheck s p t).ft = s.ft ∧
    (State.leaderCheck s p t).cls = s.cls ∧ (State.leaderCheck s p t).layout = s.layout ∧
    (State.leaderCheck s p t).setup = s.setup ∧ (State.leaderCheck s p t).serial = s.serial ∧
    (State.leaderCheck s p t).bringing = s.bringing ∧ (State.leaderCheck s p t).lmap = s.lmap ∧
    (State.leaderCheck s p t).cores = s.cores ∧ (State.leaderCheck s p t).slices = s.slices ∧
    (State.leaderCheck s p t).hbmcs = s.hbmcs ∧ (State.leaderCheck s p t).bdies = s.bdies ∧
    (State.leaderCheck s p t).ports = s.ports ∧ (State.leaderCheck s p t).time = s.time ∧
    (State.leaderCheck s p t).out = s.out ∧ (State.leaderCheck s p t).hif = s.hif ∧
    (State.leaderCheck s p t).chip = s.chip ∧ (State.leaderCheck s p t).gov = s.gov ∧
    (State.leaderCheck s p t).mmc = s.mmc ∧ (State.leaderCheck s p t).gdbg = s.gdbg := by
  unfold State.leaderCheck
  (repeat' split) <;> simp

@[simp] theorem State.flip_frame (s : State) (p : Nat) (t : ExTable) (tOpen gen : Nat) :
    (State.flip s p t tOpen gen).pending = s.pending ∧ (State.flip s p t tOpen gen).gradeS = s.gradeS ∧
    (State.flip s p t tOpen gen).ft = s.ft ∧ (State.flip s p t tOpen gen).cls = s.cls ∧
    (State.flip s p t tOpen gen).layout = s.layout ∧ (State.flip s p t tOpen gen).setup = s.setup ∧
    (State.flip s p t tOpen gen).serial = s.serial ∧ (State.flip s p t tOpen gen).bringing = s.bringing ∧
    (State.flip s p t tOpen gen).lmap = s.lmap ∧ (State.flip s p t tOpen gen).slices = s.slices ∧
    (State.flip s p t tOpen gen).hbmcs = s.hbmcs ∧ (State.flip s p t tOpen gen).bdies = s.bdies ∧
    (State.flip s p t tOpen gen).ports = s.ports ∧ (State.flip s p t tOpen gen).nodes = s.nodes ∧
    (State.flip s p t tOpen gen).time = s.time ∧ (State.flip s p t tOpen gen).chip = s.chip ∧
    (State.flip s p t tOpen gen).gov = s.gov ∧ (State.flip s p t tOpen gen).mmc = s.mmc ∧
    (State.flip s p t tOpen gen).gdbg = s.gdbg := by
  unfold State.flip
  (repeat' split) <;> simp

@[simp] theorem State.tryFlip_frame (s : State) (p : Nat) (t : ExTable) :
    (State.tryFlip s p t).pending = s.pending ∧ (State.tryFlip s p t).gradeS = s.gradeS ∧
    (State.tryFlip s p t).ft = s.ft ∧ (State.tryFlip s p t).cls = s.cls ∧ (State.tryFlip s p t).layout = s.layout ∧
    (State.tryFlip s p t).setup = s.setup ∧ (State.tryFlip s p t).serial = s.serial ∧
    (State.tryFlip s p t).bringing = s.bringing ∧ (State.tryFlip s p t).lmap = s.lmap ∧
    (State.tryFlip s p t).slices = s.slices ∧ (State.tryFlip s p t).hbmcs = s.hbmcs ∧
    (State.tryFlip s p t).bdies = s.bdies ∧ (State.tryFlip s p t).ports = s.ports ∧
    (State.tryFlip s p t).nodes = s.nodes ∧ (State.tryFlip s p t).time = s.time ∧ (State.tryFlip s p t).chip = s.chip ∧
    (State.tryFlip s p t).gov = s.gov ∧ (State.tryFlip s p t).mmc = s.mmc ∧ (State.tryFlip s p t).gdbg = s.gdbg := by
  unfold State.tryFlip
  simp
  (repeat' split) <;> simp

@[simp] theorem State.proveCommit_frame (s : State) (p : Nat) (t : ExTable) (epoch : Nat) :
    (State.proveCommit s p t epoch).pending = s.pending ∧ (State.proveCommit s p t epoch).gradeS = s.gradeS ∧
    (State.proveCommit s p t epoch).ft = s.ft ∧ (State.proveCommit s p t epoch).cls = s.cls ∧
    (State.proveCommit s p t epoch).layout = s.layout ∧ (State.proveCommit s p t epoch).setup = s.setup ∧
    (State.proveCommit s p t epoch).serial = s.serial ∧ (State.proveCommit s p t epoch).bringing = s.bringing ∧
    (State.proveCommit s p t epoch).lmap = s.lmap ∧ (State.proveCommit s p t epoch).slices = s.slices ∧
    (State.proveCommit s p t epoch).hbmcs = s.hbmcs ∧ (State.proveCommit s p t epoch).bdies = s.bdies ∧
    (State.proveCommit s p t epoch).ports = s.ports ∧ (State.proveCommit s p t epoch).nodes = s.nodes ∧
    (State.proveCommit s p t epoch).time = s.time ∧ (State.proveCommit s p t epoch).chip = s.chip ∧
    (State.proveCommit s p t epoch).gov = s.gov ∧ (State.proveCommit s p t epoch).mmc = s.mmc ∧
    (State.proveCommit s p t epoch).gdbg = s.gdbg := by
  unfold State.proveCommit
  (repeat' split) <;> simp

@[simp] theorem State.markFailed_frame (s : State) (p : Nat) (t : ExTable) (rank : Nat) :
    (State.markFailed s p t rank).pending = s.pending ∧ (State.markFailed s p t rank).freeCtr = s.freeCtr ∧
    (State.markFailed s p t rank).gradeS = s.gradeS ∧ (State.markFailed s p t rank).ft = s.ft ∧
    (State.markFailed s p t rank).cls = s.cls ∧ (State.markFailed s p t rank).layout = s.layout ∧
    (State.markFailed s p t rank).setup = s.setup ∧ (State.markFailed s p t rank).serial = s.serial ∧
    (State.markFailed s p t rank).bringing = s.bringing ∧ (State.markFailed s p t rank).lmap = s.lmap ∧
    (State.markFailed s p t rank).cores = s.cores ∧ (State.markFailed s p t rank).slices = s.slices ∧
    (State.markFailed s p t rank).hbmcs = s.hbmcs ∧ (State.markFailed s p t rank).bdies = s.bdies ∧
    (State.markFailed s p t rank).ports = s.ports ∧ (State.markFailed s p t rank).time = s.time ∧
    (State.markFailed s p t rank).chip = s.chip ∧ (State.markFailed s p t rank).gov = s.gov ∧
    (State.markFailed s p t rank).mmc = s.mmc ∧ (State.markFailed s p t rank).gdbg = s.gdbg := by
  unfold State.markFailed
  simp
  (repeat' split) <;> simp

@[simp] theorem State.takeFinal_frame (s : State) (p : Nat) (t : ExTable) (g : ChainSeg) :
    (State.takeFinal s p t g).pending = s.pending ∧ (State.takeFinal s p t g).gradeS = s.gradeS ∧
    (State.takeFinal s p t g).ft = s.ft ∧ (State.takeFinal s p t g).cls = s.cls ∧
    (State.takeFinal s p t g).layout = s.layout ∧ (State.takeFinal s p t g).setup = s.setup ∧
    (State.takeFinal s p t g).serial = s.serial ∧ (State.takeFinal s p t g).bringing = s.bringing ∧
    (State.takeFinal s p t g).lmap = s.lmap ∧ (State.takeFinal s p t g).bdies = s.bdies ∧
    (State.takeFinal s p t g).time = s.time ∧ (State.takeFinal s p t g).gov = s.gov ∧
    (State.takeFinal s p t g).mmc = s.mmc := by
  unfold State.takeFinal
  (repeat' split) <;> simp

@[simp] theorem State.dualCast_frame (s : State) (p : Nat) (t : ExTable) (g : ChainSeg) :
    (State.dualCast s p t g).pending = s.pending ∧ (State.dualCast s p t g).gradeS = s.gradeS ∧
    (State.dualCast s p t g).ft = s.ft ∧ (State.dualCast s p t g).cls = s.cls ∧
    (State.dualCast s p t g).layout = s.layout ∧ (State.dualCast s p t g).setup = s.setup ∧
    (State.dualCast s p t g).serial = s.serial ∧ (State.dualCast s p t g).bringing = s.bringing ∧
    (State.dualCast s p t g).lmap = s.lmap ∧ (State.dualCast s p t g).bdies = s.bdies ∧
    (State.dualCast s p t g).time = s.time ∧ (State.dualCast s p t g).gov = s.gov ∧
    (State.dualCast s p t g).mmc = s.mmc := by
  unfold State.dualCast
  exact ⟨foldl_keeps (fun x : State => x.pending) _ (fun a i => by (try dsimp only); (repeat' split) <;> simp) _ _,
    foldl_keeps (fun x : State => x.gradeS) _ (fun a i => by (try dsimp only); (repeat' split) <;> simp) _ _,
    foldl_keeps (fun x : State => x.ft) _ (fun a i => by (try dsimp only); (repeat' split) <;> simp) _ _,
    foldl_keeps (fun x : State => x.cls) _ (fun a i => by (try dsimp only); (repeat' split) <;> simp) _ _,
    foldl_keeps (fun x : State => x.layout) _ (fun a i => by (try dsimp only); (repeat' split) <;> simp) _ _,
    foldl_keeps (fun x : State => x.setup) _ (fun a i => by (try dsimp only); (repeat' split) <;> simp) _ _,
    foldl_keeps (fun x : State => x.serial) _ (fun a i => by (try dsimp only); (repeat' split) <;> simp) _ _,
    foldl_keeps (fun x : State => x.bringing) _ (fun a i => by (try dsimp only); (repeat' split) <;> simp) _ _,
    foldl_keeps (fun x : State => x.lmap) _ (fun a i => by (try dsimp only); (repeat' split) <;> simp) _ _,
    foldl_keeps (fun x : State => x.bdies) _ (fun a i => by (try dsimp only); (repeat' split) <;> simp) _ _,
    foldl_keeps (fun x : State => x.time) _ (fun a i => by (try dsimp only); (repeat' split) <;> simp) _ _,
    foldl_keeps (fun x : State => x.gov) _ (fun a i => by (try dsimp only); (repeat' split) <;> simp) _ _,
    foldl_keeps (fun x : State => x.mmc) _ (fun a i => by (try dsimp only); (repeat' split) <;> simp) _ _⟩

@[simp] theorem State.passOnN_frame (s : State) (p : Nat) (t : ExTable) (g : ChainSeg) (x : Nat) :
    (State.passOnN s p t g x).pending = s.pending ∧ (State.passOnN s p t g x).gradeS = s.gradeS ∧
    (State.passOnN s p t g x).ft = s.ft ∧ (State.passOnN s p t g x).cls = s.cls ∧
    (State.passOnN s p t g x).layout = s.layout ∧ (State.passOnN s p t g x).setup = s.setup ∧
    (State.passOnN s p t g x).serial = s.serial ∧ (State.passOnN s p t g x).bringing = s.bringing ∧
    (State.passOnN s p t g x).lmap = s.lmap ∧ (State.passOnN s p t g x).bdies = s.bdies ∧
    (State.passOnN s p t g x).time = s.time ∧ (State.passOnN s p t g x).gov = s.gov ∧
    (State.passOnN s p t g x).mmc = s.mmc := by
  induction x generalizing s g with
  | zero => simp [State.passOnN]
  | succ x ih =>
    simp only [State.passOnN]
    (repeat' split) <;> simp [ih]

@[simp] theorem State.passOn_frame (s : State) (p : Nat) (t : ExTable) (g : ChainSeg) :
    (State.passOn s p t g).pending = s.pending ∧ (State.passOn s p t g).gradeS = s.gradeS ∧
    (State.passOn s p t g).ft = s.ft ∧ (State.passOn s p t g).cls = s.cls ∧ (State.passOn s p t g).layout = s.layout ∧
    (State.passOn s p t g).setup = s.setup ∧ (State.passOn s p t g).serial = s.serial ∧
    (State.passOn s p t g).bringing = s.bringing ∧ (State.passOn s p t g).lmap = s.lmap ∧
    (State.passOn s p t g).bdies = s.bdies ∧ (State.passOn s p t g).time = s.time ∧
    (State.passOn s p t g).gov = s.gov ∧ (State.passOn s p t g).mmc = s.mmc := by
  unfold State.passOn
  (repeat' split) <;> simp

@[simp] theorem State.contribute_frame (s : State) (p : Nat) (t : ExTable) (g : ChainSeg) (first : Bool) :
    (State.contribute s p t g first).1.pending = s.pending ∧ (State.contribute s p t g first).1.gradeS = s.gradeS ∧
    (State.contribute s p t g first).1.ft = s.ft ∧ (State.contribute s p t g first).1.cls = s.cls ∧
    (State.contribute s p t g first).1.layout = s.layout ∧ (State.contribute s p t g first).1.setup = s.setup ∧
    (State.contribute s p t g first).1.serial = s.serial ∧ (State.contribute s p t g first).1.bringing = s.bringing ∧
    (State.contribute s p t g first).1.lmap = s.lmap ∧ (State.contribute s p t g first).1.cores = s.cores ∧
    (State.contribute s p t g first).1.bdies = s.bdies ∧ (State.contribute s p t g first).1.ports = s.ports ∧
    (State.contribute s p t g first).1.nodes = s.nodes ∧ (State.contribute s p t g first).1.time = s.time ∧
    (State.contribute s p t g first).1.gov = s.gov ∧ (State.contribute s p t g first).1.mmc = s.mmc := by
  unfold State.contribute
  simp
  (repeat' split) <;> simp

@[simp] theorem State.hop_frame (s : State) (p : Nat) (t : ExTable) (g : ChainSeg) (first : Bool) :
    (State.hop s p t g first).pending = s.pending ∧ (State.hop s p t g first).gradeS = s.gradeS ∧
    (State.hop s p t g first).ft = s.ft ∧ (State.hop s p t g first).cls = s.cls ∧
    (State.hop s p t g first).layout = s.layout ∧ (State.hop s p t g first).setup = s.setup ∧
    (State.hop s p t g first).serial = s.serial ∧ (State.hop s p t g first).bringing = s.bringing ∧
    (State.hop s p t g first).lmap = s.lmap ∧ (State.hop s p t g first).bdies = s.bdies ∧
    (State.hop s p t g first).time = s.time ∧ (State.hop s p t g first).gov = s.gov ∧
    (State.hop s p t g first).mmc = s.mmc := by
  unfold State.hop
  (repeat' split) <;> simp

@[simp] theorem State.startShard_frame (s : State) (p : Nat) (t : ExTable) (sh : Nat) :
    (State.startShard s p t sh).pending = s.pending ∧ (State.startShard s p t sh).gradeS = s.gradeS ∧
    (State.startShard s p t sh).ft = s.ft ∧ (State.startShard s p t sh).cls = s.cls ∧
    (State.startShard s p t sh).layout = s.layout ∧ (State.startShard s p t sh).setup = s.setup ∧
    (State.startShard s p t sh).serial = s.serial ∧ (State.startShard s p t sh).bringing = s.bringing ∧
    (State.startShard s p t sh).lmap = s.lmap ∧ (State.startShard s p t sh).bdies = s.bdies ∧
    (State.startShard s p t sh).time = s.time ∧ (State.startShard s p t sh).gov = s.gov ∧
    (State.startShard s p t sh).mmc = s.mmc := by
  unfold State.startShard
  (repeat' split) <;> simp

@[simp] theorem State.runChains_frame (s : State) (p : Nat) (t : ExTable) :
    (State.runChains s p t).pending = s.pending ∧ (State.runChains s p t).gradeS = s.gradeS ∧
    (State.runChains s p t).ft = s.ft ∧ (State.runChains s p t).cls = s.cls ∧
    (State.runChains s p t).layout = s.layout ∧ (State.runChains s p t).setup = s.setup ∧
    (State.runChains s p t).serial = s.serial ∧ (State.runChains s p t).bringing = s.bringing ∧
    (State.runChains s p t).lmap = s.lmap ∧ (State.runChains s p t).bdies = s.bdies ∧
    (State.runChains s p t).time = s.time ∧ (State.runChains s p t).gov = s.gov ∧
    (State.runChains s p t).mmc = s.mmc := by
  unfold State.runChains
  (repeat' split) <;> simp

@[simp] theorem State.takeSeg_frame (s : State) (p : Nat) (t : ExTable) (g : ChainSeg) :
    (State.takeSeg s p t g).pending = s.pending ∧ (State.takeSeg s p t g).gradeS = s.gradeS ∧
    (State.takeSeg s p t g).ft = s.ft ∧ (State.takeSeg s p t g).cls = s.cls ∧
    (State.takeSeg s p t g).layout = s.layout ∧ (State.takeSeg s p t g).setup = s.setup ∧
    (State.takeSeg s p t g).serial = s.serial ∧ (State.takeSeg s p t g).bringing = s.bringing ∧
    (State.takeSeg s p t g).lmap = s.lmap ∧ (State.takeSeg s p t g).bdies = s.bdies ∧
    (State.takeSeg s p t g).time = s.time ∧ (State.takeSeg s p t g).gov = s.gov ∧
    (State.takeSeg s p t g).mmc = s.mmc := by
  unfold State.takeSeg
  simp
  (repeat' split) <;> simp

@[simp] theorem State.sendFailed_frame (s : State) (p : Nat) (t : ExTable) (c : ChainSend) :
    (State.sendFailed s p t c).pending = s.pending ∧ (State.sendFailed s p t c).gradeS = s.gradeS ∧
    (State.sendFailed s p t c).ft = s.ft ∧ (State.sendFailed s p t c).cls = s.cls ∧
    (State.sendFailed s p t c).layout = s.layout ∧ (State.sendFailed s p t c).setup = s.setup ∧
    (State.sendFailed s p t c).serial = s.serial ∧ (State.sendFailed s p t c).bringing = s.bringing ∧
    (State.sendFailed s p t c).lmap = s.lmap ∧ (State.sendFailed s p t c).bdies = s.bdies ∧
    (State.sendFailed s p t c).time = s.time ∧ (State.sendFailed s p t c).gov = s.gov ∧
    (State.sendFailed s p t c).mmc = s.mmc := by
  unfold State.sendFailed
  (repeat' split) <;> simp

@[simp] theorem State.holdStep_frame (s : State) (p : Nat) (t : ExTable) :
    (State.holdStep s p t).pending = s.pending ∧ (State.holdStep s p t).gradeS = s.gradeS ∧
    (State.holdStep s p t).ft = s.ft ∧ (State.holdStep s p t).cls = s.cls ∧ (State.holdStep s p t).layout = s.layout ∧
    (State.holdStep s p t).setup = s.setup ∧ (State.holdStep s p t).serial = s.serial ∧
    (State.holdStep s p t).bringing = s.bringing ∧ (State.holdStep s p t).lmap = s.lmap ∧
    (State.holdStep s p t).bdies = s.bdies ∧ (State.holdStep s p t).time = s.time ∧
    (State.holdStep s p t).gov = s.gov ∧ (State.holdStep s p t).mmc = s.mmc := by
  unfold State.holdStep
  (repeat' split) <;> simp

theorem State.takeInbox_state {s t : State} {p : Nat} {f : Nat → Packet → Bool} {a : Nat × Nat × Packet}
    (h : s.takeInbox p f = some (t, a)) : ∃ q, t = s.setNode p q := by
  simp only [State.takeInbox] at h
  split at h
  · simp at h
  · split at h
    · simp at h
    · simp only [Option.some.injEq, Prod.mk.injEq] at h
      exact ⟨_, h.1.symm⟩


theorem State.takeKind_state {s t : State} {p kind : Nat} {a : Nat × Nat × Packet}
    (h : s.takeKind p kind = some (t, a)) : ∃ q, t = s.setNode p q := State.takeInbox_state h


theorem State.takeCtrl_state {s t : State} {p op : Nat} {k : Packet}
    (h : s.takeCtrl p op = some (t, k)) : ∃ q, t = s.setNode p q := by
  simp only [State.takeCtrl, Option.map_eq_some_iff] at h
  obtain ⟨⟨u, a⟩, h, e⟩ := h
  simp only [Prod.mk.injEq] at e
  exact e.1 ▸ State.takeInbox_state h


@[simp] theorem State.withTable_pending (s : State) (p : Nat) (f : ExTable → State)
    (h : ∀ t, (f t).pending = s.pending) : (s.withTable p f).pending = s.pending := by
  unfold State.withTable
  split <;> simp [h]

@[simp] theorem State.withTable_freeCtr (s : State) (p : Nat) (f : ExTable → State)
    (h : ∀ t, (f t).freeCtr = s.freeCtr) : (s.withTable p f).freeCtr = s.freeCtr := by
  unfold State.withTable
  split <;> simp [h]

@[simp] theorem State.withTable_gradeS (s : State) (p : Nat) (f : ExTable → State)
    (h : ∀ t, (f t).gradeS = s.gradeS) : (s.withTable p f).gradeS = s.gradeS := by
  unfold State.withTable
  split <;> simp [h]

@[simp] theorem State.withTable_ft (s : State) (p : Nat) (f : ExTable → State)
    (h : ∀ t, (f t).ft = s.ft) : (s.withTable p f).ft = s.ft := by
  unfold State.withTable
  split <;> simp [h]

@[simp] theorem State.withTable_cls (s : State) (p : Nat) (f : ExTable → State)
    (h : ∀ t, (f t).cls = s.cls) : (s.withTable p f).cls = s.cls := by
  unfold State.withTable
  split <;> simp [h]

@[simp] theorem State.withTable_layout (s : State) (p : Nat) (f : ExTable → State)
    (h : ∀ t, (f t).layout = s.layout) : (s.withTable p f).layout = s.layout := by
  unfold State.withTable
  split <;> simp [h]

@[simp] theorem State.withTable_setup (s : State) (p : Nat) (f : ExTable → State)
    (h : ∀ t, (f t).setup = s.setup) : (s.withTable p f).setup = s.setup := by
  unfold State.withTable
  split <;> simp [h]

@[simp] theorem State.withTable_serial (s : State) (p : Nat) (f : ExTable → State)
    (h : ∀ t, (f t).serial = s.serial) : (s.withTable p f).serial = s.serial := by
  unfold State.withTable
  split <;> simp [h]

@[simp] theorem State.withTable_bringing (s : State) (p : Nat) (f : ExTable → State)
    (h : ∀ t, (f t).bringing = s.bringing) : (s.withTable p f).bringing = s.bringing := by
  unfold State.withTable
  split <;> simp [h]

@[simp] theorem State.withTable_lmap (s : State) (p : Nat) (f : ExTable → State)
    (h : ∀ t, (f t).lmap = s.lmap) : (s.withTable p f).lmap = s.lmap := by
  unfold State.withTable
  split <;> simp [h]

@[simp] theorem State.withTable_parts (s : State) (p : Nat) (f : ExTable → State)
    (h : ∀ t, (f t).parts = s.parts) : (s.withTable p f).parts = s.parts := by
  unfold State.withTable
  split <;> simp [h]

@[simp] theorem State.withTable_cores (s : State) (p : Nat) (f : ExTable → State)
    (h : ∀ t, (f t).cores = s.cores) : (s.withTable p f).cores = s.cores := by
  unfold State.withTable
  split <;> simp [h]

@[simp] theorem State.withTable_slices (s : State) (p : Nat) (f : ExTable → State)
    (h : ∀ t, (f t).slices = s.slices) : (s.withTable p f).slices = s.slices := by
  unfold State.withTable
  split <;> simp [h]

@[simp] theorem State.withTable_hbmcs (s : State) (p : Nat) (f : ExTable → State)
    (h : ∀ t, (f t).hbmcs = s.hbmcs) : (s.withTable p f).hbmcs = s.hbmcs := by
  unfold State.withTable
  split <;> simp [h]

@[simp] theorem State.withTable_bdies (s : State) (p : Nat) (f : ExTable → State)
    (h : ∀ t, (f t).bdies = s.bdies) : (s.withTable p f).bdies = s.bdies := by
  unfold State.withTable
  split <;> simp [h]

@[simp] theorem State.withTable_ports (s : State) (p : Nat) (f : ExTable → State)
    (h : ∀ t, (f t).ports = s.ports) : (s.withTable p f).ports = s.ports := by
  unfold State.withTable
  split <;> simp [h]

@[simp] theorem State.withTable_nodes (s : State) (p : Nat) (f : ExTable → State)
    (h : ∀ t, (f t).nodes = s.nodes) : (s.withTable p f).nodes = s.nodes := by
  unfold State.withTable
  split <;> simp [h]

@[simp] theorem State.withTable_time (s : State) (p : Nat) (f : ExTable → State)
    (h : ∀ t, (f t).time = s.time) : (s.withTable p f).time = s.time := by
  unfold State.withTable
  split <;> simp [h]

@[simp] theorem State.withTable_out (s : State) (p : Nat) (f : ExTable → State)
    (h : ∀ t, (f t).out = s.out) : (s.withTable p f).out = s.out := by
  unfold State.withTable
  split <;> simp [h]

@[simp] theorem State.withTable_hif (s : State) (p : Nat) (f : ExTable → State)
    (h : ∀ t, (f t).hif = s.hif) : (s.withTable p f).hif = s.hif := by
  unfold State.withTable
  split <;> simp [h]

@[simp] theorem State.withTable_chip (s : State) (p : Nat) (f : ExTable → State)
    (h : ∀ t, (f t).chip = s.chip) : (s.withTable p f).chip = s.chip := by
  unfold State.withTable
  split <;> simp [h]

@[simp] theorem State.withTable_gov (s : State) (p : Nat) (f : ExTable → State)
    (h : ∀ t, (f t).gov = s.gov) : (s.withTable p f).gov = s.gov := by
  unfold State.withTable
  split <;> simp [h]

@[simp] theorem State.withTable_mmc (s : State) (p : Nat) (f : ExTable → State)
    (h : ∀ t, (f t).mmc = s.mmc) : (s.withTable p f).mmc = s.mmc := by
  unfold State.withTable
  split <;> simp [h]

@[simp] theorem State.withTable_gdbg (s : State) (p : Nat) (f : ExTable → State)
    (h : ∀ t, (f t).gdbg = s.gdbg) : (s.withTable p f).gdbg = s.gdbg := by
  unfold State.withTable
  split <;> simp [h]


@[simp] theorem State.doChain_frame (s : State) (p : Nat) :
    (State.doChain s p).pending = s.pending ∧ (State.doChain s p).gradeS = s.gradeS ∧ (State.doChain s p).ft = s.ft ∧
    (State.doChain s p).cls = s.cls ∧ (State.doChain s p).layout = s.layout ∧ (State.doChain s p).setup = s.setup ∧
    (State.doChain s p).serial = s.serial ∧ (State.doChain s p).bringing = s.bringing ∧
    (State.doChain s p).lmap = s.lmap ∧ (State.doChain s p).bdies = s.bdies ∧ (State.doChain s p).time = s.time ∧
    (State.doChain s p).gov = s.gov ∧ (State.doChain s p).mmc = s.mmc := by
  unfold State.doChain
  split
  · simp
  · rename_i h
    obtain ⟨q, rfl⟩ := State.takeKind_state h
    try unfold State.withTable
    try dsimp only
    (repeat' split) <;> simp

@[simp] theorem State.doPublish_frame (s : State) (p : Nat) :
    (State.doPublish s p).pending = s.pending ∧ (State.doPublish s p).gradeS = s.gradeS ∧
    (State.doPublish s p).ft = s.ft ∧ (State.doPublish s p).cls = s.cls ∧ (State.doPublish s p).layout = s.layout ∧
    (State.doPublish s p).setup = s.setup ∧ (State.doPublish s p).serial = s.serial ∧
    (State.doPublish s p).bringing = s.bringing ∧ (State.doPublish s p).lmap = s.lmap ∧
    (State.doPublish s p).bdies = s.bdies ∧ (State.doPublish s p).ports = s.ports ∧
    (State.doPublish s p).time = s.time ∧ (State.doPublish s p).gov = s.gov ∧ (State.doPublish s p).mmc = s.mmc := by
  unfold State.doPublish
  split
  · simp
  · rename_i h
    obtain ⟨q, rfl⟩ := State.takeKind_state h
    try unfold State.withTable
    try dsimp only
    (repeat' split) <;> simp

@[simp] theorem State.doPubDone_frame (s : State) (p : Nat) :
    (State.doPubDone s p).pending = s.pending ∧ (State.doPubDone s p).gradeS = s.gradeS ∧
    (State.doPubDone s p).ft = s.ft ∧ (State.doPubDone s p).cls = s.cls ∧ (State.doPubDone s p).layout = s.layout ∧
    (State.doPubDone s p).setup = s.setup ∧ (State.doPubDone s p).serial = s.serial ∧
    (State.doPubDone s p).bringing = s.bringing ∧ (State.doPubDone s p).lmap = s.lmap ∧
    (State.doPubDone s p).bdies = s.bdies ∧ (State.doPubDone s p).ports = s.ports ∧
    (State.doPubDone s p).time = s.time ∧ (State.doPubDone s p).gov = s.gov ∧ (State.doPubDone s p).mmc = s.mmc := by
  unfold State.doPubDone
  split
  · simp
  · rename_i h
    obtain ⟨q, rfl⟩ := State.takeCtrl_state h
    try unfold State.withTable
    try dsimp only
    (repeat' split) <;> simp

@[simp] theorem State.doPubDoneRepeat_frame (s : State) (p : Nat) :
    (State.doPubDoneRepeat s p).pending = s.pending ∧ (State.doPubDoneRepeat s p).gradeS = s.gradeS ∧
    (State.doPubDoneRepeat s p).ft = s.ft ∧ (State.doPubDoneRepeat s p).cls = s.cls ∧
    (State.doPubDoneRepeat s p).layout = s.layout ∧ (State.doPubDoneRepeat s p).setup = s.setup ∧
    (State.doPubDoneRepeat s p).serial = s.serial ∧ (State.doPubDoneRepeat s p).bringing = s.bringing ∧
    (State.doPubDoneRepeat s p).lmap = s.lmap ∧ (State.doPubDoneRepeat s p).bdies = s.bdies ∧
    (State.doPubDoneRepeat s p).ports = s.ports ∧ (State.doPubDoneRepeat s p).time = s.time ∧
    (State.doPubDoneRepeat s p).gov = s.gov ∧ (State.doPubDoneRepeat s p).mmc = s.mmc := by
  unfold State.doPubDoneRepeat State.withTable
  split
  · try dsimp only
    (repeat' split) <;> simp
  · simp

@[simp] theorem State.doCommit_frame (s : State) (p : Nat) :
    (State.doCommit s p).pending = s.pending ∧ (State.doCommit s p).gradeS = s.gradeS ∧
    (State.doCommit s p).ft = s.ft ∧ (State.doCommit s p).cls = s.cls ∧ (State.doCommit s p).layout = s.layout ∧
    (State.doCommit s p).setup = s.setup ∧ (State.doCommit s p).serial = s.serial ∧
    (State.doCommit s p).bringing = s.bringing ∧ (State.doCommit s p).lmap = s.lmap ∧
    (State.doCommit s p).slices = s.slices ∧ (State.doCommit s p).hbmcs = s.hbmcs ∧
    (State.doCommit s p).bdies = s.bdies ∧ (State.doCommit s p).ports = s.ports ∧ (State.doCommit s p).time = s.time ∧
    (State.doCommit s p).chip = s.chip ∧ (State.doCommit s p).gov = s.gov ∧ (State.doCommit s p).mmc = s.mmc ∧
    (State.doCommit s p).gdbg = s.gdbg := by
  unfold State.doCommit
  split
  · simp
  · rename_i h
    obtain ⟨q, rfl⟩ := State.takeCtrl_state h
    try unfold State.withTable
    try dsimp only
    (repeat' split) <;> simp

@[simp] theorem State.doCommitRepeat_frame (s : State) (p : Nat) :
    (State.doCommitRepeat s p).pending = s.pending ∧ (State.doCommitRepeat s p).freeCtr = s.freeCtr ∧
    (State.doCommitRepeat s p).gradeS = s.gradeS ∧ (State.doCommitRepeat s p).ft = s.ft ∧
    (State.doCommitRepeat s p).cls = s.cls ∧ (State.doCommitRepeat s p).layout = s.layout ∧
    (State.doCommitRepeat s p).setup = s.setup ∧ (State.doCommitRepeat s p).serial = s.serial ∧
    (State.doCommitRepeat s p).bringing = s.bringing ∧ (State.doCommitRepeat s p).lmap = s.lmap ∧
    (State.doCommitRepeat s p).cores = s.cores ∧ (State.doCommitRepeat s p).slices = s.slices ∧
    (State.doCommitRepeat s p).hbmcs = s.hbmcs ∧ (State.doCommitRepeat s p).bdies = s.bdies ∧
    (State.doCommitRepeat s p).ports = s.ports ∧ (State.doCommitRepeat s p).time = s.time ∧
    (State.doCommitRepeat s p).out = s.out ∧ (State.doCommitRepeat s p).hif = s.hif ∧
    (State.doCommitRepeat s p).chip = s.chip ∧ (State.doCommitRepeat s p).gov = s.gov ∧
    (State.doCommitRepeat s p).mmc = s.mmc ∧ (State.doCommitRepeat s p).gdbg = s.gdbg := by
  unfold State.doCommitRepeat State.withTable
  split
  · try dsimp only
    (repeat' split) <;> simp
  · simp

@[simp] theorem State.doCommitQuery_frame (s : State) (p : Nat) :
    (State.doCommitQuery s p).pending = s.pending ∧ (State.doCommitQuery s p).freeCtr = s.freeCtr ∧
    (State.doCommitQuery s p).gradeS = s.gradeS ∧ (State.doCommitQuery s p).ft = s.ft ∧
    (State.doCommitQuery s p).cls = s.cls ∧ (State.doCommitQuery s p).layout = s.layout ∧
    (State.doCommitQuery s p).setup = s.setup ∧ (State.doCommitQuery s p).serial = s.serial ∧
    (State.doCommitQuery s p).bringing = s.bringing ∧ (State.doCommitQuery s p).lmap = s.lmap ∧
    (State.doCommitQuery s p).parts = s.parts ∧ (State.doCommitQuery s p).cores = s.cores ∧
    (State.doCommitQuery s p).slices = s.slices ∧ (State.doCommitQuery s p).hbmcs = s.hbmcs ∧
    (State.doCommitQuery s p).bdies = s.bdies ∧ (State.doCommitQuery s p).ports = s.ports ∧
    (State.doCommitQuery s p).time = s.time ∧ (State.doCommitQuery s p).out = s.out ∧
    (State.doCommitQuery s p).hif = s.hif ∧ (State.doCommitQuery s p).chip = s.chip ∧
    (State.doCommitQuery s p).gov = s.gov ∧ (State.doCommitQuery s p).mmc = s.mmc ∧
    (State.doCommitQuery s p).gdbg = s.gdbg := by
  unfold State.doCommitQuery
  split
  · simp
  · rename_i h
    obtain ⟨q, rfl⟩ := State.takeCtrl_state h
    try unfold State.withTable
    try dsimp only
    (repeat' split) <;> simp

@[simp] theorem State.doCommitQuerySend_frame (s : State) (p : Nat) :
    (State.doCommitQuerySend s p).pending = s.pending ∧ (State.doCommitQuerySend s p).freeCtr = s.freeCtr ∧
    (State.doCommitQuerySend s p).gradeS = s.gradeS ∧ (State.doCommitQuerySend s p).ft = s.ft ∧
    (State.doCommitQuerySend s p).cls = s.cls ∧ (State.doCommitQuerySend s p).layout = s.layout ∧
    (State.doCommitQuerySend s p).setup = s.setup ∧ (State.doCommitQuerySend s p).serial = s.serial ∧
    (State.doCommitQuerySend s p).bringing = s.bringing ∧ (State.doCommitQuerySend s p).lmap = s.lmap ∧
    (State.doCommitQuerySend s p).parts = s.parts ∧ (State.doCommitQuerySend s p).cores = s.cores ∧
    (State.doCommitQuerySend s p).slices = s.slices ∧ (State.doCommitQuerySend s p).hbmcs = s.hbmcs ∧
    (State.doCommitQuerySend s p).bdies = s.bdies ∧ (State.doCommitQuerySend s p).ports = s.ports ∧
    (State.doCommitQuerySend s p).time = s.time ∧ (State.doCommitQuerySend s p).out = s.out ∧
    (State.doCommitQuerySend s p).hif = s.hif ∧ (State.doCommitQuerySend s p).chip = s.chip ∧
    (State.doCommitQuerySend s p).gov = s.gov ∧ (State.doCommitQuerySend s p).mmc = s.mmc ∧
    (State.doCommitQuerySend s p).gdbg = s.gdbg := by
  unfold State.doCommitQuerySend State.withTable
  split
  · try dsimp only
    (repeat' split) <;> simp
  · simp

@[simp] theorem State.doSuspect_frame (s : State) (p : Nat) :
    (State.doSuspect s p).pending = s.pending ∧ (State.doSuspect s p).freeCtr = s.freeCtr ∧
    (State.doSuspect s p).gradeS = s.gradeS ∧ (State.doSuspect s p).ft = s.ft ∧ (State.doSuspect s p).cls = s.cls ∧
    (State.doSuspect s p).layout = s.layout ∧ (State.doSuspect s p).setup = s.setup ∧
    (State.doSuspect s p).serial = s.serial ∧ (State.doSuspect s p).bringing = s.bringing ∧
    (State.doSuspect s p).lmap = s.lmap ∧ (State.doSuspect s p).cores = s.cores ∧
    (State.doSuspect s p).slices = s.slices ∧ (State.doSuspect s p).hbmcs = s.hbmcs ∧
    (State.doSuspect s p).bdies = s.bdies ∧ (State.doSuspect s p).ports = s.ports ∧
    (State.doSuspect s p).time = s.time ∧ (State.doSuspect s p).out = s.out ∧ (State.doSuspect s p).hif = s.hif ∧
    (State.doSuspect s p).chip = s.chip ∧ (State.doSuspect s p).gov = s.gov ∧ (State.doSuspect s p).mmc = s.mmc ∧
    (State.doSuspect s p).gdbg = s.gdbg := by
  unfold State.doSuspect
  split
  · simp
  · rename_i h
    obtain ⟨q, rfl⟩ := State.takeCtrl_state h
    try unfold State.withTable
    try dsimp only
    (repeat' split) <;> simp

@[simp] theorem State.doLeave_frame (s : State) (p : Nat) :
    (State.doLeave s p).pending = s.pending ∧ (State.doLeave s p).freeCtr = s.freeCtr ∧
    (State.doLeave s p).gradeS = s.gradeS ∧ (State.doLeave s p).ft = s.ft ∧ (State.doLeave s p).cls = s.cls ∧
    (State.doLeave s p).layout = s.layout ∧ (State.doLeave s p).setup = s.setup ∧
    (State.doLeave s p).serial = s.serial ∧ (State.doLeave s p).bringing = s.bringing ∧
    (State.doLeave s p).lmap = s.lmap ∧ (State.doLeave s p).cores = s.cores ∧ (State.doLeave s p).slices = s.slices ∧
    (State.doLeave s p).hbmcs = s.hbmcs ∧ (State.doLeave s p).bdies = s.bdies ∧ (State.doLeave s p).ports = s.ports ∧
    (State.doLeave s p).time = s.time ∧ (State.doLeave s p).out = s.out ∧ (State.doLeave s p).hif = s.hif ∧
    (State.doLeave s p).chip = s.chip ∧ (State.doLeave s p).gov = s.gov ∧ (State.doLeave s p).mmc = s.mmc ∧
    (State.doLeave s p).gdbg = s.gdbg := by
  unfold State.doLeave
  split
  · simp
  · rename_i h
    obtain ⟨q, rfl⟩ := State.takeCtrl_state h
    try unfold State.withTable
    try dsimp only
    (repeat' split) <;> simp

@[simp] theorem State.doJoin_frame (s : State) (p : Nat) :
    (State.doJoin s p).pending = s.pending ∧ (State.doJoin s p).freeCtr = s.freeCtr ∧
    (State.doJoin s p).gradeS = s.gradeS ∧ (State.doJoin s p).ft = s.ft ∧ (State.doJoin s p).cls = s.cls ∧
    (State.doJoin s p).layout = s.layout ∧ (State.doJoin s p).setup = s.setup ∧ (State.doJoin s p).serial = s.serial ∧
    (State.doJoin s p).bringing = s.bringing ∧ (State.doJoin s p).lmap = s.lmap ∧ (State.doJoin s p).cores = s.cores ∧
    (State.doJoin s p).slices = s.slices ∧ (State.doJoin s p).hbmcs = s.hbmcs ∧ (State.doJoin s p).bdies = s.bdies ∧
    (State.doJoin s p).ports = s.ports ∧ (State.doJoin s p).time = s.time ∧ (State.doJoin s p).out = s.out ∧
    (State.doJoin s p).hif = s.hif ∧ (State.doJoin s p).chip = s.chip ∧ (State.doJoin s p).gov = s.gov ∧
    (State.doJoin s p).mmc = s.mmc ∧ (State.doJoin s p).gdbg = s.gdbg := by
  unfold State.doJoin
  split
  · simp
  · rename_i h
    obtain ⟨q, rfl⟩ := State.takeCtrl_state h
    try unfold State.withTable
    try dsimp only
    (repeat' split) <;> simp

@[simp] theorem State.doJoinReady_frame (s : State) (p : Nat) :
    (State.doJoinReady s p).pending = s.pending ∧ (State.doJoinReady s p).freeCtr = s.freeCtr ∧
    (State.doJoinReady s p).gradeS = s.gradeS ∧ (State.doJoinReady s p).ft = s.ft ∧
    (State.doJoinReady s p).cls = s.cls ∧ (State.doJoinReady s p).layout = s.layout ∧
    (State.doJoinReady s p).setup = s.setup ∧ (State.doJoinReady s p).serial = s.serial ∧
    (State.doJoinReady s p).bringing = s.bringing ∧ (State.doJoinReady s p).lmap = s.lmap ∧
    (State.doJoinReady s p).cores = s.cores ∧ (State.doJoinReady s p).slices = s.slices ∧
    (State.doJoinReady s p).hbmcs = s.hbmcs ∧ (State.doJoinReady s p).bdies = s.bdies ∧
    (State.doJoinReady s p).ports = s.ports ∧ (State.doJoinReady s p).time = s.time ∧
    (State.doJoinReady s p).out = s.out ∧ (State.doJoinReady s p).hif = s.hif ∧ (State.doJoinReady s p).chip = s.chip ∧
    (State.doJoinReady s p).gov = s.gov ∧ (State.doJoinReady s p).mmc = s.mmc ∧
    (State.doJoinReady s p).gdbg = s.gdbg := by
  unfold State.doJoinReady
  split
  · simp
  · rename_i h
    obtain ⟨q, rfl⟩ := State.takeCtrl_state h
    try unfold State.withTable
    try dsimp only
    (repeat' split) <;> simp

@[simp] theorem State.doHopTimeout_frame (s : State) (p txn : Nat) :
    (State.doHopTimeout s p txn).pending = s.pending ∧ (State.doHopTimeout s p txn).gradeS = s.gradeS ∧
    (State.doHopTimeout s p txn).ft = s.ft ∧ (State.doHopTimeout s p txn).cls = s.cls ∧
    (State.doHopTimeout s p txn).layout = s.layout ∧ (State.doHopTimeout s p txn).setup = s.setup ∧
    (State.doHopTimeout s p txn).serial = s.serial ∧ (State.doHopTimeout s p txn).bringing = s.bringing ∧
    (State.doHopTimeout s p txn).lmap = s.lmap ∧ (State.doHopTimeout s p txn).bdies = s.bdies ∧
    (State.doHopTimeout s p txn).time = s.time ∧ (State.doHopTimeout s p txn).gov = s.gov ∧
    (State.doHopTimeout s p txn).mmc = s.mmc := by
  unfold State.doHopTimeout State.withTable
  split
  · try dsimp only
    (repeat' split) <;> simp
  · simp

@[simp] theorem State.doContributionDeadline_frame (s : State) (p : Nat) :
    (State.doContributionDeadline s p).pending = s.pending ∧ (State.doContributionDeadline s p).gradeS = s.gradeS ∧
    (State.doContributionDeadline s p).ft = s.ft ∧ (State.doContributionDeadline s p).cls = s.cls ∧
    (State.doContributionDeadline s p).layout = s.layout ∧ (State.doContributionDeadline s p).setup = s.setup ∧
    (State.doContributionDeadline s p).serial = s.serial ∧ (State.doContributionDeadline s p).bringing = s.bringing ∧
    (State.doContributionDeadline s p).lmap = s.lmap ∧ (State.doContributionDeadline s p).bdies = s.bdies ∧
    (State.doContributionDeadline s p).time = s.time ∧ (State.doContributionDeadline s p).gov = s.gov ∧
    (State.doContributionDeadline s p).mmc = s.mmc := by
  unfold State.doContributionDeadline State.withTable
  split
  · rename_i t h
    generalize (s.exch p).deadline t = d
    simp
  · simp

@[simp] theorem State.doTakeover_frame (s : State) (p shard : Nat) :
    (State.doTakeover s p shard).pending = s.pending ∧ (State.doTakeover s p shard).gradeS = s.gradeS ∧
    (State.doTakeover s p shard).ft = s.ft ∧ (State.doTakeover s p shard).cls = s.cls ∧
    (State.doTakeover s p shard).layout = s.layout ∧ (State.doTakeover s p shard).setup = s.setup ∧
    (State.doTakeover s p shard).serial = s.serial ∧ (State.doTakeover s p shard).bringing = s.bringing ∧
    (State.doTakeover s p shard).lmap = s.lmap ∧ (State.doTakeover s p shard).bdies = s.bdies ∧
    (State.doTakeover s p shard).time = s.time ∧ (State.doTakeover s p shard).gov = s.gov ∧
    (State.doTakeover s p shard).mmc = s.mmc := by
  unfold State.doTakeover State.withTable
  split
  · try dsimp only
    (repeat' split) <;> simp
  · simp

@[simp] theorem State.doShardLost_frame (s : State) (p shard : Nat) :
    (State.doShardLost s p shard).pending = s.pending ∧ (State.doShardLost s p shard).freeCtr = s.freeCtr ∧
    (State.doShardLost s p shard).gradeS = s.gradeS ∧ (State.doShardLost s p shard).ft = s.ft ∧
    (State.doShardLost s p shard).cls = s.cls ∧ (State.doShardLost s p shard).layout = s.layout ∧
    (State.doShardLost s p shard).setup = s.setup ∧ (State.doShardLost s p shard).serial = s.serial ∧
    (State.doShardLost s p shard).bringing = s.bringing ∧ (State.doShardLost s p shard).lmap = s.lmap ∧
    (State.doShardLost s p shard).parts = s.parts ∧ (State.doShardLost s p shard).cores = s.cores ∧
    (State.doShardLost s p shard).slices = s.slices ∧ (State.doShardLost s p shard).hbmcs = s.hbmcs ∧
    (State.doShardLost s p shard).bdies = s.bdies ∧ (State.doShardLost s p shard).ports = s.ports ∧
    (State.doShardLost s p shard).nodes = s.nodes ∧ (State.doShardLost s p shard).time = s.time ∧
    (State.doShardLost s p shard).chip = s.chip ∧ (State.doShardLost s p shard).gov = s.gov ∧
    (State.doShardLost s p shard).mmc = s.mmc ∧ (State.doShardLost s p shard).gdbg = s.gdbg := by
  unfold State.doShardLost State.withTable
  split
  · try dsimp only
    (repeat' split) <;> simp
  · simp

@[simp] theorem State.doCommitTimeout_frame (s : State) (p : Nat) :
    (State.doCommitTimeout s p).pending = s.pending ∧ (State.doCommitTimeout s p).gradeS = s.gradeS ∧
    (State.doCommitTimeout s p).ft = s.ft ∧ (State.doCommitTimeout s p).cls = s.cls ∧
    (State.doCommitTimeout s p).layout = s.layout ∧ (State.doCommitTimeout s p).setup = s.setup ∧
    (State.doCommitTimeout s p).serial = s.serial ∧ (State.doCommitTimeout s p).bringing = s.bringing ∧
    (State.doCommitTimeout s p).lmap = s.lmap ∧ (State.doCommitTimeout s p).bdies = s.bdies ∧
    (State.doCommitTimeout s p).ports = s.ports ∧ (State.doCommitTimeout s p).nodes = s.nodes ∧
    (State.doCommitTimeout s p).time = s.time ∧ (State.doCommitTimeout s p).gov = s.gov ∧
    (State.doCommitTimeout s p).mmc = s.mmc := by
  unfold State.doCommitTimeout State.withTable
  split
  · try dsimp only
    (repeat' split) <;> simp
  · simp

@[simp] theorem State.doShardFetch_frame (s : State) (p shard : Nat) (bytes : HostRead) :
    (State.doShardFetch s p shard bytes).pending = s.pending ∧ (State.doShardFetch s p shard bytes).gradeS = s.gradeS ∧
    (State.doShardFetch s p shard bytes).ft = s.ft ∧ (State.doShardFetch s p shard bytes).cls = s.cls ∧
    (State.doShardFetch s p shard bytes).layout = s.layout ∧ (State.doShardFetch s p shard bytes).setup = s.setup ∧
    (State.doShardFetch s p shard bytes).serial = s.serial ∧
    (State.doShardFetch s p shard bytes).bringing = s.bringing ∧ (State.doShardFetch s p shard bytes).lmap = s.lmap ∧
    (State.doShardFetch s p shard bytes).bdies = s.bdies ∧ (State.doShardFetch s p shard bytes).ports = s.ports ∧
    (State.doShardFetch s p shard bytes).nodes = s.nodes ∧ (State.doShardFetch s p shard bytes).time = s.time ∧
    (State.doShardFetch s p shard bytes).gov = s.gov ∧ (State.doShardFetch s p shard bytes).mmc = s.mmc := by
  unfold State.doShardFetch State.withTable
  split
  · try dsimp only
    (repeat' split) <;> simp
  · simp

@[simp] theorem State.joinCopy_frame (s : State) (p : Nat) (t : ExTable) (shard : Nat) :
    (State.joinCopy s p t shard).pending = s.pending ∧ (State.joinCopy s p t shard).gradeS = s.gradeS ∧
    (State.joinCopy s p t shard).ft = s.ft ∧ (State.joinCopy s p t shard).cls = s.cls ∧
    (State.joinCopy s p t shard).layout = s.layout ∧ (State.joinCopy s p t shard).setup = s.setup ∧
    (State.joinCopy s p t shard).serial = s.serial ∧ (State.joinCopy s p t shard).bringing = s.bringing ∧
    (State.joinCopy s p t shard).lmap = s.lmap ∧ (State.joinCopy s p t shard).cores = s.cores ∧
    (State.joinCopy s p t shard).bdies = s.bdies ∧ (State.joinCopy s p t shard).ports = s.ports ∧
    (State.joinCopy s p t shard).time = s.time ∧ (State.joinCopy s p t shard).gov = s.gov ∧
    (State.joinCopy s p t shard).mmc = s.mmc := by
  unfold State.joinCopy
  simp
  (repeat' split) <;> simp

@[simp] theorem State.doStateCopy_frame (s : State) (p shard : Nat) :
    (State.doStateCopy s p shard).pending = s.pending ∧ (State.doStateCopy s p shard).gradeS = s.gradeS ∧
    (State.doStateCopy s p shard).ft = s.ft ∧ (State.doStateCopy s p shard).cls = s.cls ∧
    (State.doStateCopy s p shard).layout = s.layout ∧ (State.doStateCopy s p shard).setup = s.setup ∧
    (State.doStateCopy s p shard).serial = s.serial ∧ (State.doStateCopy s p shard).bringing = s.bringing ∧
    (State.doStateCopy s p shard).lmap = s.lmap ∧ (State.doStateCopy s p shard).cores = s.cores ∧
    (State.doStateCopy s p shard).bdies = s.bdies ∧ (State.doStateCopy s p shard).time = s.time ∧
    (State.doStateCopy s p shard).gov = s.gov ∧ (State.doStateCopy s p shard).mmc = s.mmc := by
  unfold State.doStateCopy State.withTable
  split
  · try dsimp only
    (repeat' split) <;> simp
  · simp

@[simp] theorem State.doStart_frame (s : State) (p : Nat) :
    (State.doStart s p).pending = s.pending ∧ (State.doStart s p).gradeS = s.gradeS ∧ (State.doStart s p).ft = s.ft ∧
    (State.doStart s p).cls = s.cls ∧ (State.doStart s p).layout = s.layout ∧ (State.doStart s p).setup = s.setup ∧
    (State.doStart s p).serial = s.serial ∧ (State.doStart s p).bringing = s.bringing ∧
    (State.doStart s p).lmap = s.lmap ∧ (State.doStart s p).cores = s.cores ∧ (State.doStart s p).slices = s.slices ∧
    (State.doStart s p).hbmcs = s.hbmcs ∧ (State.doStart s p).bdies = s.bdies ∧ (State.doStart s p).ports = s.ports ∧
    (State.doStart s p).nodes = s.nodes ∧ (State.doStart s p).time = s.time ∧ (State.doStart s p).chip = s.chip ∧
    (State.doStart s p).gov = s.gov ∧ (State.doStart s p).mmc = s.mmc ∧ (State.doStart s p).gdbg = s.gdbg := by
  unfold State.doStart State.withTable
  split
  · try dsimp only
    (repeat' split) <;> simp
  · simp

@[simp] theorem State.leaveGroup_frame (s : State) (p : Nat) :
    (State.leaveGroup s p).pending = s.pending ∧ (State.leaveGroup s p).freeCtr = s.freeCtr ∧
    (State.leaveGroup s p).gradeS = s.gradeS ∧ (State.leaveGroup s p).ft = s.ft ∧ (State.leaveGroup s p).cls = s.cls ∧
    (State.leaveGroup s p).layout = s.layout ∧ (State.leaveGroup s p).setup = s.setup ∧
    (State.leaveGroup s p).serial = s.serial ∧ (State.leaveGroup s p).bringing = s.bringing ∧
    (State.leaveGroup s p).lmap = s.lmap ∧ (State.leaveGroup s p).cores = s.cores ∧
    (State.leaveGroup s p).slices = s.slices ∧ (State.leaveGroup s p).hbmcs = s.hbmcs ∧
    (State.leaveGroup s p).bdies = s.bdies ∧ (State.leaveGroup s p).ports = s.ports ∧
    (State.leaveGroup s p).time = s.time ∧ (State.leaveGroup s p).chip = s.chip ∧ (State.leaveGroup s p).gov = s.gov ∧
    (State.leaveGroup s p).mmc = s.mmc ∧ (State.leaveGroup s p).gdbg = s.gdbg := by
  unfold State.leaveGroup State.withTable
  split
  · try dsimp only
    (repeat' split) <;> simp
  · simp

@[simp] theorem State.doJoinStart_frame (s : State) (p : Nat) :
    (State.doJoinStart s p).pending = s.pending ∧ (State.doJoinStart s p).gradeS = s.gradeS ∧
    (State.doJoinStart s p).ft = s.ft ∧ (State.doJoinStart s p).cls = s.cls ∧
    (State.doJoinStart s p).layout = s.layout ∧ (State.doJoinStart s p).setup = s.setup ∧
    (State.doJoinStart s p).serial = s.serial ∧ (State.doJoinStart s p).bringing = s.bringing ∧
    (State.doJoinStart s p).lmap = s.lmap ∧ (State.doJoinStart s p).cores = s.cores ∧
    (State.doJoinStart s p).slices = s.slices ∧ (State.doJoinStart s p).hbmcs = s.hbmcs ∧
    (State.doJoinStart s p).bdies = s.bdies ∧ (State.doJoinStart s p).ports = s.ports ∧
    (State.doJoinStart s p).time = s.time ∧ (State.doJoinStart s p).chip = s.chip ∧
    (State.doJoinStart s p).gov = s.gov ∧ (State.doJoinStart s p).mmc = s.mmc ∧
    (State.doJoinStart s p).gdbg = s.gdbg := by
  unfold State.doJoinStart State.withTable
  split
  · try dsimp only
    (repeat' split) <;> simp
  · simp

end Sys2Proof.Machine
end

