-- ==== Sys2Proof/Laws/FrameCmds.lean ====
section
/-! SUPPORT. Frames: which fields of the state each operation of Machine/FabricCmds, Sequencer, Completion leaves as they are. -/

namespace Sys2Proof.Machine

@[simp] theorem State.doHello_frame (s : State) (n : Nat) (raw : Bytes) :
    (State.doHello s n raw).pending = s.pending ∧ (State.doHello s n raw).freeCtr = s.freeCtr ∧
    (State.doHello s n raw).gradeS = s.gradeS ∧ (State.doHello s n raw).ft = s.ft ∧
    (State.doHello s n raw).cls = s.cls ∧ (State.doHello s n raw).layout = s.layout ∧
    (State.doHello s n raw).setup = s.setup ∧ (State.doHello s n raw).serial = s.serial ∧
    (State.doHello s n raw).bringing = s.bringing ∧ (State.doHello s n raw).lmap = s.lmap ∧
    (State.doHello s n raw).parts = s.parts ∧ (State.doHello s n raw).cores = s.cores ∧
    (State.doHello s n raw).slices = s.slices ∧ (State.doHello s n raw).hbmcs = s.hbmcs ∧
    (State.doHello s n raw).bdies = s.bdies ∧ (State.doHello s n raw).nodes = s.nodes ∧
    (State.doHello s n raw).chip = s.chip ∧ (State.doHello s n raw).gov = s.gov ∧
    (State.doHello s n raw).mmc = s.mmc := by
  unfold State.doHello
  simp
  (repeat' split) <;> simp

@[simp] theorem State.doHelloSend_frame (s : State) (n : Nat) :
    (State.doHelloSend s n).pending = s.pending ∧ (State.doHelloSend s n).freeCtr = s.freeCtr ∧
    (State.doHelloSend s n).gradeS = s.gradeS ∧ (State.doHelloSend s n).ft = s.ft ∧
    (State.doHelloSend s n).cls = s.cls ∧ (State.doHelloSend s n).layout = s.layout ∧
    (State.doHelloSend s n).setup = s.setup ∧ (State.doHelloSend s n).serial = s.serial ∧
    (State.doHelloSend s n).bringing = s.bringing ∧ (State.doHelloSend s n).lmap = s.lmap ∧
    (State.doHelloSend s n).parts = s.parts ∧ (State.doHelloSend s n).cores = s.cores ∧
    (State.doHelloSend s n).slices = s.slices ∧ (State.doHelloSend s n).hbmcs = s.hbmcs ∧
    (State.doHelloSend s n).bdies = s.bdies ∧ (State.doHelloSend s n).nodes = s.nodes ∧
    (State.doHelloSend s n).time = s.time ∧ (State.doHelloSend s n).hif = s.hif ∧
    (State.doHelloSend s n).chip = s.chip ∧ (State.doHelloSend s n).gov = s.gov ∧
    (State.doHelloSend s n).mmc = s.mmc := by
  unfold State.doHelloSend
  (repeat' split) <;> simp

@[simp] theorem State.doHelloTimeout_frame (s : State) (n : Nat) :
    (State.doHelloTimeout s n).pending = s.pending ∧ (State.doHelloTimeout s n).freeCtr = s.freeCtr ∧
    (State.doHelloTimeout s n).gradeS = s.gradeS ∧ (State.doHelloTimeout s n).ft = s.ft ∧
    (State.doHelloTimeout s n).cls = s.cls ∧ (State.doHelloTimeout s n).layout = s.layout ∧
    (State.doHelloTimeout s n).setup = s.setup ∧ (State.doHelloTimeout s n).serial = s.serial ∧
    (State.doHelloTimeout s n).bringing = s.bringing ∧ (State.doHelloTimeout s n).lmap = s.lmap ∧
    (State.doHelloTimeout s n).parts = s.parts ∧ (State.doHelloTimeout s n).slices = s.slices ∧
    (State.doHelloTimeout s n).hbmcs = s.hbmcs ∧ (State.doHelloTimeout s n).bdies = s.bdies ∧
    (State.doHelloTimeout s n).chip = s.chip ∧ (State.doHelloTimeout s n).gov = s.gov ∧
    (State.doHelloTimeout s n).mmc = s.mmc := by
  unfold State.doHelloTimeout
  (repeat' split) <;> simp

@[simp] theorem State.doLossOfSignal_frame (s : State) (n : Nat) :
    (State.doLossOfSignal s n).pending = s.pending ∧ (State.doLossOfSignal s n).freeCtr = s.freeCtr ∧
    (State.doLossOfSignal s n).gradeS = s.gradeS ∧ (State.doLossOfSignal s n).ft = s.ft ∧
    (State.doLossOfSignal s n).cls = s.cls ∧ (State.doLossOfSignal s n).layout = s.layout ∧
    (State.doLossOfSignal s n).setup = s.setup ∧ (State.doLossOfSignal s n).serial = s.serial ∧
    (State.doLossOfSignal s n).bringing = s.bringing ∧ (State.doLossOfSignal s n).lmap = s.lmap ∧
    (State.doLossOfSignal s n).parts = s.parts ∧ (State.doLossOfSignal s n).slices = s.slices ∧
    (State.doLossOfSignal s n).hbmcs = s.hbmcs ∧ (State.doLossOfSignal s n).bdies = s.bdies ∧
    (State.doLossOfSignal s n).chip = s.chip ∧ (State.doLossOfSignal s n).gov = s.gov ∧
    (State.doLossOfSignal s n).mmc = s.mmc := by
  unfold State.doLossOfSignal
  (repeat' split) <;> simp

@[simp] theorem State.doCableInsert_frame (s : State) (n : Nat) (errs : List (Nat × Nat)) :
    (State.doCableInsert s n errs).pending = s.pending ∧ (State.doCableInsert s n errs).freeCtr = s.freeCtr ∧
    (State.doCableInsert s n errs).gradeS = s.gradeS ∧ (State.doCableInsert s n errs).ft = s.ft ∧
    (State.doCableInsert s n errs).cls = s.cls ∧ (State.doCableInsert s n errs).layout = s.layout ∧
    (State.doCableInsert s n errs).setup = s.setup ∧ (State.doCableInsert s n errs).serial = s.serial ∧
    (State.doCableInsert s n errs).bringing = s.bringing ∧ (State.doCableInsert s n errs).lmap = s.lmap ∧
    (State.doCableInsert s n errs).parts = s.parts ∧ (State.doCableInsert s n errs).slices = s.slices ∧
    (State.doCableInsert s n errs).hbmcs = s.hbmcs ∧ (State.doCableInsert s n errs).bdies = s.bdies ∧
    (State.doCableInsert s n errs).nodes = s.nodes ∧ (State.doCableInsert s n errs).time = s.time ∧
    (State.doCableInsert s n errs).chip = s.chip ∧ (State.doCableInsert s n errs).gov = s.gov ∧
    (State.doCableInsert s n errs).mmc = s.mmc ∧ (State.doCableInsert s n errs).gdbg = s.gdbg := by
  unfold State.doCableInsert
  (repeat' split) <;> simp

@[simp] theorem State.doPortTrainingDone_frame (s : State) (n : Nat) (errs : List (Nat × Nat)) :
    (State.doPortTrainingDone s n errs).pending = s.pending ∧ (State.doPortTrainingDone s n errs).freeCtr = s.freeCtr ∧
    (State.doPortTrainingDone s n errs).gradeS = s.gradeS ∧ (State.doPortTrainingDone s n errs).ft = s.ft ∧
    (State.doPortTrainingDone s n errs).cls = s.cls ∧ (State.doPortTrainingDone s n errs).layout = s.layout ∧
    (State.doPortTrainingDone s n errs).setup = s.setup ∧ (State.doPortTrainingDone s n errs).serial = s.serial ∧
    (State.doPortTrainingDone s n errs).bringing = s.bringing ∧ (State.doPortTrainingDone s n errs).lmap = s.lmap ∧
    (State.doPortTrainingDone s n errs).parts = s.parts ∧ (State.doPortTrainingDone s n errs).slices = s.slices ∧
    (State.doPortTrainingDone s n errs).hbmcs = s.hbmcs ∧ (State.doPortTrainingDone s n errs).bdies = s.bdies ∧
    (State.doPortTrainingDone s n errs).time = s.time ∧ (State.doPortTrainingDone s n errs).chip = s.chip ∧
    (State.doPortTrainingDone s n errs).gov = s.gov ∧ (State.doPortTrainingDone s n errs).mmc = s.mmc := by
  unfold State.doPortTrainingDone
  (repeat' split) <;> simp

@[simp] theorem State.doRetrain_frame (s : State) (n : Nat) :
    (State.doRetrain s n).pending = s.pending ∧ (State.doRetrain s n).freeCtr = s.freeCtr ∧
    (State.doRetrain s n).gradeS = s.gradeS ∧ (State.doRetrain s n).ft = s.ft ∧ (State.doRetrain s n).cls = s.cls ∧
    (State.doRetrain s n).layout = s.layout ∧ (State.doRetrain s n).setup = s.setup ∧
    (State.doRetrain s n).serial = s.serial ∧ (State.doRetrain s n).bringing = s.bringing ∧
    (State.doRetrain s n).lmap = s.lmap ∧ (State.doRetrain s n).parts = s.parts ∧
    (State.doRetrain s n).cores = s.cores ∧ (State.doRetrain s n).slices = s.slices ∧
    (State.doRetrain s n).hbmcs = s.hbmcs ∧ (State.doRetrain s n).bdies = s.bdies ∧
    (State.doRetrain s n).nodes = s.nodes ∧ (State.doRetrain s n).time = s.time ∧ (State.doRetrain s n).out = s.out ∧
    (State.doRetrain s n).hif = s.hif ∧ (State.doRetrain s n).chip = s.chip ∧ (State.doRetrain s n).gov = s.gov ∧
    (State.doRetrain s n).mmc = s.mmc ∧ (State.doRetrain s n).gdbg = s.gdbg := by
  unfold State.doRetrain
  (repeat' split) <;> simp

@[simp] theorem State.doDisable_frame (s : State) (n : Nat) :
    (State.doDisable s n).pending = s.pending ∧ (State.doDisable s n).freeCtr = s.freeCtr ∧
    (State.doDisable s n).gradeS = s.gradeS ∧ (State.doDisable s n).ft = s.ft ∧ (State.doDisable s n).cls = s.cls ∧
    (State.doDisable s n).layout = s.layout ∧ (State.doDisable s n).setup = s.setup ∧
    (State.doDisable s n).serial = s.serial ∧ (State.doDisable s n).bringing = s.bringing ∧
    (State.doDisable s n).lmap = s.lmap ∧ (State.doDisable s n).parts = s.parts ∧
    (State.doDisable s n).slices = s.slices ∧ (State.doDisable s n).hbmcs = s.hbmcs ∧
    (State.doDisable s n).bdies = s.bdies ∧ (State.doDisable s n).chip = s.chip ∧ (State.doDisable s n).gov = s.gov ∧
    (State.doDisable s n).mmc = s.mmc := by
  unfold State.doDisable
  (repeat' split) <;> simp

@[simp] theorem State.acceptFlit_frame (s : State) (n : Nat) (raw : Bytes) :
    (State.acceptFlit s n raw).pending = s.pending ∧ (State.acceptFlit s n raw).freeCtr = s.freeCtr ∧
    (State.acceptFlit s n raw).gradeS = s.gradeS ∧ (State.acceptFlit s n raw).ft = s.ft ∧
    (State.acceptFlit s n raw).cls = s.cls ∧ (State.acceptFlit s n raw).layout = s.layout ∧
    (State.acceptFlit s n raw).setup = s.setup ∧ (State.acceptFlit s n raw).serial = s.serial ∧
    (State.acceptFlit s n raw).bringing = s.bringing ∧ (State.acceptFlit s n raw).lmap = s.lmap ∧
    (State.acceptFlit s n raw).parts = s.parts ∧ (State.acceptFlit s n raw).cores = s.cores ∧
    (State.acceptFlit s n raw).slices = s.slices ∧ (State.acceptFlit s n raw).hbmcs = s.hbmcs ∧
    (State.acceptFlit s n raw).bdies = s.bdies ∧ (State.acceptFlit s n raw).time = s.time ∧
    (State.acceptFlit s n raw).chip = s.chip ∧ (State.acceptFlit s n raw).gov = s.gov ∧
    (State.acceptFlit s n raw).mmc = s.mmc := by
  unfold State.acceptFlit
  (repeat' split) <;> simp

@[simp] theorem State.doPacketFlit_frame (s : State) (n : Nat) (raw : Bytes) (lane : Nat) :
    (State.doPacketFlit s n raw lane).pending = s.pending ∧ (State.doPacketFlit s n raw lane).freeCtr = s.freeCtr ∧
    (State.doPacketFlit s n raw lane).gradeS = s.gradeS ∧ (State.doPacketFlit s n raw lane).ft = s.ft ∧
    (State.doPacketFlit s n raw lane).cls = s.cls ∧ (State.doPacketFlit s n raw lane).layout = s.layout ∧
    (State.doPacketFlit s n raw lane).setup = s.setup ∧ (State.doPacketFlit s n raw lane).serial = s.serial ∧
    (State.doPacketFlit s n raw lane).bringing = s.bringing ∧ (State.doPacketFlit s n raw lane).lmap = s.lmap ∧
    (State.doPacketFlit s n raw lane).parts = s.parts ∧ (State.doPacketFlit s n raw lane).cores = s.cores ∧
    (State.doPacketFlit s n raw lane).slices = s.slices ∧ (State.doPacketFlit s n raw lane).hbmcs = s.hbmcs ∧
    (State.doPacketFlit s n raw lane).bdies = s.bdies ∧ (State.doPacketFlit s n raw lane).time = s.time ∧
    (State.doPacketFlit s n raw lane).chip = s.chip ∧ (State.doPacketFlit s n raw lane).gov = s.gov ∧
    (State.doPacketFlit s n raw lane).mmc = s.mmc := by
  unfold State.doPacketFlit
  (repeat' split) <;> simp

@[simp] theorem State.doReplayRequest_frame (s : State) (n : Nat) (raw : Bytes) :
    (State.doReplayRequest s n raw).pending = s.pending ∧ (State.doReplayRequest s n raw).freeCtr = s.freeCtr ∧
    (State.doReplayRequest s n raw).gradeS = s.gradeS ∧ (State.doReplayRequest s n raw).ft = s.ft ∧
    (State.doReplayRequest s n raw).cls = s.cls ∧ (State.doReplayRequest s n raw).layout = s.layout ∧
    (State.doReplayRequest s n raw).setup = s.setup ∧ (State.doReplayRequest s n raw).serial = s.serial ∧
    (State.doReplayRequest s n raw).bringing = s.bringing ∧ (State.doReplayRequest s n raw).lmap = s.lmap ∧
    (State.doReplayRequest s n raw).parts = s.parts ∧ (State.doReplayRequest s n raw).cores = s.cores ∧
    (State.doReplayRequest s n raw).slices = s.slices ∧ (State.doReplayRequest s n raw).hbmcs = s.hbmcs ∧
    (State.doReplayRequest s n raw).bdies = s.bdies ∧ (State.doReplayRequest s n raw).nodes = s.nodes ∧
    (State.doReplayRequest s n raw).time = s.time ∧ (State.doReplayRequest s n raw).hif = s.hif ∧
    (State.doReplayRequest s n raw).chip = s.chip ∧ (State.doReplayRequest s n raw).gov = s.gov ∧
    (State.doReplayRequest s n raw).mmc = s.mmc ∧ (State.doReplayRequest s n raw).gdbg = s.gdbg := by
  unfold State.doReplayRequest
  simp
  (repeat' split) <;> simp

@[simp] theorem State.doReplayRequestRepeat_frame (s : State) (n : Nat) :
    (State.doReplayRequestRepeat s n).pending = s.pending ∧ (State.doReplayRequestRepeat s n).freeCtr = s.freeCtr ∧
    (State.doReplayRequestRepeat s n).gradeS = s.gradeS ∧ (State.doReplayRequestRepeat s n).ft = s.ft ∧
    (State.doReplayRequestRepeat s n).cls = s.cls ∧ (State.doReplayRequestRepeat s n).layout = s.layout ∧
    (State.doReplayRequestRepeat s n).setup = s.setup ∧ (State.doReplayRequestRepeat s n).serial = s.serial ∧
    (State.doReplayRequestRepeat s n).bringing = s.bringing ∧ (State.doReplayRequestRepeat s n).lmap = s.lmap ∧
    (State.doReplayRequestRepeat s n).parts = s.parts ∧ (State.doReplayRequestRepeat s n).cores = s.cores ∧
    (State.doReplayRequestRepeat s n).slices = s.slices ∧ (State.doReplayRequestRepeat s n).hbmcs = s.hbmcs ∧
    (State.doReplayRequestRepeat s n).bdies = s.bdies ∧ (State.doReplayRequestRepeat s n).nodes = s.nodes ∧
    (State.doReplayRequestRepeat s n).time = s.time ∧ (State.doReplayRequestRepeat s n).hif = s.hif ∧
    (State.doReplayRequestRepeat s n).chip = s.chip ∧ (State.doReplayRequestRepeat s n).gov = s.gov ∧
    (State.doReplayRequestRepeat s n).mmc = s.mmc := by
  unfold State.doReplayRequestRepeat
  (repeat' split) <;> simp

@[simp] theorem State.doIdleFlit_frame (s : State) (n : Nat) (raw : Bytes) :
    (State.doIdleFlit s n raw).pending = s.pending ∧ (State.doIdleFlit s n raw).freeCtr = s.freeCtr ∧
    (State.doIdleFlit s n raw).gradeS = s.gradeS ∧ (State.doIdleFlit s n raw).ft = s.ft ∧
    (State.doIdleFlit s n raw).cls = s.cls ∧ (State.doIdleFlit s n raw).layout = s.layout ∧
    (State.doIdleFlit s n raw).setup = s.setup ∧ (State.doIdleFlit s n raw).serial = s.serial ∧
    (State.doIdleFlit s n raw).bringing = s.bringing ∧ (State.doIdleFlit s n raw).lmap = s.lmap ∧
    (State.doIdleFlit s n raw).parts = s.parts ∧ (State.doIdleFlit s n raw).cores = s.cores ∧
    (State.doIdleFlit s n raw).slices = s.slices ∧ (State.doIdleFlit s n raw).hbmcs = s.hbmcs ∧
    (State.doIdleFlit s n raw).bdies = s.bdies ∧ (State.doIdleFlit s n raw).nodes = s.nodes ∧
    (State.doIdleFlit s n raw).time = s.time ∧ (State.doIdleFlit s n raw).hif = s.hif ∧
    (State.doIdleFlit s n raw).chip = s.chip ∧ (State.doIdleFlit s n raw).gov = s.gov ∧
    (State.doIdleFlit s n raw).mmc = s.mmc := by
  unfold State.doIdleFlit
  (repeat' split) <;> simp

@[simp] theorem State.doFabricStall_frame (s : State) (n tc vl : Nat) :
    (State.doFabricStall s n tc vl).pending = s.pending ∧ (State.doFabricStall s n tc vl).freeCtr = s.freeCtr ∧
    (State.doFabricStall s n tc vl).gradeS = s.gradeS ∧ (State.doFabricStall s n tc vl).ft = s.ft ∧
    (State.doFabricStall s n tc vl).cls = s.cls ∧ (State.doFabricStall s n tc vl).layout = s.layout ∧
    (State.doFabricStall s n tc vl).setup = s.setup ∧ (State.doFabricStall s n tc vl).serial = s.serial ∧
    (State.doFabricStall s n tc vl).bringing = s.bringing ∧ (State.doFabricStall s n tc vl).lmap = s.lmap ∧
    (State.doFabricStall s n tc vl).parts = s.parts ∧ (State.doFabricStall s n tc vl).cores = s.cores ∧
    (State.doFabricStall s n tc vl).slices = s.slices ∧ (State.doFabricStall s n tc vl).hbmcs = s.hbmcs ∧
    (State.doFabricStall s n tc vl).bdies = s.bdies ∧ (State.doFabricStall s n tc vl).ports = s.ports ∧
    (State.doFabricStall s n tc vl).nodes = s.nodes ∧ (State.doFabricStall s n tc vl).time = s.time ∧
    (State.doFabricStall s n tc vl).chip = s.chip ∧ (State.doFabricStall s n tc vl).gov = s.gov ∧
    (State.doFabricStall s n tc vl).mmc = s.mmc ∧ (State.doFabricStall s n tc vl).gdbg = s.gdbg := by
  unfold State.doFabricStall
  (repeat' split) <;> simp

@[simp] theorem State.doTc0Inject_frame (s : State) (p : Nat) :
    (State.doTc0Inject s p).pending = s.pending ∧ (State.doTc0Inject s p).freeCtr = s.freeCtr ∧
    (State.doTc0Inject s p).gradeS = s.gradeS ∧ (State.doTc0Inject s p).ft = s.ft ∧
    (State.doTc0Inject s p).cls = s.cls ∧ (State.doTc0Inject s p).layout = s.layout ∧
    (State.doTc0Inject s p).setup = s.setup ∧ (State.doTc0Inject s p).serial = s.serial ∧
    (State.doTc0Inject s p).bringing = s.bringing ∧ (State.doTc0Inject s p).lmap = s.lmap ∧
    (State.doTc0Inject s p).parts = s.parts ∧ (State.doTc0Inject s p).cores = s.cores ∧
    (State.doTc0Inject s p).slices = s.slices ∧ (State.doTc0Inject s p).hbmcs = s.hbmcs ∧
    (State.doTc0Inject s p).bdies = s.bdies ∧ (State.doTc0Inject s p).time = s.time ∧
    (State.doTc0Inject s p).chip = s.chip ∧ (State.doTc0Inject s p).gov = s.gov ∧
    (State.doTc0Inject s p).mmc = s.mmc := by
  unfold State.doTc0Inject
  simp
  (repeat' split) <;> simp

@[simp] theorem State.doWithdrawalExpiry_frame (s : State) (n dest : Nat) :
    (State.doWithdrawalExpiry s n dest).pending = s.pending ∧ (State.doWithdrawalExpiry s n dest).freeCtr = s.freeCtr ∧
    (State.doWithdrawalExpiry s n dest).gradeS = s.gradeS ∧ (State.doWithdrawalExpiry s n dest).ft = s.ft ∧
    (State.doWithdrawalExpiry s n dest).cls = s.cls ∧ (State.doWithdrawalExpiry s n dest).layout = s.layout ∧
    (State.doWithdrawalExpiry s n dest).setup = s.setup ∧ (State.doWithdrawalExpiry s n dest).serial = s.serial ∧
    (State.doWithdrawalExpiry s n dest).bringing = s.bringing ∧ (State.doWithdrawalExpiry s n dest).lmap = s.lmap ∧
    (State.doWithdrawalExpiry s n dest).parts = s.parts ∧ (State.doWithdrawalExpiry s n dest).cores = s.cores ∧
    (State.doWithdrawalExpiry s n dest).slices = s.slices ∧ (State.doWithdrawalExpiry s n dest).hbmcs = s.hbmcs ∧
    (State.doWithdrawalExpiry s n dest).bdies = s.bdies ∧ (State.doWithdrawalExpiry s n dest).nodes = s.nodes ∧
    (State.doWithdrawalExpiry s n dest).time = s.time ∧ (State.doWithdrawalExpiry s n dest).out = s.out ∧
    (State.doWithdrawalExpiry s n dest).hif = s.hif ∧ (State.doWithdrawalExpiry s n dest).chip = s.chip ∧
    (State.doWithdrawalExpiry s n dest).gov = s.gov ∧ (State.doWithdrawalExpiry s n dest).mmc = s.mmc ∧
    (State.doWithdrawalExpiry s n dest).gdbg = s.gdbg := by
  unfold State.doWithdrawalExpiry
  (repeat' split) <;> simp

@[simp] theorem State.doUnreachable_frame (s : State) (n : Nat) :
    (State.doUnreachable s n).pending = s.pending ∧ (State.doUnreachable s n).freeCtr = s.freeCtr ∧
    (State.doUnreachable s n).gradeS = s.gradeS ∧ (State.doUnreachable s n).ft = s.ft ∧
    (State.doUnreachable s n).cls = s.cls ∧ (State.doUnreachable s n).layout = s.layout ∧
    (State.doUnreachable s n).setup = s.setup ∧ (State.doUnreachable s n).serial = s.serial ∧
    (State.doUnreachable s n).bringing = s.bringing ∧ (State.doUnreachable s n).lmap = s.lmap ∧
    (State.doUnreachable s n).parts = s.parts ∧ (State.doUnreachable s n).cores = s.cores ∧
    (State.doUnreachable s n).slices = s.slices ∧ (State.doUnreachable s n).hbmcs = s.hbmcs ∧
    (State.doUnreachable s n).bdies = s.bdies ∧ (State.doUnreachable s n).time = s.time ∧
    (State.doUnreachable s n).out = s.out ∧ (State.doUnreachable s n).hif = s.hif ∧
    (State.doUnreachable s n).chip = s.chip ∧ (State.doUnreachable s n).gov = s.gov ∧
    (State.doUnreachable s n).mmc = s.mmc ∧ (State.doUnreachable s n).gdbg = s.gdbg := by
  unfold State.doUnreachable
  split
  · simp
  · rename_i h
    obtain ⟨q, rfl⟩ := State.takeInbox_state h
    try unfold State.withTable
    try dsimp only
    (repeat' split) <;> simp

@[simp] theorem State.doWrite_frame (s : State) (p : Nat) :
    (State.doWrite s p).pending = s.pending ∧ (State.doWrite s p).gradeS = s.gradeS ∧ (State.doWrite s p).ft = s.ft ∧
    (State.doWrite s p).cls = s.cls ∧ (State.doWrite s p).layout = s.layout ∧ (State.doWrite s p).setup = s.setup ∧
    (State.doWrite s p).serial = s.serial ∧ (State.doWrite s p).bringing = s.bringing ∧
    (State.doWrite s p).lmap = s.lmap ∧ (State.doWrite s p).bdies = s.bdies ∧ (State.doWrite s p).time = s.time ∧
    (State.doWrite s p).gov = s.gov ∧ (State.doWrite s p).mmc = s.mmc := by
  unfold State.doWrite
  split
  · simp
  · rename_i h
    obtain ⟨q, rfl⟩ := State.takeKind_state h
    try unfold State.withTable
    try dsimp only
    (repeat' split) <;> simp

@[simp] theorem State.doRead_frame (s : State) (p : Nat) (flt : MemFault) :
    (State.doRead s p flt).pending = s.pending ∧ (State.doRead s p flt).gradeS = s.gradeS ∧
    (State.doRead s p flt).ft = s.ft ∧ (State.doRead s p flt).cls = s.cls ∧ (State.doRead s p flt).layout = s.layout ∧
    (State.doRead s p flt).setup = s.setup ∧ (State.doRead s p flt).serial = s.serial ∧
    (State.doRead s p flt).bringing = s.bringing ∧ (State.doRead s p flt).lmap = s.lmap ∧
    (State.doRead s p flt).cores = s.cores ∧ (State.doRead s p flt).bdies = s.bdies ∧
    (State.doRead s p flt).time = s.time ∧ (State.doRead s p flt).gov = s.gov ∧
    (State.doRead s p flt).mmc = s.mmc := by
  unfold State.doRead
  split
  · simp
  · rename_i h
    obtain ⟨q, rfl⟩ := State.takeKind_state h
    try unfold State.withTable
    try dsimp only
    (repeat' split) <;> simp

@[simp] theorem State.doReadResp_frame (s : State) (p : Nat) :
    (State.doReadResp s p).pending = s.pending ∧ (State.doReadResp s p).gradeS = s.gradeS ∧
    (State.doReadResp s p).ft = s.ft ∧ (State.doReadResp s p).cls = s.cls ∧ (State.doReadResp s p).layout = s.layout ∧
    (State.doReadResp s p).setup = s.setup ∧ (State.doReadResp s p).serial = s.serial ∧
    (State.doReadResp s p).bringing = s.bringing ∧ (State.doReadResp s p).lmap = s.lmap ∧
    (State.doReadResp s p).parts = s.parts ∧ (State.doReadResp s p).slices = s.slices ∧
    (State.doReadResp s p).hbmcs = s.hbmcs ∧ (State.doReadResp s p).ports = s.ports ∧
    (State.doReadResp s p).time = s.time ∧ (State.doReadResp s p).out = s.out ∧ (State.doReadResp s p).hif = s.hif ∧
    (State.doReadResp s p).chip = s.chip ∧ (State.doReadResp s p).gov = s.gov ∧ (State.doReadResp s p).mmc = s.mmc ∧
    (State.doReadResp s p).gdbg = s.gdbg := by
  unfold State.doReadResp
  split
  · simp
  · rename_i h
    obtain ⟨q, rfl⟩ := State.takeKind_state h
    try unfold State.withTable
    try dsimp only
    (repeat' split) <;> simp

@[simp] theorem State.doWriteResp_frame (s : State) (p : Nat) :
    (State.doWriteResp s p).pending = s.pending ∧ (State.doWriteResp s p).freeCtr = s.freeCtr ∧
    (State.doWriteResp s p).gradeS = s.gradeS ∧ (State.doWriteResp s p).ft = s.ft ∧
    (State.doWriteResp s p).cls = s.cls ∧ (State.doWriteResp s p).layout = s.layout ∧
    (State.doWriteResp s p).setup = s.setup ∧ (State.doWriteResp s p).serial = s.serial ∧
    (State.doWriteResp s p).bringing = s.bringing ∧ (State.doWriteResp s p).lmap = s.lmap ∧
    (State.doWriteResp s p).slices = s.slices ∧ (State.doWriteResp s p).hbmcs = s.hbmcs ∧
    (State.doWriteResp s p).ports = s.ports ∧ (State.doWriteResp s p).time = s.time ∧
    (State.doWriteResp s p).out = s.out ∧ (State.doWriteResp s p).hif = s.hif ∧ (State.doWriteResp s p).chip = s.chip ∧
    (State.doWriteResp s p).gov = s.gov ∧ (State.doWriteResp s p).mmc = s.mmc ∧
    (State.doWriteResp s p).gdbg = s.gdbg := by
  unfold State.doWriteResp
  split
  · simp
  · rename_i h
    obtain ⟨q, rfl⟩ := State.takeKind_state h
    try unfold State.withTable
    try dsimp only
    (repeat' split) <;> simp

@[simp] theorem State.remoteFailed_frame (s : State) (ch : Chan) (cause : Nat) :
    (State.remoteFailed s ch cause).pending = s.pending ∧ (State.remoteFailed s ch cause).freeCtr = s.freeCtr ∧
    (State.remoteFailed s ch cause).gradeS = s.gradeS ∧ (State.remoteFailed s ch cause).ft = s.ft ∧
    (State.remoteFailed s ch cause).cls = s.cls ∧ (State.remoteFailed s ch cause).layout = s.layout ∧
    (State.remoteFailed s ch cause).setup = s.setup ∧ (State.remoteFailed s ch cause).serial = s.serial ∧
    (State.remoteFailed s ch cause).bringing = s.bringing ∧ (State.remoteFailed s ch cause).lmap = s.lmap ∧
    (State.remoteFailed s ch cause).parts = s.parts ∧ (State.remoteFailed s ch cause).slices = s.slices ∧
    (State.remoteFailed s ch cause).hbmcs = s.hbmcs ∧ (State.remoteFailed s ch cause).ports = s.ports ∧
    (State.remoteFailed s ch cause).nodes = s.nodes ∧ (State.remoteFailed s ch cause).time = s.time ∧
    (State.remoteFailed s ch cause).out = s.out ∧ (State.remoteFailed s ch cause).hif = s.hif ∧
    (State.remoteFailed s ch cause).chip = s.chip ∧ (State.remoteFailed s ch cause).gov = s.gov ∧
    (State.remoteFailed s ch cause).mmc = s.mmc ∧ (State.remoteFailed s ch cause).gdbg = s.gdbg := by
  unfold State.remoteFailed
  (repeat' split) <;> simp

@[simp] theorem State.doErrorResp_frame (s : State) (p : Nat) :
    (State.doErrorResp s p).pending = s.pending ∧ (State.doErrorResp s p).gradeS = s.gradeS ∧
    (State.doErrorResp s p).ft = s.ft ∧ (State.doErrorResp s p).cls = s.cls ∧
    (State.doErrorResp s p).layout = s.layout ∧ (State.doErrorResp s p).setup = s.setup ∧
    (State.doErrorResp s p).serial = s.serial ∧ (State.doErrorResp s p).bringing = s.bringing ∧
    (State.doErrorResp s p).lmap = s.lmap ∧ (State.doErrorResp s p).time = s.time ∧
    (State.doErrorResp s p).gov = s.gov ∧ (State.doErrorResp s p).mmc = s.mmc := by
  unfold State.doErrorResp
  split
  · simp
  · rename_i h
    obtain ⟨q, rfl⟩ := State.takeKind_state h
    try unfold State.withTable
    try dsimp only
    (repeat' split) <;> simp

@[simp] theorem State.doRemoteSignal_frame (s : State) (p : Nat) :
    (State.doRemoteSignal s p).pending = s.pending ∧ (State.doRemoteSignal s p).gradeS = s.gradeS ∧
    (State.doRemoteSignal s p).ft = s.ft ∧ (State.doRemoteSignal s p).cls = s.cls ∧
    (State.doRemoteSignal s p).layout = s.layout ∧ (State.doRemoteSignal s p).setup = s.setup ∧
    (State.doRemoteSignal s p).serial = s.serial ∧ (State.doRemoteSignal s p).bringing = s.bringing ∧
    (State.doRemoteSignal s p).lmap = s.lmap ∧ (State.doRemoteSignal s p).bdies = s.bdies ∧
    (State.doRemoteSignal s p).ports = s.ports ∧ (State.doRemoteSignal s p).time = s.time ∧
    (State.doRemoteSignal s p).gov = s.gov ∧ (State.doRemoteSignal s p).mmc = s.mmc := by
  unfold State.doRemoteSignal
  split
  · simp
  · rename_i h
    obtain ⟨q, rfl⟩ := State.takeKind_state h
    try unfold State.withTable
    try dsimp only
    (repeat' split) <;> simp

@[simp] theorem State.releaseFabric_frame (s : State) (p seq : Nat) :
    (State.releaseFabric s p seq).pending = s.pending ∧ (State.releaseFabric s p seq).freeCtr = s.freeCtr ∧
    (State.releaseFabric s p seq).gradeS = s.gradeS ∧ (State.releaseFabric s p seq).ft = s.ft ∧
    (State.releaseFabric s p seq).cls = s.cls ∧ (State.releaseFabric s p seq).layout = s.layout ∧
    (State.releaseFabric s p seq).setup = s.setup ∧ (State.releaseFabric s p seq).serial = s.serial ∧
    (State.releaseFabric s p seq).bringing = s.bringing ∧ (State.releaseFabric s p seq).lmap = s.lmap ∧
    (State.releaseFabric s p seq).slices = s.slices ∧ (State.releaseFabric s p seq).hbmcs = s.hbmcs ∧
    (State.releaseFabric s p seq).bdies = s.bdies ∧ (State.releaseFabric s p seq).ports = s.ports ∧
    (State.releaseFabric s p seq).nodes = s.nodes ∧ (State.releaseFabric s p seq).time = s.time ∧
    (State.releaseFabric s p seq).out = s.out ∧ (State.releaseFabric s p seq).hif = s.hif ∧
    (State.releaseFabric s p seq).chip = s.chip ∧ (State.releaseFabric s p seq).gov = s.gov ∧
    (State.releaseFabric s p seq).mmc = s.mmc ∧ (State.releaseFabric s p seq).gdbg = s.gdbg := by
  unfold State.releaseFabric
  (repeat' split) <;> simp

@[simp] theorem State.countArrival_frame (s : State) (p seq n : Nat) :
    (State.countArrival s p seq n).pending = s.pending ∧ (State.countArrival s p seq n).freeCtr = s.freeCtr ∧
    (State.countArrival s p seq n).gradeS = s.gradeS ∧ (State.countArrival s p seq n).ft = s.ft ∧
    (State.countArrival s p seq n).cls = s.cls ∧ (State.countArrival s p seq n).layout = s.layout ∧
    (State.countArrival s p seq n).setup = s.setup ∧ (State.countArrival s p seq n).serial = s.serial ∧
    (State.countArrival s p seq n).bringing = s.bringing ∧ (State.countArrival s p seq n).lmap = s.lmap ∧
    (State.countArrival s p seq n).slices = s.slices ∧ (State.countArrival s p seq n).hbmcs = s.hbmcs ∧
    (State.countArrival s p seq n).bdies = s.bdies ∧ (State.countArrival s p seq n).ports = s.ports ∧
    (State.countArrival s p seq n).time = s.time ∧ (State.countArrival s p seq n).out = s.out ∧
    (State.countArrival s p seq n).hif = s.hif ∧ (State.countArrival s p seq n).chip = s.chip ∧
    (State.countArrival s p seq n).gov = s.gov ∧ (State.countArrival s p seq n).mmc = s.mmc ∧
    (State.countArrival s p seq n).gdbg = s.gdbg := by
  unfold State.countArrival
  (repeat' split) <;> simp

@[simp] theorem State.reportArrival_frame (s : State) (p seq : Nat) :
    (State.reportArrival s p seq).pending = s.pending ∧ (State.reportArrival s p seq).freeCtr = s.freeCtr ∧
    (State.reportArrival s p seq).gradeS = s.gradeS ∧ (State.reportArrival s p seq).ft = s.ft ∧
    (State.reportArrival s p seq).cls = s.cls ∧ (State.reportArrival s p seq).layout = s.layout ∧
    (State.reportArrival s p seq).setup = s.setup ∧ (State.reportArrival s p seq).serial = s.serial ∧
    (State.reportArrival s p seq).bringing = s.bringing ∧ (State.reportArrival s p seq).lmap = s.lmap ∧
    (State.reportArrival s p seq).slices = s.slices ∧ (State.reportArrival s p seq).hbmcs = s.hbmcs ∧
    (State.reportArrival s p seq).bdies = s.bdies ∧ (State.reportArrival s p seq).ports = s.ports ∧
    (State.reportArrival s p seq).time = s.time ∧ (State.reportArrival s p seq).out = s.out ∧
    (State.reportArrival s p seq).hif = s.hif ∧ (State.reportArrival s p seq).chip = s.chip ∧
    (State.reportArrival s p seq).gov = s.gov ∧ (State.reportArrival s p seq).mmc = s.mmc ∧
    (State.reportArrival s p seq).gdbg = s.gdbg := by
  unfold State.reportArrival
  (repeat' split) <;> simp

@[simp] theorem State.doBarArrive_frame (s : State) (p : Nat) :
    (State.doBarArrive s p).pending = s.pending ∧ (State.doBarArrive s p).freeCtr = s.freeCtr ∧
    (State.doBarArrive s p).gradeS = s.gradeS ∧ (State.doBarArrive s p).ft = s.ft ∧
    (State.doBarArrive s p).cls = s.cls ∧ (State.doBarArrive s p).layout = s.layout ∧
    (State.doBarArrive s p).setup = s.setup ∧ (State.doBarArrive s p).serial = s.serial ∧
    (State.doBarArrive s p).bringing = s.bringing ∧ (State.doBarArrive s p).lmap = s.lmap ∧
    (State.doBarArrive s p).slices = s.slices ∧ (State.doBarArrive s p).hbmcs = s.hbmcs ∧
    (State.doBarArrive s p).bdies = s.bdies ∧ (State.doBarArrive s p).ports = s.ports ∧
    (State.doBarArrive s p).time = s.time ∧ (State.doBarArrive s p).out = s.out ∧ (State.doBarArrive s p).hif = s.hif ∧
    (State.doBarArrive s p).chip = s.chip ∧ (State.doBarArrive s p).gov = s.gov ∧ (State.doBarArrive s p).mmc = s.mmc ∧
    (State.doBarArrive s p).gdbg = s.gdbg := by
  unfold State.doBarArrive
  split
  · simp
  · rename_i h
    obtain ⟨q, rfl⟩ := State.takeKind_state h
    try unfold State.withTable
    try dsimp only
    (repeat' split) <;> simp

@[simp] theorem State.doBarRelease_frame (s : State) (p : Nat) :
    (State.doBarRelease s p).pending = s.pending ∧ (State.doBarRelease s p).freeCtr = s.freeCtr ∧
    (State.doBarRelease s p).gradeS = s.gradeS ∧ (State.doBarRelease s p).ft = s.ft ∧
    (State.doBarRelease s p).cls = s.cls ∧ (State.doBarRelease s p).layout = s.layout ∧
    (State.doBarRelease s p).setup = s.setup ∧ (State.doBarRelease s p).serial = s.serial ∧
    (State.doBarRelease s p).bringing = s.bringing ∧ (State.doBarRelease s p).lmap = s.lmap ∧
    (State.doBarRelease s p).slices = s.slices ∧ (State.doBarRelease s p).hbmcs = s.hbmcs ∧
    (State.doBarRelease s p).bdies = s.bdies ∧ (State.doBarRelease s p).ports = s.ports ∧
    (State.doBarRelease s p).time = s.time ∧ (State.doBarRelease s p).out = s.out ∧
    (State.doBarRelease s p).hif = s.hif ∧ (State.doBarRelease s p).chip = s.chip ∧
    (State.doBarRelease s p).gov = s.gov ∧ (State.doBarRelease s p).mmc = s.mmc ∧
    (State.doBarRelease s p).gdbg = s.gdbg := by
  unfold State.doBarRelease
  split
  · simp
  · rename_i h
    obtain ⟨q, rfl⟩ := State.takeKind_state h
    try unfold State.withTable
    try dsimp only
    (repeat' split) <;> simp

@[simp] theorem State.putTableWord_frame (s : State) (p : Nat) (x : Nat × Nat × Nat) (v : Nat) :
    (State.putTableWord s p x v).pending = s.pending ∧ (State.putTableWord s p x v).freeCtr = s.freeCtr ∧
    (State.putTableWord s p x v).gradeS = s.gradeS ∧ (State.putTableWord s p x v).ft = s.ft ∧
    (State.putTableWord s p x v).cls = s.cls ∧ (State.putTableWord s p x v).layout = s.layout ∧
    (State.putTableWord s p x v).setup = s.setup ∧ (State.putTableWord s p x v).serial = s.serial ∧
    (State.putTableWord s p x v).bringing = s.bringing ∧ (State.putTableWord s p x v).lmap = s.lmap ∧
    (State.putTableWord s p x v).parts = s.parts ∧ (State.putTableWord s p x v).cores = s.cores ∧
    (State.putTableWord s p x v).slices = s.slices ∧ (State.putTableWord s p x v).hbmcs = s.hbmcs ∧
    (State.putTableWord s p x v).bdies = s.bdies ∧ (State.putTableWord s p x v).ports = s.ports ∧
    (State.putTableWord s p x v).time = s.time ∧ (State.putTableWord s p x v).out = s.out ∧
    (State.putTableWord s p x v).hif = s.hif ∧ (State.putTableWord s p x v).chip = s.chip ∧
    (State.putTableWord s p x v).gov = s.gov ∧ (State.putTableWord s p x v).mmc = s.mmc ∧
    (State.putTableWord s p x v).gdbg = s.gdbg := by
  unfold State.putTableWord
  (repeat' split) <;> simp

@[simp] theorem State.refuseTable_frame (s : State) (p off : Nat) :
    (State.refuseTable s p off).pending = s.pending ∧ (State.refuseTable s p off).freeCtr = s.freeCtr ∧
    (State.refuseTable s p off).gradeS = s.gradeS ∧ (State.refuseTable s p off).ft = s.ft ∧
    (State.refuseTable s p off).cls = s.cls ∧ (State.refuseTable s p off).layout = s.layout ∧
    (State.refuseTable s p off).setup = s.setup ∧ (State.refuseTable s p off).serial = s.serial ∧
    (State.refuseTable s p off).bringing = s.bringing ∧ (State.refuseTable s p off).lmap = s.lmap ∧
    (State.refuseTable s p off).parts = s.parts ∧ (State.refuseTable s p off).cores = s.cores ∧
    (State.refuseTable s p off).slices = s.slices ∧ (State.refuseTable s p off).hbmcs = s.hbmcs ∧
    (State.refuseTable s p off).bdies = s.bdies ∧ (State.refuseTable s p off).ports = s.ports ∧
    (State.refuseTable s p off).nodes = s.nodes ∧ (State.refuseTable s p off).time = s.time ∧
    (State.refuseTable s p off).chip = s.chip ∧ (State.refuseTable s p off).gov = s.gov ∧
    (State.refuseTable s p off).mmc = s.mmc ∧ (State.refuseTable s p off).gdbg = s.gdbg := by
  unfold State.refuseTable
  (repeat' split) <;> simp

@[simp] theorem State.doRouteTableWrite_frame (s : State) (p off v : Nat) :
    (State.doRouteTableWrite s p off v).pending = s.pending ∧ (State.doRouteTableWrite s p off v).freeCtr = s.freeCtr ∧
    (State.doRouteTableWrite s p off v).gradeS = s.gradeS ∧ (State.doRouteTableWrite s p off v).ft = s.ft ∧
    (State.doRouteTableWrite s p off v).cls = s.cls ∧ (State.doRouteTableWrite s p off v).layout = s.layout ∧
    (State.doRouteTableWrite s p off v).setup = s.setup ∧ (State.doRouteTableWrite s p off v).serial = s.serial ∧
    (State.doRouteTableWrite s p off v).bringing = s.bringing ∧ (State.doRouteTableWrite s p off v).lmap = s.lmap ∧
    (State.doRouteTableWrite s p off v).parts = s.parts ∧ (State.doRouteTableWrite s p off v).cores = s.cores ∧
    (State.doRouteTableWrite s p off v).slices = s.slices ∧ (State.doRouteTableWrite s p off v).hbmcs = s.hbmcs ∧
    (State.doRouteTableWrite s p off v).bdies = s.bdies ∧ (State.doRouteTableWrite s p off v).ports = s.ports ∧
    (State.doRouteTableWrite s p off v).time = s.time ∧ (State.doRouteTableWrite s p off v).chip = s.chip ∧
    (State.doRouteTableWrite s p off v).gov = s.gov ∧ (State.doRouteTableWrite s p off v).mmc = s.mmc ∧
    (State.doRouteTableWrite s p off v).gdbg = s.gdbg := by
  unfold State.doRouteTableWrite
  (repeat' split) <;> simp

@[simp] theorem State.doRouteCommit_frame (s : State) (p : Nat) :
    (State.doRouteCommit s p).pending = s.pending ∧ (State.doRouteCommit s p).freeCtr = s.freeCtr ∧
    (State.doRouteCommit s p).gradeS = s.gradeS ∧ (State.doRouteCommit s p).ft = s.ft ∧
    (State.doRouteCommit s p).cls = s.cls ∧ (State.doRouteCommit s p).layout = s.layout ∧
    (State.doRouteCommit s p).setup = s.setup ∧ (State.doRouteCommit s p).serial = s.serial ∧
    (State.doRouteCommit s p).bringing = s.bringing ∧ (State.doRouteCommit s p).lmap = s.lmap ∧
    (State.doRouteCommit s p).parts = s.parts ∧ (State.doRouteCommit s p).cores = s.cores ∧
    (State.doRouteCommit s p).slices = s.slices ∧ (State.doRouteCommit s p).hbmcs = s.hbmcs ∧
    (State.doRouteCommit s p).bdies = s.bdies ∧ (State.doRouteCommit s p).time = s.time ∧
    (State.doRouteCommit s p).out = s.out ∧ (State.doRouteCommit s p).hif = s.hif ∧
    (State.doRouteCommit s p).chip = s.chip ∧ (State.doRouteCommit s p).gov = s.gov ∧
    (State.doRouteCommit s p).mmc = s.mmc ∧ (State.doRouteCommit s p).gdbg = s.gdbg := by
  unfold State.doRouteCommit
  (repeat' split) <;> simp

@[simp] theorem State.portWrite_frame (s : State) (n off v : Nat) :
    (State.portWrite s n off v).pending = s.pending ∧ (State.portWrite s n off v).freeCtr = s.freeCtr ∧
    (State.portWrite s n off v).gradeS = s.gradeS ∧ (State.portWrite s n off v).ft = s.ft ∧
    (State.portWrite s n off v).cls = s.cls ∧ (State.portWrite s n off v).layout = s.layout ∧
    (State.portWrite s n off v).setup = s.setup ∧ (State.portWrite s n off v).serial = s.serial ∧
    (State.portWrite s n off v).bringing = s.bringing ∧ (State.portWrite s n off v).lmap = s.lmap ∧
    (State.portWrite s n off v).parts = s.parts ∧ (State.portWrite s n off v).slices = s.slices ∧
    (State.portWrite s n off v).hbmcs = s.hbmcs ∧ (State.portWrite s n off v).bdies = s.bdies ∧
    (State.portWrite s n off v).chip = s.chip ∧ (State.portWrite s n off v).gov = s.gov ∧
    (State.portWrite s n off v).mmc = s.mmc := by
  unfold State.portWrite
  (repeat' split) <;> simp

@[simp] theorem State.brgWrite_frame (s : State) (p off v : Nat) :
    (State.brgWrite s p off v).pending = s.pending ∧ (State.brgWrite s p off v).freeCtr = s.freeCtr ∧
    (State.brgWrite s p off v).gradeS = s.gradeS ∧ (State.brgWrite s p off v).ft = s.ft ∧
    (State.brgWrite s p off v).cls = s.cls ∧ (State.brgWrite s p off v).layout = s.layout ∧
    (State.brgWrite s p off v).setup = s.setup ∧ (State.brgWrite s p off v).serial = s.serial ∧
    (State.brgWrite s p off v).bringing = s.bringing ∧ (State.brgWrite s p off v).lmap = s.lmap ∧
    (State.brgWrite s p off v).parts = s.parts ∧ (State.brgWrite s p off v).slices = s.slices ∧
    (State.brgWrite s p off v).hbmcs = s.hbmcs ∧ (State.brgWrite s p off v).bdies = s.bdies ∧
    (State.brgWrite s p off v).chip = s.chip ∧ (State.brgWrite s p off v).gov = s.gov ∧
    (State.brgWrite s p off v).mmc = s.mmc := by
  unfold State.brgWrite
  (repeat' split) <;> simp

@[simp] theorem State.doArm_frame (s : State) (hi : Nat) :
    (State.doArm s hi).pending = s.pending ∧ (State.doArm s hi).freeCtr = s.freeCtr ∧
    (State.doArm s hi).gradeS = s.gradeS ∧ (State.doArm s hi).ft = s.ft ∧ (State.doArm s hi).cls = s.cls ∧
    (State.doArm s hi).layout = s.layout ∧ (State.doArm s hi).setup = s.setup ∧ (State.doArm s hi).serial = s.serial ∧
    (State.doArm s hi).bringing = s.bringing ∧ (State.doArm s hi).lmap = s.lmap ∧ (State.doArm s hi).parts = s.parts ∧
    (State.doArm s hi).cores = s.cores ∧ (State.doArm s hi).slices = s.slices ∧ (State.doArm s hi).hbmcs = s.hbmcs ∧
    (State.doArm s hi).bdies = s.bdies ∧ (State.doArm s hi).ports = s.ports ∧ (State.doArm s hi).nodes = s.nodes ∧
    (State.doArm s hi).out = s.out ∧ (State.doArm s hi).hif = s.hif ∧ (State.doArm s hi).chip = s.chip ∧
    (State.doArm s hi).gov = s.gov ∧ (State.doArm s hi).mmc = s.mmc ∧ (State.doArm s hi).gdbg = s.gdbg := by
  unfold State.doArm
  (repeat' split) <;> simp

@[simp] theorem State.doFtimeLoRead_frame (s : State) :
    (State.doFtimeLoRead s).pending = s.pending ∧ (State.doFtimeLoRead s).freeCtr = s.freeCtr ∧
    (State.doFtimeLoRead s).gradeS = s.gradeS ∧ (State.doFtimeLoRead s).ft = s.ft ∧
    (State.doFtimeLoRead s).cls = s.cls ∧ (State.doFtimeLoRead s).layout = s.layout ∧
    (State.doFtimeLoRead s).setup = s.setup ∧ (State.doFtimeLoRead s).serial = s.serial ∧
    (State.doFtimeLoRead s).bringing = s.bringing ∧ (State.doFtimeLoRead s).lmap = s.lmap ∧
    (State.doFtimeLoRead s).parts = s.parts ∧ (State.doFtimeLoRead s).cores = s.cores ∧
    (State.doFtimeLoRead s).slices = s.slices ∧ (State.doFtimeLoRead s).hbmcs = s.hbmcs ∧
    (State.doFtimeLoRead s).bdies = s.bdies ∧ (State.doFtimeLoRead s).ports = s.ports ∧
    (State.doFtimeLoRead s).nodes = s.nodes ∧ (State.doFtimeLoRead s).out = s.out ∧
    (State.doFtimeLoRead s).hif = s.hif ∧ (State.doFtimeLoRead s).chip = s.chip ∧ (State.doFtimeLoRead s).gov = s.gov ∧
    (State.doFtimeLoRead s).mmc = s.mmc ∧ (State.doFtimeLoRead s).gdbg = s.gdbg := by
  unfold State.doFtimeLoRead
  (repeat' split) <;> simp

@[simp] theorem State.doMgmtWrite_frame (s : State) (p : Nat) :
    (State.doMgmtWrite s p).pending = s.pending ∧ (State.doMgmtWrite s p).freeCtr = s.freeCtr ∧
    (State.doMgmtWrite s p).gradeS = s.gradeS ∧ (State.doMgmtWrite s p).ft = s.ft ∧
    (State.doMgmtWrite s p).cls = s.cls ∧ (State.doMgmtWrite s p).layout = s.layout ∧
    (State.doMgmtWrite s p).setup = s.setup ∧ (State.doMgmtWrite s p).serial = s.serial ∧
    (State.doMgmtWrite s p).bringing = s.bringing ∧ (State.doMgmtWrite s p).lmap = s.lmap ∧
    (State.doMgmtWrite s p).parts = s.parts ∧ (State.doMgmtWrite s p).slices = s.slices ∧
    (State.doMgmtWrite s p).hbmcs = s.hbmcs ∧ (State.doMgmtWrite s p).bdies = s.bdies ∧
    (State.doMgmtWrite s p).chip = s.chip ∧ (State.doMgmtWrite s p).gov = s.gov ∧
    (State.doMgmtWrite s p).mmc = s.mmc := by
  unfold State.doMgmtWrite
  split
  · simp
  · rename_i h
    obtain ⟨q, rfl⟩ := State.takeKind_state h
    try unfold State.withTable
    try dsimp only
    (repeat' split)
    all_goals first
      | (simp; done)
      | ((try simp); exact ⟨(foldl_keeps (fun x : State => x.pending) _ (fun a i => by (try dsimp only); (repeat' split) <;> simp) _ _).trans (by simp),
          (foldl_keeps (fun x : State => x.freeCtr) _ (fun a i => by (try dsimp only); (repeat' split) <;> simp) _ _).trans (by simp),
          (foldl_keeps (fun x : State => x.gradeS) _ (fun a i => by (try dsimp only); (repeat' split) <;> simp) _ _).trans (by simp),
          (foldl_keeps (fun x : State => x.ft) _ (fun a i => by (try dsimp only); (repeat' split) <;> simp) _ _).trans (by simp),
          (foldl_keeps (fun x : State => x.cls) _ (fun a i => by (try dsimp only); (repeat' split) <;> simp) _ _).trans (by simp),
          (foldl_keeps (fun x : State => x.layout) _ (fun a i => by (try dsimp only); (repeat' split) <;> simp) _ _).trans (by simp),
          (foldl_keeps (fun x : State => x.setup) _ (fun a i => by (try dsimp only); (repeat' split) <;> simp) _ _).trans (by simp),
          (foldl_keeps (fun x : State => x.serial) _ (fun a i => by (try dsimp only); (repeat' split) <;> simp) _ _).trans (by simp),
          (foldl_keeps (fun x : State => x.bringing) _ (fun a i => by (try dsimp only); (repeat' split) <;> simp) _ _).trans (by simp),
          (foldl_keeps (fun x : State => x.lmap) _ (fun a i => by (try dsimp only); (repeat' split) <;> simp) _ _).trans (by simp),
          (foldl_keeps (fun x : State => x.parts) _ (fun a i => by (try dsimp only); (repeat' split) <;> simp) _ _).trans (by simp),
          (foldl_keeps (fun x : State => x.slices) _ (fun a i => by (try dsimp only); (repeat' split) <;> simp) _ _).trans (by simp),
          (foldl_keeps (fun x : State => x.hbmcs) _ (fun a i => by (try dsimp only); (repeat' split) <;> simp) _ _).trans (by simp),
          (foldl_keeps (fun x : State => x.bdies) _ (fun a i => by (try dsimp only); (repeat' split) <;> simp) _ _).trans (by simp),
          (foldl_keeps (fun x : State => x.chip) _ (fun a i => by (try dsimp only); (repeat' split) <;> simp) _ _).trans (by simp),
          (foldl_keeps (fun x : State => x.gov) _ (fun a i => by (try dsimp only); (repeat' split) <;> simp) _ _).trans (by simp),
          (foldl_keeps (fun x : State => x.mmc) _ (fun a i => by (try dsimp only); (repeat' split) <;> simp) _ _).trans (by simp)⟩)

@[simp] theorem State.doMgmtRead_frame (s : State) (p : Nat) :
    (State.doMgmtRead s p).pending = s.pending ∧ (State.doMgmtRead s p).freeCtr = s.freeCtr ∧
    (State.doMgmtRead s p).gradeS = s.gradeS ∧ (State.doMgmtRead s p).ft = s.ft ∧ (State.doMgmtRead s p).cls = s.cls ∧
    (State.doMgmtRead s p).layout = s.layout ∧ (State.doMgmtRead s p).setup = s.setup ∧
    (State.doMgmtRead s p).serial = s.serial ∧ (State.doMgmtRead s p).bringing = s.bringing ∧
    (State.doMgmtRead s p).lmap = s.lmap ∧ (State.doMgmtRead s p).parts = s.parts ∧
    (State.doMgmtRead s p).cores = s.cores ∧ (State.doMgmtRead s p).slices = s.slices ∧
    (State.doMgmtRead s p).hbmcs = s.hbmcs ∧ (State.doMgmtRead s p).bdies = s.bdies ∧
    (State.doMgmtRead s p).time = s.time ∧ (State.doMgmtRead s p).chip = s.chip ∧ (State.doMgmtRead s p).gov = s.gov ∧
    (State.doMgmtRead s p).mmc = s.mmc := by
  unfold State.doMgmtRead
  split
  · simp
  · rename_i h
    obtain ⟨q, rfl⟩ := State.takeKind_state h
    try unfold State.withTable
    try dsimp only
    (repeat' split) <;> simp

@[simp] theorem State.doMgmtResp_frame (s : State) (p : Nat) :
    (State.doMgmtResp s p).pending = s.pending ∧ (State.doMgmtResp s p).freeCtr = s.freeCtr ∧
    (State.doMgmtResp s p).gradeS = s.gradeS ∧ (State.doMgmtResp s p).ft = s.ft ∧ (State.doMgmtResp s p).cls = s.cls ∧
    (State.doMgmtResp s p).layout = s.layout ∧ (State.doMgmtResp s p).setup = s.setup ∧
    (State.doMgmtResp s p).serial = s.serial ∧ (State.doMgmtResp s p).bringing = s.bringing ∧
    (State.doMgmtResp s p).lmap = s.lmap ∧ (State.doMgmtResp s p).parts = s.parts ∧
    (State.doMgmtResp s p).cores = s.cores ∧ (State.doMgmtResp s p).slices = s.slices ∧
    (State.doMgmtResp s p).hbmcs = s.hbmcs ∧ (State.doMgmtResp s p).bdies = s.bdies ∧
    (State.doMgmtResp s p).ports = s.ports ∧ (State.doMgmtResp s p).time = s.time ∧
    (State.doMgmtResp s p).out = s.out ∧ (State.doMgmtResp s p).hif = s.hif ∧ (State.doMgmtResp s p).chip = s.chip ∧
    (State.doMgmtResp s p).gov = s.gov ∧ (State.doMgmtResp s p).mmc = s.mmc ∧
    (State.doMgmtResp s p).gdbg = s.gdbg := by
  unfold State.doMgmtResp
  split
  · simp
  · rename_i h
    obtain ⟨q, rfl⟩ := State.takeKind_state h
    try unfold State.withTable
    try dsimp only
    (repeat' split) <;> simp

@[simp] theorem State.doTimestamp_frame (s : State) (n t1 t2 t3 t4 : Nat) :
    (State.doTimestamp s n t1 t2 t3 t4).pending = s.pending ∧ (State.doTimestamp s n t1 t2 t3 t4).freeCtr = s.freeCtr ∧
    (State.doTimestamp s n t1 t2 t3 t4).gradeS = s.gradeS ∧ (State.doTimestamp s n t1 t2 t3 t4).cls = s.cls ∧
    (State.doTimestamp s n t1 t2 t3 t4).layout = s.layout ∧ (State.doTimestamp s n t1 t2 t3 t4).setup = s.setup ∧
    (State.doTimestamp s n t1 t2 t3 t4).serial = s.serial ∧ (State.doTimestamp s n t1 t2 t3 t4).bringing = s.bringing ∧
    (State.doTimestamp s n t1 t2 t3 t4).lmap = s.lmap ∧ (State.doTimestamp s n t1 t2 t3 t4).parts = s.parts ∧
    (State.doTimestamp s n t1 t2 t3 t4).cores = s.cores ∧ (State.doTimestamp s n t1 t2 t3 t4).slices = s.slices ∧
    (State.doTimestamp s n t1 t2 t3 t4).hbmcs = s.hbmcs ∧ (State.doTimestamp s n t1 t2 t3 t4).bdies = s.bdies ∧
    (State.doTimestamp s n t1 t2 t3 t4).ports = s.ports ∧ (State.doTimestamp s n t1 t2 t3 t4).nodes = s.nodes ∧
    (State.doTimestamp s n t1 t2 t3 t4).chip = s.chip ∧ (State.doTimestamp s n t1 t2 t3 t4).gov = s.gov ∧
    (State.doTimestamp s n t1 t2 t3 t4).mmc = s.mmc ∧ (State.doTimestamp s n t1 t2 t3 t4).gdbg = s.gdbg := by
  unfold State.doTimestamp
  (repeat' split) <;> simp

@[simp] theorem State.doTimestampSend_frame (s : State) (n : Nat) :
    (State.doTimestampSend s n).pending = s.pending ∧ (State.doTimestampSend s n).freeCtr = s.freeCtr ∧
    (State.doTimestampSend s n).gradeS = s.gradeS ∧ (State.doTimestampSend s n).ft = s.ft ∧
    (State.doTimestampSend s n).cls = s.cls ∧ (State.doTimestampSend s n).layout = s.layout ∧
    (State.doTimestampSend s n).setup = s.setup ∧ (State.doTimestampSend s n).serial = s.serial ∧
    (State.doTimestampSend s n).bringing = s.bringing ∧ (State.doTimestampSend s n).lmap = s.lmap ∧
    (State.doTimestampSend s n).parts = s.parts ∧ (State.doTimestampSend s n).cores = s.cores ∧
    (State.doTimestampSend s n).slices = s.slices ∧ (State.doTimestampSend s n).hbmcs = s.hbmcs ∧
    (State.doTimestampSend s n).bdies = s.bdies ∧ (State.doTimestampSend s n).ports = s.ports ∧
    (State.doTimestampSend s n).nodes = s.nodes ∧ (State.doTimestampSend s n).time = s.time ∧
    (State.doTimestampSend s n).hif = s.hif ∧ (State.doTimestampSend s n).chip = s.chip ∧
    (State.doTimestampSend s n).gov = s.gov ∧ (State.doTimestampSend s n).mmc = s.mmc ∧
    (State.doTimestampSend s n).gdbg = s.gdbg := by
  unfold State.doTimestampSend
  (repeat' split) <;> simp

@[simp] theorem State.probeRecord_frame (s : State) (p : Nat) (l : Loc) (flt : MemFault) :
    (State.probeRecord s p l flt).1.pending = s.pending ∧ (State.probeRecord s p l flt).1.gradeS = s.gradeS ∧
    (State.probeRecord s p l flt).1.ft = s.ft ∧ (State.probeRecord s p l flt).1.cls = s.cls ∧
    (State.probeRecord s p l flt).1.layout = s.layout ∧ (State.probeRecord s p l flt).1.setup = s.setup ∧
    (State.probeRecord s p l flt).1.serial = s.serial ∧ (State.probeRecord s p l flt).1.bringing = s.bringing ∧
    (State.probeRecord s p l flt).1.lmap = s.lmap ∧ (State.probeRecord s p l flt).1.cores = s.cores ∧
    (State.probeRecord s p l flt).1.bdies = s.bdies ∧ (State.probeRecord s p l flt).1.ports = s.ports ∧
    (State.probeRecord s p l flt).1.nodes = s.nodes ∧ (State.probeRecord s p l flt).1.time = s.time ∧
    (State.probeRecord s p l flt).1.gov = s.gov ∧ (State.probeRecord s p l flt).1.mmc = s.mmc := by
  unfold State.probeRecord
  simp
  (repeat' split) <;> simp

@[simp] theorem State.fetchFailed_frame (s : State) (c pos addr : Nat) :
    (State.fetchFailed s c pos addr).pending = s.pending ∧ (State.fetchFailed s c pos addr).gradeS = s.gradeS ∧
    (State.fetchFailed s c pos addr).ft = s.ft ∧ (State.fetchFailed s c pos addr).cls = s.cls ∧
    (State.fetchFailed s c pos addr).layout = s.layout ∧ (State.fetchFailed s c pos addr).setup = s.setup ∧
    (State.fetchFailed s c pos addr).serial = s.serial ∧ (State.fetchFailed s c pos addr).bringing = s.bringing ∧
    (State.fetchFailed s c pos addr).lmap = s.lmap ∧ (State.fetchFailed s c pos addr).bdies = s.bdies ∧
    (State.fetchFailed s c pos addr).ports = s.ports ∧ (State.fetchFailed s c pos addr).nodes = s.nodes ∧
    (State.fetchFailed s c pos addr).time = s.time ∧ (State.fetchFailed s c pos addr).gov = s.gov ∧
    (State.fetchFailed s c pos addr).mmc = s.mmc := by
  unfold State.fetchFailed
  (repeat' split) <;> simp

@[simp] theorem State.doFetch_frame (s : State) (l : Nat) (flt : MemFault) :
    (State.doFetch s l flt).pending = s.pending ∧ (State.doFetch s l flt).gradeS = s.gradeS ∧
    (State.doFetch s l flt).ft = s.ft ∧ (State.doFetch s l flt).cls = s.cls ∧
    (State.doFetch s l flt).layout = s.layout ∧ (State.doFetch s l flt).setup = s.setup ∧
    (State.doFetch s l flt).serial = s.serial ∧ (State.doFetch s l flt).bringing = s.bringing ∧
    (State.doFetch s l flt).lmap = s.lmap ∧ (State.doFetch s l flt).bdies = s.bdies ∧
    (State.doFetch s l flt).ports = s.ports ∧ (State.doFetch s l flt).nodes = s.nodes ∧
    (State.doFetch s l flt).time = s.time ∧ (State.doFetch s l flt).gov = s.gov ∧
    (State.doFetch s l flt).mmc = s.mmc := by
  unfold State.doFetch
  simp
  (repeat' split) <;> simp

@[simp] theorem State.refuse_frame (s : State) (c : Nat) (r : Rec) (status : Nat) :
    (State.refuse s c r status).pending = s.pending ∧ (State.refuse s c r status).gradeS = s.gradeS ∧
    (State.refuse s c r status).ft = s.ft ∧ (State.refuse s c r status).cls = s.cls ∧
    (State.refuse s c r status).layout = s.layout ∧ (State.refuse s c r status).setup = s.setup ∧
    (State.refuse s c r status).serial = s.serial ∧ (State.refuse s c r status).bringing = s.bringing ∧
    (State.refuse s c r status).lmap = s.lmap ∧ (State.refuse s c r status).bdies = s.bdies ∧
    (State.refuse s c r status).ports = s.ports ∧ (State.refuse s c r status).nodes = s.nodes ∧
    (State.refuse s c r status).time = s.time ∧ (State.refuse s c r status).gov = s.gov ∧
    (State.refuse s c r status).mmc = s.mmc := by
  unfold State.refuse
  (repeat' split) <;> simp

@[simp] theorem State.parityError_frame (s : State) (c : Nat) (r : Rec) :
    (State.parityError s c r).pending = s.pending ∧ (State.parityError s c r).gradeS = s.gradeS ∧
    (State.parityError s c r).ft = s.ft ∧ (State.parityError s c r).cls = s.cls ∧
    (State.parityError s c r).layout = s.layout ∧ (State.parityError s c r).setup = s.setup ∧
    (State.parityError s c r).serial = s.serial ∧ (State.parityError s c r).bringing = s.bringing ∧
    (State.parityError s c r).lmap = s.lmap ∧ (State.parityError s c r).bdies = s.bdies ∧
    (State.parityError s c r).ports = s.ports ∧ (State.parityError s c r).nodes = s.nodes ∧
    (State.parityError s c r).time = s.time ∧ (State.parityError s c r).gov = s.gov ∧
    (State.parityError s c r).mmc = s.mmc := by
  unfold State.parityError
  (repeat' split) <;> simp

@[simp] theorem State.doDispatch_frame (s : State) (l parity : Nat) :
    (State.doDispatch s l parity).pending = s.pending ∧ (State.doDispatch s l parity).gradeS = s.gradeS ∧
    (State.doDispatch s l parity).ft = s.ft ∧ (State.doDispatch s l parity).cls = s.cls ∧
    (State.doDispatch s l parity).layout = s.layout ∧ (State.doDispatch s l parity).setup = s.setup ∧
    (State.doDispatch s l parity).serial = s.serial ∧ (State.doDispatch s l parity).bringing = s.bringing ∧
    (State.doDispatch s l parity).lmap = s.lmap ∧ (State.doDispatch s l parity).bdies = s.bdies ∧
    (State.doDispatch s l parity).ports = s.ports ∧ (State.doDispatch s l parity).nodes = s.nodes ∧
    (State.doDispatch s l parity).time = s.time ∧ (State.doDispatch s l parity).gov = s.gov ∧
    (State.doDispatch s l parity).mmc = s.mmc := by
  unfold State.doDispatch
  simp
  (repeat' split) <;> simp

@[simp] theorem State.seqOp_pending (s : State) (l op : Nat) (run : State → Nat → Rec → Except Nat (State × Nat))
    (h : ∀ s c r t n, run s c r = .ok (t, n) → t.pending = s.pending) : (s.seqOp l op run).pending = s.pending := by
  unfold State.seqOp
  dsimp only
  (repeat' split) <;> first | (simp; done) | (rename_i hr _; have := h _ _ _ _ _ hr; simp [this]; done) | (rename_i hr _ _; have := h _ _ _ _ _ hr; simp [this])

@[simp] theorem State.seqOp_gradeS (s : State) (l op : Nat) (run : State → Nat → Rec → Except Nat (State × Nat))
    (h : ∀ s c r t n, run s c r = .ok (t, n) → t.gradeS = s.gradeS) : (s.seqOp l op run).gradeS = s.gradeS := by
  unfold State.seqOp
  dsimp only
  (repeat' split) <;> first | (simp; done) | (rename_i hr _; have := h _ _ _ _ _ hr; simp [this]; done) | (rename_i hr _ _; have := h _ _ _ _ _ hr; simp [this])

@[simp] theorem State.seqOp_ft (s : State) (l op : Nat) (run : State → Nat → Rec → Except Nat (State × Nat))
    (h : ∀ s c r t n, run s c r = .ok (t, n) → t.ft = s.ft) : (s.seqOp l op run).ft = s.ft := by
  unfold State.seqOp
  dsimp only
  (repeat' split) <;> first | (simp; done) | (rename_i hr _; have := h _ _ _ _ _ hr; simp [this]; done) | (rename_i hr _ _; have := h _ _ _ _ _ hr; simp [this])

@[simp] theorem State.seqOp_cls (s : State) (l op : Nat) (run : State → Nat → Rec → Except Nat (State × Nat))
    (h : ∀ s c r t n, run s c r = .ok (t, n) → t.cls = s.cls) : (s.seqOp l op run).cls = s.cls := by
  unfold State.seqOp
  dsimp only
  (repeat' split) <;> first | (simp; done) | (rename_i hr _; have := h _ _ _ _ _ hr; simp [this]; done) | (rename_i hr _ _; have := h _ _ _ _ _ hr; simp [this])

@[simp] theorem State.seqOp_layout (s : State) (l op : Nat) (run : State → Nat → Rec → Except Nat (State × Nat))
    (h : ∀ s c r t n, run s c r = .ok (t, n) → t.layout = s.layout) : (s.seqOp l op run).layout = s.layout := by
  unfold State.seqOp
  dsimp only
  (repeat' split) <;> first | (simp; done) | (rename_i hr _; have := h _ _ _ _ _ hr; simp [this]; done) | (rename_i hr _ _; have := h _ _ _ _ _ hr; simp [this])

@[simp] theorem State.seqOp_setup (s : State) (l op : Nat) (run : State → Nat → Rec → Except Nat (State × Nat))
    (h : ∀ s c r t n, run s c r = .ok (t, n) → t.setup = s.setup) : (s.seqOp l op run).setup = s.setup := by
  unfold State.seqOp
  dsimp only
  (repeat' split) <;> first | (simp; done) | (rename_i hr _; have := h _ _ _ _ _ hr; simp [this]; done) | (rename_i hr _ _; have := h _ _ _ _ _ hr; simp [this])

@[simp] theorem State.seqOp_serial (s : State) (l op : Nat) (run : State → Nat → Rec → Except Nat (State × Nat))
    (h : ∀ s c r t n, run s c r = .ok (t, n) → t.serial = s.serial) : (s.seqOp l op run).serial = s.serial := by
  unfold State.seqOp
  dsimp only
  (repeat' split) <;> first | (simp; done) | (rename_i hr _; have := h _ _ _ _ _ hr; simp [this]; done) | (rename_i hr _ _; have := h _ _ _ _ _ hr; simp [this])

@[simp] theorem State.seqOp_bringing (s : State) (l op : Nat) (run : State → Nat → Rec → Except Nat (State × Nat))
    (h : ∀ s c r t n, run s c r = .ok (t, n) → t.bringing = s.bringing) : (s.seqOp l op run).bringing = s.bringing := by
  unfold State.seqOp
  dsimp only
  (repeat' split) <;> first | (simp; done) | (rename_i hr _; have := h _ _ _ _ _ hr; simp [this]; done) | (rename_i hr _ _; have := h _ _ _ _ _ hr; simp [this])

@[simp] theorem State.seqOp_lmap (s : State) (l op : Nat) (run : State → Nat → Rec → Except Nat (State × Nat))
    (h : ∀ s c r t n, run s c r = .ok (t, n) → t.lmap = s.lmap) : (s.seqOp l op run).lmap = s.lmap := by
  unfold State.seqOp
  dsimp only
  (repeat' split) <;> first | (simp; done) | (rename_i hr _; have := h _ _ _ _ _ hr; simp [this]; done) | (rename_i hr _ _; have := h _ _ _ _ _ hr; simp [this])

@[simp] theorem State.seqOp_bdies (s : State) (l op : Nat) (run : State → Nat → Rec → Except Nat (State × Nat))
    (h : ∀ s c r t n, run s c r = .ok (t, n) → t.bdies = s.bdies) : (s.seqOp l op run).bdies = s.bdies := by
  unfold State.seqOp
  dsimp only
  (repeat' split) <;> first | (simp; done) | (rename_i hr _; have := h _ _ _ _ _ hr; simp [this]; done) | (rename_i hr _ _; have := h _ _ _ _ _ hr; simp [this])

@[simp] theorem State.seqOp_ports (s : State) (l op : Nat) (run : State → Nat → Rec → Except Nat (State × Nat))
    (h : ∀ s c r t n, run s c r = .ok (t, n) → t.ports = s.ports) : (s.seqOp l op run).ports = s.ports := by
  unfold State.seqOp
  dsimp only
  (repeat' split) <;> first | (simp; done) | (rename_i hr _; have := h _ _ _ _ _ hr; simp [this]; done) | (rename_i hr _ _; have := h _ _ _ _ _ hr; simp [this])

@[simp] theorem State.seqOp_nodes (s : State) (l op : Nat) (run : State → Nat → Rec → Except Nat (State × Nat))
    (h : ∀ s c r t n, run s c r = .ok (t, n) → t.nodes = s.nodes) : (s.seqOp l op run).nodes = s.nodes := by
  unfold State.seqOp
  dsimp only
  (repeat' split) <;> first | (simp; done) | (rename_i hr _; have := h _ _ _ _ _ hr; simp [this]; done) | (rename_i hr _ _; have := h _ _ _ _ _ hr; simp [this])

@[simp] theorem State.seqOp_time (s : State) (l op : Nat) (run : State → Nat → Rec → Except Nat (State × Nat))
    (h : ∀ s c r t n, run s c r = .ok (t, n) → t.time = s.time) : (s.seqOp l op run).time = s.time := by
  unfold State.seqOp
  dsimp only
  (repeat' split) <;> first | (simp; done) | (rename_i hr _; have := h _ _ _ _ _ hr; simp [this]; done) | (rename_i hr _ _; have := h _ _ _ _ _ hr; simp [this])

@[simp] theorem State.seqOp_gov (s : State) (l op : Nat) (run : State → Nat → Rec → Except Nat (State × Nat))
    (h : ∀ s c r t n, run s c r = .ok (t, n) → t.gov = s.gov) : (s.seqOp l op run).gov = s.gov := by
  unfold State.seqOp
  dsimp only
  (repeat' split) <;> first | (simp; done) | (rename_i hr _; have := h _ _ _ _ _ hr; simp [this]; done) | (rename_i hr _ _; have := h _ _ _ _ _ hr; simp [this])

@[simp] theorem State.seqOp_mmc (s : State) (l op : Nat) (run : State → Nat → Rec → Except Nat (State × Nat))
    (h : ∀ s c r t n, run s c r = .ok (t, n) → t.mmc = s.mmc) : (s.seqOp l op run).mmc = s.mmc := by
  unfold State.seqOp
  dsimp only
  (repeat' split) <;> first | (simp; done) | (rename_i hr _; have := h _ _ _ _ _ hr; simp [this]; done) | (rename_i hr _ _; have := h _ _ _ _ _ hr; simp [this])


@[simp] theorem State.modSeq_frame (s : State) (c : Nat) (f : Seq → Seq) :
    (State.modSeq s c f).pending = s.pending ∧ (State.modSeq s c f).freeCtr = s.freeCtr ∧
    (State.modSeq s c f).gradeS = s.gradeS ∧ (State.modSeq s c f).ft = s.ft ∧ (State.modSeq s c f).cls = s.cls ∧
    (State.modSeq s c f).layout = s.layout ∧ (State.modSeq s c f).setup = s.setup ∧
    (State.modSeq s c f).serial = s.serial ∧ (State.modSeq s c f).bringing = s.bringing ∧
    (State.modSeq s c f).lmap = s.lmap ∧ (State.modSeq s c f).parts = s.parts ∧
    (State.modSeq s c f).slices = s.slices ∧ (State.modSeq s c f).hbmcs = s.hbmcs ∧
    (State.modSeq s c f).bdies = s.bdies ∧ (State.modSeq s c f).ports = s.ports ∧
    (State.modSeq s c f).nodes = s.nodes ∧ (State.modSeq s c f).time = s.time ∧ (State.modSeq s c f).out = s.out ∧
    (State.modSeq s c f).hif = s.hif ∧ (State.modSeq s c f).chip = s.chip ∧ (State.modSeq s c f).gov = s.gov ∧
    (State.modSeq s c f).mmc = s.mmc ∧ (State.modSeq s c f).gdbg = s.gdbg := by
  unfold State.modSeq
  (repeat' split) <;> simp

theorem runLoop_frame {s t : State} {c n : Nat} {r : Rec} (h : runLoop s c r = .ok (t, n)) :
    t.pending = s.pending ∧
    t.freeCtr = s.freeCtr ∧
    t.gradeS = s.gradeS ∧
    t.ft = s.ft ∧
    t.cls = s.cls ∧
    t.layout = s.layout ∧
    t.setup = s.setup ∧
    t.serial = s.serial ∧
    t.bringing = s.bringing ∧
    t.lmap = s.lmap ∧
    t.parts = s.parts ∧
    t.slices = s.slices ∧
    t.hbmcs = s.hbmcs ∧
    t.bdies = s.bdies ∧
    t.ports = s.ports ∧
    t.nodes = s.nodes ∧
    t.time = s.time ∧
    t.out = s.out ∧
    t.hif = s.hif ∧
    t.chip = s.chip ∧
    t.gov = s.gov ∧
    t.mmc = s.mmc ∧
    t.gdbg = s.gdbg := by
  unfold runLoop at h
  try dsimp only at h
  (repeat' split at h) <;> simp at h <;> (obtain ⟨rfl, -⟩ := h; simp)


theorem runEndLoop_frame {s t : State} {c n : Nat} {r : Rec} (h : runEndLoop s c r = .ok (t, n)) :
    t.pending = s.pending ∧
    t.freeCtr = s.freeCtr ∧
    t.gradeS = s.gradeS ∧
    t.ft = s.ft ∧
    t.cls = s.cls ∧
    t.layout = s.layout ∧
    t.setup = s.setup ∧
    t.serial = s.serial ∧
    t.bringing = s.bringing ∧
    t.lmap = s.lmap ∧
    t.parts = s.parts ∧
    t.slices = s.slices ∧
    t.hbmcs = s.hbmcs ∧
    t.bdies = s.bdies ∧
    t.ports = s.ports ∧
    t.nodes = s.nodes ∧
    t.time = s.time ∧
    t.out = s.out ∧
    t.hif = s.hif ∧
    t.chip = s.chip ∧
    t.gov = s.gov ∧
    t.mmc = s.mmc ∧
    t.gdbg = s.gdbg := by
  unfold runEndLoop at h
  try dsimp only at h
  (repeat' split at h) <;> simp at h <;> (obtain ⟨rfl, -⟩ := h; simp)


theorem runBranch_frame {s t : State} {c n : Nat} {r : Rec} (h : runBranch s c r = .ok (t, n)) :
    t.pending = s.pending ∧
    t.gradeS = s.gradeS ∧
    t.ft = s.ft ∧
    t.cls = s.cls ∧
    t.layout = s.layout ∧
    t.setup = s.setup ∧
    t.serial = s.serial ∧
    t.bringing = s.bringing ∧
    t.lmap = s.lmap ∧
    t.bdies = s.bdies ∧
    t.ports = s.ports ∧
    t.nodes = s.nodes ∧
    t.time = s.time ∧
    t.gov = s.gov ∧
    t.mmc = s.mmc := by
  unfold runBranch at h
  try dsimp only at h
  (repeat' split at h) <;> simp at h <;> (obtain ⟨rfl, -⟩ := h; simp)


@[simp] theorem State.doBranch_frame (s : State) (l : Nat) :
    (State.doBranch s l).pending = s.pending ∧ (State.doBranch s l).gradeS = s.gradeS ∧
    (State.doBranch s l).ft = s.ft ∧ (State.doBranch s l).cls = s.cls ∧ (State.doBranch s l).layout = s.layout ∧
    (State.doBranch s l).setup = s.setup ∧ (State.doBranch s l).serial = s.serial ∧
    (State.doBranch s l).bringing = s.bringing ∧ (State.doBranch s l).lmap = s.lmap ∧
    (State.doBranch s l).bdies = s.bdies ∧ (State.doBranch s l).ports = s.ports ∧
    (State.doBranch s l).nodes = s.nodes ∧ (State.doBranch s l).time = s.time ∧ (State.doBranch s l).gov = s.gov ∧
    (State.doBranch s l).mmc = s.mmc := by
  unfold State.doBranch
  (repeat' split)
  all_goals first
    | (simp; done)
    | exact ⟨State.seqOp_pending _ _ _ _ (fun _ _ _ _ _ h => by simp [runBranch_frame h]),
        State.seqOp_gradeS _ _ _ _ (fun _ _ _ _ _ h => by simp [runBranch_frame h]),
        State.seqOp_ft _ _ _ _ (fun _ _ _ _ _ h => by simp [runBranch_frame h]),
        State.seqOp_cls _ _ _ _ (fun _ _ _ _ _ h => by simp [runBranch_frame h]),
        State.seqOp_layout _ _ _ _ (fun _ _ _ _ _ h => by simp [runBranch_frame h]),
        State.seqOp_setup _ _ _ _ (fun _ _ _ _ _ h => by simp [runBranch_frame h]),
        State.seqOp_serial _ _ _ _ (fun _ _ _ _ _ h => by simp [runBranch_frame h]),
        State.seqOp_bringing _ _ _ _ (fun _ _ _ _ _ h => by simp [runBranch_frame h]),
        State.seqOp_lmap _ _ _ _ (fun _ _ _ _ _ h => by simp [runBranch_frame h]),
        State.seqOp_bdies _ _ _ _ (fun _ _ _ _ _ h => by simp [runBranch_frame h]),
        State.seqOp_ports _ _ _ _ (fun _ _ _ _ _ h => by simp [runBranch_frame h]),
        State.seqOp_nodes _ _ _ _ (fun _ _ _ _ _ h => by simp [runBranch_frame h]),
        State.seqOp_time _ _ _ _ (fun _ _ _ _ _ h => by simp [runBranch_frame h]),
        State.seqOp_gov _ _ _ _ (fun _ _ _ _ _ h => by simp [runBranch_frame h]),
        State.seqOp_mmc _ _ _ _ (fun _ _ _ _ _ h => by simp [runBranch_frame h])⟩

theorem runSetSv_frame {s t : State} {c n : Nat} {r : Rec} (h : runSetSv s c r = .ok (t, n)) :
    t.pending = s.pending ∧
    t.freeCtr = s.freeCtr ∧
    t.gradeS = s.gradeS ∧
    t.ft = s.ft ∧
    t.cls = s.cls ∧
    t.layout = s.layout ∧
    t.setup = s.setup ∧
    t.serial = s.serial ∧
    t.bringing = s.bringing ∧
    t.lmap = s.lmap ∧
    t.parts = s.parts ∧
    t.slices = s.slices ∧
    t.hbmcs = s.hbmcs ∧
    t.bdies = s.bdies ∧
    t.ports = s.ports ∧
    t.nodes = s.nodes ∧
    t.time = s.time ∧
    t.out = s.out ∧
    t.hif = s.hif ∧
    t.chip = s.chip ∧
    t.gov = s.gov ∧
    t.mmc = s.mmc ∧
    t.gdbg = s.gdbg := by
  unfold runSetSv at h
  try dsimp only at h
  (repeat' split at h) <;> simp at h <;> (obtain ⟨rfl, -⟩ := h; simp)


theorem runAddSv_frame {s t : State} {c n : Nat} {r : Rec} (h : runAddSv s c r = .ok (t, n)) :
    t.pending = s.pending ∧
    t.freeCtr = s.freeCtr ∧
    t.gradeS = s.gradeS ∧
    t.ft = s.ft ∧
    t.cls = s.cls ∧
    t.layout = s.layout ∧
    t.setup = s.setup ∧
    t.serial = s.serial ∧
    t.bringing = s.bringing ∧
    t.lmap = s.lmap ∧
    t.parts = s.parts ∧
    t.slices = s.slices ∧
    t.hbmcs = s.hbmcs ∧
    t.bdies = s.bdies ∧
    t.ports = s.ports ∧
    t.nodes = s.nodes ∧
    t.time = s.time ∧
    t.out = s.out ∧
    t.hif = s.hif ∧
    t.chip = s.chip ∧
    t.gov = s.gov ∧
    t.mmc = s.mmc ∧
    t.gdbg = s.gdbg := by
  unfold runAddSv at h
  try dsimp only at h
  (repeat' split at h) <;> simp at h <;> (obtain ⟨rfl, -⟩ := h; simp)


theorem runSetPair_frame {s t : State} {c n : Nat} {r : Rec} (h : runSetPair s c r = .ok (t, n)) :
    t.pending = s.pending ∧
    t.freeCtr = s.freeCtr ∧
    t.gradeS = s.gradeS ∧
    t.ft = s.ft ∧
    t.cls = s.cls ∧
    t.layout = s.layout ∧
    t.setup = s.setup ∧
    t.serial = s.serial ∧
    t.bringing = s.bringing ∧
    t.lmap = s.lmap ∧
    t.parts = s.parts ∧
    t.slices = s.slices ∧
    t.hbmcs = s.hbmcs ∧
    t.bdies = s.bdies ∧
    t.ports = s.ports ∧
    t.nodes = s.nodes ∧
    t.time = s.time ∧
    t.out = s.out ∧
    t.hif = s.hif ∧
    t.chip = s.chip ∧
    t.gov = s.gov ∧
    t.mmc = s.mmc ∧
    t.gdbg = s.gdbg := by
  unfold runSetPair at h
  try dsimp only at h
  (repeat' split at h) <;> simp at h <;> (obtain ⟨rfl, -⟩ := h; simp)


theorem runSwap_frame {s t : State} {c n : Nat} {r : Rec} (h : runSwap s c r = .ok (t, n)) :
    t.pending = s.pending ∧
    t.freeCtr = s.freeCtr ∧
    t.gradeS = s.gradeS ∧
    t.ft = s.ft ∧
    t.cls = s.cls ∧
    t.layout = s.layout ∧
    t.setup = s.setup ∧
    t.serial = s.serial ∧
    t.bringing = s.bringing ∧
    t.lmap = s.lmap ∧
    t.parts = s.parts ∧
    t.slices = s.slices ∧
    t.hbmcs = s.hbmcs ∧
    t.bdies = s.bdies ∧
    t.ports = s.ports ∧
    t.nodes = s.nodes ∧
    t.time = s.time ∧
    t.out = s.out ∧
    t.hif = s.hif ∧
    t.chip = s.chip ∧
    t.gov = s.gov ∧
    t.mmc = s.mmc ∧
    t.gdbg = s.gdbg := by
  unfold runSwap at h
  try dsimp only at h
  (repeat' split at h) <;> simp at h <;> (obtain ⟨rfl, -⟩ := h; simp)


theorem runSetKey_frame {s t : State} {c n : Nat} {r : Rec} (h : runSetKey s c r = .ok (t, n)) :
    t.pending = s.pending ∧
    t.freeCtr = s.freeCtr ∧
    t.gradeS = s.gradeS ∧
    t.ft = s.ft ∧
    t.cls = s.cls ∧
    t.layout = s.layout ∧
    t.setup = s.setup ∧
    t.serial = s.serial ∧
    t.bringing = s.bringing ∧
    t.lmap = s.lmap ∧
    t.parts = s.parts ∧
    t.slices = s.slices ∧
    t.hbmcs = s.hbmcs ∧
    t.bdies = s.bdies ∧
    t.ports = s.ports ∧
    t.nodes = s.nodes ∧
    t.time = s.time ∧
    t.out = s.out ∧
    t.hif = s.hif ∧
    t.chip = s.chip ∧
    t.gov = s.gov ∧
    t.mmc = s.mmc ∧
    t.gdbg = s.gdbg := by
  unfold runSetKey at h
  try dsimp only at h
  (repeat' split at h) <;> simp at h <;> (obtain ⟨rfl, -⟩ := h; simp)


@[simp] theorem State.bookLedger_frame (s : State) (p : Nat) (e : QEntry) (led : Ledger) :
    (State.bookLedger s p e led).pending = s.pending ∧ (State.bookLedger s p e led).gradeS = s.gradeS ∧
    (State.bookLedger s p e led).ft = s.ft ∧ (State.bookLedger s p e led).cls = s.cls ∧
    (State.bookLedger s p e led).layout = s.layout ∧ (State.bookLedger s p e led).setup = s.setup ∧
    (State.bookLedger s p e led).serial = s.serial ∧ (State.bookLedger s p e led).bringing = s.bringing ∧
    (State.bookLedger s p e led).lmap = s.lmap ∧ (State.bookLedger s p e led).bdies = s.bdies ∧
    (State.bookLedger s p e led).ports = s.ports ∧ (State.bookLedger s p e led).nodes = s.nodes ∧
    (State.bookLedger s p e led).time = s.time ∧ (State.bookLedger s p e led).gov = s.gov ∧
    (State.bookLedger s p e led).mmc = s.mmc := by
  unfold State.bookLedger
  (repeat' split) <;> simp

@[simp] theorem State.doComplete_frame (s : State) (l q n : Nat) :
    (State.doComplete s l q n).pending = s.pending ∧ (State.doComplete s l q n).gradeS = s.gradeS ∧
    (State.doComplete s l q n).ft = s.ft ∧ (State.doComplete s l q n).cls = s.cls ∧
    (State.doComplete s l q n).layout = s.layout ∧ (State.doComplete s l q n).setup = s.setup ∧
    (State.doComplete s l q n).serial = s.serial ∧ (State.doComplete s l q n).bringing = s.bringing ∧
    (State.doComplete s l q n).lmap = s.lmap ∧ (State.doComplete s l q n).bdies = s.bdies ∧
    (State.doComplete s l q n).ports = s.ports ∧ (State.doComplete s l q n).nodes = s.nodes ∧
    (State.doComplete s l q n).time = s.time ∧ (State.doComplete s l q n).gov = s.gov ∧
    (State.doComplete s l q n).mmc = s.mmc := by
  unfold State.doComplete
  simp
  (repeat' split) <;> simp



@[simp] theorem State.doNop_frame (s : State) (l : Nat) :
    (State.doNop s l).pending = s.pending ∧ (State.doNop s l).gradeS = s.gradeS ∧ (State.doNop s l).ft = s.ft ∧
    (State.doNop s l).cls = s.cls ∧ (State.doNop s l).layout = s.layout ∧ (State.doNop s l).setup = s.setup ∧
    (State.doNop s l).serial = s.serial ∧ (State.doNop s l).bringing = s.bringing ∧ (State.doNop s l).lmap = s.lmap ∧
    (State.doNop s l).parts = s.parts ∧ (State.doNop s l).slices = s.slices ∧ (State.doNop s l).hbmcs = s.hbmcs ∧
    (State.doNop s l).bdies = s.bdies ∧ (State.doNop s l).ports = s.ports ∧ (State.doNop s l).nodes = s.nodes ∧
    (State.doNop s l).time = s.time ∧ (State.doNop s l).out = s.out ∧ (State.doNop s l).hif = s.hif ∧
    (State.doNop s l).chip = s.chip ∧ (State.doNop s l).gov = s.gov ∧ (State.doNop s l).mmc = s.mmc ∧
    (State.doNop s l).gdbg = s.gdbg := by
  unfold State.doNop State.syncOp
  split
  · dsimp only
    split
    · rename_i s1 h
      (repeat' split at h) <;> simp at h <;> (try subst h) <;> simp
    · simp
  · simp

@[simp] theorem State.doTokset_frame (s : State) (l : Nat) :
    (State.doTokset s l).pending = s.pending ∧ (State.doTokset s l).gradeS = s.gradeS ∧
    (State.doTokset s l).ft = s.ft ∧ (State.doTokset s l).cls = s.cls ∧ (State.doTokset s l).layout = s.layout ∧
    (State.doTokset s l).setup = s.setup ∧ (State.doTokset s l).serial = s.serial ∧
    (State.doTokset s l).bringing = s.bringing ∧ (State.doTokset s l).lmap = s.lmap ∧
    (State.doTokset s l).parts = s.parts ∧ (State.doTokset s l).slices = s.slices ∧
    (State.doTokset s l).hbmcs = s.hbmcs ∧ (State.doTokset s l).bdies = s.bdies ∧
    (State.doTokset s l).ports = s.ports ∧ (State.doTokset s l).nodes = s.nodes ∧ (State.doTokset s l).time = s.time ∧
    (State.doTokset s l).out = s.out ∧ (State.doTokset s l).hif = s.hif ∧ (State.doTokset s l).chip = s.chip ∧
    (State.doTokset s l).gov = s.gov ∧ (State.doTokset s l).mmc = s.mmc ∧ (State.doTokset s l).gdbg = s.gdbg := by
  unfold State.doTokset State.syncOp
  split
  · dsimp only
    split
    · rename_i s1 h
      (repeat' split at h) <;> simp at h <;> (try subst h) <;> simp
    · simp
  · simp

@[simp] theorem State.doInval_frame (s : State) (l : Nat) :
    (State.doInval s l).pending = s.pending ∧ (State.doInval s l).gradeS = s.gradeS ∧ (State.doInval s l).ft = s.ft ∧
    (State.doInval s l).cls = s.cls ∧ (State.doInval s l).layout = s.layout ∧ (State.doInval s l).setup = s.setup ∧
    (State.doInval s l).serial = s.serial ∧ (State.doInval s l).bringing = s.bringing ∧
    (State.doInval s l).lmap = s.lmap ∧ (State.doInval s l).parts = s.parts ∧ (State.doInval s l).slices = s.slices ∧
    (State.doInval s l).hbmcs = s.hbmcs ∧ (State.doInval s l).bdies = s.bdies ∧ (State.doInval s l).ports = s.ports ∧
    (State.doInval s l).nodes = s.nodes ∧ (State.doInval s l).time = s.time ∧ (State.doInval s l).out = s.out ∧
    (State.doInval s l).hif = s.hif ∧ (State.doInval s l).chip = s.chip ∧ (State.doInval s l).gov = s.gov ∧
    (State.doInval s l).mmc = s.mmc ∧ (State.doInval s l).gdbg = s.gdbg := by
  unfold State.doInval State.syncOp
  split
  · dsimp only
    split
    · rename_i s1 h
      (repeat' split at h) <;> simp at h <;> (try subst h) <;> simp
    · simp
  · simp

@[simp] theorem State.doSignal_frame (s : State) (l : Nat) :
    (State.doSignal s l).pending = s.pending ∧ (State.doSignal s l).gradeS = s.gradeS ∧
    (State.doSignal s l).ft = s.ft ∧ (State.doSignal s l).cls = s.cls ∧ (State.doSignal s l).layout = s.layout ∧
    (State.doSignal s l).setup = s.setup ∧ (State.doSignal s l).serial = s.serial ∧
    (State.doSignal s l).bringing = s.bringing ∧ (State.doSignal s l).lmap = s.lmap ∧
    (State.doSignal s l).bdies = s.bdies ∧ (State.doSignal s l).ports = s.ports ∧ (State.doSignal s l).time = s.time ∧
    (State.doSignal s l).gov = s.gov ∧ (State.doSignal s l).mmc = s.mmc := by
  unfold State.doSignal State.syncOp
  split
  · dsimp only
    split
    · rename_i s1 h
      (repeat' split at h) <;> simp at h <;> (try subst h) <;> simp
    · simp
  · simp

@[simp] theorem State.doBarrier_frame (s : State) (l : Nat) :
    (State.doBarrier s l).pending = s.pending ∧ (State.doBarrier s l).gradeS = s.gradeS ∧
    (State.doBarrier s l).ft = s.ft ∧ (State.doBarrier s l).cls = s.cls ∧ (State.doBarrier s l).layout = s.layout ∧
    (State.doBarrier s l).setup = s.setup ∧ (State.doBarrier s l).serial = s.serial ∧
    (State.doBarrier s l).bringing = s.bringing ∧ (State.doBarrier s l).lmap = s.lmap ∧
    (State.doBarrier s l).bdies = s.bdies ∧ (State.doBarrier s l).ports = s.ports ∧
    (State.doBarrier s l).nodes = s.nodes ∧ (State.doBarrier s l).time = s.time ∧ (State.doBarrier s l).gov = s.gov ∧
    (State.doBarrier s l).mmc = s.mmc := by
  unfold State.doBarrier
  (repeat' split) <;> simp

@[simp] theorem State.doEnd_frame (s : State) (l : Nat) :
    (State.doEnd s l).pending = s.pending ∧ (State.doEnd s l).gradeS = s.gradeS ∧ (State.doEnd s l).ft = s.ft ∧
    (State.doEnd s l).cls = s.cls ∧ (State.doEnd s l).layout = s.layout ∧ (State.doEnd s l).setup = s.setup ∧
    (State.doEnd s l).serial = s.serial ∧ (State.doEnd s l).bringing = s.bringing ∧ (State.doEnd s l).lmap = s.lmap ∧
    (State.doEnd s l).bdies = s.bdies ∧ (State.doEnd s l).ports = s.ports ∧ (State.doEnd s l).nodes = s.nodes ∧
    (State.doEnd s l).time = s.time ∧ (State.doEnd s l).gov = s.gov ∧ (State.doEnd s l).mmc = s.mmc := by
  unfold State.doEnd
  simp
  (repeat' split) <;> simp

@[simp] theorem State.stepBarrier_frame (s : State) (p : Nat) (t : ExTable) :
    (State.stepBarrier s p t).pending = s.pending ∧ (State.stepBarrier s p t).gradeS = s.gradeS ∧
    (State.stepBarrier s p t).ft = s.ft ∧ (State.stepBarrier s p t).cls = s.cls ∧
    (State.stepBarrier s p t).layout = s.layout ∧ (State.stepBarrier s p t).setup = s.setup ∧
    (State.stepBarrier s p t).serial = s.serial ∧ (State.stepBarrier s p t).bringing = s.bringing ∧
    (State.stepBarrier s p t).lmap = s.lmap ∧ (State.stepBarrier s p t).bdies = s.bdies ∧
    (State.stepBarrier s p t).time = s.time ∧ (State.stepBarrier s p t).gov = s.gov ∧
    (State.stepBarrier s p t).mmc = s.mmc := by
  unfold State.stepBarrier
  (repeat' split) <;> simp

@[simp] theorem State.doBarrierRelease_frame (s : State) (p : Nat) :
    (State.doBarrierRelease s p).pending = s.pending ∧ (State.doBarrierRelease s p).gradeS = s.gradeS ∧
    (State.doBarrierRelease s p).ft = s.ft ∧ (State.doBarrierRelease s p).cls = s.cls ∧
    (State.doBarrierRelease s p).layout = s.layout ∧ (State.doBarrierRelease s p).setup = s.setup ∧
    (State.doBarrierRelease s p).serial = s.serial ∧ (State.doBarrierRelease s p).bringing = s.bringing ∧
    (State.doBarrierRelease s p).lmap = s.lmap ∧ (State.doBarrierRelease s p).bdies = s.bdies ∧
    (State.doBarrierRelease s p).time = s.time ∧ (State.doBarrierRelease s p).gov = s.gov ∧
    (State.doBarrierRelease s p).mmc = s.mmc := by
  unfold State.doBarrierRelease
  (repeat' split) <;> simp

@[simp] theorem State.doBarrierTimeout_frame (s : State) (l : Nat) :
    (State.doBarrierTimeout s l).pending = s.pending ∧ (State.doBarrierTimeout s l).gradeS = s.gradeS ∧
    (State.doBarrierTimeout s l).ft = s.ft ∧ (State.doBarrierTimeout s l).cls = s.cls ∧
    (State.doBarrierTimeout s l).layout = s.layout ∧ (State.doBarrierTimeout s l).setup = s.setup ∧
    (State.doBarrierTimeout s l).serial = s.serial ∧ (State.doBarrierTimeout s l).bringing = s.bringing ∧
    (State.doBarrierTimeout s l).lmap = s.lmap ∧ (State.doBarrierTimeout s l).bdies = s.bdies ∧
    (State.doBarrierTimeout s l).ports = s.ports ∧ (State.doBarrierTimeout s l).nodes = s.nodes ∧
    (State.doBarrierTimeout s l).time = s.time ∧ (State.doBarrierTimeout s l).gov = s.gov ∧
    (State.doBarrierTimeout s l).mmc = s.mmc := by
  unfold State.doBarrierTimeout
  simp
  (repeat' split) <;> simp

@[simp] theorem State.doTokenTimeout_frame (s : State) (l q : Nat) :
    (State.doTokenTimeout s l q).pending = s.pending ∧ (State.doTokenTimeout s l q).gradeS = s.gradeS ∧
    (State.doTokenTimeout s l q).ft = s.ft ∧ (State.doTokenTimeout s l q).cls = s.cls ∧
    (State.doTokenTimeout s l q).layout = s.layout ∧ (State.doTokenTimeout s l q).setup = s.setup ∧
    (State.doTokenTimeout s l q).serial = s.serial ∧ (State.doTokenTimeout s l q).bringing = s.bringing ∧
    (State.doTokenTimeout s l q).lmap = s.lmap ∧ (State.doTokenTimeout s l q).bdies = s.bdies ∧
    (State.doTokenTimeout s l q).ports = s.ports ∧ (State.doTokenTimeout s l q).nodes = s.nodes ∧
    (State.doTokenTimeout s l q).time = s.time ∧ (State.doTokenTimeout s l q).gov = s.gov ∧
    (State.doTokenTimeout s l q).mmc = s.mmc := by
  unfold State.doTokenTimeout
  simp
  (repeat' split) <;> simp

end Sys2Proof.Machine
end

