-- ==== Sys2Proof/Laws/FrameJobs.lean ====
section
/-! SUPPORT. Frames: which fields of the state each operation of Machine/Jobs, MemCmds leaves as they are. -/

namespace Sys2Proof.Machine

@[simp] theorem State.setRing_frame (s : State) (p n : Nat) (r : Ring) :
    (State.setRing s p n r).pending = s.pending ∧ (State.setRing s p n r).freeCtr = s.freeCtr ∧
    (State.setRing s p n r).gradeS = s.gradeS ∧ (State.setRing s p n r).ft = s.ft ∧
    (State.setRing s p n r).cls = s.cls ∧ (State.setRing s p n r).layout = s.layout ∧
    (State.setRing s p n r).setup = s.setup ∧ (State.setRing s p n r).serial = s.serial ∧
    (State.setRing s p n r).bringing = s.bringing ∧ (State.setRing s p n r).lmap = s.lmap ∧
    (State.setRing s p n r).parts = s.parts ∧ (State.setRing s p n r).cores = s.cores ∧
    (State.setRing s p n r).slices = s.slices ∧ (State.setRing s p n r).hbmcs = s.hbmcs ∧
    (State.setRing s p n r).bdies = s.bdies ∧ (State.setRing s p n r).ports = s.ports ∧
    (State.setRing s p n r).nodes = s.nodes ∧ (State.setRing s p n r).time = s.time ∧
    (State.setRing s p n r).out = s.out ∧ (State.setRing s p n r).chip = s.chip ∧ (State.setRing s p n r).gov = s.gov ∧
    (State.setRing s p n r).mmc = s.mmc ∧ (State.setRing s p n r).gdbg = s.gdbg := by
  unfold State.setRing
  (repeat' split) <;> simp

@[simp] theorem State.modRing_frame (s : State) (p n : Nat) (f : Ring → Ring) :
    (State.modRing s p n f).pending = s.pending ∧ (State.modRing s p n f).freeCtr = s.freeCtr ∧
    (State.modRing s p n f).gradeS = s.gradeS ∧ (State.modRing s p n f).ft = s.ft ∧
    (State.modRing s p n f).cls = s.cls ∧ (State.modRing s p n f).layout = s.layout ∧
    (State.modRing s p n f).setup = s.setup ∧ (State.modRing s p n f).serial = s.serial ∧
    (State.modRing s p n f).bringing = s.bringing ∧ (State.modRing s p n f).lmap = s.lmap ∧
    (State.modRing s p n f).parts = s.parts ∧ (State.modRing s p n f).cores = s.cores ∧
    (State.modRing s p n f).slices = s.slices ∧ (State.modRing s p n f).hbmcs = s.hbmcs ∧
    (State.modRing s p n f).bdies = s.bdies ∧ (State.modRing s p n f).ports = s.ports ∧
    (State.modRing s p n f).nodes = s.nodes ∧ (State.modRing s p n f).time = s.time ∧
    (State.modRing s p n f).out = s.out ∧ (State.modRing s p n f).chip = s.chip ∧ (State.modRing s p n f).gov = s.gov ∧
    (State.modRing s p n f).mmc = s.mmc ∧ (State.modRing s p n f).gdbg = s.gdbg := by
  unfold State.modRing
  (repeat' split) <;> simp

@[simp] theorem State.ringFault_frame (s : State) (p n : Nat) :
    (State.ringFault s p n).pending = s.pending ∧ (State.ringFault s p n).freeCtr = s.freeCtr ∧
    (State.ringFault s p n).gradeS = s.gradeS ∧ (State.ringFault s p n).ft = s.ft ∧
    (State.ringFault s p n).cls = s.cls ∧ (State.ringFault s p n).layout = s.layout ∧
    (State.ringFault s p n).setup = s.setup ∧ (State.ringFault s p n).serial = s.serial ∧
    (State.ringFault s p n).bringing = s.bringing ∧ (State.ringFault s p n).lmap = s.lmap ∧
    (State.ringFault s p n).parts = s.parts ∧ (State.ringFault s p n).cores = s.cores ∧
    (State.ringFault s p n).slices = s.slices ∧ (State.ringFault s p n).hbmcs = s.hbmcs ∧
    (State.ringFault s p n).bdies = s.bdies ∧ (State.ringFault s p n).ports = s.ports ∧
    (State.ringFault s p n).nodes = s.nodes ∧ (State.ringFault s p n).time = s.time ∧
    (State.ringFault s p n).chip = s.chip ∧ (State.ringFault s p n).gov = s.gov ∧ (State.ringFault s p n).mmc = s.mmc ∧
    (State.ringFault s p n).gdbg = s.gdbg := by
  unfold State.ringFault
  (repeat' split) <;> simp

@[simp] theorem State.readImage_frame (s : State) (p a : Nat) :
    (State.readImage s p a).1.pending = s.pending ∧ (State.readImage s p a).1.gradeS = s.gradeS ∧
    (State.readImage s p a).1.ft = s.ft ∧ (State.readImage s p a).1.cls = s.cls ∧
    (State.readImage s p a).1.layout = s.layout ∧ (State.readImage s p a).1.setup = s.setup ∧
    (State.readImage s p a).1.serial = s.serial ∧ (State.readImage s p a).1.bringing = s.bringing ∧
    (State.readImage s p a).1.lmap = s.lmap ∧ (State.readImage s p a).1.cores = s.cores ∧
    (State.readImage s p a).1.bdies = s.bdies ∧ (State.readImage s p a).1.ports = s.ports ∧
    (State.readImage s p a).1.nodes = s.nodes ∧ (State.readImage s p a).1.time = s.time ∧
    (State.readImage s p a).1.gov = s.gov ∧ (State.readImage s p a).1.mmc = s.mmc := by
  unfold State.readImage
  simp
  (repeat' split) <;> simp

@[simp] theorem State.fcastInvalid_frame (s : State) (p off cause : Nat) :
    (State.fcastInvalid s p off cause).pending = s.pending ∧ (State.fcastInvalid s p off cause).freeCtr = s.freeCtr ∧
    (State.fcastInvalid s p off cause).gradeS = s.gradeS ∧ (State.fcastInvalid s p off cause).ft = s.ft ∧
    (State.fcastInvalid s p off cause).cls = s.cls ∧ (State.fcastInvalid s p off cause).layout = s.layout ∧
    (State.fcastInvalid s p off cause).setup = s.setup ∧ (State.fcastInvalid s p off cause).serial = s.serial ∧
    (State.fcastInvalid s p off cause).bringing = s.bringing ∧ (State.fcastInvalid s p off cause).lmap = s.lmap ∧
    (State.fcastInvalid s p off cause).parts = s.parts ∧ (State.fcastInvalid s p off cause).cores = s.cores ∧
    (State.fcastInvalid s p off cause).slices = s.slices ∧ (State.fcastInvalid s p off cause).hbmcs = s.hbmcs ∧
    (State.fcastInvalid s p off cause).bdies = s.bdies ∧ (State.fcastInvalid s p off cause).ports = s.ports ∧
    (State.fcastInvalid s p off cause).nodes = s.nodes ∧ (State.fcastInvalid s p off cause).time = s.time ∧
    (State.fcastInvalid s p off cause).chip = s.chip ∧ (State.fcastInvalid s p off cause).gov = s.gov ∧
    (State.fcastInvalid s p off cause).mmc = s.mmc ∧ (State.fcastInvalid s p off cause).gdbg = s.gdbg := by
  unfold State.fcastInvalid
  (repeat' split) <;> simp

@[simp] theorem State.readForecast_frame (s : State) (p : Nat) (h : Bytes) (dir : List DirEntry) :
    (State.readForecast s p h dir).1.pending = s.pending ∧ (State.readForecast s p h dir).1.gradeS = s.gradeS ∧
    (State.readForecast s p h dir).1.ft = s.ft ∧ (State.readForecast s p h dir).1.cls = s.cls ∧
    (State.readForecast s p h dir).1.layout = s.layout ∧ (State.readForecast s p h dir).1.setup = s.setup ∧
    (State.readForecast s p h dir).1.serial = s.serial ∧ (State.readForecast s p h dir).1.bringing = s.bringing ∧
    (State.readForecast s p h dir).1.lmap = s.lmap ∧ (State.readForecast s p h dir).1.cores = s.cores ∧
    (State.readForecast s p h dir).1.bdies = s.bdies ∧ (State.readForecast s p h dir).1.ports = s.ports ∧
    (State.readForecast s p h dir).1.nodes = s.nodes ∧ (State.readForecast s p h dir).1.time = s.time ∧
    (State.readForecast s p h dir).1.gov = s.gov ∧ (State.readForecast s p h dir).1.mmc = s.mmc := by
  unfold State.readForecast
  simp
  (repeat' split) <;> simp

@[simp] theorem State.startCores_frame (s : State) (p : Nat) (args : List Nat) (key : Nat) (dir : List DirEntry) :
    (State.startCores s p args key dir).pending = s.pending ∧ (State.startCores s p args key dir).freeCtr = s.freeCtr ∧
    (State.startCores s p args key dir).gradeS = s.gradeS ∧ (State.startCores s p args key dir).ft = s.ft ∧
    (State.startCores s p args key dir).cls = s.cls ∧ (State.startCores s p args key dir).layout = s.layout ∧
    (State.startCores s p args key dir).setup = s.setup ∧ (State.startCores s p args key dir).serial = s.serial ∧
    (State.startCores s p args key dir).bringing = s.bringing ∧ (State.startCores s p args key dir).lmap = s.lmap ∧
    (State.startCores s p args key dir).parts = s.parts ∧ (State.startCores s p args key dir).slices = s.slices ∧
    (State.startCores s p args key dir).hbmcs = s.hbmcs ∧ (State.startCores s p args key dir).bdies = s.bdies ∧
    (State.startCores s p args key dir).ports = s.ports ∧ (State.startCores s p args key dir).nodes = s.nodes ∧
    (State.startCores s p args key dir).time = s.time ∧ (State.startCores s p args key dir).out = s.out ∧
    (State.startCores s p args key dir).hif = s.hif ∧ (State.startCores s p args key dir).chip = s.chip ∧
    (State.startCores s p args key dir).gov = s.gov ∧ (State.startCores s p args key dir).mmc = s.mmc ∧
    (State.startCores s p args key dir).gdbg = s.gdbg := by
  unfold State.startCores
  simp
  exact ⟨(foldl_keeps (fun x : State => x.pending) _ (fun a i => by (try dsimp only); (repeat' split) <;> simp) _ _).trans (by simp),
    (foldl_keeps (fun x : State => x.freeCtr) _ (fun a i => by (try dsimp only); (repeat' split) <;> simp) _ _).trans (by simp),
    (foldl_keeps (fun x : State => x.gradeS) _ (fun a i => by (try dsimp only); (repeat' split) <;> simp) _ _).trans (by simp),
    (foldl_keeps (fun x : State => x.ft) _ (fun a i => by (try dsimp only); (repeat' split) <;> simp) _ _).trans (by simp),
    (foldl_keeps (fun x : State => x.cls) _ (fun a i => by (try dsimp only); (repeat' split) <;> simp) _ _).trans (by simp),
    (foldl_keeps (fun x : State => x.layout) _ (fun a i => by (try dsimp only); (repeat' split) <;> simp) _ _).trans (by simp),
    (foldl_keeps (fun x : State => x.setup) _ (fun a i => by (try dsimp only); (repeat' split) <;> simp) _ _).trans (by simp),
    (foldl_keeps (fun x : State => x.serial) _ (fun a i => by (try dsimp only); (repeat' split) <;> simp) _ _).trans (by simp),
    (foldl_keeps (fun x : State => x.bringing) _ (fun a i => by (try dsimp only); (repeat' split) <;> simp) _ _).trans (by simp),
    (foldl_keeps (fun x : State => x.lmap) _ (fun a i => by (try dsimp only); (repeat' split) <;> simp) _ _).trans (by simp),
    (foldl_keeps (fun x : State => x.parts) _ (fun a i => by (try dsimp only); (repeat' split) <;> simp) _ _).trans (by simp),
    (foldl_keeps (fun x : State => x.slices) _ (fun a i => by (try dsimp only); (repeat' split) <;> simp) _ _).trans (by simp),
    (foldl_keeps (fun x : State => x.hbmcs) _ (fun a i => by (try dsimp only); (repeat' split) <;> simp) _ _).trans (by simp),
    (foldl_keeps (fun x : State => x.bdies) _ (fun a i => by (try dsimp only); (repeat' split) <;> simp) _ _).trans (by simp),
    (foldl_keeps (fun x : State => x.ports) _ (fun a i => by (try dsimp only); (repeat' split) <;> simp) _ _).trans (by simp),
    (foldl_keeps (fun x : State => x.nodes) _ (fun a i => by (try dsimp only); (repeat' split) <;> simp) _ _).trans (by simp),
    (foldl_keeps (fun x : State => x.time) _ (fun a i => by (try dsimp only); (repeat' split) <;> simp) _ _).trans (by simp),
    (foldl_keeps (fun x : State => x.out) _ (fun a i => by (try dsimp only); (repeat' split) <;> simp) _ _).trans (by simp),
    (foldl_keeps (fun x : State => x.hif) _ (fun a i => by (try dsimp only); (repeat' split) <;> simp) _ _).trans (by simp),
    (foldl_keeps (fun x : State => x.chip) _ (fun a i => by (try dsimp only); (repeat' split) <;> simp) _ _).trans (by simp),
    (foldl_keeps (fun x : State => x.gov) _ (fun a i => by (try dsimp only); (repeat' split) <;> simp) _ _).trans (by simp),
    (foldl_keeps (fun x : State => x.mmc) _ (fun a i => by (try dsimp only); (repeat' split) <;> simp) _ _).trans (by simp),
    (foldl_keeps (fun x : State => x.gdbg) _ (fun a i => by (try dsimp only); (repeat' split) <;> simp) _ _).trans (by simp)⟩

@[simp] theorem State.launchJob_frame (s : State) (p : Nat) (j : Job) :
    (State.launchJob s p j).pending = s.pending ∧ (State.launchJob s p j).gradeS = s.gradeS ∧
    (State.launchJob s p j).ft = s.ft ∧ (State.launchJob s p j).cls = s.cls ∧
    (State.launchJob s p j).layout = s.layout ∧ (State.launchJob s p j).setup = s.setup ∧
    (State.launchJob s p j).serial = s.serial ∧ (State.launchJob s p j).bringing = s.bringing ∧
    (State.launchJob s p j).lmap = s.lmap ∧ (State.launchJob s p j).bdies = s.bdies ∧
    (State.launchJob s p j).ports = s.ports ∧ (State.launchJob s p j).nodes = s.nodes ∧
    (State.launchJob s p j).time = s.time ∧ (State.launchJob s p j).gov = s.gov ∧
    (State.launchJob s p j).mmc = s.mmc := by
  unfold State.launchJob
  simp
  (repeat' split) <;> simp

@[simp] theorem State.promote_frame (s : State) (p : Nat) :
    (State.promote s p).pending = s.pending ∧ (State.promote s p).gradeS = s.gradeS ∧ (State.promote s p).ft = s.ft ∧
    (State.promote s p).cls = s.cls ∧ (State.promote s p).layout = s.layout ∧ (State.promote s p).setup = s.setup ∧
    (State.promote s p).serial = s.serial ∧ (State.promote s p).bringing = s.bringing ∧
    (State.promote s p).lmap = s.lmap ∧ (State.promote s p).bdies = s.bdies ∧ (State.promote s p).ports = s.ports ∧
    (State.promote s p).nodes = s.nodes ∧ (State.promote s p).time = s.time ∧ (State.promote s p).gov = s.gov ∧
    (State.promote s p).mmc = s.mmc := by
  unfold State.promote
  (repeat' split) <;> simp

@[simp] theorem State.turned_frame (s : State) (p n : Nat) :
    (State.turned s p n).pending = s.pending ∧ (State.turned s p n).freeCtr = s.freeCtr ∧
    (State.turned s p n).gradeS = s.gradeS ∧ (State.turned s p n).ft = s.ft ∧ (State.turned s p n).cls = s.cls ∧
    (State.turned s p n).layout = s.layout ∧ (State.turned s p n).setup = s.setup ∧
    (State.turned s p n).serial = s.serial ∧ (State.turned s p n).bringing = s.bringing ∧
    (State.turned s p n).lmap = s.lmap ∧ (State.turned s p n).parts = s.parts ∧ (State.turned s p n).cores = s.cores ∧
    (State.turned s p n).slices = s.slices ∧ (State.turned s p n).hbmcs = s.hbmcs ∧
    (State.turned s p n).bdies = s.bdies ∧ (State.turned s p n).ports = s.ports ∧
    (State.turned s p n).nodes = s.nodes ∧ (State.turned s p n).time = s.time ∧ (State.turned s p n).out = s.out ∧
    (State.turned s p n).chip = s.chip ∧ (State.turned s p n).gov = s.gov ∧ (State.turned s p n).mmc = s.mmc ∧
    (State.turned s p n).gdbg = s.gdbg := by
  unfold State.turned
  (repeat' split) <;> simp

@[simp] theorem State.takeJob_frame (s : State) (p n : Nat) (e : Bytes) (copies : List CopyEntry) (early : Option (Nat × Nat)) :
    (State.takeJob s p n e copies early).pending = s.pending ∧ (State.takeJob s p n e copies early).gradeS = s.gradeS ∧
    (State.takeJob s p n e copies early).ft = s.ft ∧ (State.takeJob s p n e copies early).cls = s.cls ∧
    (State.takeJob s p n e copies early).layout = s.layout ∧ (State.takeJob s p n e copies early).setup = s.setup ∧
    (State.takeJob s p n e copies early).serial = s.serial ∧
    (State.takeJob s p n e copies early).bringing = s.bringing ∧ (State.takeJob s p n e copies early).lmap = s.lmap ∧
    (State.takeJob s p n e copies early).bdies = s.bdies ∧ (State.takeJob s p n e copies early).ports = s.ports ∧
    (State.takeJob s p n e copies early).nodes = s.nodes ∧ (State.takeJob s p n e copies early).time = s.time ∧
    (State.takeJob s p n e copies early).gov = s.gov ∧ (State.takeJob s p n e copies early).mmc = s.mmc := by
  unfold State.takeJob
  (repeat' split) <;> simp

@[simp] theorem State.doJobStart_frame (s : State) (p : Nat) (entry copies : HostRead) :
    (State.doJobStart s p entry copies).pending = s.pending ∧ (State.doJobStart s p entry copies).gradeS = s.gradeS ∧
    (State.doJobStart s p entry copies).ft = s.ft ∧ (State.doJobStart s p entry copies).cls = s.cls ∧
    (State.doJobStart s p entry copies).layout = s.layout ∧ (State.doJobStart s p entry copies).setup = s.setup ∧
    (State.doJobStart s p entry copies).serial = s.serial ∧ (State.doJobStart s p entry copies).bringing = s.bringing ∧
    (State.doJobStart s p entry copies).lmap = s.lmap ∧ (State.doJobStart s p entry copies).bdies = s.bdies ∧
    (State.doJobStart s p entry copies).ports = s.ports ∧ (State.doJobStart s p entry copies).nodes = s.nodes ∧
    (State.doJobStart s p entry copies).time = s.time ∧ (State.doJobStart s p entry copies).gov = s.gov ∧
    (State.doJobStart s p entry copies).mmc = s.mmc := by
  unfold State.doJobStart
  (repeat' split) <;> simp

@[simp] theorem State.putEntry_frame (s : State) (p n : Nat) (irq : Bool) (entry : Nat → Bytes) :
    (State.putEntry s p n irq entry).pending = s.pending ∧ (State.putEntry s p n irq entry).freeCtr = s.freeCtr ∧
    (State.putEntry s p n irq entry).gradeS = s.gradeS ∧ (State.putEntry s p n irq entry).ft = s.ft ∧
    (State.putEntry s p n irq entry).cls = s.cls ∧ (State.putEntry s p n irq entry).layout = s.layout ∧
    (State.putEntry s p n irq entry).setup = s.setup ∧ (State.putEntry s p n irq entry).serial = s.serial ∧
    (State.putEntry s p n irq entry).bringing = s.bringing ∧ (State.putEntry s p n irq entry).lmap = s.lmap ∧
    (State.putEntry s p n irq entry).parts = s.parts ∧ (State.putEntry s p n irq entry).cores = s.cores ∧
    (State.putEntry s p n irq entry).slices = s.slices ∧ (State.putEntry s p n irq entry).hbmcs = s.hbmcs ∧
    (State.putEntry s p n irq entry).bdies = s.bdies ∧ (State.putEntry s p n irq entry).ports = s.ports ∧
    (State.putEntry s p n irq entry).nodes = s.nodes ∧ (State.putEntry s p n irq entry).time = s.time ∧
    (State.putEntry s p n irq entry).chip = s.chip ∧ (State.putEntry s p n irq entry).gov = s.gov ∧
    (State.putEntry s p n irq entry).mmc = s.mmc ∧ (State.putEntry s p n irq entry).gdbg = s.gdbg := by
  unfold State.putEntry
  (repeat' split) <;> simp

@[simp] theorem State.unselect_frame (s : State) (p : Nat) :
    (State.unselect s p).pending = s.pending ∧ (State.unselect s p).freeCtr = s.freeCtr ∧
    (State.unselect s p).gradeS = s.gradeS ∧ (State.unselect s p).ft = s.ft ∧ (State.unselect s p).cls = s.cls ∧
    (State.unselect s p).layout = s.layout ∧ (State.unselect s p).setup = s.setup ∧
    (State.unselect s p).serial = s.serial ∧ (State.unselect s p).bringing = s.bringing ∧
    (State.unselect s p).lmap = s.lmap ∧ (State.unselect s p).cores = s.cores ∧
    (State.unselect s p).slices = s.slices ∧ (State.unselect s p).hbmcs = s.hbmcs ∧
    (State.unselect s p).bdies = s.bdies ∧ (State.unselect s p).ports = s.ports ∧
    (State.unselect s p).nodes = s.nodes ∧ (State.unselect s p).time = s.time ∧ (State.unselect s p).out = s.out ∧
    (State.unselect s p).chip = s.chip ∧ (State.unselect s p).gov = s.gov ∧ (State.unselect s p).mmc = s.mmc ∧
    (State.unselect s p).gdbg = s.gdbg := by
  unfold State.unselect
  (repeat' split) <;> simp

@[simp] theorem State.doJobComplete_frame (s : State) (p : Nat) :
    (State.doJobComplete s p).pending = s.pending ∧ (State.doJobComplete s p).gradeS = s.gradeS ∧
    (State.doJobComplete s p).ft = s.ft ∧ (State.doJobComplete s p).cls = s.cls ∧
    (State.doJobComplete s p).layout = s.layout ∧ (State.doJobComplete s p).setup = s.setup ∧
    (State.doJobComplete s p).serial = s.serial ∧ (State.doJobComplete s p).bringing = s.bringing ∧
    (State.doJobComplete s p).lmap = s.lmap ∧ (State.doJobComplete s p).bdies = s.bdies ∧
    (State.doJobComplete s p).ports = s.ports ∧ (State.doJobComplete s p).nodes = s.nodes ∧
    (State.doJobComplete s p).time = s.time ∧ (State.doJobComplete s p).gov = s.gov ∧
    (State.doJobComplete s p).mmc = s.mmc := by
  unfold State.doJobComplete
  (repeat' split) <;> simp

@[simp] theorem State.doNoOperation_frame (s : State) (p n : Nat) (entry : HostRead) :
    (State.doNoOperation s p n entry).pending = s.pending ∧ (State.doNoOperation s p n entry).freeCtr = s.freeCtr ∧
    (State.doNoOperation s p n entry).gradeS = s.gradeS ∧ (State.doNoOperation s p n entry).ft = s.ft ∧
    (State.doNoOperation s p n entry).cls = s.cls ∧ (State.doNoOperation s p n entry).layout = s.layout ∧
    (State.doNoOperation s p n entry).setup = s.setup ∧ (State.doNoOperation s p n entry).serial = s.serial ∧
    (State.doNoOperation s p n entry).bringing = s.bringing ∧ (State.doNoOperation s p n entry).lmap = s.lmap ∧
    (State.doNoOperation s p n entry).parts = s.parts ∧ (State.doNoOperation s p n entry).cores = s.cores ∧
    (State.doNoOperation s p n entry).slices = s.slices ∧ (State.doNoOperation s p n entry).hbmcs = s.hbmcs ∧
    (State.doNoOperation s p n entry).bdies = s.bdies ∧ (State.doNoOperation s p n entry).ports = s.ports ∧
    (State.doNoOperation s p n entry).nodes = s.nodes ∧ (State.doNoOperation s p n entry).time = s.time ∧
    (State.doNoOperation s p n entry).chip = s.chip ∧ (State.doNoOperation s p n entry).gov = s.gov ∧
    (State.doNoOperation s p n entry).mmc = s.mmc ∧ (State.doNoOperation s p n entry).gdbg = s.gdbg := by
  unfold State.doNoOperation
  (repeat' split) <;> simp

@[simp] theorem State.modNext_frame (s : State) (p : Nat) (f : Job → Job) :
    (State.modNext s p f).pending = s.pending ∧ (State.modNext s p f).freeCtr = s.freeCtr ∧
    (State.modNext s p f).gradeS = s.gradeS ∧ (State.modNext s p f).ft = s.ft ∧ (State.modNext s p f).cls = s.cls ∧
    (State.modNext s p f).layout = s.layout ∧ (State.modNext s p f).setup = s.setup ∧
    (State.modNext s p f).serial = s.serial ∧ (State.modNext s p f).bringing = s.bringing ∧
    (State.modNext s p f).lmap = s.lmap ∧ (State.modNext s p f).cores = s.cores ∧
    (State.modNext s p f).slices = s.slices ∧ (State.modNext s p f).hbmcs = s.hbmcs ∧
    (State.modNext s p f).bdies = s.bdies ∧ (State.modNext s p f).ports = s.ports ∧
    (State.modNext s p f).nodes = s.nodes ∧ (State.modNext s p f).time = s.time ∧ (State.modNext s p f).out = s.out ∧
    (State.modNext s p f).hif = s.hif ∧ (State.modNext s p f).chip = s.chip ∧ (State.modNext s p f).gov = s.gov ∧
    (State.modNext s p f).mmc = s.mmc ∧ (State.modNext s p f).gdbg = s.gdbg := by
  unfold State.modNext
  (repeat' split) <;> simp

@[simp] theorem State.doHostCopyIn_frame (s : State) (p : Nat) (data : HostRead) :
    (State.doHostCopyIn s p data).pending = s.pending ∧ (State.doHostCopyIn s p data).gradeS = s.gradeS ∧
    (State.doHostCopyIn s p data).ft = s.ft ∧ (State.doHostCopyIn s p data).cls = s.cls ∧
    (State.doHostCopyIn s p data).layout = s.layout ∧ (State.doHostCopyIn s p data).setup = s.setup ∧
    (State.doHostCopyIn s p data).serial = s.serial ∧ (State.doHostCopyIn s p data).bringing = s.bringing ∧
    (State.doHostCopyIn s p data).lmap = s.lmap ∧ (State.doHostCopyIn s p data).bdies = s.bdies ∧
    (State.doHostCopyIn s p data).ports = s.ports ∧ (State.doHostCopyIn s p data).nodes = s.nodes ∧
    (State.doHostCopyIn s p data).time = s.time ∧ (State.doHostCopyIn s p data).gov = s.gov ∧
    (State.doHostCopyIn s p data).mmc = s.mmc := by
  unfold State.doHostCopyIn
  simp
  (repeat' split) <;> simp

@[simp] theorem State.doHostCopyOut_frame (s : State) (p : Nat) (ok : Bool) :
    (State.doHostCopyOut s p ok).pending = s.pending ∧ (State.doHostCopyOut s p ok).gradeS = s.gradeS ∧
    (State.doHostCopyOut s p ok).ft = s.ft ∧ (State.doHostCopyOut s p ok).cls = s.cls ∧
    (State.doHostCopyOut s p ok).layout = s.layout ∧ (State.doHostCopyOut s p ok).setup = s.setup ∧
    (State.doHostCopyOut s p ok).serial = s.serial ∧ (State.doHostCopyOut s p ok).bringing = s.bringing ∧
    (State.doHostCopyOut s p ok).lmap = s.lmap ∧ (State.doHostCopyOut s p ok).cores = s.cores ∧
    (State.doHostCopyOut s p ok).bdies = s.bdies ∧ (State.doHostCopyOut s p ok).ports = s.ports ∧
    (State.doHostCopyOut s p ok).nodes = s.nodes ∧ (State.doHostCopyOut s p ok).time = s.time ∧
    (State.doHostCopyOut s p ok).gov = s.gov ∧ (State.doHostCopyOut s p ok).mmc = s.mmc := by
  unfold State.doHostCopyOut
  simp
  (repeat' split) <;> simp

@[simp] theorem State.doHostTimeout_frame (s : State) (r : HostRequest) :
    (State.doHostTimeout s r).pending = s.pending ∧ (State.doHostTimeout s r).gradeS = s.gradeS ∧
    (State.doHostTimeout s r).ft = s.ft ∧ (State.doHostTimeout s r).cls = s.cls ∧
    (State.doHostTimeout s r).layout = s.layout ∧ (State.doHostTimeout s r).setup = s.setup ∧
    (State.doHostTimeout s r).serial = s.serial ∧ (State.doHostTimeout s r).bringing = s.bringing ∧
    (State.doHostTimeout s r).lmap = s.lmap ∧ (State.doHostTimeout s r).bdies = s.bdies ∧
    (State.doHostTimeout s r).ports = s.ports ∧ (State.doHostTimeout s r).nodes = s.nodes ∧
    (State.doHostTimeout s r).time = s.time ∧ (State.doHostTimeout s r).gov = s.gov ∧
    (State.doHostTimeout s r).mmc = s.mmc := by
  unfold State.doHostTimeout
  (repeat' split) <;> simp

@[simp] theorem State.abortJob_frame (s : State) (p : Nat) :
    (State.abortJob s p).pending = s.pending ∧ (State.abortJob s p).freeCtr = s.freeCtr ∧
    (State.abortJob s p).gradeS = s.gradeS ∧ (State.abortJob s p).ft = s.ft ∧ (State.abortJob s p).cls = s.cls ∧
    (State.abortJob s p).layout = s.layout ∧ (State.abortJob s p).setup = s.setup ∧
    (State.abortJob s p).serial = s.serial ∧ (State.abortJob s p).bringing = s.bringing ∧
    (State.abortJob s p).lmap = s.lmap ∧ (State.abortJob s p).cores = s.cores ∧
    (State.abortJob s p).slices = s.slices ∧ (State.abortJob s p).hbmcs = s.hbmcs ∧
    (State.abortJob s p).bdies = s.bdies ∧ (State.abortJob s p).ports = s.ports ∧
    (State.abortJob s p).nodes = s.nodes ∧ (State.abortJob s p).time = s.time ∧ (State.abortJob s p).out = s.out ∧
    (State.abortJob s p).chip = s.chip ∧ (State.abortJob s p).gov = s.gov ∧ (State.abortJob s p).mmc = s.mmc ∧
    (State.abortJob s p).gdbg = s.gdbg := by
  unfold State.abortJob
  (repeat' split) <;> simp

@[simp] theorem State.fuseEntry_frame (s : State) (p kind place cause : Nat) :
    (State.fuseEntry s p kind place cause).pending = s.pending ∧
    (State.fuseEntry s p kind place cause).freeCtr = s.freeCtr ∧
    (State.fuseEntry s p kind place cause).gradeS = s.gradeS ∧ (State.fuseEntry s p kind place cause).ft = s.ft ∧
    (State.fuseEntry s p kind place cause).cls = s.cls ∧ (State.fuseEntry s p kind place cause).layout = s.layout ∧
    (State.fuseEntry s p kind place cause).setup = s.setup ∧ (State.fuseEntry s p kind place cause).serial = s.serial ∧
    (State.fuseEntry s p kind place cause).bringing = s.bringing ∧
    (State.fuseEntry s p kind place cause).lmap = s.lmap ∧ (State.fuseEntry s p kind place cause).parts = s.parts ∧
    (State.fuseEntry s p kind place cause).cores = s.cores ∧ (State.fuseEntry s p kind place cause).slices = s.slices ∧
    (State.fuseEntry s p kind place cause).hbmcs = s.hbmcs ∧ (State.fuseEntry s p kind place cause).bdies = s.bdies ∧
    (State.fuseEntry s p kind place cause).ports = s.ports ∧ (State.fuseEntry s p kind place cause).nodes = s.nodes ∧
    (State.fuseEntry s p kind place cause).time = s.time ∧ (State.fuseEntry s p kind place cause).gov = s.gov ∧
    (State.fuseEntry s p kind place cause).mmc = s.mmc ∧ (State.fuseEntry s p kind place cause).gdbg = s.gdbg := by
  unfold State.fuseEntry
  (repeat' split) <;> simp

@[simp] theorem State.rowEvent_frame (s : State) (k code : Nat) (r : RowId) :
    (State.rowEvent s k code r).pending = s.pending ∧ (State.rowEvent s k code r).freeCtr = s.freeCtr ∧
    (State.rowEvent s k code r).gradeS = s.gradeS ∧ (State.rowEvent s k code r).ft = s.ft ∧
    (State.rowEvent s k code r).cls = s.cls ∧ (State.rowEvent s k code r).layout = s.layout ∧
    (State.rowEvent s k code r).setup = s.setup ∧ (State.rowEvent s k code r).serial = s.serial ∧
    (State.rowEvent s k code r).bringing = s.bringing ∧ (State.rowEvent s k code r).lmap = s.lmap ∧
    (State.rowEvent s k code r).parts = s.parts ∧ (State.rowEvent s k code r).cores = s.cores ∧
    (State.rowEvent s k code r).slices = s.slices ∧ (State.rowEvent s k code r).hbmcs = s.hbmcs ∧
    (State.rowEvent s k code r).bdies = s.bdies ∧ (State.rowEvent s k code r).ports = s.ports ∧
    (State.rowEvent s k code r).nodes = s.nodes ∧ (State.rowEvent s k code r).time = s.time ∧
    (State.rowEvent s k code r).chip = s.chip ∧ (State.rowEvent s k code r).gov = s.gov ∧
    (State.rowEvent s k code r).mmc = s.mmc ∧ (State.rowEvent s k code r).gdbg = s.gdbg := by
  unfold State.rowEvent
  (repeat' split) <;> simp

@[simp] theorem State.scrubHeld_frame (s : State) (p line : Nat) (errs : List (Nat × Byte)) :
    (State.scrubHeld s p line errs).pending = s.pending ∧ (State.scrubHeld s p line errs).gradeS = s.gradeS ∧
    (State.scrubHeld s p line errs).ft = s.ft ∧ (State.scrubHeld s p line errs).cls = s.cls ∧
    (State.scrubHeld s p line errs).layout = s.layout ∧ (State.scrubHeld s p line errs).setup = s.setup ∧
    (State.scrubHeld s p line errs).serial = s.serial ∧ (State.scrubHeld s p line errs).bringing = s.bringing ∧
    (State.scrubHeld s p line errs).lmap = s.lmap ∧ (State.scrubHeld s p line errs).parts = s.parts ∧
    (State.scrubHeld s p line errs).cores = s.cores ∧ (State.scrubHeld s p line errs).slices = s.slices ∧
    (State.scrubHeld s p line errs).hbmcs = s.hbmcs ∧ (State.scrubHeld s p line errs).bdies = s.bdies ∧
    (State.scrubHeld s p line errs).ports = s.ports ∧ (State.scrubHeld s p line errs).nodes = s.nodes ∧
    (State.scrubHeld s p line errs).time = s.time ∧ (State.scrubHeld s p line errs).gov = s.gov ∧
    (State.scrubHeld s p line errs).mmc = s.mmc ∧ (State.scrubHeld s p line errs).gdbg = s.gdbg := by
  unfold State.scrubHeld
  (repeat' split) <;> simp

@[simp] theorem State.scrubWord_frame (s : State) (p line : Nat) (flt : MemFault) :
    (State.scrubWord s p line flt).pending = s.pending ∧ (State.scrubWord s p line flt).gradeS = s.gradeS ∧
    (State.scrubWord s p line flt).ft = s.ft ∧ (State.scrubWord s p line flt).cls = s.cls ∧
    (State.scrubWord s p line flt).layout = s.layout ∧ (State.scrubWord s p line flt).setup = s.setup ∧
    (State.scrubWord s p line flt).serial = s.serial ∧ (State.scrubWord s p line flt).bringing = s.bringing ∧
    (State.scrubWord s p line flt).lmap = s.lmap ∧ (State.scrubWord s p line flt).cores = s.cores ∧
    (State.scrubWord s p line flt).slices = s.slices ∧ (State.scrubWord s p line flt).bdies = s.bdies ∧
    (State.scrubWord s p line flt).ports = s.ports ∧ (State.scrubWord s p line flt).nodes = s.nodes ∧
    (State.scrubWord s p line flt).time = s.time ∧ (State.scrubWord s p line flt).gov = s.gov ∧
    (State.scrubWord s p line flt).mmc = s.mmc := by
  unfold State.scrubWord
  (repeat' split) <;> simp

@[simp] theorem State.doPatrolScrub_frame (s : State) (k : Nat) (flt : MemFault) :
    (State.doPatrolScrub s k flt).pending = s.pending ∧ (State.doPatrolScrub s k flt).gradeS = s.gradeS ∧
    (State.doPatrolScrub s k flt).ft = s.ft ∧ (State.doPatrolScrub s k flt).cls = s.cls ∧
    (State.doPatrolScrub s k flt).layout = s.layout ∧ (State.doPatrolScrub s k flt).setup = s.setup ∧
    (State.doPatrolScrub s k flt).serial = s.serial ∧ (State.doPatrolScrub s k flt).bringing = s.bringing ∧
    (State.doPatrolScrub s k flt).lmap = s.lmap ∧ (State.doPatrolScrub s k flt).cores = s.cores ∧
    (State.doPatrolScrub s k flt).slices = s.slices ∧ (State.doPatrolScrub s k flt).bdies = s.bdies ∧
    (State.doPatrolScrub s k flt).ports = s.ports ∧ (State.doPatrolScrub s k flt).nodes = s.nodes ∧
    (State.doPatrolScrub s k flt).time = s.time ∧ (State.doPatrolScrub s k flt).gov = s.gov ∧
    (State.doPatrolScrub s k flt).mmc = s.mmc := by
  unfold State.doPatrolScrub
  (repeat' split) <;> simp

@[simp] theorem State.doRefresh_frame (s : State) (stack _pc _channel _bank : Nat) :
    (State.doRefresh s stack _pc _channel _bank).pending = s.pending ∧
    (State.doRefresh s stack _pc _channel _bank).gradeS = s.gradeS ∧
    (State.doRefresh s stack _pc _channel _bank).ft = s.ft ∧ (State.doRefresh s stack _pc _channel _bank).cls = s.cls ∧
    (State.doRefresh s stack _pc _channel _bank).layout = s.layout ∧
    (State.doRefresh s stack _pc _channel _bank).setup = s.setup ∧
    (State.doRefresh s stack _pc _channel _bank).serial = s.serial ∧
    (State.doRefresh s stack _pc _channel _bank).bringing = s.bringing ∧
    (State.doRefresh s stack _pc _channel _bank).lmap = s.lmap ∧
    (State.doRefresh s stack _pc _channel _bank).parts = s.parts ∧
    (State.doRefresh s stack _pc _channel _bank).cores = s.cores ∧
    (State.doRefresh s stack _pc _channel _bank).slices = s.slices ∧
    (State.doRefresh s stack _pc _channel _bank).hbmcs = s.hbmcs ∧
    (State.doRefresh s stack _pc _channel _bank).bdies = s.bdies ∧
    (State.doRefresh s stack _pc _channel _bank).ports = s.ports ∧
    (State.doRefresh s stack _pc _channel _bank).nodes = s.nodes ∧
    (State.doRefresh s stack _pc _channel _bank).time = s.time ∧
    (State.doRefresh s stack _pc _channel _bank).out = s.out ∧
    (State.doRefresh s stack _pc _channel _bank).hif = s.hif ∧
    (State.doRefresh s stack _pc _channel _bank).chip = s.chip ∧
    (State.doRefresh s stack _pc _channel _bank).gov = s.gov ∧
    (State.doRefresh s stack _pc _channel _bank).mmc = s.mmc := by
  unfold State.doRefresh
  (repeat' split) <;> simp

@[simp] theorem State.markRow_frame (s : State) (k : Nat) (r : RowId) :
    (State.markRow s k r).pending = s.pending ∧ (State.markRow s k r).freeCtr = s.freeCtr ∧
    (State.markRow s k r).gradeS = s.gradeS ∧ (State.markRow s k r).ft = s.ft ∧ (State.markRow s k r).cls = s.cls ∧
    (State.markRow s k r).layout = s.layout ∧ (State.markRow s k r).setup = s.setup ∧
    (State.markRow s k r).serial = s.serial ∧ (State.markRow s k r).bringing = s.bringing ∧
    (State.markRow s k r).lmap = s.lmap ∧ (State.markRow s k r).parts = s.parts ∧
    (State.markRow s k r).cores = s.cores ∧ (State.markRow s k r).slices = s.slices ∧
    (State.markRow s k r).bdies = s.bdies ∧ (State.markRow s k r).ports = s.ports ∧
    (State.markRow s k r).nodes = s.nodes ∧ (State.markRow s k r).time = s.time ∧ (State.markRow s k r).chip = s.chip ∧
    (State.markRow s k r).gov = s.gov ∧ (State.markRow s k r).mmc = s.mmc ∧ (State.markRow s k r).gdbg = s.gdbg := by
  unfold State.markRow
  (repeat' split) <;> simp

@[simp] theorem State.doRowRepair_frame (s : State) (k : Nat) :
    (State.doRowRepair s k).pending = s.pending ∧ (State.doRowRepair s k).freeCtr = s.freeCtr ∧
    (State.doRowRepair s k).gradeS = s.gradeS ∧ (State.doRowRepair s k).ft = s.ft ∧
    (State.doRowRepair s k).cls = s.cls ∧ (State.doRowRepair s k).layout = s.layout ∧
    (State.doRowRepair s k).setup = s.setup ∧ (State.doRowRepair s k).serial = s.serial ∧
    (State.doRowRepair s k).bringing = s.bringing ∧ (State.doRowRepair s k).lmap = s.lmap ∧
    (State.doRowRepair s k).parts = s.parts ∧ (State.doRowRepair s k).cores = s.cores ∧
    (State.doRowRepair s k).slices = s.slices ∧ (State.doRowRepair s k).bdies = s.bdies ∧
    (State.doRowRepair s k).ports = s.ports ∧ (State.doRowRepair s k).nodes = s.nodes ∧
    (State.doRowRepair s k).time = s.time ∧ (State.doRowRepair s k).out = s.out ∧ (State.doRowRepair s k).hif = s.hif ∧
    (State.doRowRepair s k).chip = s.chip ∧ (State.doRowRepair s k).gov = s.gov ∧ (State.doRowRepair s k).mmc = s.mmc ∧
    (State.doRowRepair s k).gdbg = s.gdbg := by
  unfold State.doRowRepair
  simp
  (repeat' split) <;> simp

@[simp] theorem State.doRowRepairDone_frame (s : State) (k : Nat) (repaired : Bool) :
    (State.doRowRepairDone s k repaired).pending = s.pending ∧ (State.doRowRepairDone s k repaired).gradeS = s.gradeS ∧
    (State.doRowRepairDone s k repaired).ft = s.ft ∧ (State.doRowRepairDone s k repaired).cls = s.cls ∧
    (State.doRowRepairDone s k repaired).layout = s.layout ∧ (State.doRowRepairDone s k repaired).setup = s.setup ∧
    (State.doRowRepairDone s k repaired).serial = s.serial ∧
    (State.doRowRepairDone s k repaired).bringing = s.bringing ∧ (State.doRowRepairDone s k repaired).lmap = s.lmap ∧
    (State.doRowRepairDone s k repaired).bdies = s.bdies ∧ (State.doRowRepairDone s k repaired).ports = s.ports ∧
    (State.doRowRepairDone s k repaired).nodes = s.nodes ∧ (State.doRowRepairDone s k repaired).time = s.time ∧
    (State.doRowRepairDone s k repaired).gov = s.gov ∧ (State.doRowRepairDone s k repaired).mmc = s.mmc := by
  unfold State.doRowRepairDone
  simp
  (repeat' split) <;> simp

@[simp] theorem State.chanEvent_frame (s : State) (p code k c : Nat) :
    (State.chanEvent s p code k c).pending = s.pending ∧ (State.chanEvent s p code k c).freeCtr = s.freeCtr ∧
    (State.chanEvent s p code k c).gradeS = s.gradeS ∧ (State.chanEvent s p code k c).ft = s.ft ∧
    (State.chanEvent s p code k c).cls = s.cls ∧ (State.chanEvent s p code k c).layout = s.layout ∧
    (State.chanEvent s p code k c).setup = s.setup ∧ (State.chanEvent s p code k c).serial = s.serial ∧
    (State.chanEvent s p code k c).bringing = s.bringing ∧ (State.chanEvent s p code k c).lmap = s.lmap ∧
    (State.chanEvent s p code k c).parts = s.parts ∧ (State.chanEvent s p code k c).cores = s.cores ∧
    (State.chanEvent s p code k c).slices = s.slices ∧ (State.chanEvent s p code k c).hbmcs = s.hbmcs ∧
    (State.chanEvent s p code k c).bdies = s.bdies ∧ (State.chanEvent s p code k c).ports = s.ports ∧
    (State.chanEvent s p code k c).nodes = s.nodes ∧ (State.chanEvent s p code k c).time = s.time ∧
    (State.chanEvent s p code k c).chip = s.chip ∧ (State.chanEvent s p code k c).gov = s.gov ∧
    (State.chanEvent s p code k c).mmc = s.mmc ∧ (State.chanEvent s p code k c).gdbg = s.gdbg := by
  unfold State.chanEvent
  (repeat' split) <;> simp

@[simp] theorem State.markMigrating_frame (s : State) (p : Nat) (b : Bool) :
    (State.markMigrating s p b).pending = s.pending ∧ (State.markMigrating s p b).freeCtr = s.freeCtr ∧
    (State.markMigrating s p b).gradeS = s.gradeS ∧ (State.markMigrating s p b).ft = s.ft ∧
    (State.markMigrating s p b).cls = s.cls ∧ (State.markMigrating s p b).layout = s.layout ∧
    (State.markMigrating s p b).setup = s.setup ∧ (State.markMigrating s p b).serial = s.serial ∧
    (State.markMigrating s p b).bringing = s.bringing ∧ (State.markMigrating s p b).lmap = s.lmap ∧
    (State.markMigrating s p b).parts = s.parts ∧ (State.markMigrating s p b).cores = s.cores ∧
    (State.markMigrating s p b).slices = s.slices ∧ (State.markMigrating s p b).bdies = s.bdies ∧
    (State.markMigrating s p b).ports = s.ports ∧ (State.markMigrating s p b).nodes = s.nodes ∧
    (State.markMigrating s p b).time = s.time ∧ (State.markMigrating s p b).out = s.out ∧
    (State.markMigrating s p b).hif = s.hif ∧ (State.markMigrating s p b).chip = s.chip ∧
    (State.markMigrating s p b).gov = s.gov ∧ (State.markMigrating s p b).mmc = s.mmc ∧
    (State.markMigrating s p b).gdbg = s.gdbg := by
  unfold State.markMigrating
  (repeat' split) <;> simp

@[simp] theorem State.beginMigration_frame (s : State) (p : Nat) (x : List (Nat × Nat × Bool)) :
    (State.beginMigration s p x).pending = s.pending ∧ (State.beginMigration s p x).freeCtr = s.freeCtr ∧
    (State.beginMigration s p x).gradeS = s.gradeS ∧ (State.beginMigration s p x).ft = s.ft ∧
    (State.beginMigration s p x).cls = s.cls ∧ (State.beginMigration s p x).layout = s.layout ∧
    (State.beginMigration s p x).setup = s.setup ∧ (State.beginMigration s p x).serial = s.serial ∧
    (State.beginMigration s p x).bringing = s.bringing ∧ (State.beginMigration s p x).lmap = s.lmap ∧
    (State.beginMigration s p x).cores = s.cores ∧ (State.beginMigration s p x).slices = s.slices ∧
    (State.beginMigration s p x).bdies = s.bdies ∧ (State.beginMigration s p x).ports = s.ports ∧
    (State.beginMigration s p x).nodes = s.nodes ∧ (State.beginMigration s p x).time = s.time ∧
    (State.beginMigration s p x).chip = s.chip ∧ (State.beginMigration s p x).gov = s.gov ∧
    (State.beginMigration s p x).mmc = s.mmc ∧ (State.beginMigration s p x).gdbg = s.gdbg := by
  induction x generalizing s with
  | nil => simp [State.beginMigration]
  | cons a x ih =>
    simp only [State.beginMigration]
    (repeat' split) <;> simp [ih]

@[simp] theorem State.degradeChannel_frame (s : State) (k c : Nat) (forced : Bool) :
    (State.degradeChannel s k c forced).pending = s.pending ∧ (State.degradeChannel s k c forced).freeCtr = s.freeCtr ∧
    (State.degradeChannel s k c forced).gradeS = s.gradeS ∧ (State.degradeChannel s k c forced).ft = s.ft ∧
    (State.degradeChannel s k c forced).cls = s.cls ∧ (State.degradeChannel s k c forced).layout = s.layout ∧
    (State.degradeChannel s k c forced).setup = s.setup ∧ (State.degradeChannel s k c forced).serial = s.serial ∧
    (State.degradeChannel s k c forced).bringing = s.bringing ∧ (State.degradeChannel s k c forced).lmap = s.lmap ∧
    (State.degradeChannel s k c forced).cores = s.cores ∧ (State.degradeChannel s k c forced).slices = s.slices ∧
    (State.degradeChannel s k c forced).bdies = s.bdies ∧ (State.degradeChannel s k c forced).ports = s.ports ∧
    (State.degradeChannel s k c forced).nodes = s.nodes ∧ (State.degradeChannel s k c forced).time = s.time ∧
    (State.degradeChannel s k c forced).chip = s.chip ∧ (State.degradeChannel s k c forced).gov = s.gov ∧
    (State.degradeChannel s k c forced).mmc = s.mmc ∧ (State.degradeChannel s k c forced).gdbg = s.gdbg := by
  unfold State.degradeChannel
  (repeat' split) <;> simp

@[simp] theorem State.doGo_frame (s : State) (k c : Nat) :
    (State.doGo s k c).pending = s.pending ∧ (State.doGo s k c).freeCtr = s.freeCtr ∧
    (State.doGo s k c).gradeS = s.gradeS ∧ (State.doGo s k c).ft = s.ft ∧ (State.doGo s k c).cls = s.cls ∧
    (State.doGo s k c).layout = s.layout ∧ (State.doGo s k c).setup = s.setup ∧ (State.doGo s k c).serial = s.serial ∧
    (State.doGo s k c).bringing = s.bringing ∧ (State.doGo s k c).lmap = s.lmap ∧ (State.doGo s k c).cores = s.cores ∧
    (State.doGo s k c).slices = s.slices ∧ (State.doGo s k c).bdies = s.bdies ∧ (State.doGo s k c).ports = s.ports ∧
    (State.doGo s k c).nodes = s.nodes ∧ (State.doGo s k c).time = s.time ∧ (State.doGo s k c).chip = s.chip ∧
    (State.doGo s k c).gov = s.gov ∧ (State.doGo s k c).mmc = s.mmc ∧ (State.doGo s k c).gdbg = s.gdbg := by
  unfold State.doGo
  (repeat' split) <;> simp

@[simp] theorem State.doForce_frame (s : State) (k c : Nat) :
    (State.doForce s k c).pending = s.pending ∧ (State.doForce s k c).freeCtr = s.freeCtr ∧
    (State.doForce s k c).gradeS = s.gradeS ∧ (State.doForce s k c).ft = s.ft ∧ (State.doForce s k c).cls = s.cls ∧
    (State.doForce s k c).layout = s.layout ∧ (State.doForce s k c).setup = s.setup ∧
    (State.doForce s k c).serial = s.serial ∧ (State.doForce s k c).bringing = s.bringing ∧
    (State.doForce s k c).lmap = s.lmap ∧ (State.doForce s k c).cores = s.cores ∧
    (State.doForce s k c).slices = s.slices ∧ (State.doForce s k c).bdies = s.bdies ∧
    (State.doForce s k c).ports = s.ports ∧ (State.doForce s k c).nodes = s.nodes ∧
    (State.doForce s k c).time = s.time ∧ (State.doForce s k c).chip = s.chip ∧ (State.doForce s k c).gov = s.gov ∧
    (State.doForce s k c).mmc = s.mmc ∧ (State.doForce s k c).gdbg = s.gdbg := by
  unfold State.doForce
  (repeat' split) <;> simp

@[simp] theorem State.writeBack_frame (s : State) (d : Nat) :
    (State.writeBack s d).pending = s.pending ∧ (State.writeBack s d).freeCtr = s.freeCtr ∧
    (State.writeBack s d).gradeS = s.gradeS ∧ (State.writeBack s d).ft = s.ft ∧ (State.writeBack s d).cls = s.cls ∧
    (State.writeBack s d).layout = s.layout ∧ (State.writeBack s d).setup = s.setup ∧
    (State.writeBack s d).serial = s.serial ∧ (State.writeBack s d).bringing = s.bringing ∧
    (State.writeBack s d).lmap = s.lmap ∧ (State.writeBack s d).cores = s.cores ∧
    (State.writeBack s d).hbmcs = s.hbmcs ∧ (State.writeBack s d).bdies = s.bdies ∧
    (State.writeBack s d).ports = s.ports ∧ (State.writeBack s d).nodes = s.nodes ∧
    (State.writeBack s d).time = s.time ∧ (State.writeBack s d).out = s.out ∧ (State.writeBack s d).hif = s.hif ∧
    (State.writeBack s d).chip = s.chip ∧ (State.writeBack s d).gov = s.gov ∧ (State.writeBack s d).mmc = s.mmc := by
  unfold State.writeBack
  (repeat' split) <;> simp

@[simp] theorem State.emptyCaches_frame (s : State) (p : Nat) :
    (State.emptyCaches s p).pending = s.pending ∧ (State.emptyCaches s p).freeCtr = s.freeCtr ∧
    (State.emptyCaches s p).gradeS = s.gradeS ∧ (State.emptyCaches s p).ft = s.ft ∧
    (State.emptyCaches s p).cls = s.cls ∧ (State.emptyCaches s p).layout = s.layout ∧
    (State.emptyCaches s p).setup = s.setup ∧ (State.emptyCaches s p).serial = s.serial ∧
    (State.emptyCaches s p).bringing = s.bringing ∧ (State.emptyCaches s p).lmap = s.lmap ∧
    (State.emptyCaches s p).cores = s.cores ∧ (State.emptyCaches s p).hbmcs = s.hbmcs ∧
    (State.emptyCaches s p).bdies = s.bdies ∧ (State.emptyCaches s p).ports = s.ports ∧
    (State.emptyCaches s p).nodes = s.nodes ∧ (State.emptyCaches s p).time = s.time ∧
    (State.emptyCaches s p).out = s.out ∧ (State.emptyCaches s p).hif = s.hif ∧ (State.emptyCaches s p).chip = s.chip ∧
    (State.emptyCaches s p).gov = s.gov ∧ (State.emptyCaches s p).mmc = s.mmc := by
  unfold State.emptyCaches
  (repeat' split) <;> simp

@[simp] theorem State.dropChannel_frame (s : State) (p k c : Nat) :
    (State.dropChannel s p k c).pending = s.pending ∧ (State.dropChannel s p k c).freeCtr = s.freeCtr ∧
    (State.dropChannel s p k c).gradeS = s.gradeS ∧ (State.dropChannel s p k c).ft = s.ft ∧
    (State.dropChannel s p k c).cls = s.cls ∧ (State.dropChannel s p k c).layout = s.layout ∧
    (State.dropChannel s p k c).setup = s.setup ∧ (State.dropChannel s p k c).serial = s.serial ∧
    (State.dropChannel s p k c).bringing = s.bringing ∧ (State.dropChannel s p k c).lmap = s.lmap ∧
    (State.dropChannel s p k c).cores = s.cores ∧ (State.dropChannel s p k c).bdies = s.bdies ∧
    (State.dropChannel s p k c).ports = s.ports ∧ (State.dropChannel s p k c).nodes = s.nodes ∧
    (State.dropChannel s p k c).time = s.time ∧ (State.dropChannel s p k c).out = s.out ∧
    (State.dropChannel s p k c).hif = s.hif ∧ (State.dropChannel s p k c).chip = s.chip ∧
    (State.dropChannel s p k c).gov = s.gov ∧ (State.dropChannel s p k c).mmc = s.mmc := by
  unfold State.dropChannel
  (repeat' split) <;> simp

@[simp] theorem State.doChannelRetire_frame (s : State) (p : Nat) :
    (State.doChannelRetire s p).pending = s.pending ∧ (State.doChannelRetire s p).freeCtr = s.freeCtr ∧
    (State.doChannelRetire s p).gradeS = s.gradeS ∧ (State.doChannelRetire s p).ft = s.ft ∧
    (State.doChannelRetire s p).cls = s.cls ∧ (State.doChannelRetire s p).layout = s.layout ∧
    (State.doChannelRetire s p).setup = s.setup ∧ (State.doChannelRetire s p).serial = s.serial ∧
    (State.doChannelRetire s p).bringing = s.bringing ∧ (State.doChannelRetire s p).lmap = s.lmap ∧
    (State.doChannelRetire s p).cores = s.cores ∧ (State.doChannelRetire s p).bdies = s.bdies ∧
    (State.doChannelRetire s p).ports = s.ports ∧ (State.doChannelRetire s p).nodes = s.nodes ∧
    (State.doChannelRetire s p).time = s.time ∧ (State.doChannelRetire s p).gov = s.gov ∧
    (State.doChannelRetire s p).mmc = s.mmc := by
  unfold State.doChannelRetire
  (repeat' split) <;> simp

@[simp] theorem State.retireMarked_frame (s : State) (d : Nat) :
    (State.retireMarked s d).pending = s.pending ∧ (State.retireMarked s d).freeCtr = s.freeCtr ∧
    (State.retireMarked s d).gradeS = s.gradeS ∧ (State.retireMarked s d).ft = s.ft ∧
    (State.retireMarked s d).cls = s.cls ∧ (State.retireMarked s d).layout = s.layout ∧
    (State.retireMarked s d).setup = s.setup ∧ (State.retireMarked s d).serial = s.serial ∧
    (State.retireMarked s d).bringing = s.bringing ∧ (State.retireMarked s d).lmap = s.lmap ∧
    (State.retireMarked s d).parts = s.parts ∧ (State.retireMarked s d).cores = s.cores ∧
    (State.retireMarked s d).hbmcs = s.hbmcs ∧ (State.retireMarked s d).bdies = s.bdies ∧
    (State.retireMarked s d).ports = s.ports ∧ (State.retireMarked s d).nodes = s.nodes ∧
    (State.retireMarked s d).time = s.time ∧ (State.retireMarked s d).gov = s.gov ∧
    (State.retireMarked s d).mmc = s.mmc ∧ (State.retireMarked s d).gdbg = s.gdbg := by
  unfold State.retireMarked
  (repeat' split) <;> simp

@[simp] theorem State.switchSlabs_frame (s : State) (d mode : Nat) :
    (State.switchSlabs s d mode).pending = s.pending ∧ (State.switchSlabs s d mode).freeCtr = s.freeCtr ∧
    (State.switchSlabs s d mode).gradeS = s.gradeS ∧ (State.switchSlabs s d mode).ft = s.ft ∧
    (State.switchSlabs s d mode).cls = s.cls ∧ (State.switchSlabs s d mode).layout = s.layout ∧
    (State.switchSlabs s d mode).setup = s.setup ∧ (State.switchSlabs s d mode).serial = s.serial ∧
    (State.switchSlabs s d mode).bringing = s.bringing ∧ (State.switchSlabs s d mode).lmap = s.lmap ∧
    (State.switchSlabs s d mode).parts = s.parts ∧ (State.switchSlabs s d mode).cores = s.cores ∧
    (State.switchSlabs s d mode).hbmcs = s.hbmcs ∧ (State.switchSlabs s d mode).bdies = s.bdies ∧
    (State.switchSlabs s d mode).ports = s.ports ∧ (State.switchSlabs s d mode).nodes = s.nodes ∧
    (State.switchSlabs s d mode).time = s.time ∧ (State.switchSlabs s d mode).out = s.out ∧
    (State.switchSlabs s d mode).hif = s.hif ∧ (State.switchSlabs s d mode).chip = s.chip ∧
    (State.switchSlabs s d mode).gov = s.gov ∧ (State.switchSlabs s d mode).mmc = s.mmc ∧
    (State.switchSlabs s d mode).gdbg = s.gdbg := by
  unfold State.switchSlabs
  (repeat' split) <;> simp

@[simp] theorem State.doApply_frame (s : State) (d : Nat) :
    (State.doApply s d).pending = s.pending ∧ (State.doApply s d).freeCtr = s.freeCtr ∧
    (State.doApply s d).gradeS = s.gradeS ∧ (State.doApply s d).ft = s.ft ∧ (State.doApply s d).cls = s.cls ∧
    (State.doApply s d).layout = s.layout ∧ (State.doApply s d).setup = s.setup ∧
    (State.doApply s d).serial = s.serial ∧ (State.doApply s d).bringing = s.bringing ∧
    (State.doApply s d).lmap = s.lmap ∧ (State.doApply s d).cores = s.cores ∧ (State.doApply s d).hbmcs = s.hbmcs ∧
    (State.doApply s d).bdies = s.bdies ∧ (State.doApply s d).ports = s.ports ∧ (State.doApply s d).nodes = s.nodes ∧
    (State.doApply s d).time = s.time ∧ (State.doApply s d).out = s.out ∧ (State.doApply s d).hif = s.hif ∧
    (State.doApply s d).chip = s.chip ∧ (State.doApply s d).gov = s.gov ∧ (State.doApply s d).mmc = s.mmc := by
  unfold State.doApply
  (repeat' split) <;> simp

@[simp] theorem State.doFlush_frame (s : State) (d : Nat) :
    (State.doFlush s d).pending = s.pending ∧ (State.doFlush s d).freeCtr = s.freeCtr ∧
    (State.doFlush s d).gradeS = s.gradeS ∧ (State.doFlush s d).ft = s.ft ∧ (State.doFlush s d).cls = s.cls ∧
    (State.doFlush s d).layout = s.layout ∧ (State.doFlush s d).setup = s.setup ∧
    (State.doFlush s d).serial = s.serial ∧ (State.doFlush s d).bringing = s.bringing ∧
    (State.doFlush s d).lmap = s.lmap ∧ (State.doFlush s d).cores = s.cores ∧ (State.doFlush s d).hbmcs = s.hbmcs ∧
    (State.doFlush s d).bdies = s.bdies ∧ (State.doFlush s d).ports = s.ports ∧ (State.doFlush s d).nodes = s.nodes ∧
    (State.doFlush s d).time = s.time ∧ (State.doFlush s d).out = s.out ∧ (State.doFlush s d).hif = s.hif ∧
    (State.doFlush s d).chip = s.chip ∧ (State.doFlush s d).gov = s.gov ∧ (State.doFlush s d).mmc = s.mmc := by
  unfold State.doFlush
  (repeat' split) <;> simp

@[simp] theorem State.doNimBusyEnd_frame (s : State) (d : Nat) :
    (State.doNimBusyEnd s d).pending = s.pending ∧ (State.doNimBusyEnd s d).gradeS = s.gradeS ∧
    (State.doNimBusyEnd s d).ft = s.ft ∧ (State.doNimBusyEnd s d).cls = s.cls ∧
    (State.doNimBusyEnd s d).layout = s.layout ∧ (State.doNimBusyEnd s d).setup = s.setup ∧
    (State.doNimBusyEnd s d).serial = s.serial ∧ (State.doNimBusyEnd s d).bringing = s.bringing ∧
    (State.doNimBusyEnd s d).lmap = s.lmap ∧ (State.doNimBusyEnd s d).bdies = s.bdies ∧
    (State.doNimBusyEnd s d).ports = s.ports ∧ (State.doNimBusyEnd s d).nodes = s.nodes ∧
    (State.doNimBusyEnd s d).time = s.time ∧ (State.doNimBusyEnd s d).gov = s.gov ∧
    (State.doNimBusyEnd s d).mmc = s.mmc := by
  unfold State.doNimBusyEnd
  simp
  (repeat' split) <;> simp

@[simp] theorem State.resetSlice_frame (s : State) (d : Nat) :
    (State.resetSlice s d).pending = s.pending ∧ (State.resetSlice s d).freeCtr = s.freeCtr ∧
    (State.resetSlice s d).gradeS = s.gradeS ∧ (State.resetSlice s d).ft = s.ft ∧ (State.resetSlice s d).cls = s.cls ∧
    (State.resetSlice s d).layout = s.layout ∧ (State.resetSlice s d).setup = s.setup ∧
    (State.resetSlice s d).serial = s.serial ∧ (State.resetSlice s d).bringing = s.bringing ∧
    (State.resetSlice s d).lmap = s.lmap ∧ (State.resetSlice s d).cores = s.cores ∧
    (State.resetSlice s d).hbmcs = s.hbmcs ∧ (State.resetSlice s d).bdies = s.bdies ∧
    (State.resetSlice s d).ports = s.ports ∧ (State.resetSlice s d).nodes = s.nodes ∧
    (State.resetSlice s d).time = s.time ∧ (State.resetSlice s d).gov = s.gov ∧
    (State.resetSlice s d).mmc = s.mmc := by
  unfold State.resetSlice
  (repeat' split) <;> simp

end Sys2Proof.Machine
end

