-- ==== Sys2Proof/Laws/FrameReset.lean ====
section
/-! SUPPORT. Frames: which fields of the state each operation of Machine/Power, Reset leaves as they are. -/

namespace Sys2Proof.Machine

@[simp] theorem State.modGov_frame (s : State) (f : Gov → Gov) :
    (State.modGov s f).pending = s.pending ∧ (State.modGov s f).freeCtr = s.freeCtr ∧
    (State.modGov s f).gradeS = s.gradeS ∧ (State.modGov s f).ft = s.ft ∧ (State.modGov s f).cls = s.cls ∧
    (State.modGov s f).layout = s.layout ∧ (State.modGov s f).setup = s.setup ∧ (State.modGov s f).serial = s.serial ∧
    (State.modGov s f).bringing = s.bringing ∧ (State.modGov s f).lmap = s.lmap ∧ (State.modGov s f).parts = s.parts ∧
    (State.modGov s f).cores = s.cores ∧ (State.modGov s f).slices = s.slices ∧ (State.modGov s f).hbmcs = s.hbmcs ∧
    (State.modGov s f).bdies = s.bdies ∧ (State.modGov s f).ports = s.ports ∧ (State.modGov s f).nodes = s.nodes ∧
    (State.modGov s f).time = s.time ∧ (State.modGov s f).out = s.out ∧ (State.modGov s f).hif = s.hif ∧
    (State.modGov s f).chip = s.chip ∧ (State.modGov s f).mmc = s.mmc ∧ (State.modGov s f).gdbg = s.gdbg := by
  unfold State.modGov
  (repeat' split) <;> simp

@[simp] theorem State.modChip_frame (s : State) (f : Chip → Chip) :
    (State.modChip s f).pending = s.pending ∧ (State.modChip s f).freeCtr = s.freeCtr ∧
    (State.modChip s f).gradeS = s.gradeS ∧ (State.modChip s f).ft = s.ft ∧ (State.modChip s f).cls = s.cls ∧
    (State.modChip s f).layout = s.layout ∧ (State.modChip s f).setup = s.setup ∧
    (State.modChip s f).serial = s.serial ∧ (State.modChip s f).bringing = s.bringing ∧
    (State.modChip s f).lmap = s.lmap ∧ (State.modChip s f).parts = s.parts ∧ (State.modChip s f).cores = s.cores ∧
    (State.modChip s f).slices = s.slices ∧ (State.modChip s f).hbmcs = s.hbmcs ∧ (State.modChip s f).bdies = s.bdies ∧
    (State.modChip s f).ports = s.ports ∧ (State.modChip s f).nodes = s.nodes ∧ (State.modChip s f).time = s.time ∧
    (State.modChip s f).out = s.out ∧ (State.modChip s f).hif = s.hif ∧ (State.modChip s f).gov = s.gov ∧
    (State.modChip s f).mmc = s.mmc ∧ (State.modChip s f).gdbg = s.gdbg := by
  unfold State.modChip
  (repeat' split) <;> simp

@[simp] theorem State.readClass_frame (s : State) (rec : Option Bytes) :
    (State.readClass s rec).pending = s.pending ∧ (State.readClass s rec).freeCtr = s.freeCtr ∧
    (State.readClass s rec).gradeS = s.gradeS ∧ (State.readClass s rec).ft = s.ft ∧
    (State.readClass s rec).layout = s.layout ∧ (State.readClass s rec).setup = s.setup ∧
    (State.readClass s rec).serial = s.serial ∧ (State.readClass s rec).bringing = s.bringing ∧
    (State.readClass s rec).lmap = s.lmap ∧ (State.readClass s rec).parts = s.parts ∧
    (State.readClass s rec).cores = s.cores ∧ (State.readClass s rec).slices = s.slices ∧
    (State.readClass s rec).hbmcs = s.hbmcs ∧ (State.readClass s rec).bdies = s.bdies ∧
    (State.readClass s rec).ports = s.ports ∧ (State.readClass s rec).nodes = s.nodes ∧
    (State.readClass s rec).time = s.time ∧ (State.readClass s rec).chip = s.chip ∧
    (State.readClass s rec).mmc = s.mmc ∧ (State.readClass s rec).gdbg = s.gdbg := by
  unfold State.readClass
  (repeat' split) <;> simp

@[simp] theorem State.doLower_frame (s : State) (code : Nat) :
    (State.doLower s code).pending = s.pending ∧ (State.doLower s code).freeCtr = s.freeCtr ∧
    (State.doLower s code).gradeS = s.gradeS ∧ (State.doLower s code).ft = s.ft ∧
    (State.doLower s code).layout = s.layout ∧ (State.doLower s code).setup = s.setup ∧
    (State.doLower s code).serial = s.serial ∧ (State.doLower s code).bringing = s.bringing ∧
    (State.doLower s code).lmap = s.lmap ∧ (State.doLower s code).parts = s.parts ∧
    (State.doLower s code).cores = s.cores ∧ (State.doLower s code).slices = s.slices ∧
    (State.doLower s code).hbmcs = s.hbmcs ∧ (State.doLower s code).bdies = s.bdies ∧
    (State.doLower s code).ports = s.ports ∧ (State.doLower s code).nodes = s.nodes ∧
    (State.doLower s code).time = s.time ∧ (State.doLower s code).out = s.out ∧ (State.doLower s code).hif = s.hif ∧
    (State.doLower s code).chip = s.chip ∧ (State.doLower s code).mmc = s.mmc ∧
    (State.doLower s code).gdbg = s.gdbg := by
  unfold State.doLower
  (repeat' split) <;> simp

@[simp] theorem State.doStrapChange_frame (s : State) (straps : Nat) :
    (State.doStrapChange s straps).pending = s.pending ∧ (State.doStrapChange s straps).freeCtr = s.freeCtr ∧
    (State.doStrapChange s straps).gradeS = s.gradeS ∧ (State.doStrapChange s straps).ft = s.ft ∧
    (State.doStrapChange s straps).cls = s.cls ∧ (State.doStrapChange s straps).layout = s.layout ∧
    (State.doStrapChange s straps).setup = s.setup ∧ (State.doStrapChange s straps).serial = s.serial ∧
    (State.doStrapChange s straps).bringing = s.bringing ∧ (State.doStrapChange s straps).lmap = s.lmap ∧
    (State.doStrapChange s straps).parts = s.parts ∧ (State.doStrapChange s straps).cores = s.cores ∧
    (State.doStrapChange s straps).slices = s.slices ∧ (State.doStrapChange s straps).hbmcs = s.hbmcs ∧
    (State.doStrapChange s straps).bdies = s.bdies ∧ (State.doStrapChange s straps).ports = s.ports ∧
    (State.doStrapChange s straps).nodes = s.nodes ∧ (State.doStrapChange s straps).time = s.time ∧
    (State.doStrapChange s straps).gov = s.gov ∧ (State.doStrapChange s straps).mmc = s.mmc ∧
    (State.doStrapChange s straps).gdbg = s.gdbg := by
  unfold State.doStrapChange
  (repeat' split) <;> simp

@[simp] theorem State.shutDown_frame (s : State) (cause group : Nat) (temp : Int) :
    (State.shutDown s cause group temp).pending = s.pending ∧ (State.shutDown s cause group temp).freeCtr = s.freeCtr ∧
    (State.shutDown s cause group temp).gradeS = s.gradeS ∧ (State.shutDown s cause group temp).ft = s.ft ∧
    (State.shutDown s cause group temp).cls = s.cls ∧ (State.shutDown s cause group temp).layout = s.layout ∧
    (State.shutDown s cause group temp).setup = s.setup ∧ (State.shutDown s cause group temp).serial = s.serial ∧
    (State.shutDown s cause group temp).bringing = s.bringing ∧ (State.shutDown s cause group temp).lmap = s.lmap ∧
    (State.shutDown s cause group temp).parts = s.parts ∧ (State.shutDown s cause group temp).cores = s.cores ∧
    (State.shutDown s cause group temp).slices = s.slices ∧ (State.shutDown s cause group temp).hbmcs = s.hbmcs ∧
    (State.shutDown s cause group temp).bdies = s.bdies ∧ (State.shutDown s cause group temp).ports = s.ports ∧
    (State.shutDown s cause group temp).nodes = s.nodes ∧ (State.shutDown s cause group temp).time = s.time ∧
    (State.shutDown s cause group temp).out = s.out ∧ (State.shutDown s cause group temp).hif = s.hif ∧
    (State.shutDown s cause group temp).gov = s.gov ∧ (State.shutDown s cause group temp).mmc = s.mmc ∧
    (State.shutDown s cause group temp).gdbg = s.gdbg := by
  unfold State.shutDown
  (repeat' split) <;> simp

@[simp] theorem State.doRegulatorFault_frame (s : State) :
    (State.doRegulatorFault s).pending = s.pending ∧ (State.doRegulatorFault s).freeCtr = s.freeCtr ∧
    (State.doRegulatorFault s).gradeS = s.gradeS ∧ (State.doRegulatorFault s).ft = s.ft ∧
    (State.doRegulatorFault s).cls = s.cls ∧ (State.doRegulatorFault s).layout = s.layout ∧
    (State.doRegulatorFault s).setup = s.setup ∧ (State.doRegulatorFault s).serial = s.serial ∧
    (State.doRegulatorFault s).bringing = s.bringing ∧ (State.doRegulatorFault s).lmap = s.lmap ∧
    (State.doRegulatorFault s).parts = s.parts ∧ (State.doRegulatorFault s).cores = s.cores ∧
    (State.doRegulatorFault s).slices = s.slices ∧ (State.doRegulatorFault s).hbmcs = s.hbmcs ∧
    (State.doRegulatorFault s).bdies = s.bdies ∧ (State.doRegulatorFault s).ports = s.ports ∧
    (State.doRegulatorFault s).nodes = s.nodes ∧ (State.doRegulatorFault s).time = s.time ∧
    (State.doRegulatorFault s).out = s.out ∧ (State.doRegulatorFault s).hif = s.hif ∧
    (State.doRegulatorFault s).gov = s.gov ∧ (State.doRegulatorFault s).mmc = s.mmc ∧
    (State.doRegulatorFault s).gdbg = s.gdbg := by
  unfold State.doRegulatorFault
  (repeat' split) <;> simp

@[simp] theorem State.doInputExcursion_frame (s : State) (dv us : Nat) :
    (State.doInputExcursion s dv us).pending = s.pending ∧ (State.doInputExcursion s dv us).freeCtr = s.freeCtr ∧
    (State.doInputExcursion s dv us).gradeS = s.gradeS ∧ (State.doInputExcursion s dv us).ft = s.ft ∧
    (State.doInputExcursion s dv us).cls = s.cls ∧ (State.doInputExcursion s dv us).layout = s.layout ∧
    (State.doInputExcursion s dv us).setup = s.setup ∧ (State.doInputExcursion s dv us).serial = s.serial ∧
    (State.doInputExcursion s dv us).bringing = s.bringing ∧ (State.doInputExcursion s dv us).lmap = s.lmap ∧
    (State.doInputExcursion s dv us).parts = s.parts ∧ (State.doInputExcursion s dv us).cores = s.cores ∧
    (State.doInputExcursion s dv us).slices = s.slices ∧ (State.doInputExcursion s dv us).hbmcs = s.hbmcs ∧
    (State.doInputExcursion s dv us).bdies = s.bdies ∧ (State.doInputExcursion s dv us).ports = s.ports ∧
    (State.doInputExcursion s dv us).nodes = s.nodes ∧ (State.doInputExcursion s dv us).time = s.time ∧
    (State.doInputExcursion s dv us).mmc = s.mmc ∧ (State.doInputExcursion s dv us).gdbg = s.gdbg := by
  unfold State.doInputExcursion
  (repeat' split) <;> simp

@[simp] theorem State.limiterActs_frame (s : State) (f : Gov → Gov) :
    (State.limiterActs s f).pending = s.pending ∧ (State.limiterActs s f).freeCtr = s.freeCtr ∧
    (State.limiterActs s f).gradeS = s.gradeS ∧ (State.limiterActs s f).ft = s.ft ∧
    (State.limiterActs s f).cls = s.cls ∧ (State.limiterActs s f).layout = s.layout ∧
    (State.limiterActs s f).setup = s.setup ∧ (State.limiterActs s f).serial = s.serial ∧
    (State.limiterActs s f).bringing = s.bringing ∧ (State.limiterActs s f).lmap = s.lmap ∧
    (State.limiterActs s f).parts = s.parts ∧ (State.limiterActs s f).cores = s.cores ∧
    (State.limiterActs s f).slices = s.slices ∧ (State.limiterActs s f).hbmcs = s.hbmcs ∧
    (State.limiterActs s f).bdies = s.bdies ∧ (State.limiterActs s f).ports = s.ports ∧
    (State.limiterActs s f).nodes = s.nodes ∧ (State.limiterActs s f).time = s.time ∧
    (State.limiterActs s f).chip = s.chip ∧ (State.limiterActs s f).mmc = s.mmc ∧
    (State.limiterActs s f).gdbg = s.gdbg := by
  unfold State.limiterActs
  (repeat' split) <;> simp

@[simp] theorem State.limitDown_frame (s : State) :
    (State.limitDown s).pending = s.pending ∧ (State.limitDown s).freeCtr = s.freeCtr ∧
    (State.limitDown s).gradeS = s.gradeS ∧ (State.limitDown s).ft = s.ft ∧ (State.limitDown s).cls = s.cls ∧
    (State.limitDown s).layout = s.layout ∧ (State.limitDown s).setup = s.setup ∧
    (State.limitDown s).serial = s.serial ∧ (State.limitDown s).bringing = s.bringing ∧
    (State.limitDown s).lmap = s.lmap ∧ (State.limitDown s).parts = s.parts ∧ (State.limitDown s).cores = s.cores ∧
    (State.limitDown s).slices = s.slices ∧ (State.limitDown s).hbmcs = s.hbmcs ∧ (State.limitDown s).bdies = s.bdies ∧
    (State.limitDown s).ports = s.ports ∧ (State.limitDown s).nodes = s.nodes ∧ (State.limitDown s).time = s.time ∧
    (State.limitDown s).chip = s.chip ∧ (State.limitDown s).mmc = s.mmc ∧ (State.limitDown s).gdbg = s.gdbg := by
  unfold State.limitDown
  (repeat' split) <;> simp

@[simp] theorem State.limitUp_frame (s : State) :
    (State.limitUp s).pending = s.pending ∧ (State.limitUp s).freeCtr = s.freeCtr ∧
    (State.limitUp s).gradeS = s.gradeS ∧ (State.limitUp s).ft = s.ft ∧ (State.limitUp s).cls = s.cls ∧
    (State.limitUp s).layout = s.layout ∧ (State.limitUp s).setup = s.setup ∧ (State.limitUp s).serial = s.serial ∧
    (State.limitUp s).bringing = s.bringing ∧ (State.limitUp s).lmap = s.lmap ∧ (State.limitUp s).parts = s.parts ∧
    (State.limitUp s).cores = s.cores ∧ (State.limitUp s).slices = s.slices ∧ (State.limitUp s).hbmcs = s.hbmcs ∧
    (State.limitUp s).bdies = s.bdies ∧ (State.limitUp s).ports = s.ports ∧ (State.limitUp s).nodes = s.nodes ∧
    (State.limitUp s).time = s.time ∧ (State.limitUp s).out = s.out ∧ (State.limitUp s).hif = s.hif ∧
    (State.limitUp s).chip = s.chip ∧ (State.limitUp s).mmc = s.mmc ∧ (State.limitUp s).gdbg = s.gdbg := by
  unfold State.limitUp
  (repeat' split) <;> simp

@[simp] theorem State.doPowerSample_frame (s : State) (watt dv : Nat) :
    (State.doPowerSample s watt dv).pending = s.pending ∧ (State.doPowerSample s watt dv).freeCtr = s.freeCtr ∧
    (State.doPowerSample s watt dv).gradeS = s.gradeS ∧ (State.doPowerSample s watt dv).ft = s.ft ∧
    (State.doPowerSample s watt dv).cls = s.cls ∧ (State.doPowerSample s watt dv).layout = s.layout ∧
    (State.doPowerSample s watt dv).setup = s.setup ∧ (State.doPowerSample s watt dv).serial = s.serial ∧
    (State.doPowerSample s watt dv).bringing = s.bringing ∧ (State.doPowerSample s watt dv).lmap = s.lmap ∧
    (State.doPowerSample s watt dv).parts = s.parts ∧ (State.doPowerSample s watt dv).cores = s.cores ∧
    (State.doPowerSample s watt dv).slices = s.slices ∧ (State.doPowerSample s watt dv).hbmcs = s.hbmcs ∧
    (State.doPowerSample s watt dv).bdies = s.bdies ∧ (State.doPowerSample s watt dv).ports = s.ports ∧
    (State.doPowerSample s watt dv).nodes = s.nodes ∧ (State.doPowerSample s watt dv).time = s.time ∧
    (State.doPowerSample s watt dv).chip = s.chip ∧ (State.doPowerSample s watt dv).mmc = s.mmc ∧
    (State.doPowerSample s watt dv).gdbg = s.gdbg := by
  unfold State.doPowerSample
  (repeat' split) <;> simp

@[simp] theorem State.doPowerLimitStep_frame (s : State) :
    (State.doPowerLimitStep s).pending = s.pending ∧ (State.doPowerLimitStep s).freeCtr = s.freeCtr ∧
    (State.doPowerLimitStep s).gradeS = s.gradeS ∧ (State.doPowerLimitStep s).ft = s.ft ∧
    (State.doPowerLimitStep s).cls = s.cls ∧ (State.doPowerLimitStep s).layout = s.layout ∧
    (State.doPowerLimitStep s).setup = s.setup ∧ (State.doPowerLimitStep s).serial = s.serial ∧
    (State.doPowerLimitStep s).bringing = s.bringing ∧ (State.doPowerLimitStep s).lmap = s.lmap ∧
    (State.doPowerLimitStep s).parts = s.parts ∧ (State.doPowerLimitStep s).cores = s.cores ∧
    (State.doPowerLimitStep s).slices = s.slices ∧ (State.doPowerLimitStep s).hbmcs = s.hbmcs ∧
    (State.doPowerLimitStep s).bdies = s.bdies ∧ (State.doPowerLimitStep s).ports = s.ports ∧
    (State.doPowerLimitStep s).nodes = s.nodes ∧ (State.doPowerLimitStep s).time = s.time ∧
    (State.doPowerLimitStep s).chip = s.chip ∧ (State.doPowerLimitStep s).mmc = s.mmc ∧
    (State.doPowerLimitStep s).gdbg = s.gdbg := by
  unfold State.doPowerLimitStep
  (repeat' split) <;> simp

@[simp] theorem State.doIssueLevel_frame (s : State) (c : Nat) :
    (State.doIssueLevel s c).pending = s.pending ∧ (State.doIssueLevel s c).freeCtr = s.freeCtr ∧
    (State.doIssueLevel s c).gradeS = s.gradeS ∧ (State.doIssueLevel s c).ft = s.ft ∧
    (State.doIssueLevel s c).cls = s.cls ∧ (State.doIssueLevel s c).layout = s.layout ∧
    (State.doIssueLevel s c).setup = s.setup ∧ (State.doIssueLevel s c).serial = s.serial ∧
    (State.doIssueLevel s c).bringing = s.bringing ∧ (State.doIssueLevel s c).lmap = s.lmap ∧
    (State.doIssueLevel s c).parts = s.parts ∧ (State.doIssueLevel s c).cores = s.cores ∧
    (State.doIssueLevel s c).slices = s.slices ∧ (State.doIssueLevel s c).hbmcs = s.hbmcs ∧
    (State.doIssueLevel s c).bdies = s.bdies ∧ (State.doIssueLevel s c).ports = s.ports ∧
    (State.doIssueLevel s c).nodes = s.nodes ∧ (State.doIssueLevel s c).time = s.time ∧
    (State.doIssueLevel s c).out = s.out ∧ (State.doIssueLevel s c).hif = s.hif ∧
    (State.doIssueLevel s c).chip = s.chip ∧ (State.doIssueLevel s c).mmc = s.mmc ∧
    (State.doIssueLevel s c).gdbg = s.gdbg := by
  unfold State.doIssueLevel
  (repeat' split) <;> simp

@[simp] theorem State.doRampAdmission_frame (s : State) (d : Nat) :
    (State.doRampAdmission s d).pending = s.pending ∧ (State.doRampAdmission s d).freeCtr = s.freeCtr ∧
    (State.doRampAdmission s d).gradeS = s.gradeS ∧ (State.doRampAdmission s d).ft = s.ft ∧
    (State.doRampAdmission s d).cls = s.cls ∧ (State.doRampAdmission s d).layout = s.layout ∧
    (State.doRampAdmission s d).setup = s.setup ∧ (State.doRampAdmission s d).serial = s.serial ∧
    (State.doRampAdmission s d).bringing = s.bringing ∧ (State.doRampAdmission s d).lmap = s.lmap ∧
    (State.doRampAdmission s d).parts = s.parts ∧ (State.doRampAdmission s d).cores = s.cores ∧
    (State.doRampAdmission s d).slices = s.slices ∧ (State.doRampAdmission s d).hbmcs = s.hbmcs ∧
    (State.doRampAdmission s d).bdies = s.bdies ∧ (State.doRampAdmission s d).ports = s.ports ∧
    (State.doRampAdmission s d).nodes = s.nodes ∧ (State.doRampAdmission s d).time = s.time ∧
    (State.doRampAdmission s d).out = s.out ∧ (State.doRampAdmission s d).hif = s.hif ∧
    (State.doRampAdmission s d).chip = s.chip ∧ (State.doRampAdmission s d).mmc = s.mmc ∧
    (State.doRampAdmission s d).gdbg = s.gdbg := by
  unfold State.doRampAdmission
  (repeat' split) <;> simp

@[simp] theorem State.doDroop_frame (s : State) (d : Nat) :
    (State.doDroop s d).pending = s.pending ∧ (State.doDroop s d).freeCtr = s.freeCtr ∧
    (State.doDroop s d).gradeS = s.gradeS ∧ (State.doDroop s d).ft = s.ft ∧ (State.doDroop s d).cls = s.cls ∧
    (State.doDroop s d).layout = s.layout ∧ (State.doDroop s d).setup = s.setup ∧
    (State.doDroop s d).serial = s.serial ∧ (State.doDroop s d).bringing = s.bringing ∧
    (State.doDroop s d).lmap = s.lmap ∧ (State.doDroop s d).parts = s.parts ∧ (State.doDroop s d).cores = s.cores ∧
    (State.doDroop s d).slices = s.slices ∧ (State.doDroop s d).hbmcs = s.hbmcs ∧ (State.doDroop s d).bdies = s.bdies ∧
    (State.doDroop s d).ports = s.ports ∧ (State.doDroop s d).nodes = s.nodes ∧ (State.doDroop s d).time = s.time ∧
    (State.doDroop s d).chip = s.chip ∧ (State.doDroop s d).mmc = s.mmc ∧ (State.doDroop s d).gdbg = s.gdbg := by
  unfold State.doDroop
  (repeat' split) <;> simp

@[simp] theorem State.doDroopResume_frame (s : State) (d : Nat) :
    (State.doDroopResume s d).pending = s.pending ∧ (State.doDroopResume s d).freeCtr = s.freeCtr ∧
    (State.doDroopResume s d).gradeS = s.gradeS ∧ (State.doDroopResume s d).ft = s.ft ∧
    (State.doDroopResume s d).cls = s.cls ∧ (State.doDroopResume s d).layout = s.layout ∧
    (State.doDroopResume s d).setup = s.setup ∧ (State.doDroopResume s d).serial = s.serial ∧
    (State.doDroopResume s d).bringing = s.bringing ∧ (State.doDroopResume s d).lmap = s.lmap ∧
    (State.doDroopResume s d).parts = s.parts ∧ (State.doDroopResume s d).cores = s.cores ∧
    (State.doDroopResume s d).slices = s.slices ∧ (State.doDroopResume s d).hbmcs = s.hbmcs ∧
    (State.doDroopResume s d).bdies = s.bdies ∧ (State.doDroopResume s d).ports = s.ports ∧
    (State.doDroopResume s d).nodes = s.nodes ∧ (State.doDroopResume s d).time = s.time ∧
    (State.doDroopResume s d).out = s.out ∧ (State.doDroopResume s d).hif = s.hif ∧
    (State.doDroopResume s d).chip = s.chip ∧ (State.doDroopResume s d).mmc = s.mmc ∧
    (State.doDroopResume s d).gdbg = s.gdbg := by
  unfold State.doDroopResume
  (repeat' split) <;> simp

@[simp] theorem State.heedDie_frame (s : State) (d : Nat) :
    (State.heedDie s d).pending = s.pending ∧ (State.heedDie s d).freeCtr = s.freeCtr ∧
    (State.heedDie s d).gradeS = s.gradeS ∧ (State.heedDie s d).ft = s.ft ∧ (State.heedDie s d).cls = s.cls ∧
    (State.heedDie s d).layout = s.layout ∧ (State.heedDie s d).setup = s.setup ∧
    (State.heedDie s d).serial = s.serial ∧ (State.heedDie s d).bringing = s.bringing ∧
    (State.heedDie s d).lmap = s.lmap ∧ (State.heedDie s d).parts = s.parts ∧ (State.heedDie s d).cores = s.cores ∧
    (State.heedDie s d).slices = s.slices ∧ (State.heedDie s d).hbmcs = s.hbmcs ∧ (State.heedDie s d).bdies = s.bdies ∧
    (State.heedDie s d).ports = s.ports ∧ (State.heedDie s d).nodes = s.nodes ∧ (State.heedDie s d).time = s.time ∧
    (State.heedDie s d).chip = s.chip ∧ (State.heedDie s d).mmc = s.mmc ∧ (State.heedDie s d).gdbg = s.gdbg := by
  unfold State.heedDie
  (repeat' split) <;> simp

@[simp] theorem State.doThermalSample_frame (s : State) (rs : List Reading) :
    (State.doThermalSample s rs).pending = s.pending ∧ (State.doThermalSample s rs).freeCtr = s.freeCtr ∧
    (State.doThermalSample s rs).gradeS = s.gradeS ∧ (State.doThermalSample s rs).ft = s.ft ∧
    (State.doThermalSample s rs).cls = s.cls ∧ (State.doThermalSample s rs).layout = s.layout ∧
    (State.doThermalSample s rs).setup = s.setup ∧ (State.doThermalSample s rs).serial = s.serial ∧
    (State.doThermalSample s rs).bringing = s.bringing ∧ (State.doThermalSample s rs).lmap = s.lmap ∧
    (State.doThermalSample s rs).parts = s.parts ∧ (State.doThermalSample s rs).cores = s.cores ∧
    (State.doThermalSample s rs).slices = s.slices ∧ (State.doThermalSample s rs).hbmcs = s.hbmcs ∧
    (State.doThermalSample s rs).bdies = s.bdies ∧ (State.doThermalSample s rs).ports = s.ports ∧
    (State.doThermalSample s rs).nodes = s.nodes ∧ (State.doThermalSample s rs).time = s.time ∧
    (State.doThermalSample s rs).mmc = s.mmc ∧ (State.doThermalSample s rs).gdbg = s.gdbg := by
  unfold State.doThermalSample
  (repeat' split) <;> simp

@[simp] theorem State.doThrottleStep_frame (s : State) (d : Nat) :
    (State.doThrottleStep s d).pending = s.pending ∧ (State.doThrottleStep s d).freeCtr = s.freeCtr ∧
    (State.doThrottleStep s d).gradeS = s.gradeS ∧ (State.doThrottleStep s d).ft = s.ft ∧
    (State.doThrottleStep s d).cls = s.cls ∧ (State.doThrottleStep s d).layout = s.layout ∧
    (State.doThrottleStep s d).setup = s.setup ∧ (State.doThrottleStep s d).serial = s.serial ∧
    (State.doThrottleStep s d).bringing = s.bringing ∧ (State.doThrottleStep s d).lmap = s.lmap ∧
    (State.doThrottleStep s d).parts = s.parts ∧ (State.doThrottleStep s d).cores = s.cores ∧
    (State.doThrottleStep s d).slices = s.slices ∧ (State.doThrottleStep s d).hbmcs = s.hbmcs ∧
    (State.doThrottleStep s d).bdies = s.bdies ∧ (State.doThrottleStep s d).ports = s.ports ∧
    (State.doThrottleStep s d).nodes = s.nodes ∧ (State.doThrottleStep s d).time = s.time ∧
    (State.doThrottleStep s d).out = s.out ∧ (State.doThrottleStep s d).hif = s.hif ∧
    (State.doThrottleStep s d).chip = s.chip ∧ (State.doThrottleStep s d).mmc = s.mmc ∧
    (State.doThrottleStep s d).gdbg = s.gdbg := by
  unfold State.doThrottleStep
  (repeat' split) <;> simp

@[simp] theorem State.doThrottleRestore_frame (s : State) (d : Nat) :
    (State.doThrottleRestore s d).pending = s.pending ∧ (State.doThrottleRestore s d).freeCtr = s.freeCtr ∧
    (State.doThrottleRestore s d).gradeS = s.gradeS ∧ (State.doThrottleRestore s d).ft = s.ft ∧
    (State.doThrottleRestore s d).cls = s.cls ∧ (State.doThrottleRestore s d).layout = s.layout ∧
    (State.doThrottleRestore s d).setup = s.setup ∧ (State.doThrottleRestore s d).serial = s.serial ∧
    (State.doThrottleRestore s d).bringing = s.bringing ∧ (State.doThrottleRestore s d).lmap = s.lmap ∧
    (State.doThrottleRestore s d).parts = s.parts ∧ (State.doThrottleRestore s d).cores = s.cores ∧
    (State.doThrottleRestore s d).slices = s.slices ∧ (State.doThrottleRestore s d).hbmcs = s.hbmcs ∧
    (State.doThrottleRestore s d).bdies = s.bdies ∧ (State.doThrottleRestore s d).ports = s.ports ∧
    (State.doThrottleRestore s d).nodes = s.nodes ∧ (State.doThrottleRestore s d).time = s.time ∧
    (State.doThrottleRestore s d).out = s.out ∧ (State.doThrottleRestore s d).hif = s.hif ∧
    (State.doThrottleRestore s d).chip = s.chip ∧ (State.doThrottleRestore s d).mmc = s.mmc ∧
    (State.doThrottleRestore s d).gdbg = s.gdbg := by
  unfold State.doThrottleRestore
  (repeat' split) <;> simp

@[simp] theorem State.doVoltageRaised_frame (s : State) (d : Nat) :
    (State.doVoltageRaised s d).pending = s.pending ∧ (State.doVoltageRaised s d).freeCtr = s.freeCtr ∧
    (State.doVoltageRaised s d).gradeS = s.gradeS ∧ (State.doVoltageRaised s d).ft = s.ft ∧
    (State.doVoltageRaised s d).cls = s.cls ∧ (State.doVoltageRaised s d).layout = s.layout ∧
    (State.doVoltageRaised s d).setup = s.setup ∧ (State.doVoltageRaised s d).serial = s.serial ∧
    (State.doVoltageRaised s d).bringing = s.bringing ∧ (State.doVoltageRaised s d).lmap = s.lmap ∧
    (State.doVoltageRaised s d).parts = s.parts ∧ (State.doVoltageRaised s d).cores = s.cores ∧
    (State.doVoltageRaised s d).slices = s.slices ∧ (State.doVoltageRaised s d).hbmcs = s.hbmcs ∧
    (State.doVoltageRaised s d).bdies = s.bdies ∧ (State.doVoltageRaised s d).ports = s.ports ∧
    (State.doVoltageRaised s d).nodes = s.nodes ∧ (State.doVoltageRaised s d).time = s.time ∧
    (State.doVoltageRaised s d).out = s.out ∧ (State.doVoltageRaised s d).hif = s.hif ∧
    (State.doVoltageRaised s d).chip = s.chip ∧ (State.doVoltageRaised s d).mmc = s.mmc ∧
    (State.doVoltageRaised s d).gdbg = s.gdbg := by
  unfold State.doVoltageRaised
  (repeat' split) <;> simp

@[simp] theorem State.doLockLoss_frame (s : State) :
    (State.doLockLoss s).pending = s.pending ∧ (State.doLockLoss s).freeCtr = s.freeCtr ∧
    (State.doLockLoss s).gradeS = s.gradeS ∧ (State.doLockLoss s).ft = s.ft ∧ (State.doLockLoss s).cls = s.cls ∧
    (State.doLockLoss s).layout = s.layout ∧ (State.doLockLoss s).setup = s.setup ∧
    (State.doLockLoss s).serial = s.serial ∧ (State.doLockLoss s).bringing = s.bringing ∧
    (State.doLockLoss s).lmap = s.lmap ∧ (State.doLockLoss s).parts = s.parts ∧ (State.doLockLoss s).cores = s.cores ∧
    (State.doLockLoss s).slices = s.slices ∧ (State.doLockLoss s).hbmcs = s.hbmcs ∧
    (State.doLockLoss s).bdies = s.bdies ∧ (State.doLockLoss s).ports = s.ports ∧
    (State.doLockLoss s).nodes = s.nodes ∧ (State.doLockLoss s).time = s.time ∧ (State.doLockLoss s).out = s.out ∧
    (State.doLockLoss s).hif = s.hif ∧ (State.doLockLoss s).gov = s.gov ∧ (State.doLockLoss s).mmc = s.mmc ∧
    (State.doLockLoss s).gdbg = s.gdbg := by
  unfold State.doLockLoss
  (repeat' split) <;> simp

@[simp] theorem State.doLockRegained_frame (s : State) :
    (State.doLockRegained s).pending = s.pending ∧ (State.doLockRegained s).freeCtr = s.freeCtr ∧
    (State.doLockRegained s).gradeS = s.gradeS ∧ (State.doLockRegained s).ft = s.ft ∧
    (State.doLockRegained s).cls = s.cls ∧ (State.doLockRegained s).layout = s.layout ∧
    (State.doLockRegained s).setup = s.setup ∧ (State.doLockRegained s).serial = s.serial ∧
    (State.doLockRegained s).bringing = s.bringing ∧ (State.doLockRegained s).lmap = s.lmap ∧
    (State.doLockRegained s).parts = s.parts ∧ (State.doLockRegained s).cores = s.cores ∧
    (State.doLockRegained s).slices = s.slices ∧ (State.doLockRegained s).hbmcs = s.hbmcs ∧
    (State.doLockRegained s).bdies = s.bdies ∧ (State.doLockRegained s).ports = s.ports ∧
    (State.doLockRegained s).nodes = s.nodes ∧ (State.doLockRegained s).time = s.time ∧
    (State.doLockRegained s).gov = s.gov ∧ (State.doLockRegained s).mmc = s.mmc ∧
    (State.doLockRegained s).gdbg = s.gdbg := by
  unfold State.doLockRegained
  (repeat' split) <;> simp

@[simp] theorem State.throttleTick_frame (s : State) :
    (State.throttleTick s).pending = s.pending ∧ (State.throttleTick s).freeCtr = s.freeCtr ∧
    (State.throttleTick s).gradeS = s.gradeS ∧ (State.throttleTick s).ft = s.ft ∧ (State.throttleTick s).cls = s.cls ∧
    (State.throttleTick s).layout = s.layout ∧ (State.throttleTick s).setup = s.setup ∧
    (State.throttleTick s).serial = s.serial ∧ (State.throttleTick s).bringing = s.bringing ∧
    (State.throttleTick s).lmap = s.lmap ∧ (State.throttleTick s).parts = s.parts ∧
    (State.throttleTick s).cores = s.cores ∧ (State.throttleTick s).slices = s.slices ∧
    (State.throttleTick s).hbmcs = s.hbmcs ∧ (State.throttleTick s).bdies = s.bdies ∧
    (State.throttleTick s).ports = s.ports ∧ (State.throttleTick s).nodes = s.nodes ∧
    (State.throttleTick s).time = s.time ∧ (State.throttleTick s).out = s.out ∧ (State.throttleTick s).hif = s.hif ∧
    (State.throttleTick s).chip = s.chip ∧ (State.throttleTick s).mmc = s.mmc ∧
    (State.throttleTick s).gdbg = s.gdbg := by
  unfold State.throttleTick
  (repeat' split) <;> simp

@[simp] theorem State.numberDies_frame (s : State) (ds : List Nat) :
    (State.numberDies s ds).pending = s.pending ∧ (State.numberDies s ds).freeCtr = s.freeCtr ∧
    (State.numberDies s ds).gradeS = s.gradeS ∧ (State.numberDies s ds).ft = s.ft ∧
    (State.numberDies s ds).cls = s.cls ∧ (State.numberDies s ds).layout = s.layout ∧
    (State.numberDies s ds).setup = s.setup ∧ (State.numberDies s ds).serial = s.serial ∧
    (State.numberDies s ds).bringing = s.bringing ∧ (State.numberDies s ds).parts = s.parts ∧
    (State.numberDies s ds).cores = s.cores ∧ (State.numberDies s ds).slices = s.slices ∧
    (State.numberDies s ds).hbmcs = s.hbmcs ∧ (State.numberDies s ds).bdies = s.bdies ∧
    (State.numberDies s ds).ports = s.ports ∧ (State.numberDies s ds).nodes = s.nodes ∧
    (State.numberDies s ds).time = s.time ∧ (State.numberDies s ds).out = s.out ∧ (State.numberDies s ds).hif = s.hif ∧
    (State.numberDies s ds).gov = s.gov ∧ (State.numberDies s ds).mmc = s.mmc ∧
    (State.numberDies s ds).gdbg = s.gdbg := by
  unfold State.numberDies
  (repeat' split) <;> simp

@[simp] theorem State.setDegraded_frame (s : State) (p : Nat) :
    (State.setDegraded s p).pending = s.pending ∧ (State.setDegraded s p).freeCtr = s.freeCtr ∧
    (State.setDegraded s p).gradeS = s.gradeS ∧ (State.setDegraded s p).ft = s.ft ∧
    (State.setDegraded s p).cls = s.cls ∧ (State.setDegraded s p).layout = s.layout ∧
    (State.setDegraded s p).setup = s.setup ∧ (State.setDegraded s p).serial = s.serial ∧
    (State.setDegraded s p).bringing = s.bringing ∧ (State.setDegraded s p).lmap = s.lmap ∧
    (State.setDegraded s p).cores = s.cores ∧ (State.setDegraded s p).slices = s.slices ∧
    (State.setDegraded s p).hbmcs = s.hbmcs ∧ (State.setDegraded s p).bdies = s.bdies ∧
    (State.setDegraded s p).ports = s.ports ∧ (State.setDegraded s p).nodes = s.nodes ∧
    (State.setDegraded s p).time = s.time ∧ (State.setDegraded s p).chip = s.chip ∧
    (State.setDegraded s p).gov = s.gov ∧ (State.setDegraded s p).mmc = s.mmc ∧
    (State.setDegraded s p).gdbg = s.gdbg := by
  unfold State.setDegraded
  (repeat' split) <;> simp

@[simp] theorem State.dropCore_frame (s : State) (c : Nat) :
    (State.dropCore s c).pending = s.pending ∧ (State.dropCore s c).freeCtr = s.freeCtr ∧
    (State.dropCore s c).gradeS = s.gradeS ∧ (State.dropCore s c).ft = s.ft ∧ (State.dropCore s c).cls = s.cls ∧
    (State.dropCore s c).layout = s.layout ∧ (State.dropCore s c).setup = s.setup ∧
    (State.dropCore s c).serial = s.serial ∧ (State.dropCore s c).bringing = s.bringing ∧
    (State.dropCore s c).lmap = s.lmap ∧ (State.dropCore s c).parts = s.parts ∧ (State.dropCore s c).cores = s.cores ∧
    (State.dropCore s c).slices = s.slices ∧ (State.dropCore s c).hbmcs = s.hbmcs ∧
    (State.dropCore s c).bdies = s.bdies ∧ (State.dropCore s c).ports = s.ports ∧
    (State.dropCore s c).nodes = s.nodes ∧ (State.dropCore s c).time = s.time ∧ (State.dropCore s c).gov = s.gov ∧
    (State.dropCore s c).mmc = s.mmc ∧ (State.dropCore s c).gdbg = s.gdbg := by
  unfold State.dropCore
  (repeat' split) <;> simp

@[simp] theorem State.failCore_frame (s : State) (c cause : Nat) :
    (State.failCore s c cause).pending = s.pending ∧ (State.failCore s c cause).freeCtr = s.freeCtr ∧
    (State.failCore s c cause).gradeS = s.gradeS ∧ (State.failCore s c cause).ft = s.ft ∧
    (State.failCore s c cause).cls = s.cls ∧ (State.failCore s c cause).layout = s.layout ∧
    (State.failCore s c cause).setup = s.setup ∧ (State.failCore s c cause).serial = s.serial ∧
    (State.failCore s c cause).bringing = s.bringing ∧ (State.failCore s c cause).lmap = s.lmap ∧
    (State.failCore s c cause).parts = s.parts ∧ (State.failCore s c cause).cores = s.cores ∧
    (State.failCore s c cause).slices = s.slices ∧ (State.failCore s c cause).hbmcs = s.hbmcs ∧
    (State.failCore s c cause).bdies = s.bdies ∧ (State.failCore s c cause).ports = s.ports ∧
    (State.failCore s c cause).nodes = s.nodes ∧ (State.failCore s c cause).time = s.time ∧
    (State.failCore s c cause).gov = s.gov ∧ (State.failCore s c cause).mmc = s.mmc ∧
    (State.failCore s c cause).gdbg = s.gdbg := by
  unfold State.failCore
  (repeat' split) <;> simp

@[simp] theorem State.modCores_frame (s : State) (p : Nat) (f : Core → Core) :
    (State.modCores s p f).pending = s.pending ∧ (State.modCores s p f).freeCtr = s.freeCtr ∧
    (State.modCores s p f).gradeS = s.gradeS ∧ (State.modCores s p f).ft = s.ft ∧ (State.modCores s p f).cls = s.cls ∧
    (State.modCores s p f).layout = s.layout ∧ (State.modCores s p f).setup = s.setup ∧
    (State.modCores s p f).serial = s.serial ∧ (State.modCores s p f).bringing = s.bringing ∧
    (State.modCores s p f).lmap = s.lmap ∧ (State.modCores s p f).parts = s.parts ∧
    (State.modCores s p f).slices = s.slices ∧ (State.modCores s p f).hbmcs = s.hbmcs ∧
    (State.modCores s p f).bdies = s.bdies ∧ (State.modCores s p f).ports = s.ports ∧
    (State.modCores s p f).nodes = s.nodes ∧ (State.modCores s p f).time = s.time ∧
    (State.modCores s p f).out = s.out ∧ (State.modCores s p f).hif = s.hif ∧ (State.modCores s p f).chip = s.chip ∧
    (State.modCores s p f).gov = s.gov ∧ (State.modCores s p f).mmc = s.mmc ∧
    (State.modCores s p f).gdbg = s.gdbg := by
  unfold State.modCores
  (repeat' split) <;> simp

@[simp] theorem State.beginHold_frame (s : State) (p : Nat) :
    (State.beginHold s p).pending = s.pending ∧ (State.beginHold s p).freeCtr = s.freeCtr ∧
    (State.beginHold s p).gradeS = s.gradeS ∧ (State.beginHold s p).ft = s.ft ∧ (State.beginHold s p).cls = s.cls ∧
    (State.beginHold s p).layout = s.layout ∧ (State.beginHold s p).setup = s.setup ∧
    (State.beginHold s p).serial = s.serial ∧ (State.beginHold s p).bringing = s.bringing ∧
    (State.beginHold s p).lmap = s.lmap ∧ (State.beginHold s p).slices = s.slices ∧
    (State.beginHold s p).hbmcs = s.hbmcs ∧ (State.beginHold s p).bdies = s.bdies ∧
    (State.beginHold s p).ports = s.ports ∧ (State.beginHold s p).nodes = s.nodes ∧
    (State.beginHold s p).time = s.time ∧ (State.beginHold s p).out = s.out ∧ (State.beginHold s p).chip = s.chip ∧
    (State.beginHold s p).gov = s.gov ∧ (State.beginHold s p).mmc = s.mmc ∧ (State.beginHold s p).gdbg = s.gdbg := by
  unfold State.beginHold
  (repeat' split) <;> simp

@[simp] theorem State.holdIfDue_frame (s : State) (p : Nat) :
    (State.holdIfDue s p).pending = s.pending ∧ (State.holdIfDue s p).freeCtr = s.freeCtr ∧
    (State.holdIfDue s p).gradeS = s.gradeS ∧ (State.holdIfDue s p).ft = s.ft ∧ (State.holdIfDue s p).cls = s.cls ∧
    (State.holdIfDue s p).layout = s.layout ∧ (State.holdIfDue s p).setup = s.setup ∧
    (State.holdIfDue s p).serial = s.serial ∧ (State.holdIfDue s p).bringing = s.bringing ∧
    (State.holdIfDue s p).lmap = s.lmap ∧ (State.holdIfDue s p).slices = s.slices ∧
    (State.holdIfDue s p).hbmcs = s.hbmcs ∧ (State.holdIfDue s p).bdies = s.bdies ∧
    (State.holdIfDue s p).ports = s.ports ∧ (State.holdIfDue s p).nodes = s.nodes ∧
    (State.holdIfDue s p).time = s.time ∧ (State.holdIfDue s p).out = s.out ∧ (State.holdIfDue s p).chip = s.chip ∧
    (State.holdIfDue s p).gov = s.gov ∧ (State.holdIfDue s p).mmc = s.mmc ∧ (State.holdIfDue s p).gdbg = s.gdbg := by
  unfold State.holdIfDue
  (repeat' split) <;> simp

@[simp] theorem State.retireCore_frame (s : State) (c cause : Nat) :
    (State.retireCore s c cause).pending = s.pending ∧ (State.retireCore s c cause).freeCtr = s.freeCtr ∧
    (State.retireCore s c cause).gradeS = s.gradeS ∧ (State.retireCore s c cause).ft = s.ft ∧
    (State.retireCore s c cause).cls = s.cls ∧ (State.retireCore s c cause).layout = s.layout ∧
    (State.retireCore s c cause).setup = s.setup ∧ (State.retireCore s c cause).serial = s.serial ∧
    (State.retireCore s c cause).bringing = s.bringing ∧ (State.retireCore s c cause).lmap = s.lmap ∧
    (State.retireCore s c cause).slices = s.slices ∧ (State.retireCore s c cause).hbmcs = s.hbmcs ∧
    (State.retireCore s c cause).bdies = s.bdies ∧ (State.retireCore s c cause).ports = s.ports ∧
    (State.retireCore s c cause).nodes = s.nodes ∧ (State.retireCore s c cause).time = s.time ∧
    (State.retireCore s c cause).gov = s.gov ∧ (State.retireCore s c cause).mmc = s.mmc ∧
    (State.retireCore s c cause).gdbg = s.gdbg := by
  unfold State.retireCore
  (repeat' split) <;> simp

@[simp] theorem State.thaw_frame (s : State) (p : Nat) :
    (State.thaw s p).pending = s.pending ∧ (State.thaw s p).freeCtr = s.freeCtr ∧ (State.thaw s p).gradeS = s.gradeS ∧
    (State.thaw s p).ft = s.ft ∧ (State.thaw s p).cls = s.cls ∧ (State.thaw s p).layout = s.layout ∧
    (State.thaw s p).setup = s.setup ∧ (State.thaw s p).serial = s.serial ∧ (State.thaw s p).bringing = s.bringing ∧
    (State.thaw s p).lmap = s.lmap ∧ (State.thaw s p).cores = s.cores ∧ (State.thaw s p).slices = s.slices ∧
    (State.thaw s p).hbmcs = s.hbmcs ∧ (State.thaw s p).bdies = s.bdies ∧ (State.thaw s p).ports = s.ports ∧
    (State.thaw s p).nodes = s.nodes ∧ (State.thaw s p).time = s.time ∧ (State.thaw s p).out = s.out ∧
    (State.thaw s p).hif = s.hif ∧ (State.thaw s p).chip = s.chip ∧ (State.thaw s p).gov = s.gov ∧
    (State.thaw s p).mmc = s.mmc ∧ (State.thaw s p).gdbg = s.gdbg := by
  unfold State.thaw
  (repeat' split) <;> simp

@[simp] theorem State.resetCores_frame (s : State) (p : Nat) :
    (State.resetCores s p).pending = s.pending ∧ (State.resetCores s p).freeCtr = s.freeCtr ∧
    (State.resetCores s p).gradeS = s.gradeS ∧ (State.resetCores s p).ft = s.ft ∧ (State.resetCores s p).cls = s.cls ∧
    (State.resetCores s p).layout = s.layout ∧ (State.resetCores s p).setup = s.setup ∧
    (State.resetCores s p).serial = s.serial ∧ (State.resetCores s p).bringing = s.bringing ∧
    (State.resetCores s p).lmap = s.lmap ∧ (State.resetCores s p).slices = s.slices ∧
    (State.resetCores s p).hbmcs = s.hbmcs ∧ (State.resetCores s p).bdies = s.bdies ∧
    (State.resetCores s p).ports = s.ports ∧ (State.resetCores s p).nodes = s.nodes ∧
    (State.resetCores s p).time = s.time ∧ (State.resetCores s p).out = s.out ∧ (State.resetCores s p).hif = s.hif ∧
    (State.resetCores s p).chip = s.chip ∧ (State.resetCores s p).gov = s.gov ∧ (State.resetCores s p).mmc = s.mmc ∧
    (State.resetCores s p).gdbg = s.gdbg := by
  unfold State.resetCores
  (repeat' split) <;> simp

@[simp] theorem State.resetBulk_frame (s : State) (p : Nat) :
    (State.resetBulk s p).pending = s.pending ∧ (State.resetBulk s p).freeCtr = s.freeCtr ∧
    (State.resetBulk s p).gradeS = s.gradeS ∧ (State.resetBulk s p).ft = s.ft ∧ (State.resetBulk s p).cls = s.cls ∧
    (State.resetBulk s p).layout = s.layout ∧ (State.resetBulk s p).setup = s.setup ∧
    (State.resetBulk s p).serial = s.serial ∧ (State.resetBulk s p).bringing = s.bringing ∧
    (State.resetBulk s p).lmap = s.lmap ∧ (State.resetBulk s p).parts = s.parts ∧
    (State.resetBulk s p).cores = s.cores ∧ (State.resetBulk s p).slices = s.slices ∧
    (State.resetBulk s p).hbmcs = s.hbmcs ∧ (State.resetBulk s p).ports = s.ports ∧
    (State.resetBulk s p).nodes = s.nodes ∧ (State.resetBulk s p).time = s.time ∧ (State.resetBulk s p).out = s.out ∧
    (State.resetBulk s p).hif = s.hif ∧ (State.resetBulk s p).chip = s.chip ∧ (State.resetBulk s p).gov = s.gov ∧
    (State.resetBulk s p).mmc = s.mmc ∧ (State.resetBulk s p).gdbg = s.gdbg := by
  unfold State.resetBulk
  (repeat' split) <;> simp

@[simp] theorem State.settleSlices_frame (s : State) (p : Nat) :
    (State.settleSlices s p).pending = s.pending ∧ (State.settleSlices s p).freeCtr = s.freeCtr ∧
    (State.settleSlices s p).gradeS = s.gradeS ∧ (State.settleSlices s p).ft = s.ft ∧
    (State.settleSlices s p).cls = s.cls ∧ (State.settleSlices s p).layout = s.layout ∧
    (State.settleSlices s p).setup = s.setup ∧ (State.settleSlices s p).serial = s.serial ∧
    (State.settleSlices s p).bringing = s.bringing ∧ (State.settleSlices s p).lmap = s.lmap ∧
    (State.settleSlices s p).parts = s.parts ∧ (State.settleSlices s p).cores = s.cores ∧
    (State.settleSlices s p).hbmcs = s.hbmcs ∧ (State.settleSlices s p).bdies = s.bdies ∧
    (State.settleSlices s p).ports = s.ports ∧ (State.settleSlices s p).nodes = s.nodes ∧
    (State.settleSlices s p).time = s.time ∧ (State.settleSlices s p).out = s.out ∧
    (State.settleSlices s p).hif = s.hif ∧ (State.settleSlices s p).chip = s.chip ∧
    (State.settleSlices s p).gov = s.gov ∧ (State.settleSlices s p).mmc = s.mmc ∧
    (State.settleSlices s p).gdbg = s.gdbg := by
  unfold State.settleSlices
  (repeat' split) <;> simp

@[simp] theorem State.resetSlices_frame (s : State) (p : Nat) :
    (State.resetSlices s p).pending = s.pending ∧ (State.resetSlices s p).freeCtr = s.freeCtr ∧
    (State.resetSlices s p).gradeS = s.gradeS ∧ (State.resetSlices s p).ft = s.ft ∧
    (State.resetSlices s p).cls = s.cls ∧ (State.resetSlices s p).layout = s.layout ∧
    (State.resetSlices s p).setup = s.setup ∧ (State.resetSlices s p).serial = s.serial ∧
    (State.resetSlices s p).bringing = s.bringing ∧ (State.resetSlices s p).lmap = s.lmap ∧
    (State.resetSlices s p).cores = s.cores ∧ (State.resetSlices s p).hbmcs = s.hbmcs ∧
    (State.resetSlices s p).bdies = s.bdies ∧ (State.resetSlices s p).ports = s.ports ∧
    (State.resetSlices s p).nodes = s.nodes ∧ (State.resetSlices s p).time = s.time ∧
    (State.resetSlices s p).gov = s.gov ∧ (State.resetSlices s p).mmc = s.mmc := by
  unfold State.resetSlices
  (repeat' split) <;> simp

@[simp] theorem State.startReset_frame (s : State) (p kind : Nat) :
    (State.startReset s p kind).pending = s.pending ∧ (State.startReset s p kind).freeCtr = s.freeCtr ∧
    (State.startReset s p kind).gradeS = s.gradeS ∧ (State.startReset s p kind).ft = s.ft ∧
    (State.startReset s p kind).cls = s.cls ∧ (State.startReset s p kind).layout = s.layout ∧
    (State.startReset s p kind).setup = s.setup ∧ (State.startReset s p kind).serial = s.serial ∧
    (State.startReset s p kind).bringing = s.bringing ∧ (State.startReset s p kind).lmap = s.lmap ∧
    (State.startReset s p kind).hbmcs = s.hbmcs ∧ (State.startReset s p kind).ports = s.ports ∧
    (State.startReset s p kind).time = s.time ∧ (State.startReset s p kind).gov = s.gov ∧
    (State.startReset s p kind).mmc = s.mmc := by
  unfold State.startReset
  (repeat' split) <;> simp

@[simp] theorem State.doComputeReset_frame (s : State) (p : Nat) :
    (State.doComputeReset s p).pending = s.pending ∧ (State.doComputeReset s p).freeCtr = s.freeCtr ∧
    (State.doComputeReset s p).gradeS = s.gradeS ∧ (State.doComputeReset s p).ft = s.ft ∧
    (State.doComputeReset s p).cls = s.cls ∧ (State.doComputeReset s p).layout = s.layout ∧
    (State.doComputeReset s p).setup = s.setup ∧ (State.doComputeReset s p).serial = s.serial ∧
    (State.doComputeReset s p).bringing = s.bringing ∧ (State.doComputeReset s p).lmap = s.lmap ∧
    (State.doComputeReset s p).hbmcs = s.hbmcs ∧ (State.doComputeReset s p).ports = s.ports ∧
    (State.doComputeReset s p).time = s.time ∧ (State.doComputeReset s p).gov = s.gov ∧
    (State.doComputeReset s p).mmc = s.mmc := by
  unfold State.doComputeReset
  (repeat' split) <;> simp

@[simp] theorem State.endHold_frame (s : State) (p : Nat) :
    (State.endHold s p).pending = s.pending ∧ (State.endHold s p).gradeS = s.gradeS ∧ (State.endHold s p).ft = s.ft ∧
    (State.endHold s p).cls = s.cls ∧ (State.endHold s p).layout = s.layout ∧ (State.endHold s p).setup = s.setup ∧
    (State.endHold s p).serial = s.serial ∧ (State.endHold s p).bringing = s.bringing ∧
    (State.endHold s p).lmap = s.lmap ∧ (State.endHold s p).ports = s.ports ∧ (State.endHold s p).time = s.time ∧
    (State.endHold s p).gov = s.gov ∧ (State.endHold s p).mmc = s.mmc := by
  unfold State.endHold
  (repeat' split) <;> simp

@[simp] theorem State.settleFailing_frame (s : State) (f : Failing) :
    (State.settleFailing s f).pending = s.pending ∧ (State.settleFailing s f).freeCtr = s.freeCtr ∧
    (State.settleFailing s f).gradeS = s.gradeS ∧ (State.settleFailing s f).ft = s.ft ∧
    (State.settleFailing s f).cls = s.cls ∧ (State.settleFailing s f).layout = s.layout ∧
    (State.settleFailing s f).setup = s.setup ∧ (State.settleFailing s f).serial = s.serial ∧
    (State.settleFailing s f).bringing = s.bringing ∧ (State.settleFailing s f).lmap = s.lmap ∧
    (State.settleFailing s f).parts = s.parts ∧ (State.settleFailing s f).cores = s.cores ∧
    (State.settleFailing s f).slices = s.slices ∧ (State.settleFailing s f).hbmcs = s.hbmcs ∧
    (State.settleFailing s f).bdies = s.bdies ∧ (State.settleFailing s f).ports = s.ports ∧
    (State.settleFailing s f).nodes = s.nodes ∧ (State.settleFailing s f).time = s.time ∧
    (State.settleFailing s f).out = s.out ∧ (State.settleFailing s f).hif = s.hif ∧
    (State.settleFailing s f).gov = s.gov ∧ (State.settleFailing s f).mmc = s.mmc ∧
    (State.settleFailing s f).gdbg = s.gdbg := by
  unfold State.settleFailing
  (repeat' split) <;> simp

@[simp] theorem State.doSubstitution_frame (s : State) (p : Nat) (passed : Bool) :
    (State.doSubstitution s p passed).pending = s.pending ∧ (State.doSubstitution s p passed).gradeS = s.gradeS ∧
    (State.doSubstitution s p passed).ft = s.ft ∧ (State.doSubstitution s p passed).cls = s.cls ∧
    (State.doSubstitution s p passed).layout = s.layout ∧ (State.doSubstitution s p passed).setup = s.setup ∧
    (State.doSubstitution s p passed).serial = s.serial ∧ (State.doSubstitution s p passed).bringing = s.bringing ∧
    (State.doSubstitution s p passed).ports = s.ports ∧ (State.doSubstitution s p passed).time = s.time ∧
    (State.doSubstitution s p passed).gov = s.gov ∧ (State.doSubstitution s p passed).mmc = s.mmc := by
  unfold State.doSubstitution
  (repeat' split) <;> simp

@[simp] theorem State.fuseFailing_frame (s : State) (p : Nat) :
    (State.fuseFailing s p).pending = s.pending ∧ (State.fuseFailing s p).freeCtr = s.freeCtr ∧
    (State.fuseFailing s p).gradeS = s.gradeS ∧ (State.fuseFailing s p).ft = s.ft ∧
    (State.fuseFailing s p).cls = s.cls ∧ (State.fuseFailing s p).layout = s.layout ∧
    (State.fuseFailing s p).setup = s.setup ∧ (State.fuseFailing s p).serial = s.serial ∧
    (State.fuseFailing s p).bringing = s.bringing ∧ (State.fuseFailing s p).lmap = s.lmap ∧
    (State.fuseFailing s p).parts = s.parts ∧ (State.fuseFailing s p).cores = s.cores ∧
    (State.fuseFailing s p).slices = s.slices ∧ (State.fuseFailing s p).hbmcs = s.hbmcs ∧
    (State.fuseFailing s p).bdies = s.bdies ∧ (State.fuseFailing s p).ports = s.ports ∧
    (State.fuseFailing s p).nodes = s.nodes ∧ (State.fuseFailing s p).time = s.time ∧
    (State.fuseFailing s p).gov = s.gov ∧ (State.fuseFailing s p).mmc = s.mmc ∧
    (State.fuseFailing s p).gdbg = s.gdbg := by
  unfold State.fuseFailing
  (repeat' split) <;> simp

@[simp] theorem State.doPartReset_frame (s : State) (p : Nat) :
    (State.doPartReset s p).pending = s.pending ∧ (State.doPartReset s p).freeCtr = s.freeCtr ∧
    (State.doPartReset s p).gradeS = s.gradeS ∧ (State.doPartReset s p).ft = s.ft ∧
    (State.doPartReset s p).cls = s.cls ∧ (State.doPartReset s p).layout = s.layout ∧
    (State.doPartReset s p).setup = s.setup ∧ (State.doPartReset s p).serial = s.serial ∧
    (State.doPartReset s p).bringing = s.bringing ∧ (State.doPartReset s p).lmap = s.lmap ∧
    (State.doPartReset s p).hbmcs = s.hbmcs ∧ (State.doPartReset s p).time = s.time ∧
    (State.doPartReset s p).gov = s.gov ∧ (State.doPartReset s p).mmc = s.mmc := by
  unfold State.doPartReset
  (repeat' split) <;> simp

@[simp] theorem State.raisePorts_frame (s : State) (p : Nat) :
    (State.raisePorts s p).pending = s.pending ∧ (State.raisePorts s p).freeCtr = s.freeCtr ∧
    (State.raisePorts s p).gradeS = s.gradeS ∧ (State.raisePorts s p).ft = s.ft ∧ (State.raisePorts s p).cls = s.cls ∧
    (State.raisePorts s p).layout = s.layout ∧ (State.raisePorts s p).setup = s.setup ∧
    (State.raisePorts s p).serial = s.serial ∧ (State.raisePorts s p).bringing = s.bringing ∧
    (State.raisePorts s p).lmap = s.lmap ∧ (State.raisePorts s p).parts = s.parts ∧
    (State.raisePorts s p).cores = s.cores ∧ (State.raisePorts s p).slices = s.slices ∧
    (State.raisePorts s p).hbmcs = s.hbmcs ∧ (State.raisePorts s p).bdies = s.bdies ∧
    (State.raisePorts s p).nodes = s.nodes ∧ (State.raisePorts s p).time = s.time ∧
    (State.raisePorts s p).hif = s.hif ∧ (State.raisePorts s p).chip = s.chip ∧ (State.raisePorts s p).gov = s.gov ∧
    (State.raisePorts s p).mmc = s.mmc := by
  unfold State.raisePorts
  (repeat' split) <;> simp

@[simp] theorem State.doComputeResetDone_frame (s : State) (p : Nat) :
    (State.doComputeResetDone s p).pending = s.pending ∧ (State.doComputeResetDone s p).gradeS = s.gradeS ∧
    (State.doComputeResetDone s p).ft = s.ft ∧ (State.doComputeResetDone s p).cls = s.cls ∧
    (State.doComputeResetDone s p).layout = s.layout ∧ (State.doComputeResetDone s p).setup = s.setup ∧
    (State.doComputeResetDone s p).serial = s.serial ∧ (State.doComputeResetDone s p).bringing = s.bringing ∧
    (State.doComputeResetDone s p).lmap = s.lmap ∧ (State.doComputeResetDone s p).bdies = s.bdies ∧
    (State.doComputeResetDone s p).nodes = s.nodes ∧ (State.doComputeResetDone s p).time = s.time ∧
    (State.doComputeResetDone s p).gov = s.gov ∧ (State.doComputeResetDone s p).mmc = s.mmc := by
  unfold State.doComputeResetDone
  (repeat' split) <;> simp

@[simp] theorem State.modMmc_frame (s : State) (f : Mmc → Mmc) :
    (State.modMmc s f).pending = s.pending ∧ (State.modMmc s f).freeCtr = s.freeCtr ∧
    (State.modMmc s f).gradeS = s.gradeS ∧ (State.modMmc s f).ft = s.ft ∧ (State.modMmc s f).cls = s.cls ∧
    (State.modMmc s f).layout = s.layout ∧ (State.modMmc s f).setup = s.setup ∧ (State.modMmc s f).serial = s.serial ∧
    (State.modMmc s f).bringing = s.bringing ∧ (State.modMmc s f).lmap = s.lmap ∧ (State.modMmc s f).parts = s.parts ∧
    (State.modMmc s f).cores = s.cores ∧ (State.modMmc s f).slices = s.slices ∧ (State.modMmc s f).hbmcs = s.hbmcs ∧
    (State.modMmc s f).bdies = s.bdies ∧ (State.modMmc s f).ports = s.ports ∧ (State.modMmc s f).nodes = s.nodes ∧
    (State.modMmc s f).time = s.time ∧ (State.modMmc s f).out = s.out ∧ (State.modMmc s f).hif = s.hif ∧
    (State.modMmc s f).chip = s.chip ∧ (State.modMmc s f).gov = s.gov ∧ (State.modMmc s f).gdbg = s.gdbg := by
  unfold State.modMmc
  (repeat' split) <;> simp

@[simp] theorem State.loadRevs_frame (s : State) :
    (State.loadRevs s).pending = s.pending ∧ (State.loadRevs s).freeCtr = s.freeCtr ∧
    (State.loadRevs s).gradeS = s.gradeS ∧ (State.loadRevs s).ft = s.ft ∧ (State.loadRevs s).cls = s.cls ∧
    (State.loadRevs s).layout = s.layout ∧ (State.loadRevs s).setup = s.setup ∧ (State.loadRevs s).serial = s.serial ∧
    (State.loadRevs s).bringing = s.bringing ∧ (State.loadRevs s).lmap = s.lmap ∧ (State.loadRevs s).parts = s.parts ∧
    (State.loadRevs s).cores = s.cores ∧ (State.loadRevs s).slices = s.slices ∧ (State.loadRevs s).hbmcs = s.hbmcs ∧
    (State.loadRevs s).bdies = s.bdies ∧ (State.loadRevs s).ports = s.ports ∧ (State.loadRevs s).nodes = s.nodes ∧
    (State.loadRevs s).time = s.time ∧ (State.loadRevs s).out = s.out ∧ (State.loadRevs s).chip = s.chip ∧
    (State.loadRevs s).gov = s.gov ∧ (State.loadRevs s).mmc = s.mmc ∧ (State.loadRevs s).gdbg = s.gdbg := by
  unfold State.loadRevs
  (repeat' split) <;> simp

@[simp] theorem State.activateCore_frame (s : State) (p : Nat) :
    (State.activateCore s p).pending = s.pending ∧ (State.activateCore s p).gradeS = s.gradeS ∧
    (State.activateCore s p).ft = s.ft ∧ (State.activateCore s p).cls = s.cls ∧
    (State.activateCore s p).layout = s.layout ∧ (State.activateCore s p).setup = s.setup ∧
    (State.activateCore s p).serial = s.serial ∧ (State.activateCore s p).bringing = s.bringing ∧
    (State.activateCore s p).lmap = s.lmap ∧ (State.activateCore s p).slices = s.slices ∧
    (State.activateCore s p).hbmcs = s.hbmcs ∧ (State.activateCore s p).bdies = s.bdies ∧
    (State.activateCore s p).ports = s.ports ∧ (State.activateCore s p).nodes = s.nodes ∧
    (State.activateCore s p).time = s.time ∧ (State.activateCore s p).chip = s.chip ∧
    (State.activateCore s p).gov = s.gov ∧ (State.activateCore s p).gdbg = s.gdbg := by
  unfold State.activateCore
  (repeat' split) <;> simp

@[simp] theorem State.doPartResetDone_frame (s : State) (p : Nat) (f : Findings) :
    (State.doPartResetDone s p f).pending = s.pending ∧ (State.doPartResetDone s p f).gradeS = s.gradeS ∧
    (State.doPartResetDone s p f).ft = s.ft ∧ (State.doPartResetDone s p f).cls = s.cls ∧
    (State.doPartResetDone s p f).layout = s.layout ∧ (State.doPartResetDone s p f).setup = s.setup ∧
    (State.doPartResetDone s p f).serial = s.serial ∧ (State.doPartResetDone s p f).bringing = s.bringing ∧
    (State.doPartResetDone s p f).bdies = s.bdies ∧ (State.doPartResetDone s p f).nodes = s.nodes ∧
    (State.doPartResetDone s p f).time = s.time ∧ (State.doPartResetDone s p f).gov = s.gov := by
  unfold State.doPartResetDone
  (repeat' split) <;> simp

@[simp] theorem State.fullReset_frame (s0 : State) (cause : Nat) (powerUp : Bool) :
    (State.fullReset s0 cause powerUp).pending = s0.pending ∧ (State.fullReset s0 cause powerUp).gradeS = s0.gradeS ∧
    (State.fullReset s0 cause powerUp).serial = s0.serial := by
  unfold State.fullReset
  (repeat' split) <;> simp

@[simp] theorem State.requestFullReset_frame (s : State) (cause : Nat) :
    (State.requestFullReset s cause).pending = s.pending ∧ (State.requestFullReset s cause).gradeS = s.gradeS ∧
    (State.requestFullReset s cause).serial = s.serial := by
  unfold State.requestFullReset
  (repeat' split) <;> simp

@[simp] theorem State.failBringup_frame (s : State) (step done : Nat) :
    (State.failBringup s step done).pending = s.pending ∧ (State.failBringup s step done).freeCtr = s.freeCtr ∧
    (State.failBringup s step done).gradeS = s.gradeS ∧ (State.failBringup s step done).ft = s.ft ∧
    (State.failBringup s step done).cls = s.cls ∧ (State.failBringup s step done).layout = s.layout ∧
    (State.failBringup s step done).setup = s.setup ∧ (State.failBringup s step done).serial = s.serial ∧
    (State.failBringup s step done).bringing = s.bringing ∧ (State.failBringup s step done).lmap = s.lmap ∧
    (State.failBringup s step done).parts = s.parts ∧ (State.failBringup s step done).cores = s.cores ∧
    (State.failBringup s step done).slices = s.slices ∧ (State.failBringup s step done).hbmcs = s.hbmcs ∧
    (State.failBringup s step done).bdies = s.bdies ∧ (State.failBringup s step done).ports = s.ports ∧
    (State.failBringup s step done).nodes = s.nodes ∧ (State.failBringup s step done).time = s.time ∧
    (State.failBringup s step done).gov = s.gov ∧ (State.failBringup s step done).mmc = s.mmc ∧
    (State.failBringup s step done).gdbg = s.gdbg := by
  unfold State.failBringup
  (repeat' split) <;> simp

@[simp] theorem State.turnDown_frame (s : State) (v : Option Nat) :
    (State.turnDown s v).pending = s.pending ∧ (State.turnDown s v).freeCtr = s.freeCtr ∧
    (State.turnDown s v).gradeS = s.gradeS ∧ (State.turnDown s v).ft = s.ft ∧ (State.turnDown s v).cls = s.cls ∧
    (State.turnDown s v).layout = s.layout ∧ (State.turnDown s v).setup = s.setup ∧
    (State.turnDown s v).serial = s.serial ∧ (State.turnDown s v).bringing = s.bringing ∧
    (State.turnDown s v).lmap = s.lmap ∧ (State.turnDown s v).parts = s.parts ∧ (State.turnDown s v).cores = s.cores ∧
    (State.turnDown s v).slices = s.slices ∧ (State.turnDown s v).hbmcs = s.hbmcs ∧
    (State.turnDown s v).bdies = s.bdies ∧ (State.turnDown s v).ports = s.ports ∧
    (State.turnDown s v).nodes = s.nodes ∧ (State.turnDown s v).time = s.time ∧ (State.turnDown s v).chip = s.chip ∧
    (State.turnDown s v).gov = s.gov ∧ (State.turnDown s v).mmc = s.mmc ∧ (State.turnDown s v).gdbg = s.gdbg := by
  unfold State.turnDown
  (repeat' split) <;> simp

@[simp] theorem State.bootMmc_frame (s : State) (a b : Bool) :
    (State.bootMmc s a b).1.pending = s.pending ∧ (State.bootMmc s a b).1.freeCtr = s.freeCtr ∧
    (State.bootMmc s a b).1.gradeS = s.gradeS ∧ (State.bootMmc s a b).1.ft = s.ft ∧
    (State.bootMmc s a b).1.cls = s.cls ∧ (State.bootMmc s a b).1.layout = s.layout ∧
    (State.bootMmc s a b).1.setup = s.setup ∧ (State.bootMmc s a b).1.serial = s.serial ∧
    (State.bootMmc s a b).1.bringing = s.bringing ∧ (State.bootMmc s a b).1.lmap = s.lmap ∧
    (State.bootMmc s a b).1.parts = s.parts ∧ (State.bootMmc s a b).1.cores = s.cores ∧
    (State.bootMmc s a b).1.slices = s.slices ∧ (State.bootMmc s a b).1.hbmcs = s.hbmcs ∧
    (State.bootMmc s a b).1.bdies = s.bdies ∧ (State.bootMmc s a b).1.ports = s.ports ∧
    (State.bootMmc s a b).1.nodes = s.nodes ∧ (State.bootMmc s a b).1.time = s.time ∧
    (State.bootMmc s a b).1.chip = s.chip ∧ (State.bootMmc s a b).1.gov = s.gov ∧
    (State.bootMmc s a b).1.gdbg = s.gdbg := by
  unfold State.bootMmc
  (repeat' split) <;> simp

@[simp] theorem State.retireChan_frame (s : State) (k c : Nat) :
    (State.retireChan s k c).pending = s.pending ∧ (State.retireChan s k c).freeCtr = s.freeCtr ∧
    (State.retireChan s k c).gradeS = s.gradeS ∧ (State.retireChan s k c).ft = s.ft ∧
    (State.retireChan s k c).cls = s.cls ∧ (State.retireChan s k c).layout = s.layout ∧
    (State.retireChan s k c).setup = s.setup ∧ (State.retireChan s k c).serial = s.serial ∧
    (State.retireChan s k c).bringing = s.bringing ∧ (State.retireChan s k c).lmap = s.lmap ∧
    (State.retireChan s k c).parts = s.parts ∧ (State.retireChan s k c).cores = s.cores ∧
    (State.retireChan s k c).slices = s.slices ∧ (State.retireChan s k c).bdies = s.bdies ∧
    (State.retireChan s k c).ports = s.ports ∧ (State.retireChan s k c).nodes = s.nodes ∧
    (State.retireChan s k c).time = s.time ∧ (State.retireChan s k c).out = s.out ∧
    (State.retireChan s k c).hif = s.hif ∧ (State.retireChan s k c).chip = s.chip ∧
    (State.retireChan s k c).gov = s.gov ∧ (State.retireChan s k c).mmc = s.mmc ∧
    (State.retireChan s k c).gdbg = s.gdbg := by
  unfold State.retireChan
  (repeat' split) <;> simp

@[simp] theorem State.failChan_frame (s : State) (cause : Nat) (e : Nat × Nat) :
    (State.failChan s cause e).pending = s.pending ∧ (State.failChan s cause e).freeCtr = s.freeCtr ∧
    (State.failChan s cause e).gradeS = s.gradeS ∧ (State.failChan s cause e).ft = s.ft ∧
    (State.failChan s cause e).cls = s.cls ∧ (State.failChan s cause e).layout = s.layout ∧
    (State.failChan s cause e).setup = s.setup ∧ (State.failChan s cause e).serial = s.serial ∧
    (State.failChan s cause e).bringing = s.bringing ∧ (State.failChan s cause e).lmap = s.lmap ∧
    (State.failChan s cause e).parts = s.parts ∧ (State.failChan s cause e).cores = s.cores ∧
    (State.failChan s cause e).slices = s.slices ∧ (State.failChan s cause e).bdies = s.bdies ∧
    (State.failChan s cause e).ports = s.ports ∧ (State.failChan s cause e).nodes = s.nodes ∧
    (State.failChan s cause e).time = s.time ∧ (State.failChan s cause e).gov = s.gov ∧
    (State.failChan s cause e).mmc = s.mmc ∧ (State.failChan s cause e).gdbg = s.gdbg := by
  unfold State.failChan
  (repeat' split) <;> simp

@[simp] theorem State.trainStacks_frame (s : State) (f : Findings) :
    (State.trainStacks s f).pending = s.pending ∧ (State.trainStacks s f).freeCtr = s.freeCtr ∧
    (State.trainStacks s f).gradeS = s.gradeS ∧ (State.trainStacks s f).ft = s.ft ∧
    (State.trainStacks s f).cls = s.cls ∧ (State.trainStacks s f).layout = s.layout ∧
    (State.trainStacks s f).setup = s.setup ∧ (State.trainStacks s f).serial = s.serial ∧
    (State.trainStacks s f).bringing = s.bringing ∧ (State.trainStacks s f).lmap = s.lmap ∧
    (State.trainStacks s f).parts = s.parts ∧ (State.trainStacks s f).cores = s.cores ∧
    (State.trainStacks s f).slices = s.slices ∧ (State.trainStacks s f).bdies = s.bdies ∧
    (State.trainStacks s f).ports = s.ports ∧ (State.trainStacks s f).nodes = s.nodes ∧
    (State.trainStacks s f).time = s.time ∧ (State.trainStacks s f).gov = s.gov ∧ (State.trainStacks s f).mmc = s.mmc ∧
    (State.trainStacks s f).gdbg = s.gdbg := by
  unfold State.trainStacks
  (repeat' split) <;> simp

@[simp] theorem State.testCores_frame (s : State) (f : Findings) :
    (State.testCores s f).pending = s.pending ∧ (State.testCores s f).freeCtr = s.freeCtr ∧
    (State.testCores s f).gradeS = s.gradeS ∧ (State.testCores s f).ft = s.ft ∧ (State.testCores s f).cls = s.cls ∧
    (State.testCores s f).layout = s.layout ∧ (State.testCores s f).setup = s.setup ∧
    (State.testCores s f).serial = s.serial ∧ (State.testCores s f).bringing = s.bringing ∧
    (State.testCores s f).lmap = s.lmap ∧ (State.testCores s f).parts = s.parts ∧
    (State.testCores s f).cores = s.cores ∧ (State.testCores s f).slices = s.slices ∧
    (State.testCores s f).hbmcs = s.hbmcs ∧ (State.testCores s f).bdies = s.bdies ∧
    (State.testCores s f).ports = s.ports ∧ (State.testCores s f).nodes = s.nodes ∧
    (State.testCores s f).time = s.time ∧ (State.testCores s f).gov = s.gov ∧ (State.testCores s f).mmc = s.mmc ∧
    (State.testCores s f).gdbg = s.gdbg := by
  unfold State.testCores
  (repeat' split) <;> simp

@[simp] theorem State.retireSlab_frame (s : State) (d t : Nat) :
    (State.retireSlab s d t).pending = s.pending ∧ (State.retireSlab s d t).freeCtr = s.freeCtr ∧
    (State.retireSlab s d t).gradeS = s.gradeS ∧ (State.retireSlab s d t).ft = s.ft ∧
    (State.retireSlab s d t).cls = s.cls ∧ (State.retireSlab s d t).layout = s.layout ∧
    (State.retireSlab s d t).setup = s.setup ∧ (State.retireSlab s d t).serial = s.serial ∧
    (State.retireSlab s d t).bringing = s.bringing ∧ (State.retireSlab s d t).lmap = s.lmap ∧
    (State.retireSlab s d t).parts = s.parts ∧ (State.retireSlab s d t).cores = s.cores ∧
    (State.retireSlab s d t).hbmcs = s.hbmcs ∧ (State.retireSlab s d t).bdies = s.bdies ∧
    (State.retireSlab s d t).ports = s.ports ∧ (State.retireSlab s d t).nodes = s.nodes ∧
    (State.retireSlab s d t).time = s.time ∧ (State.retireSlab s d t).gov = s.gov ∧
    (State.retireSlab s d t).mmc = s.mmc ∧ (State.retireSlab s d t).gdbg = s.gdbg := by
  unfold State.retireSlab
  (repeat' split) <;> simp

@[simp] theorem State.testSlabs_frame (s : State) (f : Findings) :
    (State.testSlabs s f).pending = s.pending ∧ (State.testSlabs s f).freeCtr = s.freeCtr ∧
    (State.testSlabs s f).gradeS = s.gradeS ∧ (State.testSlabs s f).ft = s.ft ∧ (State.testSlabs s f).cls = s.cls ∧
    (State.testSlabs s f).layout = s.layout ∧ (State.testSlabs s f).setup = s.setup ∧
    (State.testSlabs s f).serial = s.serial ∧ (State.testSlabs s f).bringing = s.bringing ∧
    (State.testSlabs s f).lmap = s.lmap ∧ (State.testSlabs s f).parts = s.parts ∧
    (State.testSlabs s f).cores = s.cores ∧ (State.testSlabs s f).hbmcs = s.hbmcs ∧
    (State.testSlabs s f).bdies = s.bdies ∧ (State.testSlabs s f).ports = s.ports ∧
    (State.testSlabs s f).nodes = s.nodes ∧ (State.testSlabs s f).time = s.time ∧ (State.testSlabs s f).gov = s.gov ∧
    (State.testSlabs s f).mmc = s.mmc ∧ (State.testSlabs s f).gdbg = s.gdbg := by
  unfold State.testSlabs
  (repeat' split) <;> simp

@[simp] theorem State.trainPorts_frame (s : State) (f : Findings) :
    (State.trainPorts s f).pending = s.pending ∧ (State.trainPorts s f).freeCtr = s.freeCtr ∧
    (State.trainPorts s f).gradeS = s.gradeS ∧ (State.trainPorts s f).ft = s.ft ∧ (State.trainPorts s f).cls = s.cls ∧
    (State.trainPorts s f).layout = s.layout ∧ (State.trainPorts s f).setup = s.setup ∧
    (State.trainPorts s f).serial = s.serial ∧ (State.trainPorts s f).bringing = s.bringing ∧
    (State.trainPorts s f).lmap = s.lmap ∧ (State.trainPorts s f).parts = s.parts ∧
    (State.trainPorts s f).slices = s.slices ∧ (State.trainPorts s f).hbmcs = s.hbmcs ∧
    (State.trainPorts s f).bdies = s.bdies ∧ (State.trainPorts s f).nodes = s.nodes ∧
    (State.trainPorts s f).time = s.time ∧ (State.trainPorts s f).chip = s.chip ∧ (State.trainPorts s f).gov = s.gov ∧
    (State.trainPorts s f).mmc = s.mmc ∧ (State.trainPorts s f).gdbg = s.gdbg := by
  unfold State.trainPorts
  (repeat' split) <;> simp

@[simp] theorem State.setCapacity_frame (s : State) (reserves : List Nat) :
    (State.setCapacity s reserves).pending = s.pending ∧ (State.setCapacity s reserves).freeCtr = s.freeCtr ∧
    (State.setCapacity s reserves).gradeS = s.gradeS ∧ (State.setCapacity s reserves).ft = s.ft ∧
    (State.setCapacity s reserves).cls = s.cls ∧ (State.setCapacity s reserves).layout = s.layout ∧
    (State.setCapacity s reserves).setup = s.setup ∧ (State.setCapacity s reserves).serial = s.serial ∧
    (State.setCapacity s reserves).bringing = s.bringing ∧ (State.setCapacity s reserves).lmap = s.lmap ∧
    (State.setCapacity s reserves).cores = s.cores ∧ (State.setCapacity s reserves).slices = s.slices ∧
    (State.setCapacity s reserves).hbmcs = s.hbmcs ∧ (State.setCapacity s reserves).bdies = s.bdies ∧
    (State.setCapacity s reserves).ports = s.ports ∧ (State.setCapacity s reserves).nodes = s.nodes ∧
    (State.setCapacity s reserves).time = s.time ∧ (State.setCapacity s reserves).chip = s.chip ∧
    (State.setCapacity s reserves).gov = s.gov ∧ (State.setCapacity s reserves).mmc = s.mmc ∧
    (State.setCapacity s reserves).gdbg = s.gdbg := by
  unfold State.setCapacity
  (repeat' split) <;> simp

@[simp] theorem State.assign_frame (s : State) (deep : Bool) :
    (State.assign s deep).pending = s.pending ∧ (State.assign s deep).freeCtr = s.freeCtr ∧
    (State.assign s deep).gradeS = s.gradeS ∧ (State.assign s deep).ft = s.ft ∧ (State.assign s deep).cls = s.cls ∧
    (State.assign s deep).layout = s.layout ∧ (State.assign s deep).setup = s.setup ∧
    (State.assign s deep).serial = s.serial ∧ (State.assign s deep).cores = s.cores ∧
    (State.assign s deep).slices = s.slices ∧ (State.assign s deep).hbmcs = s.hbmcs ∧
    (State.assign s deep).bdies = s.bdies ∧ (State.assign s deep).ports = s.ports ∧
    (State.assign s deep).nodes = s.nodes ∧ (State.assign s deep).time = s.time ∧ (State.assign s deep).gov = s.gov ∧
    (State.assign s deep).gdbg = s.gdbg := by
  unfold State.assign
  (repeat' split) <;> simp

@[simp] theorem State.bringSteps_frame (s : State) (f : Findings) (deep : Bool) :
    (State.bringSteps s f deep).pending = s.pending ∧ (State.bringSteps s f deep).freeCtr = s.freeCtr ∧
    (State.bringSteps s f deep).gradeS = s.gradeS ∧ (State.bringSteps s f deep).ft = s.ft ∧
    (State.bringSteps s f deep).layout = s.layout ∧ (State.bringSteps s f deep).setup = s.setup ∧
    (State.bringSteps s f deep).serial = s.serial ∧ (State.bringSteps s f deep).bdies = s.bdies ∧
    (State.bringSteps s f deep).nodes = s.nodes ∧ (State.bringSteps s f deep).time = s.time ∧
    (State.bringSteps s f deep).gdbg = s.gdbg := by
  unfold State.bringSteps
  (repeat' split) <;> simp

@[simp] theorem State.doBringup_frame (s : State) (f : Findings) :
    (State.doBringup s f).pending = s.pending ∧ (State.doBringup s f).freeCtr = s.freeCtr ∧
    (State.doBringup s f).gradeS = s.gradeS ∧ (State.doBringup s f).ft = s.ft ∧
    (State.doBringup s f).layout = s.layout ∧ (State.doBringup s f).setup = s.setup ∧
    (State.doBringup s f).serial = s.serial ∧ (State.doBringup s f).bdies = s.bdies ∧
    (State.doBringup s f).nodes = s.nodes ∧ (State.doBringup s f).time = s.time ∧
    (State.doBringup s f).gdbg = s.gdbg := by
  unfold State.doBringup
  (repeat' split) <;> simp

@[simp] theorem State.doPermanentFault_frame (s : State) (x : FaultEvent) :
    (State.doPermanentFault s x).pending = s.pending ∧ (State.doPermanentFault s x).freeCtr = s.freeCtr ∧
    (State.doPermanentFault s x).gradeS = s.gradeS ∧ (State.doPermanentFault s x).ft = s.ft ∧
    (State.doPermanentFault s x).cls = s.cls ∧ (State.doPermanentFault s x).layout = s.layout ∧
    (State.doPermanentFault s x).setup = s.setup ∧ (State.doPermanentFault s x).serial = s.serial ∧
    (State.doPermanentFault s x).bringing = s.bringing ∧ (State.doPermanentFault s x).lmap = s.lmap ∧
    (State.doPermanentFault s x).bdies = s.bdies ∧ (State.doPermanentFault s x).time = s.time ∧
    (State.doPermanentFault s x).gov = s.gov ∧ (State.doPermanentFault s x).mmc = s.mmc := by
  cases x <;> simp only [State.doPermanentFault] <;> (repeat' split) <;> simp

@[simp] theorem State.powerUp_frame (s : State) :
    (State.powerUp s).pending = s.pending ∧ (State.powerUp s).gradeS = s.gradeS ∧
    (State.powerUp s).serial = s.serial := by
  unfold State.powerUp
  (repeat' split) <;> simp

@[simp] theorem State.doPwrRise_frame (s : State) (afterOneSecond : Bool) :
    (State.doPwrRise s afterOneSecond).pending = s.pending ∧ (State.doPwrRise s afterOneSecond).gradeS = s.gradeS ∧
    (State.doPwrRise s afterOneSecond).serial = s.serial := by
  unfold State.doPwrRise
  (repeat' split) <;> simp

@[simp] theorem State.doLowTimeElapsed_frame (s : State) :
    (State.doLowTimeElapsed s).pending = s.pending ∧ (State.doLowTimeElapsed s).gradeS = s.gradeS ∧
    (State.doLowTimeElapsed s).serial = s.serial := by
  unfold State.doLowTimeElapsed
  (repeat' split) <;> simp

@[simp] theorem State.doPwrFall_frame (s : State) :
    (State.doPwrFall s).pending = s.pending ∧ (State.doPwrFall s).gradeS = s.gradeS ∧
    (State.doPwrFall s).serial = s.serial := by
  unfold State.doPwrFall
  (repeat' split) <;> simp

@[simp] theorem State.doPerstAssert_frame (s : State) :
    (State.doPerstAssert s).pending = s.pending ∧ (State.doPerstAssert s).gradeS = s.gradeS ∧
    (State.doPerstAssert s).serial = s.serial := by
  unfold State.doPerstAssert
  (repeat' split) <;> simp

@[simp] theorem State.doPerstDeassert_frame (s : State) :
    (State.doPerstDeassert s).pending = s.pending ∧ (State.doPerstDeassert s).freeCtr = s.freeCtr ∧
    (State.doPerstDeassert s).gradeS = s.gradeS ∧ (State.doPerstDeassert s).ft = s.ft ∧
    (State.doPerstDeassert s).cls = s.cls ∧ (State.doPerstDeassert s).layout = s.layout ∧
    (State.doPerstDeassert s).setup = s.setup ∧ (State.doPerstDeassert s).serial = s.serial ∧
    (State.doPerstDeassert s).bringing = s.bringing ∧ (State.doPerstDeassert s).lmap = s.lmap ∧
    (State.doPerstDeassert s).parts = s.parts ∧ (State.doPerstDeassert s).cores = s.cores ∧
    (State.doPerstDeassert s).slices = s.slices ∧ (State.doPerstDeassert s).hbmcs = s.hbmcs ∧
    (State.doPerstDeassert s).bdies = s.bdies ∧ (State.doPerstDeassert s).ports = s.ports ∧
    (State.doPerstDeassert s).nodes = s.nodes ∧ (State.doPerstDeassert s).time = s.time ∧
    (State.doPerstDeassert s).out = s.out ∧ (State.doPerstDeassert s).hif = s.hif ∧
    (State.doPerstDeassert s).gov = s.gov ∧ (State.doPerstDeassert s).mmc = s.mmc ∧
    (State.doPerstDeassert s).gdbg = s.gdbg := by
  unfold State.doPerstDeassert
  (repeat' split) <;> simp

end Sys2Proof.Machine
end

