-- ==== Sys2Proof/Laws/FrameHost.lean ====
section
/-! SUPPORT. Frames: which fields of the state each operation of Machine/Forecast, Setup, Rings leaves as they are. -/

namespace Sys2Proof.Machine

@[simp] theorem State.breach_frame (s : State) (p c : Nat) (tag opid engine index detail deadline : Nat) :
    (State.breach s p c tag opid engine index detail deadline).pending = s.pending ∧
    (State.breach s p c tag opid engine index detail deadline).gradeS = s.gradeS ∧
    (State.breach s p c tag opid engine index detail deadline).ft = s.ft ∧
    (State.breach s p c tag opid engine index detail deadline).cls = s.cls ∧
    (State.breach s p c tag opid engine index detail deadline).layout = s.layout ∧
    (State.breach s p c tag opid engine index detail deadline).setup = s.setup ∧
    (State.breach s p c tag opid engine index detail deadline).serial = s.serial ∧
    (State.breach s p c tag opid engine index detail deadline).bringing = s.bringing ∧
    (State.breach s p c tag opid engine index detail deadline).lmap = s.lmap ∧
    (State.breach s p c tag opid engine index detail deadline).bdies = s.bdies ∧
    (State.breach s p c tag opid engine index detail deadline).ports = s.ports ∧
    (State.breach s p c tag opid engine index detail deadline).nodes = s.nodes ∧
    (State.breach s p c tag opid engine index detail deadline).time = s.time ∧
    (State.breach s p c tag opid engine index detail deadline).gov = s.gov ∧
    (State.breach s p c tag opid engine index detail deadline).mmc = s.mmc := by
  unfold State.breach
  (repeat' split) <;> simp

@[simp] theorem State.doDeadlineMiss_frame (s : State) (ch : Chan) :
    (State.doDeadlineMiss s ch).pending = s.pending ∧ (State.doDeadlineMiss s ch).gradeS = s.gradeS ∧
    (State.doDeadlineMiss s ch).ft = s.ft ∧ (State.doDeadlineMiss s ch).cls = s.cls ∧
    (State.doDeadlineMiss s ch).layout = s.layout ∧ (State.doDeadlineMiss s ch).setup = s.setup ∧
    (State.doDeadlineMiss s ch).serial = s.serial ∧ (State.doDeadlineMiss s ch).bringing = s.bringing ∧
    (State.doDeadlineMiss s ch).lmap = s.lmap ∧ (State.doDeadlineMiss s ch).ports = s.ports ∧
    (State.doDeadlineMiss s ch).nodes = s.nodes ∧ (State.doDeadlineMiss s ch).time = s.time ∧
    (State.doDeadlineMiss s ch).gov = s.gov ∧ (State.doDeadlineMiss s ch).mmc = s.mmc := by
  unfold State.doDeadlineMiss
  (repeat' split) <;> simp

@[simp] theorem State.doStreamEndMiss_frame (s : State) (l : Nat) :
    (State.doStreamEndMiss s l).pending = s.pending ∧ (State.doStreamEndMiss s l).gradeS = s.gradeS ∧
    (State.doStreamEndMiss s l).ft = s.ft ∧ (State.doStreamEndMiss s l).cls = s.cls ∧
    (State.doStreamEndMiss s l).layout = s.layout ∧ (State.doStreamEndMiss s l).setup = s.setup ∧
    (State.doStreamEndMiss s l).serial = s.serial ∧ (State.doStreamEndMiss s l).bringing = s.bringing ∧
    (State.doStreamEndMiss s l).lmap = s.lmap ∧ (State.doStreamEndMiss s l).bdies = s.bdies ∧
    (State.doStreamEndMiss s l).ports = s.ports ∧ (State.doStreamEndMiss s l).nodes = s.nodes ∧
    (State.doStreamEndMiss s l).time = s.time ∧ (State.doStreamEndMiss s l).gov = s.gov ∧
    (State.doStreamEndMiss s l).mmc = s.mmc := by
  unfold State.doStreamEndMiss
  simp
  (repeat' split) <;> simp

@[simp] theorem State.formParts_frame (s : State) (n : Nat) (reserves : List Nat) :
    (State.formParts s n reserves).pending = s.pending ∧ (State.formParts s n reserves).freeCtr = s.freeCtr ∧
    (State.formParts s n reserves).gradeS = s.gradeS ∧ (State.formParts s n reserves).ft = s.ft ∧
    (State.formParts s n reserves).cls = s.cls ∧ (State.formParts s n reserves).setup = s.setup ∧
    (State.formParts s n reserves).serial = s.serial ∧ (State.formParts s n reserves).bringing = s.bringing ∧
    (State.formParts s n reserves).lmap = s.lmap ∧ (State.formParts s n reserves).cores = s.cores ∧
    (State.formParts s n reserves).hbmcs = s.hbmcs ∧ (State.formParts s n reserves).bdies = s.bdies ∧
    (State.formParts s n reserves).ports = s.ports ∧ (State.formParts s n reserves).nodes = s.nodes ∧
    (State.formParts s n reserves).time = s.time ∧ (State.formParts s n reserves).chip = s.chip ∧
    (State.formParts s n reserves).gov = s.gov ∧ (State.formParts s n reserves).mmc = s.mmc := by
  unfold State.formParts
  (repeat' split) <;> simp

@[simp] theorem State.formed_frame (s : State) (t : Bytes) (n : Nat) :
    (State.formed s t n).pending = s.pending ∧ (State.formed s t n).freeCtr = s.freeCtr ∧
    (State.formed s t n).gradeS = s.gradeS ∧ (State.formed s t n).ft = s.ft ∧ (State.formed s t n).cls = s.cls ∧
    (State.formed s t n).setup = s.setup ∧ (State.formed s t n).serial = s.serial ∧
    (State.formed s t n).bringing = s.bringing ∧ (State.formed s t n).lmap = s.lmap ∧
    (State.formed s t n).cores = s.cores ∧ (State.formed s t n).hbmcs = s.hbmcs ∧
    (State.formed s t n).bdies = s.bdies ∧ (State.formed s t n).ports = s.ports ∧
    (State.formed s t n).nodes = s.nodes ∧ (State.formed s t n).time = s.time ∧ (State.formed s t n).chip = s.chip ∧
    (State.formed s t n).gov = s.gov ∧ (State.formed s t n).mmc = s.mmc := by
  unfold State.formed
  (repeat' split) <;> simp

@[simp] theorem State.modHif_frame (s : State) (f : Hif → Hif) :
    (State.modHif s f).pending = s.pending ∧ (State.modHif s f).freeCtr = s.freeCtr ∧
    (State.modHif s f).gradeS = s.gradeS ∧ (State.modHif s f).ft = s.ft ∧ (State.modHif s f).cls = s.cls ∧
    (State.modHif s f).layout = s.layout ∧ (State.modHif s f).setup = s.setup ∧ (State.modHif s f).serial = s.serial ∧
    (State.modHif s f).bringing = s.bringing ∧ (State.modHif s f).lmap = s.lmap ∧ (State.modHif s f).parts = s.parts ∧
    (State.modHif s f).cores = s.cores ∧ (State.modHif s f).slices = s.slices ∧ (State.modHif s f).hbmcs = s.hbmcs ∧
    (State.modHif s f).bdies = s.bdies ∧ (State.modHif s f).ports = s.ports ∧ (State.modHif s f).nodes = s.nodes ∧
    (State.modHif s f).time = s.time ∧ (State.modHif s f).out = s.out ∧ (State.modHif s f).chip = s.chip ∧
    (State.modHif s f).gov = s.gov ∧ (State.modHif s f).mmc = s.mmc ∧ (State.modHif s f).gdbg = s.gdbg := by
  unfold State.modHif
  (repeat' split) <;> simp

@[simp] theorem State.showResult_frame (s : State) (r : Reject) :
    (State.showResult s r).pending = s.pending ∧ (State.showResult s r).freeCtr = s.freeCtr ∧
    (State.showResult s r).gradeS = s.gradeS ∧ (State.showResult s r).ft = s.ft ∧ (State.showResult s r).cls = s.cls ∧
    (State.showResult s r).layout = s.layout ∧ (State.showResult s r).setup = s.setup ∧
    (State.showResult s r).serial = s.serial ∧ (State.showResult s r).bringing = s.bringing ∧
    (State.showResult s r).lmap = s.lmap ∧ (State.showResult s r).parts = s.parts ∧
    (State.showResult s r).cores = s.cores ∧ (State.showResult s r).slices = s.slices ∧
    (State.showResult s r).hbmcs = s.hbmcs ∧ (State.showResult s r).bdies = s.bdies ∧
    (State.showResult s r).ports = s.ports ∧ (State.showResult s r).nodes = s.nodes ∧
    (State.showResult s r).time = s.time ∧ (State.showResult s r).out = s.out ∧ (State.showResult s r).chip = s.chip ∧
    (State.showResult s r).gov = s.gov ∧ (State.showResult s r).mmc = s.mmc ∧
    (State.showResult s r).gdbg = s.gdbg := by
  unfold State.showResult
  (repeat' split) <;> simp

@[simp] theorem State.takeExTables_frame (s : State) (t : Bytes) (n : Nat) :
    (State.takeExTables s t n).pending = s.pending ∧ (State.takeExTables s t n).freeCtr = s.freeCtr ∧
    (State.takeExTables s t n).gradeS = s.gradeS ∧ (State.takeExTables s t n).ft = s.ft ∧
    (State.takeExTables s t n).cls = s.cls ∧ (State.takeExTables s t n).layout = s.layout ∧
    (State.takeExTables s t n).setup = s.setup ∧ (State.takeExTables s t n).serial = s.serial ∧
    (State.takeExTables s t n).bringing = s.bringing ∧ (State.takeExTables s t n).lmap = s.lmap ∧
    (State.takeExTables s t n).cores = s.cores ∧ (State.takeExTables s t n).slices = s.slices ∧
    (State.takeExTables s t n).hbmcs = s.hbmcs ∧ (State.takeExTables s t n).bdies = s.bdies ∧
    (State.takeExTables s t n).ports = s.ports ∧ (State.takeExTables s t n).nodes = s.nodes ∧
    (State.takeExTables s t n).time = s.time ∧ (State.takeExTables s t n).out = s.out ∧
    (State.takeExTables s t n).hif = s.hif ∧ (State.takeExTables s t n).chip = s.chip ∧
    (State.takeExTables s t n).gov = s.gov ∧ (State.takeExTables s t n).mmc = s.mmc ∧
    (State.takeExTables s t n).gdbg = s.gdbg := by
  unfold State.takeExTables
  (repeat' split) <;> simp

@[simp] theorem State.settlePorts_frame (s : State) :
    (State.settlePorts s).pending = s.pending ∧ (State.settlePorts s).freeCtr = s.freeCtr ∧
    (State.settlePorts s).gradeS = s.gradeS ∧ (State.settlePorts s).ft = s.ft ∧ (State.settlePorts s).cls = s.cls ∧
    (State.settlePorts s).layout = s.layout ∧ (State.settlePorts s).setup = s.setup ∧
    (State.settlePorts s).serial = s.serial ∧ (State.settlePorts s).bringing = s.bringing ∧
    (State.settlePorts s).lmap = s.lmap ∧ (State.settlePorts s).parts = s.parts ∧
    (State.settlePorts s).cores = s.cores ∧ (State.settlePorts s).slices = s.slices ∧
    (State.settlePorts s).hbmcs = s.hbmcs ∧ (State.settlePorts s).bdies = s.bdies ∧
    (State.settlePorts s).nodes = s.nodes ∧ (State.settlePorts s).time = s.time ∧ (State.settlePorts s).hif = s.hif ∧
    (State.settlePorts s).chip = s.chip ∧ (State.settlePorts s).gov = s.gov ∧ (State.settlePorts s).mmc = s.mmc := by
  unfold State.settlePorts
  (repeat' split) <;> simp

@[simp] theorem State.acceptTable_frame (s : State) (t : Bytes) (n : Nat) :
    (State.acceptTable s t n).pending = s.pending ∧ (State.acceptTable s t n).freeCtr = s.freeCtr ∧
    (State.acceptTable s t n).gradeS = s.gradeS ∧ (State.acceptTable s t n).ft = s.ft ∧
    (State.acceptTable s t n).cls = s.cls ∧ (State.acceptTable s t n).serial = s.serial ∧
    (State.acceptTable s t n).bringing = s.bringing ∧ (State.acceptTable s t n).lmap = s.lmap ∧
    (State.acceptTable s t n).cores = s.cores ∧ (State.acceptTable s t n).hbmcs = s.hbmcs ∧
    (State.acceptTable s t n).bdies = s.bdies ∧ (State.acceptTable s t n).nodes = s.nodes ∧
    (State.acceptTable s t n).chip = s.chip ∧ (State.acceptTable s t n).gov = s.gov ∧
    (State.acceptTable s t n).mmc = s.mmc := by
  unfold State.acceptTable
  (repeat' split) <;> simp

@[simp] theorem State.rejectTable_frame (s : State) (r : Reject) :
    (State.rejectTable s r).pending = s.pending ∧ (State.rejectTable s r).freeCtr = s.freeCtr ∧
    (State.rejectTable s r).gradeS = s.gradeS ∧ (State.rejectTable s r).ft = s.ft ∧
    (State.rejectTable s r).cls = s.cls ∧ (State.rejectTable s r).layout = s.layout ∧
    (State.rejectTable s r).setup = s.setup ∧ (State.rejectTable s r).serial = s.serial ∧
    (State.rejectTable s r).bringing = s.bringing ∧ (State.rejectTable s r).lmap = s.lmap ∧
    (State.rejectTable s r).parts = s.parts ∧ (State.rejectTable s r).cores = s.cores ∧
    (State.rejectTable s r).slices = s.slices ∧ (State.rejectTable s r).hbmcs = s.hbmcs ∧
    (State.rejectTable s r).bdies = s.bdies ∧ (State.rejectTable s r).ports = s.ports ∧
    (State.rejectTable s r).nodes = s.nodes ∧ (State.rejectTable s r).time = s.time ∧
    (State.rejectTable s r).chip = s.chip ∧ (State.rejectTable s r).gov = s.gov ∧ (State.rejectTable s r).mmc = s.mmc ∧
    (State.rejectTable s r).gdbg = s.gdbg := by
  unfold State.rejectTable
  (repeat' split) <;> simp

@[simp] theorem State.doSetupCommit_frame (s : State) :
    (State.doSetupCommit s).pending = s.pending ∧ (State.doSetupCommit s).freeCtr = s.freeCtr ∧
    (State.doSetupCommit s).gradeS = s.gradeS ∧ (State.doSetupCommit s).ft = s.ft ∧
    (State.doSetupCommit s).cls = s.cls ∧ (State.doSetupCommit s).layout = s.layout ∧
    (State.doSetupCommit s).setup = s.setup ∧ (State.doSetupCommit s).serial = s.serial ∧
    (State.doSetupCommit s).bringing = s.bringing ∧ (State.doSetupCommit s).lmap = s.lmap ∧
    (State.doSetupCommit s).parts = s.parts ∧ (State.doSetupCommit s).cores = s.cores ∧
    (State.doSetupCommit s).slices = s.slices ∧ (State.doSetupCommit s).hbmcs = s.hbmcs ∧
    (State.doSetupCommit s).bdies = s.bdies ∧ (State.doSetupCommit s).ports = s.ports ∧
    (State.doSetupCommit s).nodes = s.nodes ∧ (State.doSetupCommit s).time = s.time ∧
    (State.doSetupCommit s).out = s.out ∧ (State.doSetupCommit s).chip = s.chip ∧ (State.doSetupCommit s).gov = s.gov ∧
    (State.doSetupCommit s).mmc = s.mmc ∧ (State.doSetupCommit s).gdbg = s.gdbg := by
  unfold State.doSetupCommit
  (repeat' split) <;> simp

@[simp] theorem State.doSetupValidation_frame (s : State) :
    (State.doSetupValidation s).pending = s.pending ∧ (State.doSetupValidation s).freeCtr = s.freeCtr ∧
    (State.doSetupValidation s).gradeS = s.gradeS ∧ (State.doSetupValidation s).ft = s.ft ∧
    (State.doSetupValidation s).cls = s.cls ∧ (State.doSetupValidation s).serial = s.serial ∧
    (State.doSetupValidation s).bringing = s.bringing ∧ (State.doSetupValidation s).lmap = s.lmap ∧
    (State.doSetupValidation s).cores = s.cores ∧ (State.doSetupValidation s).hbmcs = s.hbmcs ∧
    (State.doSetupValidation s).bdies = s.bdies ∧ (State.doSetupValidation s).nodes = s.nodes ∧
    (State.doSetupValidation s).chip = s.chip ∧ (State.doSetupValidation s).gov = s.gov ∧
    (State.doSetupValidation s).mmc = s.mmc := by
  unfold State.doSetupValidation
  (repeat' split) <;> simp

@[simp] theorem State.badAccess_frame (s : State) :
    (State.badAccess s).pending = s.pending ∧ (State.badAccess s).freeCtr = s.freeCtr ∧
    (State.badAccess s).gradeS = s.gradeS ∧ (State.badAccess s).ft = s.ft ∧ (State.badAccess s).cls = s.cls ∧
    (State.badAccess s).layout = s.layout ∧ (State.badAccess s).setup = s.setup ∧
    (State.badAccess s).serial = s.serial ∧ (State.badAccess s).bringing = s.bringing ∧
    (State.badAccess s).lmap = s.lmap ∧ (State.badAccess s).parts = s.parts ∧ (State.badAccess s).cores = s.cores ∧
    (State.badAccess s).slices = s.slices ∧ (State.badAccess s).hbmcs = s.hbmcs ∧ (State.badAccess s).bdies = s.bdies ∧
    (State.badAccess s).ports = s.ports ∧ (State.badAccess s).nodes = s.nodes ∧ (State.badAccess s).time = s.time ∧
    (State.badAccess s).out = s.out ∧ (State.badAccess s).chip = s.chip ∧ (State.badAccess s).gov = s.gov ∧
    (State.badAccess s).mmc = s.mmc ∧ (State.badAccess s).gdbg = s.gdbg := by
  unfold State.badAccess
  (repeat' split) <;> simp

@[simp] theorem State.doorbell_pending (s : State) (ok : Bool) (f : State → State)
    (h : ∀ s, (f s).pending = s.pending) : (State.doorbell s ok f).pending = s.pending := by
  unfold State.doorbell
  (repeat' split) <;> simp [h]
@[simp] theorem State.doorbell_freeCtr (s : State) (ok : Bool) (f : State → State)
    (h : ∀ s, (f s).freeCtr = s.freeCtr) : (State.doorbell s ok f).freeCtr = s.freeCtr := by
  unfold State.doorbell
  (repeat' split) <;> simp [h]
@[simp] theorem State.doorbell_gradeS (s : State) (ok : Bool) (f : State → State)
    (h : ∀ s, (f s).gradeS = s.gradeS) : (State.doorbell s ok f).gradeS = s.gradeS := by
  unfold State.doorbell
  (repeat' split) <;> simp [h]
@[simp] theorem State.doorbell_ft (s : State) (ok : Bool) (f : State → State)
    (h : ∀ s, (f s).ft = s.ft) : (State.doorbell s ok f).ft = s.ft := by
  unfold State.doorbell
  (repeat' split) <;> simp [h]
@[simp] theorem State.doorbell_cls (s : State) (ok : Bool) (f : State → State)
    (h : ∀ s, (f s).cls = s.cls) : (State.doorbell s ok f).cls = s.cls := by
  unfold State.doorbell
  (repeat' split) <;> simp [h]
@[simp] theorem State.doorbell_layout (s : State) (ok : Bool) (f : State → State)
    (h : ∀ s, (f s).layout = s.layout) : (State.doorbell s ok f).layout = s.layout := by
  unfold State.doorbell
  (repeat' split) <;> simp [h]
@[simp] theorem State.doorbell_setup (s : State) (ok : Bool) (f : State → State)
    (h : ∀ s, (f s).setup = s.setup) : (State.doorbell s ok f).setup = s.setup := by
  unfold State.doorbell
  (repeat' split) <;> simp [h]
@[simp] theorem State.doorbell_serial (s : State) (ok : Bool) (f : State → State)
    (h : ∀ s, (f s).serial = s.serial) : (State.doorbell s ok f).serial = s.serial := by
  unfold State.doorbell
  (repeat' split) <;> simp [h]
@[simp] theorem State.doorbell_bringing (s : State) (ok : Bool) (f : State → State)
    (h : ∀ s, (f s).bringing = s.bringing) : (State.doorbell s ok f).bringing = s.bringing := by
  unfold State.doorbell
  (repeat' split) <;> simp [h]
@[simp] theorem State.doorbell_lmap (s : State) (ok : Bool) (f : State → State)
    (h : ∀ s, (f s).lmap = s.lmap) : (State.doorbell s ok f).lmap = s.lmap := by
  unfold State.doorbell
  (repeat' split) <;> simp [h]
@[simp] theorem State.doorbell_parts (s : State) (ok : Bool) (f : State → State)
    (h : ∀ s, (f s).parts = s.parts) : (State.doorbell s ok f).parts = s.parts := by
  unfold State.doorbell
  (repeat' split) <;> simp [h]
@[simp] theorem State.doorbell_cores (s : State) (ok : Bool) (f : State → State)
    (h : ∀ s, (f s).cores = s.cores) : (State.doorbell s ok f).cores = s.cores := by
  unfold State.doorbell
  (repeat' split) <;> simp [h]
@[simp] theorem State.doorbell_slices (s : State) (ok : Bool) (f : State → State)
    (h : ∀ s, (f s).slices = s.slices) : (State.doorbell s ok f).slices = s.slices := by
  unfold State.doorbell
  (repeat' split) <;> simp [h]
@[simp] theorem State.doorbell_hbmcs (s : State) (ok : Bool) (f : State → State)
    (h : ∀ s, (f s).hbmcs = s.hbmcs) : (State.doorbell s ok f).hbmcs = s.hbmcs := by
  unfold State.doorbell
  (repeat' split) <;> simp [h]
@[simp] theorem State.doorbell_bdies (s : State) (ok : Bool) (f : State → State)
    (h : ∀ s, (f s).bdies = s.bdies) : (State.doorbell s ok f).bdies = s.bdies := by
  unfold State.doorbell
  (repeat' split) <;> simp [h]
@[simp] theorem State.doorbell_ports (s : State) (ok : Bool) (f : State → State)
    (h : ∀ s, (f s).ports = s.ports) : (State.doorbell s ok f).ports = s.ports := by
  unfold State.doorbell
  (repeat' split) <;> simp [h]
@[simp] theorem State.doorbell_nodes (s : State) (ok : Bool) (f : State → State)
    (h : ∀ s, (f s).nodes = s.nodes) : (State.doorbell s ok f).nodes = s.nodes := by
  unfold State.doorbell
  (repeat' split) <;> simp [h]
@[simp] theorem State.doorbell_time (s : State) (ok : Bool) (f : State → State)
    (h : ∀ s, (f s).time = s.time) : (State.doorbell s ok f).time = s.time := by
  unfold State.doorbell
  (repeat' split) <;> simp [h]
@[simp] theorem State.doorbell_out (s : State) (ok : Bool) (f : State → State)
    (h : ∀ s, (f s).out = s.out) : (State.doorbell s ok f).out = s.out := by
  unfold State.doorbell
  (repeat' split) <;> simp [h]
@[simp] theorem State.doorbell_chip (s : State) (ok : Bool) (f : State → State)
    (h : ∀ s, (f s).chip = s.chip) : (State.doorbell s ok f).chip = s.chip := by
  unfold State.doorbell
  (repeat' split) <;> simp [h]
@[simp] theorem State.doorbell_gov (s : State) (ok : Bool) (f : State → State)
    (h : ∀ s, (f s).gov = s.gov) : (State.doorbell s ok f).gov = s.gov := by
  unfold State.doorbell
  (repeat' split) <;> simp [h]
@[simp] theorem State.doorbell_mmc (s : State) (ok : Bool) (f : State → State)
    (h : ∀ s, (f s).mmc = s.mmc) : (State.doorbell s ok f).mmc = s.mmc := by
  unfold State.doorbell
  (repeat' split) <;> simp [h]

@[simp] theorem State.doSqTail_frame (s : State) (p n v : Nat) :
    (State.doSqTail s p n v).pending = s.pending ∧ (State.doSqTail s p n v).freeCtr = s.freeCtr ∧
    (State.doSqTail s p n v).gradeS = s.gradeS ∧ (State.doSqTail s p n v).ft = s.ft ∧
    (State.doSqTail s p n v).cls = s.cls ∧ (State.doSqTail s p n v).layout = s.layout ∧
    (State.doSqTail s p n v).setup = s.setup ∧ (State.doSqTail s p n v).serial = s.serial ∧
    (State.doSqTail s p n v).bringing = s.bringing ∧ (State.doSqTail s p n v).lmap = s.lmap ∧
    (State.doSqTail s p n v).parts = s.parts ∧ (State.doSqTail s p n v).cores = s.cores ∧
    (State.doSqTail s p n v).slices = s.slices ∧ (State.doSqTail s p n v).hbmcs = s.hbmcs ∧
    (State.doSqTail s p n v).bdies = s.bdies ∧ (State.doSqTail s p n v).ports = s.ports ∧
    (State.doSqTail s p n v).nodes = s.nodes ∧ (State.doSqTail s p n v).time = s.time ∧
    (State.doSqTail s p n v).out = s.out ∧ (State.doSqTail s p n v).chip = s.chip ∧
    (State.doSqTail s p n v).gov = s.gov ∧ (State.doSqTail s p n v).mmc = s.mmc := by
  unfold State.doSqTail
  (repeat' split) <;> simp

@[simp] theorem State.doCqHead_frame (s : State) (p n v : Nat) :
    (State.doCqHead s p n v).pending = s.pending ∧ (State.doCqHead s p n v).freeCtr = s.freeCtr ∧
    (State.doCqHead s p n v).gradeS = s.gradeS ∧ (State.doCqHead s p n v).ft = s.ft ∧
    (State.doCqHead s p n v).cls = s.cls ∧ (State.doCqHead s p n v).layout = s.layout ∧
    (State.doCqHead s p n v).setup = s.setup ∧ (State.doCqHead s p n v).serial = s.serial ∧
    (State.doCqHead s p n v).bringing = s.bringing ∧ (State.doCqHead s p n v).lmap = s.lmap ∧
    (State.doCqHead s p n v).parts = s.parts ∧ (State.doCqHead s p n v).cores = s.cores ∧
    (State.doCqHead s p n v).slices = s.slices ∧ (State.doCqHead s p n v).hbmcs = s.hbmcs ∧
    (State.doCqHead s p n v).bdies = s.bdies ∧ (State.doCqHead s p n v).ports = s.ports ∧
    (State.doCqHead s p n v).nodes = s.nodes ∧ (State.doCqHead s p n v).time = s.time ∧
    (State.doCqHead s p n v).out = s.out ∧ (State.doCqHead s p n v).chip = s.chip ∧
    (State.doCqHead s p n v).gov = s.gov ∧ (State.doCqHead s p n v).mmc = s.mmc := by
  unfold State.doCqHead
  (repeat' split) <;> simp

@[simp] theorem State.drainEvents_frame (s : State) (fn : Fn) (x : List Bytes) :
    (State.drainEvents s fn x).pending = s.pending ∧ (State.drainEvents s fn x).freeCtr = s.freeCtr ∧
    (State.drainEvents s fn x).gradeS = s.gradeS ∧ (State.drainEvents s fn x).ft = s.ft ∧
    (State.drainEvents s fn x).cls = s.cls ∧ (State.drainEvents s fn x).layout = s.layout ∧
    (State.drainEvents s fn x).setup = s.setup ∧ (State.drainEvents s fn x).serial = s.serial ∧
    (State.drainEvents s fn x).bringing = s.bringing ∧ (State.drainEvents s fn x).lmap = s.lmap ∧
    (State.drainEvents s fn x).parts = s.parts ∧ (State.drainEvents s fn x).cores = s.cores ∧
    (State.drainEvents s fn x).slices = s.slices ∧ (State.drainEvents s fn x).hbmcs = s.hbmcs ∧
    (State.drainEvents s fn x).bdies = s.bdies ∧ (State.drainEvents s fn x).ports = s.ports ∧
    (State.drainEvents s fn x).nodes = s.nodes ∧ (State.drainEvents s fn x).time = s.time ∧
    (State.drainEvents s fn x).chip = s.chip ∧ (State.drainEvents s fn x).gov = s.gov ∧
    (State.drainEvents s fn x).mmc = s.mmc ∧ (State.drainEvents s fn x).gdbg = s.gdbg := by
  induction x generalizing s with
  | nil => simp [State.drainEvents]
  | cons a x ih =>
    simp only [State.drainEvents]
    (repeat' split) <;> simp [ih]

@[simp] theorem State.doEvtHead_frame (s : State) (fn : Fn) (v : Nat) :
    (State.doEvtHead s fn v).pending = s.pending ∧ (State.doEvtHead s fn v).freeCtr = s.freeCtr ∧
    (State.doEvtHead s fn v).gradeS = s.gradeS ∧ (State.doEvtHead s fn v).ft = s.ft ∧
    (State.doEvtHead s fn v).cls = s.cls ∧ (State.doEvtHead s fn v).layout = s.layout ∧
    (State.doEvtHead s fn v).setup = s.setup ∧ (State.doEvtHead s fn v).serial = s.serial ∧
    (State.doEvtHead s fn v).bringing = s.bringing ∧ (State.doEvtHead s fn v).lmap = s.lmap ∧
    (State.doEvtHead s fn v).parts = s.parts ∧ (State.doEvtHead s fn v).cores = s.cores ∧
    (State.doEvtHead s fn v).slices = s.slices ∧ (State.doEvtHead s fn v).hbmcs = s.hbmcs ∧
    (State.doEvtHead s fn v).bdies = s.bdies ∧ (State.doEvtHead s fn v).ports = s.ports ∧
    (State.doEvtHead s fn v).nodes = s.nodes ∧ (State.doEvtHead s fn v).time = s.time ∧
    (State.doEvtHead s fn v).chip = s.chip ∧ (State.doEvtHead s fn v).gov = s.gov ∧
    (State.doEvtHead s fn v).mmc = s.mmc := by
  unfold State.doEvtHead
  (repeat' split) <;> simp

@[simp] theorem State.doIrqInterval_frame (s : State) (fn : Fn) :
    (State.doIrqInterval s fn).pending = s.pending ∧ (State.doIrqInterval s fn).freeCtr = s.freeCtr ∧
    (State.doIrqInterval s fn).gradeS = s.gradeS ∧ (State.doIrqInterval s fn).ft = s.ft ∧
    (State.doIrqInterval s fn).cls = s.cls ∧ (State.doIrqInterval s fn).layout = s.layout ∧
    (State.doIrqInterval s fn).setup = s.setup ∧ (State.doIrqInterval s fn).serial = s.serial ∧
    (State.doIrqInterval s fn).bringing = s.bringing ∧ (State.doIrqInterval s fn).lmap = s.lmap ∧
    (State.doIrqInterval s fn).parts = s.parts ∧ (State.doIrqInterval s fn).cores = s.cores ∧
    (State.doIrqInterval s fn).slices = s.slices ∧ (State.doIrqInterval s fn).hbmcs = s.hbmcs ∧
    (State.doIrqInterval s fn).bdies = s.bdies ∧ (State.doIrqInterval s fn).ports = s.ports ∧
    (State.doIrqInterval s fn).nodes = s.nodes ∧ (State.doIrqInterval s fn).time = s.time ∧
    (State.doIrqInterval s fn).chip = s.chip ∧ (State.doIrqInterval s fn).gov = s.gov ∧
    (State.doIrqInterval s fn).mmc = s.mmc ∧ (State.doIrqInterval s fn).gdbg = s.gdbg := by
  unfold State.doIrqInterval
  (repeat' split) <;> simp

@[simp] theorem State.reportTrip_frame (s : State) :
    (State.reportTrip s).pending = s.pending ∧ (State.reportTrip s).freeCtr = s.freeCtr ∧
    (State.reportTrip s).gradeS = s.gradeS ∧ (State.reportTrip s).ft = s.ft ∧ (State.reportTrip s).cls = s.cls ∧
    (State.reportTrip s).layout = s.layout ∧ (State.reportTrip s).setup = s.setup ∧
    (State.reportTrip s).serial = s.serial ∧ (State.reportTrip s).bringing = s.bringing ∧
    (State.reportTrip s).lmap = s.lmap ∧ (State.reportTrip s).parts = s.parts ∧ (State.reportTrip s).cores = s.cores ∧
    (State.reportTrip s).slices = s.slices ∧ (State.reportTrip s).hbmcs = s.hbmcs ∧
    (State.reportTrip s).bdies = s.bdies ∧ (State.reportTrip s).ports = s.ports ∧
    (State.reportTrip s).nodes = s.nodes ∧ (State.reportTrip s).time = s.time ∧ (State.reportTrip s).gov = s.gov ∧
    (State.reportTrip s).mmc = s.mmc ∧ (State.reportTrip s).gdbg = s.gdbg := by
  unfold State.reportTrip
  (repeat' split) <;> simp

@[simp] theorem State.enablePair_frame (s : State) (p n cfg : Nat) :
    (State.enablePair s p n cfg).pending = s.pending ∧ (State.enablePair s p n cfg).freeCtr = s.freeCtr ∧
    (State.enablePair s p n cfg).gradeS = s.gradeS ∧ (State.enablePair s p n cfg).ft = s.ft ∧
    (State.enablePair s p n cfg).cls = s.cls ∧ (State.enablePair s p n cfg).layout = s.layout ∧
    (State.enablePair s p n cfg).setup = s.setup ∧ (State.enablePair s p n cfg).serial = s.serial ∧
    (State.enablePair s p n cfg).bringing = s.bringing ∧ (State.enablePair s p n cfg).lmap = s.lmap ∧
    (State.enablePair s p n cfg).parts = s.parts ∧ (State.enablePair s p n cfg).cores = s.cores ∧
    (State.enablePair s p n cfg).slices = s.slices ∧ (State.enablePair s p n cfg).hbmcs = s.hbmcs ∧
    (State.enablePair s p n cfg).bdies = s.bdies ∧ (State.enablePair s p n cfg).ports = s.ports ∧
    (State.enablePair s p n cfg).nodes = s.nodes ∧ (State.enablePair s p n cfg).time = s.time ∧
    (State.enablePair s p n cfg).out = s.out ∧ (State.enablePair s p n cfg).chip = s.chip ∧
    (State.enablePair s p n cfg).gov = s.gov ∧ (State.enablePair s p n cfg).mmc = s.mmc ∧
    (State.enablePair s p n cfg).gdbg = s.gdbg := by
  unfold State.enablePair
  (repeat' split) <;> simp

@[simp] theorem State.enableEvents_frame (s : State) (fn : Fn) (cfg : Nat) :
    (State.enableEvents s fn cfg).pending = s.pending ∧ (State.enableEvents s fn cfg).freeCtr = s.freeCtr ∧
    (State.enableEvents s fn cfg).gradeS = s.gradeS ∧ (State.enableEvents s fn cfg).ft = s.ft ∧
    (State.enableEvents s fn cfg).cls = s.cls ∧ (State.enableEvents s fn cfg).layout = s.layout ∧
    (State.enableEvents s fn cfg).setup = s.setup ∧ (State.enableEvents s fn cfg).serial = s.serial ∧
    (State.enableEvents s fn cfg).bringing = s.bringing ∧ (State.enableEvents s fn cfg).lmap = s.lmap ∧
    (State.enableEvents s fn cfg).parts = s.parts ∧ (State.enableEvents s fn cfg).cores = s.cores ∧
    (State.enableEvents s fn cfg).slices = s.slices ∧ (State.enableEvents s fn cfg).hbmcs = s.hbmcs ∧
    (State.enableEvents s fn cfg).bdies = s.bdies ∧ (State.enableEvents s fn cfg).ports = s.ports ∧
    (State.enableEvents s fn cfg).nodes = s.nodes ∧ (State.enableEvents s fn cfg).time = s.time ∧
    (State.enableEvents s fn cfg).gov = s.gov ∧ (State.enableEvents s fn cfg).mmc = s.mmc ∧
    (State.enableEvents s fn cfg).gdbg = s.gdbg := by
  unfold State.enableEvents
  (repeat' split) <;> simp

@[simp] theorem State.disablePair_frame (s : State) (p n cfg : Nat) :
    (State.disablePair s p n cfg).pending = s.pending ∧ (State.disablePair s p n cfg).freeCtr = s.freeCtr ∧
    (State.disablePair s p n cfg).gradeS = s.gradeS ∧ (State.disablePair s p n cfg).ft = s.ft ∧
    (State.disablePair s p n cfg).cls = s.cls ∧ (State.disablePair s p n cfg).layout = s.layout ∧
    (State.disablePair s p n cfg).setup = s.setup ∧ (State.disablePair s p n cfg).serial = s.serial ∧
    (State.disablePair s p n cfg).bringing = s.bringing ∧ (State.disablePair s p n cfg).lmap = s.lmap ∧
    (State.disablePair s p n cfg).cores = s.cores ∧ (State.disablePair s p n cfg).slices = s.slices ∧
    (State.disablePair s p n cfg).hbmcs = s.hbmcs ∧ (State.disablePair s p n cfg).bdies = s.bdies ∧
    (State.disablePair s p n cfg).ports = s.ports ∧ (State.disablePair s p n cfg).nodes = s.nodes ∧
    (State.disablePair s p n cfg).time = s.time ∧ (State.disablePair s p n cfg).out = s.out ∧
    (State.disablePair s p n cfg).chip = s.chip ∧ (State.disablePair s p n cfg).gov = s.gov ∧
    (State.disablePair s p n cfg).mmc = s.mmc ∧ (State.disablePair s p n cfg).gdbg = s.gdbg := by
  unfold State.disablePair
  (repeat' split) <;> simp

@[simp] theorem State.disableEvents_frame (s : State) (fn : Fn) (cfg : Nat) :
    (State.disableEvents s fn cfg).pending = s.pending ∧ (State.disableEvents s fn cfg).freeCtr = s.freeCtr ∧
    (State.disableEvents s fn cfg).gradeS = s.gradeS ∧ (State.disableEvents s fn cfg).ft = s.ft ∧
    (State.disableEvents s fn cfg).cls = s.cls ∧ (State.disableEvents s fn cfg).layout = s.layout ∧
    (State.disableEvents s fn cfg).setup = s.setup ∧ (State.disableEvents s fn cfg).serial = s.serial ∧
    (State.disableEvents s fn cfg).bringing = s.bringing ∧ (State.disableEvents s fn cfg).lmap = s.lmap ∧
    (State.disableEvents s fn cfg).parts = s.parts ∧ (State.disableEvents s fn cfg).cores = s.cores ∧
    (State.disableEvents s fn cfg).slices = s.slices ∧ (State.disableEvents s fn cfg).hbmcs = s.hbmcs ∧
    (State.disableEvents s fn cfg).bdies = s.bdies ∧ (State.disableEvents s fn cfg).ports = s.ports ∧
    (State.disableEvents s fn cfg).nodes = s.nodes ∧ (State.disableEvents s fn cfg).time = s.time ∧
    (State.disableEvents s fn cfg).out = s.out ∧ (State.disableEvents s fn cfg).chip = s.chip ∧
    (State.disableEvents s fn cfg).gov = s.gov ∧ (State.disableEvents s fn cfg).mmc = s.mmc ∧
    (State.disableEvents s fn cfg).gdbg = s.gdbg := by
  unfold State.disableEvents
  (repeat' split) <;> simp

@[simp] theorem State.doResume_frame (s : State) (p n : Nat) :
    (State.doResume s p n).pending = s.pending ∧ (State.doResume s p n).freeCtr = s.freeCtr ∧
    (State.doResume s p n).gradeS = s.gradeS ∧ (State.doResume s p n).ft = s.ft ∧ (State.doResume s p n).cls = s.cls ∧
    (State.doResume s p n).layout = s.layout ∧ (State.doResume s p n).setup = s.setup ∧
    (State.doResume s p n).serial = s.serial ∧ (State.doResume s p n).bringing = s.bringing ∧
    (State.doResume s p n).lmap = s.lmap ∧ (State.doResume s p n).parts = s.parts ∧
    (State.doResume s p n).cores = s.cores ∧ (State.doResume s p n).slices = s.slices ∧
    (State.doResume s p n).hbmcs = s.hbmcs ∧ (State.doResume s p n).bdies = s.bdies ∧
    (State.doResume s p n).ports = s.ports ∧ (State.doResume s p n).nodes = s.nodes ∧
    (State.doResume s p n).time = s.time ∧ (State.doResume s p n).out = s.out ∧ (State.doResume s p n).chip = s.chip ∧
    (State.doResume s p n).gov = s.gov ∧ (State.doResume s p n).mmc = s.mmc ∧
    (State.doResume s p n).gdbg = s.gdbg := by
  unfold State.doResume
  (repeat' split) <;> simp

@[simp] theorem State.writeRingCfg_frame (s : State) (fn : Fn) (n v : Nat) :
    (State.writeRingCfg s fn n v).pending = s.pending ∧ (State.writeRingCfg s fn n v).freeCtr = s.freeCtr ∧
    (State.writeRingCfg s fn n v).gradeS = s.gradeS ∧ (State.writeRingCfg s fn n v).ft = s.ft ∧
    (State.writeRingCfg s fn n v).cls = s.cls ∧ (State.writeRingCfg s fn n v).layout = s.layout ∧
    (State.writeRingCfg s fn n v).setup = s.setup ∧ (State.writeRingCfg s fn n v).serial = s.serial ∧
    (State.writeRingCfg s fn n v).bringing = s.bringing ∧ (State.writeRingCfg s fn n v).lmap = s.lmap ∧
    (State.writeRingCfg s fn n v).cores = s.cores ∧ (State.writeRingCfg s fn n v).slices = s.slices ∧
    (State.writeRingCfg s fn n v).hbmcs = s.hbmcs ∧ (State.writeRingCfg s fn n v).bdies = s.bdies ∧
    (State.writeRingCfg s fn n v).ports = s.ports ∧ (State.writeRingCfg s fn n v).nodes = s.nodes ∧
    (State.writeRingCfg s fn n v).time = s.time ∧ (State.writeRingCfg s fn n v).gov = s.gov ∧
    (State.writeRingCfg s fn n v).mmc = s.mmc ∧ (State.writeRingCfg s fn n v).gdbg = s.gdbg := by
  unfold State.writeRingCfg
  (repeat' split) <;> simp

@[simp] theorem State.doRingEnable_frame (s : State) (fn : Fn) (n v : Nat) :
    (State.doRingEnable s fn n v).pending = s.pending ∧ (State.doRingEnable s fn n v).freeCtr = s.freeCtr ∧
    (State.doRingEnable s fn n v).gradeS = s.gradeS ∧ (State.doRingEnable s fn n v).ft = s.ft ∧
    (State.doRingEnable s fn n v).cls = s.cls ∧ (State.doRingEnable s fn n v).layout = s.layout ∧
    (State.doRingEnable s fn n v).setup = s.setup ∧ (State.doRingEnable s fn n v).serial = s.serial ∧
    (State.doRingEnable s fn n v).bringing = s.bringing ∧ (State.doRingEnable s fn n v).lmap = s.lmap ∧
    (State.doRingEnable s fn n v).cores = s.cores ∧ (State.doRingEnable s fn n v).slices = s.slices ∧
    (State.doRingEnable s fn n v).hbmcs = s.hbmcs ∧ (State.doRingEnable s fn n v).bdies = s.bdies ∧
    (State.doRingEnable s fn n v).ports = s.ports ∧ (State.doRingEnable s fn n v).nodes = s.nodes ∧
    (State.doRingEnable s fn n v).time = s.time ∧ (State.doRingEnable s fn n v).gov = s.gov ∧
    (State.doRingEnable s fn n v).mmc = s.mmc ∧ (State.doRingEnable s fn n v).gdbg = s.gdbg := by
  unfold State.doRingEnable
  (repeat' split) <;> simp

@[simp] theorem State.doRingDisable_frame (s : State) (fn : Fn) (n v : Nat) :
    (State.doRingDisable s fn n v).pending = s.pending ∧ (State.doRingDisable s fn n v).freeCtr = s.freeCtr ∧
    (State.doRingDisable s fn n v).gradeS = s.gradeS ∧ (State.doRingDisable s fn n v).ft = s.ft ∧
    (State.doRingDisable s fn n v).cls = s.cls ∧ (State.doRingDisable s fn n v).layout = s.layout ∧
    (State.doRingDisable s fn n v).setup = s.setup ∧ (State.doRingDisable s fn n v).serial = s.serial ∧
    (State.doRingDisable s fn n v).bringing = s.bringing ∧ (State.doRingDisable s fn n v).lmap = s.lmap ∧
    (State.doRingDisable s fn n v).cores = s.cores ∧ (State.doRingDisable s fn n v).slices = s.slices ∧
    (State.doRingDisable s fn n v).hbmcs = s.hbmcs ∧ (State.doRingDisable s fn n v).bdies = s.bdies ∧
    (State.doRingDisable s fn n v).ports = s.ports ∧ (State.doRingDisable s fn n v).nodes = s.nodes ∧
    (State.doRingDisable s fn n v).time = s.time ∧ (State.doRingDisable s fn n v).gov = s.gov ∧
    (State.doRingDisable s fn n v).mmc = s.mmc ∧ (State.doRingDisable s fn n v).gdbg = s.gdbg := by
  unfold State.doRingDisable
  (repeat' split) <;> simp

@[simp] theorem State.hostRead_frame (s : State) (p a n : Nat) (flt : MemFault) :
    (State.hostRead s p a n flt).1.pending = s.pending ∧ (State.hostRead s p a n flt).1.gradeS = s.gradeS ∧
    (State.hostRead s p a n flt).1.ft = s.ft ∧ (State.hostRead s p a n flt).1.cls = s.cls ∧
    (State.hostRead s p a n flt).1.layout = s.layout ∧ (State.hostRead s p a n flt).1.setup = s.setup ∧
    (State.hostRead s p a n flt).1.serial = s.serial ∧ (State.hostRead s p a n flt).1.bringing = s.bringing ∧
    (State.hostRead s p a n flt).1.lmap = s.lmap ∧ (State.hostRead s p a n flt).1.cores = s.cores ∧
    (State.hostRead s p a n flt).1.bdies = s.bdies ∧ (State.hostRead s p a n flt).1.ports = s.ports ∧
    (State.hostRead s p a n flt).1.nodes = s.nodes ∧ (State.hostRead s p a n flt).1.time = s.time ∧
    (State.hostRead s p a n flt).1.gov = s.gov ∧ (State.hostRead s p a n flt).1.mmc = s.mmc := by
  unfold State.hostRead
  exact ⟨foldl_keeps (fun x : State × _ => x.1.pending) _ (fun a i => by (try dsimp only); (repeat' split) <;> simp) _ _,
    foldl_keeps (fun x : State × _ => x.1.gradeS) _ (fun a i => by (try dsimp only); (repeat' split) <;> simp) _ _,
    foldl_keeps (fun x : State × _ => x.1.ft) _ (fun a i => by (try dsimp only); (repeat' split) <;> simp) _ _,
    foldl_keeps (fun x : State × _ => x.1.cls) _ (fun a i => by (try dsimp only); (repeat' split) <;> simp) _ _,
    foldl_keeps (fun x : State × _ => x.1.layout) _ (fun a i => by (try dsimp only); (repeat' split) <;> simp) _ _,
    foldl_keeps (fun x : State × _ => x.1.setup) _ (fun a i => by (try dsimp only); (repeat' split) <;> simp) _ _,
    foldl_keeps (fun x : State × _ => x.1.serial) _ (fun a i => by (try dsimp only); (repeat' split) <;> simp) _ _,
    foldl_keeps (fun x : State × _ => x.1.bringing) _ (fun a i => by (try dsimp only); (repeat' split) <;> simp) _ _,
    foldl_keeps (fun x : State × _ => x.1.lmap) _ (fun a i => by (try dsimp only); (repeat' split) <;> simp) _ _,
    foldl_keeps (fun x : State × _ => x.1.cores) _ (fun a i => by (try dsimp only); (repeat' split) <;> simp) _ _,
    foldl_keeps (fun x : State × _ => x.1.bdies) _ (fun a i => by (try dsimp only); (repeat' split) <;> simp) _ _,
    foldl_keeps (fun x : State × _ => x.1.ports) _ (fun a i => by (try dsimp only); (repeat' split) <;> simp) _ _,
    foldl_keeps (fun x : State × _ => x.1.nodes) _ (fun a i => by (try dsimp only); (repeat' split) <;> simp) _ _,
    foldl_keeps (fun x : State × _ => x.1.time) _ (fun a i => by (try dsimp only); (repeat' split) <;> simp) _ _,
    foldl_keeps (fun x : State × _ => x.1.gov) _ (fun a i => by (try dsimp only); (repeat' split) <;> simp) _ _,
    foldl_keeps (fun x : State × _ => x.1.mmc) _ (fun a i => by (try dsimp only); (repeat' split) <;> simp) _ _⟩

@[simp] theorem State.doBar2Read_frame (s : State) (fn : Fn) (off n : Nat) (flt : MemFault) :
    (State.doBar2Read s fn off n flt).pending = s.pending ∧ (State.doBar2Read s fn off n flt).gradeS = s.gradeS ∧
    (State.doBar2Read s fn off n flt).ft = s.ft ∧ (State.doBar2Read s fn off n flt).cls = s.cls ∧
    (State.doBar2Read s fn off n flt).layout = s.layout ∧ (State.doBar2Read s fn off n flt).setup = s.setup ∧
    (State.doBar2Read s fn off n flt).serial = s.serial ∧ (State.doBar2Read s fn off n flt).bringing = s.bringing ∧
    (State.doBar2Read s fn off n flt).lmap = s.lmap ∧ (State.doBar2Read s fn off n flt).cores = s.cores ∧
    (State.doBar2Read s fn off n flt).bdies = s.bdies ∧ (State.doBar2Read s fn off n flt).ports = s.ports ∧
    (State.doBar2Read s fn off n flt).nodes = s.nodes ∧ (State.doBar2Read s fn off n flt).time = s.time ∧
    (State.doBar2Read s fn off n flt).gov = s.gov ∧ (State.doBar2Read s fn off n flt).mmc = s.mmc := by
  unfold State.doBar2Read
  simp
  (repeat' split) <;> simp

@[simp] theorem State.doBar2Write_frame (s : State) (fn : Fn) (off : Nat) (data : Bytes) :
    (State.doBar2Write s fn off data).pending = s.pending ∧ (State.doBar2Write s fn off data).gradeS = s.gradeS ∧
    (State.doBar2Write s fn off data).ft = s.ft ∧ (State.doBar2Write s fn off data).cls = s.cls ∧
    (State.doBar2Write s fn off data).layout = s.layout ∧ (State.doBar2Write s fn off data).setup = s.setup ∧
    (State.doBar2Write s fn off data).serial = s.serial ∧ (State.doBar2Write s fn off data).bringing = s.bringing ∧
    (State.doBar2Write s fn off data).lmap = s.lmap ∧ (State.doBar2Write s fn off data).bdies = s.bdies ∧
    (State.doBar2Write s fn off data).ports = s.ports ∧ (State.doBar2Write s fn off data).nodes = s.nodes ∧
    (State.doBar2Write s fn off data).time = s.time ∧ (State.doBar2Write s fn off data).gov = s.gov ∧
    (State.doBar2Write s fn off data).mmc = s.mmc := by
  unfold State.doBar2Write
  (repeat' split) <;> simp

@[simp] theorem State.doBar2Abort_frame (s : State) (fn : Fn) :
    (State.doBar2Abort s fn).pending = s.pending ∧ (State.doBar2Abort s fn).freeCtr = s.freeCtr ∧
    (State.doBar2Abort s fn).gradeS = s.gradeS ∧ (State.doBar2Abort s fn).ft = s.ft ∧
    (State.doBar2Abort s fn).cls = s.cls ∧ (State.doBar2Abort s fn).layout = s.layout ∧
    (State.doBar2Abort s fn).setup = s.setup ∧ (State.doBar2Abort s fn).serial = s.serial ∧
    (State.doBar2Abort s fn).bringing = s.bringing ∧ (State.doBar2Abort s fn).lmap = s.lmap ∧
    (State.doBar2Abort s fn).parts = s.parts ∧ (State.doBar2Abort s fn).cores = s.cores ∧
    (State.doBar2Abort s fn).slices = s.slices ∧ (State.doBar2Abort s fn).hbmcs = s.hbmcs ∧
    (State.doBar2Abort s fn).bdies = s.bdies ∧ (State.doBar2Abort s fn).ports = s.ports ∧
    (State.doBar2Abort s fn).nodes = s.nodes ∧ (State.doBar2Abort s fn).time = s.time ∧
    (State.doBar2Abort s fn).chip = s.chip ∧ (State.doBar2Abort s fn).gov = s.gov ∧
    (State.doBar2Abort s fn).mmc = s.mmc ∧ (State.doBar2Abort s fn).gdbg = s.gdbg := by
  unfold State.doBar2Abort
  (repeat' split) <;> simp

@[simp] theorem State.doFlrVf_frame (s : State) (p : Nat) :
    (State.doFlrVf s p).pending = s.pending ∧ (State.doFlrVf s p).freeCtr = s.freeCtr ∧
    (State.doFlrVf s p).gradeS = s.gradeS ∧ (State.doFlrVf s p).ft = s.ft ∧ (State.doFlrVf s p).cls = s.cls ∧
    (State.doFlrVf s p).layout = s.layout ∧ (State.doFlrVf s p).setup = s.setup ∧
    (State.doFlrVf s p).serial = s.serial ∧ (State.doFlrVf s p).bringing = s.bringing ∧
    (State.doFlrVf s p).lmap = s.lmap ∧ (State.doFlrVf s p).hbmcs = s.hbmcs ∧ (State.doFlrVf s p).ports = s.ports ∧
    (State.doFlrVf s p).time = s.time ∧ (State.doFlrVf s p).gov = s.gov ∧ (State.doFlrVf s p).mmc = s.mmc := by
  unfold State.doFlrVf
  (repeat' split) <;> simp

@[simp] theorem State.doFlrPf_frame (s : State) :
    (State.doFlrPf s).pending = s.pending ∧ (State.doFlrPf s).freeCtr = s.freeCtr ∧
    (State.doFlrPf s).gradeS = s.gradeS ∧ (State.doFlrPf s).ft = s.ft ∧ (State.doFlrPf s).cls = s.cls ∧
    (State.doFlrPf s).layout = s.layout ∧ (State.doFlrPf s).serial = s.serial ∧
    (State.doFlrPf s).bringing = s.bringing ∧ (State.doFlrPf s).lmap = s.lmap ∧ (State.doFlrPf s).hbmcs = s.hbmcs ∧
    (State.doFlrPf s).gov = s.gov ∧ (State.doFlrPf s).mmc = s.mmc := by
  unfold State.doFlrPf
  (repeat' split) <;> simp

end Sys2Proof.Machine
end

