-- ==== Sys2Proof/Laws/FrameMmc.lean ====
section
/-! SUPPORT. Frames: which fields of the state each operation of Machine/Mmc, DbgCmds leaves as they are. -/

namespace Sys2Proof.Machine

@[simp] theorem State.sendSensor_frame (s : State) (e : SensorEvt) :
    (State.sendSensor s e).pending = s.pending ∧ (State.sendSensor s e).freeCtr = s.freeCtr ∧
    (State.sendSensor s e).gradeS = s.gradeS ∧ (State.sendSensor s e).ft = s.ft ∧ (State.sendSensor s e).cls = s.cls ∧
    (State.sendSensor s e).layout = s.layout ∧ (State.sendSensor s e).setup = s.setup ∧
    (State.sendSensor s e).serial = s.serial ∧ (State.sendSensor s e).bringing = s.bringing ∧
    (State.sendSensor s e).lmap = s.lmap ∧ (State.sendSensor s e).parts = s.parts ∧
    (State.sendSensor s e).cores = s.cores ∧ (State.sendSensor s e).slices = s.slices ∧
    (State.sendSensor s e).hbmcs = s.hbmcs ∧ (State.sendSensor s e).bdies = s.bdies ∧
    (State.sendSensor s e).ports = s.ports ∧ (State.sendSensor s e).nodes = s.nodes ∧
    (State.sendSensor s e).time = s.time ∧ (State.sendSensor s e).hif = s.hif ∧ (State.sendSensor s e).chip = s.chip ∧
    (State.sendSensor s e).gov = s.gov ∧ (State.sendSensor s e).gdbg = s.gdbg := by
  unfold State.sendSensor
  (repeat' split) <;> simp

@[simp] theorem State.reportSensor_frame (s : State) (i : Nat) :
    (State.reportSensor s i).pending = s.pending ∧ (State.reportSensor s i).freeCtr = s.freeCtr ∧
    (State.reportSensor s i).gradeS = s.gradeS ∧ (State.reportSensor s i).ft = s.ft ∧
    (State.reportSensor s i).cls = s.cls ∧ (State.reportSensor s i).layout = s.layout ∧
    (State.reportSensor s i).setup = s.setup ∧ (State.reportSensor s i).serial = s.serial ∧
    (State.reportSensor s i).bringing = s.bringing ∧ (State.reportSensor s i).lmap = s.lmap ∧
    (State.reportSensor s i).parts = s.parts ∧ (State.reportSensor s i).cores = s.cores ∧
    (State.reportSensor s i).slices = s.slices ∧ (State.reportSensor s i).hbmcs = s.hbmcs ∧
    (State.reportSensor s i).bdies = s.bdies ∧ (State.reportSensor s i).ports = s.ports ∧
    (State.reportSensor s i).nodes = s.nodes ∧ (State.reportSensor s i).time = s.time ∧
    (State.reportSensor s i).hif = s.hif ∧ (State.reportSensor s i).chip = s.chip ∧
    (State.reportSensor s i).gov = s.gov ∧ (State.reportSensor s i).gdbg = s.gdbg := by
  unfold State.reportSensor
  (repeat' split) <;> simp

@[simp] theorem State.reportSensors_frame (s : State) :
    (State.reportSensors s).pending = s.pending ∧ (State.reportSensors s).freeCtr = s.freeCtr ∧
    (State.reportSensors s).gradeS = s.gradeS ∧ (State.reportSensors s).ft = s.ft ∧
    (State.reportSensors s).cls = s.cls ∧ (State.reportSensors s).layout = s.layout ∧
    (State.reportSensors s).setup = s.setup ∧ (State.reportSensors s).serial = s.serial ∧
    (State.reportSensors s).bringing = s.bringing ∧ (State.reportSensors s).lmap = s.lmap ∧
    (State.reportSensors s).parts = s.parts ∧ (State.reportSensors s).cores = s.cores ∧
    (State.reportSensors s).slices = s.slices ∧ (State.reportSensors s).hbmcs = s.hbmcs ∧
    (State.reportSensors s).bdies = s.bdies ∧ (State.reportSensors s).ports = s.ports ∧
    (State.reportSensors s).nodes = s.nodes ∧ (State.reportSensors s).time = s.time ∧
    (State.reportSensors s).hif = s.hif ∧ (State.reportSensors s).chip = s.chip ∧ (State.reportSensors s).gov = s.gov ∧
    (State.reportSensors s).gdbg = s.gdbg := by
  unfold State.reportSensors
  (repeat' split) <;> simp

@[simp] theorem State.reporting_pending (s : State) (f : State → State)
    (h : ∀ s, (f s).pending = s.pending) : (State.reporting s f).pending = s.pending := by
  unfold State.reporting
  (repeat' split) <;> simp [h]
@[simp] theorem State.reporting_freeCtr (s : State) (f : State → State)
    (h : ∀ s, (f s).freeCtr = s.freeCtr) : (State.reporting s f).freeCtr = s.freeCtr := by
  unfold State.reporting
  (repeat' split) <;> simp [h]
@[simp] theorem State.reporting_gradeS (s : State) (f : State → State)
    (h : ∀ s, (f s).gradeS = s.gradeS) : (State.reporting s f).gradeS = s.gradeS := by
  unfold State.reporting
  (repeat' split) <;> simp [h]
@[simp] theorem State.reporting_ft (s : State) (f : State → State)
    (h : ∀ s, (f s).ft = s.ft) : (State.reporting s f).ft = s.ft := by
  unfold State.reporting
  (repeat' split) <;> simp [h]
@[simp] theorem State.reporting_cls (s : State) (f : State → State)
    (h : ∀ s, (f s).cls = s.cls) : (State.reporting s f).cls = s.cls := by
  unfold State.reporting
  (repeat' split) <;> simp [h]
@[simp] theorem State.reporting_layout (s : State) (f : State → State)
    (h : ∀ s, (f s).layout = s.layout) : (State.reporting s f).layout = s.layout := by
  unfold State.reporting
  (repeat' split) <;> simp [h]
@[simp] theorem State.reporting_setup (s : State) (f : State → State)
    (h : ∀ s, (f s).setup = s.setup) : (State.reporting s f).setup = s.setup := by
  unfold State.reporting
  (repeat' split) <;> simp [h]
@[simp] theorem State.reporting_serial (s : State) (f : State → State)
    (h : ∀ s, (f s).serial = s.serial) : (State.reporting s f).serial = s.serial := by
  unfold State.reporting
  (repeat' split) <;> simp [h]
@[simp] theorem State.reporting_bringing (s : State) (f : State → State)
    (h : ∀ s, (f s).bringing = s.bringing) : (State.reporting s f).bringing = s.bringing := by
  unfold State.reporting
  (repeat' split) <;> simp [h]
@[simp] theorem State.reporting_lmap (s : State) (f : State → State)
    (h : ∀ s, (f s).lmap = s.lmap) : (State.reporting s f).lmap = s.lmap := by
  unfold State.reporting
  (repeat' split) <;> simp [h]
@[simp] theorem State.reporting_parts (s : State) (f : State → State)
    (h : ∀ s, (f s).parts = s.parts) : (State.reporting s f).parts = s.parts := by
  unfold State.reporting
  (repeat' split) <;> simp [h]
@[simp] theorem State.reporting_cores (s : State) (f : State → State)
    (h : ∀ s, (f s).cores = s.cores) : (State.reporting s f).cores = s.cores := by
  unfold State.reporting
  (repeat' split) <;> simp [h]
@[simp] theorem State.reporting_slices (s : State) (f : State → State)
    (h : ∀ s, (f s).slices = s.slices) : (State.reporting s f).slices = s.slices := by
  unfold State.reporting
  (repeat' split) <;> simp [h]
@[simp] theorem State.reporting_hbmcs (s : State) (f : State → State)
    (h : ∀ s, (f s).hbmcs = s.hbmcs) : (State.reporting s f).hbmcs = s.hbmcs := by
  unfold State.reporting
  (repeat' split) <;> simp [h]
@[simp] theorem State.reporting_bdies (s : State) (f : State → State)
    (h : ∀ s, (f s).bdies = s.bdies) : (State.reporting s f).bdies = s.bdies := by
  unfold State.reporting
  (repeat' split) <;> simp [h]
@[simp] theorem State.reporting_ports (s : State) (f : State → State)
    (h : ∀ s, (f s).ports = s.ports) : (State.reporting s f).ports = s.ports := by
  unfold State.reporting
  (repeat' split) <;> simp [h]
@[simp] theorem State.reporting_nodes (s : State) (f : State → State)
    (h : ∀ s, (f s).nodes = s.nodes) : (State.reporting s f).nodes = s.nodes := by
  unfold State.reporting
  (repeat' split) <;> simp [h]
@[simp] theorem State.reporting_time (s : State) (f : State → State)
    (h : ∀ s, (f s).time = s.time) : (State.reporting s f).time = s.time := by
  unfold State.reporting
  (repeat' split) <;> simp [h]
@[simp] theorem State.reporting_hif (s : State) (f : State → State)
    (h : ∀ s, (f s).hif = s.hif) : (State.reporting s f).hif = s.hif := by
  unfold State.reporting
  (repeat' split) <;> simp [h]
@[simp] theorem State.reporting_chip (s : State) (f : State → State)
    (h : ∀ s, (f s).chip = s.chip) : (State.reporting s f).chip = s.chip := by
  unfold State.reporting
  (repeat' split) <;> simp [h]
@[simp] theorem State.reporting_gov (s : State) (f : State → State)
    (h : ∀ s, (f s).gov = s.gov) : (State.reporting s f).gov = s.gov := by
  unfold State.reporting
  (repeat' split) <;> simp [h]
@[simp] theorem State.reporting_gdbg (s : State) (f : State → State)
    (h : ∀ s, (f s).gdbg = s.gdbg) : (State.reporting s f).gdbg = s.gdbg := by
  unfold State.reporting
  (repeat' split) <;> simp [h]

@[simp] theorem State.serve_pending (s : State) (b : Binding) (inRecovery : Bool) (f : State → State)
    (h : ∀ s, (f s).pending = s.pending) : (State.serve s b inRecovery f).pending = s.pending := by
  unfold State.serve
  (repeat' split) <;> simp [h]
@[simp] theorem State.serve_freeCtr (s : State) (b : Binding) (inRecovery : Bool) (f : State → State)
    (h : ∀ s, (f s).freeCtr = s.freeCtr) : (State.serve s b inRecovery f).freeCtr = s.freeCtr := by
  unfold State.serve
  (repeat' split) <;> simp [h]
@[simp] theorem State.serve_gradeS (s : State) (b : Binding) (inRecovery : Bool) (f : State → State)
    (h : ∀ s, (f s).gradeS = s.gradeS) : (State.serve s b inRecovery f).gradeS = s.gradeS := by
  unfold State.serve
  (repeat' split) <;> simp [h]
@[simp] theorem State.serve_ft (s : State) (b : Binding) (inRecovery : Bool) (f : State → State)
    (h : ∀ s, (f s).ft = s.ft) : (State.serve s b inRecovery f).ft = s.ft := by
  unfold State.serve
  (repeat' split) <;> simp [h]
@[simp] theorem State.serve_cls (s : State) (b : Binding) (inRecovery : Bool) (f : State → State)
    (h : ∀ s, (f s).cls = s.cls) : (State.serve s b inRecovery f).cls = s.cls := by
  unfold State.serve
  (repeat' split) <;> simp [h]
@[simp] theorem State.serve_layout (s : State) (b : Binding) (inRecovery : Bool) (f : State → State)
    (h : ∀ s, (f s).layout = s.layout) : (State.serve s b inRecovery f).layout = s.layout := by
  unfold State.serve
  (repeat' split) <;> simp [h]
@[simp] theorem State.serve_setup (s : State) (b : Binding) (inRecovery : Bool) (f : State → State)
    (h : ∀ s, (f s).setup = s.setup) : (State.serve s b inRecovery f).setup = s.setup := by
  unfold State.serve
  (repeat' split) <;> simp [h]
@[simp] theorem State.serve_serial (s : State) (b : Binding) (inRecovery : Bool) (f : State → State)
    (h : ∀ s, (f s).serial = s.serial) : (State.serve s b inRecovery f).serial = s.serial := by
  unfold State.serve
  (repeat' split) <;> simp [h]
@[simp] theorem State.serve_bringing (s : State) (b : Binding) (inRecovery : Bool) (f : State → State)
    (h : ∀ s, (f s).bringing = s.bringing) : (State.serve s b inRecovery f).bringing = s.bringing := by
  unfold State.serve
  (repeat' split) <;> simp [h]
@[simp] theorem State.serve_lmap (s : State) (b : Binding) (inRecovery : Bool) (f : State → State)
    (h : ∀ s, (f s).lmap = s.lmap) : (State.serve s b inRecovery f).lmap = s.lmap := by
  unfold State.serve
  (repeat' split) <;> simp [h]
@[simp] theorem State.serve_parts (s : State) (b : Binding) (inRecovery : Bool) (f : State → State)
    (h : ∀ s, (f s).parts = s.parts) : (State.serve s b inRecovery f).parts = s.parts := by
  unfold State.serve
  (repeat' split) <;> simp [h]
@[simp] theorem State.serve_cores (s : State) (b : Binding) (inRecovery : Bool) (f : State → State)
    (h : ∀ s, (f s).cores = s.cores) : (State.serve s b inRecovery f).cores = s.cores := by
  unfold State.serve
  (repeat' split) <;> simp [h]
@[simp] theorem State.serve_slices (s : State) (b : Binding) (inRecovery : Bool) (f : State → State)
    (h : ∀ s, (f s).slices = s.slices) : (State.serve s b inRecovery f).slices = s.slices := by
  unfold State.serve
  (repeat' split) <;> simp [h]
@[simp] theorem State.serve_hbmcs (s : State) (b : Binding) (inRecovery : Bool) (f : State → State)
    (h : ∀ s, (f s).hbmcs = s.hbmcs) : (State.serve s b inRecovery f).hbmcs = s.hbmcs := by
  unfold State.serve
  (repeat' split) <;> simp [h]
@[simp] theorem State.serve_bdies (s : State) (b : Binding) (inRecovery : Bool) (f : State → State)
    (h : ∀ s, (f s).bdies = s.bdies) : (State.serve s b inRecovery f).bdies = s.bdies := by
  unfold State.serve
  (repeat' split) <;> simp [h]
@[simp] theorem State.serve_ports (s : State) (b : Binding) (inRecovery : Bool) (f : State → State)
    (h : ∀ s, (f s).ports = s.ports) : (State.serve s b inRecovery f).ports = s.ports := by
  unfold State.serve
  (repeat' split) <;> simp [h]
@[simp] theorem State.serve_nodes (s : State) (b : Binding) (inRecovery : Bool) (f : State → State)
    (h : ∀ s, (f s).nodes = s.nodes) : (State.serve s b inRecovery f).nodes = s.nodes := by
  unfold State.serve
  (repeat' split) <;> simp [h]
@[simp] theorem State.serve_time (s : State) (b : Binding) (inRecovery : Bool) (f : State → State)
    (h : ∀ s, (f s).time = s.time) : (State.serve s b inRecovery f).time = s.time := by
  unfold State.serve
  (repeat' split) <;> simp [h]
@[simp] theorem State.serve_out (s : State) (b : Binding) (inRecovery : Bool) (f : State → State)
    (h : ∀ s, (f s).out = s.out) : (State.serve s b inRecovery f).out = s.out := by
  unfold State.serve
  (repeat' split) <;> simp [h]
@[simp] theorem State.serve_hif (s : State) (b : Binding) (inRecovery : Bool) (f : State → State)
    (h : ∀ s, (f s).hif = s.hif) : (State.serve s b inRecovery f).hif = s.hif := by
  unfold State.serve
  (repeat' split) <;> simp [h]
@[simp] theorem State.serve_chip (s : State) (b : Binding) (inRecovery : Bool) (f : State → State)
    (h : ∀ s, (f s).chip = s.chip) : (State.serve s b inRecovery f).chip = s.chip := by
  unfold State.serve
  (repeat' split) <;> simp [h]
@[simp] theorem State.serve_gov (s : State) (b : Binding) (inRecovery : Bool) (f : State → State)
    (h : ∀ s, (f s).gov = s.gov) : (State.serve s b inRecovery f).gov = s.gov := by
  unfold State.serve
  (repeat' split) <;> simp [h]
@[simp] theorem State.serve_mmc (s : State) (b : Binding) (inRecovery : Bool) (f : State → State)
    (h : ∀ s, (f s).mmc = s.mmc) : (State.serve s b inRecovery f).mmc = s.mmc := by
  unfold State.serve
  (repeat' split) <;> simp [h]
@[simp] theorem State.serve_gdbg (s : State) (b : Binding) (inRecovery : Bool) (f : State → State)
    (h : ∀ s, (f s).gdbg = s.gdbg) : (State.serve s b inRecovery f).gdbg = s.gdbg := by
  unfold State.serve
  (repeat' split) <;> simp [h]

@[simp] theorem State.answer_frame (s : State) (b : Binding) (ty cmd : Nat) (cc : PldmCc) (vals : List Int) :
    (State.answer s b ty cmd cc vals).pending = s.pending ∧ (State.answer s b ty cmd cc vals).freeCtr = s.freeCtr ∧
    (State.answer s b ty cmd cc vals).gradeS = s.gradeS ∧ (State.answer s b ty cmd cc vals).ft = s.ft ∧
    (State.answer s b ty cmd cc vals).cls = s.cls ∧ (State.answer s b ty cmd cc vals).layout = s.layout ∧
    (State.answer s b ty cmd cc vals).setup = s.setup ∧ (State.answer s b ty cmd cc vals).serial = s.serial ∧
    (State.answer s b ty cmd cc vals).bringing = s.bringing ∧ (State.answer s b ty cmd cc vals).lmap = s.lmap ∧
    (State.answer s b ty cmd cc vals).parts = s.parts ∧ (State.answer s b ty cmd cc vals).cores = s.cores ∧
    (State.answer s b ty cmd cc vals).slices = s.slices ∧ (State.answer s b ty cmd cc vals).hbmcs = s.hbmcs ∧
    (State.answer s b ty cmd cc vals).bdies = s.bdies ∧ (State.answer s b ty cmd cc vals).ports = s.ports ∧
    (State.answer s b ty cmd cc vals).nodes = s.nodes ∧ (State.answer s b ty cmd cc vals).time = s.time ∧
    (State.answer s b ty cmd cc vals).hif = s.hif ∧ (State.answer s b ty cmd cc vals).chip = s.chip ∧
    (State.answer s b ty cmd cc vals).gov = s.gov ∧ (State.answer s b ty cmd cc vals).mmc = s.mmc ∧
    (State.answer s b ty cmd cc vals).gdbg = s.gdbg := by
  unfold State.answer
  (repeat' split) <;> simp

@[simp] theorem State.doSetEndpointId_frame (s : State) (b : Binding) (eid : Nat) :
    (State.doSetEndpointId s b eid).pending = s.pending ∧ (State.doSetEndpointId s b eid).freeCtr = s.freeCtr ∧
    (State.doSetEndpointId s b eid).gradeS = s.gradeS ∧ (State.doSetEndpointId s b eid).ft = s.ft ∧
    (State.doSetEndpointId s b eid).cls = s.cls ∧ (State.doSetEndpointId s b eid).layout = s.layout ∧
    (State.doSetEndpointId s b eid).setup = s.setup ∧ (State.doSetEndpointId s b eid).serial = s.serial ∧
    (State.doSetEndpointId s b eid).bringing = s.bringing ∧ (State.doSetEndpointId s b eid).lmap = s.lmap ∧
    (State.doSetEndpointId s b eid).parts = s.parts ∧ (State.doSetEndpointId s b eid).cores = s.cores ∧
    (State.doSetEndpointId s b eid).slices = s.slices ∧ (State.doSetEndpointId s b eid).hbmcs = s.hbmcs ∧
    (State.doSetEndpointId s b eid).bdies = s.bdies ∧ (State.doSetEndpointId s b eid).ports = s.ports ∧
    (State.doSetEndpointId s b eid).nodes = s.nodes ∧ (State.doSetEndpointId s b eid).time = s.time ∧
    (State.doSetEndpointId s b eid).hif = s.hif ∧ (State.doSetEndpointId s b eid).chip = s.chip ∧
    (State.doSetEndpointId s b eid).gov = s.gov ∧ (State.doSetEndpointId s b eid).gdbg = s.gdbg := by
  unfold State.doSetEndpointId
  (repeat' split) <;> simp

@[simp] theorem State.doGetTid_frame (s : State) (b : Binding) :
    (State.doGetTid s b).pending = s.pending ∧ (State.doGetTid s b).freeCtr = s.freeCtr ∧
    (State.doGetTid s b).gradeS = s.gradeS ∧ (State.doGetTid s b).ft = s.ft ∧ (State.doGetTid s b).cls = s.cls ∧
    (State.doGetTid s b).layout = s.layout ∧ (State.doGetTid s b).setup = s.setup ∧
    (State.doGetTid s b).serial = s.serial ∧ (State.doGetTid s b).bringing = s.bringing ∧
    (State.doGetTid s b).lmap = s.lmap ∧ (State.doGetTid s b).parts = s.parts ∧ (State.doGetTid s b).cores = s.cores ∧
    (State.doGetTid s b).slices = s.slices ∧ (State.doGetTid s b).hbmcs = s.hbmcs ∧
    (State.doGetTid s b).bdies = s.bdies ∧ (State.doGetTid s b).ports = s.ports ∧
    (State.doGetTid s b).nodes = s.nodes ∧ (State.doGetTid s b).time = s.time ∧ (State.doGetTid s b).hif = s.hif ∧
    (State.doGetTid s b).chip = s.chip ∧ (State.doGetTid s b).gov = s.gov ∧ (State.doGetTid s b).mmc = s.mmc ∧
    (State.doGetTid s b).gdbg = s.gdbg := by
  unfold State.doGetTid
  (repeat' split) <;> simp

@[simp] theorem State.doSetTid_frame (s : State) (b : Binding) (tid : Nat) :
    (State.doSetTid s b tid).pending = s.pending ∧ (State.doSetTid s b tid).freeCtr = s.freeCtr ∧
    (State.doSetTid s b tid).gradeS = s.gradeS ∧ (State.doSetTid s b tid).ft = s.ft ∧
    (State.doSetTid s b tid).cls = s.cls ∧ (State.doSetTid s b tid).layout = s.layout ∧
    (State.doSetTid s b tid).setup = s.setup ∧ (State.doSetTid s b tid).serial = s.serial ∧
    (State.doSetTid s b tid).bringing = s.bringing ∧ (State.doSetTid s b tid).lmap = s.lmap ∧
    (State.doSetTid s b tid).parts = s.parts ∧ (State.doSetTid s b tid).cores = s.cores ∧
    (State.doSetTid s b tid).slices = s.slices ∧ (State.doSetTid s b tid).hbmcs = s.hbmcs ∧
    (State.doSetTid s b tid).bdies = s.bdies ∧ (State.doSetTid s b tid).ports = s.ports ∧
    (State.doSetTid s b tid).nodes = s.nodes ∧ (State.doSetTid s b tid).time = s.time ∧
    (State.doSetTid s b tid).hif = s.hif ∧ (State.doSetTid s b tid).chip = s.chip ∧
    (State.doSetTid s b tid).gov = s.gov ∧ (State.doSetTid s b tid).gdbg = s.gdbg := by
  unfold State.doSetTid
  (repeat' split) <;> simp

@[simp] theorem State.doGetPldmVersion_frame (s : State) (b : Binding) (ty : Nat) :
    (State.doGetPldmVersion s b ty).pending = s.pending ∧ (State.doGetPldmVersion s b ty).freeCtr = s.freeCtr ∧
    (State.doGetPldmVersion s b ty).gradeS = s.gradeS ∧ (State.doGetPldmVersion s b ty).ft = s.ft ∧
    (State.doGetPldmVersion s b ty).cls = s.cls ∧ (State.doGetPldmVersion s b ty).layout = s.layout ∧
    (State.doGetPldmVersion s b ty).setup = s.setup ∧ (State.doGetPldmVersion s b ty).serial = s.serial ∧
    (State.doGetPldmVersion s b ty).bringing = s.bringing ∧ (State.doGetPldmVersion s b ty).lmap = s.lmap ∧
    (State.doGetPldmVersion s b ty).parts = s.parts ∧ (State.doGetPldmVersion s b ty).cores = s.cores ∧
    (State.doGetPldmVersion s b ty).slices = s.slices ∧ (State.doGetPldmVersion s b ty).hbmcs = s.hbmcs ∧
    (State.doGetPldmVersion s b ty).bdies = s.bdies ∧ (State.doGetPldmVersion s b ty).ports = s.ports ∧
    (State.doGetPldmVersion s b ty).nodes = s.nodes ∧ (State.doGetPldmVersion s b ty).time = s.time ∧
    (State.doGetPldmVersion s b ty).hif = s.hif ∧ (State.doGetPldmVersion s b ty).chip = s.chip ∧
    (State.doGetPldmVersion s b ty).gov = s.gov ∧ (State.doGetPldmVersion s b ty).mmc = s.mmc ∧
    (State.doGetPldmVersion s b ty).gdbg = s.gdbg := by
  unfold State.doGetPldmVersion
  (repeat' split) <;> simp

@[simp] theorem State.doGetPldmTypes_frame (s : State) (b : Binding) :
    (State.doGetPldmTypes s b).pending = s.pending ∧ (State.doGetPldmTypes s b).freeCtr = s.freeCtr ∧
    (State.doGetPldmTypes s b).gradeS = s.gradeS ∧ (State.doGetPldmTypes s b).ft = s.ft ∧
    (State.doGetPldmTypes s b).cls = s.cls ∧ (State.doGetPldmTypes s b).layout = s.layout ∧
    (State.doGetPldmTypes s b).setup = s.setup ∧ (State.doGetPldmTypes s b).serial = s.serial ∧
    (State.doGetPldmTypes s b).bringing = s.bringing ∧ (State.doGetPldmTypes s b).lmap = s.lmap ∧
    (State.doGetPldmTypes s b).parts = s.parts ∧ (State.doGetPldmTypes s b).cores = s.cores ∧
    (State.doGetPldmTypes s b).slices = s.slices ∧ (State.doGetPldmTypes s b).hbmcs = s.hbmcs ∧
    (State.doGetPldmTypes s b).bdies = s.bdies ∧ (State.doGetPldmTypes s b).ports = s.ports ∧
    (State.doGetPldmTypes s b).nodes = s.nodes ∧ (State.doGetPldmTypes s b).time = s.time ∧
    (State.doGetPldmTypes s b).hif = s.hif ∧ (State.doGetPldmTypes s b).chip = s.chip ∧
    (State.doGetPldmTypes s b).gov = s.gov ∧ (State.doGetPldmTypes s b).mmc = s.mmc ∧
    (State.doGetPldmTypes s b).gdbg = s.gdbg := by
  unfold State.doGetPldmTypes
  (repeat' split) <;> simp

@[simp] theorem State.doGetPldmCommands_frame (s : State) (b : Binding) (ty : Nat) :
    (State.doGetPldmCommands s b ty).pending = s.pending ∧ (State.doGetPldmCommands s b ty).freeCtr = s.freeCtr ∧
    (State.doGetPldmCommands s b ty).gradeS = s.gradeS ∧ (State.doGetPldmCommands s b ty).ft = s.ft ∧
    (State.doGetPldmCommands s b ty).cls = s.cls ∧ (State.doGetPldmCommands s b ty).layout = s.layout ∧
    (State.doGetPldmCommands s b ty).setup = s.setup ∧ (State.doGetPldmCommands s b ty).serial = s.serial ∧
    (State.doGetPldmCommands s b ty).bringing = s.bringing ∧ (State.doGetPldmCommands s b ty).lmap = s.lmap ∧
    (State.doGetPldmCommands s b ty).parts = s.parts ∧ (State.doGetPldmCommands s b ty).cores = s.cores ∧
    (State.doGetPldmCommands s b ty).slices = s.slices ∧ (State.doGetPldmCommands s b ty).hbmcs = s.hbmcs ∧
    (State.doGetPldmCommands s b ty).bdies = s.bdies ∧ (State.doGetPldmCommands s b ty).ports = s.ports ∧
    (State.doGetPldmCommands s b ty).nodes = s.nodes ∧ (State.doGetPldmCommands s b ty).time = s.time ∧
    (State.doGetPldmCommands s b ty).hif = s.hif ∧ (State.doGetPldmCommands s b ty).chip = s.chip ∧
    (State.doGetPldmCommands s b ty).gov = s.gov ∧ (State.doGetPldmCommands s b ty).mmc = s.mmc ∧
    (State.doGetPldmCommands s b ty).gdbg = s.gdbg := by
  unfold State.doGetPldmCommands
  (repeat' split) <;> simp

@[simp] theorem State.doUnsupported_frame (s : State) (b : Binding) (ty cmd : Nat) :
    (State.doUnsupported s b ty cmd).pending = s.pending ∧ (State.doUnsupported s b ty cmd).freeCtr = s.freeCtr ∧
    (State.doUnsupported s b ty cmd).gradeS = s.gradeS ∧ (State.doUnsupported s b ty cmd).ft = s.ft ∧
    (State.doUnsupported s b ty cmd).cls = s.cls ∧ (State.doUnsupported s b ty cmd).layout = s.layout ∧
    (State.doUnsupported s b ty cmd).setup = s.setup ∧ (State.doUnsupported s b ty cmd).serial = s.serial ∧
    (State.doUnsupported s b ty cmd).bringing = s.bringing ∧ (State.doUnsupported s b ty cmd).lmap = s.lmap ∧
    (State.doUnsupported s b ty cmd).parts = s.parts ∧ (State.doUnsupported s b ty cmd).cores = s.cores ∧
    (State.doUnsupported s b ty cmd).slices = s.slices ∧ (State.doUnsupported s b ty cmd).hbmcs = s.hbmcs ∧
    (State.doUnsupported s b ty cmd).bdies = s.bdies ∧ (State.doUnsupported s b ty cmd).ports = s.ports ∧
    (State.doUnsupported s b ty cmd).nodes = s.nodes ∧ (State.doUnsupported s b ty cmd).time = s.time ∧
    (State.doUnsupported s b ty cmd).hif = s.hif ∧ (State.doUnsupported s b ty cmd).chip = s.chip ∧
    (State.doUnsupported s b ty cmd).gov = s.gov ∧ (State.doUnsupported s b ty cmd).mmc = s.mmc ∧
    (State.doUnsupported s b ty cmd).gdbg = s.gdbg := by
  unfold State.doUnsupported
  (repeat' split) <;> simp

@[simp] theorem State.doGetPdrInfo_frame (s : State) (b : Binding) :
    (State.doGetPdrInfo s b).pending = s.pending ∧ (State.doGetPdrInfo s b).freeCtr = s.freeCtr ∧
    (State.doGetPdrInfo s b).gradeS = s.gradeS ∧ (State.doGetPdrInfo s b).ft = s.ft ∧
    (State.doGetPdrInfo s b).cls = s.cls ∧ (State.doGetPdrInfo s b).layout = s.layout ∧
    (State.doGetPdrInfo s b).setup = s.setup ∧ (State.doGetPdrInfo s b).serial = s.serial ∧
    (State.doGetPdrInfo s b).bringing = s.bringing ∧ (State.doGetPdrInfo s b).lmap = s.lmap ∧
    (State.doGetPdrInfo s b).parts = s.parts ∧ (State.doGetPdrInfo s b).cores = s.cores ∧
    (State.doGetPdrInfo s b).slices = s.slices ∧ (State.doGetPdrInfo s b).hbmcs = s.hbmcs ∧
    (State.doGetPdrInfo s b).bdies = s.bdies ∧ (State.doGetPdrInfo s b).ports = s.ports ∧
    (State.doGetPdrInfo s b).nodes = s.nodes ∧ (State.doGetPdrInfo s b).time = s.time ∧
    (State.doGetPdrInfo s b).hif = s.hif ∧ (State.doGetPdrInfo s b).chip = s.chip ∧
    (State.doGetPdrInfo s b).gov = s.gov ∧ (State.doGetPdrInfo s b).mmc = s.mmc ∧
    (State.doGetPdrInfo s b).gdbg = s.gdbg := by
  unfold State.doGetPdrInfo
  (repeat' split) <;> simp

@[simp] theorem State.doGetPdr_frame (s : State) (b : Binding) (record : Nat) :
    (State.doGetPdr s b record).pending = s.pending ∧ (State.doGetPdr s b record).freeCtr = s.freeCtr ∧
    (State.doGetPdr s b record).gradeS = s.gradeS ∧ (State.doGetPdr s b record).ft = s.ft ∧
    (State.doGetPdr s b record).cls = s.cls ∧ (State.doGetPdr s b record).layout = s.layout ∧
    (State.doGetPdr s b record).setup = s.setup ∧ (State.doGetPdr s b record).serial = s.serial ∧
    (State.doGetPdr s b record).bringing = s.bringing ∧ (State.doGetPdr s b record).lmap = s.lmap ∧
    (State.doGetPdr s b record).parts = s.parts ∧ (State.doGetPdr s b record).cores = s.cores ∧
    (State.doGetPdr s b record).slices = s.slices ∧ (State.doGetPdr s b record).hbmcs = s.hbmcs ∧
    (State.doGetPdr s b record).bdies = s.bdies ∧ (State.doGetPdr s b record).ports = s.ports ∧
    (State.doGetPdr s b record).nodes = s.nodes ∧ (State.doGetPdr s b record).time = s.time ∧
    (State.doGetPdr s b record).hif = s.hif ∧ (State.doGetPdr s b record).chip = s.chip ∧
    (State.doGetPdr s b record).gov = s.gov ∧ (State.doGetPdr s b record).mmc = s.mmc ∧
    (State.doGetPdr s b record).gdbg = s.gdbg := by
  unfold State.doGetPdr
  (repeat' split) <;> simp

@[simp] theorem State.doGetSensorReading_frame (s : State) (b : Binding) (i : Nat) :
    (State.doGetSensorReading s b i).pending = s.pending ∧ (State.doGetSensorReading s b i).freeCtr = s.freeCtr ∧
    (State.doGetSensorReading s b i).gradeS = s.gradeS ∧ (State.doGetSensorReading s b i).ft = s.ft ∧
    (State.doGetSensorReading s b i).cls = s.cls ∧ (State.doGetSensorReading s b i).layout = s.layout ∧
    (State.doGetSensorReading s b i).setup = s.setup ∧ (State.doGetSensorReading s b i).serial = s.serial ∧
    (State.doGetSensorReading s b i).bringing = s.bringing ∧ (State.doGetSensorReading s b i).lmap = s.lmap ∧
    (State.doGetSensorReading s b i).parts = s.parts ∧ (State.doGetSensorReading s b i).cores = s.cores ∧
    (State.doGetSensorReading s b i).slices = s.slices ∧ (State.doGetSensorReading s b i).hbmcs = s.hbmcs ∧
    (State.doGetSensorReading s b i).bdies = s.bdies ∧ (State.doGetSensorReading s b i).ports = s.ports ∧
    (State.doGetSensorReading s b i).nodes = s.nodes ∧ (State.doGetSensorReading s b i).time = s.time ∧
    (State.doGetSensorReading s b i).hif = s.hif ∧ (State.doGetSensorReading s b i).chip = s.chip ∧
    (State.doGetSensorReading s b i).gov = s.gov ∧ (State.doGetSensorReading s b i).mmc = s.mmc ∧
    (State.doGetSensorReading s b i).gdbg = s.gdbg := by
  unfold State.doGetSensorReading
  (repeat' split) <;> simp

@[simp] theorem State.doGetStateReadings_frame (s : State) (b : Binding) (i : Nat) :
    (State.doGetStateReadings s b i).pending = s.pending ∧ (State.doGetStateReadings s b i).freeCtr = s.freeCtr ∧
    (State.doGetStateReadings s b i).gradeS = s.gradeS ∧ (State.doGetStateReadings s b i).ft = s.ft ∧
    (State.doGetStateReadings s b i).cls = s.cls ∧ (State.doGetStateReadings s b i).layout = s.layout ∧
    (State.doGetStateReadings s b i).setup = s.setup ∧ (State.doGetStateReadings s b i).serial = s.serial ∧
    (State.doGetStateReadings s b i).bringing = s.bringing ∧ (State.doGetStateReadings s b i).lmap = s.lmap ∧
    (State.doGetStateReadings s b i).parts = s.parts ∧ (State.doGetStateReadings s b i).cores = s.cores ∧
    (State.doGetStateReadings s b i).slices = s.slices ∧ (State.doGetStateReadings s b i).hbmcs = s.hbmcs ∧
    (State.doGetStateReadings s b i).bdies = s.bdies ∧ (State.doGetStateReadings s b i).ports = s.ports ∧
    (State.doGetStateReadings s b i).nodes = s.nodes ∧ (State.doGetStateReadings s b i).time = s.time ∧
    (State.doGetStateReadings s b i).hif = s.hif ∧ (State.doGetStateReadings s b i).chip = s.chip ∧
    (State.doGetStateReadings s b i).gov = s.gov ∧ (State.doGetStateReadings s b i).mmc = s.mmc ∧
    (State.doGetStateReadings s b i).gdbg = s.gdbg := by
  unfold State.doGetStateReadings
  (repeat' split) <;> simp

@[simp] theorem State.doSensorEnable_frame (s : State) (b : Binding) (i op : Nat) :
    (State.doSensorEnable s b i op).pending = s.pending ∧ (State.doSensorEnable s b i op).freeCtr = s.freeCtr ∧
    (State.doSensorEnable s b i op).gradeS = s.gradeS ∧ (State.doSensorEnable s b i op).ft = s.ft ∧
    (State.doSensorEnable s b i op).cls = s.cls ∧ (State.doSensorEnable s b i op).layout = s.layout ∧
    (State.doSensorEnable s b i op).setup = s.setup ∧ (State.doSensorEnable s b i op).serial = s.serial ∧
    (State.doSensorEnable s b i op).bringing = s.bringing ∧ (State.doSensorEnable s b i op).lmap = s.lmap ∧
    (State.doSensorEnable s b i op).parts = s.parts ∧ (State.doSensorEnable s b i op).cores = s.cores ∧
    (State.doSensorEnable s b i op).slices = s.slices ∧ (State.doSensorEnable s b i op).hbmcs = s.hbmcs ∧
    (State.doSensorEnable s b i op).bdies = s.bdies ∧ (State.doSensorEnable s b i op).ports = s.ports ∧
    (State.doSensorEnable s b i op).nodes = s.nodes ∧ (State.doSensorEnable s b i op).time = s.time ∧
    (State.doSensorEnable s b i op).hif = s.hif ∧ (State.doSensorEnable s b i op).chip = s.chip ∧
    (State.doSensorEnable s b i op).gov = s.gov ∧ (State.doSensorEnable s b i op).gdbg = s.gdbg := by
  unfold State.doSensorEnable
  (repeat' split) <;> simp

@[simp] theorem State.doSetReceiver_frame (s : State) (b : Binding) (eid : Nat) :
    (State.doSetReceiver s b eid).pending = s.pending ∧ (State.doSetReceiver s b eid).freeCtr = s.freeCtr ∧
    (State.doSetReceiver s b eid).gradeS = s.gradeS ∧ (State.doSetReceiver s b eid).ft = s.ft ∧
    (State.doSetReceiver s b eid).cls = s.cls ∧ (State.doSetReceiver s b eid).layout = s.layout ∧
    (State.doSetReceiver s b eid).setup = s.setup ∧ (State.doSetReceiver s b eid).serial = s.serial ∧
    (State.doSetReceiver s b eid).bringing = s.bringing ∧ (State.doSetReceiver s b eid).lmap = s.lmap ∧
    (State.doSetReceiver s b eid).parts = s.parts ∧ (State.doSetReceiver s b eid).cores = s.cores ∧
    (State.doSetReceiver s b eid).slices = s.slices ∧ (State.doSetReceiver s b eid).hbmcs = s.hbmcs ∧
    (State.doSetReceiver s b eid).bdies = s.bdies ∧ (State.doSetReceiver s b eid).ports = s.ports ∧
    (State.doSetReceiver s b eid).nodes = s.nodes ∧ (State.doSetReceiver s b eid).time = s.time ∧
    (State.doSetReceiver s b eid).hif = s.hif ∧ (State.doSetReceiver s b eid).chip = s.chip ∧
    (State.doSetReceiver s b eid).gov = s.gov ∧ (State.doSetReceiver s b eid).gdbg = s.gdbg := by
  unfold State.doSetReceiver
  (repeat' split) <;> simp

@[simp] theorem State.doQueryIds_frame (s : State) (b : Binding) :
    (State.doQueryIds s b).pending = s.pending ∧ (State.doQueryIds s b).freeCtr = s.freeCtr ∧
    (State.doQueryIds s b).gradeS = s.gradeS ∧ (State.doQueryIds s b).ft = s.ft ∧ (State.doQueryIds s b).cls = s.cls ∧
    (State.doQueryIds s b).layout = s.layout ∧ (State.doQueryIds s b).setup = s.setup ∧
    (State.doQueryIds s b).serial = s.serial ∧ (State.doQueryIds s b).bringing = s.bringing ∧
    (State.doQueryIds s b).lmap = s.lmap ∧ (State.doQueryIds s b).parts = s.parts ∧
    (State.doQueryIds s b).cores = s.cores ∧ (State.doQueryIds s b).slices = s.slices ∧
    (State.doQueryIds s b).hbmcs = s.hbmcs ∧ (State.doQueryIds s b).bdies = s.bdies ∧
    (State.doQueryIds s b).ports = s.ports ∧ (State.doQueryIds s b).nodes = s.nodes ∧
    (State.doQueryIds s b).time = s.time ∧ (State.doQueryIds s b).hif = s.hif ∧ (State.doQueryIds s b).chip = s.chip ∧
    (State.doQueryIds s b).gov = s.gov ∧ (State.doQueryIds s b).mmc = s.mmc ∧
    (State.doQueryIds s b).gdbg = s.gdbg := by
  unfold State.doQueryIds
  (repeat' split) <;> simp

@[simp] theorem State.doFwParameters_frame (s : State) (b : Binding) :
    (State.doFwParameters s b).pending = s.pending ∧ (State.doFwParameters s b).freeCtr = s.freeCtr ∧
    (State.doFwParameters s b).gradeS = s.gradeS ∧ (State.doFwParameters s b).ft = s.ft ∧
    (State.doFwParameters s b).cls = s.cls ∧ (State.doFwParameters s b).layout = s.layout ∧
    (State.doFwParameters s b).setup = s.setup ∧ (State.doFwParameters s b).serial = s.serial ∧
    (State.doFwParameters s b).bringing = s.bringing ∧ (State.doFwParameters s b).lmap = s.lmap ∧
    (State.doFwParameters s b).parts = s.parts ∧ (State.doFwParameters s b).cores = s.cores ∧
    (State.doFwParameters s b).slices = s.slices ∧ (State.doFwParameters s b).hbmcs = s.hbmcs ∧
    (State.doFwParameters s b).bdies = s.bdies ∧ (State.doFwParameters s b).ports = s.ports ∧
    (State.doFwParameters s b).nodes = s.nodes ∧ (State.doFwParameters s b).time = s.time ∧
    (State.doFwParameters s b).hif = s.hif ∧ (State.doFwParameters s b).chip = s.chip ∧
    (State.doFwParameters s b).gov = s.gov ∧ (State.doFwParameters s b).mmc = s.mmc ∧
    (State.doFwParameters s b).gdbg = s.gdbg := by
  unfold State.doFwParameters
  (repeat' split) <;> simp

@[simp] theorem State.doRequestUpdate_frame (s : State) (b : Binding) (_ncomp : Nat) :
    (State.doRequestUpdate s b _ncomp).pending = s.pending ∧ (State.doRequestUpdate s b _ncomp).freeCtr = s.freeCtr ∧
    (State.doRequestUpdate s b _ncomp).gradeS = s.gradeS ∧ (State.doRequestUpdate s b _ncomp).ft = s.ft ∧
    (State.doRequestUpdate s b _ncomp).cls = s.cls ∧ (State.doRequestUpdate s b _ncomp).layout = s.layout ∧
    (State.doRequestUpdate s b _ncomp).setup = s.setup ∧ (State.doRequestUpdate s b _ncomp).serial = s.serial ∧
    (State.doRequestUpdate s b _ncomp).bringing = s.bringing ∧ (State.doRequestUpdate s b _ncomp).lmap = s.lmap ∧
    (State.doRequestUpdate s b _ncomp).parts = s.parts ∧ (State.doRequestUpdate s b _ncomp).cores = s.cores ∧
    (State.doRequestUpdate s b _ncomp).slices = s.slices ∧ (State.doRequestUpdate s b _ncomp).hbmcs = s.hbmcs ∧
    (State.doRequestUpdate s b _ncomp).bdies = s.bdies ∧ (State.doRequestUpdate s b _ncomp).ports = s.ports ∧
    (State.doRequestUpdate s b _ncomp).nodes = s.nodes ∧ (State.doRequestUpdate s b _ncomp).time = s.time ∧
    (State.doRequestUpdate s b _ncomp).hif = s.hif ∧ (State.doRequestUpdate s b _ncomp).chip = s.chip ∧
    (State.doRequestUpdate s b _ncomp).gov = s.gov ∧ (State.doRequestUpdate s b _ncomp).gdbg = s.gdbg := by
  unfold State.doRequestUpdate
  (repeat' split) <;> simp

@[simp] theorem State.doPassComponent_frame (s : State) (b : Binding) (c : Nat) :
    (State.doPassComponent s b c).pending = s.pending ∧ (State.doPassComponent s b c).freeCtr = s.freeCtr ∧
    (State.doPassComponent s b c).gradeS = s.gradeS ∧ (State.doPassComponent s b c).ft = s.ft ∧
    (State.doPassComponent s b c).cls = s.cls ∧ (State.doPassComponent s b c).layout = s.layout ∧
    (State.doPassComponent s b c).setup = s.setup ∧ (State.doPassComponent s b c).serial = s.serial ∧
    (State.doPassComponent s b c).bringing = s.bringing ∧ (State.doPassComponent s b c).lmap = s.lmap ∧
    (State.doPassComponent s b c).parts = s.parts ∧ (State.doPassComponent s b c).cores = s.cores ∧
    (State.doPassComponent s b c).slices = s.slices ∧ (State.doPassComponent s b c).hbmcs = s.hbmcs ∧
    (State.doPassComponent s b c).bdies = s.bdies ∧ (State.doPassComponent s b c).ports = s.ports ∧
    (State.doPassComponent s b c).nodes = s.nodes ∧ (State.doPassComponent s b c).time = s.time ∧
    (State.doPassComponent s b c).hif = s.hif ∧ (State.doPassComponent s b c).chip = s.chip ∧
    (State.doPassComponent s b c).gov = s.gov ∧ (State.doPassComponent s b c).gdbg = s.gdbg := by
  unfold State.doPassComponent
  (repeat' split) <;> simp

@[simp] theorem State.doUpdateComponent_frame (s : State) (b : Binding) (c : Nat) (img : Bytes) :
    (State.doUpdateComponent s b c img).pending = s.pending ∧ (State.doUpdateComponent s b c img).freeCtr = s.freeCtr ∧
    (State.doUpdateComponent s b c img).gradeS = s.gradeS ∧ (State.doUpdateComponent s b c img).ft = s.ft ∧
    (State.doUpdateComponent s b c img).cls = s.cls ∧ (State.doUpdateComponent s b c img).layout = s.layout ∧
    (State.doUpdateComponent s b c img).setup = s.setup ∧ (State.doUpdateComponent s b c img).serial = s.serial ∧
    (State.doUpdateComponent s b c img).bringing = s.bringing ∧ (State.doUpdateComponent s b c img).lmap = s.lmap ∧
    (State.doUpdateComponent s b c img).parts = s.parts ∧ (State.doUpdateComponent s b c img).cores = s.cores ∧
    (State.doUpdateComponent s b c img).slices = s.slices ∧ (State.doUpdateComponent s b c img).hbmcs = s.hbmcs ∧
    (State.doUpdateComponent s b c img).bdies = s.bdies ∧ (State.doUpdateComponent s b c img).ports = s.ports ∧
    (State.doUpdateComponent s b c img).nodes = s.nodes ∧ (State.doUpdateComponent s b c img).time = s.time ∧
    (State.doUpdateComponent s b c img).chip = s.chip ∧ (State.doUpdateComponent s b c img).gov = s.gov ∧
    (State.doUpdateComponent s b c img).gdbg = s.gdbg := by
  unfold State.doUpdateComponent
  (repeat' split) <;> simp

@[simp] theorem State.doActivate_frame (s : State) (b : Binding) :
    (State.doActivate s b).pending = s.pending ∧ (State.doActivate s b).gradeS = s.gradeS ∧
    (State.doActivate s b).serial = s.serial := by
  unfold State.doActivate
  (repeat' split) <;> simp

@[simp] theorem State.doGetStatus_frame (s : State) (b : Binding) :
    (State.doGetStatus s b).pending = s.pending ∧ (State.doGetStatus s b).freeCtr = s.freeCtr ∧
    (State.doGetStatus s b).gradeS = s.gradeS ∧ (State.doGetStatus s b).ft = s.ft ∧
    (State.doGetStatus s b).cls = s.cls ∧ (State.doGetStatus s b).layout = s.layout ∧
    (State.doGetStatus s b).setup = s.setup ∧ (State.doGetStatus s b).serial = s.serial ∧
    (State.doGetStatus s b).bringing = s.bringing ∧ (State.doGetStatus s b).lmap = s.lmap ∧
    (State.doGetStatus s b).parts = s.parts ∧ (State.doGetStatus s b).cores = s.cores ∧
    (State.doGetStatus s b).slices = s.slices ∧ (State.doGetStatus s b).hbmcs = s.hbmcs ∧
    (State.doGetStatus s b).bdies = s.bdies ∧ (State.doGetStatus s b).ports = s.ports ∧
    (State.doGetStatus s b).nodes = s.nodes ∧ (State.doGetStatus s b).time = s.time ∧
    (State.doGetStatus s b).hif = s.hif ∧ (State.doGetStatus s b).chip = s.chip ∧ (State.doGetStatus s b).gov = s.gov ∧
    (State.doGetStatus s b).mmc = s.mmc ∧ (State.doGetStatus s b).gdbg = s.gdbg := by
  unfold State.doGetStatus
  (repeat' split) <;> simp

@[simp] theorem State.doCancelComponent_frame (s : State) (b : Binding) :
    (State.doCancelComponent s b).pending = s.pending ∧ (State.doCancelComponent s b).freeCtr = s.freeCtr ∧
    (State.doCancelComponent s b).gradeS = s.gradeS ∧ (State.doCancelComponent s b).ft = s.ft ∧
    (State.doCancelComponent s b).cls = s.cls ∧ (State.doCancelComponent s b).layout = s.layout ∧
    (State.doCancelComponent s b).setup = s.setup ∧ (State.doCancelComponent s b).serial = s.serial ∧
    (State.doCancelComponent s b).bringing = s.bringing ∧ (State.doCancelComponent s b).lmap = s.lmap ∧
    (State.doCancelComponent s b).parts = s.parts ∧ (State.doCancelComponent s b).cores = s.cores ∧
    (State.doCancelComponent s b).slices = s.slices ∧ (State.doCancelComponent s b).hbmcs = s.hbmcs ∧
    (State.doCancelComponent s b).bdies = s.bdies ∧ (State.doCancelComponent s b).ports = s.ports ∧
    (State.doCancelComponent s b).nodes = s.nodes ∧ (State.doCancelComponent s b).time = s.time ∧
    (State.doCancelComponent s b).hif = s.hif ∧ (State.doCancelComponent s b).chip = s.chip ∧
    (State.doCancelComponent s b).gov = s.gov ∧ (State.doCancelComponent s b).mmc = s.mmc ∧
    (State.doCancelComponent s b).gdbg = s.gdbg := by
  unfold State.doCancelComponent
  (repeat' split) <;> simp

@[simp] theorem State.doCancelUpdate_frame (s : State) (b : Binding) :
    (State.doCancelUpdate s b).pending = s.pending ∧ (State.doCancelUpdate s b).freeCtr = s.freeCtr ∧
    (State.doCancelUpdate s b).gradeS = s.gradeS ∧ (State.doCancelUpdate s b).ft = s.ft ∧
    (State.doCancelUpdate s b).cls = s.cls ∧ (State.doCancelUpdate s b).layout = s.layout ∧
    (State.doCancelUpdate s b).setup = s.setup ∧ (State.doCancelUpdate s b).serial = s.serial ∧
    (State.doCancelUpdate s b).bringing = s.bringing ∧ (State.doCancelUpdate s b).lmap = s.lmap ∧
    (State.doCancelUpdate s b).parts = s.parts ∧ (State.doCancelUpdate s b).cores = s.cores ∧
    (State.doCancelUpdate s b).slices = s.slices ∧ (State.doCancelUpdate s b).hbmcs = s.hbmcs ∧
    (State.doCancelUpdate s b).bdies = s.bdies ∧ (State.doCancelUpdate s b).ports = s.ports ∧
    (State.doCancelUpdate s b).nodes = s.nodes ∧ (State.doCancelUpdate s b).time = s.time ∧
    (State.doCancelUpdate s b).hif = s.hif ∧ (State.doCancelUpdate s b).chip = s.chip ∧
    (State.doCancelUpdate s b).gov = s.gov ∧ (State.doCancelUpdate s b).gdbg = s.gdbg := by
  unfold State.doCancelUpdate
  (repeat' split) <;> simp

@[simp] theorem State.doMmcRestart_frame (s : State) (newSlotOk : Bool) :
    (State.doMmcRestart s newSlotOk).pending = s.pending ∧ (State.doMmcRestart s newSlotOk).gradeS = s.gradeS ∧
    (State.doMmcRestart s newSlotOk).ft = s.ft ∧ (State.doMmcRestart s newSlotOk).cls = s.cls ∧
    (State.doMmcRestart s newSlotOk).layout = s.layout ∧ (State.doMmcRestart s newSlotOk).setup = s.setup ∧
    (State.doMmcRestart s newSlotOk).serial = s.serial ∧ (State.doMmcRestart s newSlotOk).bringing = s.bringing ∧
    (State.doMmcRestart s newSlotOk).lmap = s.lmap ∧ (State.doMmcRestart s newSlotOk).slices = s.slices ∧
    (State.doMmcRestart s newSlotOk).hbmcs = s.hbmcs ∧ (State.doMmcRestart s newSlotOk).bdies = s.bdies ∧
    (State.doMmcRestart s newSlotOk).ports = s.ports ∧ (State.doMmcRestart s newSlotOk).nodes = s.nodes ∧
    (State.doMmcRestart s newSlotOk).time = s.time ∧ (State.doMmcRestart s newSlotOk).chip = s.chip ∧
    (State.doMmcRestart s newSlotOk).gov = s.gov ∧ (State.doMmcRestart s newSlotOk).gdbg = s.gdbg := by
  unfold State.doMmcRestart
  simp
  (repeat' split) <;> simp

@[simp] theorem State.doMmcRestartDone_frame (s : State) :
    (State.doMmcRestartDone s).pending = s.pending ∧ (State.doMmcRestartDone s).gradeS = s.gradeS ∧
    (State.doMmcRestartDone s).serial = s.serial := by
  unfold State.doMmcRestartDone
  simp
  (repeat' split) <;> simp

@[simp] theorem State.doCoreActivation_frame (s : State) (p : Nat) :
    (State.doCoreActivation s p).pending = s.pending ∧ (State.doCoreActivation s p).freeCtr = s.freeCtr ∧
    (State.doCoreActivation s p).gradeS = s.gradeS ∧ (State.doCoreActivation s p).ft = s.ft ∧
    (State.doCoreActivation s p).cls = s.cls ∧ (State.doCoreActivation s p).layout = s.layout ∧
    (State.doCoreActivation s p).setup = s.setup ∧ (State.doCoreActivation s p).serial = s.serial ∧
    (State.doCoreActivation s p).bringing = s.bringing ∧ (State.doCoreActivation s p).lmap = s.lmap ∧
    (State.doCoreActivation s p).hbmcs = s.hbmcs ∧ (State.doCoreActivation s p).time = s.time ∧
    (State.doCoreActivation s p).gov = s.gov ∧ (State.doCoreActivation s p).mmc = s.mmc := by
  unfold State.doCoreActivation
  (repeat' split) <;> simp

@[simp] theorem State.doBroadcast_frame (s : State) (img : Bytes) :
    (State.doBroadcast s img).pending = s.pending ∧ (State.doBroadcast s img).freeCtr = s.freeCtr ∧
    (State.doBroadcast s img).gradeS = s.gradeS ∧ (State.doBroadcast s img).ft = s.ft ∧
    (State.doBroadcast s img).cls = s.cls ∧ (State.doBroadcast s img).layout = s.layout ∧
    (State.doBroadcast s img).setup = s.setup ∧ (State.doBroadcast s img).serial = s.serial ∧
    (State.doBroadcast s img).bringing = s.bringing ∧ (State.doBroadcast s img).lmap = s.lmap ∧
    (State.doBroadcast s img).parts = s.parts ∧ (State.doBroadcast s img).cores = s.cores ∧
    (State.doBroadcast s img).slices = s.slices ∧ (State.doBroadcast s img).hbmcs = s.hbmcs ∧
    (State.doBroadcast s img).bdies = s.bdies ∧ (State.doBroadcast s img).ports = s.ports ∧
    (State.doBroadcast s img).nodes = s.nodes ∧ (State.doBroadcast s img).time = s.time ∧
    (State.doBroadcast s img).chip = s.chip ∧ (State.doBroadcast s img).gov = s.gov ∧
    (State.doBroadcast s img).gdbg = s.gdbg := by
  unfold State.doBroadcast
  (repeat' split) <;> simp

@[simp] theorem State.settleEpoch_frame (s : State) :
    (State.settleEpoch s).pending = s.pending ∧ (State.settleEpoch s).freeCtr = s.freeCtr ∧
    (State.settleEpoch s).gradeS = s.gradeS ∧ (State.settleEpoch s).ft = s.ft ∧ (State.settleEpoch s).cls = s.cls ∧
    (State.settleEpoch s).layout = s.layout ∧ (State.settleEpoch s).setup = s.setup ∧
    (State.settleEpoch s).serial = s.serial ∧ (State.settleEpoch s).bringing = s.bringing ∧
    (State.settleEpoch s).lmap = s.lmap ∧ (State.settleEpoch s).parts = s.parts ∧
    (State.settleEpoch s).cores = s.cores ∧ (State.settleEpoch s).slices = s.slices ∧
    (State.settleEpoch s).hbmcs = s.hbmcs ∧ (State.settleEpoch s).bdies = s.bdies ∧
    (State.settleEpoch s).ports = s.ports ∧ (State.settleEpoch s).nodes = s.nodes ∧
    (State.settleEpoch s).time = s.time ∧ (State.settleEpoch s).chip = s.chip ∧ (State.settleEpoch s).gov = s.gov ∧
    (State.settleEpoch s).gdbg = s.gdbg := by
  unfold State.settleEpoch
  (repeat' split) <;> simp

@[simp] theorem State.signed_frame (s : State) (b : Binding) (rsp : Nat) (vals : List Nat) (msg : Bytes) :
    (State.signed s b rsp vals msg).pending = s.pending ∧ (State.signed s b rsp vals msg).freeCtr = s.freeCtr ∧
    (State.signed s b rsp vals msg).gradeS = s.gradeS ∧ (State.signed s b rsp vals msg).ft = s.ft ∧
    (State.signed s b rsp vals msg).cls = s.cls ∧ (State.signed s b rsp vals msg).layout = s.layout ∧
    (State.signed s b rsp vals msg).setup = s.setup ∧ (State.signed s b rsp vals msg).serial = s.serial ∧
    (State.signed s b rsp vals msg).bringing = s.bringing ∧ (State.signed s b rsp vals msg).lmap = s.lmap ∧
    (State.signed s b rsp vals msg).parts = s.parts ∧ (State.signed s b rsp vals msg).cores = s.cores ∧
    (State.signed s b rsp vals msg).slices = s.slices ∧ (State.signed s b rsp vals msg).hbmcs = s.hbmcs ∧
    (State.signed s b rsp vals msg).bdies = s.bdies ∧ (State.signed s b rsp vals msg).ports = s.ports ∧
    (State.signed s b rsp vals msg).nodes = s.nodes ∧ (State.signed s b rsp vals msg).time = s.time ∧
    (State.signed s b rsp vals msg).chip = s.chip ∧ (State.signed s b rsp vals msg).gov = s.gov ∧
    (State.signed s b rsp vals msg).gdbg = s.gdbg := by
  unfold State.signed
  (repeat' split) <;> simp

@[simp] theorem State.spdmStep_pending (s : State) (b : Binding) (least : Nat) (f : State → State)
    (h : ∀ s, (f s).pending = s.pending) : (State.spdmStep s b least f).pending = s.pending := by
  unfold State.spdmStep
  (repeat' split) <;> simp [h]
@[simp] theorem State.spdmStep_freeCtr (s : State) (b : Binding) (least : Nat) (f : State → State)
    (h : ∀ s, (f s).freeCtr = s.freeCtr) : (State.spdmStep s b least f).freeCtr = s.freeCtr := by
  unfold State.spdmStep
  (repeat' split) <;> simp [h]
@[simp] theorem State.spdmStep_gradeS (s : State) (b : Binding) (least : Nat) (f : State → State)
    (h : ∀ s, (f s).gradeS = s.gradeS) : (State.spdmStep s b least f).gradeS = s.gradeS := by
  unfold State.spdmStep
  (repeat' split) <;> simp [h]
@[simp] theorem State.spdmStep_ft (s : State) (b : Binding) (least : Nat) (f : State → State)
    (h : ∀ s, (f s).ft = s.ft) : (State.spdmStep s b least f).ft = s.ft := by
  unfold State.spdmStep
  (repeat' split) <;> simp [h]
@[simp] theorem State.spdmStep_cls (s : State) (b : Binding) (least : Nat) (f : State → State)
    (h : ∀ s, (f s).cls = s.cls) : (State.spdmStep s b least f).cls = s.cls := by
  unfold State.spdmStep
  (repeat' split) <;> simp [h]
@[simp] theorem State.spdmStep_layout (s : State) (b : Binding) (least : Nat) (f : State → State)
    (h : ∀ s, (f s).layout = s.layout) : (State.spdmStep s b least f).layout = s.layout := by
  unfold State.spdmStep
  (repeat' split) <;> simp [h]
@[simp] theorem State.spdmStep_setup (s : State) (b : Binding) (least : Nat) (f : State → State)
    (h : ∀ s, (f s).setup = s.setup) : (State.spdmStep s b least f).setup = s.setup := by
  unfold State.spdmStep
  (repeat' split) <;> simp [h]
@[simp] theorem State.spdmStep_serial (s : State) (b : Binding) (least : Nat) (f : State → State)
    (h : ∀ s, (f s).serial = s.serial) : (State.spdmStep s b least f).serial = s.serial := by
  unfold State.spdmStep
  (repeat' split) <;> simp [h]
@[simp] theorem State.spdmStep_bringing (s : State) (b : Binding) (least : Nat) (f : State → State)
    (h : ∀ s, (f s).bringing = s.bringing) : (State.spdmStep s b least f).bringing = s.bringing := by
  unfold State.spdmStep
  (repeat' split) <;> simp [h]
@[simp] theorem State.spdmStep_lmap (s : State) (b : Binding) (least : Nat) (f : State → State)
    (h : ∀ s, (f s).lmap = s.lmap) : (State.spdmStep s b least f).lmap = s.lmap := by
  unfold State.spdmStep
  (repeat' split) <;> simp [h]
@[simp] theorem State.spdmStep_parts (s : State) (b : Binding) (least : Nat) (f : State → State)
    (h : ∀ s, (f s).parts = s.parts) : (State.spdmStep s b least f).parts = s.parts := by
  unfold State.spdmStep
  (repeat' split) <;> simp [h]
@[simp] theorem State.spdmStep_cores (s : State) (b : Binding) (least : Nat) (f : State → State)
    (h : ∀ s, (f s).cores = s.cores) : (State.spdmStep s b least f).cores = s.cores := by
  unfold State.spdmStep
  (repeat' split) <;> simp [h]
@[simp] theorem State.spdmStep_slices (s : State) (b : Binding) (least : Nat) (f : State → State)
    (h : ∀ s, (f s).slices = s.slices) : (State.spdmStep s b least f).slices = s.slices := by
  unfold State.spdmStep
  (repeat' split) <;> simp [h]
@[simp] theorem State.spdmStep_hbmcs (s : State) (b : Binding) (least : Nat) (f : State → State)
    (h : ∀ s, (f s).hbmcs = s.hbmcs) : (State.spdmStep s b least f).hbmcs = s.hbmcs := by
  unfold State.spdmStep
  (repeat' split) <;> simp [h]
@[simp] theorem State.spdmStep_bdies (s : State) (b : Binding) (least : Nat) (f : State → State)
    (h : ∀ s, (f s).bdies = s.bdies) : (State.spdmStep s b least f).bdies = s.bdies := by
  unfold State.spdmStep
  (repeat' split) <;> simp [h]
@[simp] theorem State.spdmStep_ports (s : State) (b : Binding) (least : Nat) (f : State → State)
    (h : ∀ s, (f s).ports = s.ports) : (State.spdmStep s b least f).ports = s.ports := by
  unfold State.spdmStep
  (repeat' split) <;> simp [h]
@[simp] theorem State.spdmStep_nodes (s : State) (b : Binding) (least : Nat) (f : State → State)
    (h : ∀ s, (f s).nodes = s.nodes) : (State.spdmStep s b least f).nodes = s.nodes := by
  unfold State.spdmStep
  (repeat' split) <;> simp [h]
@[simp] theorem State.spdmStep_time (s : State) (b : Binding) (least : Nat) (f : State → State)
    (h : ∀ s, (f s).time = s.time) : (State.spdmStep s b least f).time = s.time := by
  unfold State.spdmStep
  (repeat' split) <;> simp [h]
@[simp] theorem State.spdmStep_hif (s : State) (b : Binding) (least : Nat) (f : State → State)
    (h : ∀ s, (f s).hif = s.hif) : (State.spdmStep s b least f).hif = s.hif := by
  unfold State.spdmStep
  (repeat' split) <;> simp [h]
@[simp] theorem State.spdmStep_chip (s : State) (b : Binding) (least : Nat) (f : State → State)
    (h : ∀ s, (f s).chip = s.chip) : (State.spdmStep s b least f).chip = s.chip := by
  unfold State.spdmStep
  (repeat' split) <;> simp [h]
@[simp] theorem State.spdmStep_gov (s : State) (b : Binding) (least : Nat) (f : State → State)
    (h : ∀ s, (f s).gov = s.gov) : (State.spdmStep s b least f).gov = s.gov := by
  unfold State.spdmStep
  (repeat' split) <;> simp [h]
@[simp] theorem State.spdmStep_mmc (s : State) (b : Binding) (least : Nat) (f : State → State)
    (h : ∀ s, (f s).mmc = s.mmc) : (State.spdmStep s b least f).mmc = s.mmc := by
  unfold State.spdmStep
  (repeat' split) <;> simp [h]
@[simp] theorem State.spdmStep_gdbg (s : State) (b : Binding) (least : Nat) (f : State → State)
    (h : ∀ s, (f s).gdbg = s.gdbg) : (State.spdmStep s b least f).gdbg = s.gdbg := by
  unfold State.spdmStep
  (repeat' split) <;> simp [h]

@[simp] theorem State.spdmAt_frame (s : State) (b : Binding) (n : Nat) :
    (State.spdmAt s b n).pending = s.pending ∧ (State.spdmAt s b n).freeCtr = s.freeCtr ∧
    (State.spdmAt s b n).gradeS = s.gradeS ∧ (State.spdmAt s b n).ft = s.ft ∧ (State.spdmAt s b n).cls = s.cls ∧
    (State.spdmAt s b n).layout = s.layout ∧ (State.spdmAt s b n).setup = s.setup ∧
    (State.spdmAt s b n).serial = s.serial ∧ (State.spdmAt s b n).bringing = s.bringing ∧
    (State.spdmAt s b n).lmap = s.lmap ∧ (State.spdmAt s b n).parts = s.parts ∧ (State.spdmAt s b n).cores = s.cores ∧
    (State.spdmAt s b n).slices = s.slices ∧ (State.spdmAt s b n).hbmcs = s.hbmcs ∧
    (State.spdmAt s b n).bdies = s.bdies ∧ (State.spdmAt s b n).ports = s.ports ∧
    (State.spdmAt s b n).nodes = s.nodes ∧ (State.spdmAt s b n).time = s.time ∧ (State.spdmAt s b n).out = s.out ∧
    (State.spdmAt s b n).hif = s.hif ∧ (State.spdmAt s b n).chip = s.chip ∧ (State.spdmAt s b n).gov = s.gov ∧
    (State.spdmAt s b n).gdbg = s.gdbg := by
  unfold State.spdmAt
  (repeat' split) <;> simp

@[simp] theorem State.doGetVersion_frame (s : State) (b : Binding) :
    (State.doGetVersion s b).pending = s.pending ∧ (State.doGetVersion s b).freeCtr = s.freeCtr ∧
    (State.doGetVersion s b).gradeS = s.gradeS ∧ (State.doGetVersion s b).ft = s.ft ∧
    (State.doGetVersion s b).cls = s.cls ∧ (State.doGetVersion s b).layout = s.layout ∧
    (State.doGetVersion s b).setup = s.setup ∧ (State.doGetVersion s b).serial = s.serial ∧
    (State.doGetVersion s b).bringing = s.bringing ∧ (State.doGetVersion s b).lmap = s.lmap ∧
    (State.doGetVersion s b).parts = s.parts ∧ (State.doGetVersion s b).cores = s.cores ∧
    (State.doGetVersion s b).slices = s.slices ∧ (State.doGetVersion s b).hbmcs = s.hbmcs ∧
    (State.doGetVersion s b).bdies = s.bdies ∧ (State.doGetVersion s b).ports = s.ports ∧
    (State.doGetVersion s b).nodes = s.nodes ∧ (State.doGetVersion s b).time = s.time ∧
    (State.doGetVersion s b).hif = s.hif ∧ (State.doGetVersion s b).chip = s.chip ∧
    (State.doGetVersion s b).gov = s.gov ∧ (State.doGetVersion s b).gdbg = s.gdbg := by
  unfold State.doGetVersion
  (repeat' split) <;> simp

@[simp] theorem State.doGetCapabilities_frame (s : State) (b : Binding) :
    (State.doGetCapabilities s b).pending = s.pending ∧ (State.doGetCapabilities s b).freeCtr = s.freeCtr ∧
    (State.doGetCapabilities s b).gradeS = s.gradeS ∧ (State.doGetCapabilities s b).ft = s.ft ∧
    (State.doGetCapabilities s b).cls = s.cls ∧ (State.doGetCapabilities s b).layout = s.layout ∧
    (State.doGetCapabilities s b).setup = s.setup ∧ (State.doGetCapabilities s b).serial = s.serial ∧
    (State.doGetCapabilities s b).bringing = s.bringing ∧ (State.doGetCapabilities s b).lmap = s.lmap ∧
    (State.doGetCapabilities s b).parts = s.parts ∧ (State.doGetCapabilities s b).cores = s.cores ∧
    (State.doGetCapabilities s b).slices = s.slices ∧ (State.doGetCapabilities s b).hbmcs = s.hbmcs ∧
    (State.doGetCapabilities s b).bdies = s.bdies ∧ (State.doGetCapabilities s b).ports = s.ports ∧
    (State.doGetCapabilities s b).nodes = s.nodes ∧ (State.doGetCapabilities s b).time = s.time ∧
    (State.doGetCapabilities s b).hif = s.hif ∧ (State.doGetCapabilities s b).chip = s.chip ∧
    (State.doGetCapabilities s b).gov = s.gov ∧ (State.doGetCapabilities s b).gdbg = s.gdbg := by
  unfold State.doGetCapabilities
  (repeat' split) <;> simp

@[simp] theorem State.doNegotiate_frame (s : State) (b : Binding) (offersLms : Bool) :
    (State.doNegotiate s b offersLms).pending = s.pending ∧ (State.doNegotiate s b offersLms).freeCtr = s.freeCtr ∧
    (State.doNegotiate s b offersLms).gradeS = s.gradeS ∧ (State.doNegotiate s b offersLms).ft = s.ft ∧
    (State.doNegotiate s b offersLms).cls = s.cls ∧ (State.doNegotiate s b offersLms).layout = s.layout ∧
    (State.doNegotiate s b offersLms).setup = s.setup ∧ (State.doNegotiate s b offersLms).serial = s.serial ∧
    (State.doNegotiate s b offersLms).bringing = s.bringing ∧ (State.doNegotiate s b offersLms).lmap = s.lmap ∧
    (State.doNegotiate s b offersLms).parts = s.parts ∧ (State.doNegotiate s b offersLms).cores = s.cores ∧
    (State.doNegotiate s b offersLms).slices = s.slices ∧ (State.doNegotiate s b offersLms).hbmcs = s.hbmcs ∧
    (State.doNegotiate s b offersLms).bdies = s.bdies ∧ (State.doNegotiate s b offersLms).ports = s.ports ∧
    (State.doNegotiate s b offersLms).nodes = s.nodes ∧ (State.doNegotiate s b offersLms).time = s.time ∧
    (State.doNegotiate s b offersLms).hif = s.hif ∧ (State.doNegotiate s b offersLms).chip = s.chip ∧
    (State.doNegotiate s b offersLms).gov = s.gov ∧ (State.doNegotiate s b offersLms).gdbg = s.gdbg := by
  unfold State.doNegotiate
  (repeat' split) <;> simp

@[simp] theorem State.doGetDigests_frame (s : State) (b : Binding) :
    (State.doGetDigests s b).pending = s.pending ∧ (State.doGetDigests s b).freeCtr = s.freeCtr ∧
    (State.doGetDigests s b).gradeS = s.gradeS ∧ (State.doGetDigests s b).ft = s.ft ∧
    (State.doGetDigests s b).cls = s.cls ∧ (State.doGetDigests s b).layout = s.layout ∧
    (State.doGetDigests s b).setup = s.setup ∧ (State.doGetDigests s b).serial = s.serial ∧
    (State.doGetDigests s b).bringing = s.bringing ∧ (State.doGetDigests s b).lmap = s.lmap ∧
    (State.doGetDigests s b).parts = s.parts ∧ (State.doGetDigests s b).cores = s.cores ∧
    (State.doGetDigests s b).slices = s.slices ∧ (State.doGetDigests s b).hbmcs = s.hbmcs ∧
    (State.doGetDigests s b).bdies = s.bdies ∧ (State.doGetDigests s b).ports = s.ports ∧
    (State.doGetDigests s b).nodes = s.nodes ∧ (State.doGetDigests s b).time = s.time ∧
    (State.doGetDigests s b).hif = s.hif ∧ (State.doGetDigests s b).chip = s.chip ∧
    (State.doGetDigests s b).gov = s.gov ∧ (State.doGetDigests s b).mmc = s.mmc ∧
    (State.doGetDigests s b).gdbg = s.gdbg := by
  unfold State.doGetDigests
  (repeat' split) <;> simp

@[simp] theorem State.doGetCertificate_frame (s : State) (b : Binding) (slot off len : Nat) :
    (State.doGetCertificate s b slot off len).pending = s.pending ∧
    (State.doGetCertificate s b slot off len).freeCtr = s.freeCtr ∧
    (State.doGetCertificate s b slot off len).gradeS = s.gradeS ∧ (State.doGetCertificate s b slot off len).ft = s.ft ∧
    (State.doGetCertificate s b slot off len).cls = s.cls ∧
    (State.doGetCertificate s b slot off len).layout = s.layout ∧
    (State.doGetCertificate s b slot off len).setup = s.setup ∧
    (State.doGetCertificate s b slot off len).serial = s.serial ∧
    (State.doGetCertificate s b slot off len).bringing = s.bringing ∧
    (State.doGetCertificate s b slot off len).lmap = s.lmap ∧
    (State.doGetCertificate s b slot off len).parts = s.parts ∧
    (State.doGetCertificate s b slot off len).cores = s.cores ∧
    (State.doGetCertificate s b slot off len).slices = s.slices ∧
    (State.doGetCertificate s b slot off len).hbmcs = s.hbmcs ∧
    (State.doGetCertificate s b slot off len).bdies = s.bdies ∧
    (State.doGetCertificate s b slot off len).ports = s.ports ∧
    (State.doGetCertificate s b slot off len).nodes = s.nodes ∧
    (State.doGetCertificate s b slot off len).time = s.time ∧ (State.doGetCertificate s b slot off len).hif = s.hif ∧
    (State.doGetCertificate s b slot off len).chip = s.chip ∧ (State.doGetCertificate s b slot off len).gov = s.gov ∧
    (State.doGetCertificate s b slot off len).mmc = s.mmc ∧
    (State.doGetCertificate s b slot off len).gdbg = s.gdbg := by
  unfold State.doGetCertificate
  (repeat' split) <;> simp

@[simp] theorem State.doChallenge_frame (s : State) (b : Binding) (slot : Nat) (nonce : Bytes) :
    (State.doChallenge s b slot nonce).pending = s.pending ∧ (State.doChallenge s b slot nonce).freeCtr = s.freeCtr ∧
    (State.doChallenge s b slot nonce).gradeS = s.gradeS ∧ (State.doChallenge s b slot nonce).ft = s.ft ∧
    (State.doChallenge s b slot nonce).cls = s.cls ∧ (State.doChallenge s b slot nonce).layout = s.layout ∧
    (State.doChallenge s b slot nonce).setup = s.setup ∧ (State.doChallenge s b slot nonce).serial = s.serial ∧
    (State.doChallenge s b slot nonce).bringing = s.bringing ∧ (State.doChallenge s b slot nonce).lmap = s.lmap ∧
    (State.doChallenge s b slot nonce).parts = s.parts ∧ (State.doChallenge s b slot nonce).cores = s.cores ∧
    (State.doChallenge s b slot nonce).slices = s.slices ∧ (State.doChallenge s b slot nonce).hbmcs = s.hbmcs ∧
    (State.doChallenge s b slot nonce).bdies = s.bdies ∧ (State.doChallenge s b slot nonce).ports = s.ports ∧
    (State.doChallenge s b slot nonce).nodes = s.nodes ∧ (State.doChallenge s b slot nonce).time = s.time ∧
    (State.doChallenge s b slot nonce).chip = s.chip ∧ (State.doChallenge s b slot nonce).gov = s.gov ∧
    (State.doChallenge s b slot nonce).gdbg = s.gdbg := by
  unfold State.doChallenge
  (repeat' split) <;> simp

@[simp] theorem State.doGetMeasurements_frame (s : State) (b : Binding) (i : Nat) (wantSigned : Bool) (nonce : Bytes) :
    (State.doGetMeasurements s b i wantSigned nonce).pending = s.pending ∧
    (State.doGetMeasurements s b i wantSigned nonce).freeCtr = s.freeCtr ∧
    (State.doGetMeasurements s b i wantSigned nonce).gradeS = s.gradeS ∧
    (State.doGetMeasurements s b i wantSigned nonce).ft = s.ft ∧
    (State.doGetMeasurements s b i wantSigned nonce).cls = s.cls ∧
    (State.doGetMeasurements s b i wantSigned nonce).layout = s.layout ∧
    (State.doGetMeasurements s b i wantSigned nonce).setup = s.setup ∧
    (State.doGetMeasurements s b i wantSigned nonce).serial = s.serial ∧
    (State.doGetMeasurements s b i wantSigned nonce).bringing = s.bringing ∧
    (State.doGetMeasurements s b i wantSigned nonce).lmap = s.lmap ∧
    (State.doGetMeasurements s b i wantSigned nonce).parts = s.parts ∧
    (State.doGetMeasurements s b i wantSigned nonce).cores = s.cores ∧
    (State.doGetMeasurements s b i wantSigned nonce).slices = s.slices ∧
    (State.doGetMeasurements s b i wantSigned nonce).hbmcs = s.hbmcs ∧
    (State.doGetMeasurements s b i wantSigned nonce).bdies = s.bdies ∧
    (State.doGetMeasurements s b i wantSigned nonce).ports = s.ports ∧
    (State.doGetMeasurements s b i wantSigned nonce).nodes = s.nodes ∧
    (State.doGetMeasurements s b i wantSigned nonce).time = s.time ∧
    (State.doGetMeasurements s b i wantSigned nonce).chip = s.chip ∧
    (State.doGetMeasurements s b i wantSigned nonce).gov = s.gov ∧
    (State.doGetMeasurements s b i wantSigned nonce).gdbg = s.gdbg := by
  unfold State.doGetMeasurements
  (repeat' split) <;> simp

@[simp] theorem State.doCountersClear_frame (s : State) (c : Nat) :
    (State.doCountersClear s c).pending = s.pending ∧ (State.doCountersClear s c).freeCtr = s.freeCtr ∧
    (State.doCountersClear s c).gradeS = s.gradeS ∧ (State.doCountersClear s c).ft = s.ft ∧
    (State.doCountersClear s c).cls = s.cls ∧ (State.doCountersClear s c).layout = s.layout ∧
    (State.doCountersClear s c).setup = s.setup ∧ (State.doCountersClear s c).serial = s.serial ∧
    (State.doCountersClear s c).bringing = s.bringing ∧ (State.doCountersClear s c).lmap = s.lmap ∧
    (State.doCountersClear s c).parts = s.parts ∧ (State.doCountersClear s c).slices = s.slices ∧
    (State.doCountersClear s c).hbmcs = s.hbmcs ∧ (State.doCountersClear s c).bdies = s.bdies ∧
    (State.doCountersClear s c).ports = s.ports ∧ (State.doCountersClear s c).nodes = s.nodes ∧
    (State.doCountersClear s c).time = s.time ∧ (State.doCountersClear s c).out = s.out ∧
    (State.doCountersClear s c).hif = s.hif ∧ (State.doCountersClear s c).chip = s.chip ∧
    (State.doCountersClear s c).gov = s.gov ∧ (State.doCountersClear s c).mmc = s.mmc ∧
    (State.doCountersClear s c).gdbg = s.gdbg := by
  unfold State.doCountersClear
  (repeat' split) <;> simp

@[simp] theorem State.doGlobalClear_frame (s : State) :
    (State.doGlobalClear s).pending = s.pending ∧ (State.doGlobalClear s).freeCtr = s.freeCtr ∧
    (State.doGlobalClear s).gradeS = s.gradeS ∧ (State.doGlobalClear s).ft = s.ft ∧
    (State.doGlobalClear s).cls = s.cls ∧ (State.doGlobalClear s).layout = s.layout ∧
    (State.doGlobalClear s).setup = s.setup ∧ (State.doGlobalClear s).serial = s.serial ∧
    (State.doGlobalClear s).bringing = s.bringing ∧ (State.doGlobalClear s).lmap = s.lmap ∧
    (State.doGlobalClear s).parts = s.parts ∧ (State.doGlobalClear s).cores = s.cores ∧
    (State.doGlobalClear s).slices = s.slices ∧ (State.doGlobalClear s).hbmcs = s.hbmcs ∧
    (State.doGlobalClear s).bdies = s.bdies ∧ (State.doGlobalClear s).ports = s.ports ∧
    (State.doGlobalClear s).nodes = s.nodes ∧ (State.doGlobalClear s).time = s.time ∧
    (State.doGlobalClear s).out = s.out ∧ (State.doGlobalClear s).hif = s.hif ∧ (State.doGlobalClear s).chip = s.chip ∧
    (State.doGlobalClear s).gov = s.gov ∧ (State.doGlobalClear s).mmc = s.mmc := by
  unfold State.doGlobalClear
  (repeat' split) <;> simp

@[simp] theorem State.doCounterRead_frame (s : State) (k : CounterId) :
    (State.doCounterRead s k).pending = s.pending ∧ (State.doCounterRead s k).freeCtr = s.freeCtr ∧
    (State.doCounterRead s k).gradeS = s.gradeS ∧ (State.doCounterRead s k).ft = s.ft ∧
    (State.doCounterRead s k).cls = s.cls ∧ (State.doCounterRead s k).layout = s.layout ∧
    (State.doCounterRead s k).setup = s.setup ∧ (State.doCounterRead s k).serial = s.serial ∧
    (State.doCounterRead s k).bringing = s.bringing ∧ (State.doCounterRead s k).lmap = s.lmap ∧
    (State.doCounterRead s k).parts = s.parts ∧ (State.doCounterRead s k).slices = s.slices ∧
    (State.doCounterRead s k).hbmcs = s.hbmcs ∧ (State.doCounterRead s k).bdies = s.bdies ∧
    (State.doCounterRead s k).ports = s.ports ∧ (State.doCounterRead s k).nodes = s.nodes ∧
    (State.doCounterRead s k).time = s.time ∧ (State.doCounterRead s k).out = s.out ∧
    (State.doCounterRead s k).hif = s.hif ∧ (State.doCounterRead s k).chip = s.chip ∧
    (State.doCounterRead s k).gov = s.gov ∧ (State.doCounterRead s k).mmc = s.mmc := by
  unfold State.doCounterRead
  (repeat' split) <;> simp

@[simp] theorem State.doLogEnable_frame (s : State) (c : Nat) (sample : Bool) (v : Nat) :
    (State.doLogEnable s c sample v).pending = s.pending ∧ (State.doLogEnable s c sample v).gradeS = s.gradeS ∧
    (State.doLogEnable s c sample v).ft = s.ft ∧ (State.doLogEnable s c sample v).cls = s.cls ∧
    (State.doLogEnable s c sample v).layout = s.layout ∧ (State.doLogEnable s c sample v).setup = s.setup ∧
    (State.doLogEnable s c sample v).serial = s.serial ∧ (State.doLogEnable s c sample v).bringing = s.bringing ∧
    (State.doLogEnable s c sample v).lmap = s.lmap ∧ (State.doLogEnable s c sample v).parts = s.parts ∧
    (State.doLogEnable s c sample v).slices = s.slices ∧ (State.doLogEnable s c sample v).hbmcs = s.hbmcs ∧
    (State.doLogEnable s c sample v).bdies = s.bdies ∧ (State.doLogEnable s c sample v).ports = s.ports ∧
    (State.doLogEnable s c sample v).nodes = s.nodes ∧ (State.doLogEnable s c sample v).time = s.time ∧
    (State.doLogEnable s c sample v).out = s.out ∧ (State.doLogEnable s c sample v).hif = s.hif ∧
    (State.doLogEnable s c sample v).chip = s.chip ∧ (State.doLogEnable s c sample v).gov = s.gov ∧
    (State.doLogEnable s c sample v).mmc = s.mmc ∧ (State.doLogEnable s c sample v).gdbg = s.gdbg := by
  unfold State.doLogEnable
  (repeat' split) <;> simp

@[simp] theorem State.doResplit_frame (s : State) (c : Nat) :
    (State.doResplit s c).pending = s.pending ∧ (State.doResplit s c).freeCtr = s.freeCtr ∧
    (State.doResplit s c).gradeS = s.gradeS ∧ (State.doResplit s c).ft = s.ft ∧ (State.doResplit s c).cls = s.cls ∧
    (State.doResplit s c).layout = s.layout ∧ (State.doResplit s c).setup = s.setup ∧
    (State.doResplit s c).serial = s.serial ∧ (State.doResplit s c).bringing = s.bringing ∧
    (State.doResplit s c).lmap = s.lmap ∧ (State.doResplit s c).parts = s.parts ∧
    (State.doResplit s c).slices = s.slices ∧ (State.doResplit s c).hbmcs = s.hbmcs ∧
    (State.doResplit s c).bdies = s.bdies ∧ (State.doResplit s c).ports = s.ports ∧
    (State.doResplit s c).nodes = s.nodes ∧ (State.doResplit s c).time = s.time ∧ (State.doResplit s c).out = s.out ∧
    (State.doResplit s c).hif = s.hif ∧ (State.doResplit s c).chip = s.chip ∧ (State.doResplit s c).gov = s.gov ∧
    (State.doResplit s c).mmc = s.mmc ∧ (State.doResplit s c).gdbg = s.gdbg := by
  unfold State.doResplit
  (repeat' split) <;> simp

@[simp] theorem State.doLogDrain_frame (s : State) (c r : Nat) :
    (State.doLogDrain s c r).pending = s.pending ∧ (State.doLogDrain s c r).gradeS = s.gradeS ∧
    (State.doLogDrain s c r).ft = s.ft ∧ (State.doLogDrain s c r).cls = s.cls ∧
    (State.doLogDrain s c r).layout = s.layout ∧ (State.doLogDrain s c r).setup = s.setup ∧
    (State.doLogDrain s c r).serial = s.serial ∧ (State.doLogDrain s c r).bringing = s.bringing ∧
    (State.doLogDrain s c r).lmap = s.lmap ∧ (State.doLogDrain s c r).bdies = s.bdies ∧
    (State.doLogDrain s c r).ports = s.ports ∧ (State.doLogDrain s c r).nodes = s.nodes ∧
    (State.doLogDrain s c r).time = s.time ∧ (State.doLogDrain s c r).gov = s.gov ∧
    (State.doLogDrain s c r).mmc = s.mmc := by
  unfold State.doLogDrain
  (repeat' split) <;> simp

@[simp] theorem State.doLogPad_frame (s : State) (c r : Nat) :
    (State.doLogPad s c r).pending = s.pending ∧ (State.doLogPad s c r).freeCtr = s.freeCtr ∧
    (State.doLogPad s c r).gradeS = s.gradeS ∧ (State.doLogPad s c r).ft = s.ft ∧ (State.doLogPad s c r).cls = s.cls ∧
    (State.doLogPad s c r).layout = s.layout ∧ (State.doLogPad s c r).setup = s.setup ∧
    (State.doLogPad s c r).serial = s.serial ∧ (State.doLogPad s c r).bringing = s.bringing ∧
    (State.doLogPad s c r).lmap = s.lmap ∧ (State.doLogPad s c r).parts = s.parts ∧
    (State.doLogPad s c r).slices = s.slices ∧ (State.doLogPad s c r).hbmcs = s.hbmcs ∧
    (State.doLogPad s c r).bdies = s.bdies ∧ (State.doLogPad s c r).ports = s.ports ∧
    (State.doLogPad s c r).nodes = s.nodes ∧ (State.doLogPad s c r).time = s.time ∧
    (State.doLogPad s c r).out = s.out ∧ (State.doLogPad s c r).hif = s.hif ∧ (State.doLogPad s c r).chip = s.chip ∧
    (State.doLogPad s c r).gov = s.gov ∧ (State.doLogPad s c r).mmc = s.mmc ∧
    (State.doLogPad s c r).gdbg = s.gdbg := by
  unfold State.doLogPad
  (repeat' split) <;> simp

@[simp] theorem State.doSample_frame (s : State) (c : Nat) :
    (State.doSample s c).pending = s.pending ∧ (State.doSample s c).freeCtr = s.freeCtr ∧
    (State.doSample s c).gradeS = s.gradeS ∧ (State.doSample s c).ft = s.ft ∧ (State.doSample s c).cls = s.cls ∧
    (State.doSample s c).layout = s.layout ∧ (State.doSample s c).setup = s.setup ∧
    (State.doSample s c).serial = s.serial ∧ (State.doSample s c).bringing = s.bringing ∧
    (State.doSample s c).lmap = s.lmap ∧ (State.doSample s c).parts = s.parts ∧
    (State.doSample s c).slices = s.slices ∧ (State.doSample s c).hbmcs = s.hbmcs ∧
    (State.doSample s c).bdies = s.bdies ∧ (State.doSample s c).ports = s.ports ∧
    (State.doSample s c).nodes = s.nodes ∧ (State.doSample s c).time = s.time ∧ (State.doSample s c).out = s.out ∧
    (State.doSample s c).hif = s.hif ∧ (State.doSample s c).chip = s.chip ∧ (State.doSample s c).gov = s.gov ∧
    (State.doSample s c).mmc = s.mmc ∧ (State.doSample s c).gdbg = s.gdbg := by
  unfold State.doSample
  (repeat' split) <;> simp

@[simp] theorem State.ringWrite_frame (s : State) (p base n at' : Nat) (bs : Bytes) :
    (State.ringWrite s p base n at' bs).pending = s.pending ∧ (State.ringWrite s p base n at' bs).gradeS = s.gradeS ∧
    (State.ringWrite s p base n at' bs).ft = s.ft ∧ (State.ringWrite s p base n at' bs).cls = s.cls ∧
    (State.ringWrite s p base n at' bs).layout = s.layout ∧ (State.ringWrite s p base n at' bs).setup = s.setup ∧
    (State.ringWrite s p base n at' bs).serial = s.serial ∧ (State.ringWrite s p base n at' bs).bringing = s.bringing ∧
    (State.ringWrite s p base n at' bs).lmap = s.lmap ∧ (State.ringWrite s p base n at' bs).bdies = s.bdies ∧
    (State.ringWrite s p base n at' bs).ports = s.ports ∧ (State.ringWrite s p base n at' bs).nodes = s.nodes ∧
    (State.ringWrite s p base n at' bs).time = s.time ∧ (State.ringWrite s p base n at' bs).gov = s.gov ∧
    (State.ringWrite s p base n at' bs).mmc = s.mmc := by
  unfold State.ringWrite
  (repeat' split) <;> simp

@[simp] theorem State.doGlobalSample_frame (s : State) :
    (State.doGlobalSample s).pending = s.pending ∧ (State.doGlobalSample s).gradeS = s.gradeS ∧
    (State.doGlobalSample s).ft = s.ft ∧ (State.doGlobalSample s).cls = s.cls ∧
    (State.doGlobalSample s).layout = s.layout ∧ (State.doGlobalSample s).setup = s.setup ∧
    (State.doGlobalSample s).serial = s.serial ∧ (State.doGlobalSample s).bringing = s.bringing ∧
    (State.doGlobalSample s).lmap = s.lmap ∧ (State.doGlobalSample s).bdies = s.bdies ∧
    (State.doGlobalSample s).ports = s.ports ∧ (State.doGlobalSample s).nodes = s.nodes ∧
    (State.doGlobalSample s).time = s.time ∧ (State.doGlobalSample s).gov = s.gov ∧
    (State.doGlobalSample s).mmc = s.mmc := by
  unfold State.doGlobalSample
  (repeat' split) <;> simp

@[simp] theorem State.doTagBreak_frame (s : State) (l q : Nat) :
    (State.doTagBreak s l q).pending = s.pending ∧ (State.doTagBreak s l q).gradeS = s.gradeS ∧
    (State.doTagBreak s l q).ft = s.ft ∧ (State.doTagBreak s l q).cls = s.cls ∧
    (State.doTagBreak s l q).layout = s.layout ∧ (State.doTagBreak s l q).setup = s.setup ∧
    (State.doTagBreak s l q).serial = s.serial ∧ (State.doTagBreak s l q).bringing = s.bringing ∧
    (State.doTagBreak s l q).lmap = s.lmap ∧ (State.doTagBreak s l q).slices = s.slices ∧
    (State.doTagBreak s l q).hbmcs = s.hbmcs ∧ (State.doTagBreak s l q).bdies = s.bdies ∧
    (State.doTagBreak s l q).ports = s.ports ∧ (State.doTagBreak s l q).nodes = s.nodes ∧
    (State.doTagBreak s l q).time = s.time ∧ (State.doTagBreak s l q).hif = s.hif ∧
    (State.doTagBreak s l q).chip = s.chip ∧ (State.doTagBreak s l q).gov = s.gov ∧
    (State.doTagBreak s l q).mmc = s.mmc ∧ (State.doTagBreak s l q).gdbg = s.gdbg := by
  unfold State.doTagBreak
  simp
  (repeat' split) <;> simp

@[simp] theorem State.endPause_frame (s : State) (p : Nat) :
    (State.endPause s p).pending = s.pending ∧ (State.endPause s p).freeCtr = s.freeCtr ∧
    (State.endPause s p).gradeS = s.gradeS ∧ (State.endPause s p).ft = s.ft ∧ (State.endPause s p).cls = s.cls ∧
    (State.endPause s p).layout = s.layout ∧ (State.endPause s p).setup = s.setup ∧
    (State.endPause s p).serial = s.serial ∧ (State.endPause s p).bringing = s.bringing ∧
    (State.endPause s p).lmap = s.lmap ∧ (State.endPause s p).slices = s.slices ∧
    (State.endPause s p).hbmcs = s.hbmcs ∧ (State.endPause s p).bdies = s.bdies ∧
    (State.endPause s p).ports = s.ports ∧ (State.endPause s p).nodes = s.nodes ∧ (State.endPause s p).time = s.time ∧
    (State.endPause s p).out = s.out ∧ (State.endPause s p).hif = s.hif ∧ (State.endPause s p).chip = s.chip ∧
    (State.endPause s p).gov = s.gov ∧ (State.endPause s p).mmc = s.mmc ∧ (State.endPause s p).gdbg = s.gdbg := by
  unfold State.endPause
  (repeat' split) <;> simp

@[simp] theorem State.resumeOne_frame (s : State) (c : Nat) :
    (State.resumeOne s c).pending = s.pending ∧ (State.resumeOne s c).gradeS = s.gradeS ∧
    (State.resumeOne s c).ft = s.ft ∧ (State.resumeOne s c).cls = s.cls ∧ (State.resumeOne s c).layout = s.layout ∧
    (State.resumeOne s c).setup = s.setup ∧ (State.resumeOne s c).serial = s.serial ∧
    (State.resumeOne s c).bringing = s.bringing ∧ (State.resumeOne s c).lmap = s.lmap ∧
    (State.resumeOne s c).parts = s.parts ∧ (State.resumeOne s c).slices = s.slices ∧
    (State.resumeOne s c).hbmcs = s.hbmcs ∧ (State.resumeOne s c).bdies = s.bdies ∧
    (State.resumeOne s c).ports = s.ports ∧ (State.resumeOne s c).nodes = s.nodes ∧
    (State.resumeOne s c).time = s.time ∧ (State.resumeOne s c).out = s.out ∧ (State.resumeOne s c).hif = s.hif ∧
    (State.resumeOne s c).chip = s.chip ∧ (State.resumeOne s c).gov = s.gov ∧ (State.resumeOne s c).mmc = s.mmc ∧
    (State.resumeOne s c).gdbg = s.gdbg := by
  unfold State.resumeOne
  (repeat' split) <;> simp

@[simp] theorem State.doCoreResume_frame (s : State) (c : Nat) :
    (State.doCoreResume s c).pending = s.pending ∧ (State.doCoreResume s c).gradeS = s.gradeS ∧
    (State.doCoreResume s c).ft = s.ft ∧ (State.doCoreResume s c).cls = s.cls ∧
    (State.doCoreResume s c).layout = s.layout ∧ (State.doCoreResume s c).setup = s.setup ∧
    (State.doCoreResume s c).serial = s.serial ∧ (State.doCoreResume s c).bringing = s.bringing ∧
    (State.doCoreResume s c).lmap = s.lmap ∧ (State.doCoreResume s c).slices = s.slices ∧
    (State.doCoreResume s c).hbmcs = s.hbmcs ∧ (State.doCoreResume s c).bdies = s.bdies ∧
    (State.doCoreResume s c).ports = s.ports ∧ (State.doCoreResume s c).nodes = s.nodes ∧
    (State.doCoreResume s c).time = s.time ∧ (State.doCoreResume s c).out = s.out ∧
    (State.doCoreResume s c).hif = s.hif ∧ (State.doCoreResume s c).chip = s.chip ∧
    (State.doCoreResume s c).gov = s.gov ∧ (State.doCoreResume s c).mmc = s.mmc ∧
    (State.doCoreResume s c).gdbg = s.gdbg := by
  unfold State.doCoreResume
  (repeat' split) <;> simp

@[simp] theorem State.doPartResume_frame (s : State) (p : Nat) :
    (State.doPartResume s p).pending = s.pending ∧ (State.doPartResume s p).gradeS = s.gradeS ∧
    (State.doPartResume s p).ft = s.ft ∧ (State.doPartResume s p).cls = s.cls ∧
    (State.doPartResume s p).layout = s.layout ∧ (State.doPartResume s p).setup = s.setup ∧
    (State.doPartResume s p).serial = s.serial ∧ (State.doPartResume s p).bringing = s.bringing ∧
    (State.doPartResume s p).lmap = s.lmap ∧ (State.doPartResume s p).slices = s.slices ∧
    (State.doPartResume s p).hbmcs = s.hbmcs ∧ (State.doPartResume s p).bdies = s.bdies ∧
    (State.doPartResume s p).ports = s.ports ∧ (State.doPartResume s p).nodes = s.nodes ∧
    (State.doPartResume s p).time = s.time ∧ (State.doPartResume s p).out = s.out ∧
    (State.doPartResume s p).hif = s.hif ∧ (State.doPartResume s p).chip = s.chip ∧
    (State.doPartResume s p).gov = s.gov ∧ (State.doPartResume s p).mmc = s.mmc ∧
    (State.doPartResume s p).gdbg = s.gdbg := by
  unfold State.doPartResume
  (repeat' split) <;> simp

@[simp] theorem State.doPartFreeze_frame (s : State) (p : Nat) :
    (State.doPartFreeze s p).pending = s.pending ∧ (State.doPartFreeze s p).gradeS = s.gradeS ∧
    (State.doPartFreeze s p).ft = s.ft ∧ (State.doPartFreeze s p).cls = s.cls ∧
    (State.doPartFreeze s p).layout = s.layout ∧ (State.doPartFreeze s p).setup = s.setup ∧
    (State.doPartFreeze s p).serial = s.serial ∧ (State.doPartFreeze s p).bringing = s.bringing ∧
    (State.doPartFreeze s p).lmap = s.lmap ∧ (State.doPartFreeze s p).slices = s.slices ∧
    (State.doPartFreeze s p).hbmcs = s.hbmcs ∧ (State.doPartFreeze s p).bdies = s.bdies ∧
    (State.doPartFreeze s p).ports = s.ports ∧ (State.doPartFreeze s p).nodes = s.nodes ∧
    (State.doPartFreeze s p).time = s.time ∧ (State.doPartFreeze s p).out = s.out ∧
    (State.doPartFreeze s p).hif = s.hif ∧ (State.doPartFreeze s p).chip = s.chip ∧
    (State.doPartFreeze s p).gov = s.gov ∧ (State.doPartFreeze s p).mmc = s.mmc ∧
    (State.doPartFreeze s p).gdbg = s.gdbg := by
  unfold State.doPartFreeze
  (repeat' split) <;> simp

@[simp] theorem State.timeEdge_frame (s : State) :
    (State.timeEdge s).pending = s.pending ∧ (State.timeEdge s).freeCtr = s.freeCtr ∧
    (State.timeEdge s).gradeS = s.gradeS ∧ (State.timeEdge s).cls = s.cls ∧ (State.timeEdge s).layout = s.layout ∧
    (State.timeEdge s).setup = s.setup ∧ (State.timeEdge s).serial = s.serial ∧
    (State.timeEdge s).bringing = s.bringing ∧ (State.timeEdge s).lmap = s.lmap ∧ (State.timeEdge s).parts = s.parts ∧
    (State.timeEdge s).cores = s.cores ∧ (State.timeEdge s).slices = s.slices ∧ (State.timeEdge s).hbmcs = s.hbmcs ∧
    (State.timeEdge s).bdies = s.bdies ∧ (State.timeEdge s).ports = s.ports ∧ (State.timeEdge s).nodes = s.nodes ∧
    (State.timeEdge s).chip = s.chip ∧ (State.timeEdge s).gov = s.gov ∧ (State.timeEdge s).mmc = s.mmc ∧
    (State.timeEdge s).gdbg = s.gdbg := by
  unfold State.timeEdge
  (repeat' split) <;> simp

@[simp] theorem State.triggerCore_frame (s : State) (c : Nat) :
    (State.triggerCore s c).pending = s.pending ∧ (State.triggerCore s c).gradeS = s.gradeS ∧
    (State.triggerCore s c).ft = s.ft ∧ (State.triggerCore s c).cls = s.cls ∧
    (State.triggerCore s c).layout = s.layout ∧ (State.triggerCore s c).setup = s.setup ∧
    (State.triggerCore s c).serial = s.serial ∧ (State.triggerCore s c).bringing = s.bringing ∧
    (State.triggerCore s c).lmap = s.lmap ∧ (State.triggerCore s c).parts = s.parts ∧
    (State.triggerCore s c).slices = s.slices ∧ (State.triggerCore s c).hbmcs = s.hbmcs ∧
    (State.triggerCore s c).bdies = s.bdies ∧ (State.triggerCore s c).ports = s.ports ∧
    (State.triggerCore s c).nodes = s.nodes ∧ (State.triggerCore s c).time = s.time ∧
    (State.triggerCore s c).out = s.out ∧ (State.triggerCore s c).hif = s.hif ∧ (State.triggerCore s c).chip = s.chip ∧
    (State.triggerCore s c).gov = s.gov ∧ (State.triggerCore s c).mmc = s.mmc ∧
    (State.triggerCore s c).gdbg = s.gdbg := by
  unfold State.triggerCore
  (repeat' split) <;> simp

@[simp] theorem State.traceEdge_frame (s : State) :
    (State.traceEdge s).pending = s.pending ∧ (State.traceEdge s).gradeS = s.gradeS ∧ (State.traceEdge s).ft = s.ft ∧
    (State.traceEdge s).cls = s.cls ∧ (State.traceEdge s).layout = s.layout ∧ (State.traceEdge s).setup = s.setup ∧
    (State.traceEdge s).serial = s.serial ∧ (State.traceEdge s).bringing = s.bringing ∧
    (State.traceEdge s).lmap = s.lmap ∧ (State.traceEdge s).slices = s.slices ∧ (State.traceEdge s).hbmcs = s.hbmcs ∧
    (State.traceEdge s).bdies = s.bdies ∧ (State.traceEdge s).ports = s.ports ∧ (State.traceEdge s).nodes = s.nodes ∧
    (State.traceEdge s).time = s.time ∧ (State.traceEdge s).out = s.out ∧ (State.traceEdge s).hif = s.hif ∧
    (State.traceEdge s).chip = s.chip ∧ (State.traceEdge s).gov = s.gov ∧ (State.traceEdge s).mmc = s.mmc ∧
    (State.traceEdge s).gdbg = s.gdbg := by
  unfold State.traceEdge
  (repeat' split) <;> simp

@[simp] theorem State.doSyncEdge_frame (s : State) (latched : Bool) (sinceLastUs : Nat) :
    (State.doSyncEdge s latched sinceLastUs).pending = s.pending ∧
    (State.doSyncEdge s latched sinceLastUs).gradeS = s.gradeS ∧ (State.doSyncEdge s latched sinceLastUs).cls = s.cls ∧
    (State.doSyncEdge s latched sinceLastUs).layout = s.layout ∧
    (State.doSyncEdge s latched sinceLastUs).setup = s.setup ∧
    (State.doSyncEdge s latched sinceLastUs).serial = s.serial ∧
    (State.doSyncEdge s latched sinceLastUs).bringing = s.bringing ∧
    (State.doSyncEdge s latched sinceLastUs).lmap = s.lmap ∧
    (State.doSyncEdge s latched sinceLastUs).slices = s.slices ∧
    (State.doSyncEdge s latched sinceLastUs).hbmcs = s.hbmcs ∧
    (State.doSyncEdge s latched sinceLastUs).bdies = s.bdies ∧
    (State.doSyncEdge s latched sinceLastUs).ports = s.ports ∧
    (State.doSyncEdge s latched sinceLastUs).nodes = s.nodes ∧ (State.doSyncEdge s latched sinceLastUs).chip = s.chip ∧
    (State.doSyncEdge s latched sinceLastUs).gov = s.gov ∧ (State.doSyncEdge s latched sinceLastUs).mmc = s.mmc ∧
    (State.doSyncEdge s latched sinceLastUs).gdbg = s.gdbg := by
  unfold State.doSyncEdge
  (repeat' split) <;> simp

end Sys2Proof.Machine
end

