-- ==== Sys2Proof/Laws/FrameRegs.lean ====
section
/-! SUPPORT. Frames: which fields of the state each operation of Machine/Registers, Gates leaves as they are. -/

namespace Sys2Proof.Machine

@[simp] theorem State.writeChannel_frame (s : State) (ch : Chan) (off v : Nat) :
    (State.writeChannel s ch off v).pending = s.pending ∧ (State.writeChannel s ch off v).freeCtr = s.freeCtr ∧
    (State.writeChannel s ch off v).gradeS = s.gradeS ∧ (State.writeChannel s ch off v).ft = s.ft ∧
    (State.writeChannel s ch off v).cls = s.cls ∧ (State.writeChannel s ch off v).layout = s.layout ∧
    (State.writeChannel s ch off v).setup = s.setup ∧ (State.writeChannel s ch off v).serial = s.serial ∧
    (State.writeChannel s ch off v).bringing = s.bringing ∧ (State.writeChannel s ch off v).lmap = s.lmap ∧
    (State.writeChannel s ch off v).parts = s.parts ∧ (State.writeChannel s ch off v).slices = s.slices ∧
    (State.writeChannel s ch off v).hbmcs = s.hbmcs ∧ (State.writeChannel s ch off v).ports = s.ports ∧
    (State.writeChannel s ch off v).nodes = s.nodes ∧ (State.writeChannel s ch off v).time = s.time ∧
    (State.writeChannel s ch off v).out = s.out ∧ (State.writeChannel s ch off v).hif = s.hif ∧
    (State.writeChannel s ch off v).chip = s.chip ∧ (State.writeChannel s ch off v).gov = s.gov ∧
    (State.writeChannel s ch off v).mmc = s.mmc ∧ (State.writeChannel s ch off v).gdbg = s.gdbg := by
  unfold State.writeChannel
  (repeat' split) <;> simp

@[simp] theorem State.writeCoreDbg_frame (s : State) (c off v : Nat) :
    (State.writeCoreDbg s c off v).pending = s.pending ∧ (State.writeCoreDbg s c off v).gradeS = s.gradeS ∧
    (State.writeCoreDbg s c off v).ft = s.ft ∧ (State.writeCoreDbg s c off v).cls = s.cls ∧
    (State.writeCoreDbg s c off v).layout = s.layout ∧ (State.writeCoreDbg s c off v).setup = s.setup ∧
    (State.writeCoreDbg s c off v).serial = s.serial ∧ (State.writeCoreDbg s c off v).bringing = s.bringing ∧
    (State.writeCoreDbg s c off v).lmap = s.lmap ∧ (State.writeCoreDbg s c off v).slices = s.slices ∧
    (State.writeCoreDbg s c off v).hbmcs = s.hbmcs ∧ (State.writeCoreDbg s c off v).bdies = s.bdies ∧
    (State.writeCoreDbg s c off v).ports = s.ports ∧ (State.writeCoreDbg s c off v).nodes = s.nodes ∧
    (State.writeCoreDbg s c off v).time = s.time ∧ (State.writeCoreDbg s c off v).out = s.out ∧
    (State.writeCoreDbg s c off v).hif = s.hif ∧ (State.writeCoreDbg s c off v).chip = s.chip ∧
    (State.writeCoreDbg s c off v).gov = s.gov ∧ (State.writeCoreDbg s c off v).mmc = s.mmc ∧
    (State.writeCoreDbg s c off v).gdbg = s.gdbg := by
  unfold State.writeCoreDbg
  (repeat' split) <;> simp

@[simp] theorem State.writeCore_frame (s : State) (c off v : Nat) :
    (State.writeCore s c off v).pending = s.pending ∧ (State.writeCore s c off v).gradeS = s.gradeS ∧
    (State.writeCore s c off v).ft = s.ft ∧ (State.writeCore s c off v).cls = s.cls ∧
    (State.writeCore s c off v).layout = s.layout ∧ (State.writeCore s c off v).setup = s.setup ∧
    (State.writeCore s c off v).serial = s.serial ∧ (State.writeCore s c off v).bringing = s.bringing ∧
    (State.writeCore s c off v).lmap = s.lmap ∧ (State.writeCore s c off v).slices = s.slices ∧
    (State.writeCore s c off v).hbmcs = s.hbmcs ∧ (State.writeCore s c off v).ports = s.ports ∧
    (State.writeCore s c off v).nodes = s.nodes ∧ (State.writeCore s c off v).time = s.time ∧
    (State.writeCore s c off v).out = s.out ∧ (State.writeCore s c off v).hif = s.hif ∧
    (State.writeCore s c off v).chip = s.chip ∧ (State.writeCore s c off v).gov = s.gov ∧
    (State.writeCore s c off v).mmc = s.mmc ∧ (State.writeCore s c off v).gdbg = s.gdbg := by
  unfold State.writeCore
  (repeat' split) <;> simp

@[simp] theorem State.writeNim_frame (s : State) (b off v : Nat) :
    (State.writeNim s b off v).pending = s.pending ∧ (State.writeNim s b off v).freeCtr = s.freeCtr ∧
    (State.writeNim s b off v).gradeS = s.gradeS ∧ (State.writeNim s b off v).ft = s.ft ∧
    (State.writeNim s b off v).cls = s.cls ∧ (State.writeNim s b off v).layout = s.layout ∧
    (State.writeNim s b off v).setup = s.setup ∧ (State.writeNim s b off v).serial = s.serial ∧
    (State.writeNim s b off v).bringing = s.bringing ∧ (State.writeNim s b off v).lmap = s.lmap ∧
    (State.writeNim s b off v).cores = s.cores ∧ (State.writeNim s b off v).hbmcs = s.hbmcs ∧
    (State.writeNim s b off v).bdies = s.bdies ∧ (State.writeNim s b off v).ports = s.ports ∧
    (State.writeNim s b off v).nodes = s.nodes ∧ (State.writeNim s b off v).time = s.time ∧
    (State.writeNim s b off v).out = s.out ∧ (State.writeNim s b off v).hif = s.hif ∧
    (State.writeNim s b off v).chip = s.chip ∧ (State.writeNim s b off v).gov = s.gov ∧
    (State.writeNim s b off v).mmc = s.mmc := by
  unfold State.writeNim
  (repeat' split) <;> simp

@[simp] theorem State.writeHbmc_frame (s : State) (k off v : Nat) :
    (State.writeHbmc s k off v).pending = s.pending ∧ (State.writeHbmc s k off v).freeCtr = s.freeCtr ∧
    (State.writeHbmc s k off v).gradeS = s.gradeS ∧ (State.writeHbmc s k off v).ft = s.ft ∧
    (State.writeHbmc s k off v).cls = s.cls ∧ (State.writeHbmc s k off v).layout = s.layout ∧
    (State.writeHbmc s k off v).setup = s.setup ∧ (State.writeHbmc s k off v).serial = s.serial ∧
    (State.writeHbmc s k off v).bringing = s.bringing ∧ (State.writeHbmc s k off v).lmap = s.lmap ∧
    (State.writeHbmc s k off v).cores = s.cores ∧ (State.writeHbmc s k off v).slices = s.slices ∧
    (State.writeHbmc s k off v).bdies = s.bdies ∧ (State.writeHbmc s k off v).ports = s.ports ∧
    (State.writeHbmc s k off v).nodes = s.nodes ∧ (State.writeHbmc s k off v).time = s.time ∧
    (State.writeHbmc s k off v).chip = s.chip ∧ (State.writeHbmc s k off v).gov = s.gov ∧
    (State.writeHbmc s k off v).mmc = s.mmc ∧ (State.writeHbmc s k off v).gdbg = s.gdbg := by
  unfold State.writeHbmc
  (repeat' split) <;> simp

@[simp] theorem State.writeBrg_frame (s : State) (m off v : Nat) :
    (State.writeBrg s m off v).pending = s.pending ∧ (State.writeBrg s m off v).freeCtr = s.freeCtr ∧
    (State.writeBrg s m off v).gradeS = s.gradeS ∧ (State.writeBrg s m off v).ft = s.ft ∧
    (State.writeBrg s m off v).cls = s.cls ∧ (State.writeBrg s m off v).layout = s.layout ∧
    (State.writeBrg s m off v).setup = s.setup ∧ (State.writeBrg s m off v).serial = s.serial ∧
    (State.writeBrg s m off v).bringing = s.bringing ∧ (State.writeBrg s m off v).lmap = s.lmap ∧
    (State.writeBrg s m off v).parts = s.parts ∧ (State.writeBrg s m off v).slices = s.slices ∧
    (State.writeBrg s m off v).hbmcs = s.hbmcs ∧ (State.writeBrg s m off v).bdies = s.bdies ∧
    (State.writeBrg s m off v).chip = s.chip ∧ (State.writeBrg s m off v).gov = s.gov ∧
    (State.writeBrg s m off v).mmc = s.mmc := by
  unfold State.writeBrg
  (repeat' split) <;> simp

@[simp] theorem State.writeExch_frame (s : State) (p off v : Nat) :
    (State.writeExch s p off v).pending = s.pending ∧ (State.writeExch s p off v).gradeS = s.gradeS ∧
    (State.writeExch s p off v).ft = s.ft ∧ (State.writeExch s p off v).cls = s.cls ∧
    (State.writeExch s p off v).layout = s.layout ∧ (State.writeExch s p off v).setup = s.setup ∧
    (State.writeExch s p off v).serial = s.serial ∧ (State.writeExch s p off v).bringing = s.bringing ∧
    (State.writeExch s p off v).lmap = s.lmap ∧ (State.writeExch s p off v).cores = s.cores ∧
    (State.writeExch s p off v).slices = s.slices ∧ (State.writeExch s p off v).hbmcs = s.hbmcs ∧
    (State.writeExch s p off v).bdies = s.bdies ∧ (State.writeExch s p off v).ports = s.ports ∧
    (State.writeExch s p off v).time = s.time ∧ (State.writeExch s p off v).chip = s.chip ∧
    (State.writeExch s p off v).gov = s.gov ∧ (State.writeExch s p off v).mmc = s.mmc ∧
    (State.writeExch s p off v).gdbg = s.gdbg := by
  unfold State.writeExch
  (repeat' split) <;> simp

@[simp] theorem State.writeBase_frame (s : State) (b off v : Nat) :
    (State.writeBase s b off v).pending = s.pending ∧ (State.writeBase s b off v).gradeS = s.gradeS ∧
    (State.writeBase s b off v).ft = s.ft ∧ (State.writeBase s b off v).cls = s.cls ∧
    (State.writeBase s b off v).layout = s.layout ∧ (State.writeBase s b off v).setup = s.setup ∧
    (State.writeBase s b off v).serial = s.serial ∧ (State.writeBase s b off v).bringing = s.bringing ∧
    (State.writeBase s b off v).lmap = s.lmap ∧ (State.writeBase s b off v).chip = s.chip ∧
    (State.writeBase s b off v).gov = s.gov ∧ (State.writeBase s b off v).mmc = s.mmc := by
  unfold State.writeBase
  (repeat' split) <;> simp

@[simp] theorem State.writeBootCtrl_frame (s : State) (v : Nat) :
    (State.writeBootCtrl s v).pending = s.pending ∧ (State.writeBootCtrl s v).gradeS = s.gradeS ∧
    (State.writeBootCtrl s v).serial = s.serial := by
  unfold State.writeBootCtrl
  (repeat' split) <;> simp

@[simp] theorem State.writeGov_frame (s : State) (off v : Nat) :
    (State.writeGov s off v).pending = s.pending ∧ (State.writeGov s off v).freeCtr = s.freeCtr ∧
    (State.writeGov s off v).gradeS = s.gradeS ∧ (State.writeGov s off v).ft = s.ft ∧
    (State.writeGov s off v).layout = s.layout ∧ (State.writeGov s off v).setup = s.setup ∧
    (State.writeGov s off v).serial = s.serial ∧ (State.writeGov s off v).bringing = s.bringing ∧
    (State.writeGov s off v).lmap = s.lmap ∧ (State.writeGov s off v).parts = s.parts ∧
    (State.writeGov s off v).cores = s.cores ∧ (State.writeGov s off v).slices = s.slices ∧
    (State.writeGov s off v).hbmcs = s.hbmcs ∧ (State.writeGov s off v).bdies = s.bdies ∧
    (State.writeGov s off v).ports = s.ports ∧ (State.writeGov s off v).nodes = s.nodes ∧
    (State.writeGov s off v).time = s.time ∧ (State.writeGov s off v).out = s.out ∧
    (State.writeGov s off v).hif = s.hif ∧ (State.writeGov s off v).chip = s.chip ∧
    (State.writeGov s off v).mmc = s.mmc ∧ (State.writeGov s off v).gdbg = s.gdbg := by
  unfold State.writeGov
  (repeat' split) <;> simp

@[simp] theorem State.writeGlobalDbg_frame (s : State) (off v : Nat) :
    (State.writeGlobalDbg s off v).pending = s.pending ∧ (State.writeGlobalDbg s off v).gradeS = s.gradeS ∧
    (State.writeGlobalDbg s off v).ft = s.ft ∧ (State.writeGlobalDbg s off v).cls = s.cls ∧
    (State.writeGlobalDbg s off v).layout = s.layout ∧ (State.writeGlobalDbg s off v).setup = s.setup ∧
    (State.writeGlobalDbg s off v).serial = s.serial ∧ (State.writeGlobalDbg s off v).bringing = s.bringing ∧
    (State.writeGlobalDbg s off v).lmap = s.lmap ∧ (State.writeGlobalDbg s off v).slices = s.slices ∧
    (State.writeGlobalDbg s off v).hbmcs = s.hbmcs ∧ (State.writeGlobalDbg s off v).bdies = s.bdies ∧
    (State.writeGlobalDbg s off v).ports = s.ports ∧ (State.writeGlobalDbg s off v).nodes = s.nodes ∧
    (State.writeGlobalDbg s off v).time = s.time ∧ (State.writeGlobalDbg s off v).out = s.out ∧
    (State.writeGlobalDbg s off v).hif = s.hif ∧ (State.writeGlobalDbg s off v).chip = s.chip ∧
    (State.writeGlobalDbg s off v).gov = s.gov ∧ (State.writeGlobalDbg s off v).mmc = s.mmc := by
  unfold State.writeGlobalDbg
  (repeat' split) <;> simp

@[simp] theorem State.writeRing_frame (s : State) (fn : Fn) (n off v : Nat) :
    (State.writeRing s fn n off v).pending = s.pending ∧ (State.writeRing s fn n off v).freeCtr = s.freeCtr ∧
    (State.writeRing s fn n off v).gradeS = s.gradeS ∧ (State.writeRing s fn n off v).ft = s.ft ∧
    (State.writeRing s fn n off v).cls = s.cls ∧ (State.writeRing s fn n off v).layout = s.layout ∧
    (State.writeRing s fn n off v).setup = s.setup ∧ (State.writeRing s fn n off v).serial = s.serial ∧
    (State.writeRing s fn n off v).bringing = s.bringing ∧ (State.writeRing s fn n off v).lmap = s.lmap ∧
    (State.writeRing s fn n off v).cores = s.cores ∧ (State.writeRing s fn n off v).slices = s.slices ∧
    (State.writeRing s fn n off v).hbmcs = s.hbmcs ∧ (State.writeRing s fn n off v).bdies = s.bdies ∧
    (State.writeRing s fn n off v).ports = s.ports ∧ (State.writeRing s fn n off v).nodes = s.nodes ∧
    (State.writeRing s fn n off v).time = s.time ∧ (State.writeRing s fn n off v).gov = s.gov ∧
    (State.writeRing s fn n off v).mmc = s.mmc ∧ (State.writeRing s fn n off v).gdbg = s.gdbg := by
  unfold State.writeRing
  (repeat' split) <;> simp

@[simp] theorem State.writeMsix_frame (s : State) (fn : Fn) (off v : Nat) :
    (State.writeMsix s fn off v).pending = s.pending ∧ (State.writeMsix s fn off v).freeCtr = s.freeCtr ∧
    (State.writeMsix s fn off v).gradeS = s.gradeS ∧ (State.writeMsix s fn off v).ft = s.ft ∧
    (State.writeMsix s fn off v).cls = s.cls ∧ (State.writeMsix s fn off v).layout = s.layout ∧
    (State.writeMsix s fn off v).setup = s.setup ∧ (State.writeMsix s fn off v).serial = s.serial ∧
    (State.writeMsix s fn off v).bringing = s.bringing ∧ (State.writeMsix s fn off v).lmap = s.lmap ∧
    (State.writeMsix s fn off v).parts = s.parts ∧ (State.writeMsix s fn off v).cores = s.cores ∧
    (State.writeMsix s fn off v).slices = s.slices ∧ (State.writeMsix s fn off v).hbmcs = s.hbmcs ∧
    (State.writeMsix s fn off v).bdies = s.bdies ∧ (State.writeMsix s fn off v).ports = s.ports ∧
    (State.writeMsix s fn off v).nodes = s.nodes ∧ (State.writeMsix s fn off v).time = s.time ∧
    (State.writeMsix s fn off v).out = s.out ∧ (State.writeMsix s fn off v).chip = s.chip ∧
    (State.writeMsix s fn off v).gov = s.gov ∧ (State.writeMsix s fn off v).mmc = s.mmc ∧
    (State.writeMsix s fn off v).gdbg = s.gdbg := by
  unfold State.writeMsix
  (repeat' split) <;> simp

@[simp] theorem State.writeHif_frame (s : State) (off v : Nat) :
    (State.writeHif s off v).pending = s.pending ∧ (State.writeHif s off v).freeCtr = s.freeCtr ∧
    (State.writeHif s off v).gradeS = s.gradeS ∧ (State.writeHif s off v).ft = s.ft ∧
    (State.writeHif s off v).cls = s.cls ∧ (State.writeHif s off v).layout = s.layout ∧
    (State.writeHif s off v).setup = s.setup ∧ (State.writeHif s off v).serial = s.serial ∧
    (State.writeHif s off v).bringing = s.bringing ∧ (State.writeHif s off v).lmap = s.lmap ∧
    (State.writeHif s off v).cores = s.cores ∧ (State.writeHif s off v).slices = s.slices ∧
    (State.writeHif s off v).hbmcs = s.hbmcs ∧ (State.writeHif s off v).bdies = s.bdies ∧
    (State.writeHif s off v).ports = s.ports ∧ (State.writeHif s off v).nodes = s.nodes ∧
    (State.writeHif s off v).time = s.time ∧ (State.writeHif s off v).gov = s.gov ∧
    (State.writeHif s off v).mmc = s.mmc := by
  unfold State.writeHif
  (repeat' split) <;> simp

@[simp] theorem State.writeReg_frame (s : State) (a v : Nat) :
    (State.writeReg s a v).pending = s.pending ∧ (State.writeReg s a v).gradeS = s.gradeS ∧
    (State.writeReg s a v).serial = s.serial := by
  unfold State.writeReg
  (repeat' split) <;> simp

@[simp] theorem State.writePf_frame (s : State) (off v : Nat) :
    (State.writePf s off v).pending = s.pending ∧ (State.writePf s off v).gradeS = s.gradeS ∧
    (State.writePf s off v).serial = s.serial := by
  unfold State.writePf
  (repeat' split) <;> simp

@[simp] theorem State.writeVf_frame (s : State) (p off v : Nat) :
    (State.writeVf s p off v).pending = s.pending ∧ (State.writeVf s p off v).freeCtr = s.freeCtr ∧
    (State.writeVf s p off v).gradeS = s.gradeS ∧ (State.writeVf s p off v).ft = s.ft ∧
    (State.writeVf s p off v).cls = s.cls ∧ (State.writeVf s p off v).layout = s.layout ∧
    (State.writeVf s p off v).setup = s.setup ∧ (State.writeVf s p off v).serial = s.serial ∧
    (State.writeVf s p off v).bringing = s.bringing ∧ (State.writeVf s p off v).lmap = s.lmap ∧
    (State.writeVf s p off v).cores = s.cores ∧ (State.writeVf s p off v).slices = s.slices ∧
    (State.writeVf s p off v).hbmcs = s.hbmcs ∧ (State.writeVf s p off v).bdies = s.bdies ∧
    (State.writeVf s p off v).ports = s.ports ∧ (State.writeVf s p off v).nodes = s.nodes ∧
    (State.writeVf s p off v).time = s.time ∧ (State.writeVf s p off v).gov = s.gov ∧
    (State.writeVf s p off v).mmc = s.mmc := by
  unfold State.writeVf
  (repeat' split) <;> simp

@[simp] theorem State.writeWord_frame (s : State) (fn : Fn) (off v : Nat) :
    (State.writeWord s fn off v).pending = s.pending ∧ (State.writeWord s fn off v).gradeS = s.gradeS ∧
    (State.writeWord s fn off v).serial = s.serial := by
  unfold State.writeWord
  (repeat' split) <;> simp

@[simp] theorem State.doRegisterWrite_frame (s : State) (fn : Fn) (off size : Nat) (v : Nat) :
    (State.doRegisterWrite s fn off size v).pending = s.pending ∧
    (State.doRegisterWrite s fn off size v).gradeS = s.gradeS ∧
    (State.doRegisterWrite s fn off size v).serial = s.serial := by
  unfold State.doRegisterWrite
  (repeat' split) <;> simp

@[simp] theorem State.whenOn_pending (s : State) (f : State → State)
    (h : ∀ s, (f s).pending = s.pending) : (State.whenOn s f).pending = s.pending := by
  unfold State.whenOn
  (repeat' split) <;> simp [h]
@[simp] theorem State.whenOn_freeCtr (s : State) (f : State → State)
    (h : ∀ s, (f s).freeCtr = s.freeCtr) : (State.whenOn s f).freeCtr = s.freeCtr := by
  unfold State.whenOn
  (repeat' split) <;> simp [h]
@[simp] theorem State.whenOn_gradeS (s : State) (f : State → State)
    (h : ∀ s, (f s).gradeS = s.gradeS) : (State.whenOn s f).gradeS = s.gradeS := by
  unfold State.whenOn
  (repeat' split) <;> simp [h]
@[simp] theorem State.whenOn_ft (s : State) (f : State → State)
    (h : ∀ s, (f s).ft = s.ft) : (State.whenOn s f).ft = s.ft := by
  unfold State.whenOn
  (repeat' split) <;> simp [h]
@[simp] theorem State.whenOn_cls (s : State) (f : State → State)
    (h : ∀ s, (f s).cls = s.cls) : (State.whenOn s f).cls = s.cls := by
  unfold State.whenOn
  (repeat' split) <;> simp [h]
@[simp] theorem State.whenOn_layout (s : State) (f : State → State)
    (h : ∀ s, (f s).layout = s.layout) : (State.whenOn s f).layout = s.layout := by
  unfold State.whenOn
  (repeat' split) <;> simp [h]
@[simp] theorem State.whenOn_setup (s : State) (f : State → State)
    (h : ∀ s, (f s).setup = s.setup) : (State.whenOn s f).setup = s.setup := by
  unfold State.whenOn
  (repeat' split) <;> simp [h]
@[simp] theorem State.whenOn_serial (s : State) (f : State → State)
    (h : ∀ s, (f s).serial = s.serial) : (State.whenOn s f).serial = s.serial := by
  unfold State.whenOn
  (repeat' split) <;> simp [h]
@[simp] theorem State.whenOn_bringing (s : State) (f : State → State)
    (h : ∀ s, (f s).bringing = s.bringing) : (State.whenOn s f).bringing = s.bringing := by
  unfold State.whenOn
  (repeat' split) <;> simp [h]
@[simp] theorem State.whenOn_lmap (s : State) (f : State → State)
    (h : ∀ s, (f s).lmap = s.lmap) : (State.whenOn s f).lmap = s.lmap := by
  unfold State.whenOn
  (repeat' split) <;> simp [h]
@[simp] theorem State.whenOn_parts (s : State) (f : State → State)
    (h : ∀ s, (f s).parts = s.parts) : (State.whenOn s f).parts = s.parts := by
  unfold State.whenOn
  (repeat' split) <;> simp [h]
@[simp] theorem State.whenOn_cores (s : State) (f : State → State)
    (h : ∀ s, (f s).cores = s.cores) : (State.whenOn s f).cores = s.cores := by
  unfold State.whenOn
  (repeat' split) <;> simp [h]
@[simp] theorem State.whenOn_slices (s : State) (f : State → State)
    (h : ∀ s, (f s).slices = s.slices) : (State.whenOn s f).slices = s.slices := by
  unfold State.whenOn
  (repeat' split) <;> simp [h]
@[simp] theorem State.whenOn_hbmcs (s : State) (f : State → State)
    (h : ∀ s, (f s).hbmcs = s.hbmcs) : (State.whenOn s f).hbmcs = s.hbmcs := by
  unfold State.whenOn
  (repeat' split) <;> simp [h]
@[simp] theorem State.whenOn_bdies (s : State) (f : State → State)
    (h : ∀ s, (f s).bdies = s.bdies) : (State.whenOn s f).bdies = s.bdies := by
  unfold State.whenOn
  (repeat' split) <;> simp [h]
@[simp] theorem State.whenOn_ports (s : State) (f : State → State)
    (h : ∀ s, (f s).ports = s.ports) : (State.whenOn s f).ports = s.ports := by
  unfold State.whenOn
  (repeat' split) <;> simp [h]
@[simp] theorem State.whenOn_nodes (s : State) (f : State → State)
    (h : ∀ s, (f s).nodes = s.nodes) : (State.whenOn s f).nodes = s.nodes := by
  unfold State.whenOn
  (repeat' split) <;> simp [h]
@[simp] theorem State.whenOn_time (s : State) (f : State → State)
    (h : ∀ s, (f s).time = s.time) : (State.whenOn s f).time = s.time := by
  unfold State.whenOn
  (repeat' split) <;> simp [h]
@[simp] theorem State.whenOn_out (s : State) (f : State → State)
    (h : ∀ s, (f s).out = s.out) : (State.whenOn s f).out = s.out := by
  unfold State.whenOn
  (repeat' split) <;> simp [h]
@[simp] theorem State.whenOn_hif (s : State) (f : State → State)
    (h : ∀ s, (f s).hif = s.hif) : (State.whenOn s f).hif = s.hif := by
  unfold State.whenOn
  (repeat' split) <;> simp [h]
@[simp] theorem State.whenOn_chip (s : State) (f : State → State)
    (h : ∀ s, (f s).chip = s.chip) : (State.whenOn s f).chip = s.chip := by
  unfold State.whenOn
  (repeat' split) <;> simp [h]
@[simp] theorem State.whenOn_gov (s : State) (f : State → State)
    (h : ∀ s, (f s).gov = s.gov) : (State.whenOn s f).gov = s.gov := by
  unfold State.whenOn
  (repeat' split) <;> simp [h]
@[simp] theorem State.whenOn_mmc (s : State) (f : State → State)
    (h : ∀ s, (f s).mmc = s.mmc) : (State.whenOn s f).mmc = s.mmc := by
  unfold State.whenOn
  (repeat' split) <;> simp [h]
@[simp] theorem State.whenOn_gdbg (s : State) (f : State → State)
    (h : ∀ s, (f s).gdbg = s.gdbg) : (State.whenOn s f).gdbg = s.gdbg := by
  unfold State.whenOn
  (repeat' split) <;> simp [h]

@[simp] theorem State.engine_pending (s : State) (f : State → State)
    (h : ∀ s, (f s).pending = s.pending) : (State.engine s f).pending = s.pending := by
  unfold State.engine
  (repeat' split) <;> simp [h]
@[simp] theorem State.engine_freeCtr (s : State) (f : State → State)
    (h : ∀ s, (f s).freeCtr = s.freeCtr) : (State.engine s f).freeCtr = s.freeCtr := by
  unfold State.engine
  (repeat' split) <;> simp [h]
@[simp] theorem State.engine_gradeS (s : State) (f : State → State)
    (h : ∀ s, (f s).gradeS = s.gradeS) : (State.engine s f).gradeS = s.gradeS := by
  unfold State.engine
  (repeat' split) <;> simp [h]
@[simp] theorem State.engine_ft (s : State) (f : State → State)
    (h : ∀ s, (f s).ft = s.ft) : (State.engine s f).ft = s.ft := by
  unfold State.engine
  (repeat' split) <;> simp [h]
@[simp] theorem State.engine_cls (s : State) (f : State → State)
    (h : ∀ s, (f s).cls = s.cls) : (State.engine s f).cls = s.cls := by
  unfold State.engine
  (repeat' split) <;> simp [h]
@[simp] theorem State.engine_layout (s : State) (f : State → State)
    (h : ∀ s, (f s).layout = s.layout) : (State.engine s f).layout = s.layout := by
  unfold State.engine
  (repeat' split) <;> simp [h]
@[simp] theorem State.engine_setup (s : State) (f : State → State)
    (h : ∀ s, (f s).setup = s.setup) : (State.engine s f).setup = s.setup := by
  unfold State.engine
  (repeat' split) <;> simp [h]
@[simp] theorem State.engine_serial (s : State) (f : State → State)
    (h : ∀ s, (f s).serial = s.serial) : (State.engine s f).serial = s.serial := by
  unfold State.engine
  (repeat' split) <;> simp [h]
@[simp] theorem State.engine_bringing (s : State) (f : State → State)
    (h : ∀ s, (f s).bringing = s.bringing) : (State.engine s f).bringing = s.bringing := by
  unfold State.engine
  (repeat' split) <;> simp [h]
@[simp] theorem State.engine_lmap (s : State) (f : State → State)
    (h : ∀ s, (f s).lmap = s.lmap) : (State.engine s f).lmap = s.lmap := by
  unfold State.engine
  (repeat' split) <;> simp [h]
@[simp] theorem State.engine_parts (s : State) (f : State → State)
    (h : ∀ s, (f s).parts = s.parts) : (State.engine s f).parts = s.parts := by
  unfold State.engine
  (repeat' split) <;> simp [h]
@[simp] theorem State.engine_cores (s : State) (f : State → State)
    (h : ∀ s, (f s).cores = s.cores) : (State.engine s f).cores = s.cores := by
  unfold State.engine
  (repeat' split) <;> simp [h]
@[simp] theorem State.engine_slices (s : State) (f : State → State)
    (h : ∀ s, (f s).slices = s.slices) : (State.engine s f).slices = s.slices := by
  unfold State.engine
  (repeat' split) <;> simp [h]
@[simp] theorem State.engine_hbmcs (s : State) (f : State → State)
    (h : ∀ s, (f s).hbmcs = s.hbmcs) : (State.engine s f).hbmcs = s.hbmcs := by
  unfold State.engine
  (repeat' split) <;> simp [h]
@[simp] theorem State.engine_bdies (s : State) (f : State → State)
    (h : ∀ s, (f s).bdies = s.bdies) : (State.engine s f).bdies = s.bdies := by
  unfold State.engine
  (repeat' split) <;> simp [h]
@[simp] theorem State.engine_ports (s : State) (f : State → State)
    (h : ∀ s, (f s).ports = s.ports) : (State.engine s f).ports = s.ports := by
  unfold State.engine
  (repeat' split) <;> simp [h]
@[simp] theorem State.engine_nodes (s : State) (f : State → State)
    (h : ∀ s, (f s).nodes = s.nodes) : (State.engine s f).nodes = s.nodes := by
  unfold State.engine
  (repeat' split) <;> simp [h]
@[simp] theorem State.engine_time (s : State) (f : State → State)
    (h : ∀ s, (f s).time = s.time) : (State.engine s f).time = s.time := by
  unfold State.engine
  (repeat' split) <;> simp [h]
@[simp] theorem State.engine_out (s : State) (f : State → State)
    (h : ∀ s, (f s).out = s.out) : (State.engine s f).out = s.out := by
  unfold State.engine
  (repeat' split) <;> simp [h]
@[simp] theorem State.engine_hif (s : State) (f : State → State)
    (h : ∀ s, (f s).hif = s.hif) : (State.engine s f).hif = s.hif := by
  unfold State.engine
  (repeat' split) <;> simp [h]
@[simp] theorem State.engine_chip (s : State) (f : State → State)
    (h : ∀ s, (f s).chip = s.chip) : (State.engine s f).chip = s.chip := by
  unfold State.engine
  (repeat' split) <;> simp [h]
@[simp] theorem State.engine_gov (s : State) (f : State → State)
    (h : ∀ s, (f s).gov = s.gov) : (State.engine s f).gov = s.gov := by
  unfold State.engine
  (repeat' split) <;> simp [h]
@[simp] theorem State.engine_mmc (s : State) (f : State → State)
    (h : ∀ s, (f s).mmc = s.mmc) : (State.engine s f).mmc = s.mmc := by
  unfold State.engine
  (repeat' split) <;> simp [h]
@[simp] theorem State.engine_gdbg (s : State) (f : State → State)
    (h : ∀ s, (f s).gdbg = s.gdbg) : (State.engine s f).gdbg = s.gdbg := by
  unfold State.engine
  (repeat' split) <;> simp [h]

@[simp] theorem State.overLink_pending (s : State) (f : State → State)
    (h : ∀ s, (f s).pending = s.pending) : (State.overLink s f).pending = s.pending := by
  unfold State.overLink
  (repeat' split) <;> simp [h]
@[simp] theorem State.overLink_freeCtr (s : State) (f : State → State)
    (h : ∀ s, (f s).freeCtr = s.freeCtr) : (State.overLink s f).freeCtr = s.freeCtr := by
  unfold State.overLink
  (repeat' split) <;> simp [h]
@[simp] theorem State.overLink_gradeS (s : State) (f : State → State)
    (h : ∀ s, (f s).gradeS = s.gradeS) : (State.overLink s f).gradeS = s.gradeS := by
  unfold State.overLink
  (repeat' split) <;> simp [h]
@[simp] theorem State.overLink_ft (s : State) (f : State → State)
    (h : ∀ s, (f s).ft = s.ft) : (State.overLink s f).ft = s.ft := by
  unfold State.overLink
  (repeat' split) <;> simp [h]
@[simp] theorem State.overLink_cls (s : State) (f : State → State)
    (h : ∀ s, (f s).cls = s.cls) : (State.overLink s f).cls = s.cls := by
  unfold State.overLink
  (repeat' split) <;> simp [h]
@[simp] theorem State.overLink_layout (s : State) (f : State → State)
    (h : ∀ s, (f s).layout = s.layout) : (State.overLink s f).layout = s.layout := by
  unfold State.overLink
  (repeat' split) <;> simp [h]
@[simp] theorem State.overLink_setup (s : State) (f : State → State)
    (h : ∀ s, (f s).setup = s.setup) : (State.overLink s f).setup = s.setup := by
  unfold State.overLink
  (repeat' split) <;> simp [h]
@[simp] theorem State.overLink_serial (s : State) (f : State → State)
    (h : ∀ s, (f s).serial = s.serial) : (State.overLink s f).serial = s.serial := by
  unfold State.overLink
  (repeat' split) <;> simp [h]
@[simp] theorem State.overLink_bringing (s : State) (f : State → State)
    (h : ∀ s, (f s).bringing = s.bringing) : (State.overLink s f).bringing = s.bringing := by
  unfold State.overLink
  (repeat' split) <;> simp [h]
@[simp] theorem State.overLink_lmap (s : State) (f : State → State)
    (h : ∀ s, (f s).lmap = s.lmap) : (State.overLink s f).lmap = s.lmap := by
  unfold State.overLink
  (repeat' split) <;> simp [h]
@[simp] theorem State.overLink_parts (s : State) (f : State → State)
    (h : ∀ s, (f s).parts = s.parts) : (State.overLink s f).parts = s.parts := by
  unfold State.overLink
  (repeat' split) <;> simp [h]
@[simp] theorem State.overLink_cores (s : State) (f : State → State)
    (h : ∀ s, (f s).cores = s.cores) : (State.overLink s f).cores = s.cores := by
  unfold State.overLink
  (repeat' split) <;> simp [h]
@[simp] theorem State.overLink_slices (s : State) (f : State → State)
    (h : ∀ s, (f s).slices = s.slices) : (State.overLink s f).slices = s.slices := by
  unfold State.overLink
  (repeat' split) <;> simp [h]
@[simp] theorem State.overLink_hbmcs (s : State) (f : State → State)
    (h : ∀ s, (f s).hbmcs = s.hbmcs) : (State.overLink s f).hbmcs = s.hbmcs := by
  unfold State.overLink
  (repeat' split) <;> simp [h]
@[simp] theorem State.overLink_bdies (s : State) (f : State → State)
    (h : ∀ s, (f s).bdies = s.bdies) : (State.overLink s f).bdies = s.bdies := by
  unfold State.overLink
  (repeat' split) <;> simp [h]
@[simp] theorem State.overLink_ports (s : State) (f : State → State)
    (h : ∀ s, (f s).ports = s.ports) : (State.overLink s f).ports = s.ports := by
  unfold State.overLink
  (repeat' split) <;> simp [h]
@[simp] theorem State.overLink_nodes (s : State) (f : State → State)
    (h : ∀ s, (f s).nodes = s.nodes) : (State.overLink s f).nodes = s.nodes := by
  unfold State.overLink
  (repeat' split) <;> simp [h]
@[simp] theorem State.overLink_time (s : State) (f : State → State)
    (h : ∀ s, (f s).time = s.time) : (State.overLink s f).time = s.time := by
  unfold State.overLink
  (repeat' split) <;> simp [h]
@[simp] theorem State.overLink_out (s : State) (f : State → State)
    (h : ∀ s, (f s).out = s.out) : (State.overLink s f).out = s.out := by
  unfold State.overLink
  (repeat' split) <;> simp [h]
@[simp] theorem State.overLink_hif (s : State) (f : State → State)
    (h : ∀ s, (f s).hif = s.hif) : (State.overLink s f).hif = s.hif := by
  unfold State.overLink
  (repeat' split) <;> simp [h]
@[simp] theorem State.overLink_chip (s : State) (f : State → State)
    (h : ∀ s, (f s).chip = s.chip) : (State.overLink s f).chip = s.chip := by
  unfold State.overLink
  (repeat' split) <;> simp [h]
@[simp] theorem State.overLink_gov (s : State) (f : State → State)
    (h : ∀ s, (f s).gov = s.gov) : (State.overLink s f).gov = s.gov := by
  unfold State.overLink
  (repeat' split) <;> simp [h]
@[simp] theorem State.overLink_mmc (s : State) (f : State → State)
    (h : ∀ s, (f s).mmc = s.mmc) : (State.overLink s f).mmc = s.mmc := by
  unfold State.overLink
  (repeat' split) <;> simp [h]
@[simp] theorem State.overLink_gdbg (s : State) (f : State → State)
    (h : ∀ s, (f s).gdbg = s.gdbg) : (State.overLink s f).gdbg = s.gdbg := by
  unfold State.overLink
  (repeat' split) <;> simp [h]

@[simp] theorem State.onRails_pending (s : State) (f : State → State)
    (h : ∀ s, (f s).pending = s.pending) : (State.onRails s f).pending = s.pending := by
  unfold State.onRails
  (repeat' split) <;> simp [h]
@[simp] theorem State.onRails_freeCtr (s : State) (f : State → State)
    (h : ∀ s, (f s).freeCtr = s.freeCtr) : (State.onRails s f).freeCtr = s.freeCtr := by
  unfold State.onRails
  (repeat' split) <;> simp [h]
@[simp] theorem State.onRails_gradeS (s : State) (f : State → State)
    (h : ∀ s, (f s).gradeS = s.gradeS) : (State.onRails s f).gradeS = s.gradeS := by
  unfold State.onRails
  (repeat' split) <;> simp [h]
@[simp] theorem State.onRails_ft (s : State) (f : State → State)
    (h : ∀ s, (f s).ft = s.ft) : (State.onRails s f).ft = s.ft := by
  unfold State.onRails
  (repeat' split) <;> simp [h]
@[simp] theorem State.onRails_cls (s : State) (f : State → State)
    (h : ∀ s, (f s).cls = s.cls) : (State.onRails s f).cls = s.cls := by
  unfold State.onRails
  (repeat' split) <;> simp [h]
@[simp] theorem State.onRails_layout (s : State) (f : State → State)
    (h : ∀ s, (f s).layout = s.layout) : (State.onRails s f).layout = s.layout := by
  unfold State.onRails
  (repeat' split) <;> simp [h]
@[simp] theorem State.onRails_setup (s : State) (f : State → State)
    (h : ∀ s, (f s).setup = s.setup) : (State.onRails s f).setup = s.setup := by
  unfold State.onRails
  (repeat' split) <;> simp [h]
@[simp] theorem State.onRails_serial (s : State) (f : State → State)
    (h : ∀ s, (f s).serial = s.serial) : (State.onRails s f).serial = s.serial := by
  unfold State.onRails
  (repeat' split) <;> simp [h]
@[simp] theorem State.onRails_bringing (s : State) (f : State → State)
    (h : ∀ s, (f s).bringing = s.bringing) : (State.onRails s f).bringing = s.bringing := by
  unfold State.onRails
  (repeat' split) <;> simp [h]
@[simp] theorem State.onRails_lmap (s : State) (f : State → State)
    (h : ∀ s, (f s).lmap = s.lmap) : (State.onRails s f).lmap = s.lmap := by
  unfold State.onRails
  (repeat' split) <;> simp [h]
@[simp] theorem State.onRails_parts (s : State) (f : State → State)
    (h : ∀ s, (f s).parts = s.parts) : (State.onRails s f).parts = s.parts := by
  unfold State.onRails
  (repeat' split) <;> simp [h]
@[simp] theorem State.onRails_cores (s : State) (f : State → State)
    (h : ∀ s, (f s).cores = s.cores) : (State.onRails s f).cores = s.cores := by
  unfold State.onRails
  (repeat' split) <;> simp [h]
@[simp] theorem State.onRails_slices (s : State) (f : State → State)
    (h : ∀ s, (f s).slices = s.slices) : (State.onRails s f).slices = s.slices := by
  unfold State.onRails
  (repeat' split) <;> simp [h]
@[simp] theorem State.onRails_hbmcs (s : State) (f : State → State)
    (h : ∀ s, (f s).hbmcs = s.hbmcs) : (State.onRails s f).hbmcs = s.hbmcs := by
  unfold State.onRails
  (repeat' split) <;> simp [h]
@[simp] theorem State.onRails_bdies (s : State) (f : State → State)
    (h : ∀ s, (f s).bdies = s.bdies) : (State.onRails s f).bdies = s.bdies := by
  unfold State.onRails
  (repeat' split) <;> simp [h]
@[simp] theorem State.onRails_ports (s : State) (f : State → State)
    (h : ∀ s, (f s).ports = s.ports) : (State.onRails s f).ports = s.ports := by
  unfold State.onRails
  (repeat' split) <;> simp [h]
@[simp] theorem State.onRails_nodes (s : State) (f : State → State)
    (h : ∀ s, (f s).nodes = s.nodes) : (State.onRails s f).nodes = s.nodes := by
  unfold State.onRails
  (repeat' split) <;> simp [h]
@[simp] theorem State.onRails_time (s : State) (f : State → State)
    (h : ∀ s, (f s).time = s.time) : (State.onRails s f).time = s.time := by
  unfold State.onRails
  (repeat' split) <;> simp [h]
@[simp] theorem State.onRails_out (s : State) (f : State → State)
    (h : ∀ s, (f s).out = s.out) : (State.onRails s f).out = s.out := by
  unfold State.onRails
  (repeat' split) <;> simp [h]
@[simp] theorem State.onRails_hif (s : State) (f : State → State)
    (h : ∀ s, (f s).hif = s.hif) : (State.onRails s f).hif = s.hif := by
  unfold State.onRails
  (repeat' split) <;> simp [h]
@[simp] theorem State.onRails_chip (s : State) (f : State → State)
    (h : ∀ s, (f s).chip = s.chip) : (State.onRails s f).chip = s.chip := by
  unfold State.onRails
  (repeat' split) <;> simp [h]
@[simp] theorem State.onRails_gov (s : State) (f : State → State)
    (h : ∀ s, (f s).gov = s.gov) : (State.onRails s f).gov = s.gov := by
  unfold State.onRails
  (repeat' split) <;> simp [h]
@[simp] theorem State.onRails_mmc (s : State) (f : State → State)
    (h : ∀ s, (f s).mmc = s.mmc) : (State.onRails s f).mmc = s.mmc := by
  unfold State.onRails
  (repeat' split) <;> simp [h]
@[simp] theorem State.onRails_gdbg (s : State) (f : State → State)
    (h : ∀ s, (f s).gdbg = s.gdbg) : (State.onRails s f).gdbg = s.gdbg := by
  unfold State.onRails
  (repeat' split) <;> simp [h]

@[simp] theorem State.doAtomic_frame (s : State) (p addr : Nat) (op : AtomicOp) (flt : MemFault) :
    (State.doAtomic s p addr op flt).pending = s.pending ∧ (State.doAtomic s p addr op flt).gradeS = s.gradeS ∧
    (State.doAtomic s p addr op flt).ft = s.ft ∧ (State.doAtomic s p addr op flt).cls = s.cls ∧
    (State.doAtomic s p addr op flt).layout = s.layout ∧ (State.doAtomic s p addr op flt).setup = s.setup ∧
    (State.doAtomic s p addr op flt).serial = s.serial ∧ (State.doAtomic s p addr op flt).bringing = s.bringing ∧
    (State.doAtomic s p addr op flt).lmap = s.lmap ∧ (State.doAtomic s p addr op flt).bdies = s.bdies ∧
    (State.doAtomic s p addr op flt).ports = s.ports ∧ (State.doAtomic s p addr op flt).nodes = s.nodes ∧
    (State.doAtomic s p addr op flt).time = s.time ∧ (State.doAtomic s p addr op flt).gov = s.gov ∧
    (State.doAtomic s p addr op flt).mmc = s.mmc := by
  unfold State.doAtomic
  (repeat' split) <;> simp

@[simp] theorem State.doUnsupportedType_frame (s : State) (_b : Binding) (_ty : Nat) :
    (State.doUnsupportedType s _b _ty).pending = s.pending ∧ (State.doUnsupportedType s _b _ty).freeCtr = s.freeCtr ∧
    (State.doUnsupportedType s _b _ty).gradeS = s.gradeS ∧ (State.doUnsupportedType s _b _ty).ft = s.ft ∧
    (State.doUnsupportedType s _b _ty).cls = s.cls ∧ (State.doUnsupportedType s _b _ty).layout = s.layout ∧
    (State.doUnsupportedType s _b _ty).setup = s.setup ∧ (State.doUnsupportedType s _b _ty).serial = s.serial ∧
    (State.doUnsupportedType s _b _ty).bringing = s.bringing ∧ (State.doUnsupportedType s _b _ty).lmap = s.lmap ∧
    (State.doUnsupportedType s _b _ty).parts = s.parts ∧ (State.doUnsupportedType s _b _ty).cores = s.cores ∧
    (State.doUnsupportedType s _b _ty).slices = s.slices ∧ (State.doUnsupportedType s _b _ty).hbmcs = s.hbmcs ∧
    (State.doUnsupportedType s _b _ty).bdies = s.bdies ∧ (State.doUnsupportedType s _b _ty).ports = s.ports ∧
    (State.doUnsupportedType s _b _ty).nodes = s.nodes ∧ (State.doUnsupportedType s _b _ty).time = s.time ∧
    (State.doUnsupportedType s _b _ty).out = s.out ∧ (State.doUnsupportedType s _b _ty).hif = s.hif ∧
    (State.doUnsupportedType s _b _ty).chip = s.chip ∧ (State.doUnsupportedType s _b _ty).gov = s.gov ∧
    (State.doUnsupportedType s _b _ty).mmc = s.mmc ∧ (State.doUnsupportedType s _b _ty).gdbg = s.gdbg := by
  unfold State.doUnsupportedType
  (repeat' split) <;> simp

@[simp] theorem State.idle_frame (s : State) :
    (State.idle s).pending = s.pending ∧ (State.idle s).freeCtr = s.freeCtr ∧ (State.idle s).gradeS = s.gradeS ∧
    (State.idle s).cls = s.cls ∧ (State.idle s).layout = s.layout ∧ (State.idle s).setup = s.setup ∧
    (State.idle s).serial = s.serial ∧ (State.idle s).bringing = s.bringing ∧ (State.idle s).lmap = s.lmap ∧
    (State.idle s).parts = s.parts ∧ (State.idle s).cores = s.cores ∧ (State.idle s).slices = s.slices ∧
    (State.idle s).hbmcs = s.hbmcs ∧ (State.idle s).bdies = s.bdies ∧ (State.idle s).ports = s.ports ∧
    (State.idle s).nodes = s.nodes ∧ (State.idle s).out = s.out ∧ (State.idle s).hif = s.hif ∧
    (State.idle s).chip = s.chip ∧ (State.idle s).mmc = s.mmc ∧ (State.idle s).gdbg = s.gdbg := by
  unfold State.idle
  (repeat' split) <;> simp

end Sys2Proof.Machine
end

