-- ==== Sys2Proof/Laws/Sequencer.lean ====
section
/-! SUPPORT. What the shared operations of the sequencer do: an enabled sequencer operation, a record dispatched, a record done. -/

namespace Sys2Proof.Machine

open Sys2Proof.Safety

theorem sameAround_refl (s : State) : sameAround s s := by simp [sameAround]

/-- What a sequencer operation leaves whose run ends in `s1`: the sequencer advanced, nothing else of any core's engines, and the
module around them. -/
theorem State.seqOp_ok {s s1 : State} {l op c next : Nat} {r : Rec} {run : State → Nat → Rec → Except Nat (State × Nat)}
    (h : decodes s l op c r) (hr : run s c r = .ok (s1, next)) (hn : next < (s.core c).seq.len) :
    onlyCore s1 (s.seqOp l op run) c (sequenced (s1.core c) (s1.core c).seq next s.ft) ∧ sameModule s1 (s.seqOp l op run) := by
  obtain ⟨-, hp, ha, ht, hc, ho, hf, htk, hroom, -⟩ := h
  have hlen : ¬ (s.core c).seq.len ≤ next := by omega
  unfold State.seqOp
  simp only [hp, ha, ht, hc, ho, hf, htk, hroom, hr, hlen]
  constructor
  · intro d
    simp
    by_cases hd : d = c <;> simp [hd, State.core_setCore_if, Core.engines, sequenced]
  · simp [sameModule, sameAround]

/-- What a sequencer operation whose effect is a change of the sequencer leaves. -/
theorem State.seqOp_modSeq {s : State} {l op c next : Nat} {r : Rec} {run : State → Nat → Rec → Except Nat (State × Nat)}
    {f : Seq → Seq} (h : decodes s l op c r) (hr : run s c r = .ok (s.modSeq c f, next)) (hn : next < (s.core c).seq.len) :
    onlyCore s (s.seqOp l op run) c (sequenced (s.core c) (f (s.core c).seq) next s.ft) ∧ sameModule s (s.seqOp l op run) := by
  have h1 := State.seqOp_ok h hr hn
  constructor
  · intro d
    rw [h1.1 d]
    by_cases hd : d = c <;> simp [hd, State.modSeq, State.core_setCore_if, Core.engines, sequenced]
  · simpa [sameModule, sameAround, State.modSeq] using h1.2

end Sys2Proof.Machine
end

