-- ==== Sys2Proof/Laws/Entries.lean ====
section
/-! SUPPORT. What starting a record and running its engine do to its queue entry. -/

namespace Sys2Proof.Machine

open Sys2Proof.Safety

theorem firstWaiting_some {k i : Nat} {es : List QEntry} {e : QEntry} (h : firstWaiting k es = some (i, e)) :
    k ≤ i ∧ es[i - k]? = some e ∧ e.phase = .waiting := by
  induction es generalizing k with
  | nil => simp [firstWaiting] at h
  | cons x es ih =>
    simp only [firstWaiting] at h
    split at h
    · simp only [Option.some.injEq, Prod.mk.injEq] at h
      obtain ⟨rfl, rfl⟩ := h
      simp_all
    · obtain ⟨h1, h2, h3⟩ := ih h
      refine ⟨by omega, ?_, h3⟩
      rw [show i - k = (i - (k + 1)) + 1 by omega, List.getElem?_cons_succ, h2]

/-- What a ready record is: the first of its queue that has not started, on the core that carries the stream. -/
theorem State.ready_some {s : State} {l q c i : Nat} {e : QEntry} (h : s.ready l q = some (c, i, e)) :
    s.physOf l = some c ∧ ((s.core c).queue q)[i]? = some e ∧ e.phase = .waiting ∧ (s.core c).mayStart e = true := by
  unfold State.ready at h
  split at h
  · simp at h
  · split at h
    · simp at h
    · rename_i c' hc i' e' hw
      split at h
      · simp only [Option.some.injEq, Prod.mk.injEq] at h
        obtain ⟨rfl, rfl, rfl⟩ := h
        have := firstWaiting_some hw
        simp_all
      · simp at h

theorem getElem?_modAt {α : Type} (xs : List α) (i : Nat) (f : α → α) : (modAt xs i f)[i]? = xs[i]?.map f := by
  simp [modAt]

theorem getElem?_modAt_ne {α : Type} (xs : List α) {i j : Nat} (f : α → α) (h : i ≠ j) : (modAt xs i f)[j]? = xs[j]? := by
  simp [modAt, h]

theorem Core.queue_setQueue (k : Core) (q : Nat) (es : List QEntry) (h : q < k.queues.length) : (k.setQueue q es).queue q = es := by
  simp [Core.queue, Core.setQueue, setAt, h]

theorem Core.lt_of_entry {k : Core} {q i : Nat} {e : QEntry} (h : (k.queue q)[i]? = some e) : q < k.queues.length := by
  by_contra hq
  simp [Core.queue, List.getElem?_eq_none (Nat.le_of_not_lt hq)] at h

theorem Core.modEntry_entry (k : Core) (q i : Nat) (f : QEntry → QEntry) : ((k.modEntry q i f).queue q)[i]? = ((k.queue q)[i]?).map f := by
  by_cases h : q < k.queues.length
  · rw [Core.modEntry, Core.queue_setQueue _ _ _ h, getElem?_modAt]
  · have : k.queues.length ≤ q := Nat.le_of_not_lt h
    simp [Core.modEntry, Core.queue, Core.setQueue, setAt, this]

theorem markHead_entry (ft : Nat) (es : List QEntry) (i : Nat) (e : QEntry) (h : es[i]? = some e) (hw : e.phase ≠ .waiting) :
    (markHead ft es)[i]? = some e := by
  unfold markHead
  split
  · rename_i j x hx
    have := firstWaiting_some hx
    rw [getElem?_modAt_ne _ _ (fun hij => hw (by subst hij; simp_all)), h]
  · exact h

theorem Core.markHeads_queue (k : Core) (ft q : Nat) : (k.markHeads ft).queue q = markHead ft (k.queue q) := by
  simp only [Core.markHeads, Core.queue, List.getD_eq_getElem?_getD, List.getElem?_map]
  cases k.queues[q]? <;> rfl

theorem Core.consume_queues (k : Core) (e : QEntry) : (k.consume e).queues = k.queues := by
  unfold Core.consume
  split <;> rfl

theorem entry_of_queues {s t : State} {c : Nat} (h : (t.core c).queues = (s.core c).queues) (q i : Nat) :
    entry t c q i = entry s c q i := by
  simp [entry, Core.queue, h]

/-- Putting an entry in a phase does so and no more. -/
theorem State.setPhase_entry (s : State) (c q i : Nat) (ph : Phase) :
    entry (s.setPhase c q i ph) c q i = (entry s c q i).map (fun x => { x with phase := ph }) := by
  simp [entry, State.setPhase, Core.modEntry_entry]

/-- A record that starts is in the phase it is put in, and otherwise as it was. -/
theorem State.startEntry_entry {s : State} {c q i : Nat} {e : QEntry} (ph : Phase) (he : entry s c q i = some e)
    (hp : ph ≠ .waiting) : entry (s.startEntry c q i e ph) c q i = some { e with phase := ph } := by
  rw [State.startEntry, entry_of_queues (State.traceStart_queues _ _ _ _ _ _ _)]
  simp only [entry, State.core_setCore, Core.markHeads_queue]
  refine markHead_entry _ _ _ _ ?_ (by simpa using hp)
  rw [Core.modEntry_entry]
  simp only [Core.queue, Core.consume_queues]
  simp only [entry, Core.queue] at he
  rw [he]
  rfl

/-- A record that runs to its end is done with the outcome of its engine's work, where the work leaves the queues alone. -/
theorem State.runEntry_entry {s : State} {c q i : Nat} {e : QEntry} {run : State → State × Outcome}
    (h : entry s c q i = some e) (hr : ∀ u, ((run u).1.core c).queues = (u.core c).queues) :
    entry (s.runEntry c q i e run) c q i = some { e with phase := (run (s.startEntry c q i e (.running 0))).2.phase } := by
  rw [State.runEntry, State.setPhase_entry, entry_of_queues (hr _), State.startEntry_entry _ h (by simp)]
  rfl

/-- A core replaced by one with the same queues keeps its entries. -/
theorem entry_setCore (s : State) (c d q i : Nat) (k : Core) (h : k.queues = (s.core c).queues) :
    entry (s.setCore c k) d q i = entry s d q i := entry_of_queues (State.queues_setCore _ _ _ _ h) _ _

/-- A change of a sequencer keeps the entries. -/
theorem entry_modSeq (s : State) (c d q i : Nat) (f : Seq → Seq) : entry (s.modSeq c f) d q i = entry s d q i :=
  entry_setCore _ _ _ _ _ _ rfl

/-! ## The rest of the core -/

/-- Starting a record consumes its tokens, moves its queue on, and changes no other engine of any core. -/
theorem State.startEntry_engines (s : State) (c q i : Nat) (e : QEntry) (ph : Phase) (d : Nat) :
    ((s.startEntry c q i e ph).core d).engines = if d = c
      then ((((s.core c).consume e).modEntry q i (fun x => { x with phase := ph })).markHeads s.ft).engines
      else (s.core d).engines := by
  rw [State.startEntry, State.traceStart_engines, State.core_setCore_if]
  split <;> rfl

/-- Putting an entry in a phase changes no engine but the queue. -/
theorem State.setPhase_core (s : State) (c q i : Nat) (ph : Phase) (d : Nat) :
    (s.setPhase c q i ph).core d = if d = c then (s.core c).modEntry q i (fun x => { x with phase := ph }) else s.core d := by
  rw [State.setPhase, State.core_setCore_if]

theorem Core.stream_of_engines {j k : Core} (h : j.engines = k.engines) :
    { j.seq with frozen := false } = { k.seq with frozen := false } := congrArg (·.1) h

theorem Core.tokens_of_engines {j k : Core} (h : j.engines = k.engines) : j.seq.tokens = k.seq.tokens :=
  congrArg (·.1.tokens) h

/-- The token counters after a record has started. -/
theorem State.startEntry_tokens (s : State) (c q i : Nat) (e : QEntry) (ph : Phase) (d : Nat) :
    ((s.startEntry c q i e ph).core d).seq.tokens =
      if d = c then ((s.core c).consume e).seq.tokens else (s.core d).seq.tokens := by
  have h := congrArg (·.1.tokens) (State.startEntry_engines s c q i e ph d)
  by_cases hd : d = c
  · simpa [hd, Core.engines, Core.markHeads, Core.modEntry, Core.setQueue] using h
  · simpa [hd, Core.engines] using h

theorem State.setPhase_tokens (s : State) (c q i : Nat) (ph : Phase) (d : Nat) :
    ((s.setPhase c q i ph).core d).seq.tokens = (s.core d).seq.tokens := by
  rw [State.setPhase_core]
  split
  · subst_vars; rfl
  · rfl

end Sys2Proof.Machine
end

