-- ==== Sys2Proof/Laws/Arrays.lean ====
section
/-! SUPPORT. What the trace and the event counters leave of the stores an engine reads, and what a pass, a front and a slot drain
leave in their array. -/

namespace Sys2Proof.Machine

open Sys2Proof.Safety

@[simp] theorem Core.putTrace_source (k : Core) (bs : Bytes) (ft free : Nat) : (k.putTrace bs ft free).source = k.source := by
  unfold Core.putTrace
  dsimp only
  (repeat' split) <;> rfl

theorem State.source_setCore (s : State) (c d : Nat) (k : Core) (h : k.source = (s.core c).source) :
    ((s.setCore c k).core d).source = (s.core d).source := by
  rw [State.core_setCore_if]
  split
  · subst_vars; exact h
  · rfl

@[simp] theorem State.modDbg_source (s : State) (c : Nat) (f : CoreDbg → CoreDbg) (d : Nat) :
    ((s.modDbg c f).core d).source = (s.core d).source := State.source_setCore _ _ _ _ rfl

@[simp] theorem State.event_source (s : State) (c ev n : Nat) (d : Nat) :
    ((s.event c ev n).core d).source = (s.core d).source := State.modDbg_source _ _ _ _

@[simp] theorem State.trace_source (s : State) (c opid tag kind chan info : Nat) (d : Nat) :
    ((s.trace c opid tag kind chan info).core d).source = (s.core d).source := by
  unfold State.trace
  split
  · rfl
  · exact (State.source_setCore _ _ _ _ (by simp)).trans (by simp)

@[simp] theorem State.traceStart_source (s : State) (c engine opid tag chan : Nat) (d : Nat) :
    ((s.traceStart c engine opid tag chan).core d).source = (s.core d).source := by
  unfold State.traceStart
  (try dsimp only)
  (repeat' split) <;> simp

@[simp] theorem State.passEvents_source (s : State) (c a : Nat) (om on : OpRef) (k rows cols : Nat) (d : Nat) :
    ((s.passEvents c a om on k rows cols).core d).source = (s.core d).source := by
  simp [State.passEvents]

theorem Core.consume_source (k : Core) (e : QEntry) : (k.consume e).source = k.source := by
  unfold Core.consume
  split <;> rfl

/-- A record that starts leaves the stores of its core as they are. -/
@[simp] theorem State.startEntry_source (s : State) (c q i : Nat) (e : QEntry) (ph : Phase) (d : Nat) :
    ((s.startEntry c q i e ph).core d).source = (s.core d).source := by
  rw [State.startEntry, State.traceStart_source]
  exact State.source_setCore _ _ _ _ (Core.consume_source _ _)

theorem Core.arr_of_engines {j k : Core} (h : j.engines = k.engines) (a : Nat) : j.arr a = k.arr a := by
  have h0 : j.arr0 = k.arr0 := congrArg (·.2.2.1) h
  have h1 : j.arr1 = k.arr1 := congrArg (·.2.2.2.1) h
  simp [Core.arr, h0, h1]

theorem Core.consume_arr (k : Core) (e : QEntry) (a : Nat) : (k.consume e).arr a = k.arr a := by
  unfold Core.consume
  split <;> rfl

/-- A record that starts leaves the arrays as they are. -/
@[simp] theorem State.startEntry_arr (s : State) (c q i : Nat) (e : QEntry) (ph : Phase) (d a : Nat) :
    ((s.startEntry c q i e ph).core d).arr a = (s.core d).arr a := by
  have h := Core.arr_of_engines (State.traceStart_engines (s.setCore c ((((s.core c).consume e).modEntry q i
    (fun x => { x with phase := ph })).markHeads s.ft)) c e.engine e.opid e.tag e.channel d) a
  rw [State.startEntry, h, State.core_setCore_if]
  split
  · subst_vars; exact Core.consume_arr _ _ _
  · rfl

@[simp] theorem State.event_arr (s : State) (c ev n d a : Nat) : ((s.event c ev n).core d).arr a = (s.core d).arr a :=
  Core.arr_of_engines (State.event_engines _ _ _ _ _) a

@[simp] theorem State.passEvents_arr (s : State) (c a : Nat) (om on : OpRef) (k rows cols d b : Nat) :
    ((s.passEvents c a om on k rows cols).core d).arr b = (s.core d).arr b := by simp [State.passEvents]

@[simp] theorem Core.arr_setArr (k : Core) (a : Nat) (x : Arr) : (k.setArr a x).arr a = x := by
  unfold Core.setArr Core.arr
  split <;> rfl

theorem Core.arr_setArr_ne (k : Core) {a b : Nat} (x : Arr) (h : (a = 0) ≠ (b = 0)) : (k.setArr a x).arr b = k.arr b := by
  unfold Core.setArr Core.arr
  split <;> split <;> simp_all

@[simp] theorem State.setPhase_arr (s : State) (c q i : Nat) (ph : Phase) (d a : Nat) :
    ((s.setPhase c q i ph).core d).arr a = (s.core d).arr a := by
  rw [State.setPhase_core]
  split
  · subst_vars; rfl
  · rfl

@[simp] theorem Arr.slot_setSlot (x : Arr) (i : Nat) (t : Tile) : (x.setSlot i t).slot i = t := by
  simp [Arr.slot, Arr.setSlot, SMap.get_set]

@[simp] theorem Arr.setSlot_rest (x : Arr) (i : Nat) (t : Tile) :
    (x.setSlot i t).staged = x.staged ∧ (x.setSlot i t).map = x.map := ⟨rfl, rfl⟩

@[simp] theorem Arr.setBank_rest (x : Arr) (n : Bool) (b : Bank) :
    (x.setBank n b).staged = x.staged ∧ (x.setBank n b).map = x.map ∧ (x.setBank n b).slots = x.slots := by
  unfold Arr.setBank
  split <;> simp

/-- A slot drain leaves its array as it was, the slot empty (R136). -/
theorem State.slotWork_arr (s : State) (c a : Nat) (e : QEntry) (d : Drain) (slot rows cols tileNo : Nat) (bias : Option Loc) :
    ((s.slotWork c a e d slot rows cols tileNo bias).1.core c).arr a = ((s.core c).arr a).setSlot slot [] := by
  rw [State.slotWork, Core.arr_of_engines (State.drainWork_engines _ _ _ _ _ _ _ _ c), State.core_setCore, Core.arr_setArr]

/-- A front frees the staging buffer, exchanges the bank names when asked and leaves the slots (R111, R112, R116). -/
theorem State.frontWork_arr (s : State) (c a : Nat) (e : QEntry) (d : Option Drain) (bank swap : Bool) (pre rows cols tileNo : Nat)
    (addr : Option Loc) (axis : Bool) :
    let y := ((s.frontWork c a e d bank swap pre rows cols tileNo addr axis).1.core c).arr a
    y.staged = none ∧ y.map = (((s.core c).arr a).map ^^ swap) ∧ y.slots = ((s.core c).arr a).slots := by
  unfold State.frontWork
  extract_lets p cr x b nb y00 y0 s0 s1 r led y
  have h1 : (s1.core c).arr a = y0 := by simp [s1]
  have hr : (r.1.core c).arr a = y0 := by
    unfold r
    split
    · exact h1
    · rw [Core.arr_of_engines (State.drainWork_engines _ _ _ _ _ _ _ _ c), h1]
  have hy : y0.staged = none ∧ y0.map = (x.map ^^ swap) ∧ y0.slots = x.slots := by simp [y0, y00]
  have : y = y0 := by
    simp only [y]
    (repeat' split) <;> exact hr
  rw [this]
  exact hy

/-- A cirrus pass leaves its record done, or running with a larger shift (R89). -/
theorem State.cirrusWork_phase (s : State) (c a sh : Nat) (e : QEntry) (led0 : Ledger) (om on : OpRef) (k rows cols : Nat)
    (bank : Bool) (d : Drain) (bias : Option Loc) (repeats : Bool) (flag tileNo : Nat) (ol : Option Outlier) :
    (s.cirrusWork c a sh e led0 om on k rows cols bank d bias repeats flag tileNo ol).2 ≠ .waiting := by
  unfold State.cirrusWork
  dsimp only
  (repeat' split) <;> simp [Outcome.phase]

end Sys2Proof.Machine
end

