-- ==== Sys2Proof/Laws/Events.lean ====
section
/-! SUPPORT. Raising an event changes the event rings alone: which operations leave the other host structures as they are. -/

namespace Sys2Proof.Machine

/-- The host structures but the event rings. -/
def Hif.quiet (h : Hif) : Hif := { h with evts := [] }

@[simp] theorem State.ite_hif_quiet (p : Prop) [Decidable p] (s t : State) :
    (if p then s else t).hif.quiet = if p then s.hif.quiet else t.hif.quiet := by split <;> rfl

@[simp] theorem State.setEvt_quiet (s : State) (fn : Fn) (r : EvtRing) : (s.setEvt fn r).hif.quiet = s.hif.quiet := (rfl)

@[simp] theorem State.writeEvent_quiet (s : State) (fn : Fn) (body : Bytes) :
    (State.writeEvent s fn body).hif.quiet = s.hif.quiet := by
  unfold State.writeEvent
  try dsimp only
  (repeat' split) <;> simp

@[simp] theorem State.pushEvent_quiet (s : State) (fn : Fn) (body : Bytes) :
    (State.pushEvent s fn body).hif.quiet = s.hif.quiet := by
  unfold State.pushEvent
  try dsimp only
  (repeat' split) <;> simp

@[simp] theorem State.postEvent_quiet (s : State) (ring : Fn) (code : Nat) (detail : Bytes) :
    (State.postEvent s ring code detail).hif.quiet = s.hif.quiet := by
  unfold State.postEvent
  try dsimp only
  (repeat' split) <;> simp

@[simp] theorem State.nimEvent_quiet (s : State) (p d line : Nat) :
    (State.nimEvent s p d line).hif.quiet = s.hif.quiet := by
  unfold State.nimEvent
  try dsimp only
  (repeat' split) <;> simp

@[simp] theorem State.memEvent_quiet (s : State) (p line : Nat) (recovered : Bool) (symbols : Nat) :
    (State.memEvent s p line recovered symbols).hif.quiet = s.hif.quiet := by
  unfold State.memEvent
  try dsimp only
  (repeat' split) <;> simp

@[simp] theorem State.readWord_quiet (s : State) (p line : Nat) (flt : MemFault) :
    (State.readWord s p line flt).1.hif.quiet = s.hif.quiet := by
  unfold State.readWord
  try dsimp only
  (repeat' split) <;> simp

@[simp] theorem State.recoverWord_quiet (s : State) (p line : Nat) (errs : List (Nat × Byte)) :
    (State.recoverWord s p line errs).hif.quiet = s.hif.quiet := by
  unfold State.recoverWord
  try dsimp only
  (repeat' split) <;> simp

@[simp] theorem State.nimError_quiet (s : State) (p d line : Nat) (flt : MemFault) :
    (State.nimError s p d line flt).1.hif.quiet = s.hif.quiet := by
  unfold State.nimError
  try dsimp only
  (repeat' split) <;> simp

@[simp] theorem State.readLine_quiet (s : State) (p a0 n : Nat) (priv : Bool) (flt : MemFault) :
    (State.readLine s p a0 n priv flt).1.hif.quiet = s.hif.quiet := by
  unfold State.readLine
  try dsimp only
  (repeat' split) <;> simp

@[simp] theorem State.writeLine_quiet (s : State) (p a0 : Nat) (bs : Bytes) (priv : Bool) (flt : MemFault) :
    (State.writeLine s p a0 bs priv flt).1.hif.quiet = s.hif.quiet := by
  unfold State.writeLine
  try dsimp only
  (repeat' split) <;> simp

@[simp] theorem State.devRead_quiet (s : State) (p a n : Nat) (priv : Bool) :
    (State.devRead s p a n priv).1.hif.quiet = s.hif.quiet := by
  unfold State.devRead
  exact foldl_keeps (fun x : State × _ => (x.1).hif.quiet) _ (fun a i => by (try dsimp only); (repeat' split) <;> simp) _ _

@[simp] theorem State.devWrite_quiet (s : State) (p a : Nat) (bs : Bytes) (priv : Bool) :
    (State.devWrite s p a bs priv).1.hif.quiet = s.hif.quiet := by
  unfold State.devWrite
  exact foldl_keeps (fun x : State × _ => (x.1).hif.quiet) _ (fun a i => by (try dsimp only); (repeat' split) <;> simp) _ _

@[simp] theorem State.locRead_quiet (s : State) (p : Nat) (l : Loc) (n : Nat) :
    (State.locRead s p l n).1.hif.quiet = s.hif.quiet := by
  unfold State.locRead
  try dsimp only
  (repeat' split) <;> simp

@[simp] theorem State.locWrite_quiet (s : State) (p : Nat) (l : Loc) (bs : Bytes) :
    (State.locWrite s p l bs).1.hif.quiet = s.hif.quiet := by
  unfold State.locWrite
  try dsimp only
  (repeat' split) <;> simp

@[simp] theorem State.locWrites_quiet (s : State) (p : Nat) (ws : List (Loc × Bytes)) :
    (State.locWrites s p ws).1.hif.quiet = s.hif.quiet := by
  unfold State.locWrites
  exact foldl_keeps (fun x : State × _ => (x.1).hif.quiet) _ (fun a i => by (try dsimp only); (repeat' split) <;> simp) _ _

@[simp] theorem State.locReads_quiet (s : State) (p : Nat) (ls : List (Loc × Nat)) :
    (State.locReads s p ls).1.hif.quiet = s.hif.quiet := by
  unfold State.locReads
  exact foldl_keeps (fun x : State × _ => (x.1).hif.quiet) _ (fun a i => by (try dsimp only); (repeat' split) <;> simp) _ _

@[simp] theorem State.atomic_quiet (s : State) (p a : Nat) (op : AtomicOp) (flt : MemFault) :
    (State.atomic s p a op flt).1.hif.quiet = s.hif.quiet := by
  unfold State.atomic
  try dsimp only
  (repeat' split) <;> simp

@[simp] theorem State.icacheBurst_quiet (s : State) (c p : Nat) (l : Loc) :
    (State.icacheBurst s c p l).hif.quiet = s.hif.quiet := by
  unfold State.icacheBurst
  exact foldl_keeps (fun x : State => (x).hif.quiet) _ (fun a i => by (try dsimp only); (repeat' split) <;> simp) _ _

@[simp] theorem State.icacheRead_quiet (s : State) (c p : Nat) (l : Loc) (n : Nat) :
    (State.icacheRead s c p l n).1.hif.quiet = s.hif.quiet := by
  unfold State.icacheRead
  try dsimp only
  (repeat' split) <;> simp

@[simp] theorem State.locAtomic_quiet (s : State) (p : Nat) (l : Loc) (op : AtomicOp) :
    (State.locAtomic s p l op).1.hif.quiet = s.hif.quiet := by
  unfold State.locAtomic
  try dsimp only
  (repeat' split) <;> simp

@[simp] theorem State.kHeader_quiet (s : State) (x : KCtx) (w : Nat) :
    (State.kHeader s x w).1.hif.quiet = s.hif.quiet := by
  unfold State.kHeader
  try dsimp only
  (repeat' split) <;> simp

@[simp] theorem State.writeElems_quiet (s : State) (p : Nat) (t : Tensor) (base : Loc) (line first : Nat) (es : List Nat) :
    (State.writeElems s p t base line first es).1.hif.quiet = s.hif.quiet := by
  unfold State.writeElems
  exact foldl_keeps (fun x : State × _ => (x.1).hif.quiet) _ (fun a i => by (try dsimp only); (repeat' split) <;> simp) _ _

@[simp] theorem State.writeOffs_quiet (s : State) (p : Nat) (t : Tensor) (base : Loc) (line first : Nat) (os : List Nat) :
    (State.writeOffs s p t base line first os).1.hif.quiet = s.hif.quiet := by
  unfold State.writeOffs
  exact foldl_keeps (fun x : State × _ => (x.1).hif.quiet) _ (fun a i => by (try dsimp only); (repeat' split) <;> simp) _ _

@[simp] theorem State.writePow2_quiet (s : State) (p : Nat) (hdr : Loc) (b : Bool) :
    (State.writePow2 s p hdr b).1.hif.quiet = s.hif.quiet := by
  unfold State.writePow2
  try dsimp only
  (repeat' split) <;> simp

@[simp] theorem State.readEntry_quiet (s : State) (p : Nat) (t : Tensor) (line i : Nat) :
    (State.readEntry s p t line i).1.hif.quiet = s.hif.quiet := by
  unfold State.readEntry
  try dsimp only
  (repeat' split) <;> simp

@[simp] theorem State.readScales_quiet (s : State) (p : Nat) (src : ScaleSrc) (n : Nat) (pairs : Bool) :
    (State.readScales s p src n pairs).1.hif.quiet = s.hif.quiet := by
  unfold State.readScales
  try dsimp only
  (repeat' split) <;> simp

@[simp] theorem State.readBias_quiet (s : State) (p : Nat) (b : Option Loc) (n : Nat) :
    (State.readBias s p b n).1.hif.quiet = s.hif.quiet := by
  unfold State.readBias
  try dsimp only
  (repeat' split) <;> simp

@[simp] theorem State.readDrainIn_quiet (s : State) (p : Nat) (d : Drain) (bias : Option Loc) (axis : Bool) (rows cols : Nat) :
    (State.readDrainIn s p d bias axis rows cols).1.hif.quiet = s.hif.quiet := by
  unfold State.readDrainIn
  try dsimp only
  (repeat' split) <;> simp

@[simp] theorem State.readOld_quiet (s : State) (p : Nat) (d : Drain) (rows cols : Nat) :
    (State.readOld s p d rows cols).1.hif.quiet = s.hif.quiet := by
  unfold State.readOld
  exact foldl_keeps (fun x : State × _ => (x.1).hif.quiet) _ (fun a i => by (try dsimp only); (repeat' split) <;> simp) _ _

@[simp] theorem State.putDrain_quiet (s : State) (p : Nat) (d : Drain) (old : List Bytes) (o : DrainOut) :
    (State.putDrain s p d old o).1.hif.quiet = s.hif.quiet := by
  unfold State.putDrain
  try dsimp only
  (repeat' split) <;> simp

@[simp] theorem State.drainWork_quiet (s : State) (p : Nat) (d : Drain) (bias : Option Loc) (axis : Bool) (rows cols : Nat) (compute : DrainIn → (Nat → Nat → Nat) → DrainOut) :
    (State.drainWork s p d bias axis rows cols compute).1.hif.quiet = s.hif.quiet := by
  unfold State.drainWork
  try dsimp only
  (repeat' split) <;> simp

@[simp] theorem State.frontWork_quiet (s : State) (c a : Nat) (e : QEntry) (d : Option Drain) (bank swap : Bool) (pre rows cols tileNo : Nat) (addr : Option Loc) (axis : Bool) :
    (State.frontWork s c a e d bank swap pre rows cols tileNo addr axis).1.hif.quiet = s.hif.quiet := by
  unfold State.frontWork
  try dsimp only
  (repeat' split) <;> simp

@[simp] theorem State.doStaging_quiet (s : State) (l a : Nat) :
    (State.doStaging s l a).hif.quiet = s.hif.quiet := by
  unfold State.doStaging
  try dsimp only
  (repeat' split) <;> simp

@[simp] theorem State.slotWork_quiet (s : State) (c a : Nat) (e : QEntry) (d : Drain) (slot rows cols tileNo : Nat) (bias : Option Loc) :
    (State.slotWork s c a e d slot rows cols tileNo bias).1.hif.quiet = s.hif.quiet := by
  unfold State.slotWork
  try dsimp only
  (repeat' split) <;> simp

@[simp] theorem State.outlierWork_quiet (s : State) (p c : Nat) (e : QEntry) (om : OpRef) (d : Drain) (rows cols : Nat) (ol : Option Outlier) :
    (State.outlierWork s p c e om d rows cols ol).1.hif.quiet = s.hif.quiet := by
  unfold State.outlierWork
  try dsimp only
  (repeat' split) <;> simp

@[simp] theorem State.cirrusWork_quiet (s : State) (c a sh : Nat) (e : QEntry) (led0 : Ledger) (om on : OpRef) (k rows cols : Nat) (bank : Bool) (d : Drain) (bias : Option Loc) (repeats : Bool) (flag tileNo : Nat) (ol : Option Outlier) :
    (State.cirrusWork s c a sh e led0 om on k rows cols bank d bias repeats flag tileNo ol).1.hif.quiet = s.hif.quiet := by
  unfold State.cirrusWork
  try dsimp only
  (repeat' split) <;> simp

@[simp] theorem State.outlierPlane_quiet (s : State) (p : Nat) (q : QuantOp) (rows : List (List FVal)) (idx : List Nat) :
    (State.outlierPlane s p q rows idx).1.hif.quiet = s.hif.quiet := by
  unfold State.outlierPlane
  try dsimp only
  (repeat' split) <;> simp

@[simp] theorem State.putRecord_quiet (s : State) (p addr : Nat) (bs : Bytes) :
    (State.putRecord s p addr bs).hif.quiet = s.hif.quiet := by
  unfold State.putRecord
  try dsimp only
  (repeat' split) <;> simp

@[simp] theorem State.putCompletion_quiet (s : State) (p tag : Nat) (bs : Bytes) :
    (State.putCompletion s p tag bs).hif.quiet = s.hif.quiet := by
  unfold State.putCompletion
  try dsimp only
  (repeat' split) <;> simp

@[simp] theorem State.settleStream_quiet (s : State) (c : Nat) :
    (State.settleStream s c).hif.quiet = s.hif.quiet := by
  unfold State.settleStream
  try dsimp only
  (repeat' split) <;> simp

@[simp] theorem State.haltOne_quiet (s : State) (c : Nat) (f : Failure) :
    (State.haltOne s c f).hif.quiet = s.hif.quiet := by
  unfold State.haltOne
  try dsimp only
  (repeat' split) <;> simp

@[simp] theorem State.failOne_quiet (s : State) (c : Nat) (e : QEntry) (status detail : Nat) :
    (State.failOne s c e status detail).hif.quiet = s.hif.quiet := by
  unfold State.failOne
  try dsimp only
  (repeat' split) <;> simp

@[simp] theorem State.abortWaiting_quiet (s : State) (p : Nat) :
    (State.abortWaiting s p).hif.quiet = s.hif.quiet := by
  unfold State.abortWaiting
  exact foldl_keeps (fun x : State => (x).hif.quiet) _ (fun a i => by (try dsimp only); (repeat' split) <;> simp) _ _

@[simp] theorem State.haltStream_quiet (s : State) (c : Nat) (f : Failure) :
    (State.haltStream s c f).hif.quiet = s.hif.quiet := by
  unfold State.haltStream
  try dsimp only
  (repeat' split) <;> simp

@[simp] theorem State.failStream_quiet (s : State) (c : Nat) (e : QEntry) (status detail : Nat) :
    (State.failStream s c e status detail).hif.quiet = s.hif.quiet := by
  unfold State.failStream
  try dsimp only
  (repeat' split) <;> simp

@[simp] theorem State.addToken_quiet (s : State) (c ctr inc : Nat) :
    (State.addToken s c ctr inc).hif.quiet = s.hif.quiet := by
  unfold State.addToken
  try dsimp only
  (repeat' split) <;> simp

@[simp] theorem State.chooseParent_quiet (s : State) :
    (State.chooseParent s).hif.quiet = s.hif.quiet := by
  unfold State.chooseParent
  try dsimp only
  (repeat' split) <;> simp

@[simp] theorem State.takeOffset_quiet (s : State) (off : Int) (port : Nat) :
    (State.takeOffset s off port).hif.quiet = s.hif.quiet := by
  unfold State.takeOffset
  try dsimp only
  (repeat' split) <;> simp

@[simp] theorem State.tc0Void_quiet (s : State) (p n cause : Nat) :
    (State.tc0Void s p n cause).hif.quiet = s.hif.quiet := by
  unfold State.tc0Void
  try dsimp only
  (repeat' split) <;> simp

@[simp] theorem State.joinEgress_quiet (s : State) (p n : Nat) (e : EPkt) :
    (State.joinEgress s p n e).hif.quiet = s.hif.quiet := by
  unfold State.joinEgress
  try dsimp only
  (repeat' split) <;> simp

@[simp] theorem State.egressTo_quiet (s : State) (p n tc vl ingress inVl : Nat) (k : Packet) :
    (State.egressTo s p n tc vl ingress inVl k).hif.quiet = s.hif.quiet := by
  unfold State.egressTo
  try dsimp only
  (repeat' split) <;> simp

@[simp] theorem State.sendUnicast_quiet (s : State) (p tc ingress inVl : Nat) (pin : Option Nat) (k : Packet) :
    (State.sendUnicast s p tc ingress inVl pin k).1.hif.quiet = s.hif.quiet := by
  unfold State.sendUnicast
  try dsimp only
  (repeat' split) <;> simp

@[simp] theorem State.sendTree_quiet (s : State) (p tc ingress inVl : Nat) (ns : List Nat) (k : Packet) :
    (State.sendTree s p tc ingress inVl ns k).hif.quiet = s.hif.quiet := by
  unfold State.sendTree
  exact foldl_keeps (fun x : State => (x).hif.quiet) _ (fun a i => by (try dsimp only); (repeat' split) <;> simp) _ _

@[simp] theorem State.originate_quiet (s : State) (p tc : Nat) (pin : Option Nat) (k : Packet) :
    (State.originate s p tc pin k).1.hif.quiet = s.hif.quiet := by
  unfold State.originate
  try dsimp only
  (repeat' split) <;> simp

@[simp] theorem State.respond_quiet (s : State) (p tc : Nat) (req : Packet) (kind status : Nat) (data : Bytes) :
    (State.respond s p tc req kind status data).hif.quiet = s.hif.quiet := by
  unfold State.respond
  try dsimp only
  (repeat' split) <;> simp

@[simp] theorem State.refusePacket_quiet (s : State) (p tc cause : Nat) (k : Packet) :
    (State.refusePacket s p tc cause k).hif.quiet = s.hif.quiet := by
  unfold State.refusePacket
  try dsimp only
  (repeat' split) <;> simp

@[simp] theorem State.signalDropped_quiet (s : State) (p why : Nat) (k : Packet) :
    (State.signalDropped s p why k).hif.quiet = s.hif.quiet := by
  unfold State.signalDropped
  try dsimp only
  (repeat' split) <;> simp

@[simp] theorem State.deliver_quiet (s : State) (p n tc : Nat) (k : Packet) :
    (State.deliver s p n tc k).hif.quiet = s.hif.quiet := by
  unfold State.deliver
  try dsimp only
  (repeat' split) <;> simp

@[simp] theorem State.notice_quiet (s : State) (p n dest : Nat) :
    (State.notice s p n dest).hif.quiet = s.hif.quiet := by
  unfold State.notice
  try dsimp only
  (repeat' split) <;> simp

@[simp] theorem State.forward_quiet (s : State) (p n tc vl : Nat) (k : Packet) :
    (State.forward s p n tc vl k).1.hif.quiet = s.hif.quiet := by
  unfold State.forward
  try dsimp only
  (repeat' split) <;> simp

@[simp] theorem State.takeBroadcast_quiet (s : State) (p n tc vl : Nat) (k : Packet) :
    (State.takeBroadcast s p n tc vl k).hif.quiet = s.hif.quiet := by
  unfold State.takeBroadcast
  try dsimp only
  (repeat' split) <;> simp

@[simp] theorem State.takePacket_quiet (s : State) (n tc vl flits : Nat) (bs : Bytes) :
    (State.takePacket s n tc vl flits bs).hif.quiet = s.hif.quiet := by
  unfold State.takePacket
  try dsimp only
  (repeat' split) <;> simp

@[simp] theorem State.exchEvent_quiet (s : State) (p code v : Nat) :
    (State.exchEvent s p code v).hif.quiet = s.hif.quiet := by
  unfold State.exchEvent
  try dsimp only
  (repeat' split) <;> simp

@[simp] theorem State.sendSeg_quiet (s : State) (p : Nat) (t : ExTable) (rank tries : Nat) (final : Bool) (g : ChainSeg) :
    (State.sendSeg s p t rank tries final g).1.hif.quiet = s.hif.quiet := by
  unfold State.sendSeg
  try dsimp only
  (repeat' split) <;> simp

@[simp] theorem State.words_quiet (s : State) (p a n : Nat) :
    (State.words s p a n).1.hif.quiet = s.hif.quiet := by
  unfold State.words
  try dsimp only
  (repeat' split) <;> simp

@[simp] theorem State.putWords_quiet (s : State) (p a : Nat) (ws : List Nat) :
    (State.putWords s p a ws).hif.quiet = s.hif.quiet := by
  unfold State.putWords
  try dsimp only
  (repeat' split) <;> simp

@[simp] theorem State.updateElem_quiet (s : State) (p : Nat) (t : ExTable) (h : Sched) (shard n j contrib x : Nat) :
    (State.updateElem s p t h shard n j contrib x).1.hif.quiet = s.hif.quiet := by
  unfold State.updateElem
  try dsimp only
  (repeat' split) <;> simp

@[simp] theorem State.publish_quiet (s : State) (p : Nat) (t : ExTable) (shard : Nat) (c : Nat × Bytes) :
    (State.publish s p t shard c).hif.quiet = s.hif.quiet := by
  unfold State.publish
  try dsimp only
  (repeat' split) <;> simp

@[simp] theorem State.putDirectory_quiet (s : State) (p : Nat) (t : ExTable) (sh e1 crc : Nat) :
    (State.putDirectory s p t sh e1 crc).hif.quiet = s.hif.quiet := by
  unfold State.putDirectory
  try dsimp only
  (repeat' split) <;> simp

@[simp] theorem State.sendPubDone_quiet (s : State) (p : Nat) (t : ExTable) (sh : Nat) :
    (State.sendPubDone s p t sh).hif.quiet = s.hif.quiet := by
  unfold State.sendPubDone
  try dsimp only
  (repeat' split) <;> simp

@[simp] theorem State.publishMine_quiet (s : State) (p : Nat) (t : ExTable) (sh : Nat) :
    (State.publishMine s p t sh).hif.quiet = s.hif.quiet := by
  unfold State.publishMine
  exact foldl_keeps (fun x : State => (x).hif.quiet) _ (fun a i => by (try dsimp only); (repeat' split) <;> simp) _ _

@[simp] theorem State.markFailed_quiet (s : State) (p : Nat) (t : ExTable) (rank : Nat) :
    (State.markFailed s p t rank).hif.quiet = s.hif.quiet := by
  unfold State.markFailed
  try dsimp only
  (repeat' split) <;> simp

@[simp] theorem State.contribute_quiet (s : State) (p : Nat) (t : ExTable) (g : ChainSeg) (first : Bool) :
    (State.contribute s p t g first).1.hif.quiet = s.hif.quiet := by
  unfold State.contribute
  try dsimp only
  (repeat' split) <;> simp

@[simp] theorem State.doHello_quiet (s : State) (n : Nat) (raw : Bytes) :
    (State.doHello s n raw).hif.quiet = s.hif.quiet := by
  unfold State.doHello
  try dsimp only
  (repeat' split) <;> simp

@[simp] theorem State.acceptFlit_quiet (s : State) (n : Nat) (raw : Bytes) :
    (State.acceptFlit s n raw).hif.quiet = s.hif.quiet := by
  unfold State.acceptFlit
  try dsimp only
  (repeat' split) <;> simp

@[simp] theorem State.doPacketFlit_quiet (s : State) (n : Nat) (raw : Bytes) (lane : Nat) :
    (State.doPacketFlit s n raw lane).hif.quiet = s.hif.quiet := by
  unfold State.doPacketFlit
  try dsimp only
  (repeat' split) <;> simp

@[simp] theorem State.doFabricStall_quiet (s : State) (n tc vl : Nat) :
    (State.doFabricStall s n tc vl).hif.quiet = s.hif.quiet := by
  unfold State.doFabricStall
  try dsimp only
  (repeat' split) <;> simp

@[simp] theorem State.doTc0Inject_quiet (s : State) (p : Nat) :
    (State.doTc0Inject s p).hif.quiet = s.hif.quiet := by
  unfold State.doTc0Inject
  try dsimp only
  (repeat' split) <;> simp

@[simp] theorem State.refuseTable_quiet (s : State) (p off : Nat) :
    (State.refuseTable s p off).hif.quiet = s.hif.quiet := by
  unfold State.refuseTable
  try dsimp only
  (repeat' split) <;> simp

@[simp] theorem State.doRouteTableWrite_quiet (s : State) (p off v : Nat) :
    (State.doRouteTableWrite s p off v).hif.quiet = s.hif.quiet := by
  unfold State.doRouteTableWrite
  try dsimp only
  (repeat' split) <;> simp

@[simp] theorem State.doTimestamp_quiet (s : State) (n t1 t2 t3 t4 : Nat) :
    (State.doTimestamp s n t1 t2 t3 t4).hif.quiet = s.hif.quiet := by
  unfold State.doTimestamp
  try dsimp only
  (repeat' split) <;> simp

@[simp] theorem State.haltCore_quiet (s : State) (c code : Nat) :
    (State.haltCore s c code).hif.quiet = s.hif.quiet := by
  unfold State.haltCore
  try dsimp only
  (repeat' split) <;> simp

@[simp] theorem State.haltAll_quiet (s : State) (p code : Nat) :
    (State.haltAll s p code).hif.quiet = s.hif.quiet := by
  unfold State.haltAll
  exact foldl_keeps (fun x : State => (x).hif.quiet) _ (fun a i => by (try dsimp only); (repeat' split) <;> simp) _ _

@[simp] theorem State.doBarrier_quiet (s : State) (l : Nat) :
    (State.doBarrier s l).hif.quiet = s.hif.quiet := by
  unfold State.doBarrier
  try dsimp only
  (repeat' split) <;> simp

@[simp] theorem State.doEnd_quiet (s : State) (l : Nat) :
    (State.doEnd s l).hif.quiet = s.hif.quiet := by
  unfold State.doEnd
  try dsimp only
  (repeat' split) <;> simp

@[simp] theorem State.doBarrierTimeout_quiet (s : State) (l : Nat) :
    (State.doBarrierTimeout s l).hif.quiet = s.hif.quiet := by
  unfold State.doBarrierTimeout
  try dsimp only
  (repeat' split) <;> simp

@[simp] theorem State.doTokenTimeout_quiet (s : State) (l q : Nat) :
    (State.doTokenTimeout s l q).hif.quiet = s.hif.quiet := by
  unfold State.doTokenTimeout
  try dsimp only
  (repeat' split) <;> simp

@[simp] theorem State.probeRecord_quiet (s : State) (p : Nat) (l : Loc) (flt : MemFault) :
    (State.probeRecord s p l flt).1.hif.quiet = s.hif.quiet := by
  unfold State.probeRecord
  try dsimp only
  (repeat' split) <;> simp

@[simp] theorem State.fetchFailed_quiet (s : State) (c pos addr : Nat) :
    (State.fetchFailed s c pos addr).hif.quiet = s.hif.quiet := by
  unfold State.fetchFailed
  try dsimp only
  (repeat' split) <;> simp

@[simp] theorem State.doFetch_quiet (s : State) (l : Nat) (flt : MemFault) :
    (State.doFetch s l flt).hif.quiet = s.hif.quiet := by
  unfold State.doFetch
  try dsimp only
  (repeat' split) <;> simp

@[simp] theorem State.refuse_quiet (s : State) (c : Nat) (r : Rec) (status : Nat) :
    (State.refuse s c r status).hif.quiet = s.hif.quiet := by
  unfold State.refuse
  try dsimp only
  (repeat' split) <;> simp

@[simp] theorem State.parityError_quiet (s : State) (c : Nat) (r : Rec) :
    (State.parityError s c r).hif.quiet = s.hif.quiet := by
  unfold State.parityError
  try dsimp only
  (repeat' split) <;> simp

@[simp] theorem State.doDispatch_quiet (s : State) (l parity : Nat) :
    (State.doDispatch s l parity).hif.quiet = s.hif.quiet := by
  unfold State.doDispatch
  try dsimp only
  (repeat' split) <;> simp

@[simp] theorem State.doDescriptorFetch_quiet (s : State) (ch : Chan) :
    (State.doDescriptorFetch s ch).hif.quiet = s.hif.quiet := by
  unfold State.doDescriptorFetch
  try dsimp only
  (repeat' split) <;> simp

@[simp] theorem State.beginDesc_quiet (s : State) (ch : Chan) (r : ChRun) (d : Desc) (lens : List (Nat × Nat)) (redo : Option Nat) :
    (State.beginDesc s ch r d lens redo).hif.quiet = s.hif.quiet := by
  unfold State.beginDesc
  try dsimp only
  (repeat' split) <;> simp

@[simp] theorem State.doDescriptorStart_quiet (s : State) (ch : Chan) :
    (State.doDescriptorStart s ch).hif.quiet = s.hif.quiet := by
  unfold State.doDescriptorStart
  try dsimp only
  (repeat' split) <;> simp

@[simp] theorem State.sendRemote_quiet (s : State) (ch : Chan) (r : ChRun) (d : Desc) (kind addr len : Nat) (data : Bytes) (write : Bool) (index : Nat) :
    (State.sendRemote s ch r d kind addr len data write index).hif.quiet = s.hif.quiet := by
  unfold State.sendRemote
  try dsimp only
  (repeat' split) <;> simp

@[simp] theorem State.locReadFlt_quiet (s : State) (p : Nat) (l : Loc) (n : Nat) (flt : MemFault) :
    (State.locReadFlt s p l n flt).1.hif.quiet = s.hif.quiet := by
  unfold State.locReadFlt
  try dsimp only
  (repeat' split) <;> simp

@[simp] theorem State.locWriteFlt_quiet (s : State) (p : Nat) (l : Loc) (bs : Bytes) (flt : MemFault) :
    (State.locWriteFlt s p l bs flt).1.hif.quiet = s.hif.quiet := by
  unfold State.locWriteFlt
  try dsimp only
  (repeat' split) <;> simp

@[simp] theorem State.doReadRequest_quiet (s : State) (ch : Chan) (flt : MemFault) :
    (State.doReadRequest s ch flt).hif.quiet = s.hif.quiet := by
  unfold State.doReadRequest
  try dsimp only
  (repeat' split) <;> simp

@[simp] theorem State.doWriteRequest_quiet (s : State) (ch : Chan) (flt : MemFault) :
    (State.doWriteRequest s ch flt).hif.quiet = s.hif.quiet := by
  unfold State.doWriteRequest
  try dsimp only
  (repeat' split) <;> simp

@[simp] theorem State.doCrcFinish_quiet (s : State) (ch : Chan) :
    (State.doCrcFinish s ch).hif.quiet = s.hif.quiet := by
  unfold State.doCrcFinish
  try dsimp only
  (repeat' split) <;> simp

@[simp] theorem State.lostWrite_quiet (s : State) (p : Nat) (l : Loc) (bs : Bytes) :
    (State.lostWrite s p l bs).hif.quiet = s.hif.quiet := by
  unfold State.lostWrite
  try dsimp only
  (repeat' split) <;> simp

@[simp] theorem State.doRequestWatchdog_quiet (s : State) (ch : Chan) :
    (State.doRequestWatchdog s ch).hif.quiet = s.hif.quiet := by
  unfold State.doRequestWatchdog
  try dsimp only
  (repeat' split) <;> simp

end Sys2Proof.Machine
end

