-- ==== Sys2Proof/Laws/JobKept.lean ====
section
/-! SUPPORT. Which operations leave the running jobs as they are. -/

namespace Sys2Proof.Machine

@[simp] theorem State.ite_job (p : Prop) [Decidable p] (s t : State) (jj : Nat) :
    ((if p then s else t).part jj).job = if p then (s.part jj).job else (t.part jj).job := by split <;> rfl

theorem State.job_setPart (s : State) (c d : Nat) (q : Part) (h : q.job = (s.part c).job) :
    ((s.setPart c q).part d).job = (s.part d).job := by
  by_cases hd : d = c
  · subst hd; rw [State.part_setPart, h]
  · rw [State.part_setPart_ne _ _ hd]

@[simp] theorem State.setLcore_job (s : State) (l : Nat) (k : Core) (jj : Nat) :
    ((State.setLcore s l k).part jj).job = (s.part jj).job := by
  simp [State.part]

@[simp] theorem State.fresh_job (s : State) (jj : Nat) :
    ((State.fresh s).2.part jj).job = (s.part jj).job := by
  simp [State.part]

@[simp] theorem State.writeEvent_job (s : State) (fn : Fn) (body : Bytes) (jj : Nat) :
    ((State.writeEvent s fn body).part jj).job = (s.part jj).job := by
  simp [State.part]

@[simp] theorem State.pushEvent_job (s : State) (fn : Fn) (body : Bytes) (jj : Nat) :
    ((State.pushEvent s fn body).part jj).job = (s.part jj).job := by
  simp [State.part]

@[simp] theorem State.postEvent_job (s : State) (ring : Fn) (code : Nat) (detail : Bytes) (jj : Nat) :
    ((State.postEvent s ring code detail).part jj).job = (s.part jj).job := by
  simp [State.part]

@[simp] theorem State.modDbg_job (s : State) (c : Nat) (f : CoreDbg → CoreDbg) (jj : Nat) :
    ((State.modDbg s c f).part jj).job = (s.part jj).job := by
  simp [State.part]

@[simp] theorem State.event_job (s : State) (c ev n : Nat) (jj : Nat) :
    ((State.event s c ev n).part jj).job = (s.part jj).job := by
  simp [State.part]

@[simp] theorem State.gevent_job (s : State) (block inst ev n : Nat) (jj : Nat) :
    ((State.gevent s block inst ev n).part jj).job = (s.part jj).job := by
  simp [State.part]

@[simp] theorem State.trace_job (s : State) (c opid tag kind chan info : Nat) (jj : Nat) :
    ((State.trace s c opid tag kind chan info).part jj).job = (s.part jj).job := by
  simp [State.part]

@[simp] theorem State.traceStart_job (s : State) (c engine opid tag chan : Nat) (jj : Nat) :
    ((State.traceStart s c engine opid tag chan).part jj).job = (s.part jj).job := by
  simp [State.part]

@[simp] theorem State.traceDone_job (s : State) (c engine opid tag chan status : Nat) (led : Ledger) (shift : Nat) (jj : Nat) :
    ((State.traceDone s c engine opid tag chan status led shift).part jj).job = (s.part jj).job := by
  simp [State.part]

@[simp] theorem State.nimEvent_job (s : State) (p d line : Nat) (jj : Nat) :
    ((State.nimEvent s p d line).part jj).job = (s.part jj).job := by
  simp [State.part]

@[simp] theorem State.memEvent_job (s : State) (p line : Nat) (recovered : Bool) (symbols : Nat) (jj : Nat) :
    ((State.memEvent s p line recovered symbols).part jj).job = (s.part jj).job := by
  simp [State.part]

@[simp] theorem State.touchLine_job (s : State) (p d line : Nat) (dirty : Bool) (jj : Nat) :
    ((State.touchLine s p d line dirty).part jj).job = (s.part jj).job := by
  unfold State.touchLine
  try dsimp only
  (repeat' split) <;> first | (simp; done) | (refine (State.job_setPart _ _ _ _ ?_).trans ?_ <;> simp; done) | (simp; refine (State.job_setPart _ _ _ _ ?_).trans ?_ <;> simp)

@[simp] theorem State.markStale_job (s : State) (p line : Nat) (jj : Nat) :
    ((State.markStale s p line).part jj).job = (s.part jj).job := by
  simp [State.part]

@[simp] theorem State.countCe_job (s : State) (p line : Nat) (jj : Nat) :
    ((State.countCe s p line).part jj).job = (s.part jj).job := by
  simp [State.part]

@[simp] theorem State.setPoison_job (s : State) (p line : Nat) (b : Bool) (jj : Nat) :
    ((State.setPoison s p line b).part jj).job = (s.part jj).job := by
  unfold State.setPoison
  try dsimp only
  (repeat' split) <;> first | (simp; done) | (refine (State.job_setPart _ _ _ _ ?_).trans ?_ <;> simp; done) | (simp; refine (State.job_setPart _ _ _ _ ?_).trans ?_ <;> simp)

@[simp] theorem State.readWord_job (s : State) (p line : Nat) (flt : MemFault) (jj : Nat) :
    ((State.readWord s p line flt).1.part jj).job = (s.part jj).job := by
  unfold State.readWord
  try dsimp only
  (repeat' split) <;> first | (simp; done) | (refine (State.job_setPart _ _ _ _ ?_).trans ?_ <;> simp; done) | (simp; refine (State.job_setPart _ _ _ _ ?_).trans ?_ <;> simp)

@[simp] theorem State.recoverWord_job (s : State) (p line : Nat) (errs : List (Nat × Byte)) (jj : Nat) :
    ((State.recoverWord s p line errs).part jj).job = (s.part jj).job := by
  simp [State.part]

@[simp] theorem State.nimError_job (s : State) (p d line : Nat) (flt : MemFault) (jj : Nat) :
    ((State.nimError s p d line flt).1.part jj).job = (s.part jj).job := by
  simp [State.part]

@[simp] theorem State.readLine_job (s : State) (p a0 n : Nat) (priv : Bool) (flt : MemFault) (jj : Nat) :
    ((State.readLine s p a0 n priv flt).1.part jj).job = (s.part jj).job := by
  unfold State.readLine
  try dsimp only
  (repeat' split) <;> first | (simp; done) | (refine (State.job_setPart _ _ _ _ ?_).trans ?_ <;> simp; done) | (simp; refine (State.job_setPart _ _ _ _ ?_).trans ?_ <;> simp)

@[simp] theorem State.writeLine_job (s : State) (p a0 : Nat) (bs : Bytes) (priv : Bool) (flt : MemFault) (jj : Nat) :
    ((State.writeLine s p a0 bs priv flt).1.part jj).job = (s.part jj).job := by
  unfold State.writeLine
  try dsimp only
  (repeat' split) <;> first | (simp; done) | (refine (State.job_setPart _ _ _ _ ?_).trans ?_ <;> simp; done) | (simp; refine (State.job_setPart _ _ _ _ ?_).trans ?_ <;> simp)

@[simp] theorem State.devRead_job (s : State) (p a n : Nat) (priv : Bool) (jj : Nat) :
    ((State.devRead s p a n priv).1.part jj).job = (s.part jj).job := by
  unfold State.devRead
  exact foldl_keeps (fun x : State × _ => ((x.1).part jj).job) _ (fun a i => by (try dsimp only); (repeat' split) <;> simp) _ _

@[simp] theorem State.devWrite_job (s : State) (p a : Nat) (bs : Bytes) (priv : Bool) (jj : Nat) :
    ((State.devWrite s p a bs priv).1.part jj).job = (s.part jj).job := by
  unfold State.devWrite
  exact foldl_keeps (fun x : State × _ => ((x.1).part jj).job) _ (fun a i => by (try dsimp only); (repeat' split) <;> simp) _ _

@[simp] theorem State.locRead_job (s : State) (p : Nat) (l : Loc) (n : Nat) (jj : Nat) :
    ((State.locRead s p l n).1.part jj).job = (s.part jj).job := by
  unfold State.locRead
  try dsimp only
  (repeat' split) <;> first | (simp; done) | (refine (State.job_setPart _ _ _ _ ?_).trans ?_ <;> simp; done) | (simp; refine (State.job_setPart _ _ _ _ ?_).trans ?_ <;> simp)

@[simp] theorem State.locWrite_job (s : State) (p : Nat) (l : Loc) (bs : Bytes) (jj : Nat) :
    ((State.locWrite s p l bs).1.part jj).job = (s.part jj).job := by
  unfold State.locWrite
  try dsimp only
  (repeat' split) <;> first | (simp; done) | (refine (State.job_setPart _ _ _ _ ?_).trans ?_ <;> simp; done) | (simp; refine (State.job_setPart _ _ _ _ ?_).trans ?_ <;> simp)

@[simp] theorem State.locWrites_job (s : State) (p : Nat) (ws : List (Loc × Bytes)) (jj : Nat) :
    ((State.locWrites s p ws).1.part jj).job = (s.part jj).job := by
  unfold State.locWrites
  exact foldl_keeps (fun x : State × _ => ((x.1).part jj).job) _ (fun a i => by (try dsimp only); (repeat' split) <;> simp) _ _

@[simp] theorem State.locReads_job (s : State) (p : Nat) (ls : List (Loc × Nat)) (jj : Nat) :
    ((State.locReads s p ls).1.part jj).job = (s.part jj).job := by
  unfold State.locReads
  exact foldl_keeps (fun x : State × _ => ((x.1).part jj).job) _ (fun a i => by (try dsimp only); (repeat' split) <;> simp) _ _

@[simp] theorem State.atomic_job (s : State) (p a : Nat) (op : AtomicOp) (flt : MemFault) (jj : Nat) :
    ((State.atomic s p a op flt).1.part jj).job = (s.part jj).job := by
  unfold State.atomic
  try dsimp only
  (repeat' split) <;> first | (simp; done) | (refine (State.job_setPart _ _ _ _ ?_).trans ?_ <;> simp; done) | (simp; refine (State.job_setPart _ _ _ _ ?_).trans ?_ <;> simp)

@[simp] theorem State.locAtomic_job (s : State) (p : Nat) (l : Loc) (op : AtomicOp) (jj : Nat) :
    ((State.locAtomic s p l op).1.part jj).job = (s.part jj).job := by
  unfold State.locAtomic
  try dsimp only
  (repeat' split) <;> first | (simp; done) | (refine (State.job_setPart _ _ _ _ ?_).trans ?_ <;> simp; done) | (simp; refine (State.job_setPart _ _ _ _ ?_).trans ?_ <;> simp)

@[simp] theorem State.kHeader_job (s : State) (x : KCtx) (w : Nat) (jj : Nat) :
    ((State.kHeader s x w).1.part jj).job = (s.part jj).job := by
  unfold State.kHeader
  try dsimp only
  (repeat' split) <;> first | (simp; done) | (refine (State.job_setPart _ _ _ _ ?_).trans ?_ <;> simp; done) | (simp; refine (State.job_setPart _ _ _ _ ?_).trans ?_ <;> simp)

@[simp] theorem State.writeElems_job (s : State) (p : Nat) (t : Tensor) (base : Loc) (line first : Nat) (es : List Nat) (jj : Nat) :
    ((State.writeElems s p t base line first es).1.part jj).job = (s.part jj).job := by
  unfold State.writeElems
  exact foldl_keeps (fun x : State × _ => ((x.1).part jj).job) _ (fun a i => by (try dsimp only); (repeat' split) <;> simp) _ _

@[simp] theorem State.writeOffs_job (s : State) (p : Nat) (t : Tensor) (base : Loc) (line first : Nat) (os : List Nat) (jj : Nat) :
    ((State.writeOffs s p t base line first os).1.part jj).job = (s.part jj).job := by
  unfold State.writeOffs
  exact foldl_keeps (fun x : State × _ => ((x.1).part jj).job) _ (fun a i => by (try dsimp only); (repeat' split) <;> simp) _ _

@[simp] theorem State.writePow2_job (s : State) (p : Nat) (hdr : Loc) (b : Bool) (jj : Nat) :
    ((State.writePow2 s p hdr b).1.part jj).job = (s.part jj).job := by
  unfold State.writePow2
  try dsimp only
  (repeat' split) <;> first | (simp; done) | (refine (State.job_setPart _ _ _ _ ?_).trans ?_ <;> simp; done) | (simp; refine (State.job_setPart _ _ _ _ ?_).trans ?_ <;> simp)

@[simp] theorem State.readEntry_job (s : State) (p : Nat) (t : Tensor) (line i : Nat) (jj : Nat) :
    ((State.readEntry s p t line i).1.part jj).job = (s.part jj).job := by
  unfold State.readEntry
  try dsimp only
  (repeat' split) <;> first | (simp; done) | (refine (State.job_setPart _ _ _ _ ?_).trans ?_ <;> simp; done) | (simp; refine (State.job_setPart _ _ _ _ ?_).trans ?_ <;> simp)

@[simp] theorem State.readScales_job (s : State) (p : Nat) (src : ScaleSrc) (n : Nat) (pairs : Bool) (jj : Nat) :
    ((State.readScales s p src n pairs).1.part jj).job = (s.part jj).job := by
  unfold State.readScales
  try dsimp only
  (repeat' split) <;> first | (simp; done) | (refine (State.job_setPart _ _ _ _ ?_).trans ?_ <;> simp; done) | (simp; refine (State.job_setPart _ _ _ _ ?_).trans ?_ <;> simp)

@[simp] theorem State.readBias_job (s : State) (p : Nat) (b : Option Loc) (n : Nat) (jj : Nat) :
    ((State.readBias s p b n).1.part jj).job = (s.part jj).job := by
  unfold State.readBias
  try dsimp only
  (repeat' split) <;> first | (simp; done) | (refine (State.job_setPart _ _ _ _ ?_).trans ?_ <;> simp; done) | (simp; refine (State.job_setPart _ _ _ _ ?_).trans ?_ <;> simp)

@[simp] theorem State.readDrainIn_job (s : State) (p : Nat) (d : Drain) (bias : Option Loc) (axis : Bool) (rows cols : Nat) (jj : Nat) :
    ((State.readDrainIn s p d bias axis rows cols).1.part jj).job = (s.part jj).job := by
  unfold State.readDrainIn
  try dsimp only
  (repeat' split) <;> first | (simp; done) | (refine (State.job_setPart _ _ _ _ ?_).trans ?_ <;> simp; done) | (simp; refine (State.job_setPart _ _ _ _ ?_).trans ?_ <;> simp)

@[simp] theorem State.readOld_job (s : State) (p : Nat) (d : Drain) (rows cols : Nat) (jj : Nat) :
    ((State.readOld s p d rows cols).1.part jj).job = (s.part jj).job := by
  unfold State.readOld
  exact foldl_keeps (fun x : State × _ => ((x.1).part jj).job) _ (fun a i => by (try dsimp only); (repeat' split) <;> simp) _ _

@[simp] theorem State.putDrain_job (s : State) (p : Nat) (d : Drain) (old : List Bytes) (o : DrainOut) (jj : Nat) :
    ((State.putDrain s p d old o).1.part jj).job = (s.part jj).job := by
  unfold State.putDrain
  try dsimp only
  (repeat' split) <;> first | (simp; done) | (refine (State.job_setPart _ _ _ _ ?_).trans ?_ <;> simp; done) | (simp; refine (State.job_setPart _ _ _ _ ?_).trans ?_ <;> simp)

@[simp] theorem State.drainWork_job (s : State) (p : Nat) (d : Drain) (bias : Option Loc) (axis : Bool) (rows cols : Nat) (compute : DrainIn → (Nat → Nat → Nat) → DrainOut) (jj : Nat) :
    ((State.drainWork s p d bias axis rows cols compute).1.part jj).job = (s.part jj).job := by
  unfold State.drainWork
  try dsimp only
  (repeat' split) <;> first | (simp; done) | (refine (State.job_setPart _ _ _ _ ?_).trans ?_ <;> simp; done) | (simp; refine (State.job_setPart _ _ _ _ ?_).trans ?_ <;> simp)

@[simp] theorem State.slotWork_job (s : State) (c a : Nat) (e : QEntry) (d : Drain) (slot rows cols tileNo : Nat) (bias : Option Loc) (jj : Nat) :
    ((State.slotWork s c a e d slot rows cols tileNo bias).1.part jj).job = (s.part jj).job := by
  unfold State.slotWork
  try dsimp only
  (repeat' split) <;> first | (simp; done) | (refine (State.job_setPart _ _ _ _ ?_).trans ?_ <;> simp; done) | (simp; refine (State.job_setPart _ _ _ _ ?_).trans ?_ <;> simp)

@[simp] theorem State.outlierWork_job (s : State) (p c : Nat) (e : QEntry) (om : OpRef) (d : Drain) (rows cols : Nat) (ol : Option Outlier) (jj : Nat) :
    ((State.outlierWork s p c e om d rows cols ol).1.part jj).job = (s.part jj).job := by
  unfold State.outlierWork
  try dsimp only
  (repeat' split) <;> first | (simp; done) | (refine (State.job_setPart _ _ _ _ ?_).trans ?_ <;> simp; done) | (simp; refine (State.job_setPart _ _ _ _ ?_).trans ?_ <;> simp)

@[simp] theorem State.outlierPlane_job (s : State) (p : Nat) (q : QuantOp) (rows : List (List FVal)) (idx : List Nat) (jj : Nat) :
    ((State.outlierPlane s p q rows idx).1.part jj).job = (s.part jj).job := by
  unfold State.outlierPlane
  try dsimp only
  (repeat' split) <;> first | (simp; done) | (refine (State.job_setPart _ _ _ _ ?_).trans ?_ <;> simp; done) | (simp; refine (State.job_setPart _ _ _ _ ?_).trans ?_ <;> simp)

@[simp] theorem State.putRecord_job (s : State) (p addr : Nat) (bs : Bytes) (jj : Nat) :
    ((State.putRecord s p addr bs).part jj).job = (s.part jj).job := by
  unfold State.putRecord
  try dsimp only
  (repeat' split) <;> first | (simp; done) | (refine (State.job_setPart _ _ _ _ ?_).trans ?_ <;> simp; done) | (simp; refine (State.job_setPart _ _ _ _ ?_).trans ?_ <;> simp)

@[simp] theorem State.putCompletion_job (s : State) (p tag : Nat) (bs : Bytes) (jj : Nat) :
    ((State.putCompletion s p tag bs).part jj).job = (s.part jj).job := by
  unfold State.putCompletion
  try dsimp only
  (repeat' split) <;> first | (simp; done) | (refine (State.job_setPart _ _ _ _ ?_).trans ?_ <;> simp; done) | (simp; refine (State.job_setPart _ _ _ _ ?_).trans ?_ <;> simp)

@[simp] theorem State.addLedger_job (s : State) (p base layers ops opid : Nat) (led : Ledger) (jj : Nat) :
    ((State.addLedger s p base layers ops opid led).part jj).job = (s.part jj).job := by
  unfold State.addLedger
  split
  · rfl
  · exact foldl_keeps (fun x : State => (x.part jj).job) _ (fun a i => by simp) _ _

end Sys2Proof.Machine
end

