-- ==== Sys2Proof/Laws/Records.lean ====
section
/-! SUPPORT. What starting a record leaves of the threads and the DMA channels of its core, and what a launch leaves. -/

namespace Sys2Proof.Machine

open Sys2Proof.Safety

theorem Core.threads_of_engines {j k : Core} (h : j.engines = k.engines) : j.threads = k.threads := congrArg (·.2.2.2.2.1) h

theorem Core.chans_of_engines {j k : Core} (h : j.engines = k.engines) : j.chans = k.chans := congrArg (·.2.2.2.2.2.1) h

@[simp] theorem State.startEntry_threads (s : State) (c q i : Nat) (e : QEntry) (ph : Phase) (d : Nat) :
    ((s.startEntry c q i e ph).core d).threads = (s.core d).threads := by
  rw [State.startEntry, Core.threads_of_engines (State.traceStart_engines _ _ _ _ _ _ _), State.core_setCore_if]
  split
  · subst_vars
    show ((s.core d).consume e).threads = _
    unfold Core.consume
    split <;> rfl
  · rfl

@[simp] theorem State.startEntry_chans (s : State) (c q i : Nat) (e : QEntry) (ph : Phase) (d : Nat) :
    ((s.startEntry c q i e ph).core d).chans = (s.core d).chans := by
  rw [State.startEntry, Core.chans_of_engines (State.traceStart_engines _ _ _ _ _ _ _), State.core_setCore_if]
  split
  · subst_vars
    show ((s.core d).consume e).chans = _
    unfold Core.consume
    split <;> rfl
  · rfl

@[simp] theorem Core.launch_queues (k : Core) (e : QEntry) (loc : Loc) (th : Nat) (args : List Nat) :
    (k.launch e loc th args).queues = k.queues := by
  unfold Core.launch
  exact foldl_keeps (fun x : Core => x.queues) _ (fun _ _ => by rfl) _ _

/-- A launch depends on the threads of the core alone. -/
theorem Core.launch_threads {j k : Core} (h : j.threads = k.threads) (e : QEntry) (loc : Loc) (th : Nat) (args : List Nat) :
    (j.launch e loc th args).threads = (k.launch e loc th args).threads := by
  have hf : j.freeThreads = k.freeThreads := by simp [Core.freeThreads, Core.thread, h]
  unfold Core.launch
  rw [hf]
  generalize (k.freeThreads.take th).zipIdx = xs
  induction xs generalizing j k with
  | nil => simpa using h
  | cons x xs ih =>
    simp only [List.foldl_cons]
    refine ih ?_ ?_
    · simp [Core.setThread, h]
    · simp [Core.freeThreads, Core.thread, Core.setThread, h]

theorem State.lcore_of_phys {s : State} {l c : Nat} (h : s.physOf l = some c) : s.lcore l = s.core c := by simp [State.lcore, h]

theorem State.setLcore_of_phys {s : State} {l c : Nat} (h : s.physOf l = some c) (k : Core) : s.setLcore l k = s.setCore c k := by
  simp [State.setLcore, h]

@[simp] theorem State.startEntry_physOf (s : State) (c q i : Nat) (e : QEntry) (ph : Phase) (l : Nat) :
    (s.startEntry c q i e ph).physOf l = s.physOf l := by simp [State.physOf]

end Sys2Proof.Machine
end

