-- ==== Sys2Proof/Laws/Kernels.lean ====
section
/-! SUPPORT. What one kernel instruction does, once its word is fetched. -/

namespace Sys2Proof.Machine

open Sys2Proof.Safety

/-- A fetched word of its own opcode runs its instruction. -/
theorem State.kernel_fetched {s u : State} {l n op : Nat} {x : KCtx} (h : fetches s l n op u x) (run : State → KCtx → KOut) :
    s.kernel l n op run = ((run u x).finish x).instrEvents x.c op := by
  obtain ⟨-, hp, hpp, ht, hst, hk, ho, bs, hf, hw⟩ := h
  obtain ⟨c, p, t, w, key⟩ := x
  simp only at hp hpp ht hst hk ho hf hw
  subst hpp ht hk hw
  simp only [State.kernel, hp, hst, hf, ho]
  simp

theorem fetches_core {s u : State} {l n op : Nat} {x : KCtx} (h : fetches s l n op u x) (d : Nat) :
    (u.core d).engines = (s.core d).engines := by
  obtain ⟨-, -, -, -, -, -, -, bs, hf, -⟩ := h
  have := State.icacheRead_engines s x.c x.p ((s.core x.c).thread n).pc 8 d
  rwa [hf] at this

theorem fetches_frame {s u : State} {l n op : Nat} {x : KCtx} (h : fetches s l n op u x) : sameModule s u := by
  obtain ⟨-, -, -, -, -, -, -, bs, hf, -⟩ := h
  have : u = (s.icacheRead x.c x.p ((s.core x.c).thread n).pc 8).1 := by rw [hf]
  subst this
  simp [sameModule, sameAround]

theorem sameModule_trans {s t u : State} (h : sameModule s t) (g : sameModule t u) : sameModule s u := by
  simp only [sameModule, sameAround] at *
  simp_all

theorem fetches_reg {s u : State} {l n op : Nat} {x : KCtx} (h : fetches s l n op u x) (v : Nat) : x.reg u v = x.reg s v := by
  simp [KCtx.reg, Core.thread, Core.threads_of_engines (fetches_core h x.c)]

theorem Core.setThread_engines {j k : Core} (h : j.engines = k.engines) (n : Nat) (th : Thread) :
    (j.setThread n th).engines = (k.setThread n th).engines := by
  simp only [Core.engines, Prod.mk.injEq, Core.setThread] at *
  simp_all

theorem Core.addVecLedger_engines {j k : Core} (h : j.engines = k.engines) (n : Nat) (led : Ledger) :
    (j.addVecLedger n led).engines = (k.addVecLedger n led).engines := by
  have hq := Core.queues_of_engines h
  have hv : j.vecEntry n = k.vecEntry n := by simp [Core.vecEntry, Core.queue, hq]
  unfold Core.addVecLedger
  rw [hv]
  split
  · simp only [Core.engines, Prod.mk.injEq, Core.modEntry, Core.setQueue, Core.queue] at *
    simp_all
  · exact h

/-- What an instruction that lets its thread go on leaves, where its own effect leaves the engines and the module around them. -/
theorem KOut.finish_advance {s u : State} {l n op : Nat} {x : KCtx} {o : KOut} (h : fetches s l n op u x)
    (hE : ∀ d, (o.st.core d).engines = (u.core d).engines) (hM : sameModule u o.st) (ha : o.act = .advance) :
    ran s ((o.finish x).instrEvents x.c op) x.c n
      (advanced ((s.core x.c).thread n) (o.regs.foldl (fun acc e => SMap.set 0 e.1 e.2 acc) ((s.core x.c).thread n).regs)) o.led := by
  have hEs : ∀ d, (o.st.core d).engines = (s.core d).engines := fun d => (hE d).trans (fetches_core h d)
  have hth : ((o.st.core x.c).thread n) = (s.core x.c).thread n := by
    simp [Core.thread, Core.threads_of_engines (hEs x.c)]
  refine ⟨fun d => ?_, ?_⟩
  · rw [State.instrEvents_engines]
    simp only [KOut.finish, ha, State.core_setCore_if]
    split
    · simp only [h.2.2.2.1, hth]
      exact Core.addVecLedger_engines (Core.setThread_engines (hEs x.c) _ _) _ _
    · exact hEs d
  · refine sameModule_trans (fetches_frame h) (sameModule_trans hM ?_)
    simp [sameModule, sameAround, KOut.finish]

theorem sameModule_refl (s : State) : sameModule s s := by simp [sameModule, sameAround]

/-- An instruction that writes one register from the registers alone (R147 to R149, R223). -/
theorem KOut.finish_write {s u : State} {l n op : Nat} {x : KCtx} {v : Nat} {r : VReg × Ledger} (h : fetches s l n op u x) :
    ran s (((KOut.write u v r).finish x).instrEvents x.c op) x.c n
      (advanced ((s.core x.c).thread n) (SMap.set 0 v r.1 ((s.core x.c).thread n).regs)) r.2 :=
  KOut.finish_advance (o := KOut.write u v r) h (fun _ => rfl) (sameModule_refl _) rfl

@[simp] theorem length_toLe (n v : Nat) : (toLe n v).length = n := by
  induction n generalizing v with
  | zero => rfl
  | succ n ih => simp [toLe, ih]

theorem length_atomicResult (old : Bytes) (op : AtomicOp) : (atomicResult old op).1.length = atomicWidth op := by
  cases op <;> simp [atomicResult, atomicWidth]

theorem Core.addVecLedger_source (k : Core) (n : Nat) (led : Ledger) : (k.addVecLedger n led).source = k.source := by
  unfold Core.addVecLedger
  split <;> rfl

theorem Core.settle_source (k : Core) (n : Nat) : (k.settle n).source = k.source := by
  unfold Core.settle
  extract_lets ts fail k1
  have h1 : k1.source = k.source := foldl_keeps (fun x : Core => x.source) _ (fun _ _ => by rfl) _ _
  split
  · split <;> exact h1
  · split
    · exact foldl_keeps (fun x : Core => x.source) _ (fun _ _ => by split <;> rfl) _ _
    · rfl

@[simp] theorem State.instrEvents_source (s : State) (c op d : Nat) : ((s.instrEvents c op).core d).source = (s.core d).source := by
  unfold State.instrEvents
  (repeat' split) <;> simp

/-- What an instruction asks of its thread leaves the stores as its own effect left them. -/
theorem KOut.finish_source (o : KOut) (x : KCtx) (d : Nat) : ((o.finish x).core d).source = (o.st.core d).source := by
  unfold KOut.finish
  extract_lets k th regs entry th1 k1
  refine State.source_setCore _ _ _ _ ?_
  have h1 : k1.source = k.source := (Core.addVecLedger_source _ _ _).trans rfl
  split
  · exact h1
  · exact h1
  · exact (Core.settle_source _ _).trans h1

/-- A fold over lanes in which each lane keeps a property. -/
theorem foldl_inv {α β : Type} (P : β → Prop) (f : β → α → β) (xs : List α) (h : ∀ b, P b → ∀ a ∈ xs, P (f b a)) (b : β) (hb : P b) :
    P (xs.foldl f b) := by
  induction xs generalizing b with
  | nil => exact hb
  | cons a xs ih =>
    exact ih (fun b hb c hc => h b hb c (by simp [hc])) _ (h b hb a (by simp))

/-- A gather whose active lanes all name places of a core store completes (R157, R223). -/
theorem kGather_core {u : State} {x : KCtx} {w : Nat} (hw : gatherWidth x.w.imm = some w)
    (ho : ∀ i ∈ activeLanes u x w, ∃ c o, laneAddr u x w i = .at (.cst c o) ∧ o + w ≤ coreStoreBytes) :
    ∃ r, kGather u x = ⟨u.countLines x w, [(x.w.vd, r)], {}, .advance⟩ := by
  unfold kGather
  simp only [hw]
  generalize hr : List.foldl _ _ _ = r
  have : r.1 = ⟨u.countLines x w, [], {}, .advance⟩ := by
    rw [← hr]
    refine foldl_inv (fun r : KOut × Bytes => r.1 = ⟨u.countLines x w, [], {}, .advance⟩) _ _ (fun b hb i hi => ?_) _ rfl
    obtain ⟨c, o, ha, hb2⟩ := ho i hi
    simp only [hb, ha, State.locRead, if_pos hb2]
  simp only [this]
  exact ⟨_, rfl⟩

/-- A scatter whose active lanes all name places of a core store completes, and leaves every engine (R158, R223). -/
theorem kScatter_core {u : State} {x : KCtx} {w : Nat} (hw : gatherWidth x.w.imm = some w)
    (ho : ∀ i ∈ activeLanes u x w, ∃ c o, laneAddr u x w i = .at (.cst c o) ∧ o + w ≤ coreStoreBytes) :
    (kScatter u x).act = .advance ∧ (kScatter u x).regs = [] ∧ (kScatter u x).led = {} ∧
      (∀ d, ((kScatter u x).st.core d).engines = (u.core d).engines) ∧ sameModule u (kScatter u x).st := by
  unfold kScatter
  simp only [hw]
  refine foldl_inv (fun r : KOut => r.act = .advance ∧ r.regs = [] ∧ r.led = {} ∧
      (∀ d, (r.st.core d).engines = (u.core d).engines) ∧ sameModule u r.st) _ _ (fun b hb i hi => ?_) _
    ⟨rfl, rfl, rfl, fun d => by simp, by simp [sameModule, sameAround]⟩
  obtain ⟨c, o, ha, hb2⟩ := ho i hi
  obtain ⟨h1, h2, h3, h4, h5⟩ := hb
  have hl : o + (List.take w (List.drop (i * w) (x.reg u x.w.vd).toBytes)).length ≤ coreStoreBytes := by
    have := List.length_take_le w (List.drop (i * w) (x.reg u x.w.vd).toBytes)
    omega
  simp only [h1, ha, State.locWrite, if_pos hl]
  refine ⟨trivial, h2, h3, fun d => (State.engines_setCore _ _ _ _ (by simp [Core.engines])).trans (h4 d), sameModule_trans h5 ?_⟩
  simp [sameModule, sameAround]

/-- A scatter addition whose active lanes all name places of a core store completes, and leaves every engine (R158, R223). -/
theorem kScatterAdd_core {u : State} {x : KCtx} {w : Nat} (hw : gatherWidth x.w.imm = some w)
    (ht : x.w.type = 0 ∧ w = 4 ∨ x.w.type = 3 ∧ w = 16)
    (ho : ∀ i ∈ activeLanes u x w, ∃ c o, laneAddr u x w i = .at (.cst c o) ∧ o + w ≤ coreStoreBytes) :
    (kScatterAdd u x).act = .advance ∧ (kScatterAdd u x).regs = [] ∧
      (∀ d, ((kScatterAdd u x).st.core d).engines = (u.core d).engines) ∧ sameModule u (kScatterAdd u x).st := by
  unfold kScatterAdd
  simp only [hw]
  rw [if_neg (by rcases ht with ⟨h1, h2⟩ | ⟨h1, h2⟩ <;> simp [h1, h2])]
  refine foldl_inv (fun r : KOut => r.act = .advance ∧ r.regs = [] ∧
      (∀ d, (r.st.core d).engines = (u.core d).engines) ∧ sameModule u r.st) _ _ (fun b hb i hi => ?_) _
    ⟨rfl, rfl, fun d => by simp, by simp [sameModule, sameAround]⟩
  obtain ⟨c, o, ha, hb2⟩ := ho i hi
  obtain ⟨h1, h2, h4, h5⟩ := hb
  have hl : ∀ old, o + (atomicResult old (if w = 4 then AtomicOp.addF32 (BitVec.ofNat 32 ((x.reg u x.w.vd).lane (8 * w) i))
      else .addW128 (BitVec.ofNat 128 ((x.reg u x.w.vd).lane (8 * w) i)))).1.length ≤ coreStoreBytes := by
    intro old
    rw [length_atomicResult]
    rcases ht with ⟨-, h⟩ | ⟨-, h⟩ <;> subst h <;> simpa [atomicWidth] using hb2
  simp only [h1, ha, State.locAtomic, State.locWrite, if_pos (hl _)]
  refine ⟨trivial, h2, fun d => (State.engines_setCore _ _ _ _ (by simp [Core.engines])).trans (h4 d), sameModule_trans h5 ?_⟩
  simp [sameModule, sameAround]

/-! ## Packers -/

theorem foldl_writes_get (xs : List (Nat × VReg)) (regs : SMap VReg) (v : Nat) (h : ∀ e ∈ xs, e.1 ≠ v) :
    SMap.get 0 v (xs.foldl (fun acc e => SMap.set 0 e.1 e.2 acc) regs) = SMap.get 0 v regs := by
  induction xs generalizing regs with
  | nil => rfl
  | cons e xs ih =>
    rw [List.foldl_cons, ih _ (fun x hx => h x (by simp [hx])), SMap.get_set_ne _ _ _ (fun hv => h e (by simp) hv.symm)]

theorem andThen_engines {r : State × Except (Nat × Nat) Unit} {f : State → State × Except (Nat × Nat) Unit} {d : Nat}
    (h : ∀ s, ((f s).1.core d).engines = (s.core d).engines) : ((andThen r f).1.core d).engines = (r.1.core d).engines := by
  unfold andThen
  split
  · exact h _
  · rfl

theorem KOut.ofChain_rest (r : State × Except (Nat × Nat) Unit) (led : Ledger) :
    (KOut.ofChain r led).st = r.1 ∧ (KOut.ofChain r led).regs = [] := by
  unfold KOut.ofChain
  split <;> exact ⟨rfl, rfl⟩

theorem kPackTile_engines (s : State) (x : KCtx) (mode : RMode) (vs : List FVal) :
    (∀ d, ((kPackTile s x mode vs).st.core d).engines = (s.core d).engines) ∧ (kPackTile s x mode vs).regs = [] := by
  unfold kPackTile
  extract_lets
  split
  · exact ⟨fun d => State.engines_setCore _ _ _ _ rfl, rfl⟩
  · split
    · exact ⟨fun _ => rfl, rfl⟩
    · exact ⟨fun _ => rfl, rfl⟩
    · extract_lets r
      split
      · exact ⟨fun d => by simp [KOut.busErr, r], rfl⟩
      · simp [KOut.ofChain_rest, r]

theorem packLine_engines (s : State) (x : KCtx) (t : Tensor) (el : Loc) (sg : Seg) (xs : List FVal) (q : Nat → Nat) (mode : RMode)
    (compute : Bool) (hl : Loc) :
    (∀ d, ((kPackSeg.packLine s x t el sg xs q mode compute hl).st.core d).engines = (s.core d).engines) ∧
      (kPackSeg.packLine s x t el sg xs q mode compute hl).regs = [] := by
  unfold kPackSeg.packLine
  split
  · split
    · exact ⟨fun _ => rfl, rfl⟩
    · extract_lets sc pad
      split
      · exact ⟨fun d => by simp [KOut.busErr, sc], rfl⟩
      · extract_lets ln r
        refine ⟨fun d => ?_, (KOut.ofChain_rest _ _).2⟩
        rw [(KOut.ofChain_rest _ _).1]
        unfold r
        rw [andThen_engines (fun s1 => by
          rw [andThen_engines (fun s2 => by
            rw [andThen_engines (fun s3 => by simp)]
            simp)]
          simp)]
        simp [sc]
  · exact ⟨fun _ => rfl, rfl⟩

theorem kPackSeg_engines (s : State) (x : KCtx) (mode : RMode) (vs : List FVal) :
    (∀ d, ((kPackSeg s x mode vs).st.core d).engines = (s.core d).engines) ∧ (kPackSeg s x mode vs).regs = [] := by
  unfold kPackSeg
  extract_lets c h
  have hh : ∀ d, h.1.core d = s.core d := fun d => by simp [h]
  split
  · exact ⟨fun d => by simp [hh], rfl⟩
  · extract_lets sg xs q compute
    split
    · split
      · extract_lets rs
        refine ⟨fun d => ?_, (KOut.ofChain_rest _ _).2⟩
        rw [(KOut.ofChain_rest _ _).1]
        simp [hh]
      · split
        · have := packLine_engines h.1 x
          exact ⟨fun d => ((this _ _ _ _ _ _ _ _).1 d).trans (by rw [hh]), (this _ _ _ _ _ _ _ _).2⟩
        · exact ⟨fun d => by simp [KOut.undefined, hh], rfl⟩
    · split
      · have := packLine_engines h.1 x
        exact ⟨fun d => ((this _ _ _ _ _ _ _ _).1 d).trans (by rw [hh]), (this _ _ _ _ _ _ _ _).2⟩
      · exact ⟨fun d => by simp [KOut.undefined, hh], rfl⟩
    · exact ⟨fun d => by simp [KOut.undefined, hh], rfl⟩

/-- A pack leaves every engine and thread and writes no register (R151). -/
theorem kPack_engines (s : State) (x : KCtx) :
    (∀ d, ((kPack s x).st.core d).engines = (s.core d).engines) ∧ (kPack s x).regs = [] := by
  unfold kPack
  split
  · split
    · exact ⟨fun _ => rfl, rfl⟩
    · extract_lets vs
      split
      · exact kPackTile_engines _ _ _ _
      · exact kPackSeg_engines _ _ _ _
  · exact ⟨fun _ => rfl, rfl⟩

/-- A pack into a gradient tile of the core needs no access that could fail (R126, R151). -/
theorem kPack_gtb {s : State} {x : KCtx} {f : FloatFmt} {mode : RMode} (hf : typeFloat x.w.type = some f)
    (hm : RMode.ofCode x.w.rm = some mode) (hv : x.w.va + bits x.w.imm 0 2 ≤ 31) (h3 : bit x.w.imm 3 = true ∧ bit x.w.imm 4 = true) :
    (kPack s x).act = .advance := by
  unfold kPack
  simp only [hf, hm, if_neg (show ¬ 31 < x.w.va + bits x.w.imm 0 2 by omega), h3.1, if_true, kPackTile, h3.2]

/-- An unpack leaves every engine and thread and writes the registers from VD on alone (R151). -/
theorem kUnpack_engines (s : State) (x : KCtx) :
    (∀ d, ((kUnpack s x).st.core d).engines = (s.core d).engines) ∧
      ∀ (regs : SMap VReg) (v : Nat), v < x.w.vd ∨ x.w.vd + bits x.w.imm 0 2 < v →
        SMap.get 0 v ((kUnpack s x).regs.foldl (fun acc e => SMap.set 0 e.1 e.2 acc) regs) = SMap.get 0 v regs := by
  unfold kUnpack
  split
  · extract_lets n c h lanes
    have hh : ∀ d, h.1.core d = s.core d := fun d => by simp [h]
    split
    · exact ⟨fun _ => rfl, fun _ _ _ => rfl⟩
    · split
      · exact ⟨fun d => by simp [hh], fun _ _ _ => rfl⟩
      · extract_lets sg r
        have hr : ∀ d, r.1.core d = s.core d := fun d => by
          unfold r
          refine foldl_inv (fun q : State × Except KAct (List Nat × Ledger) => q.1.core d = s.core d) _ _ (fun b hb i hi => ?_) _ (hh d)
          dsimp only
          split
          · exact hb
          · split
            · simp [hb]
            · split <;> simp [hb]
        split
        · exact ⟨fun d => by simp [hr], fun _ _ _ => rfl⟩
        · refine ⟨fun d => by simp [hr], fun regs v hv => foldl_writes_get _ _ _ (fun e he => ?_)⟩
          obtain ⟨i, hi, rfl⟩ := List.mem_map.mp he
          have := List.mem_range.mp hi
          show x.w.vd + i ≠ v
          omega
  · exact ⟨fun _ => rfl, fun _ _ _ => rfl⟩

/-! ## Control -/

/-- While a thread of a record runs, its record goes on as it is (R153). -/
theorem Core.settle_running {k : Core} {serial m : Nat} (hm : m < 16) (hs : (k.thread m).serial = serial)
    (hr : (k.thread m).st = .running) : k.settle serial = k := by
  have hmem : m ∈ k.threadsOf serial := by
    simp [Core.threadsOf, hm, hs, hr]
  unfold Core.settle
  extract_lets ts fail k1
  have h1 : (ts.all fun t => (k.thread t).st.finished) = false := by
    rw [List.all_eq_false]
    exact ⟨m, hmem, by simp [hr, ThreadSt.finished]⟩
  have h2 : (ts.all fun t => (k.thread t).st.arrived) = false := by
    rw [List.all_eq_false]
    exact ⟨m, hmem, by simp [hr, ThreadSt.arrived]⟩
  rw [if_neg (by simp [h1]), if_neg (by simp [h2])]

theorem Core.thread_setThread (k : Core) (n m : Nat) (th : Thread) :
    (k.setThread n th).thread m = if m = n then th else k.thread m := by
  simp [Core.thread, Core.setThread, SMap.get_set]

@[simp] theorem Core.addVecLedger_thread (k : Core) (n m : Nat) (led : Ledger) : (k.addVecLedger n led).thread m = k.thread m := by
  unfold Core.addVecLedger
  split <;> rfl

@[simp] theorem Core.modEntry_thread (k : Core) (q i n : Nat) (f : QEntry → QEntry) : (k.modEntry q i f).thread n = k.thread n := rfl

@[simp] theorem Core.setThread_vecEntry (k : Core) (n m : Nat) (th : Thread) : (k.setThread n th).vecEntry m = k.vecEntry m := rfl

/-- The thread that an instruction leaves, by what it asks. -/
theorem KOut.finish_thread {s u : State} {l n op : Nat} {x : KCtx} {o : KOut} {th1 : Thread} (h : fetches s l n op u x)
    (hst : o.st = u) (hl : o.led = {}) (hr : o.regs = [])
    (ha : (o.act = .barrier ∧ th1 = { (s.core x.c).thread n with pc := ((s.core x.c).thread n).pc.plus 8, st := .atBarrier })
      ∨ (o.act = .finish ∧ th1 = { (s.core x.c).thread n with st := .ended })
      ∨ ∃ c d, o.act = .fail c d ∧ th1 = { (s.core x.c).thread n with st := .failed c d })
    (hm : ∃ m, m < 16 ∧ m ≠ n ∧ ((s.core x.c).thread m).serial = ((s.core x.c).thread n).serial ∧ ((s.core x.c).thread m).st = .running) :
    ran s ((o.finish x).instrEvents x.c op) x.c n th1 {} := by
  obtain ⟨m, hm16, hmn, hms, hmr⟩ := hm
  have hE := fetches_core h
  have hth : ∀ j, (u.core x.c).thread j = (s.core x.c).thread j := fun j => by
    simp [Core.thread, Core.threads_of_engines (hE x.c)]
  have hset : ∀ k : Core, (∀ j, j ≠ n → k.thread j = (s.core x.c).thread j) → k.settle ((s.core x.c).thread n).serial = k := fun k hk =>
    Core.settle_running hm16 (by rw [hk m hmn, hms]) (by rw [hk m hmn, hmr])
  refine ⟨fun d => ?_, ?_⟩
  · rw [State.instrEvents_engines]
    have key : ∀ th2 : Thread, (((u.core x.c).setThread n th2).addVecLedger ((s.core x.c).thread n).serial {}).settle ((s.core x.c).thread n).serial
        = (((u.core x.c).setThread n th2).addVecLedger ((s.core x.c).thread n).serial {}) := fun th2 => hset _ (fun j hj => by
      rw [Core.addVecLedger_thread, Core.thread_setThread, if_neg hj, hth])
    rcases ha with ⟨ha, rfl⟩ | ⟨ha, rfl⟩ | ⟨c, e, ha, rfl⟩ <;>
    · simp only [KOut.finish, ha, hst, hl, hr, h.2.2.2.1, hth, State.core_setCore_if, key]
      split
      · exact Core.addVecLedger_engines (Core.setThread_engines (hE x.c) _ _) _ _
      · exact hE d
  · refine sameModule_trans (fetches_frame h) ?_
    rw [← hst]
    simp [sameModule, sameAround, KOut.finish]

/-- The thread that a jump leaves (R223). -/
theorem KOut.finish_jump {s u : State} {l n op i m tgt : Nat} {args : List Nat} {e : QEntry} {loc : Loc} {x : KCtx} (h : fetches s l n op u x)
    (hv : (s.core x.c).vecEntry ((s.core x.c).thread n).serial = some (i, e)) (ho : e.op = .launch loc m args) :
    ran s (((⟨u, [], {}, .jump tgt⟩ : KOut).finish x).instrEvents x.c op) x.c n { (s.core x.c).thread n with pc := loc.plus (8 * tgt) } {} := by
  have hE := fetches_core h
  have hth : ∀ j, (u.core x.c).thread j = (s.core x.c).thread j := fun j => by
    simp [Core.thread, Core.threads_of_engines (hE x.c)]
  have hve : (u.core x.c).vecEntry ((s.core x.c).thread n).serial = some (i, e) := by
    rw [← hv]; simp [Core.vecEntry, Core.queue, Core.queues_of_engines (hE x.c)]
  refine ⟨fun d => ?_, ?_⟩
  · rw [State.instrEvents_engines]
    simp only [KOut.finish, h.2.2.2.1, hth, State.core_setCore_if, hve, ho]
    split
    · exact Core.addVecLedger_engines (Core.setThread_engines (hE x.c) _ _) _ _
    · exact hE d
  · refine sameModule_trans (fetches_frame h) ?_
    simp [sameModule, sameAround, KOut.finish]

/-! ## The end of a record -/

theorem find_zipIdx {p : QEntry → Bool} {es : List QEntry} {k i : Nat} {e : QEntry}
    (h : (es.zipIdx k).find? (fun x => p x.1) = some (e, i)) : k ≤ i ∧ es[i - k]? = some e ∧ p e = true := by
  induction es generalizing k with
  | nil => simp at h
  | cons x es ih =>
    rw [List.zipIdx_cons, List.find?_cons] at h
    split at h
    · simp only [Option.some.injEq, Prod.mk.injEq] at h
      obtain ⟨rfl, rfl⟩ := h
      exact ⟨Nat.le_refl _, by simp, by assumption⟩
    · obtain ⟨h1, h2, h3⟩ := ih h
      exact ⟨by omega, by rw [show i - k = (i - (k + 1)) + 1 by omega]; simpa using h2, h3⟩

theorem find_zipIdx_modAt {p : QEntry → Bool} {f : QEntry → QEntry} (hp : ∀ e, p (f e) = p e) {es : List QEntry} {k i : Nat} {e : QEntry}
    (h : (es.zipIdx k).find? (fun x => p x.1) = some (e, i)) :
    ((modAt es (i - k) f).zipIdx k).find? (fun x => p x.1) = some (f e, i) := by
  induction es generalizing k with
  | nil => simp at h
  | cons x es ih =>
    rw [List.zipIdx_cons, List.find?_cons] at h
    split at h
    · rename_i hx
      simp only [Option.some.injEq, Prod.mk.injEq] at h
      obtain ⟨rfl, rfl⟩ := h
      simp only [Nat.sub_self, modAt, List.modify_zero_cons, List.zipIdx_cons, List.find?_cons, hp, hx]
    · rename_i hx
      have h1 := (find_zipIdx h).1
      have h2 := ih h
      rw [show i - k = (i - (k + 1)) + 1 by omega]
      simp only [modAt, List.modify_succ_cons, List.zipIdx_cons, List.find?_cons, hx] at *
      exact h2

theorem Core.vecEntry_some {k : Core} {serial i : Nat} {e : QEntry} (h : k.vecEntry serial = some (i, e)) :
    (k.queue 2)[i]? = some e ∧ e.serial = serial := by
  simp only [Core.vecEntry, Option.map_eq_some_iff, Prod.mk.injEq] at h
  obtain ⟨⟨a, b⟩, h1, rfl, rfl⟩ := h
  have := find_zipIdx (p := fun e => e.serial == serial) h1
  exact ⟨by simpa using this.2.1, by simpa using this.2.2⟩

theorem Core.vecEntry_modEntry {k : Core} {serial i : Nat} {e : QEntry} (f : QEntry → QEntry) (hf : ∀ x, (f x).serial = x.serial)
    (h : k.vecEntry serial = some (i, e)) : (k.modEntry 2 i f).vecEntry serial = some (i, f e) := by
  have hlt := Core.lt_of_entry (Core.vecEntry_some h).1
  simp only [Core.vecEntry, Option.map_eq_some_iff, Prod.mk.injEq] at h
  obtain ⟨⟨a, b⟩, h1, rfl, rfl⟩ := h
  have := find_zipIdx_modAt (p := fun e => e.serial == serial) (f := f) (by simp [hf]) h1
  simp only [Core.vecEntry, Core.modEntry, Core.queue_setQueue _ _ _ hlt]
  simp only [Nat.sub_zero] at this
  rw [this]
  rfl

theorem foldl_reset_thread (xs : List Nat) (k : Core) (n : Nat) (h : n ∈ xs ∨ k.thread n = .reset) :
    (xs.foldl (fun acc t => acc.setThread t .reset) k).thread n = .reset := by
  induction xs generalizing k with
  | nil => simpa using h
  | cons a xs ih =>
    refine ih _ ?_
    rw [Core.thread_setThread]
    by_cases ha : n = a
    · simp [ha]
    · rcases h with h | h
      · left; simpa [ha] using h
      · right; simp [ha, h]

/-- A record whose threads have all ended is done with success, and its threads are free (R153). -/
theorem Core.settle_ended {k : Core} {serial i n : Nat} {e : QEntry} (hv : k.vecEntry serial = some (i, e)) (hn : n < 16)
    (hs : (k.thread n).serial = serial) (he : (k.thread n).st = .ended)
    (hall : ∀ m, (k.thread m).st ≠ .free → (k.thread m).serial = serial → (k.thread m).st = .ended) :
    ((k.settle serial).thread n) = .reset ∧ ((k.settle serial).queue 2)[i]? = some { e with phase := .done Code.ok e.led 0 0 } := by
  have hts : ∀ t ∈ k.threadsOf serial, (k.thread t).st = .ended := fun t ht => by
    simp only [Core.threadsOf, List.mem_filter, List.mem_range, Bool.and_eq_true, bne_iff_ne, ne_eq, beq_iff_eq] at ht
    exact hall t ht.2.1 ht.2.2
  have hmem : n ∈ k.threadsOf serial := by simp [Core.threadsOf, hn, hs, he]
  unfold Core.settle
  extract_lets ts fail k1 o
  have h1 : (ts.all fun t => (k.thread t).st.finished) = true := by
    rw [List.all_eq_true]
    intro t ht
    simp [hts t ht, ThreadSt.finished]
  have h2 : fail = none := by
    refine List.findSome?_eq_none_iff.mpr (fun t ht => ?_)
    simp [hts t ht]
  have h3 : k1.queues = k.queues := foldl_keeps (fun x : Core => x.queues) _ (fun _ _ => by rfl) _ _
  have h4 : k1.vecEntry serial = some (i, e) := by rw [← hv]; simp [Core.vecEntry, Core.queue, h3]
  rw [if_pos h1]
  simp only [h4, h2]
  refine ⟨?_, ?_⟩
  · show k1.thread n = .reset
    exact foldl_reset_thread _ _ _ (.inl hmem)
  · have := (Core.vecEntry_some h4).1
    have ho : o = (Code.ok, 0) := by simp [o, h2]
    rw [Core.modEntry_entry, this, ho]
    rfl

end Sys2Proof.Machine
end

