-- ==== Sys2Proof/Laws/Channels.lean ====
section
/-! SUPPORT. Reading and replacing the state of a DMA channel, and which operations leave every channel as it is. -/

namespace Sys2Proof.Machine

open Sys2Proof.Safety

theorem channelIs_chn {s : State} {ch : Chan} {x : Chn} (h : channelIs s ch x) : s.chn ch = x := by
  cases ch with
  | core l n =>
    obtain ⟨c, hp, hc⟩ := h
    simp [State.chn, State.lcore_of_phys hp, hc]
  | bulk b n =>
    have : (s.bdie b)[n]? = some x := h
    simp [State.chn, this]

/-- Replacing the state of a channel that exists. -/
theorem channelIs_setChn {s : State} {ch : Chan} {x : Chn} (y : Chn) (h : channelIs s ch x) : channelIs (s.setChn ch y) ch y := by
  cases ch with
  | core l n =>
    obtain ⟨c, hp, hc⟩ := h
    have hlt : n < (s.core c).chans.length := (List.getElem?_eq_some_iff.mp hc).1
    refine ⟨c, by simp [State.physOf] at *; exact hp, ?_⟩
    simp only [State.setChn, State.setLcore_of_phys hp, State.lcore_of_phys hp, State.core_setCore]
    simp [setAt, hlt]
  | bulk b n =>
    have h' : (s.bdie b)[n]? = some x := h
    have hlt : n < (s.bdie b).length := (List.getElem?_eq_some_iff.mp h').1
    show ((s.setChn (.bulk b n) y).bdie b)[n]? = some y
    simp only [State.setChn]
    rw [show ∀ (m : SMap (List Chn)) (v : List Chn), ({ s with bdies := SMap.set (List.replicate 18 Chn.reset) b v m } : State).bdie b = v from
      fun m v => by simp [State.bdie, -List.reduceReplicate]]
    simp [setAt, hlt]

theorem channelIs_of {s t : State} {ch : Chan} {x : Chn} (hE : ∀ d, (t.core d).engines = (s.core d).engines) (hl : t.lmap = s.lmap)
    (hb : t.bdies = s.bdies) (h : channelIs s ch x) : channelIs t ch x := by
  cases ch with
  | core l n =>
    obtain ⟨c, hp, hc⟩ := h
    exact ⟨c, by simpa [State.physOf, hl] using hp, by rw [Core.chans_of_engines (hE c)]; exact hc⟩
  | bulk b n =>
    have h' : (s.bdie b)[n]? = some x := h
    show (t.bdie b)[n]? = some x
    simpa [State.bdie, hb] using h'

/-- Changing the run of a channel. -/
theorem channelIs_modRun {s : State} {ch : Chan} {x : Chn} (f : ChRun → ChRun) (h : channelIs s ch x) :
    channelIs (s.modRun ch f) ch { x with run := x.run.map f } := by
  have := channelIs_setChn { s.chn ch with run := (s.chn ch).run.map f } h
  rw [channelIs_chn h] at this
  simpa [State.modRun, channelIs_chn h] using this

@[simp] theorem State.locReadFlt_core (s : State) (p : Nat) (l : Loc) (n : Nat) (flt : MemFault) (d : Nat) :
    (s.locReadFlt p l n flt).1.core d = s.core d := by
  unfold State.locReadFlt
  split <;> simp

@[simp] theorem State.locWriteFlt_engines (s : State) (p : Nat) (l : Loc) (bs : Bytes) (flt : MemFault) (d : Nat) :
    ((s.locWriteFlt p l bs flt).1.core d).engines = (s.core d).engines := by
  unfold State.locWriteFlt
  split <;> simp

@[simp] theorem State.watchRead_engines (s : State) (ch : Chan) (r : ChRun) (c : Cur) (line d : Nat) :
    ((s.watchRead ch r c line).core d).engines = (s.core d).engines := by
  unfold State.watchRead
  dsimp only
  split
  · rfl
  · exact State.engines_setCore _ _ _ _ rfl

@[simp] theorem State.wroteEvents_engines (s : State) (c : Nat) (l : Loc) (n d : Nat) :
    ((s.wroteEvents c l n).core d).engines = (s.core d).engines := by
  unfold State.wroteEvents
  dsimp only
  (repeat' split) <;> simp

theorem coresOf_of {s t : State} (hl : t.lmap = s.lmap) (hy : t.layout = s.layout) (hg : t.gradeS = s.gradeS) (p : Nat) :
    t.coresOf p = s.coresOf p := by
  simp only [State.coresOf, State.dies, State.dieOf, State.coresPerDie, hl, hy, hg]

theorem partOfPhys_of {s t : State} (hy : t.layout = s.layout) (c : Nat) : t.partOfPhys c = s.partOfPhys c := by
  simp only [State.partOfPhys, State.partOfDie, hy]

theorem setChn_seq (s : State) (ch : Chan) (x : Chn) (d : Nat) : ((s.setChn ch x).core d).seq = (s.core d).seq ∧
    ((s.setChn ch x).core d).queues = (s.core d).queues ∧ ((s.setChn ch x).core d).store = (s.core d).store := by
  cases ch with
  | core l n =>
    simp only [State.setChn, State.setLcore]
    split
    · rename_i c hc
      rw [State.core_setCore_if]
      split
      · rename_i h; subst h; simp [State.lcore, hc]
      · simp
    · simp
  | bulk b n => simp [State.setChn, State.core]

theorem modRun_seq (s : State) (ch : Chan) (f : ChRun → ChRun) (d : Nat) : ((s.modRun ch f).core d).seq = (s.core d).seq :=
  (setChn_seq _ _ _ _).1
theorem modRun_queues (s : State) (ch : Chan) (f : ChRun → ChRun) (d : Nat) : ((s.modRun ch f).core d).queues = (s.core d).queues :=
  (setChn_seq _ _ _ _).2.1
theorem modRun_store (s : State) (ch : Chan) (f : ChRun → ChRun) (d : Nat) : ((s.modRun ch f).core d).store = (s.core d).store :=
  (setChn_seq _ _ _ _).2.2

theorem wroteEvents_store (s : State) (c : Nat) (l : Loc) (n d : Nat) : ((s.wroteEvents c l n).core d).store = (s.core d).store := by
  have : ((s.wroteEvents c l n).core d).source = (s.core d).source := by
    unfold State.wroteEvents
    dsimp only
    (repeat' split) <;> simp
  exact congrArg (·.store) this

theorem finishRun_channel (s : State) (ch : Chan) (x : Chn) (o : Outcome) (h : channelIs s ch x) {r : ChRun} (hr : x.run = some r) :
    channelIs (s.finishRun ch o) ch { x with run := none } ∧
      ∀ i e, entry s r.core 3 i = some e → e.serial = r.serial → entry (s.finishRun ch o) r.core 3 i = some { e with phase := o.phase } := by
  have hc := channelIs_chn h
  have h1 := channelIs_setChn { x with run := none } h
  have h0 : s.finishRun ch o = (s.setChn ch { x with run := none }).setCore r.core (((s.setChn ch { x with run := none }).core r.core).setQueue 3
      ((((s.setChn ch { x with run := none }).core r.core).queue 3).map (fun e => if e.serial == r.serial then { e with phase := o.phase } else e))) := by
    simp only [State.finishRun, hc, hr]
  rw [h0]
  constructor
  · cases ch with
    | core l n =>
      obtain ⟨c, hp, hcc⟩ := h1
      refine ⟨c, by simpa [State.physOf] using hp, ?_⟩
      rw [State.core_setCore_if]
      split
      · subst_vars; exact hcc
      · exact hcc
    | bulk b n =>
      have h2 : ((s.setChn (.bulk b n) { x with run := none }).bdie b)[n]? = some { x with run := none } := h1
      show ((State.setCore _ _ _).bdie b)[n]? = _
      simpa [State.bdie] using h2
  · intro i e he hs
    have hq := (setChn_seq s ch { x with run := none } r.core).2.1
    have he' : (((s.setChn ch { x with run := none }).core r.core).queue 3)[i]? = some e := by
      simpa [Core.queue, hq, entry] using he
    simp only [entry, State.core_setCore]
    rw [Core.queue_setQueue _ _ _ (Core.lt_of_entry he'), List.getElem?_map, he']
    simp [hs]

theorem breach_rest (s : State) (p c tag opid engine index detail deadline : Nat) (h : (s.job p).isSome = true) :
    (∀ d, ((s.breach p c tag opid engine index detail deadline).core d).engines = (s.core d).engines) ∧
      (s.breach p c tag opid engine index detail deadline).hif.breaches = modAt s.hif.breaches p (fun n => satAdd 0xFFFFFFFF n 1) ∧
      ((s.breach p c tag opid engine index detail deadline).job p).map (·.breach) = some true := by
  unfold State.breach
  extract_lets bs s1 s2
  have h1 : s1.hif.breaches = s.hif.breaches := congrArg (·.breaches) (show s1.hif.quiet = s.hif.quiet by simp [s1])
  have h2 : (s1.part p).job = (s.part p).job := by simp [s1]
  refine ⟨fun d => ?_, ?_, ?_⟩
  · show (s2.core d).engines = _
    simp [s2, s1]
  · show modAt s2.hif.breaches p _ = _
    simp only [s2, State.modJob_frame, h1]
  · show ((s2.part p).job).map _ = _
    simp only [s2, State.modJob, State.part_setPart, h2]
    obtain ⟨j, hj⟩ := Option.isSome_iff_exists.mp h
    simp only [State.job] at hj
    simp [hj]

end Sys2Proof.Machine
end

