-- ==== Sys2Proof/Laws/Global.lean ====
section
/-! SUPPORT. Which operations change nothing of the global DBG block but its counters. -/

namespace Sys2Proof.Machine

/-- The global DBG block but its counters. -/
def GlobalDbg.setting (g : GlobalDbg) : GlobalDbg := { g with gcnt := [] }

@[simp] theorem State.ite_setting (p : Prop) [Decidable p] (s t : State) :
    (if p then s else t).gdbg.setting = if p then s.gdbg.setting else t.gdbg.setting := by split <;> rfl

@[simp] theorem State.gevent_setting (s : State) (block inst ev n : Nat) : (s.gevent block inst ev n).gdbg.setting = s.gdbg.setting := by
  unfold State.gevent
  split <;> rfl

@[simp] theorem State.touchLine_setting (s : State) (p d line : Nat) (dirty : Bool) :
    (State.touchLine s p d line dirty).gdbg.setting = s.gdbg.setting := by
  unfold State.touchLine
  try dsimp only
  (repeat' split) <;> simp

@[simp] theorem State.countCe_setting (s : State) (p line : Nat) :
    (State.countCe s p line).gdbg.setting = s.gdbg.setting := by
  unfold State.countCe
  try dsimp only
  (repeat' split) <;> simp

@[simp] theorem State.readWord_setting (s : State) (p line : Nat) (flt : MemFault) :
    (State.readWord s p line flt).1.gdbg.setting = s.gdbg.setting := by
  unfold State.readWord
  try dsimp only
  (repeat' split) <;> simp

@[simp] theorem State.readLine_setting (s : State) (p a0 n : Nat) (priv : Bool) (flt : MemFault) :
    (State.readLine s p a0 n priv flt).1.gdbg.setting = s.gdbg.setting := by
  unfold State.readLine
  try dsimp only
  (repeat' split) <;> simp

@[simp] theorem State.writeLine_setting (s : State) (p a0 : Nat) (bs : Bytes) (priv : Bool) (flt : MemFault) :
    (State.writeLine s p a0 bs priv flt).1.gdbg.setting = s.gdbg.setting := by
  unfold State.writeLine
  try dsimp only
  (repeat' split) <;> simp

@[simp] theorem State.devRead_setting (s : State) (p a n : Nat) (priv : Bool) :
    (State.devRead s p a n priv).1.gdbg.setting = s.gdbg.setting := by
  unfold State.devRead
  exact foldl_keeps (fun x : State × _ => (x.1).gdbg.setting) _ (fun a i => by (try dsimp only); (repeat' split) <;> simp) _ _

@[simp] theorem State.devWrite_setting (s : State) (p a : Nat) (bs : Bytes) (priv : Bool) :
    (State.devWrite s p a bs priv).1.gdbg.setting = s.gdbg.setting := by
  unfold State.devWrite
  exact foldl_keeps (fun x : State × _ => (x.1).gdbg.setting) _ (fun a i => by (try dsimp only); (repeat' split) <;> simp) _ _

@[simp] theorem State.locRead_setting (s : State) (p : Nat) (l : Loc) (n : Nat) :
    (State.locRead s p l n).1.gdbg.setting = s.gdbg.setting := by
  unfold State.locRead
  try dsimp only
  (repeat' split) <;> simp

@[simp] theorem State.locWrite_setting (s : State) (p : Nat) (l : Loc) (bs : Bytes) :
    (State.locWrite s p l bs).1.gdbg.setting = s.gdbg.setting := by
  unfold State.locWrite
  try dsimp only
  (repeat' split) <;> simp

@[simp] theorem State.locWrites_setting (s : State) (p : Nat) (ws : List (Loc × Bytes)) :
    (State.locWrites s p ws).1.gdbg.setting = s.gdbg.setting := by
  unfold State.locWrites
  exact foldl_keeps (fun x : State × _ => (x.1).gdbg.setting) _ (fun a i => by (try dsimp only); (repeat' split) <;> simp) _ _

@[simp] theorem State.locReads_setting (s : State) (p : Nat) (ls : List (Loc × Nat)) :
    (State.locReads s p ls).1.gdbg.setting = s.gdbg.setting := by
  unfold State.locReads
  exact foldl_keeps (fun x : State × _ => (x.1).gdbg.setting) _ (fun a i => by (try dsimp only); (repeat' split) <;> simp) _ _

@[simp] theorem State.atomic_setting (s : State) (p a : Nat) (op : AtomicOp) (flt : MemFault) :
    (State.atomic s p a op flt).1.gdbg.setting = s.gdbg.setting := by
  unfold State.atomic
  try dsimp only
  (repeat' split) <;> simp

@[simp] theorem State.putRecord_setting (s : State) (p addr : Nat) (bs : Bytes) :
    (State.putRecord s p addr bs).gdbg.setting = s.gdbg.setting := by
  unfold State.putRecord
  try dsimp only
  (repeat' split) <;> simp

@[simp] theorem State.putCompletion_setting (s : State) (p tag : Nat) (bs : Bytes) :
    (State.putCompletion s p tag bs).gdbg.setting = s.gdbg.setting := by
  unfold State.putCompletion
  try dsimp only
  (repeat' split) <;> simp

@[simp] theorem State.settleStream_setting (s : State) (c : Nat) :
    (State.settleStream s c).gdbg.setting = s.gdbg.setting := by
  unfold State.settleStream
  try dsimp only
  (repeat' split) <;> simp

@[simp] theorem State.haltOne_setting (s : State) (c : Nat) (f : Failure) :
    (State.haltOne s c f).gdbg.setting = s.gdbg.setting := by
  unfold State.haltOne
  try dsimp only
  (repeat' split) <;> simp

@[simp] theorem State.failOne_setting (s : State) (c : Nat) (e : QEntry) (status detail : Nat) :
    (State.failOne s c e status detail).gdbg.setting = s.gdbg.setting := by
  unfold State.failOne
  try dsimp only
  (repeat' split) <;> simp

@[simp] theorem State.abortWaiting_setting (s : State) (p : Nat) :
    (State.abortWaiting s p).gdbg.setting = s.gdbg.setting := by
  unfold State.abortWaiting
  exact foldl_keeps (fun x : State => (x).gdbg.setting) _ (fun a i => by (try dsimp only); (repeat' split) <;> simp) _ _

@[simp] theorem State.haltStream_setting (s : State) (c : Nat) (f : Failure) :
    (State.haltStream s c f).gdbg.setting = s.gdbg.setting := by
  unfold State.haltStream
  try dsimp only
  (repeat' split) <;> simp

@[simp] theorem State.failStream_setting (s : State) (c : Nat) (e : QEntry) (status detail : Nat) :
    (State.failStream s c e status detail).gdbg.setting = s.gdbg.setting := by
  unfold State.failStream
  try dsimp only
  (repeat' split) <;> simp

@[simp] theorem State.addToken_setting (s : State) (c ctr inc : Nat) :
    (State.addToken s c ctr inc).gdbg.setting = s.gdbg.setting := by
  unfold State.addToken
  try dsimp only
  (repeat' split) <;> simp

end Sys2Proof.Machine
end

