-- ==== Sys2Proof/Laws/Debug.lean ====
section
/-! SUPPORT. One element of a list replaced, and what a change of the DBG registers of one core leaves as it is. -/

namespace Sys2Proof.Machine

/-- Two states with the same fields are the same state. -/
theorem State.same {s t : State} (h0 : s.pending =
    t.pending) (h1 : s.freeCtr = t.freeCtr) (h2 : s.gradeS = t.gradeS) (h3 : s.ft = t.ft) (h4 : s.cls = t.cls) (h5 :
    s.layout = t.layout) (h6 : s.setup = t.setup) (h7 : s.serial = t.serial) (h8 : s.bringing = t.bringing) (h9 : s.lmap
    = t.lmap) (h10 : s.parts = t.parts) (h11 : s.cores = t.cores) (h12 : s.slices = t.slices) (h13 : s.hbmcs = t.hbmcs)
    (h14 : s.bdies = t.bdies) (h15 : s.ports = t.ports) (h16 : s.nodes = t.nodes) (h17 : s.time = t.time) (h18 : s.out =
    t.out) (h19 : s.hif = t.hif) (h20 : s.chip = t.chip) (h21 : s.gov = t.gov) (h22 : s.mmc = t.mmc) (h23 : s.gdbg =
    t.gdbg) :
    s = t := by
  cases s
  cases t
  simp_all only

theorem getD_setAt {α : Type} (l : List α) (n m : Nat) (v d : α) (h : n < l.length) :
    (setAt l n v).getD m d = if m = n then v else l.getD m d := by
  simp only [setAt, List.getD_eq_getElem?_getD, List.getElem?_set]
  by_cases hm : n = m
  · subst hm; simp [h]
  · simp [hm, Ne.symm hm]

theorem getD_zeros (n m : Nat) : (List.replicate n 0).getD m 0 = 0 := by
  simp [-List.reduceReplicate, List.getD_eq_getElem?_getD, List.getElem?_replicate]
  split <;> rfl

theorem coreIs_setCore (s : State) (c : Nat) (k : Core) : Safety.coreIs s (s.setCore c k) c k :=
  ⟨by simp [State.setCore], fun x => State.core_setCore_if s c x k⟩

theorem coreIs_modDbg (s : State) (c : Nat) (f : CoreDbg → CoreDbg) :
    Safety.coreIs s (s.modDbg c f) c { s.core c with dbg := f (s.core c).dbg } := coreIs_setCore _ _ _

theorem coreIs_own {s t : State} {c : Nat} {k : Core} (h : Safety.coreIs s t c k) : t.core c = k := by
  rw [h.2 c, if_pos rfl]

/-! ## Memory leaves the DBG registers as they are -/

theorem State.dbg_setCore (s : State) (c d : Nat) (k : Core) (h : k.dbg = (s.core c).dbg) :
    ((s.setCore c k).core d).dbg = (s.core d).dbg := by
  rw [State.core_setCore_if]
  split
  · subst_vars; exact h
  · rfl

@[simp] theorem State.markStale_dbg (s : State) (p line d : Nat) : ((s.markStale p line).core d).dbg = (s.core d).dbg := by
  unfold State.markStale State.core
  dsimp only
  induction s.cores with
  | nil => rfl
  | cons e m ih =>
    obtain ⟨a, k⟩ := e
    simp only [List.map_cons]
    split <;> simp only [SMap.get_cons] <;> split <;> first | rfl | exact ih

@[simp] theorem State.writeLine_dbg (s : State) (p a : Nat) (bs : Bytes) (priv : Bool) (flt : MemFault) (d : Nat) :
    ((s.writeLine p a bs priv flt).1.core d).dbg = (s.core d).dbg := by
  unfold State.writeLine
  dsimp only
  (repeat' split) <;> first | (simp; done) | (refine (State.dbg_setCore _ _ _ _ ?_).trans ?_ <;> simp; done)

@[simp] theorem State.devWrite_dbg (s : State) (p a : Nat) (bs : Bytes) (priv : Bool) (d : Nat) :
    ((s.devWrite p a bs priv).1.core d).dbg = (s.core d).dbg := by
  unfold State.devWrite
  exact foldl_keeps (fun x : State × _ => ((x.1).core d).dbg) _ (fun a i => by (try dsimp only); (repeat' split) <;> simp) _ _

@[simp] theorem State.putRecord_dbg (s : State) (p a : Nat) (bs : Bytes) (d : Nat) :
    ((s.putRecord p a bs).core d).dbg = (s.core d).dbg := by
  unfold State.putRecord
  dsimp only
  split <;> simp

/-- A write of the device leaves in memory what the write does, whether or not it is reported. -/
theorem State.putRecord_memory (s : State) (p a : Nat) (bs : Bytes) :
    (s.putRecord p a bs).parts = (s.devWrite p a bs false).1.parts ∧ (s.putRecord p a bs).slices = (s.devWrite p a bs false).1.slices := by
  unfold State.putRecord
  dsimp only
  split <;> simp

theorem CoreDbg.addEvent_parts (d : CoreDbg) (ev n : Nat) : d.addEvent ev n = { d with evcnt := (d.addEvent ev n).evcnt } := by
  unfold CoreDbg.addEvent
  split <;> rfl

@[simp] theorem State.ringWrite_setting (s : State) (p base n k : Nat) (bs : Bytes) :
    (s.ringWrite p base n k bs).gdbg.setting = s.gdbg.setting := by
  unfold State.ringWrite
  dsimp only
  split <;> simp

/-! ## What a region holds after bytes are put at its end -/

theorem foldl_write_outside {α : Type} (at' : α → Nat) (val : α → Byte) (l : List α) (m : Mem) (a : Nat) (h : ∀ e ∈ l, a ≠ at' e) :
    (l.foldl (fun m e => m.write (at' e) (val e)) m).read a = m.read a := by
  induction l generalizing m with
  | nil => rfl
  | cons e l ih =>
    rw [List.foldl_cons, ih _ (fun x hx => h x (List.mem_cons_of_mem _ hx)), Mem.read_write, if_neg (h e List.mem_cons_self)]

theorem foldl_write_inside {α : Type} (at' : α → Nat) (val : α → Byte) (l : List α) (m : Mem) (e : α) (he : e ∈ l)
    (h : ∀ x ∈ l, at' x = at' e → val x = val e) :
    (l.foldl (fun m e => m.write (at' e) (val e)) m).read (at' e) = val e := by
  induction l generalizing m e with
  | nil => cases he
  | cons y l ih =>
    rw [List.foldl_cons]
    by_cases hl : ∃ x ∈ l, at' x = at' e
    · obtain ⟨x, hx, hxe⟩ := hl
      have hv := h x (List.mem_cons_of_mem _ hx) hxe
      rw [← hxe, ← hv]
      exact ih _ x hx (fun z hz hzx => (h z (List.mem_cons_of_mem _ hz) (hzx.trans hxe)).trans hv.symm)
    · have hne : ∀ x ∈ l, at' e ≠ at' x := fun x hx hh => hl ⟨x, hx, hh.symm⟩
      rw [foldl_write_outside at' val l _ _ hne]
      rcases List.mem_cons.mp he with rfl | hel
      · simp
      · exact absurd rfl (hne e hel)

theorem Core.logPut_outside (k : Core) (r : Nat) (bs : Bytes) (head : Bool) (a : Nat) (h : ∀ i < bs.length, a ≠ k.logAt r i) :
    (k.logPut r bs head).log.read a = k.log.read a := by
  refine foldl_write_outside (fun e : Byte × Nat => k.logAt r e.2) (·.1) bs.zipIdx k.log a (fun e he => ?_)
  have := List.snd_lt_of_mem_zipIdx he
  exact h _ (by simpa using this)

theorem Core.logPut_inside (k : Core) (r : Nat) (bs : Bytes) (head : Bool) (h : k.dbg.hasRoom r bs.length = true) (i : Nat)
    (hi : i < bs.length) : (k.logPut r bs head).log.read (k.logAt r i) = bs[i] := by
  have hm : (bs[i], i) ∈ bs.zipIdx := by
    rw [List.mk_mem_zipIdx_iff_getElem?]; simp
  refine foldl_write_inside (fun e : Byte × Nat => k.logAt r e.2) (·.1) bs.zipIdx k.log (bs[i], i) hm (fun x hx hxi => ?_)
  have hx2 : x.2 < bs.length := by simpa using List.snd_lt_of_mem_zipIdx hx
  have hr : (k.dbg.region r).len + bs.length ≤ (k.dbg.split r).2 := by simpa [CoreDbg.hasRoom] using h
  have hmax : max 1 (k.dbg.split r).2 = (k.dbg.split r).2 := by omega
  have heq : x.2 = i := by
    simp only [Core.logAt, hmax] at hxi
    have h1 := Nat.add_left_cancel hxi
    have h2 := Nat.sub_mod_eq_zero_of_mod_eq h1
    have h3 := Nat.sub_mod_eq_zero_of_mod_eq h1.symm
    rcases Nat.lt_trichotomy x.2 i with hh | hh | hh
    · have := Nat.eq_zero_of_dvd_of_lt (Nat.dvd_of_mod_eq_zero h3) (by omega)
      omega
    · exact hh
    · have := Nat.eq_zero_of_dvd_of_lt (Nat.dvd_of_mod_eq_zero h2) (by omega)
      omega
  obtain ⟨v, j⟩ := x
  simp only at heq
  subst heq
  rw [List.mk_mem_zipIdx_iff_getElem?] at hx
  have := List.getElem?_eq_getElem hi
  simp only at hx ⊢
  rw [this] at hx
  exact (Option.some.inj hx).symm

theorem CoreDbg.region_setRegion (d : CoreDbg) (r q : Nat) (x : LogRegion) (h : r < d.regions.length) :
    (d.setRegion r x).region q = if q = r then x else d.region q := getD_setAt _ _ _ _ _ h

theorem Hif.of_quiet {h j : Hif} (e : h.quiet = j.quiet) : h = { j with evts := h.evts } := by
  cases h
  cases j
  simp only [Hif.quiet, Hif.mk.injEq] at e ⊢
  simp_all

theorem GlobalDbg.of_setting {h j : GlobalDbg} (e : h.setting = j.setting) : h = { j with gcnt := h.gcnt } := by
  cases h
  cases j
  simp only [GlobalDbg.setting, GlobalDbg.mk.injEq] at e ⊢
  simp_all

end Sys2Proof.Machine
end

