-- ==== Sys2Proof/Laws/Breaks.lean ====
section
/-! SUPPORT. What freezing and resuming cores does to their sequencers, their partition and its job (R471 to R473). -/

namespace Sys2Proof.Machine

theorem State.seq_setCore (s : State) (c d : Nat) (k : Core) (h : k.seq = (s.core c).seq) :
    ((s.setCore c k).core d).seq = (s.core d).seq := by
  rw [State.core_setCore_if]
  split
  · subst_vars; exact h
  · rfl

theorem Core.putTrace_seq (k : Core) (bs : Bytes) (ft free : Nat) : (k.putTrace bs ft free).seq = k.seq := by
  unfold Core.putTrace
  dsimp only
  (repeat' split) <;> rfl

@[simp] theorem State.trace_seq (s : State) (c opid tag kind chan info d : Nat) :
    ((s.trace c opid tag kind chan info).core d).seq = (s.core d).seq := by
  unfold State.trace
  split
  · rfl
  · exact (State.seq_setCore _ _ _ _ (Core.putTrace_seq _ _ _ _)).trans (by simp)

/-- A core is frozen after a freeze if it is the one that freezes or was frozen before. -/
theorem State.freeze_frozen (s : State) (c engine opid tag d : Nat) (byTag : Bool) :
    ((s.freeze c engine opid tag byTag).core d).seq.frozen = (decide (d = c) || (s.core d).seq.frozen) := by
  unfold State.freeze
  extract_lets k q0 d0 s1 p y s2
  split
  · rename_i h
    simp only [k] at h
    by_cases hd : d = c
    · subst hd; simp [h]
    · simp [hd]
  · rw [State.trace_seq]
    have : s2.core d = s1.core d := by simp [s2, State.core]
    rw [this]
    simp only [s1, State.core_setCore_if]
    by_cases hd : d = c <;> simp [hd]

/-- The partition of a core that freezes pauses its timers, and its job runs on unforecast. -/
theorem State.freeze_part (s : State) (c engine opid tag q : Nat) (byTag : Bool) (h : (s.core c).seq.frozen = false) :
    ((s.freeze c engine opid tag byTag).part q).frozenAt =
      (if q = s.partOfPhys c then some ((s.part q).frozenAt.getD s.ft) else (s.part q).frozenAt) ∧
    ((s.freeze c engine opid tag byTag).part q).job =
      (if q = s.partOfPhys c then (s.part q).job.map (fun j => { j with forecast := false }) else (s.part q).job) := by
  unfold State.freeze
  extract_lets k q0 d0 s1 p y s2
  have hp : ∀ x, (s1.part x) = s.part x := fun x => by simp [s1, State.part]
  have ht : ∀ x, ((s2.trace c opid tag 4 0 (s2.traceInfo c engine 0 {} 0)).part x) = s2.part x := fun x => by simp [State.part]
  rw [if_neg (by simp [k, h]), ht]
  by_cases hq : q = p
  · subst hq
    simp only [s2, State.part_setPart, hp, p]
    simp
  · simp only [s2, State.part_setPart_ne _ _ hq, hp]
    simp [p] at hq
    simp [hq]

/-- A freeze of a frozen core changes nothing. -/
theorem State.freeze_again (s : State) (c engine opid tag : Nat) (byTag : Bool) (h : (s.core c).seq.frozen = true) :
    s.freeze c engine opid tag byTag = s := by simp [State.freeze, h]

/-- A paused partition stays paused, and an unforecast job unforecast, when a core freezes. -/
theorem State.freeze_mono (s : State) (c engine opid tag q : Nat) (byTag : Bool) :
    ((s.part q).frozenAt.isSome = true → ((s.freeze c engine opid tag byTag).part q).frozenAt.isSome = true) ∧
      (s.unforecast q = true → (s.freeze c engine opid tag byTag).unforecast q = true) := by
  by_cases h : (s.core c).seq.frozen = true
  · rw [State.freeze_again _ _ _ _ _ _ h]; exact ⟨id, id⟩
  · have h2 := State.freeze_part s c engine opid tag q byTag (by simpa using h)
    refine ⟨fun hf => ?_, fun hu => ?_⟩
    · rw [h2.1]; split
      · rfl
      · exact hf
    · simp only [State.unforecast, h2.2] at hu ⊢
      by_cases hq : q = s.partOfPhys c
      · rw [if_pos hq]
        cases hj : (s.part q).job <;> simp_all
      · rw [if_neg hq]; exact hu

theorem State.freezePart_fold (xs : List (Nat × Nat)) (s : State) :
    let t := xs.foldl (fun acc e =>
      let r := acc.fresh
      let v := (Config.freeValue r.1).toNat
      r.2.freeze e.2 (bits v 48 3) (bits v 0 32) (bits v 32 16) false) s
    (∀ d, (t.core d).seq.frozen = (xs.any (·.2 == d) || (s.core d).seq.frozen)) ∧
      (∀ q, (s.part q).frozenAt.isSome = true → (t.part q).frozenAt.isSome = true) ∧
      (∀ q, s.unforecast q = true → t.unforecast q = true) ∧
      ∀ e ∈ xs, (s.core e.2).seq.frozen = false → (t.part (s.partOfPhys e.2)).frozenAt.isSome = true ∧
        ((s.part (s.partOfPhys e.2)).job.isSome = true → t.unforecast (s.partOfPhys e.2) = true) := by
  induction xs generalizing s with
  | nil => simp
  | cons e xs ih =>
    dsimp only at ih ⊢
    rw [List.foldl_cons]
    generalize hv : (Config.freeValue s.fresh.1).toNat = v
    have h1 := ih (s.fresh.2.freeze e.2 (bits v 48 3) (bits v 0 32) (bits v 32 16) false)
    obtain ⟨h1, h2, h3, h4⟩ := h1
    have hm := fun q => State.freeze_mono s.fresh.2 e.2 (bits v 48 3) (bits v 0 32) (bits v 32 16) q false
    have hfr : ∀ q, s.fresh.2.part q = s.part q := fun q => rfl
    have hun : ∀ q, s.fresh.2.unforecast q = s.unforecast q := fun q => rfl
    refine ⟨fun d => ?_, fun q hq => h2 q ((hm q).1 hq), fun q hq => h3 q ((hm q).2 hq), fun x hx hf => ?_⟩
    · rw [h1, State.freeze_frozen]
      rw [List.any_cons, State.fresh_core]
      by_cases hd : d = e.2
      · subst hd; simp
      · have : (e.2 == d) = false := by simpa using Ne.symm hd
        simp [hd, this]
    · have hnew : (s.core e.2).seq.frozen = false →
          ((s.fresh.2.freeze e.2 (bits v 48 3) (bits v 0 32) (bits v 32 16) false).part (s.partOfPhys e.2)).frozenAt.isSome = true ∧
          ((s.part (s.partOfPhys e.2)).job.isSome = true →
            (s.fresh.2.freeze e.2 (bits v 48 3) (bits v 0 32) (bits v 32 16) false).unforecast (s.partOfPhys e.2) = true) := fun h => by
        have h5 := State.freeze_part s.fresh.2 e.2 (bits v 48 3) (bits v 0 32) (bits v 32 16) (s.partOfPhys e.2) false h
        have hp : s.fresh.2.partOfPhys e.2 = s.partOfPhys e.2 := rfl
        rw [hp, if_pos rfl, if_pos rfl] at h5
        refine ⟨by rw [h5.1]; rfl, fun hj => ?_⟩
        rw [hfr] at h5
        obtain ⟨j, hj⟩ := Option.isSome_iff_exists.mp hj
        simp [State.unforecast, h5.2, hj]
      rcases List.mem_cons.mp hx with rfl | hx
      · exact ⟨h2 _ (hnew hf).1, fun hj => h3 _ ((hnew hf).2 hj)⟩
      · by_cases hxe : x.2 = e.2
        · rw [hxe] at hf ⊢
          exact ⟨h2 _ (hnew hf).1, fun hj => h3 _ ((hnew hf).2 hj)⟩
        · have h6 := h4 x hx (by rw [State.freeze_frozen]; simp [hxe]; exact hf)
          have hp : (s.fresh.2.freeze e.2 (bits v 48 3) (bits v 0 32) (bits v 32 16) false).partOfPhys x.2 = s.partOfPhys x.2 :=
            partOfPhys_of (by simp) _
          rw [hp] at h6
          refine ⟨h6.1, fun hj => h6.2 ?_⟩
          by_cases hfe : (s.core e.2).seq.frozen = true
          · rw [State.freeze_again s.fresh.2 _ _ _ _ _ hfe]; exact hj
          · rw [(State.freeze_part s.fresh.2 e.2 (bits v 48 3) (bits v 0 32) (bits v 32 16) (s.partOfPhys x.2) false (by simpa using hfe)).2]
            split
            · simpa using hj
            · exact hj

/-! ## Resuming -/

theorem State.resumeOne_frozen (s : State) (c d : Nat) :
    ((s.resumeOne c).core d).seq.frozen = (decide (d ≠ c) && (s.core d).seq.frozen) := by
  unfold State.resumeOne
  extract_lets k q0 s1 r v
  split
  · rename_i h
    simp only [k, Bool.not_eq_true', Bool.not_eq_eq_eq_not, Bool.not_true] at h
    by_cases hd : d = c
    · subst hd; simp [h]
    · simp [hd]
  · rw [State.trace_seq]
    have : r.2.core d = s1.core d := rfl
    rw [this]
    simp only [s1, State.core_setCore_if]
    by_cases hd : d = c <;> simp [hd]

theorem State.resumeOne_engines (s : State) (c d : Nat) : ((s.resumeOne c).core d).engines = (s.core d).engines := by
  unfold State.resumeOne
  extract_lets k q0 s1 r v
  split
  · rfl
  · rw [State.trace_engines]
    exact State.engines_setCore _ _ _ _ rfl

theorem State.resumeAll_engines (xs : List (Nat × Nat)) (s : State) (d : Nat) :
    ((xs.foldl (fun acc e => acc.resumeOne e.2) s).core d).engines = (s.core d).engines :=
  foldl_keeps (fun x : State => (x.core d).engines) _ (fun a (i : Nat × Nat) => State.resumeOne_engines a i.2 d) _ _

theorem State.resumeAll_frozen (xs : List (Nat × Nat)) (s : State) (d : Nat) :
    ((xs.foldl (fun acc e => acc.resumeOne e.2) s).core d).seq.frozen = (!xs.any (·.2 == d) && (s.core d).seq.frozen) := by
  induction xs generalizing s with
  | nil => simp
  | cons e xs ih =>
    rw [List.foldl_cons, ih, State.resumeOne_frozen, List.any_cons]
    by_cases hd : d = e.2
    · subst hd; simp
    · have : (e.2 == d) = false := by simpa using Ne.symm hd
      simp [hd, this]

/-- The cores of a list whose timers are put off, each once. -/
theorem State.putOff_fold (xs : List (Nat × Nat)) (t n : Nat) (s : State) (d : Nat) (hn : (xs.map (·.2)).Nodup) :
    (xs.foldl (fun acc e => acc.setCore e.2 ((acc.core e.2).putOff t n)) s).core d =
      if xs.any (·.2 == d) then (s.core d).putOff t n else s.core d := by
  induction xs generalizing s with
  | nil => simp
  | cons e xs ih =>
    simp only [List.map_cons, List.nodup_cons] at hn
    rw [List.foldl_cons, ih _ hn.2, State.core_setCore_if, List.any_cons]
    by_cases hd : d = e.2
    · subst hd
      have : (xs.any fun x => x.2 == e.2) = false := by
        rw [List.any_eq_false]
        intro x hx hxe
        exact hn.1 (List.mem_map.mpr ⟨x, hx, by simpa using hxe⟩)
      simp [this]
    · have : (e.2 == d) = false := by simpa using Ne.symm hd
      rw [if_neg hd, this, Bool.false_or]

theorem State.resumeOne_around (s : State) (c : Nat) : Safety.sameModule s (s.resumeOne c) ∧ (s.resumeOne c).parts = s.parts := by
  simp [Safety.sameModule, Safety.sameAround]

/-- The pause goes on while a core of the partition is frozen. -/
theorem State.endPause_on (s : State) (p : Nat) (h : (s.coresOf p).any (fun e => (s.core e.2).seq.frozen) = true) : s.endPause p = s := by
  unfold State.endPause
  split
  · rfl
  · rw [if_pos h]

/-- The pause ends with the last frozen core: the timers of the partition's cores are put off by it. -/
theorem State.endPause_off (s : State) (p t0 : Nat) (ht : (s.part p).frozenAt = some t0) (hn : ((s.coresOf p).map (·.2)).Nodup)
    (h : (s.coresOf p).any (fun e => (s.core e.2).seq.frozen) = false) :
    ((s.endPause p).part p).frozenAt = none ∧
      ∀ d, (s.endPause p).core d = if (s.coresOf p).any (·.2 == d) then (s.core d).putOff t0 s.ft else s.core d := by
  unfold State.endPause
  rw [ht]
  dsimp only
  rw [if_neg (by simpa using h)]
  refine ⟨by simp [State.part_setPart], fun d => ?_⟩
  have := State.putOff_fold (s.coresOf p) t0 s.ft s d hn
  simpa [State.core] using this

theorem State.endPause_frozen (s : State) (p d : Nat) : ((s.endPause p).core d).seq.frozen = (s.core d).seq.frozen := by
  unfold State.endPause
  split
  · rfl
  · split
    · rfl
    · rename_i t0 _ _
      have h : ((((s.coresOf p).foldl (fun acc e => acc.setCore e.2 ((acc.core e.2).putOff t0 s.ft)) s).core d).seq.frozen) =
          (s.core d).seq.frozen := by
        refine foldl_keeps (fun x : State => (x.core d).seq.frozen) _ (fun a (i : Nat × Nat) => ?_) _ _
        simp only [State.core_setCore_if]
        split
        · subst_vars; rfl
        · rfl
      simpa [State.core] using h

/-! ## Breaks -/

theorem State.tagPass_setCore (s : State) (c d : Nat) (k : Core) (h : k.dbg.tagPass = (s.core c).dbg.tagPass) :
    ((s.setCore c k).core d).dbg.tagPass = (s.core d).dbg.tagPass := by
  rw [State.core_setCore_if]
  split
  · subst_vars; exact h
  · rfl

@[simp] theorem State.trace_tagPass (s : State) (c opid tag kind chan info d : Nat) :
    ((s.trace c opid tag kind chan info).core d).dbg.tagPass = (s.core d).dbg.tagPass := by
  unfold State.trace
  split
  · rfl
  · refine (State.tagPass_setCore _ _ _ _ ?_).trans (by simp)
    unfold Core.putTrace
    dsimp only
    (repeat' split) <;> rfl

theorem State.freeze_tagPass (s : State) (c engine opid tag d : Nat) (byTag : Bool) :
    ((s.freeze c engine opid tag byTag).core d).dbg.tagPass = (s.core d).dbg.tagPass := by
  unfold State.freeze
  extract_lets k q0 d0 s1 p y s2
  split
  · rfl
  · rw [State.trace_tagPass]
    have : s2.core d = s1.core d := by simp [s2, State.core]
    rw [this]
    exact State.tagPass_setCore _ _ _ _ rfl

theorem State.breakCore_frozen (s : State) (c engine opid tag d : Nat) (byTag : Bool) :
    ((s.breakCore c engine opid tag byTag).core d).seq.frozen =
      (decide (d = c) || (bit (s.core c).dbg.brkCtrl 2 && (s.coresOf (s.partOfPhys c)).any (·.2 == d)) || (s.core d).seq.frozen) := by
  unfold State.breakCore
  extract_lets b s1 s2
  have h1 : (s1.core d).seq.frozen = (decide (d = c) || (s.core d).seq.frozen) := State.freeze_frozen _ _ _ _ _ _ _
  have h2 : (s2.core d).seq.frozen = (decide (d = c) || (s.core d).seq.frozen) := by
    rw [← h1]; simp only [s2]; split <;> rfl
  have hl : s2.coresOf (s.partOfPhys c) = s.coresOf (s.partOfPhys c) := coresOf_of (by simp [s2, s1]) (by simp [s2, s1]) (by simp [s2, s1]) _
  split
  · rename_i hb
    have h3 := (State.freezePart_fold (s2.coresOf (s.partOfPhys c)) s2).1 d
    simp only [b] at hb
    rw [State.freezePart, h3, h2, hl, hb]
    cases decide (d = c) <;> simp
  · rename_i hb
    simp only [b, Bool.not_eq_true] at hb
    rw [h2, hb]
    simp

theorem State.breakCore_tagPass (s : State) (c engine opid tag d : Nat) (byTag : Bool) :
    ((s.breakCore c engine opid tag byTag).core d).dbg.tagPass = (s.core d).dbg.tagPass := by
  unfold State.breakCore
  extract_lets b s1 s2
  have h1 : (s1.core d).dbg.tagPass = (s.core d).dbg.tagPass := State.freeze_tagPass _ _ _ _ _ _ _
  have h2 : (s2.core d).dbg.tagPass = (s.core d).dbg.tagPass := by
    rw [← h1]; simp only [s2]; split <;> rfl
  split
  · rw [← h2]
    unfold State.freezePart
    exact foldl_keeps (fun x : State => (x.core d).dbg.tagPass) _ (fun a (i : Nat × Nat) => by
      dsimp only
      rw [State.freeze_tagPass]; rfl) _ _
  · exact h2

/-- A job that runs on a core of the partition of a core that breaks runs on unforecast, and the timers pause (R472). -/
theorem State.breakCore_part (s : State) (c engine opid tag : Nat) (byTag : Bool) (h : (s.core c).seq.frozen = false) :
    ((s.breakCore c engine opid tag byTag).part (s.partOfPhys c)).frozenAt.isSome = true ∧
      ((s.job (s.partOfPhys c)).isSome = true → (s.breakCore c engine opid tag byTag).unforecast (s.partOfPhys c) = true) := by
  unfold State.breakCore
  extract_lets b s1 s2
  have h1 := State.freeze_part s c engine opid tag (s.partOfPhys c) byTag h
  rw [if_pos rfl, if_pos rfl] at h1
  have hp : s2.part (s.partOfPhys c) = s1.part (s.partOfPhys c) := by simp only [s2]; split <;> rfl
  have h2 : (s2.part (s.partOfPhys c)).frozenAt.isSome = true := by rw [hp, h1.1]; rfl
  have h3 : (s.job (s.partOfPhys c)).isSome = true → s2.unforecast (s.partOfPhys c) = true := fun hj => by
    obtain ⟨j, hj⟩ := Option.isSome_iff_exists.mp hj
    simp only [State.job] at hj
    have h5 : (s1.part (s.partOfPhys c)).job = some { j with forecast := false } := by rw [h1.2, hj]; rfl
    simp [State.unforecast, hp, h5]
  split
  · have h4 := State.freezePart_fold (s2.coresOf (s.partOfPhys c)) s2
    exact ⟨h4.2.1 _ h2, fun hj => h4.2.2.1 _ (h3 hj)⟩
  · exact ⟨h2, h3⟩

end Sys2Proof.Machine
end

