-- ==== Sys2Proof/Laws/Failures.lean ====
section
/-! SUPPORT. How a stream halts (R213, R215): the first failure of a core's stream is kept, whatever halts afterwards. -/

namespace Sys2Proof.Machine

/-- The stream of core `c` has halted with failure `f`. -/
def State.haltedBy (s : State) (c : Nat) (f : Failure) : Prop := (s.core c).seq.halted = true ∧ (s.core c).seq.failure = some f

theorem State.haltedBy_of_engines {s t : State} {c : Nat} {f : Failure} (h : (t.core c).engines = (s.core c).engines) :
    t.haltedBy c f ↔ s.haltedBy c f := by
  have h1 : (t.core c).seq.halted = (s.core c).seq.halted := congrArg (·.1.halted) h
  have h2 : (t.core c).seq.failure = (s.core c).seq.failure := congrArg (·.1.failure) h
  simp [State.haltedBy, h1, h2]

theorem State.haltedBy_setCore {s : State} {c d : Nat} {k : Core} {f : Failure} (h : s.haltedBy c f)
    (hk : d = c → k.seq.halted = true ∧ k.seq.failure = some f) : (s.setCore d k).haltedBy c f := by
  unfold State.haltedBy
  rw [State.core_setCore_if]
  split
  · rename_i h1; exact hk h1.symm
  · exact h

/-- Writing a stream's result keeps every failure. -/
theorem State.settleStream_haltedBy {s : State} {c : Nat} {f : Failure} (d : Nat) (h : s.haltedBy c f) :
    (s.settleStream d).haltedBy c f := by
  unfold State.settleStream
  dsimp only
  split
  · exact h
  · split
    · exact h
    · split
      · refine (State.haltedBy_of_engines (State.putRecord_engines _ _ _ _ _)).mpr ?_
        refine (State.haltedBy_of_engines (by rw [State.modJob_core])).mpr ?_
        exact State.haltedBy_setCore h (fun hd => by subst hd; exact ⟨rfl, h.2⟩)
      · exact State.haltedBy_setCore h (fun hd => by subst hd; exact ⟨rfl, h.2⟩)

/-- A stream that halts later leaves the first failure of every core (R215). -/
theorem State.haltOne_haltedBy {s : State} {c : Nat} {f : Failure} (d : Nat) (g : Failure) (h : s.haltedBy c f) :
    (s.haltOne d g).haltedBy c f := by
  unfold State.haltOne
  dsimp only
  split
  · exact h
  · refine State.settleStream_haltedBy _ ?_
    refine (State.haltedBy_of_engines (by rw [State.modJob_core])).mpr (State.haltedBy_setCore h (fun hd => ?_))
    subst hd
    simp [h.1, h.2]

/-- A running stream that halts keeps its first failure (R215). -/
theorem State.haltOne_first {s : State} {c : Nat} (f : Failure) (hr : (s.core c).seq.running = true) (hf : (s.core c).seq.failure = none) :
    (s.haltOne c f).haltedBy c f := by
  unfold State.haltOne
  simp only [hr, hf]
  refine State.settleStream_haltedBy _ ?_
  refine (State.haltedBy_of_engines (by rw [State.modJob_core])).mpr ?_
  simp [State.haltedBy, State.core_setCore]

theorem State.failOne_haltedBy {s : State} {c : Nat} {f : Failure} (d : Nat) (e : QEntry) (st det : Nat) (h : s.haltedBy c f) :
    (s.failOne d e st det).haltedBy c f := by
  unfold State.failOne
  refine (State.haltedBy_of_engines (State.recordDone_engines _ _ _ _ _ _)).mpr (State.haltOne_haltedBy _ _ ?_)
  exact (State.haltedBy_of_engines (by simp)).mpr h

theorem State.abortWaiting_haltedBy {s : State} {c : Nat} {f : Failure} (p : Nat) (h : s.haltedBy c f) :
    (s.abortWaiting p).haltedBy c f := by
  unfold State.abortWaiting
  generalize s.streamCores p = xs
  induction xs generalizing s with
  | nil => exact h
  | cons x xs ih =>
    refine ih ?_
    dsimp only
    split
    · exact State.failOne_haltedBy _ _ _ _ h
    · exact h

/-- A record of a running stream that fails halts the stream with its own status and detail (R202, R213, R215). -/
theorem State.failStream_haltedBy {s : State} {c : Nat} (e : QEntry) (st det : Nat) (hr : (s.core c).seq.running = true)
    (hf : (s.core c).seq.failure = none) : (s.failStream c e st det).haltedBy c (s.failureOf e st det) := by
  unfold State.failStream
  rw [if_pos hr]
  refine State.abortWaiting_haltedBy _ ?_
  unfold State.failOne
  refine (State.haltedBy_of_engines (State.recordDone_engines _ _ _ _ _ _)).mpr ?_
  generalize hu : ((s.putCompletion _ _ _).traceDone _ _ _ _ _ _ _ _) = u
  have hE : (u.core c).engines = (s.core c).engines := by rw [← hu]; simp
  have hft : u.ft = s.ft := by rw [← hu]; simp
  have : s.failureOf e st det = u.failureOf e st det := by simp [State.failureOf, hft]
  rw [this]
  exact State.haltOne_first _ ((congrArg (·.1.running) hE).trans hr) ((congrArg (·.1.failure) hE).trans hf)

end Sys2Proof.Machine
end

