-- ==== Sys2Proof/Laws/Hbm.lean ====
section
/-! SUPPORT. What reads and writes of HBM leave in the memory of a partition, and which lines a write-back leaves dirty. -/

namespace Sys2Proof.Machine

/-- A partition but its poison bits. -/
def Part.unpoisoned (q : Part) : Part := { q with poison := [] }

theorem State.unpoisoned_setPart (s : State) (p q : Nat) (x : Part) (h : x.unpoisoned = (s.part p).unpoisoned) :
    ((s.setPart p x).part q).unpoisoned = (s.part q).unpoisoned := by
  by_cases hq : q = p
  · subst hq; rw [State.part_setPart, h]
  · rw [State.part_setPart_ne _ _ hq]

theorem State.part_of_parts {s t : State} (h : t.parts = s.parts) (q : Nat) : t.part q = s.part q := by simp [State.part, h]

@[simp] theorem State.setPoison_unpoisoned (s : State) (p line q : Nat) (b : Bool) :
    ((s.setPoison p line b).part q).unpoisoned = (s.part q).unpoisoned := State.unpoisoned_setPart _ _ _ _ rfl

@[simp] theorem State.touchLine_unpoisoned (s : State) (p d line q : Nat) (dirty : Bool) :
    ((s.touchLine p d line dirty).part q).unpoisoned = (s.part q).unpoisoned := by
  unfold State.touchLine
  dsimp only
  (repeat' split) <;> first
    | rfl
    | (refine congrArg Part.unpoisoned (State.part_of_parts ?_ q); (repeat' split) <;> simp; done)
    | (refine (State.unpoisoned_setPart _ _ _ _ ?_).trans ?_
       · rfl
       · refine congrArg Part.unpoisoned (State.part_of_parts ?_ q)
         (repeat' split) <;> simp)

theorem State.nimError_part (s : State) (p d line q : Nat) (flt : MemFault) : (s.nimError p d line flt).1.part q = s.part q :=
  State.part_of_parts (by simp) q

theorem State.readWord_clean (s : State) (p line : Nat) : (s.readWord p line .clean).1 = s := by
  unfold State.readWord
  split <;> rfl

/-- A read of HBM without symbol errors answers the bytes of the memory and changes none. -/
theorem State.readLine_hbm {s u : State} {p a n x : Nat} {bs : Bytes} {priv : Bool} (ht : s.target p (s.bankAddr p a) n priv = .ok (.hbm x))
    (h : s.readLine p a n priv .clean = (u, .ok bs)) :
    bs = (s.part p).hbm.readN (s.bankAddr p a) n ∧ ∀ q, (u.part q).unpoisoned = (s.part q).unpoisoned := by
  unfold State.readLine at h
  dsimp only at h
  rw [ht] at h
  dsimp only at h
  have hb : ∀ w : State, (w.part p).unpoisoned = (s.part p).unpoisoned → (w.part p).hbm = (s.part p).hbm :=
    fun w hw => show (w.part p).unpoisoned.hbm = (s.part p).unpoisoned.hbm by rw [hw]
  split at h
  · split at h
    · injection h with h1 h2
      injection h2 with h3
      have h5 : ∀ q, (((s.nimError p (s.homeDie p (s.bankAddr p a)) (lineOf (s.bankAddr p a)) .clean).1.touchLine p
          (s.homeDie p (s.bankAddr p a)) (lineOf (s.bankAddr p a)) false).part q).unpoisoned = (s.part q).unpoisoned := fun q => by
        rw [State.touchLine_unpoisoned, State.nimError_part]
      rw [hb _ (h5 p)] at h3
      subst h1
      exact ⟨h3.symm, h5⟩
    · simp at h
  · split at h
    · injection h with h1 h2
      injection h2 with h3
      have h4 := State.readWord_clean (s.gevent 2 (s.pcOf p (s.bankAddr p a)).stack 0 1) p (lineOf (s.bankAddr p a))
      have h5 : ∀ q, ((((s.gevent 2 (s.pcOf p (s.bankAddr p a)).stack 0 1).readWord p (lineOf (s.bankAddr p a)) .clean).1.touchLine p
          (s.homeDie p (s.bankAddr p a)) (lineOf (s.bankAddr p a)) false).part q).unpoisoned = (s.part q).unpoisoned := fun q => by
        rw [State.touchLine_unpoisoned, h4]
        exact congrArg Part.unpoisoned (State.part_of_parts (by simp) q)
      rw [hb _ (h5 p)] at h3
      subst h1
      exact ⟨h3.symm, h5⟩
    · simp at h

/-- A write to HBM without symbol errors that succeeds puts its bytes into the partition's memory and changes no other. -/
theorem State.writeLine_hbm {s u : State} {p a x : Nat} {bs : Bytes} {priv : Bool} (ht : s.target p (s.bankAddr p a) bs.length priv = .ok (.hbm x))
    (h : s.writeLine p a bs priv .clean = (u, .ok ())) :
    (u.part p).hbm = (s.part p).hbm.writeN (s.bankAddr p a) bs ∧ ∀ q, q ≠ p → (u.part q).hbm = (s.part q).hbm := by
  have hb : ∀ (w : State) (q : Nat), (w.part q).unpoisoned = (s.part q).unpoisoned → (w.part q).hbm = (s.part q).hbm :=
    fun w q hw => show (w.part q).unpoisoned.hbm = (s.part q).unpoisoned.hbm by rw [hw]
  have put : ∀ w : State, (∀ q, (w.part q).unpoisoned = (s.part q).unpoisoned) → ∀ d line,
      ((((w.setPart p { w.part p with hbm := (w.part p).hbm.writeN (s.bankAddr p a) bs }).touchLine p d line true).markStale p line).part p).hbm =
        (s.part p).hbm.writeN (s.bankAddr p a) bs ∧
      ∀ q, q ≠ p → ((((w.setPart p { w.part p with hbm := (w.part p).hbm.writeN (s.bankAddr p a) bs }).touchLine p d line true).markStale p line).part q).hbm =
        (s.part q).hbm := fun w hw d line => by
    have h1 : ∀ q, (((w.setPart p { w.part p with hbm := (w.part p).hbm.writeN (s.bankAddr p a) bs }).touchLine p d line true).markStale p line).part q =
        ((w.setPart p { w.part p with hbm := (w.part p).hbm.writeN (s.bankAddr p a) bs }).touchLine p d line true).part q :=
      fun q => State.part_of_parts (by simp) q
    have h2 := fun q => State.touchLine_unpoisoned (w.setPart p { w.part p with hbm := (w.part p).hbm.writeN (s.bankAddr p a) bs }) p d line q true
    refine ⟨?_, fun q hq => ?_⟩
    · rw [h1]
      refine (congrArg Part.hbm (h2 p)).trans ?_
      rw [State.part_setPart]
      show ((w.part p).hbm.writeN _ _) = _
      rw [hb w p (hw p)]
    · rw [h1]
      refine (congrArg Part.hbm (h2 q)).trans ?_
      rw [State.part_setPart_ne _ _ hq]
      exact hb w q (hw q)
  unfold State.writeLine at h
  dsimp only at h
  rw [ht] at h
  dsimp only at h
  split at h
  · have h1 := congrArg Prod.fst h
    dsimp only at h1
    rw [← h1]
    exact put _ (fun q => by
      refine (congrArg Part.unpoisoned (State.part_of_parts (by simp) q)).trans (State.setPoison_unpoisoned s p (lineOf (s.bankAddr p a)) q false)) _ _
  · split at h
    · split at h
      · have h1 := congrArg Prod.fst h
        dsimp only at h1
        rw [← h1]
        exact put _ (fun q => by rw [State.nimError_part]) _ _
      · simp at h
    · split at h
      · have h1 := congrArg Prod.fst h
        dsimp only at h1
        rw [← h1]
        have h4 := State.readWord_clean ((s.gevent 2 (s.pcOf p (s.bankAddr p a)).stack 0 1).gevent 2 (s.pcOf p (s.bankAddr p a)).stack 2 1) p (lineOf (s.bankAddr p a))
        exact put _ (fun q => by rw [h4]; exact congrArg Part.unpoisoned (State.part_of_parts (by simp) q)) _ _
      · simp at h

theorem State.promote_none {s : State} {p : Nat} (h : (s.part p).next = none) : s.promote p = s := by
  unfold State.promote
  rw [h]
  split <;> simp_all

/-! ## Write-back -/

theorem State.slice_of {s t : State} (h : t.slices = s.slices) (x : Nat) : t.slice x = s.slice x := by simp [State.slice, h]

theorem State.hbmc_of {s t : State} (h : t.hbmcs = s.hbmcs) (x : Nat) : t.hbmc x = s.hbmc x := by simp [State.hbmc, h]

/-- A slice whose lines are all clean. -/
def Slice.clean (sl : Slice) : Slice := { sl with dir := sl.dir.map (fun e => (e.1, { e.2 with dirty := false })) }

theorem State.writeBack_slice (s : State) (d x : Nat) :
    (s.writeBack d).slice x = if x = d then (s.slice d).clean else s.slice x := by
  unfold State.writeBack
  dsimp only
  rw [foldl_keeps (fun u : State => u.slice x) _ (fun a i => State.slice_of (by (try dsimp only); split <;> simp) x)]
  by_cases h : x = d
  · subst h; simp [Slice.clean]
  · simp [h, State.slice_setSlice_ne]

theorem State.writeBack_unpoisoned (s : State) (d q : Nat) : ((s.writeBack d).part q).unpoisoned = (s.part q).unpoisoned := by
  unfold State.writeBack
  dsimp only
  rw [foldl_keeps (fun u : State => (u.part q).unpoisoned) _ (fun a i => by
    try dsimp only
    split
    · rw [State.setPoison_unpoisoned]; exact congrArg Part.unpoisoned (State.part_of_parts (by simp) q)
    · exact congrArg Part.unpoisoned (State.part_of_parts (by simp) q))]
  exact congrArg Part.unpoisoned (State.part_of_parts (by simp) q)

theorem State.target_hbm (s : State) (p a n x : Nat) (priv : Bool) :
    s.target p a n priv = .ok (.hbm x) ↔ x = a ∧ a + n ≤ hbmWindow ∧ a + n ≤ (s.part p).topGib * gib := by
  unfold State.target
  split
  · split
    · simp [eq_comm]; omega
    · simp; omega
  · refine ⟨fun h => ?_, fun h => by omega⟩
    exfalso
    revert h
    dsimp only
    (repeat' split) <;> simp

theorem atomicResult_length (old : Bytes) (op : AtomicOp) : (atomicResult old op).1.length = atomicWidth op := by
  cases op <;> simp [atomicResult, atomicWidth]

theorem Mem.read_filter (m : Mem) (keep : Nat → Bool) (a : Nat) : (m.filter keep).read a = if keep a then m.read a else 0 := by
  unfold Mem.filter Mem.read
  induction m with
  | nil => simp [Mem.unwritten]
  | cons e m ih =>
    obtain ⟨x, v⟩ := e
    rw [List.filter_cons]
    by_cases hx : keep x = true
    · rw [if_pos hx, SMap.get_cons, SMap.get_cons]
      split
      · subst_vars; simp [hx]
      · exact ih
    · rw [if_neg hx, ih, SMap.get_cons]
      by_cases ha : a = x
      · subst ha; simp [hx]
      · simp [Ne.symm ha, ha]

/-! ## Scrub -/

theorem State.memEvent_part (s : State) (p line sy q : Nat) (b : Bool) : (s.memEvent p line b sy).part q = s.part q :=
  State.part_of_parts (by simp) q

theorem Mem.read_page_outside (m : Mem) (f : Nat → Byte) (x a : Nat) (h : a < x ∨ x + 256 ≤ a) :
    (m.writeN x ((List.range 256).map f)).read a = m.read a :=
  Mem.read_writeN_outside _ _ _ _ (by rw [List.length_map, List.length_range]; exact h)

/-- The scrub of a word changes no byte outside it. -/
theorem State.readWord_outside (s : State) (p line q y : Nat) (flt : MemFault) (h : ¬(q = p ∧ line ≤ y ∧ y < line + 256)) :
    ((s.readWord p line flt).1.part q).hbm.read y = (s.part q).hbm.read y := by
  unfold State.readWord
  dsimp only
  have hp : ∀ u : State, u.parts = s.parts → (u.part q).hbm.read y = (s.part q).hbm.read y :=
    fun u hu => by rw [State.part_of_parts hu]
  split
  · rfl
  · split
    · split
      · rfl
      · split
        · exact hp _ (by simp)
        · split
          · by_cases hq : q = p
            · subst hq
              show (((s.fresh.2.setPart q _).part q).hbm.read y) = _
              rw [State.part_setPart]
              dsimp only
              rw [Mem.read_page_outside _ _ _ _ (by omega)]
              rfl
            · show (((s.fresh.2.setPart p _).part q).hbm.read y) = _
              rw [State.part_setPart_ne _ _ hq]
              rfl
          · show (((State.memEvent _ _ _ _ _).part q).hbm.read y) = _
            rw [State.memEvent_part]
            have h2 := State.setPoison_unpoisoned s.fresh.2 p line q true
            have h3 : ((s.fresh.2.setPoison p line true).part q).hbm = (s.part q).hbm :=
              show ((s.fresh.2.setPoison p line true).part q).unpoisoned.hbm = (s.part q).unpoisoned.hbm by rw [h2]; rfl
            exact congrArg (·.read y) h3
    · rfl

theorem State.scrubWord_outside (s : State) (p line q y : Nat) (flt : MemFault) (h : ¬(q = p ∧ line ≤ y ∧ y < line + 256)) :
    ((s.scrubWord p line flt).part q).hbm.read y = (s.part q).hbm.read y := by
  unfold State.scrubWord
  split
  · split
    · unfold State.scrubHeld
      dsimp only
      split
      · rfl
      · show (((State.memEvent _ _ _ _ _).part q).hbm.read y) = _
        rw [State.memEvent_part]
        rfl
    · exact State.readWord_outside _ _ _ _ _ _ h
  · exact State.readWord_outside _ _ _ _ _ _ h

theorem State.scrubWord_clean (s : State) (p line : Nat) : s.scrubWord p line .clean = s := State.readWord_clean s p line

theorem State.scrubWord_corrected (s : State) (p line : Nat) (errs : List (Nat × Byte)) (h0 : halfErrors errs 0 ≤ 4)
    (h1 : halfErrors errs 1 ≤ 4) : (s.scrubWord p line (.symbols errs)).parts = s.parts := by
  have : uncorrectable (.symbols errs) = none := by simp [uncorrectable]; omega
  simp only [State.scrubWord, this, State.readWord]
  split
  · rfl
  · split
    · rfl
    · rw [if_pos ⟨h0, h1⟩]; simp

theorem State.scrubWord_uncorrected (s : State) (p line : Nat) (errs : List (Nat × Byte))
    (h : 4 < halfErrors errs 0 ∨ 4 < halfErrors errs 1) (hp : SMap.get false line (s.part p).poison = false)
    (hs : (s.slice (s.homeDie p line)).holds line = false) (hm : Config.miscorrects s.freeCtr = false) :
    SMap.get false line ((s.scrubWord p line (.symbols errs)).part p).poison = true ∧
      ((s.scrubWord p line (.symbols errs)).part p).hbm = (s.part p).hbm := by
  have hu : uncorrectable (.symbols errs) = some errs := by simp [uncorrectable, h]
  have h0 : s.scrubWord p line (.symbols errs) = (s.fresh.2.setPoison p line true).memEvent p line false (symbolField errs) := by
    have h2 : ¬(halfErrors errs 0 = 0 ∧ halfErrors errs 1 = 0) := by omega
    have h3 : ¬(halfErrors errs 0 ≤ 4 ∧ halfErrors errs 1 ≤ 4) := by omega
    have h4 : Config.miscorrects s.fresh.1 = false := hm
    simp only [State.scrubWord, hu, hs, State.readWord, hp, if_neg h2, if_neg h3]
    simp [h4]
  rw [h0, State.memEvent_part]
  unfold State.setPoison
  rw [State.part_setPart]
  exact ⟨by simp, rfl⟩

/-! ## Retirement of channels -/

theorem State.migrating_fold (xs : List Nat) (b : Bool) (s : State) (x : Nat) :
    (xs.foldl (fun acc k => acc.setHbmc k { acc.hbmc k with migrating := b }) s).hbmc x =
      if x ∈ xs then { s.hbmc x with migrating := b } else s.hbmc x := by
  induction xs generalizing s with
  | nil => simp
  | cons k xs ih =>
    rw [List.foldl_cons, ih]
    by_cases hk : x = k
    · subst hk; simp
    · rw [State.hbmc_setHbmc_ne _ _ hk]
      simp [hk]

theorem State.markMigrating_hbmc (s : State) (p x : Nat) (b : Bool) :
    (s.markMigrating p b).hbmc x = if x ∈ s.stacksOf p then { s.hbmc x with migrating := b } else s.hbmc x :=
  State.migrating_fold _ _ _ _

theorem State.emptyCaches_unpoisoned (s : State) (p q : Nat) : ((s.emptyCaches p).part q).unpoisoned = (s.part q).unpoisoned := by
  unfold State.emptyCaches
  refine foldl_keeps (fun u : State => (u.part q).unpoisoned) _ (fun a i => ?_) _ _
  dsimp only
  rw [State.part_of_parts (s := a.writeBack i) (by simp), State.writeBack_unpoisoned]

/-- What a retirement does to the partition, to the controllers and to the memory (R278). -/
theorem State.dropChannel_spec (s : State) (p k c : Nat) :
    ((s.dropChannel p k c).part p).topGib = (s.part p).topGib - 2 ∧ ((s.dropChannel p k c).part p).evac = (s.part p).evac ∧
      ((s.dropChannel p k c).part p).reserve = (s.part p).reserve ∧
      (∀ y, ((s.dropChannel p k c).part p).hbm.read y = if y < ((s.part p).topGib - 2) * gib then (s.part p).hbm.read y else 0) ∧
      (∀ x, (s.dropChannel p k c).hbmc x = if x = k then
        { s.hbmc k with retired0 := (s.hbmc k).retired0 ||| 2 ^ c, retired1 := (s.hbmc k).retired1 ||| 2 ^ c } else s.hbmc x) := by
  unfold State.dropChannel
  extract_lets s0 h s1 q top z
  have hq : q.unpoisoned = (s.part p).unpoisoned := by
    have h1 := State.emptyCaches_unpoisoned s p p
    simp only [q, s1]
    rw [State.part_of_parts (s := s0) (by simp)]
    exact h1
  have h1 : q.topGib = (s.part p).topGib := show q.unpoisoned.topGib = (s.part p).unpoisoned.topGib by rw [hq]
  have h2 : q.evac = (s.part p).evac := show q.unpoisoned.evac = (s.part p).unpoisoned.evac by rw [hq]
  have h3 : q.reserve = (s.part p).reserve := show q.unpoisoned.reserve = (s.part p).unpoisoned.reserve by rw [hq]
  have h4 : q.hbm = (s.part p).hbm := show q.unpoisoned.hbm = (s.part p).unpoisoned.hbm by rw [hq]
  have h5 : ∀ x, s0.hbmc x = s.hbmc x := fun x => State.hbmc_of (by simp [s0]) x
  rw [State.part_setPart]
  refine ⟨by simp only [top, h1], h2, h3, fun a => ?_, fun x => ?_⟩
  · show ((q.hbm.filter (fun a => decide (a < top * gib))).read a) = _
    rw [Mem.read_filter, h4]
    simp only [top, h1]
    simp
  · rw [State.hbmc_of (s := s1) (by simp)]
    by_cases hx : x = k
    · subst hx; simp [s1, h, h5, z]
    · rw [if_neg hx, ← h5]; exact State.hbmc_setHbmc_ne _ _ hx

theorem State.fuseEntry_bank (s : State) (p kind place cause : Nat) :
    (s.fuseEntry p kind place cause).chip.bank.length = if s.chip.bank.length < 256 then s.chip.bank.length + 1 else s.chip.bank.length := by
  unfold State.fuseEntry State.bankFull
  by_cases h : s.chip.bank.length < 256
  · rw [if_neg (by simp; omega), if_pos h]; simp
  · rw [if_pos (by simp; omega), if_neg h]; simp

/-! ## Slabs -/

theorem State.retireMarked_slice (s : State) (d x : Nat) :
    (s.retireMarked d).slice x = if x = d then (s.slice d).retireMarked else s.slice x := by
  unfold State.retireMarked
  dsimp only
  rw [foldl_keeps (fun u : State => u.slice x) _ (fun a i => State.slice_of (by simp) x)]
  by_cases h : x = d
  · subst h; simp
  · rw [State.slice_setSlice_ne _ _ h, if_neg h]

theorem State.switchSlabs_slice (s : State) (d mode x : Nat) (h : x ≠ d) : (s.switchSlabs d mode).slice x = s.slice x := by
  unfold State.switchSlabs
  exact State.slice_setSlice_ne _ _ h

end Sys2Proof.Machine
end

