-- ==== Sys2Proof/Laws/Rings.lean ====
section
/-! SUPPORT. Event rings: what writing events that wait does to a ring and to the others (R387). -/

namespace Sys2Proof.Machine

theorem State.evt_setEvt (s : State) (fn f : Fn) (r : EvtRing) :
    (s.setEvt fn r).evt f = if fnKey f = fnKey fn then r else s.evt f := by
  simp only [State.evt, State.setEvt, SMap.get_set]

/-- One event written: the ring's write index goes on, and neither its head nor what waits changes. -/
theorem State.writeEvent_evt (s : State) (fn f : Fn) (body : Bytes) :
    (fnKey f ≠ fnKey fn → (s.writeEvent fn body).evt f = s.evt f) ∧
      ((s.writeEvent fn body).evt fn).head = (s.evt fn).head ∧ ((s.writeEvent fn body).evt fn).waiting = (s.evt fn).waiting ∧
      ((s.writeEvent fn body).evt fn).log2 = (s.evt fn).log2 ∧
      ((s.writeEvent fn body).evt fn).idx = ((s.evt fn).idx + 1) % 2 ^ (s.evt fn).log2 := by
  unfold State.writeEvent
  extract_lets r entry next r1 s1
  have h1 : ∀ g, s1.evt g = if fnKey g = fnKey fn then r1 else s.evt g := fun g => State.evt_setEvt s fn g r1
  have h2 : ∀ g, (if r.interval then s1 else s1.emit (.msix fn (bits r.cfg 16 9))).evt g = s1.evt g := fun g => by split <;> rfl
  simp only [h2, h1, if_pos]
  exact ⟨fun h => if_neg h, rfl, rfl, rfl, rfl⟩

/-- The events that wait are written in order until none waits or the ring is full. -/
theorem State.drainEvents_spec (fn : Fn) (xs : List Bytes) (s : State) (h : (s.evt fn).waiting = xs) :
    (∀ f, fnKey f ≠ fnKey fn → (s.drainEvents fn xs).evt f = s.evt f) ∧ ((s.drainEvents fn xs).evt fn).head = (s.evt fn).head ∧
      ((s.drainEvents fn xs).evt fn).log2 = (s.evt fn).log2 ∧
      ∃ k, k ≤ xs.length ∧ ((s.drainEvents fn xs).evt fn).waiting = xs.drop k ∧
        (((s.drainEvents fn xs).evt fn).waiting = [] ∨ ((s.drainEvents fn xs).evt fn).room = false) ∧
        ((s.drainEvents fn xs).evt fn).idx % 2 ^ (s.evt fn).log2 = ((s.evt fn).idx + k) % 2 ^ (s.evt fn).log2 := by
  induction xs generalizing s with
  | nil => exact ⟨fun _ _ => rfl, rfl, rfl, 0, Nat.le_refl 0, h, .inl h, rfl⟩
  | cons b rest ih =>
    unfold State.drainEvents
    by_cases hr : (s.evt fn).room = true
    · rw [if_pos hr]
      have hw := State.writeEvent_evt (s.setEvt fn { s.evt fn with waiting := rest }) fn fn b
      have he : (s.setEvt fn { s.evt fn with waiting := rest }).evt fn = { s.evt fn with waiting := rest } := by
        rw [State.evt_setEvt, if_pos rfl]
      rw [he] at hw
      obtain ⟨h1, h2, h3, k, h4, h5, h6, h7⟩ := ih ((s.setEvt fn { s.evt fn with waiting := rest }).writeEvent fn b) hw.2.2.1
      refine ⟨fun f hf => ?_, h2.trans hw.2.1, h3.trans hw.2.2.2.1, k + 1, by simpa using h4, by simpa using h5, h6, ?_⟩
      · rw [h1 f hf, (State.writeEvent_evt _ fn f b).1 hf, State.evt_setEvt, if_neg hf]
      · rw [hw.2.2.2.1] at h7
        dsimp only at h7
        rw [h7, hw.2.2.2.2]
        dsimp only
        rw [Nat.mod_add_mod, Nat.add_assoc, Nat.add_comm 1 k]
    · rw [if_neg hr]
      exact ⟨fun _ _ => rfl, rfl, rfl, 0, Nat.zero_le _, by simpa using h, .inr (by simpa using hr), rfl⟩

/-- The event rings and what was sent are all that it changes. -/
theorem State.drainEvents_rest (fn : Fn) (xs : List Bytes) (s : State) :
    s.drainEvents fn xs = { s with hif := { s.hif with evts := (s.drainEvents fn xs).hif.evts }, out := (s.drainEvents fn xs).out } := by
  induction xs generalizing s with
  | nil => rfl
  | cons b rest ih =>
    unfold State.drainEvents
    split
    · rw [ih]
      simp only [State.writeEvent]
      split <;> simp [State.setEvt, State.emit]
    · rfl

/-! ## Ring pairs -/

theorem State.ring_setRing (s : State) (p n q m : Nat) (r : Ring) (hn : n < 64) (hm : m < 64) :
    (s.setRing p n r).ring q m = if q = p ∧ m = n then r else s.ring q m := by
  simp only [State.ring, State.setRing, SMap.get_set]
  by_cases h : q = p ∧ m = n
  · rw [if_pos h, if_pos (by rw [h.1, h.2])]
  · rw [if_neg h, if_neg (by omega)]

/-- A completion entry goes to its ring's write index, which goes on; the vector is sent if asked (R384, R385). -/
theorem State.putEntry_spec (s : State) (p n : Nat) (irq : Bool) (entry : Nat → Bytes) (hn : n < 64) :
    (s.putEntry p n irq entry) =
      { s with hif := { s.hif with pairs := (s.putEntry p n irq entry).hif.pairs }, out := (s.putEntry p n irq entry).out } ∧
    (∀ q m, m < 64 → (s.putEntry p n irq entry).ring q m = if q = p ∧ m = n then
      { s.ring p n with
        cqIdx := ((s.ring p n).cqIdx + 1) % (s.ring p n).size
        phase := if ((s.ring p n).cqIdx + 1) % (s.ring p n).size = 0 then !(s.ring p n).phase else (s.ring p n).phase }
      else s.ring q m) ∧
    (s.putEntry p n irq entry).out =
      s.out ++ .hostWrite (.vf p) ((s.ring p n).base + 64 * (s.ring p n).size + 32 * (s.ring p n).cqIdx) (entry (b2n (s.ring p n).phase)) ::
        if irq then [.msix (.vf p) (s.ring p n).vector] else [] := by
  refine ⟨?_, fun q m hm => ?_, ?_⟩
  · cases irq <;> rfl
  · cases irq <;> exact State.ring_setRing s p n q m _ hn hm
  · cases irq
    · rfl
    · exact List.append_assoc _ _ _

end Sys2Proof.Machine
end

