-- ==== Sys2Proof/Laws/Jobs.lean ====
section
/-! SUPPORT. What memory accesses leave of a partition, and how the streams of a job begin (R175 to R177). -/

namespace Sys2Proof.Machine

/-- A partition but its memory. -/
def Part.around (q : Part) : Part := { q with hbm := [], poison := [] }

theorem Part.around_of {q r : Part} (h : q.unpoisoned = r.unpoisoned) : q.around = r.around :=
  congrArg (fun x : Part => { x with hbm := [] }) h

theorem State.around_setPart (s : State) (p q : Nat) (x : Part) (h : x.around = (s.part p).around) :
    ((s.setPart p x).part q).around = (s.part q).around := by
  by_cases hq : q = p
  · subst hq; rw [State.part_setPart, h]
  · rw [State.part_setPart_ne _ _ hq]

theorem State.readWord_around (s : State) (p line q : Nat) (flt : MemFault) :
    ((s.readWord p line flt).1.part q).around = (s.part q).around := by
  unfold State.readWord
  dsimp only
  have hp : ∀ u : State, u.parts = s.parts → (u.part q).around = (s.part q).around := fun u hu => by rw [State.part_of_parts hu]
  (repeat' split) <;> first
    | rfl
    | (refine hp _ ?_; simp; done)
    | (refine (State.around_setPart s.fresh.2 p q _ ?_).trans ?_ <;> rfl)
    | (refine (congrArg Part.around (State.memEvent_part _ _ _ _ _ _)).trans ?_
       exact Part.around_of ((State.setPoison_unpoisoned s.fresh.2 p line q true).trans rfl))

theorem State.writeLine_around (s : State) (p a q : Nat) (bs : Bytes) (priv : Bool) (flt : MemFault) :
    ((s.writeLine p a bs priv flt).1.part q).around = (s.part q).around := by
  have put : ∀ (w : State) (m : Mem) (d line : Nat), (w.part q).around = (s.part q).around →
      ((((w.setPart p { w.part p with hbm := m }).touchLine p d line true).markStale p line).part q).around = (s.part q).around :=
    fun w m d line hw => by
      rw [State.part_of_parts (s := (w.setPart p { w.part p with hbm := m }).touchLine p d line true) (by simp)]
      rw [Part.around_of (State.touchLine_unpoisoned _ _ _ _ _ _)]
      refine (State.around_setPart w p q _ ?_).trans hw
      rfl
  have hp : ∀ u : State, u.parts = s.parts → (u.part q).around = (s.part q).around := fun u hu => by rw [State.part_of_parts hu]
  unfold State.writeLine
  dsimp only
  split
  · rfl
  · split
    · refine put _ _ _ _ ?_
      rw [State.part_of_parts (s := s.setPoison p (lineOf (s.bankAddr p a)) false) (by simp)]
      exact Part.around_of (State.setPoison_unpoisoned _ _ _ _ _)
    · split
      · split
        · exact put _ _ _ _ (congrArg Part.around (State.nimError_part _ _ _ _ _ _))
        · exact congrArg Part.around (State.nimError_part _ _ _ _ _ _)
      · split
        · exact put _ _ _ _ ((State.readWord_around _ _ _ _ _).trans (hp _ (by simp)))
        · exact (State.readWord_around _ _ _ _ _).trans (hp _ (by simp))
  · split
    · exact hp _ (by simp)
    · split <;> exact hp _ (by simp)
  · exact hp _ (by simp)
  · rfl

theorem State.devWrite_around (s : State) (p a q : Nat) (bs : Bytes) (priv : Bool) :
    ((s.devWrite p a bs priv).1.part q).around = (s.part q).around := by
  unfold State.devWrite
  exact foldl_keeps (fun x : State × _ => ((x.1).part q).around) _ (fun a i => by
    dsimp only
    split <;> exact State.writeLine_around _ _ _ _ _ _ _) _ _

theorem State.readLine_unpoisoned (s : State) (p a n q : Nat) (priv : Bool) :
    ((s.readLine p a n priv .clean).1.part q).unpoisoned = (s.part q).unpoisoned := by
  have hp : ∀ u : State, u.parts = s.parts → (u.part q).unpoisoned = (s.part q).unpoisoned := fun u hu => by rw [State.part_of_parts hu]
  have hw : ∀ k line, (((s.gevent 2 k 0 1).readWord p line .clean).1.part q).unpoisoned = (s.part q).unpoisoned := fun k line => by
    rw [State.readWord_clean]; exact hp _ (by simp)
  unfold State.readLine
  dsimp only
  split
  · rfl
  · split
    · split
      · rw [State.touchLine_unpoisoned, State.nimError_part]
      · rw [State.touchLine_unpoisoned, State.nimError_part]
    · split
      · rw [State.touchLine_unpoisoned]; exact hw _ _
      · exact hw _ _
  · split <;> exact hp _ (by simp)
  · rfl
  · rfl

theorem State.devRead_unpoisoned (s : State) (p a n q : Nat) (priv : Bool) :
    ((s.devRead p a n priv).1.part q).unpoisoned = (s.part q).unpoisoned := by
  unfold State.devRead
  exact foldl_keeps (fun x : State × _ => ((x.1).part q).unpoisoned) _ (fun a i => by
    dsimp only
    (repeat' split) <;> first | rfl | exact State.readLine_unpoisoned _ _ _ _ _ _) _ _

/-! ## The streams of a job -/

theorem State.coresReset_fold (xs : List (Nat × Nat)) (args : List Nat) (key : Nat) (s : State) (d : Nat) (hn : (xs.map (·.2)).Nodup) :
    (xs.foldl (fun acc e => acc.setCore e.2 ((acc.core e.2).jobReset e.1 args key)) s).core d =
      match xs.find? (fun e => e.2 == d) with
      | some e => (s.core d).jobReset e.1 args key
      | none => s.core d := by
  induction xs generalizing s with
  | nil => rfl
  | cons e xs ih =>
    simp only [List.map_cons, List.nodup_cons] at hn
    rw [List.foldl_cons, ih _ hn.2, State.core_setCore_if, List.find?_cons]
    by_cases hd : d = e.2
    · subst hd
      have : xs.find? (fun x => x.2 == e.2) = none := by
        rw [List.find?_eq_none]
        intro x hx hxe
        exact hn.1 (List.mem_map.mpr ⟨x, hx, by simpa using hxe⟩)
      simp [this]
    · have : (e.2 == d) = false := by simpa using Ne.symm hd
      rw [if_neg hd, this]

/-- The cores that a directory names, each by one entry, begin its streams; the others are left. -/
theorem State.begin_fold (look : Nat → Option Nat) (xs : List (DirEntry × Nat)) (s : State) (d : Nat)
    (hn : xs.Pairwise (fun a b => ∀ c, look a.1.lcore = some c → look b.1.lcore ≠ some c)) :
    let t := xs.foldl (fun acc e => match look e.1.lcore with
      | some c => acc.setCore c ((acc.core c).beginStream e.2 e.1)
      | none => acc) s
    ((∀ e ∈ xs, look e.1.lcore ≠ some d) → t.core d = s.core d) ∧
      ∀ e ∈ xs, look e.1.lcore = some d → t.core d = (s.core d).beginStream e.2 e.1 := by
  induction xs generalizing s with
  | nil => exact ⟨fun _ => rfl, fun e he => absurd he List.not_mem_nil⟩
  | cons e xs ih =>
    rw [List.pairwise_cons] at hn
    dsimp only at ih ⊢
    rw [List.foldl_cons]
    obtain ⟨h1, h2⟩ := ih (match look e.1.lcore with
      | some c => s.setCore c ((s.core c).beginStream e.2 e.1)
      | none => s) hn.2
    refine ⟨fun h => ?_, fun x hx hl => ?_⟩
    · rw [h1 (fun y hy => h y (List.mem_cons_of_mem _ hy))]
      split
      · rename_i c hc
        exact State.core_setCore_ne _ _ (fun hh => h e List.mem_cons_self (by rw [hc, hh]))
      · rfl
    · rcases List.mem_cons.mp hx with rfl | hx
      · rw [h1 (fun y hy => hn.1 y hy d hl), hl]
        exact State.core_setCore _ _ _
      · rw [h2 x hx hl]
        have hne : look e.1.lcore ≠ some d := fun hh => hn.1 x hx d hh hl
        split
        · rename_i c hc
          rw [State.core_setCore_ne _ _ (fun hh => hne (by rw [hc, hh]))]
        · rfl

theorem noRepeat_nodup (xs : List Nat) (h : noRepeat xs = true) : xs.Nodup := by
  induction xs with
  | nil => exact List.nodup_nil
  | cons x xs ih =>
    simp only [noRepeat, Bool.and_eq_true, Bool.not_eq_true', List.contains_eq_mem, decide_eq_false_iff_not] at h
    exact List.nodup_cons.mpr ⟨h.1, ih h.2⟩

theorem lookup_mem {xs : List (Nat × Nat)} {l c : Nat} (h : xs.lookup l = some c) : (l, c) ∈ xs := by
  induction xs with
  | nil => cases h
  | cons e xs ih =>
    obtain ⟨a, b⟩ := e
    rw [List.lookup_cons] at h
    by_cases ha : l = a
    · subst ha; simp at h; subst h; exact List.mem_cons_self
    · have : (l == a) = false := by simpa using ha
      rw [this] at h
      exact List.mem_cons_of_mem _ (ih h)

/-- A core that a directory names begins its stream after its reset; a core of another partition is left. -/
theorem State.startCores_spec (s : State) (p : Nat) (args : List Nat) (key : Nat) (dir : List DirEntry)
    (hc : ((s.coresOf p).map (·.2)).Nodup) (hr : noRepeat (dir.map (·.lcore)) = true) :
    (∀ d, (∀ e ∈ s.coresOf p, e.2 ≠ d) → (s.startCores p args key dir).core d = s.core d) ∧
      ∀ i e c, dir[i]? = some e → (s.coresOf p).lookup e.lcore = some c →
        (s.startCores p args key dir).core c = ((s.core c).jobReset e.lcore args key).beginStream i e := by
  have hpw : (dir.zipIdx).Pairwise (fun a b => ∀ c, (s.coresOf p).lookup a.1.lcore = some c → (s.coresOf p).lookup b.1.lcore ≠ some c) := by
    have h1 : (dir.zipIdx.map (fun e => e.1.lcore)).Nodup := by
      have : dir.zipIdx.map (fun e => e.1.lcore) = dir.map (·.lcore) := by
        rw [show (fun e : DirEntry × Nat => e.1.lcore) = (fun e => e.lcore) ∘ Prod.fst from rfl, ← List.map_map, List.zipIdx_map_fst]
      rw [this]; exact noRepeat_nodup _ hr
    rw [List.Nodup, List.pairwise_map] at h1
    refine h1.imp (fun {a b} hab c ha hb => ?_)
    have m1 := lookup_mem ha
    have m2 := lookup_mem hb
    have := List.inj_on_of_nodup_map hc m1 m2 rfl
    exact hab (congrArg Prod.fst this)
  unfold State.startCores
  dsimp only
  refine ⟨fun d hd => ?_, fun i e c hi hl => ?_⟩
  · refine ((State.begin_fold (fun l => (s.coresOf p).lookup l) dir.zipIdx _ d hpw).1 (fun e he hh => hd _ (lookup_mem hh) rfl)).trans ?_
    rw [State.coresReset_fold _ _ _ _ _ hc]
    have : (s.coresOf p).find? (fun e => e.2 == d) = none := by
      rw [List.find?_eq_none]
      intro x hx hxe
      exact hd x hx (by simpa using hxe)
    rw [this]
  · have hm : (e, i) ∈ dir.zipIdx := by rw [List.mk_mem_zipIdx_iff_getElem?]; exact hi
    refine ((State.begin_fold (fun l => (s.coresOf p).lookup l) dir.zipIdx _ c hpw).2 (e, i) hm hl).trans ?_
    rw [State.coresReset_fold _ _ _ _ _ hc]
    have hf : (s.coresOf p).find? (fun x => x.2 == c) = some (e.lcore, c) := by
      cases hx : (s.coresOf p).find? (fun x => x.2 == c) with
      | none =>
        rw [List.find?_eq_none] at hx
        exact absurd (by simp) (hx _ (lookup_mem hl))
      | some y =>
        have h1 := List.find?_some hx
        have h2 := List.mem_of_find?_eq_some hx
        have := List.inj_on_of_nodup_map hc h2 (lookup_mem hl) (by simpa using h1)
        rw [this]
    rw [hf]

theorem State.readImage_noRepeat {s u : State} {p a : Nat} {h : Bytes} {dir : List DirEntry}
    (hr : s.readImage p a = (u, .ok (h, dir))) : noRepeat (dir.map (·.lcore)) = true := by
  unfold State.readImage at hr
  dsimp only at hr
  split at hr
  · simp at hr
  · split at hr
    · simp at hr
    · split at hr
      · simp at hr
      · split at hr
        · simp at hr
        · split at hr
          · simp at hr
          · split at hr
            · simp at hr
            · rename_i hx
              simp only [Prod.mk.injEq, Except.ok.injEq] at hr
              rw [← hr.2.2]
              simpa using hx

theorem State.readImage_unpoisoned (s : State) (p a q : Nat) : ((s.readImage p a).1.part q).unpoisoned = (s.part q).unpoisoned := by
  unfold State.readImage
  dsimp only
  (repeat' split) <;> first
    | rfl
    | exact State.devRead_unpoisoned _ _ _ _ _ _
    | exact (State.devRead_unpoisoned _ _ _ _ _ _).trans (State.devRead_unpoisoned _ _ _ _ _ _)

theorem State.readForecast_unpoisoned (s : State) (p q : Nat) (h : Bytes) (dir : List DirEntry) :
    ((s.readForecast p h dir).1.part q).unpoisoned = (s.part q).unpoisoned := by
  have he : ∀ (u : State) (off cause : Nat), ((u.fcastInvalid p off cause).part q).unpoisoned = (u.part q).unpoisoned := fun u off cause => by
    rw [State.part_of_parts (s := u) (by simp)]
  unfold State.readForecast
  dsimp only
  (repeat' split) <;> first
    | rfl
    | exact he _ _ _
    | exact State.devRead_unpoisoned _ _ _ _ _ _
    | exact (he _ _ _).trans (State.devRead_unpoisoned _ _ _ _ _ _)

end Sys2Proof.Machine
end

