-- ==== Sys2Proof/Laws/Quiet.lean ====
section
/-! SUPPORT. Which commands leave the host structures as they are but for the event rings. -/

namespace Sys2Proof.Machine

@[simp] theorem State.joinCopy_quiet (s : State) (p : Nat) (t : ExTable) (shard : Nat) :
    (State.joinCopy s p t shard).hif.quiet = s.hif.quiet := by
  unfold State.joinCopy
  try dsimp only
  (repeat' split) <;> simp

@[simp] theorem State.fuseEntry_quiet (s : State) (p kind place cause : Nat) :
    (State.fuseEntry s p kind place cause).hif.quiet = s.hif.quiet := by
  unfold State.fuseEntry
  try dsimp only
  (repeat' split) <;> simp

@[simp] theorem State.rowEvent_quiet (s : State) (k code : Nat) (r : RowId) :
    (State.rowEvent s k code r).hif.quiet = s.hif.quiet := by
  unfold State.rowEvent
  try dsimp only
  (repeat' split) <;> simp

@[simp] theorem State.scrubHeld_quiet (s : State) (p line : Nat) (errs : List (Nat × Byte)) :
    (State.scrubHeld s p line errs).hif.quiet = s.hif.quiet := by
  unfold State.scrubHeld
  try dsimp only
  (repeat' split) <;> simp

@[simp] theorem State.scrubWord_quiet (s : State) (p line : Nat) (flt : MemFault) :
    (State.scrubWord s p line flt).hif.quiet = s.hif.quiet := by
  unfold State.scrubWord
  try dsimp only
  (repeat' split) <;> simp

@[simp] theorem State.doPatrolScrub_quiet (s : State) (k : Nat) (flt : MemFault) :
    (State.doPatrolScrub s k flt).hif.quiet = s.hif.quiet := by
  unfold State.doPatrolScrub
  try dsimp only
  (repeat' split) <;> simp

@[simp] theorem State.markRow_quiet (s : State) (k : Nat) (r : RowId) :
    (State.markRow s k r).hif.quiet = s.hif.quiet := by
  unfold State.markRow
  try dsimp only
  (repeat' split) <;> simp

@[simp] theorem State.chanEvent_quiet (s : State) (p code k c : Nat) :
    (State.chanEvent s p code k c).hif.quiet = s.hif.quiet := by
  unfold State.chanEvent
  try dsimp only
  (repeat' split) <;> simp

@[simp] theorem State.retireMarked_quiet (s : State) (d : Nat) :
    (State.retireMarked s d).hif.quiet = s.hif.quiet := by
  unfold State.retireMarked
  exact foldl_keeps (fun x : State => x.hif.quiet) _ (fun a i => by (try dsimp only); (repeat' split) <;> simp) _ _

@[simp] theorem State.resetSlice_quiet (s : State) (d : Nat) :
    (State.resetSlice s d).hif.quiet = s.hif.quiet := by
  unfold State.resetSlice
  try dsimp only
  (repeat' split) <;> simp

@[simp] theorem State.readClass_quiet (s : State) (rec : Option Bytes) :
    (State.readClass s rec).hif.quiet = s.hif.quiet := by
  unfold State.readClass
  try dsimp only
  (repeat' split) <;> simp

@[simp] theorem State.doStrapChange_quiet (s : State) (straps : Nat) :
    (State.doStrapChange s straps).hif.quiet = s.hif.quiet := by
  unfold State.doStrapChange
  try dsimp only
  (repeat' split) <;> simp

@[simp] theorem State.doInputExcursion_quiet (s : State) (dv us : Nat) :
    (State.doInputExcursion s dv us).hif.quiet = s.hif.quiet := by
  unfold State.doInputExcursion
  try dsimp only
  (repeat' split) <;> simp

@[simp] theorem State.limiterActs_quiet (s : State) (f : Gov → Gov) :
    (State.limiterActs s f).hif.quiet = s.hif.quiet := by
  unfold State.limiterActs
  try dsimp only
  (repeat' split) <;> simp

@[simp] theorem State.limitDown_quiet (s : State) :
    (State.limitDown s).hif.quiet = s.hif.quiet := by
  unfold State.limitDown
  try dsimp only
  (repeat' split) <;> simp

@[simp] theorem State.doPowerSample_quiet (s : State) (watt dv : Nat) :
    (State.doPowerSample s watt dv).hif.quiet = s.hif.quiet := by
  unfold State.doPowerSample
  try dsimp only
  (repeat' split) <;> simp

@[simp] theorem State.doPowerLimitStep_quiet (s : State) :
    (State.doPowerLimitStep s).hif.quiet = s.hif.quiet := by
  unfold State.doPowerLimitStep
  try dsimp only
  (repeat' split) <;> simp

@[simp] theorem State.doDroop_quiet (s : State) (d : Nat) :
    (State.doDroop s d).hif.quiet = s.hif.quiet := by
  unfold State.doDroop
  try dsimp only
  (repeat' split) <;> simp

@[simp] theorem State.heedDie_quiet (s : State) (d : Nat) :
    (State.heedDie s d).hif.quiet = s.hif.quiet := by
  unfold State.heedDie
  try dsimp only
  (repeat' split) <;> simp

@[simp] theorem State.doLockRegained_quiet (s : State) :
    (State.doLockRegained s).hif.quiet = s.hif.quiet := by
  unfold State.doLockRegained
  try dsimp only
  (repeat' split) <;> simp

@[simp] theorem State.dropCore_quiet (s : State) (c : Nat) :
    (State.dropCore s c).hif.quiet = s.hif.quiet := by
  unfold State.dropCore
  try dsimp only
  (repeat' split) <;> simp

@[simp] theorem State.failCore_quiet (s : State) (c cause : Nat) :
    (State.failCore s c cause).hif.quiet = s.hif.quiet := by
  unfold State.failCore
  try dsimp only
  (repeat' split) <;> simp

@[simp] theorem State.resetSlices_quiet (s : State) (p : Nat) :
    (State.resetSlices s p).hif.quiet = s.hif.quiet := by
  unfold State.resetSlices
  exact foldl_keeps (fun x : State => x.hif.quiet) _ (fun a i => by (try dsimp only); (repeat' split) <;> simp) _ _

@[simp] theorem State.fuseFailing_quiet (s : State) (p : Nat) :
    (State.fuseFailing s p).hif.quiet = s.hif.quiet := by
  unfold State.fuseFailing
  exact foldl_keeps (fun x : State => x.hif.quiet) _ (fun a i => by (try dsimp only); (repeat' split) <;> simp) _ _

@[simp] theorem State.failBringup_quiet (s : State) (step done : Nat) :
    (State.failBringup s step done).hif.quiet = s.hif.quiet := by
  unfold State.failBringup
  try dsimp only
  (repeat' split) <;> simp

@[simp] theorem State.turnDown_quiet (s : State) (v : Option Nat) :
    (State.turnDown s v).hif.quiet = s.hif.quiet := by
  unfold State.turnDown
  try dsimp only
  (repeat' split) <;> simp

@[simp] theorem State.bootMmc_quiet (s : State) (a b : Bool) :
    (State.bootMmc s a b).1.hif.quiet = s.hif.quiet := by
  unfold State.bootMmc
  try dsimp only
  (repeat' split) <;> simp

@[simp] theorem State.failChan_quiet (s : State) (cause : Nat) (e : Nat × Nat) :
    (State.failChan s cause e).hif.quiet = s.hif.quiet := by
  unfold State.failChan
  try dsimp only
  (repeat' split) <;> simp

@[simp] theorem State.retireSlab_quiet (s : State) (d t : Nat) :
    (State.retireSlab s d t).hif.quiet = s.hif.quiet := by
  unfold State.retireSlab
  try dsimp only
  (repeat' split) <;> simp

end Sys2Proof.Machine
end

