-- ==== Sys2Proof/Laws/Links.lean ====
section
/-! SUPPORT. Traffic changes no link: which operations of the fabric leave the ports as they are but for their traffic (R298, R307,
R308, R320). -/

namespace Sys2Proof.Machine

theorem State.ite_link (p : Prop) [Decidable p] (s t : State) (m : Nat) :
    ((if p then s else t).port m).link = if p then (s.port m).link else (t.port m).link := by split <;> rfl

/-- Two states have the same links. -/
def State.links (s t : State) : Prop := ∀ m, (t.port m).link = (s.port m).link

theorem State.links_refl (s : State) : s.links s := fun _ => rfl
theorem State.links_trans {s t u : State} (h : s.links t) (k : t.links u) : s.links u := fun m => (k m).trans (h m)

theorem State.links_of {s t : State} (h : t.ports = s.ports) : s.links t := fun m => by simp [State.port, h]

theorem State.links_setPort (s : State) (n : Nat) (q : Port) (h : q.link = (s.port n).link) : s.links (s.setPort n q) := fun m => by
  by_cases hm : m = n
  · subst hm; rw [State.port_setPort, h]
  · rw [State.port_setPort_ne _ _ hm]

theorem State.links_foldl {α : Type} (f : State → α → State) (h : ∀ (s : State) a, s.links (f s a)) (xs : List α) (s : State) :
    s.links (xs.foldl f s) := by
  induction xs generalizing s with
  | nil => exact State.links_refl s
  | cons x xs ih => exact State.links_trans (h s x) (ih _)

theorem State.emit_links (s : State) (m : OutMsg) : s.links (s.emit m) := State.links_of rfl

theorem State.sendFlit_links (s : State) (n ftype tc vl : Nat) (first last : Bool) (seq : Nat) (payload : Bytes) :
    s.links (s.sendFlit n ftype tc vl first last seq payload).1 := by
  unfold State.sendFlit
  dsimp only
  have h1 : s.links (if ftype = 1 then s.gevent 4 n tc 1 else s) := by
    split
    · exact State.links_of (by simp)
    · exact State.links_refl s
  refine State.links_trans h1 (State.links_trans (State.links_setPort _ n _ ?_) (State.emit_links _ _))
  rw [h1 n]
  rfl

theorem State.dropPacket_links (s : State) (p : Nat) : s.links (s.dropPacket p) := State.links_of (by simp)
theorem State.postEvent_links (s : State) (r : Fn) (c : Nat) (d : Bytes) : s.links (s.postEvent r c d) := State.links_of (by simp)
theorem State.setNode_links (s : State) (p : Nat) (d : Node) : s.links (s.setNode p d) := State.links_of (by simp)

theorem State.tc0Void_links (s : State) (p n cause : Nat) : s.links (s.tc0Void p n cause) := by
  unfold State.tc0Void
  dsimp only
  split
  · exact State.setNode_links _ _ _
  · exact State.links_trans (State.setNode_links _ _ _) (State.postEvent_links _ _ _ _)

theorem State.joinEgress_links (s : State) (p n : Nat) (e : EPkt) : s.links (s.joinEgress p n e) := by
  unfold State.joinEgress
  dsimp only
  split
  · exact State.links_setPort _ _ _ rfl
  · have h : ∀ q, q.link = (s.port n).link → s.links (s.setPort n q) := fun q hq => State.links_setPort s n q hq
    split
    · rename_i es _
      have h1 := h { s.port n with egress := es } rfl
      generalize s.setPort n { s.port n with egress := es } = w at h1 ⊢
      split
      · refine State.links_trans h1 ?_
        apply State.links_setPort
        rfl
      · exact h1
    · have h2 := h { s.port n with
        egress := (s.port n).egress ++ [e]
        qMax := max (s.port n).qMax (min 127 ((s.port n).egress.countP (fun x => x.tc == 0) + 1))
        qOver := satAdd 0xFFFF (s.port n).qOver (b2n (decide (16 ≤ (s.port n).egress.countP (fun x => x.tc == 0)))) } rfl
      split
      · exact State.links_trans h2 (State.tc0Void_links _ _ _ _)
      · exact h2

theorem State.sendNext_links (s : State) (n i : Nat) : s.links (s.sendNext n i) := by
  unfold State.sendNext
  dsimp only
  split
  · exact State.links_refl s
  · rename_i e _
    have h := State.sendFlit_links s n 1 e.tc e.vl (e.sent == 0) (decide (e.pkt.flits ≤ e.sent + 1)) (s.port n).txSeq
      ((e.pkt.bytes.drop (244 * e.sent)).take 244)
    generalize s.sendFlit n 1 e.tc e.vl (e.sent == 0) (decide (e.pkt.flits ≤ e.sent + 1)) (s.port n).txSeq
      ((e.pkt.bytes.drop (244 * e.sent)).take 244) = r at h ⊢
    refine State.links_trans h ?_
    have h2 : ∀ q, q.link = (r.1.port n).link → r.1.links (if e.ingress < 32 then
        (r.1.setPort n q).setPort e.ingress { (r.1.setPort n q).port e.ingress with
          owed := modAt ((r.1.setPort n q).port e.ingress).owed (2 * e.tc + e.inVl) (· + 1) }
        else r.1.setPort n q) := fun q hq => by
      split
      · refine State.links_trans (State.links_setPort _ _ _ hq) ?_
        apply State.links_setPort
        rfl
      · exact State.links_setPort _ _ _ hq
    refine h2 _ ?_
    rfl

theorem State.pumpN_links (n fuel : Nat) (s : State) : s.links (s.pumpN n fuel) := by
  induction fuel generalizing s with
  | zero => exact State.links_refl s
  | succ k ih =>
    unfold State.pumpN
    dsimp only
    split
    · split
      · exact State.links_trans (State.sendNext_links _ _ _) (ih _)
      · exact State.links_refl s
    · exact State.links_refl s

theorem State.pump_links (s : State) (n : Nat) : s.links (s.pump n) := State.pumpN_links _ _ _

theorem State.egressTo_links (s : State) (p n tc vl i v : Nat) (k : Packet) : s.links (s.egressTo p n tc vl i v k) :=
  State.links_trans (State.joinEgress_links _ _ _ _) (State.pump_links _ _)

theorem State.sendUnicast_links (s : State) (p tc i v : Nat) (pin : Option Nat) (k : Packet) : s.links (s.sendUnicast p tc i v pin k).1 := by
  unfold State.sendUnicast
  dsimp only
  split
  · exact State.egressTo_links _ _ _ _ _ _ _ _
  · exact State.links_refl s

theorem State.sendTree_links (s : State) (p tc i v : Nat) (ns : List Nat) (k : Packet) : s.links (s.sendTree p tc i v ns k) := by
  refine State.links_foldl _ (fun a m => ?_) _ _
  split
  · exact State.egressTo_links _ _ _ _ _ _ _ _
  · exact State.dropPacket_links _ _

theorem State.originate_links (s : State) (p tc : Nat) (pin : Option Nat) (k : Packet) : s.links (s.originate p tc pin k).1 := by
  unfold State.originate
  split
  · split
    · exact State.sendTree_links _ _ _ _ _ _ _
    · exact State.dropPacket_links _ _
  · split
    · exact State.setNode_links _ _ _
    · exact State.sendUnicast_links _ _ _ _ _ _ _

theorem State.respond_links (s : State) (p tc : Nat) (r : Packet) (kind st : Nat) (d : Bytes) : s.links (s.respond p tc r kind st d) := by
  unfold State.respond
  dsimp only
  split
  · exact State.setNode_links _ _ _
  · split
    · exact State.originate_links _ _ _ _ _
    · exact State.links_trans (State.originate_links _ _ _ _ _) (State.dropPacket_links _ _)

theorem State.refusePacket_links (s : State) (p tc c : Nat) (k : Packet) : s.links (s.refusePacket p tc c k) := by
  unfold State.refusePacket
  split
  · exact State.respond_links _ _ _ _ _ _ _
  · exact State.dropPacket_links _ _

theorem State.signalDropped_links (s : State) (p w : Nat) (k : Packet) : s.links (s.signalDropped p w k) :=
  State.links_trans (State.dropPacket_links _ _) (State.postEvent_links _ _ _ _)

theorem State.deliver_links (s : State) (p n tc : Nat) (k : Packet) : s.links (s.deliver p n tc k) := by
  have h : s.links (if tc = 0 ∧ 12 < k.hops then s.tc0Void p n 0 else s) := by
    split
    · exact State.tc0Void_links _ _ _ _
    · exact State.links_refl s
  unfold State.deliver
  dsimp only
  refine State.links_trans h ?_
  (repeat' split) <;> first
    | exact State.signalDropped_links _ _ _ _
    | exact State.refusePacket_links _ _ _ _ _
    | exact State.setNode_links _ _ _

theorem State.notice_links (s : State) (p n dest : Nat) : s.links (s.notice p n dest) := by
  unfold State.notice
  dsimp only
  (repeat' split)
  · exact State.links_refl s
  · exact State.links_refl s
  · have h : s.links (s.setPort n { s.port n with notices := SMap.set 0 dest (max 1 s.ft) (s.port n).notices }) := by
      apply State.links_setPort
      rfl
    exact State.links_trans h (State.egressTo_links _ _ _ _ _ _ _ _)

theorem State.forward_links (s : State) (p n tc vl : Nat) (k : Packet) : s.links (s.forward p n tc vl k).1 := by
  have h : s.links (if tc = 0 ∧ 12 < k.hops then s.tc0Void p n 0 else s) := by
    split
    · exact State.tc0Void_links _ _ _ _
    · exact State.links_refl s
  unfold State.forward
  dsimp only
  split
  · exact State.dropPacket_links _ _
  · split
    · dsimp only
      split
      · exact State.links_trans (State.dropPacket_links _ _) (State.respond_links _ _ _ _ _ _ _)
      · exact State.dropPacket_links _ _
    · generalize (if tc = 0 ∧ 12 < k.hops then s.tc0Void p n 0 else s) = w at h ⊢
      split
      · exact State.links_trans h (State.sendUnicast_links _ _ _ _ _ _ _)
      · exact State.links_trans h (State.links_trans (State.sendUnicast_links _ _ _ _ _ _ _)
          (State.links_trans (State.notice_links _ _ _ _) (State.refusePacket_links _ _ _ _ _)))

theorem State.takeBroadcast_links (s : State) (p n tc vl : Nat) (k : Packet) : s.links (s.takeBroadcast p n tc vl k) := by
  unfold State.takeBroadcast
  dsimp only
  split
  · split
    · exact State.dropPacket_links _ _
    · rename_i ns _ _
      have h : s.links (if (!s.forwards p) = true then s else if 63 ≤ k.hops then s.dropPacket p
          else s.sendTree p tc 33 vl (ns.filter (· != n)) { k with hops := k.hops + 1 }) := by
        (repeat' split)
        · exact State.links_refl s
        · exact State.dropPacket_links _ _
        · exact State.sendTree_links _ _ _ _ _ _ _
      split
      · exact State.links_trans h (State.deliver_links _ _ _ _ _)
      · exact h
  · exact State.dropPacket_links _ _

theorem State.takePacket_links (s : State) (n tc vl f : Nat) (bs : Bytes) : s.links (s.takePacket n tc vl f bs) := by
  unfold State.takePacket
  dsimp only
  have h : s.links (s.setPort n { s.port n with owed := modAt (s.port n).owed (2 * tc + vl) (· + f) }) := State.links_setPort _ _ _ rfl
  split
  · exact State.links_trans h (State.dropPacket_links _ _)
  · (repeat' split)
    · exact State.links_trans h (State.dropPacket_links _ _)
    · exact State.links_trans h (State.takeBroadcast_links _ _ _ _ _ _)
    · exact State.links_trans h (State.setNode_links _ _ _)
    · exact State.links_trans h (State.deliver_links _ _ _ _ _)
    · exact State.forward_links _ _ _ _ _ _
    · exact State.links_trans (State.forward_links _ _ _ _ _ _) (State.links_setPort _ _ _ rfl)

theorem State.sendIdles_links (s : State) (n least : Nat) : s.links (s.sendIdles n least) :=
  State.links_foldl _ (fun a _ => State.sendFlit_links a n 0 0 0 false false 0 []) _ _

theorem State.chooseParent_links (s : State) : s.links s.chooseParent := State.links_of (by simp)

/-! ## Ports that go down or are trained (R300, R315, R402) -/

theorem State.laneEvents_quiet (s : State) (n old : Nat) : (s.laneEvents n old).hif.quiet = s.hif.quiet := by
  unfold State.laneEvents
  dsimp only
  split
  · rfl
  · exact foldl_keeps (fun x : State => x.hif.quiet) _ (fun a i => by (repeat' split) <;> simp) _ _

theorem State.laneEvents_links (s : State) (n old : Nat) : s.links (s.laneEvents n old) := by
  unfold State.laneEvents
  dsimp only
  split
  · exact State.links_refl s
  · refine State.links_foldl _ (fun a i => ?_) _ _
    split
    · exact State.postEvent_links _ _ _ _
    · exact State.links_refl a

/-- What the packets of a port that goes down are followed by: other ports' traffic, drops and answers. -/
def State.reroute (s : State) (p : Nat) (es : List EPkt) : State :=
  es.foldl (fun acc e =>
    if e.pkt.bcast || e.pkt.kind == 0x1C then acc.dropPacket p else
    let r := acc.sendUnicast p e.tc e.ingress e.inVl none e.pkt
    if r.2 then r.1 else r.1.refusePacket p e.tc 4 e.pkt) s

theorem State.reroute_links (s : State) (p : Nat) (es : List EPkt) : s.links (s.reroute p es) := by
  refine State.links_foldl _ (fun a e => ?_) _ _
  dsimp only
  (repeat' split)
  · exact State.dropPacket_links _ _
  · exact State.sendUnicast_links _ _ _ _ _ _ _
  · exact State.links_trans (State.sendUnicast_links _ _ _ _ _ _ _) (State.refusePacket_links _ _ _ _ _)

theorem State.reroute_quiet (s : State) (p : Nat) (es : List EPkt) : (s.reroute p es).hif.quiet = s.hif.quiet :=
  foldl_keeps (fun x : State => x.hif.quiet) _ (fun a i => by dsimp only; (repeat' split) <;> simp) _ _

/-- The port after it has gone down. -/
def Port.downed (q : Port) : Port :=
  { q.freshLink with st := 0, lost := satAdd 0xFF q.lost (q.replay.countP (fun e => flitTc e.2 == 0)) }

theorem State.portDown_eq (s : State) (n : Nat) (ev : Bool) (h : (s.port n).st ≠ 0) :
    ∃ u, u = (s.setPort n (s.port n).downed).reroute (s.nodeOf n) ((s.port n).egress.filter (fun e => e.sent == 0)) ∧
      s.portDown n ev = if ev then u.postEvent (.vf (s.nodeOf n)) Code.portDown (toLe 1 n) else u := by
  refine ⟨_, rfl, ?_⟩
  unfold State.portDown
  dsimp only
  rw [if_neg h]
  rfl

theorem State.portDown_quiet (s : State) (n : Nat) (ev : Bool) : (s.portDown n ev).hif.quiet = s.hif.quiet := by
  by_cases h : (s.port n).st = 0
  · unfold State.portDown
    dsimp only
    rw [if_pos h]
  · obtain ⟨u, hu, he⟩ := State.portDown_eq s n ev h
    rw [he]
    have : u.hif.quiet = s.hif.quiet := by rw [hu, State.reroute_quiet]; simp
    split <;> simp [this]

@[simp] theorem State.portDown_cores (s : State) (n : Nat) (ev : Bool) : (s.portDown n ev).cores = s.cores := by
  by_cases h : (s.port n).st = 0
  · unfold State.portDown
    dsimp only
    rw [if_pos h]
  · obtain ⟨u, hu, he⟩ := State.portDown_eq s n ev h
    rw [he]
    have : u.cores = s.cores := by
      rw [hu]
      exact foldl_keeps (fun x : State => x.cores) _ (fun a i => by dsimp only; (repeat' split) <;> simp) _ _
    split <;> simp [this]

@[simp] theorem State.trainPort_cores (s : State) (n : Nat) (errs : List (Nat × Nat)) (ev : Bool) :
    (s.trainPort n errs ev).cores = s.cores := by
  unfold State.trainPort
  dsimp only
  split
  · rw [(State.laneEvents_frame _ _ _).2.2.2.2.2.2.2.2.2.2.2.1]; rfl
  · rfl

theorem State.portDown_links (s : State) (n : Nat) (ev : Bool) (h : (s.port n).st ≠ 0) :
    ((s.portDown n ev).port n).link = ((s.port n).downed).link ∧ ∀ m, m ≠ n → ((s.portDown n ev).port m).link = (s.port m).link := by
  obtain ⟨u, hu, he⟩ := State.portDown_eq s n ev h
  have hl : (s.setPort n (s.port n).downed).links (s.portDown n ev) := by
    rw [he]
    have := State.reroute_links (s.setPort n (s.port n).downed) (s.nodeOf n) ((s.port n).egress.filter (fun e => e.sent == 0))
    rw [← hu] at this
    split
    · exact State.links_trans this (State.postEvent_links _ _ _ _)
    · exact this
  refine ⟨by rw [hl n, State.port_setPort], fun m hm => by rw [hl m, State.port_setPort_ne _ _ hm]⟩

end Sys2Proof.Machine
end

