-- ==== Sys2Proof/Laws/Setup.lean ====
section
/-! SUPPORT. What an accepted set-up table changes: the host interface, the layout and the exchange tables (R376, R331). -/

namespace Sys2Proof.Machine

theorem State.setDegraded_quiet (s : State) (p : Nat) : (s.setDegraded p).hif.quiet = s.hif.quiet := by
  unfold State.setDegraded
  dsimp only
  (repeat' split) <;> simp

theorem State.setCapacity_quiet (s : State) (rs : List Nat) : (s.setCapacity rs).hif.quiet = s.hif.quiet := by
  unfold State.setCapacity
  refine foldl_keeps (fun u : State => u.hif.quiet) _ (fun a i => ?_) _ _
  exact State.setDegraded_quiet _ _

theorem State.emptied_fold (xs : List Nat) (s : State) : (xs.foldl State.emptyCaches s).hif.quiet = s.hif.quiet :=
  foldl_keeps (fun u : State => u.hif.quiet) _ (fun a i => by simp) _ _

theorem State.formParts_quiet (s : State) (n : Nat) (rs : List Nat) : (s.formParts n rs).hif.quiet = s.hif.quiet := by
  unfold State.formParts
  dsimp only
  rw [State.setCapacity_quiet]
  split
  · exact State.emptied_fold _ _
  · exact State.emptied_fold _ _

theorem State.formed_quiet (s : State) (b : Bytes) (n : Nat) : (s.formed b n).hif.quiet = s.hif.quiet := by
  unfold State.formed
  split
  · rfl
  · exact State.formParts_quiet _ _ _

theorem State.formParts_layout (s : State) (n : Nat) (rs : List Nat) : (s.formParts n rs).layout = n := by
  unfold State.formParts
  dsimp only
  simp only [State.setCapacity_frame]
  split
  · rename_i h
    rw [h]
    exact foldl_keeps (fun u : State => u.layout) _ (fun a i => by simp) _ _
  · rfl

theorem State.modExch_part (s : State) (p q : Nat) (f : Exch → Exch) :
    (s.modExch p f).part q = if q = p then { s.part p with exch := f (s.part p).exch } else s.part q := by
  unfold State.modExch
  by_cases h : q = p
  · subst h; rw [State.part_setPart, if_pos rfl]
  · rw [State.part_setPart_ne _ _ h, if_neg h]

/-- Each section with `EXCH_EN` has a table, the others none; the memory of no partition changes. -/
theorem State.takeExTables_fold (b : Bytes) (xs : List Nat) (s : State) :
    let t := xs.foldl (fun acc p => acc.modExch p (fun x => { x with tbl := if secExch b p then some (acc.exTableAt p (secOf b p 24 8)).2 else none })) s
    (∀ p ∈ xs, ((t.exch p).tbl.isSome = true ↔ secExch b p = true)) ∧ ∀ q, (t.part q).hbm = (s.part q).hbm := by
  induction xs generalizing s with
  | nil => exact ⟨fun p hp => absurd hp List.not_mem_nil, fun q => rfl⟩
  | cons p xs ih =>
    dsimp only at ih ⊢
    rw [List.foldl_cons]
    obtain ⟨h1, h2⟩ := ih (s.modExch p (fun x => { x with tbl := if secExch b p then some (s.exTableAt p (secOf b p 24 8)).2 else none }))
    refine ⟨fun q hq => ?_, fun q => ?_⟩
    · by_cases hx : q ∈ xs
      · exact h1 q hx
      · have hqp : q = p := by rcases List.mem_cons.mp hq with h | h; exacts [h, absurd h hx]
        subst hqp
        have hk : ∀ (ys : List Nat) (u : State), q ∉ ys →
            (ys.foldl (fun acc p => acc.modExch p (fun x => { x with tbl := if secExch b p then some (acc.exTableAt p (secOf b p 24 8)).2 else none })) u).exch q = u.exch q := by
          intro ys
          induction ys with
          | nil => intro u _; rfl
          | cons y ys ihy =>
            intro u hy
            rw [List.foldl_cons, ihy _ (fun h => hy (List.mem_cons_of_mem _ h))]
            simp only [State.exch, State.modExch_part]
            rw [if_neg (fun h => hy (by rw [h]; exact List.mem_cons_self))]
        rw [hk xs _ hx]
        simp only [State.exch, State.modExch_part, if_pos]
        cases secExch b q <;> simp
    · rw [h2 q, State.modExch_part]
      split
      · subst_vars; rfl
      · rfl

end Sys2Proof.Machine
end

