-- ==== Sys2Proof/WellFormed.lean ====
section
/-! DEFINITION. Well-formed commands: every number that names a part of the block lies in that part's range (R3, R6, R14, R20, R262,
R263). A well-formed command may still name what this grade, layout or state does not have; exec looks at that. -/

namespace Sys2Proof

/-- A logical core: 0 to 511 (R3). -/
def coreOk (l : Nat) : Bool := decide (l < 512)
/-- A physical core: 0 to 575 (R262). -/
def physOk (c : Nat) : Bool := decide (c < 576)
/-- An array of a core (R14). -/
def arrayOk (a : Nat) : Bool := decide (a < 2)
/-- A thread of a vector engine (R146). -/
def threadOk (t : Nat) : Bool := decide (t < 16)
/-- An engine queue of a core (R194). -/
def queueOk (q : Nat) : Bool := decide (q < 5)
/-- A base die or compute die (R3). -/
def dieOk (d : Nat) : Bool := decide (d < 4)
/-- A partition (R20). -/
def partOk (p : Nat) : Bool := decide (p < 4)
/-- A stack (R3). -/
def stackOk (k : Nat) : Bool := decide (k < 12)
/-- A channel of a stack (R263). -/
def channelOk (c : Nat) : Bool := decide (c < 32)
/-- A pseudo-channel of a channel (R263). -/
def pcOk (p : Nat) : Bool := decide (p < 2)
/-- A bank of a pseudo-channel (R263). -/
def bankOk (b : Nat) : Bool := decide (b < 64)
/-- A Bureg port (R6). -/
def portOk (n : Nat) : Bool := decide (n < 32)
/-- A lane of a port (R294). -/
def laneOk (l : Nat) : Bool := decide (l < 4)
/-- A traffic class (R307). -/
def classOk (tc : Nat) : Bool := decide (tc < 3)
/-- A virtual lane (R307). -/
def vlOk (vl : Nat) : Bool := decide (vl < 2)
/-- A region of a log store (R464). -/
def regionOk (r : Nat) : Bool := decide (r < 2)
/-- A ring pair (R378). -/
def ringOk (n : Nat) : Bool := decide (n < 64)
/-- A ring register group: a ring pair, or 64 for the event ring (R389). -/
def groupOk (n : Nat) : Bool := decide (n ≤ 64)
/-- A rank or shard of a group (R331). -/
def rankOk (r : Nat) : Bool := decide (r < 65535)
/-- A node identifier (R302). -/
def idOk (i : Nat) : Bool := decide (i < 65536)
/-- A transaction number (R303). -/
def txnOk (t : Nat) : Bool := decide (t < 65536)
/-- A partition address (R260). -/
def addrOk (a : Nat) : Bool := decide (a < 2 ^ 44)
/-- An offset in a BAR (R366). -/
def offOk (a : Nat) : Bool := decide (a < 2 ^ 40)
/-- A byte-sized number. -/
def byteOk (v : Nat) : Bool := decide (v < 256)
/-- A number of 32 bits. -/
def wordOk (v : Nat) : Bool := decide (v < 2 ^ 32)
/-- A fabric time (R8). -/
def timeOk (v : Nat) : Bool := decide (v < 2 ^ 64)
/-- A class code (R418). -/
def strapsOk (v : Nat) : Bool := decide (v < 4)
/-- A flit as it comes off a port: 256 bytes (R296). -/
def flitOk (raw : Bytes) : Bool := decide (raw.length = 256)
/-- A DMA channel (R225). -/
def chanOk : Chan → Bool
  | .core l n => coreOk l && decide (n < 8)
  | .bulk b n => dieOk b && decide (n < 18)
/-- A function (R22). -/
def fnOk : Fn → Bool
  | .pf => true
  | .vf p => partOk p
/-- A fault of a memory access: symbols of the code word (R270). -/
def faultOk : MemFault → Bool
  | .symbols errs => errs.all (fun e => decide (e.1 < 272))
  | .clean => true
  | .nimCorrected => true
  | .nimUncorrectable => true
  | .noResponse => true
/-- A counter (R458, R461, R463). -/
def counterOk : CounterId → Bool
  | .stall c e cause => physOk c && decide (e < 6) && decide (cause < 16)
  | .event c n => physOk c && decide (n < 8)
  | .global n => decide (n < 32)
/-- A request to host memory (R365). -/
def requestOk : HostRequest → Bool
  | .submission p ring => partOk p && ringOk ring
  | .copyList p => partOk p
  | .copyIn p => partOk p
  | .copyOut p => partOk p
/-- Readings of known sensor groups (R429). -/
def readingsOk (rs : List Reading) : Bool := rs.all (fun r => decide (r.group < 20))
/-- Errors of lanes that a port has (R402). -/
def lanesOk (es : List (Nat × Nat)) : Bool := es.all (fun e => laneOk e.1)
/-- The places of a threshold event (R406). -/
def eventOk : FaultEvent → Bool
  | .laneReplays port lane => portOk port && laneOk lane
  | .rowErrors k pc c b row => stackOk k && pcOk pc && channelOk c && bankOk b && decide (row < 8192)
  | .channelErrors k c => stackOk k && channelOk c
  | .pinErrors k c pin => stackOk k && channelOk c && decide (pin < 64)
  | .rowsUnrepairable k c => stackOk k && channelOk c
  | .parity c => physOk c
  | .storeCorrectable c => physOk c
  | .storeUncorrectable c => physOk c
  | .nimCorrectable d t => dieOk d && decide (t < 144)
  | .nimPoisoned d t => dieOk d && decide (t < 144)
/-- The places that a bring-up finds faulty (R393). -/
def findingsOk (f : Findings) : Bool :=
  f.stackFail.all stackOk && f.chanFail.all (fun e => stackOk e.1 && channelOk e.2) && f.coreFail.all physOk &&
    f.slabFail.all (fun e => dieOk e.1 && decide (e.2 < 144)) && f.laneErrs.all (fun e => portOk e.1 && laneOk e.2.1)

/-- A well-formed command. -/
def Instr.wellFormed : Instr → Bool
  | .recordFetch l flt => coreOk l && faultOk flt
  | .recordDispatch l parity => coreOk l && byteOk parity
  | .recordComplete l q n => coreOk l && queueOk q && byteOk n
  | .tokenTimeout l q => coreOk l && queueOk q
  | .pass l a => coreOk l && arrayOk a
  | .front l a => coreOk l && arrayOk a
  | .preloadStaging l a => coreOk l && arrayOk a
  | .slotdrain l a => coreOk l && arrayOk a
  | .cirrus l a => coreOk l && arrayOk a
  | .cirrusRepeat l a => coreOk l && arrayOk a
  | .launch l => coreOk l
  | .quant l => coreOk l
  | .dma l => coreOk l
  | .bdma l => coreOk l
  | .nop l => coreOk l
  | .barrier l => coreOk l
  | .barrierRelease p => partOk p
  | .barrierTimeout l => coreOk l
  | .signal l => coreOk l
  | .tokset l => coreOk l
  | .inval l => coreOk l
  | .endStream l => coreOk l
  | .loop l => coreOk l
  | .endloop l => coreOk l
  | .branchMisfit l => coreOk l
  | .setsv l => coreOk l
  | .addsv l => coreOk l
  | .setpair l => coreOk l
  | .swap l => coreOk l
  | .setkey l => coreOk l
  | .add l t => coreOk l && threadOk t
  | .sub l t => coreOk l && threadOk t
  | .mul l t => coreOk l && threadOk t
  | .fma l t => coreOk l && threadOk t
  | .min l t => coreOk l && threadOk t
  | .max l t => coreOk l && threadOk t
  | .cmplt l t => coreOk l && threadOk t
  | .cmpeq l t => coreOk l && threadOk t
  | .cvt l t => coreOk l && threadOk t
  | .sel l t => coreOk l && threadOk t
  | .mov l t => coreOk l && threadOk t
  | .movi l t => coreOk l && threadOk t
  | .exp l t => coreOk l && threadOk t
  | .exp2 l t => coreOk l && threadOk t
  | .log l t => coreOk l && threadOk t
  | .log2 l t => coreOk l && threadOk t
  | .rsqrt l t => coreOk l && threadOk t
  | .wadd l t => coreOk l && threadOk t
  | .wsub l t => coreOk l && threadOk t
  | .wneg l t => coreOk l && threadOk t
  | .wfinish l t => coreOk l && threadOk t
  | .wfinishb l t => coreOk l && threadOk t
  | .load l t => coreOk l && threadOk t
  | .store l t => coreOk l && threadOk t
  | .gather l t => coreOk l && threadOk t
  | .scatter l t => coreOk l && threadOk t
  | .scatterAdd l t => coreOk l && threadOk t
  | .fence l t => coreOk l && threadOk t
  | .pack l t => coreOk l && threadOk t
  | .unpack l t => coreOk l && threadOk t
  | .range l t => coreOk l && threadOk t
  | .mvBcast l t => coreOk l && threadOk t
  | .mvReduce l t => coreOk l && threadOk t
  | .br l t => coreOk l && threadOk t
  | .brz l t => coreOk l && threadOk t
  | .tbar l t => coreOk l && threadOk t
  | .kernelEnd l t => coreOk l && threadOk t
  | .descriptorFetch ch => chanOk ch
  | .descriptorStart ch => chanOk ch
  | .crcFinish ch => chanOk ch
  | .dmaBusError ch => chanOk ch
  | .deadlineMiss ch => chanOk ch
  | .streamEndDeadlineMiss l => coreOk l
  | .staleCheck l q => coreOk l && queueOk q
  | .logDrainWrite c region => physOk c && regionOk region
  | .logPadTimeout c region => physOk c && regionOk region
  | .barometerSample c => physOk c
  | .globalBarometerSample => true
  | .tagBreak l q => coreOk l && queueOk q
  | .readRequest ch flt => chanOk ch && faultOk flt
  | .writeRequest ch flt => chanOk ch && faultOk flt
  | .atomicOperation p addr _ flt => partOk p && addrOk addr && faultOk flt
  | .requestWatchdog ch => chanOk ch
  | .refresh stack pc channel bank => stackOk stack && pcOk pc && channelOk channel && bankOk bank
  | .patrolScrub stack flt => stackOk stack && faultOk flt
  | .permanentFault f => eventOk f
  | .rowRepair stack => stackOk stack
  | .channelRetire p => partOk p
  | .spareSubstitution p _ => partOk p
  | .jobStart p _ _ => partOk p
  | .noOperationEntry p ring _ => partOk p && ringOk ring
  | .hostCopyIn p _ => partOk p
  | .hostCopyOut p _ => partOk p
  | .jobComplete p => partOk p
  | .hostCompletionTimeout r => requestOk r
  | .eventIrqInterval fn => fnOk fn
  | .sqTail p ring value => partOk p && ringOk ring && wordOk value
  | .cqHead p ring value => partOk p && ringOk ring && wordOk value
  | .evtHead fn value => fnOk fn && wordOk value
  | .ringEnable fn group _ => fnOk fn && groupOk group
  | .ringDisable fn group _ => fnOk fn && groupOk group
  | .resume p ring => partOk p && ringOk ring
  | .setupCommit => true
  | .setupValidation => true
  | .bar2Read fn off len flt => fnOk fn && offOk off && wordOk len && faultOk flt
  | .bar2Write fn off _ => fnOk fn && offOk off
  | .bar2ReadAbort fn off => fnOk fn && offOk off
  | .registerWrite fn off size _ => fnOk fn && offOk off && byteOk size
  | .ftimeLoRead => true
  | .counterLoRead k => counterOk k
  | .functionLevelResetVf p => partOk p
  | .functionLevelResetPf => true
  | .clear ch => chanOk ch
  | .apply b => dieOk b
  | .flush b => dieOk b
  | .go stack channel => stackOk stack && channelOk channel
  | .force stack channel => stackOk stack && channelOk channel
  | .disable port => portOk port
  | .retrain port => portOk port
  | .commit p => partOk p
  | .routeCommit p => partOk p
  | .arm epochHi => wordOk epochHi
  | .start p => partOk p
  | .exchCtrlLeave p => partOk p
  | .exchCtrlJoin p => partOk p
  | .fullReset => true
  | .computeReset p => partOk p
  | .partReset p => partOk p
  | .lower code => strapsOk code
  | .dbgCountersClear c => physOk c
  | .globalCountersClear => true
  | .logEnableWrite c _ _ => physOk c
  | .logResplit c => physOk c
  | .coreResume c => physOk c
  | .partitionResume p => partOk p
  | .partitionFreeze p => partOk p
  | .hxPwrEnRise _ => true
  | .hxPwrEnFall => true
  | .perstAssert => true
  | .perstDeassert => true
  | .bringup f => findingsOk f
  | .hxSyncEdge _ _ => true
  | .classStrapChange straps => strapsOk straps
  | .inputVoltageExcursion _ _ => true
  | .regulatorFault => true
  | .thermalSample rs => readingsOk rs
  | .throttleStep d => dieOk d
  | .throttleRestore d => dieOk d
  | .powerSample _ _ => true
  | .powerLimitStep => true
  | .issueLevelUpdate c => physOk c
  | .rampAdmission d => dieOk d
  | .droop d => dieOk d
  | .droopResume d => dieOk d
  | .refclkLockLoss => true
  | .hello port raw => portOk port && flitOk raw
  | .helloSend port => portOk port
  | .helloTimeout port => portOk port
  | .lossOfSignal port => portOk port
  | .cableInsert port laneErrs => portOk port && lanesOk laneErrs
  | .packetFlit port raw lane => portOk port && flitOk raw && laneOk lane
  | .replayRequest port raw => portOk port && flitOk raw
  | .replayRequestRepeat port => portOk port
  | .timestamp port t1 t2 t3 t4 => portOk port && timeOk t1 && timeOk t2 && timeOk t3 && timeOk t4
  | .timestampSend port => portOk port
  | .fabricStall port tc vl => portOk port && classOk tc && vlOk vl
  | .tc0Inject p => partOk p
  | .withdrawalExpiry port dest => portOk port && idOk dest
  | .write p => partOk p
  | .read p flt => partOk p && faultOk flt
  | .readResp p => partOk p
  | .writeResp p => partOk p
  | .errorResp p => partOk p
  | .remoteSignal p => partOk p
  | .barArrive p => partOk p
  | .barRelease p => partOk p
  | .mgmtWrite p => partOk p
  | .mgmtRead p => partOk p
  | .mgmtResp p => partOk p
  | .unreachable port => portOk port
  | .chain p => partOk p
  | .publish p => partOk p
  | .pubDone p => partOk p
  | .pubDoneRepeat p => partOk p
  | .commitRepeat p => partOk p
  | .commitQuery p => partOk p
  | .commitQuerySend p => partOk p
  | .suspect p => partOk p
  | .leave p => partOk p
  | .join p => partOk p
  | .joinReady p => partOk p
  | .hopTimeout p txn => partOk p && txnOk txn
  | .contributionDeadline p => partOk p
  | .takeover p shard => partOk p && rankOk shard
  | .shardLost p shard => partOk p && rankOk shard
  | .commitTimeout p => partOk p
  | .shardFetch p shard _ => partOk p && rankOk shard
  | .stateCopy p shard => partOk p && rankOk shard
  | .mmcRestart _ => true
  | .coreFwActivation p => partOk p
  | .firmwareBroadcast _ => true
  | .setEndpointId _ eid => byteOk eid
  | .mctpUnsupportedType _ ty => byteOk ty
  | .getTid _ => true
  | .setTid _ tid => byteOk tid
  | .getPldmVersion _ ty => byteOk ty
  | .getPldmTypes _ => true
  | .getPldmCommands _ ty => byteOk ty
  | .getPdrRepositoryInfo _ => true
  | .getPdr _ record => wordOk record
  | .getSensorReading _ sensor => byteOk sensor
  | .getStateSensorReadings _ sensor => byteOk sensor
  | .setNumericSensorEnable _ sensor op => byteOk sensor && byteOk op
  | .setEventReceiver _ eid => byteOk eid
  | .queryDeviceIdentifiers _ => true
  | .getFirmwareParameters _ => true
  | .requestUpdate _ ncomp => wordOk ncomp
  | .passComponentTable _ component => wordOk component
  | .updateComponent _ component _ => wordOk component
  | .activateFirmware _ => true
  | .getStatus _ => true
  | .cancelUpdateComponent _ => true
  | .cancelUpdate _ => true
  | .getVersion _ => true
  | .getCapabilities _ => true
  | .negotiateAlgorithms _ _ => true
  | .getDigests _ => true
  | .getCertificate _ slot offset len => byteOk slot && wordOk offset && wordOk len
  | .challenge _ slot _ => byteOk slot
  | .getMeasurements _ index _ _ => byteOk index
  | .idleFlit port raw => portOk port && flitOk raw
  | .rootPllLockRegained => true
  | .computeResetDone p => partOk p
  | .partResetDone p f => partOk p && findingsOk f
  | .rowRepairDone stack _ => stackOk stack
  | .nimBusyEnd b => dieOk b
  | .portTrainingDone port laneErrs => portOk port && lanesOk laneErrs
  | .coreVoltageRaised d => dieOk d
  | .mmcRestartDone => true
  | .pwrEnLowTimeElapsed => true
  | .unsupportedPldmCmd _ ty cmd => byteOk ty && byteOk cmd
  | .routeTableRegisterWrite p off _ => partOk p && wordOk off

end Sys2Proof
end

