-- ==== Sys2Proof/Tests/Slice0.lean ====
section
/-! SUPPORT. Tests: what the well-formedness checks refuse, and states that meet the hypotheses of the statements. -/

open Sys2Proof Sys2Proof.Machine Sys2Proof.Safety

namespace Sys2Proof.Tests

/-! ## Well-formedness: one ill-formed command for each check -/

theorem test_wf_refuses_coreOk : Instr.wellFormed (.nop 512) = false := by decide

theorem test_wf_refuses_physOk : Instr.wellFormed (.coreResume 576) = false := by decide

theorem test_wf_refuses_arrayOk : Instr.wellFormed (.pass 0 2) = false := by decide

theorem test_wf_refuses_threadOk : Instr.wellFormed (.add 0 16) = false := by decide

theorem test_wf_refuses_queueOk : Instr.wellFormed (.recordComplete 0 5 0) = false := by decide

theorem test_wf_refuses_dieOk : Instr.wellFormed (.droop 4) = false := by decide

theorem test_wf_refuses_partOk : Instr.wellFormed (.commit 4) = false := by decide

theorem test_wf_refuses_stackOk : Instr.wellFormed (.rowRepair 12) = false := by decide

theorem test_wf_refuses_channelOk : Instr.wellFormed (.go 0 32) = false := by decide

theorem test_wf_refuses_pcOk : Instr.wellFormed (.refresh 0 2 0 0) = false := by decide

theorem test_wf_refuses_bankOk : Instr.wellFormed (.refresh 0 0 0 64) = false := by decide

theorem test_wf_refuses_portOk : Instr.wellFormed (.helloSend 32) = false := by decide

theorem test_wf_refuses_laneOk : Instr.wellFormed (.permanentFault (.laneReplays 0 4)) = false := by decide

theorem test_wf_refuses_classOk : Instr.wellFormed (.fabricStall 0 3 0) = false := by decide

theorem test_wf_refuses_vlOk : Instr.wellFormed (.fabricStall 0 0 2) = false := by decide

theorem test_wf_refuses_regionOk : Instr.wellFormed (.logDrainWrite 0 2) = false := by decide

theorem test_wf_refuses_ringOk : Instr.wellFormed (.resume 0 64) = false := by decide

theorem test_wf_refuses_groupOk : Instr.wellFormed (.ringEnable .pf 65 0) = false := by decide

theorem test_wf_refuses_rankOk : Instr.wellFormed (.takeover 0 65535) = false := by decide

theorem test_wf_refuses_idOk : Instr.wellFormed (.withdrawalExpiry 0 65536) = false := by decide

theorem test_wf_refuses_txnOk : Instr.wellFormed (.hopTimeout 0 65536) = false := by decide

theorem test_wf_refuses_addrOk : Instr.wellFormed (.atomicOperation 0 (2 ^ 44) (.add64 0) .clean) = false := by decide

theorem test_wf_refuses_offOk : Instr.wellFormed (.bar2ReadAbort .pf (2 ^ 40)) = false := by decide

theorem test_wf_refuses_byteOk : Instr.wellFormed (.setTid .vdm 256) = false := by decide

theorem test_wf_refuses_wordOk : Instr.wellFormed (.arm (2 ^ 32)) = false := by decide

theorem test_wf_refuses_timeOk : Instr.wellFormed (.timestamp 0 (2 ^ 64) 0 0 0) = false := by decide

theorem test_wf_refuses_strapsOk : Instr.wellFormed (.lower 4) = false := by decide

theorem test_wf_refuses_flitOk : Instr.wellFormed (.idleFlit 0 []) = false := by decide

theorem test_wf_refuses_chanOk_core : Instr.wellFormed (.clear (.core 0 8)) = false := by decide

theorem test_wf_refuses_chanOk_bulk : Instr.wellFormed (.clear (.bulk 0 18)) = false := by decide

theorem test_wf_refuses_fnOk : Instr.wellFormed (.evtHead (.vf 4) 0) = false := by decide

theorem test_wf_refuses_faultOk : Instr.wellFormed (.readRequest (.core 0 0) (.symbols [(272, 1)])) = false := by decide

theorem test_wf_refuses_counterOk_stall : Instr.wellFormed (.counterLoRead (.stall 0 6 0)) = false := by decide

theorem test_wf_refuses_counterOk_event : Instr.wellFormed (.counterLoRead (.event 0 8)) = false := by decide

theorem test_wf_refuses_counterOk_global : Instr.wellFormed (.counterLoRead (.global 32)) = false := by decide

theorem test_wf_refuses_requestOk : Instr.wellFormed (.hostCompletionTimeout (.copyList 4)) = false := by decide

theorem test_wf_refuses_readingsOk : Instr.wellFormed (.thermalSample [⟨20, 0⟩]) = false := by decide

theorem test_wf_refuses_lanesOk : Instr.wellFormed (.cableInsert 0 [(4, 0)]) = false := by decide

theorem test_wf_refuses_eventOk_row : Instr.wellFormed (.permanentFault (.rowErrors 0 0 0 0 8192)) = false := by decide

theorem test_wf_refuses_eventOk_slab : Instr.wellFormed (.permanentFault (.nimPoisoned 0 144)) = false := by decide


end Sys2Proof.Tests
end

