-- ==== Sys2Proof/Proofs/Fuses.lean ====
section
/-! SUPPORT. What is fused in the part or programmed in its field-repair bank, and that most operations leave it
alone (R2, R396, R397). -/

namespace Sys2Proof.Machine

/-- What is fused or programmed in the part: the stepping, the bad cores, channels and slabs of the factory, and the field-repair
bank (R2, R396, R397). -/
structure Fuses where
  stepping : Nat
  cores    : List Nat
  chans    : List (Nat × Nat)
  slabs    : List (Nat × Nat)
  bank     : List Nat

/-- What of the chip is fused or programmed. -/
def Chip.fuses (c : Chip) : Fuses := ⟨c.stepping, c.fuseCores, c.fuseChans, c.fuseSlabs, c.bank⟩

@[simp] theorem Chip.ite_fuses (p : Prop) [Decidable p] (c d : Chip) :
    (if p then c else d).fuses = if p then c.fuses else d.fuses := apply_ite _ _ _ _

@[simp] theorem State.foldl_fuses {ι : Type} (f : State → ι → State) (l : List ι) (s : State)
    (h : ∀ a i, (f a i).chip.fuses = a.chip.fuses) : (l.foldl f s).chip.fuses = s.chip.fuses :=
  foldl_keeps (·.chip.fuses) f h l s

@[simp] theorem State.foldlFst_fuses {ι α : Type} (f : State × α → ι → State × α) (l : List ι) (x : State × α)
    (h : ∀ a i, (f a i).1.chip.fuses = a.1.chip.fuses) : (l.foldl f x).1.chip.fuses = x.1.chip.fuses :=
  foldl_keeps (·.1.chip.fuses) f h l x

@[simp] theorem KOut.foldl_fuses {ι : Type} (f : KOut → ι → KOut) (l : List ι) (x : KOut)
    (h : ∀ a i, (f a i).st.chip.fuses = a.st.chip.fuses) : (l.foldl f x).st.chip.fuses = x.st.chip.fuses :=
  foldl_keeps (·.st.chip.fuses) f h l x

@[simp] theorem KOut.foldlFst_fuses {ι α : Type} (f : KOut × α → ι → KOut × α) (l : List ι) (x : KOut × α)
    (h : ∀ a i, (f a i).1.st.chip.fuses = a.1.st.chip.fuses) : (l.foldl f x).1.st.chip.fuses = x.1.st.chip.fuses :=
  foldl_keeps (·.1.st.chip.fuses) f h l x

theorem andThen_fuses (r : State × Except (Nat × Nat) Unit) (f : State → State × Except (Nat × Nat) Unit)
    (h : ∀ s, (f s).1.chip.fuses = s.chip.fuses) : (andThen r f).1.chip.fuses = r.1.chip.fuses :=
  andThen_keeps (·.chip.fuses) r f h

theorem Work.next_fuses {α β : Type} (r : Work α) (f : State → α → Work β)
    (h : ∀ s a, (f s a).1.chip.fuses = s.chip.fuses) : (r.next f).1.chip.fuses = r.1.chip.fuses :=
  Work.next_keeps (·.chip.fuses) r f h

theorem Work.each_fuses {α β : Type} (s : State) (xs : List α) (f : State → α → Work β)
    (h : ∀ s a, (f s a).1.chip.fuses = s.chip.fuses) : (Work.each s xs f).1.chip.fuses = s.chip.fuses :=
  Work.each_keeps (·.chip.fuses) s xs f h

theorem State.modChip_chip (s : State) (f : Chip → Chip) : (s.modChip f).chip = f s.chip := (rfl)

theorem State.modChip_fuses (s : State) (f : Chip → Chip) (h : ∀ c, (f c).fuses = c.fuses) :
    (s.modChip f).chip.fuses = s.chip.fuses := h s.chip

@[simp] theorem Chip.fuses_memErr (c : Chip) (b : Bool) : ({ c with memErr := b } : Chip).fuses = c.fuses := (rfl)

@[simp] theorem State.runEntry_fuses (s : State) (c q i : Nat) (e : QEntry) (run : State → State × Outcome)
    (h : ∀ s, (run s).1.chip.fuses = s.chip.fuses) : (s.runEntry c q i e run).chip.fuses = s.chip.fuses := by
  unfold State.runEntry
  simp [h]

@[simp] theorem State.issuing_fuses (s : State) (c : Nat) (f : State → State)
    (h : ∀ s, (f s).chip.fuses = s.chip.fuses) : (s.issuing c f).chip.fuses = s.chip.fuses := by
  unfold State.issuing
  split <;> simp [h]

@[simp] theorem State.withTable_fuses (s : State) (p : Nat) (f : ExTable → State)
    (h : ∀ t, (f t).chip.fuses = s.chip.fuses) : (s.withTable p f).chip.fuses = s.chip.fuses := by
  unfold State.withTable
  split <;> simp [h]

@[simp] theorem State.memEvent_fuses (s : State) (p line : Nat) (recovered : Bool) (symbols : Nat) :
    (State.memEvent s p line recovered symbols).chip.fuses = s.chip.fuses := by simp [State.memEvent]

@[simp] theorem State.readWord_fuses (s : State) (p line : Nat) (flt : MemFault) :
    (State.readWord s p line flt).1.chip.fuses = s.chip.fuses := by
  unfold State.readWord
  dsimp only
  (repeat' split) <;> simp

@[simp] theorem State.recoverWord_fuses (s : State) (p line : Nat) (errs : List (Nat × Byte)) :
    (State.recoverWord s p line errs).chip.fuses = s.chip.fuses := by simp [State.recoverWord]

@[simp] theorem State.readLine_fuses (s : State) (p a0 n : Nat) (priv : Bool) (flt : MemFault) :
    (State.readLine s p a0 n priv flt).1.chip.fuses = s.chip.fuses := by
  unfold State.readLine
  dsimp only
  split <;> simp

@[simp] theorem State.writeLine_fuses (s : State) (p a0 : Nat) (bs : Bytes) (priv : Bool) (flt : MemFault) :
    (State.writeLine s p a0 bs priv flt).1.chip.fuses = s.chip.fuses := by
  unfold State.writeLine
  dsimp only
  split <;> simp

@[simp] theorem State.devRead_fuses (s : State) (p a n : Nat) (priv : Bool) :
    (State.devRead s p a n priv).1.chip.fuses = s.chip.fuses := by
  unfold State.devRead
  refine State.foldlFst_fuses _ _ _ fun a i => ?_
  dsimp only
  (repeat' split) <;> simp

@[simp] theorem State.devWrite_fuses (s : State) (p a : Nat) (bs : Bytes) (priv : Bool) :
    (State.devWrite s p a bs priv).1.chip.fuses = s.chip.fuses := by
  unfold State.devWrite
  refine State.foldlFst_fuses _ _ _ fun a i => ?_
  dsimp only
  split <;> simp

@[simp] theorem State.locRead_fuses (s : State) (p : Nat) (l : Loc) (n : Nat) :
    (State.locRead s p l n).1.chip.fuses = s.chip.fuses := by
  unfold State.locRead
  split <;> simp

@[simp] theorem State.locWrite_fuses (s : State) (p : Nat) (l : Loc) (bs : Bytes) :
    (State.locWrite s p l bs).1.chip.fuses = s.chip.fuses := by
  unfold State.locWrite
  split <;> simp

@[simp] theorem State.locWrites_fuses (s : State) (p : Nat) (ws : List (Loc × Bytes)) :
    (State.locWrites s p ws).1.chip.fuses = s.chip.fuses := by
  unfold State.locWrites
  refine State.foldlFst_fuses _ _ _ fun a i => ?_
  dsimp only
  split <;> simp

@[simp] theorem State.locReads_fuses (s : State) (p : Nat) (ls : List (Loc × Nat)) :
    (State.locReads s p ls).1.chip.fuses = s.chip.fuses := by
  unfold State.locReads
  refine State.foldlFst_fuses _ _ _ fun a i => ?_
  dsimp only
  (repeat' split) <;> simp

@[simp] theorem State.atomic_fuses (s : State) (p a : Nat) (op : AtomicOp) (flt : MemFault) :
    (State.atomic s p a op flt).1.chip.fuses = s.chip.fuses := by
  unfold State.atomic
  dsimp only
  (repeat' split) <;> simp

@[simp] theorem State.icacheBurst_fuses (s : State) (c p : Nat) (l : Loc) :
    (State.icacheBurst s c p l).chip.fuses = s.chip.fuses := by
  unfold State.icacheBurst
  refine State.foldl_fuses _ _ _ fun a i => ?_
  dsimp only
  (repeat' split) <;> simp

@[simp] theorem State.icacheRead_fuses (s : State) (c p : Nat) (l : Loc) (n : Nat) :
    (State.icacheRead s c p l n).1.chip.fuses = s.chip.fuses := by
  unfold State.icacheRead
  dsimp only
  (repeat' split) <;> simp

@[simp] theorem State.kernel_fuses (s : State) (l t op : Nat) (run : State → KCtx → KOut)
    (h : ∀ s x, (run s x).st.chip.fuses = s.chip.fuses) : (s.kernel l t op run).chip.fuses = s.chip.fuses := by
  unfold State.kernel
  dsimp only
  (repeat' split) <;> simp [h]

@[simp] theorem kLoadStore_fuses (store : Bool) (s : State) (x : KCtx) :
    (kLoadStore store s x).st.chip.fuses = s.chip.fuses := by
  unfold kLoadStore
  dsimp only
  (repeat' split) <;> simp

@[simp] theorem kGather_fuses (s : State) (x : KCtx) :
    (kGather s x).st.chip.fuses = s.chip.fuses := by
  unfold kGather
  split
  · rfl
  · dsimp only
    split <;>
    · refine (KOut.foldlFst_fuses _ _ _ fun a i => ?_).trans (by simp)
      (repeat' split) <;> simp

@[simp] theorem kScatter_fuses (s : State) (x : KCtx) :
    (kScatter s x).st.chip.fuses = s.chip.fuses := by
  unfold kScatter
  dsimp only
  split
  · rfl
  · refine (KOut.foldl_fuses _ _ _ fun a i => ?_).trans (by simp)
    (repeat' split) <;> simp

@[simp] theorem State.locAtomic_fuses (s : State) (p : Nat) (l : Loc) (op : AtomicOp) :
    (State.locAtomic s p l op).1.chip.fuses = s.chip.fuses := by
  unfold State.locAtomic
  split <;> simp

@[simp] theorem kScatterAdd_fuses (s : State) (x : KCtx) :
    (kScatterAdd s x).st.chip.fuses = s.chip.fuses := by
  unfold kScatterAdd
  dsimp only
  split
  · rfl
  · split
    · rfl
    · refine (KOut.foldl_fuses _ _ _ fun a i => ?_).trans (by simp)
      (repeat' split) <;> simp

@[simp] theorem State.kHeader_fuses (s : State) (x : KCtx) (w : Nat) :
    (State.kHeader s x w).1.chip.fuses = s.chip.fuses := by
  unfold State.kHeader
  dsimp only
  (repeat' split) <;> simp

@[simp] theorem State.writeElems_fuses (s : State) (p : Nat) (t : Tensor) (base : Loc) (line first : Nat) (es : List Nat) :
    (State.writeElems s p t base line first es).1.chip.fuses = s.chip.fuses := by
  unfold State.writeElems
  refine State.foldlFst_fuses _ _ _ fun a i => ?_
  split <;> simp

@[simp] theorem State.writeOffs_fuses (s : State) (p : Nat) (t : Tensor) (base : Loc) (line first : Nat) (os : List Nat) :
    (State.writeOffs s p t base line first os).1.chip.fuses = s.chip.fuses := by
  unfold State.writeOffs
  refine State.foldlFst_fuses _ _ _ fun a i => ?_
  split <;> simp

@[simp] theorem State.writePow2_fuses (s : State) (p : Nat) (hdr : Loc) (b : Bool) :
    (State.writePow2 s p hdr b).1.chip.fuses = s.chip.fuses := by simp [State.writePow2]

@[simp] theorem kPackTile_fuses (s : State) (x : KCtx) (mode : RMode) (vs : List FVal) :
    (kPackTile s x mode vs).st.chip.fuses = s.chip.fuses := by
  unfold kPackTile
  dsimp only
  (repeat' split) <;> simp

@[simp] theorem kPackSeg.packLine_fuses (s : State) (x : KCtx) (t : Tensor) (el : Loc) (sg : Seg) (xs : List FVal)
    (q : Nat → Nat) (mode : RMode) (compute : Bool) (hl : Loc) :
    (kPackSeg.packLine s x t el sg xs q mode compute hl).st.chip.fuses = s.chip.fuses := by
  unfold kPackSeg.packLine
  split
  · split
    · rfl
    · dsimp only
      split
      · simp
      · rw [KOut.ofChain_st]
        refine (andThen_fuses _ _ fun _ => (andThen_fuses _ _ fun _ =>
          (andThen_fuses _ _ fun _ => ?_).trans ?_).trans ?_).trans ?_ <;>
          simp
  · rfl

@[simp] theorem kPackSeg_fuses (s : State) (x : KCtx) (mode : RMode) (vs : List FVal) :
    (kPackSeg s x mode vs).st.chip.fuses = s.chip.fuses := by
  unfold kPackSeg
  dsimp only
  (repeat' split) <;> simp

@[simp] theorem kPack_fuses (s : State) (x : KCtx) :
    (kPack s x).st.chip.fuses = s.chip.fuses := by
  unfold kPack
  (repeat' split) <;> simp

@[simp] theorem State.readEntry_fuses (s : State) (p : Nat) (t : Tensor) (line i : Nat) :
    (State.readEntry s p t line i).1.chip.fuses = s.chip.fuses := by
  unfold State.readEntry
  split <;> simp

@[simp] theorem kUnpack_fuses (s : State) (x : KCtx) :
    (kUnpack s x).st.chip.fuses = s.chip.fuses := by
  unfold kUnpack
  split
  · dsimp only
    split
    · simp
    · split
      · simp
      · split <;>
        · refine (State.foldlFst_fuses _ _ _ fun a i => ?_).trans (by simp)
          (repeat' split) <;> simp
  · rfl

@[simp] theorem State.readScales_fuses (s : State) (p : Nat) (src : ScaleSrc) (n : Nat) (pairs : Bool) :
    (State.readScales s p src n pairs).1.chip.fuses = s.chip.fuses := by
  unfold State.readScales
  dsimp only
  (repeat' split) <;> simp

@[simp] theorem State.readBias_fuses (s : State) (p : Nat) (b : Option Loc) (n : Nat) :
    (State.readBias s p b n).1.chip.fuses = s.chip.fuses := by
  unfold State.readBias
  dsimp only
  (repeat' split) <;> simp

@[simp] theorem State.readDrainIn_fuses (s : State) (p : Nat) (d : Drain) (bias : Option Loc) (axis : Bool) (rows cols : Nat) :
    (State.readDrainIn s p d bias axis rows cols).1.chip.fuses = s.chip.fuses := by
  unfold State.readDrainIn
  dsimp only
  (repeat' split) <;> simp

@[simp] theorem State.readOld_fuses (s : State) (p : Nat) (d : Drain) (rows cols : Nat) :
    (State.readOld s p d rows cols).1.chip.fuses = s.chip.fuses := by
  unfold State.readOld
  refine State.foldlFst_fuses _ _ _ fun a i => ?_
  dsimp only
  (repeat' split) <;> simp

@[simp] theorem State.putDrain_fuses (s : State) (p : Nat) (d : Drain) (old : List Bytes) (o : DrainOut) :
    (State.putDrain s p d old o).1.chip.fuses = s.chip.fuses := by
  unfold State.putDrain
  (repeat' split) <;> simp

@[simp] theorem State.drainWork_fuses (s : State) (p : Nat) (d : Drain) (bias : Option Loc) (axis : Bool) (rows cols : Nat)
    (compute : DrainIn → (Nat → Nat → Nat) → DrainOut) :
    (State.drainWork s p d bias axis rows cols compute).1.chip.fuses = s.chip.fuses := by
  unfold State.drainWork
  dsimp only
  (repeat' split) <;> simp

@[simp] theorem State.frontWork_fuses (s : State) (c a : Nat) (e : QEntry) (d : Option Drain) (bank swap : Bool)
    (pre rows cols tileNo : Nat) (addr : Option Loc) (axis : Bool) :
    (State.frontWork s c a e d bank swap pre rows cols tileNo addr axis).1.chip.fuses = s.chip.fuses := by
  unfold State.frontWork
  split <;> simp

@[simp] theorem State.doFront_fuses (s : State) (l a : Nat) :
    (State.doFront s l a).chip.fuses = s.chip.fuses := by
  unfold State.doFront
  (repeat' split) <;> simp

@[simp] theorem State.doStaging_fuses (s : State) (l a : Nat) :
    (State.doStaging s l a).chip.fuses = s.chip.fuses := by
  unfold State.doStaging
  dsimp only
  (repeat' split) <;> simp

@[simp] theorem State.slotWork_fuses (s : State) (c a : Nat) (e : QEntry) (d : Drain) (slot rows cols tileNo : Nat) (bias
    : Option Loc) :
    (State.slotWork s c a e d slot rows cols tileNo bias).1.chip.fuses = s.chip.fuses := by simp [State.slotWork]

@[simp] theorem State.doSlotDrain_fuses (s : State) (l a : Nat) :
    (State.doSlotDrain s l a).chip.fuses = s.chip.fuses := by
  unfold State.doSlotDrain
  (repeat' split) <;> simp

@[simp] theorem State.outlierWork_fuses (s : State) (p c : Nat) (e : QEntry) (om : OpRef) (d : Drain) (rows cols : Nat) (ol
    : Option Outlier) :
    (State.outlierWork s p c e om d rows cols ol).1.chip.fuses = s.chip.fuses := by
  unfold State.outlierWork
  dsimp only
  (repeat' split) <;> simp

@[simp] theorem State.cirrusWork_fuses (s : State) (c a sh : Nat) (e : QEntry) (led0 : Ledger) (om on : OpRef) (k rows cols
    : Nat) (bank : Bool) (d : Drain) (bias : Option Loc) (repeats : Bool) (flag tileNo : Nat) (ol : Option Outlier) :
    (State.cirrusWork s c a sh e led0 om on k rows cols bank d bias repeats flag tileNo ol).1.chip.fuses = s.chip.fuses := by
  unfold State.cirrusWork
  dsimp only
  (repeat' split) <;> simp

@[simp] theorem State.doCirrus_fuses (s : State) (l a : Nat) :
    (State.doCirrus s l a).chip.fuses = s.chip.fuses := by
  unfold State.doCirrus
  (repeat' split) <;> simp

@[simp] theorem State.doCirrusRepeat_fuses (s : State) (l a : Nat) :
    (State.doCirrusRepeat s l a).chip.fuses = s.chip.fuses := by
  unfold State.doCirrusRepeat
  (repeat' split) <;> simp

@[simp] theorem State.recHeader_fuses (s : State) (p c : Nat) (l : Loc) :
    (State.recHeader s p c l).1.chip.fuses = s.chip.fuses := by
  unfold State.recHeader
  refine (Work.next_fuses _ _ fun _ _ => ?_).trans (by simp)
  split <;> rfl

@[simp] theorem State.plainRows_fuses (s : State) (p : Nat) (t : Tensor) (f : FloatFmt) :
    (State.plainRows s p t f).1.chip.fuses = s.chip.fuses := by
  unfold State.plainRows
  split
  · rfl
  · exact Work.each_fuses _ _ _ fun _ _ => (Work.next_fuses _ _ fun _ _ => rfl).trans (by simp)

@[simp] theorem State.quantOutliers_fuses (s : State) (p : Nat) (q : QuantOp) (rows : List (List FVal)) (channels : Nat) :
    (State.quantOutliers s p q rows channels).1.chip.fuses = s.chip.fuses := by
  unfold State.quantOutliers
  split
  · rfl
  · split
    · exact (Work.next_fuses _ _ fun _ _ => rfl).trans (by simp)
    · refine (Work.next_fuses _ _ fun _ _ => ?_).trans (by simp)
      split <;> rfl

@[simp] theorem State.outlierPlane_fuses (s : State) (p : Nat) (q : QuantOp) (rows : List (List FVal)) (idx : List Nat) :
    (State.outlierPlane s p q rows idx).1.chip.fuses = s.chip.fuses := by
  unfold State.outlierPlane
  split <;> simp

@[simp] theorem State.quantParams_fuses (s : State) (p c : Nat) (q : QuantOp) (top : Nat) (carried : Bool) (first : Nat)
    (lines : List (List FVal)) :
    (State.quantParams s p c q top carried first lines).1.chip.fuses = s.chip.fuses := by
  unfold State.quantParams
  dsimp only
  split
  · split
    · refine Work.each_fuses _ _ _ fun _ _ => (Work.next_fuses _ _ fun _ _ => ?_).trans (by simp)
      split <;> rfl
    · rfl
  · split
    · refine (Work.next_fuses _ _ fun _ _ => (Work.next_fuses _ _ fun _ _ => rfl).trans (by simp)).trans ?_
      exact Work.each_fuses _ _ _ fun _ _ => (Work.next_fuses _ _ fun _ _ => rfl).trans (by simp)
    · exact (Work.next_fuses _ _ fun _ _ => rfl).trans (by simp)

@[simp] theorem State.quantWindow_fuses (s : State) (p c : Nat) (e : QEntry) (q : QuantOp) (w channels : Nat)
    (idx : List Nat) (carried : Bool) (rows : List (List FVal)) :
    (State.quantWindow s p c e q w channels idx carried rows).1.chip.fuses = s.chip.fuses := by
  unfold State.quantWindow
  dsimp only
  refine (Work.next_fuses _ _ fun _ _ => (Work.next_fuses _ _ fun _ _ => ?_).trans (by simp)).trans (by simp)
  split
  · exact (Work.next_fuses _ _ fun _ _ => (Work.next_fuses _ _ fun _ _ =>
      (Work.next_fuses _ _ fun _ _ => rfl).trans (by simp)).trans (by simp)).trans (by simp)
  · rfl

@[simp] theorem State.quantWork_fuses (s : State) (c : Nat) (e : QEntry) (q : QuantOp) :
    (State.quantWork s c e q).1.chip.fuses = s.chip.fuses := by
  unfold State.quantWork
  extract_lets p r
  have hr : r.1.chip.fuses = s.chip.fuses := by
    refine (Work.next_fuses _ _ fun _ _ => ?_).trans (by simp)
    dsimp only
    split
    · rfl
    · exact (Work.next_fuses _ _ fun _ _ => (Work.next_fuses _ _ fun _ _ => (Work.next_fuses _ _ fun _ _ =>
        (Work.next_fuses _ _ fun _ _ => (Work.next_fuses _ _ fun _ _ => by simp).trans
          (Work.each_fuses _ _ _ fun _ _ => by simp)).trans (by simp)).trans (by simp)).trans (by simp)).trans (by simp)
  split
  · exact hr
  · split <;> simp [hr]

@[simp] theorem State.doQuant_fuses (s : State) (l : Nat) :
    (State.doQuant s l).chip.fuses = s.chip.fuses := by
  unfold State.doQuant
  (repeat' split) <;> simp

@[simp] theorem State.putRecord_fuses (s : State) (p addr : Nat) (bs : Bytes) :
    (State.putRecord s p addr bs).chip.fuses = s.chip.fuses := by
  unfold State.putRecord
  dsimp only
  split <;> simp

@[simp] theorem State.putCompletion_fuses (s : State) (p tag : Nat) (bs : Bytes) :
    (State.putCompletion s p tag bs).chip.fuses = s.chip.fuses := by
  unfold State.putCompletion
  split <;> simp

@[simp] theorem State.settleStream_fuses (s : State) (c : Nat) :
    (State.settleStream s c).chip.fuses = s.chip.fuses := by
  unfold State.settleStream
  dsimp only
  (repeat' split) <;> simp

@[simp] theorem State.haltOne_fuses (s : State) (c : Nat) (f : Failure) :
    (State.haltOne s c f).chip.fuses = s.chip.fuses := by
  unfold State.haltOne
  dsimp only
  split <;> simp

@[simp] theorem State.failOne_fuses (s : State) (c : Nat) (e : QEntry) (status detail : Nat) :
    (State.failOne s c e status detail).chip.fuses = s.chip.fuses := by simp [State.failOne]

@[simp] theorem State.abortWaiting_fuses (s : State) (p : Nat) :
    (State.abortWaiting s p).chip.fuses = s.chip.fuses := by
  unfold State.abortWaiting
  refine State.foldl_fuses _ _ _ fun a i => ?_
  dsimp only
  split <;> simp

@[simp] theorem State.haltStream_fuses (s : State) (c : Nat) (f : Failure) :
    (State.haltStream s c f).chip.fuses = s.chip.fuses := by
  unfold State.haltStream
  split <;> simp

@[simp] theorem State.failStream_fuses (s : State) (c : Nat) (e : QEntry) (status detail : Nat) :
    (State.failStream s c e status detail).chip.fuses = s.chip.fuses := by
  unfold State.failStream
  split <;> simp

@[simp] theorem State.addToken_fuses (s : State) (c ctr inc : Nat) :
    (State.addToken s c ctr inc).chip.fuses = s.chip.fuses := by
  unfold State.addToken
  dsimp only
  split <;> simp

@[simp] theorem State.addLedger_fuses (s : State) (p base layers ops opid : Nat) (led : Ledger) :
    (State.addLedger s p base layers ops opid led).chip.fuses = s.chip.fuses := by
  unfold State.addLedger
  split <;> simp

@[simp] theorem State.haltCore_fuses (s : State) (c code : Nat) :
    (State.haltCore s c code).chip.fuses = s.chip.fuses := by
  unfold State.haltCore
  dsimp only
  split <;> simp

@[simp] theorem State.haltAll_fuses (s : State) (p code : Nat) :
    (State.haltAll s p code).chip.fuses = s.chip.fuses := by simp [State.haltAll]

@[simp] theorem State.doDescriptorFetch_fuses (s : State) (ch : Chan) :
    (State.doDescriptorFetch s ch).chip.fuses = s.chip.fuses := by
  unfold State.doDescriptorFetch
  dsimp only
  (repeat' split) <;> simp

@[simp] theorem State.beginDesc_fuses (s : State) (ch : Chan) (r : ChRun) (d : Desc) (lens : List (Nat × Nat)) (redo
    : Option Nat) :
    (State.beginDesc s ch r d lens redo).chip.fuses = s.chip.fuses := by
  unfold State.beginDesc
  dsimp only
  (repeat' split) <;> simp

@[simp] theorem State.doDescriptorStart_fuses (s : State) (ch : Chan) :
    (State.doDescriptorStart s ch).chip.fuses = s.chip.fuses := by
  unfold State.doDescriptorStart
  (repeat' split) <;> simp

@[simp] theorem State.locReadFlt_fuses (s : State) (p : Nat) (l : Loc) (n : Nat) (flt : MemFault) :
    (State.locReadFlt s p l n flt).1.chip.fuses = s.chip.fuses := by
  unfold State.locReadFlt
  split <;> simp

@[simp] theorem State.locWriteFlt_fuses (s : State) (p : Nat) (l : Loc) (bs : Bytes) (flt : MemFault) :
    (State.locWriteFlt s p l bs flt).1.chip.fuses = s.chip.fuses := by
  unfold State.locWriteFlt
  split <;> simp

@[simp] theorem State.doReadRequest_fuses (s : State) (ch : Chan) (flt : MemFault) :
    (State.doReadRequest s ch flt).chip.fuses = s.chip.fuses := by
  unfold State.doReadRequest
  dsimp only
  (repeat' split) <;> simp

@[simp] theorem State.doWriteRequest_fuses (s : State) (ch : Chan) (flt : MemFault) :
    (State.doWriteRequest s ch flt).chip.fuses = s.chip.fuses := by
  unfold State.doWriteRequest
  dsimp only
  (repeat' split) <;> simp

@[simp] theorem State.doCrcFinish_fuses (s : State) (ch : Chan) :
    (State.doCrcFinish s ch).chip.fuses = s.chip.fuses := by
  unfold State.doCrcFinish
  dsimp only
  (repeat' split) <;> simp

@[simp] theorem State.lostWrite_fuses (s : State) (p : Nat) (l : Loc) (bs : Bytes) :
    (State.lostWrite s p l bs).chip.fuses = s.chip.fuses := by simp [State.lostWrite]

@[simp] theorem State.doRequestWatchdog_fuses (s : State) (ch : Chan) :
    (State.doRequestWatchdog s ch).chip.fuses = s.chip.fuses := by
  unfold State.doRequestWatchdog
  (repeat' split) <;> simp

@[simp] theorem State.words_fuses (s : State) (p a n : Nat) :
    (State.words s p a n).1.chip.fuses = s.chip.fuses := by simp [State.words]

@[simp] theorem State.putWords_fuses (s : State) (p a : Nat) (ws : List Nat) :
    (State.putWords s p a ws).chip.fuses = s.chip.fuses := by simp [State.putWords]

@[simp] theorem State.updateElem_fuses (s : State) (p : Nat) (t : ExTable) (h : Sched) (shard n j contrib x : Nat) :
    (State.updateElem s p t h shard n j contrib x).1.chip.fuses = s.chip.fuses := by
  unfold State.updateElem
  split <;> simp

@[simp] theorem State.updateFactored_fuses (s : State) (p : Nat) (t : ExTable) (h : Sched) (shard n : Nat) (e : TEnt)
    (vecAt : Nat) (gs : List (Option Nat)) :
    (State.updateFactored s p t h shard n e vecAt gs).chip.fuses = s.chip.fuses := by
  unfold State.updateFactored
  refine (State.foldl_fuses _ _ _ fun a i => ?_).trans (by simp)
  dsimp only
  (repeat' split) <;> simp

@[simp] theorem State.updateSeg_fuses (s : State) (p : Nat) (t : ExTable) (g : ChainSeg) :
    (State.updateSeg s p t g).chip.fuses = s.chip.fuses := by
  unfold State.updateSeg
  split <;> simp

@[simp] theorem State.publish_fuses (s : State) (p : Nat) (t : ExTable) (shard : Nat) (c : Nat × Bytes) :
    (State.publish s p t shard c).chip.fuses = s.chip.fuses := by simp [State.publish]

@[simp] theorem State.putDirectory_fuses (s : State) (p : Nat) (t : ExTable) (sh e1 crc : Nat) :
    (State.putDirectory s p t sh e1 crc).chip.fuses = s.chip.fuses := by simp [State.putDirectory]

@[simp] theorem State.sendPubDone_fuses (s : State) (p : Nat) (t : ExTable) (sh : Nat) :
    (State.sendPubDone s p t sh).chip.fuses = s.chip.fuses := by
  unfold State.sendPubDone
  dsimp only
  split <;> simp

@[simp] theorem State.packSeg_fuses (s : State) (p : Nat) (t : ExTable) (g : ChainSeg) (publishing : Bool) :
    (State.packSeg s p t g publishing).chip.fuses = s.chip.fuses := by
  unfold State.packSeg
  refine State.foldl_fuses _ _ _ fun a i => ?_
  dsimp only
  (repeat' split) <;> simp

@[simp] theorem State.publishMine_fuses (s : State) (p : Nat) (t : ExTable) (sh : Nat) :
    (State.publishMine s p t sh).chip.fuses = s.chip.fuses := by simp [State.publishMine]

@[simp] theorem State.takeFinal_fuses (s : State) (p : Nat) (t : ExTable) (g : ChainSeg) :
    (State.takeFinal s p t g).chip.fuses = s.chip.fuses := by
  unfold State.takeFinal
  dsimp only
  split <;> simp

@[simp] theorem State.dualCast_fuses (s : State) (p : Nat) (t : ExTable) (g : ChainSeg) :
    (State.dualCast s p t g).chip.fuses = s.chip.fuses := by
  unfold State.dualCast
  refine State.foldl_fuses _ _ _ fun a i => ?_
  split <;> simp

@[simp] theorem State.passOnN_fuses (s : State) (p : Nat) (t : ExTable) (g : ChainSeg) (x : Nat) :
    (State.passOnN s p t g x).chip.fuses = s.chip.fuses := by
  induction x generalizing s g with
  | zero => rfl
  | succ x ih =>
    simp only [State.passOnN]
    (repeat' split) <;> simp [ih]

@[simp] theorem State.passOn_fuses (s : State) (p : Nat) (t : ExTable) (g : ChainSeg) :
    (State.passOn s p t g).chip.fuses = s.chip.fuses := by simp [State.passOn]

@[simp] theorem State.contribute_fuses (s : State) (p : Nat) (t : ExTable) (g : ChainSeg) (first : Bool) :
    (State.contribute s p t g first).1.chip.fuses = s.chip.fuses := by
  unfold State.contribute
  dsimp only
  split <;> simp

@[simp] theorem State.hop_fuses (s : State) (p : Nat) (t : ExTable) (g : ChainSeg) (first : Bool) :
    (State.hop s p t g first).chip.fuses = s.chip.fuses := by
  unfold State.hop
  dsimp only
  split <;> simp

@[simp] theorem State.startShard_fuses (s : State) (p : Nat) (t : ExTable) (sh : Nat) :
    (State.startShard s p t sh).chip.fuses = s.chip.fuses := by
  unfold State.startShard
  dsimp only
  split <;> simp

@[simp] theorem State.runChains_fuses (s : State) (p : Nat) (t : ExTable) :
    (State.runChains s p t).chip.fuses = s.chip.fuses := by simp [State.runChains]

@[simp] theorem State.takeSeg_fuses (s : State) (p : Nat) (t : ExTable) (g : ChainSeg) :
    (State.takeSeg s p t g).chip.fuses = s.chip.fuses := by
  unfold State.takeSeg
  dsimp only
  (repeat' split) <;> simp

@[simp] theorem State.sendFailed_fuses (s : State) (p : Nat) (t : ExTable) (c : ChainSend) :
    (State.sendFailed s p t c).chip.fuses = s.chip.fuses := by
  unfold State.sendFailed
  split <;> simp

@[simp] theorem State.holdStep_fuses (s : State) (p : Nat) (t : ExTable) :
    (State.holdStep s p t).chip.fuses = s.chip.fuses := by
  unfold State.holdStep
  dsimp only
  split <;> simp

@[simp] theorem State.doChain_fuses (s : State) (p : Nat) :
    (State.doChain s p).chip.fuses = s.chip.fuses := by
  unfold State.doChain
  split
  · rfl
  · next h =>
    obtain ⟨q, rfl⟩ := State.takeKind_state h
    dsimp only
    (repeat' split) <;> simp

@[simp] theorem State.doPublish_fuses (s : State) (p : Nat) :
    (State.doPublish s p).chip.fuses = s.chip.fuses := by
  unfold State.doPublish
  split
  · rfl
  · next h =>
    obtain ⟨q, rfl⟩ := State.takeKind_state h
    refine (State.withTable_fuses _ _ _ fun t => ?_).trans rfl
    dsimp only
    (repeat' split) <;> simp

@[simp] theorem State.doPubDone_fuses (s : State) (p : Nat) :
    (State.doPubDone s p).chip.fuses = s.chip.fuses := by
  unfold State.doPubDone
  split
  · rfl
  · next h =>
    obtain ⟨q, rfl⟩ := State.takeCtrl_state h
    refine (State.withTable_fuses _ _ _ fun t => ?_).trans rfl
    dsimp only
    (repeat' split) <;> simp

@[simp] theorem State.doPubDoneRepeat_fuses (s : State) (p : Nat) :
    (State.doPubDoneRepeat s p).chip.fuses = s.chip.fuses := by
  unfold State.doPubDoneRepeat
  split <;> simp

@[simp] theorem State.doHopTimeout_fuses (s : State) (p txn : Nat) :
    (State.doHopTimeout s p txn).chip.fuses = s.chip.fuses := by
  unfold State.doHopTimeout
  split <;> simp

@[simp] theorem State.doContributionDeadline_fuses (s : State) (p : Nat) :
    (State.doContributionDeadline s p).chip.fuses = s.chip.fuses := by
  unfold State.doContributionDeadline
  refine State.withTable_fuses _ _ _ fun t => ?_
  generalize (s.exch p).deadline t = d
  simp

@[simp] theorem State.doTakeover_fuses (s : State) (p shard : Nat) :
    (State.doTakeover s p shard).chip.fuses = s.chip.fuses := by simp [State.doTakeover]

@[simp] theorem State.doCommitTimeout_fuses (s : State) (p : Nat) :
    (State.doCommitTimeout s p).chip.fuses = s.chip.fuses := by simp [State.doCommitTimeout]

@[simp] theorem State.doShardFetch_fuses (s : State) (p shard : Nat) (bytes : HostRead) :
    (State.doShardFetch s p shard bytes).chip.fuses = s.chip.fuses := by
  unfold State.doShardFetch
  split <;> simp

@[simp] theorem State.joinCopy_fuses (s : State) (p : Nat) (t : ExTable) (shard : Nat) :
    (State.joinCopy s p t shard).chip.fuses = s.chip.fuses := by
  unfold State.joinCopy
  dsimp only
  (repeat' split) <;> simp

@[simp] theorem State.doStateCopy_fuses (s : State) (p shard : Nat) :
    (State.doStateCopy s p shard).chip.fuses = s.chip.fuses := by
  refine State.withTable_fuses _ _ _ fun t => ?_
  dsimp only
  (repeat' split) <;> simp

@[simp] theorem State.doWrite_fuses (s : State) (p : Nat) :
    (State.doWrite s p).chip.fuses = s.chip.fuses := by
  unfold State.doWrite
  split
  · rfl
  · next h =>
    obtain ⟨q, rfl⟩ := State.takeKind_state h
    dsimp only
    (repeat' split) <;> simp

@[simp] theorem State.doRead_fuses (s : State) (p : Nat) (flt : MemFault) :
    (State.doRead s p flt).chip.fuses = s.chip.fuses := by
  unfold State.doRead
  split
  · rfl
  · next h =>
    obtain ⟨q, rfl⟩ := State.takeKind_state h
    dsimp only
    (repeat' split) <;> simp

@[simp] theorem State.doErrorResp_fuses (s : State) (p : Nat) :
    (State.doErrorResp s p).chip.fuses = s.chip.fuses := by
  unfold State.doErrorResp
  split
  · rfl
  · next h =>
    obtain ⟨q, rfl⟩ := State.takeKind_state h
    dsimp only
    (repeat' split) <;> simp

@[simp] theorem State.doRemoteSignal_fuses (s : State) (p : Nat) :
    (State.doRemoteSignal s p).chip.fuses = s.chip.fuses := by
  unfold State.doRemoteSignal
  split
  · rfl
  · next h =>
    obtain ⟨q, rfl⟩ := State.takeKind_state h
    dsimp only
    (repeat' split) <;> simp

@[simp] theorem State.probeRecord_fuses (s : State) (p : Nat) (l : Loc) (flt : MemFault) :
    (State.probeRecord s p l flt).1.chip.fuses = s.chip.fuses := by
  unfold State.probeRecord
  dsimp only
  (repeat' split) <;> simp

@[simp] theorem State.fetchFailed_fuses (s : State) (c pos addr : Nat) :
    (State.fetchFailed s c pos addr).chip.fuses = s.chip.fuses := by simp [State.fetchFailed]

@[simp] theorem State.doFetch_fuses (s : State) (l : Nat) (flt : MemFault) :
    (State.doFetch s l flt).chip.fuses = s.chip.fuses := by
  unfold State.doFetch
  dsimp only
  (repeat' split) <;> simp

@[simp] theorem State.refuse_fuses (s : State) (c : Nat) (r : Rec) (status : Nat) :
    (State.refuse s c r status).chip.fuses = s.chip.fuses := by simp [State.refuse]

@[simp] theorem State.parityError_fuses (s : State) (c : Nat) (r : Rec) :
    (State.parityError s c r).chip.fuses = s.chip.fuses := by
  unfold State.parityError
  dsimp only
  split <;> simp

@[simp] theorem State.doDispatch_fuses (s : State) (l parity : Nat) :
    (State.doDispatch s l parity).chip.fuses = s.chip.fuses := by
  unfold State.doDispatch
  dsimp only
  (repeat' split) <;> simp

@[simp] theorem runBranch_fuses {s t : State} {c n : Nat} {r : Rec} (h : runBranch s c r = .ok (t, n)) :
    t.chip.fuses = s.chip.fuses := by
  unfold runBranch at h
  dsimp only at h
  split at h
  · cases h
  · split at h
    · cases h
    · obtain ⟨rfl, -⟩ := Prod.mk.inj (Except.ok.inj h)
      (repeat' split) <;> simp

@[simp] theorem State.seqOp_fuses (s : State) (l op : Nat) (run : State → Nat → Rec → Except Nat (State × Nat))
    (h : ∀ s c r t n, run s c r = .ok (t, n) → t.chip.fuses = s.chip.fuses) :
    (s.seqOp l op run).chip.fuses = s.chip.fuses := by
  unfold State.seqOp
  dsimp only
  split
  · rfl
  · split
    · rfl
    · split
      · rfl
      · split
        · rfl
        · split
          · simp
          · next hr =>
            have hrun := h _ _ _ _ _ hr
            (repeat' split) <;> simp [hrun]

@[simp] theorem State.doBranch_fuses (s : State) (l : Nat) :
    (State.doBranch s l).chip.fuses = s.chip.fuses := by
  unfold State.doBranch
  split
  · rfl
  · split
    · rfl
    · split
      · rfl
      · exact State.seqOp_fuses _ _ _ _ fun _ _ _ _ _ h => runBranch_fuses h

@[simp] theorem State.bookLedger_fuses (s : State) (p : Nat) (e : QEntry) (led : Ledger) :
    (State.bookLedger s p e led).chip.fuses = s.chip.fuses := by simp [State.bookLedger]

@[simp] theorem State.doComplete_fuses (s : State) (l q n : Nat) :
    (State.doComplete s l q n).chip.fuses = s.chip.fuses := by
  unfold State.doComplete
  dsimp only
  (repeat' split) <;> simp

@[simp] theorem State.syncOp_fuses (s : State) (l : Nat) (f : State → Nat → QEntry → Option State)
    (h : ∀ s c e t, f s c e = some t → t.chip.fuses = s.chip.fuses) : (s.syncOp l f).chip.fuses = s.chip.fuses := by
  unfold State.syncOp
  split
  · split
    · next hf => simp [h _ _ _ _ hf]
    · rfl
  · rfl

@[simp] theorem State.doSignal_fuses (s : State) (l : Nat) :
    (State.doSignal s l).chip.fuses = s.chip.fuses := by
  refine State.syncOp_fuses _ _ _ fun s1 c e t h => ?_
  split at h
  · dsimp only at h
    split at h
    · simp [← Option.some.inj h]
    · split at h
      · rw [← Option.some.inj h]
        split <;> simp
      · rw [← Option.some.inj h]
  · cases h

@[simp] theorem State.doBarrier_fuses (s : State) (l : Nat) :
    (State.doBarrier s l).chip.fuses = s.chip.fuses := by
  unfold State.doBarrier
  (repeat' split) <;> simp

@[simp] theorem State.doEnd_fuses (s : State) (l : Nat) :
    (State.doEnd s l).chip.fuses = s.chip.fuses := by
  unfold State.doEnd
  dsimp only
  (repeat' split) <;> simp

@[simp] theorem State.stepBarrier_fuses (s : State) (p : Nat) (t : ExTable) :
    (State.stepBarrier s p t).chip.fuses = s.chip.fuses := by
  unfold State.stepBarrier
  dsimp only
  split <;> simp

@[simp] theorem State.doBarrierRelease_fuses (s : State) (p : Nat) :
    (State.doBarrierRelease s p).chip.fuses = s.chip.fuses := by
  unfold State.doBarrierRelease
  (repeat' split) <;> simp

@[simp] theorem State.doBarrierTimeout_fuses (s : State) (l : Nat) :
    (State.doBarrierTimeout s l).chip.fuses = s.chip.fuses := by
  unfold State.doBarrierTimeout
  dsimp only
  (repeat' split) <;> simp

@[simp] theorem State.doTokenTimeout_fuses (s : State) (l q : Nat) :
    (State.doTokenTimeout s l q).chip.fuses = s.chip.fuses := by
  unfold State.doTokenTimeout
  dsimp only
  (repeat' split) <;> simp

@[simp] theorem State.readImage_fuses (s : State) (p a : Nat) :
    (State.readImage s p a).1.chip.fuses = s.chip.fuses := by
  unfold State.readImage
  dsimp only
  (repeat' split) <;> simp

@[simp] theorem State.readForecast_fuses (s : State) (p : Nat) (h : Bytes) (dir : List DirEntry) :
    (State.readForecast s p h dir).1.chip.fuses = s.chip.fuses := by
  unfold State.readForecast
  dsimp only
  (repeat' split) <;> simp

@[simp] theorem State.launchJob_fuses (s : State) (p : Nat) (j : Job) :
    (State.launchJob s p j).chip.fuses = s.chip.fuses := by
  unfold State.launchJob
  dsimp only
  split <;> simp

@[simp] theorem State.promote_fuses (s : State) (p : Nat) :
    (State.promote s p).chip.fuses = s.chip.fuses := by
  unfold State.promote
  split <;> simp

@[simp] theorem State.takeJob_fuses (s : State) (p n : Nat) (e : Bytes) (copies : List CopyEntry) (early : Option (Nat × Nat)) :
    (State.takeJob s p n e copies early).chip.fuses = s.chip.fuses := by simp [State.takeJob]

@[simp] theorem State.doJobStart_fuses (s : State) (p : Nat) (entry copies : HostRead) :
    (State.doJobStart s p entry copies).chip.fuses = s.chip.fuses := by
  unfold State.doJobStart
  (repeat' split) <;> simp

@[simp] theorem State.doJobComplete_fuses (s : State) (p : Nat) :
    (State.doJobComplete s p).chip.fuses = s.chip.fuses := by
  unfold State.doJobComplete
  split <;> simp

@[simp] theorem State.doHostCopyIn_fuses (s : State) (p : Nat) (data : HostRead) :
    (State.doHostCopyIn s p data).chip.fuses = s.chip.fuses := by
  unfold State.doHostCopyIn
  dsimp only
  (repeat' split) <;> simp

@[simp] theorem State.doHostCopyOut_fuses (s : State) (p : Nat) (ok : Bool) :
    (State.doHostCopyOut s p ok).chip.fuses = s.chip.fuses := by
  unfold State.doHostCopyOut
  dsimp only
  (repeat' split) <;> simp

@[simp] theorem State.doHostTimeout_fuses (s : State) (r : HostRequest) :
    (State.doHostTimeout s r).chip.fuses = s.chip.fuses := by
  unfold State.doHostTimeout
  (repeat' split) <;> simp

@[simp] theorem State.scrubHeld_fuses (s : State) (p line : Nat) (errs : List (Nat × Byte)) :
    (State.scrubHeld s p line errs).chip.fuses = s.chip.fuses := by
  unfold State.scrubHeld
  dsimp only
  split <;> simp

@[simp] theorem State.scrubWord_fuses (s : State) (p line : Nat) (flt : MemFault) :
    (State.scrubWord s p line flt).chip.fuses = s.chip.fuses := by
  unfold State.scrubWord
  split <;> simp

@[simp] theorem State.doPatrolScrub_fuses (s : State) (k : Nat) (flt : MemFault) :
    (State.doPatrolScrub s k flt).chip.fuses = s.chip.fuses := by
  unfold State.doPatrolScrub
  split <;> simp

@[simp] theorem State.doRowRepairDone_fuses (s : State) (k : Nat) (repaired : Bool) :
    (State.doRowRepairDone s k repaired).chip.fuses = s.chip.fuses := by
  unfold State.doRowRepairDone
  dsimp only
  split <;> simp

@[simp] theorem State.doStrapChange_fuses (s : State) (straps : Nat) :
    (State.doStrapChange s straps).chip.fuses = s.chip.fuses := by
  unfold State.doStrapChange
  split <;> simp [State.modChip, Chip.fuses]

@[simp] theorem State.shutDown_fuses (s : State) (cause group : Nat) (temp : Int) :
    (State.shutDown s cause group temp).chip.fuses = s.chip.fuses := by
  unfold State.shutDown
  split <;> simp [State.modChip, Chip.fuses]

@[simp] theorem State.doRegulatorFault_fuses (s : State) :
    (State.doRegulatorFault s).chip.fuses = s.chip.fuses := by simp [State.doRegulatorFault]

@[simp] theorem State.doInputExcursion_fuses (s : State) (dv us : Nat) :
    (State.doInputExcursion s dv us).chip.fuses = s.chip.fuses := by
  unfold State.doInputExcursion
  split <;> simp

@[simp] theorem State.doThermalSample_fuses (s : State) (rs : List Reading) :
    (State.doThermalSample s rs).chip.fuses = s.chip.fuses := by
  unfold State.doThermalSample
  split <;> simp

@[simp] theorem State.doLockLoss_fuses (s : State) :
    (State.doLockLoss s).chip.fuses = s.chip.fuses := by
  unfold State.doLockLoss
  split <;> simp [State.modChip, Chip.fuses]

@[simp] theorem State.doLockRegained_fuses (s : State) :
    (State.doLockRegained s).chip.fuses = s.chip.fuses := by
  unfold State.doLockRegained
  split <;> simp [State.modChip, Chip.fuses]

@[simp] theorem State.numberDies_fuses (s : State) (ds : List Nat) :
    (State.numberDies s ds).chip.fuses = s.chip.fuses := by simp [State.numberDies, Chip.fuses]

@[simp] theorem State.dropCore_fuses (s : State) (c : Nat) :
    (State.dropCore s c).chip.fuses = s.chip.fuses := by simp [State.dropCore, State.modChip, Chip.fuses]

@[simp] theorem State.settleFailing_fuses (s : State) (f : Failing) :
    (State.settleFailing s f).chip.fuses = s.chip.fuses := by simp [State.settleFailing, State.modChip, Chip.fuses]

@[simp] theorem State.doComputeResetDone_fuses (s : State) (p : Nat) :
    (State.doComputeResetDone s p).chip.fuses = s.chip.fuses := by
  unfold State.doComputeResetDone
  split <;> simp

@[simp] theorem State.failBringup_fuses (s : State) (step done : Nat) :
    (State.failBringup s step done).chip.fuses = s.chip.fuses := by simp [State.failBringup, State.modChip, Chip.fuses]

@[simp] theorem State.assign_fuses (s : State) (deep : Bool) :
    (State.assign s deep).chip.fuses = s.chip.fuses := by
  unfold State.assign
  exact (State.modChip_fuses _ _ fun _ => rfl).trans (by simp)

@[simp] theorem State.doPerstDeassert_fuses (s : State) :
    (State.doPerstDeassert s).chip.fuses = s.chip.fuses := by simp [State.doPerstDeassert, State.modChip, Chip.fuses]

@[simp] theorem State.breach_fuses (s : State) (p c : Nat) (tag opid engine index detail deadline : Nat) :
    (State.breach s p c tag opid engine index detail deadline).chip.fuses = s.chip.fuses := by simp [State.breach]

@[simp] theorem State.doDeadlineMiss_fuses (s : State) (ch : Chan) :
    (State.doDeadlineMiss s ch).chip.fuses = s.chip.fuses := by
  unfold State.doDeadlineMiss
  (repeat' split) <;> simp

@[simp] theorem State.doStreamEndMiss_fuses (s : State) (l : Nat) :
    (State.doStreamEndMiss s l).chip.fuses = s.chip.fuses := by
  unfold State.doStreamEndMiss
  dsimp only
  (repeat' split) <;> simp

@[simp] theorem State.reportTrip_fuses (s : State) :
    (State.reportTrip s).chip.fuses = s.chip.fuses := by
  unfold State.reportTrip
  split <;> simp [State.modChip, Chip.fuses]

@[simp] theorem State.enableEvents_fuses (s : State) (fn : Fn) (cfg : Nat) :
    (State.enableEvents s fn cfg).chip.fuses = s.chip.fuses := by
  unfold State.enableEvents
  split <;> simp

@[simp] theorem State.writeRingCfg_fuses (s : State) (fn : Fn) (n v : Nat) :
    (State.writeRingCfg s fn n v).chip.fuses = s.chip.fuses := by
  unfold State.writeRingCfg
  split <;> simp

@[simp] theorem State.doRingEnable_fuses (s : State) (fn : Fn) (n v : Nat) :
    (State.doRingEnable s fn n v).chip.fuses = s.chip.fuses := by
  unfold State.doRingEnable
  split <;> simp

@[simp] theorem State.doRingDisable_fuses (s : State) (fn : Fn) (n v : Nat) :
    (State.doRingDisable s fn n v).chip.fuses = s.chip.fuses := by
  unfold State.doRingDisable
  split <;> simp

@[simp] theorem State.hostRead_fuses (s : State) (p a n : Nat) (flt : MemFault) :
    (State.hostRead s p a n flt).1.chip.fuses = s.chip.fuses := by
  unfold State.hostRead
  refine State.foldlFst_fuses _ _ _ fun a i => ?_
  dsimp only
  (repeat' split) <;> simp

@[simp] theorem State.doBar2Read_fuses (s : State) (fn : Fn) (off n : Nat) (flt : MemFault) :
    (State.doBar2Read s fn off n flt).chip.fuses = s.chip.fuses := by
  unfold State.doBar2Read
  dsimp only
  (repeat' split) <;> simp

@[simp] theorem State.doBar2Write_fuses (s : State) (fn : Fn) (off : Nat) (data : Bytes) :
    (State.doBar2Write s fn off data).chip.fuses = s.chip.fuses := by
  unfold State.doBar2Write
  split <;> simp

@[simp] theorem State.doLogDrain_fuses (s : State) (c r : Nat) :
    (State.doLogDrain s c r).chip.fuses = s.chip.fuses := by
  unfold State.doLogDrain
  dsimp only
  split <;> simp

@[simp] theorem State.ringWrite_fuses (s : State) (p base n at' : Nat) (bs : Bytes) :
    (State.ringWrite s p base n at' bs).chip.fuses = s.chip.fuses := by
  unfold State.ringWrite
  dsimp only
  split <;> simp

@[simp] theorem State.doGlobalSample_fuses (s : State) :
    (State.doGlobalSample s).chip.fuses = s.chip.fuses := by
  unfold State.doGlobalSample
  dsimp only
  split <;> simp

@[simp] theorem State.writeRing_fuses (s : State) (fn : Fn) (n off v : Nat) :
    (State.writeRing s fn n off v).chip.fuses = s.chip.fuses := by
  unfold State.writeRing
  (repeat' split) <;> simp

@[simp] theorem State.writeHif_fuses (s : State) (off v : Nat) :
    (State.writeHif s off v).chip.fuses = s.chip.fuses := by
  unfold State.writeHif
  split <;> simp

@[simp] theorem State.writeVf_fuses (s : State) (p off v : Nat) :
    (State.writeVf s p off v).chip.fuses = s.chip.fuses := by
  unfold State.writeVf
  split <;> simp

@[simp] theorem State.doAtomic_fuses (s : State) (p addr : Nat) (op : AtomicOp) (flt : MemFault) :
    (State.doAtomic s p addr op flt).chip.fuses = s.chip.fuses := by
  unfold State.doAtomic
  split <;> simp

end Sys2Proof.Machine
end

