-- ==== Sys2Proof/Proofs/RepairBank.lean ====
section
/-! SUPPORT. The operations that program the field-repair bank add at its end and stay within its room (R397). -/

namespace Sys2Proof.Machine

/-- What may become of what is fused and programmed: the factory's part stays, and the bank gets entries at its end as long as it
has room (R396, R397). -/
structure Fuses.Grows (f g : Fuses) : Prop where
  stepping : g.stepping = f.stepping
  cores    : g.cores = f.cores
  chans    : g.chans = f.chans
  slabs    : g.slabs = f.slabs
  bank     : f.bank <+: g.bank
  room     : f.bank.length ≤ 256 → g.bank.length ≤ 256

theorem Fuses.Grows.refl (f : Fuses) : f.Grows f := ⟨rfl, rfl, rfl, rfl, List.prefix_refl _, id⟩

/-- One more entry, while the bank has room. -/
theorem Fuses.Grows.program {f g : Fuses} (h : f.Grows g) (e : Nat) (hl : g.bank.length < 256) :
    f.Grows { g with bank := g.bank ++ [e] } where
  stepping := h.stepping
  cores := h.cores
  chans := h.chans
  slabs := h.slabs
  bank := h.bank.trans (List.prefix_append _ _)
  room _ := by simpa using hl

@[simp] theorem State.retireSlab_fuses (s : State) (d t : Nat) : (s.retireSlab d t).chip.fuses = s.chip.fuses := by
  simp [State.retireSlab]

section
variable {f : Fuses} {s : State} (h : f.Grows s.chip.fuses)
include h

theorem State.fuseEntry_grows (p kind place cause : Nat) : f.Grows (s.fuseEntry p kind place cause).chip.fuses := by
  unfold State.fuseEntry State.bankFull
  split
  · simpa using h
  · next hl => exact h.program _ (by simpa [Chip.fuses] using hl)

theorem State.modChip_grows {u : Chip → Chip} (hu : ∀ c, (u c).fuses = c.fuses := by simp only [Chip.fuses, implies_true]) :
    f.Grows (s.modChip u).chip.fuses :=
  (hu s.chip).symm ▸ h

theorem State.foldl_grows {ι : Type} (u : State → ι → State) (l : List ι)
    (hu : ∀ a i, f.Grows a.chip.fuses → f.Grows (u a i).chip.fuses) : f.Grows (l.foldl u s).chip.fuses := by
  induction l generalizing s with
  | nil => exact h
  | cons i l ih => exact ih (hu s i h)

theorem State.failCore_grows (c cause : Nat) : f.Grows (s.failCore c cause).chip.fuses := by
  unfold State.failCore
  split
  · exact State.fuseEntry_grows (by simpa using h) _ _ _ _
  · exact h

theorem State.retireCore_grows (c cause : Nat) : f.Grows (s.retireCore c cause).chip.fuses := by
  unfold State.retireCore
  split
  · exact h
  · split
    · simp only [State.holdIfDue_frame]
      exact State.modChip_grows (by simpa using h)
    · exact State.failCore_grows h _ _

theorem State.doPermanentFault_grows (e : FaultEvent) : f.Grows (s.doPermanentFault e).chip.fuses := by
  cases e
  case parity | storeCorrectable | storeUncorrectable => exact State.retireCore_grows h _ _
  all_goals simpa [State.doPermanentFault] using h

theorem State.retireMarked_grows (d : Nat) : f.Grows (s.retireMarked d).chip.fuses := by
  unfold State.retireMarked
  exact State.foldl_grows (by simpa using h) _ _ fun _ _ ha => State.fuseEntry_grows (by simpa using ha) _ _ _ _

theorem State.doChannelRetire_grows (p : Nat) : f.Grows (s.doChannelRetire p).chip.fuses := by
  unfold State.doChannelRetire
  split
  · exact h
  · simp only [State.beginMigration_frame]
    exact State.fuseEntry_grows (by simpa using h) _ _ _ _

theorem State.doNimBusyEnd_grows (d : Nat) : f.Grows (s.doNimBusyEnd d).chip.fuses := by
  unfold State.doNimBusyEnd
  dsimp only
  split
  · exact h
  · simp only [State.promote_fuses]
    split
    · simpa [State.switchSlabs] using State.retireMarked_grows (by simpa using h) d
    · simpa using h

theorem State.resetSlice_grows (d : Nat) : f.Grows (s.resetSlice d).chip.fuses := by
  simpa [State.resetSlice] using State.retireMarked_grows (by simpa using h) d

theorem State.resetSlices_grows (p : Nat) : f.Grows (s.resetSlices p).chip.fuses :=
  State.foldl_grows h _ _ fun _ d ha => State.resetSlice_grows ha d

theorem State.startReset_grows (p kind : Nat) : f.Grows (s.startReset p kind).chip.fuses := by
  simpa [State.startReset] using State.resetSlices_grows (by simpa using h) p

theorem State.doComputeReset_grows (p : Nat) : f.Grows (s.doComputeReset p).chip.fuses := by
  unfold State.doComputeReset
  split
  · exact h
  · split
    · exact State.modChip_grows h
    · exact State.startReset_grows h _ _

theorem State.endHold_grows (p : Nat) : f.Grows (s.endHold p).chip.fuses := by
  unfold State.endHold
  dsimp only
  split
  · exact h
  · split
    · refine State.startReset_grows (State.modChip_grows ?_) _ _
      simpa using h
    · simpa using h

theorem State.settleFailing_grows (x : Failing) : f.Grows (s.settleFailing x).chip.fuses := by simpa using h

theorem State.doSubstitution_grows (p : Nat) (passed : Bool) : f.Grows (s.doSubstitution p passed).chip.fuses := by
  unfold State.doSubstitution
  dsimp only
  split
  · exact h
  · split
    · exact h
    · next x _ =>
      have hx : f.Grows ((s.fuseEntry p 1 (corePlace x.phys) x.cause).settleFailing x).chip.fuses :=
        State.settleFailing_grows (State.fuseEntry_grows h _ _ _ _) x
      split
      · split
        · exact State.endHold_grows (by simp only [State.postEvent_frame]; exact hx) _
        · exact State.failCore_grows h _ _
      · exact State.endHold_grows (by simpa using hx) _

theorem State.fuseFailing_grows (p : Nat) : f.Grows (s.fuseFailing p).chip.fuses :=
  State.foldl_grows h _ _ fun _ x ha => State.settleFailing_grows (State.fuseEntry_grows ha _ _ _ _) x

theorem State.doPartReset_grows (p : Nat) : f.Grows (s.doPartReset p).chip.fuses := by
  unfold State.doPartReset
  dsimp only
  split
  · exact h
  · simp only [State.foldl_chip, State.ite_chip, State.setPort_chip, ite_self, implies_true]
    exact State.modChip_grows (State.startReset_grows (State.fuseFailing_grows h _) _ _)

theorem State.doCoreActivation_grows (p : Nat) : f.Grows (s.doCoreActivation p).chip.fuses := by
  unfold State.doCoreActivation
  split
  · exact State.doPartReset_grows h p
  · exact h

theorem State.doFlrVf_grows (p : Nat) : f.Grows (s.doFlrVf p).chip.fuses := by
  unfold State.doFlrVf
  dsimp only
  split
  · exact State.doComputeReset_grows (by simpa using h) p
  · simpa using h

theorem State.doFlrPf_grows : f.Grows s.doFlrPf.chip.fuses := by
  have hv : f.Grows ([0, 1, 2, 3].foldl State.doFlrVf s).chip.fuses :=
    State.foldl_grows h _ _ fun _ p ha => State.doFlrVf_grows ha p
  unfold State.doFlrPf
  simpa only [State.chooseParent_frame, State.settlePorts_frame, State.foldl_chip, State.modExch_frame, State.modHif_frame,
    implies_true] using hv

theorem State.fullReset_grows (cause : Nat) (powerUp : Bool) : f.Grows (s.fullReset cause powerUp).chip.fuses := by
  unfold State.fullReset
  dsimp only
  split
  · exact h
  · exact State.foldl_grows (State.foldl_grows h _ _ fun _ p ha => State.fuseFailing_grows ha p) _ _
      fun _ d ha => State.retireMarked_grows ha d

theorem State.requestFullReset_grows (cause : Nat) : f.Grows (s.requestFullReset cause).chip.fuses := by
  unfold State.requestFullReset
  split
  · exact State.modChip_grows h
  · exact State.fullReset_grows h _ _

theorem State.powerUp_grows : f.Grows s.powerUp.chip.fuses := by
  unfold State.powerUp
  dsimp only
  exact State.fullReset_grows (State.modChip_grows h) _ _

theorem State.doPwrRise_grows (afterOneSecond : Bool) : f.Grows (s.doPwrRise afterOneSecond).chip.fuses := by
  unfold State.doPwrRise
  split
  · exact h
  · split
    · exact State.powerUp_grows h
    · exact State.modChip_grows h

theorem State.doLowTimeElapsed_grows : f.Grows s.doLowTimeElapsed.chip.fuses := by
  unfold State.doLowTimeElapsed
  split
  · exact State.powerUp_grows h
  · exact h

theorem State.doPwrFall_grows : f.Grows s.doPwrFall.chip.fuses := by
  unfold State.doPwrFall
  split
  · exact h
  · exact State.modChip_grows (State.fullReset_grows h _ _)

theorem State.doPerstAssert_grows : f.Grows s.doPerstAssert.chip.fuses := by
  have hp : f.Grows (s.modChip fun c => { c with perst := true }).chip.fuses := State.modChip_grows h
  unfold State.doPerstAssert
  dsimp only
  split
  · exact hp
  · exact State.requestFullReset_grows (State.modChip_grows hp) _

theorem State.failChan_grows (cause : Nat) (e : Nat × Nat) : f.Grows (s.failChan cause e).chip.fuses := by
  unfold State.failChan
  split
  · exact h
  · exact State.fuseEntry_grows (by simpa using h) _ _ _ _

theorem State.trainStacks_grows (x : Findings) : f.Grows (s.trainStacks x).chip.fuses := by
  unfold State.trainStacks
  refine State.foldl_grows (State.foldl_grows ?_ _ _ fun a k ha => ?_) _ _ fun _ e ha => State.failChan_grows ha _ e
  · simpa using h
  · simp only [State.postEvent_frame]
    exact State.foldl_grows ha _ _ fun _ c ha => State.failChan_grows ha 7 (k, c)

theorem State.testCores_grows (x : Findings) : f.Grows (s.testCores x).chip.fuses := by
  unfold State.testCores
  exact State.foldl_grows (State.modChip_grows h) _ _ fun _ c ha => State.failCore_grows ha c 1

theorem State.testSlabs_grows (x : Findings) : f.Grows (s.testSlabs x).chip.fuses := by
  unfold State.testSlabs
  refine State.foldl_grows ?_ _ _ fun a e ha => ?_
  · simpa using h
  · split
    · exact ha
    · exact State.fuseEntry_grows (by simpa using ha) _ _ _ _

theorem State.bringSteps_grows (x : Findings) (deep : Bool) : f.Grows (s.bringSteps x deep).chip.fuses := by
  have ht : f.Grows (((((s.readClass x.cooler).trainStacks x).testCores x).testSlabs x)).chip.fuses :=
    State.testSlabs_grows (State.testCores_grows (State.trainStacks_grows (by simpa using h) x) x) x
  unfold State.bringSteps
  dsimp only
  split
  · simpa using h
  · split
    · simpa using ht
    · split <;> simpa using ht

theorem State.doBringup_grows (x : Findings) : f.Grows (s.doBringup x).chip.fuses := by
  have hb (deep : Bool) :
      f.Grows ((s.modChip fun c => { c with deep, bootFt := s.ft }).bootMmc x.mmcSlotA x.mmcSlotB).1.chip.fuses := by
    simp only [State.bootMmc_frame]
    exact State.modChip_grows h
  unfold State.doBringup
  dsimp only
  split
  · exact h
  · split
    · exact State.bringSteps_grows (hb _) _ _
    · simp only [State.failBringup_fuses, State.postEvent_frame]
      exact State.modChip_grows (hb _)

theorem State.doPartResetDone_grows (p : Nat) (x : Findings) : f.Grows (s.doPartResetDone p x).chip.fuses := by
  unfold State.doPartResetDone
  split
  · exact h
  · simpa using State.foldl_grows h _ (x.coreFail.filter fun c => (s.dies p).contains (c / 144))
      fun _ c ha => State.failCore_grows ha c 1

theorem State.doActivate_grows (b : Binding) : f.Grows (s.doActivate b).chip.fuses := by
  unfold State.doActivate State.serve
  dsimp only
  split
  · split
    · simpa using h
    · split
      · simpa using h
      · split
        · exact State.modChip_grows (State.fullReset_grows (by simpa using h) _ _)
        · simpa using h
  · exact h

theorem State.doMmcRestartDone_grows : f.Grows s.doMmcRestartDone.chip.fuses := by
  unfold State.doMmcRestartDone
  dsimp only
  split
  · exact h
  · split
    · exact State.fullReset_grows (by simpa using h) _ _
    · simpa using h

theorem State.writeBootCtrl_grows (v : Nat) : f.Grows (s.writeBootCtrl v).chip.fuses := by
  have hd : f.Grows (s.modChip fun c => { c with nextDeep := bit v 0 }).chip.fuses := State.modChip_grows h
  unfold State.writeBootCtrl
  dsimp only
  split
  · exact State.requestFullReset_grows hd _
  · exact State.foldl_grows (State.foldl_grows hd _ _ fun _ p ha => State.doComputeReset_grows ha p) _ _
      fun _ p ha => State.doPartReset_grows ha p

theorem State.writeReg_grows (a v : Nat) : f.Grows (s.writeReg a v).chip.fuses := by
  by_cases hb : ¬a < 0x10000 ∧ a = 0x100104
  · simpa only [State.writeReg, if_neg hb.1, if_pos hb.2] using State.writeBootCtrl_grows h v
  · have he : (s.writeReg a v).chip.fuses = s.chip.fuses := by
      unfold State.writeReg
      split
      · simp
      · split
        · simp_all
        · (repeat' split) <;> simp
    exact he ▸ h

theorem State.writeWord_grows (fn : Fn) (off v : Nat) : f.Grows (s.writeWord fn off v).chip.fuses := by
  cases fn with
  | pf =>
    simp only [State.writeWord, State.writePf]
    split
    · exact State.writeReg_grows h _ _
    · split
      · exact State.writeReg_grows h _ _
      · exact h
  | vf p => simpa [State.writeWord] using h

theorem State.doRegisterWrite_grows (fn : Fn) (off size v : Nat) : f.Grows (s.doRegisterWrite fn off size v).chip.fuses := by
  unfold State.doRegisterWrite
  split
  · exact State.writeWord_grows h _ _ _
  · split
    · exact State.writeWord_grows (State.writeWord_grows h _ _ _) _ _ _
    · simpa using h

end

end Sys2Proof.Machine
end

