-- ==== Sys2Proof/Proofs/ControllerFuses.lean ====
section
/-! SUPPORT. Revocations, the fused security version and the identity epoch (R444, R447, R454). -/

namespace Sys2Proof.Machine

/-- What of the management controller is fused, or only counts up: revocations, the fused security version and the identity
epoch (R444, R447, R454). -/
structure MmcFuses where
  revoked : Nat
  svn     : Nat
  epoch   : Nat

/-- What of the management controller is fused, or only counts up. -/
def Mmc.fuses (m : Mmc) : MmcFuses := ⟨m.revoked, m.fusedSvn, m.epoch⟩

@[simp] theorem Mmc.ite_fuses (p : Prop) [Decidable p] (m n : Mmc) :
    (if p then m else n).fuses = if p then m.fuses else n.fuses := apply_ite _ _ _ _

@[simp] theorem Mmc.foldl_fuses {ι : Type} (u : Mmc → ι → Mmc) (l : List ι) (m : Mmc)
    (h : ∀ a i, (u a i).fuses = a.fuses) : (l.foldl u m).fuses = m.fuses := foldl_keeps Mmc.fuses u h l m

@[simp] theorem State.foldl_mmcFuses {ι : Type} (u : State → ι → State) (l : List ι) (s : State)
    (h : ∀ a i, (u a i).mmc.fuses = a.mmc.fuses) : (l.foldl u s).mmc.fuses = s.mmc.fuses :=
  foldl_keeps (·.mmc.fuses) u h l s

@[simp] theorem State.serve_mmcFuses (s : State) (b : Binding) (inRecovery : Bool) (u : State → State)
    (h : ∀ s, (u s).mmc.fuses = s.mmc.fuses) : (s.serve b inRecovery u).mmc.fuses = s.mmc.fuses := by
  unfold State.serve
  split <;> simp [h]

@[simp] theorem State.spdmStep_mmcFuses (s : State) (b : Binding) (least : Nat) (u : State → State)
    (h : ∀ s, (u s).mmc.fuses = s.mmc.fuses) : (s.spdmStep b least u).mmc.fuses = s.mmc.fuses := by
  refine State.serve_mmcFuses _ _ _ _ fun s => ?_
  split <;> simp [h]

@[simp] theorem Mmc.setSlot_fuses (m : Mmc) (c : Nat) (inUse : Bool) (x : FwSlot) : (m.setSlot c inUse x).fuses = m.fuses := (rfl)
@[simp] theorem Mmc.pend_fuses (m : Mmc) (l : List Bool) : ({ m with pend := l } : Mmc).fuses = m.fuses := (rfl)
@[simp] theorem Mmc.flip_fuses (m : Mmc) (c : Nat) : (m.flip c).fuses = m.fuses := (rfl)
@[simp] theorem Mmc.settleUpdate_fuses (m : Mmc) : m.settleUpdate.fuses = m.fuses := by
  unfold Mmc.settleUpdate
  split <;> rfl
@[simp] theorem Mmc.loadCore_fuses (m : Mmc) (p : Nat) : (m.loadCore p).fuses = m.fuses := (rfl)
@[simp] theorem Mmc.takeLeaf_fuses (m : Mmc) : m.takeLeaf.2.fuses = m.fuses := by
  unfold Mmc.takeLeaf
  split <;> rfl
@[simp] theorem Mmc.fallBack_fuses (m : Mmc) : m.fallBack.fuses = m.fuses := (rfl)

theorem Mmc.rebooted_fuses (m : Mmc) : m.rebooted.fuses = m.fuses := by
  unfold Mmc.rebooted
  refine (Mmc.foldl_fuses _ _ _ fun a c => ?_).trans (Mmc.foldl_fuses _ _ _ fun a c => ?_)
  · split <;> rfl
  · rfl

@[simp] theorem State.sendSensor_mmcFuses (s : State) (e : SensorEvt) : (s.sendSensor e).mmc.fuses = s.mmc.fuses := by
  unfold State.sendSensor
  (repeat' split) <;> rfl

@[simp] theorem State.reportSensor_mmcFuses (s : State) (i : Nat) : (s.reportSensor i).mmc.fuses = s.mmc.fuses := by
  unfold State.reportSensor
  dsimp only
  split
  · rfl
  · split
    · rfl
    · exact State.sendSensor_mmcFuses _ _

@[simp] theorem State.reportSensors_mmcFuses (s : State) : s.reportSensors.mmc.fuses = s.mmc.fuses :=
  State.foldl_mmcFuses _ _ _ State.reportSensor_mmcFuses

@[simp] theorem State.doSetEndpointId_mmcFuses (s : State) (b : Binding) (eid : Nat) :
    (s.doSetEndpointId b eid).mmc.fuses = s.mmc.fuses := State.serve_mmcFuses _ _ _ _ fun _ => rfl

@[simp] theorem State.doSetTid_mmcFuses (s : State) (b : Binding) (tid : Nat) : (s.doSetTid b tid).mmc.fuses = s.mmc.fuses :=
  State.serve_mmcFuses _ _ _ _ fun s => by split <;> rfl

@[simp] theorem State.doSensorEnable_mmcFuses (s : State) (b : Binding) (i op : Nat) :
    (s.doSensorEnable b i op).mmc.fuses = s.mmc.fuses := State.serve_mmcFuses _ _ _ _ fun s => by split <;> rfl

@[simp] theorem State.doSetReceiver_mmcFuses (s : State) (b : Binding) (eid : Nat) :
    (s.doSetReceiver b eid).mmc.fuses = s.mmc.fuses := State.serve_mmcFuses _ _ _ _ fun _ => rfl

@[simp] theorem State.doRequestUpdate_mmcFuses (s : State) (b : Binding) (n : Nat) :
    (s.doRequestUpdate b n).mmc.fuses = s.mmc.fuses := State.serve_mmcFuses _ _ _ _ fun s => by split <;> rfl

@[simp] theorem State.doPassComponent_mmcFuses (s : State) (b : Binding) (c : Nat) :
    (s.doPassComponent b c).mmc.fuses = s.mmc.fuses := State.serve_mmcFuses _ _ _ _ fun s => by (repeat' split) <;> rfl

@[simp] theorem State.doUpdateComponent_mmcFuses (s : State) (b : Binding) (c : Nat) (img : Bytes) :
    (s.doUpdateComponent b c img).mmc.fuses = s.mmc.fuses := by
  refine State.serve_mmcFuses _ _ _ _ fun s => ?_
  dsimp only
  split
  · rfl
  · split
    · rfl
    · have hput (s1 : State) : (s1.modMmc fun m =>
          let m1 := if s.chip.recovery then { m with active := setAt m.active 0 true } else m
          { m1.putImage (c - 1) img (s.imageVerdict c img).isNone with
            update := if (s.imageVerdict c img).isNone then 2 else m.update, active := m1.active }).mmc.fuses = s1.mmc.fuses := by
        dsimp only [State.modMmc]
        split <;> rfl
      split
      · simp only [State.turnDown_frame]
        exact hput _
      · exact hput _

@[simp] theorem State.doCancelUpdate_mmcFuses (s : State) (b : Binding) : (s.doCancelUpdate b).mmc.fuses = s.mmc.fuses := by
  refine State.serve_mmcFuses _ _ _ _ fun s => ?_
  split
  · rfl
  · exact Mmc.foldl_fuses _ _ _ fun _ _ => rfl

@[simp] theorem State.doMmcRestart_mmcFuses (s : State) (ok : Bool) : (s.doMmcRestart ok).mmc.fuses = s.mmc.fuses := by
  unfold State.doMmcRestart
  dsimp only
  split
  · rfl
  · split
    · rfl
    · simp only [State.postEvent_frame]
      exact (rfl : _ = (s.turnDown _).mmc.fuses).trans (by simp)

@[simp] theorem State.doBroadcast_mmcFuses (s : State) (img : Bytes) : (s.doBroadcast img).mmc.fuses = s.mmc.fuses := by
  unfold State.doBroadcast
  split
  · rfl
  · split
    · simp
    · rfl

@[simp] theorem State.doGetVersion_mmcFuses (s : State) (b : Binding) : (s.doGetVersion b).mmc.fuses = s.mmc.fuses :=
  State.spdmStep_mmcFuses _ _ _ _ fun _ => rfl

@[simp] theorem State.doGetCapabilities_mmcFuses (s : State) (b : Binding) : (s.doGetCapabilities b).mmc.fuses = s.mmc.fuses :=
  State.spdmStep_mmcFuses _ _ _ _ fun _ => rfl

@[simp] theorem State.doNegotiate_mmcFuses (s : State) (b : Binding) (offersLms : Bool) :
    (s.doNegotiate b offersLms).mmc.fuses = s.mmc.fuses := State.spdmStep_mmcFuses _ _ _ _ fun s => by split <;> rfl

/-- A full reset keeps them: they are in fuses and flash (R411). -/
@[simp] theorem State.fullReset_mmcFuses (s : State) (cause : Nat) (powerUp : Bool) :
    (s.fullReset cause powerUp).mmc.fuses = s.mmc.fuses := by
  refine (Mmc.rebooted_fuses _).trans ?_
  split <;> simp

@[simp] theorem State.requestFullReset_mmcFuses (s : State) (cause : Nat) :
    (s.requestFullReset cause).mmc.fuses = s.mmc.fuses := by
  unfold State.requestFullReset
  split <;> simp

@[simp] theorem State.powerUp_mmcFuses (s : State) : s.powerUp.mmc.fuses = s.mmc.fuses := by simp [State.powerUp]

@[simp] theorem State.doPwrRise_mmcFuses (s : State) (b : Bool) : (s.doPwrRise b).mmc.fuses = s.mmc.fuses := by
  unfold State.doPwrRise
  (repeat' split) <;> simp

@[simp] theorem State.doLowTimeElapsed_mmcFuses (s : State) : s.doLowTimeElapsed.mmc.fuses = s.mmc.fuses := by
  unfold State.doLowTimeElapsed
  split <;> simp

@[simp] theorem State.doPwrFall_mmcFuses (s : State) : s.doPwrFall.mmc.fuses = s.mmc.fuses := by
  unfold State.doPwrFall
  split <;> simp

@[simp] theorem State.doPerstAssert_mmcFuses (s : State) : s.doPerstAssert.mmc.fuses = s.mmc.fuses := by
  unfold State.doPerstAssert
  split <;> simp

@[simp] theorem State.doActivate_mmcFuses (s : State) (b : Binding) : (s.doActivate b).mmc.fuses = s.mmc.fuses := by
  refine State.serve_mmcFuses _ _ _ _ fun s => ?_
  dsimp only
  split
  · rfl
  · split
    · rfl
    · split
      · simp only [State.modChip_frame, State.fullReset_mmcFuses]
        rfl
      · exact Mmc.settleUpdate_fuses _

@[simp] theorem State.writeBootCtrl_mmcFuses (s : State) (v : Nat) : (s.writeBootCtrl v).mmc.fuses = s.mmc.fuses := by
  unfold State.writeBootCtrl
  dsimp only
  split <;> simp

@[simp] theorem State.writeReg_mmcFuses (s : State) (a v : Nat) : (s.writeReg a v).mmc.fuses = s.mmc.fuses := by
  unfold State.writeReg
  (repeat' split) <;> simp

@[simp] theorem State.writePf_mmcFuses (s : State) (off v : Nat) : (s.writePf off v).mmc.fuses = s.mmc.fuses := by
  unfold State.writePf
  (repeat' split) <;> simp

@[simp] theorem State.writeWord_mmcFuses (s : State) (fn : Fn) (off v : Nat) :
    (s.writeWord fn off v).mmc.fuses = s.mmc.fuses := by
  unfold State.writeWord
  split <;> simp

@[simp] theorem State.doRegisterWrite_mmcFuses (s : State) (fn : Fn) (off size v : Nat) :
    (s.doRegisterWrite fn off size v).mmc.fuses = s.mmc.fuses := by
  unfold State.doRegisterWrite
  (repeat' split) <;> simp

/-! ## What counts up -/

/-- What may become of them: the revocations stay, the security version and the epoch never fall (R447, R454). -/
structure MmcFuses.Grows (f g : MmcFuses) : Prop where
  revoked : g.revoked = f.revoked
  svn     : f.svn ≤ g.svn
  epoch   : f.epoch ≤ g.epoch

theorem MmcFuses.Grows.refl (f : MmcFuses) : f.Grows f := ⟨rfl, le_rfl, le_rfl⟩

theorem MmcFuses.Grows.ite {f g k : MmcFuses} {c : Prop} [Decidable c] (hg : f.Grows g) (hk : f.Grows k) :
    f.Grows (if c then g else k) := by split <;> assumption

/-- A component that starts blows fuses up to its version (R447). -/
theorem Mmc.proved_grows {f : MmcFuses} {m : Mmc} (h : f.Grows m.fuses) (c : Nat) : f.Grows (m.proved c).fuses where
  revoked := h.revoked
  svn := h.svn.trans (le_max_left _ _)
  epoch := h.epoch

section
variable {f : MmcFuses} {s : State} (h : f.Grows s.mmc.fuses)
include h

theorem State.activateCore_mmcGrows (p : Nat) : f.Grows (s.activateCore p).mmc.fuses := by
  simp only [State.activateCore, State.loadRevs_frame, Mmc.ite_fuses, Mmc.settleUpdate_fuses, Mmc.pend_fuses, Mmc.loadCore_fuses,
    ite_self]
  refine .ite (Mmc.proved_grows ?_ 1) (.ite h h)
  split <;> exact h

theorem State.doPartResetDone_mmcGrows (p : Nat) (x : Findings) : f.Grows (s.doPartResetDone p x).mmc.fuses := by
  unfold State.doPartResetDone
  split
  · exact h
  · simpa using State.activateCore_mmcGrows (by simpa using h) p

theorem State.bootMmc_mmcGrows (a b : Bool) : f.Grows (s.bootMmc a b).1.mmc.fuses := by
  simp only [State.bootMmc, State.ite_fst, State.ite_mmc, Mmc.ite_fuses, State.postEvent_frame, State.turnDown_frame]
  exact .ite (Mmc.proved_grows h 0) (.ite (Mmc.proved_grows (m := s.mmc.fallBack) h 0) h)

theorem State.assign_mmcGrows (deep : Bool) : f.Grows (s.assign deep).mmc.fuses := by
  have ha : f.Grows ((s.numberDies [0, 1, 2, 3]).setCapacity []).loadRevs.mmc.fuses := by simpa using h
  simp only [State.assign, State.modChip_frame]
  refine Mmc.proved_grows (Mmc.proved_grows ?_ 1) 2
  exact ha

theorem State.bringSteps_mmcGrows (x : Findings) (deep : Bool) : f.Grows (s.bringSteps x deep).mmc.fuses := by
  unfold State.bringSteps
  dsimp only
  split
  · simpa using h
  · split
    · simpa using h
    · split
      · simpa using h
      · exact State.assign_mmcGrows (by simpa using h) deep

theorem State.doBringup_mmcGrows (x : Findings) : f.Grows (s.doBringup x).mmc.fuses := by
  have hb (deep : Bool) :
      f.Grows ((s.modChip fun c => { c with deep, bootFt := s.ft }).bootMmc x.mmcSlotA x.mmcSlotB).1.mmc.fuses := by
    apply State.bootMmc_mmcGrows
    exact h
  unfold State.doBringup
  dsimp only
  split
  · exact h
  · split
    · exact State.bringSteps_mmcGrows (hb _) _ _
    · simpa using hb _

theorem State.doMmcRestartDone_mmcGrows : f.Grows s.doMmcRestartDone.mmc.fuses := by
  unfold State.doMmcRestartDone
  dsimp only
  split
  · exact h
  · have hr : f.Grows ({ s.mmc.proved 0 with
        restarting := false, runMmc := (s.mmc.slotOf 0 true).image, leafAt := 0, leafEnd := 0 } : Mmc).settleUpdate.fuses := by
      rw [Mmc.settleUpdate_fuses]
      exact Mmc.proved_grows h 0
    split
    · simp only [State.fullReset_mmcFuses, State.foldl_mmcFuses, State.sendSensor_mmcFuses, State.holdIfDue_frame, implies_true]
      exact hr
    · simp only [State.foldl_mmcFuses, State.sendSensor_mmcFuses, State.holdIfDue_frame, implies_true]
      exact hr

theorem State.settleEpoch_mmcGrows : f.Grows s.settleEpoch.mmc.fuses := by
  unfold State.settleEpoch
  dsimp only
  split
  · exact h
  · split
    · simp only [State.postEvent_frame]
      exact ⟨h.revoked, h.svn, h.epoch.trans (Nat.le_succ _)⟩
    · simp only [State.postEvent_frame]
      exact h

theorem State.signed_mmcGrows (b : Binding) (rsp : Nat) (vals : List Nat) (msg : Bytes) :
    f.Grows (s.signed b rsp vals msg).mmc.fuses := by
  unfold State.signed
  dsimp only
  split
  · exact State.settleEpoch_mmcGrows h
  · refine State.settleEpoch_mmcGrows ?_
    simpa using State.settleEpoch_mmcGrows h

theorem State.spdmStep_mmcGrows (b : Binding) (least : Nat) {u : State → State} (hu : f.Grows (u s).mmc.fuses) :
    f.Grows (s.spdmStep b least u).mmc.fuses := by
  unfold State.spdmStep State.serve
  dsimp only
  split
  · split
    · exact h
    · exact hu
  · exact h

theorem State.doChallenge_mmcGrows (b : Binding) (slot : Nat) (nonce : Bytes) :
    f.Grows (s.doChallenge b slot nonce).mmc.fuses := by
  refine State.spdmStep_mmcGrows h b 3 ?_
  split
  · exact h
  · split
    · exact h
    · exact State.signed_mmcGrows h _ _ _ _

theorem State.doGetMeasurements_mmcGrows (b : Binding) (i : Nat) (wantSigned : Bool) (nonce : Bytes) :
    f.Grows (s.doGetMeasurements b i wantSigned nonce).mmc.fuses := by
  refine State.spdmStep_mmcGrows h b 3 ?_
  split
  · exact h
  · split
    · exact State.signed_mmcGrows h _ _ _ _
    · exact h

end

end Sys2Proof.Machine
end

