-- ==== Sys2Proof/Proofs/OneTime.lean ====
section
/-! SUPPORT. What a step makes of one-time memory. -/

namespace Sys2Proof.Machine

/-! ## Gates -/

section
variable {u : State → State} (h : ∀ s, (u s).chip.fuses = s.chip.fuses) (s : State)
include h

@[simp] theorem State.engine_fuses : (s.engine u).chip.fuses = s.chip.fuses := by
  unfold State.engine
  split <;> simp [h]

@[simp] theorem State.whenOn_fuses : (s.whenOn u).chip.fuses = s.chip.fuses := by
  unfold State.whenOn
  split <;> simp [h]

@[simp] theorem State.overLink_fuses : (s.overLink u).chip.fuses = s.chip.fuses := by
  unfold State.overLink
  split <;> simp [h]

@[simp] theorem State.onRails_fuses : (s.onRails u).chip.fuses = s.chip.fuses := by
  unfold State.onRails
  split <;> simp [h]

end

@[simp] theorem State.whenOn_mmcFuses {u : State → State} (h : ∀ s, (u s).mmc.fuses = s.mmc.fuses) (s : State) :
    (s.whenOn u).mmc.fuses = s.mmc.fuses := by
  unfold State.whenOn
  split <;> simp [h]

/-! ## What a step makes of one-time memory -/

/-- The identity of the part is kept, and its fuses, bank, versions and epoch only grow. -/
structure State.Ages (s t : State) : Prop where
  grade  : t.gradeS = s.gradeS
  serial : t.serial = s.serial
  chip   : s.chip.fuses.Grows t.chip.fuses
  mmc    : s.mmc.fuses.Grows t.mmc.fuses

theorem State.Ages.refl (s : State) : s.Ages s := ⟨rfl, rfl, .refl _, .refl _⟩

/-- Nothing of it changes. -/
theorem State.Ages.of_kept {s t : State} (hg : t.gradeS = s.gradeS) (hs : t.serial = s.serial)
    (hc : t.chip.fuses = s.chip.fuses) (hm : t.mmc.fuses = s.mmc.fuses) : s.Ages t :=
  ⟨hg, hs, hc ▸ .refl _, hm ▸ .refl _⟩

/-- The field-repair bank may get entries. -/
theorem State.Ages.of_chip {s t : State} (hc : s.chip.fuses.Grows t.chip.fuses) (hg : t.gradeS = s.gradeS := by simp)
    (hs : t.serial = s.serial := by simp) (hm : t.mmc.fuses = s.mmc.fuses := by simp) : s.Ages t :=
  ⟨hg, hs, hc, hm ▸ .refl _⟩

/-- The security version or the epoch may rise. -/
theorem State.Ages.of_mmc {s t : State} (hm : s.mmc.fuses.Grows t.mmc.fuses) (hg : t.gradeS = s.gradeS := by simp)
    (hs : t.serial = s.serial := by simp) (hc : t.chip.fuses = s.chip.fuses := by simp) : s.Ages t :=
  ⟨hg, hs, hc ▸ .refl _, hm⟩

section
variable {u : State → State} (h : ∀ s : State, s.Ages (u s)) (s : State)
include h

theorem State.engine_ages : s.Ages (s.engine u) := by
  unfold State.engine
  split
  · exact .refl s
  · exact h s

theorem State.whenOn_ages : s.Ages (s.whenOn u) := by
  unfold State.whenOn
  split
  · exact h s
  · exact .refl s

theorem State.overLink_ages : s.Ages (s.overLink u) := by
  unfold State.overLink
  split
  · exact h s
  · exact .refl s

theorem State.reporting_ages : s.Ages (s.reporting u) := by
  obtain ⟨hg, hs, hc, hm⟩ := h s
  unfold State.reporting
  exact ⟨by simpa using hg, by simpa using hs, by simpa using hc, by simpa using hm⟩

end

/-- A sequencer operation whose run keeps grade, serial number, chip and management controller. -/
theorem State.seqOp_ages {run : State → Nat → Rec → Except Nat (State × Nat)}
    (h : ∀ s c r t n, run s c r = .ok (t, n) →
      t.gradeS = s.gradeS ∧ t.serial = s.serial ∧ t.chip = s.chip ∧ t.mmc = s.mmc)
    (s : State) (l op : Nat) : s.Ages (s.seqOp l op run) := by
  refine .of_kept (State.seqOp_gradeS _ _ _ _ ?_) (State.seqOp_serial _ _ _ _ ?_) (State.seqOp_fuses _ _ _ _ ?_)
    (congrArg _ (State.seqOp_mmc _ _ _ _ ?_))
  all_goals
    intro s c r t n hr
    simp [h s c r t n hr]

@[simp] theorem kLoadStore_mmc (store : Bool) (s : State) (x : KCtx) : (kLoadStore store s x).st.mmc = s.mmc := by
  unfold kLoadStore
  dsimp only
  (repeat' split) <;> simp

open State in
/-- The commands that program the bank or count up, one by one; no other command touches one-time memory. -/
theorem exec_ages (i : Instr) (s : State) : ∃ t, exec i s = .next t ∧ s.Ages t := by
  cases i
  case permanentFault e =>
    exact ⟨_, rfl, reporting_ages (whenOn_ages fun s => .of_chip (doPermanentFault_grows (.refl _) e)) s⟩
  case channelRetire p => exact ⟨_, rfl, whenOn_ages (fun s => .of_chip (doChannelRetire_grows (.refl _) p)) s⟩
  case nimBusyEnd b => exact ⟨_, rfl, reporting_ages (whenOn_ages fun s => .of_chip (doNimBusyEnd_grows (.refl _) b)) s⟩
  case spareSubstitution p passed =>
    exact ⟨_, rfl, reporting_ages (whenOn_ages fun s => .of_chip (doSubstitution_grows (.refl _) p passed)) s⟩
  case fullReset => exact ⟨_, rfl, reporting_ages (overLink_ages fun s => .of_chip (requestFullReset_grows (.refl _) 2)) s⟩
  case computeReset p => exact ⟨_, rfl, reporting_ages (overLink_ages fun s => .of_chip (doComputeReset_grows (.refl _) p)) s⟩
  case partReset p => exact ⟨_, rfl, reporting_ages (overLink_ages fun s => .of_chip (doPartReset_grows (.refl _) p)) s⟩
  case functionLevelResetVf p => exact ⟨_, rfl, reporting_ages (overLink_ages fun s => .of_chip (doFlrVf_grows (.refl _) p)) s⟩
  case functionLevelResetPf => exact ⟨_, rfl, reporting_ages (overLink_ages fun s => .of_chip (doFlrPf_grows (.refl _))) s⟩
  case registerWrite fn off size v =>
    exact ⟨_, rfl, reporting_ages (overLink_ages fun s => .of_chip (doRegisterWrite_grows (.refl _) fn off size v.toNat)) s⟩
  case hxPwrEnRise late => exact ⟨_, rfl, reporting_ages (fun s => .of_chip (doPwrRise_grows (.refl _) late)) s⟩
  case hxPwrEnFall => exact ⟨_, rfl, reporting_ages (fun s => .of_chip (doPwrFall_grows (.refl _))) s⟩
  case pwrEnLowTimeElapsed => exact ⟨_, rfl, reporting_ages (fun s => .of_chip (doLowTimeElapsed_grows (.refl _))) s⟩
  case perstAssert => exact ⟨_, rfl, reporting_ages (fun s => .of_chip (doPerstAssert_grows (.refl _))) s⟩
  case coreFwActivation p =>
    exact ⟨_, rfl, reporting_ages (whenOn_ages fun s => .of_chip (doCoreActivation_grows (.refl _) p)) s⟩
  case activateFirmware b => exact ⟨_, rfl, reporting_ages (fun s => .of_chip (doActivate_grows (.refl _) b)) s⟩
  case bringup x =>
    exact ⟨_, rfl, reporting_ages (fun s =>
      ⟨by simp, by simp, doBringup_grows (.refl _) x, doBringup_mmcGrows (.refl _) x⟩) s⟩
  case partResetDone p x =>
    exact ⟨_, rfl, reporting_ages (whenOn_ages fun s =>
      ⟨by simp, by simp, doPartResetDone_grows (.refl _) p x, doPartResetDone_mmcGrows (.refl _) p x⟩) s⟩
  case mmcRestartDone =>
    exact ⟨_, rfl, reporting_ages (fun s =>
      ⟨by simp, by simp, doMmcRestartDone_grows (.refl _), doMmcRestartDone_mmcGrows (.refl _)⟩) s⟩
  case challenge b slot nonce => exact ⟨_, rfl, .of_mmc (doChallenge_mmcGrows (.refl _) b slot nonce)⟩
  case getMeasurements b n signed nonce => exact ⟨_, rfl, .of_mmc (doGetMeasurements_mmcGrows (.refl _) b n signed nonce)⟩
  case loop l => exact ⟨_, rfl, engine_ages (fun s => seqOp_ages (fun _ _ _ _ _ h => by simp [runLoop_frame h]) s l _) s⟩
  case endloop l => exact ⟨_, rfl, engine_ages (fun s => seqOp_ages (fun _ _ _ _ _ h => by simp [runEndLoop_frame h]) s l _) s⟩
  case setsv l => exact ⟨_, rfl, engine_ages (fun s => seqOp_ages (fun _ _ _ _ _ h => by simp [runSetSv_frame h]) s l _) s⟩
  case addsv l => exact ⟨_, rfl, engine_ages (fun s => seqOp_ages (fun _ _ _ _ _ h => by simp [runAddSv_frame h]) s l _) s⟩
  case setpair l => exact ⟨_, rfl, engine_ages (fun s => seqOp_ages (fun _ _ _ _ _ h => by simp [runSetPair_frame h]) s l _) s⟩
  case swap l => exact ⟨_, rfl, engine_ages (fun s => seqOp_ages (fun _ _ _ _ _ h => by simp [runSwap_frame h]) s l _) s⟩
  case setkey l => exact ⟨_, rfl, engine_ages (fun s => seqOp_ages (fun _ _ _ _ _ h => by simp [runSetKey_frame h]) s l _) s⟩
  all_goals
    refine ⟨_, rfl, .of_kept ?_ ?_ ?_ ?_⟩ <;> simp [State.reporting]

/-- An empty queue lets time pass, which wears nothing (log 3). -/
theorem State.idle_ages (s : State) : s.Ages s.idle := by
  unfold State.idle
  split
  · exact .of_kept (by simp) (by simp) (by simp) (by simp)
  · exact .refl s

/-- Every step is a command run on the rest of the queue, or idle. -/
theorem step_ages {s t : State} (h : step s = .next t) : s.Ages t := by
  unfold step at h
  split at h
  · obtain rfl := Host.Outcome.next.inj h
    exact s.idle_ages
  · next c rest _ =>
    obtain ⟨u, hu, ha⟩ := exec_ages c { s with pending := rest }
    obtain rfl := Host.Outcome.next.inj (hu.symm.trans h)
    exact ⟨ha.grade, ha.serial, ha.chip, ha.mmc⟩

/-- Settles O59: every command either keeps one-time memory or only adds to it. That no step blows a revocation fuse is the
model's choice (log 72). -/
theorem oneTimeMemory : Obligations.OneTimeMemory := by
  intro s t h
  obtain ⟨hg, hs, hc, hm⟩ := step_ages h
  exact ⟨hg, hs, hc.stepping, hc.cores, hc.chans, hc.slabs, hm.revoked, hm.svn, hm.epoch, hc.bank, hc.room⟩

end Sys2Proof.Machine
end

