-- ==== Sys2Proof/Proofs/RegisterWrites.lean ====
section
/-! SUPPORT. What a register write of a virtual function leaves alone, and the registers that only hold a value (R10, R389). -/

namespace Sys2Proof.Machine

/-- What a virtual function's access may change: the host interface, its own partition and rings, counters and what is sent; the
partitions, event rings and ring pairs of the others stay (R10). -/
structure State.VfOnly (p : Nat) (s u : State) : Prop where
  rest : u = { s with hif := u.hif, parts := u.parts, gdbg := u.gdbg, out := u.out }
  part : ∀ q, q ≠ p → u.part q = s.part q
  evt  : ∀ q, q ≠ p → u.evt (.vf q) = s.evt (.vf q)
  ring : ∀ q, q ≠ p → ∀ m, m < 64 → u.ring q m = s.ring q m

section
variable {p : Nat}

theorem State.VfOnly.refl (s : State) : s.VfOnly p s := ⟨rfl, fun _ _ => rfl, fun _ _ => rfl, fun _ _ _ _ => rfl⟩

theorem State.VfOnly.trans {s t u : State} (h : s.VfOnly p t) (k : t.VfOnly p u) : s.VfOnly p u where
  rest := k.rest.trans (by rw [h.rest])
  part q hq := (k.part q hq).trans (h.part q hq)
  evt q hq := (k.evt q hq).trans (h.evt q hq)
  ring q hq m hm := (k.ring q hq m hm).trans (h.ring q hq m hm)

/-- A field of the host interface other than its rings. -/
theorem State.modHif_vfOnly (s : State) (f : Hif → Hif) (hr : ∀ h, (f h).pairs = h.pairs := by intro; rfl)
    (he : ∀ h, (f h).evts = h.evts := by intro; rfl) : s.VfOnly p (s.modHif f) where
  rest := rfl
  part _ _ := rfl
  evt q _ := congrArg (SMap.get EvtRing.reset (fnKey (.vf q))) (he s.hif)
  ring q _ m _ := congrArg (SMap.get Ring.reset (64 * q + m)) (hr s.hif)

theorem State.setRing_vfOnly (s : State) {n : Nat} (hn : n < 64) (r : Ring) : s.VfOnly p (s.setRing p n r) where
  rest := rfl
  part _ _ := rfl
  evt _ _ := rfl
  ring q hq m hm := by rw [State.ring_setRing s p n q m r hn hm, if_neg fun h => hq h.1]

theorem State.setPart_vfOnly (s : State) (x : Part) : s.VfOnly p (s.setPart p x) where
  rest := rfl
  part _ hq := State.part_setPart_ne s x hq
  evt _ _ := rfl
  ring _ _ _ _ := rfl

/-- The event rings of two virtual functions are two. -/
theorem fnKey_vf_ne {p q : Nat} (h : q ≠ p) : fnKey (.vf q) ≠ fnKey (.vf p) := fun e => h (Nat.succ.inj e)

theorem State.setEvt_vfOnly (s : State) (r : EvtRing) : s.VfOnly p (s.setEvt (.vf p) r) where
  rest := rfl
  part _ _ := rfl
  evt q hq := by rw [State.evt_setEvt, if_neg (fnKey_vf_ne hq)]
  ring _ _ _ _ := rfl

theorem State.gevent_vfOnly (s : State) (block inst ev n : Nat) : s.VfOnly p (s.gevent block inst ev n) := by
  unfold State.gevent
  split
  · exact .refl s
  · exact ⟨rfl, fun _ _ => rfl, fun _ _ => rfl, fun _ _ _ _ => rfl⟩

theorem State.badAccess_vfOnly (s : State) : s.VfOnly p s.badAccess := s.modHif_vfOnly _

/-- A doorbell counts, and then acts or is dropped. -/
theorem State.doorbell_vfOnly (s : State) (ok : Bool) {f : State → State} (hf : ∀ t : State, t.VfOnly p (f t)) :
    s.VfOnly p (s.doorbell ok f) := by
  refine (s.gevent_vfOnly 6 0 0 1).trans ?_
  unfold State.doorbell
  dsimp only
  split
  · exact hf _
  · exact State.badAccess_vfOnly _

theorem State.doSqTail_vfOnly (s : State) {n : Nat} (hn : n < 64) (v : Nat) : s.VfOnly p (s.doSqTail p n v) :=
  s.doorbell_vfOnly _ fun t => t.setRing_vfOnly hn _

theorem State.doCqHead_vfOnly (s : State) {n : Nat} (hn : n < 64) (v : Nat) : s.VfOnly p (s.doCqHead p n v) :=
  s.doorbell_vfOnly _ fun t => t.setRing_vfOnly hn _

theorem State.emit_vfOnly (s : State) (m : OutMsg) : s.VfOnly p (s.emit m) :=
  ⟨rfl, fun _ _ => rfl, fun _ _ => rfl, fun _ _ _ _ => rfl⟩

theorem State.writeEvent_vfOnly (s : State) (body : Bytes) : s.VfOnly p (s.writeEvent (.vf p) body) := by
  unfold State.writeEvent
  dsimp only
  split
  · exact (s.setEvt_vfOnly _).trans (State.emit_vfOnly _ _)
  · exact ((s.setEvt_vfOnly _).trans (State.emit_vfOnly _ _)).trans (State.emit_vfOnly _ _)

/-- Writing the events that wait changes the event ring alone, and what is sent. -/
theorem State.drainEvents_vfOnly (s : State) (xs : List Bytes) : s.VfOnly p (s.drainEvents (.vf p) xs) := by
  induction xs generalizing s with
  | nil => exact .refl s
  | cons b rest ih =>
    unfold State.drainEvents
    split
    · exact ((s.setEvt_vfOnly _).trans (State.writeEvent_vfOnly _ b)).trans (ih _)
    · exact .refl s

theorem State.doEvtHead_vfOnly (s : State) (v : Nat) : s.VfOnly p (s.doEvtHead (.vf p) v) :=
  s.doorbell_vfOnly _ fun t => (t.setEvt_vfOnly _).trans (State.drainEvents_vfOnly _ _)

theorem State.enablePair_vfOnly (s : State) {n : Nat} (hn : n < 64) (cfg : Nat) : s.VfOnly p (s.enablePair p n cfg) := by
  unfold State.enablePair
  dsimp only
  (repeat' split) <;> exact s.setRing_vfOnly hn _

theorem State.disablePair_vfOnly (s : State) {n : Nat} (hn : n < 64) (cfg : Nat) : s.VfOnly p (s.disablePair p n cfg) := by
  unfold State.disablePair
  dsimp only
  split
  · exact s.setRing_vfOnly hn _
  · exact (s.setRing_vfOnly hn _).trans (State.setPart_vfOnly _ _)

theorem State.enableEvents_vfOnly (s : State) (cfg : Nat) : s.VfOnly p (s.enableEvents (.vf p) cfg) := by
  unfold State.enableEvents
  dsimp only
  split
  · exact s.setEvt_vfOnly _
  · split
    · rw [if_neg nofun]
      exact s.setEvt_vfOnly _
    · exact s.setEvt_vfOnly _

theorem State.writeRingCfg_vfOnly (s : State) (n v : Nat) : s.VfOnly p (s.writeRingCfg (.vf p) n v) := by
  by_cases hn : n < 64
  · have hresume : s.VfOnly p (if bit v 8 then s.doResume p n else s) := by
      split
      · exact s.setRing_vfOnly hn _
      · exact .refl s
    refine hresume.trans ?_
    simp only [State.writeRingCfg, hn, decide_true]
    generalize (if bit v 8 then s.doResume p n else s) = s1
    split
    · exact State.enablePair_vfOnly _ hn _
    · exact State.disablePair_vfOnly _ hn _
  · simp only [State.writeRingCfg, hn, decide_false]
    split
    · exact s.enableEvents_vfOnly _
    · exact s.setEvt_vfOnly _

theorem State.writeRing_vfOnly (s : State) (n off v : Nat) : s.VfOnly p (s.writeRing (.vf p) n off v) := by
  unfold State.writeRing
  split
  · exact s.writeRingCfg_vfOnly n v
  · by_cases hn : n < 64
    · simp only [hn, decide_true]
      (repeat' split)
      · exact s.setRing_vfOnly hn _
      · exact s.setRing_vfOnly hn _
      · exact .refl s
    · simp only [hn, decide_false]
      (repeat' split)
      · exact s.setEvt_vfOnly _
      · exact s.setEvt_vfOnly _
      · exact .refl s

/-- Every word of a virtual function's registers (R389). -/
theorem State.writeVf_vfOnly (s : State) (off v : Nat) : s.VfOnly p (s.writeVf p off v) := by
  have hdropped : s.VfOnly p (s.doorbell false id) := s.doorbell_vfOnly _ fun t => .refl t
  unfold State.writeVf
  split
  · have hn : off / 4096 < 64 := by omega
    split
    · exact s.doSqTail_vfOnly hn v
    · split
      · exact s.doCqHead_vfOnly hn v
      · exact hdropped
  · split
    · exact s.doEvtHead_vfOnly v
    · split
      · exact hdropped
      · split
        · exact s.writeRing_vfOnly _ _ v
        · split
          · exact s.modHif_vfOnly _
          · split
            · exact s.modHif_vfOnly _
            · exact .refl s

theorem State.doRegisterWrite_vfOnly (s : State) (off size v : Nat) : s.VfOnly p (s.doRegisterWrite (.vf p) off size v) := by
  unfold State.doRegisterWrite
  split
  · exact s.writeVf_vfOnly off _
  · split
    · exact (s.writeVf_vfOnly off _).trans (State.writeVf_vfOnly _ _ _)
    · exact s.badAccess_vfOnly

end

/-! ## Registers that only hold a value -/

/-- The link is up: the write acts, and sensors are reported. -/
theorem exec_registerWrite {s : State} (hp : s.chip.power = .on) (hr : s.chip.perst = false) (fn : Fn) (off size : Nat) (v : W64) :
    exec (.registerWrite fn off size v) s = .next (s.doRegisterWrite fn off size v.toNat).reportSensors :=
  congrArg (fun u : State => Host.Outcome.next u.reportSensors) (State.overLink_up (·.doRegisterWrite fn off size v.toNat) hp hr)

theorem State.doRegisterWrite_word (s : State) (fn : Fn) {off : Nat} (h : off % 4 = 0) (v : Nat) :
    s.doRegisterWrite fn off 4 v = s.writeWord fn off (v % 2 ^ 32) := if_pos ⟨rfl, h⟩

/-- 8 bytes are two words, the low one first (R389). -/
theorem State.doRegisterWrite_double (s : State) (fn : Fn) {off : Nat} (h : off % 8 = 0) (v : Nat) :
    s.doRegisterWrite fn off 8 v = (s.writeWord fn off (v % 2 ^ 32)).writeWord fn (off + 4) (v / 2 ^ 32 % 2 ^ 32) :=
  (if_neg (by simp)).trans (if_pos ⟨rfl, h⟩)

theorem State.doRegisterWrite_bad (s : State) (fn : Fn) {off size : Nat} (h4 : ¬(size = 4 ∧ off % 4 = 0))
    (h8 : ¬(size = 8 ∧ off % 8 = 0)) (v : Nat) :
    s.doRegisterWrite fn off size v = { s with hif := { s.hif with badSize := min 0xFFFF (s.hif.badSize + 1) } } :=
  (if_neg h4).trans (if_neg h8)

/-- A word of the set-up buffer (R391). -/
theorem State.writeWord_buffer (s : State) {off : Nat} (hl : 0xE000 ≤ off) (hu : off < 0xF000) (v : Nat) :
    s.writeWord .pf off v = { s with hif := { s.hif with buffer := s.hif.buffer.writeN (off - 0xE000) (toLe 4 v) } } := by
  have h1 : off < 0xC00000 := by omega
  have h2 : off < 0x10000 := by omega
  have h3 : off ≠ 0x24 := by omega
  have h4 : off ≠ 0x30 := by omega
  have h5 : ¬(0x200 ≤ off ∧ off < 0x210) := by omega
  have h6 : ¬(0x8000 ≤ off ∧ off < 0x9000) := by omega
  simp only [State.writeWord, State.writePf, State.writeReg, State.writeHif, h1, h2, h3, h4, h5, h6, if_false, if_true]
  exact if_pos ⟨hl, hu⟩

/-- The window register (R389). -/
theorem State.writeWord_windows (s : State) (v : Nat) :
    s.writeWord .pf 0x30 v = { s with hif := { s.hif with windows := v &&& 0xFFFF07 } } := rfl

/-- A virtual function's BAR2 base (R366). -/
theorem State.writeWord_vfBase (s : State) (p v : Nat) :
    s.writeWord (.vf p) 0x42000 v = { s with hif := { s.hif with vfBase := setAt s.hif.vfBase p (bits v 8 10) } } := rfl

/-- Settles O30: the registers that only hold a value by the branches of the write, and the isolation of the other partitions by
`VfOnly`, which every word of a virtual function's registers meets. -/
theorem registerWrites : Obligations.RegisterWrites := by
  intro s v hp hr
  simp only [exec_registerWrite hp hr]
  refine ⟨fun fn off size h4 h8 => ?_, fun off ho hl hu => ?_, fun off ho hl hu => ?_, ?_, fun p => ?_, fun p off size => ?_⟩
  · rw [State.doRegisterWrite_bad s fn h4 h8]
  · rw [State.doRegisterWrite_word s .pf ho, State.writeWord_buffer s hl hu]
  · have hb : off + 4 - 0xE000 = off - 0xE000 + 4 := by omega
    rw [State.doRegisterWrite_double s .pf ho, State.writeWord_buffer s hl hu,
      State.writeWord_buffer _ (by omega) (by omega), hb]
  · rw [State.doRegisterWrite_word s .pf (by rfl), State.writeWord_windows]
  · rw [State.doRegisterWrite_word s (.vf p) (by rfl), State.writeWord_vfBase]
  · have h := s.doRegisterWrite_vfOnly (p := p) off size v.toNat
    exact ⟨_, rfl, h.rest, fun q hq => ⟨h.part q hq, h.evt q hq, h.ring q hq⟩⟩

end Sys2Proof.Machine
end

