-- ==== Sys2Proof/Proofs/EntryValues.lean ====
section
/-! SUPPORT. The real number that an exact value stands for, through the operations a tensor entry is computed with (R35, R37). -/

namespace Sys2Proof.Machine

/-- The value is a number, and the number is `x`. -/
def FVal.IsNumber (v : FVal) (x : Rat) : Prop := v.isSpecial = false ∧ v.toRat = x

theorem FVal.num_isNumber (neg : Bool) (m : Rat) : (FVal.num neg m).IsNumber (if neg then -m else m) := ⟨rfl, rfl⟩

theorem FVal.ofRat_isNumber (x : Rat) : (FVal.ofRat x).IsNumber x := by
  refine ⟨rfl, ?_⟩
  by_cases h : x < 0 <;> simp [FVal.ofRat, FVal.toRat, ratAbs, h]

theorem FVal.IsNumber.mul {v w : FVal} {x y : Rat} (hv : v.IsNumber x) (hw : w.IsNumber y) : (FVal.mul v w).IsNumber (x * y) := by
  obtain ⟨hv, rfl⟩ := hv
  obtain ⟨hw, rfl⟩ := hw
  cases v with
  | num s a =>
    cases w with
    | num t b => exact ⟨rfl, by cases s <;> cases t <;> simp [FVal.mul, FVal.toRat]⟩
    | inf | nan => cases hw
  | inf | nan => cases hv

/-- The sign that `exact` takes from a zero changes no number. -/
theorem FVal.IsNumber.exact {v : FVal} {x : Rat} (hv : v.IsNumber x) : v.exact.IsNumber x := by
  obtain ⟨hv, rfl⟩ := hv
  cases v with
  | num neg m =>
    refine ⟨rfl, ?_⟩
    by_cases hm : m = 0 <;> simp [FVal.exact, FVal.toRat, hm]
  | inf | nan => cases hv

/-- Two's complement of a code within its width. -/
theorem signed_of_lt {w v : Nat} (hv : v < 2 ^ w) :
    signed w v = if 2 * v < 2 ^ w then (v : Int) else (v : Int) - (2 ^ w : Nat) := by
  simp only [signed, Nat.mod_eq_of_lt hv]

theorem signed_sixteen_cast {e : Nat} (he : e < 2 ^ 16) :
    (signed 16 e : Rat) = if e < 2 ^ 15 then (e : Rat) else (e : Rat) - 2 ^ 16 := by
  have half : 2 * e < 2 ^ 16 ↔ e < 2 ^ 15 := by omega
  rw [signed_of_lt he]
  simp only [half]
  split <;> norm_num

/-- R35 before the axis scale: a B16 element with its block's offset. -/
theorem arrayVal_b16_isNumber {e : Nat} (he : e < 2 ^ 16) (b : Nat) :
    (arrayVal .b16 e b).IsNumber ((if e < 2 ^ 15 then (e : Rat) else (e : Rat) - 2 ^ 16) / 2 ^ 15 * (1 / 2 ^ b)) := by
  have hx : (signed 16 e : Rat) / 32768 / (2 ^ b : Nat) =
      (if e < 2 ^ 15 then (e : Rat) else (e : Rat) - 2 ^ 16) / 2 ^ 15 * (1 / 2 ^ b) := by
    rw [signed_sixteen_cast he, div_eq_mul_one_div _ ((2 ^ b : Nat) : Rat)]
    norm_num
  exact hx ▸ FVal.ofRat_isNumber _

section
variable {scale : Nat} {s : Rat}

theorem entryVal_b16_isNumber (hs : (fp32Val scale).IsNumber s) {e : Nat} (he : e < 2 ^ 16) (b zp : Nat) :
    (entryVal .b16 e b scale zp).IsNumber
      ((if e < 2 ^ 15 then (e : Rat) else (e : Rat) - 2 ^ 16) / 2 ^ 15 * (1 / 2 ^ b) * s) :=
  ((arrayVal_b16_isNumber he b).mul hs).exact

/-- R37 for a zero point that does not mark a constant channel (R38). -/
theorem entryVal_int_isNumber {f : Fmt} (hf : f = .int8 ∨ f = .int4) (hs : (fp32Val scale).IsNumber s) (q b : Nat) {zp : Nat}
    (hz : zp ≠ 0xFFFF) : (entryVal f q b scale zp).IsNumber (s * ((q : Rat) - zp)) := by
  have hv : entryVal f q b scale zp = (FVal.mul (FVal.ofRat ((q : Rat) - zp)) (fp32Val scale)).exact := by
    rcases hf with rfl | rfl <;> exact if_neg hz
  rw [hv, mul_comm]
  exact ((FVal.ofRat_isNumber _).mul hs).exact

end

/-- Settles O58: the scale is a number, so each entry is a product of numbers, and an ordinary zero point is not the mark of a
constant channel. -/
theorem entryValues : Obligations.EntryValues := by
  intro scale neg m h s
  have hs : (fp32Val scale).IsNumber s := h ▸ FVal.num_isNumber neg m
  refine ⟨fun e b zp he _ => ?_, fun q b zp _ hz => ?_, fun q b zp _ hz => ?_⟩
  · exact entryVal_b16_isNumber hs he b zp
  · exact entryVal_int_isNumber (.inl rfl) hs q b (by omega)
  · exact entryVal_int_isNumber (.inr rfl) hs q b (by omega)

end Sys2Proof.Machine
end

