-- ==== Sys2Proof/Proofs/WideLanes.lean ====
section
/-! SUPPORT. What the W128 lane instructions answer once their word is fetched (R83, R84, R223). -/

namespace Sys2Proof.Machine

open Sys2Proof.Safety

section
variable {s u : State} {l n op : Nat} {x : KCtx}

/-- A kernel command whose instruction writes one register from the registers alone. -/
theorem engine_kernel_write {run : State → KCtx → KOut} {r : VReg × Ledger} (h : fetches s l n op u x)
    (hr : run u x = .write u x.w.vd r) :
    ran s (s.engine (fun s => s.kernel l n op run)) x.c n
      (advanced ((s.core x.c).thread n) (SMap.set 0 x.w.vd r.1 ((s.core x.c).thread n).regs)) r.2 := by
  rw [State.engine_open _ h.1, State.kernel_fetched h, hr]
  exact KOut.finish_write h

theorem kWide_binary (g : List Cum → Cum × Ledger) (h : fetches s l n op u x) (ht : x.w.type = 3) :
    kWide g true u x = .write u x.w.vd (laneWide g [x.reg s x.w.va, x.reg s x.w.vb]) := by
  simp [kWide, ht, fetches_reg h]

theorem kWide_unary (g : List Cum → Cum × Ledger) (h : fetches s l n op u x) (ht : x.w.type = 3) :
    kWide g false u x = .write u x.w.vd (laneWide g [x.reg s x.w.va]) := by
  simp [kWide, ht, fetches_reg h]

theorem kWfinish_write {f : FloatFmt} {mode : RMode} (h : fetches s l n op u x) (ht : x.w.type = 3)
    (hf : typeFloat (bits x.w.imm 8 2) = some f) (hm : RMode.ofCode x.w.rm = some mode) :
    kWfinish u x = .write u x.w.vd
      (wfinish x.w f mode x.key (x.reg s x.w.va) (x.reg s x.w.vb) (x.reg s x.w.vc) (x.reg s x.w.vd)) := by
  simp [kWfinish, ht, hf, hm, fetches_reg h]

theorem kWfinishb_write {f : Fmt} {mode : RMode} (h : fetches s l n op u x) (ht : x.w.type = 3)
    (hf : Fmt.ofCode (bits x.w.imm 8 8) = some f) (hc : f.isCB = true) (hm : RMode.ofCode x.w.rm = some mode)
    (hv : x.w.va % 2 = 0) :
    kWfinishb u x = .write u x.w.vd
      (wfinishb x.w f mode x.key (x.reg s x.w.va) (x.reg s (x.w.va + 1)) (x.reg s x.w.vb) (x.reg s x.w.vc)) := by
  simp [kWfinishb, ht, hf, hc, hm, hv, fetches_reg h]

end

/-- Settles O10: each of the five words, once fetched, only writes its result to VD. -/
theorem wideLanes : Obligations.WideLanes := by
  intro s u l n x ht
  refine ⟨fun h => ?_, fun h => ?_, fun h => ?_, fun f mode hf hm h => ?_, fun f mode hf hc hm hv h => ?_⟩
  · exact ⟨_, rfl, engine_kernel_write h (kWide_binary _ h ht)⟩
  · exact ⟨_, rfl, engine_kernel_write h (kWide_binary _ h ht)⟩
  · exact ⟨_, rfl, engine_kernel_write h (kWide_unary _ h ht)⟩
  · exact ⟨_, rfl, engine_kernel_write h (kWfinish_write h ht hf hm)⟩
  · exact ⟨_, rfl, engine_kernel_write h (kWfinishb_write h ht hf hc hm hv)⟩

end Sys2Proof.Machine
end

