-- ==== Sys2Proof/Proofs/ArrayRecords.lean ====
section
/-! SUPPORT. How the array commands run the record at the head of their queue (R87, R105, R111, R112, R116, R136). -/

namespace Sys2Proof.Machine

open Sys2Proof.Safety

theorem sameAround_trans {s t u : State} (h : sameAround s t) (g : sameAround t u) : sameAround s u := by
  simp only [sameAround] at *
  simp_all

/-! ## Records that start -/

theorem engine_next {s : State} {f : State → State} (h : s.held = false) :
    (.next (s.engine f) : Host.Outcome State Fault Refusal) = .next (f s) := congrArg _ (State.engine_open f h)

section
variable {s : State} {l q c i : Nat} {e : QEntry}

theorem starts_entry (h : starts s l q c i e) : entry s c q i = some e := (State.ready_some h.2).2.1

theorem starts_physOf (h : starts s l q c i e) : s.physOf l = some c := (State.ready_some h.2).1

/-- A record that runs to its end leaves of the module around it what its engine's work leaves. -/
theorem State.runEntry_sameModule (s : State) (c q i : Nat) (e : QEntry) {run : State → State × Outcome}
    (h : ∀ u, sameModule u (run u).1) : sameModule s (s.runEntry c q i e run) := by
  refine sameModule_trans (t := s.startEntry c q i e (.running 0)) (by simp [sameModule, sameAround])
    (sameModule_trans (h _) ?_)
  simp [State.runEntry, sameModule, sameAround]

/-- A record that runs to its end leaves the array as its engine's work leaves it. -/
theorem State.runEntry_arr (s : State) (c q i : Nat) (e : QEntry) (run : State → State × Outcome) (a : Nat) :
    ((s.runEntry c q i e run).core c).arr a = ((run (s.startEntry c q i e (.running 0))).1.core c).arr a := by
  simp [State.runEntry]

theorem State.issuing_open {f : State → State} (h : s.mayIssue c = true) : s.issuing c f = f (s.noteIssue c) := if_pos h

theorem State.noteIssue_sameAround (s : State) (c : Nat) : sameAround s (s.noteIssue c) := by simp [sameAround]

end

/-! ## What the arrays' work leaves of the module -/

section
variable (s : State) (c a : Nat) (e : QEntry)

theorem State.event_sameModule (ev n : Nat) : sameModule s (s.event c ev n) := by simp [sameModule, sameAround]

theorem State.passEvents_sameModule (om on : OpRef) (k rows cols : Nat) :
    sameModule s (s.passEvents c a om on k rows cols) := by simp [sameModule, sameAround]

theorem State.passWork_sameModule (om on : OpRef) (k rows cols : Nat) (bank fold : Bool) (slot : Nat) :
    sameModule s (s.passWork c a om on k rows cols bank fold slot).1 := by simp [sameModule, sameAround]

theorem State.frontWork_sameModule (d : Option Drain) (bank swap : Bool) (pre rows cols tileNo : Nat) (addr : Option Loc)
    (axis : Bool) : sameModule s (s.frontWork c a e d bank swap pre rows cols tileNo addr axis).1 := by
  simp [sameModule, sameAround]

theorem State.slotWork_sameModule (d : Drain) (slot rows cols tileNo : Nat) (bias : Option Loc) :
    sameModule s (s.slotWork c a e d slot rows cols tileNo bias).1 := by simp [sameModule, sameAround]

theorem State.cirrusWork_sameModule (sh : Nat) (led : Ledger) (om on : OpRef) (k rows cols : Nat) (bank : Bool) (d : Drain)
    (bias : Option Loc) (repeats : Bool) (flag tileNo : Nat) (ol : Option Outlier) :
    sameModule s (s.cirrusWork c a sh e led om on k rows cols bank d bias repeats flag tileNo ol).1 := by
  simp [sameModule, sameAround]

end

/-! ## PASS -/

section
variable {s : State} {l a c i : Nat} {e : QEntry} {om on : OpRef} {k rows cols : Nat} {bank fold : Bool} {slot : Nat}

/-- The array after a pass over operands from `src`: the products in the bank, or folded with it into the slot (R105, R131). -/
def Arr.pass (x : Arr) (src : OpSource) (om on : OpRef) (k rows cols : Nat) (bank fold : Bool) (slot : Nat) : Arr :=
  let sum := passTile (x.bank bank).tile (om.values src true rows k) (on.values src false cols k)
  if fold then (x.setBank bank { x.bank bank with tile := [] }).setSlot slot (foldTile (x.slot slot) sum)
  else x.setBank bank { x.bank bank with tile := sum }

theorem State.passWork_arr (s : State) :
    ((s.passWork c a om on k rows cols bank fold slot).1.core c).arr a =
      ((s.core c).arr a).pass (s.core c).source om on k rows cols bank fold slot := by
  simp [State.passWork, Arr.pass]

theorem State.passWork_outcome (s : State) :
    (s.passWork c a om on k rows cols bank fold slot).2 = .good ((specialCount (om.values (s.core c).source true rows k)).add
      (specialCount (on.values (s.core c).source false cols k))) := rfl

/-- What a PASS counts before it starts: the core's issue, and the pass's events. -/
def State.passIssued (s : State) (c a : Nat) (om on : OpRef) (k rows cols : Nat) (fold : Bool) : State :=
  ((s.noteIssue c).passEvents c a om on k rows cols).event c 0x0203 (b2n fold)

theorem State.passIssued_sameAround : sameAround s (s.passIssued c a om on k rows cols fold) :=
  sameAround_trans (s.noteIssue_sameAround c) (sameAround_trans (State.passEvents_sameModule ..).1 (State.event_sameModule ..).1)

theorem State.passIssued_entry (q j : Nat) : entry (s.passIssued c a om on k rows cols fold) c q j = entry s c q j :=
  entry_of_queues (by simp [State.passIssued]) q j

@[simp] theorem State.passIssued_arr (s : State) (b : Nat) :
    ((s.passIssued c a om on k rows cols fold).core c).arr b = (s.core c).arr b := by
  simp [State.passIssued]

@[simp] theorem State.passIssued_source (s : State) :
    ((s.passIssued c a om on k rows cols fold).core c).source = (s.core c).source := by
  simp [State.passIssued]

theorem State.doPass_runs (h : starts s l a c i e) (ho : e.op = .pass om on k rows cols bank fold slot)
    (hm : s.mayIssue c = true) (hf : fold = true → foldsActive ((s.core c).queue a) < 8) :
    s.doPass l a = (s.passIssued c a om on k rows cols fold).runEntry c a i e
      (fun s1 => s1.passWork c a om on k rows cols bank fold slot) := by
  have hroom : ¬ (fold && decide (8 ≤ foldsActive ((s.core c).queue a))) = true := by simpa using hf
  simp only [State.doPass, h.2, ho, if_neg hroom, State.issuing_open hm, State.passIssued]

end

/-! ## FRONT and PRELOAD_STAGING -/

section
variable {s : State} {l a c i : Nat} {e : QEntry} {bank swap : Bool} {rows cols tileNo : Nat} {axis : Bool}

/-- What a FRONT counts before it starts. -/
def State.frontIssued (s : State) (c : Nat) : State := (s.noteIssue c).event c 0x0202 1

theorem State.frontIssued_sameAround : sameAround s (s.frontIssued c) :=
  sameAround_trans (s.noteIssue_sameAround c) (State.event_sameModule ..).1

theorem State.frontIssued_entry (q j : Nat) : entry (s.frontIssued c) c q j = entry s c q j :=
  entry_of_queues (by simp [State.frontIssued]) q j

@[simp] theorem State.frontIssued_arr (s : State) (c b : Nat) : ((s.frontIssued c).core c).arr b = (s.core c).arr b := by
  simp [State.frontIssued]

theorem State.doFront_runs {d : Option Drain} {pre : Nat} {addr : Option Loc} (h : starts s l a c i e)
    (ho : e.op = .front d bank swap pre rows cols tileNo addr axis) (hm : s.mayIssue c = true)
    (hd : d.isSome = true → drainsActive ((s.core c).queue a) < 2) (hp : pre = 2 → ((s.core c).arr a).staged.isSome = true) :
    s.doFront l a = (s.frontIssued c).runEntry c a i e
      (fun s1 => s1.frontWork c a e d bank swap pre rows cols tileNo addr axis) := by
  have hwait : ¬ ((d.isSome && decide (2 ≤ drainsActive ((s.core c).queue a))) ||
      (pre == 2 && ((s.core c).arr a).staged.isNone)) = true := by
    simp only [Bool.or_eq_true, Bool.and_eq_true, decide_eq_true_eq, beq_iff_eq, Option.isNone_iff_eq_none]
    rintro (⟨h1, h2⟩ | ⟨h1, h2⟩)
    · exact absurd (hd h1) (by omega)
    · simp [h2] at hp
      exact hp h1
  simp only [State.doFront, h.2, ho, if_neg hwait, State.issuing_open hm, State.frontIssued]

theorem State.doStaging_stages {d : Option Drain} {addr : Loc} {u : State} {bs : Bytes} (h : starts s l a c i e)
    (ho : e.op = .front d bank swap 2 rows cols tileNo (some addr) axis) (hs : ((s.core c).arr a).staged = none)
    (hr : s.locRead (s.partOfPhys c) addr 32768 = (u, .ok bs)) :
    s.doStaging l a = u.setCore c (((u.core c).setArr a { (u.core c).arr a with staged := some (tileOfW128 bs).1 }).modEntry a i
      (fun z => { z with led := (tileOfW128 bs).2 })) := by
  simp only [State.doStaging, h.2, ho, hs, hr]
  rfl

end

/-! ## SLOTDRAIN -/

theorem State.doSlotDrain_runs {s : State} {l a c i slot rows cols tileNo : Nat} {e : QEntry} {d : Drain} {bias : Option Loc}
    (h : starts s l a c i e) (ho : e.op = .slotdrain d slot rows cols tileNo bias)
    (hd : drainsActive ((s.core c).queue a) < 2) :
    s.doSlotDrain l a = s.runEntry c a i e (fun s1 => s1.slotWork c a e d slot rows cols tileNo bias) := by
  simp only [State.doSlotDrain, h.2, ho, if_neg (Nat.not_le.mpr hd)]

/-! ## CIRRUS -/

section
variable {s u : State} {l a c i : Nat} {e : QEntry} {om on : OpRef} {k rows cols : Nat} {bank : Bool} {d : Drain}
  {bias : Option Loc} {repeats : Bool} {flag tileNo : Nat} {ol : Option Outlier}

/-- One cirrus pass on array `a` and the phase it leaves its record in (R87, R89). -/
def State.cirrusRun (s : State) (c a i sh : Nat) (e : QEntry) (led : Ledger) (om on : OpRef) (k rows cols : Nat) (bank : Bool)
    (d : Drain) (bias : Option Loc) (repeats : Bool) (flag tileNo : Nat) (ol : Option Outlier) : State :=
  let r := s.cirrusWork c a sh e led om on k rows cols bank d bias repeats flag tileNo ol
  r.1.setPhase c a i r.2

theorem State.cirrusRun_sameModule {sh : Nat} {led : Ledger} :
    sameModule s (s.cirrusRun c a i sh e led om on k rows cols bank d bias repeats flag tileNo ol) := by
  refine sameModule_trans (State.cirrusWork_sameModule s c a e sh led om on k rows cols bank d bias repeats flag tileNo ol) ?_
  simp [State.cirrusRun, sameModule, sameAround]

/-- A cirrus pass changes of its record the phase alone, and its record waits no more. -/
theorem State.cirrusRun_entry {sh : Nat} {led : Ledger} {e0 : QEntry} (h : entry s c a i = some e0) :
    ∃ ph, ph ≠ .waiting ∧
      entry (s.cirrusRun c a i sh e led om on k rows cols bank d bias repeats flag tileNo ol) c a i = some { e0 with phase := ph } := by
  refine ⟨_, State.cirrusWork_phase s c a sh e led om on k rows cols bank d bias repeats flag tileNo ol, ?_⟩
  rw [State.cirrusRun, State.setPhase_entry, entry_of_queues (State.cirrusWork_queues ..), h]
  rfl

theorem State.doCirrus_runs (h : starts s l a c i e)
    (ho : e.op = .cirrus om on k rows cols bank d bias repeats flag tileNo ol) (hm : s.mayIssue c = true) :
    s.doCirrus l a = ((s.noteIssue c).startEntry c a i e (.running 0)).cirrusRun c a i 0 e {} om on k rows cols bank d bias
      repeats flag tileNo ol := by
  simp only [State.doCirrus, h.2, ho, State.issuing_open hm, State.cirrusRun]

end

/-! ## What each array command leaves of its record, its array and the module -/

section
variable {s : State} {l a c i : Nat} {e : QEntry}

/-- PASS adds its products to the bank, or folds it into the slot (R105, R131). -/
theorem doPass_spec {om on : OpRef} {k rows cols slot : Nat} {bank fold : Bool} (h : starts s l a c i e)
    (ho : e.op = .pass om on k rows cols bank fold slot) (hm : s.mayIssue c = true)
    (hf : fold = true → foldsActive ((s.core c).queue a) < 8) :
    sameAround s (s.doPass l a) ∧
      entry (s.doPass l a) c a i = some { e with phase := .done Code.ok ((specialCount (om.values (s.core c).source true rows k)).add
        (specialCount (on.values (s.core c).source false cols k))) 0 0 } ∧
      ((s.doPass l a).core c).arr a = ((s.core c).arr a).pass (s.core c).source om on k rows cols bank fold slot := by
  rw [State.doPass_runs h ho hm hf]
  refine ⟨?_, ?_, ?_⟩
  · exact sameAround_trans State.passIssued_sameAround
      (State.runEntry_sameModule _ _ _ _ _ (fun u => u.passWork_sameModule c a om on k rows cols bank fold slot)).1
  · rw [State.runEntry_entry ((State.passIssued_entry a i).trans (starts_entry h)) (fun _ => State.passWork_queues ..),
      State.passWork_outcome]
    simp [Outcome.phase, Outcome.good]
  · simp [State.runEntry_arr, State.passWork_arr]

/-- FRONT frees the staging buffer and exchanges the bank names when asked (R111, R112, R116). -/
theorem doFront_spec {d : Option Drain} {bank swap axis : Bool} {pre rows cols tileNo : Nat} {addr : Option Loc}
    (h : starts s l a c i e) (ho : e.op = .front d bank swap pre rows cols tileNo addr axis) (hm : s.mayIssue c = true)
    (hd : d.isSome = true → drainsActive ((s.core c).queue a) < 2) (hp : pre = 2 → ((s.core c).arr a).staged.isSome = true) :
    (∃ o : Outcome, entry (s.doFront l a) c a i = some { e with phase := o.phase }) ∧ sameAround s (s.doFront l a) ∧
      (((s.doFront l a).core c).arr a).staged = none ∧
      (((s.doFront l a).core c).arr a).map = (((s.core c).arr a).map ^^ swap) ∧
      (((s.doFront l a).core c).arr a).slots = ((s.core c).arr a).slots := by
  rw [State.doFront_runs h ho hm hd hp]
  refine ⟨?_, ?_, ?_⟩
  · exact ⟨_, State.runEntry_entry ((State.frontIssued_entry a i).trans (starts_entry h)) (fun _ => State.frontWork_queues ..)⟩
  · exact sameAround_trans State.frontIssued_sameAround
      (State.runEntry_sameModule _ _ _ _ _ (fun u => u.frontWork_sameModule c a e d bank swap pre rows cols tileNo addr axis)).1
  · rw [State.runEntry_arr]
    have harr := ((s.frontIssued c).startEntry c a i e (.running 0)).frontWork_arr c a e d bank swap pre rows cols tileNo addr axis
    simpa using harr

/-- SLOTDRAIN leaves its slot empty (R136). -/
theorem doSlotDrain_spec {d : Drain} {slot rows cols tileNo : Nat} {bias : Option Loc} (h : starts s l a c i e)
    (ho : e.op = .slotdrain d slot rows cols tileNo bias) (hd : drainsActive ((s.core c).queue a) < 2) :
    (∃ o : Outcome, entry (s.doSlotDrain l a) c a i = some { e with phase := o.phase }) ∧ sameModule s (s.doSlotDrain l a) ∧
      ((s.doSlotDrain l a).core c).arr a = ((s.core c).arr a).setSlot slot [] := by
  rw [State.doSlotDrain_runs h ho hd]
  refine ⟨?_, ?_, ?_⟩
  · exact ⟨_, State.runEntry_entry (starts_entry h) (fun _ => State.slotWork_queues ..)⟩
  · exact State.runEntry_sameModule _ _ _ _ _ (fun u => u.slotWork_sameModule c a e d slot rows cols tileNo bias)
  · rw [State.runEntry_arr, State.slotWork_arr, State.startEntry_arr]

/-- CIRRUS runs its first pass (R87). -/
theorem doCirrus_spec {om on : OpRef} {k rows cols : Nat} {bank : Bool} {d : Drain} {bias : Option Loc} {repeats : Bool}
    {flag tileNo : Nat} {ol : Option Outlier} (h : starts s l a c i e)
    (ho : e.op = .cirrus om on k rows cols bank d bias repeats flag tileNo ol) (hm : s.mayIssue c = true) :
    sameAround s (s.doCirrus l a) ∧ ∃ ph, ph ≠ .waiting ∧ entry (s.doCirrus l a) c a i = some { e with phase := ph } := by
  rw [State.doCirrus_runs h ho hm]
  refine ⟨?_, State.cirrusRun_entry (e0 := { e with phase := .running 0 }) ?_⟩
  · refine sameAround_trans (s.noteIssue_sameAround c) (sameAround_trans ?_ State.cirrusRun_sameModule.1)
    simp [sameAround]
  · exact State.startEntry_entry _ ((entry_of_queues (by simp) a i).trans (starts_entry h)) (by simp)

/-- PRELOAD_STAGING reads the front's tile (R116). -/
theorem doStaging_spec {d : Option Drain} {bank swap axis : Bool} {rows cols tileNo : Nat} {addr : Loc} {u : State} {bs : Bytes}
    (h : starts s l a c i e) (ho : e.op = .front d bank swap 2 rows cols tileNo (some addr) axis)
    (hs : ((s.core c).arr a).staged = none) (hr : s.locRead (s.partOfPhys c) addr 32768 = (u, .ok bs)) :
    sameModule s (s.doStaging l a) ∧
      ((s.doStaging l a).core c).arr a = { (s.core c).arr a with staged := some (tileOfW128 bs).1 } ∧
      entry (s.doStaging l a) c a i = some { e with led := (tileOfW128 bs).2 } := by
  have hu : u = (s.locRead (s.partOfPhys c) addr 32768).1 := by rw [hr]
  have hcore : u.core c = s.core c := by rw [hu, State.locRead_core]
  rw [State.doStaging_stages h ho hs hr, hcore]
  refine ⟨?_, ?_, ?_⟩
  · simp [hu, sameModule, sameAround]
  · rw [State.core_setCore]
    exact Core.arr_setArr _ _ _
  · simp only [entry, State.core_setCore, Core.modEntry_entry]
    rw [Core.queue, Core.setArr_queues]
    exact congrArg (Option.map _) (starts_entry h)

end

/-- Settles O4: each array command runs its record by the work of its engine, whose frame and effect on the array are known. -/
theorem arrayRecords : Obligations.ArrayRecords := by
  intro s l a c i e h x done
  refine ⟨fun om on k rows cols bank fold slot ho hm hf => ?_, fun d bank swap pre rows cols tileNo addr axis ho hm hd hp => ?_,
    fun d slot rows cols tileNo bias ho hd => ?_, fun om on k rows cols bank d bias repeats flag tileNo ol ho hm => ?_,
    fun d bank swap rows cols tileNo addr axis u bs ho hs hr => ?_⟩
  · exact ⟨_, engine_next h.1, doPass_spec h ho hm hf⟩
  · obtain ⟨⟨o, hdone⟩, hrest⟩ := doFront_spec h ho hm hd hp
    exact ⟨_, engine_next h.1, ⟨_, _, _, _, hdone⟩, hrest⟩
  · obtain ⟨⟨o, hdone⟩, hrest⟩ := doSlotDrain_spec h ho hd
    exact ⟨_, engine_next h.1, ⟨_, _, _, _, hdone⟩, hrest⟩
  · obtain ⟨hframe, ph, hph, hentry⟩ := doCirrus_spec h ho hm
    exact ⟨_, ph, engine_next h.1, hentry, hph, hframe⟩
  · exact ⟨_, engine_next h.1, doStaging_spec h ho hs hr⟩

end Sys2Proof.Machine
end

