-- ==== Sys2Proof/Proofs/VectorAndDmaRecords.lean ====
section
/-! SUPPORT. How the vector queue, the DMA queue and a repeated cirrus record run (R89, R152, R160, R190, R225, R237). -/

namespace Sys2Proof.Machine

open Sys2Proof.Safety

section
variable {s : State} {l c i : Nat} {e : QEntry}

/-! ## LAUNCH and QUANT -/

theorem State.doLaunch_launches {loc : Loc} {th : Nat} {args : List Nat} (h : starts s l 2 c i e) (ho : e.op = .launch loc th args)
    (hf : th ≤ (s.core c).freeThreads.length) :
    s.doLaunch l = (s.startEntry c 2 i e (.running 0)).setCore c (((s.startEntry c 2 i e (.running 0)).core c).launch e loc th args) := by
  simp only [State.doLaunch, h.2, ho, if_neg (Nat.not_lt.mpr hf)]

/-- LAUNCH starts the lowest free threads (R152). -/
theorem doLaunch_spec {loc : Loc} {th : Nat} {args : List Nat} (h : starts s l 2 c i e) (ho : e.op = .launch loc th args)
    (hf : th ≤ (s.core c).freeThreads.length) :
    sameModule s (s.doLaunch l) ∧ entry (s.doLaunch l) c 2 i = some { e with phase := .running 0 } ∧
      ((s.doLaunch l).core c).threads = ((s.core c).launch e loc th args).threads := by
  rw [State.doLaunch_launches h ho hf]
  refine ⟨by simp [sameModule, sameAround], ?_, ?_⟩
  · rw [entry_setCore _ _ _ _ _ _ (Core.launch_queues _ _ _ _ _), State.startEntry_entry _ (starts_entry h) (by simp)]
  · rw [State.core_setCore]
    exact Core.launch_threads (State.startEntry_threads _ _ _ _ _ _ _) _ _ _ _

theorem State.doQuant_runs {q : QuantOp} (h : starts s l 2 c i e) (ho : e.op = .quant q) (hf : (s.core c).freeThreads ≠ []) :
    s.doQuant l = s.runEntry c 2 i e (fun s1 => s1.quantWork c e q) := by
  simp only [State.doQuant, h.2, ho, if_neg hf]

theorem State.quantWork_sameModule (s : State) (c : Nat) (e : QEntry) (q : QuantOp) : sameModule s (s.quantWork c e q).1 := by
  simp [sameModule, sameAround]

/-- QUANT runs to an outcome (R160, R190). -/
theorem doQuant_spec {q : QuantOp} (h : starts s l 2 c i e) (ho : e.op = .quant q) (hf : (s.core c).freeThreads ≠ []) :
    sameModule s (s.doQuant l) ∧ ∃ o : Outcome, entry (s.doQuant l) c 2 i = some { e with phase := o.phase } := by
  rw [State.doQuant_runs h ho hf]
  exact ⟨State.runEntry_sameModule _ _ _ _ _ (fun u => u.quantWork_sameModule c e q),
    _, State.runEntry_entry (starts_entry h) (fun _ => State.quantWork_queues ..)⟩

/-! ## DMA and BDMA -/

theorem State.startOnChannel_free {ch : Chan} {x : Chn} {r : ChRun} (hx : channelIs s ch x) (hr : x.run = none) (hd : x.redo = none)
    (hl : x.latch = none) :
    s.startOnChannel c i e ch r =
      (s.startEntry c 3 i e (.running 0)).setChn ch { (s.startEntry c 3 i e (.running 0)).chn ch with run := some r } := by
  simp [State.startOnChannel, channelIs_chn hx, hr, hd, hl]

/-- A record that starts leaves every channel as it is. -/
theorem channelIs_startEntry {ch : Chan} {x : Chn} (q : Nat) (ph : Phase) (h : channelIs s ch x) :
    channelIs (s.startEntry c q i e ph) ch x := by
  cases ch with
  | core l n =>
    obtain ⟨d, hp, hn⟩ := h
    exact ⟨d, (State.startEntry_physOf ..).trans hp, by rwa [State.startEntry_chans]⟩
  | bulk b n =>
    have h : (s.bdie b)[n]? = some x := h
    show ((s.startEntry c q i e ph).bdie b)[n]? = some x
    simpa [State.bdie] using h

/-- A record that finds its channel free gives it the run and stays running (R195, R237). -/
theorem startOnChannel_spec {ch : Chan} {x : Chn} {r : ChRun} (he : entry s c 3 i = some e) (hx : channelIs s ch x)
    (hr : x.run = none) (hd : x.redo = none) (hl : x.latch = none) :
    entry (s.startOnChannel c i e ch r) c 3 i = some { e with phase := .running 0 } ∧
      channelIs (s.startOnChannel c i e ch r) ch { x with run := some r } := by
  have hstart := channelIs_startEntry (c := c) (i := i) (e := e) 3 (.running 0) hx
  rw [State.startOnChannel_free hx hr hd hl, channelIs_chn hstart]
  refine ⟨?_, channelIs_setChn _ hstart⟩
  rw [entry_of_queues (setChn_seq _ _ _ _).2.1, State.startEntry_entry _ he (by simp)]

theorem startOnChannel_core_sameModule {n : Nat} {r : ChRun} : sameModule s (s.startOnChannel c i e (.core l n) r) := by
  have hb : (s.startOnChannel c i e (.core l n) r).bdies = s.bdies := by
    unfold State.startOnChannel
    (repeat' split) <;> simp [State.setChn]
  simp [sameModule, sameAround, hb]

theorem State.doDma_starts {n count : Nat} {list : Loc} {sa da : Int} {sv : List Nat} {pairs : List (Nat × Nat)}
    (h : starts s l 3 c i e) (ho : e.op = .dma n count list sa da sv pairs) :
    s.doDma l = s.startOnChannel c i e (.core l n) (newRun c e 0xFF count list sa da sv pairs) := by
  simp only [State.doDma, h.2, ho]

theorem State.doBdma_starts {b n port count : Nat} {list : Loc} {sa da : Int} {sv : List Nat} {pairs : List (Nat × Nat)}
    (h : starts s l 3 c i e) (ho : e.op = .bdma b n port count list sa da sv pairs) :
    s.doBdma l = s.startOnChannel c i e (.bulk b n) (newRun c e port count list sa da sv pairs) := by
  simp only [State.doBdma, h.2, ho]

/-- DMA gives a core channel its run (R191, R225). -/
theorem doDma_spec {n count : Nat} {list : Loc} {sa da : Int} {sv : List Nat} {pairs : List (Nat × Nat)}
    (h : starts s l 3 c i e) (ho : e.op = .dma n count list sa da sv pairs) (hn : n < (s.core c).chans.length)
    (hr : ((s.core c).chans.getD n .reset).run = none) (hd : ((s.core c).chans.getD n .reset).redo = none)
    (hl : ((s.core c).chans.getD n .reset).latch = none) :
    sameModule s (s.doDma l) ∧ entry (s.doDma l) c 3 i = some { e with phase := .running 0 } ∧
      (((s.doDma l).core c).chans.getD n .reset).run = some (newRun c e 0xFF count list sa da sv pairs) := by
  have hx : channelIs s (.core l n) ((s.core c).chans.getD n .reset) := ⟨c, starts_physOf h, by simp [hn]⟩
  rw [State.doDma_starts h ho]
  obtain ⟨hentry, c', hphys, hchan⟩ := startOnChannel_spec (r := newRun c e 0xFF count list sa da sv pairs) (starts_entry h) hx hr hd hl
  have hc : c' = c := by
    have hp := starts_physOf h
    simp only [State.physOf, State.startOnChannel_frame] at hphys hp
    exact Option.some.inj (hphys.symm.trans hp)
  rw [hc] at hchan
  refine ⟨startOnChannel_core_sameModule, hentry, ?_⟩
  simp only [List.getD_eq_getElem?_getD, hchan, Option.getD_some]

/-- BDMA gives a bulk channel its run (R191, R227). -/
theorem doBdma_spec {b n port count : Nat} {list : Loc} {sa da : Int} {sv : List Nat} {pairs : List (Nat × Nat)}
    (h : starts s l 3 c i e) (ho : e.op = .bdma b n port count list sa da sv pairs) (hn : n < (s.bdie b).length)
    (hr : ((s.bdie b).getD n .reset).run = none) (hd : ((s.bdie b).getD n .reset).redo = none)
    (hl : ((s.bdie b).getD n .reset).latch = none) :
    entry (s.doBdma l) c 3 i = some { e with phase := .running 0 } ∧ (s.doBdma l).mmc = s.mmc ∧ (s.doBdma l).gov = s.gov ∧
      (((s.doBdma l).bdie b).getD n .reset).run = some (newRun c e port count list sa da sv pairs) := by
  have hx : channelIs s (.bulk b n) ((s.bdie b).getD n .reset) := by
    simp [channelIs, hn]
  rw [State.doBdma_starts h ho]
  obtain ⟨hentry, hchan⟩ := startOnChannel_spec (r := newRun c e port count list sa da sv pairs) (starts_entry h) hx hr hd hl
  exact ⟨hentry, by simp, by simp, congrArg Chn.run (channelIs_chn hchan)⟩

/-! ## CIRRUS_REPEAT -/

section
variable {a sh : Nat} {om on : OpRef} {k rows cols : Nat} {bank : Bool} {d : Drain} {bias : Option Loc} {repeats : Bool}
  {flag tileNo : Nat} {ol : Option Outlier}

theorem State.doCirrusRepeat_runs (hp : s.physOf l = some c) (hm : s.mayIssue c = true)
    (hr : findRunning 0 ((s.core c).queue a) = some (i, e, sh)) (ho : e.op = .cirrus om on k rows cols bank d bias repeats flag tileNo ol) :
    s.doCirrusRepeat l a = ((s.noteIssue c).event c 0x0204 1).cirrusRun c a i sh e (cirrusCarry sh) om on k rows cols bank d bias
      repeats flag tileNo ol := by
  simp only [State.doCirrusRepeat, hp, hr, ho, State.issuing_open hm, State.cirrusRun]

/-- CIRRUS_REPEAT runs the saturated record again (R89). -/
theorem doCirrusRepeat_spec (hp : s.physOf l = some c) (hm : s.mayIssue c = true)
    (hr : findRunning 0 ((s.core c).queue a) = some (i, e, sh)) (ho : e.op = .cirrus om on k rows cols bank d bias repeats flag tileNo ol)
    (he : entry s c a i = some e) :
    sameAround s (s.doCirrusRepeat l a) ∧
      ∃ ph, ph ≠ .waiting ∧ entry (s.doCirrusRepeat l a) c a i = some { e with phase := ph } := by
  rw [State.doCirrusRepeat_runs hp hm hr ho]
  refine ⟨?_, State.cirrusRun_entry ((entry_of_queues (by simp) a i).trans he)⟩
  exact sameAround_trans (s.noteIssue_sameAround c)
    (sameAround_trans (State.event_sameModule ..).1 State.cirrusRun_sameModule.1)

end

end

/-- Settles O5: each command runs its record by the work of its engine or on its channel, which the clauses describe. -/
theorem vectorAndDmaRecords : Obligations.VectorAndDmaRecords := by
  intro s l c i e
  refine ⟨fun loc th args h ho hf => ?_, fun q h ho hf => ?_, fun n count list sa da sv pairs h ho hn hr hd hl => ?_,
    fun b n port count list sa da sv pairs h ho hn hr hd hl => ?_,
    fun a sh om on k rows cols bank d bias repeats flag tileNo ol hheld hp hm hr ho he => ?_⟩
  · exact ⟨_, engine_next h.1, doLaunch_spec h ho hf⟩
  · obtain ⟨hmod, o, hdone⟩ := doQuant_spec h ho hf
    exact ⟨_, engine_next h.1, hmod, _, _, _, _, hdone⟩
  · exact ⟨_, engine_next h.1, doDma_spec h ho hn hr hd hl⟩
  · exact ⟨_, engine_next h.1, doBdma_spec h ho hn hr hd hl⟩
  · obtain ⟨hframe, ph, hph, hentry⟩ := doCirrusRepeat_spec hp hm hr ho he
    exact ⟨_, ph, engine_next hheld, hframe, hph, hentry⟩

end Sys2Proof.Machine
end

