-- ==== Sys2Proof/Proofs/PackersAndRanges.lean ====
section
/-! SUPPORT. What PACK, UNPACK, RANGE and the matrix-vector instructions leave once their word is fetched (R150, R151, R161,
R223). -/

namespace Sys2Proof.Machine

open Sys2Proof.Safety

section
variable {s u : State} {l n op : Nat} {x : KCtx}

/-- A kernel command whose instruction, memory accesses and all, leaves the engines and lets its thread go on. -/
theorem engine_kernel_advance {run : State → KCtx → KOut} (h : fetches s l n op u x)
    (hE : ∀ d, ((run u x).st.core d).engines = (u.core d).engines) (hM : sameModule u (run u x).st)
    (ha : (run u x).act = .advance) :
    ran s (s.engine (fun s => s.kernel l n op run)) x.c n
      (advanced ((s.core x.c).thread n)
        ((run u x).regs.foldl (fun acc e => SMap.set 0 e.1 e.2 acc) ((s.core x.c).thread n).regs)) (run u x).led := by
  rw [State.engine_open _ h.1, State.kernel_fetched h]
  exact KOut.finish_advance h hE hM ha

theorem kPack_sameModule (u : State) (x : KCtx) : sameModule u (kPack u x).st := by simp [sameModule, sameAround]

theorem kUnpack_sameModule (u : State) (x : KCtx) : sameModule u (kUnpack u x).st := by simp [sameModule, sameAround]

theorem kMv_sameModule (u : State) (x : KCtx) : sameModule u (kMv u x).st := by simp [sameModule, sameAround]

/-- A pack whose accesses all succeed moves its thread on with its registers as they were. -/
theorem engine_kernel_pack (h : fetches s l n op u x) (ha : (kPack u x).act = .advance) :
    ran s (s.engine (fun s => s.kernel l n op kPack)) x.c n
      (advanced ((s.core x.c).thread n) ((s.core x.c).thread n).regs) (kPack u x).led := by
  obtain ⟨hE, hregs⟩ := kPack_engines u x
  have hrun := engine_kernel_advance h hE (kPack_sameModule u x) ha
  rwa [hregs] at hrun

theorem regValues_fetched (h : fetches s l n op u x) (first count : Nat) (f : FloatFmt) :
    regValues u x first count f = regValues s x first count f := by
  simp [regValues, fetches_reg h]

theorem kRange_write {f : FloatFmt} (h : fetches s l n op u x) (hf : typeFloat x.w.type = some f)
    (hv : x.w.va + bits x.w.imm 0 2 ≤ 31) :
    let vs := regValues s x x.w.va (bits x.w.imm 0 2) f
    let old := x.reg s x.w.vd
    let r := rangeOf (if bit x.w.imm 2 then vs else fp32Val (old.lane 32 0) :: fp32Val (old.lane 32 1) :: vs)
    kRange u x = .write u x.w.vd
      (old.putLanes 32 0 [toFp32 r.1, toFp32 r.2], { specialIn := vs.countP FVal.isSpecial }) := by
  simp [kRange, hf, hv, fetches_reg h, regValues_fetched h]

/-- A matrix-vector instruction uses up one free value of the state and writes one to VD (log 5). -/
theorem kMv_write (u : State) (x : KCtx) : ∃ r, kMv u x = .write u.fresh.2 x.w.vd (r, {}) := ⟨_, rfl⟩

theorem engine_kernel_mv (h : fetches s l n op u x) :
    ∃ r, ran s (s.engine (fun s => s.kernel l n op kMv)) x.c n
      (advanced ((s.core x.c).thread n) (SMap.set 0 x.w.vd r ((s.core x.c).thread n).regs)) {} := by
  obtain ⟨r, hr⟩ := kMv_write u x
  have hrun := engine_kernel_advance h (fun d => by simp [State.core]) (kMv_sameModule u x) (by rw [hr]; rfl)
  rw [hr] at hrun
  exact ⟨r, hrun⟩

end

/-- Settles O12: the packers leave every engine as it was, RANGE only writes VD, and the matrix-vector forms write a free value. -/
theorem packersAndRanges : Obligations.PackersAndRanges := by
  intro s u l n x
  refine ⟨fun f mode h hf hm hv hp => ?_, fun h ha => ?_, fun f h hf hv => ?_, fun h => ?_, fun h => ?_⟩
  · have ha : (kPack u x).act = .advance := hp.elim (kPack_gtb hf hm hv) id
    exact ⟨_, _, rfl, engine_kernel_pack h ha⟩
  · obtain ⟨hE, hregs⟩ := kUnpack_engines u x
    exact ⟨_, _, _, rfl, engine_kernel_advance h hE (kUnpack_sameModule u x) ha, hregs _⟩
  · have hrun := engine_kernel_write h (kRange_write h hf hv)
    exact ⟨_, rfl, hrun⟩
  · obtain ⟨r, hrun⟩ := engine_kernel_mv h
    exact ⟨_, r, rfl, hrun⟩
  · obtain ⟨r, hrun⟩ := engine_kernel_mv h
    exact ⟨_, r, rfl, hrun⟩

end Sys2Proof.Machine
end

