-- ==== Sys2Proof/Proofs/LoopsAndBranches.lean ====
section
/-! SUPPORT. What LOOP, ENDLOOP and BRANCH_MISFIT do to the sequencer (R172, R207, R208, R209). -/

namespace Sys2Proof.Machine

open Sys2Proof.Safety

section
variable {s : State} {l c : Nat} {r : Rec}

/-- A record that the sequencer decodes is not the stream's last. -/
theorem decodes_next {op : Nat} (h : decodes s l op c r) : (s.core c).seq.pos + 1 < (s.core c).seq.len := by
  obtain ⟨-, -, -, -, -, -, -, -, -, hnext⟩ := h
  exact hnext

/-! ## Loops -/

/-- The count that a LOOP record latches (R207). -/
def Seq.loopCount (q : Seq) (r : Rec) : Nat :=
  if bit (u8 r.main 16) 0 then q.sv.getD (bits (u8 r.main 16) 4 4) 0 % 2 ^ 32 else u32 r.main 20

/-- The position of the ENDLOOP that a LOOP record names (R207). -/
def Seq.loopTarget (q : Seq) (r : Rec) : Nat := q.pos + u32 r.main 24 - 1

/-- A LOOP whose loop is well formed: its nesting, its length, and the ENDLOOP that it names (R208). -/
def State.loopOk (s : State) (c : Nat) (r : Rec) : Prop :=
  (s.core c).seq.loops.length < 4 ∧ 2 ≤ u32 r.main 24 ∧ (s.core c).seq.loopTarget r < (s.core c).seq.len ∧
    u8 (s.lookRec c ((s.core c).seq.loopTarget r)) 0 = 0x41

/-- A well-formed LOOP passes the checks of R208, and its count decides. -/
theorem runLoop_ok (h : s.loopOk c r) :
    runLoop s c r = if (s.core c).seq.loopCount r = 0 then .ok (s, (s.core c).seq.loopTarget r + 1) else
      .ok (s.modSeq c (fun q => { q with loops := ⟨q.pos, (s.core c).seq.loopTarget r, (s.core c).seq.loopCount r⟩ :: q.loops }),
        (s.core c).seq.pos + 1) := by
  obtain ⟨hdepth, hskip, htarget, hend⟩ := h
  have hok : ¬ (u32 r.main 24 < 2 ∨ (s.core c).seq.len ≤ (s.core c).seq.loopTarget r ∨
      u8 (s.lookRec c ((s.core c).seq.loopTarget r)) 0 ≠ 0x41) := by
    simp only [hend, ne_eq, not_true_eq_false, or_false]
    omega
  exact (if_neg (Nat.not_le.mpr hdepth)).trans (if_neg hok)

/-- The ENDLOOP of the innermost loop goes back while runs are left, and closes the loop otherwise. -/
theorem runEndLoop_innermost {f : LoopFrame} {fs : List LoopFrame} (hl : (s.core c).seq.loops = f :: fs)
    (ht : f.target = (s.core c).seq.pos) :
    runEndLoop s c r = if 1 < f.left then
        .ok (s.modSeq c (fun q => { q with loops := { f with left := f.left - 1 } :: fs }), f.start + 1)
      else .ok (s.modSeq c (fun q => { q with loops := fs }), (s.core c).seq.pos + 1) := by
  simp only [runEndLoop, hl, ht, ne_eq, not_true_eq_false, if_false]

/-! ## Branches -/

/-- The records of the variant that a BRANCH_MISFIT stands before (R172). -/
def State.variant (s : State) (c : Nat) (r : Rec) : List Bytes :=
  (List.range (u8 r.main 17)).map (fun i => s.lookRec c ((s.core c).seq.pos + 1 + i))

/-- A BRANCH_MISFIT whose variant has records, lies within the stream and holds only matched loops (R208, R209). -/
def State.branchOk (s : State) (c : Nat) (r : Rec) : Prop :=
  u8 r.main 17 ≠ 0 ∧ (s.core c).seq.pos + 1 + u8 r.main 17 ≤ (s.core c).seq.len ∧
    rangeMatched ((s.variant c r).map (u8 · 0)) (u8 (s.lookRec c ((s.core c).seq.pos + 1 + u8 r.main 17)) 0) = true

/-- The misfit flag that a BRANCH_MISFIT names. -/
def Rec.misfitFlag (r : Rec) : Nat := bits (u8 r.main 16) 0 4

/-- A sequencer once a BRANCH_MISFIT has been taken: its flag is clear where the record asks so. -/
def Seq.branchTaken (q : Seq) (r : Rec) : Seq :=
  if bit (u8 r.main 16) 7 then { q with misfit := setAt q.misfit r.misfitFlag false } else q

theorem runBranch_clear (h : s.branchOk c r) (hf : (s.core c).seq.misfit.getD r.misfitFlag false = false) :
    ∃ s1, runBranch s c r = .ok (s1, (s.core c).seq.pos + 1 + u8 r.main 17) := by
  obtain ⟨hlen, hend, hm⟩ := h
  unfold State.variant at hm
  unfold Rec.misfitFlag at hf
  simp only [runBranch, if_neg hlen, hm, hf, Nat.not_lt.mpr hend]
  exact ⟨_, rfl⟩

theorem runBranch_set (h : s.branchOk c r) (hf : (s.core c).seq.misfit.getD r.misfitFlag false = true) :
    runBranch s c r = .ok (if bit (u8 r.main 16) 7 then
      s.modSeq c (fun q => { q with misfit := setAt q.misfit r.misfitFlag false }) else s, (s.core c).seq.pos + 1) := by
  obtain ⟨hlen, hend, hm⟩ := h
  unfold State.variant at hm
  unfold Rec.misfitFlag at hf
  simp only [runBranch, Rec.misfitFlag, if_neg hlen, hm, hf, Nat.not_lt.mpr hend]
  rfl

/-- A BRANCH_MISFIT whose flag no queued record names is decoded (R172). -/
theorem State.doBranch_decoded (h : decodes s l 0x42 c r) (hp : (s.core c).flagPending r.misfitFlag = false) :
    s.doBranch l = s.seqOp l 0x42 runBranch := by
  obtain ⟨-, hphys, -, -, hcur, -⟩ := h
  unfold Rec.misfitFlag at hp
  simp [State.doBranch, hphys, hcur, hp]

/-! ## What each command leaves -/

/-- A sequencer operation that goes on to `next` has left the sequencer there. -/
theorem State.seqOp_pos {s1 : State} {op next : Nat} {run : State → Nat → Rec → Except Nat (State × Nat)}
    (h : decodes s l op c r) (hr : run s c r = .ok (s1, next)) (hn : next < (s.core c).seq.len) :
    ((s.seqOp l op run).core c).seq.pos = next := by
  have hcore := (State.seqOp_ok h hr hn).1 c
  rw [if_pos rfl] at hcore
  exact congrArg (fun e => e.1.pos) hcore

/-- A taken BRANCH_MISFIT changes the sequencer alone. -/
theorem seqOp_branch_set (h : decodes s l 0x42 c r) (hok : s.branchOk c r)
    (hf : (s.core c).seq.misfit.getD r.misfitFlag false = true) :
    onlyCore s (s.seqOp l 0x42 runBranch) c
        (sequenced (s.core c) ((s.core c).seq.branchTaken r) ((s.core c).seq.pos + 1) s.ft) ∧
      sameModule s (s.seqOp l 0x42 runBranch) := by
  have hr := runBranch_set hok hf
  unfold Seq.branchTaken
  split at hr
  next hb => rw [if_pos hb]; exact State.seqOp_modSeq h hr (decodes_next h)
  next hb => rw [if_neg hb]; exact State.seqOp_ok h hr (decodes_next h)

end

/-- Settles O2: the run of each command is known, and a sequencer operation leaves what its run leaves. -/
theorem loopsAndBranches : Obligations.LoopsAndBranches := by
  intro s l c r q went target count flag len recs
  refine ⟨fun h hdepth hskip htarget hend => ?_, fun f fs h hl ht hstart => ?_, fun h hp hlen hend hm => ?_⟩
  · have hr := runLoop_ok (s := s) (c := c) (r := r) ⟨hdepth, hskip, Nat.lt_of_succ_lt htarget, hend⟩
    refine ⟨fun h0 => ?_, fun h0 => ?_⟩
    · exact ⟨_, engine_next h.1, State.seqOp_ok h (hr.trans (if_pos h0)) htarget⟩
    · exact ⟨_, engine_next h.1, State.seqOp_modSeq h (hr.trans (if_neg h0)) (decodes_next h)⟩
  · have hr := runEndLoop_innermost (r := r) hl ht
    have hback : f.start + 1 < q.len := Nat.lt_of_le_of_lt hstart (Nat.lt_of_succ_lt (decodes_next h))
    refine ⟨fun h1 => ?_, fun h1 => ?_⟩
    · exact ⟨_, engine_next h.1, State.seqOp_modSeq h (hr.trans (if_pos h1)) hback⟩
    · exact ⟨_, engine_next h.1, State.seqOp_modSeq h (hr.trans (if_neg (Nat.not_lt.mpr h1))) (decodes_next h)⟩
  · have hok : s.branchOk c r := ⟨hlen, Nat.le_of_lt hend, hm⟩
    have hrun : exec (.branchMisfit l) s = .next (s.seqOp l 0x42 runBranch) :=
      (engine_next h.1).trans (congrArg _ (State.doBranch_decoded h hp))
    refine ⟨fun hset => ?_, fun hclear => ?_⟩
    · exact ⟨_, hrun, seqOp_branch_set h hok hset⟩
    · obtain ⟨s1, hr⟩ := runBranch_clear hok hclear
      exact ⟨_, hrun, State.seqOp_pos h hr hend⟩

end Sys2Proof.Machine
end

