-- ==== Sys2Proof/Proofs/LaneInstructions.lean ====
section
/-! SUPPORT. What the lane instructions answer once their word is fetched (R147, R148, R223). -/

namespace Sys2Proof.Machine

open Sys2Proof.Safety

section
variable {s u : State} {l n op : Nat} {x : KCtx} {f : FloatFmt} {mode : RMode}

/-! ## Arithmetic and comparisons -/

theorem kLane_two (g : List FVal → FVal) (h : fetches s l n op u x) (hf : typeFloat x.w.type = some f)
    (hm : laneMode x.w.rm = some mode) :
    kLane g false u x = .write u x.w.vd (laneOp f mode g [x.reg s x.w.va, x.reg s x.w.vb]) := by
  simp [kLane, hf, hm, fetches_reg h]

theorem kLane_three (g : List FVal → FVal) (h : fetches s l n op u x) (hf : typeFloat x.w.type = some f)
    (hm : laneMode x.w.rm = some mode) :
    kLane g true u x = .write u x.w.vd (laneOp f mode g [x.reg s x.w.va, x.reg s x.w.vb, x.reg s x.w.vc]) := by
  simp [kLane, hf, hm, fetches_reg h]

theorem kCmp_write (g : FVal → FVal → Bool) (h : fetches s l n op u x) (hf : typeFloat x.w.type = some f)
    (hm : laneMode x.w.rm = some mode) :
    kCmp g u x = .write u x.w.vd (laneCmp f g (x.reg s x.w.va) (x.reg s x.w.vb), {}) := by
  simp [kCmp, hf, hm, fetches_reg h]

/-- A comparison of lanes writes its mask and counts nothing. -/
theorem engine_kernel_cmp (g : FVal → FVal → Bool) (h : fetches s l n op u x) (hf : typeFloat x.w.type = some f)
    (hm : laneMode x.w.rm = some mode) :
    ran s (s.engine (fun s => s.kernel l n op (kCmp g))) x.c n
      (advanced ((s.core x.c).thread n)
        (SMap.set 0 x.w.vd (laneCmp f g (x.reg s x.w.va) (x.reg s x.w.vb)) ((s.core x.c).thread n).regs)) {} :=
  engine_kernel_write (r := (_, {})) h (kCmp_write g h hf hm)

/-! ## Moves, conversions and transcendental functions -/

theorem kCvt_write {g : FloatFmt} (h : fetches s l n op u x) (hf : typeFloat x.w.type = some f)
    (hg : typeFloat (bits x.w.imm 0 2) = some g) (hm : laneMode x.w.rm = some mode) :
    kCvt u x = .write u x.w.vd (laneCvt f g mode (bit x.w.imm 2) (x.reg s x.w.va) (x.reg s x.w.vd)) := by
  simp [kCvt, hf, hg, hm, fetches_reg h]

theorem kSel_write (h : fetches s l n op u x) (hm : laneMode x.w.rm = some mode) :
    kSel u x = .write u x.w.vd
      (laneSel (typeWidth x.w.type) (x.reg s x.w.va) (x.reg s x.w.vb) (x.reg s x.w.vc), {}) := by
  simp [kSel, hm, fetches_reg h]

theorem kMov_write (h : fetches s l n op u x) (hm : laneMode x.w.rm = some mode) :
    kMov u x = .write u x.w.vd (x.reg s x.w.va, {}) := by
  simp [kMov, hm, fetches_reg h]

theorem kMovi_write (hf : typeFloat x.w.type = some f) (hm : laneMode x.w.rm = some mode) :
    kMovi u x = .write u x.w.vd (VReg.ofLanes f.width (List.replicate (2048 / f.width) x.w.imm), {}) := by
  simp [kMovi, hf, hm]

theorem kTrans_write (t : TFun) (h : fetches s l n op u x) (ht : x.w.type = 0) :
    kTrans t u x = .write u x.w.vd (laneTrans t (x.reg s x.w.va)) := by
  simp [kTrans, ht, fetches_reg h]

end

/-- Settles O8: each word, once fetched, only writes the lane results or the mask to VD. -/
theorem laneArithmetic : Obligations.LaneArithmetic := by
  intro s u l n x f mode hf hm th a b lanes compares
  refine ⟨fun h => ?_, fun h => ?_, fun h => ?_, fun h => ?_, fun h => ?_, fun h => ?_, fun h => ?_, fun h => ?_⟩
  · exact ⟨_, rfl, engine_kernel_write h (kLane_two _ h hf hm)⟩
  · exact ⟨_, rfl, engine_kernel_write h (kLane_two _ h hf hm)⟩
  · exact ⟨_, rfl, engine_kernel_write h (kLane_two _ h hf hm)⟩
  · exact ⟨_, rfl, engine_kernel_write h (kLane_three _ h hf hm)⟩
  · exact ⟨_, rfl, engine_kernel_write h (kLane_two _ h hf hm)⟩
  · exact ⟨_, rfl, engine_kernel_write h (kLane_two _ h hf hm)⟩
  · exact ⟨_, rfl, engine_kernel_cmp _ h hf hm⟩
  · exact ⟨_, rfl, engine_kernel_cmp _ h hf hm⟩

/-- Settles O9: each word, once fetched, only writes its result to VD. -/
theorem laneMoves : Obligations.LaneMoves := by
  intro s u l n x th a writes
  refine ⟨fun f g mode hf hg hm h => ?_, fun mode hm => ⟨fun h => ?_, fun h => ?_, fun f hf h => ?_⟩,
    fun ht => ⟨fun h => ?_, fun h => ?_, fun h => ?_, fun h => ?_, fun h => ?_⟩⟩
  · exact ⟨_, rfl, engine_kernel_write h (kCvt_write h hf hg hm)⟩
  · exact ⟨_, rfl, engine_kernel_write h (kSel_write h hm)⟩
  · exact ⟨_, rfl, engine_kernel_write h (kMov_write h hm)⟩
  · exact ⟨_, rfl, engine_kernel_write h (kMovi_write hf hm)⟩
  · exact ⟨_, rfl, engine_kernel_write h (kTrans_write _ h ht)⟩
  · exact ⟨_, rfl, engine_kernel_write h (kTrans_write _ h ht)⟩
  · exact ⟨_, rfl, engine_kernel_write h (kTrans_write _ h ht)⟩
  · exact ⟨_, rfl, engine_kernel_write h (kTrans_write _ h ht)⟩
  · exact ⟨_, rfl, engine_kernel_write h (kTrans_write _ h ht)⟩

end Sys2Proof.Machine
end

