-- ==== Sys2Proof/Proofs/EveryStep.lean ====
section
/-! SUPPORT. Every command answers a next state and leaves the queue of commands alone; the engines' commands answer the same
state while the module holds its outputs (R193, R211, R222, R377, R434). -/

namespace Sys2Proof.Machine

open Sys2Proof.Safety

/-! ## Every step -/

/-- A sequencer operation keeps the queue of commands where its run does. -/
theorem engine_seqOp_pending {run : State → Nat → Rec → Except Nat (State × Nat)}
    (h : ∀ s c r t n, run s c r = .ok (t, n) → t.pending = s.pending) (s : State) (l op : Nat) :
    (s.engine (fun s => s.seqOp l op run)).pending = s.pending :=
  State.engine_pending s _ (fun s => State.seqOp_pending s l op run h)

/-- Every command answers a next state and leaves the queue of commands alone: the sequencer operations by what their runs leave,
every other command by the frame of its operation. -/
theorem exec_next (i : Instr) (s : State) : ∃ t, exec i s = .next t ∧ t.pending = s.pending := by
  cases i
  case loop l => exact ⟨_, rfl, engine_seqOp_pending (fun _ _ _ _ _ h => by simp [runLoop_frame h]) s l _⟩
  case endloop l => exact ⟨_, rfl, engine_seqOp_pending (fun _ _ _ _ _ h => by simp [runEndLoop_frame h]) s l _⟩
  case setsv l => exact ⟨_, rfl, engine_seqOp_pending (fun _ _ _ _ _ h => by simp [runSetSv_frame h]) s l _⟩
  case addsv l => exact ⟨_, rfl, engine_seqOp_pending (fun _ _ _ _ _ h => by simp [runAddSv_frame h]) s l _⟩
  case setpair l => exact ⟨_, rfl, engine_seqOp_pending (fun _ _ _ _ _ h => by simp [runSetPair_frame h]) s l _⟩
  case swap l => exact ⟨_, rfl, engine_seqOp_pending (fun _ _ _ _ _ h => by simp [runSwap_frame h]) s l _⟩
  case setkey l => exact ⟨_, rfl, engine_seqOp_pending (fun _ _ _ _ _ h => by simp [runSetKey_frame h]) s l _⟩
  all_goals exact ⟨_, rfl, by simp⟩

/-- A step is idle, or a command run on the rest of the queue. -/
theorem step_next (s : State) : ∃ t, step s = .next t ∧ t.pending = s.pending.tail := by
  unfold step
  split
  next hq => exact ⟨_, rfl, by simp [hq]⟩
  next c rest hq =>
    obtain ⟨t, ht, hp⟩ := exec_next c { s with pending := rest }
    exact ⟨t, ht, by rw [hp, hq, List.tail_cons]⟩

/-- Settles O54: every command answers a next state, so every state a run reaches steps on. That an untimely command
completes without effect is the model's choice (log 1). -/
theorem everyStepCompletes : Obligations.EveryStepCompletes := by
  refine ⟨step_next, fun s n t _ => ?_⟩
  obtain ⟨u, hu, -⟩ := step_next t
  exact ⟨u, hu⟩

/-! ## Held engines -/

theorem State.held_of_unset_or_off {s : State} (h : s.setup = none ∨ s.chip.power ≠ .on) : s.held = true := by
  rcases h with hset | hpow
  · simp [State.held, hset]
  · simp [State.held, hpow]

/-- An engine's command leaves the state as it is while the module holds its outputs (R377). -/
theorem engine_held_next {s : State} (f : State → State) (h : s.held = true) :
    (.next (s.engine f) : Host.Outcome State Fault Refusal) = .next s := congrArg _ (State.engine_held f h)

/-- Settles O55: each of the commands acts behind the gate of the engines, which is closed. -/
theorem heldEngines : Obligations.HeldEngines := by
  intro s h
  have hheld : s.held = true := State.held_of_unset_or_off h
  and_intros <;> intros <;> exact engine_held_next _ hheld

end Sys2Proof.Machine
end

