-- ==== Sys2Proof/Proofs/SyncRecords.lean ====
section
/-! SUPPORT. How the records of the sync queue run (R182, R195, R198 to R203). -/

namespace Sys2Proof.Machine

open Sys2Proof.Safety

/-! ## Changes of a sequencer -/

theorem State.modSeq_core (s : State) (c : Nat) (f : Seq → Seq) (d : Nat) :
    (s.modSeq c f).core d = if d = c then { s.core c with seq := f (s.core c).seq } else s.core d :=
  State.core_setCore_if _ _ _ _

theorem State.modSeq_sameModule (s : State) (c : Nat) (f : Seq → Seq) : sameModule s (s.modSeq c f) := by
  simp [sameModule, sameAround]

theorem State.modSeq_queues (s : State) (c : Nat) (f : Seq → Seq) (d : Nat) :
    ((s.modSeq c f).core d).queues = (s.core d).queues := State.queues_setCore _ _ _ _ rfl

/-- A counter that stays within its 16 bits only grows by the increment (R198, R201). -/
theorem State.addToken_le {s : State} {c ctr inc : Nat} (h : (s.core c).seq.tokens.getD ctr 0 + inc ≤ 65535) :
    s.addToken c ctr inc =
      s.modSeq c (fun q => { q with tokens := setAt q.tokens ctr (q.tokens.getD ctr 0 + inc) }) := by
  simp only [State.addToken, Nat.min_eq_right h, if_neg (Nat.not_lt.mpr h), State.modSeq]

/-- A packet for the control queue of a node stands last in it (R310). -/
theorem State.queueTc0_tc0 (s : State) (p : Nat) (k : Packet) : ((s.queueTc0 p k).node p).tc0 = (s.node p).tc0 ++ [k] := by
  simp [State.queueTc0]

/-! ## The start and the end of a record of the sync queue -/

section
variable (s : State) (c i : Nat) (e : QEntry)

/-- The state in which a record of the sync queue takes effect. -/
def State.syncStart : State := s.startEntry c 4 i e (.running 0)

/-- A record of the sync queue is done with success once it has taken effect. -/
def State.syncDone : State := s.setPhase c 4 i (Outcome.good {}).phase

theorem State.syncStart_sameModule : sameModule s (s.syncStart c i e) := by
  simp [State.syncStart, sameModule, sameAround]

theorem State.syncDone_sameModule : sameModule s (s.syncDone c i) := by
  simp [State.syncDone, sameModule, sameAround]

theorem State.syncStart_tokens (d : Nat) : ((s.syncStart c i e).core d).seq.tokens =
    if d = c then ((s.core c).consume e).seq.tokens else (s.core d).seq.tokens := State.startEntry_tokens ..

theorem State.syncDone_tokens (d : Nat) : ((s.syncDone c i).core d).seq.tokens = (s.core d).seq.tokens :=
  State.setPhase_tokens ..

theorem State.syncDone_node (p : Nat) : (s.syncDone c i).node p = s.node p := by simp [State.node, State.syncDone]

theorem State.syncDone_icache : ((s.syncDone c i).core c).icache = (s.core c).icache := by
  rw [State.syncDone, State.setPhase_core, if_pos rfl]
  rfl

@[simp] theorem State.syncStart_part (p : Nat) : (s.syncStart c i e).part p = s.part p :=
  State.part_of_parts (by simp [State.syncStart]) p

@[simp] theorem State.syncStart_node (p : Nat) : (s.syncStart c i e).node p = s.node p := by
  simp [State.node, State.syncStart]

@[simp] theorem State.syncStart_partOfPhys (d : Nat) : (s.syncStart c i e).partOfPhys d = s.partOfPhys d :=
  partOfPhys_of (by simp [State.syncStart]) d

@[simp] theorem State.syncStart_coresOf (p : Nat) : (s.syncStart c i e).coresOf p = s.coresOf p :=
  coresOf_of (by simp [State.syncStart]) (by simp [State.syncStart]) (by simp [State.syncStart]) p

end

/-! ## What each record of the sync queue leaves -/

section
variable {s s1 : State} {l c i : Nat} {e : QEntry}

/-- A record of the sync queue whose effect leaves the queues alone is done (R195, R198). -/
theorem syncDone_entry (h : starts s l 4 c i e) (hq : (s1.core c).queues = ((s.syncStart c i e).core c).queues) :
    entry (s1.syncDone c i) c 4 i = some { e with phase := (Outcome.good {}).phase } := by
  rw [State.syncDone, State.setPhase_entry, entry_of_queues hq, State.syncStart,
    State.startEntry_entry _ (starts_entry h) (by simp)]
  rfl

theorem syncDone_sameModule (hm : sameModule (s.syncStart c i e) s1) : sameModule s (s1.syncDone c i) :=
  sameModule_trans (s.syncStart_sameModule c i e) (sameModule_trans hm (s1.syncDone_sameModule c i))

/-- NOP has no effect but its start (R182). -/
theorem doNop_runs (h : starts s l 4 c i e) (ho : e.op = .nop) : s.doNop l = (s.syncStart c i e).syncDone c i :=
  State.syncOp_some h.2 (if_pos ho)

/-- TOKSET puts its value into its counter (R203). -/
theorem doTokset_runs {ctr v : Nat} (h : starts s l 4 c i e) (ho : e.op = .tokset ctr v) :
    s.doTokset l =
      ((s.syncStart c i e).modSeq c (fun q => { q with tokens := setAt q.tokens ctr v })).syncDone c i :=
  State.syncOp_some h.2 (by rw [ho]; rfl)

/-- A core with an empty instruction and constant cache (R199). -/
def State.invalidated (s : State) (c : Nat) : State := s.setCore c { s.core c with icache := [] }

theorem State.invalidated_sameModule (s : State) (c : Nat) : sameModule s (s.invalidated c) := by
  simp [State.invalidated, sameModule, sameAround]

theorem doInval_runs (h : starts s l 4 c i e) (ho : e.op = .inval) :
    s.doInval l = ((s.syncStart c i e).invalidated c).syncDone c i := State.syncOp_some h.2 (if_pos ho)

/-- SIGNAL to a core of the partition that no repair hold holds adds to its counter (R200, R410). -/
theorem doSignal_local {core ctr inc module d : Nat} (h : starts s l 4 c i e) (ho : e.op = .signal core ctr inc module false)
    (hd : (s.coresOf (s.partOfPhys c)).lookup core = some d) (hh : (s.part (s.partOfPhys c)).hold = false) :
    s.doSignal l = ((s.syncStart c i e).addToken d ctr inc).syncDone c i :=
  State.syncOp_some h.2 (by
    rw [← State.syncStart]
    simp [ho, hd, hh])

/-- SIGNAL to another module sends one packet (R200). -/
theorem doSignal_remote {core ctr inc module : Nat} (h : starts s l 4 c i e) (ho : e.op = .signal core ctr inc module true) :
    s.doSignal l = ((s.syncStart c i e).queueTc0 (s.partOfPhys c) ((s.syncStart c i e).newPacket (s.partOfPhys c) module 0x10
      false 0 0 0 (signalKey core ctr inc) [])).syncDone c i :=
  State.syncOp_some h.2 (by
    rw [← State.syncStart]
    simp [ho])

end

/-- Settles O3: each record starts, takes its own effect and is done. -/
theorem syncRecords : Obligations.SyncRecords := by
  intro s l c i e h done
  refine ⟨fun ho => ?_, fun ctr v ho => ?_, fun ho => ?_, fun core ctr inc module d ho hd hne hh hle => ?_,
    fun core ctr inc module ho => ?_⟩
  · refine ⟨_, (engine_next h.1).trans (congrArg _ (doNop_runs h ho)), syncDone_entry h rfl,
      syncDone_sameModule (sameModule_refl _), fun x => ?_⟩
    rw [State.syncDone_tokens, State.syncStart_tokens]
  · refine ⟨_, (engine_next h.1).trans (congrArg _ (doTokset_runs h ho)), syncDone_entry h (State.modSeq_queues ..),
      syncDone_sameModule (State.modSeq_sameModule ..), ?_⟩
    rw [State.syncDone_tokens, State.modSeq_core, if_pos rfl]
    simp [State.syncStart_tokens]
  · refine ⟨_, (engine_next h.1).trans (congrArg _ (doInval_runs h ho)),
      syncDone_entry h (State.queues_setCore _ _ _ _ rfl), syncDone_sameModule (State.invalidated_sameModule ..), ?_⟩
    rw [State.syncDone_icache, State.invalidated, State.core_setCore]
  · have htok : ((s.syncStart c i e).core d).seq.tokens = (s.core d).seq.tokens := by
      rw [State.syncStart_tokens, if_neg hne]
    have hrun := doSignal_local h ho hd hh
    rw [State.addToken_le (by rw [htok]; exact hle)] at hrun
    refine ⟨_, (engine_next h.1).trans (congrArg _ hrun), syncDone_entry h (State.modSeq_queues ..), ?_⟩
    rw [State.syncDone_tokens, State.modSeq_core, if_pos rfl]
    simp only [htok]
  · exact ⟨_, _, (engine_next h.1).trans (congrArg _ (doSignal_remote h ho)), syncDone_entry h rfl,
      by rw [State.syncDone_node, State.queueTc0_tc0, State.syncStart_node], rfl, rfl, rfl⟩

end Sys2Proof.Machine
end

