-- ==== Sys2Proof/Proofs/BarriersAndTimers.lean ====
section
/-! SUPPORT. How cores arrive at a barrier and leave it, and how a wait or a stream ends (R202, R210 to R216). -/

namespace Sys2Proof.Machine

open Sys2Proof.Safety

/-! ## Arrival and release -/

section
variable {s : State} {l c p : Nat}

/-- A barrier whose earlier records have completed arrives where its partition's barrier logic has not failed (R210, R213). -/
theorem doBarrier_runs {i seq sc : Nat} {e : QEntry} (h : starts s l 4 c i e) (ho : e.op = .barrier seq sc)
    (he : (s.core c).earlierDone e.serial = true) (hf : ((s.job (s.partOfPhys c)).map (·.failed)).getD false = false) :
    s.doBarrier l = (s.syncStart c i e).modSeq c (fun q => { q with arrived := some seq, arrivedAt := s.ft }) := by
  simp only [State.doBarrier, h.2, ho, he]
  cases hj : s.job (s.partOfPhys c) with
  | none => rfl
  | some j =>
    have hj' : j.failed = false := by simpa [hj] using hf
    simp [hj', State.syncStart]

theorem Core.release_arrived (k : Core) : k.release.seq.arrived = none := by
  unfold Core.release
  split
  next h => exact h
  next => rfl

/-- Once a list of cores has been released, a core that is on it or was not at a barrier is at none. -/
theorem release_fold_arrived (xs : List Nat) (s : State) (d : Nat) (h : d ∈ xs ∨ (s.core d).seq.arrived = none) :
    ((xs.foldl (fun acc c => acc.setCore c (acc.core c).release) s).core d).seq.arrived = none := by
  induction xs generalizing s with
  | nil => exact h.resolve_left List.not_mem_nil
  | cons x xs ih =>
    refine ih _ ?_
    by_cases hx : d = x
    · subst hx
      exact .inr (by rw [State.core_setCore, Core.release_arrived])
    · rw [State.core_setCore_ne _ _ hx]
      exact h.imp_left (fun hm => (List.mem_cons.mp hm).resolve_left hx)

theorem State.releaseBarrier_arrived {d : Nat} (h : d ∈ s.streamCores p) : ((s.releaseBarrier p).core d).seq.arrived = none :=
  release_fold_arrived _ _ d (.inl h)

/-- A partition whose streams have all arrived has a stream, and so an arrival. -/
theorem State.arrivals_ne_nil (h : s.allArrived p = true) : s.arrivals p ≠ [] := by
  simp only [State.allArrived, Bool.and_eq_true, Bool.not_eq_true', List.all_eq_true, List.isEmpty_eq_false_iff] at h
  obtain ⟨hall, hne⟩ := h
  obtain ⟨d, hd⟩ := List.exists_mem_of_ne_nil _ hne
  obtain ⟨a, ha⟩ := Option.isSome_iff_exists.mp (hall d hd)
  exact List.ne_nil_of_mem (List.mem_filterMap.mpr ⟨d, hd, ha⟩)

/-- A partition without exchange whose streams wait at one partition barrier releases it (R211). -/
theorem doBarrierRelease_runs {q : Nat} (h : s.allArrived p = true) (hx : (s.exch p).held = false) (ht : (s.exch p).tbl = none)
    (hw : (s.part p).fabWait = false) (ha : ∀ a ∈ s.arrivals p, a = (q, 0)) : s.doBarrierRelease p = s.releaseBarrier p := by
  cases hl : s.arrivals p with
  | nil => exact absurd hl (State.arrivals_ne_nil h)
  | cons a rest =>
    rw [hl] at ha
    have hrest : ∀ b ∈ rest, b = (q, 0) := fun b hb => ha b (List.mem_cons_of_mem _ hb)
    have hseq : rest.any (fun b => b.1 != q) = false := List.any_eq_false.mpr fun b hb => by simp [hrest b hb]
    have hscope : rest.any (fun b => b.2 == 1) = false := List.any_eq_false.mpr fun b hb => by simp [hrest b hb]
    obtain rfl : a = (q, 0) := ha a List.mem_cons_self
    simp only [State.doBarrierRelease, h, hx, hw, hl, hseq, hscope, ht]
    simp

end

/-! ## Timeouts -/

section
variable {s : State} {l c : Nat} {j : Job} {e : QEntry}

theorem State.failStream_sameModule (s : State) (c : Nat) (e : QEntry) (st det : Nat) : sameModule s (s.failStream c e st det) := by
  simp [sameModule, sameAround]

/-- A core that has waited at its barrier beyond the limit fails there (R213). -/
theorem doBarrierTimeout_runs {seq : Nat} {es : List QEntry} (hp : s.physOf l = some c) (hj : s.job (s.partOfPhys c) = some j)
    (ha : (s.core c).seq.arrived = some seq) (hq : (s.core c).queue 4 = e :: es) (hz : s.anyFrozen (s.partOfPhys c) = false)
    (hx : (s.exch (s.partOfPhys c)).held = false) (hlate : (s.core c).seq.arrivedAt + j.barNs < s.ft) :
    s.doBarrierTimeout l = s.failStream c e Code.barTimeout 0 := by
  simp [State.doBarrierTimeout, hp, hj, ha, hq, hz, hx, Nat.not_le.mpr hlate]

/-- A record whose token wait has lasted beyond the limit fails, naming the counter, its value and the count waited for (R202). -/
theorem doTokenTimeout_runs {q lim : Nat} (hp : s.physOf l = some c) (hj : s.job (s.partOfPhys c) = some j)
    (hlim : j.tokenNs = some lim) (hw : (s.core c).headWait q = some e) (hz : s.anyFrozen (s.partOfPhys c) = false)
    (hlate : e.headAt.getD s.ft + lim < s.ft) :
    s.doTokenTimeout l q = s.failStream c e Code.tokenTimeout
      (e.waitCtr + 2 ^ 16 * (s.core c).seq.tokens.getD e.waitCtr 0 + 2 ^ 32 * e.waitCnt) := by
  simp [State.doTokenTimeout, hp, hj, hlim, hw, hz, Nat.not_le.mpr hlate]

end

/-! ## The end of a stream -/

/-- The queues without a record hold no entry with its serial. -/
theorem Core.dropEntry_queue (k : Core) (n q : Nat) : (k.dropEntry n).queue q = (k.queue q).filter (fun e => e.serial != n) := by
  simp only [Core.dropEntry, Core.queue, List.getD_eq_getElem?_getD, List.getElem?_map]
  cases k.queues[q]? <;> rfl

theorem Core.dropEntry_serial {k : Core} {n q : Nat} {x : QEntry} (h : x ∈ (k.dropEntry n).queue q) : x.serial ≠ n := by
  rw [Core.dropEntry_queue] at h
  simpa using (List.mem_filter.mp h).2

/-- A core whose stream has ended with the record of serial `n` (R216). -/
def Core.ended (k : Core) (n : Nat) : Core :=
  { k.dropEntry n with seq := { k.seq with running := false, error := 0 } }

theorem Core.ended_engines {j k : Core} (n : Nat) (h : j.engines = k.engines) : (j.ended n).engines = (k.ended n).engines := by
  simp only [Core.engines, Prod.mk.injEq] at h
  obtain ⟨hseq, hq, h0, h1, ht, hc, hz, hs⟩ := h
  have hend : { j.seq with running := false, error := 0, frozen := false } =
      { k.seq with running := false, error := 0, frozen := false } :=
    congrArg (fun q : Seq => { q with running := false, error := 0 }) hseq
  simp only [Core.engines, Core.ended, Core.dropEntry, hend, hq, h0, h1, ht, hc, hz, hs]

/-- END leaves of its core's engines the queues without it and a stream that has ended well (R216). -/
theorem doEnd_engines {s : State} {l c i : Nat} {e : QEntry} (h : starts s l 4 c i e) (ho : e.op = .endStream)
    (he : (s.core c).earlierDone e.serial = true) :
    ((s.doEnd l).core c).engines = (((s.syncStart c i e).core c).ended e.serial).engines := by
  have hop : ¬ (e.op ≠ .endStream ∨ (!(s.core c).earlierDone e.serial) = true) := by simp [ho, he]
  simp only [State.doEnd, h.2, if_neg hop]
  rw [State.recordDone_engines, State.traceDone_engines]
  split
  all_goals
    simp only [State.putRecord_engines, State.modJob_core, State.core_setCore]
    refine Core.ended_engines _ ?_
    split <;> simp [State.syncStart]

/-- Settles O6: a barrier, a release and an end by what they leave of the streams, a timeout by the failure that it keeps. -/
theorem barriersAndTimers : Obligations.BarriersAndTimers := by
  intro s l c hh hp p
  refine ⟨fun i e seq sc h ho he hf => ?_, fun q h hx ht hw ha => ?_,
    fun j seq e es hj hr hfl ha hq hz hx hlate => ?_, fun q j lim e hj hlim hr hfl hw hz hlate => ?_, fun i e h ho he => ?_⟩
  · refine ⟨_, (engine_next hh).trans (congrArg _ (doBarrier_runs h ho he hf)),
      sameModule_trans (s.syncStart_sameModule c i e) (State.modSeq_sameModule ..), ?_, ?_⟩
    · rw [entry_modSeq, State.syncStart, State.startEntry_entry _ (starts_entry h) (by simp)]
    · rw [State.modSeq_core, if_pos rfl]
      exact ⟨rfl, rfl⟩
  · exact ⟨_, (engine_next hh).trans (congrArg _ (doBarrierRelease_runs h hx ht hw ha)), by simp [sameModule, sameAround],
      fun d hd => State.releaseBarrier_arrived hd⟩
  · exact ⟨_, (engine_next hh).trans (congrArg _ (doBarrierTimeout_runs hp hj ha hq hz hx hlate)),
      State.failStream_sameModule .., State.failStream_haltedBy e _ _ hr hfl⟩
  · exact ⟨_, (engine_next hh).trans (congrArg _ (doTokenTimeout_runs hp hj hlim hw hz hlate)),
      State.failStream_sameModule .., State.failStream_haltedBy e _ _ hr hfl⟩
  · have hE := doEnd_engines h ho he
    refine ⟨_, engine_next hh, by simp [sameModule, sameAround], congrArg (·.1.running) hE, congrArg (·.1.error) hE,
      fun q x hx => ?_⟩
    unfold Core.queue at hx
    rw [Core.queues_of_engines hE] at hx
    exact Core.dropEntry_serial hx

end Sys2Proof.Machine
end

