-- ==== Sys2Proof/Proofs/RecordMoves.lean ====
section
/-! SUPPORT. How records are fetched, dispatched and completed, and what SETSV, ADDSV, SETPAIR, SWAP and SETKEY do to the
sequencer (R183, R193 to R198, R204 to R206). -/

namespace Sys2Proof.Machine

open Sys2Proof.Safety

/-! ## Fetch -/

section
variable {s u : State} {c p : Nat} {l : Loc}

theorem State.icachePut_holds (s : State) (c : Nat) (l : Loc) (bs : Bytes) :
    (((s.icachePut c l bs).core c).icache.lookup l).isSome = true := by
  unfold State.icachePut
  dsimp only
  split
  next h => exact h
  next => split <;> simp [State.core_setCore]

/-- A cache that lacks a line which can be read holds it after a read (R193). -/
theorem State.icacheRead_holds {v : State} {bs : Bytes} {n : Nat} (hm : (s.core c).icache.lookup (l.floor 256) = none)
    (hr : s.locRead p (l.floor 256) 256 = (v, .ok bs)) :
    (((s.icacheRead c p l n).1.core c).icache.lookup (l.floor 256)).isSome = true ∧ ∃ b, (s.icacheRead c p l n).2 = .ok b := by
  simp only [State.icacheRead, hm, hr]
  exact ⟨State.icachePut_holds .., _, rfl⟩

theorem State.probeRecord_core (s : State) (p : Nat) (l : Loc) (flt : MemFault) (d : Nat) :
    (s.probeRecord p l flt).1.core d = s.core d := by simp [State.core]

theorem Core.cachedRec_isSome (k : Core) (pos : Nat) :
    (k.cachedRec pos).isSome = (k.icache.lookup ((k.seq.recLoc pos).floor 256)).isSome := Option.isSome_map ..

/-- The cache does not hold the line of a position that is missing. -/
theorem Core.missing_lookup {k : Core} {pos : Nat} (h : k.missing = some pos) :
    k.icache.lookup ((k.seq.recLoc pos).floor 256) = none := by
  have hn := List.find?_some h
  simpa [Core.cachedRec] using hn

theorem Seq.recLoc_of_engines {j k : Core} (h : j.engines = k.engines) (pos : Nat) : j.seq.recLoc pos = k.seq.recLoc pos := by
  have hbase : j.seq.base = k.seq.base := congrArg (·.1.base) h
  simp only [Seq.recLoc, hbase]

/-- RECORD_FETCH brings the first missing record into the cache and changes no engine (R193). -/
theorem doFetch_spec {v : State} {bs : Bytes} {n pos : Nat} {flt : MemFault} (hp : s.physOf n = some c)
    (ha : (s.core c).seq.active = true) (hm : (s.core c).missing = some pos)
    (hq : s.probeRecord (s.partOfPhys c) ((s.core c).seq.recLoc pos) flt = (u, none))
    (hr : u.locRead (s.partOfPhys c) (((s.core c).seq.recLoc pos).floor 256) 256 = (v, .ok bs)) :
    (((s.doFetch n flt).core c).cachedRec pos).isSome = true ∧ ∀ d, ((s.doFetch n flt).core d).engines = (s.core d).engines := by
  have hcore : ∀ d, u.core d = s.core d := fun d => by rw [← State.probeRecord_core s _ _ flt d, hq]
  have hmiss : (u.core c).icache.lookup (((s.core c).seq.recLoc pos).floor 256) = none := by
    rw [hcore]; exact Core.missing_lookup hm
  obtain ⟨hholds, b, hb⟩ := State.icacheRead_holds (n := 64) hmiss hr
  have hrun : s.doFetch n flt = (u.icacheRead c (s.partOfPhys c) ((s.core c).seq.recLoc pos) 64).1 := by
    simp [State.doFetch, hp, ha, hm, hq, hb]
  have hE : ∀ d, ((s.doFetch n flt).core d).engines = (s.core d).engines := fun d => by
    rw [hrun, State.icacheRead_engines, hcore]
  refine ⟨?_, hE⟩
  rw [Core.cachedRec_isSome, Seq.recLoc_of_engines (hE c), hrun]
  exact hholds

end

/-! ## Dispatch -/

section
variable {s : State} {l c : Nat} {r : Rec} {op : Op}

/-- RECORD_DISPATCH enqueues a record that passes its checks, fits and is followed by another or ends the stream (R194, R196). -/
theorem doDispatch_runs (hp : s.physOf l = some c) (ha : (s.core c).seq.active = true) (ht : s.traceStall c = false)
    (hc : (s.core c).current = some r) (hs : r.isSeq = false) (hroom : (s.core c).roomFor r = true) (hok : s.checkRec c r = .ok op)
    (hend : r.opcode = 0x3F ∨ (s.core c).seq.pos + r.extCount + 1 < (s.core c).seq.len) :
    s.doDispatch l 0 = s.setCore c ((s.core c).enqueue r op s.ft) := by
  have hlast : ¬ (r.opcode ≠ 0x3F ∧ (s.core c).seq.len ≤ (s.core c).seq.pos + r.extCount + 1) := by omega
  simp only [State.doDispatch, hp, ha, ht, hc, hs, hroom, hok, if_neg hlast]
  rfl

/-- Noting head times changes the head time of an entry at most (R202). -/
theorem markHead_getElem? {ft i : Nat} {es : List QEntry} {e : QEntry} (h : es[i]? = some e) :
    ∃ t, (markHead ft es)[i]? = some { e with headAt := t } := by
  unfold markHead
  split
  next j x hj =>
    by_cases hij : j = i
    · subst hij
      exact ⟨some (e.headAt.getD ft), by rw [getElem?_modAt, h]; rfl⟩
    · exact ⟨e.headAt, by rw [getElem?_modAt_ne _ _ hij, h]⟩
  next => exact ⟨e.headAt, h⟩

theorem Core.setArr_seq (k : Core) (a : Nat) (x : Arr) : (k.setArr a x).seq = k.seq := by
  unfold Core.setArr
  split <;> rfl

theorem Core.enqueue_queue (k : Core) (r : Rec) (op : Op) (ft : Nat) (h : r.engine < k.queues.length) :
    (k.enqueue r op ft).queue r.engine =
      markHead ft (k.queue r.engine ++ [entryOf r op (k.seq.serial + 1) k.seq.pos k.seq.key]) := by
  simp only [Core.enqueue, Core.markHeads_queue]
  congr 1
  refine Eq.trans ?_ (Core.queue_setQueue k r.engine _ h)
  simp only [Core.queue]
  split
  · rw [Core.setArr_queues]
  · rfl

/-- A dispatched record stands last in its queue (R194). -/
theorem Core.enqueue_entry (k : Core) (r : Rec) (op : Op) (ft : Nat) (h : r.engine < k.queues.length) :
    ∃ t, ((k.enqueue r op ft).queue r.engine)[(k.queue r.engine).length]? =
      some { entryOf r op (k.seq.serial + 1) k.seq.pos k.seq.key with headAt := t } := by
  rw [Core.enqueue_queue k r op ft h]
  exact markHead_getElem? (List.getElem?_concat_length ..)

theorem Core.enqueue_seq (k : Core) (r : Rec) (op : Op) (ft : Nat) :
    (k.enqueue r op ft).seq.pos = k.seq.pos + r.extCount + 1 ∧ (k.enqueue r op ft).seq.serial = k.seq.serial + r.extCount + 1 := by
  simp only [Core.enqueue, Core.markHeads]
  split
  · simp [Core.setArr_seq, Core.setQueue]
  · simp [Core.setQueue]

end

/-! ## Completion -/

/-- The counter that a record signals, with its increment (R198). -/
def Seq.signalled (q : Seq) (e : QEntry) : Seq :=
  if e.sigEn then { q with tokens := setAt q.tokens e.sigCtr (q.tokens.getD e.sigCtr 0 + e.sigInc) } else q

/-- A core that a record has left, its windows closed (R252). -/
def Core.leftBy (k : Core) (e : QEntry) (ft : Nat) : Core := ((k.dropEntry e.serial).closeWindows e.serial).markHeads ft

section
variable (s : State) (c q : Nat) (e : QEntry) (led : Ledger)

/-- A record without failure has left its queue, its ledger is booked, and it has signalled (R61, R198). -/
def State.signalled : State :=
  let s1 := s.setCore c ((s.core c).leftBy e s.ft)
  let s3 := (if q = 4 then s1 else s1.bookLedger (s.partOfPhys c) e led).event c 0x0502 led.counters.sum
  if e.sigEn then s3.addToken c e.sigCtr e.sigInc else s3

/-- The completion record and the trace of a record (R214, R468). -/
def State.reported (bs : Bytes) (status shift : Nat) : State :=
  (if e.cpl then s.putCompletion (s.partOfPhys c) e.tag bs else s).traceDone c e.engine e.opid e.tag e.channel status led shift

theorem State.reported_engines (bs : Bytes) (status shift d : Nat) :
    ((s.reported c e led bs status shift).core d).engines = (s.core d).engines := by
  rw [State.reported, State.traceDone_engines]
  split <;> simp

theorem State.bookLedger_engines (p d : Nat) : ((s.bookLedger p e led).core d).engines = (s.core d).engines := by
  simp [State.bookLedger]

end

section
variable {s : State} {l c q n : Nat} {e : QEntry} {led : Ledger}

theorem State.settleStream_none (h : (s.core c).seq.failure = none) : s.settleStream c = s := by
  simp only [State.settleStream, h]

theorem Core.engines_seq {j k : Core} (f : Seq → Seq) (hf : ∀ q b, ({ f q with frozen := b } : Seq) = f { q with frozen := b })
    (h : j.engines = k.engines) : ({ j with seq := f j.seq } : Core).engines = ({ k with seq := f k.seq } : Core).engines := by
  simp only [Core.engines, Prod.mk.injEq] at h ⊢
  obtain ⟨hseq, hrest⟩ := h
  exact ⟨by rw [hf, hf, hseq], hrest⟩

/-- A record that signals leaves its core with its own counter grown (R198). -/
theorem State.signalled_engines (hle : (s.core c).seq.tokens.getD e.sigCtr 0 + e.sigInc ≤ 65535) :
    ((s.signalled c q e led).core c).engines =
      ({ (s.core c).leftBy e s.ft with seq := (s.core c).seq.signalled e } : Core).engines := by
  have h3 : (((if q = 4 then s.setCore c ((s.core c).leftBy e s.ft) else
      (s.setCore c ((s.core c).leftBy e s.ft)).bookLedger (s.partOfPhys c) e led).event c 0x0502 led.counters.sum).core c).engines =
      ((s.core c).leftBy e s.ft).engines := by
    rw [State.event_engines]
    split <;> simp [State.bookLedger_engines]
  unfold State.signalled Seq.signalled
  dsimp only
  split
  next =>
    rw [State.addToken_le (by rw [Core.tokens_of_engines h3]; exact hle), State.modSeq_core, if_pos rfl]
    exact Core.engines_seq (fun q => { q with tokens := setAt q.tokens e.sigCtr (q.tokens.getD e.sigCtr 0 + e.sigInc) })
      (fun _ _ => rfl) h3
  next => exact h3

/-- RECORD_COMPLETE of a record without failure (R198, R214). -/
theorem doComplete_runs {st det sh : Nat} (hp : s.physOf l = some c) (he : entry s c q n = some e)
    (hd : e.phase = .done st led det sh) (hg : failedStatus ((s.core c).finalStatus e.serial st) = false) :
    ∃ bs, s.doComplete l q n = (((s.signalled c q e led).reported c e led bs ((s.core c).finalStatus e.serial st) sh).settleStream
      c).recordDone c e.engine e.opid e.tag := by
  unfold entry at he
  refine ⟨complBytes ((s.core c).finalStatus e.serial st) e.tag e.opid e.engine (s.cplFlags (s.partOfPhys c) sh) 0 e.index led det
    s.ft, ?_⟩
  have hpart : (s.signalled c q e led).partOfPhys c = s.partOfPhys c :=
    partOfPhys_of (by unfold State.signalled; (repeat' split) <;> simp) c
  simp only [State.doComplete, hp, he, hd, hg, State.reported, hpart]
  simp [State.signalled, Core.leftBy]

theorem doComplete_engines {st det sh : Nat} (hp : s.physOf l = some c) (he : entry s c q n = some e)
    (hd : e.phase = .done st led det sh) (hg : failedStatus ((s.core c).finalStatus e.serial st) = false)
    (hf : (s.core c).seq.failure = none) (hle : (s.core c).seq.tokens.getD e.sigCtr 0 + e.sigInc ≤ 65535) :
    ((s.doComplete l q n).core c).engines =
      ({ (s.core c).leftBy e s.ft with seq := (s.core c).seq.signalled e } : Core).engines := by
  obtain ⟨bs, hrun⟩ := doComplete_runs hp he hd hg
  have hE := (State.reported_engines (s.signalled c q e led) c e led bs ((s.core c).finalStatus e.serial st) sh c).trans
    (State.signalled_engines hle)
  have hnone := (congrArg (·.1.failure) hE).trans
    (show ((s.core c).seq.signalled e).failure = none by unfold Seq.signalled; split <;> exact hf)
  rw [hrun, State.recordDone_engines, State.settleStream_none hnone, hE]

theorem markHead_serial {ft : Nat} {es : List QEntry} {x : QEntry} (h : x ∈ markHead ft es) : ∃ y ∈ es, y.serial = x.serial := by
  obtain ⟨i, hi⟩ := List.mem_iff_getElem?.mp h
  cases hy : es[i]? with
  | none =>
    have hlen : (markHead ft es).length = es.length := by unfold markHead; split <;> simp [modAt]
    rw [List.getElem?_eq_none_iff] at hy
    rw [List.getElem?_eq_none (by omega)] at hi
    cases hi
  | some y =>
    obtain ⟨t, ht⟩ := markHead_getElem? (ft := ft) hy
    obtain rfl := Option.some.inj (ht.symm.trans hi)
    exact ⟨y, List.mem_of_getElem? hy, rfl⟩

theorem Core.leftBy_serial {k : Core} {ft j : Nat} {x : QEntry} (h : x ∈ (k.leftBy e ft).queue j) : x.serial ≠ e.serial := by
  rw [Core.leftBy, Core.markHeads_queue] at h
  obtain ⟨y, hy, hxy⟩ := markHead_serial h
  exact hxy ▸ Core.dropEntry_serial hy

end

/-! ## Sequencer operations -/

/-- A sequencer operation whose run changes the sequencer alone and goes on by one record leaves what its run leaves. -/
theorem engine_seqOp_modSeq {s : State} {l op c : Nat} {r : Rec} {run : State → Nat → Rec → Except Nat (State × Nat)}
    {f : Seq → Seq} (h : decodes s l op c r) (hr : run s c r = .ok (s.modSeq c f, s.after c)) :
    ∃ t, (.next (s.engine (fun s => s.seqOp l op run)) : Host.Outcome State Fault Refusal) = .next t ∧
      onlyCore s t c (sequenced (s.core c) (f (s.core c).seq) ((s.core c).seq.pos + 1) s.ft) ∧ sameModule s t :=
  ⟨_, engine_next h.1, State.seqOp_modSeq h hr (decodes_next h)⟩

/-- Settles O1: the run of each command changes the sequencer alone. -/
theorem sequencerWrites : Obligations.SequencerWrites := by
  intro s l c r q i j went
  refine ⟨fun h => ?_, fun h => ?_, fun h h0 h1 => ?_, fun h => ?_, fun h => ?_⟩
  · exact (engine_seqOp_modSeq (run := runSetSv) h rfl :)
  · exact (engine_seqOp_modSeq (run := runAddSv) h rfl :)
  · exact (engine_seqOp_modSeq (run := runSetPair) h (if_pos ⟨h0, h1⟩) :)
  · exact (engine_seqOp_modSeq (run := runSwap) h rfl :)
  · exact (engine_seqOp_modSeq (run := runSetKey) h rfl :)

/-- Settles O7: a record fetched is in the cache, one dispatched stands last in its queue, one completed has left its core. -/
theorem recordMoves : Obligations.RecordMoves := by
  intro s l c hh hp
  refine ⟨fun pos flt u v bs ha hm hq hr => ?_, fun r op ha ht hc hs hroom hok hlen hend => ?_,
    fun q n e st led det sh he hd hg hf hle => ?_⟩
  · obtain ⟨hcached, hE⟩ := doFetch_spec hp ha hm hq hr
    exact ⟨_, engine_next hh, hcached, by simp [sameModule, sameAround], hE⟩
  · obtain ⟨t, ht'⟩ := Core.enqueue_entry (s.core c) r op s.ft hlen
    obtain ⟨hpos, hserial⟩ := Core.enqueue_seq (s.core c) r op s.ft
    refine ⟨_, _, (engine_next hh).trans (congrArg _ (doDispatch_runs hp ha ht hc hs hroom hok hend)),
      by simp [sameModule, sameAround], by rw [entry, State.core_setCore]; exact ht', rfl, rfl, rfl, rfl, rfl, rfl, ?_, ?_,
      fun d hd => State.core_setCore_ne _ _ hd⟩
    · rw [State.core_setCore, hpos]
    · rw [State.core_setCore, hserial]
  · have hE := doComplete_engines hp he hd hg hf hle
    refine ⟨_, engine_next hh, by simp [sameModule, sameAround], fun j x hx => ?_, ?_⟩
    · unfold Core.queue at hx
      rw [Core.queues_of_engines hE] at hx
      exact Core.leftBy_serial hx
    · rw [Core.tokens_of_engines hE]
      simp only [Seq.signalled]
      split <;> rfl

end Sys2Proof.Machine
end

