-- ==== Sys2Proof/Proofs/JobsRun.lean ====
section
/-! SUPPORT. How a selected job's copies are made, how a job completes, and how the next one starts (R175, R177, R382 to R386). -/

namespace Sys2Proof.Machine

open Sys2Proof.Safety

/-! ## Partitions and ring pairs -/

theorem State.part_setPart_if (s : State) (p q : Nat) (x : Part) : (s.setPart p x).part q = if q = p then x else s.part q :=
  SMap.get_set _ _ _ _ _

theorem State.hbm_setPart (s : State) {p : Nat} (q : Nat) {x : Part} (h : x.hbm = (s.part p).hbm) :
    ((s.setPart p x).part q).hbm = (s.part q).hbm := by
  rw [State.part_setPart_if]
  split
  next hq => rw [h, hq]
  next => rfl

theorem State.modJob_hbm (s : State) (p q : Nat) (f : Job → Job) : ((s.modJob p f).part q).hbm = (s.part q).hbm :=
  State.hbm_setPart s q rfl

theorem State.modNext_hbm (s : State) (p q : Nat) (f : Job → Job) : ((s.modNext p f).part q).hbm = (s.part q).hbm :=
  State.hbm_setPart s q rfl

theorem State.modRing_ring (s : State) {p n m : Nat} (q : Nat) (f : Ring → Ring) (hn : n < 64) (hm : m < 64) :
    (s.modRing p n f).ring q m = if q = p ∧ m = n then f (s.ring p n) else s.ring q m := State.ring_setRing _ _ _ _ _ _ hn hm

/-- A command that reports the sensors at its end acts while the engines are released. -/
theorem reporting_next {s t : State} {f : State → State} (h : s.held = false) (hf : f s = t) :
    (.next (s.reporting (fun s => s.engine f)) : Host.Outcome State Fault Refusal) = .next t.reportSensors := by
  rw [State.reporting, State.engine_open f h, hf]

theorem sameBlock_refl (s : State) : sameBlock s s := by simp [sameBlock]

/-! ## Copy-ins -/

/-- From `s` to `w` memory was written: the module, every engine and the jobs of partition `p` are as before. -/
structure State.Wrote (s w : State) (p : Nat) : Prop where
  block   : sameBlock s w
  engines : ∀ d, (w.core d).engines = (s.core d).engines
  next    : (w.part p).next = (s.part p).next
  job     : (w.part p).job = (s.part p).job

theorem State.Wrote.refl (s : State) (p : Nat) : s.Wrote s p := ⟨sameBlock_refl s, fun _ => rfl, rfl, rfl⟩

theorem State.devWrite_wrote (s : State) (p a : Nat) (bs : Bytes) (priv : Bool) : s.Wrote (s.devWrite p a bs priv).1 p where
  block   := by simp [sameBlock]
  engines := fun d => State.devWrite_engines s p a bs priv d
  next    := (congrArg Part.next (State.devWrite_around s p a p bs priv) :)
  job     := (congrArg Part.job (State.devWrite_around s p a p bs priv) :)

/-- A change of the selected job after a write changes nothing else. -/
theorem State.Wrote.modNext {s w : State} {p : Nat} {j : Job} (h : s.Wrote w p) (hn : (s.part p).next = some j) (f : Job → Job) :
    sameBlock s (w.modNext p f) ∧ (∀ d, ((w.modNext p f).core d).engines = (s.core d).engines) ∧
      ((w.modNext p f).part p).next = some (f j) ∧ ((w.modNext p f).part p).job = (s.part p).job := by
  refine ⟨?_, h.engines, ?_, ?_⟩
  · simpa [sameBlock] using h.block
  · rw [State.modNext, State.part_setPart, h.next, hn]
    rfl
  · rw [State.modNext, State.part_setPart, ← h.job]

/-- What a copy-in counts once it has been written (R462). -/
theorem State.Wrote.gevent {s w : State} {p : Nat} (h : s.Wrote w p) (b i e n : Nat) : s.Wrote (w.gevent b i e n) p where
  block   := by simpa [sameBlock] using h.block
  engines := fun d => by rw [State.gevent_core, h.engines]
  next    := by rw [State.part_of_parts (s := w) (by simp), h.next]
  job     := by rw [State.part_of_parts (s := w) (by simp), h.job]

section
variable {s : State} {p : Nat} {j : Job} {c : CopyEntry} {rest : List CopyEntry}

/-- The copying of the selected job has failed at an entry. -/
def State.copyInLost (s : State) (p : Nat) (c : CopyEntry) : State := s.modNext p (fun j => j.copyInFailed c.index)

/-- A copy-in has reached the partition's memory. -/
def State.copiedIn (s : State) (p : Nat) (c : CopyEntry) : State :=
  (s.gevent 6 0 3 c.len).modNext p (fun j => ({ j with copyIns := j.copyIns.drop 1 } : Job).dropBad)

theorem doHostCopyIn_ok {w : State} {bs : Bytes} (hn : (s.part p).next = some j) (hc : j.copyIns = c :: rest)
    (hw : s.devWrite p c.dev (padTo c.len bs) false = (w, .ok ())) :
    s.doHostCopyIn p (some bs) = (w.copiedIn p c).promote p := by
  simp only [State.doHostCopyIn, hn, hc, hw, State.copiedIn]

/-- A copy-in that cannot be read or written ends the copying (R383). -/
theorem doHostCopyIn_fails {data : HostRead} (hn : (s.part p).next = some j) (hc : j.copyIns = c :: rest)
    (hd : data = none ∨ ∃ bs e, data = some bs ∧ (s.devWrite p c.dev (padTo c.len bs) false).2 = .error e) :
    ∃ w, s.Wrote w p ∧ s.doHostCopyIn p data = (w.copyInLost p c).promote p := by
  rcases hd with rfl | ⟨bs, e, rfl, hw⟩
  · exact ⟨s, .refl s p, by simp only [State.doHostCopyIn, hn, hc, State.copyInLost]⟩
  · exact ⟨_, s.devWrite_wrote p c.dev (padTo c.len bs) false, by simp only [State.doHostCopyIn, hn, hc, hw, State.copyInLost]⟩

end

/-! ## Copy-outs -/

section
variable {s : State} {p : Nat} {j : Job} {c : CopyEntry} {rest : List CopyEntry}

/-- The job's copying-out has failed at an entry. -/
def State.copyOutLost (s : State) (p : Nat) (c : CopyEntry) : State := s.modJob p (fun j => { j with copyFail := some c.index })

/-- A copy-out has left for the host. -/
def State.copiedOut (s : State) (p : Nat) (c : CopyEntry) (bs : Bytes) : State :=
  ((s.gevent 6 0 3 c.len).modJob p (fun j => { j with copyOuts := j.copyOuts.filter (fun x => decide (c.index < x.index)) })).emit
    (.hostWrite (.vf p) c.host bs)

/-- A copy-out that can be read and written leaves for the host, any other fails the copying (R383). -/
theorem doHostCopyOut_cases (ok : Bool) (hj : (s.part p).job = some j) (ho : j.over = true) (hd : j.outsDue = c :: rest) :
    let r := s.devRead p c.dev c.len false
    (∃ bs, ok = true ∧ r.2 = .ok bs ∧ s.doHostCopyOut p ok = r.1.copiedOut p c bs) ∨
      ((ok = false ∨ ∃ e, r.2 = .error e) ∧ s.doHostCopyOut p ok = r.1.copyOutLost p c) := by
  intro r
  simp only [State.doHostCopyOut, hj, ho, hd, State.copiedOut, State.copyOutLost]
  cases r.2 with
  | error e => exact .inr ⟨.inr ⟨e, rfl⟩, by simp [r]⟩
  | ok bs =>
    cases ok with
    | false => exact .inr ⟨.inl rfl, by simp [r]⟩
    | true => exact .inl ⟨bs, rfl, rfl, by simp [r]⟩

/-- What a read of memory leaves of a partition's memory and job. -/
theorem State.devRead_keeps (s : State) (p a n q : Nat) (priv : Bool) :
    ((s.devRead p a n priv).1.part q).hbm = (s.part q).hbm ∧ ((s.devRead p a n priv).1.part q).job = (s.part q).job :=
  have h := State.devRead_unpoisoned s p a n q priv
  ⟨(congrArg Part.hbm h :), (congrArg Part.job h :)⟩

theorem copyOutLost_spec (s : State) (p : Nat) (c : CopyEntry) (a n : Nat) (hj : (s.part p).job = some j) :
    let t := (s.devRead p a n false).1.copyOutLost p c
    sameBlock s t ∧ t.cores = s.cores ∧ (∀ q, (t.part q).hbm = (s.part q).hbm) ∧
      (t.part p).job = some { j with copyFail := some c.index } := by
  refine ⟨by simp [sameBlock, State.copyOutLost], by simp [State.copyOutLost], fun q => ?_, ?_⟩
  · rw [State.copyOutLost, State.modJob_hbm, (s.devRead_keeps p a n q false).1]
  · rw [State.copyOutLost, State.modJob, State.part_setPart, (s.devRead_keeps p a n p false).2, hj]
    rfl

theorem copiedOut_spec (s : State) (p : Nat) (c : CopyEntry) (a n : Nat) (bs : Bytes) (hj : (s.part p).job = some j) :
    let t := (s.devRead p a n false).1.copiedOut p c bs
    sameBlock s t ∧ t.cores = s.cores ∧ (∀ q, (t.part q).hbm = (s.part q).hbm) ∧
      (t.part p).job = some { j with copyOuts := j.copyOuts.filter (fun x => decide (c.index < x.index)) } ∧
      .hostWrite (.vf p) c.host bs ∈ t.out := by
  have hpart : ∀ q, ((s.devRead p a n false).1.gevent 6 0 3 c.len).part q = (s.devRead p a n false).1.part q := fun q =>
    State.part_of_parts (by simp) q
  refine ⟨by simp [sameBlock, State.copiedOut], by simp [State.copiedOut], fun q => ?_, ?_, ?_⟩
  · rw [State.copiedOut, State.part_emit, State.modJob_hbm, hpart, (s.devRead_keeps p a n q false).1]
  · rw [State.copiedOut, State.part_emit, State.modJob, State.part_setPart, hpart, (s.devRead_keeps p a n p false).2, hj]
    rfl
  · exact List.mem_append_right _ List.mem_cons_self

end

/-! ## Completion -/

/-- Nothing but partitions, ring pairs and what was sent has changed. -/
def State.onlyRings (s t : State) : Prop :=
  t = { s with parts := t.parts, hif := { s.hif with pairs := t.hif.pairs }, out := t.out }

theorem State.onlyRings_trans {s t u : State} (h : s.onlyRings t) (g : t.onlyRings u) : s.onlyRings u := by
  unfold State.onlyRings at *
  rw [g, h]

theorem State.onlyRings_setPart (s : State) (p : Nat) (x : Part) : s.onlyRings (s.setPart p x) := rfl

theorem State.onlyRings_modRing (s : State) (p n : Nat) (f : Ring → Ring) : s.onlyRings (s.modRing p n f) := rfl

theorem State.onlyRings_putEntry (s : State) {p n : Nat} (irq : Bool) (entry : Nat → Bytes) (hn : n < 64) :
    s.onlyRings (s.putEntry p n irq entry) := by
  have h := (s.putEntry_spec p n irq entry hn).1
  unfold State.onlyRings
  rw [h]

/-- Whether a job's completion stops its ring (R386). -/
def Job.stops (j : Job) : Bool := j.stopOnErr && j.verdict.1 != 0 && !j.discard

section
variable (s : State) (p : Nat) (j : Job)

/-- The partition without its running job. -/
def State.vacated : State := s.setPart p { s.part p with job := none }

/-- The running job has left its partition, its completion entry written unless discarded (R379, R384). -/
def State.retired : State :=
  if j.discard then s.vacated p else (s.vacated p).putEntry p j.ring j.irq (j.entry s.ft)

/-- The ring of a completed job stops when asked (R386). -/
def State.ringHalted : State := if j.stops then s.modRing p j.ring (fun r => { r with stopped := true }) else s

/-- A selected job of a ring that has stopped goes back to it (R386). -/
def State.handedBack : State :=
  if j.stops && (s.part p).next.any (fun x => x.ring == j.ring) then s.unselect p else s

/-- The state in which a job has completed and the next one may start. -/
def State.completed : State := ((s.retired p j).ringHalted p j).handedBack p j

end

section
variable {s : State} {p : Nat} {j : Job}

theorem doJobComplete_runs (hj : (s.part p).job = some j) (ho : j.over = true) (hd : j.outsDue = []) :
    s.doJobComplete p = (s.completed p j).promote p := by
  have hover : ¬ ((!j.over) = true ∨ (!j.outsDue.isEmpty) = true) := by simp [ho, hd]
  simp only [State.doJobComplete, hj, if_neg hover]
  unfold State.completed State.handedBack
  have hany : ∀ o : Option Job, (match o with
      | some x => x.ring == j.ring
      | none => false) = o.any (fun x => x.ring == j.ring) := fun o => by cases o <;> rfl
  simp only [← hany]
  rfl

/-- A running job leaves its partition (R384). -/
theorem retired_spec (s : State) (p : Nat) (hr : j.ring < 64) :
    s.onlyRings (s.retired p j) ∧ ((s.retired p j).part p).job = none ∧
      (∀ q m, m < 64 → ¬(q = p ∧ m = j.ring) → (s.retired p j).ring q m = s.ring q m) ∧
      ((s.retired p j).ring p j.ring).stopped = (s.ring p j.ring).stopped := by
  have hjob : ((s.vacated p).part p).job = none := by rw [State.vacated, State.part_setPart]
  unfold State.retired
  split
  · exact ⟨rfl, hjob, fun _ _ _ _ => rfl, rfl⟩
  · obtain ⟨-, hring, -⟩ := (s.vacated p).putEntry_spec p j.ring j.irq (j.entry s.ft) hr
    refine ⟨State.onlyRings_trans (State.onlyRings_setPart s p _) (State.onlyRings_putEntry _ _ _ hr), ?_, fun q m hm hne => ?_, ?_⟩
    · rw [State.part_of_parts (s := s.vacated p) (by simp), hjob]
    · rw [hring q m hm, if_neg hne]
      rfl
    · rw [hring p j.ring hr, if_pos ⟨rfl, rfl⟩]
      rfl

/-- A ring that stops for a failed job is the job's own (R386). -/
theorem ringHalted_spec (s : State) (p : Nat) (hr : j.ring < 64) :
    s.onlyRings (s.ringHalted p j) ∧ (s.ringHalted p j).parts = s.parts ∧ (s.ringHalted p j).out = s.out ∧
      (∀ q m, m < 64 → ¬(q = p ∧ m = j.ring) → (s.ringHalted p j).ring q m = s.ring q m) ∧
      ((s.ringHalted p j).ring p j.ring).stopped = ((s.ring p j.ring).stopped || j.stops) := by
  unfold State.ringHalted
  split
  next h =>
    refine ⟨State.onlyRings_modRing .., rfl, rfl, fun q m hm hne => ?_, ?_⟩
    · rw [State.modRing_ring _ _ _ hr hm, if_neg hne]
    · rw [State.modRing_ring _ _ _ hr hr, if_pos ⟨rfl, rfl⟩, h, Bool.or_true]
  next h =>
    rw [Bool.not_eq_true] at h
    exact ⟨rfl, rfl, rfl, fun _ _ _ _ => rfl, by rw [h, Bool.or_false]⟩

/-- A selected job that goes back is one of the same ring, which keeps all but its head (R386). -/
theorem handedBack_spec (s : State) (p : Nat) (hr : j.ring < 64) :
    s.onlyRings (s.handedBack p j) ∧ ((s.handedBack p j).part p).job = (s.part p).job ∧ (s.handedBack p j).out = s.out ∧
      (∀ q m, m < 64 → ¬(q = p ∧ m = j.ring) → (s.handedBack p j).ring q m = s.ring q m) ∧
      ((s.handedBack p j).ring p j.ring).stopped = (s.ring p j.ring).stopped := by
  unfold State.handedBack
  split
  next h =>
    obtain ⟨-, hany⟩ := Bool.and_eq_true_iff.mp h
    obtain ⟨x, hx, hring⟩ := (Option.any_eq_true _ _).mp hany
    have hxr : x.ring = j.ring := by simpa using hring
    have hun : s.unselect p = (s.setPart p { s.part p with next := none }).modRing p j.ring
        (fun r => { r with head := (r.head + (r.size - 1)) % r.size }) := by
      simp only [State.unselect, hx, hxr]
    rw [hun]
    refine ⟨State.onlyRings_trans (State.onlyRings_setPart s p _) (State.onlyRings_modRing ..), ?_, rfl, fun q m hm hne => ?_, ?_⟩
    · rw [State.part_of_parts (t := State.modRing ..) (s := s.setPart p { s.part p with next := none }) (by simp), State.part_setPart]
    · rw [State.modRing_ring _ _ _ hr hm, if_neg hne]
      rfl
    · rw [State.modRing_ring _ _ _ hr hr, if_pos ⟨rfl, rfl⟩]
      rfl
  next => exact ⟨rfl, rfl, rfl, fun _ _ _ _ => rfl, rfl⟩

/-- What a job leaves that has completed (R384 to R386). -/
theorem completed_spec (s : State) (p : Nat) (hr : j.ring < 64) :
    s.onlyRings (s.completed p j) ∧ ((s.completed p j).part p).job = none ∧
      (∀ q m, m < 64 → ¬(q = p ∧ m = j.ring) → (s.completed p j).ring q m = s.ring q m) ∧
      (s.completed p j).out = (s.retired p j).out ∧
      ((s.completed p j).ring p j.ring).stopped = ((s.ring p j.ring).stopped || j.stops) := by
  obtain ⟨ho1, hjob, hring1, hstop1⟩ := retired_spec s p hr
  obtain ⟨ho2, hparts, hout2, hring2, hstop2⟩ := ringHalted_spec (s.retired p j) p hr
  obtain ⟨ho3, hjob3, hout3, hring3, hstop3⟩ := handedBack_spec ((s.retired p j).ringHalted p j) p hr
  refine ⟨State.onlyRings_trans (State.onlyRings_trans ho1 ho2) ho3, ?_, fun q m hm hne => ?_, hout3.trans hout2, ?_⟩
  · rw [State.completed, hjob3, State.part_of_parts hparts, hjob]
  · rw [State.completed, hring3 q m hm hne, hring2 q m hm hne, hring1 q m hm hne]
  · rw [State.completed, hstop3, hstop2, hstop1]

/-- A discarded job leaves its partition and no trace in its ring (R379). -/
theorem completed_discard (s : State) (p : Nat) (h : j.discard = true) :
    (s.completed p j).out = s.out ∧ (s.completed p j).hif = s.hif := by
  have hs : j.stops = false := by simp [Job.stops, h]
  simp [State.completed, State.handedBack, State.ringHalted, State.retired, hs, h, State.vacated]

/-- The completion entry of a job goes to its ring, with the ring's vector when asked (R384, R385). -/
theorem retired_out (s : State) (p : Nat) (hr : j.ring < 64) (h : j.discard = false) :
    (s.retired p j).out = s.out ++ .hostWrite (.vf p)
      ((s.ring p j.ring).base + 64 * (s.ring p j.ring).size + 32 * (s.ring p j.ring).cqIdx)
      (j.entry s.ft (b2n (s.ring p j.ring).phase)) :: (if j.irq then [.msix (.vf p) (s.ring p j.ring).vector] else []) := by
  obtain ⟨-, -, hout⟩ := (s.vacated p).putEntry_spec p j.ring j.irq (j.entry s.ft) hr
  rw [State.retired, h]
  exact hout

end

/-! ## The start of a selected job -/

section
variable {s u : State} {p : Nat} {j : Job} {h : Bytes} {dir : List DirEntry}

/-- A job whose image has been read, as it runs (R175, R177). -/
def Job.begun (j : Job) (h : Bytes) (dir : List DirEntry) (fc : Option (List Nat)) : Job :=
  { j with
    launched := true, forecast := fc.isSome, fcEnds := fc.getD [], cplBase := u64 h 32
    cplSlots := if u64 h 32 = 0 then 0 else u32 h 40, tokenLimit := u32 h 44, resultBase := u64 h 48, barLimit := u32 h 56, dir }

/-- The state in which the streams of a job begin: its image and forecast have been read and it is the running job. -/
def State.admitted (u : State) (p : Nat) (j : Job) (h : Bytes) (dir : List DirEntry) : State :=
  let f := u.readForecast p h dir
  f.1.setPart p { f.1.part p with job := some (j.begun h dir f.2) }

theorem launchJob_ok (hr : s.readImage p j.image = (u, .ok (h, dir))) :
    s.launchJob p j = (u.admitted p j h dir).startCores p j.args (u64 h 24) dir := by
  simp only [State.launchJob, hr, State.admitted, Job.begun]

/-- The selected job of an idle partition that may start jobs becomes the running one (R382). -/
theorem promote_launches (hj : (s.part p).job = none) (hn : (s.part p).next = some j) (hm : s.jobsMayStart p = true)
    (hc : j.copyIns = []) (he : j.early = none) :
    s.promote p = (s.setPart p { s.part p with job := some j, next := none }).launchJob p j := by
  simp [State.promote, hj, hn, hm, hc, he]

theorem readImage_state (hr : s.readImage p j.image = (u, .ok (h, dir))) : u = (s.readImage p j.image).1 := by rw [hr]

theorem admitted_core (hr : s.readImage p j.image = (u, .ok (h, dir))) (d : Nat) :
    (u.admitted p j h dir).core d = s.core d := by
  rw [readImage_state hr, State.admitted, State.core_setPart]
  simp [State.core]

theorem admitted_coresOf (hr : s.readImage p j.image = (u, .ok (h, dir))) :
    (u.admitted p j h dir).coresOf p = s.coresOf p := by
  rw [readImage_state hr]
  exact coresOf_of (by simp [State.admitted]) (by simp [State.admitted]) (by simp [State.admitted]) p

/-- What a launched job leaves of its partition. -/
theorem launched_part (hr : s.readImage p j.image = (u, .ok (h, dir))) (hn : (s.part p).next = none) :
    ((s.launchJob p j).part p).next = none ∧
      ((s.launchJob p j).part p).job = some (j.begun h dir (u.readForecast p h dir).2) := by
  rw [launchJob_ok hr, State.part_of_parts (s := u.admitted p j h dir) (by simp), State.admitted, State.part_setPart]
  have hnext : ((u.readForecast p h dir).1.part p).next = (s.part p).next :=
    (congrArg Part.next ((u.readForecast_unpoisoned p p h dir).trans
      (readImage_state hr ▸ s.readImage_unpoisoned p j.image p)) :)
  exact ⟨hnext.trans hn, rfl⟩

end

/-- Settles O27: copies by what a write or a read leaves, a completion by its rings, a start by the streams it begins. -/
theorem jobsRun : Obligations.JobsRun := by
  intro s p hh
  refine ⟨fun j c rest data hn hc => ⟨fun bs w hd hw => ?_, fun hd => ?_⟩, fun j c rest ok hj ho hd => ?_,
    fun j hj ho hd hr => ?_, ?_⟩
  · subst hd
    have hwrote : s.Wrote w p := by simpa [hw] using s.devWrite_wrote p c.dev (padTo c.len bs) false
    obtain ⟨hblock, hE, hnext, hjob⟩ := (hwrote.gevent 6 0 3 c.len).modNext hn
      (fun j => ({ j with copyIns := j.copyIns.drop 1 } : Job).dropBad)
    refine ⟨w.copiedIn p c, reporting_next hh (doHostCopyIn_ok hn hc hw), hblock, hE, fun q => ?_,
      by simp [State.copiedIn], ?_, hjob⟩
    · rw [State.copiedIn, State.modNext_hbm, State.part_of_parts (s := w) (by simp)]
    · rw [State.copiedIn, hnext, hc, List.drop_one, List.tail_cons]
  · obtain ⟨w, hwrote, hrun⟩ := doHostCopyIn_fails hn hc hd
    obtain ⟨hblock, hE, hnext, hjob⟩ := hwrote.modNext hn (fun j => j.copyInFailed c.index)
    exact ⟨w.copyInLost p c, reporting_next hh hrun, hblock, hE, hnext, hjob⟩
  · rcases doHostCopyOut_cases ok hj ho hd with ⟨bs, rfl, hr, hrun⟩ | ⟨hf, hrun⟩
    · obtain ⟨hblock, hcores, hhbm, hjob, hout⟩ := copiedOut_spec s p c c.dev c.len bs hj
      refine ⟨_, (engine_next hh).trans (congrArg _ hrun), hblock, hcores, hhbm, fun bs' w _ hr' => ?_, fun h => by simp [hr] at h⟩
      obtain rfl : bs = bs' := by simpa [hr'] using hr.symm
      exact ⟨hjob, hout⟩
    · obtain ⟨hblock, hcores, hhbm, hjob⟩ := copyOutLost_spec s p c c.dev c.len hj
      exact ⟨_, (engine_next hh).trans (congrArg _ hrun), hblock, hcores, hhbm, fun bs w hok hr => by simp [hok, hr] at hf,
        fun _ => hjob⟩
  · obtain ⟨hrings, hjob, hring, hout, hstop⟩ := completed_spec s p hr
    refine ⟨s.completed p j, reporting_next hh (doJobComplete_runs hj ho hd), hrings, hjob, hring,
      completed_discard s p, fun hk => ⟨hout.trans (retired_out s p hr hk), ?_⟩⟩
    rw [hstop, Job.stops, hk, Bool.not_false, Bool.and_true]
  · intro j u h dir entry copies hj hn hm hc he s1 hi hnd
    have hrun : s.doJobStart p entry copies = s1.launchJob p j := by
      rw [State.doJobStart, if_pos (by simp [hn]), promote_launches hj hn hm hc he]
    obtain ⟨hnext, hjob⟩ := launched_part hi (by rw [State.part_setPart])
    have hcores := State.startCores_spec (u.admitted p j h dir) p j.args (u64 h 24) dir
      (by rw [admitted_coresOf hi]; exact hnd) (State.readImage_noRepeat hi)
    rw [← launchJob_ok hi, admitted_coresOf hi] at hcores
    obtain ⟨hothers, hbegun⟩ := hcores
    refine ⟨s1.launchJob p j, reporting_next hh hrun, by simp [sameBlock, s1], hnext,
      ⟨_, hjob, rfl, rfl, rfl, rfl⟩, fun d hd => ?_, fun i e c hi' hl => ?_⟩
    · rw [hothers d hd, admitted_core hi]
      rfl
    · rw [hbegun i e c hi' hl]
      exact ⟨rfl, rfl, rfl, rfl, rfl, rfl⟩

end Sys2Proof.Machine
end

