-- ==== Sys2Proof/Proofs/ChannelMoves.lean ====
section
/-! SUPPORT. How a DMA channel moves its run on: batches, descriptors, requests and checksums (R228, R232, R240, R244, R251, R267). -/

namespace Sys2Proof.Machine

open Sys2Proof.Safety

/-! ## Work that keeps the channels -/

theorem sameBlock_trans {s t u : State} (h : sameBlock s t) (g : sameBlock t u) : sameBlock s u := by
  simp_all [sameBlock]

/-- From `s` to `u` no engine, no channel and nothing of the module around them has changed. -/
structure State.KeepsChannels (s u : State) : Prop where
  block   : sameBlock s u
  engines : ∀ d, (u.core d).engines = (s.core d).engines
  bdies   : u.bdies = s.bdies

namespace State.KeepsChannels

variable {s t u : State}

theorem refl (s : State) : s.KeepsChannels s := ⟨sameBlock_refl s, fun _ => rfl, rfl⟩

theorem trans (h : s.KeepsChannels t) (g : t.KeepsChannels u) : s.KeepsChannels u :=
  ⟨sameBlock_trans h.block g.block, fun d => (g.engines d).trans (h.engines d), g.bdies.trans h.bdies⟩

/-- What an operation leaves, named by what the operation answers. -/
theorem of_eq {α : Type} {x : State × α} {a : α} (h : s.KeepsChannels x.1) (hx : x = (u, a)) : s.KeepsChannels u := by
  rwa [hx] at h

/-- Work that is done for one kind of channel only. -/
theorem ite {b : Bool} (h : s.KeepsChannels t) : s.KeepsChannels (if b then t else s) := by
  cases b
  · exact refl s
  · exact h

theorem channelIs {ch : Chan} {k : Chn} (h : s.KeepsChannels u) (hk : channelIs s ch k) : channelIs u ch k := by
  obtain ⟨-, -, -, -, -, -, -, -, hlmap, -⟩ := h.block
  exact channelIs_of h.engines hlmap h.bdies hk

theorem entry (h : s.KeepsChannels u) (c q i : Nat) : entry u c q i = entry s c q i :=
  entry_of_queues (Core.queues_of_engines (h.engines c)) q i

theorem runEnv (h : s.KeepsChannels u) (r : ChRun) : u.runEnv r = s.runEnv r := by
  obtain ⟨-, hgrade, -, -, hlayout, -, -, -, hlmap, -⟩ := h.block
  rw [State.runEnv, State.runEnv, partOfPhys_of hlayout, coresOf_of hlmap hlayout hgrade]

end State.KeepsChannels

section
variable (s : State)

theorem State.event_keepsChannels (c ev n : Nat) : s.KeepsChannels (s.event c ev n) :=
  ⟨by simp [sameBlock], by simp, by simp⟩

theorem State.watchRead_keepsChannels (ch : Chan) (r : ChRun) (c : Cur) (line : Nat) : s.KeepsChannels (s.watchRead ch r c line) :=
  ⟨by simp [sameBlock], by simp, by simp⟩

theorem State.wroteEvents_keepsChannels (c : Nat) (l : Loc) (n : Nat) : s.KeepsChannels (s.wroteEvents c l n) :=
  ⟨by simp [sameBlock], by simp, by simp⟩

theorem State.locRead_keepsChannels (p : Nat) (l : Loc) (n : Nat) : s.KeepsChannels (s.locRead p l n).1 :=
  ⟨by simp [sameBlock], by simp, by simp⟩

theorem State.locReadFlt_keepsChannels (p : Nat) (l : Loc) (n : Nat) (flt : MemFault) : s.KeepsChannels (s.locReadFlt p l n flt).1 :=
  ⟨by simp [sameBlock], by simp, by simp⟩

theorem State.locWriteFlt_keepsChannels (p : Nat) (l : Loc) (bs : Bytes) (flt : MemFault) :
    s.KeepsChannels (s.locWriteFlt p l bs flt).1 := ⟨by simp [sameBlock], by simp, by simp⟩

theorem State.devWrite_keepsChannels (p a : Nat) (bs : Bytes) (priv : Bool) : s.KeepsChannels (s.devWrite p a bs priv).1 :=
  ⟨by simp [sameBlock], by simp, by simp⟩

end

section
variable {s u : State} {ch : Chan} {k : Chn} {r : ChRun}

/-- Work that keeps the channels and then a change of a channel's run. -/
theorem channelIs_moved (h : s.KeepsChannels u) (hk : channelIs s ch k) (hr : k.run = some r) (f : ChRun → ChRun) :
    sameBlock s (u.modRun ch f) ∧ channelIs (u.modRun ch f) ch { k with run := some (f r) } := by
  refine ⟨sameBlock_trans h.block (by simp [sameBlock]), ?_⟩
  simpa [hr] using channelIs_modRun f (h.channelIs hk)

/-- Work that keeps the channels and then the end of a channel's run. -/
theorem channelIs_finished (h : s.KeepsChannels u) (hk : channelIs s ch k) (hr : k.run = some r) (o : Outcome) :
    sameBlock s (u.finishRun ch o) ∧ channelIs (u.finishRun ch o) ch { k with run := none } ∧
      ∀ i e, entry s r.core 3 i = some e → e.serial = r.serial →
        entry (u.finishRun ch o) r.core 3 i = some { e with phase := o.phase } := by
  obtain ⟨hchan, hentry⟩ := finishRun_channel u ch k o (h.channelIs hk) hr
  exact ⟨sameBlock_trans h.block (by simp [sameBlock]), hchan, fun i e he => hentry i e ((h.entry _ _ _).trans he)⟩

/-! ## Batches and descriptors -/

/-- A batch of descriptors that all check is merged and ready (R228). -/
theorem State.takeBatch_checked {bs : Bytes} {ds : List Desc}
    (h : (List.range (bs.length / 64)).map (fun i => readDesc (s.runEnv r) (chanIsCore ch) r.srcAdj r.dstAdj (r.next + i)
      ((bs.drop (64 * i)).take 64)) = ds.map some) :
    s.takeBatch ch r bs =
      s.modRun ch (fun r => { r with next := r.next + bs.length / 64, batch := mergeDescs [] ds }) := by
  have hnone : (ds.map some).findIdx? (·.isNone) = none := by simp
  have hall : (ds.map some).reduceOption = ds := by simp [List.reduceOption]
  simp only [State.takeBatch, h, hnone, hall]

theorem doDescriptorFetch_checked {bs : Bytes} {ds : List Desc} (hk : channelIs s ch k) (hr : k.run = some r) (he : r.err = none)
    (hb : r.batch = []) (hc : r.cur = none) (hn : r.next < r.count)
    (hread : s.locRead (s.chanPart ch) (r.list.plus (64 * r.next)) (64 * min 32 (r.count - r.next)) = (u, .ok bs))
    (hds : (List.range (bs.length / 64)).map (fun i => readDesc (s.runEnv r) (chanIsCore ch) r.srcAdj r.dstAdj (r.next + i)
      ((bs.drop (64 * i)).take 64)) = ds.map some) :
    s.KeepsChannels u ∧ s.doDescriptorFetch ch =
      u.modRun ch (fun r => { r with next := r.next + bs.length / 64, batch := mergeDescs [] ds }) := by
  have hu : s.KeepsChannels u := (s.locRead_keepsChannels _ _ _).of_eq hread
  refine ⟨hu, ?_⟩
  rw [← hu.runEnv] at hds
  rw [← State.takeBatch_checked hds]
  simp [State.doDescriptorFetch, channelIs_chn hk, hr, he, hb, hc, hread, Nat.not_le.mpr hn]

/-- A descriptor of a copy as it starts, tagged and with the reads of its first row planned (R232, R244). -/
def State.startedDesc (s : State) (r : ChRun) (d : Desc) (lens : List (Nat × Nat)) : Cur :=
  { desc := d, lens, conv := none, reads := locPieces (d.srcRow 0) d.rowBytes, buf := [], writes := [], row := 0
    tag := s.tagOf r.core d, remote := none, lost := false, redo := none }

theorem State.tagOf_modRun (f : ChRun → ChRun) (c : Nat) (d : Desc) : (s.modRun ch f).tagOf c d = s.tagOf c d := by
  simp [State.tagOf, modRun_seq]

/-- A descriptor without conversion starts; a core channel counts it (R461). -/
theorem State.beginDesc_copy {d : Desc} (lens : List (Nat × Nat)) (hd : d.conv = 0) :
    ∃ u, s.KeepsChannels u ∧
      s.beginDesc ch r d lens none = u.modRun ch (fun x => { x with cur := some (s.startedDesc r d lens) }) := by
  refine ⟨_, .ite (b := chanIsCore ch) (s.event_keepsChannels r.core 0x0402 1), ?_⟩
  simp only [State.beginDesc, if_pos hd, State.startedDesc, rowReads]

theorem doDescriptorStart_copy {d : Desc} {lens : List (Nat × Nat)} {rest : List (Desc × List (Nat × Nat))}
    (hk : channelIs s ch k) (hr : k.run = some r) (he : r.err = none) (hc : r.cur = none) (hb : r.batch = (d, lens) :: rest)
    (hw : s.windowBusy r.core d = false) (hd : d.conv = 0) :
    sameBlock s (s.doDescriptorStart ch) ∧ channelIs (s.doDescriptorStart ch) ch
      { k with run := some { r with batch := rest, cur := some (s.startedDesc r d lens) } } := by
  have hrun : s.doDescriptorStart ch = (s.modRun ch (fun r => { r with batch := rest })).beginDesc ch r d lens none := by
    simp [State.doDescriptorStart, channelIs_chn hk, hr, he, hc, hb, hw]
  obtain ⟨hblock, hchan⟩ := channelIs_moved (.refl s) hk hr (fun r => { r with batch := rest })
  obtain ⟨u, hu, hbegin⟩ := State.beginDesc_copy (s := s.modRun ch (fun r => { r with batch := rest })) (ch := ch) (r := r) lens hd
  obtain ⟨hblock', hchan'⟩ := channelIs_moved hu hchan rfl
    (fun x => { x with cur := some ((s.modRun ch (fun r => { r with batch := rest })).startedDesc r d lens) })
  rw [hrun, hbegin]
  refine ⟨sameBlock_trans hblock hblock', ?_⟩
  simpa [State.startedDesc, State.tagOf_modRun] using hchan'

/-! ## Requests -/

section
variable {c : Cur}

/-- A read that has answered adds its bytes while reads of the row are left (R251). -/
theorem State.gotRead_more {l l2 : Loc × Nat} {rest : List (Loc × Nat)} (bs : Bytes) (hk : channelIs s ch k) (hr : k.run = some r)
    (hc : r.cur = some c) (hreads : c.reads = l :: l2 :: rest) :
    ∃ u, s.KeepsChannels u ∧ s.gotRead ch bs = u.modRun ch (fun r =>
      { r with cur := some { c with reads := l2 :: rest, buf := c.buf ++ bs, remote := none, lost := false } }) := by
  have hcount := KeepsChannels.ite (b := chanIsCore ch) (s.event_keepsChannels r.core 0x0400 bs.length)
  refine ⟨_, hcount.trans (State.watchRead_keepsChannels _ ch r c (lineOf (s.bankAddr (s.chanPart ch) l.1.num))), ?_⟩
  simp only [State.gotRead, channelIs_chn hk, hr, hc, hreads]
  exact if_neg (List.cons_ne_nil _ _)

/-- A write that has been answered leaves the rest of the row's writes (R238). -/
theorem State.gotWrite_more {w w2 : Loc × Bytes} {rest : List (Loc × Bytes)} (hk : channelIs s ch k) (hr : k.run = some r)
    (hc : r.cur = some c) (hwrites : c.writes = w :: w2 :: rest) :
    s.gotWrite ch = s.modRun ch (fun r =>
      { r with cur := some { c with writes := w2 :: rest, remote := none, lost := false } }) := by
  simp [State.gotWrite, channelIs_chn hk, hr, hc, hwrites]

theorem doReadRequest_served {l : Loc} {n : Nat} {rest : List (Loc × Nat)} {flt : MemFault} {bs : Bytes} (hk : channelIs s ch k)
    (hr : k.run = some r) (he : r.err = none) (hc : r.cur = some c) (hreads : c.reads = (l, n) :: rest) (hremote : c.remote = none)
    (hlost : c.lost = false) (hd : c.desc.remSrc = false) (hf : flt ≠ .noResponse)
    (hread : s.locReadFlt (s.chanPart ch) l n flt = (u, .ok bs)) : s.doReadRequest ch flt = u.gotRead ch bs := by
  simp [State.doReadRequest, channelIs_chn hk, hr, he, hc, hreads, hremote, hlost, hd, hf, hread]

theorem doWriteRequest_taken {l : Loc} {bs : Bytes} {rest : List (Loc × Bytes)} {flt : MemFault} (hk : channelIs s ch k)
    (hr : k.run = some r) (he : r.err = none) (hc : r.cur = some c) (hwrites : c.writes = (l, bs) :: rest) (hremote : c.remote = none)
    (hlost : c.lost = false) (hd : c.desc.remDst = false) (hg : c.desc.gtb = false) (hf : flt ≠ .noResponse)
    (hwrite : s.locWriteFlt (s.chanPart ch) l bs flt = (u, .ok ())) :
    s.doWriteRequest ch flt = (if chanIsCore ch then u.wroteEvents r.core l bs.length else u).gotWrite ch := by
  simp [State.doWriteRequest, channelIs_chn hk, hr, he, hc, hwrites, hremote, hlost, hd, hg, hf, hwrite]

/-- What a channel counts of a write leaves channels, partitions and core stores as they are. -/
theorem State.wroteEvents_if (l : Loc) (n core : Nat) :
    let v := if chanIsCore ch then u.wroteEvents core l n else u
    u.KeepsChannels v ∧ v.parts = u.parts ∧ ∀ d, (v.core d).store = (u.core d).store := by
  refine ⟨.ite (u.wroteEvents_keepsChannels ..), by simp, fun d => ?_⟩
  rw [State.ite_core]
  split
  · exact wroteEvents_store u core l n d
  · rfl

/-! ## Checksums -/

/-- The end of the last descriptor of a list ends the run with its ledger (R228). -/
theorem State.endDesc_last (hk : channelIs s ch k) (hr : k.run = some r) (hc : r.cur = some c) (hredo : c.redo = none)
    (hb : r.batch = []) (hn : r.count ≤ r.next) :
    s.endDesc ch = (s.modRun ch (fun r => { r with cur := none })).finishRun ch (.good r.led) := by
  simp [State.endDesc, channelIs_chn hk, hr, hc, hredo, hb, hn]

theorem doCrcFinish_writes (hk : channelIs s ch k) (hr : k.run = some r) (he : r.err = none) (hc : r.cur = some c)
    (hreads : c.reads = []) (hwrites : c.writes = []) (hrows : c.rowsLeft = false) (hcrc : c.desc.crcWrite = true)
    (hwrite : (s.modRun ch (fun r => { r with crc := 0xFFFFFFFF })).devWrite (s.chanPart ch) c.desc.crcAddr
      (toLe 4 (r.crc ^^^ 0xFFFFFFFF)) false = (u, .ok ())) : s.doCrcFinish ch = u.endDesc ch := by
  simp [State.doCrcFinish, channelIs_chn hk, hr, he, hc, hreads, hwrites, hrows, hcrc, hwrite]

end

end

/-- Settles O14: each command's run is one change of the channel's run after work that keeps the channels. -/
theorem descriptorMoves : Obligations.DescriptorMoves := by
  intro s ch k r hheld hk hr he p
  refine ⟨fun u bs ds hb hc hn hread hds => ?_, fun d lens rest hc hb hw hd => ?_,
    fun c l n l2 rest flt u bs hc hreads hremote hlost hd hf hread => ?_,
    fun c l bs w rest flt u hc hwrites hremote hlost hd hg hf hwrite => ?_,
    fun c u hc hreads hwrites hrows hredo hcrc hb hn hwrite => ?_⟩
  · obtain ⟨hu, hrun⟩ := doDescriptorFetch_checked hk hr he hb hc hn hread hds
    exact ⟨_, (engine_next hheld).trans (congrArg _ hrun), channelIs_moved hu hk hr _⟩
  · exact ⟨_, engine_next hheld, doDescriptorStart_copy hk hr he hc hb hw hd⟩
  · have hu : s.KeepsChannels u := (s.locReadFlt_keepsChannels p l n flt).of_eq hread
    obtain ⟨v, hv, hgot⟩ := State.gotRead_more bs (hu.channelIs hk) hr hc hreads
    have hrun := (doReadRequest_served hk hr he hc hreads hremote hlost hd hf hread).trans hgot
    rw [← hremote, ← hlost] at hrun
    exact ⟨_, (engine_next hheld).trans (congrArg _ hrun), channelIs_moved (hu.trans hv) hk hr _⟩
  · have hu : s.KeepsChannels u := (s.locWriteFlt_keepsChannels p l bs flt).of_eq hwrite
    obtain ⟨hv, hparts, hstore⟩ := State.wroteEvents_if (u := u) (ch := ch) l bs.length r.core
    have hrun := (doWriteRequest_taken hk hr he hc hwrites hremote hlost hd hg hf hwrite).trans
      (State.gotWrite_more ((hu.trans hv).channelIs hk) hr hc hwrites)
    rw [← hremote, ← hlost] at hrun
    obtain ⟨hblock, hchan⟩ := channelIs_moved (hu.trans hv) hk hr
      (fun r => { r with cur := some { c with writes := w :: rest } })
    exact ⟨_, (engine_next hheld).trans (congrArg _ hrun), hblock, by simp [hparts], fun d => by rw [modRun_store, hstore], hchan⟩
  · obtain ⟨hblock, hchan⟩ := channelIs_moved (.refl s) hk hr (fun r => { r with crc := 0xFFFFFFFF })
    have hu : (s.modRun ch (fun r => { r with crc := 0xFFFFFFFF })).KeepsChannels u :=
      (State.devWrite_keepsChannels _ p _ _ false).of_eq hwrite
    have hrun := (doCrcFinish_writes hk hr he hc hreads hwrites hrows hcrc hwrite).trans
      (State.endDesc_last (hu.channelIs hchan) rfl hc hredo hb hn)
    obtain ⟨hblock', hchan'⟩ := channelIs_moved hu hchan rfl (fun r => { r with cur := none })
    obtain ⟨hblock'', hfree, hdone⟩ := channelIs_finished (.refl _) hchan' rfl (.good r.led)
    refine ⟨_, (engine_next hheld).trans (congrArg _ hrun), sameBlock_trans hblock (sameBlock_trans hblock' hblock''),
      by simp, hfree, fun i e hi hserial => hdone i e ?_ hserial⟩
    rw [entry_of_queues (modRun_queues ..), hu.entry, entry_of_queues (modRun_queues ..)]
    exact hi

end Sys2Proof.Machine
end

