-- ==== Sys2Proof/Proofs/ChannelFaults.lean ====
section
/-! SUPPORT. How a DMA channel's run fails, how a stale consumer is held, and how a missed deadline is noted (R241, R242, R253, R256,
R257, R269). -/

namespace Sys2Proof.Machine

open Sys2Proof.Safety

/-- A host access over a link that is up acts (R434, R479). -/
theorem overLink_next {s : State} (f : State → State) (h : s.chip.power = .on) (hp : s.chip.perst = false) :
    (.next (s.overLink f) : Host.Outcome State Fault Refusal) = .next (f s) := congrArg _ (State.overLink_up f h hp)

section
variable {s : State} {ch : Chan} {k : Chn} {r : ChRun}

/-! ## Bus errors and the latch -/

theorem sameBlock_setChn (s : State) (ch : Chan) (x : Chn) : sameBlock s (s.setChn ch x) := by simp [sameBlock]

theorem doDmaBusError_runs {x : ErrLatch} (hk : channelIs s ch k) (hr : k.run = some r) (he : r.err = some x) :
    s.doDmaBusError ch = (s.setChn ch { k with latch := some x }).finishRun ch (.bad Code.busErr x.addr) := by
  simp only [State.doDmaBusError, channelIs_chn hk, hr, he]

/-- A channel that has met an error latches it, and its record fails (R241). -/
theorem doDmaBusError_spec {x : ErrLatch} (hk : channelIs s ch k) (hr : k.run = some r) (he : r.err = some x) :
    sameBlock s (s.doDmaBusError ch) ∧ channelIs (s.doDmaBusError ch) ch { k with run := none, latch := some x } ∧
      ∀ i e, entry s r.core 3 i = some e → e.serial = r.serial →
        entry (s.doDmaBusError ch) r.core 3 i = some { e with phase := (Outcome.bad Code.busErr x.addr).phase } := by
  rw [doDmaBusError_runs hk hr he]
  obtain ⟨hblock, hfree, hdone⟩ := channelIs_finished (.refl _) (channelIs_setChn { k with latch := some x } hk) hr
    (.bad Code.busErr x.addr)
  refine ⟨sameBlock_trans (sameBlock_setChn ..) hblock, hfree, fun i e hi => hdone i e ?_⟩
  exact (entry_of_queues (setChn_seq s ch _ _).2.1 3 i).trans hi

theorem State.postEvent_keepsChannels (s : State) (ring : Fn) (code : Nat) (detail : Bytes) :
    s.KeepsChannels (s.postEvent ring code detail) := ⟨by simp [sameBlock], by simp, by simp⟩

/-- A lost read of the module's own memory ends as an error response of cause 4 (R269). -/
theorem doRequestWatchdog_lostRead {c : Cur} {l : Loc} {n : Nat} {rest : List (Loc × Nat)} (hk : channelIs s ch k)
    (hr : k.run = some r) (he : r.err = none) (hc : r.cur = some c) (hreads : c.reads = (l, n) :: rest) (hlost : c.lost = true)
    (hremote : c.remote = none) :
    s.doRequestWatchdog ch = (s.postEvent (.vf (s.chanPart ch)) Code.reqWatchdog
      (s.watchdogDetail (s.chanPart ch) (some l) l.num n)).stopRun ch l.num false (c.holder l false) 4 0 false := by
  simp [State.doRequestWatchdog, channelIs_chn hk, hr, he, hc, hreads, hlost, hremote]

/-! ## Stale-watch windows -/

section
variable {l c q i w : Nat} {e : QEntry} {x : Watch}

/-- A window whose descriptor is to run once more (R253). -/
def Watch.again (x : Watch) : Watch := { x with flag := false, redoing := true, served := [] }

theorem doStaleCheck_reissued (hp : s.physOf l = some c) (hf : firstWaiting 0 ((s.core c).queue q) = some (i, e))
    (hw : (s.core c).waitOk e = true) (hb : (s.core c).behindBarrier e.serial = false) (hh : (s.core c).holding e = some (w, x))
    (hx : x.reissued = true) : s.doStaleCheck l q = s.startEntry c q i e (Outcome.bad Code.stale 0).phase := by
  simp [State.doStaleCheck, hp, hf, hw, hb, hh, hx]

/-- A consumer whose window has been re-issued completes with E_STALE (R253). -/
theorem doStaleCheck_stale (hp : s.physOf l = some c) (hf : firstWaiting 0 ((s.core c).queue q) = some (i, e))
    (hw : (s.core c).waitOk e = true) (hb : (s.core c).behindBarrier e.serial = false) (hh : (s.core c).holding e = some (w, x))
    (hx : x.reissued = true) :
    sameModule s (s.doStaleCheck l q) ∧
      entry (s.doStaleCheck l q) c q i = some { e with phase := (Outcome.bad Code.stale 0).phase } := by
  obtain ⟨-, he, -⟩ := firstWaiting_some hf
  rw [doStaleCheck_reissued hp hf hw hb hh hx]
  exact ⟨by simp [sameModule, sameAround], State.startEntry_entry _ he (by simp [Outcome.phase])⟩

theorem setChn_watches (s : State) (ch : Chan) (x : Chn) (d : Nat) : ((s.setChn ch x).core d).watches = (s.core d).watches := by
  cases ch with
  | bulk b n => simp [State.setChn, State.core]
  | core l n =>
    simp only [State.setChn]
    cases hp : s.physOf l with
    | none => simp [State.setLcore, hp]
    | some c =>
      rw [State.setLcore_of_phys hp, State.lcore_of_phys hp, State.core_setCore_if]
      split
      next h => rw [h]
      next => rfl

theorem setChn_core_sameModule (s : State) (l n : Nat) (x : Chn) : sameModule s (s.setChn (.core l n) x) := by
  have hb : (s.setChn (.core l n) x).bdies = s.bdies := by simp [State.setChn]
  simp [sameModule, sameAround, hb]

theorem doStaleCheck_again {d : Desc} (hp : s.physOf l = some c) (hf : firstWaiting 0 ((s.core c).queue q) = some (i, e))
    (hw : (s.core c).waitOk e = true) (hb : (s.core c).behindBarrier e.serial = false) (hh : (s.core c).holding e = some (w, x))
    (hx : x.reissued = false) (hd : x.desc = some d) (hk : channelIs s (.core l x.chan) k) :
    s.doStaleCheck l q = (s.setCore c { s.core c with watches := modAt (s.core c).watches w Watch.again }).setChn (.core l x.chan)
      { k with redo := some (d, w) } := by
  have hchn : (s.setCore c { s.core c with watches := modAt (s.core c).watches w Watch.again }).chn (.core l x.chan) = k := by
    have hp' : (s.setCore c { s.core c with watches := modAt (s.core c).watches w Watch.again }).physOf l = some c := hp
    rw [← channelIs_chn hk, State.chn, State.chn, State.lcore_of_phys hp', State.lcore_of_phys hp, State.core_setCore]
  rw [← hchn]
  simp [State.doStaleCheck, hp, hf, hw, hb, hh, hx, hd]
  rfl

/-- Otherwise the channel takes the descriptor again, and the window's flag is clear (R253). -/
theorem doStaleCheck_redo {d : Desc} (hp : s.physOf l = some c) (hf : firstWaiting 0 ((s.core c).queue q) = some (i, e))
    (hw : (s.core c).waitOk e = true) (hb : (s.core c).behindBarrier e.serial = false) (hh : (s.core c).holding e = some (w, x))
    (hx : x.reissued = false) (hd : x.desc = some d) (hk : channelIs s (.core l x.chan) k) (hlt : w < (s.core c).watches.length) :
    sameModule s (s.doStaleCheck l q) ∧ channelIs (s.doStaleCheck l q) (.core l x.chan) { k with redo := some (d, w) } ∧
      (((s.doStaleCheck l q).core c).watches.getD w .reset).flag = false ∧
      (((s.doStaleCheck l q).core c).watches.getD w .reset).redoing = true := by
  rw [doStaleCheck_again hp hf hw hb hh hx hd hk]
  have hkeep : s.KeepsChannels (s.setCore c { s.core c with watches := modAt (s.core c).watches w Watch.again }) :=
    ⟨by simp [sameBlock], fun d => State.engines_setCore _ _ _ _ rfl, rfl⟩
  refine ⟨sameModule_trans ?_ (setChn_core_sameModule ..), channelIs_setChn _ (hkeep.channelIs hk), ?_⟩
  · simp [sameModule, sameAround]
  · simp [setChn_watches, modAt, hlt, Watch.again]

end

/-! ## Missed deadlines -/

/-- A breach record of a partition that runs a job counts one breach and marks the job (R256 to R258). -/
theorem State.breach_spec {p : Nat} (hj : (s.job p).isSome = true) (c tag opid engine index detail deadline : Nat) :
    s.KeepsChannels (s.breach p c tag opid engine index detail deadline) ∧
      (s.breach p c tag opid engine index detail deadline).hif.breaches =
        modAt s.hif.breaches p (fun n => satAdd 0xFFFFFFFF n 1) ∧
      ((s.breach p c tag opid engine index detail deadline).job p).map (·.breach) = some true := by
  obtain ⟨hE, hcount, hmark⟩ := breach_rest s p c tag opid engine index detail deadline hj
  exact ⟨⟨by simp [sameBlock], hE, by simp⟩, hcount, hmark⟩

theorem doDeadlineMiss_runs {e : QEntry} {d : Desc} {t0 : Nat} (hk : channelIs s ch k) (hr : k.run = some r) (he : r.err = none)
    (hf : (s.core r.core).entries.find? (fun e => e.serial == r.serial) = some e) (hm : s.missedDesc r = some (d, t0))
    (hu : s.unforecast (s.chanPart ch) = false) (hj : (s.job (s.chanPart ch)).isSome = true) :
    s.doDeadlineMiss ch = (s.modRun ch (fun r => { r with missed := r.missed ++ [d.index] })).breach (s.chanPart ch) r.core
      e.tag e.opid e.engine e.index (breachDetail d.index (chanCode ch).1 (chanCode ch).2.1 (chanCode ch).2.2
        (s.breachCause (s.chanPart ch) r.core (k.drizzle != 0))) t0 := by
  obtain ⟨j, hj⟩ := Option.isSome_iff_exists.mp hj
  simp [State.doDeadlineMiss, channelIs_chn hk, hr, he, hf, hm, hu, hj]

/-- A passed deadline is noted as missed and breaks the forecast of its partition (R256). -/
theorem doDeadlineMiss_spec {e : QEntry} {d : Desc} {t0 : Nat} (hk : channelIs s ch k) (hr : k.run = some r) (he : r.err = none)
    (hf : (s.core r.core).entries.find? (fun e => e.serial == r.serial) = some e) (hm : s.missedDesc r = some (d, t0))
    (hu : s.unforecast (s.chanPart ch) = false) (hj : (s.job (s.chanPart ch)).isSome = true) :
    sameBlock s (s.doDeadlineMiss ch) ∧
      channelIs (s.doDeadlineMiss ch) ch { k with run := some { r with missed := r.missed ++ [d.index] } } ∧
      (s.doDeadlineMiss ch).hif.breaches = modAt s.hif.breaches (s.chanPart ch) (fun n => satAdd 0xFFFFFFFF n 1) ∧
      ((s.doDeadlineMiss ch).job (s.chanPart ch)).map (·.breach) = some true := by
  obtain ⟨hblock, hchan⟩ := channelIs_moved (.refl s) hk hr (fun r => { r with missed := r.missed ++ [d.index] })
  have hj' : ((s.modRun ch (fun r => { r with missed := r.missed ++ [d.index] })).job (s.chanPart ch)).isSome = true := by
    rwa [State.job, State.part_of_parts (s := s) (by simp)]
  obtain ⟨hkeep, hcount, hmark⟩ := State.breach_spec hj' r.core e.tag e.opid e.engine e.index _ t0
  rw [doDeadlineMiss_runs hk hr he hf hm hu hj]
  exact ⟨sameBlock_trans hblock hkeep.block, hkeep.channelIs hchan, by simpa using hcount, hmark⟩

section
variable {l c t0 : Nat} {j : Job}

theorem doStreamEndMiss_runs (hp : s.physOf l = some c) (hj : s.job (s.partOfPhys c) = some j)
    (hs : (s.core c).seq.startFt = some t0) (hrun : (s.core c).seq.running = true) (hm : (s.core c).seq.endMissed = false)
    (hf : j.forecast = true) (hlate : streamTime s.cls t0 (j.fcEnds.getD (s.core c).seq.dirIndex 0) < s.ft) :
    s.doStreamEndMiss l = (s.modSeq c (fun q => { q with endMissed := true })).breach (s.partOfPhys c) c (s.core c).oldestRec.1
      (s.core c).oldestRec.2.1 (s.core c).oldestRec.2.2.1 (s.core c).oldestRec.2.2.2
      (breachDetail 0xFFFFF 0 0 false (s.breachCause (s.partOfPhys c) c false))
      (streamTime s.cls t0 (j.fcEnds.getD (s.core c).seq.dirIndex 0)) := by
  have hgo : ¬(!(s.core c).seq.running ∨ (s.core c).seq.endMissed ∨ !j.forecast ∨
      s.ft ≤ streamTime s.cls t0 (j.fcEnds.getD (s.core c).seq.dirIndex 0)) := by
    simpa [hrun, hm, hf] using hlate
  simp only [State.doStreamEndMiss, hp, hj, hs, if_neg hgo]

/-- A stream past its forecast end is noted once and breaks the forecast of its partition (R257). -/
theorem doStreamEndMiss_spec (hp : s.physOf l = some c) (hj : s.job (s.partOfPhys c) = some j)
    (hs : (s.core c).seq.startFt = some t0) (hrun : (s.core c).seq.running = true) (hm : (s.core c).seq.endMissed = false)
    (hf : j.forecast = true) (hlate : streamTime s.cls t0 (j.fcEnds.getD (s.core c).seq.dirIndex 0) < s.ft) :
    sameModule s (s.doStreamEndMiss l) ∧ ((s.doStreamEndMiss l).core c).seq.endMissed = true ∧
      (s.doStreamEndMiss l).hif.breaches = modAt s.hif.breaches (s.partOfPhys c) (fun n => satAdd 0xFFFFFFFF n 1) ∧
      ((s.doStreamEndMiss l).job (s.partOfPhys c)).map (·.breach) = some true := by
  rw [doStreamEndMiss_runs hp hj hs hrun hm hf hlate]
  obtain ⟨hkeep, hcount, hmark⟩ := State.breach_spec (s := s.modSeq c (fun q => { q with endMissed := true }))
    (Option.isSome_of_eq_some hj) c _ _ _ _ _ _
  refine ⟨by simp [sameModule, sameAround], ?_, hcount, hmark⟩
  refine (congrArg (·.1.endMissed) (hkeep.engines c)).trans ?_
  simp [Core.engines, State.modSeq_core]

end

end

/-- Settles O15: bus errors and the watchdog by how a run ends or stops, the stale check by the record it ends or the descriptor
it gives back, both misses by the breach they raise. -/
theorem channelErrors : Obligations.ChannelErrors := by
  intro s ch k
  refine ⟨fun r x hheld hk hr he => ?_, fun r c l n rest hheld hk hr he hc hreads hlost hremote => ?_, fun hon hperst hk => ?_,
    fun l c q i e w x hheld hp hf hw hb hh => ⟨fun hx => ?_, fun d hx hd hch hk hlt => ?_⟩,
    fun r e d t0 hheld hk hr he hf hm hu hj => ?_, fun l c j t0 hheld hp hj hs hrun hm hf hlate => ?_⟩
  · exact ⟨_, engine_next hheld, doDmaBusError_spec hk hr he⟩
  · exact ⟨_, (engine_next hheld).trans (congrArg _ (doRequestWatchdog_lostRead hk hr he hc hreads hlost hremote)),
      channelIs_moved (s.postEvent_keepsChannels ..) hk hr _⟩
  · refine ⟨_, overLink_next _ hon hperst, sameBlock_setChn .., ?_⟩
    rw [State.doClear, channelIs_chn hk]
    exact channelIs_setChn _ hk
  · exact ⟨_, engine_next hheld, doStaleCheck_stale hp hf hw hb hh hx⟩
  · subst hch
    exact ⟨_, engine_next hheld, doStaleCheck_redo hp hf hw hb hh hx hd hk hlt⟩
  · exact ⟨_, engine_next hheld, doDeadlineMiss_spec hk hr he hf hm hu hj⟩
  · exact ⟨_, engine_next hheld, doStreamEndMiss_spec hp hj hs hrun hm hf hlate⟩

end Sys2Proof.Machine
end

