-- ==== Sys2Proof/Proofs/RemoteRequests.lean ====
section
/-! SUPPORT. How remote requests are served and answered, and where their responses go (R241, R269, R304, R306, R339, R410). -/

namespace Sys2Proof.Machine

open Sys2Proof.Safety

/-! ## The inbox and the answers -/

/-- A command of the powered module acts (R422, R434). -/
theorem whenOn_next {s : State} (f : State → State) (h : s.chip.power = .on) :
    (.next (s.whenOn f) : Host.Outcome State Fault Refusal) = .next (f s) := congrArg _ (State.whenOn_on f h)

section
variable {s u v : State} {p n tc kind : Nat} {k : Packet}

theorem State.node_setNode_if (s : State) (p m : Nat) (d : Node) : (s.setNode p d).node m = if m = p then d else s.node m :=
  SMap.get_set _ _ _ _ _

/-- A request leaves the inbox of its node and nothing else changes (R304). -/
theorem State.takeKind_spec (h : s.takeKind p kind = some (u, n, tc, k)) :
    k.kind = kind ∧ ∃ i, (s.node p).inbox[i]? = some (n, tc, k) ∧
      u = s.setNode p { s.node p with inbox := (s.node p).inbox.eraseIdx i } := by
  simp only [State.takeKind, State.takeInbox] at h
  split at h
  next => cases h
  next i hfind =>
    obtain ⟨hi, hkind, -⟩ := List.findIdx?_eq_some_iff_getElem.mp hfind
    rw [List.getElem?_eq_getElem hi] at h
    simp only [Option.some.injEq, Prod.mk.injEq] at h
    obtain ⟨rfl, rfl, rfl, rfl⟩ := h
    exact ⟨by simpa using hkind, i, List.getElem?_eq_getElem hi, rfl⟩

theorem State.takeKind_part (h : s.takeKind p kind = some (u, n, tc, k)) (q : Nat) : u.part q = s.part q := by
  obtain ⟨-, i, -, rfl⟩ := State.takeKind_spec h
  exact State.part_of_parts (by simp) q

/-- The waiter of a transaction is taken once (R269). -/
theorem State.takeWaiter_spec {txn : Nat} {wt : Option Waiter} (h : u.takeWaiter p txn = (v, wt)) :
    v = { u with nodes := v.nodes } ∧ SMap.get none txn (v.node p).waiters = none := by
  obtain rfl : v = u.setNode p { u.node p with waiters := SMap.erase txn (u.node p).waiters } := (congrArg Prod.fst h).symm
  refine ⟨rfl, ?_⟩
  rw [State.node_setNode, SMap.get_erase, if_pos rfl]

/-! ## Pieces of one line -/

/-- The first piece of a range ends with the range or with its line (R266). -/
theorem pieces_first {a n : Nat} (hn : 0 < n) :
    pieces a n = (a, min n (256 - a % 256)) ::
      linePieces (n / 256 + 1) (a + min n (256 - a % 256)) (n - min n (256 - a % 256)) := by
  rw [pieces, linePieces, if_neg hn.ne']

/-- A range within one line is one piece (R266). -/
theorem pieces_line {a n : Nat} (hn : 0 < n) (hl : a % 256 + n ≤ 256) : pieces a n = [(a, n)] := by
  have hmin : min n (256 - a % 256) = n := by omega
  rw [pieces_first hn, hmin, Nat.sub_self, linePieces, if_pos rfl]

theorem State.devRead_zero (s : State) (p a : Nat) (priv : Bool) : s.devRead p a 0 priv = (s, .ok []) := rfl

/-- A write within one line is the write of that line. -/
theorem State.devWrite_line {a : Nat} {bs : Bytes} {priv : Bool} (hn : 0 < bs.length) (hl : a % 256 + bs.length ≤ 256)
    (h : s.devWrite p a bs priv = (v, .ok ())) : s.writeLine p a bs priv .clean = (v, .ok ()) := by
  rw [State.devWrite, pieces_line hn hl] at h
  simp only [List.foldl_cons, List.foldl_nil, Nat.sub_self, List.drop_zero, List.take_length] at h
  cases hw : s.writeLine p a bs priv .clean with
  | mk w r =>
    rw [hw] at h
    cases r with
    | ok x => simpa using h
    | error c => simp at h

/-! ## The memory of other partitions -/

section
variable {q : Nat}

theorem Part.hbm_of_unpoisoned {x y : Part} (h : x.unpoisoned = y.unpoisoned) : x.hbm = y.hbm := (congrArg Part.hbm h :)

/-- Bytes put into the memory of a partition are put into no other. -/
theorem State.putLine_hbm_ne (w : State) (m : Mem) (d line : Nat) (h : q ≠ p) :
    ((((w.setPart p { w.part p with hbm := m }).touchLine p d line true).markStale p line).part q).hbm = (w.part q).hbm := by
  rw [State.part_of_parts (s := (w.setPart p { w.part p with hbm := m }).touchLine p d line true) (by simp),
    Part.hbm_of_unpoisoned (State.touchLine_unpoisoned ..), State.part_setPart_ne _ _ h]

theorem State.writeLine_hbm_ne (s : State) (a : Nat) (bs : Bytes) (priv : Bool) (h : q ≠ p) :
    ((s.writeLine p a bs priv .clean).1.part q).hbm = (s.part q).hbm := by
  have hparts : ∀ w : State, w.parts = s.parts → (w.part q).hbm = (s.part q).hbm := fun w hw => by rw [State.part_of_parts hw]
  unfold State.writeLine
  dsimp only
  split
  case h_1 => rfl
  case h_2 =>
    split
    · rw [State.putLine_hbm_ne _ _ _ _ h, State.part_of_parts (s := s.setPoison p (lineOf (s.bankAddr p a)) false) (by simp)]
      exact Part.hbm_of_unpoisoned (State.setPoison_unpoisoned ..)
    · split
      · split
        · rw [State.putLine_hbm_ne _ _ _ _ h, State.nimError_part]
        · rw [State.nimError_part]
      · split
        · rw [State.putLine_hbm_ne _ _ _ _ h, State.readWord_clean]
          exact hparts _ (by simp)
        · rw [State.readWord_clean]
          exact hparts _ (by simp)
  case h_3 =>
    split
    · exact hparts _ (by simp)
    · split <;> exact hparts _ (by simp)
  case h_4 => exact hparts _ (by simp)
  case h_5 => rfl

/-- A write to a partition's addresses leaves the memory of every other partition as it is. -/
theorem State.devWrite_hbm_ne (s : State) (a : Nat) (bs : Bytes) (priv : Bool) (h : q ≠ p) :
    ((s.devWrite p a bs priv).1.part q).hbm = (s.part q).hbm := by
  unfold State.devWrite
  exact foldl_keeps (fun x : State × _ => (x.1.part q).hbm) _ (fun acc e => by
    dsimp only
    split <;> exact State.writeLine_hbm_ne _ _ _ _ h) _ _

end

/-- What a write within one line of HBM leaves in the partition's memory. -/
theorem State.devWrite_hbm {a x : Nat} {bs : Bytes} (hn : 0 < bs.length) (hl : a % 256 + bs.length ≤ 256)
    (ht : s.target p (s.bankAddr p a) bs.length false = .ok (.hbm x)) (h : s.devWrite p a bs false = (v, .ok ())) :
    (v.part p).hbm.readN (s.bankAddr p a) bs.length = bs ∧
      ∀ y, (y < s.bankAddr p a ∨ s.bankAddr p a + bs.length ≤ y) → (v.part p).hbm.read y = (s.part p).hbm.read y := by
  obtain ⟨hmem, -⟩ := State.writeLine_hbm ht (State.devWrite_line hn hl h)
  rw [hmem]
  exact ⟨Mem.readN_writeN _ _ _, fun y hy => Mem.read_writeN_outside _ _ _ _ hy⟩

/-! ## Requests -/

theorem doWrite_refused (h : s.takeKind p 0x01 = some (u, n, tc, k)) (hr : u.holdRefuses p k.addr = true) :
    s.doWrite p = u.respond p tc k 0x05 5 [] := by
  simp only [State.doWrite, h, hr, if_true]

theorem doWrite_failed {c a : Nat} (h : s.takeKind p 0x01 = some (u, n, tc, k)) (hr : u.holdRefuses p k.addr = false)
    (hw : u.devWrite p k.addr k.data false = (v, .error (c, a))) : s.doWrite p = v.respond p tc k 0x05 c [] := by
  simp [State.doWrite, h, hr, hw]

theorem doWrite_done (h : s.takeKind p 0x01 = some (u, n, tc, k)) (hr : u.holdRefuses p k.addr = false)
    (hw : u.devWrite p k.addr k.data false = (v, .ok ())) : s.doWrite p = v.respond p tc k 0x04 0 [] := by
  simp [State.doWrite, h, hr, hw]

theorem doRead_lost (h : s.takeKind p 0x02 = some (u, n, tc, k)) : s.doRead p .noResponse = u := by
  simp [State.doRead, h]

theorem doRead_failed {flt : MemFault} {c : Nat} (h : s.takeKind p 0x02 = some (u, n, tc, k)) (hf : flt ≠ .noResponse)
    (hn : 0 < k.len) (hr : u.readLine p k.addr (min k.len (256 - k.addr % 256)) false flt = (v, .error c)) :
    s.doRead p flt = v.respond p tc k 0x05 c [] := by
  simp [State.doRead, h, hf, pieces_first hn, hr]

theorem doRead_line {flt : MemFault} {bs : Bytes} (h : s.takeKind p 0x02 = some (u, n, tc, k)) (hf : flt ≠ .noResponse)
    (hn : 0 < k.len) (hl : k.addr % 256 + k.len ≤ 256) (hr : u.readLine p k.addr k.len false flt = (v, .ok bs)) :
    s.doRead p flt = v.respond p tc k 0x03 0 bs := by
  simp [State.doRead, h, hf, pieces_line hn hl, hr, State.devRead_zero]

end

/-- Settles O34: requests by the inbox and the memory they reach, responses by the waiter they find. -/
theorem remoteRequests : Obligations.RemoteRequests := by
  intro s p hon
  refine ⟨fun kind u n tc k h => ?_, fun u k kind st data => ⟨_, rfl, rfl, rfl, rfl, rfl, rfl⟩, fun h => ?_, fun h flt => ?_,
    fun h => ?_, fun h => ?_, fun h => ?_, fun u n tc k h => ⟨fun hr => ?_, fun v c a hr hw => ?_, fun v hr hw => ?_⟩,
    fun u n tc k h => ⟨?_, fun flt hf => ⟨fun v c hn hr => ?_, fun v bs hn hl hr => ?_⟩⟩,
    fun u n tc k w wt hw => ⟨fun h => ?_, fun h => ?_, fun h => ⟨fun ch hc => ?_, fun hc => ?_⟩, State.takeWaiter_spec hw⟩⟩
  · obtain ⟨hkind, i, hi, rfl⟩ := State.takeKind_spec h
    exact ⟨hkind, i, hi, rfl, fun m => State.node_setNode_if ..⟩
  · exact (whenOn_next _ hon).trans (by simp only [State.doWrite, h])
  · exact (whenOn_next _ hon).trans (by simp only [State.doRead, h])
  · exact (whenOn_next _ hon).trans (by simp only [State.doReadResp, h])
  · exact (whenOn_next _ hon).trans (by simp only [State.doWriteResp, h])
  · exact (whenOn_next _ hon).trans (by simp only [State.doErrorResp, h])
  · exact (whenOn_next _ hon).trans (congrArg _ (doWrite_refused h hr))
  · exact (whenOn_next _ hon).trans (congrArg _ (doWrite_failed h hr hw))
  · have hbank : u.bankAddr p k.addr = s.bankAddr p k.addr := by simp only [State.bankAddr, State.takeKind_part h]
    refine ⟨(whenOn_next _ hon).trans (congrArg _ (doWrite_done h hr hw)), by simp, fun q hq => ?_, fun x hn hl ht => ?_⟩
    · rw [← State.takeKind_part h q, ← State.devWrite_hbm_ne u k.addr k.data false hq, hw]
    · rw [← hbank, ← State.takeKind_part h p]
      exact State.devWrite_hbm hn hl ht hw
  · exact (whenOn_next _ hon).trans (congrArg _ (doRead_lost h))
  · exact (whenOn_next _ hon).trans (congrArg _ (doRead_failed h hf hn hr))
  · exact (whenOn_next _ hon).trans (congrArg _ (doRead_line h hf hn hl hr))
  · refine (whenOn_next _ hon).trans (congrArg _ ?_)
    rcases wt with - | ⟨ch⟩ | ⟨⟩ | - <;> simp only [State.doReadResp, h, hw]
  · refine (whenOn_next _ hon).trans (congrArg _ ?_)
    rcases wt with - | ⟨ch⟩ | ⟨⟩ | - <;> simp only [State.doWriteResp, h, hw]
  · exact (whenOn_next _ hon).trans (by simp only [State.doErrorResp, h, hw, hc])
  · refine (whenOn_next _ hon).trans (congrArg _ ?_)
    rcases hc with rfl | rfl <;> simp only [State.doErrorResp, h, hw]

end Sys2Proof.Machine
end

