-- ==== Sys2Proof/Proofs/LineAccesses.lean ====
section
/-! SUPPORT. Reads and writes that lie within one line of a partition: the atomic operation at its home slice, the host's window
BAR2, and what a refresh counts (R260, R267, R274, R286, R328, R333, R366, R369). -/

namespace Sys2Proof.Machine

open Sys2Proof.Safety

/-! ## Counting an event of the module -/

/-- A global event counts and does nothing else (R462). -/
theorem State.gevent_counts (s : State) (block inst ev n : Nat) :
    s.gevent block inst ev n = { s with gdbg := { s.gdbg with gcnt := (s.gevent block inst ev n).gdbg.gcnt } } := by
  unfold State.gevent
  split <;> rfl

theorem State.gevent_part (s : State) (block inst ev n q : Nat) : (s.gevent block inst ev n).part q = s.part q :=
  State.part_of_parts (by simp) q

/-! ## Where an access lands -/

section
variable {s u v : State} {p q a n x : Nat} {priv : Bool}

/-- Where a partition's flipped banks lead depends on the partition alone (R333). -/
theorem State.bankAddr_of_unpoisoned (h : (u.part p).unpoisoned = (s.part p).unpoisoned) (a : Nat) :
    u.bankAddr p a = s.bankAddr p a := by
  have hswap : (u.part p).swap = (s.part p).swap := (congrArg Part.swap h :)
  simp only [State.bankAddr, hswap]

/-- What lies in HBM depends on the top of the partition alone (R260). -/
theorem State.target_of_unpoisoned (h : (u.part p).unpoisoned = (s.part p).unpoisoned)
    (ht : s.target p a n priv = .ok (.hbm x)) : u.target p a n priv = .ok (.hbm x) := by
  have htop : (u.part p).topGib = (s.part p).topGib := (congrArg Part.topGib h :)
  rw [State.target_hbm] at ht ⊢
  rwa [htop]

section
variable (s : State)

theorem State.gevent_keepsChannels (block inst ev n : Nat) : s.KeepsChannels (s.gevent block inst ev n) :=
  ⟨by simp [sameBlock], by simp, by simp⟩

theorem State.readLine_keepsChannels (p a n : Nat) (priv : Bool) (flt : MemFault) :
    s.KeepsChannels (s.readLine p a n priv flt).1 := ⟨by simp [sameBlock], by simp, by simp⟩

theorem State.writeLine_keepsChannels (p a : Nat) (bs : Bytes) (priv : Bool) (flt : MemFault) :
    s.KeepsChannels (s.writeLine p a bs priv flt).1 := ⟨by simp [sameBlock], by simp, by simp⟩

end

/-! ## One write of HBM after what leaves the partition -/

/-- A write to HBM, from a state whose partitions differ from those of `s` in poison at most, as `s` sees it. -/
theorem State.writeLine_hbm_from {bs : Bytes} (hu : ∀ q, (u.part q).unpoisoned = (s.part q).unpoisoned)
    (ht : s.target p (s.bankAddr p a) bs.length priv = .ok (.hbm x)) (hw : u.writeLine p a bs priv .clean = (v, .ok ())) :
    (v.part p).hbm.readN (s.bankAddr p a) bs.length = bs ∧
      (∀ y, (y < s.bankAddr p a ∨ s.bankAddr p a + bs.length ≤ y) → (v.part p).hbm.read y = (s.part p).hbm.read y) ∧
      ∀ q, q ≠ p → (v.part q).hbm = (s.part q).hbm := by
  have hbank := State.bankAddr_of_unpoisoned (hu p) a
  obtain ⟨hmem, hne⟩ := State.writeLine_hbm (hbank ▸ State.target_of_unpoisoned (hu p) ht) hw
  rw [hbank, Part.hbm_of_unpoisoned (hu p)] at hmem
  rw [hmem]
  exact ⟨Mem.readN_writeN _ _ _, fun y hy => Mem.read_writeN_outside _ _ _ _ hy,
    fun q hq => (hne q hq).trans (Part.hbm_of_unpoisoned (hu q))⟩

/-! ## The atomic operation -/

theorem State.atomic_done {op : AtomicOp} {flt : MemFault} {old : Bytes}
    (hr : (s.gevent 3 (s.homeSlice p a) 3 1).readLine p a (atomicWidth op) false flt = (u, .ok old))
    (hw : u.writeLine p a (atomicResult old op).1 false .clean = (v, .ok ())) : (s.atomic p a op flt).1 = v := by
  simp only [State.atomic, hr, hw]

/-- An atomic operation on HBM without errors: the bytes become the sum and nothing else changes (R286). -/
theorem State.atomic_hbm {op : AtomicOp} {old : Bytes} {block inst ev k : Nat}
    (hr : (s.gevent block inst ev k).readLine p a (atomicWidth op) false .clean = (u, .ok old))
    (hw : u.writeLine p a (atomicResult old op).1 false .clean = (v, .ok ()))
    (ht : s.target p (s.bankAddr p a) (atomicWidth op) false = .ok (.hbm x)) :
    (v.part p).hbm.readN (s.bankAddr p a) (atomicWidth op) =
        (atomicResult ((s.part p).hbm.readN (s.bankAddr p a) (atomicWidth op)) op).1 ∧
      (∀ y, (y < s.bankAddr p a ∨ s.bankAddr p a + atomicWidth op ≤ y) → (v.part p).hbm.read y = (s.part p).hbm.read y) ∧
      ∀ q, q ≠ p → (v.part q).hbm = (s.part q).hbm := by
  have hg : ∀ q, ((s.gevent block inst ev k).part q).unpoisoned = (s.part q).unpoisoned :=
    fun q => congrArg _ (State.gevent_part ..)
  have hbank := State.bankAddr_of_unpoisoned (hg p) a
  obtain ⟨hold, hu⟩ := State.readLine_hbm (hbank ▸ State.target_of_unpoisoned (hg p) ht) hr
  rw [hbank, State.gevent_part] at hold
  have hlen := atomicResult_length old op
  rw [← hlen] at ht
  have := State.writeLine_hbm_from (fun q => (hu q).trans (hg q)) ht hw
  rwa [hlen, hold] at this

end

/-- Settles O20: an atomic operation is one read and one write of a line, a refresh one draw of a free value and one count. -/
theorem atomicsAndRefresh : Obligations.AtomicsAndRefresh := by
  intro s
  refine ⟨fun p a op flt u v old hh hp hl hr hw => ?_, fun p a op flt hh hout => ?_, fun k x c b hon => ?_⟩
  · have hkeep : s.KeepsChannels v := ((s.gevent_keepsChannels ..).trans ((State.readLine_keepsChannels ..).of_eq hr)).trans
      ((State.writeLine_keepsChannels ..).of_eq hw)
    refine ⟨(engine_next hh).trans (congrArg _ ?_), hkeep.block, hkeep.engines, fun x hc ht => ?_⟩
    · rw [State.doAtomic, if_pos ⟨hp, hl⟩, State.atomic_done hr hw]
    · subst hc
      exact State.atomic_hbm hr hw ht
  · exact (engine_next hh).trans (congrArg _ (if_neg (by omega)))
  · exact ⟨_, (whenOn_next _ hon).trans (congrArg _ (State.gevent_counts ..)), rfl⟩

section
variable {s u v : State} {fn : Fn} {off p q a n x : Nat} {flt : MemFault} {data : Bytes}

/-! ## The host's window BAR2 -/

theorem bar2Place_vf (s : State) (p off : Nat) :
    s.bar2Place (.vf p) off = if s.bringing ∨ s.layout ≤ p then none else some (p, s.hif.vfBase.getD p 0 * gib + off) := rfl

/-- An access that ends at the top of the partition's HBM or below reaches all of its bytes (R369). -/
theorem State.bar2Reach_below (h : a + n ≤ (s.part p).topGib * gib) : s.bar2Reach p a n = n := by
  unfold State.bar2Reach
  split
  · rfl
  · omega

/-- An access above the top of the partition's HBM reaches no byte (R369). -/
theorem State.bar2Reach_above (h : (s.part p).topGib * gib ≤ a) (hc : a < coreBase) : s.bar2Reach p a n = 0 := by
  rw [State.bar2Reach, if_neg (by omega), Nat.sub_eq_zero_of_le h, Nat.min_zero]

theorem doBar2Write_placed (hp : s.bar2Place fn off = some (p, a)) :
    s.doBar2Write fn off data =
      ((s.gevent 6 0 2 data.length).devWrite p a (data.take (s.bar2Reach p a data.length)) true).1 := by
  simp only [State.doBar2Write, hp]

theorem doBar2Read_placed (hp : s.bar2Place fn off = some (p, a)) {w : State} {k : Nat} (hk : s.bar2Reach p a n = k) :
    (∀ bs, (s.gevent 6 0 1 n).hostRead p a k flt = (w, .ok bs) →
        s.doBar2Read fn off n flt = w.emit (.barData fn (bs ++ List.replicate (n - k) 0xFF) false)) ∧
      ∀ c b, (s.gevent 6 0 1 n).hostRead p a k flt = (w, .error (c, b)) →
        s.doBar2Read fn off n flt = w.emit (.barData fn (List.replicate n 0xFF) (c == 2)) := by
  subst hk
  constructor
  · intro bs h
    simp only [State.doBar2Read, hp, h]
  · intro c b h
    simp only [State.doBar2Read, hp, h]

/-- A write above the top is dropped and counted (R369). -/
theorem doBar2Write_above (hp : s.bar2Place fn off = some (p, a)) (htop : (s.part p).topGib * gib ≤ a) (hc : a < coreBase) :
    s.doBar2Write fn off data = s.gevent 6 0 2 data.length := by
  rw [doBar2Write_placed hp, State.bar2Reach_above htop hc]
  rfl

/-- A read above the top answers ones and is counted (R369). -/
theorem doBar2Read_above (hp : s.bar2Place fn off = some (p, a)) (htop : (s.part p).topGib * gib ≤ a) (hc : a < coreBase) :
    s.doBar2Read fn off n flt = (s.gevent 6 0 1 n).emit (.barData fn (List.replicate n 0xFF) false) :=
  (doBar2Read_placed hp (State.bar2Reach_above htop hc)).1 [] rfl

/-- A write within one line of its partition is the write of that line (R266). -/
theorem State.devWrite_of_line {priv : Bool} (hn : 0 < data.length) (hl : a % 256 + data.length ≤ 256)
    (hw : s.writeLine p a data priv .clean = (v, .ok ())) : s.devWrite p a data priv = (v, .ok ()) := by
  rw [State.devWrite, pieces_line hn hl]
  simp only [List.foldl_cons, List.foldl_nil, Nat.sub_self, List.drop_zero, List.take_length, hw]

/-- A read of the host within one line is the read of that line (R266). -/
theorem State.hostRead_of_line {r : Except Nat Bytes} (hn : 0 < n) (hl : a % 256 + n ≤ 256)
    (hr : s.readLine p a n true flt = (u, r)) : s.hostRead p a n flt = (u, r.mapError (·, a)) := by
  rw [State.hostRead, pieces_line hn hl]
  cases r <;> simp [hr, Except.mapError]

/-- A write that ends at the top or below and succeeds is the write of its line. -/
theorem doBar2Write_line (hp : s.bar2Place fn off = some (p, a)) (hn : 0 < data.length) (hl : a % 256 + data.length ≤ 256)
    (ht : a + data.length ≤ (s.part p).topGib * gib)
    (hw : (s.gevent 6 0 2 data.length).writeLine p a data true .clean = (u, .ok ())) : s.doBar2Write fn off data = u := by
  rw [doBar2Write_placed hp, State.bar2Reach_below ht, List.take_length, State.devWrite_of_line hn hl hw]

/-- A read that ends at the top or below answers what the read of its line gives. -/
theorem doBar2Read_line (hp : s.bar2Place fn off = some (p, a)) (hn : 0 < n) (hl : a % 256 + n ≤ 256)
    (ht : a + n ≤ (s.part p).topGib * gib) {r : Except Nat Bytes}
    (hr : (s.gevent 6 0 1 n).readLine p a n true flt = (u, r)) :
    (∀ bs, r = .ok bs → s.doBar2Read fn off n flt = u.emit (.barData fn bs false)) ∧
      ∀ c, r = .error c → s.doBar2Read fn off n flt = u.emit (.barData fn (List.replicate n 0xFF) (c == 2)) := by
  obtain ⟨hok, herr⟩ := doBar2Read_placed (flt := flt) (w := u) hp (State.bar2Reach_below ht)
  have hread := State.hostRead_of_line hn hl hr
  constructor
  · rintro bs rfl
    simpa using hok bs hread
  · rintro c rfl
    exact herr c a hread

end

/-- Settles O29: an access is placed or not, above the top it reaches nothing, and within a line it is one read or write of it. -/
theorem barAccesses : Obligations.BarAccesses := by
  intro s hon hperst
  have acts : ∀ f, (.next (s.overLink f) : Host.Outcome State Fault Refusal) = .next (f s) := fun f => overLink_next f hon hperst
  refine ⟨acts _, fun fn off => acts _, fun fn off n flt data hp => ⟨(acts _).trans ?_, (acts _).trans ?_⟩,
    fun p off hb hp => ?_, fun p off hp => ?_, fun fn off p a hp => ⟨fun data => ⟨_, acts _, fun q hq => ?_⟩,
      fun data htop hc => ⟨_, (acts _).trans (congrArg _ ((doBar2Write_above hp htop hc).trans (State.gevent_counts ..))), rfl⟩,
      fun n flt htop hc => ⟨_, (acts _).trans (congrArg _
        ((doBar2Read_above hp htop hc).trans (congrArg (State.emit · _) (State.gevent_counts ..)))), rfl⟩,
      fun data u hn hl ht hw => ?_, fun n u flt r hn hl ht hr => ?_⟩⟩
  · simp only [State.doBar2Write, hp]
  · simp only [State.doBar2Read, hp, State.emit]
  · rw [bar2Place_vf, if_neg (by simp [hb, hp])]
  · rw [bar2Place_vf, if_pos (.inr hp)]
  · rw [doBar2Write_placed hp, State.devWrite_hbm_ne _ _ _ _ hq, State.gevent_part]
  · have hkeep : s.KeepsChannels u := (s.gevent_keepsChannels ..).trans ((State.writeLine_keepsChannels ..).of_eq hw)
    refine ⟨(acts _).trans (congrArg _ (doBar2Write_line hp hn hl ht hw)), hkeep.block, hkeep.engines, fun x hx => ?_⟩
    have hg : ∀ q, ((s.gevent 6 0 2 data.length).part q).unpoisoned = (s.part q).unpoisoned :=
      fun q => congrArg _ (State.gevent_part ..)
    obtain ⟨hread, hrest, -⟩ := State.writeLine_hbm_from hg hx hw
    exact ⟨hread, hrest⟩
  · have hkeep : s.KeepsChannels u := (s.gevent_keepsChannels ..).trans ((State.readLine_keepsChannels ..).of_eq hr)
    obtain ⟨hok, herr⟩ := doBar2Read_line hp hn hl ht hr
    refine ⟨hkeep.block, hkeep.engines, fun bs hbs => ⟨(acts _).trans (congrArg _ (hok bs hbs)), fun x hflt hx => ?_⟩,
      fun c hc => (acts _).trans (congrArg _ (herr c hc))⟩
    subst hflt hbs
    have hg : ∀ q, ((s.gevent 6 0 1 n).part q).unpoisoned = (s.part q).unpoisoned := fun q => congrArg _ (State.gevent_part ..)
    have hbank := State.bankAddr_of_unpoisoned (hg p) a
    obtain ⟨hbytes, hu⟩ := State.readLine_hbm (hbank ▸ State.target_of_unpoisoned (hg p) hx) hr
    rw [hbank, State.gevent_part] at hbytes
    exact ⟨hbytes, fun q => Part.hbm_of_unpoisoned ((hu q).trans (hg q))⟩

end Sys2Proof.Machine
end

