-- ==== Sys2Proof/Proofs/RowsAndSlabs.lean ====
section
/-! SUPPORT. Upkeep of HBM and Nimbus: the patrol scrub, the repair of rows, the write-back of a slice and the switch of its slabs
(R271, R273, R275, R276, R289 to R291, R407). -/

namespace Sys2Proof.Machine

open Sys2Proof.Safety

/-! ## Gates, events and parts -/

section
variable {s t : State} {f : State → State}

/-- A command of the powered module that reports the sensors at its end acts (R422, R434, R440). -/
theorem reporting_whenOn (h : s.chip.power = .on) (hf : f s = t) :
    (.next (s.reporting (fun s => s.whenOn f)) : Host.Outcome State Fault Refusal) = .next t.reportSensors := by
  rw [State.reporting, State.whenOn_on f h, hf]

/-- A host access over a link that is up, with the sensors at its end, acts (R434, R440, R479). -/
theorem reporting_overLink (h : s.chip.power = .on) (hp : s.chip.perst = false) (hf : f s = t) :
    (.next (s.reporting (fun s => s.overLink f)) : Host.Outcome State Fault Refusal) = .next t.reportSensors := by
  rw [State.reporting, State.overLink_up f h hp, hf]

end

section
variable (s : State)

theorem State.slice_setSlice_if (b x : Nat) (q : Slice) : (s.setSlice b q).slice x = if x = b then q else s.slice x :=
  SMap.get_set _ _ _ _ _

theorem State.hbmc_setHbmc_if (k x : Nat) (q : Hbmc) : (s.setHbmc k q).hbmc x = if x = k then q else s.hbmc x :=
  SMap.get_set _ _ _ _ _

theorem State.postEvent_posted (ring : Fn) (code : Nat) (detail : Bytes) : posted s (s.postEvent ring code detail) := by
  apply State.same
  case h19 => exact Hif.of_quiet (State.postEvent_quiet s ring code detail)
  all_goals simp

theorem State.rowEvent_posted (k code : Nat) (r : RowId) : posted s (s.rowEvent k code r) := by
  unfold State.rowEvent
  exact State.postEvent_posted ..

end

/-! ## The patrol scrub -/

section
variable {s : State} {k line : Nat} {flt : MemFault}

theorem doPatrolScrub_idle (h : (s.hbmc k).period = 0 ∨ (s.hbmc k).trained = false ∨ s.scrubLine k = none) :
    s.doPatrolScrub k flt = s := by
  simp only [State.doPatrolScrub]
  split
  · rfl
  next hrun =>
    obtain ⟨hperiod, htrained⟩ := not_or.mp hrun
    rw [h.resolve_left hperiod |>.resolve_left (by simpa using htrained)]

/-- The scrub reads its code word and goes on to the next one (R275). -/
theorem doPatrolScrub_runs (hp : (s.hbmc k).period ≠ 0) (ht : (s.hbmc k).trained = true) (hl : s.scrubLine k = some line) :
    s.doPatrolScrub k flt = (s.scrubWord (s.partOfStack k) line flt).setHbmc k
      { (s.scrubWord (s.partOfStack k) line flt).hbmc k with
        scrubPos := ((s.hbmc k).scrubPos + 1) % max 1 (s.scrubWords k)
        scrubActive := ((s.hbmc k).scrubPos + 1) % max 1 (s.scrubWords k) != 0 } := by
  simp only [State.doPatrolScrub, hl]
  rw [if_neg (by simp [hp, ht])]

/-! ## The repair of a row -/

theorem doRowRepair_begins {r : RowId} {rest : List RowId} (hr : (s.hbmc k).pendRows = r :: rest)
    (hn : (s.hbmc k).repairing = none) (x : Nat) :
    (s.doRowRepair k).hbmc x = if x = k ∧ (s.part (s.partOfStack k)).job = none then
      { s.hbmc k with pendRows := rest, repairing := some r } else s.hbmc x := by
  simp only [State.doRowRepair, hr, hn]
  cases hj : (s.part (s.partOfStack k)).job with
  | some j => simp
  | none => simp [State.hbmc_setHbmc_if]

theorem doRowRepair_hbmcs (s : State) (k : Nat) : s.doRowRepair k = { s with hbmcs := (s.doRowRepair k).hbmcs } := by
  simp only [State.doRowRepair]
  (repeat' split) <;> rfl

/-- The bank of a row reopens, repaired or with a memory error (R276). -/
def State.rowReopened (s : State) (k : Nat) (ok : Bool) : State :=
  { s.setHbmc k { s.hbmc k with repairing := none, repairs := if ok then min 255 ((s.hbmc k).repairs + 1) else (s.hbmc k).repairs } with
    chip := { s.chip with memErr := s.chip.memErr || !ok } }

/-- The end of a row's repair and its event (R276). -/
def State.rowClosed (s : State) (k : Nat) (ok : Bool) (r : RowId) : State :=
  (s.rowReopened k ok).rowEvent k (if ok then Code.rowRepaired else Code.rowUnrepairable) r

theorem doRowRepairDone_closes {r : RowId} (ok : Bool) (hr : (s.hbmc k).repairing = some r) :
    s.doRowRepairDone k ok = (s.rowClosed k ok r).promote (s.partOfStack k) := by
  cases ok with
  | true =>
    simp [State.doRowRepairDone, hr, State.rowClosed, State.rowReopened, satAdd]
    rfl
  | false => simp [State.doRowRepairDone, hr, State.rowClosed, State.rowReopened]

theorem rowClosed_spec (s : State) (k : Nat) (ok : Bool) (r : RowId) :
    s.rowClosed k ok r = { s with
      hbmcs := (s.rowClosed k ok r).hbmcs, hif := { s.hif with evts := (s.rowClosed k ok r).hif.evts }
      out := (s.rowClosed k ok r).out, chip := { s.chip with memErr := s.chip.memErr || !ok } } ∧
    ∀ x, (s.rowClosed k ok r).hbmc x = if x = k then
      { s.hbmc k with repairing := none, repairs := if ok then min 255 ((s.hbmc k).repairs + 1) else (s.hbmc k).repairs }
      else s.hbmc x := by
  have hbmcs : (s.rowClosed k ok r).hbmcs = (s.rowReopened k ok).hbmcs := by simp [State.rowClosed]
  constructor
  · have hposted : posted (s.rowReopened k ok) (s.rowClosed k ok r) := State.rowEvent_posted ..
    rw [hbmcs]
    exact hposted
  · intro x
    rw [State.hbmc_of hbmcs]
    exact State.hbmc_setHbmc_if ..

end

/-- Settles O21: the scrub by what its code word leaves, a row by the controller that repairs it. -/
theorem rowsAndScrub : Obligations.RowsAndScrub := by
  intro s k h p hon
  refine ⟨fun flt hidle => ?_, fun flt line hp ht hl => ⟨_, (whenOn_next _ hon).trans (congrArg _ (doPatrolScrub_runs hp ht hl)), ?_⟩,
    fun r rest hr hn => ⟨_, whenOn_next _ hon, doRowRepair_hbmcs s k, doRowRepair_begins hr hn⟩,
    fun ok r hr => ⟨_, reporting_whenOn hon (doRowRepairDone_closes ok hr), rowClosed_spec s k ok r⟩⟩
  · exact (whenOn_next _ hon).trans (congrArg _ (doPatrolScrub_idle hidle))
  · refine ⟨by simp [sameBlock], by simp, by simp, ?_, ?_, fun q y hy => State.scrubWord_outside _ _ _ _ _ _ hy, ?_, ?_, ?_⟩
    · rw [State.hbmc_setHbmc]
    · rw [State.hbmc_setHbmc]
    · rintro rfl
      exact (State.setHbmc_parts ..).trans (congrArg State.parts (State.scrubWord_clean s p line))
    · rintro errs rfl h0 h1
      exact State.scrubWord_corrected s p line errs h0 h1
    · rintro errs rfl hbad hp hs hm
      exact State.scrubWord_uncorrected s p line errs hbad hp hs hm

/-! ## The write-back of a slice -/

section
variable {s : State} {d : Nat}

theorem State.writeBack_setting (s : State) (d : Nat) : (s.writeBack d).gdbg.setting = s.gdbg.setting := by
  unfold State.writeBack
  exact foldl_keeps (fun u : State => u.gdbg.setting) _ (fun a e => by dsimp only; split <;> simp) _ _

/-- A slice after its write-back, changed; the memory of every partition keeps its bytes (R288, R289). -/
theorem State.writeBack_setSlice (s : State) (d : Nat) (x : Slice) :
    (s.writeBack d).setSlice d x = { s with
      slices := ((s.writeBack d).setSlice d x).slices, parts := ((s.writeBack d).setSlice d x).parts
      gdbg := { s.gdbg with gcnt := ((s.writeBack d).setSlice d x).gdbg.gcnt } } ∧
    (∀ b, ((s.writeBack d).setSlice d x).slice b = if b = d then x else s.slice b) ∧
    ∀ q, (((s.writeBack d).setSlice d x).part q).hbm = (s.part q).hbm := by
  refine ⟨?_, fun b => ?_, fun q => ?_⟩
  · apply State.same
    case h23 => exact GlobalDbg.of_setting (State.writeBack_setting s d)
    all_goals simp
  · rw [State.slice_setSlice_if, State.writeBack_slice]
    split <;> rfl
  · exact Part.hbm_of_unpoisoned (State.writeBack_unpoisoned s d q)

theorem doApply_refused (h : (s.part (s.partOfDie d)).job.isSome = true) :
    s.doApply d = s.setSlice d { s.slice d with applyErr := true } := if_pos h

theorem doApply_begins (h : (s.part (s.partOfDie d)).job = none) :
    s.doApply d = (s.writeBack d).setSlice d
      { (s.slice d).clean with busy := true, pendingMode := some (s.slice d).modeMask } := by
  rw [State.doApply, if_neg (by simp [h]), State.writeBack_slice, if_pos rfl]

theorem doFlush_begins (s : State) (d : Nat) :
    s.doFlush d = (s.writeBack d).setSlice d { (s.slice d).clean with busy := true } := by
  rw [State.doFlush, State.writeBack_slice, if_pos rfl]

/-! ## The end of the busy time -/

/-- The state in which a slice is no longer busy, its new configuration in force if one was to come (R289, R291). -/
def State.unbusied (s : State) (d : Nat) : State :=
  let s1 := s.setSlice d { s.slice d with busy := false, pendingMode := none }
  match (s.slice d).pendingMode with
  | some m => (s1.retireMarked d).switchSlabs d m
  | none => s1

theorem doNimBusyEnd_idle (h : (s.slice d).busy = false) : s.doNimBusyEnd d = s := by simp [State.doNimBusyEnd, h]

theorem doNimBusyEnd_ends (h : (s.slice d).busy = true) : s.doNimBusyEnd d = (s.unbusied d).promote (s.partOfDie d) := by
  simp only [State.doNimBusyEnd, h]
  rfl

theorem unbusied_frame (s : State) (d : Nat) :
    sameBlock s (s.unbusied d) ∧ (s.unbusied d).cores = s.cores ∧ (s.unbusied d).parts = s.parts := by
  unfold State.unbusied
  dsimp only
  split <;> simp [sameBlock]

theorem unbusied_slice_ne (s : State) {d x : Nat} (h : x ≠ d) : (s.unbusied d).slice x = s.slice x := by
  unfold State.unbusied
  dsimp only
  split
  · rw [State.switchSlabs_slice _ _ _ _ h, State.retireMarked_slice, if_neg h, State.slice_setSlice_ne _ _ h]
  · rw [State.slice_setSlice_ne _ _ h]

theorem unbusied_slice_none (h : (s.slice d).pendingMode = none) : (s.unbusied d).slice d = { s.slice d with busy := false } := by
  simp [State.unbusied, h]

/-- A slice with the configuration `m` in force (R289, R407). -/
def Slice.configured (sl : Slice) (m : Nat) : Slice :=
  let y := sl.retireMarked.emptied
  let mask := m &&& (2 ^ 144 - 1 - y.retired)
  { y.clearSlabs (fun t => !(y.inForce.testBit t) && !mask.testBit t) with inForce := mask }

theorem unbusied_slice_some {m : Nat} (h : (s.slice d).pendingMode = some m) :
    (s.unbusied d).slice d = ({ s.slice d with busy := false, pendingMode := none } : Slice).configured m := by
  simp only [State.unbusied, h, State.switchSlabs, State.slice_setSlice, State.retireMarked_slice, if_true]
  rfl

/-- A slab that was or becomes cache reads 0 as scratchpad, the others keep their bytes (R289). -/
theorem Slice.configured_scratch (sl : Slice) (m y : Nat) :
    (sl.configured m).scratch.read y =
      if sl.inForce.testBit (y / slabBytes) || (sl.configured m).inForce.testBit (y / slabBytes) then 0 else sl.scratch.read y := by
  have hscratch : (sl.configured m).scratch = sl.scratch.filter fun a =>
      !(sl.inForce.testBit (a / slabBytes)) && !(sl.configured m).inForce.testBit (a / slabBytes) := rfl
  rw [hscratch, Mem.read_filter, ← Bool.not_or]
  cases sl.inForce.testBit (y / slabBytes) || (sl.configured m).inForce.testBit (y / slabBytes) <;> rfl

end

/-- Settles O23: a busy slice by its write-back, the end of its busy time by the configuration then in force. -/
theorem slabs : Obligations.Slabs := by
  intro s b sl p clean hon
  refine ⟨fun hperst hjob => ⟨_, (overLink_next _ hon hperst).trans (congrArg _ (doApply_refused hjob)), rfl,
      fun x => State.slice_setSlice_if ..⟩,
    fun hperst hjob => ⟨_, (overLink_next _ hon hperst).trans (congrArg _ (doApply_begins hjob)), State.writeBack_setSlice ..⟩,
    fun hperst => ⟨_, (overLink_next _ hon hperst).trans (congrArg _ (doFlush_begins s b)), State.writeBack_setSlice ..⟩,
    fun hidle => reporting_whenOn hon (doNimBusyEnd_idle hidle),
    fun hbusy => ⟨_, reporting_whenOn hon (doNimBusyEnd_ends hbusy), ?_⟩⟩
  obtain ⟨hblock, hcores, hparts⟩ := unbusied_frame s b
  refine ⟨hblock, hcores, fun q => by rw [State.part_of_parts hparts], fun x hx => unbusied_slice_ne s hx,
    unbusied_slice_none, fun m hm => ?_⟩
  rw [unbusied_slice_some hm]
  exact ⟨rfl, rfl, rfl, rfl, rfl, rfl, Slice.configured_scratch _ m⟩

end Sys2Proof.Machine
end

