-- ==== Sys2Proof/Proofs/ResetScopes.lean ====
section
/-! SUPPORT. How a compute or partition reset begins and how it ends: what becomes of cores, partitions, ports and the chip's lists
(R290, R358, R363, R399, R400, R411 to R413). -/

namespace Sys2Proof.Machine

open Sys2Proof.Safety

/-! ## The chip around its field-repair bank -/

/-- The chip but its field-repair bank. -/
def Chip.unfused (c : Chip) : Chip := { c with bank := [] }

theorem Chip.good_of_unfused {c d : Chip} (h : c.unfused = d.unfused) : c.good = d.good := (congrArg Chip.good h :)

theorem Chip.failing_of_unfused {c d : Chip} (h : c.unfused = d.unfused) : c.failing = d.failing := (congrArg Chip.failing h :)

section
variable (s : State)

@[simp] theorem State.fuseEntry_unfused (p kind place cause : Nat) : (s.fuseEntry p kind place cause).chip.unfused = s.chip.unfused := by
  unfold State.fuseEntry
  split
  · simp
  · rfl

@[simp] theorem State.retireMarked_unfused (d : Nat) : (s.retireMarked d).chip.unfused = s.chip.unfused := by
  unfold State.retireMarked
  exact foldl_keeps (fun u : State => u.chip.unfused) _ (fun a t => by simp) _ _

@[simp] theorem State.resetSlices_unfused (p : Nat) : (s.resetSlices p).chip.unfused = s.chip.unfused := by
  unfold State.resetSlices
  exact foldl_keeps (fun u : State => u.chip.unfused) _ (fun a d => by simp [State.resetSlice]) _ _

/-- A reset that begins programs the bank at most (R407). -/
theorem State.startReset_unfused (p kind : Nat) : (s.startReset p kind).chip.unfused = s.chip.unfused := by
  simp [State.startReset]

/-! ## Cores -/

/-- A table in which the entries under some keys have gone back to what an unlisted key reads as: those keys read so, any other
that held something else still holds it. -/
theorem SMap.get_dropped {α : Type} [DecidableEq α] (d : α) (gone : Nat → Bool) (k : Nat) (m : SMap α) :
    let m1 := (m.map fun e => if gone e.1 then (e.1, d) else e).filter fun e => decide (e.2 ≠ d)
    (gone k = true → SMap.get d k m1 = d) ∧ (gone k = false → SMap.get d k m ≠ d → SMap.get d k m1 = SMap.get d k m) := by
  induction m with
  | nil => exact ⟨fun _ => rfl, fun _ _ => rfl⟩
  | cons e m ih =>
    obtain ⟨a, v⟩ := e
    obtain ⟨hgone, hkept⟩ := ih
    dsimp only at hgone hkept ⊢
    rw [List.map_cons, List.filter_cons]
    by_cases ha : gone a = true
    · simp only [ha, if_true, ne_eq, not_true, decide_false, Bool.false_eq_true, if_false]
      refine ⟨hgone, fun hk hv => ?_⟩
      have hne : a ≠ k := fun h => by simp_all
      rw [SMap.get_cons, if_neg hne] at hv ⊢
      exact hkept hk hv
    · simp only [ha, if_false, Bool.false_eq_true]
      refine ⟨fun hk => ?_, fun hk hv => ?_⟩
      · have hne : a ≠ k := fun h => by simp_all
        split
        · rw [SMap.get_cons, if_neg hne]
          exact hgone hk
        · exact hgone hk
      · rw [SMap.get_cons] at hv
        by_cases hak : a = k
        · rw [if_pos hak] at hv
          rw [if_pos (by simpa using hv), SMap.get_cons, SMap.get_cons, if_pos hak, if_pos hak]
        · rw [if_neg hak] at hv
          rw [SMap.get_cons, if_neg hak]
          split
          · rw [SMap.get_cons, if_neg hak]
            exact hkept hk hv
          · exact hkept hk hv

theorem State.core_of_cores {s t : State} (h : t.cores = s.cores) (c : Nat) : t.core c = s.core c := by rw [State.core, State.core, h]

/-- The cores of a partition are as after a reset, and every other core is as it was (R401). -/
theorem State.modCores_reset (p c : Nat) :
    ((s.dies p).contains (c / 144) = true → (s.modCores p fun _ => Core.reset).core c = Core.reset) ∧
      ((s.dies p).contains (c / 144) = false → s.core c ≠ Core.reset → (s.modCores p fun _ => Core.reset).core c = s.core c) :=
  SMap.get_dropped Core.reset (fun k => (s.dies p).contains (k / 144)) c s.cores

/-! ## Partitions -/

theorem State.part_if_self (p q : Nat) : (if q = p then s.part p else s.part q) = s.part q := by
  split
  next hq => rw [hq]
  next => rfl

theorem State.unselect_part (p q : Nat) :
    (s.unselect p).part q = if q = p then { s.part p with next := none } else s.part q := by
  unfold State.unselect
  split
  next => exact State.part_setPart_if ..
  next hn =>
    rw [← hn]
    exact (State.part_if_self s p q).symm

theorem State.abortJob_part (p q : Nat) :
    (s.abortJob p).part q = if q = p then
      { s.part p with next := none, job := (s.part p).job.map fun j => { j with aborted := true } } else s.part q := by
  rw [State.abortJob, State.modJob, State.part_setPart_if, State.unselect_part, State.unselect_part, if_pos rfl]
  split <;> rfl

theorem State.sendCtrl_part (p op arg q : Nat) (dest : Option Nat) (body : Bytes) : (s.sendCtrl p op arg dest body).part q = s.part q :=
  State.part_of_parts (by simp) q

theorem State.exchEvent_part (p code v q : Nat) : (s.exchEvent p code v).part q = s.part q := State.part_of_parts (by simp) q

/-- A partition that leaves its group keeps its table, its epoch and its bank (R358). -/
theorem State.leaveGroup_part (p : Nat) : ∃ left state status, ∀ q, (s.leaveGroup p).part q = if q = p then
    { s.part p with left := left, exch := { (s.part p).exch with state := state, status := status } } else s.part q := by
  unfold State.leaveGroup State.withTable
  split
  next t _ =>
    dsimp only
    split
    next => exact ⟨_, _, _, fun q => (State.part_if_self s p q).symm⟩
    next =>
      refine ⟨true, 6, setAt (s.part p).exch.status t.rank 2, fun q => ?_⟩
      rw [State.exchEvent_part, State.part_setPart_if, State.modExch_part, State.modExch_part, State.sendCtrl_part,
        State.sendCtrl_part, if_pos rfl]
      split <;> rfl
  next => exact ⟨_, _, _, fun q => (State.part_if_self s p q).symm⟩

/-- Nimbus is emptied without a change of the partitions but their poison (R290). -/
theorem State.resetSlices_unpoisoned (p q : Nat) : ((s.resetSlices p).part q).unpoisoned = (s.part q).unpoisoned := by
  unfold State.resetSlices
  refine foldl_keeps (fun u : State => (u.part q).unpoisoned) _ (fun a d => ?_) _ _
  rw [State.part_of_parts (s := a.writeBack d) (by simp [State.resetSlice]), State.writeBack_unpoisoned]

theorem State.resetBulk_parts (p : Nat) : (s.resetBulk p).parts = s.parts := rfl

theorem State.resetCores_part (p q : Nat) :
    (s.resetCores p).part q = if q = p then { s.part p with frozenAt := none } else s.part q := State.part_setPart_if ..

/-! ## The beginning of a reset -/

/-- A partition as the beginning of a reset leaves it, but for its job, its freeze and its membership (R411). -/
def Part.resetBy (x : Part) (kind : Nat) : Part :=
  { x with exch := x.exch.afterReset, resetting := kind, hold := false, fabWait := false }

theorem Part.resetBy_unpoisoned (x : Part) (kind : Nat) : (x.resetBy kind).unpoisoned = x.unpoisoned.resetBy kind := rfl

theorem Part.fields_of_resetBy {x y : Part} {kind : Nat} (h : x.unpoisoned = y.resetBy kind) :
    x.resetting = kind ∧ x.hold = false ∧ x.frozenAt = y.frozenAt ∧ x.exch = y.exch.afterReset ∧ x.hbm = y.hbm ∧
      x.job = y.job ∧ x.next = y.next ∧ x.reserve = y.reserve :=
  ⟨(congrArg Part.resetting h :), (congrArg Part.hold h :), (congrArg Part.frozenAt h :), (congrArg Part.exch h :),
    (congrArg Part.hbm h :), (congrArg Part.job h :), (congrArg Part.next h :), (congrArg Part.reserve h :)⟩

/-- A partition marked as being reset, its membership over (R358, R411). -/
def State.markedReset (p kind : Nat) : State :=
  let w := s.modExch p Exch.afterReset
  w.setPart p { w.part p with resetting := kind, hold := false, fabWait := false }

theorem State.markedReset_part (p kind q : Nat) :
    (s.markedReset p kind).part q = if q = p then (s.part p).resetBy kind else s.part q := by
  rw [State.markedReset, State.part_setPart_if, State.modExch_part, State.modExch_part, if_pos rfl]
  split <;> rfl

theorem State.startReset_eq (p kind : Nat) :
    ∃ d, s.startReset p kind =
      ((((((s.abortJob p).leaveGroup p).resetCores p).resetSlices p).resetBulk p).markedReset p kind).setNode p d ∧ d.inbox = [] :=
  ⟨_, rfl, rfl⟩

/-- The partitions at the beginning of a reset, by what the aborted job and the group that has been left leave of them. -/
theorem State.startReset_part (p kind q : Nat) :
    ((s.startReset p kind).part q).unpoisoned = if q = p then
      ({ (((s.abortJob p).leaveGroup p).part p).unpoisoned with frozenAt := none } : Part).resetBy kind
      else (((s.abortJob p).leaveGroup p).part q).unpoisoned := by
  obtain ⟨d, hstart, -⟩ := s.startReset_eq p kind
  have hslices : ∀ x, ((((((s.abortJob p).leaveGroup p).resetCores p).resetSlices p).resetBulk p).part x).unpoisoned =
      if x = p then { (((s.abortJob p).leaveGroup p).part p).unpoisoned with frozenAt := none }
      else (((s.abortJob p).leaveGroup p).part x).unpoisoned := fun x => by
    rw [State.part_of_parts (State.resetBulk_parts ..), State.resetSlices_unpoisoned, State.resetCores_part]
    split <;> rfl
  rw [hstart, State.part_of_parts (State.setNode_parts ..), State.markedReset_part]
  split
  next => rw [Part.resetBy_unpoisoned, hslices, if_pos rfl]
  next hq => rw [hslices, if_neg hq]

/-- A reset of a partition leaves every other partition as it is. -/
theorem State.startReset_part_ne {p q : Nat} (kind : Nat) (h : q ≠ p) :
    ((s.startReset p kind).part q).unpoisoned = (s.part q).unpoisoned := by
  obtain ⟨left, state, status, hleave⟩ := (s.abortJob p).leaveGroup_part p
  rw [State.startReset_part, if_neg h, hleave, if_neg h, State.abortJob_part, if_neg h]

/-- The partition itself: its job is aborted, its membership over, and its epoch, bank and table are kept (R358, R411). -/
theorem State.startReset_part_self (p kind : Nat) : ∃ left state status, ((s.startReset p kind).part p).unpoisoned =
    ({ (s.part p).unpoisoned with
      next := none, job := (s.part p).job.map fun j => { j with aborted := true }, left := left, frozenAt := none
      exch := { (s.part p).exch with state := state, status := status } } : Part).resetBy kind := by
  obtain ⟨left, state, status, hleave⟩ := (s.abortJob p).leaveGroup_part p
  refine ⟨left, state, status, ?_⟩
  rw [State.startReset_part, if_pos rfl, hleave, if_pos rfl, State.abortJob_part, if_pos rfl]
  rfl

theorem State.startReset_hbm (p kind q : Nat) : ((s.startReset p kind).part q).hbm = (s.part q).hbm := by
  by_cases h : q = p
  · subst h
    obtain ⟨left, state, status, hself⟩ := s.startReset_part_self q kind
    obtain ⟨-, -, -, -, hhbm, -⟩ := Part.fields_of_resetBy hself
    exact hhbm
  · exact Part.hbm_of_unpoisoned (s.startReset_part_ne kind h)

theorem State.startReset_cores (p kind : Nat) : (s.startReset p kind).cores = (s.modCores p fun _ => Core.reset).cores := by
  have hcores : ((s.abortJob p).leaveGroup p).cores = s.cores := by simp
  have hdies : ((s.abortJob p).leaveGroup p).dies p = s.dies p := by simp [State.dies]
  have hstart : (s.startReset p kind).cores = (((s.abortJob p).leaveGroup p).modCores p fun _ => Core.reset).cores := by
    simp [State.startReset, State.resetCores]
  rw [hstart, State.modCores, State.modCores, hcores, hdies]

/-- A reset of kind `kind` has begun in `u`: the partition shows it, its cores are as after a reset and its inbox is empty, while
memory, set-up, numbering, and epoch and bank of the exchange are as in `s` (R358, R363, R411). -/
def State.resetBegun (s u : State) (p kind : Nat) : Prop :=
  (u.part p).resetting = kind ∧ (u.part p).hold = false ∧ (u.part p).frozenAt = none ∧
    (∀ c, (s.dies p).contains (c / 144) = true → u.core c = Core.reset) ∧
    (∀ c, (s.dies p).contains (c / 144) = false → s.core c ≠ Core.reset → u.core c = s.core c) ∧
    (∀ d, (u.part d).hbm = (s.part d).hbm) ∧ u.setup = s.setup ∧ u.layout = s.layout ∧ u.lmap = s.lmap ∧ u.chip.good = s.chip.good ∧
    (u.exch p).epoch = (s.part p).exch.epoch ∧ (u.exch p).flipped = (s.part p).exch.flipped ∧
    (u.exch p).tbl = (s.part p).exch.tbl ∧ (u.node p).inbox = []

theorem State.startReset_begun (p kind : Nat) : s.resetBegun (s.startReset p kind) p kind := by
  obtain ⟨left, state, status, hself⟩ := s.startReset_part_self p kind
  obtain ⟨hkind, hhold, hfrozen, hexch, -⟩ := Part.fields_of_resetBy hself
  refine ⟨hkind, hhold, hfrozen, fun c hc => ?_, fun c hc hne => ?_, s.startReset_hbm p kind, by simp, by simp, by simp,
    Chip.good_of_unfused (s.startReset_unfused p kind), ?_, ?_, ?_, ?_⟩
  · rw [State.core_of_cores (s.startReset_cores p kind)]
    exact (s.modCores_reset p c).1 hc
  · rw [State.core_of_cores (s.startReset_cores p kind)]
    exact (s.modCores_reset p c).2 hc hne
  · rw [State.exch, hexch]
    rfl
  · rw [State.exch, hexch]
    rfl
  · rw [State.exch, hexch]
    rfl
  · obtain ⟨d, hstart, hinbox⟩ := s.startReset_eq p kind
    rw [hstart, State.node_setNode, hinbox]

end

section
variable {s t u : State} {p kind : Nat}

/-- A reset begins alike from states that differ in nothing it starts from. -/
theorem State.resetBegun.of_eq (h : t.resetBegun u p kind) (hparts : t.parts = s.parts) (hcores : t.cores = s.cores)
    (hsetup : t.setup = s.setup) (hlayout : t.layout = s.layout) (hlmap : t.lmap = s.lmap) (hgood : t.chip.good = s.chip.good) :
    s.resetBegun u p kind := by
  have hdies : t.dies p = s.dies p := by rw [State.dies, State.dies, hlayout]
  simpa only [State.resetBegun, State.part, State.core, hparts, hcores, hsetup, hlayout, hlmap, hgood, hdies] using h

/-- A reset has begun alike in states that differ in nothing that shows it. -/
theorem State.resetBegun.to_eq (h : s.resetBegun t p kind) (hparts : u.parts = t.parts) (hcores : u.cores = t.cores)
    (hnodes : u.nodes = t.nodes) (hsetup : u.setup = t.setup) (hlayout : u.layout = t.layout) (hlmap : u.lmap = t.lmap)
    (hgood : u.chip.good = t.chip.good) : s.resetBegun u p kind := by
  simpa only [State.resetBegun, State.part, State.exch, State.core, State.node, hparts, hcores, hnodes, hsetup, hlayout, hlmap, hgood]
    using h

theorem State.portsOf_of {s t : State} (hlayout : t.layout = s.layout) (hgrade : t.gradeS = s.gradeS) (p : Nat) :
    t.portsOf p = s.portsOf p := by
  have hdies : t.dies p = s.dies p := by rw [State.dies, State.dies, hlayout]
  have hcount : t.portCount = s.portCount := by rw [State.portCount, State.portCount, hgrade]
  rw [State.portsOf, State.portsOf, hdies, hcount]

theorem doComputeReset_ignored (h : s.bringing = true ∨ s.layout ≤ p ∨ (s.part p).resetting ≠ 0) : s.doComputeReset p = s := if_pos h

/-- A compute reset waits for a repair hold to end (R413). -/
theorem doComputeReset_waits (hb : s.bringing = false) (hl : p < s.layout) (hr : (s.part p).resetting = 0) (hh : (s.part p).hold = true) :
    s.doComputeReset p = s.modChip fun h => { h with waitHold := setAt h.waitHold p true } := by
  rw [State.doComputeReset, if_neg (by simp [hb, hr]; omega), if_pos hh]

theorem doComputeReset_begins (hb : s.bringing = false) (hl : p < s.layout) (hr : (s.part p).resetting = 0)
    (hh : (s.part p).hold = false) : s.doComputeReset p = s.startReset p 1 := by
  rw [State.doComputeReset, if_neg (by simp [hb, hr]; omega), if_neg (by simp [hh])]

/-! ## Failed cores that a partition reset takes over -/

theorem fuseFailing_good (s : State) (p : Nat) : (s.fuseFailing p).chip.good = s.chip.good := by
  unfold State.fuseFailing
  refine foldl_keeps (fun u : State => u.chip.good) _ (fun a f => ?_) _ _
  exact (Chip.good_of_unfused (State.fuseEntry_unfused ..) :)

/-- What is left of the failed cores after some have been dealt with. -/
theorem settledFailing_mem (p : Nat) (xs : List Failing) (s : State) {g : Failing}
    (hg : g ∈ (xs.foldl (fun acc f => (acc.fuseEntry p 1 (corePlace f.phys) f.cause).settleFailing f) s).chip.failing) :
    g ∈ s.chip.failing ∧ ∀ f ∈ xs, g.phys ≠ f.phys := by
  induction xs generalizing s with
  | nil => exact ⟨hg, by simp⟩
  | cons f xs ih =>
    obtain ⟨hmem, hrest⟩ := ih _ hg
    obtain ⟨hold, hne⟩ := List.mem_filter.mp hmem
    rw [Chip.failing_of_unfused (State.fuseEntry_unfused ..)] at hold
    exact ⟨hold, fun f' hf => (List.mem_cons.mp hf).elim (fun h => h ▸ by simpa using hne) (hrest f')⟩

/-- A partition reset leaves no failed core of its partition to a repair hold (R413). -/
theorem fuseFailing_failing {g : Failing} (hg : g ∈ (s.fuseFailing p).chip.failing) : s.partOfPhys g.phys ≠ p := by
  obtain ⟨hmem, hne⟩ := settledFailing_mem p _ s hg
  exact fun hp => hne g (List.mem_filter.mpr ⟨hmem, by simpa using hp⟩) rfl

/-! ## Ports that retrain -/

/-- A port that is not down starts its training afresh (R411). -/
def State.retrainPort (s : State) (n : Nat) : State :=
  if (s.port n).st = 0 then s else s.setPort n { (s.port n).freshLink with st := 1 }

theorem State.retrainPort_st (s : State) (n m : Nat) :
    ((s.retrainPort n).port m).st = if m = n ∧ (s.port m).st ≠ 0 then 1 else (s.port m).st := by
  unfold State.retrainPort
  by_cases hm : m = n
  · subst hm
    split <;> simp_all
  · split <;> simp [hm, State.port_setPort_ne]

theorem State.retrainPorts_st (ns : List Nat) (s : State) (m : Nat) :
    ((ns.foldl State.retrainPort s).port m).st = if m ∈ ns ∧ (s.port m).st ≠ 0 then 1 else (s.port m).st := by
  induction ns generalizing s with
  | nil => simp
  | cons n ns ih =>
    rw [List.foldl_cons, ih, State.retrainPort_st]
    by_cases hm : m = n
    · subst hm
      by_cases hst : (s.port m).st = 0 <;> simp [hst]
    · simp [hm]

theorem State.retrainPorts_ports (ns : List Nat) (s : State) :
    ns.foldl State.retrainPort s = { s with ports := (ns.foldl State.retrainPort s).ports } := by
  induction ns generalizing s with
  | nil => rfl
  | cons n ns ih =>
    have hone : s.retrainPort n = { s with ports := (s.retrainPort n).ports } := by
      unfold State.retrainPort
      split <;> rfl
    rw [List.foldl_cons, ih, hone]

/-! ## The beginning of a partition reset -/

theorem doPartReset_ignored (h : s.bringing = true ∨ s.layout ≤ p ∨ (s.part p).resetting = 2) : s.doPartReset p = s := if_pos h

/-- A reset that has begun without a compute reset that waits behind it (R413). -/
def State.unwaited (s : State) (p : Nat) : State := s.modChip fun h => { h with waitHold := setAt h.waitHold p false }

theorem unwaited_good (s : State) (p : Nat) : (s.unwaited p).chip.good = s.chip.good := rfl

theorem unwaited_failing (s : State) (p : Nat) : (s.unwaited p).chip.failing = s.chip.failing := rfl

theorem unwaited_waitHold (s : State) (p : Nat) : (s.unwaited p).chip.waitHold.getD p false = false := by
  show (setAt s.chip.waitHold p false).getD p false = false
  by_cases h : p < s.chip.waitHold.length
  · rw [getD_setAt _ _ _ _ _ h, if_pos rfl]
  · simp [setAt, List.getD_eq_getElem?_getD, h]

theorem doPartReset_begins (hb : s.bringing = false) (hl : p < s.layout) (hr : (s.part p).resetting ≠ 2) :
    s.doPartReset p = (s.portsOf p).foldl State.retrainPort (((s.fuseFailing p).startReset p 2).unwaited p) := by
  have hports : (((s.fuseFailing p).startReset p 2).unwaited p).portsOf p = s.portsOf p :=
    State.portsOf_of (by simp [State.unwaited]) (by simp [State.unwaited]) p
  rw [State.doPartReset, if_neg (by simp [hb, hr]; omega), ← hports]
  rfl

/-- What a partition reset has done once it has begun (R411 to R413). -/
theorem doPartReset_spec (hb : s.bringing = false) (hl : p < s.layout) (hr : (s.part p).resetting ≠ 2) :
    s.resetBegun (s.doPartReset p) p 2 ∧ (s.doPartReset p).chip.waitHold.getD p false = false ∧
      (∀ g ∈ (s.doPartReset p).chip.failing, (s.doPartReset p).partOfPhys g.phys ≠ p) ∧
      ∀ n ∈ s.portsOf p, ((s.doPartReset p).port n).st = if (s.port n).st = 0 then 0 else 1 := by
  have hbegun : s.resetBegun ((s.fuseFailing p).startReset p 2) p 2 := ((s.fuseFailing p).startReset_begun p 2).of_eq
    (by simp) (by simp) (by simp) (by simp) (by simp) (fuseFailing_good s p)
  have hstart : (((s.fuseFailing p).startReset p 2).unwaited p).ports = s.ports := by simp [State.unwaited]
  rw [doPartReset_begins hb hl hr]
  refine ⟨?_, ?_, fun g hg => ?_, fun n hn => ?_⟩
  · rw [State.retrainPorts_ports]
    exact hbegun.to_eq (by simp [State.unwaited]) (by simp [State.unwaited]) (by simp [State.unwaited]) (by simp [State.unwaited])
      (by simp [State.unwaited]) (by simp [State.unwaited]) (by simp only [unwaited_good])
  · rw [State.retrainPorts_ports]
    exact unwaited_waitHold ..
  · rw [State.retrainPorts_ports] at hg ⊢
    simp only [unwaited_failing, Chip.failing_of_unfused (State.startReset_unfused ..)] at hg
    rw [partOfPhys_of (s := s) (by simp [State.unwaited])]
    exact fuseFailing_failing hg
  · have hport : ((((s.fuseFailing p).startReset p 2).unwaited p).port n) = s.port n := by rw [State.port, State.port, hstart]
    rw [State.retrainPorts_st, hport]
    by_cases hst : (s.port n).st = 0 <;> simp [hst, hn]

end

/-! ## The start of a selected job -/

/-- A partition but its poison and its jobs. -/
def Part.jobless (q : Part) : Part := { q with poison := [], job := none, next := none }

theorem Part.jobless_of_unpoisoned {x y : Part} (h : x.unpoisoned = y.unpoisoned) : x.jobless = y.jobless :=
  (congrArg Part.jobless h :)

theorem Part.fields_of_jobless {x y : Part} (h : x.jobless = y.jobless) :
    x.resetting = y.resetting ∧ x.hold = y.hold ∧ x.degraded = y.degraded :=
  ⟨(congrArg Part.resetting h :), (congrArg Part.hold h :), (congrArg Part.degraded h :)⟩

section
variable (s : State)

theorem State.readLine_chip (p a n : Nat) (priv : Bool) : (s.readLine p a n priv .clean).1.chip = s.chip := by
  unfold State.readLine
  dsimp only
  split
  next => rfl
  next =>
    split
    next => split <;> simp
    next => split <;> simp [State.readWord_clean]
  next => split <;> simp
  next => rfl
  next => rfl

@[simp] theorem State.devRead_chip (p a n : Nat) (priv : Bool) : (s.devRead p a n priv).1.chip = s.chip := by
  unfold State.devRead
  refine foldl_keeps (fun u : State × _ => u.1.chip) _ (fun acc e => ?_) _ _
  dsimp only
  split
  next => rfl
  next => split <;> exact State.readLine_chip ..

/-- The start of a selected job leaves the chip as it is. -/
theorem State.promote_chip (p : Nat) : (s.promote p).chip = s.chip := by
  have himage : ∀ (u : State) a, (u.readImage p a).1.chip = u.chip := fun u a => by
    unfold State.readImage
    dsimp only
    (repeat' split) <;> simp
  have hforecast : ∀ (u : State) h dir, (u.readForecast p h dir).1.chip = u.chip := fun u h dir => by
    unfold State.readForecast
    dsimp only
    (repeat' split) <;> simp
  have hlaunch : ∀ (u : State) j, (u.launchJob p j).chip = u.chip := fun u j => by
    unfold State.launchJob
    dsimp only
    split <;> simp [himage, hforecast]
  unfold State.promote
  dsimp only
  (repeat' split) <;> simp [hlaunch]

theorem State.jobless_setPart (p q : Nat) {x : Part} (h : x.jobless = (s.part p).jobless) :
    ((s.setPart p x).part q).jobless = (s.part q).jobless := by
  rw [State.part_setPart_if]
  split
  next hq => rw [h, hq]
  next => rfl

theorem State.startCores_part (p : Nat) (args : List Nat) (key : Nat) (dir : List DirEntry) (q : Nat) :
    (s.startCores p args key dir).part q = s.part q := State.part_of_parts (by simp) q

theorem State.launchJob_jobless (p q : Nat) (j : Job) : ((s.launchJob p j).part q).jobless = (s.part q).jobless := by
  have himage : ∀ x, ((s.readImage p j.image).1.part x).jobless = (s.part x).jobless :=
    fun x => Part.jobless_of_unpoisoned (State.readImage_unpoisoned ..)
  unfold State.launchJob
  dsimp only
  split
  next =>
    refine (State.jobless_setPart _ p q ?_).trans (himage q)
    rfl
  next h dir _ =>
    rw [State.startCores_part]
    refine (State.jobless_setPart _ p q ?_).trans ((Part.jobless_of_unpoisoned (State.readForecast_unpoisoned ..)).trans (himage q))
    rfl

/-- The start of a selected job changes no partition but in its jobs and its poison. -/
theorem State.promote_jobless (p q : Nat) : ((s.promote p).part q).jobless = (s.part q).jobless := by
  unfold State.promote
  dsimp only
  split
  next =>
    split
    next => rfl
    next =>
      split
      next =>
        refine State.jobless_setPart _ p q ?_
        rfl
      next =>
        refine (State.launchJob_jobless ..).trans (State.jobless_setPart _ p q ?_)
        rfl
  next => rfl

end


/-! ## The end of a reset -/

section
variable (s : State) (p : Nat)

/-- The partition that a repair hold enters (R408, R410). -/
theorem State.beginHold_part (hfree : ¬((s.part p).hold = true ∨ (s.part p).resetting ≠ 0 ∨ s.mmc.restarting = true)) :
    (s.beginHold p).part p =
      { s.part p with
        next := none, job := (s.part p).job.map fun j => { j with aborted := true }, hold := true, fabWait := false
        exch := { (s.part p).exch with mstep := 0 } } := by
  have habort : ((s.abortJob p).modCores p Core.quiesce).part p = { s.part p with
      next := none, job := (s.part p).job.map fun j => { j with aborted := true } } := by
    rw [State.part_of_parts (s := s.abortJob p) (by simp), State.abortJob_part, if_pos rfl]
  rw [State.beginHold, if_neg hfree, State.modExch_part, if_pos rfl, State.part_setPart, habort]

/-- A repair hold that failed cores ask for changes neither the status of reset of the partition nor its degradation. -/
theorem State.holdIfDue_status :
    ((s.holdIfDue p).part p).resetting = (s.part p).resetting ∧ ((s.holdIfDue p).part p).degraded = (s.part p).degraded := by
  unfold State.holdIfDue
  split
  next =>
    by_cases hfree : (s.part p).hold = true ∨ (s.part p).resetting ≠ 0 ∨ s.mmc.restarting = true
    · rw [State.beginHold, if_pos hfree]
      exact ⟨rfl, rfl⟩
    · rw [State.beginHold_part s p hfree]
      exact ⟨rfl, rfl⟩
  next => exact ⟨rfl, rfl⟩

/-- With a failed core on it, a partition that no reset holds is under a repair hold (R408, R448). -/
theorem State.holdIfDue_hold (hfail : s.chip.failing.any (fun g => s.partOfPhys g.phys == p) = true)
    (hreset : (s.part p).resetting = 0) (hmmc : s.mmc.restarting = false) : ((s.holdIfDue p).part p).hold = true := by
  rw [State.holdIfDue, if_pos hfail]
  by_cases hhold : (s.part p).hold = true
  · rw [State.beginHold, if_pos (Or.inl hhold), hhold]
  · rw [State.beginHold_part s p (by simp [hhold, hreset, hmmc])]

/-- A partition whose status of reset has cleared, its slices free and its ports up again. -/
def State.reopened : State := ((s.setPart p { s.part p with resetting := 0 }).settleSlices p).raisePorts p

theorem State.reopened_part : (s.reopened p).part p = { s.part p with resetting := 0 } := by
  rw [State.part_of_parts (s := s.setPart p { s.part p with resetting := 0 }) (by simp [State.reopened]), State.part_setPart]

/-- The end of a reset: the status clears, a repair hold that is due begins, and jobs that waited start (R408, R411). -/
def State.endReset : State := ((s.reopened p).holdIfDue p).promote p

theorem State.endReset_frame : (s.endReset p).setup = s.setup ∧ (s.endReset p).lmap = s.lmap ∧ (s.endReset p).layout = s.layout ∧
    (s.endReset p).gradeS = s.gradeS ∧ (s.endReset p).chip = s.chip := by
  simp [State.endReset, State.reopened, State.promote_chip]

/-- Neither the hold nor the jobs that start bring the status of reset back. -/
theorem State.endReset_status :
    ((s.endReset p).part p).resetting = 0 ∧ ((s.endReset p).part p).degraded = (s.part p).degraded := by
  obtain ⟨hreset, -, hdegraded⟩ := Part.fields_of_jobless (((s.reopened p).holdIfDue p).promote_jobless p p)
  obtain ⟨hreset', hdegraded'⟩ := (s.reopened p).holdIfDue_status p
  rw [State.endReset, hreset, hdegraded, hreset', hdegraded', State.reopened_part]
  exact ⟨rfl, rfl⟩

theorem State.endReset_hold (hfail : s.chip.failing.any (fun g => s.partOfPhys g.phys == p) = true) (hmmc : s.mmc.restarting = false) :
    ((s.endReset p).part p).hold = true := by
  obtain ⟨-, hhold, -⟩ := Part.fields_of_jobless (((s.reopened p).holdIfDue p).promote_jobless p p)
  have hchip : (s.reopened p).chip = s.chip := by simp [State.reopened]
  have hwhere : ∀ c, (s.reopened p).partOfPhys c = s.partOfPhys c := fun c => partOfPhys_of (by simp [State.reopened]) c
  rw [State.endReset, hhold]
  refine (s.reopened p).holdIfDue_hold p ?_ (by rw [State.reopened_part]) (by simp [State.reopened, hmmc])
  simpa only [hchip, hwhere] using hfail

end

section
variable {s : State} {p : Nat}

theorem doComputeResetDone_ignored (h : (s.part p).resetting ≠ 1) : s.doComputeResetDone p = s := if_pos h

theorem doComputeResetDone_ends (h : (s.part p).resetting = 1) : s.doComputeResetDone p = s.endReset p := if_neg (not_not_intro h)

/-! ## The end of a partition reset -/

/-- A core that fails its test is good no more, and no other core becomes good (R396). -/
theorem failCore_good (s : State) (c cause : Nat) : (s.failCore c cause).chip.good = s.chip.good.filter (· != c) := by
  unfold State.failCore
  split
  next => simp [Chip.good_of_unfused (State.fuseEntry_unfused ..), State.dropCore, State.modChip]
  next hc =>
    refine (List.filter_eq_self.mpr fun x hx => ?_).symm
    rw [bne_iff_ne]
    rintro rfl
    exact hc (List.contains_iff_mem.mpr hx)

/-- The cores of the partition that failed their tests in a partition reset, failed. -/
def State.failTested (s : State) (p : Nat) (f : Findings) : State :=
  (f.coreFail.filter fun c => (s.dies p).contains (c / 144)).foldl (fun acc c => acc.failCore c 1) s

theorem failCores_good (cs : List Nat) (s : State) {c : Nat} (hc : c ∈ (cs.foldl (fun acc c => acc.failCore c 1) s).chip.good) :
    c ∉ cs ∧ c ∈ s.chip.good := by
  induction cs generalizing s with
  | nil => exact ⟨by simp, hc⟩
  | cons d cs ih =>
    obtain ⟨hcs, hgood⟩ := ih _ hc
    rw [failCore_good] at hgood
    obtain ⟨hgood, hne⟩ := List.mem_filter.mp hgood
    exact ⟨by simp_all, hgood⟩

theorem failTested_good (s : State) (p : Nat) (f : Findings) {c : Nat} (hc : c ∈ f.coreFail) (hp : (s.dies p).contains (c / 144) = true) :
    c ∉ (s.failTested p f).chip.good :=
  fun hgood => (failCores_good _ s hgood).1 (List.mem_filter.mpr ⟨hc, hp⟩)

theorem failTested_frame (s : State) (p : Nat) (f : Findings) : (s.failTested p f).setup = s.setup ∧ (s.failTested p f).lmap = s.lmap := by
  unfold State.failTested
  exact ⟨foldl_keeps State.setup _ (fun a c => by simp) _ _, foldl_keeps State.lmap _ (fun a c => by simp) _ _⟩

/-- Fresh logical numbers stand on good cores of the dies that are numbered, and no core of another die loses its number (R399). -/
theorem numberDies_lmap (s : State) (ds : List Nat) :
    (∀ e ∈ (s.numberDies ds).lmap, ds.contains (e.2 / 144) = true → e.2 ∈ s.chip.good) ∧
      ∀ e ∈ s.lmap, ds.contains (e.2 / 144) = false → e ∈ (s.numberDies ds).lmap := by
  refine ⟨fun e he hds => ?_, fun e he hds => List.mem_append_left _ (List.mem_filter.mpr ⟨he, by simpa using hds⟩)⟩
  rcases List.mem_append.mp he with hkept | hnew
  · simp_all
  · obtain ⟨d, -, hd⟩ := List.mem_flatMap.mp hnew
    obtain ⟨x, hx, rfl⟩ := List.mem_map.mp hd
    have hgoodOn : x.1 ∈ s.chip.goodOn d := List.mem_of_mem_take (List.fst_mem_of_mem_zipIdx hx)
    simpa [Chip.goodOn] using (List.mem_filter.mp hgoodOn).2

theorem numberDies_good (s : State) (ds : List Nat) : (s.numberDies ds).chip.good = s.chip.good := rfl

theorem shortOf_of {s t : State} (hlmap : t.lmap = s.lmap) (hlayout : t.layout = s.layout) (hgrade : t.gradeS = s.gradeS) (p : Nat) :
    t.shortOf p = s.shortOf p := by
  have hdies : t.dies p = s.dies p := by rw [State.dies, State.dies, hlayout]
  have hshare : t.share = s.share := by rw [State.share, State.share, State.coresPerDie, State.coresPerDie, hgrade]
  have hpresent : ∀ d, t.presentOn d = s.presentOn d := fun d => by
    simp only [State.presentOn, State.dieOf, State.coresPerDie, hlmap, hgrade]
  simp only [State.shortOf, hdies, hshare, hpresent]

theorem setDegraded_degraded (s : State) (p : Nat) : ((s.setDegraded p).part p).degraded = s.shortOf p := by
  have hset : ((s.setPart p { s.part p with degraded := s.shortOf p }).part p).degraded = s.shortOf p := by rw [State.part_setPart]
  unfold State.setDegraded
  dsimp only
  split
  next => rw [State.part_of_parts (s := s.setPart p { s.part p with degraded := s.shortOf p }) (by simp), hset]
  next => exact hset

theorem activateCore_parts (s : State) (p : Nat) : (s.activateCore p).parts = s.parts := rfl

/-- Ports that train at the end of a partition reset (R411). -/
def State.trainReset (s : State) (p : Nat) (f : Findings) : State :=
  (s.portsOf p).foldl (fun acc n => if (acc.port n).st ≠ 1 then acc else
    acc.trainPort n ((f.laneErrs.filter (fun e => e.1 == n)).map (fun e => e.2)) true) s

theorem trainReset_keeps {β : Type} (get : State → β) (hget : ∀ (t : State) n errs, get (t.trainPort n errs true) = get t)
    (s : State) (p : Nat) (f : Findings) : get (s.trainReset p f) = get s := by
  refine foldl_keeps get _ (fun a n => ?_) _ _
  split
  next => rfl
  next => exact hget ..

/-- A partition reset at its end: cores numbered afresh, firmware activated, ports trained (R399, R402, R411, R446). -/
def State.requalified (s : State) (p : Nat) (f : Findings) : State :=
  ((((s.failTested p f).numberDies (s.dies p)).setDegraded p).activateCore p).trainReset p f

theorem requalified_frame (s : State) (p : Nat) (f : Findings) :
    let v := (s.failTested p f).numberDies (s.dies p)
    (s.requalified p f).setup = s.setup ∧ (s.requalified p f).lmap = v.lmap ∧ (s.requalified p f).layout = v.layout ∧
      (s.requalified p f).gradeS = v.gradeS ∧ (s.requalified p f).chip = v.chip ∧
      ((s.requalified p f).part p).degraded = v.shortOf p := by
  have hpart : ∀ t : State, (t.trainReset p f).part p = t.part p := fun t =>
    State.part_of_parts (trainReset_keeps State.parts (by simp) t p f) p
  unfold State.requalified
  refine ⟨?_, ?_, ?_, ?_, ?_, ?_⟩
  · simp [trainReset_keeps State.setup, failTested_frame]
  · simp [trainReset_keeps State.lmap]
  · simp [trainReset_keeps State.layout]
  · simp [trainReset_keeps State.gradeS]
  · simp [trainReset_keeps State.chip]
  · rw [hpart, State.part_of_parts (activateCore_parts ..), setDegraded_degraded]

theorem doPartResetDone_ignored (f : Findings) (h : (s.part p).resetting ≠ 2) : s.doPartResetDone p f = s := if_pos h

theorem doPartResetDone_ends (f : Findings) (h : (s.part p).resetting = 2) :
    s.doPartResetDone p f = (s.requalified p f).endReset p := if_neg (not_not_intro h)

/-- What holds at the end of a partition reset (R399, R400, R411). -/
theorem doPartResetDone_spec (f : Findings) (h : (s.part p).resetting = 2) :
    ((s.doPartResetDone p f).part p).resetting = 0 ∧ (s.doPartResetDone p f).setup = s.setup ∧
      ((s.doPartResetDone p f).part p).degraded = (s.doPartResetDone p f).shortOf p ∧
      (∀ e ∈ (s.doPartResetDone p f).lmap, (s.dies p).contains (e.2 / 144) = true →
        (s.doPartResetDone p f).chip.good.contains e.2 = true) ∧
      (∀ c ∈ f.coreFail, (s.dies p).contains (c / 144) = true → (s.doPartResetDone p f).chip.good.contains c = false) ∧
      ∀ e ∈ s.lmap, (s.dies p).contains (e.2 / 144) = false → e ∈ (s.doPartResetDone p f).lmap := by
  obtain ⟨hsetup, hlmap, hlayout, hgrade, hchip, hdegraded⟩ := requalified_frame s p f
  obtain ⟨hsetup', hlmap', hlayout', hgrade', hchip'⟩ := (s.requalified p f).endReset_frame p
  obtain ⟨hreset, hdegraded'⟩ := (s.requalified p f).endReset_status p
  obtain ⟨hnew, hkept⟩ := numberDies_lmap (s.failTested p f) (s.dies p)
  have hgoods : ((s.requalified p f).endReset p).chip.good = (s.failTested p f).chip.good := by
    rw [hchip', hchip, numberDies_good]
  have hlmaps := hlmap'.trans hlmap
  rw [doPartResetDone_ends f h]
  refine ⟨hreset, hsetup'.trans hsetup, ?_, fun e he hd => ?_, fun c hc hd => ?_, fun e he hd => ?_⟩
  · rw [hdegraded', hdegraded, shortOf_of hlmaps (hlayout'.trans hlayout) (hgrade'.trans hgrade)]
  · rw [hgoods, List.contains_iff_mem]
    exact hnew e (hlmaps ▸ he) hd
  · rw [hgoods, ← Bool.not_eq_true, List.contains_iff_mem]
    exact failTested_good s p f hc hd
  · rw [hlmaps]
    exact hkept e ((failTested_frame s p f).2 ▸ he) hd

end

/-! ## Function-level resets -/

/-- What a partition keeps through a reset of an idle partition. -/
def Part.lasting (x : Part) := (x.hbm, x.reserve, x.job, x.next)

/-- A partition without a running, an ended or a selected job. -/
def Part.idle (x : Part) : Part := { x with job := none, next := none }

theorem Part.fields_of_lasting {x y : Part} (h : x.lasting = y.lasting) :
    x.hbm = y.hbm ∧ x.reserve = y.reserve ∧ x.job = y.job ∧ x.next = y.next := by
  simpa only [Part.lasting, Prod.mk.injEq] using h

theorem Part.lasting_of_unpoisoned {x y : Part} (h : x.unpoisoned = y.unpoisoned) : x.lasting = y.lasting := (congrArg Part.lasting h :)

theorem Part.lasting_idle {x y : Part} (h : x.lasting = y.lasting) : x.idle.lasting = y.idle.lasting := by
  obtain ⟨hhbm, hreserve, -⟩ := Part.fields_of_lasting h
  simp only [Part.lasting, Part.idle, hhbm, hreserve]

section
variable {s : State} {p : Nat}

/-- A reset of a partition that has no job withdraws none from a ring. -/
theorem startReset_quiet (kind : Nat) (hnext : (s.part p).next = none) : (s.startReset p kind).hif.quiet = s.hif.quiet := by
  have habort : (s.abortJob p).hif = s.hif := by simp [State.abortJob, State.modJob, State.unselect, hnext]
  have hleave : ((s.abortJob p).leaveGroup p).hif.quiet = s.hif.quiet := by
    unfold State.leaveGroup State.withTable
    split
    next =>
      dsimp only
      split
      next => rw [habort]
      next => simp [habort]
    next => rw [habort]
  rw [← hleave]
  simp [State.startReset, State.resetCores, State.resetBulk]

theorem startReset_lasting (kind : Nat) (hidle : (s.part p).idle = s.part p) (q : Nat) :
    ((s.startReset p kind).part q).lasting = (s.part q).lasting := by
  by_cases hq : q = p
  · subst hq
    obtain ⟨left, state, status, hself⟩ := s.startReset_part_self q kind
    obtain ⟨-, -, -, -, hhbm, hjob, hnext, hreserve⟩ := Part.fields_of_resetBy hself
    rw [← hidle, Part.lasting, hhbm, hjob, hnext, hreserve, ← hidle]
    rfl
  · exact Part.lasting_of_unpoisoned (s.startReset_part_ne kind hq)

/-- The compute reset that a function-level reset begins finds no job any more (R371). -/
theorem doComputeReset_idle (hidle : (s.part p).idle = s.part p) :
    (∀ q, ((s.doComputeReset p).part q).lasting = (s.part q).lasting) ∧ (s.doComputeReset p).hif.quiet = s.hif.quiet := by
  have hnext : (s.part p).next = none := by rw [← hidle]; rfl
  unfold State.doComputeReset
  split
  next => exact ⟨fun _ => rfl, rfl⟩
  next =>
    split
    next => exact ⟨fun _ => rfl, rfl⟩
    next => exact ⟨startReset_lasting 1 hidle, startReset_quiet 1 hnext⟩

/-- A VF without rings and without jobs, its partition not yet reset (R371). -/
def State.vfCleared (s : State) (p : Nat) : State :=
  let t := s.modHif fun h => h.resetVf p
  t.setPart p (t.part p).idle

theorem vfCleared_part (s : State) (p q : Nat) : (s.vfCleared p).part q = if q = p then (s.part p).idle else s.part q :=
  State.part_setPart_if ..

theorem doFlrVf_jobless (h : (s.part p).job.isSome = false) : s.doFlrVf p = s.vfCleared p := if_neg (by simp [h])

theorem doFlrVf_runs (h : (s.part p).job.isSome = true) : s.doFlrVf p = (s.vfCleared p).doComputeReset p := if_pos h

/-- A VF's reset leaves jobs, memory and rings as they are without its rings and its jobs. -/
theorem doFlrVf_cleared (s : State) (p : Nat) :
    (∀ q, ((s.doFlrVf p).part q).lasting = ((s.vfCleared p).part q).lasting) ∧
      (s.doFlrVf p).hif.quiet = (s.vfCleared p).hif.quiet := by
  by_cases hjob : (s.part p).job.isSome = true
  · rw [doFlrVf_runs hjob]
    refine doComputeReset_idle ?_
    rw [vfCleared_part, if_pos rfl]
    rfl
  · rw [doFlrVf_jobless (by simpa using hjob)]
    exact ⟨fun _ => rfl, rfl⟩

theorem doFlrVf_lasting (s : State) (p q : Nat) :
    ((s.doFlrVf p).part q).lasting = if q = p then (s.part q).idle.lasting else (s.part q).lasting := by
  rw [(doFlrVf_cleared s p).1, vfCleared_part]
  split
  next hq => rw [hq]
  next => rfl

theorem doFlrVf_pairs (s : State) (p : Nat) : (s.doFlrVf p).hif.pairs = s.hif.pairs.filter fun e => e.1 / 64 != p :=
  (congrArg Hif.pairs (doFlrVf_cleared s p).2 :)

/-- Function-level resets of several VFs, one after the other (R371). -/
theorem doFlrVfs_spec (ps : List Nat) (s : State) :
    (∀ q, ((ps.foldl State.doFlrVf s).part q).lasting = if q ∈ ps then (s.part q).idle.lasting else (s.part q).lasting) ∧
      ∀ e ∈ (ps.foldl State.doFlrVf s).hif.pairs, e ∈ s.hif.pairs ∧ e.1 / 64 ∉ ps := by
  induction ps generalizing s with
  | nil => exact ⟨fun _ => rfl, fun e he => ⟨he, by simp⟩⟩
  | cons p ps ih =>
    obtain ⟨hlasting, hpairs⟩ := ih (s.doFlrVf p)
    refine ⟨fun q => ?_, fun e he => ?_⟩
    · rw [List.foldl_cons, hlasting]
      by_cases hq : q = p
      · have hidle : ((s.doFlrVf p).part q).lasting = (s.part q).idle.lasting := by rw [doFlrVf_lasting, if_pos hq]
        rw [if_pos (List.mem_cons.mpr (Or.inl hq)), hidle, Part.lasting_idle hidle]
        exact ite_self _
      · have hkept : ((s.doFlrVf p).part q).lasting = (s.part q).lasting := by rw [doFlrVf_lasting, if_neg hq]
        simp only [hkept, Part.lasting_idle hkept, List.mem_cons, hq, false_or]
    · obtain ⟨hone, hrest⟩ := hpairs e he
      rw [doFlrVf_pairs] at hone
      obtain ⟨hmem, hne⟩ := List.mem_filter.mp hone
      exact ⟨hmem, by simp_all⟩

/-- The reset of a VF (R371). -/
theorem doFlrVf_spec (s : State) (p : Nat) :
    ((s.doFlrVf p).part p).job = none ∧ ((s.doFlrVf p).part p).next = none ∧ (∀ e ∈ (s.doFlrVf p).hif.pairs, e.1 / 64 ≠ p) ∧
      (s.doFlrVf p).setup = s.setup ∧ (s.doFlrVf p).layout = s.layout ∧ (∀ d, ((s.doFlrVf p).part d).hbm = (s.part d).hbm) ∧
      ((s.part p).job.isSome = false →
        s.doFlrVf p = { s with parts := (s.doFlrVf p).parts, hif := s.hif.resetVf p }) := by
  obtain ⟨hlasting, hpairs⟩ := doFlrVfs_spec [p] s
  obtain ⟨-, -, hjob, hnext⟩ := Part.fields_of_lasting ((hlasting p).trans (if_pos (List.mem_singleton.mpr rfl)))
  refine ⟨hjob, hnext, fun e he => by simpa using (hpairs e he).2, by simp, by simp, fun d => ?_, fun h => ?_⟩
  · have hd := hlasting d
    split at hd
    · exact (Part.fields_of_lasting hd).1
    · exact (Part.fields_of_lasting hd).1
  · rw [doFlrVf_jobless h]
    rfl

/-! ## The reset of the PF -/

/-- Partitions whose exchange tables have been withdrawn. -/
def State.tablesWithdrawn (s : State) (ps : List Nat) : State := ps.foldl (fun acc p => acc.modExch p fun x => { x with tbl := none }) s

theorem tablesWithdrawn_part (ps : List Nat) (s : State) (q : Nat) : (s.tablesWithdrawn ps).part q =
    if q ∈ ps then { s.part q with exch := { (s.part q).exch with tbl := none } } else s.part q := by
  induction ps generalizing s with
  | nil => rfl
  | cons p ps ih =>
    have hrest := ih (s.modExch p fun x => { x with tbl := none })
    rw [State.modExch_part] at hrest
    refine hrest.trans ?_
    by_cases hq : q = p
    · subst hq
      simp
    · simp [hq]

theorem tablesWithdrawn_hif (ps : List Nat) (s : State) : (s.tablesWithdrawn ps).hif = s.hif :=
  foldl_keeps State.hif _ (fun a p => by simp) _ _

theorem tablesWithdrawn_setup (ps : List Nat) (s : State) : (s.tablesWithdrawn ps).setup = s.setup :=
  foldl_keeps State.setup _ (fun a p => by simp) _ _

/-- The host structures without what belongs to the PF and to set-up (R371, R377). -/
def Hif.withdrawn (h : Hif) : Hif :=
  { h with evts := h.evts.filter (fun e => e.1 != 0), msix := setAt h.msix 0 [], windows := 0, valid := false, reason := 0,
           sect := 0, detail := 0 }

/-- The module without set-up, its exchanges not yet without their tables. -/
def State.unset (s : State) : State := { s.modHif Hif.withdrawn with setup := none }

theorem unset_part (s : State) (q : Nat) : s.unset.part q = s.part q := rfl

theorem unset_hif (s : State) : s.unset.hif = s.hif.withdrawn := rfl

theorem unset_setup (s : State) : s.unset.setup = none := rfl

/-- The module without set-up, its VFs reset, its ports not yet settled. -/
def State.setupWithdrawn (s : State) : State := ([0, 1, 2, 3].foldl State.doFlrVf s).unset.tablesWithdrawn [0, 1, 2, 3]

theorem doFlrPf_eq (s : State) : s.doFlrPf = s.setupWithdrawn.settlePorts.chooseParent := rfl

theorem setupWithdrawn_hif (s : State) : s.setupWithdrawn.hif = ([0, 1, 2, 3].foldl State.doFlrVf s).hif.withdrawn := by
  rw [State.setupWithdrawn, tablesWithdrawn_hif, unset_hif]

theorem setupWithdrawn_setup (s : State) : s.setupWithdrawn.setup = none := by
  rw [State.setupWithdrawn, tablesWithdrawn_setup, unset_setup]

/-- The partitions after the VFs' resets, four of them without their exchange tables. -/
theorem setupWithdrawn_part (s : State) (q : Nat) : s.setupWithdrawn.part q =
    if q ∈ [0, 1, 2, 3] then
      { ([0, 1, 2, 3].foldl State.doFlrVf s).part q with
        exch := { (([0, 1, 2, 3].foldl State.doFlrVf s).part q).exch with tbl := none } }
    else ([0, 1, 2, 3].foldl State.doFlrVf s).part q := by
  rw [State.setupWithdrawn, tablesWithdrawn_part, unset_part]

theorem Hif.fields_of_withdrawn {h j : Hif} (e : h.quiet = j.withdrawn.quiet) : h.valid = false ∧ h.windows = 0 ∧ h.pairs = j.pairs :=
  ⟨(congrArg Hif.valid e :), (congrArg Hif.windows e :), (congrArg Hif.pairs e :)⟩

/-- The reset of the PF (R371). -/
theorem doFlrPf_spec (s : State) :
    s.doFlrPf.setup = none ∧ s.doFlrPf.hif.valid = false ∧ s.doFlrPf.hif.windows = 0 ∧ s.doFlrPf.layout = s.layout ∧
      s.doFlrPf.lmap = s.lmap ∧ (∀ d, (s.doFlrPf.part d).hbm = (s.part d).hbm) ∧ (∀ e ∈ s.doFlrPf.hif.pairs, 4 ≤ e.1 / 64) ∧
      ∀ d < 4, (s.doFlrPf.part d).job = none ∧ (s.doFlrPf.part d).next = none ∧ (s.doFlrPf.exch d).tbl = none ∧
        (s.doFlrPf.part d).reserve = (s.part d).reserve := by
  obtain ⟨hlasting, hpairs⟩ := doFlrVfs_spec [0, 1, 2, 3] s
  have hhif : s.doFlrPf.hif.quiet = ([0, 1, 2, 3].foldl State.doFlrVf s).hif.withdrawn.quiet := by
    rw [← setupWithdrawn_hif]
    simp [doFlrPf_eq]
  have hpart : ∀ q, s.doFlrPf.part q = s.setupWithdrawn.part q := fun q => State.part_of_parts (by simp [doFlrPf_eq]) q
  obtain ⟨hvalid, hwindows, hrings⟩ := Hif.fields_of_withdrawn hhif
  refine ⟨by simp [doFlrPf_eq, setupWithdrawn_setup], hvalid, hwindows, by simp, by simp, fun d => ?_, fun e he => ?_, fun d hd => ?_⟩
  · have hd := hlasting d
    rw [hpart, setupWithdrawn_part]
    split at hd
    next hmem =>
      rw [if_pos hmem]
      exact (Part.fields_of_lasting hd).1
    next hmem =>
      rw [if_neg hmem]
      exact (Part.fields_of_lasting hd).1
  · rw [hrings] at he
    have hfree := (hpairs e he).2
    simp only [List.mem_cons, List.not_mem_nil, or_false, not_or] at hfree
    omega
  · have hmem : d ∈ [0, 1, 2, 3] := by simp; omega
    obtain ⟨-, hreserve, hjob, hnext⟩ := Part.fields_of_lasting ((hlasting d).trans (if_pos hmem))
    rw [State.exch, hpart, setupWithdrawn_part, if_pos hmem]
    exact ⟨hjob, hnext, rfl, hreserve⟩

end

/-! ## The statement -/

/-- Without the link a command of the host reports its sensors alone (R434, R479). -/
theorem reporting_unlinked {s : State} (h : s.chip.power ≠ .on ∨ s.chip.perst = true) (f : State → State) :
    (Host.Outcome.next (s.reporting fun s => s.overLink f) : Host.Outcome State Fault Refusal) = .next s.reportSensors := by
  have hclosed : s.overLink f = s := if_neg fun ⟨hon, hperst⟩ => h.elim (· hon) (by simp [hperst])
  rw [State.reporting, hclosed]

/-- Settles O43: a reset that begins is read off `startReset`, one that ends off `endReset`, and a function-level reset ends the jobs
before the compute reset that follows it. -/
theorem resets : Obligations.Resets := by
  intro s p
  refine ⟨fun hoff => ⟨reporting_unlinked hoff _, reporting_unlinked hoff _, reporting_unlinked hoff _, reporting_unlinked hoff _⟩,
    fun hon hperst => ⟨fun h => ?_, fun hb hl hr hh => ?_, fun hb hl hr hh => ?_, fun h => ?_, fun hb hl hr => ?_, ?_, ?_⟩,
    fun hon h => ?_, fun hon h => ?_, fun f hon h => ?_, fun f hon h => ?_⟩
  · exact reporting_overLink hon hperst (doComputeReset_ignored h)
  · exact reporting_overLink hon hperst (doComputeReset_waits hb hl hr hh)
  · exact ⟨s.startReset p 1, reporting_overLink hon hperst (doComputeReset_begins hb hl hr hh), s.startReset_begun p 1, by simp,
      Chip.failing_of_unfused (s.startReset_unfused p 1)⟩
  · exact reporting_overLink hon hperst (doPartReset_ignored h)
  · exact ⟨s.doPartReset p, reporting_overLink hon hperst rfl, doPartReset_spec hb hl hr⟩
  · exact ⟨s.doFlrVf p, reporting_overLink hon hperst rfl, doFlrVf_spec s p⟩
  · exact ⟨s.doFlrPf, reporting_overLink hon hperst rfl, doFlrPf_spec s⟩
  · exact reporting_whenOn hon (doComputeResetDone_ignored h)
  · obtain ⟨hsetup, hlmap, -⟩ := s.endReset_frame p
    exact ⟨s.endReset p, reporting_whenOn hon (doComputeResetDone_ends h), (s.endReset_status p).1, hsetup, hlmap, s.endReset_hold p⟩
  · exact reporting_whenOn hon (doPartResetDone_ignored f h)
  · exact ⟨s.doPartResetDone p f, reporting_whenOn hon rfl, doPartResetDone_spec f h⟩

end Sys2Proof.Machine
end

