-- ==== Sys2Proof/Proofs/ExchangeMessages.lean ====
section
/-! SUPPORT. Exchange control packets that a member takes from its inbox, and what it sends in answer (R304, R353, R354, R358, R360). -/

namespace Sys2Proof.Machine

open Sys2Proof.Safety

section
variable {s u : State} {p op : Nat} {k : Packet}

/-! ## The inbox -/

/-- A packet that is taken passes the test that it is taken by (R304). -/
theorem takeInbox_passes {f : Nat → Packet → Bool} {n tc : Nat} (h : s.takeInbox p f = some (u, n, tc, k)) : f n k = true := by
  simp only [State.takeInbox] at h
  split at h
  next => cases h
  next i hfind =>
    obtain ⟨hi, htest, -⟩ := List.findIdx?_eq_some_iff_getElem.mp hfind
    rw [List.getElem?_eq_getElem hi] at h
    simp only [Option.some.injEq, Prod.mk.injEq] at h
    obtain ⟨-, rfl, -, rfl⟩ := h
    exact htest

/-- A control packet is taken by its operation, and nothing changes but the inbox (R353). -/
theorem takeCtrl_spec (h : s.takeCtrl p op = some (u, k)) : k.kind = 0x13 ∧ k.key % 256 = op ∧ u = { s with nodes := u.nodes } := by
  obtain ⟨d, hu⟩ := State.takeCtrl_state h
  obtain ⟨⟨v, n, tc, m⟩, htake, heq⟩ := Option.map_eq_some_iff.mp h
  obtain ⟨rfl, rfl⟩ := Prod.mk.inj heq
  obtain ⟨hkind, hop⟩ := Bool.and_eq_true_iff.mp (takeInbox_passes htake)
  exact ⟨beq_iff_eq.mp hkind, beq_iff_eq.mp hop, by rw [hu]; rfl⟩

theorem takeCtrl_exch (h : s.takeCtrl p op = some (u, k)) : u.exch p = s.exch p := by
  obtain ⟨d, rfl⟩ := State.takeCtrl_state h
  rfl

/-! ## Marks of ranks -/

/-- What a message marks in the exchange as it was before the message was taken, it marks once it has been taken; no other
partition changes. -/
theorem taken_modExch (f : Exch → Exch) (h : s.takeCtrl p op = some (u, k)) :
    u.modExch p f = { u with parts := (u.modExch p f).parts } ∧
      ∀ d, (u.modExch p f).part d = if d = p then { u.part p with exch := f (s.exch p) } else u.part d := by
  rw [← takeCtrl_exch h]
  exact ⟨rfl, fun d => u.modExch_part p d f⟩

theorem doSuspect_taken (h : s.takeCtrl p 4 = some (u, k)) : s.doSuspect p = u.modExch p fun x =>
    { x with suspects := if x.suspects.contains (ctrlArg k) then x.suspects else x.suspects ++ [ctrlArg k] } := by
  simp only [State.doSuspect, h]

theorem doLeave_taken (h : s.takeCtrl p 5 = some (u, k)) : s.doLeave p = u.modExch p fun x =>
    { x with leaving := if x.leaving.contains (ctrlArg k) then x.leaving else x.leaving ++ [ctrlArg k] } := by
  simp only [State.doLeave, h]

theorem doJoin_taken (h : s.takeCtrl p 6 = some (u, k)) :
    s.doJoin p = u.modExch p fun x => { x with status := setAt x.status (ctrlArg k) 1 } := by
  simp only [State.doJoin, h]

theorem doJoinReady_taken (h : s.takeCtrl p 7 = some (u, k)) : s.doJoinReady p = u.modExch p fun x =>
    { x with joinReady := if x.joinReady.contains (ctrlArg k) then x.joinReady else x.joinReady ++ [ctrlArg k] } := by
  simp only [State.doJoinReady, h]

/-! ## Answers and questions -/

/-- The control packet of a member for one module (R353). -/
def State.ctrlPacket (s : State) (p op id : Nat) (body : Bytes) : Packet := s.newPacket p id 0x13 false 0 body.length 0 op body

/-- A control packet for one module waits behind the TC0 messages of its node (R310, R353). -/
theorem sendCtrl_one (s : State) (p op id : Nat) (body : Bytes) : s.sendCtrl p op 0 (some id) body =
    s.setNode p { s.node p with tc0 := (s.node p).tc0 ++ [s.ctrlPacket p op id body] } := rfl

/-- Control packets for several modules wait behind the TC0 messages of their node in the order in which they are sent (R310,
R353). -/
theorem sendCtrls_spec (p op : Nat) (body : Bytes) (id : Nat → Nat) (rs : List Nat) (s : State) :
    let v := rs.foldl (fun acc r => acc.sendCtrl p op 0 (some (id r)) body) s
    v = { s with nodes := v.nodes } ∧ (v.node p).tc0 = (s.node p).tc0 ++ rs.map fun r => s.ctrlPacket p op (id r) body := by
  induction rs generalizing s with
  | nil => simp
  | cons r rs ih =>
    obtain ⟨hnodes, htc0⟩ := ih (s.sendCtrl p op 0 (some (id r)) body)
    refine ⟨hnodes, htc0.trans ?_⟩
    rw [sendCtrl_one, State.node_setNode, List.append_assoc]
    rfl

theorem doCommitQuery_answers {c : Nat × Nat × Nat} (h : s.takeCtrl p 3 = some (u, k)) (ht : (s.exch p).tbl.isSome = true)
    (hsent : (s.exch p).commitSent = some c) (he : c.1 = u32 k.data 0) :
    s.doCommitQuery p = u.sendCtrl p 2 0 (some k.src) (ctrlBytes c.1 0 0 0 c.2.1 c.2.2) := by
  obtain ⟨t, ht⟩ := Option.isSome_iff_exists.mp ht
  simp only [State.doCommitQuery, h, State.withTable, takeCtrl_exch h, ht, hsent, if_pos he]

/-- A query for an epoch that was not committed is taken and not answered (R354). -/
theorem doCommitQuery_silent {c : Nat × Nat × Nat} (h : s.takeCtrl p 3 = some (u, k)) (hsent : (s.exch p).commitSent = some c)
    (he : c.1 ≠ u32 k.data 0) : s.doCommitQuery p = u := by
  simp only [State.doCommitQuery, h, State.withTable, takeCtrl_exch h, hsent, if_neg he]
  split <;> rfl

section
variable {t : ExTable}

theorem doCommitQuerySend_not (ht : (s.exch p).tbl = some t)
    (h : (s.exch p).allPublished t = false ∨ (s.exch p).commitSeen.isSome = true ∨ (s.exch p).state = 0 ∨ (s.exch p).state = 6) :
    s.doCommitQuerySend p = s := by
  simp only [State.doCommitQuerySend, State.withTable, ht]
  rw [if_neg]
  rintro ⟨hall, hseen, hidle, hleft⟩
  rcases h with h | h | h | h
  · simp [h] at hall
  · simp [Option.isNone_iff_eq_none.mp hseen] at h
  · exact hidle h
  · exact hleft h

theorem doCommitQuerySend_asks (ht : (s.exch p).tbl = some t) (hall : (s.exch p).allPublished t = true)
    (hseen : (s.exch p).commitSeen = none) (hidle : (s.exch p).state ≠ 0) (hleft : (s.exch p).state ≠ 6) :
    s.doCommitQuerySend p = ((((s.exch p).leader t).toList ++ (s.exch p).backups t).filter (· != t.rank)).foldl
      (fun acc r => acc.sendCtrl p 3 0 (some (t.idOf r)) (ctrlBytes ((s.exch p).epoch + 1) 0 0 0 0 (s.exch p).gen)) s := by
  simp only [State.doCommitQuerySend, State.withTable, ht]
  rw [if_pos ⟨hall, by simp [hseen], hidle, hleft⟩]

end

end

/-- Settles O37: a message by what it marks once it has been taken, a query and its answer by the packets that they queue. -/
theorem exchangeMessages : Obligations.ExchangeMessages := by
  intro s p hheld exchIs noted
  refine ⟨fun h => ?_, fun h => ?_, fun h => ?_, fun h => ?_, fun h => ?_, fun u k h => ?_, fun u k h => ?_, fun u k h => ?_,
    fun u k h => ?_, fun u k op h => takeCtrl_spec h, fun u k c h ht hsent he => ?_, fun u k c h hsent he => ?_,
    fun t ht => ⟨fun h => ?_, fun hall hseen hidle hleft => ?_⟩⟩
  · exact (engine_next hheld).trans (by simp only [State.doCommitQuery, h])
  · exact (engine_next hheld).trans (by simp only [State.doSuspect, h])
  · exact (engine_next hheld).trans (by simp only [State.doLeave, h])
  · exact (engine_next hheld).trans (by simp only [State.doJoin, h])
  · exact (engine_next hheld).trans (by simp only [State.doJoinReady, h])
  · exact ⟨_, (engine_next hheld).trans (congrArg _ (doSuspect_taken h)), taken_modExch _ h⟩
  · exact ⟨_, (engine_next hheld).trans (congrArg _ (doLeave_taken h)), taken_modExch _ h⟩
  · exact ⟨_, (engine_next hheld).trans (congrArg _ (doJoin_taken h)), taken_modExch _ h⟩
  · exact ⟨_, (engine_next hheld).trans (congrArg _ (doJoinReady_taken h)), taken_modExch _ h⟩
  · obtain ⟨d, hu⟩ := State.takeCtrl_state h
    refine ⟨_, _, (engine_next hheld).trans (congrArg _ (doCommitQuery_answers h ht hsent he)), ?_, State.queueTc0_tc0 .., rfl, rfl, rfl,
      rfl, rfl⟩
    rw [hu]
    rfl
  · exact (engine_next hheld).trans (congrArg _ (doCommitQuery_silent h hsent he))
  · exact (engine_next hheld).trans (congrArg _ (doCommitQuerySend_not ht h))
  · obtain ⟨hnodes, htc0⟩ := sendCtrls_spec p 3 (ctrlBytes ((s.exch p).epoch + 1) 0 0 0 0 (s.exch p).gen) t.idOf
      ((((s.exch p).leader t).toList ++ (s.exch p).backups t).filter (· != t.rank)) s
    refine ⟨_, _, (engine_next hheld).trans (congrArg _ (doCommitQuerySend_asks ht hall hseen hidle hleft)), hnodes, htc0, ?_, ?_⟩
    · rw [List.map_map]
      rfl
    · intro k hk
      obtain ⟨r, -, rfl⟩ := List.mem_map.mp hk
      exact ⟨rfl, rfl, rfl, rfl⟩

end Sys2Proof.Machine
end

