-- ==== Sys2Proof/Proofs/PortStates.lean ====
section
/-! SUPPORT. How ports go down, train, retrain and come up, and what that leaves as it is (R300, R313, R315, R320, R328, R402, R485). -/

namespace Sys2Proof.Machine

open Sys2Proof.Safety

/-! ## The module beyond the fabric -/

/-- The module without what the fabric's operations may change: the free counter, ports, nodes, fabric time, what was sent, the
global counters and the event rings. -/
def State.beyondFabric (s : State) : State :=
  { s with freeCtr := 0, ports := [], nodes := [], time := .reset, out := [], gdbg := .reset, hif := s.hif.quiet }

/-- States that agree beyond the fabric differ in the fabric alone. -/
theorem fabricOnly_of_beyond {s t : State} (h : t.beyondFabric = s.beyondFabric) : fabricOnly s t :=
  State.same (congrArg State.pending h :) rfl (congrArg State.gradeS h :) (congrArg State.ft h :) (congrArg State.cls h :)
    (congrArg State.layout h :) (congrArg State.setup h :) (congrArg State.serial h :) (congrArg State.bringing h :)
    (congrArg State.lmap h :) (congrArg State.parts h :) (congrArg State.cores h :) (congrArg State.slices h :)
    (congrArg State.hbmcs h :) (congrArg State.bdies h :) rfl rfl rfl rfl (Hif.of_quiet (congrArg State.hif h :))
    (congrArg State.chip h :) (congrArg State.gov h :) (congrArg State.mmc h :) rfl

section
variable (s : State) (n : Nat)

theorem State.setPort_beyond (q : Port) : (s.setPort n q).beyondFabric = s.beyondFabric := rfl

theorem State.emit_beyond (m : OutMsg) : (s.emit m).beyondFabric = s.beyondFabric := rfl

theorem State.postEvent_beyond (fn : Fn) (code : Nat) (detail : Bytes) :
    (s.postEvent fn code detail).beyondFabric = s.beyondFabric := by
  simp [State.beyondFabric]

theorem State.pump_beyond : (s.pump n).beyondFabric = s.beyondFabric := by simp [State.beyondFabric]

theorem State.raisePort_beyond : (s.raisePort n).beyondFabric = s.beyondFabric := by simp [State.beyondFabric]

theorem State.chooseParent_beyond : s.chooseParent.beyondFabric = s.beyondFabric := by simp [State.beyondFabric]

theorem State.portDown_beyond (event : Bool) : (s.portDown n event).beyondFabric = s.beyondFabric := by
  simp [State.beyondFabric, State.portDown_quiet]

theorem State.laneEvents_beyond (old : Nat) : (s.laneEvents n old).beyondFabric = s.beyondFabric := by
  simp [State.beyondFabric, State.laneEvents_quiet]

theorem State.endRetrain_beyond : (s.endRetrain n).beyondFabric = s.beyondFabric := by simp [State.beyondFabric]

end

/-- The state that a node shows is no part of the fabric's (R313). -/
theorem nodeState_of_beyond {s t : State} (h : t.beyondFabric = s.beyondFabric) (p : Nat) : t.nodeState p = s.nodeState p := by
  have hbringing : t.bringing = s.bringing := (congrArg State.bringing h :)
  have hsetup : t.setup = s.setup := (congrArg State.setup h :)
  have hpart : t.part p = s.part p := State.part_of_parts (congrArg State.parts h :) p
  simp only [State.nodeState, hbringing, hsetup, hpart]

theorem nodeOf_of_beyond {s t : State} (h : t.beyondFabric = s.beyondFabric) (n : Nat) : t.nodeOf n = s.nodeOf n := by
  have hlayout : t.layout = s.layout := (congrArg State.layout h :)
  simp only [State.nodeOf, State.partOfDie, hlayout]

theorem forwards_iff (s : State) (p : Nat) : s.forwards p = true ↔ s.nodeState p = 2 ∨ s.nodeState p = 3 ∨ s.nodeState p = 5 := by
  simp [State.forwards, or_assoc]

/-! ## Ports and their links -/

theorem State.port_of_ports {s t : State} (h : t.ports = s.ports) (m : Nat) : t.port m = s.port m := by
  rw [State.port, State.port, h]

theorem State.postEvent_port (s : State) (fn : Fn) (code : Nat) (detail : Bytes) (m : Nat) :
    (s.postEvent fn code detail).port m = s.port m := State.port_of_ports (by simp) m

theorem State.port_setPort_if (s : State) (n m : Nat) (q : Port) : (s.setPort n q).port m = if m = n then q else s.port m :=
  SMap.get_set _ _ _ _ _

/-- What a link shows of its port. -/
theorem Port.fields_of_link {x y : Port} (h : x.link = y.link) :
    x.st = y.st ∧ x.disabled = y.disabled ∧ x.cable = y.cable ∧ x.lanes = y.lanes ∧ x.retired = y.retired ∧
      x.nbValid = y.nbValid ∧ x.nb = y.nb :=
  ⟨(congrArg Port.st h :), (congrArg Port.disabled h :), (congrArg Port.cable h :), (congrArg Port.lanes h :),
    (congrArg Port.retired h :), (congrArg Port.nbValid h :), (congrArg Port.nb h :)⟩

section
variable {s t u : State} {n : Nat}

/-- The links of all ports but one are as before. -/
def State.otherLinks (s t : State) (n : Nat) : Prop := ∀ m, m ≠ n → (t.port m).link = (s.port m).link

theorem State.otherLinks.trans (h : s.otherLinks t n) (k : t.otherLinks u n) : s.otherLinks u n :=
  fun m hm => (k m hm).trans (h m hm)

theorem State.links.others (h : s.links t) (n : Nat) : s.otherLinks t n := fun m _ => h m

theorem State.setPort_otherLinks (s : State) (n : Nat) (q : Port) : s.otherLinks (s.setPort n q) n :=
  fun m hm => by rw [State.port_setPort_ne _ _ hm]

end

section
variable (s : State) (n : Nat)

/-! ## Down and retraining -/

/-- A port that goes down, or was down, keeps what `DISABLE` and its lanes have made of it, and no other link changes (R315,
R320). -/
theorem State.portDown_spec (event : Bool) :
    ((s.portDown n event).port n).st = 0 ∧ ((s.portDown n event).port n).disabled = (s.port n).disabled ∧
      ((s.portDown n event).port n).retired = (s.port n).retired ∧ s.otherLinks (s.portDown n event) n := by
  by_cases hst : (s.port n).st = 0
  · have hsame : s.portDown n event = s := if_pos hst
    rw [hsame]
    exact ⟨hst, rfl, rfl, fun m _ => rfl⟩
  · obtain ⟨hself, hothers⟩ := State.portDown_links s n event hst
    obtain ⟨hdown, hdisabled, -, -, hretired, -⟩ := Port.fields_of_link hself
    exact ⟨hdown, hdisabled, hretired, hothers⟩

theorem startRetrain_up {s : State} {n : Nat} (h : (s.port n).st = 2 ∨ (s.port n).st = 3) :
    s.startRetrain n = s.setPort n { s.port n with st := 4 } := if_pos h.symm

theorem startRetrain_not {s : State} {n : Nat} (h2 : (s.port n).st ≠ 2) (h3 : (s.port n).st ≠ 3) : s.startRetrain n = s :=
  if_neg (not_or.mpr ⟨h3, h2⟩)

theorem doDisable_spec : (s.doDisable n).beyondFabric = s.beyondFabric ∧ ((s.doDisable n).port n).st = 0 ∧
    ((s.doDisable n).port n).disabled = true ∧ s.otherLinks (s.doDisable n) n := by
  obtain ⟨hdown, hdisabled, -, hothers⟩ := (s.setPort n { s.port n with disabled := true }).portDown_spec n true
  have hport : ∀ m, (s.doDisable n).port m = ((s.setPort n { s.port n with disabled := true }).portDown n true).port m :=
    State.port_of_ports (by simp [State.doDisable])
  refine ⟨by rw [State.doDisable, State.chooseParent_beyond, State.portDown_beyond, State.setPort_beyond], by rw [hport, hdown],
    by rw [hport, hdisabled, State.port_setPort], fun m hm => ?_⟩
  rw [hport, hothers m hm, State.port_setPort_ne _ _ hm]

theorem doHelloTimeout_down {s : State} {n : Nat} (h : 2 ≤ (s.port n).st) :
    s.doHelloTimeout n = (s.portDown n true).chooseParent := if_neg (Nat.not_lt.mpr h)

theorem doHelloTimeout_spec {s : State} {n : Nat} (h : 2 ≤ (s.port n).st) :
    (s.doHelloTimeout n).beyondFabric = s.beyondFabric ∧ ((s.doHelloTimeout n).port n).st = 0 ∧
      s.otherLinks (s.doHelloTimeout n) n := by
  obtain ⟨hdown, -, -, hothers⟩ := s.portDown_spec n true
  have hport : ∀ m, (s.doHelloTimeout n).port m = (s.portDown n true).port m :=
    State.port_of_ports (by simp [doHelloTimeout_down h])
  refine ⟨by rw [doHelloTimeout_down h, State.chooseParent_beyond, State.portDown_beyond], by rw [hport, hdown], fun m hm => ?_⟩
  rw [hport, hothers m hm]

/-- A lost signal takes the port down, if it is not, and shows that it has no cable (R320, R485). -/
theorem doLossOfSignal_spec : (s.doLossOfSignal n).beyondFabric = s.beyondFabric ∧ ((s.doLossOfSignal n).port n).st = 0 ∧
    ((s.doLossOfSignal n).port n).cable = false ∧ s.otherLinks (s.doLossOfSignal n) n := by
  unfold State.doLossOfSignal
  split
  next hst => exact ⟨rfl, by rw [State.port_setPort, hst], by rw [State.port_setPort], s.setPort_otherLinks n _⟩
  next =>
    obtain ⟨hdown, -, -, hothers⟩ := s.portDown_spec n true
    have hport (q : Port) (m : Nat) :
        (((s.portDown n true).setPort n q).chooseParent).port m = if m = n then q else (s.portDown n true).port m :=
      (State.port_of_ports (by simp) m).trans (State.port_setPort_if ..)
    refine ⟨by rw [State.chooseParent_beyond, State.setPort_beyond, State.portDown_beyond], ?_, ?_, fun m hm => ?_⟩
    · rw [hport, if_pos rfl]
      exact hdown
    · rw [hport, if_pos rfl]
    · rw [hport, if_neg hm]
      exact hothers m hm

/-! ## Hellos -/

/-- The type of a flit is the lowest field of its header (R296). -/
theorem flitHeader_type {ftype : Nat} (h : ftype < 16) (tc vl : Nat) (first last : Bool) (seq ack plen crIdx crCount : Nat) :
    bits (flitHeader ftype tc vl first last seq ack plen crIdx crCount) 0 4 = ftype := by
  simp only [bits, flitHeader, Nat.shiftRight_zero]
  omega

/-- A flit that is sent leaves the module last (R296). -/
theorem State.sendFlit_out (ftype tc vl : Nat) (first last : Bool) (seq : Nat) (payload : Bytes) :
    (s.sendFlit n ftype tc vl first last seq payload).1.out =
      s.out ++ [.flit n (s.sendFlit n ftype tc vl first last seq payload).2] := by
  unfold State.sendFlit
  dsimp only
  split <;> simp [State.emit]

theorem State.sendFlit_beyond (ftype tc vl : Nat) (first last : Bool) (seq : Nat) (payload : Bytes) :
    (s.sendFlit n ftype tc vl first last seq payload).1.beyondFabric = s.beyondFabric := by
  simp [State.beyondFabric]

theorem doHelloSend_sends {s : State} {n : Nat} (h : 2 ≤ (s.port n).st) :
    s.doHelloSend n = (s.sendFlit n 2 0 0 false false 0 (padTo 244 (s.helloBytes n))).1 := if_neg (Nat.not_lt.mpr h)

/-- The neighbour's latest hello shows that its node forwards (R314, R315). -/
def Port.nbForwards (q : Port) : Bool :=
  match q.nb with
  | some nb => nb.state == 2 || nb.state == 3 || nb.state == 5
  | none => false

theorem Port.nbForwards_iff {q : Port} {nb : Neighbour} (h : q.nb = some nb) :
    q.nbForwards = true ↔ nb.state = 2 ∨ nb.state = 3 ∨ nb.state = 5 := by
  simp [Port.nbForwards, h, or_assoc]

theorem State.raisePort_eq : s.raisePort n =
    if (s.port n).st = 2 ∧ s.forwards (s.nodeOf n) = true ∧ (s.port n).nbForwards = true then
      (s.setPort n { s.port n with st := 3 }).pump n else s := rfl

/-- A port comes up when its node and its neighbour forward, and shows the same neighbour as before (R315). -/
theorem State.raisePort_spec :
    ((s.raisePort n).port n).st =
        (if (s.port n).st = 2 ∧ s.forwards (s.nodeOf n) = true ∧ (s.port n).nbForwards = true then 3 else (s.port n).st) ∧
      ((s.raisePort n).port n).nbValid = (s.port n).nbValid ∧ ((s.raisePort n).port n).nb = (s.port n).nb ∧
      s.otherLinks (s.raisePort n) n := by
  rw [State.raisePort_eq]
  split
  next =>
    have hpump := State.pump_links (s.setPort n { s.port n with st := 3 }) n
    have hlink := hpump n
    rw [State.port_setPort] at hlink
    obtain ⟨hst, -, -, -, -, hvalid, hnb⟩ := Port.fields_of_link hlink
    exact ⟨hst, hvalid, hnb, (s.setPort_otherLinks n _).trans (hpump.others n)⟩
  next => exact ⟨rfl, rfl, rfl, fun m _ => rfl⟩

/-- The port that a hello has reached (R298, R313). -/
def Port.greeted (q : Port) (raw : Bytes) : Port :=
  { q.takeHeader (u64 raw 0) with nbValid := true, nb := some (readHello (raw.drop 8)) }

/-- The events that a hello of another or of a conflicting neighbour raises (R302, R314). -/
def State.helloEvents (s : State) (n : Nat) (old : Option Neighbour) (nb : Neighbour) : State :=
  let p := s.nodeOf n
  let s2 := match old with
    | some x => if x.serial ≠ nb.serial then s.postEvent (.vf p) Code.nbChange (toLe 1 n) else s
    | none => s
  if nb.id = s.moduleId p ∧ nb.id ≠ 0 then s2.postEvent (.vf p) Code.nbConflict (toLe 1 n) else s2

theorem State.helloEvents_keeps (old : Option Neighbour) (nb : Neighbour) :
    (s.helloEvents n old nb).beyondFabric = s.beyondFabric ∧ (s.helloEvents n old nb).ports = s.ports := by
  unfold State.helloEvents
  dsimp only
  (repeat' split) <;> simp [State.postEvent_beyond]

/-- What the port and the time tree have become before a hello may bring the port up (R313, R322). -/
def State.heard (s : State) (n : Nat) (raw : Bytes) : State :=
  ((s.setPort n ((s.port n).greeted raw)).helloEvents n (s.port n).nb (readHello (raw.drop 8))).chooseParent

theorem State.heard_beyond (raw : Bytes) : (s.heard n raw).beyondFabric = s.beyondFabric := by
  rw [State.heard, State.chooseParent_beyond, (State.helloEvents_keeps ..).1, State.setPort_beyond]

theorem State.heard_port (raw : Bytes) (m : Nat) :
    (s.heard n raw).port m = if m = n then (s.port n).greeted raw else s.port m := by
  have hports : (s.heard n raw).ports = (s.setPort n ((s.port n).greeted raw)).ports := by
    simp [State.heard, State.helloEvents_keeps]
  rw [State.port_of_ports hports, State.port_setPort_if]

theorem doHello_ignored {s : State} {n : Nat} {raw : Bytes} (h : (s.port n).st < 2 ∨ flitIs 2 raw = false) : s.doHello n raw = s :=
  if_pos (h.imp_right (by simp))

theorem doHello_heard {s : State} {n : Nat} {raw : Bytes} (hst : 2 ≤ (s.port n).st) (hraw : flitIs 2 raw = true) :
    s.doHello n raw = ((s.heard n raw).raisePort n).pump n := if_neg (by simp [hraw]; omega)

/-- A valid hello shows the neighbour and brings a port up between two nodes that forward (R313, R315). -/
theorem doHello_spec {s : State} {n : Nat} {raw : Bytes} (hst : 2 ≤ (s.port n).st) (hraw : flitIs 2 raw = true) :
    (s.doHello n raw).beyondFabric = s.beyondFabric ∧ s.otherLinks (s.doHello n raw) n ∧
      ((s.doHello n raw).port n).nbValid = true ∧ ((s.doHello n raw).port n).nb = some (readHello (raw.drop 8)) ∧
      ((s.doHello n raw).port n).st = if (s.port n).st = 2 ∧ s.forwards (s.nodeOf n) = true ∧ ((s.port n).greeted raw).nbForwards = true
        then 3 else (s.port n).st := by
  obtain ⟨hup, hvalid, hnb, hothers⟩ := (s.heard n raw).raisePort_spec n
  have hpump := State.pump_links ((s.heard n raw).raisePort n) n
  obtain ⟨hst', -, -, -, -, hvalid', hnb'⟩ := Port.fields_of_link (hpump n)
  have hbeyond := s.heard_beyond n raw
  have hnode : (s.heard n raw).forwards ((s.heard n raw).nodeOf n) = s.forwards (s.nodeOf n) := by
    simp only [State.forwards, nodeOf_of_beyond hbeyond, nodeState_of_beyond hbeyond]
  have hport : (s.heard n raw).port n = (s.port n).greeted raw := by rw [State.heard_port, if_pos rfl]
  have hheard : s.otherLinks (s.heard n raw) n := fun m hm => by rw [State.heard_port, if_neg hm]
  rw [hport, hnode] at hup
  rw [hport] at hvalid hnb
  rw [doHello_heard hst hraw]
  exact ⟨by rw [State.pump_beyond, State.raisePort_beyond, hbeyond], (hheard.trans hothers).trans (hpump.others n),
    hvalid'.trans hvalid, hnb'.trans hnb, hst'.trans hup⟩

/-! ## Training -/

/-- The port that training leaves: a fresh link on the lanes that qualify (R402, R403, R485). -/
def Port.trained (q : Port) (errs : List (Nat × Nat)) : Port :=
  { q.freshLink.qualify errs with cable := true, st := if (q.freshLink.qualify errs).lanes = 0 ∨ q.disabled then 0 else 2 }

theorem State.trainPort_eq (errs : List (Nat × Nat)) :
    s.trainPort n errs true = (s.setPort n ((s.port n).trained errs)).laneEvents n 0 := rfl

theorem State.trainPort_beyond (errs : List (Nat × Nat)) : (s.trainPort n errs true).beyondFabric = s.beyondFabric := by
  rw [State.trainPort_eq, State.laneEvents_beyond, State.setPort_beyond]

theorem State.trainPort_port (errs : List (Nat × Nat)) (m : Nat) :
    (s.trainPort n errs true).port m = if m = n then (s.port n).trained errs else s.port m := by
  rw [State.trainPort_eq, State.port_of_ports (s := s.setPort n ((s.port n).trained errs)) (by simp), State.port_setPort_if]

theorem Port.trained_enabled {q : Port} (h : q.disabled = false) (errs : List (Nat × Nat)) : q.trained errs =
    { q.freshLink.qualify errs with cable := true, st := if (q.freshLink.qualify errs).lanes = 0 then 0 else 2 } := by
  simp [Port.trained, h]

section
variable {s : State} {n : Nat} (errs : List (Nat × Nat))

theorem doCableInsert_ignored (h : s.portCount ≤ n ∨ (s.port n).st ≠ 0 ∨ s.bringing = true) : s.doCableInsert n errs = s := if_pos h

theorem doCableInsert_disabled (hn : n < s.portCount) (hst : (s.port n).st = 0) (hb : s.bringing = false)
    (hd : (s.port n).disabled = true) : s.doCableInsert n errs = s.setPort n { s.port n with cable := true } := by
  rw [State.doCableInsert, if_neg (by simp [hst, hb]; omega), if_pos hd]

theorem doCableInsert_trains (hn : n < s.portCount) (hst : (s.port n).st = 0) (hb : s.bringing = false)
    (hd : (s.port n).disabled = false) : s.doCableInsert n errs = s.trainPort n errs true := by
  rw [State.doCableInsert, if_neg (by simp [hst, hb]; omega), if_neg (by simp [hd])]

theorem doPortTrainingDone_ignored (h1 : (s.port n).st ≠ 1) (h4 : (s.port n).st ≠ 4) : s.doPortTrainingDone n errs = s := by
  simp only [State.doPortTrainingDone, if_neg h4, if_neg h1]

theorem doPortTrainingDone_trains (h : (s.port n).st = 1) : s.doPortTrainingDone n errs = s.trainPort n errs true := by
  simp [State.doPortTrainingDone, h]

theorem doPortTrainingDone_retrained (h : (s.port n).st = 4) : s.doPortTrainingDone n [] = s.endRetrain n := by
  simp [State.doPortTrainingDone, h]

end

/-! ## The end of a retraining -/

/-- A port that sends only adds to what has left the module. -/
theorem State.sendNext_out (i : Nat) : s.out <+: (s.sendNext n i).out := by
  unfold State.sendNext
  dsimp only
  split
  next => exact List.prefix_rfl
  next =>
    have hsent (ftype tc vl : Nat) (first last : Bool) (seq : Nat) (payload : Bytes) :
        s.out <+: (s.sendFlit n ftype tc vl first last seq payload).1.out := by
      rw [State.sendFlit_out]
      exact List.prefix_append ..
    split <;> exact hsent ..

theorem State.pumpN_out (fuel : Nat) : s.out <+: (s.pumpN n fuel).out := by
  induction fuel generalizing s with
  | zero => exact List.prefix_rfl
  | succ k ih =>
    unfold State.pumpN
    dsimp only
    split
    next =>
      split
      next => exact (s.sendNext_out n _).trans (ih _)
      next => exact List.prefix_rfl
    next => exact List.prefix_rfl

/-- The flits of a replay buffer are sent again in their order (R300). -/
theorem State.resend_out (es : List (Nat × Bytes)) :
    (es.foldl (fun acc e => acc.emit (.flit n e.2)) s).out = s.out ++ es.map fun e => .flit n e.2 := by
  induction es generalizing s with
  | nil => simp
  | cons e es ih => rw [List.foldl_cons, ih, State.emit, List.append_assoc, List.map_cons, List.singleton_append]

/-- The port that a retraining returns (R300). -/
def Port.retrained (q : Port) : Port :=
  { q with lanes := widthFor ((List.range 4).countP fun i => !q.retired.testBit i), st := if q.nb.isSome then 3 else 2 }

theorem State.endRetrain_eq : s.endRetrain n = ((s.port n).replay.foldl (fun acc e => acc.emit (.flit n e.2))
    (s.setPort n (s.port n).retrained)).pump n := rfl

theorem State.endRetrain_links : (s.setPort n (s.port n).retrained).links (s.endRetrain n) := by
  rw [State.endRetrain_eq]
  exact State.links_trans (State.links_foldl _ (fun a e => a.emit_links _) _ _) (State.pump_links _ n)

/-- A retraining ends on the width of the lanes that are left, and what was not acknowledged is sent again first (R300). -/
theorem State.endRetrain_spec :
    ((s.endRetrain n).port n).lanes = widthFor ((List.range 4).countP fun i => !(s.port n).retired.testBit i) ∧
      ((s.endRetrain n).port n).st = (if (s.port n).nb.isSome then 3 else 2) ∧ s.otherLinks (s.endRetrain n) n ∧
      s.out ++ (s.port n).replay.map (fun e => .flit n e.2) <+: (s.endRetrain n).out := by
  have hlinks := s.endRetrain_links n
  have hlink := hlinks n
  rw [State.port_setPort] at hlink
  obtain ⟨hst, -, -, hlanes, -⟩ := Port.fields_of_link hlink
  refine ⟨hlanes, hst, (s.setPort_otherLinks n _).trans (hlinks.others n), ?_⟩
  rw [State.endRetrain_eq]
  have hresent := State.resend_out (s.setPort n (s.port n).retrained) n (s.port n).replay
  rw [State.setPort_out] at hresent
  rw [← hresent]
  exact State.pumpN_out ..

end

/-- Settles O31: each command by what it does to its port, and by the module beyond the fabric, which none of them changes. -/
theorem portStates : Obligations.PortStates := by
  intro s n hon q others w forwarding
  refine ⟨fun hperst => ⟨fun h => ?_, fun h2 h3 => ?_, ?_⟩, fun h => ⟨?_, ?_, fun raw => ?_⟩, fun h => ?_, ?_, fun h => ?_,
    fun raw h => ?_, fun raw hst hraw => ?_, fun errs h => ?_, fun errs hn hst hb hd => ?_, fun errs hn hst hb hd => ?_,
    fun errs h1 h4 => ?_, fun errs h => ?_, fun h => ?_⟩
  · exact ⟨_, (overLink_next _ hon hperst).trans (congrArg _ (startRetrain_up h)), rfl, fun m => State.port_setPort_if ..⟩
  · exact (overLink_next _ hon hperst).trans (congrArg _ (startRetrain_not h2 h3))
  · obtain ⟨hbeyond, hrest⟩ := doDisable_spec s n
    exact ⟨_, overLink_next _ hon hperst, fabricOnly_of_beyond hbeyond, hrest⟩
  · exact (whenOn_next _ hon).trans (congrArg _ (if_pos h))
  · exact (whenOn_next _ hon).trans (congrArg _ (if_pos h))
  · exact (whenOn_next _ hon).trans (congrArg _ (doHello_ignored (Or.inl h)))
  · obtain ⟨hbeyond, hrest⟩ := doHelloTimeout_spec h
    exact ⟨_, whenOn_next _ hon, fabricOnly_of_beyond hbeyond, hrest⟩
  · obtain ⟨hbeyond, hrest⟩ := doLossOfSignal_spec s n
    exact ⟨_, whenOn_next _ hon, fabricOnly_of_beyond hbeyond, hrest⟩
  · exact ⟨_, _, (whenOn_next _ hon).trans (congrArg _ (doHelloSend_sends h)), fabricOnly_of_beyond (State.sendFlit_beyond ..),
      flitHeader_type (by decide) .., State.sendFlit_out .., fun m => State.sendFlit_links ..⟩
  · exact (whenOn_next _ hon).trans (congrArg _ (doHello_ignored (Or.inr h)))
  · obtain ⟨hbeyond, hothers, hvalid, hnb, hup⟩ := doHello_spec hst hraw
    exact ⟨_, whenOn_next _ hon, fabricOnly_of_beyond hbeyond, hothers, hvalid, hnb,
      hup.trans (if_congr (and_congr_right' (and_congr (forwards_iff ..) (Port.nbForwards_iff rfl))) rfl rfl)⟩
  · exact (whenOn_next _ hon).trans (congrArg _ (doCableInsert_ignored errs h))
  · exact ⟨_, (whenOn_next _ hon).trans (congrArg _ (doCableInsert_disabled errs hn hst hb hd)), rfl,
      fun m => State.port_setPort_if ..⟩
  · refine ⟨_, (whenOn_next _ hon).trans (congrArg _ (doCableInsert_trains errs hn hst hb hd)),
      fabricOnly_of_beyond (State.trainPort_beyond ..), fun m => ?_⟩
    rw [State.trainPort_port, Port.trained_enabled hd]
  · exact (whenOn_next _ hon).trans (congrArg _ (doPortTrainingDone_ignored errs h1 h4))
  · refine ⟨_, (whenOn_next _ hon).trans (congrArg _ (doPortTrainingDone_trains errs h)),
      fabricOnly_of_beyond (State.trainPort_beyond ..), ?_, fun m hm => ?_⟩
    · rw [State.trainPort_port, if_pos rfl]
      rfl
    · rw [State.trainPort_port, if_neg hm]
  · obtain ⟨hlanes, hst, hothers, more, hout⟩ := s.endRetrain_spec n
    exact ⟨_, (whenOn_next _ hon).trans (congrArg _ (doPortTrainingDone_retrained h)),
      fabricOnly_of_beyond (State.endRetrain_beyond ..), hlanes, hst, hothers, more, hout.symm⟩

end Sys2Proof.Machine
end

