-- ==== Sys2Proof/Proofs/Repair.lean ====
section
/-! SUPPORT. Permanent faults of lanes, rows, channels, slabs and cores, and the substitution of failed cores by spares (R300, R397,
R398, R400, R406, R408 to R410, R414). -/

namespace Sys2Proof.Machine

open Sys2Proof.Safety

/-! ## Lanes -/

section
variable {s : State} {n l : Nat}

theorem retireLane_ignored (h : 4 ≤ l ∨ (s.port n).retired.testBit l = true) : s.retireLane n l = s := if_pos h.symm

/-- A retraining that begins leaves the lanes and every other port as they are (R300). -/
theorem State.startRetrain_spec (s : State) (n : Nat) : (s.startRetrain n).beyondFabric = s.beyondFabric ∧
    ((s.startRetrain n).port n).retired = (s.port n).retired ∧ s.otherLinks (s.startRetrain n) n := by
  unfold State.startRetrain
  dsimp only
  split
  next => exact ⟨rfl, by rw [State.port_setPort], s.setPort_otherLinks n _⟩
  next => exact ⟨rfl, rfl, fun m _ => rfl⟩

/-- A port without one of the lanes that it had (R300). -/
def State.laneRetired (s : State) (n l : Nat) : State := s.setPort n { s.port n with retired := (s.port n).retired + 2 ^ l }

theorem State.laneRetired_port (s : State) (n l m : Nat) : (s.laneRetired n l).port m =
    if m = n then { s.port n with retired := (s.port n).retired + 2 ^ l } else s.port m := State.port_setPort_if ..

/-- A port that goes down without lanes (R300). -/
def State.laneless (s : State) (n : Nat) : State := s.setPort n { s.port n with lanes := 0 }

theorem State.laneless_retired (s : State) (n : Nat) : ((s.laneless n).port n).retired = (s.port n).retired := by
  rw [State.laneless, State.port_setPort]

/-- A port without its last lane goes down, any other retrains on the lanes it has left (R300). -/
theorem retireLane_eq (hl : l < 4) (hlane : (s.port n).retired.testBit l = false) : s.retireLane n l =
    if (List.range 4).countP (fun i => !((s.port n).retired + 2 ^ l).testBit i) = 0 then
      ((s.laneRetired n l).laneless n).portDown n true
    else ((s.laneRetired n l).startRetrain n).postEvent (.vf ((s.laneRetired n l).nodeOf n)) Code.laneRetired
      (toLe 1 n ++ toLe 1 l) := if_neg (by simp [hlane]; omega)

/-- A lane is retired, and no other port's link changes (R300). -/
theorem retireLane_spec (hl : l < 4) (hlane : (s.port n).retired.testBit l = false) :
    (s.retireLane n l).beyondFabric = s.beyondFabric ∧ ((s.retireLane n l).port n).retired = (s.port n).retired + 2 ^ l ∧
      s.otherLinks (s.retireLane n l) n := by
  have hlanes : ((s.laneRetired n l).port n).retired = (s.port n).retired + 2 ^ l := by rw [State.laneRetired_port, if_pos rfl]
  have hset : s.otherLinks (s.laneRetired n l) n := s.setPort_otherLinks n _
  rw [retireLane_eq hl hlane]
  split
  next =>
    obtain ⟨-, -, hretired, hothers⟩ := ((s.laneRetired n l).laneless n).portDown_spec n true
    exact ⟨State.portDown_beyond .., hretired.trans ((State.laneless_retired ..).trans hlanes),
      (hset.trans ((s.laneRetired n l).setPort_otherLinks n _)).trans hothers⟩
  next =>
    obtain ⟨hbeyond, hretired, hothers⟩ := (s.laneRetired n l).startRetrain_spec n
    refine ⟨(State.postEvent_beyond ..).trans hbeyond, by rw [State.postEvent_port, hretired, hlanes], fun m hm => ?_⟩
    rw [State.postEvent_port]
    exact hset.trans hothers m hm

end

/-! ## Rows, channels and slabs -/

section
variable {s : State} {k c : Nat}

theorem markRow_marked {r : RowId} (h : (s.hbmc k).pendRows.contains r = true) : s.markRow k r = s := if_pos h

/-- A row waits for its repair behind those of its stack (R276). -/
def State.rowMarked (s : State) (k : Nat) (r : RowId) : State :=
  s.setHbmc k { s.hbmc k with pendRows := (s.hbmc k).pendRows ++ [r] }

theorem markRow_marks {r : RowId} (h : (s.hbmc k).pendRows.contains r = false) :
    s.markRow k r = (s.rowMarked k r).rowEvent k Code.rowRepairPending r := if_neg (Bool.not_eq_true _ ▸ h)

/-- A row that is marked waits behind the rows of its stack, and an event says so (R276, R406). -/
theorem markRow_spec {r : RowId} (h : (s.hbmc k).pendRows.contains r = false) :
    s.markRow k r = { s with
      hbmcs := (s.markRow k r).hbmcs, out := (s.markRow k r).out, hif := { s.hif with evts := (s.markRow k r).hif.evts } } ∧
    ∀ x, (s.markRow k r).hbmc x = if x = k then { s.hbmc k with pendRows := (s.hbmc k).pendRows ++ [r] } else s.hbmc x := by
  refine ⟨?_, fun x => ?_⟩
  · apply State.same
    case h19 => exact Hif.of_quiet (State.markRow_quiet s k r)
    all_goals simp
  · rw [markRow_marks h, State.hbmc_of (s := s.rowMarked k r) (by simp [State.rowEvent])]
    exact State.hbmc_setHbmc_if ..

theorem degradeChannel_retired {forced : Bool} (h : s.pcRetired ⟨k, c, 0⟩ = true) : s.degradeChannel k c forced = s :=
  if_pos (by simp [h])

/-- A partition that evacuates one channel, with reserve to spare (R278). -/
def State.evacuating (s : State) (p k c : Nat) : State := s.setPart p { s.part p with evac := [(k, c, false)] }

/-- A channel that degrades while no other is evacuated is evacuated at once if the reserve allows it (R278). -/
theorem degradeChannel_begins (h : s.pcRetired ⟨k, c, 0⟩ = false) (hevac : (s.part (s.partOfStack k)).evac = [])
    (hreserve : (s.part (s.partOfStack k)).reserve ≠ 0) : s.degradeChannel k c false =
      ((s.evacuating (s.partOfStack k) k c).markMigrating (s.partOfStack k) true).chanEvent (s.partOfStack k) Code.chEvacuating k c := by
  simp [State.degradeChannel, h, hevac, State.beginMigration, hreserve, State.evacuating]

theorem degradeChannel_evac (h : s.pcRetired ⟨k, c, 0⟩ = false) (hevac : (s.part (s.partOfStack k)).evac = [])
    (hreserve : (s.part (s.partOfStack k)).reserve ≠ 0) :
    ((s.degradeChannel k c false).part (s.partOfStack k)).evac = [(k, c, false)] := by
  rw [degradeChannel_begins h hevac hreserve, State.part_of_parts (s := s.evacuating (s.partOfStack k) k c) (by simp),
    State.evacuating, State.part_setPart]

end

/-! ## Failed cores -/

section
variable (s : State) (c : Nat)

theorem Chip.spares_of_unfused {x y : Chip} (h : x.unfused = y.unfused) : x.spares = y.spares := (congrArg Chip.spares h :)

theorem State.dropCore_chip : (s.dropCore c).chip =
    { s.chip with good := s.chip.good.filter (· != c), spares := s.chip.spares.filter (· != c) } := by
  simp [State.dropCore, State.modChip]

/-- The entry of a retirement stands last in the bank while it has room (R397, R398). -/
theorem State.fuseEntry_bank_eq (p kind place cause : Nat) : (s.fuseEntry p kind place cause).chip.bank =
    if s.chip.bank.length < 256 then s.chip.bank ++ [kind + 16 * place + 2 ^ 20 * cause] else s.chip.bank := by
  unfold State.fuseEntry State.bankFull
  by_cases h : s.chip.bank.length < 256
  · rw [if_neg (by simp; omega), if_pos h]
  · rw [if_pos (by simp; omega), if_neg h]
    simp

/-- A failed core with a logical number waits for its spare (R408). -/
def State.coreFailing (l cause : Nat) : State := (s.dropCore c).modChip fun h => { h with failing := h.failing ++ [⟨l, c, cause⟩] }

theorem State.coreFailing_chip (l cause : Nat) : (s.coreFailing c l cause).chip =
    { s.chip with
      good := s.chip.good.filter (· != c), spares := s.chip.spares.filter (· != c)
      failing := s.chip.failing ++ [⟨l, c, cause⟩] } := by
  rw [State.coreFailing, State.modChip, State.dropCore_chip]

theorem State.coreFailing_frame (l cause : Nat) : (s.coreFailing c l cause).parts = s.parts ∧
    (s.coreFailing c l cause).mmc = s.mmc ∧ (s.coreFailing c l cause).layout = s.layout := by
  simp [State.coreFailing, State.modChip]

variable {s c}

theorem retireCore_retired {cause : Nat} (h : s.chip.good.contains c = false) : s.retireCore c cause = s :=
  if_pos (by simp only [h, Bool.not_false])

theorem retireCore_numbered {l cause : Nat} (h : s.chip.good.contains c = true) (hl : s.logicalOf c = some l) :
    s.retireCore c cause = (s.coreFailing c l cause).holdIfDue (s.partOfPhys c) := by
  simp only [State.retireCore, h, hl, Bool.not_true, Bool.false_eq_true, if_false, State.coreFailing]

theorem retireCore_spare {cause : Nat} (h : s.chip.good.contains c = true) (hl : s.logicalOf c = none) :
    s.retireCore c cause = s.failCore c cause := by
  simp only [State.retireCore, h, hl, Bool.not_true, Bool.false_eq_true, if_false]

theorem failCore_eq {cause : Nat} (h : s.chip.good.contains c = true) :
    s.failCore c cause = (s.dropCore c).fuseEntry (s.partOfPhys c) 1 (corePlace c) cause := if_pos h

/-- A core with a logical number fails: it is no longer good, and its partition holds for its repair unless a reset or a restart
forbids it (R406, R408, R448). -/
theorem retireCore_numbered_spec {l cause : Nat} (h : s.chip.good.contains c = true) (hl : s.logicalOf c = some l) :
    (s.retireCore c cause).chip.good = s.chip.good.filter (· != c) ∧
      (s.retireCore c cause).chip.failing = s.chip.failing ++ [⟨l, c, cause⟩] ∧
      ((s.part (s.partOfPhys c)).resetting = 0 → s.mmc.restarting = false →
        ((s.retireCore c cause).part (s.partOfPhys c)).hold = true) := by
  obtain ⟨hparts, hmmc, hlayout⟩ := s.coreFailing_frame c l cause
  rw [retireCore_numbered h hl]
  refine ⟨by simp [State.coreFailing_chip], by simp [State.coreFailing_chip], fun hreset hrestart => ?_⟩
  refine State.holdIfDue_hold _ _ ?_ (by rw [State.part_of_parts hparts, hreset]) (by rw [hmmc, hrestart])
  simp [State.coreFailing_chip, partOfPhys_of hlayout]

/-- A spare that fails is retired with its entry at once (R397, R406). -/
theorem failCore_spec {cause : Nat} (h : s.chip.good.contains c = true) :
    s.failCore c cause = { s with
      chip := (s.failCore c cause).chip, out := (s.failCore c cause).out
      hif := { s.hif with evts := (s.failCore c cause).hif.evts } } ∧
    (s.failCore c cause).chip.spares = s.chip.spares.filter (· != c) ∧ (s.failCore c cause).chip.failing = s.chip.failing ∧
    (s.failCore c cause).chip.bank =
      if s.chip.bank.length < 256 then s.chip.bank ++ [1 + 16 * corePlace c + 2 ^ 20 * cause] else s.chip.bank := by
  refine ⟨?_, ?_, ?_, ?_⟩
  · apply State.same
    case h19 => exact Hif.of_quiet (State.failCore_quiet s c cause)
    all_goals simp
  · rw [failCore_eq h, Chip.spares_of_unfused (State.fuseEntry_unfused ..), State.dropCore_chip]
  · rw [failCore_eq h, Chip.failing_of_unfused (State.fuseEntry_unfused ..), State.dropCore_chip]
  · rw [failCore_eq h, State.fuseEntry_bank_eq, State.dropCore_chip]

end

/-! ## The nearest spare -/

/-- A core lies at most as far from core `c` as another one, and of equals is not the higher (R409). -/
def noFarther (c x y : Nat) : Prop := meshHops x c < meshHops y c ∨ (meshHops x c = meshHops y c ∧ x ≤ y)

theorem noFarther.trans {c x y z : Nat} (h : noFarther c x y) (k : noFarther c y z) : noFarther c x z := by
  unfold noFarther at *
  omega

/-- The nearer of the spare found so far and another one (R409). -/
def nearerSpare (c : Nat) (acc : Option Nat) (x : Nat) : Option Nat :=
  match acc with
  | none => some x
  | some y => if meshHops x c < meshHops y c ∨ (meshHops x c = meshHops y c ∧ x < y) then some x else some y

theorem spareFor_eq (s : State) (c : Nat) :
    s.spareFor c = (s.chip.spares.filter fun x => x / 144 == c / 144).foldl (nearerSpare c) none := rfl

/-- The nearer of two is one of them and lies no farther than either. -/
theorem nearerSpare_spec (c x : Nat) (acc : Option Nat) : ∃ y, nearerSpare c acc x = some y ∧ (y = x ∨ acc = some y) ∧
    noFarther c y x ∧ ∀ z, acc = some z → noFarther c y z := by
  cases acc with
  | none => exact ⟨x, rfl, Or.inl rfl, Or.inr ⟨rfl, le_rfl⟩, fun z hz => by cases hz⟩
  | some y =>
    by_cases hnear : meshHops x c < meshHops y c ∨ (meshHops x c = meshHops y c ∧ x < y)
    · refine ⟨x, if_pos hnear, Or.inl rfl, Or.inr ⟨rfl, le_rfl⟩, fun z hz => ?_⟩
      cases hz
      exact hnear.imp_right (And.imp_right le_of_lt)
    · refine ⟨y, if_neg hnear, Or.inr rfl, ?_, fun z hz => ?_⟩
      · unfold noFarther
        omega
      · cases hz
        exact Or.inr ⟨rfl, le_rfl⟩

/-- The nearest of several spares is one of them and lies no farther than any. -/
theorem nearestSpare_spec (c : Nat) (xs : List Nat) (acc : Option Nat) {x : Nat} (h : xs.foldl (nearerSpare c) acc = some x) :
    (x ∈ xs ∨ acc = some x) ∧ (∀ y ∈ xs, noFarther c x y) ∧ ∀ y, acc = some y → noFarther c x y := by
  induction xs generalizing acc with
  | nil => exact ⟨Or.inr h, by simp, fun y hy => Or.inr (by cases h.symm.trans hy; exact ⟨rfl, le_rfl⟩)⟩
  | cons a xs ih =>
    obtain ⟨y, hy, hfrom, hnear, hold⟩ := nearerSpare_spec c a acc
    obtain ⟨hmem, hall, hacc⟩ := ih _ h
    have hxy := hacc y hy
    refine ⟨?_, fun z hz => ?_, fun z hz => hxy.trans (hold z hz)⟩
    · rcases hmem with hmem | hmem
      · exact Or.inl (List.mem_cons_of_mem _ hmem)
      · obtain rfl : y = x := Option.some.inj (hy.symm.trans hmem)
        exact hfrom.imp_left fun hya => List.mem_cons.mpr (Or.inl hya)
    · rcases List.mem_cons.mp hz with rfl | hz
      · exact hxy.trans hnear
      · exact hall z hz

/-- The spare of a failed core is the nearest of its die, and of equals the lowest (R409). -/
theorem spareFor_spec {s : State} {c x : Nat} (h : s.spareFor c = some x) :
    x ∈ s.chip.spares ∧ x / 144 = c / 144 ∧ ∀ y ∈ s.chip.spares, y / 144 = c / 144 → noFarther c x y := by
  obtain ⟨hmem, hall, -⟩ := nearestSpare_spec c _ none (spareFor_eq s c ▸ h)
  obtain ⟨hspare, hdie⟩ := List.mem_filter.mp (hmem.resolve_right (by simp))
  exact ⟨hspare, beq_iff_eq.mp hdie, fun y hy hd => hall y (List.mem_filter.mpr ⟨hy, beq_iff_eq.mpr hd⟩)⟩

/-! ## The end of a repair hold -/

section
variable (s : State) (p : Nat)

/-- A partition whose last failed core has been dealt with: its cores are as after a reset, and its hold is over (R408, R410). -/
def State.holdEnded : State :=
  let t := s.resetCores p
  t.setPart p { t.part p with hold := false }

theorem State.holdEnded_part : (s.holdEnded p).part p = { s.part p with frozenAt := none, hold := false } := by
  rw [State.holdEnded, State.part_setPart, State.resetCores_part, if_pos rfl]

theorem State.holdEnded_chip : (s.holdEnded p).chip = s.chip := by simp [State.holdEnded, State.resetCores]

/-- What follows the end of a repair hold: the compute reset that it made wait, or the jobs that waited (R410, R413). -/
theorem State.endHold_over (h : s.holdOver p = true) : s.endHold p =
    if s.chip.waitHold.getD p false then ((s.holdEnded p).unwaited p).startReset p 1 else (s.holdEnded p).promote p :=
  if_neg (by simp [h])

theorem unwaited_spares : (s.unwaited p).chip.spares = s.chip.spares := rfl

theorem Part.degraded_of_resetBy {x y : Part} {kind : Nat} (h : x.unpoisoned = y.resetBy kind) : x.degraded = y.degraded :=
  (congrArg Part.degraded h :)

/-- The beginning of a reset ends a repair hold and leaves the partition degraded if it was (R411, R413). -/
theorem State.startReset_status (kind : Nat) :
    ((s.startReset p kind).part p).hold = false ∧ ((s.startReset p kind).part p).degraded = (s.part p).degraded := by
  obtain ⟨left, state, status, hself⟩ := s.startReset_part_self p kind
  obtain ⟨-, hhold, -⟩ := Part.fields_of_resetBy hself
  exact ⟨hhold, (Part.degraded_of_resetBy hself :)⟩

/-- The end of a repair hold leaves spares and failed cores as they are. -/
theorem State.endHold_chip : (s.endHold p).chip.spares = s.chip.spares ∧ (s.endHold p).chip.failing = s.chip.failing := by
  by_cases hover : s.holdOver p = true
  · rw [s.endHold_over p hover]
    split
    next =>
      have hchip := ((s.holdEnded p).unwaited p).startReset_unfused p 1
      rw [Chip.spares_of_unfused hchip, Chip.failing_of_unfused hchip, unwaited_spares, unwaited_failing, s.holdEnded_chip p]
      exact ⟨rfl, rfl⟩
    next =>
      rw [State.promote_chip, s.holdEnded_chip p]
      exact ⟨rfl, rfl⟩
  · rw [State.endHold, if_pos (by simpa using hover)]
    exact ⟨rfl, rfl⟩

/-- A repair hold ends with the last failed core of its partition, which stays degraded if it was (R408, R410). -/
theorem State.endHold_part (hhold : (s.part p).hold = true) :
    ((s.endHold p).part p).hold = s.chip.failing.any (fun g => s.partOfPhys g.phys == p) ∧
      ((s.endHold p).part p).degraded = (s.part p).degraded := by
  by_cases hover : s.holdOver p = true
  · have hnone : s.chip.failing.any (fun g => s.partOfPhys g.phys == p) = false := by simpa [State.holdOver] using hover
    rw [hnone, s.endHold_over p hover]
    split
    next =>
      obtain ⟨hend, hdegraded⟩ := ((s.holdEnded p).unwaited p).startReset_status p 1
      have hpart : ((s.holdEnded p).unwaited p).part p = { s.part p with frozenAt := none, hold := false } := s.holdEnded_part p
      rw [hpart] at hdegraded
      exact ⟨hend, hdegraded⟩
    next =>
      obtain ⟨-, hend, hdegraded⟩ := Part.fields_of_jobless ((s.holdEnded p).promote_jobless p p)
      rw [s.holdEnded_part p] at hend hdegraded
      exact ⟨hend, hdegraded⟩
  · rw [State.endHold, if_pos (by simpa using hover), hhold]
    exact ⟨by simpa [State.holdOver] using hover, rfl⟩

end

/-! ## The substitution of a failed core -/

section
variable (s : State) (p : Nat) (g : Failing)

/-- A failed core has been dealt with: its entry is in the bank, and it no longer waits for a spare (R397, R408). -/
def State.failingFused : State := (s.fuseEntry p 1 (corePlace g.phys) g.cause).settleFailing g

theorem State.failingFused_chip : (s.failingFused p g).chip.spares = s.chip.spares ∧
    (s.failingFused p g).chip.failing = s.chip.failing.filter fun x => x.phys != g.phys := by
  have hchip := s.fuseEntry_unfused p 1 (corePlace g.phys) g.cause
  have hspares := Chip.spares_of_unfused hchip
  have hfailing := Chip.failing_of_unfused hchip
  exact ⟨hspares, congrArg (List.filter fun x : Failing => x.phys != g.phys) hfailing⟩

/-- A spare has taken over the logical number of a failed core (R408, R409). -/
def State.takenOver (c : Nat) : State :=
  let t := s.failingFused p g
  ({ t with
    lmap := t.lmap.map (fun e => if e.1 = g.logical then (e.1, c) else e)
    chip := { t.chip with spares := t.chip.spares.filter (· != c) } } : State).postEvent (.vf p) Code.spareSubst
      (toLe 2 g.logical ++ toLe 2 g.phys ++ toLe 2 c)

theorem State.takenOver_frame (c : Nat) : (s.takenOver p g c).parts = s.parts ∧ (s.takenOver p g c).layout = s.layout ∧
    (s.takenOver p g c).lmap = s.lmap.map (fun e => if e.1 = g.logical then (e.1, c) else e) ∧
    (s.takenOver p g c).chip.spares = s.chip.spares.filter (· != c) ∧
    (s.takenOver p g c).chip.failing = s.chip.failing.filter fun x => x.phys != g.phys := by
  obtain ⟨hspares, hfailing⟩ := s.failingFused_chip p g
  refine ⟨?_, ?_, ?_, ?_, ?_⟩
  · simp [State.takenOver, State.failingFused]
  · simp [State.takenOver, State.failingFused]
  · simp [State.takenOver, State.failingFused]
  · simp [State.takenOver, hspares]
  · simp [State.takenOver, hfailing]

/-- The logical number of a failed core has become absent (R400). -/
def State.numberAbsent : State :=
  let t := s.failingFused p g
  { t with lmap := t.lmap.filter fun e => e.1 != g.logical }

/-- A partition that has lost a logical number is degraded and has left its group (R400). -/
def State.leftAbsent : State := ((s.numberAbsent p g).setDegraded p).leaveGroup p

theorem State.setDegraded_part : (s.setDegraded p).part p = { s.part p with degraded := s.shortOf p } := by
  unfold State.setDegraded
  dsimp only
  split
  next =>
    rw [State.part_of_parts (s := s.setPart p { s.part p with degraded := s.shortOf p }) (by simp), State.part_setPart]
  next => rw [State.part_setPart]

theorem State.leftAbsent_frame : (s.leftAbsent p g).layout = s.layout ∧
    (s.leftAbsent p g).lmap = s.lmap.filter (fun e => e.1 != g.logical) ∧
    (s.leftAbsent p g).chip.failing = s.chip.failing.filter (fun x => x.phys != g.phys) ∧
    ((s.leftAbsent p g).part p).hold = (s.part p).hold ∧ ((s.leftAbsent p g).part p).degraded = (s.leftAbsent p g).shortOf p := by
  obtain ⟨-, hfailing⟩ := s.failingFused_chip p g
  obtain ⟨left, state, status, hleave⟩ := ((s.numberAbsent p g).setDegraded p).leaveGroup_part p
  have hself := hleave p
  rw [if_pos rfl, State.setDegraded_part] at hself
  have hlmap : (s.leftAbsent p g).lmap = (s.numberAbsent p g).lmap := by simp [State.leftAbsent]
  have hlayout : (s.leftAbsent p g).layout = (s.numberAbsent p g).layout := by simp [State.leftAbsent]
  have hgrade : (s.leftAbsent p g).gradeS = (s.numberAbsent p g).gradeS := by simp [State.leftAbsent]
  refine ⟨?_, ?_, ?_, ?_, ?_⟩
  · simp [State.leftAbsent, State.numberAbsent, State.failingFused]
  · simp [State.leftAbsent, State.numberAbsent, State.failingFused]
  · simp [State.leftAbsent, State.numberAbsent, hfailing]
  · have hparts : (s.numberAbsent p g).parts = s.parts := by simp [State.numberAbsent, State.failingFused]
    rw [State.leftAbsent, hself, ← State.part_of_parts hparts]
  · rw [shortOf_of hlmap hlayout hgrade, State.leftAbsent, hself]

theorem doSubstitution_ignored (h : (s.part p).hold = false ∨ s.chip.failing.find? (fun g => s.partOfPhys g.phys == p) = none)
    (passed : Bool) : s.doSubstitution p passed = s := by
  unfold State.doSubstitution
  rcases h with h | h
  · rw [if_pos (by simp [h])]
  · simp only [h, ite_self]

variable {s p g}
variable (hhold : (s.part p).hold = true) (hfind : s.chip.failing.find? (fun g => s.partOfPhys g.phys == p) = some g)
include hhold hfind

theorem doSubstitution_passed {c : Nat} (hc : s.spareFor g.phys = some c) :
    s.doSubstitution p true = (s.takenOver p g c).endHold p := by
  simp only [State.doSubstitution, hhold, hfind, hc, Bool.not_true, Bool.false_eq_true, if_false, if_true]
  rfl

theorem doSubstitution_failed {c : Nat} (hc : s.spareFor g.phys = some c) : s.doSubstitution p false = s.failCore c 1 := by
  simp only [State.doSubstitution, hhold, hfind, hc, Bool.not_true, Bool.false_eq_true, if_false]

theorem doSubstitution_absent (hc : s.spareFor g.phys = none) (passed : Bool) :
    s.doSubstitution p passed = (s.leftAbsent p g).endHold p := by
  simp only [State.doSubstitution, hhold, hfind, hc, Bool.not_true, Bool.false_eq_true, if_false]
  rfl

/-- A spare that passes its test takes the number over, and the hold ends with the last failed core (R408). -/
theorem doSubstitution_passed_spec {c : Nat} (hc : s.spareFor g.phys = some c) :
    (s.doSubstitution p true).lmap = s.lmap.map (fun e => if e.1 = g.logical then (e.1, c) else e) ∧
      (s.doSubstitution p true).chip.spares = s.chip.spares.filter (· != c) ∧
      (s.doSubstitution p true).chip.failing = s.chip.failing.filter (fun x => x.phys != g.phys) ∧
      ((s.doSubstitution p true).part p).hold =
        (s.chip.failing.filter fun x => x.phys != g.phys).any fun x => s.partOfPhys x.phys == p := by
  obtain ⟨hparts, hlayout, hlmap, hspares, hfailing⟩ := s.takenOver_frame p g c
  obtain ⟨hspares', hfailing'⟩ := (s.takenOver p g c).endHold_chip p
  obtain ⟨hend, -⟩ := (s.takenOver p g c).endHold_part p (by rw [State.part_of_parts hparts, hhold])
  rw [doSubstitution_passed hhold hfind hc]
  refine ⟨by simp [hlmap], hspares'.trans hspares, hfailing'.trans hfailing, hend.trans ?_⟩
  simp only [hfailing, partOfPhys_of hlayout]

/-- Without a spare the number becomes absent, and the hold ends with the last failed core (R400, R408). -/
theorem doSubstitution_absent_spec (hc : s.spareFor g.phys = none) (passed : Bool) :
    (s.doSubstitution p passed).lmap = s.lmap.filter (fun e => e.1 != g.logical) ∧
      (s.doSubstitution p passed).chip.failing = s.chip.failing.filter (fun x => x.phys != g.phys) ∧
      ((s.doSubstitution p passed).part p).degraded = (s.doSubstitution p passed).shortOf p ∧
      ((s.doSubstitution p passed).part p).hold =
        (s.chip.failing.filter fun x => x.phys != g.phys).any fun x => s.partOfPhys x.phys == p := by
  obtain ⟨hlayout, hlmap, hfailing, hkept, hshort⟩ := s.leftAbsent_frame p g
  obtain ⟨-, hfailing'⟩ := (s.leftAbsent p g).endHold_chip p
  obtain ⟨hend, hdegraded⟩ := (s.leftAbsent p g).endHold_part p (hkept.trans hhold)
  rw [doSubstitution_absent hhold hfind hc]
  refine ⟨by simp [hlmap], hfailing'.trans hfailing, ?_, hend.trans ?_⟩
  · rw [hdegraded, hshort]
    exact (shortOf_of (by simp) (by simp) (by simp) p).symm
  · simp only [hfailing, partOfPhys_of hlayout]

end

/-- Settles O44: a permanent fault by the part that it retires or marks, a substitution by who has the logical number after it. -/
theorem repair : Obligations.Repair := by
  intro s hon fault
  refine ⟨fun n l h => ?_, fun n l hl hlane => ?_, fun k pc c b r h => ?_, fun k pc c b r h => ?_, fun k c pin => ?_, fun d t => ?_,
    fun c h => ?_, fun c l h hl => ⟨?_, ?_⟩, fun c h hl => ?_, fun c x h => spareFor_spec h, fun p passed => ⟨fun h => ?_,
    fun g hhold hfind => ?_⟩⟩
  · exact reporting_whenOn hon (retireLane_ignored h)
  · obtain ⟨hbeyond, hrest⟩ := retireLane_spec hl hlane
    exact ⟨_, reporting_whenOn hon rfl, fabricOnly_of_beyond hbeyond, hrest⟩
  · exact reporting_whenOn hon (markRow_marked h)
  · exact ⟨_, reporting_whenOn hon rfl, markRow_spec h⟩
  · exact ⟨s.degradeChannel k c false, reporting_whenOn hon rfl, reporting_whenOn hon rfl, reporting_whenOn hon rfl,
      by simp [sameBlock], by simp, degradeChannel_retired, degradeChannel_evac⟩
  · exact ⟨_, reporting_whenOn hon rfl, reporting_whenOn hon rfl, rfl, fun x => State.slice_setSlice_if ..⟩
  · exact ⟨reporting_whenOn hon (retireCore_retired h), reporting_whenOn hon (retireCore_retired h),
      reporting_whenOn hon (retireCore_retired h)⟩
  · obtain ⟨hgood, hfailing, hhold⟩ := retireCore_numbered_spec (cause := 2) h hl
    exact ⟨s.retireCore c 2, reporting_whenOn hon rfl, hgood, hfailing, hhold, by simp⟩
  · obtain ⟨-, hfailing, -⟩ := retireCore_numbered_spec (cause := 3) h hl
    exact ⟨s.retireCore c 3, reporting_whenOn hon rfl, reporting_whenOn hon rfl, hfailing, by simp⟩
  · obtain ⟨hframe, -, -, hbank⟩ := failCore_spec (cause := 2) h
    exact ⟨_, reporting_whenOn hon (retireCore_spare h hl), hframe, failCore_good .., hbank⟩
  · exact reporting_whenOn hon (doSubstitution_ignored s p h passed)
  · intro rest
    refine ⟨fun c hc hpassed => ?_, fun c hc hpassed hgood => ?_, fun hc => ?_⟩
    · subst hpassed
      exact ⟨_, reporting_whenOn hon rfl, doSubstitution_passed_spec hhold hfind hc⟩
    · subst hpassed
      obtain ⟨-, hspares, hfailing, -⟩ := failCore_spec (cause := 1) hgood
      refine ⟨_, reporting_whenOn hon (doSubstitution_failed hhold hfind hc), by simp, hspares, failCore_good .., hfailing, ?_⟩
      rw [State.part_of_parts (s := s) (by simp), hhold]
    · exact ⟨_, reporting_whenOn hon rfl, doSubstitution_absent_spec hhold hfind hc passed⟩

end Sys2Proof.Machine
end

