-- ==== Sys2Proof/Proofs/StepFront.lean ====
section
/-! SUPPORT. What a step takes from the queue of commands, and what the passing of a nanosecond changes (R322, R325, R434, R436). -/

namespace Sys2Proof.Machine

/-- The count of throttled time is all that a nanosecond changes in the governor (R436). -/
theorem throttleTick_spec (s : State) :
    s.throttleTick = { s with gov := { s.gov with throttleNs := s.throttleTick.gov.throttleNs } } := by
  unfold State.throttleTick
  split <;> rfl

/-- Without a correction at work fabric time counts by one (R322, R325). -/
theorem tick_steady {s : State} (hhold : s.time.hold = 0) (hrate : s.time.rate = 0) :
    s.tick = { s with ft := s.ft + 1, time := { s.time with slew := s.time.slew + 1 } } := by
  simp [State.tick, hhold, hrate]

theorem step_empty {s : State} (h : s.pending = []) : step s = .next s.idle := by
  rw [step, h]

/-- Settles O53: the queue's front by the definition of a step, the empty queue by the tick of fabric time and of the throttle counter. -/
theorem stepTakesTheFront : Obligations.StepTakesTheFront := by
  intro s
  refine ⟨fun c cs => rfl, fun hempty hoff hback => ?_, fun hempty hclock hhold hrate => ?_⟩
  · rw [step_empty hempty, State.idle, if_neg (not_or.mpr ⟨hoff, hback⟩)]
  · refine ⟨s.tick.throttleTick, by rw [step_empty hempty, State.idle, if_pos hclock], ?_⟩
    rw [tick_steady hhold hrate, throttleTick_spec]
    exact ⟨rfl, rfl, rfl⟩

end Sys2Proof.Machine
end

