-- ==== Sys2Proof/Proofs/ExchangeKept.lean ====
section
/-! SUPPORT. What the operations that the exchange is made of change of a partition's exchange and of its node's control queue (R333,
R349 to R355). -/

namespace Sys2Proof.Machine

open Sys2Proof.Safety

/-! ## Operations that keep every exchange -/

theorem State.exch_of_parts {s t : State} (h : t.parts = s.parts) (q : Nat) : t.exch q = s.exch q :=
  congrArg Part.exch (State.part_of_parts h q)

theorem State.node_of_nodes {s t : State} (h : t.nodes = s.nodes) (q : Nat) : t.node q = s.node q := by rw [State.node, State.node, h]

section
variable (s : State) (p q : Nat)

@[simp] theorem State.modExch_exch (f : Exch → Exch) : (s.modExch p f).exch q = if q = p then f (s.exch p) else s.exch q := by
  rw [State.exch, State.modExch_part]
  split <;> rfl

theorem State.modExch_hbm (f : Exch → Exch) : ((s.modExch p f).part q).hbm = (s.part q).hbm := State.hbm_setPart s q rfl

@[simp] theorem State.exchEvent_exch (code v : Nat) : (s.exchEvent p code v).exch q = s.exch q := State.exch_of_parts (by simp) q

@[simp] theorem State.sendCtrl_exch (op arg : Nat) (dest : Option Nat) (body : Bytes) : (s.sendCtrl p op arg dest body).exch q = s.exch q :=
  State.exch_of_parts (by simp) q

@[simp] theorem State.originate_exch (tc : Nat) (pin : Option Nat) (k : Packet) : (s.originate p tc pin k).1.exch q = s.exch q :=
  State.exch_of_parts (by simp) q

@[simp] theorem State.newTxn_exch (w : Waiter) : (s.newTxn p w).1.exch q = s.exch q := State.exch_of_parts (by simp) q

@[simp] theorem State.devWrite_exch (a : Nat) (bs : Bytes) (priv : Bool) : (s.devWrite p a bs priv).1.exch q = s.exch q :=
  (congrArg Part.exch (State.devWrite_around s p a q bs priv) :)

@[simp] theorem State.putDirectory_exch (t : ExTable) (sh e1 crc : Nat) : (s.putDirectory p t sh e1 crc).exch q = s.exch q :=
  State.devWrite_exch ..

end

theorem takeKind_exch {s u : State} {p kind : Nat} {a : Nat × Nat × Packet} (h : s.takeKind p kind = some (u, a)) (q : Nat) :
    u.exch q = s.exch q := by
  obtain ⟨d, rfl⟩ := State.takeKind_state h
  rfl

theorem State.exch_if_self (s : State) (p q : Nat) : (if q = p then s.exch p else s.exch q) = s.exch q := by
  split
  next hq => rw [hq]
  next => rfl

/-! ## Notices -/

/-- The control packet of a member for its group (R353). -/
def State.ctrlBroadcast (s : State) (p op arg : Nat) (body : Bytes) : Packet :=
  s.newPacket p 0 0x13 true 0 body.length 0 (op + 256 * arg) body

/-- A control packet for the group waits behind the TC0 messages of its node (R310, R353). -/
theorem sendCtrl_all (s : State) (p op arg : Nat) (body : Bytes) :
    s.sendCtrl p op arg none body = s.queueTc0 p (s.ctrlBroadcast p op arg body) := rfl

/-- The exchange after the notice of a shard has been sent: the first notice of the shard is kept, and the shard is one that this
member has published (R350). -/
def Exch.noticed (x : Exch) (sh : Nat) (i : PubInfo) : Exch :=
  { x with
    pubDone := SMap.set none sh (some ((SMap.get none sh x.pubDone).getD i)) x.pubDone
    published := if x.published.contains sh then x.published else x.published ++ [sh] }

theorem Exch.noticed_isSome (x : Exch) (sh : Nat) (i : PubInfo) : (SMap.get none sh (x.noticed sh i).pubDone).isSome = true := by
  simp [Exch.noticed]

section
variable (s : State) (p : Nat) (t : ExTable)

/-- A notice is one broadcast that names its shard; it changes no other partition's exchange (R350, R353). -/
theorem State.sendPubDone_spec (sh : Nat) : ∃ i k,
    (∀ q, (s.sendPubDone p t sh).exch q = if q = p then (s.exch p).noticed sh i else s.exch q) ∧
      ((s.sendPubDone p t sh).node p).tc0 = (s.node p).tc0 ++ [k] ∧ k.key = 1 + 256 * sh ∧ k.kind = 0x13 ∧ k.bcast = true := by
  unfold State.sendPubDone
  extract_lets x h crc st cnt info s1
  refine ⟨info, (s1.putDirectory p t sh (x.epoch + 1) crc).ctrlBroadcast p 1 sh (ctrlBytes (x.epoch + 1) crc st cnt 0 x.gen),
    fun q => ?_, ?_, rfl, rfl, rfl⟩
  · rw [State.sendCtrl_exch, State.putDirectory_exch, State.modExch_exch]
    rfl
  · rw [sendCtrl_all, State.queueTc0_tc0, State.node_of_nodes (s := s) (by simp [s1])]

/-- Notices sent again one after another change no list of published shards: each shard is on it (R350). -/
theorem sendPubDones_spec (shs : List Nat) (s : State) (h : ∀ sh ∈ shs, (s.exch p).published.contains sh = true) :
    let v := shs.foldl (fun acc sh => acc.sendPubDone p t sh) s
    ∃ ks, (v.node p).tc0 = (s.node p).tc0 ++ ks ∧ ks.map (·.key) = shs.map (fun sh => 1 + 256 * sh) ∧
      (∀ k ∈ ks, k.kind = 0x13 ∧ k.bcast = true) ∧ (v.exch p).published = (s.exch p).published := by
  induction shs generalizing s with
  | nil => exact ⟨[], by simp⟩
  | cons sh shs ih =>
    obtain ⟨i, k, hexch, htc0, hkey, hkind, hbcast⟩ := s.sendPubDone_spec p t sh
    have hpub : ((s.sendPubDone p t sh).exch p).published = (s.exch p).published := by
      rw [hexch, if_pos rfl]
      exact if_pos (h sh List.mem_cons_self)
    obtain ⟨ks, htc0', hkeys, hkinds, hpub'⟩ := ih (s.sendPubDone p t sh) fun x hx => by
      rw [hpub]
      exact h x (List.mem_cons_of_mem _ hx)
    refine ⟨k :: ks, ?_, by rw [List.map_cons, List.map_cons, hkey, hkeys], ?_, hpub'.trans hpub⟩
    · rw [List.foldl_cons, htc0', htc0, List.append_assoc]
      rfl
    · rintro m (_ | ⟨_, hm⟩)
      · exact ⟨hkind, hbcast⟩
      · exact hkinds m hm

/-! ## Publication -/

/-- A plane piece that is sent changes no more of the exchanges than the count of bytes for its shard (R349). -/
theorem State.publish_exch (sh : Nat) (c : Nat × Bytes) : ∃ got, ∀ q,
    (s.publish p t sh c).exch q = if q = p then { s.exch p with got := got } else s.exch q := by
  refine ⟨((s.exch p).addGot sh ((s.devWrite p (t.nextBase + c.1) c.2 true).1.moduleId p) c.2.length).got, fun q => ?_⟩
  simp only [State.publish, State.originate_exch, State.modExch_exch, State.devWrite_exch]
  rfl

theorem publishes_exch (sh : Nat) (cs : List (Nat × Bytes)) (s : State) : ∃ got, ∀ q,
    (cs.foldl (fun acc c => acc.publish p t sh c) s).exch q = if q = p then { s.exch p with got := got } else s.exch q := by
  induction cs generalizing s with
  | nil => exact ⟨(s.exch p).got, fun q => (s.exch_if_self p q).symm⟩
  | cons c cs ih =>
    obtain ⟨_, hone⟩ := s.publish_exch p t sh c
    obtain ⟨got, hrest⟩ := ih (s.publish p t sh c)
    refine ⟨got, fun q => ?_⟩
    rw [List.foldl_cons, hrest, hone, hone, if_pos rfl]
    split <;> rfl

theorem State.publishMine_exch (sh : Nat) : ∃ got, ∀ q,
    (s.publishMine p t sh).exch q = if q = p then { s.exch p with got := got } else s.exch q := publishes_exch p t sh _ s

/-! ## COMMIT -/

/-- A broadcast of COMMIT with its epoch, its T_open and its generation (R353, R354). -/
def Packet.commits (k : Packet) (c : Nat × Nat × Nat) : Prop :=
  k.bcast = true ∧ k.kind = 0x13 ∧ k.key = 2 ∧ k.data = ctrlBytes c.1 0 0 0 c.2.1 c.2.2

/-- Broadcasts change nothing but the node, whose control queue they join (R310, R353). -/
theorem sendBroadcasts_spec (op : Nat) (body : Bytes) (rs : List Nat) (s : State) :
    let v := rs.foldl (fun acc r => acc.sendCtrl p op r none body) s
    v = { s with nodes := v.nodes } ∧ ∃ ks, (v.node p).tc0 = (s.node p).tc0 ++ ks := by
  induction rs generalizing s with
  | nil => exact ⟨rfl, [], (List.append_nil _).symm⟩
  | cons r rs ih =>
    obtain ⟨hnodes, ks, htc0⟩ := ih (s.sendCtrl p op r none body)
    refine ⟨hnodes, s.ctrlBroadcast p op r body :: ks, htc0.trans ?_⟩
    rw [sendCtrl_all, State.queueTc0_tc0, List.append_assoc]
    rfl

/-- A member that sends COMMIT keeps what it has sent before, or commits the epoch to come; only its exchange and its node change
(R354). -/
theorem State.sendCommit_spec : ∃ leaving c ks k, let v := s.sendCommit p t
    (∀ d, (s.exch p).commitSent = some d → c = d) ∧ ((s.exch p).commitSent = none → c.1 = (s.exch p).epoch + 1) ∧
      v = { s with parts := v.parts, nodes := v.nodes } ∧
      (∀ q, v.exch q = if q = p then { s.exch p with commitSent := some c, leaving := leaving } else s.exch q) ∧
      (v.node p).tc0 = (s.node p).tc0 ++ ks ++ [k] ∧ k.commits c := by
  unfold State.sendCommit
  extract_lets x gone s1 leaving c body s2 s3 v
  obtain ⟨hs1, ks, htc0⟩ := sendBroadcasts_spec p 5 (ctrlBytes x.epoch 0 0 0 0 x.gen) gone s
  have hkept : ∀ q, s1.exch q = s.exch q := State.exch_of_parts (congrArg State.parts hs1 :)
  have hs3 : s3 = { s with parts := s3.parts, nodes := s3.nodes } := by
    have hs1 : s1 = { s with nodes := s1.nodes } := hs1
    simp only [s3, s2]
    rw [hs1]
    rfl
  have hexch : ∀ q, s3.exch q = if q = p then { s.exch p with commitSent := some c, leaving := leaving } else s.exch q := fun q => by
    simp [s3, s2, hkept]
  have hqueue : (s3.node p).tc0 = (s.node p).tc0 ++ ks ++ [s2.ctrlBroadcast p 2 0 body] := by
    simp only [s3]
    rw [sendCtrl_all, State.queueTc0_tc0, State.node_of_nodes (s := s1) (by simp [s2]), htc0]
  have hv : v = s3 ∨ ∃ k, v = s3.toInbox p 32 0 k := by
    simp only [v]
    split
    · exact .inl rfl
    · exact .inr ⟨_, rfl⟩
  refine ⟨leaving, c, ks, s2.ctrlBroadcast p 2 0 body, fun d hd => by simp [c, x, hd], fun hn => by simp [c, x, hn], ?_, fun q => ?_, ?_,
    rfl, rfl, rfl, rfl⟩
  all_goals obtain hv | ⟨k, hv⟩ := hv
  all_goals rw [hv]
  · exact hs3
  · rw [hs3]
    rfl
  · exact hexch q
  · exact hexch q
  · exact hqueue
  · exact (congrArg Node.tc0 (State.node_setNode ..)).trans hqueue

/-- A member that has the role of the leader's check changes its part in the exchange and what it has committed; any but the leader
commits nothing (R354). -/
theorem State.leaderCheck_spec : ∃ st leaving sent,
    (∀ q, (s.leaderCheck p t).exch q =
      if q = p then { s.exch p with state := st, leaving := leaving, commitSent := sent } else s.exch q) ∧
      ((s.exch p).leader t ≠ some t.rank → sent = (s.exch p).commitSent) := by
  unfold State.leaderCheck
  extract_lets x s1
  have hs1 : ∃ st, ∀ q, s1.exch q = if q = p then { s.exch p with state := st } else s.exch q := by
    simp only [s1]
    split
    · exact ⟨3, fun q => State.modExch_exch ..⟩
    · exact ⟨(s.exch p).state, fun q => (s.exch_if_self p q).symm⟩
  obtain ⟨st, hs1⟩ := hs1
  split
  next hlead =>
    obtain ⟨leaving, c, -, -, -, -, -, hexch, -⟩ := s1.sendCommit_spec p t
    refine ⟨st, leaving, some c, fun q => ?_, fun hne => absurd hlead.1 hne⟩
    rw [hexch, hs1, hs1, if_pos rfl]
    split <;> rfl
  next => exact ⟨st, (s.exch p).leaving, (s.exch p).commitSent, hs1, fun _ => rfl⟩

end

end Sys2Proof.Machine
end

