-- ==== Sys2Proof/Proofs/Publication.lean ====
section
/-! SUPPORT. What PUBLISH, PUB_DONE, TAKEOVER, SHARD_LOST, SHARD_FETCH and STATE_COPY leave of a member's exchange (R349 to R352, R356,
R357, R359). -/

namespace Sys2Proof.Machine

open Sys2Proof.Safety

section
variable {s u : State} {p : Nat} {t : ExTable} {k : Packet}

/-- A member that has seen no COMMIT does not flip (R355). -/
theorem tryFlip_unseen (h : (s.exch p).commitSeen = none) : s.tryFlip p t = s := by simp only [State.tryFlip, h]

/-! ## PUBLISH -/

/-- A PUBLISH packet lies in the next bank and is counted (R349). -/
def State.landed (s : State) (p : Nat) (t : ExTable) (k : Packet) : State :=
  (s.devWrite p (t.nextBase + k.addr) k.data true).1.modExch p fun x => x.addGot (k.key % 65536) k.src k.data.length

/-- The buddy has found that a published piece is not what it computed (R352). -/
def State.mismatched (s : State) (p sh : Nat) : State :=
  (s.modExch p fun x => { x with mismatch := x.mismatch ++ [sh] }).exchEvent p Code.buddyMismatch sh

section
variable {n tc : Nat} (htake : s.takeKind p 0x21 = some (u, n, tc, k)) (ht : (s.exch p).tbl = some t)
include htake ht

theorem doPublish_idle (h : (s.exch p).state = 0 ∨ 5 < (s.exch p).state) : s.doPublish p = u := by
  have hx := takeKind_exch htake p
  simp only [State.doPublish, htake, State.withTable, hx, ht]
  rw [if_pos]
  simp; omega

theorem doPublish_stale (h1 : k.key / 65536 ≠ ((s.exch p).epoch + 1) % 65536) (h2 : k.key / 65536 ≠ ((s.exch p).epoch + 2) % 65536) :
    s.doPublish p = u := by
  have hx := takeKind_exch htake p
  simp only [State.doPublish, htake, State.withTable, hx, ht, if_pos h1, if_neg h2, ite_self]

theorem doPublish_lands (hlo : 1 ≤ (s.exch p).state) (hhi : (s.exch p).state ≤ 5)
    (he : k.key / 65536 = ((s.exch p).epoch + 1) % 65536) (hseen : (s.exch p).commitSeen = none) :
    s.doPublish p = u.landed p t k ∨ s.doPublish p = (u.landed p t k).mismatched p (k.key % 65536) := by
  have hx := takeKind_exch htake p
  have hlanded : ((u.landed p t k).exch p).commitSeen = none := by simpa [State.landed, Exch.addGot, hx] using hseen
  have hmis : (((u.landed p t k).mismatched p (k.key % 65536)).exch p).commitSeen = none := by simpa [State.mismatched] using hlanded
  simp only [State.doPublish, htake, State.withTable, hx, ht]
  rw [if_neg (by simp [hlo, hhi]), if_neg (by simp [he])]
  split
  · exact .inr (tryFlip_unseen hmis)
  · exact .inl (tryFlip_unseen hlanded)

end

theorem landed_exch (q : Nat) : (s.landed p t k).exch q =
    if q = p then (s.exch p).addGot (k.key % 65536) k.src k.data.length else s.exch q := by
  simp [State.landed]

theorem mismatched_exch (sh q : Nat) : (s.mismatched p sh).exch q =
    if q = p then { s.exch p with mismatch := (s.exch p).mismatch ++ [sh] } else s.exch q := by
  simp [State.mismatched]

theorem landed_hbm : ((s.landed p t k).part p).hbm = ((s.devWrite p (t.nextBase + k.addr) k.data true).1.part p).hbm :=
  State.modExch_hbm ..

theorem mismatched_hbm (sh : Nat) : ((s.mismatched p sh).part p).hbm = (s.part p).hbm := by
  rw [State.mismatched, State.exchEvent_part, State.modExch_hbm]

/-! ## PUB_DONE -/

section
variable (htake : s.takeCtrl p 1 = some (u, k)) (ht : (s.exch p).tbl = some t)
include htake ht

theorem doPubDone_ignored (h : (s.exch p).state = 0 ∨ (s.exch p).state = 6 ∨ u32 k.data 0 ≤ (s.exch p).epoch) : s.doPubDone p = u := by
  have hx := takeCtrl_exch htake
  simp only [State.doPubDone, htake, State.withTable, hx, ht]
  by_cases hs : (s.exch p).state = 0 ∨ (s.exch p).state = 6
  · exact if_pos hs
  · rw [if_neg hs, if_neg (by omega), if_pos (by omega)]

end

/-- The first notice of a shard is recorded, with its entry in the directory (R350). -/
def State.recorded (s : State) (p : Nat) (t : ExTable) (k : Packet) : State :=
  if (SMap.get none (ctrlArg k) (s.exch p).pubDone).isSome then s else
    (s.modExch p fun x => { x with
      pubDone := SMap.set none (ctrlArg k) (some ⟨k.src, u32 k.data 4, u32 k.data 8, u32 k.data 12⟩) x.pubDone }).putDirectory p t
      (ctrlArg k) (u32 k.data 0) (u32 k.data 4)

theorem recorded_exch (q : Nat) : (s.recorded p t k).exch q = if q = p then { s.exch p with
    pubDone := if (SMap.get none (ctrlArg k) (s.exch p).pubDone).isSome then (s.exch p).pubDone else
      SMap.set none (ctrlArg k) (some ⟨k.src, u32 k.data 4, u32 k.data 8, u32 k.data 12⟩) (s.exch p).pubDone } else s.exch q := by
  unfold State.recorded
  split
  · exact (s.exch_if_self p q).symm
  · simp

/-- A notice for the epoch to come is recorded before a leader that holds them all commits (R350, R354). -/
theorem doPubDone_records (htake : s.takeCtrl p 1 = some (u, k)) (ht : (s.exch p).tbl = some t) (h0 : (s.exch p).state ≠ 0)
    (h6 : (s.exch p).state ≠ 6) (he : u32 k.data 0 = (s.exch p).epoch + 1) (hseen : (s.exch p).commitSeen = none) :
    s.doPubDone p = (u.recorded p t k).leaderCheck p t := by
  have hx := takeCtrl_exch htake
  obtain ⟨st, leaving, sent, hexch, -⟩ := (u.recorded p t k).leaderCheck_spec p t
  have hflip : ((u.recorded p t k).leaderCheck p t).tryFlip p t = (u.recorded p t k).leaderCheck p t := by
    refine tryFlip_unseen ?_
    rw [hexch, if_pos rfl, recorded_exch, if_pos rfl]
    exact hx ▸ hseen
  rw [← hflip]
  simp only [State.doPubDone, htake, State.withTable, hx, ht, State.recorded]
  rw [if_neg (by simp [h0, h6]), if_neg (by omega), if_neg (by simp [he])]

section
variable (ht : (s.exch p).tbl = some t)
include ht

theorem doPubDoneRepeat_ends (h : (s.exch p).commitSeen.isSome = true) : s.doPubDoneRepeat p = s := by
  simp only [State.doPubDoneRepeat, State.withTable, ht]
  exact if_pos h

theorem doPubDoneRepeat_repeats (h : (s.exch p).commitSeen = none) :
    s.doPubDoneRepeat p = (s.exch p).published.foldl (fun acc sh => acc.sendPubDone p t sh) s := by
  simp only [State.doPubDoneRepeat, State.withTable, ht]
  exact if_neg (by simp [h])

/-! ## TAKEOVER -/

theorem doTakeover_ignored {sh : Nat} (h : (s.exch p).buddy t sh ≠ some t.rank ∨ (SMap.get none sh (s.exch p).pubDone).isSome = true ∨
    (s.exch p).haveSegs sh 0 (t.segments sh - 1) = false ∨ (s.exch p).published.contains sh = true ∨
    ¬((s.exch p).state = 1 ∨ (s.exch p).state = 2 ∨ (s.exch p).state = 3)) : s.doTakeover p sh = s := by
  simp only [State.doTakeover, State.withTable, ht]
  exact if_pos (by simpa using h)

/-- A buddy that takes a shard over counts the takeover, sends its pieces and its notice, and changes nothing else of the exchanges but
its role (R351). -/
theorem doTakeover_spec {sh : Nat} (hbuddy : (s.exch p).buddy t sh = some t.rank) (hdone : SMap.get none sh (s.exch p).pubDone = none)
    (hsegs : (s.exch p).haveSegs sh 0 (t.segments sh - 1) = true) (hpub : (s.exch p).published.contains sh = false)
    (hst : (s.exch p).state = 1 ∨ (s.exch p).state = 2 ∨ (s.exch p).state = 3) :
    ∃ got i st leaving sent, ∀ q, (s.doTakeover p sh).exch q = if q = p then
      { ({ s.exch p with takeovers := satAdd 0xFF (s.exch p).takeovers 1, got := got } : Exch).noticed sh i with
        state := st, leaving := leaving, commitSent := sent } else s.exch q := by
  let s1 := (s.modExch p fun x => { x with takeovers := satAdd 0xFF x.takeovers 1 }).exchEvent p Code.takeover sh
  have hrun : s.doTakeover p sh = ((s1.publishMine p t sh).sendPubDone p t sh).leaderCheck p t := by
    simp only [State.doTakeover, State.withTable, ht]
    exact if_neg (by simpa [hbuddy, hdone, hsegs, hst] using hpub)
  have hcount : ∀ q, s1.exch q = if q = p then { s.exch p with takeovers := satAdd 0xFF (s.exch p).takeovers 1 } else s.exch q :=
    fun q => by simp [s1]
  obtain ⟨got, hsent⟩ := s1.publishMine_exch p t sh
  obtain ⟨i, -, hnotice, -⟩ := (s1.publishMine p t sh).sendPubDone_spec p t sh
  obtain ⟨st, leaving, sent, hrole, -⟩ := ((s1.publishMine p t sh).sendPubDone p t sh).leaderCheck_spec p t
  refine ⟨got, i, st, leaving, sent, fun q => ?_⟩
  rw [hrun, hrole, hnotice, hnotice, hsent, hsent, hcount, hcount, if_pos rfl, if_pos rfl, if_pos rfl]
  split <;> rfl

/-! ## SHARD_LOST -/

theorem doShardLost_eq (sh : Nat) : s.doShardLost p sh =
    if (s.exch p).leader t = some t.rank ∧ SMap.get none sh (s.exch p).pubDone = none ∧ sh < t.g ∧
        ((s.exch p).state = 2 ∨ (s.exch p).state = 3) then s.postEvent (.vf p) Code.shardLost (toLe 4 sh) else s := by
  simp only [State.doShardLost, State.withTable, ht, Option.isNone_iff_eq_none]
  rfl

end

/-! ## SHARD_FETCH -/

/-- The bytes of a shard lie in the bank region at `base` (R350, R356). -/
def State.putShard (s : State) (p base : Nat) (t : ExTable) (sh : Nat) (bs : Bytes) : State :=
  ((s.shardRanges p t sh).foldl (fun (acc : State × Nat) r =>
    ((acc.1.devWrite p (base + r.1) ((bs.drop acc.2).take r.2) true).1, acc.2 + r.2)) (s, 0)).1

theorem putShard_exch (base sh : Nat) (bs : Bytes) (q : Nat) : (s.putShard p base t sh bs).exch q = s.exch q :=
  foldl_keeps (fun a : State × Nat => a.1.exch q) _ (fun _ _ => State.devWrite_exch ..) _ _

section
variable {sh : Nat} {bs : Bytes} (ht : (s.exch p).tbl = some t)
include ht

theorem doShardFetch_none (sh : Nat) : s.doShardFetch p sh none = s := by simp only [State.doShardFetch, State.withTable, ht]

theorem doShardFetch_ignored (h : bs.length ≠ ((s.shardRanges p t sh).map (·.2)).sum ∨ t.g ≤ sh) : s.doShardFetch p sh (some bs) = s := by
  simp only [State.doShardFetch, State.withTable, ht]
  exact if_pos h

variable (hlen : bs.length = ((s.shardRanges p t sh).map (·.2)).sum) (hsh : sh < t.g)
include hlen hsh

/-- A shard that a new owner fetches for its current bank is fetched no more (R359). -/
theorem doShardFetch_refetches (h : (s.exch p).refetch.contains sh = true) : s.doShardFetch p sh (some bs) =
    (s.putShard p t.curBase t sh bs).modExch p fun x => { x with refetch := x.refetch.filter (· != sh) } := by
  simp only [State.doShardFetch, State.withTable, ht]
  rw [if_neg (by simp [hlen, hsh]), if_pos h]
  rfl

variable (hre : (s.exch p).refetch.contains sh = false) (hst : (s.exch p).state = 4 ∨ (s.exch p).state = 5)
  (hnew : s.shardComplete p t sh = false)
include hre hst hnew

/-- A shard whose bytes are not the published ones is not taken (R356). -/
theorem doShardFetch_refused {i : PubInfo} (hi : SMap.get none sh (s.exch p).pubDone = some i) (hcrc : i.crc ≠ crc32c bs) :
    s.doShardFetch p sh (some bs) = s := by
  simp only [State.doShardFetch, State.withTable, ht, hi]
  rw [if_neg (by simp [hlen, hsh]), if_neg (by simpa using hre), if_neg (by simp [hst, hnew])]
  exact if_pos (by simpa using hcrc)

/-- A shard whose bytes are the published ones is complete; a member that has seen no COMMIT does nothing more (R356). -/
theorem doShardFetch_completes {i : PubInfo} (hi : SMap.get none sh (s.exch p).pubDone = some i) (hcrc : i.crc = crc32c bs)
    (hseen : (s.exch p).commitSeen = none) : s.doShardFetch p sh (some bs) =
      ((s.putShard p t.nextBase t sh bs).modExch p fun x => { x with complete := x.complete ++ [sh] }).putDirectory p t sh
        ((s.exch p).epoch + 1) (crc32c bs) := by
  rw [← tryFlip_unseen (t := t) (show ((((s.putShard p t.nextBase t sh bs).modExch p fun x =>
    { x with complete := x.complete ++ [sh] }).putDirectory p t sh ((s.exch p).epoch + 1) (crc32c bs)).exch p).commitSeen = none by
      simpa [putShard_exch] using hseen)]
  simp only [State.doShardFetch, State.withTable, ht, hi]
  rw [if_neg (by simp [hlen, hsh]), if_neg (by simpa using hre), if_neg (by simp [hst, hnew]), if_neg (by simp [hcrc])]
  rfl

end

/-! ## STATE_COPY -/

/-- A joining member notes a verified copy of a shard's state at most once (R359, R360). -/
theorem State.joinCopy_spec (s : State) (p : Nat) (t : ExTable) (sh : Nat) : ∃ copies,
    (∀ q, (s.joinCopy p t sh).exch q = if q = p then { s.exch p with stateCopy := copies } else s.exch q) ∧
      (copies = (s.exch p).stateCopy ∨
        copies = (s.exch p).stateCopy ++ [sh] ∧ (s.exch p).stateCopy.contains sh = false) := by
  unfold State.joinCopy
  extract_lets x h ok y s1 both
  have hs1 : ∀ q, s1.exch q = if q = p then { s.exch p with stateCopy := (s.exch p).stateCopy ++ [sh] } else s.exch q :=
    fun q => State.modExch_exch ..
  split
  next => exact ⟨(s.exch p).stateCopy, fun q => (s.exch_if_self p q).symm, .inl rfl⟩
  next hn =>
    refine ⟨_, fun q => ?_, .inr ⟨rfl, ?_⟩⟩
    · split
      · rw [State.sendCtrl_exch, hs1]
      · exact hs1 q
    · simp only [not_or, Bool.not_eq_true] at hn
      exact hn.2.2

/-- The state of a shard has left for another member (R359). -/
def State.sentState (s : State) (p : Nat) (t : ExTable) (rank : Nat) (bs : Bytes) : State :=
  (publishPieces 0 bs).foldl (fun acc c =>
    let r := acc.newTxn p .fetch
    (r.1.originate p 2 none (r.1.newPacket p (t.idOf rank) 0x01 false (t.replicaBase + c.1) c.2.length r.2 0 c.2)).1) s

theorem sentState_exch (rank : Nat) (bs : Bytes) (q : Nat) : (s.sentState p t rank bs).exch q = s.exch q :=
  foldl_keeps (fun a : State => a.exch q) _ (fun a c => by simp) _ _

section
variable {sh : Nat} (ht : (s.exch p).tbl = some t)
include ht

theorem doStateCopy_joins (h : (s.exch p).state = 5) : s.doStateCopy p sh = s.joinCopy p t sh := by
  simp only [State.doStateCopy, State.withTable, ht, if_pos h]

theorem doStateCopy_ignored (h5 : (s.exch p).state ≠ 5) (h : (s.exch p).stateCopy.contains sh = false) : s.doStateCopy p sh = s := by
  simp only [State.doStateCopy, State.withTable, ht, if_neg h5, h]
  rfl

theorem doStateCopy_sends {b : Nat} {w : State} {bs : Bytes} (h5 : (s.exch p).state ≠ 5) (h : (s.exch p).stateCopy.contains sh = true)
    (hb : (s.exch p).buddy t sh = some b)
    (hr : s.devRead p (t.stateAt sh) (t.stateBytes (decide ((s.sched p t (s.exch p).epoch).b1 % 2 ^ 31 = 0)) sh) true = (w, .ok bs)) :
    s.doStateCopy p sh = (s.sentState p t b bs).modExch p fun x => { x with stateCopy := x.stateCopy.filter (· != sh) } := by
  simp only [State.doStateCopy, State.withTable, ht, if_neg h5, h, hb, hr]
  rfl

end

end

/-- Settles O39: each command by what it leaves of the exchange while no COMMIT has been seen, so that no bank flips. -/
theorem publication : Obligations.Publication := by
  intro s p hheld
  refine ⟨fun h => ?_, fun h => ?_, fun t ht => ?_⟩
  · exact (engine_next hheld).trans (by simp only [State.doPublish, h])
  · exact (engine_next hheld).trans (by simp only [State.doPubDone, h])
  intro x
  refine ⟨fun u n tc k htake => ⟨fun h => ?_, fun hlo hhi h1 h2 => ?_, fun hlo hhi he hseen => ?_⟩,
    fun u k htake => ⟨fun h => ?_, fun h0 h6 he hseen => ?_⟩, fun h => ?_, fun hseen => ?_, fun sh h => ?_,
    fun sh hbuddy hdone hsegs hpub hst => ?_, fun sh => ?_, fun sh => ?_, fun sh bs h => ?_,
    fun sh bs hlen hsh hre hst hnew => ⟨fun i hi hcrc => ?_, fun i hi hcrc hseen => ?_⟩, fun sh bs hlen hsh hre => ?_,
    fun sh h5 h => ?_, fun sh h5 => ?_, fun sh b w bs h5 h hb hr => ?_⟩
  · exact (engine_next hheld).trans (congrArg _ (doPublish_idle htake ht h))
  · exact (engine_next hheld).trans (congrArg _ (doPublish_stale htake ht h1 h2))
  · have hx := takeKind_exch htake
    refine ⟨_, engine_next hheld, by simp [sameBlock], ?_⟩
    rcases doPublish_lands htake ht hlo hhi he hseen with hrun | hrun
    · rw [hrun]
      refine ⟨fun d hd => ?_, ?_, ?_, ?_, landed_hbm⟩
      · rw [landed_exch, if_neg hd, hx]
      all_goals rw [landed_exch, if_pos rfl, hx]
      all_goals rfl
    · rw [hrun]
      refine ⟨fun d hd => ?_, ?_, ?_, ?_, (mismatched_hbm _).trans landed_hbm⟩
      · rw [mismatched_exch, if_neg hd, landed_exch, if_neg hd, hx]
      all_goals rw [mismatched_exch, if_pos rfl, landed_exch, if_pos rfl, hx]
      all_goals rfl
  · exact (engine_next hheld).trans (congrArg _ (doPubDone_ignored htake ht h))
  · obtain ⟨st, leaving, sent, hrole, hfollows⟩ := (u.recorded p t k).leaderCheck_spec p t
    have hx := takeCtrl_exch htake
    have hself := recorded_exch (s := u) (p := p) (t := t) (k := k) p
    rw [if_pos rfl, hx] at hself
    refine ⟨_, engine_next hheld, by simp [sameBlock], ?_⟩
    rw [doPubDone_records htake ht h0 h6 he hseen]
    refine ⟨fun d hd => ?_, ?_, ?_, fun hlead => ?_⟩
    · obtain ⟨n, rfl⟩ := State.takeCtrl_state htake
      rw [hrole, if_neg hd, recorded_exch, if_neg hd]
      rfl
    · rw [hrole, if_pos rfl, hself]
    · rw [hrole, if_pos rfl, hself]
      rfl
    · rw [hrole, if_pos rfl, hfollows (by rw [hself]; exact hlead), hself]
  · exact (engine_next hheld).trans (congrArg _ (doPubDoneRepeat_ends ht h))
  · obtain ⟨ks, htc0, hkeys, hkinds, hpub⟩ := sendPubDones_spec p t (s.exch p).published s fun sh hsh => List.contains_iff_mem.mpr hsh
    refine ⟨_, ks, engine_next hheld, by simp [sameBlock], ?_⟩
    rw [doPubDoneRepeat_repeats ht hseen]
    exact ⟨htc0, hkeys, hkinds, hpub⟩
  · exact (engine_next hheld).trans (congrArg _ (doTakeover_ignored ht h))
  · obtain ⟨got, i, st, leaving, sent, hexch⟩ := doTakeover_spec ht hbuddy hdone hsegs hpub hst
    have hself := hexch p
    rw [if_pos rfl] at hself
    refine ⟨_, engine_next hheld, by simp [sameBlock], fun d hd => ?_, ?_, ?_, ?_, ?_⟩
    · rw [hexch, if_neg hd]
    all_goals rw [hself]
    · exact if_neg (by rw [hpub]; simp)
    · rfl
    · exact Exch.noticed_isSome ..
    · rfl
  · refine ⟨_, (engine_next hheld).trans (congrArg _ (doShardLost_eq ht sh)), ?_⟩
    split
    · exact ⟨rfl, State.postEvent_posted ..⟩
    · rfl
  · exact (engine_next hheld).trans (congrArg _ (doShardFetch_none ht sh))
  · exact (engine_next hheld).trans (congrArg _ (doShardFetch_ignored ht h))
  · exact (engine_next hheld).trans (congrArg _ (doShardFetch_refused ht hlen hsh hre hst hnew hi hcrc))
  · refine ⟨_, engine_next hheld, by simp [sameBlock], ?_⟩
    rw [doShardFetch_completes ht hlen hsh hre hst hnew hi hcrc hseen]
    exact ⟨fun d hd => by simp [putShard_exch, hd], by simp [putShard_exch, x]⟩
  · refine ⟨_, engine_next hheld, by simp [sameBlock], ?_⟩
    rw [doShardFetch_refetches ht hlen hsh hre]
    exact ⟨fun d hd => by simp [putShard_exch, hd], by simp [putShard_exch, x]⟩
  · exact (engine_next hheld).trans (congrArg _ (doStateCopy_ignored ht h5 h))
  · obtain ⟨copies, hexch, hnoted⟩ := s.joinCopy_spec p t sh
    refine ⟨_, (engine_next hheld).trans (congrArg _ (doStateCopy_joins ht h5)), by simp [sameBlock], fun d hd => ?_, ?_, ?_⟩
    · rw [hexch, if_neg hd]
    all_goals rw [hexch, if_pos rfl]
    exact hnoted
  · refine ⟨_, engine_next hheld, by simp [sameBlock], ?_⟩
    rw [doStateCopy_sends ht h5 h hb hr]
    exact ⟨fun d hd => by simp [sentState_exch, hd], by simp [sentState_exch, x]⟩

end Sys2Proof.Machine
end

