-- ==== Sys2Proof/Proofs/CommitAndFlip.lean ====
section
/-! SUPPORT. How a member acts on COMMIT: the flip, the wait and the fetch (R333, R355, R356), who sends it again (R354), and how a
step barrier held too long ends (R334). -/

namespace Sys2Proof.Machine

open Sys2Proof.Safety

/-! ## The flip -/

/-- The exchange after the flip to the epoch to come, under the COMMIT's T_open and generation (R333, R355, R358). -/
def Exch.afterFlip (x : Exch) (t : ExTable) (tOpen gen : Nat) : Exch :=
  let a := x.adopt t gen
  { a.1.fresh with
    epoch := (x.epoch + 1) % 2 ^ 32, flipped := !x.flipped, tOpen, bankValid := true
    state := if x.state = 6 then 6 else if a.1.isActive t.rank then 1 else 5
    stateCopy := x.stateCopy ++ movedShards t x a.1 }

/-- The bank ranges that a partition exchanges after a flip: none when the flip brings the banks back (R333). -/
def Exch.swapAfter (x : Exch) (t : ExTable) : Option (Nat × Nat × Nat) :=
  if x.flipped then none else some (t.curBase, t.nextBase, t.bankBytes)

theorem streamCores_of {s t : State} (hcores : t.cores = s.cores) (hl : t.lmap = s.lmap) (hy : t.layout = s.layout)
    (hg : t.gradeS = s.gradeS) (p : Nat) : t.streamCores p = s.streamCores p := by
  simp only [State.streamCores, coresOf_of hl hy hg, State.core_of_cores hcores]

section
variable {s u : State} {p : Nat} {t : ExTable}

theorem releaseBarrier_part (s : State) (p q : Nat) :
    (s.releaseBarrier p).part q = if q = p then { s.part p with fabWait := false } else s.part q := by
  rw [State.releaseBarrier, State.part_of_parts (State.foldl_parts _ _ _ fun a c => State.setCore_parts ..), State.part_setPart_if]

/-- The flip as it leaves the partition before the step barrier is released. -/
def State.flippedBanks (s : State) (p : Nat) (t : ExTable) (tOpen gen : Nat) : State :=
  let a := (s.exch p).adopt t gen
  let s1 := s.setPart p { s.part p with exch := (s.exch p).afterFlip t tOpen gen, swap := (s.exch p).swapAfter t }
  a.2.2.foldl (fun acc r => acc.exchEvent p Code.memberJoined r)
    (a.2.1.foldl (fun acc r => acc.exchEvent p Code.memberLeft r) s1)

theorem flip_eq (s : State) (p : Nat) (t : ExTable) (tOpen gen : Nat) : s.flip p t tOpen gen =
    if (s.exch p).held then (s.flippedBanks p t tOpen gen).releaseBarrier p else s.flippedBanks p t tOpen gen := rfl

theorem flippedBanks_part (s : State) (p : Nat) (t : ExTable) (tOpen gen q : Nat) : (s.flippedBanks p t tOpen gen).part q =
    if q = p then { s.part p with exch := (s.exch p).afterFlip t tOpen gen, swap := (s.exch p).swapAfter t } else s.part q := by
  rw [State.part_of_parts (s := s.setPart p { s.part p with
    exch := (s.exch p).afterFlip t tOpen gen, swap := (s.exch p).swapAfter t }) (by simp [State.flippedBanks]), State.part_setPart_if]

/-- A flip changes of the partitions the exchange and the bank ranges of its own, with the wait for a fabric barrier (R333). -/
theorem flip_part (s : State) (p : Nat) (t : ExTable) (tOpen gen : Nat) : ∃ w, ∀ q, (s.flip p t tOpen gen).part q = if q = p then
    { s.part p with exch := (s.exch p).afterFlip t tOpen gen, swap := (s.exch p).swapAfter t, fabWait := w } else s.part q := by
  rw [flip_eq]
  split
  · refine ⟨false, fun q => ?_⟩
    rw [releaseBarrier_part, flippedBanks_part, flippedBanks_part, if_pos rfl]
    split <;> rfl
  · exact ⟨(s.part p).fabWait, flippedBanks_part s p t tOpen gen⟩

/-- A flip releases the step barrier that is held (R355). -/
theorem flip_releases {tOpen gen c : Nat} (h : (s.exch p).held = true) (hc : c ∈ s.streamCores p) :
    ((s.flip p t tOpen gen).core c).seq.arrived = none := by
  rw [flip_eq, if_pos h]
  refine State.releaseBarrier_arrived ?_
  rwa [streamCores_of (s := s) (by simp [State.flippedBanks]) (by simp [State.flippedBanks]) (by simp [State.flippedBanks])
    (by simp [State.flippedBanks])]

/-! ## Acting on a COMMIT that has been seen -/

section
variable {e tOpen gen : Nat} (hseen : (s.exch p).commitSeen = some (e, tOpen, gen))
include hseen

theorem tryFlip_incomplete (h : s.bankComplete p t = false) : s.tryFlip p t = if (s.exch p).state = 4 then s else
    (s.modExch p fun x => { x with state := if x.state = 5 ∨ x.state = 6 then x.state else 4 }).exchEvent p Code.epochResync
      ((s.exch p).epoch + 1) := by
  simp only [State.tryFlip, hseen, h, Bool.not_false, if_true]

/-- A member whose bank is not complete fetches what is missing, or goes on joining (R356). -/
theorem tryFlip_fetches (h : s.bankComplete p t = false) (h6 : (s.exch p).state ≠ 6) (q : Nat) : (s.tryFlip p t).part q =
    if q = p then { s.part p with exch := { s.exch p with state := if (s.exch p).state = 5 then 5 else 4 } } else s.part q := by
  rw [tryFlip_incomplete hseen h]
  split
  next h4 =>
    have hst : (if (s.exch p).state = 5 then 5 else 4) = (s.exch p).state := by simp [h4]
    rw [hst]
    exact (State.part_if_self s p q).symm
  next =>
    have hst : (if (s.exch p).state = 5 ∨ (s.exch p).state = 6 then (s.exch p).state else 4) = if (s.exch p).state = 5 then 5 else 4 := by
      split <;> simp_all
    rw [State.exchEvent_part, State.modExch_part, ← hst]
    rfl

theorem tryFlip_waits (h : s.bankComplete p t = true) (hheld : (s.exch p).held = false) (h5 : (s.exch p).state ≠ 5) :
    s.tryFlip p t = s := by
  simp [State.tryFlip, hseen, h, hheld, h5]

theorem tryFlip_flips (h : s.bankComplete p t = true) (hheld : (s.exch p).held = true ∨ (s.exch p).state = 5) :
    s.tryFlip p t = s.flip p t tOpen gen := by
  simp [State.tryFlip, hseen, h, hheld]

end

/-- Whatever a member does once it has seen COMMIT, it changes no other partition and no byte of its own memory (R333). -/
theorem tryFlip_part (s : State) (p : Nat) (t : ExTable) : ∃ x sw w, ∀ q, (s.tryFlip p t).part q =
    if q = p then { s.part p with exch := x, swap := sw, fabWait := w } else s.part q := by
  have hsame : ∀ q, s.part q = if q = p then s.part p else s.part q := fun q => (State.part_if_self s p q).symm
  obtain hseen | ⟨⟨e, tOpen, gen⟩, hseen⟩ := (s.exch p).commitSeen.eq_none_or_eq_some
  · rw [tryFlip_unseen hseen]
    exact ⟨(s.part p).exch, (s.part p).swap, (s.part p).fabWait, hsame⟩
  · by_cases hbank : s.bankComplete p t = true
    · by_cases hbar : (s.exch p).held = true ∨ (s.exch p).state = 5
      · obtain ⟨w, hflip⟩ := flip_part s p t tOpen gen
        rw [tryFlip_flips hseen hbank hbar]
        exact ⟨_, _, w, hflip⟩
      · obtain ⟨hheld, h5⟩ := not_or.mp hbar
        rw [tryFlip_waits hseen hbank (Bool.not_eq_true _ ▸ hheld) h5]
        exact ⟨(s.part p).exch, (s.part p).swap, (s.part p).fabWait, hsame⟩
    · rw [tryFlip_incomplete hseen (Bool.not_eq_true _ ▸ hbank)]
      split
      · exact ⟨(s.part p).exch, (s.part p).swap, (s.part p).fabWait, hsame⟩
      · exact ⟨_, (s.part p).swap, (s.part p).fabWait, fun q => (State.exchEvent_part ..).trans (State.modExch_part ..)⟩

/-! ## COMMIT and its repeats -/

/-- A COMMIT has been noted with its T_open and its generation (R353, R355). -/
def State.sawCommit (s : State) (p : Nat) (k : Packet) : State :=
  s.modExch p fun x => { x with commitSeen := some (u32 k.data 0, u64 k.data 16, u32 k.data 24) }

theorem sawCommit_eq {k : Packet} (hx : u.exch p = s.exch p) (he : u32 k.data 0 = (s.exch p).epoch + 1) : u.sawCommit p k =
    u.modExch p fun _ => { s.exch p with commitSeen := some ((s.exch p).epoch + 1, u64 k.data 16, u32 k.data 24) } := by
  have hself : u.sawCommit p k =
      u.modExch p fun _ => { u.exch p with commitSeen := some (u32 k.data 0, u64 k.data 16, u32 k.data 24) } := rfl
  rw [hself, hx, he]

section
variable {k : Packet} (htake : s.takeCtrl p 2 = some (u, k)) (ht : (s.exch p).tbl = some t)
include htake ht

theorem doCommit_ignored (h : (s.exch p).state = 0 ∨ (s.exch p).state = 6 ∨ u32 k.data 0 ≤ (s.exch p).epoch) : s.doCommit p = u := by
  have hx := takeCtrl_exch htake
  simp only [State.doCommit, htake, State.withTable, hx, ht]
  by_cases hs : (s.exch p).state = 0 ∨ (s.exch p).state = 6
  · exact if_pos hs
  · rw [if_neg hs, if_pos (by omega)]

theorem doCommit_again (he : u32 k.data 0 = (s.exch p).epoch + 1) (hseen : (s.exch p).commitSeen.isSome = true) : s.doCommit p = u := by
  have hx := takeCtrl_exch htake
  simp only [State.doCommit, htake, State.withTable, hx, ht, he, hseen]
  simp

/-- The first COMMIT for the epoch to come is noted and acted on (R355). -/
theorem doCommit_acts (h0 : (s.exch p).state ≠ 0) (h6 : (s.exch p).state ≠ 6) (he : u32 k.data 0 = (s.exch p).epoch + 1)
    (hseen : (s.exch p).commitSeen = none) : s.doCommit p = (u.sawCommit p k).tryFlip p t := by
  have hx := takeCtrl_exch htake
  simp only [State.doCommit, htake, State.withTable, hx, ht]
  rw [if_neg (by simp [h0, h6]), if_neg (by omega), if_neg (by omega), if_neg (by simp [hseen])]
  rfl

end

section
variable (ht : (s.exch p).tbl = some t)
include ht

theorem doCommitRepeat_silent (hsent : (s.exch p).commitSent = none) (h : ((s.exch p).backups t).contains t.rank = false ∨
    (s.exch p).allPublished t = false ∨ (s.exch p).commitSeen.isSome = true) : s.doCommitRepeat p = s := by
  simp only [State.doCommitRepeat, State.withTable, ht, hsent]
  rw [if_neg (by simp), if_neg]
  rintro ⟨hbackup, hall, hseen⟩
  rcases h with h | h | h
  · exact absurd hbackup (by rw [h]; simp)
  · simp [h] at hall
  · simp [Option.isNone_iff_eq_none.mp hseen] at h

theorem doCommitRepeat_repeats {c : Nat × Nat × Nat} (hsent : (s.exch p).commitSent = some c) : s.doCommitRepeat p = s.sendCommit p t := by
  simp only [State.doCommitRepeat, State.withTable, ht, hsent]
  rfl

theorem doCommitRepeat_backs (hsent : (s.exch p).commitSent = none) (hbackup : ((s.exch p).backups t).contains t.rank = true)
    (hall : (s.exch p).allPublished t = true) (hseen : (s.exch p).commitSeen = none) : s.doCommitRepeat p = s.sendCommit p t := by
  simp only [State.doCommitRepeat, State.withTable, ht, hsent, hseen, hbackup, hall]
  rfl

end

end

/-! ## A step barrier held too long -/

/-- What the exchange sees of a partition: its own state and the bank ranges that are exchanged. -/
def Part.exchanging (q : Part) : Exch × Option (Nat × Nat × Nat) := (q.exch, q.swap)

section
variable (s : State) (p c d q : Nat)

theorem State.exchanging_of_parts {s t : State} (h : t.parts = s.parts) (q : Nat) : (t.part q).exchanging = (s.part q).exchanging := by
  rw [State.part_of_parts h]

theorem State.exchanging_setPart {x : Part} (h : x.exchanging = (s.part p).exchanging) :
    ((s.setPart p x).part q).exchanging = (s.part q).exchanging := by
  rw [State.part_setPart_if]
  split
  next hq => rw [h, hq]
  next => rfl

theorem State.modJob_exchanging (f : Job → Job) : ((s.modJob p f).part q).exchanging = (s.part q).exchanging :=
  s.exchanging_setPart p q rfl

theorem State.putRecord_exchanging (a : Nat) (bs : Bytes) : ((s.putRecord p a bs).part q).exchanging = (s.part q).exchanging := by
  have hwrite := congrArg Part.exchanging (State.devWrite_around s p a q bs false)
  unfold State.putRecord
  extract_lets r
  split
  · exact hwrite
  · exact (State.exchanging_of_parts (by simp [r]) q).trans hwrite

theorem State.putCompletion_exchanging (tag : Nat) (bs : Bytes) :
    ((s.putCompletion p tag bs).part q).exchanging = (s.part q).exchanging := by
  unfold State.putCompletion
  split
  · split
    · rfl
    · exact s.putRecord_exchanging p q _ bs
  · rfl

theorem State.settleStream_exchanging : ((s.settleStream c).part q).exchanging = (s.part q).exchanging := by
  unfold State.settleStream
  extract_lets k p
  split
  · rfl
  · extract_lets bs s1
    split
    · rfl
    · split
      · exact (State.putRecord_exchanging ..).trans (State.modJob_exchanging ..)
      · rfl

theorem State.haltOne_exchanging (f : Failure) : ((s.haltOne c f).part q).exchanging = (s.part q).exchanging := by
  unfold State.haltOne
  extract_lets k seq qs
  split
  · rfl
  · exact (State.settleStream_exchanging ..).trans (State.modJob_exchanging ..)

theorem State.freeze_exchanging (engine opid tag : Nat) (byTag : Bool) :
    ((s.freeze c engine opid tag byTag).part q).exchanging = (s.part q).exchanging := by
  unfold State.freeze
  extract_lets k _ _ s1 p _ s2
  split
  · rfl
  · exact (State.exchanging_of_parts (s := s2) (by simp) q).trans (s1.exchanging_setPart p q rfl)

theorem State.freezePart_exchanging : ((s.freezePart p).part q).exchanging = (s.part q).exchanging :=
  foldl_keeps (fun v : State => (v.part q).exchanging) _ (fun a _ => State.freeze_exchanging a.fresh.2 ..) _ _

theorem State.breakCore_exchanging (engine opid tag : Nat) (byTag : Bool) :
    ((s.breakCore c engine opid tag byTag).part q).exchanging = (s.part q).exchanging := by
  unfold State.breakCore
  extract_lets b s1 s2
  have hs2 : (s2.part q).exchanging = (s.part q).exchanging :=
    (State.exchanging_of_parts (s := s1) (by simp only [s2]; split <;> rfl) q).trans (s.freeze_exchanging ..)
  split
  · exact (s2.freezePart_exchanging _ q).trans hs2
  · exact hs2

theorem State.recordDone_exchanging (engine opid tag : Nat) :
    ((s.recordDone c engine opid tag).part q).exchanging = (s.part q).exchanging := by
  unfold State.recordDone
  extract_lets s1 b
  have hs1 : (s1.part q).exchanging = (s.part q).exchanging := State.exchanging_of_parts (by simp [s1]) q
  split
  · exact (s1.breakCore_exchanging ..).trans hs1
  · exact hs1

theorem State.failOne_exchanging (e : QEntry) (status detail : Nat) :
    ((s.failOne c e status detail).part q).exchanging = (s.part q).exchanging := by
  unfold State.failOne
  extract_lets p s1 s2
  have hs2 : (s2.part q).exchanging = (s.part q).exchanging :=
    (State.exchanging_of_parts (s := s1) (by simp [s2]) q).trans (s.putCompletion_exchanging ..)
  exact (State.recordDone_exchanging ..).trans ((State.haltOne_exchanging ..).trans hs2)

theorem State.haltCore_exchanging (code : Nat) : ((s.haltCore c code).part q).exchanging = (s.part q).exchanging := by
  unfold State.haltCore
  extract_lets k r
  split
  · exact s.failOne_exchanging ..
  · exact (State.haltOne_exchanging ..).trans (State.exchanging_of_parts (by simp [r]) q)

/-- A halt of every core leaves the exchanges and the banks (R334). -/
theorem State.haltAll_exchanging (code : Nat) : ((s.haltAll p code).part q).exchanging = (s.part q).exchanging :=
  foldl_keeps (fun v : State => (v.part q).exchanging) _ (fun a c => a.haltCore_exchanging c q code) _ _

end

section
variable {s : State} {c d code : Nat}

theorem State.settleStream_engines_ne (s : State) (h : d ≠ c) : ((s.settleStream c).core d).engines = (s.core d).engines := by
  unfold State.settleStream
  extract_lets k p
  split
  · rfl
  · extract_lets bs s1
    have hs1 : s1.core d = s.core d := State.core_setCore_ne _ _ h
    split
    · rfl
    · split
      · rw [State.putRecord_engines, State.modJob_core, hs1]
      · rw [hs1]

/-- A stream that halts leaves the engines of every other core. -/
theorem State.haltOne_engines_ne (s : State) (f : Failure) (h : d ≠ c) : ((s.haltOne c f).core d).engines = (s.core d).engines := by
  unfold State.haltOne
  extract_lets k seq qs
  split
  · rfl
  · rw [State.settleStream_engines_ne _ h, State.modJob_core, State.core_setCore_ne _ _ h]

theorem State.failOne_engines_ne (s : State) (e : QEntry) (status detail : Nat) (h : d ≠ c) :
    ((s.failOne c e status detail).core d).engines = (s.core d).engines := by
  unfold State.failOne
  rw [State.recordDone_engines, State.haltOne_engines_ne _ _ h, State.traceDone_engines, State.putCompletion_engines]

theorem State.haltCore_engines_ne (s : State) (code : Nat) (h : d ≠ c) : ((s.haltCore c code).core d).engines = (s.core d).engines := by
  unfold State.haltCore
  extract_lets k r
  split
  · exact s.failOne_engines_ne _ _ _ h
  · rw [State.haltOne_engines_ne _ _ h, State.blankFailure_core]

/-- The stream of core `c` has halted with `STATUS` `code`. -/
def State.haltedWith (s : State) (c code : Nat) : Prop := ∃ f, s.haltedBy c f ∧ f.status = code

/-- The first failure of a running stream is the record's (R202, R215). -/
theorem State.failOne_first (e : QEntry) (status detail : Nat) (hr : (s.core c).seq.running = true) (hf : (s.core c).seq.failure = none) :
    (s.failOne c e status detail).haltedBy c (s.failureOf e status detail) := by
  unfold State.failOne
  extract_lets p s1 s2
  have hs2 : (s2.core c).engines = (s.core c).engines := by simp [s2, s1]
  refine (State.haltedBy_of_engines (State.recordDone_engines ..)).mpr ?_
  exact State.haltOne_first _ ((congrArg (·.1.running) hs2).trans hr) ((congrArg (·.1.failure) hs2).trans hf)

theorem State.haltCore_first (hr : (s.core c).seq.running = true) (hf : (s.core c).seq.failure = none) :
    (s.haltCore c code).haltedWith c code := by
  unfold State.haltCore
  extract_lets k r
  split
  next _ _ e _ _ _ => exact ⟨_, State.failOne_first e code 0 hr hf, rfl⟩
  next => exact ⟨_, State.haltOne_first r.2 (by rwa [State.blankFailure_core]) (by rwa [State.blankFailure_core]), rfl⟩

theorem State.haltCore_keeps (d : Nat) (h : s.haltedWith c code) : (s.haltCore d code).haltedWith c code := by
  obtain ⟨f, hby, hstatus⟩ := h
  unfold State.haltCore
  extract_lets k r
  split
  · exact ⟨f, State.failOne_haltedBy _ _ _ _ hby, hstatus⟩
  · refine ⟨f, State.haltOne_haltedBy _ _ ((State.haltedBy_of_engines ?_).mpr hby), hstatus⟩
    rw [State.blankFailure_core]

/-- Once a list of cores has been halted, a core that is on it with a stream that ran without a failure has halted with the code, as
one has that had halted with it before. -/
theorem haltCores_haltedWith (cs : List Nat) (s : State) (h : s.haltedWith c code ∨
    c ∈ cs ∧ (s.core c).seq.running = true ∧ (s.core c).seq.failure = none) :
    (cs.foldl (fun acc c => acc.haltCore c code) s).haltedWith c code := by
  induction cs generalizing s with
  | nil => exact h.resolve_right fun hc => List.not_mem_nil hc.1
  | cons x xs ih =>
    refine ih _ ?_
    rcases h with h | ⟨hmem, hr, hf⟩
    · exact .inl (State.haltCore_keeps x h)
    · by_cases hx : c = x
      · subst hx
        exact .inl (State.haltCore_first hr hf)
      · have hkept := s.haltCore_engines_ne code hx
        exact .inr ⟨(List.mem_cons.mp hmem).resolve_left hx, (congrArg (·.1.running) hkept).trans hr,
          (congrArg (·.1.failure) hkept).trans hf⟩

theorem State.haltAll_haltedWith {p : Nat} (hc : c ∈ s.streamCores p) (hf : (s.core c).seq.failure = none) :
    (s.haltAll p code).haltedWith c code :=
  haltCores_haltedWith _ s (.inr ⟨hc, (List.mem_filter.mp hc).2, hf⟩)

end

section
variable {s : State} {p : Nat} {t : ExTable} (ht : (s.exch p).tbl = some t)
include ht

theorem doCommitTimeout_early (h : (s.exch p).held = false ∨ s.ft ≤ (s.exch p).heldAt + t.limitMs * 10 ^ 6) : s.doCommitTimeout p = s := by
  simp only [State.doCommitTimeout, State.withTable, ht]
  exact if_pos (by simpa using h)

/-- A step barrier held beyond the limit halts every core and is held no more (R334). -/
theorem doCommitTimeout_halts (hheld : (s.exch p).held = true) (hlate : (s.exch p).heldAt + t.limitMs * 10 ^ 6 < s.ft) :
    s.doCommitTimeout p = ((s.haltAll p Code.commitTimeout).exchEvent p Code.commitTimeout (s.exch p).epoch).modExch p
      fun x => { x with held := false } := by
  simp only [State.doCommitTimeout, State.withTable, ht]
  exact if_neg (by simpa [hheld] using hlate)

end

/-- Settles O40: a COMMIT by the state that it is noted in, in which the bank and the step barrier decide, a repeat by the packet that
is sent, and a timeout by the halt of every core. -/
theorem commitAndFlip : Obligations.CommitAndFlip := by
  intro s p hheld
  refine ⟨fun h => (engine_next hheld).trans (by simp only [State.doCommit, h]), fun t ht => ?_⟩
  intro x
  refine ⟨fun u k htake => ⟨fun h => ?_, fun he hseen => ?_, fun h0 h6 he hseen => ?_⟩, fun hsent h => ?_, fun c hsent => ?_,
    fun hsent hbackup hall hseen => ?_, fun h => ?_, fun hbar hlate => ?_⟩
  · exact (engine_next hheld).trans (congrArg _ (doCommit_ignored htake ht h))
  · exact (engine_next hheld).trans (congrArg _ (doCommit_again htake ht he hseen))
  · intro y w
    have hcores : w.streamCores p = s.streamCores p := by
      obtain ⟨d, rfl⟩ := State.takeCtrl_state htake
      exact streamCores_of rfl rfl rfl rfl p
    have hw : u.sawCommit p k = w := sawCommit_eq (takeCtrl_exch htake) he
    have hpart : ∀ q, w.part q = if q = p then { s.part p with exch := y } else s.part q := fun q => by
      obtain ⟨d, rfl⟩ := State.takeCtrl_state htake
      exact State.modExch_part ..
    have hexch : w.exch p = y := by rw [State.modExch_exch, if_pos rfl]
    have hself : w.part p = { s.part p with exch := y } := (hpart p).trans (if_pos rfl)
    have hnoted : (w.exch p).commitSeen = some (x.epoch + 1, u64 k.data 16, u32 k.data 24) := by rw [hexch]
    refine ⟨_, engine_next hheld, by simp [sameBlock], ?_⟩
    rw [doCommit_acts htake ht h0 h6 he hseen, hw]
    obtain ⟨x', sw, fw, hkept⟩ := tryFlip_part w p t
    refine ⟨fun d hd => ?_, ?_, fun hbank => ?_, fun hbank hbar h5 => ?_, fun hbank hbar => ?_⟩
    · rw [hkept, if_neg hd, hpart, if_neg hd]
    · rw [hkept, if_pos rfl, hself]
    · have hfetch := tryFlip_fetches hnoted hbank (by rw [hexch]; exact h6) p
      rw [if_pos rfl, hexch, hself] at hfetch
      exact ⟨(congrArg Part.exch hfetch :), (congrArg Part.swap hfetch :)⟩
    · exact tryFlip_waits hnoted hbank (by rw [hexch]; exact hbar) (by rw [hexch]; exact h5)
    · rw [tryFlip_flips hnoted hbank (by rw [hexch]; exact hbar)]
      obtain ⟨_, hflip⟩ := flip_part w p t (u64 k.data 16) (u32 k.data 24)
      have hafter := (hflip p).trans (if_pos rfl)
      have hx' := congrArg Part.exch hafter
      have hswap := congrArg Part.swap hafter
      simp only [hexch] at hx' hswap
      exact ⟨(congrArg Exch.epoch hx' :), (congrArg Exch.flipped hx' :), (congrArg Exch.bankValid hx' :),
        (congrArg Exch.commitSeen hx' :), (congrArg Exch.held hx' :), (congrArg Exch.tOpen hx' :), (congrArg Exch.gen hx' :),
        (congrArg Exch.refetch hx' :), hswap, fun hb c hc => flip_releases (by rw [hexch]; exact hb) (by rwa [hcores])⟩
  · exact (engine_next hheld).trans (congrArg _ (doCommitRepeat_silent ht hsent h))
  · obtain ⟨_, c', ks, k, hold, -, hframe, hexch, htc0, hbcast, hkind, hkey, hdata⟩ := s.sendCommit_spec p t
    obtain rfl := hold c hsent
    refine ⟨_, ks, k, (engine_next hheld).trans (congrArg _ (doCommitRepeat_repeats ht hsent)), hframe, htc0, hbcast, hkind, hkey, hdata,
      ?_, ?_⟩
    all_goals rw [hexch, if_pos rfl]
  · obtain ⟨_, c, ks, k, -, hnew, hframe, hexch, htc0, hbcast, hkind, hkey, hdata⟩ := s.sendCommit_spec p t
    refine ⟨_, ks, k, (engine_next hheld).trans (congrArg _ (doCommitRepeat_backs ht hsent hbackup hall hseen)), hframe, htc0, hbcast,
      hkind, hkey, c, ?_, hnew hsent, hdata⟩
    rw [hexch, if_pos rfl]
  · exact (engine_next hheld).trans (congrArg _ (doCommitTimeout_early ht h))
  · have hkept := s.haltAll_exchanging p p Code.commitTimeout
    have hexch : (s.haltAll p Code.commitTimeout).exch p = s.exch p := congrArg Prod.fst hkept
    refine ⟨_, engine_next hheld, by simp [sameBlock], ?_⟩
    rw [doCommitTimeout_halts ht hbar hlate]
    refine ⟨?_, ?_, fun c hc hfail => ?_⟩
    · rw [State.modExch_exch, if_pos rfl, State.exchEvent_exch, hexch]
    · rw [State.modExch_part, if_pos rfl, State.exchEvent_part]
      exact congrArg Prod.snd hkept
    · obtain ⟨f, ⟨hhalted, hfailure⟩, hstatus⟩ := s.haltAll_haltedWith (code := Code.commitTimeout) hc hfail
      rw [State.core_of_cores (s := s.haltAll p Code.commitTimeout) (by simp)]
      exact ⟨hhalted, f, hfailure, hstatus⟩

end Sys2Proof.Machine
end

