-- ==== Sys2Proof/Proofs/Doorbells.lean ====
section
/-! SUPPORT. What the host's doorbells do to a ring pair or an event ring once they are counted, and what becomes of one that is not
in order (R377, R381, R387). -/

namespace Sys2Proof.Machine

open Sys2Proof.Safety

section
variable {s : State} {ok : Bool} {p n : Nat}

theorem State.gevent_evt (block inst ev n : Nat) (f : Fn) : (s.gevent block inst ev n).evt f = s.evt f := by
  rw [State.gevent_counts]
  rfl

/-- A doorbell that is in order acts once it has been counted. -/
theorem doorbell_acts (f : State → State) (hok : ok = true) (hheld : s.held = false) : s.doorbell ok f = f (s.gevent 6 0 0 1) := by
  simp [State.doorbell, hok, hheld]

/-- Any other doorbell counts as an access of the wrong form and does nothing else (R368, R381). -/
theorem doorbell_drops (f : State → State) (h : s.held = true ∨ ok = false) : ∃ c, s.doorbell ok f =
    { s with hif := { s.hif with badSize := min 0xFFFF (s.hif.badSize + 1) }, gdbg := { s.gdbg with gcnt := c } } := by
  refine ⟨(s.gevent 6 0 0 1).gdbg.gcnt, ?_⟩
  have hbad : (ok && !s.held) = false := by rcases h with h | h <;> simp [h]
  rw [State.doorbell, hbad, if_neg Bool.false_ne_true, State.gevent_counts]
  rfl

/-- Which doorbells of a ring pair are in order. -/
def State.pairBell (s : State) (p n v : Nat) : Bool :=
  decide (n < 64) && (s.ring p n).enabled && decide (v < (s.ring p n).size)

theorem pairBell_refused {v : Nat} (h : 64 ≤ n ∨ (s.ring p n).enabled = false ∨ (s.ring p n).size ≤ v) :
    s.pairBell p n v = false := by
  rcases h with h | h | h <;> simp [State.pairBell, h]

/-- A doorbell in order changes its own ring pair. -/
theorem doorbell_moves (f : Ring → Ring) (hok : ok = true) (hheld : s.held = false) (hn : n < 64) :
    let t := s.doorbell ok (·.modRing p n f)
    t = { s with hif := { s.hif with pairs := t.hif.pairs }, gdbg := { s.gdbg with gcnt := t.gdbg.gcnt } } ∧
      ∀ q m, m < 64 → t.ring q m = if q = p ∧ m = n then f (s.ring p n) else s.ring q m := by
  rw [doorbell_acts _ hok hheld, State.gevent_counts]
  exact ⟨rfl, fun q m hm => State.modRing_ring _ q f hn hm⟩

/-- An event head that is in order moves, and the events that wait are written while there is room (R387). -/
theorem doEvtHead_moves (fn : Fn) (v : Nat) (hheld : s.held = false) (he : (s.evt fn).enabled = true) (hv : v < 2 ^ (s.evt fn).log2) :
    let t := s.doEvtHead fn v
    t = { s with hif := { s.hif with evts := t.hif.evts }, gdbg := { s.gdbg with gcnt := t.gdbg.gcnt }, out := t.out } ∧
      (∀ f, fnKey f ≠ fnKey fn → t.evt f = s.evt f) ∧ (t.evt fn).head = v ∧ ∃ k, k ≤ (s.evt fn).waiting.length ∧
        (t.evt fn).waiting = (s.evt fn).waiting.drop k ∧ ((t.evt fn).waiting = [] ∨ (t.evt fn).room = false) ∧
        (t.evt fn).idx % 2 ^ (s.evt fn).log2 = ((s.evt fn).idx + k) % 2 ^ (s.evt fn).log2 := by
  have hok : ((s.evt fn).enabled && decide (v < 2 ^ (s.evt fn).log2)) = true := by simp [he, hv]
  let w := (s.gevent 6 0 0 1).setEvt fn { s.evt fn with head := v }
  have hrun : s.doEvtHead fn v = w.drainEvents fn (s.evt fn).waiting := by
    rw [State.doEvtHead, doorbell_acts _ hok hheld, State.gevent_evt]
  have hevt : ∀ f, w.evt f = if fnKey f = fnKey fn then { s.evt fn with head := v } else s.evt f := fun f => by
    rw [State.evt_setEvt, State.gevent_evt]
  have hown := hevt fn
  rw [if_pos rfl] at hown
  obtain ⟨hothers, hhead, -, k, hdrained⟩ := w.drainEvents_spec fn (s.evt fn).waiting (by rw [hown])
  rw [hown] at hhead hdrained
  rw [hrun]
  refine ⟨?_, fun f hf => (hothers f hf).trans ((hevt f).trans (if_neg hf)), hhead, k, hdrained⟩
  rw [State.drainEvents_rest, show w = _ from congrArg (State.setEvt · fn _) (State.gevent_counts ..)]
  rfl

end

/-- Settles O24: a doorbell in order acts on its ring after it has been counted, any other only counts. -/
theorem doorbells : Obligations.Doorbells := by
  intro s hon hp dropped moved
  have drops : ∀ {ok : Bool} (f : State → State), s.held = true ∨ ok = false → dropped (s.doorbell ok f) := fun {ok} f h => by
    obtain ⟨c, hc⟩ := doorbell_drops (ok := ok) f h
    exact hc ▸ rfl
  refine ⟨fun p n v hheld hn he hv => ?_, fun p n v h => ?_, fun fn v hheld he hv => ?_, fun fn v h => ?_⟩
  · have hok : s.pairBell p n v = true := by simp [State.pairBell, hn, he, hv]
    exact ⟨⟨_, overLink_next _ hon hp, doorbell_moves _ hok hheld hn⟩, _, overLink_next _ hon hp, doorbell_moves _ hok hheld hn⟩
  · have hbad : s.held = true ∨ s.pairBell p n v = false := h.imp_right pairBell_refused
    exact ⟨⟨_, overLink_next _ hon hp, drops _ hbad⟩, _, overLink_next _ hon hp, drops _ hbad⟩
  · obtain ⟨hrest, hothers, hhead, k, hdrained⟩ := doEvtHead_moves fn v hheld he hv
    exact ⟨_, k, overLink_next _ hon hp, hrest, hothers, hhead, hdrained⟩
  · have hbad : s.held = true ∨ ((s.evt fn).enabled && decide (v < 2 ^ (s.evt fn).log2)) = false :=
      h.imp_right fun h => by rcases h with h | h <;> simp [h]
    exact ⟨_, overLink_next _ hon hp, drops _ hbad⟩

end Sys2Proof.Machine
end

