-- ==== Sys2Proof/Proofs/RingRegisters.lean ====
section
/-! SUPPORT. What a write of a ring's configuration does to its ring pair or event ring, what it leaves of the others, and how the
interval of an event vector ends (R379, R386, R387, R390). -/

namespace Sys2Proof.Machine

open Sys2Proof.Safety

/-! ## One ring changed -/

/-- Nothing but ring pair `n` of partition `p` has changed, which now is `r`. -/
def State.pairIs (s t : State) (p n : Nat) (r : Ring) : Prop :=
  t = { s with hif := { s.hif with pairs := t.hif.pairs } } ∧ ∀ q m, m < 64 → t.ring q m = if q = p ∧ m = n then r else s.ring q m

/-- Nothing but the event ring of `fn` has changed, which now is `r`. -/
def State.evtIs (s t : State) (fn : Fn) (r : EvtRing) : Prop :=
  t = { s with hif := { s.hif with evts := t.hif.evts } } ∧ ∀ f, t.evt f = if fnKey f = fnKey fn then r else s.evt f

theorem State.setEvt_evtIs (s : State) (fn : Fn) (r : EvtRing) : s.evtIs (s.setEvt fn r) fn r :=
  ⟨rfl, fun f => s.evt_setEvt fn f r⟩

section
variable {s t u : State} {p n : Nat} {r x : Ring}

theorem State.setRing_pairIs (s : State) (p : Nat) (hn : n < 64) (r : Ring) : s.pairIs (s.setRing p n r) p n r :=
  ⟨rfl, fun q m hm => s.ring_setRing p n q m r hn hm⟩

theorem State.pairIs_refl (s : State) (p n : Nat) : s.pairIs s p n (s.ring p n) := by
  refine ⟨rfl, fun q m _ => ?_⟩
  split
  next h => rw [h.1, h.2]
  next => rfl

theorem State.pairIs_trans (h : s.pairIs t p n r) (k : t.pairIs u p n x) : s.pairIs u p n x := by
  refine ⟨k.1.trans (by rw [h.1]), fun q m hm => ?_⟩
  rw [k.2 q m hm, h.2 q m hm]
  split <;> rfl

theorem State.pairIs_own (h : s.pairIs t p n r) (hn : n < 64) : t.ring p n = r := by rw [h.2 p n hn, if_pos ⟨rfl, rfl⟩]

end

/-! ## Ring pairs enabled and disabled (R379, R390) -/

section
variable {s t : State} {p n cfg v : Nat} {r : Ring}

/-- When a ring pair may be enabled (R379). That its ring must not drain a discarded job is the model's choice (log 84). -/
def State.mayEnable (s : State) (p n cfg : Nat) : Prop :=
  s.held = false ∧ p < s.layout ∧ n < s.secField p 7 1 ∧ 4 ≤ bits cfg 0 5 ∧ bits cfg 0 5 ≤ 16 ∧ s.draining p n = false

theorem State.mayEnable_iff : s.mayEnable p n cfg ↔
    (!s.held && s.hasSection (.vf p) && decide (n < s.secField p 7 1) && log2Ok cfg && !s.draining p n) = true := by
  simp [State.mayEnable, State.hasSection, log2Ok, and_assoc]

/-- No ring pair decides whether another may be enabled. -/
theorem State.pairIs_mayEnable (h : s.pairIs t p n r) : t.mayEnable p n cfg ↔ s.mayEnable p n cfg := by
  rw [h.1]
  rfl

/-- A ring pair as an enable starts it (R379). -/
def Ring.started (r : Ring) (cfg : Nat) : Ring :=
  { r with
    cfg, enabled := true, refused := false, stopped := false, base := r.baseLo + 2 ^ 32 * r.baseHi, log2 := bits cfg 0 5
    head := 0, tail := 0, cqIdx := 0, phase := true, cqHead := 0 }

theorem enablePair_again (h : (s.ring p n).enabled = true) : s.enablePair p n cfg = s.setRing p n { s.ring p n with cfg } := by
  simp [State.enablePair, h]

theorem enablePair_starts (h : (s.ring p n).enabled = false) (hm : s.mayEnable p n cfg) :
    s.enablePair p n cfg = s.setRing p n ((s.ring p n).started cfg) := by
  simp only [State.enablePair, h, Bool.false_eq_true, if_false, State.mayEnable_iff.mp hm, if_true, Ring.started]

theorem enablePair_refuses (h : (s.ring p n).enabled = false) (hm : ¬s.mayEnable p n cfg) :
    s.enablePair p n cfg = s.setRing p n { s.ring p n with cfg, refused := true } := by
  simp only [State.enablePair, h, Bool.false_eq_true, if_false, mt State.mayEnable_iff.mpr hm]

/-- The state after the RESUME bit of a written configuration has acted (R386). -/
def State.resumedBy (s : State) (p n v : Nat) : State := if bit v 8 then s.doResume p n else s

theorem State.doResume_pairIs (s : State) (p : Nat) (hn : n < 64) :
    s.pairIs (s.doResume p n) p n { s.ring p n with stopped := false } := s.setRing_pairIs p hn _

theorem State.resumedBy_pairIs (s : State) (p v : Nat) (hn : n < 64) :
    s.pairIs (s.resumedBy p n v) p n { s.ring p n with stopped := (s.ring p n).stopped && !v.testBit 8 } := by
  unfold State.resumedBy bit
  split
  next h => simpa [h] using s.doResume_pairIs p hn
  next h => simpa [h] using s.pairIs_refl p n

theorem doRingEnable_pair (hn : n < 64) (h5 : v.testBit 5 = true) :
    s.doRingEnable (.vf p) n v = (s.resumedBy p n v).enablePair p n (v &&& cfgMask (.vf p) false) := by
  simp [State.doRingEnable, State.writeRingCfg, State.resumedBy, bit, hn, h5]

theorem doRingDisable_pair (hn : n < 64) (h5 : v.testBit 5 = false) :
    s.doRingDisable (.vf p) n v = (s.resumedBy p n v).disablePair p n (v &&& cfgMask (.vf p) false) := by
  simp [State.doRingDisable, State.writeRingCfg, State.resumedBy, bit, hn, h5]

/-- A ring pair as a disable leaves it, its pending entries discarded (R379). -/
def Ring.ended (r : Ring) (cfg : Nat) : Ring :=
  { r with cfg, enabled := false, head := if r.enabled then r.tail else r.head }

/-- A partition whose jobs of ring `n` are dropped or will complete unseen (R379). -/
def Part.discarding (q : Part) (n : Nat) : Part :=
  { q with
    next := q.next.filter (fun j => j.ring != n)
    job := q.job.map (fun j => if j.ring = n then { j with discard := true } else j) }

theorem disablePair_idle (h : (s.ring p n).enabled = false) : s.disablePair p n cfg = s.setRing p n ((s.ring p n).ended cfg) := by
  simp only [State.disablePair, h, Bool.not_false, if_true, Ring.ended]

theorem disablePair_enabled (h : (s.ring p n).enabled = true) :
    s.disablePair p n cfg = (s.setRing p n ((s.ring p n).ended cfg)).setPart p ((s.part p).discarding n) := by
  simp only [State.disablePair, h, Bool.not_true, Bool.false_eq_true, if_false, Ring.ended]
  rfl

/-- A disable leaves every ring pair but its own, and of its partition all but the jobs (R379). -/
theorem disablePair_spec (s : State) (p cfg : Nat) (hn : n < 64) :
    let t := s.disablePair p n cfg
    t = { s with hif := { s.hif with pairs := t.hif.pairs }, parts := t.parts } ∧
      (∀ q m, m < 64 → t.ring q m = if q = p ∧ m = n then (s.ring p n).ended cfg else s.ring q m) ∧
      ((s.ring p n).enabled = true → t.part p = (s.part p).discarding n) ∧
      ((s.ring p n).enabled = false → t.parts = s.parts) := by
  have hset := s.setRing_pairIs p hn ((s.ring p n).ended cfg)
  cases he : (s.ring p n).enabled with
  | false =>
    rw [disablePair_idle he]
    exact ⟨rfl, hset.2, nofun, fun _ => rfl⟩
  | true =>
    rw [disablePair_enabled he]
    exact ⟨rfl, hset.2, fun _ => State.part_setPart .., nofun⟩

/-- An enable acts on its own ring pair, after RESUME. -/
theorem doRingEnable_sets {x : Ring} (hn : n < 64) (h5 : v.testBit 5 = true) (h : (s.resumedBy p n v).enablePair p n
    (v &&& cfgMask (.vf p) false) = (s.resumedBy p n v).setRing p n x) : s.pairIs (s.doRingEnable (.vf p) n v) p n x := by
  rw [doRingEnable_pair hn h5, h]
  exact State.pairIs_trans (s.resumedBy_pairIs p v hn) (State.setRing_pairIs _ p hn x)

section
variable (hn : n < 64) (h5 : v.testBit 5 = true)
include hn h5

theorem doRingEnable_starts (he : (s.ring p n).enabled = false) (hm : s.mayEnable p n (v &&& cfgMask (.vf p) false)) :
    s.pairIs (s.doRingEnable (.vf p) n v) p n ((s.ring p n).started (v &&& cfgMask (.vf p) false)) := by
  have hresumed := s.resumedBy_pairIs p v hn
  have hring := State.pairIs_own hresumed hn
  refine doRingEnable_sets hn h5 ((enablePair_starts (by rw [hring]; exact he) ((State.pairIs_mayEnable hresumed).mpr hm)).trans ?_)
  rw [hring]
  rfl

theorem doRingEnable_refuses (he : (s.ring p n).enabled = false) (hm : ¬s.mayEnable p n (v &&& cfgMask (.vf p) false)) :
    s.pairIs (s.doRingEnable (.vf p) n v) p n { s.ring p n with
      cfg := v &&& cfgMask (.vf p) false, refused := true, stopped := (s.ring p n).stopped && !v.testBit 8 } := by
  have hresumed := s.resumedBy_pairIs p v hn
  have hring := State.pairIs_own hresumed hn
  refine doRingEnable_sets hn h5 ((enablePair_refuses (by rw [hring]; exact he) (mt (State.pairIs_mayEnable hresumed).mp hm)).trans ?_)
  rw [hring]

theorem doRingEnable_again (he : (s.ring p n).enabled = true) :
    s.pairIs (s.doRingEnable (.vf p) n v) p n { s.ring p n with
      cfg := v &&& cfgMask (.vf p) false, stopped := (s.ring p n).stopped && !v.testBit 8 } := by
  have hring := State.pairIs_own (s.resumedBy_pairIs p v hn) hn
  refine doRingEnable_sets hn h5 ((enablePair_again (by rw [hring]; exact he)).trans ?_)
  rw [hring]

end

/-- A disable by a write of the configuration: its ring pair and the jobs of that ring, after RESUME (R379, R386). -/
theorem doRingDisable_spec (s : State) (p : Nat) (hn : n < 64) (h5 : v.testBit 5 = false) :
    let t := s.doRingDisable (.vf p) n v
    let r := { s.ring p n with stopped := (s.ring p n).stopped && !v.testBit 8 }
    t = { s with hif := { s.hif with pairs := t.hif.pairs }, parts := t.parts } ∧
      (∀ q m, m < 64 → t.ring q m = if q = p ∧ m = n then r.ended (v &&& cfgMask (.vf p) false) else s.ring q m) ∧
      ((s.ring p n).enabled = true → t.part p = (s.part p).discarding n) ∧
      ((s.ring p n).enabled = false → t.parts = s.parts) := by
  intro t r
  have hresumed : s.pairIs (s.resumedBy p n v) p n r := s.resumedBy_pairIs p v hn
  have hring := State.pairIs_own hresumed hn
  have hparts : (s.resumedBy p n v).parts = s.parts := (congrArg State.parts hresumed.1 :)
  obtain ⟨hrest, hrings, hjobs, hkept⟩ := disablePair_spec (s.resumedBy p n v) p (v &&& cfgMask (.vf p) false) hn
  rw [← doRingDisable_pair hn h5] at hrest hrings hjobs hkept
  rw [hring] at hrings hjobs hkept
  rw [State.part_of_parts hparts] at hjobs
  refine ⟨hrest.trans (by rw [hresumed.1]), fun q m hm => (hrings q m hm).trans ?_, hjobs, fun he => (hkept he).trans hparts⟩
  rw [hresumed.2 q m hm]
  split <;> rfl

end

/-! ## Event rings enabled and disabled (R379, R387, R390) -/

section
variable {s : State} {fn : Fn} {n cfg v : Nat}

/-- Group 64, and every group of the physical function, is the event ring. -/
theorem writeRingCfg_events (h : fn = .pf ∨ 64 ≤ n) : s.writeRingCfg fn n v =
    if v.testBit 5 then s.enableEvents fn (v &&& cfgMask fn true) else s.disableEvents fn (v &&& cfgMask fn true) := by
  cases fn with
  | pf => rfl
  | vf p =>
    have hn : ¬n < 64 := by simpa using h
    simp only [State.writeRingCfg, decide_eq_false hn]
    rfl

/-- When an event ring may be enabled (R379). -/
def State.mayEnableEvents (s : State) (fn : Fn) (cfg : Nat) : Prop :=
  s.held = false ∧ s.hasSection fn = true ∧ 4 ≤ bits cfg 0 5 ∧ bits cfg 0 5 ≤ 16

theorem State.mayEnableEvents_iff : s.mayEnableEvents fn cfg ↔ (!s.held && s.hasSection fn && log2Ok cfg) = true := by
  simp [State.mayEnableEvents, log2Ok, and_assoc]

/-- An event ring as an enable starts it (R379). -/
def EvtRing.started (r : EvtRing) (cfg : Nat) : EvtRing :=
  { EvtRing.reset with
    baseLo := r.baseLo, baseHi := r.baseHi, cfg, enabled := true, base := r.baseLo + 2 ^ 32 * r.baseHi, log2 := bits cfg 0 5 }

theorem enableEvents_again (h : (s.evt fn).enabled = true) : s.enableEvents fn cfg = s.setEvt fn { s.evt fn with cfg } := by
  simp [State.enableEvents, h]

theorem enableEvents_refuses (h : (s.evt fn).enabled = false) (hm : ¬s.mayEnableEvents fn cfg) :
    s.enableEvents fn cfg = s.setEvt fn { s.evt fn with cfg, refused := true } := by
  simp only [State.enableEvents, h, Bool.false_eq_true, if_false, mt State.mayEnableEvents_iff.mpr hm]

/-- Without a recorded trip an enable starts the ring and posts nothing in it (R387, R430). -/
theorem enableEvents_starts (h : (s.evt fn).enabled = false) (hm : s.mayEnableEvents fn cfg) (htrip : fn ≠ .pf ∨ s.chip.trip = none) :
    s.enableEvents fn cfg = s.setEvt fn ((s.evt fn).started cfg) := by
  simp only [State.enableEvents, h, Bool.false_eq_true, if_false, State.mayEnableEvents_iff.mp hm, if_true, EvtRing.started]
  split
  next hpf =>
    have hnone : s.chip.trip = none := htrip.resolve_left (· hpf)
    simp [State.reportTrip, hnone]
  next => rfl

end

/-! ## The interval of an event vector (R387) -/

section
variable {s : State} {fn : Fn}

theorem doIrqInterval_signals (hi : (s.evt fn).interval = true) (hd : (s.evt fn).irqDue = true) (he : (s.evt fn).enabled = true)
    (hheld : s.held = false) : s.doIrqInterval fn =
      (s.setEvt fn { s.evt fn with irqDue := false }).emit (.msix fn (bits (s.evt fn).cfg 16 9)) := by
  simp [State.doIrqInterval, hi, hd, he, hheld]

theorem doIrqInterval_ends (hi : (s.evt fn).interval = true)
    (h : (s.evt fn).irqDue = false ∨ (s.evt fn).enabled = false ∨ s.held = true) :
    s.doIrqInterval fn = s.setEvt fn { s.evt fn with interval := false, irqDue := false } := by
  have hquiet : ((s.evt fn).irqDue && (s.evt fn).enabled && !s.held) = false := by rcases h with h | h | h <;> simp [h]
  simp [State.doIrqInterval, hi, hquiet]

end

/-- Settles O25: each register write is one ring replaced, a disable with the partition's jobs, after RESUME has acted. -/
theorem ringRegisters : Obligations.RingRegisters := by
  intro s hon pairIs evtIs may
  refine ⟨fun hp => ⟨fun p n v hn h5 => ⟨fun he hm => ?_, fun he hm => ?_, fun he => ?_⟩, fun p n v hn h5 => ?_,
      fun fn n v hfn h5 => ?_, fun fn n v hfn h5 => ?_, fun p n hn => ?_⟩,
    fun fn => ⟨fun hi => ?_, fun hi hd he hheld => ?_, fun hi h => ?_⟩⟩
  · exact ⟨_, overLink_next _ hon hp, doRingEnable_starts hn h5 he hm⟩
  · exact ⟨_, overLink_next _ hon hp, doRingEnable_refuses hn h5 he hm⟩
  · exact ⟨_, overLink_next _ hon hp, doRingEnable_again hn h5 he⟩
  · obtain ⟨hrest, hrings, hjobs, hkept⟩ := doRingDisable_spec s p hn h5
    have hown := hrings p n hn
    rw [if_pos ⟨rfl, rfl⟩] at hown
    refine ⟨_, overLink_next _ hon hp, hrest, fun q m hm hne => (hrings q m hm).trans (if_neg hne), by rw [hown, Ring.ended],
      by rw [hown, Ring.ended], fun he => ⟨?_, ?_, ?_⟩, hkept⟩
    · rw [hown]
      exact if_pos he
    · rw [hjobs he, Part.discarding]
    · rw [hjobs he, Part.discarding]
  · intro r cfg ok
    have hrun : exec (.ringEnable fn n v) s = .next (s.enableEvents fn cfg) :=
      (overLink_next _ hon hp).trans (congrArg _ (by simp only [State.doRingEnable, writeRingCfg_events hfn, bit, h5, if_true, cfg]))
    refine ⟨fun he hok ht => ⟨_, hrun, ?_⟩, fun he hok => ⟨_, hrun, ?_⟩, fun he => ⟨_, hrun, ?_⟩⟩
    · rw [enableEvents_starts he hok ht]
      exact s.setEvt_evtIs fn _
    · rw [enableEvents_refuses he hok]
      exact s.setEvt_evtIs fn _
    · rw [enableEvents_again he]
      exact s.setEvt_evtIs fn _
  · refine ⟨_, (overLink_next _ hon hp).trans (congrArg _ ?_), s.setEvt_evtIs fn _⟩
    simp only [State.doRingDisable, writeRingCfg_events hfn, bit, h5, Bool.false_eq_true, if_false]
    rfl
  · exact ⟨_, overLink_next _ hon hp, s.doResume_pairIs p hn⟩
  · exact (whenOn_next _ hon).trans (by simp [State.doIrqInterval, hi])
  · exact ⟨_, _, (whenOn_next _ hon).trans (congrArg _ (doIrqInterval_signals hi hd he hheld)), s.setEvt_evtIs fn _, rfl⟩
  · exact ⟨_, (whenOn_next _ hon).trans (congrArg _ (doIrqInterval_ends hi h)), s.setEvt_evtIs fn _⟩

end Sys2Proof.Machine
end

