-- ==== Sys2Proof/Proofs/JobEntries.lean ====
section
/-! SUPPORT. How submission entries are taken: a job that is selected, a no-operation that completes, and a host-memory error that
stops the ring (R365, R380, R382, R383, R385, R386). -/

namespace Sys2Proof.Machine

open Sys2Proof.Safety

/-! ## What taking an entry does -/

/-- A host-memory error stops its ring, whose entry stays pending, and posts an event (R386). -/
theorem State.ringFault_spec (s : State) (p : Nat) {n : Nat} (hn : n < 64) :
    let u := s.ringFault p n
    u = { s with hif := { s.hif with pairs := u.hif.pairs, evts := u.hif.evts }, out := u.out } ∧
      ∀ q m, m < 64 → u.ring q m = if q = p ∧ m = n then { s.ring p n with stopped := true } else s.ring q m := by
  let w := s.modRing p n (fun r => { r with stopped := true })
  have hposted : s.ringFault p n = { w with hif := { w.hif with evts := (s.ringFault p n).hif.evts }, out := (s.ringFault p n).out } :=
    State.postEvent_posted ..
  refine ⟨?_, fun q m hm => ?_⟩ <;> rw [hposted]
  · rfl
  · exact s.modRing_ring (p := p) q (fun r => { r with stopped := true }) hn hm

/-- The state in which the next entry of ring `n` has left it and `j` is the selected job (R382). -/
def State.jobSelected (s : State) (p n : Nat) (j : Job) : State :=
  ((s.turned p n).setRing p n (s.ring p n).take).setPart p { s.part p with next := some j }

theorem State.takeJob_eq (s : State) (p n : Nat) (e : Bytes) (cs : List CopyEntry) (early : Option (Nat × Nat)) :
    s.takeJob p n e cs early = (s.jobSelected p n (newJob n (s.ring p n).take.head e cs early).dropBad).promote p := rfl

/-- A job without a copy list has no malformed entry to drop. -/
theorem newJob_dropBad_nil (n sqHead : Nat) (e : Bytes) (early : Option (Nat × Nat)) :
    (newJob n sqHead e [] early).dropBad = newJob n sqHead e [] early := rfl

theorem State.jobSelected_spec (s : State) (p : Nat) {n : Nat} (j : Job) (hn : n < 64) :
    let u := s.jobSelected p n j
    u = { s with hif := { s.hif with pairs := u.hif.pairs, turn := u.hif.turn }, parts := u.parts } ∧
      (∀ q m, m < 64 → u.ring q m = if q = p ∧ m = n then (s.ring p n).take else s.ring q m) ∧
      ∀ q, u.part q = if q = p then { s.part p with next := some j } else s.part q :=
  ⟨rfl, fun q m hm => State.ring_setRing _ p n q m _ hn hm, fun q => State.part_setPart_if _ p q _⟩

/-! ## JOB_START -/

section
variable {s : State} {p n : Nat} {e : Bytes} {copies : HostRead}

theorem doJobStart_selected {j : Job} {entry : HostRead} (hj : (s.part p).next = some j) : s.doJobStart p entry copies = s.promote p := by
  simp [State.doJobStart, hj]

section
variable (hm : s.jobsMayStart p = true) (hfree : (s.part p).next = none) (hsel : s.selectRing p = some n)
include hm hfree hsel

theorem doJobStart_valid {cs : List CopyEntry} (hok : subBad e = false) (hjob : u8 e 0 = 1) (hcs : copiesRead e copies = some cs) :
    s.doJobStart p (some e) copies = (s.jobSelected p n (newJob n (s.ring p n).take.head e cs none).dropBad).promote p := by
  simp [State.doJobStart, hm, hfree, hsel, hok, hjob, hcs, State.takeJob_eq]

/-- Which entries are invalid is `subBad`'s matter: a copy field out of range or a misaligned list is one (log 25). -/
theorem doJobStart_invalid (hbad : subBad e = true) :
    s.doJobStart p (some e) copies =
      (s.jobSelected p n (newJob n (s.ring p n).take.head e [] (some (Code.badSub, 0)))).promote p := by
  simp [State.doJobStart, hm, hfree, hsel, hbad, State.takeJob_eq, newJob_dropBad_nil]

theorem doJobStart_unreadable {entry : HostRead}
    (h : entry = none ∨ ∃ e, entry = some e ∧ subBad e = false ∧ u8 e 0 = 1 ∧ copiesRead e copies = none) :
    s.doJobStart p entry copies = s.ringFault p n := by
  rcases h with rfl | ⟨e, rfl, hok, hjob, hcs⟩
  · simp [State.doJobStart, hm, hfree, hsel]
  · simp [State.doJobStart, hm, hfree, hsel, hok, hjob, hcs]

theorem doHostTimeout_copyList : s.doHostTimeout (.copyList p) = s.ringFault p n := by
  simp [State.doHostTimeout, hm, hfree, hsel]

end

theorem doHostTimeout_submission (hm : s.jobsMayStart p = true) (hfree : (s.part p).next = none) (hdue : (s.ring p n).due = true) :
    s.doHostTimeout (.submission p n) = s.ringFault p n := by
  simp [State.doHostTimeout, hm, hfree, hdue]

/-! ## NO_OPERATION_ENTRY -/

/-- The completion of a no-operation entry (R380, R384). -/
def State.noOperationDone (s : State) (p n : Nat) (e : Bytes) : State :=
  (s.setRing p n (s.ring p n).take).putEntry p n ((u8 e 1).testBit 0)
    (fun ph => complEntry Code.ok (u16 e 2) (s.ring p n).take.head n ph 0 0xFFFF 0 0 0 s.ft)

theorem noOperationDone_spec (s : State) (p : Nat) (e : Bytes) (hn : n < 64) :
    let r := s.ring p n
    let u := s.noOperationDone p n e
    u = { s with hif := { s.hif with pairs := u.hif.pairs }, out := u.out } ∧
      (∀ q m, m < 64 → u.ring q m = if q = p ∧ m = n then { r.take with
        cqIdx := (r.cqIdx + 1) % r.size, phase := if (r.cqIdx + 1) % r.size = 0 then !r.phase else r.phase } else s.ring q m) ∧
      u.out = s.out ++ .hostWrite (.vf p) (r.base + 64 * r.size + 32 * r.cqIdx)
        (complEntry Code.ok (u16 e 2) r.take.head n (b2n r.phase) 0 0xFFFF 0 0 0 s.ft) ::
          if (u8 e 1).testBit 0 then [.msix (.vf p) r.vector] else [] := by
  intro r u
  have htaken := s.setRing_pairIs p hn r.take
  obtain ⟨hrest, hrings, hout⟩ := State.putEntry_spec (s.setRing p n r.take) p n ((u8 e 1).testBit 0)
    (fun ph => complEntry Code.ok (u16 e 2) r.take.head n ph 0 0xFFFF 0 0 0 s.ft) hn
  rw [State.pairIs_own htaken hn] at hrings hout
  refine ⟨hrest, fun q m hm => (hrings q m hm).trans ?_, hout⟩
  rw [htaken.2 q m hm]
  split <;> rfl

section
variable (hm : s.jobsMayStart p = true) (hdue : (s.ring p n).due = true) (hroom : s.complRoom p n = true) (hfirst : s.taken p n = 0)
include hm hdue hroom hfirst

theorem doNoOperation_unreadable : s.doNoOperation p n none = s.ringFault p n := by
  simp [State.doNoOperation, hm, hdue, hroom, hfirst]

theorem doNoOperation_completes (hn : n < 64) (hok : subBad e = false) (hnop : u8 e 0 = 2) :
    s.doNoOperation p n (some e) = s.noOperationDone p n e := by
  simp [State.doNoOperation, hm, hdue, hroom, hfirst, hok, hnop, State.noOperationDone, bit,
    State.pairIs_own (s.setRing_pairIs p hn (s.ring p n).take) hn]

end

end

/-- Settles O26: an entry becomes the selected job, faults its ring, or completes as a no-operation. -/
theorem jobEntries : Obligations.JobEntries := by
  intro s p n hheld hn r ringIs faulted selected
  have hfault : faulted (s.ringFault p n) := s.ringFault_spec p hn
  have hselected : ∀ j, selected (s.jobSelected p n j) j := fun j => s.jobSelected_spec p j hn
  refine ⟨fun hm hfree hsel => ⟨fun e copies hok hjob cs hcs => ?_, fun e copies hbad => ?_, fun entry copies h => ?_, ?_⟩,
    fun hm hfree hdue => ?_, fun j hj entry copies => ?_, fun hm hdue hroom hfirst => ⟨?_, fun e hok hnop => ?_⟩⟩
  · exact ⟨_, reporting_next hheld (doJobStart_valid hm hfree hsel hok hjob hcs), hselected _⟩
  · exact ⟨_, reporting_next hheld (doJobStart_invalid hm hfree hsel hbad), hselected _⟩
  · exact ⟨_, reporting_next hheld (doJobStart_unreadable hm hfree hsel h), hfault⟩
  · exact ⟨_, reporting_next hheld (doHostTimeout_copyList hm hfree hsel), hfault⟩
  · exact ⟨_, reporting_next hheld (doHostTimeout_submission hm hfree hdue), hfault⟩
  · exact reporting_next hheld (doJobStart_selected hj)
  · exact ⟨_, (engine_next hheld).trans (congrArg _ (doNoOperation_unreadable hm hdue hroom hfirst)), hfault⟩
  · exact ⟨_, (engine_next hheld).trans (congrArg _ (doNoOperation_completes hm hdue hroom hfirst hn hok hnop)),
      noOperationDone_spec s p e hn⟩

end Sys2Proof.Machine
end

