-- ==== Sys2Proof/Proofs/SetupDecision.lean ====
section
/-! SUPPORT. A committed set-up table and what its acceptance or rejection does (R331, R372 to R377). -/

namespace Sys2Proof.Machine

open Sys2Proof.Safety

section
variable {s : State} {b : Bytes} {n : Nat}

/-- The CRC is checked before everything else (R375). -/
theorem State.verdict_badCrc (s : State) (h : u32 b 320 ≠ crc32c (b.take 320)) : s.verdict b = some (1, 7, 320) := by
  simp [State.verdict, rejectForm, h]

/-! ## The end of validation -/

theorem doSetupValidation_early (h : s.hif.busy = false ∨ s.bringing = true) : s.doSetupValidation = s := by
  simp only [State.doSetupValidation]
  exact if_pos (by simpa using h)

section
variable (hbusy : s.hif.busy = true) (hbring : s.bringing = false) (hcopy : s.hif.copy = some b)
include hbusy hbring hcopy

theorem doSetupValidation_rejects {r : Reject} (h : s.verdict b = some r) : s.doSetupValidation = s.rejectTable r := by
  simp [State.doSetupValidation, hbusy, hbring, hcopy, h]

theorem doSetupValidation_accepts (h : s.verdict b = none) (hn : layoutOf (u8 b 8) = some n) :
    s.doSetupValidation = s.acceptTable b n := by
  simp [State.doSetupValidation, hbusy, hbring, hcopy, h, hn]

end

/-! ## Rejection (R372, R377) -/

theorem rejectTable_first {r : Reject} (h : s.setup = none) : s.rejectTable r = s.showResult r := by
  simp [State.rejectTable, h]

/-- A rejection shows its reason and, while a table is in force, posts an event. -/
theorem rejectTable_posted (s : State) (r : Reject) : posted (s.showResult r) (s.rejectTable r) := by
  simp only [State.rejectTable]
  split
  · rfl
  · exact State.postEvent_posted ..

/-! ## Acceptance (R331, R376) -/

/-- The state in which a table is in force and its layout fixed, before its exchange tables are taken. -/
def State.tableInForce (s : State) (b : Bytes) (n : Nat) : State :=
  let s1 := s.formed b n
  ({ s1 with
    setup := some b, hif := { s1.hif with fixed := s1.hif.fixed.or (some (n, (List.range 4).map (secReserve b))) } } : State).showResult
    (0, 0, 0)

theorem acceptTable_eq (s : State) (b : Bytes) (n : Nat) :
    s.acceptTable b n = (((s.tableInForce b n).takeExTables b n).settlePorts).chooseParent := rfl

theorem acceptTable_parts (s : State) (b : Bytes) (n : Nat) :
    (s.acceptTable b n).parts = ((s.tableInForce b n).takeExTables b n).parts := by
  simp [acceptTable_eq]

/-- Each partition of the layout exchanges under a table exactly where its section asks for it (R331). -/
theorem acceptTable_exch (s : State) (b : Bytes) {n p : Nat} (hp : p < n) :
    ((s.acceptTable b n).exch p).tbl.isSome = true ↔ secExch b p = true := by
  rw [State.exch, State.part_of_parts (acceptTable_parts s b n)]
  exact (State.takeExTables_fold b (List.range n) (s.tableInForce b n)).1 p (List.mem_range.mpr hp)

theorem acceptTable_hif (s : State) (b : Bytes) (n : Nat) : (s.acceptTable b n).hif = { s.hif with
    busy := false, valid := true, reason := 0, sect := 0, detail := 0, evts := (s.acceptTable b n).hif.evts
    fixed := s.hif.fixed.or (some (n, (List.range 4).map (secReserve b))) } := by
  have hformed : (s.formed b n).hif = { s.hif with evts := (s.formed b n).hif.evts } := Hif.of_quiet (State.formed_quiet s b n)
  have hquiet : (s.acceptTable b n).hif.quiet = (s.tableInForce b n).hif.quiet := by simp [acceptTable_eq]
  rw [Hif.of_quiet hquiet, State.tableInForce]
  dsimp only [State.showResult, State.modHif]
  rw [hformed]

theorem acceptTable_setup (s : State) (b : Bytes) (n : Nat) : (s.acceptTable b n).setup = some b := by
  simp [acceptTable_eq, State.tableInForce]

theorem acceptTable_layout (s : State) (b : Bytes) (n : Nat) : (s.acceptTable b n).layout = (s.formed b n).layout := by
  simp [acceptTable_eq, State.tableInForce]

theorem formed_first (h : s.hif.fixed = none) : s.formed b n = s.formParts n ((List.range 4).map (secReserve b)) := by
  simp [State.formed, h]

theorem formed_again (h : s.hif.fixed ≠ none) : s.formed b n = s := by
  simp [State.formed, Option.isSome_iff_ne_none, h]

/-- Once the layout is fixed, an accepted table leaves every partition's memory (R376). -/
theorem acceptTable_hbm (h : s.hif.fixed ≠ none) (p : Nat) : ((s.acceptTable b n).part p).hbm = (s.part p).hbm := by
  rw [State.part_of_parts (acceptTable_parts s b n), State.takeExTables,
    (State.takeExTables_fold b (List.range n) (s.tableInForce b n)).2 p, State.tableInForce, formed_again h]
  rfl

end

/-- Settles O28: the verdict decides between `rejectTable` and `acceptTable`, whose effects are their lemmas. -/
theorem setupDecision : Obligations.SetupDecision := by
  intro s hon
  have validates {t : State} (h : s.doSetupValidation = t) : exec .setupValidation s = .next t.reportSensors := by
    rw [← h, ← State.whenOn_on State.doSetupValidation hon]
    rfl
  refine ⟨fun hp => ⟨fun hb => ?_, fun hb => ?_⟩, fun h => validates (doSetupValidation_early h), fun b h => s.verdict_badCrc h,
    fun b hbusy hbring hcopy => ⟨fun r hr => ?_, fun n hv hn => ?_⟩⟩
  · exact (overLink_next _ hon hp).trans (by simp [State.doSetupCommit, hb])
  · exact (overLink_next _ hon hp).trans (by simp [State.doSetupCommit, State.modHif, hb])
  · refine ⟨_, validates (doSetupValidation_rejects hbusy hbring hcopy hr), rejectTable_posted s r, fun hset => ?_⟩
    rw [rejectTable_first hset]
    exact ⟨rfl, rfl⟩
  · obtain ⟨-, -, -, -, hcls, -, -, hlmap, hcores, -, -, -, hchip, hgov, hmmc⟩ := State.acceptTable_frame s b n
    refine ⟨_, validates (doSetupValidation_accepts hbusy hbring hcopy hv hn), acceptTable_setup s b n, hcores, hchip, hlmap, hcls,
      hgov, hmmc, acceptTable_hif s b n, fun hfirst => ?_, fun hfixed => ⟨?_, acceptTable_hbm hfixed⟩,
      fun p hp => acceptTable_exch s b hp⟩
    · rw [acceptTable_layout, formed_first hfirst, State.formParts_layout]
    · rw [acceptTable_layout, formed_again hfixed]

end Sys2Proof.Machine
end

