-- ==== Sys2Proof/Proofs/IdentityKey.lean ====
section
/-! SUPPORT. What becomes of the identity key's leaves: which operations leave them alone, and which use leaves, give up the reserved
block or go on to the next epoch (R411, R448, R452 to R454). -/

namespace Sys2Proof.Machine

open Sys2Proof.Safety

/-- Where the identity key stands: the epoch in force, the flash record, and the reserved block from its next leaf to its end. -/
structure Leaves where
  epoch  : Nat
  record : Nat
  first  : Nat
  last   : Nat

/-- Where the identity key stands in a state of the management controller. -/
def Mmc.leaves (m : Mmc) : Leaves := ⟨m.epoch, m.leafNext, m.leafAt, m.leafEnd⟩

@[simp] theorem Mmc.ite_leaves (p : Prop) [Decidable p] (m n : Mmc) :
    (if p then m else n).leaves = if p then m.leaves else n.leaves := apply_ite _ _ _ _

@[simp] theorem Mmc.foldl_leaves {ι : Type} (u : Mmc → ι → Mmc) (l : List ι) (m : Mmc)
    (h : ∀ a i, (u a i).leaves = a.leaves) : (l.foldl u m).leaves = m.leaves := foldl_keeps Mmc.leaves u h l m

@[simp] theorem State.foldl_leaves {ι : Type} (u : State → ι → State) (l : List ι) (s : State)
    (h : ∀ a i, (u a i).mmc.leaves = a.mmc.leaves) : (l.foldl u s).mmc.leaves = s.mmc.leaves :=
  foldl_keeps (·.mmc.leaves) u h l s

@[simp] theorem State.serve_leaves (s : State) (b : Binding) (inRecovery : Bool) (u : State → State)
    (h : ∀ s, (u s).mmc.leaves = s.mmc.leaves) : (s.serve b inRecovery u).mmc.leaves = s.mmc.leaves := by
  unfold State.serve
  split <;> simp [h]

@[simp] theorem State.spdmStep_leaves (s : State) (b : Binding) (least : Nat) (u : State → State)
    (h : ∀ s, (u s).mmc.leaves = s.mmc.leaves) : (s.spdmStep b least u).mmc.leaves = s.mmc.leaves := by
  refine State.serve_leaves _ _ _ _ fun s => ?_
  split <;> simp [h]

/-! ## Operations that leave the key alone -/

@[simp] theorem Mmc.setSlot_leaves (m : Mmc) (c : Nat) (inUse : Bool) (x : FwSlot) : (m.setSlot c inUse x).leaves = m.leaves := (rfl)
@[simp] theorem Mmc.pend_leaves (m : Mmc) (l : List Bool) : ({ m with pend := l } : Mmc).leaves = m.leaves := (rfl)
@[simp] theorem Mmc.flip_leaves (m : Mmc) (c : Nat) : (m.flip c).leaves = m.leaves := (rfl)
@[simp] theorem Mmc.proved_leaves (m : Mmc) (c : Nat) : (m.proved c).leaves = m.leaves := (rfl)
@[simp] theorem Mmc.loadCore_leaves (m : Mmc) (p : Nat) : (m.loadCore p).leaves = m.leaves := (rfl)
@[simp] theorem Mmc.settleUpdate_leaves (m : Mmc) : m.settleUpdate.leaves = m.leaves := by
  unfold Mmc.settleUpdate
  split <;> rfl

@[simp] theorem State.sendSensor_leaves (s : State) (e : SensorEvt) : (s.sendSensor e).mmc.leaves = s.mmc.leaves := by
  unfold State.sendSensor
  (repeat' split) <;> rfl

@[simp] theorem State.reportSensor_leaves (s : State) (i : Nat) : (s.reportSensor i).mmc.leaves = s.mmc.leaves := by
  unfold State.reportSensor
  dsimp only
  split
  · rfl
  · split
    · rfl
    · exact State.sendSensor_leaves _ _

@[simp] theorem State.reportSensors_leaves (s : State) : s.reportSensors.mmc.leaves = s.mmc.leaves :=
  State.foldl_leaves _ _ _ State.reportSensor_leaves

@[simp] theorem State.doSetEndpointId_leaves (s : State) (b : Binding) (eid : Nat) :
    (s.doSetEndpointId b eid).mmc.leaves = s.mmc.leaves := State.serve_leaves _ _ _ _ fun _ => rfl

@[simp] theorem State.doSetTid_leaves (s : State) (b : Binding) (tid : Nat) : (s.doSetTid b tid).mmc.leaves = s.mmc.leaves :=
  State.serve_leaves _ _ _ _ fun s => by split <;> rfl

@[simp] theorem State.doSensorEnable_leaves (s : State) (b : Binding) (i op : Nat) :
    (s.doSensorEnable b i op).mmc.leaves = s.mmc.leaves := State.serve_leaves _ _ _ _ fun s => by split <;> rfl

@[simp] theorem State.doSetReceiver_leaves (s : State) (b : Binding) (eid : Nat) :
    (s.doSetReceiver b eid).mmc.leaves = s.mmc.leaves := State.serve_leaves _ _ _ _ fun _ => rfl

@[simp] theorem State.doRequestUpdate_leaves (s : State) (b : Binding) (n : Nat) :
    (s.doRequestUpdate b n).mmc.leaves = s.mmc.leaves := State.serve_leaves _ _ _ _ fun s => by split <;> rfl

@[simp] theorem State.doPassComponent_leaves (s : State) (b : Binding) (c : Nat) :
    (s.doPassComponent b c).mmc.leaves = s.mmc.leaves := State.serve_leaves _ _ _ _ fun s => by (repeat' split) <;> rfl

@[simp] theorem State.doUpdateComponent_leaves (s : State) (b : Binding) (c : Nat) (img : Bytes) :
    (s.doUpdateComponent b c img).mmc.leaves = s.mmc.leaves := by
  refine State.serve_leaves _ _ _ _ fun s => ?_
  dsimp only
  split
  · rfl
  · split
    · rfl
    · have hput (s1 : State) : (s1.modMmc fun m =>
          let m1 := if s.chip.recovery then { m with active := setAt m.active 0 true } else m
          { m1.putImage (c - 1) img (s.imageVerdict c img).isNone with
            update := if (s.imageVerdict c img).isNone then 2 else m.update, active := m1.active }).mmc.leaves = s1.mmc.leaves := by
        dsimp only [State.modMmc]
        split <;> rfl
      split
      · simp only [State.turnDown_frame]
        exact hput _
      · exact hput _

@[simp] theorem State.doCancelUpdate_leaves (s : State) (b : Binding) : (s.doCancelUpdate b).mmc.leaves = s.mmc.leaves := by
  refine State.serve_leaves _ _ _ _ fun s => ?_
  split
  · rfl
  · exact Mmc.foldl_leaves _ _ _ fun _ _ => rfl

@[simp] theorem State.doMmcRestart_leaves (s : State) (ok : Bool) : (s.doMmcRestart ok).mmc.leaves = s.mmc.leaves := by
  unfold State.doMmcRestart
  dsimp only
  split
  · rfl
  · split
    · rfl
    · simp only [State.postEvent_frame]
      exact (rfl : _ = (s.turnDown _).mmc.leaves).trans (by simp)

@[simp] theorem State.doBroadcast_leaves (s : State) (img : Bytes) : (s.doBroadcast img).mmc.leaves = s.mmc.leaves := by
  unfold State.doBroadcast
  split
  · rfl
  · split
    · simp
    · rfl

@[simp] theorem State.doGetVersion_leaves (s : State) (b : Binding) : (s.doGetVersion b).mmc.leaves = s.mmc.leaves :=
  State.spdmStep_leaves _ _ _ _ fun _ => rfl

@[simp] theorem State.doGetCapabilities_leaves (s : State) (b : Binding) : (s.doGetCapabilities b).mmc.leaves = s.mmc.leaves :=
  State.spdmStep_leaves _ _ _ _ fun _ => rfl

@[simp] theorem State.doNegotiate_leaves (s : State) (b : Binding) (offersLms : Bool) :
    (s.doNegotiate b offersLms).mmc.leaves = s.mmc.leaves := State.spdmStep_leaves _ _ _ _ fun s => by split <;> rfl

@[simp] theorem State.activateCore_leaves (s : State) (p : Nat) : (s.activateCore p).mmc.leaves = s.mmc.leaves := by
  have hpend : ({ s.mmc.flip 1 with coreOld := maskOf 4 fun i => decide (i < s.layout), pend := s.mmc.pend } : Mmc).leaves =
    s.mmc.leaves := rfl
  simp [State.activateCore, hpend]

@[simp] theorem State.doPartResetDone_leaves (s : State) (p : Nat) (x : Findings) :
    (s.doPartResetDone p x).mmc.leaves = s.mmc.leaves := by
  unfold State.doPartResetDone
  split <;> simp

@[simp] theorem State.bootMmc_leaves (s : State) (a b : Bool) : (s.bootMmc a b).1.mmc.leaves = s.mmc.leaves := by
  simp only [State.bootMmc, State.ite_fst, State.ite_mmc, Mmc.ite_leaves, State.postEvent_frame, State.turnDown_frame]
  (repeat' split) <;> rfl

@[simp] theorem State.assign_leaves (s : State) (deep : Bool) : (s.assign deep).mmc.leaves = s.mmc.leaves := by
  have hboot : (s.assign deep).mmc.leaves = ((s.numberDies [0, 1, 2, 3]).setCapacity []).loadRevs.mmc.leaves := rfl
  simp [hboot]

@[simp] theorem State.bringSteps_leaves (s : State) (x : Findings) (deep : Bool) :
    (s.bringSteps x deep).mmc.leaves = s.mmc.leaves := by
  unfold State.bringSteps
  dsimp only
  (repeat' split) <;> simp

@[simp] theorem State.doBringup_leaves (s : State) (x : Findings) : (s.doBringup x).mmc.leaves = s.mmc.leaves := by
  unfold State.doBringup
  dsimp only
  (repeat' split) <;> simp

/-! ## What only moves on -/

/-- The reserved block lies below the flash record, which is a whole number of blocks within one of the sixteen epochs. -/
def Leaves.Kept (l : Leaves) : Prop :=
  l.first ≤ l.last ∧ l.last ≤ l.record ∧ l.record ≤ 32768 ∧ l.record % 256 = 0 ∧ l.epoch ≤ 15

/-- The next leaf, counted over the epochs. -/
def Leaves.next (l : Leaves) : Nat := 32768 * l.epoch + if l.first < l.last then l.first else l.record

theorem Mmc.leaves_next (m : Mmc) :
    m.leaves.next = 32768 * m.epoch + if m.leafAt < m.leafEnd then m.leafAt else m.leafNext := rfl

/-- From `l` the key has come to `k`: if its leaves were in order they still are, and no leaf comes twice. -/
structure Leaves.MovesOn (l k : Leaves) : Prop where
  kept : l.Kept → k.Kept
  next_le : l.Kept → l.next ≤ k.next

theorem Leaves.MovesOn.refl (l : Leaves) : l.MovesOn l := ⟨id, fun _ => le_rfl⟩

theorem Leaves.MovesOn.of_eq {l k : Leaves} (h : k = l) : l.MovesOn k := h ▸ .refl _

theorem Leaves.MovesOn.trans {l k j : Leaves} (h : l.MovesOn k) (h2 : k.MovesOn j) : l.MovesOn j :=
  ⟨fun hl => h2.kept (h.kept hl), fun hl => (h.next_le hl).trans (h2.next_le (h.kept hl))⟩

/-! ## The reserved block given up (R411, R448, R453) -/

/-- The flash record alone is left: what remains of the reserved block is not used. -/
def Leaves.dropBlock (l : Leaves) : Leaves := { l with first := 0, last := 0 }

theorem Leaves.movesOn_dropBlock (l : Leaves) : l.MovesOn l.dropBlock where
  kept := fun ⟨_, _, hrec, hwhole, hep⟩ => ⟨le_rfl, Nat.zero_le _, hrec, hwhole, hep⟩
  next_le := fun ⟨_, hbelow, _, _, _⟩ => by
    simp only [Leaves.next, Leaves.dropBlock, lt_irrefl, if_false]
    split <;> omega

theorem Mmc.rebooted_leaves (m : Mmc) : m.rebooted.leaves = m.leaves.dropBlock := by
  have hflips (a : Mmc) : ((List.range 3).foldl
      (fun acc c => if acc.pend.getD c false ∧ !(c = 1 ∧ acc.coreOld ≠ 0) then acc.flip c else acc) a).leaves = a.leaves :=
    Mmc.foldl_leaves _ _ _ fun a c => by split <;> rfl
  have hslots (l : List Nat) : (l.foldl (fun acc c => acc.setSlot c false { acc.slotOf c false with valid := false }) m).leaves =
      m.leaves := Mmc.foldl_leaves _ _ _ fun _ _ => rfl
  exact congrArg Leaves.dropBlock ((hflips _).trans (hslots _))

/-- A full reset starts from what flash holds (R411, R453). -/
@[simp] theorem State.fullReset_leaves (s : State) (cause : Nat) (powerUp : Bool) :
    (s.fullReset cause powerUp).mmc.leaves = s.mmc.leaves.dropBlock := by
  refine (Mmc.rebooted_leaves _).trans (congrArg Leaves.dropBlock ?_)
  split <;> simp

@[simp] theorem State.powerUp_leaves (s : State) : s.powerUp.mmc.leaves = s.mmc.leaves.dropBlock := by simp [State.powerUp]

section
open Leaves
variable (s : State)

theorem State.requestFullReset_movesOn (cause : Nat) : s.mmc.leaves.MovesOn (s.requestFullReset cause).mmc.leaves := by
  unfold State.requestFullReset
  split
  · exact .refl _
  · simpa using movesOn_dropBlock _

theorem State.doPwrRise_movesOn (b : Bool) : s.mmc.leaves.MovesOn (s.doPwrRise b).mmc.leaves := by
  unfold State.doPwrRise
  split
  · exact .refl _
  · split
    · simpa using movesOn_dropBlock _
    · exact .refl _

theorem State.doLowTimeElapsed_movesOn : s.mmc.leaves.MovesOn s.doLowTimeElapsed.mmc.leaves := by
  unfold State.doLowTimeElapsed
  split
  · simpa using movesOn_dropBlock _
  · exact .refl _

theorem State.doPwrFall_movesOn : s.mmc.leaves.MovesOn s.doPwrFall.mmc.leaves := by
  unfold State.doPwrFall
  split
  · exact .refl _
  · simpa using movesOn_dropBlock _

theorem State.doPerstAssert_movesOn : s.mmc.leaves.MovesOn s.doPerstAssert.mmc.leaves := by
  unfold State.doPerstAssert
  split
  · exact .refl _
  · simpa using ((s.modChip _).modChip _).requestFullReset_movesOn 1

theorem State.writeBootCtrl_movesOn (v : Nat) : s.mmc.leaves.MovesOn (s.writeBootCtrl v).mmc.leaves := by
  unfold State.writeBootCtrl
  dsimp only
  split
  · simpa using (s.modChip _).requestFullReset_movesOn 2
  · exact .of_eq (by simp)

theorem State.writeReg_movesOn (a v : Nat) : s.mmc.leaves.MovesOn (s.writeReg a v).mmc.leaves := by
  by_cases hboot : a = 0x100104
  · have hreg : s.writeReg a v = s.writeBootCtrl v := by simp [State.writeReg, hboot]
    exact hreg ▸ s.writeBootCtrl_movesOn v
  · refine .of_eq ?_
    simp only [State.writeReg, hboot, if_false]
    (repeat' split) <;> simp

theorem State.writePf_movesOn (off v : Nat) : s.mmc.leaves.MovesOn (s.writePf off v).mmc.leaves := by
  unfold State.writePf
  split
  · exact s.writeReg_movesOn _ _
  · split
    · exact s.writeReg_movesOn _ _
    · exact .refl _

theorem State.writeWord_movesOn (fn : Fn) (off v : Nat) : s.mmc.leaves.MovesOn (s.writeWord fn off v).mmc.leaves := by
  cases fn with
  | pf => exact s.writePf_movesOn off v
  | vf p => exact .of_eq (by simp [State.writeWord])

theorem State.doRegisterWrite_movesOn (fn : Fn) (off size v : Nat) :
    s.mmc.leaves.MovesOn (s.doRegisterWrite fn off size v).mmc.leaves := by
  unfold State.doRegisterWrite
  split
  · exact s.writeWord_movesOn _ _ _
  · split
    · exact (s.writeWord_movesOn _ _ _).trans (State.writeWord_movesOn _ _ _ _)
    · exact .of_eq (by simp)

theorem State.serve_movesOn (b : Binding) (inRecovery : Bool) {u : State → State}
    (hu : s.mmc.leaves.MovesOn (u s).mmc.leaves) : s.mmc.leaves.MovesOn (s.serve b inRecovery u).mmc.leaves := by
  unfold State.serve
  split
  · exact hu
  · exact .refl _

/-- In recovery mode an activation is a full reset (R449). -/
theorem State.doActivate_movesOn (b : Binding) : s.mmc.leaves.MovesOn (s.doActivate b).mmc.leaves := by
  refine s.serve_movesOn b true ?_
  dsimp only
  split
  · exact .refl _
  · split
    · exact .refl _
    · split
      · simp only [State.modChip_frame, State.fullReset_leaves]
        exact movesOn_dropBlock _
      · exact .of_eq (Mmc.settleUpdate_leaves _)

/-- The block reserved before a restart of the controller is not used after it (R448, R453). -/
theorem State.doMmcRestartDone_movesOn : s.mmc.leaves.MovesOn s.doMmcRestartDone.mmc.leaves := by
  unfold State.doMmcRestartDone
  dsimp only
  split
  · exact .refl _
  · have hdrop : ({ s.mmc.proved 0 with
        restarting := false, runMmc := (s.mmc.slotOf 0 true).image, leafAt := 0, leafEnd := 0 } : Mmc).settleUpdate.leaves =
        s.mmc.leaves.dropBlock := by
      rw [Mmc.settleUpdate_leaves]
      rfl
    split
    · simp only [State.fullReset_leaves, State.foldl_leaves, State.sendSensor_leaves, State.holdIfDue_frame, implies_true]
      exact (movesOn_dropBlock _).trans (hdrop ▸ movesOn_dropBlock _)
    · simp only [State.foldl_leaves, State.sendSensor_leaves, State.holdIfDue_frame, implies_true]
      exact hdrop ▸ movesOn_dropBlock _

/-! ## Leaves used (R452 to R454) -/

/-- An epoch without a leaf left gives way to the next one, or the key is exhausted (R454). -/
theorem State.settleEpoch_movesOn : s.mmc.leaves.MovesOn s.settleEpoch.mmc.leaves := by
  unfold State.settleEpoch
  dsimp only
  split
  · exact .refl _
  · next hspent =>
    split
    · next hep =>
      simp only [State.postEvent_frame]
      refine ⟨fun _ => ⟨le_rfl, le_rfl, Nat.zero_le _, rfl, hep⟩, fun ⟨_, _, hrec, _, _⟩ => ?_⟩
      have hrec : s.mmc.leafNext ≤ 32768 := hrec
      have hused : ¬ s.mmc.leafAt < s.mmc.leafEnd := fun h => hspent (.inr (.inl h))
      simp only [State.modMmc, Mmc.leaves, Leaves.next, lt_irrefl, hused, if_false]
      omega
    · exact .of_eq (by simp only [State.postEvent_frame]; rfl)

/-- After that, a key that is not exhausted has a leaf. -/
theorem State.settleEpoch_leaf (h : s.settleEpoch.mmc.exhausted = false) :
    s.settleEpoch.mmc.leafAt < s.settleEpoch.mmc.leafEnd ∨ s.settleEpoch.mmc.leafNext < 32768 := by
  unfold State.settleEpoch at h ⊢
  dsimp only at h ⊢
  split at h
  · next hleaf =>
    rw [if_pos hleaf]
    exact hleaf.resolve_left (by simp [h])
  · next hspent =>
    rw [if_neg hspent]
    split at h
    · next hep =>
      simp only [if_pos hep, State.postEvent_frame]
      exact .inr (by simp [State.modMmc])
    · simp only [State.postEvent_frame] at h
      exact absurd h (by simp [State.modMmc])

end

/-- A signature uses the next leaf of the reserved block, or the first of a block reserved now (R453). -/
theorem Mmc.takeLeaf_movesOn (m : Mmc) (h : m.leafAt < m.leafEnd ∨ m.leafNext < 32768) :
    m.leaves.MovesOn m.takeLeaf.2.leaves := by
  unfold Mmc.takeLeaf
  split
  · next hblock =>
    refine ⟨fun ⟨_, hbelow, hrec, hwhole, hep⟩ => ⟨hblock, hbelow, hrec, hwhole, hep⟩, fun ⟨_, hbelow, _, _, _⟩ => ?_⟩
    have hbelow : m.leafEnd ≤ m.leafNext := hbelow
    rw [Mmc.leaves_next, Mmc.leaves_next, if_pos hblock]
    dsimp only
    split <;> omega
  · next hblock =>
    have hroom := h.resolve_left hblock
    refine ⟨fun ⟨_, _, hrec, hwhole, hep⟩ => ?_, fun _ => ?_⟩
    · have hwhole : m.leafNext % 256 = 0 := hwhole
      simp only [Leaves.Kept, Mmc.leaves]
      exact ⟨by omega, le_rfl, by omega, by omega, hep⟩
    · rw [Mmc.leaves_next, Mmc.leaves_next, if_neg hblock]
      dsimp only
      split <;> omega

section
open Leaves
variable (s : State) (b : Binding)

theorem State.signed_movesOn (rsp : Nat) (vals : List Nat) (msg : Bytes) :
    s.mmc.leaves.MovesOn (s.signed b rsp vals msg).mmc.leaves := by
  unfold State.signed
  dsimp only
  split
  · exact s.settleEpoch_movesOn
  · next hleft =>
    have htaken := s.settleEpoch.mmc.takeLeaf_movesOn (s.settleEpoch_leaf (by simpa using hleft))
    refine .trans ?_ (State.settleEpoch_movesOn _)
    exact s.settleEpoch_movesOn.trans htaken

theorem State.spdmStep_movesOn (least : Nat) {u : State → State} (hu : s.mmc.leaves.MovesOn (u s).mmc.leaves) :
    s.mmc.leaves.MovesOn (s.spdmStep b least u).mmc.leaves := by
  refine s.serve_movesOn b false ?_
  split
  · exact .refl _
  · exact hu

theorem State.doChallenge_movesOn (slot : Nat) (nonce : Bytes) : s.mmc.leaves.MovesOn (s.doChallenge b slot nonce).mmc.leaves := by
  refine s.spdmStep_movesOn b 3 ?_
  split
  · exact .refl _
  · split
    · exact .refl _
    · exact s.signed_movesOn b _ _ _

theorem State.doGetMeasurements_movesOn (i : Nat) (wantSigned : Bool) (nonce : Bytes) :
    s.mmc.leaves.MovesOn (s.doGetMeasurements b i wantSigned nonce).mmc.leaves := by
  refine s.spdmStep_movesOn b 3 ?_
  split
  · exact .refl _
  · split
    · exact s.signed_movesOn b _ _ _
    · exact .refl _

end

/-! ## Every step -/

section
variable {u : State → State} (h : ∀ s : State, s.mmc.leaves.MovesOn (u s).mmc.leaves) (s : State)
include h

theorem State.overLink_movesOn : s.mmc.leaves.MovesOn (s.overLink u).mmc.leaves := by
  unfold State.overLink
  split
  · exact h s
  · exact .refl _

theorem State.reporting_movesOn : s.mmc.leaves.MovesOn (s.reporting u).mmc.leaves := by
  rw [State.reporting, State.reportSensors_leaves]
  exact h s

end

@[simp] theorem State.whenOn_leaves {u : State → State} (h : ∀ s, (u s).mmc.leaves = s.mmc.leaves) (s : State) :
    (s.whenOn u).mmc.leaves = s.mmc.leaves := by
  unfold State.whenOn
  split <;> simp [h]

/-- A sequencer operation whose run keeps the management controller. -/
theorem State.seqOp_leaves {run : State → Nat → Rec → Except Nat (State × Nat)}
    (h : ∀ s c r t n, run s c r = .ok (t, n) → t.mmc = s.mmc) (s : State) (l op : Nat) :
    (s.engine fun s => s.seqOp l op run).mmc.leaves = s.mmc.leaves := by
  unfold State.engine
  split
  · rfl
  · exact congrArg Mmc.leaves (State.seqOp_mmc _ _ _ _ (fun s c r t n hr => h s c r t n hr))

open State in
/-- Full resets and restarts give up the reserved block, and two commands sign; no other command touches the key. -/
theorem exec_movesOn (i : Instr) (s : State) : ∃ t, exec i s = .next t ∧ s.mmc.leaves.MovesOn t.mmc.leaves := by
  cases i
  case fullReset => exact ⟨_, rfl, reporting_movesOn (overLink_movesOn fun s => s.requestFullReset_movesOn 2) s⟩
  case registerWrite fn off size v =>
    exact ⟨_, rfl, reporting_movesOn (overLink_movesOn fun s => s.doRegisterWrite_movesOn fn off size v.toNat) s⟩
  case hxPwrEnRise late => exact ⟨_, rfl, reporting_movesOn (fun s => s.doPwrRise_movesOn late) s⟩
  case hxPwrEnFall => exact ⟨_, rfl, reporting_movesOn doPwrFall_movesOn s⟩
  case pwrEnLowTimeElapsed => exact ⟨_, rfl, reporting_movesOn doLowTimeElapsed_movesOn s⟩
  case perstAssert => exact ⟨_, rfl, reporting_movesOn doPerstAssert_movesOn s⟩
  case activateFirmware b => exact ⟨_, rfl, reporting_movesOn (fun s => s.doActivate_movesOn b) s⟩
  case mmcRestartDone => exact ⟨_, rfl, reporting_movesOn doMmcRestartDone_movesOn s⟩
  case challenge b slot nonce => exact ⟨_, rfl, s.doChallenge_movesOn b slot nonce⟩
  case getMeasurements b n signed nonce => exact ⟨_, rfl, s.doGetMeasurements_movesOn b n signed nonce⟩
  case loop l => exact ⟨_, rfl, .of_eq (seqOp_leaves (fun _ _ _ _ _ h => by simp [runLoop_frame h]) s l _)⟩
  case endloop l => exact ⟨_, rfl, .of_eq (seqOp_leaves (fun _ _ _ _ _ h => by simp [runEndLoop_frame h]) s l _)⟩
  case setsv l => exact ⟨_, rfl, .of_eq (seqOp_leaves (fun _ _ _ _ _ h => by simp [runSetSv_frame h]) s l _)⟩
  case addsv l => exact ⟨_, rfl, .of_eq (seqOp_leaves (fun _ _ _ _ _ h => by simp [runAddSv_frame h]) s l _)⟩
  case setpair l => exact ⟨_, rfl, .of_eq (seqOp_leaves (fun _ _ _ _ _ h => by simp [runSetPair_frame h]) s l _)⟩
  case swap l => exact ⟨_, rfl, .of_eq (seqOp_leaves (fun _ _ _ _ _ h => by simp [runSwap_frame h]) s l _)⟩
  case setkey l => exact ⟨_, rfl, .of_eq (seqOp_leaves (fun _ _ _ _ _ h => by simp [runSetKey_frame h]) s l _)⟩
  all_goals exact ⟨_, rfl, .of_eq (by simp [State.reporting])⟩

/-- Every step is a command run on the rest of the queue, or idle. -/
theorem step_movesOn {s t : State} (h : step s = .next t) : s.mmc.leaves.MovesOn t.mmc.leaves := by
  unfold step at h
  split at h
  · obtain rfl := Host.Outcome.next.inj h
    unfold State.idle
    exact .of_eq (by split <;> simp)
  · next c rest _ =>
    obtain ⟨u, hu, hmoves⟩ := exec_movesOn c { s with pending := rest }
    obtain rfl := Host.Outcome.next.inj (hu.symm.trans h)
    exact hmoves

/-- Settles O60: a step leaves the key alone, gives up the reserved block, uses its next leaf or goes on to the next epoch. -/
theorem leavesNeverRepeat : Obligations.LeavesNeverRepeat := by
  intro s t hkept hstep
  obtain ⟨hk, hle⟩ := step_movesOn hstep
  exact ⟨hk hkept, hle hkept⟩

end Sys2Proof.Machine
end

