-- ==== Sys2Proof/Proofs/CountersAndLogs.lean ====
section
/-! SUPPORT. Counters cleared and read, the log store of a core, and what a barometer leaves in it or in its ring (R461 to R467, R470). -/

namespace Sys2Proof.Machine

open Sys2Proof.Safety

section
variable {s : State} {c : Nat}

/-- A host access that changes the DBG registers of one core changes nothing else. -/
theorem overLink_modDbg (f : CoreDbg → CoreDbg) (hon : s.chip.power = .on) (hp : s.chip.perst = false) :
    ∃ t, (.next (s.overLink (·.modDbg c f)) : Host.Outcome State Fault Refusal) = .next t ∧
      coreIs s t c { s.core c with dbg := f (s.core c).dbg } :=
  ⟨_, overLink_next _ hon hp, coreIs_modDbg s c f⟩

/-- So does a command of the powered module. -/
theorem whenOn_modDbg (f : CoreDbg → CoreDbg) (hon : s.chip.power = .on) :
    ∃ t, (.next (s.whenOn (·.modDbg c f)) : Host.Outcome State Fault Refusal) = .next t ∧
      coreIs s t c { s.core c with dbg := f (s.core c).dbg } :=
  ⟨_, whenOn_next _ hon, coreIs_modDbg s c f⟩

/-! ## The log store (R464, R465) -/

theorem CoreDbg.control_eq (d : CoreDbg) (trace sample : Nat) :
    d.control trace sample = { d with trace, sample, resplit := (d.control trace sample).resplit } := rfl

/-- A resplit is due when an enable as written is not the one in effect (R465). -/
theorem CoreDbg.control_resplit (d : CoreDbg) (trace sample : Nat) :
    (d.control trace sample).resplit = true ↔ (trace.testBit 0 ≠ d.traceOn ∨ sample.testBit 0 ≠ d.sampleOn) := by
  simp [CoreDbg.control, CoreDbg.enablesDiffer, bit]

/-- The enables in effect after a resplit are those written, and both regions are empty (R465). -/
theorem CoreDbg.applyEnables_eq (d : CoreDbg) : d.applyEnables = { d with
    traceOn := d.trace.testBit 0, sampleOn := d.sample.testBit 0, resplit := false, regions := d.applyEnables.regions
    seq := d.applyEnables.seq, gap := d.applyEnables.gap } := rfl

theorem CoreDbg.logEmpty_applyEnables (d : CoreDbg) : d.applyEnables.logEmpty = true := by
  simp [CoreDbg.logEmpty, CoreDbg.applyEnables, LogRegion.reset]

/-- What a region holds after bytes have been put at its end (R464). -/
theorem Core.logPut_region (k : Core) (r : Nat) (bs : Bytes) (head : Bool) (h : r < k.dbg.regions.length) (q : Nat) :
    (k.logPut r bs head).dbg.region q = if q = r then
      { k.dbg.region r with
        len := (k.dbg.region r).len + bs.length
        heads := if head then (k.dbg.region r).heads ++ [(k.dbg.region r).len] else (k.dbg.region r).heads }
      else k.dbg.region q := CoreDbg.region_setRegion _ _ _ _ h

theorem Core.logPut_eq (k : Core) (r : Nat) (bs : Bytes) (head : Bool) : k.logPut r bs head = { k with
    log := (k.logPut r bs head).log, dbg := { k.dbg with regions := (k.logPut r bs head).dbg.regions } } := rfl

theorem CoreDbg.hasRoom_iff (d : CoreDbg) (r n : Nat) : d.hasRoom r n = true ↔ (d.region r).len + n ≤ (d.split r).2 := by
  simp [CoreDbg.hasRoom]

end

/-- Settles O16: each of the commands is a change of the counters of one core or of the global block. -/
theorem countersCleared : Obligations.CountersCleared := by
  intro s hon hp
  refine ⟨fun c => ?_, ⟨_, overLink_next _ hon hp, rfl, fun n => getD_zeros 32 n⟩, fun c n hn => ?_, fun c e x => ?_, fun n hn =>
    ⟨_, overLink_next _ hon hp, rfl, fun m => getD_setAt _ _ _ _ _ hn⟩⟩
  · obtain ⟨t, hexec, hcore⟩ := overLink_modDbg (c := c) (fun d => { d with evcnt := List.replicate 8 0, stalls := [] }) hon hp
    refine ⟨t, hexec, ?_⟩
    rw [coreIs_own hcore]
    exact ⟨hcore, getD_zeros 8, fun _ => rfl⟩
  · obtain ⟨t, hexec, hcore⟩ := overLink_modDbg (c := c) (fun d => { d with evHi := setAt d.evHi n (d.evcnt.getD n 0 / 2 ^ 32) }) hon hp
    refine ⟨t, hexec, ?_⟩
    rw [coreIs_own hcore]
    exact ⟨hcore, fun m => getD_setAt _ _ _ _ _ hn⟩
  · obtain ⟨t, hexec, hcore⟩ := overLink_modDbg (c := c) (fun d => { d with
      stallHi := SMap.set 0 (16 * e + x) (SMap.get 0 (16 * e + x) d.stalls / 2 ^ 32) d.stallHi }) hon hp
    refine ⟨t, hexec, ?_⟩
    rw [coreIs_own hcore]
    exact ⟨hcore, fun m => SMap.get_set _ _ _ _ _⟩

section
variable {s : State} {c r : Nat}

/-! ## Padding and the drain (R466) -/

/-- The zeros that fill up the last 256 B of a region. -/
def Core.padding (k : Core) (r : Nat) : Bytes := List.replicate (256 - (k.dbg.region r).len % 256) 0

@[simp] theorem Core.length_padding (k : Core) (r : Nat) : (k.padding r).length = 256 - (k.dbg.region r).len % 256 := by
  simp [Core.padding]

theorem doLogPad_puts (hpart : ((s.core c).dbg.region r).len % 256 ≠ 0)
    (hroom : (s.core c).dbg.hasRoom r ((s.core c).padding r).length = true) :
    s.doLogPad c r = s.setCore c ((s.core c).logPut r ((s.core c).padding r) false) := by
  rw [Core.length_padding] at hroom
  simp [State.doLogPad, Core.padding, hpart, hroom]

theorem doLogDrain_held (h : (s.core c).dbg.ringTakes r = false) : s.doLogDrain c r = s := by simp [State.doLogDrain, h]

/-- The state in which the oldest 256 B have left a region, before its ring gets them. -/
def State.regionDrained (s : State) (c r : Nat) : State := s.modDbg c (·.drained r true)

theorem doLogDrain_writes (hlen : 256 ≤ ((s.core c).dbg.region r).len) (htakes : (s.core c).dbg.ringTakes r = true)
    (hfits : s.ringFits (s.partOfPhys c) ((s.core c).dbg.ringBaseOf r) ((s.core c).dbg.ringLog2 r) = true) : s.doLogDrain c r =
      ((s.regionDrained c r).putRecord (s.partOfPhys c)
        ((s.core c).dbg.ringBaseOf r + ((s.core c).dbg.region r).wptr % 2 ^ (s.core c).dbg.ringLog2 r) ((s.core c).logHead r)).event c
        0x0401 256 := by
  simp [State.doLogDrain, State.regionDrained, htakes, hfits, Nat.not_lt.mpr hlen]

/-- Counting an event changes no region of a log store. -/
theorem State.event_region (s : State) (c ev n d q : Nat) :
    ((s.event c ev n).core d).dbg.region q = (s.core d).dbg.region q := by
  rw [State.event, State.modDbg, State.core_setCore_if]
  split
  · subst_vars
    rw [CoreDbg.addEvent_parts]
    rfl
  · rfl

theorem CoreDbg.drained_region (d : CoreDbg) (r : Nat) (h : r < d.regions.length) (q : Nat) : (d.drained r true).region q =
    if q ≠ r then d.region q else
      { pos := ((d.region r).pos + 256) % max 1 (d.split r).2, len := (d.region r).len - 256,
        heads := ((d.region r).heads.filter (256 ≤ ·)).map (· - 256), missed := (d.region r).missed,
        wptr := ((d.region r).wptr + 256) % 2 ^ 32 } := by
  rw [ite_not]
  exact CoreDbg.region_setRegion d r q _ h

end

/-- Settles O17: a control write and a resplit change the DBG registers of the core, padding and the drain one region. -/
theorem logStore : Obligations.LogStore := by
  intro s c r
  dsimp only
  refine ⟨fun v hon hp => ⟨?_, ?_⟩, fun hon hkeep => ?_, fun hon hdue hempty => ?_, fun hon hr hpart hroom => ?_, fun hheld htakes => ?_,
    fun hheld hr hlen htakes hfits => ?_⟩
  · obtain ⟨t, hexec, hcore⟩ := overLink_modDbg (c := c) (fun d => d.control (v.toNat % 2 ^ 17) d.sample) hon hp
    refine ⟨t, hexec, ?_⟩
    rw [coreIs_own hcore]
    exact ⟨hcore, by simp [CoreDbg.control_resplit]⟩
  · obtain ⟨t, hexec, hcore⟩ := overLink_modDbg (c := c) (fun d => d.control d.trace (v.toNat % 2 ^ 29)) hon hp
    refine ⟨t, hexec, ?_⟩
    rw [coreIs_own hcore]
    exact ⟨hcore, by simp [CoreDbg.control_resplit]⟩
  · obtain ⟨t, hexec, hcore⟩ := whenOn_modDbg (c := c) (fun d => if d.resplit && d.logEmpty then d.applyEnables else d) hon
    have hoff : ((s.core c).dbg.resplit && (s.core c).dbg.logEmpty) = false := Bool.and_eq_false_iff.mpr hkeep
    rw [hoff] at hcore
    exact ⟨t, hexec, hcore⟩
  · obtain ⟨t, hexec, hcore⟩ := whenOn_modDbg (c := c) (fun d => if d.resplit && d.logEmpty then d.applyEnables else d) hon
    rw [hdue, hempty] at hcore
    refine ⟨t, hexec, ?_⟩
    rw [coreIs_own hcore]
    exact ⟨hcore, CoreDbg.logEmpty_applyEnables _⟩
  · have hfits : (s.core c).dbg.hasRoom r ((s.core c).padding r).length = true := by
      rw [CoreDbg.hasRoom_iff, Core.length_padding]
      exact hroom
    have hcore := coreIs_setCore s c ((s.core c).logPut r ((s.core c).padding r) false)
    refine ⟨_, whenOn_next _ hon, ?_⟩
    rw [doLogPad_puts hpart hfits, coreIs_own hcore, ← Core.length_padding]
    refine ⟨hcore, Core.logPut_region _ r _ false hr, fun i hi => ?_, fun a ha => Core.logPut_outside _ r _ false a ha⟩
    rw [Core.logPut_inside _ r _ false hfits i hi]
    simp [Core.padding]
  · exact (engine_next hheld).trans (congrArg _ (doLogDrain_held htakes))
  · refine ⟨_, s.regionDrained c r, (engine_next hheld).trans (congrArg _ (doLogDrain_writes hlen htakes hfits)), by simp [sameBlock, State.regionDrained],
      fun x => by simp [State.regionDrained], fun q => ?_, ?_, ?_⟩
    · rw [State.event_region, State.putRecord_dbg, State.regionDrained, coreIs_own (coreIs_modDbg s c _)]
      exact CoreDbg.drained_region _ r hr q
    · have hcore := coreIs_modDbg s c (·.drained r true)
      rw [State.regionDrained, coreIs_own hcore]
      exact hcore
    · simpa [State.regionDrained] using (State.putRecord_memory _ _ _ _).1

/-! ## The barometers (R470) -/

/-- The sample that a core takes now. -/
def State.coreSample (s : State) (c : Nat) : Bytes :=
  let d := (s.core c).dbg
  sampleBytes (lastMultiple s.ft (bits d.sample 9 20)) d.seq d.gap
    (((List.range 8).filter (fun n => d.sample.testBit (1 + n))).map (fun n => d.evcnt.getD n 0))

/-- A core that has numbered a sample and may put it in its log store. -/
def Core.sampling (k : Core) : Core := { k with dbg := { k.dbg with seq := (k.dbg.seq + 1) % 2 ^ 32, gap := 0 } }

theorem Core.sampling_logPut_eq (k : Core) (bs : Bytes) : k.sampling.logPut 1 bs true = { k with
    dbg := { k.dbg with
      seq := (k.dbg.seq + 1) % 2 ^ 32, gap := 0, regions := (k.sampling.logPut 1 bs true).dbg.regions }
    log := (k.sampling.logPut 1 bs true).log } := by
  rw [Core.logPut_eq]
  rfl

/-- What such a core keeps of a sample that its region has room for (R464). -/
theorem Core.sampling_logPut (k : Core) (bs : Bytes) (hregions : 1 < k.dbg.regions.length) (hroom : k.dbg.hasRoom 1 bs.length = true) :
    (∀ q, (k.sampling.logPut 1 bs true).dbg.region q = if q = 1 then
      { k.dbg.region 1 with len := (k.dbg.region 1).len + bs.length, heads := (k.dbg.region 1).heads ++ [(k.dbg.region 1).len] }
      else k.dbg.region q) ∧
    (∀ i, i < bs.length → (k.sampling.logPut 1 bs true).log.read (k.logAt 1 i) = bs.getD i 0) ∧
    ∀ a, (∀ i, i < bs.length → a ≠ k.logAt 1 i) → (k.sampling.logPut 1 bs true).log.read a = k.log.read a := by
  refine ⟨Core.logPut_region k.sampling 1 bs true hregions, fun i hi => ?_, Core.logPut_outside k.sampling 1 bs true⟩
  rw [List.getD_eq_getElem _ _ hi]
  exact Core.logPut_inside k.sampling 1 bs true hroom i hi

section
variable {s : State} {c : Nat}

theorem doSample_off (h : (s.core c).dbg.sampleOn = false) : s.doSample c = s := by simp [State.doSample, h]

theorem doSample_puts (hon : (s.core c).dbg.sampleOn = true) (hroom : (s.core c).dbg.hasRoom 1 (s.coreSample c).length = true) :
    s.doSample c = s.setCore c ((s.core c).sampling.logPut 1 (s.coreSample c) true) := by
  have hsamples : ¬(!(s.core c).dbg.sampleOn) = true := by simp [hon]
  exact (if_neg hsamples).trans (if_pos hroom)

theorem doSample_drops (hon : (s.core c).dbg.sampleOn = true) (hroom : (s.core c).dbg.hasRoom 1 (s.coreSample c).length = false) :
    s.doSample c = s.modDbg c (fun d => { d with
      seq := (d.seq + 1) % 2 ^ 32, gap := min 255 (d.gap + 1), smLost := min 0xFFFF (d.smLost + 1) }) := by
  have hsamples : ¬(!(s.core c).dbg.sampleOn) = true := by simp [hon]
  exact (if_neg hsamples).trans (if_neg (Bool.eq_false_iff.mp hroom))

/-- A string that ends before its ring does is written in one piece. -/
theorem State.ringWrite_whole (s : State) (p base n k : Nat) {bs : Bytes} (h : k % 2 ^ n + bs.length ≤ 2 ^ n) :
    s.ringWrite p base n k bs = s.putRecord p (base + k % 2 ^ n) bs := by
  have hroom : bs.length ≤ 2 ^ n - k % 2 ^ n := by omega
  simp [State.ringWrite, hroom, List.take_of_length_le hroom]

end

/-- The sample that the global barometer takes now, of the lowest 30 of the selected counters. -/
def State.globalSample (s : State) : Bytes :=
  let b := s.gdbg
  sampleBytes (lastMultiple s.ft (bits b.ctrl 5 20)) b.seq b.gap
    ((((List.range 32).filter (fun n => b.mask.testBit n)).map (fun n => b.gcnt.getD n 0)).take 30)

/-- The address of the global barometer's ring. -/
def GlobalDbg.ringAt (b : GlobalDbg) : Nat := 256 * (b.base / 256) + 2 ^ 32 * bits b.cfg 0 12

/-- The state in which the global barometer has numbered a sample of `n` bytes, before its ring gets it. -/
def State.globalCounted (s : State) (n : Nat) : State :=
  { s with gdbg := { s.gdbg with seq := (s.gdbg.seq + 1) % 2 ^ 32, gap := 0, wptr := (s.gdbg.wptr + n) % 2 ^ 32 } }

section
variable {s : State}

theorem doGlobalSample_off (h : s.gdbg.ctrl.testBit 2 = false) : s.doGlobalSample = s := by simp [State.doGlobalSample, bit, h]

section
variable (hon : s.gdbg.ctrl.testBit 2 = true) (hup : s.bringing = false) (hp : bits s.gdbg.ctrl 3 2 < s.layout)
include hon hup hp

/-- The sample is taken; whether the ring holds it is another matter. -/
theorem doGlobalSample_on : s.doGlobalSample =
    if s.ringFits (bits s.gdbg.ctrl 3 2) s.gdbg.ringAt (bits s.gdbg.cfg 12 5) then
      (s.globalCounted s.globalSample.length).ringWrite (bits s.gdbg.ctrl 3 2) s.gdbg.ringAt (bits s.gdbg.cfg 12 5) s.gdbg.wptr
        s.globalSample
    else { s with gdbg := { s.gdbg with seq := (s.gdbg.seq + 1) % 2 ^ 32, gap := min 255 (s.gdbg.gap + 1) } } := by
  have hopen : ¬((!bit s.gdbg.ctrl 2) = true ∨ s.bringing = true ∨ s.layout ≤ bits s.gdbg.ctrl 3 2) := by
    simp [bit, hon, hup, Nat.not_le.mpr hp]
  unfold State.globalSample
  simp only [← List.map_take]
  exact if_neg hopen

theorem doGlobalSample_drops (hfits : s.ringFits (bits s.gdbg.ctrl 3 2) s.gdbg.ringAt (bits s.gdbg.cfg 12 5) = false) :
    s.doGlobalSample = { s with gdbg := { s.gdbg with seq := (s.gdbg.seq + 1) % 2 ^ 32, gap := min 255 (s.gdbg.gap + 1) } } := by
  rw [doGlobalSample_on hon hup hp, if_neg (Bool.eq_false_iff.mp hfits)]

theorem doGlobalSample_writes (hfits : s.ringFits (bits s.gdbg.ctrl 3 2) s.gdbg.ringAt (bits s.gdbg.cfg 12 5) = true) :
    s.doGlobalSample = (s.globalCounted s.globalSample.length).ringWrite (bits s.gdbg.ctrl 3 2) s.gdbg.ringAt (bits s.gdbg.cfg 12 5)
      s.gdbg.wptr s.globalSample := by
  rw [doGlobalSample_on hon hup hp, if_pos hfits]

end
end

/-- Settles O18: a core's sample goes to the end of its sample region, the global one to its ring, or it is dropped. That the number
of a sample counts the dropped ones is the model's reading (log 75). -/
theorem barometers : Obligations.Barometers := by
  intro s c k d g values bs b all gs base p hon
  have hbs : bs = s.coreSample c := rfl
  have hgs : gs = s.globalSample := rfl
  clear_value bs gs
  subst hbs hgs
  refine ⟨fun hoff => ?_, fun hsample hregions hroom => ?_, fun hsample hfull => ?_, fun hoff => ?_, fun hglobal hup hp hfits => ?_,
    fun hglobal hup hp hfits hwhole => ?_⟩
  · exact (whenOn_next _ hon).trans (congrArg _ (doSample_off hoff))
  · have hfits : (s.core c).dbg.hasRoom 1 (s.coreSample c).length = true := (CoreDbg.hasRoom_iff _ _ _).mpr hroom
    have hcore := coreIs_setCore s c ((s.core c).sampling.logPut 1 (s.coreSample c) true)
    refine ⟨_, whenOn_next _ hon, ?_⟩
    rw [doSample_puts hsample hfits, coreIs_own hcore]
    refine ⟨?_, (s.core c).sampling_logPut _ hregions hfits⟩
    exact (congrArg (coreIs s _ c) ((s.core c).sampling_logPut_eq (s.coreSample c))).mp hcore
  · have hfits : (s.core c).dbg.hasRoom 1 (s.coreSample c).length = false :=
      Bool.eq_false_iff.mpr fun h => Nat.not_le.mpr hfull ((CoreDbg.hasRoom_iff _ _ _).mp h)
    exact ⟨_, (whenOn_next _ hon).trans (congrArg _ (doSample_drops hsample hfits)), coreIs_modDbg s c _⟩
  · exact (whenOn_next _ hon).trans (congrArg _ (doGlobalSample_off hoff))
  · exact (whenOn_next _ hon).trans (congrArg _ (doGlobalSample_drops hglobal hup hp hfits))
  · have hwrites := (doGlobalSample_writes hglobal hup hp hfits).trans (State.ringWrite_whole _ _ _ _ _ hwhole)
    refine ⟨_, s.globalCounted s.globalSample.length, (whenOn_next _ hon).trans (congrArg _ hwrites),
      by simp [sameBlock, State.globalCounted], fun x => State.putRecord_engines _ _ _ _ x, ?_, rfl, (State.putRecord_memory _ _ _ _).1⟩
    exact GlobalDbg.of_setting (State.putRecord_setting _ _ _ _)

end Sys2Proof.Machine
end

