-- ==== Sys2Proof/Proofs/FreezesAndResumes.lean ====
section
/-! SUPPORT. The freeze of a core by a tag break, freezes and resumes of a partition, and the pause of its timers (R471 to R473). -/

namespace Sys2Proof.Machine

open Sys2Proof.Safety

/-- A list of cores holds `d` as a truth value, and as a statement. -/
theorem any_phys_iff (xs : List (Nat × Nat)) (d : Nat) : (xs.any (·.2 == d)) = true ↔ ∃ x ∈ xs, x.2 = d := by simp

/-- Timers put off leave the same engines in cores whose engines were the same. -/
theorem Core.putOff_engines {k j : Core} (h : k.engines = j.engines) (since now : Nat) :
    (k.putOff since now).engines = (j.putOff since now).engines :=
  congrArg (fun x => ({ x.1 with arrivedAt := Machine.putOff since now x.1.arrivedAt },
    x.2.1.map (·.map fun e => { e with headAt := e.headAt.map (Machine.putOff since now) }), x.2.2)) h

section
variable {s : State} {c : Nat}

/-- A record lets pass the next time the break that it met (R473). -/
def State.letPass (s : State) (c serial : Nat) : State := s.modDbg c (fun d => { d with tagPass := some serial })

theorem letPass_core (s : State) (c serial d : Nat) : ((s.letPass c serial).core d).seq = (s.core d).seq :=
  State.seq_setCore _ _ _ _ rfl

theorem letPass_dbg (s : State) (c serial : Nat) :
    ((s.letPass c serial).core c).dbg = { (s.core c).dbg with tagPass := some serial } := by
  simp [State.letPass, State.modDbg]

theorem doTagBreak_breaks {l q i : Nat} {e : QEntry} (hl : s.physOf l = some c)
    (hfirst : firstWaiting 0 ((s.core c).queue q) = some (i, e)) (hmatch : (s.core c).dbg.tagMatch e.tag e.serial = true)
    (hfrozen : (s.core c).seq.frozen = false) (hhalted : (s.core c).seq.halted = false) :
    s.doTagBreak l q = (s.letPass c e.serial).breakCore c e.engine e.opid e.tag true := by
  simp [State.doTagBreak, State.letPass, hl, hfirst, hmatch, hfrozen, hhalted]

/-! ## Resumes -/

/-- After a resume of one core its partition is where it was, and every other core as it was, but for the pause. -/
theorem resumeOne_part (s : State) (c p : Nat) : (s.resumeOne c).part p = s.part p :=
  State.part_of_parts (s.resumeOne_around c).2 p

theorem resumeOne_coresOf (s : State) (c p : Nat) : (s.resumeOne c).coresOf p = s.coresOf p :=
  coresOf_of (by simp) (by simp) (by simp) p

/-- While another core of the partition is frozen a resume leaves the pause on (R472). -/
theorem doCoreResume_on (h : ∃ x ∈ s.coresOf (s.partOfPhys c), x.2 ≠ c ∧ (s.core x.2).seq.frozen = true) :
    s.doCoreResume c = s.resumeOne c := by
  obtain ⟨x, hx, hne, hfrozen⟩ := h
  refine State.endPause_on _ _ (List.any_eq_true.mpr ⟨x, by rwa [resumeOne_coresOf], ?_⟩)
  simp [State.resumeOne_frozen, hne, hfrozen]

/-- With the last frozen core the pause ends, and the timers of the partition's cores are put off by it (R472). -/
theorem doCoreResume_off {t0 : Nat} (ht : (s.part (s.partOfPhys c)).frozenAt = some t0)
    (hnodup : ((s.coresOf (s.partOfPhys c)).map (·.2)).Nodup)
    (hothers : ∀ x ∈ s.coresOf (s.partOfPhys c), x.2 ≠ c → (s.core x.2).seq.frozen = false) :
    ((s.doCoreResume c).part (s.partOfPhys c)).frozenAt = none ∧ ∀ d, ((s.doCoreResume c).core d).engines =
      if (s.coresOf (s.partOfPhys c)).any (·.2 == d) then ((s.core d).putOff t0 s.ft).engines else (s.core d).engines := by
  have hthawed : ((s.resumeOne c).coresOf (s.partOfPhys c)).any (fun e => ((s.resumeOne c).core e.2).seq.frozen) = false := by
    rw [resumeOne_coresOf, List.any_eq_false]
    intro x hx
    rw [State.resumeOne_frozen]
    by_cases hxc : x.2 = c
    · simp [hxc]
    · simp [hothers x hx hxc]
  obtain ⟨hpause, hcores⟩ := State.endPause_off (s.resumeOne c) (s.partOfPhys c) t0 (by rwa [resumeOne_part])
    (by rwa [resumeOne_coresOf]) hthawed
  refine ⟨hpause, fun d => ?_⟩
  have hft : (s.resumeOne c).ft = s.ft := by simp
  rw [State.doCoreResume, hcores, resumeOne_coresOf, hft]
  split
  · exact Core.putOff_engines (s.resumeOne_engines c d) _ _
  · exact s.resumeOne_engines c d

end

/-- Settles O19: a break freezes through `breakCore`, the others by what they leave frozen of each core and of the pause. -/
theorem breaks : Obligations.Breaks := by
  intro s
  refine ⟨fun l q c i e hheld hl hfirst hmatch hfrozen hhalted => ?_, fun hon hp p => ⟨?_, ?_⟩, fun hon hp c => ?_⟩
  · have hbreak := doTagBreak_breaks hl hfirst hmatch hfrozen hhalted
    have hcores : (s.letPass c e.serial).coresOf (s.partOfPhys c) = s.coresOf (s.partOfPhys c) := rfl
    have hpart := State.breakCore_part (s.letPass c e.serial) c e.engine e.opid e.tag true (by rw [letPass_core]; exact hfrozen)
    refine ⟨_, (engine_next hheld).trans (congrArg _ hbreak), by simp [sameModule, sameAround, State.letPass],
      fun d => by simp [State.letPass], fun d => ?_, ?_, hpart.1, fun hj => hpart.2 hj⟩
    · have hpart' : (s.letPass c e.serial).partOfPhys c = s.partOfPhys c := rfl
      rw [State.breakCore_frozen, letPass_dbg, letPass_core, hpart', hcores]
      simp [bit, or_assoc]
    · rw [State.breakCore_tagPass, letPass_dbg]
  · obtain ⟨hfrozen, -, -, hpart⟩ := State.freezePart_fold (s.coresOf p) s
    refine ⟨s.freezePart p, overLink_next _ hon hp, by simp [sameModule, sameAround], fun d => by simp, fun d => ?_, hpart⟩
    rw [State.freezePart, hfrozen, Bool.or_eq_true, any_phys_iff]
  · refine ⟨_, overLink_next _ hon hp, by simp [sameModule, sameAround, State.doPartResume], fun d => ?_⟩
    rw [State.doPartResume, State.endPause_frozen, State.resumeAll_frozen]
    simp
  · refine ⟨_, overLink_next _ hon hp, by simp [sameModule, sameAround, State.doCoreResume], fun d => ?_, fun h => ?_,
      fun t0 ht hnodup hothers => doCoreResume_off ht hnodup hothers⟩
    · rw [State.doCoreResume, State.endPause_frozen, State.resumeOne_frozen]
      simp
    · rw [doCoreResume_on h]
      exact ⟨(s.resumeOne_around c).2, s.resumeOne_engines c⟩

end Sys2Proof.Machine
end

