-- ==== Sys2Proof/Proofs/Discovery.lean ====
section
/-! SUPPORT. Requests that the management controller serves or loses, identifiers, and PLDM for base (R437, R439, R440, R448, R449). -/

namespace Sys2Proof.Machine

open Sys2Proof.Safety

section
variable {s : State} {b : Binding} {inRecovery : Bool}

/-- A request that is served acts (R437, R448). -/
theorem serve_next (f : State → State) (h : s.serves b inRecovery = true) :
    (.next (s.serve b inRecovery f) : Host.Outcome State Fault Refusal) = .next (f s) := congrArg _ (if_pos h)

/-- One that is not served is lost (R437, R448). -/
theorem serve_lost (f : State → State) (h : s.serves b inRecovery = false) :
    (.next (s.serve b inRecovery f) : Host.Outcome State Fault Refusal) = .next s := congrArg _ (if_neg (by simp [h]))

/-- A request that is served and meets a condition of its own. -/
theorem serve_next_pos {p : State → Prop} [DecidablePred p] (f g : State → State) (h : s.serves b inRecovery = true) (hp : p s) :
    (.next (s.serve b inRecovery fun s => if p s then f s else g s) : Host.Outcome State Fault Refusal) = .next (f s) :=
  (serve_next _ h).trans (congrArg _ (if_pos hp))

/-- A request that is served and does not meet a condition of its own. -/
theorem serve_next_neg {p : State → Prop} [DecidablePred p] (f g : State → State) (h : s.serves b inRecovery = true) (hp : ¬ p s) :
    (.next (s.serve b inRecovery fun s => if p s then f s else g s) : Host.Outcome State Fault Refusal) = .next (g s) :=
  (serve_next _ h).trans (congrArg _ (if_neg hp))

end

/-- No other type has commands (R439). -/
theorem pldmCommands_other {ty : Nat} (h0 : ty ≠ 0) (h2 : ty ≠ 2) (h5 : ty ≠ 5) : pldmCommands ty = [] := by
  simp [pldmCommands, h0, h2, h5]

/-- Settles O48: each request is lost or answered. The identifiers that SetTID refuses, the numbers of the commands and the 29 records
are the model's readings (log 19, 67, 68). -/
theorem discovery : Obligations.Discovery := by
  intro s b
  refine ⟨fun ty => rfl, fun h e => serve_lost _ h, fun h e => serve_next _ h, fun h =>
    ⟨serve_lost _ h, fun t => serve_lost _ h, fun ty => serve_lost _ h, serve_lost _ h, fun ty => serve_lost _ h, serve_lost _ h,
      fun r => serve_lost _ h⟩, fun ty cmd => ?_, fun h => ?_⟩
  · split
    · next hs => exact serve_next _ hs
    · next hs => exact serve_lost _ (by simpa using hs)
  · refine ⟨serve_next _ h, fun t ht => serve_next_pos _ _ h ht, fun t hpos hlt => serve_next_neg _ _ h (by omega),
      serve_next _ h, serve_next _ h, serve_next _ h, fun ty h0 h2 h5 => ⟨?_, serve_next_pos _ _ h (pldmCommands_other h0 h2 h5)⟩,
      serve_next _ h, serve_next _ h, serve_next _ h, serve_next _ h, serve_next _ h,
      fun r hr => serve_next_neg _ _ h (Nat.not_lt.mpr hr), fun r hr => serve_next_pos _ _ h hr⟩
    refine (serve_next _ h).trans (congrArg _ ?_)
    simp only [h0, h2, h5, if_false]
    rfl

end Sys2Proof.Machine
end

