-- ==== Sys2Proof/Proofs/SensorEvents.lean ====
section
/-! SUPPORT. How changes of the sensors' states are noted, and where their events go (R440, R448). -/

namespace Sys2Proof.Machine

open Sys2Proof.Safety

/-! ## What reporting changes -/

/-- Nothing but the states noted, the events that wait and what was sent has changed. -/
def noted (s t : State) : Prop :=
  t = { s with mmc := { s.mmc with lastStates := t.mmc.lastStates, waitEvts := t.mmc.waitEvts }, out := t.out }

theorem noted.refl (s : State) : noted s s := rfl

theorem noted.trans {s t u : State} (h : noted s t) (g : noted t u) : noted s u := by
  unfold noted at *
  rw [g, h]

section
variable {s t : State} (h : noted s t)
include h

theorem noted.sensorState (i : Nat) : t.sensorState i = s.sensorState i := by rw [h]; rfl
theorem noted.restarting : t.mmc.restarting = s.mmc.restarting := by rw [h]
theorem noted.receiver : t.mmc.receiver = s.mmc.receiver := by rw [h]
theorem noted.disabled : t.mmc.disabled = s.mmc.disabled := by rw [h]

end

theorem sendSensor_noted (s : State) (e : SensorEvt) : noted s (s.sendSensor e) := by
  unfold State.sendSensor
  (repeat' split) <;> rfl

@[simp] theorem sendSensor_lastStates (s : State) (e : SensorEvt) : (s.sendSensor e).mmc.lastStates = s.mmc.lastStates := by
  unfold State.sendSensor
  (repeat' split) <;> rfl

/-- The state in which the state of a sensor has been noted. -/
def State.noteSensor (s : State) (i : Nat) : State :=
  s.modMmc (fun m => { m with lastStates := setAt m.lastStates i (s.sensorState i) })

theorem noteSensor_noted (s : State) (i : Nat) : noted s (s.noteSensor i) := rfl

/-- A sensor whose state is as noted reports nothing; otherwise it is noted, and an event is sent or not (R440). -/
theorem reportSensor_cases (s : State) (i : Nat) :
    (s.sensorState i = s.mmc.lastStates.getD i 0 ∧ s.reportSensor i = s) ∨
    (s.sensorState i ≠ s.mmc.lastStates.getD i 0 ∧ (s.reportSensor i = s.noteSensor i ∨
      ∃ v, s.reportSensor i = (s.noteSensor i).sendSensor ⟨i, v⟩)) := by
  unfold State.reportSensor
  dsimp only
  split
  · next h => exact .inl ⟨h, rfl⟩
  · next h =>
    split
    · exact .inr ⟨h, .inl rfl⟩
    · exact .inr ⟨h, .inr ⟨_, rfl⟩⟩

theorem reportSensor_noted (s : State) (i : Nat) : noted s (s.reportSensor i) := by
  rcases reportSensor_cases s i with ⟨-, h⟩ | ⟨-, h | ⟨v, h⟩⟩ <;> rw [h]
  · exact .refl s
  · exact noteSensor_noted s i
  · exact (noteSensor_noted s i).trans (sendSensor_noted _ _)

theorem reportSensor_lastStates (s : State) (i : Nat) (hi : i < s.mmc.lastStates.length) (j : Nat) :
    (s.reportSensor i).mmc.lastStates.getD j 0 = if j = i then s.sensorState i else s.mmc.lastStates.getD j 0 := by
  rcases reportSensor_cases s i with ⟨hsame, h⟩ | ⟨-, h | ⟨v, h⟩⟩
  · rw [h, hsame]
    split
    · next hj => rw [hj]
    · rfl
  · rw [h]
    exact getD_setAt _ _ _ _ _ hi
  · rw [h, sendSensor_lastStates]
    exact getD_setAt _ _ _ _ _ hi

theorem reportSensor_length (s : State) (i : Nat) : (s.reportSensor i).mmc.lastStates.length = s.mmc.lastStates.length := by
  rcases reportSensor_cases s i with ⟨-, h⟩ | ⟨-, h | ⟨v, h⟩⟩ <;> rw [h]
  · simp [State.noteSensor, State.modMmc, setAt]
  · simp [State.noteSensor, State.modMmc, setAt]

/-- What a sensor reads in the notes afterwards is what it read before, or its state. -/
theorem reportSensor_notes (s : State) (i j : Nat) :
    (s.reportSensor i).mmc.lastStates.getD j 0 = s.mmc.lastStates.getD j 0 ∨
      (s.reportSensor i).mmc.lastStates.getD j 0 = s.sensorState j := by
  by_cases hi : i < s.mmc.lastStates.length
  · rw [reportSensor_lastStates s i hi]
    split
    · next hj => exact .inr (by rw [hj])
    · exact .inl rfl
  · have hset : setAt s.mmc.lastStates i (s.sensorState i) = s.mmc.lastStates := List.set_eq_of_length_le (Nat.le_of_not_lt hi)
    rcases reportSensor_cases s i with ⟨-, h⟩ | ⟨-, h | ⟨v, h⟩⟩ <;> rw [h]
    · exact .inl rfl
    · exact .inl (by rw [State.noteSensor, State.modMmc, hset])
    · exact .inl (by rw [sendSensor_lastStates, State.noteSensor, State.modMmc, hset])

/-! ## Where events go -/

/-- The message of a sensor event to an event receiver. -/
def SensorEvt.message (b : Binding) (eid : Nat) (e : SensorEvt) : OutMsg := .mctp b (.pldmRequest 2 0x0A [eid, e.sensor, e.value])

/-- An event is sent to the receiver by a controller that runs, for a sensor that is enabled, or not at all. -/
theorem sendSensor_out (s : State) (e : SensorEvt) : (s.sendSensor e).out = s.out ∨
    (s.mmc.disabled.contains e.sensor = false ∧ s.mmc.restarting = false ∧
      ∃ b eid, s.mmc.receiver = some (b, eid) ∧ (s.sendSensor e).out = s.out ++ [e.message b eid]) := by
  unfold State.sendSensor
  split
  · exact .inl rfl
  · next henabled =>
    split
    · exact .inl rfl
    · next hruns =>
      split
      · next b eid hreceiver =>
        split
        · exact .inr ⟨by simpa using henabled, by simpa using hruns, b, eid, hreceiver, rfl⟩
        · exact .inl rfl
      · exact .inl rfl

/-- Events wait only while the controller restarts (R448). -/
theorem sendSensor_waitEvts {s : State} (h : s.mmc.restarting = false) (e : SensorEvt) :
    (s.sendSensor e).mmc.waitEvts = s.mmc.waitEvts := by
  unfold State.sendSensor
  split
  · rfl
  · rw [if_neg (by simp [h])]
    (repeat' split) <;> rfl

theorem reportSensor_out (s : State) (i : Nat) : (s.reportSensor i).out = s.out ∨
    (s.sensorState i ≠ s.mmc.lastStates.getD i 0 ∧ s.mmc.disabled.contains i = false ∧ s.mmc.restarting = false ∧
      ∃ b eid v, s.mmc.receiver = some (b, eid) ∧ (s.reportSensor i).out = s.out ++ [SensorEvt.message b eid ⟨i, v⟩]) := by
  rcases reportSensor_cases s i with ⟨-, h⟩ | ⟨hchanged, h | ⟨v, h⟩⟩ <;> rw [h]
  · exact .inl rfl
  · exact .inl rfl
  · rcases sendSensor_out (s.noteSensor i) ⟨i, v⟩ with hout | ⟨henabled, hruns, b, eid, hreceiver, hout⟩
    · exact .inl hout
    · exact .inr ⟨hchanged, henabled, hruns, b, eid, v, hreceiver, hout⟩

theorem reportSensor_waitEvts {s : State} (hruns : s.mmc.restarting = false) (i : Nat) :
    (s.reportSensor i).mmc.waitEvts = s.mmc.waitEvts := by
  rcases reportSensor_cases s i with ⟨-, h⟩ | ⟨-, h | ⟨v, h⟩⟩ <;> rw [h]
  · rfl
  · exact sendSensor_waitEvts (s := s.noteSensor i) hruns _

/-! ## All sensors -/

/-- The states of the sensors of a list are noted one by one. -/
def State.reportAll (s : State) (xs : List Nat) : State := xs.foldl State.reportSensor s

theorem reportAll_noted (xs : List Nat) (s : State) : noted s (s.reportAll xs) := by
  induction xs generalizing s with
  | nil => exact .refl s
  | cons i xs ih => exact (reportSensor_noted s i).trans (ih _)

theorem reportAll_notes (xs : List Nat) (s : State) (j : Nat) :
    (s.reportAll xs).mmc.lastStates.getD j 0 = s.mmc.lastStates.getD j 0 ∨
      (s.reportAll xs).mmc.lastStates.getD j 0 = s.sensorState j := by
  induction xs generalizing s with
  | nil => exact .inl rfl
  | cons i xs ih =>
    rcases ih (s.reportSensor i) with h | h
    · exact (reportSensor_notes s i j).imp h.trans h.trans
    · exact .inr (h.trans ((reportSensor_noted s i).sensorState j))

theorem reportAll_lastStates (xs : List Nat) (s : State) (j : Nat) (hj : j ∈ xs) (hlen : j < s.mmc.lastStates.length) :
    (s.reportAll xs).mmc.lastStates.getD j 0 = s.sensorState j := by
  induction xs generalizing s with
  | nil => cases hj
  | cons i xs ih =>
    have hstate := (reportSensor_noted s i).sensorState j
    rcases List.mem_cons.mp hj with rfl | hj
    · have hnoted := reportSensor_lastStates s j hlen j
      rw [if_pos rfl] at hnoted
      exact (reportAll_notes xs (s.reportSensor j) j).elim (·.trans hnoted) (·.trans hstate)
    · exact (ih _ hj (by rwa [reportSensor_length])).trans hstate

theorem reportAll_waitEvts (xs : List Nat) {s : State} (hruns : s.mmc.restarting = false) :
    (s.reportAll xs).mmc.waitEvts = s.mmc.waitEvts := by
  induction xs generalizing s with
  | nil => rfl
  | cons i xs ih => exact (ih ((reportSensor_noted s i).restarting.trans hruns)).trans (reportSensor_waitEvts hruns i)

/-- Without a receiver, or while the controller restarts, nothing is sent (R440, R448). -/
theorem reportAll_silent (xs : List Nat) {s : State} (h : s.mmc.restarting = true ∨ s.mmc.receiver = none) :
    (s.reportAll xs).out = s.out := by
  induction xs generalizing s with
  | nil => rfl
  | cons i xs ih =>
    have hnoted := reportSensor_noted s i
    refine (ih (by rwa [hnoted.restarting, hnoted.receiver])).trans ?_
    rcases reportSensor_out s i with hout | ⟨-, -, hruns, b, eid, v, hreceiver, -⟩
    · exact hout
    · simp [hruns, hreceiver] at h

/-- What is sent are events of enabled sensors whose states have changed (R440). -/
theorem reportAll_events (xs : List Nat) {s : State} {b : Binding} {eid : Nat} (hreceiver : s.mmc.receiver = some (b, eid)) :
    ∃ es : List SensorEvt, (s.reportAll xs).out = s.out ++ es.map (SensorEvt.message b eid) ∧ ∀ e ∈ es, e.sensor ∈ xs ∧
      s.mmc.disabled.contains e.sensor = false ∧ s.sensorState e.sensor ≠ s.mmc.lastStates.getD e.sensor 0 := by
  induction xs generalizing s with
  | nil => exact ⟨[], by simp [State.reportAll], by simp⟩
  | cons i xs ih =>
    have hnoted := reportSensor_noted s i
    obtain ⟨es, hout, hes⟩ := ih (s := s.reportSensor i) (hnoted.receiver.trans hreceiver)
    have hlater : ∀ e ∈ es, e.sensor ∈ i :: xs ∧ s.mmc.disabled.contains e.sensor = false ∧
        s.sensorState e.sensor ≠ s.mmc.lastStates.getD e.sensor 0 := fun e he => by
      obtain ⟨hmem, henabled, hchanged⟩ := hes e he
      rw [hnoted.sensorState] at hchanged
      refine ⟨List.mem_cons_of_mem _ hmem, hnoted.disabled ▸ henabled, ?_⟩
      exact (reportSensor_notes s i e.sensor).elim (fun h => h ▸ hchanged) (fun h => absurd h.symm hchanged)
    rcases reportSensor_out s i with hsilent | ⟨hchanged, henabled, -, b', eid', v, hto, hsent⟩
    · exact ⟨es, hout.trans (by rw [hsilent]), hlater⟩
    · obtain ⟨rfl, rfl⟩ : b' = b ∧ eid' = eid := by simpa [hreceiver, eq_comm] using hto
      refine ⟨⟨i, v⟩ :: es, hout.trans (by rw [hsent]; simp), fun e he => ?_⟩
      rcases List.mem_cons.mp he with rfl | he
      · exact ⟨List.mem_cons_self, henabled, hchanged⟩
      · exact hlater e he

theorem contains_enable (l : List Nat) (i op x : Nat) :
    ((if op = 0 then [] else [i]) ++ l.filter (· != i)).contains x = if x = i then decide (op ≠ 0) else l.contains x := by
  by_cases hx : x = i <;> by_cases hop : op = 0 <;> simp [hx, hop]

/-- Settles O49: a request is served or lost, and a report notes each sensor in turn. Which sensors there are and how they are numbered
are the model's readings (log 67). -/
theorem sensors : Obligations.Sensors := by
  intro s
  refine ⟨fun b h => ⟨fun i => ⟨serve_lost _ h, serve_lost _ h⟩, fun i op => serve_lost _ h, fun e => serve_lost _ h⟩,
    fun b h => ⟨fun i hi => serve_next_pos _ _ h hi, fun i hi => serve_next_neg _ _ h (Nat.not_lt.mpr hi),
      fun i hlo hhi => serve_next_pos _ _ h ⟨hlo, hhi⟩, fun i hi => serve_next_neg _ _ h (by omega),
      fun i op hbad => serve_next_pos _ _ h hbad, fun i op hi hop => ⟨_, serve_next_neg _ _ h (by omega), rfl, fun x => ?_⟩,
      fun e => serve_next _ h⟩,
    s.reportAll (List.range 29), rfl, ?_, fun i hi hlen => reportAll_lastStates _ s i (List.mem_range.mpr hi) hlen,
    fun h => reportAll_silent _ (.inl h), fun h => reportAll_waitEvts _ h, fun _ h => reportAll_silent _ (.inr h),
    fun b eid h => ?_⟩
  · exact contains_enable s.mmc.disabled i op x
  · exact reportAll_noted _ s
  · obtain ⟨es, hout, hes⟩ := reportAll_events (List.range 29) h
    refine ⟨es, hout, fun e he => ?_⟩
    obtain ⟨hmem, henabled, hchanged⟩ := hes e he
    exact ⟨List.mem_range.mp hmem, henabled, hchanged⟩

end Sys2Proof.Machine
end

