-- ==== Sys2Proof/Proofs/Temperatures.lean ====
section
/-! SUPPORT. Readings taken, die pairs that throttle, and the settings of a die that take effect (R428 to R430, R433, R436). -/

namespace Sys2Proof.Machine

open Sys2Proof.Safety

theorem getD_modAt {α : Type} (l : List α) (n m : Nat) (f : α → α) (d : α) (h : n < l.length) :
    (modAt l n f).getD m d = if m = n then f (l.getD n d) else l.getD m d := by
  simp only [modAt, List.getD_eq_getElem?_getD, List.getElem?_modify]
  by_cases hm : n = m
  · subst hm
    simp [h]
  · simp [hm, Ne.symm hm]

theorem getD_setAt_ne {α : Type} (l : List α) {n m : Nat} (v d : α) (h : m ≠ n) : (setAt l n v).getD m d = l.getD m d := by
  simp [setAt, List.getD_eq_getElem?_getD, List.getElem?_set_ne h.symm]

/-- With the rails on the hardware's protection acts (R429 to R431). -/
theorem onRails_next {s : State} (f : State → State) (h : s.chip.power ≠ .off) (h2 : s.chip.power ≠ .tripped) :
    (.next (s.onRails f) : Host.Outcome State Fault Refusal) = .next (f s) := congrArg _ (if_neg (not_or.mpr ⟨h, h2⟩))

theorem onRails_reporting {s : State} (f : State → State) (h : s.chip.power ≠ .off) (h2 : s.chip.power ≠ .tripped) :
    (.next (s.reporting (·.onRails f)) : Host.Outcome State Fault Refusal) = .next (f s).reportSensors :=
  congrArg (fun u => Host.Outcome.next (State.reportSensors u)) (if_neg (not_or.mpr ⟨h, h2⟩))

/-! ## Readings (R429, R436) -/

theorem take_throttled (rs : List Reading) (g : Gov) : (rs.foldl Gov.take g).throttled = g.throttled :=
  foldl_keeps Gov.throttled Gov.take (fun _ _ => rfl) rs g

theorem take_temps (rs : List Reading) (g : Gov) (i : Nat) (h : ∀ r ∈ rs, r.group ≠ i) :
    (rs.foldl Gov.take g).temps.getD i 0 = g.temps.getD i 0 := by
  induction rs generalizing g with
  | nil => rfl
  | cons r rs ih =>
    obtain ⟨hr, hrs⟩ := List.forall_mem_cons.mp h
    exact (ih _ hrs).trans (getD_setAt_ne _ _ _ hr.symm)

theorem take_length (rs : List Reading) (g : Gov) : (rs.foldl Gov.take g).tempMax.length = g.tempMax.length :=
  foldl_keeps (·.tempMax.length) Gov.take (fun _ _ => by simp [Gov.take, modAt]) rs g

theorem Gov.take_tempMax (g : Gov) (r : Reading) (i : Nat) : g.tempMax.getD i 0 ≤ (g.take r).tempMax.getD i 0 := by
  by_cases hr : r.group < g.tempMax.length
  · rw [Gov.take, getD_modAt _ _ _ _ _ hr]
    split
    · next hi => exact hi ▸ le_max_right _ _
    · exact le_rfl
  · rw [Gov.take, modAt, List.modify_eq_self (Nat.le_of_not_lt hr)]

theorem take_tempMax (rs : List Reading) (g : Gov) (i : Nat) : g.tempMax.getD i 0 ≤ (rs.foldl Gov.take g).tempMax.getD i 0 := by
  induction rs generalizing g with
  | nil => exact le_rfl
  | cons r rs ih => exact (g.take_tempMax r i).trans (ih _)

theorem take_highest (rs : List Reading) (g : Gov) (r : Reading) (hr : r ∈ rs) (hg : r.group < g.tempMax.length) :
    r.temp ≤ (rs.foldl Gov.take g).tempMax.getD r.group 0 := by
  induction rs generalizing g with
  | nil => cases hr
  | cons x rs ih =>
    rcases List.mem_cons.mp hr with rfl | hr
    · refine le_trans ?_ (take_tempMax rs _ _)
      rw [Gov.take, getD_modAt _ _ _ _ _ hg, if_pos rfl]
      exact le_max_left _ _
    · exact ih _ hr (by simpa [Gov.take, modAt] using hg)

/-! ## Die pairs that start to throttle (R429) -/

/-- Nothing but which die pairs throttle, and events, has changed. -/
def heeded (s t : State) : Prop :=
  t = { s with gov := { s.gov with throttled := t.gov.throttled }, out := t.out, hif := { s.hif with evts := t.hif.evts } }

theorem heeded.refl (s : State) : heeded s s := rfl

theorem heeded.trans {s t u : State} (h : heeded s t) (g : heeded t u) : heeded s u := by
  unfold heeded at *
  rw [g, h]

theorem heeded.hottest {s t : State} (h : heeded s t) (d : Nat) : t.gov.hottest d = s.gov.hottest d := by rw [h]; rfl

theorem heedDie_heeded (s : State) (d : Nat) : heeded s (s.heedDie d) := by
  unfold State.heedDie
  split
  · exact .refl s
  · have hposted := State.postEvent_posted (s := s.modGov fun g => { g with throttled := setAt g.throttled d true }) .pf
      Code.thermalThrottle []
    rw [hposted]
    rfl

theorem heedDie_throttled (s : State) (d e : Nat) (he : e < s.gov.throttled.length) :
    (s.heedDie d).gov.throttled.getD e false =
      (s.gov.throttled.getD e false || (decide (e = d) && decide (760 ≤ s.gov.hottest d))) := by
  unfold State.heedDie
  split
  · next h =>
    by_cases hed : e = d
    · subst hed
      rcases h with h | h
      · rw [h]; rfl
      · simp [h]
    · simp [hed]
  · next h =>
    obtain ⟨-, hhot⟩ := not_or.mp h
    simp only [State.postEvent_frame]
    by_cases hed : e = d
    · subst hed
      refine (getD_setAt _ _ _ _ _ he).trans ?_
      simp [Int.not_lt.mp hhot]
    · refine (getD_setAt_ne _ _ _ hed).trans ?_
      simp [hed]

theorem heedDie_length (s : State) (d : Nat) : (s.heedDie d).gov.throttled.length = s.gov.throttled.length := by
  unfold State.heedDie
  split
  · rfl
  · simp [State.modGov, setAt]

theorem heedDies_heeded (ds : List Nat) (s : State) : heeded s (ds.foldl State.heedDie s) := by
  induction ds generalizing s with
  | nil => exact .refl s
  | cons d ds ih => exact (heedDie_heeded s d).trans (ih _)

theorem heedDies_throttled (ds : List Nat) (s : State) (e : Nat) (he : e < s.gov.throttled.length) :
    (ds.foldl State.heedDie s).gov.throttled.getD e false =
      (s.gov.throttled.getD e false || (decide (e ∈ ds) && decide (760 ≤ s.gov.hottest e))) := by
  induction ds generalizing s with
  | nil => simp
  | cons d ds ih =>
    rw [List.foldl_cons, ih _ (by rwa [heedDie_length]), heedDie_throttled s d e he, (heedDie_heeded s d).hottest]
    by_cases hed : e = d
    · subst hed
      cases s.gov.throttled.getD e false <;> simp
    · simp [hed]

/-! ## Settings that take effect on one die (R428, R433) -/

section
variable {s : State} {d : Nat}

theorem settleDie_eq (s : State) (d : Nat) : s.settleDie d = { s with gov := { s.gov with
    actual := setAt s.gov.actual d (max (s.arithStep d) (s.wantStep d))
    raising := setAt s.gov.raising d (decide (s.wantStep d < s.arithStep d)), belowAt := (s.settleDie d).gov.belowAt } } := by
  unfold State.settleDie
  dsimp only
  split <;> rfl

theorem settleDie_wantStep (s : State) (d e : Nat) : (s.settleDie d).wantStep e = s.wantStep e := by rw [settleDie_eq]; rfl

theorem settleDie_issueCap (s : State) (d e : Nat) : (s.settleDie d).issueCap e = s.issueCap e := by rw [settleDie_eq]; rfl

theorem settleDie_arithStep (h : d < s.gov.actual.length) (e : Nat) :
    (s.settleDie d).arithStep e = if e = d then max (s.arithStep d) (s.wantStep d) else s.arithStep e := by
  rw [settleDie_eq]
  exact getD_setAt _ _ _ _ _ h

/-- A change of the governor whose settings then take effect on a die is one of the governor. -/
theorem settleDie_modGov (s : State) (f : Gov → Gov) (d : Nat) :
    (s.modGov f).settleDie d = { s with gov := ((s.modGov f).settleDie d).gov } := by
  rw [settleDie_eq]
  rfl

/-! ## Steps down and up (R429) -/

/-- The state in which a die's thermal step is `w`. -/
def State.thermAt (s : State) (d w : Nat) : State := s.modGov (fun g => { g with thermStep := setAt g.thermStep d w })

/-- The state in which a die's thermal issue cap is `n`. -/
def State.capAt (s : State) (d n : Nat) : State := s.modGov (fun g => { g with thermCap := setAt g.thermCap d n })

theorem doThrottleStep_off (h : s.gov.throttled.getD d false = false ∨ s.gov.hottest d < 760) : s.doThrottleStep d = s :=
  if_pos (by simpa using h)

section
variable (hthrottled : s.gov.throttled.getD d false = true) (hhot : 760 ≤ s.gov.hottest d)
include hthrottled hhot

theorem doThrottleStep_arith (h : s.wantStep d < 3) : s.doThrottleStep d = (s.thermAt d (s.wantStep d + 1)).settleDie d := by
  have hopen : ¬((!s.gov.throttled.getD d false) = true ∨ s.gov.hottest d < 760) := by rw [hthrottled]; simpa using hhot
  exact (if_neg hopen).trans (if_pos h)

theorem doThrottleStep_waits (h : 3 ≤ s.wantStep d) (hms : s.gov.minMs.getD d 0 < 10) :
    s.doThrottleStep d = s.modGov (fun g => { g with minMs := modAt g.minMs d (· + 1) }) := by
  have hopen : ¬((!s.gov.throttled.getD d false) = true ∨ s.gov.hottest d < 760) := by rw [hthrottled]; simpa using hhot
  exact (if_neg hopen).trans ((if_neg (Nat.not_lt.mpr h)).trans (if_pos hms))

theorem doThrottleStep_cap (h : 3 ≤ s.wantStep d) (hms : 10 ≤ s.gov.minMs.getD d 0) :
    s.doThrottleStep d = (s.capAt d (max 1 (s.issueCap d - 1))).settleDie d := by
  have hopen : ¬((!s.gov.throttled.getD d false) = true ∨ s.gov.hottest d < 760) := by rw [hthrottled]; simpa using hhot
  exact (if_neg hopen).trans ((if_neg (Nat.not_lt.mpr h)).trans (if_neg (Nat.not_lt.mpr hms)))

end

theorem thermAt_wantStep (s : State) (d w e : Nat) : (s.thermAt d w).wantStep e = max (max (classStep s.cls) s.gov.limitStep)
    (max ((setAt s.gov.thermStep d w).getD e 0) (if s.gov.inputBad then 3 else 0)) := rfl

theorem thermAt_wantStep_ne (s : State) (w : Nat) {e : Nat} (h : e ≠ d) : (s.thermAt d w).wantStep e = s.wantStep e := by
  rw [thermAt_wantStep, getD_setAt_ne _ _ _ h]
  rfl

/-- A step beyond the slowest setting in force is the step that the die is to run at. -/
theorem thermAt_wantStep_next (hlen : d < s.gov.thermStep.length) (h : s.wantStep d < 3) :
    (s.thermAt d (s.wantStep d + 1)).wantStep d = s.wantStep d + 1 := by
  rw [thermAt_wantStep, getD_setAt _ _ _ _ _ hlen, if_pos rfl]
  unfold State.wantStep at h ⊢
  omega

theorem doThrottleRestore_off (h : s.gov.throttled.getD d false = false ∨ 720 ≤ s.gov.hottest d) : s.doThrottleRestore d = s :=
  if_pos (by simpa using h)

/-- The settings of a die one step up, the issue cap first. -/
def State.restored (s : State) (d : Nat) : Gov :=
  if s.gov.thermCap.getD d 8 < classCap s.cls s.gradeS then { s.gov with thermCap := modAt s.gov.thermCap d (· + 1) }
  else { s.gov with thermStep := modAt s.gov.thermStep d (· - 1) }

theorem doThrottleRestore_on (hthrottled : s.gov.throttled.getD d false = true) (hcool : s.gov.hottest d < 720) : s.doThrottleRestore d =
    (s.modGov fun _ => (s.restored d).unthrottle d (classStep s.cls) (classCap s.cls s.gradeS)).settleDie d := by
  have hopen : ¬((!s.gov.throttled.getD d false) = true ∨ 720 ≤ s.gov.hottest d) := by rw [hthrottled]; simpa using hcool
  exact if_neg hopen

theorem restored_cap (h : s.gov.thermCap.getD d 8 < classCap s.cls s.gradeS) :
    s.restored d = { s.gov with thermCap := modAt s.gov.thermCap d (· + 1) } := if_pos h

theorem restored_arith (h : classCap s.cls s.gradeS ≤ s.gov.thermCap.getD d 8) :
    s.restored d = { s.gov with thermStep := modAt s.gov.thermStep d (· - 1) } := if_neg (Nat.not_lt.mpr h)

theorem Gov.unthrottle_not {g : Gov} {step cap : Nat} (h : step < g.thermStep.getD d 0 ∨ g.thermCap.getD d 8 < cap) :
    g.unthrottle d step cap = g := if_neg (by omega)

theorem Gov.unthrottle_done {g : Gov} {step cap : Nat} (h : g.thermStep.getD d 0 ≤ step) (h2 : cap ≤ g.thermCap.getD d 8) :
    (g.unthrottle d step cap).throttled = setAt g.throttled d false := congrArg Gov.throttled (if_pos ⟨h, h2⟩)

end

/-- Settles O46: readings are taken one by one, die pairs heeded one by one, and a step changes one setting of its die. -/
theorem temperatures : Obligations.Temperatures := by
  intro s hoff htripped
  refine ⟨fun rs r htrip => ?_, fun rs hnone => ?_, fun d h => ?_, fun d hthrottled hhot hstep hactual => ⟨fun hlow => ?_, fun hslow hms => ?_,
    fun hslow hms hcap => ?_⟩, fun d h => ?_, fun d hthrottled hcool hcap hstep => ⟨fun hlow => ?_, fun hfull hslow => ?_,
    fun hfull hback hlen => ?_⟩⟩
  · have hthermal : s.doThermalSample rs = (s.modGov fun g => rs.foldl Gov.take g).shutDown 3 r.group r.temp := by
      simp only [State.doThermalSample, htrip]
    have hshut : (s.modGov fun g => rs.foldl Gov.take g).shutDown 3 r.group r.temp = _ := if_neg (not_or.mpr ⟨hoff, htripped⟩)
    refine ⟨_, onRails_reporting _ hoff htripped, ?_⟩
    rw [hthermal, hshut]
    exact ⟨rfl, take_throttled rs s.gov⟩
  · have hthermal : s.doThermalSample rs = (List.range 4).foldl State.heedDie (s.modGov fun g => rs.foldl Gov.take g) := by
      simp only [State.doThermalSample, hnone]
    have hheeded := heedDies_heeded (List.range 4) (s.modGov fun g => rs.foldl Gov.take g)
    refine ⟨_, onRails_reporting _ hoff htripped, ?_⟩
    rw [hthermal]
    refine ⟨?_, fun d hd hlen => ?_, ?_⟩
    · rw [hheeded]
      rfl
    · have hthrottled := take_throttled rs s.gov
      rw [hheeded.hottest, heedDies_throttled _ _ d (by simpa [State.modGov, hthrottled] using hlen)]
      simp [State.modGov, hthrottled, hd]
    · rw [hheeded]
      exact ⟨take_temps rs s.gov, take_tempMax rs s.gov, fun r hr hg => take_highest rs s.gov r hr hg⟩
  · exact (onRails_next _ hoff htripped).trans (congrArg _ (doThrottleStep_off h))
  · refine ⟨_, (onRails_next _ hoff htripped).trans (congrArg _ (doThrottleStep_arith hthrottled hhot hlow)), settleDie_modGov _ _ _, ?_, ?_,
      fun e he => ⟨?_, ?_⟩⟩
    · rw [settleDie_wantStep, thermAt_wantStep_next hstep hlow]
    · rw [settleDie_arithStep (s := s.thermAt d (s.wantStep d + 1)) hactual, if_pos rfl, thermAt_wantStep_next hstep hlow]
      rfl
    · rw [settleDie_wantStep, thermAt_wantStep_ne _ _ he]
    · rw [settleDie_arithStep (s := s.thermAt d (s.wantStep d + 1)) hactual, if_neg he]
      rfl
  · exact (onRails_next _ hoff htripped).trans (congrArg _ (doThrottleStep_waits hthrottled hhot hslow hms))
  · refine ⟨_, (onRails_next _ hoff htripped).trans (congrArg _ (doThrottleStep_cap hthrottled hhot hslow hms)), settleDie_modGov _ _ _, ?_,
      fun e he => ?_⟩
    · rw [settleDie_eq]
      exact (getD_setAt _ _ _ _ _ hcap).trans (if_pos rfl)
    · rw [settleDie_issueCap]
      simp only [State.capAt, State.modGov, State.issueCap, getD_setAt_ne _ _ _ he]
  · exact (onRails_next _ hoff htripped).trans (congrArg _ (doThrottleRestore_off h))
  · have hgov := restored_cap (s := s) (d := d) (by omega)
    have hcap' : (s.restored d).thermCap.getD d 8 = s.gov.thermCap.getD d 8 + 1 := by
      rw [hgov]
      simpa using getD_modAt s.gov.thermCap d d (· + 1) 8 hcap
    have hkept := Gov.unthrottle_not (d := d) (step := classStep s.cls) (.inr (hcap' ▸ hlow))
    refine ⟨_, (onRails_next _ hoff htripped).trans (congrArg _ (doThrottleRestore_on hthrottled hcool)), settleDie_modGov _ _ _, ?_⟩
    rw [settleDie_eq, hkept]
    exact ⟨hcap', by rw [hgov]; rfl, by rw [hgov]; rfl⟩
  · have hgov := restored_arith hfull
    have hstep' : (s.restored d).thermStep.getD d 0 = s.gov.thermStep.getD d 0 - 1 := by
      rw [hgov]
      simpa using getD_modAt s.gov.thermStep d d (· - 1) 0 hstep
    have hkept := Gov.unthrottle_not (d := d) (g := s.restored d) (step := classStep s.cls) (cap := classCap s.cls s.gradeS) (.inl (by omega))
    refine ⟨_, (onRails_next _ hoff htripped).trans (congrArg _ (doThrottleRestore_on hthrottled hcool)), settleDie_modGov _ _ _, ?_⟩
    rw [settleDie_eq, hkept]
    exact ⟨hstep', by rw [hgov]; rfl, by rw [hgov]; rfl⟩
  · have hgov := restored_arith hfull
    have hstep' : (s.restored d).thermStep.getD d 0 = s.gov.thermStep.getD d 0 - 1 := by
      rw [hgov]
      simpa using getD_modAt s.gov.thermStep d d (· - 1) 0 hstep
    have hdone := Gov.unthrottle_done (d := d) (g := s.restored d) (step := classStep s.cls) (cap := classCap s.cls s.gradeS) (by omega)
      (by rw [hgov]; exact hfull)
    refine ⟨_, (onRails_next _ hoff htripped).trans (congrArg _ (doThrottleRestore_on hthrottled hcool)), settleDie_modGov _ _ _, ?_⟩
    rw [settleDie_eq]
    refine (congrArg (·.getD d false) hdone).trans ?_
    rw [hgov]
    exact (getD_setAt _ _ _ _ _ hlen).trans (if_pos rfl)

end Sys2Proof.Machine
end

