-- ==== Sys2Proof/Proofs/PinsAndFullReset.lean ====
section
/-! SUPPORT. What a full reset keeps and what it leaves, and what HX_PWR_EN and PERST# do (R392, R411, R412, R415, R430, R448, R478 to
R480). -/

namespace Sys2Proof.Machine

open Sys2Proof.Safety

/-! ## What has left the module stays sent -/

section
variable (s : State)

theorem State.writeEvent_out (fn : Fn) (body : Bytes) : s.out <+: (s.writeEvent fn body).out := by
  unfold State.writeEvent
  dsimp only
  split
  · exact List.prefix_append ..
  · exact (List.prefix_append ..).trans (List.prefix_append ..)

theorem State.pushEvent_out (fn : Fn) (body : Bytes) : s.out <+: (s.pushEvent fn body).out := by
  unfold State.pushEvent
  dsimp only
  split
  · exact s.writeEvent_out fn body
  · split <;> exact List.prefix_rfl

theorem State.postEvent_out (ring : Fn) (code : Nat) (detail : Bytes) : s.out <+: (s.postEvent ring code detail).out := by
  cases ring with
  | pf => exact s.pushEvent_out _ _
  | vf p =>
    unfold State.postEvent
    dsimp only
    split
    · exact (s.pushEvent_out _ _).trans (State.pushEvent_out _ _ _)
    · exact s.pushEvent_out _ _

theorem State.fuseEntry_out (p kind place cause : Nat) : s.out <+: (s.fuseEntry p kind place cause).out := by
  unfold State.fuseEntry
  split
  · exact s.postEvent_out _ _ _
  · exact List.prefix_rfl

theorem State.foldl_out_prefix {ι : Type} (f : State → ι → State) (l : List ι) (h : ∀ a i, a.out <+: (f a i).out) :
    s.out <+: (l.foldl f s).out := by
  induction l generalizing s with
  | nil => exact List.prefix_rfl
  | cons i l ih => exact (h s i).trans (ih _)

theorem State.fuseFailing_out (p : Nat) : s.out <+: (s.fuseFailing p).out :=
  s.foldl_out_prefix _ _ fun a _ => a.fuseEntry_out _ _ _ _

theorem State.retireMarked_out (d : Nat) : s.out <+: (s.retireMarked d).out :=
  (s.setSlice d _).foldl_out_prefix _ _ fun a _ => (a.postEvent_out _ _ _).trans (State.fuseEntry_out _ _ _ _ _)

end

/-! ## The full reset (R411, R413) -/

/-- What waited for its retirement has its entries. -/
def State.allRetired (s : State) : State := [0, 1, 2, 3].foldl State.retireMarked ([0, 1, 2, 3].foldl State.fuseFailing s)

/-- The state that a full reset starts from: while the rails stay good, what waits for its retirement gets its entries. -/
def State.beforeReset (s : State) (powerUp : Bool) : State := if powerUp then s else s.allRetired

/-- The chip but its field-repair bank and the failed cores that wait. -/
def Chip.pins (c : Chip) : Chip := { c with bank := [], failing := [] }

theorem Chip.pins_of_unfused {c d : Chip} (h : c.unfused = d.unfused) : c.pins = d.pins := (congrArg Chip.pins h :)

/-- The chip after a full reset that leaves the field-repair bank as `bank`. -/
def Chip.restarted (c : Chip) (cause : Nat) (powerUp : Bool) (bank : List Nat) : Chip :=
  { Chip.reset with
    perst := c.perst, perstSeen := c.perstSeen, perstHeld := c.perstHeld, straps := c.straps, trip := c.trip, lastCause := cause
    stepping := c.stepping, deepNext := powerUp, nextDeep := c.nextDeep, memErr := c.memErr, fuseCores := c.fuseCores
    fuseChans := c.fuseChans, fuseSlabs := c.fuseSlabs, bank := bank }

section
variable (s : State) (cause : Nat) (powerUp : Bool)

theorem State.fuseFailing_pins (p : Nat) : (s.fuseFailing p).chip.pins = s.chip.pins := by
  unfold State.fuseFailing
  refine foldl_keeps (fun u : State => u.chip.pins) _ (fun a f => ?_) _ _
  exact (Chip.pins_of_unfused (State.fuseEntry_unfused a p 1 (corePlace f.phys) f.cause) :)

theorem State.beforeReset_pins : (s.beforeReset powerUp).chip.pins = s.chip.pins := by
  unfold State.beforeReset
  split
  · rfl
  · exact (foldl_keeps (fun u : State => u.chip.pins) _ (fun a d => Chip.pins_of_unfused (a.retireMarked_unfused d)) _ _).trans
      (foldl_keeps (fun u : State => u.chip.pins) _ (fun a p => a.fuseFailing_pins p) _ _)

theorem State.beforeReset_frame : (s.beforeReset powerUp).pending = s.pending ∧ (s.beforeReset powerUp).gradeS = s.gradeS ∧
    (s.beforeReset powerUp).serial = s.serial ∧ (s.beforeReset powerUp).mmc = s.mmc := by
  unfold State.beforeReset State.allRetired
  split <;> simp

theorem State.beforeReset_out : s.out <+: (s.beforeReset powerUp).out := by
  unfold State.beforeReset
  split
  · exact List.prefix_rfl
  · exact (s.foldl_out_prefix _ _ State.fuseFailing_out).trans (State.foldl_out_prefix _ _ _ State.retireMarked_out)

theorem State.fullReset_eq : s.fullReset cause powerUp = { State.reset with
    pending := (s.beforeReset powerUp).pending, freeCtr := (s.beforeReset powerUp).freeCtr, gradeS := (s.beforeReset powerUp).gradeS
    serial := (s.beforeReset powerUp).serial, out := (s.beforeReset powerUp).out, mmc := (s.beforeReset powerUp).mmc.rebooted
    chip := (s.fullReset cause powerUp).chip } := rfl

/-- Pins, straps, fuses and the trip record outlast a full reset; the rest of the chip is as after power-up but for the bank, and for
why the reset ran (R411, R412, R415). -/
theorem State.fullReset_chip :
    (s.fullReset cause powerUp).chip = s.chip.restarted cause powerUp (s.fullReset cause powerUp).chip.bank :=
  (congrArg (fun c : Chip => c.restarted cause powerUp (s.fullReset cause powerUp).chip.bank) (s.beforeReset_pins powerUp) :)

/-- A full reset is one: everything but the queue of commands, the part's fuses, pins and flash is as after power-up (R411). -/
theorem State.fullReset_spec : fullyReset s (s.fullReset cause powerUp) cause := by
  obtain ⟨hpending, hgrade, hserial, -⟩ := s.beforeReset_frame powerUp
  have hgrows := State.fullReset_grows (.refl s.chip.fuses) cause powerUp
  have hfuses := s.fullReset_mmcFuses cause powerUp
  have hchip := s.fullReset_chip cause powerUp
  refine ⟨?_, s.beforeReset_out powerUp, hgrows.bank, hgrows.cores, hgrows.chans, hgrows.slabs, by rw [hchip]; rfl, by rw [hchip]; rfl,
    by rw [hchip]; rfl, by rw [hchip]; rfl, by rw [hchip]; rfl, by rw [hchip]; rfl, congrArg MmcFuses.svn hfuses,
    congrArg MmcFuses.revoked hfuses, congrArg MmcFuses.epoch hfuses, congrArg Leaves.record (s.fullReset_leaves cause powerUp), rfl, rfl⟩
  conv_lhs => rw [s.fullReset_eq, hpending, hgrade, hserial]
  rfl

end
/-! ## HX_PWR_EN (R478, R480) -/

section
variable {s : State}

/-- A full reset that starts while the module powers up has the pins as they are then, and an untouched bank (R430, R478). -/
theorem powerUp_spec (s : State) : fullyReset s s.powerUp ((s.chip.trip.map (·.1)).getD 0) ∧ s.powerUp.chip.power = .on ∧
    s.powerUp.chip.pwrEn = true ∧ s.powerUp.chip.pwrgd = true ∧ s.powerUp.chip.perst = true ∧ s.powerUp.chip.perstSeen = false ∧
    s.powerUp.chip.perstHeld = false ∧ s.powerUp.chip.deepNext = true ∧ s.powerUp.chip.bank = s.chip.bank ∧
    s.powerUp.chip.trip = s.chip.trip := by
  have hpower : s.powerUp = (s.modChip fun h => { h with perst := true, perstSeen := false, perstHeld := false }).fullReset
      ((s.chip.trip.map (·.1)).getD 0) true := by
    unfold State.powerUp
    cases s.chip.trip <;> rfl
  rw [hpower]
  exact ⟨State.fullReset_spec _ _ _, rfl, rfl, rfl, rfl, rfl, rfl, rfl, rfl, rfl⟩

theorem doPwrFall_off (h : s.chip.pwrEn = true) : s.doPwrFall = (s.fullReset s.chip.lastCause true).modChip fun c =>
    { c with power := .off, pwrEn := false, pwrgd := false, thermtrip := false, regAlert := false } := by
  simp [State.doPwrFall, h]

/-! ## PERST# and requested full resets (R412, R448, R479) -/

theorem requestFullReset_waits (cause : Nat) (h : s.mmc.restarting = true) :
    s.requestFullReset cause = s.modChip fun c => { c with waitFull := some cause } := if_pos h

theorem requestFullReset_runs (cause : Nat) (h : s.mmc.restarting = false) : s.requestFullReset cause = s.fullReset cause false :=
  if_neg (by simp [h])

/-- The first assertion only holds the endpoint, and so does one of a module without power (R479). -/
theorem doPerstAssert_holds (h : s.chip.perst = true ∨ s.chip.perstSeen = false ∨ s.chip.power = .off ∨ s.chip.power = .tripped) :
    s.doPerstAssert = s.modChip fun c => { c with perst := true } := if_pos (by simpa using h)

/-- A later one asks for a full reset (R479). -/
theorem doPerstAssert_resets (hp : s.chip.perst = false) (hseen : s.chip.perstSeen = true) (hoff : s.chip.power ≠ .off)
    (htripped : s.chip.power ≠ .tripped) :
    s.doPerstAssert = (s.modChip fun c => { c with perst := true, perstHeld := true }).requestFullReset 1 :=
  if_neg (by simp [hp, hseen, hoff, htripped])

/-- A command whose effect is known, with the sensor events that follow (R440). -/
theorem reporting_eq {f : State → State} {u : State} (h : f s = u) :
    (.next (s.reporting f) : Host.Outcome State Fault Refusal) = .next u.reportSensors := by rw [State.reporting, h]

end

/-- Settles O41: each pin either changes the chip alone or runs a full reset, whose effect is `fullReset_spec`. -/
theorem pins : Obligations.Pins := by
  intro s
  have hup := powerUp_spec s
  refine ⟨fun h b => reporting_eq (if_pos h), fun h => ⟨_, reporting_eq ((if_neg (by simp [h])).trans (if_pos rfl)), hup⟩,
    fun h => reporting_eq ((if_neg (by simp [h])).trans (if_neg (by simp))), fun h => reporting_eq (if_neg (by rcases h with h | h <;> simp [h])),
    fun hwaits hen => ⟨_, reporting_eq (if_pos (by simp [hwaits, hen])), hup⟩, fun h => reporting_eq (if_pos (by simp [h])),
    fun h => ⟨_, reporting_eq (doPwrFall_off h), ?_, rfl, rfl, rfl, rfl, rfl, rfl⟩,
    fun h => reporting_eq (doPerstAssert_holds h), fun hp hseen hoff htripped => ⟨fun hmmc => ?_, fun hmmc => ?_⟩, rfl, fun h => ?_,
    fun hon hp => ⟨fun hmmc => ?_, fun hmmc => ?_⟩⟩
  · obtain ⟨-, hkept⟩ := s.fullReset_spec s.chip.lastCause true
    exact ⟨rfl, hkept⟩
  · refine ⟨_, reporting_eq ((doPerstAssert_resets hp hseen hoff htripped).trans (requestFullReset_waits 1 hmmc)), ⟨rfl, rfl⟩, rfl, rfl⟩
  · have hchip := (s.modChip fun c => { c with perst := true, perstHeld := true }).fullReset_chip 1 false
    refine ⟨_, reporting_eq ((doPerstAssert_resets hp hseen hoff htripped).trans (requestFullReset_runs 1 hmmc)),
      State.fullReset_spec _ _ _, ?_⟩
    rw [hchip]
    exact ⟨rfl, rfl, rfl, rfl⟩
  · exact reporting_eq (if_neg (fun ⟨hon, hp⟩ => h.elim (· hon) (by simp [hp])))
  · have hacts : s.overLink (·.requestFullReset 2) = _ := (if_pos ⟨hon, hp⟩).trans (requestFullReset_waits 2 hmmc)
    exact ⟨_, reporting_eq hacts, ⟨by simp [State.modChip], rfl⟩, hp, rfl⟩
  · have hacts : s.overLink (·.requestFullReset 2) = _ := (if_pos ⟨hon, hp⟩).trans (requestFullReset_runs 2 hmmc)
    refine ⟨_, reporting_eq hacts, s.fullReset_spec 2 false, ?_⟩
    rw [s.fullReset_chip 2 false]
    exact ⟨hp, rfl, rfl⟩

end Sys2Proof.Machine
end

