-- ==== Sys2Proof/Proofs/Activation.lean ====
section
/-! SUPPORT. Firmware slots, the restart of the management controller and its end, and the activation of core firmware (R395, R405, R411,
R446 to R448). -/

namespace Sys2Proof.Machine

open Sys2Proof.Safety

/-! ## Slots (R446) -/

theorem Mmc.slotOf_setSlot (m : Mmc) {c : Nat} (inUse : Bool) (x : FwSlot) (h : c < m.slots.length) :
    (m.setSlot c inUse x).slotOf c inUse = x := by
  simp only [Mmc.slotOf, Mmc.setSlot, getD_modAt _ _ _ _ _ h, if_true]
  split <;> rfl

theorem Mmc.slotOf_setSlot_other (m : Mmc) (c : Nat) (x : FwSlot) :
    (m.setSlot c false x).slotOf c true = m.slotOf c true := by
  simp only [Mmc.slotOf, Mmc.setSlot]
  by_cases h : c < m.slots.length
  · rw [getD_modAt _ _ _ _ _ h, if_pos rfl]
    by_cases ha : m.active.getD c false = true
    · simp only [ha, if_true, Bool.true_eq_false, if_false]
    · simp only [ha, if_true, Bool.false_eq_true, if_false]
  · rw [modAt, List.modify_eq_self (Nat.le_of_not_lt h)]
    rfl

theorem Mmc.settleUpdate_eq (m : Mmc) :
    m.settleUpdate = { m with update := m.settleUpdate.update, updBy := m.settleUpdate.updBy } := by
  unfold Mmc.settleUpdate
  split <;> rfl

section
variable {s : State}

/-! ## The restart begins (R446, R448) -/

theorem mayRestart_iff (s : State) : s.mayRestart = true ↔ s.chip.power ≠ .off ∧ s.mmc.up = true ∧ s.mmc.restarting = false ∧
    s.mmc.pend.getD 0 false = true ∧ ∀ p < 4, (s.exch p).state ≠ 2 ∧ (s.exch p).state ≠ 3 ∧ (s.exch p).state ≠ 4 := by
  simp [State.mayRestart, and_assoc]

theorem doMmcRestart_waits (ok : Bool) (h : s.mayRestart = false) : s.doMmcRestart ok = s := if_pos (by simp [h])

section
variable {ok : Bool} (h : s.mayRestart = true)
include h

theorem doMmcRestart_new (hv : s.mmc.slotVerdict (s.mmc.slotOf 0 false) ok = none) :
    s.doMmcRestart ok = { s with mmc := { s.mmc.flip 0 with restarting := true, fallback := false } } := by
  simp only [State.doMmcRestart, h, hv, Bool.not_true, Bool.false_eq_true, if_false]
  rfl

/-- The controller as it restarts from the slot in use because the other one fails its check. -/
def Mmc.keepsSlot (m : Mmc) : Mmc :=
  { m.setSlot 0 false { m.slotOf 0 false with valid := false } with restarting := true, fallback := true, pend := setAt m.pend 0 false }

theorem doMmcRestart_old {code : Nat} (hv : s.mmc.slotVerdict (s.mmc.slotOf 0 false) ok = some code) :
    s.doMmcRestart ok = ((s.postEvent .pf code []).modMmc Mmc.keepsSlot).postEvent .pf Code.fwFallback [] := by
  simp only [State.doMmcRestart, h, hv, Bool.not_true, Bool.false_eq_true, if_false]
  rfl

end

/-- Events posted before and after a change of the controller. -/
theorem posted_modMmc (s : State) (a b : Nat) (f : Mmc → Mmc) :
    ((s.postEvent .pf a []).modMmc f).postEvent .pf b [] = { s with
      out := (((s.postEvent .pf a []).modMmc f).postEvent .pf b []).out
      hif := { s.hif with evts := (((s.postEvent .pf a []).modMmc f).postEvent .pf b []).hif.evts }, mmc := f s.mmc } := by
  obtain ⟨o, es, hfirst⟩ : ∃ o es, s.postEvent .pf a [] = { s with out := o, hif := { s.hif with evts := es } } :=
    ⟨_, _, State.postEvent_posted (s := s) .pf a []⟩
  rw [hfirst]
  exact State.postEvent_posted (s := State.modMmc { s with out := o, hif := { s.hif with evts := es } } f) .pf b []

/-! ## The restart is over (R447, R448) -/

theorem sendSensor_runs (h : s.mmc.restarting = false) (e : SensorEvt) : s.sendSensor e = { s with out := (s.sendSensor e).out } := by
  unfold State.sendSensor
  split
  · rfl
  · rw [if_neg (by simp [h])]
    (repeat' split) <;> rfl

theorem sendSensors_runs (es : List SensorEvt) (h : s.mmc.restarting = false) :
    es.foldl State.sendSensor s = { s with out := (es.foldl State.sendSensor s).out } := by
  induction es generalizing s with
  | nil => rfl
  | cons e es ih =>
    obtain ⟨o, hone⟩ : ∃ o, s.sendSensor e = { s with out := o } := ⟨_, sendSensor_runs h e⟩
    rw [List.foldl_cons, hone]
    exact ih h

theorem holdIfDue_part_ne {p q : Nat} (h : q ≠ p) : (s.holdIfDue p).part q = s.part q := by
  unfold State.holdIfDue State.beginHold
  split
  · split
    · rfl
    · rw [State.modExch_part, if_neg h, State.part_setPart_ne _ _ h, State.part_of_parts (s := s.abortJob p) (by simp),
        State.abortJob_part, if_neg h]
  · rfl

theorem holdIfDue_keeps_hold (p q : Nat) (h : (s.part q).hold = true) : ((s.holdIfDue p).part q).hold = true := by
  by_cases hq : q = p
  · subst hq
    unfold State.holdIfDue State.beginHold
    rw [if_pos (Or.inl h), ite_self]
    exact h
  · rw [holdIfDue_part_ne hq, h]

/-- Every partition of a list with a failed core on it is under a repair hold unless a reset forbids it (R408, R448). -/
theorem holdsIfDue_hold (ps : List Nat) {p : Nat} (hmmc : s.mmc.restarting = false)
    (hdue : ((s.part p).hold = true) ∨ (p ∈ ps ∧ s.chip.failing.any (fun g => s.partOfPhys g.phys == p) = true ∧ (s.part p).resetting = 0)) :
    ((ps.foldl State.holdIfDue s).part p).hold = true := by
  induction ps generalizing s with
  | nil => simpa using hdue
  | cons q ps ih =>
    refine ih (by simpa using hmmc) ?_
    rcases hdue with hhold | ⟨hmem, hfail, hreset⟩
    · exact .inl (holdIfDue_keeps_hold q p hhold)
    · by_cases hpq : p = q
      · subst hpq
        exact .inl (s.holdIfDue_hold p hfail hreset hmmc)
      · have hwhere : ∀ c, (s.holdIfDue q).partOfPhys c = s.partOfPhys c := fun c => partOfPhys_of (by simp) c
        refine .inr ⟨(List.mem_cons.mp hmem).resolve_left hpq, ?_, by rw [holdIfDue_part_ne hpq, hreset]⟩
        simpa only [State.holdIfDue_frame, hwhere] using hfail

/-- The controller whose restart is over. -/
def Mmc.restartOver (m : Mmc) : Mmc :=
  { ({ m.proved 0 with restarting := false, runMmc := (m.slotOf 0 true).image, leafAt := 0, leafEnd := 0 } : Mmc).settleUpdate with
    waitEvts := [] }

theorem Mmc.restartOver_eq (m : Mmc) : m.restartOver = { m with
    fusedSvn := max m.fusedSvn (min 64 (m.slotOf 0 true).svn), restarting := false, runMmc := (m.slotOf 0 true).image, leafAt := 0
    leafEnd := 0, update := m.restartOver.update, updBy := m.restartOver.updBy, waitEvts := [] } := by
  unfold Mmc.restartOver
  conv_lhs => rw [Mmc.settleUpdate_eq]
  rfl

/-- The module once the events that waited are sent and the repair holds that were put off have begun (R448). -/
def State.mmcBack (s : State) : State :=
  (List.range 4).foldl State.holdIfDue (s.mmc.waitEvts.foldl State.sendSensor { s with mmc := s.mmc.restartOver })

theorem mmcBack_frame (s : State) : s.mmcBack.mmc = s.mmc.restartOver ∧ s.mmcBack.chip = s.chip ∧ s.mmcBack.setup = s.setup ∧
    s.mmcBack.lmap = s.lmap := by
  have hruns : ({ s with mmc := s.mmc.restartOver } : State).mmc.restarting = false := by
    rw [Mmc.restartOver_eq]
  have hsent := sendSensors_runs s.mmc.waitEvts hruns
  unfold State.mmcBack
  rw [hsent]
  simp

theorem mmcBack_hold {p : Nat} (hp : p < 4) (hfail : s.chip.failing.any (fun g => s.partOfPhys g.phys == p) = true)
    (hreset : (s.part p).resetting = 0) : (s.mmcBack.part p).hold = true := by
  have hruns : ({ s with mmc := s.mmc.restartOver } : State).mmc.restarting = false := by
    rw [Mmc.restartOver_eq]
  have hsent := sendSensors_runs s.mmc.waitEvts hruns
  unfold State.mmcBack
  rw [hsent]
  exact holdsIfDue_hold _ hruns (.inr ⟨List.mem_range.mpr hp, hfail, hreset⟩)

theorem doMmcRestartDone_idle (h : s.mmc.restarting = false) : s.doMmcRestartDone = s := if_pos (by simp [h])

/-- A full reset that waited for the end of the restart runs then (R448). -/
theorem doMmcRestartDone_back (h : s.mmc.restarting = true) : s.doMmcRestartDone =
    match s.chip.waitFull with
    | some cause => s.mmcBack.fullReset cause false
    | none => s.mmcBack := by
  obtain ⟨-, hchip, -⟩ := mmcBack_frame s
  rw [← hchip]
  exact if_neg (by simp [h])

/-! ## The activation of core firmware (R405, R446) -/

theorem mayActivate_idle {p : Nat} (h : s.mayActivate p = true) : s.chip.power = .on ∧ p < s.layout ∧ s.bringing = false ∧
    (s.part p).resetting = 0 ∧ (s.part p).job = none ∧ (s.part p).next = none ∧ ((s.exch p).state = 0 ∨ (s.exch p).state = 6) := by
  simp only [State.mayActivate, Bool.and_eq_true, Bool.or_eq_true, beq_iff_eq, decide_eq_true_eq, Option.isNone_iff_eq_none,
    Bool.not_eq_true'] at h
  obtain ⟨⟨⟨⟨⟨⟨⟨⟨⟨⟨⟨hon, -⟩, -⟩, -⟩, hp⟩, hup⟩, hreset⟩, hjob⟩, hnext⟩, -⟩, hexch⟩, -⟩ := h
  exact ⟨hon, hp, hup, hreset, hjob, hnext, hexch⟩

end

/-- Settles O51: a restart changes the slots alone, its end is `mmcBack`, and an activation is a partition reset. -/
theorem activation : Obligations.Activation := by
  intro s
  obtain ⟨hback, hchip, hsetup, hlmap⟩ := mmcBack_frame s
  have hover := s.mmc.restartOver_eq
  refine ⟨fun h => ?_, fun ok h => reporting_eq (doMmcRestart_waits ok h), fun ok h hv => reporting_eq (doMmcRestart_new h hv),
    fun ok code h hv => ⟨_, reporting_eq (doMmcRestart_old h hv), ?_, fun hlen => ?_, ?_⟩, fun h => reporting_eq (doMmcRestartDone_idle h),
    fun h hfull => ⟨_, reporting_eq ((doMmcRestartDone_back h).trans (by rw [hfull])), ?_⟩,
    fun cause h hfull => ⟨_, reporting_eq ((doMmcRestartDone_back h).trans (by rw [hfull])), ?_⟩, fun p => ⟨fun h => ?_, fun h => ?_, fun h => ?_⟩⟩
  · obtain ⟨-, hrunning, hrestarting, hpend, hexch⟩ := (mayRestart_iff s).mp h
    exact ⟨hpend, hrunning, hrestarting, hexch⟩
  · rw [posted_modMmc]
    rfl
  · rw [posted_modMmc]
    exact congrArg FwSlot.valid (s.mmc.slotOf_setSlot false _ hlen)
  · rw [posted_modMmc]
    exact s.mmc.slotOf_setSlot_other 0 _
  · rw [hback, hsetup, hlmap, hover]
    exact ⟨rfl, rfl, rfl, rfl, rfl, rfl, rfl, rfl, rfl, rfl, rfl, fun p hp hfail hreset => mmcBack_hold hp hfail hreset⟩
  · obtain ⟨-, -, -, -, -, -, -, hcause, -, -, -, -, -, -, hepoch, hleaf, -⟩ := s.mmcBack.fullReset_spec cause false
    rw [hback, hover] at hepoch hleaf
    exact ⟨rfl, rfl, rfl, rfl, hcause, rfl, hleaf, hepoch⟩
  · obtain ⟨-, -, hup, hreset, hjob, hnext, hexch⟩ := mayActivate_idle h
    exact ⟨hjob, hnext, hreset, hup, hexch⟩
  · refine reporting_eq (u := s) ?_
    rcases h with hoff | hnot
    · exact if_neg hoff
    · have hstays : s.doCoreActivation p = s := if_neg (by simp [hnot])
      exact (congrArg (if s.chip.power = .on then · else s) hstays).trans (ite_self _)
  · obtain ⟨hon, hp, hup, hreset, -⟩ := mayActivate_idle h
    have hacts : s.whenOn (·.doCoreActivation p) = s.doPartReset p := (if_pos hon).trans (if_pos h)
    obtain ⟨hkind, -, -, hcores, -, hhbm, hsetup, -, hlmap, -⟩ := (doPartReset_spec hup hp (by simp [hreset])).1
    exact ⟨_, reporting_eq hacts, hkind, hsetup, hlmap, hhbm, hcores⟩

end Sys2Proof.Machine
end

