-- ==== Sys2Proof/Proofs/BringUp.lean ====
section
/-! SUPPORT. How a bring-up starts the management controller, what its tests find, how it ends, and that one which finds nothing
succeeds (R392, R393, R395, R396, R399, R446, R449). -/

namespace Sys2Proof.Machine

open Sys2Proof.Safety

section
variable (s : State) (f : Findings)

/-! ## Step 1: the boot of the management controller (R395, R446) -/

/-- What the check of a slot of the management controller finds at its boot. -/
def State.bootVerdict (a b inUse : Bool) : Option Nat :=
  s.mmc.slotVerdict (s.mmc.slotOf 0 inUse) (if s.mmc.active.getD 0 false = inUse then b else a)

theorem bootVerdict_other (a b : Bool) :
    s.bootVerdict a b false = s.mmc.slotVerdict (s.mmc.slotOf 0 false) (if s.mmc.active.getD 0 false then a else b) := by
  unfold State.bootVerdict
  cases s.mmc.active.getD 0 false <;> rfl

theorem bootMmc_inUse {a b : Bool} (h : s.bootVerdict a b true = none) : s.bootMmc a b =
    ({ s with mmc := { s.mmc.proved 0 with up := true, fallback := false, runMmc := (s.mmc.slotOf 0 true).image } }, true) :=
  if_pos h

/-- The controller falls back to its other slot. -/
theorem bootMmc_other {a b : Bool} (h : s.bootVerdict a b true ≠ none) (ho : s.bootVerdict a b false = none) :
    (s.bootMmc a b).2 = true ∧ (s.bootMmc a b).1.mmc =
      { s.mmc.fallBack.proved 0 with up := true, fallback := true, runMmc := (s.mmc.fallBack.slotOf 0 true).image } := by
  have hboot : s.bootMmc a b = _ := (if_neg h).trans (if_pos ho)
  rw [hboot]
  exact ⟨rfl, by simp only [State.postEvent_frame]⟩

theorem bootMmc_neither {a b : Bool} (h : s.bootVerdict a b true ≠ none) (ho : s.bootVerdict a b false ≠ none) :
    (s.bootMmc a b).2 = false ∧ (s.bootMmc a b).1.mmc = s.mmc := by
  have hboot : s.bootMmc a b = ((s.turnDown _).turnDown _, false) := (if_neg h).trans (if_neg ho)
  rw [hboot]
  exact ⟨rfl, by simp⟩

theorem bootMmc_up {a b : Bool} (h : (s.bootMmc a b).2 = true) : (s.bootMmc a b).1.mmc.up = true := by
  by_cases hu : s.bootVerdict a b true = none
  · rw [bootMmc_inUse s hu]
  · by_cases ho : s.bootVerdict a b false = none
    · rw [(bootMmc_other s hu ho).2]
    · rw [(bootMmc_neither s hu ho).1] at h
      cases h

/-! ## What the tests leave alone (R396) -/

/-- The chip but what the tests of a bring-up find: its field-repair bank, its good cores and its spares. -/
def Chip.untested (c : Chip) : Chip := { c.unfused with good := [], spares := [] }

theorem Chip.untested_of_unfused {c d : Chip} (h : c.unfused = d.unfused) : c.untested = d.untested :=
  congrArg (fun x : Chip => { x with good := [], spares := [] }) h

theorem Chip.fuseCores_of_untested {c d : Chip} (h : c.untested = d.untested) : c.fuseCores = d.fuseCores := (congrArg Chip.fuseCores h :)

@[simp] theorem State.failChan_unfused (cause : Nat) (e : Nat × Nat) : (s.failChan cause e).chip.unfused = s.chip.unfused := by
  unfold State.failChan
  split <;> simp

theorem State.trainStacks_unfused : (s.trainStacks f).chip.unfused = s.chip.unfused := by
  unfold State.trainStacks
  refine (foldl_keeps (fun u : State => u.chip.unfused) _ (fun a e => by simp) _ _).trans ((foldl_keeps (fun u : State => u.chip.unfused) _ (fun a k => ?_) _ _).trans ?_)
  · simp only [State.postEvent_frame]
    exact foldl_keeps (fun u : State => u.chip.unfused) _ (fun a c => by simp) _ _
  · simp

theorem State.failCore_untested (c cause : Nat) : (s.failCore c cause).chip.untested = s.chip.untested := by
  unfold State.failCore
  split
  · rw [Chip.untested_of_unfused (State.fuseEntry_unfused ..), State.dropCore_chip]
    rfl
  · rfl

/-- The module with the given cores good. -/
def State.withGood (cs : List Nat) : State := s.modChip fun c => { c with good := cs }

theorem testCores_eq : s.testCores f =
    f.coreFail.foldl (fun acc c => acc.failCore c 1) (s.withGood ((List.range 576).filter s.chip.coreKept)) := by
  simp only [State.testCores, State.withGood, State.modChip]

theorem withGood_good (cs : List Nat) : (s.withGood cs).chip.good = cs := rfl

theorem withGood_hbmc (cs : List Nat) (k : Nat) : (s.withGood cs).hbmc k = s.hbmc k := rfl

theorem withGood_untested (cs : List Nat) : (s.withGood cs).chip.untested = s.chip.untested := rfl

theorem State.testCores_untested : (s.testCores f).chip.untested = s.chip.untested := by
  rw [testCores_eq]
  exact (foldl_keeps (fun u : State => u.chip.untested) _ (fun a c => a.failCore_untested c 1) _ _).trans (withGood_untested ..)

theorem State.retireSlab_chip (d t : Nat) : (s.retireSlab d t).chip = s.chip := rfl

theorem State.testSlabs_unfused : (s.testSlabs f).chip.unfused = s.chip.unfused := by
  unfold State.testSlabs
  refine (foldl_keeps (fun u : State => u.chip.unfused) _ (fun a e => ?_) _ _).trans
    (foldl_keeps (fun u : State => u.chip.unfused) _ (fun a e => by rw [a.retireSlab_chip]) _ _)
  split
  · rfl
  · simp [State.retireSlab_chip]

/-! ## Steps 2 to 8 -/

/-- The module once its class is read and its stacks, cores and slabs are tested. -/
def State.tested : State := (((s.readClass f.cooler).trainStacks f).testCores f).testSlabs f

theorem tested_untested : (s.tested f).chip.untested = s.chip.untested := by
  unfold State.tested
  rw [Chip.untested_of_unfused (State.testSlabs_unfused ..), State.testCores_untested, Chip.untested_of_unfused (State.trainStacks_unfused ..)]
  simp only [State.readClass_frame]

/-- A core whose fuse marks it bad is not among those that the tests leave good (R396). -/
theorem tested_good {c : Nat} (h : s.chip.fuseCores.contains c = true) : (s.tested f).chip.good.contains c = false := by
  have hfuses : ((s.readClass f.cooler).trainStacks f).chip.fuseCores = s.chip.fuseCores :=
    (congrArg Chip.fuseCores (State.trainStacks_unfused _ f) :).trans (by simp only [State.readClass_frame]; rfl)
  rw [State.tested, Chip.good_of_unfused (State.testSlabs_unfused ..), testCores_eq]
  refine Bool.eq_false_iff.mpr fun hin => ?_
  obtain ⟨-, hfirst⟩ := failCores_good _ _ (List.contains_iff_mem.mp hin)
  rw [withGood_good] at hfirst
  obtain ⟨-, hkept⟩ := List.mem_filter.mp hfirst
  rw [Chip.coreKept, hfuses, h] at hkept
  cases hkept

/-- Where the steps after the boot end. -/
theorem bringSteps_ends (deep : Bool) :
    (∃ done, s.bringSteps f deep = (s.readClass f.cooler).failBringup 2 done) ∨
      (∃ done, s.bringSteps f deep = (s.tested f).failBringup 3 done) ∨
      (∃ v done, s.bringSteps f deep = ((s.tested f).turnDown v).failBringup 8 done) ∨
      s.bringSteps f deep = ((s.tested f).trainPorts f).assign deep := by
  unfold State.bringSteps
  dsimp only
  split
  · exact .inl ⟨_, rfl⟩
  · split
    · exact .inr (.inl ⟨_, rfl⟩)
    · split
      · exact .inr (.inr (.inl ⟨_, _, rfl⟩))
      · exact .inr (.inr (.inr rfl))

theorem bringSteps_baseDie (h : f.baseDie ≠ none) (deep : Bool) :
    s.bringSteps f deep = (s.readClass f.cooler).failBringup 2 (b2n deep + 2) := if_pos (Option.isSome_iff_ne_none.mpr h)

/-- No step fails: the module assigns what it found. -/
theorem bringSteps_assigns (deep : Bool) (hdie : f.baseDie = none) (hpcs : (s.tested f).activePcs 0 ≠ [])
    (hcore : (s.tested f).mmc.slotVerdict ((s.tested f).mmc.slotOf 1 true) f.coreFwOk = none) :
    s.bringSteps f deep = ((s.tested f).trainPorts f).assign deep := by
  refine (if_neg (by simp [hdie])).trans ((if_neg (by simpa [State.tested] using hpcs)).trans (if_neg ?_))
  exact ne_true_of_eq_false (congrArg Option.isSome hcore)

/-! ## The end of a bring-up (R393, R395) -/

theorem failBringup_chip (k done : Nat) : (s.failBringup k done).chip =
    { s.chip with result := 3, failStep := k, stepDone := done, elapsed := (s.ft - s.chip.bootFt) / 10 ^ 9 } := by
  simp [State.failBringup, State.modChip]

theorem assign_spec (deep : Bool) : (s.assign deep).bringing = false ∧ (s.assign deep).chip.stepDone = (if deep then 0x3FF else 0x3FE) ∧
    (s.assign deep).chip.good = s.chip.good ∧ (s.assign deep).chip.deep = s.chip.deep ∧ (s.assign deep).chip.bootFt = s.chip.bootFt ∧
    (s.assign deep).lmap = (s.numberDies [0, 1, 2, 3]).lmap ∧ (s.assign deep).mmc.up = s.mmc.up ∧
    (s.assign deep).mmc.fallback = s.mmc.fallback ∧
    (s.assign deep).mmc.runCore = List.replicate 4 (s.mmc.slotOf 1 true).image ∧
    (s.assign deep).chip.result = if (((s.numberDies [0, 1, 2, 3]).setCapacity []).part 0).degraded then 2 else 1 := by
  have hmmc : ((s.numberDies [0, 1, 2, 3]).setCapacity []).loadRevs.mmc = s.mmc := by simp
  have hchip : ((s.numberDies [0, 1, 2, 3]).setCapacity []).loadRevs.chip = (s.numberDies [0, 1, 2, 3]).chip := by simp
  have hlmap : ((s.numberDies [0, 1, 2, 3]).setCapacity []).loadRevs.lmap = (s.numberDies [0, 1, 2, 3]).lmap := by simp
  refine ⟨rfl, rfl, (congrArg Chip.good hchip :), (congrArg Chip.deep hchip :), (congrArg Chip.bootFt hchip :), hlmap, (congrArg Mmc.up hmmc :),
    (congrArg Mmc.fallback hmmc :), congrArg (fun m : Mmc => List.replicate 4 (m.slotOf 1 true).image) hmmc, rfl⟩

/-! ## Nothing found and nothing fused bad (R393, R396, R399) -/

/-- Nothing is found, and no fuse and no entry marks anything bad. -/
structure NothingBad : Prop where
  stackFail : f.stackFail = []
  chanFail : f.chanFail = []
  coreFail : f.coreFail = []
  slabFail : f.slabFail = []
  bank : s.chip.bank = []
  fuseCores : s.chip.fuseCores = []
  fuseChans : s.chip.fuseChans = []
  fuseSlabs : s.chip.fuseSlabs = []

/-- Every stack trains, and none fails. -/
def State.stacksTrained : State :=
  (List.range 12).foldl (fun acc k => acc.setHbmc k { acc.hbmc k with trained := !f.stackFail.contains k }) s

theorem stacksTrained_chip : (s.stacksTrained f).chip = s.chip := by
  simp [State.stacksTrained]

theorem stacksTrained_retired (j : Nat) : ((s.stacksTrained f).hbmc j).retired0 = (s.hbmc j).retired0 := by
  refine foldl_keeps (fun t : State => (t.hbmc j).retired0) _ (fun a k => ?_) _ _
  simp only [State.hbmc_setHbmc_if]
  split
  next hjk => rw [hjk]
  next => rfl

variable {s f}

theorem trainStacks_clean (h : NothingBad s f) : s.trainStacks f = s.stacksTrained f := by
  simp only [State.trainStacks, h.stackFail, h.chanFail, h.bank, h.fuseChans, List.filter_nil, List.map_nil, List.append_nil, List.foldl_nil]
  rw [State.stacksTrained, h.stackFail]

theorem testCores_clean (h : NothingBad s f) : s.testCores f = s.withGood (List.range 576) := by
  have hkept : (List.range 576).filter s.chip.coreKept = List.range 576 :=
    List.filter_eq_self.mpr fun c _ => by simp [Chip.coreKept, Chip.fused, h.fuseCores, h.bank]
  rw [testCores_eq, h.coreFail, hkept, List.foldl_nil]

theorem testSlabs_clean (h : NothingBad s f) : s.testSlabs f = s := by
  simp only [State.testSlabs, h.slabFail, h.bank, h.fuseSlabs, List.filter_nil, List.map_nil, List.append_nil, List.foldl_nil]

theorem NothingBad.of_chip {t : State} (h : NothingBad s f) (hchip : t.chip = s.chip) : NothingBad t f :=
  { h with bank := hchip ▸ h.bank, fuseCores := hchip ▸ h.fuseCores, fuseChans := hchip ▸ h.fuseChans, fuseSlabs := hchip ▸ h.fuseSlabs }

theorem NothingBad.withGood (h : NothingBad s f) (cs : List Nat) : NothingBad (s.withGood cs) f :=
  { h with bank := h.bank, fuseCores := h.fuseCores, fuseChans := h.fuseChans, fuseSlabs := h.fuseSlabs }

theorem tested_clean (h : NothingBad s f) :
    s.tested f = ((s.readClass f.cooler).stacksTrained f).withGood (List.range 576) := by
  have hread : NothingBad (s.readClass f.cooler) f := h.of_chip (by simp)
  have hstacks : NothingBad ((s.readClass f.cooler).stacksTrained f) f := hread.of_chip (stacksTrained_chip ..)
  rw [State.tested, trainStacks_clean hread, testCores_clean hstacks, testSlabs_clean (hstacks.withGood _)]

theorem tested_clean_good (h : NothingBad s f) : (s.tested f).chip.good = List.range 576 := by
  rw [tested_clean h, withGood_good]

/-- Pseudo-channel 0 of channel 0 of stack 0 is active when no stack has a lost channel (R263). -/
theorem tested_clean_active (h : NothingBad s f) (hlayout : s.layout = 1) (hstacks : s.hbmcs = []) : (s.tested f).activePcs 0 ≠ [] := by
  have hretired : ((s.tested f).hbmc 0).retired0 = 0 := by
    rw [tested_clean h, withGood_hbmc, stacksTrained_retired]
    simp [State.hbmc, hstacks, Hbmc.reset]
  have hlay : (s.tested f).layout = 1 := by simp [State.tested, hlayout]
  refine List.ne_nil_of_mem (a := ⟨0, 0, 0⟩) (List.mem_filter.mpr ⟨?_, by simp [State.pcRetired, hretired]⟩)
  simp [State.stacksOf, State.dies, hlay]

/-- A die with enough good cores has all its logical numbers after numbering (R399, R400). -/
theorem numberDies_present {ds : List Nat} {d : Nat} (hd : d ∈ ds) (hgood : s.share ≤ (s.chip.goodOn d).length) :
    s.share ≤ (s.numberDies ds).presentOn d := by
  have hpos : 0 < s.share := by
    unfold State.share State.coresPerDie
    split <;> decide
  have hnumbers : ∀ e ∈ ((s.chip.goodOn d).take s.share).zipIdx.map (fun e => (s.share * d + e.2, e.1)),
      (s.numberDies ds).dieOf e.1 == d := fun e he => by
    obtain ⟨x, hx, rfl⟩ := List.mem_map.mp he
    have hlt : x.2 < s.share := by
      have := List.snd_lt_of_mem_zipIdx hx
      rw [List.length_take] at this
      omega
    have hshare : (s.numberDies ds).coresPerDie = s.share := rfl
    rw [State.dieOf, hshare, Nat.mul_add_div hpos, Nat.div_eq_of_lt hlt, Nat.add_zero, beq_self_eq_true]
  calc s.share = (((s.chip.goodOn d).take s.share).zipIdx.map (fun e => (s.share * d + e.2, e.1))).countP
        (fun e => (s.numberDies ds).dieOf e.1 == d) := by
        rw [List.countP_eq_length.mpr hnumbers, List.length_map, List.length_zipIdx, List.length_take, Nat.min_eq_left hgood]
    _ ≤ (s.numberDies ds).presentOn d := by
        refine List.Sublist.countP_le (List.Sublist.trans ?_ (List.sublist_append_right _ _))
        rw [List.flatMap_def]
        exact List.sublist_flatten_of_mem (List.mem_map_of_mem hd)

/-- With every core good no die lacks part of its share. -/
theorem numberDies_whole (hlayout : s.layout = 1) (hgood : s.chip.good = List.range 576) :
    (s.numberDies [0, 1, 2, 3]).shortOf 0 = false := by
  have hdies : (s.numberDies [0, 1, 2, 3]).dies 0 = [0, 1, 2, 3] := by simp [State.dies, hlayout]
  have hshare : (s.numberDies [0, 1, 2, 3]).share = s.share := rfl
  rw [State.shortOf, hdies, hshare, List.any_eq_false]
  intro d hd
  have hd4 : d < 4 := by
    simp only [List.mem_cons, List.not_mem_nil, or_false] at hd
    omega
  have hall : s.chip.goodOn d = (List.range 144).map (144 * d + ·) := List.filter_eq_self.mpr fun c hc => by
    obtain ⟨i, hi, rfl⟩ := List.mem_map.mp hc
    rw [hgood, List.contains_iff_mem, List.mem_range]
    have := List.mem_range.mp hi
    omega
  have hshareLe : s.share ≤ 144 := by
    unfold State.share State.coresPerDie
    split <;> decide
  have := numberDies_present hd (by rw [hall, List.length_map, List.length_range]; exact hshareLe)
  simpa using this

theorem setCapacity_degraded (hlayout : s.layout = 1) : ((s.setCapacity []).part 0).degraded = s.shortOf 0 := by
  have hone : s.setCapacity [] =
      (s.setPart 0 { s.part 0 with topGib := (s.activePcs 0).length, reserve := [].getD 0 2 }).setDegraded 0 := by
    rw [State.setCapacity, hlayout]
    rfl
  rw [hone, setDegraded_degraded]
  exact shortOf_of rfl rfl rfl 0

end

section
variable (s : State) (f : Findings)

/-! ## The bring-up as a whole (R392) -/

/-- Whether a bring-up is due. -/
def State.bringUpDue : Bool := s.bringing && s.chip.result == 0 && s.chip.power == .on && !s.chip.perstHeld
/-- Whether the bring-up is the deep one. -/
def State.bringUpDeep : Bool := s.chip.deepNext || s.chip.nextDeep || s.chip.memErr || f.deepDue

/-- The module as its boot begins. -/
def State.bootBegun : State := s.modChip fun h => { h with deep := s.bringUpDeep f, bootFt := s.ft }

/-- The module once the boot of its management controller has ended. -/
def State.booted : State := ((s.bootBegun f).bootMmc f.mmcSlotA f.mmcSlotB).1

theorem booted_chip : (s.booted f).chip = { s.chip with deep := s.bringUpDeep f, bootFt := s.ft } := by
  simp [State.booted, State.bootBegun, State.modChip]

theorem doBringup_idle (h : s.bringUpDue = false) : s.doBringup f = s := if_pos ((Bool.not_eq_true' _).mpr h)

variable {s f}

theorem doBringup_boots (h : s.bringUpDue = true) (hboot : ((s.bootBegun f).bootMmc f.mmcSlotA f.mmcSlotB).2 = true) :
    s.doBringup f = (s.booted f).bringSteps f (s.bringUpDeep f) :=
  (if_neg (by rw [← State.bringUpDue, h]; decide)).trans (if_pos hboot)

/-- No image starts: recovery mode (R449). -/
theorem doBringup_recovers (h : s.bringUpDue = true) (hboot : ((s.bootBegun f).bootMmc f.mmcSlotA f.mmcSlotB).2 = false) :
    s.doBringup f = (((s.booted f).modChip fun c => { c with recovery := true }).postEvent .pf Code.bootImage []).failBringup 1
      (b2n (s.bringUpDeep f)) :=
  (if_neg (by rw [← State.bringUpDue, h]; decide)).trans (if_neg (ne_true_of_eq_false hboot))

end

/-- A failed bring-up: the module stays in bring-up. -/
def FailedAt (u : State) (k : Nat) : Prop := u.bringing = true ∧ u.chip.result = 3 ∧ u.chip.failStep = k

/-- A bring-up that succeeds from `s`: the module holds its outputs, and bad cores have no number. -/
def Succeeded (s u : State) (deep : Bool) : Prop :=
  u.bringing = false ∧ (u.chip.result = 1 ∨ u.chip.result = 2) ∧ u.chip.stepDone = (if deep then 0x3FF else 0x3FE) ∧ u.mmc.up = true ∧
    (∀ e ∈ u.lmap, e.2 / 144 < 4 → u.chip.good.contains e.2 = true) ∧
    ∀ c, s.chip.fuseCores.contains c = true → u.chip.good.contains c = false

section
variable {s : State} {f : Findings}

theorem failBringup_failedAt (k done : Nat) (h : s.bringing = true) : FailedAt (s.failBringup k done) k := by
  refine ⟨by simp [h], ?_, ?_⟩ <;> rw [failBringup_chip]

theorem tested_bringing : (s.tested f).bringing = s.bringing := by simp [State.tested]

theorem tested_mmc : (s.tested f).mmc = s.mmc := by simp [State.tested]

theorem assign_succeeds (deep : Bool) (hup : s.mmc.up = true) : Succeeded s (((s.tested f).trainPorts f).assign deep) deep := by
  obtain ⟨hbringing, hdone, hgood, -, -, hlmap, hmmc, -, -, hresult⟩ := assign_spec ((s.tested f).trainPorts f) deep
  have htrained : ((s.tested f).trainPorts f).chip = (s.tested f).chip := by simp
  refine ⟨hbringing, ?_, hdone, ?_, fun e he hdie => ?_, fun c hc => ?_⟩
  · rw [hresult]
    split
    · exact .inr rfl
    · exact .inl rfl
  · rw [hmmc]
    simp [tested_mmc, hup]
  · have hdies : [0, 1, 2, 3].contains (e.2 / 144) = true := by
      simp only [List.contains_iff_mem, List.mem_cons, List.not_mem_nil, or_false]
      omega
    rw [hgood, List.contains_iff_mem]
    exact (numberDies_lmap _ _).1 e (hlmap ▸ he) hdies
  · rw [hgood, htrained]
    exact tested_good s f hc

/-- The steps after the boot fail at step 2, 3 or 8 or succeed (R393, R395). -/
theorem bringSteps_outcome (deep : Bool) (hbringing : s.bringing = true) (hup : s.mmc.up = true) :
    ((∃ k, FailedAt (s.bringSteps f deep) k ∧ (k = 2 ∨ k = 3 ∨ k = 8)) ∨ Succeeded s (s.bringSteps f deep) deep) ∧
      (s.bringSteps f deep).chip.deep = s.chip.deep ∧ (s.bringSteps f deep).chip.bootFt = s.chip.bootFt := by
  have hdeep : (s.tested f).chip.deep = s.chip.deep := (congrArg Chip.deep (tested_untested s f) :)
  have hboot : (s.tested f).chip.bootFt = s.chip.bootFt := (congrArg Chip.bootFt (tested_untested s f) :)
  have htested : (s.tested f).bringing = true := tested_bringing.trans hbringing
  obtain ⟨done, h⟩ | ⟨done, h⟩ | ⟨v, done, h⟩ | h := bringSteps_ends s f deep
  all_goals rw [h]
  · exact ⟨.inl ⟨2, failBringup_failedAt _ _ (by simp [hbringing]), .inl rfl⟩, by simp [failBringup_chip], by simp [failBringup_chip]⟩
  · exact ⟨.inl ⟨3, failBringup_failedAt _ _ htested, .inr (.inl rfl)⟩, by rw [failBringup_chip, hdeep], by rw [failBringup_chip, hboot]⟩
  · exact ⟨.inl ⟨8, failBringup_failedAt _ _ (by simp [htested]), .inr (.inr rfl)⟩, by simp [failBringup_chip, hdeep],
      by simp [failBringup_chip, hboot]⟩
  · obtain ⟨-, -, -, hdeepKept, hbootKept, -⟩ := assign_spec ((s.tested f).trainPorts f) deep
    exact ⟨.inr (assign_succeeds deep hup), by rw [hdeepKept]; simp [hdeep], by rw [hbootKept]; simp [hboot]⟩

/-- With nothing found and nothing fused bad the bring-up succeeds, and every partition's cores have the firmware of the slot in
use. -/
theorem bringSteps_clean (deep : Bool) (h : NothingBad s f) (hdie : f.baseDie = none) (hstacks : s.hbmcs = []) (hlayout : s.layout = 1)
    (hcore : s.mmc.slotVerdict (s.mmc.slotOf 1 true) f.coreFwOk = none) :
    (s.bringSteps f deep).bringing = false ∧ (s.bringSteps f deep).chip.result = 1 ∧
      (s.bringSteps f deep).chip.good = List.range 576 ∧ (s.bringSteps f deep).mmc.up = s.mmc.up ∧
      (s.bringSteps f deep).mmc.fallback = s.mmc.fallback ∧
      (s.bringSteps f deep).mmc.runCore = List.replicate 4 (s.mmc.slotOf 1 true).image := by
  have hmmc : ((s.tested f).trainPorts f).mmc = s.mmc := by simp [tested_mmc]
  have htrained : ((s.tested f).trainPorts f).chip = (s.tested f).chip := by simp
  have hgood : ((s.tested f).trainPorts f).chip.good = List.range 576 := by rw [htrained, tested_clean_good h]
  have hlay : ((s.tested f).trainPorts f).layout = 1 := by simp [State.tested, hlayout]
  have hwhole : (((((s.tested f).trainPorts f).numberDies [0, 1, 2, 3]).setCapacity []).part 0).degraded = false := by
    rw [setCapacity_degraded (by simp [State.tested, hlayout]), numberDies_whole hlay hgood]
  rw [bringSteps_assigns s f deep hdie (tested_clean_active h hlayout hstacks) (by rw [tested_mmc]; exact hcore)]
  obtain ⟨hbringing, -, hgoodKept, -, -, -, hup, hfallback, hrun, hresult⟩ := assign_spec ((s.tested f).trainPorts f) deep
  rw [hmmc] at hup hfallback hrun
  refine ⟨hbringing, ?_, hgoodKept.trans hgood, hup, hfallback, hrun⟩
  rw [hresult, hwhole]
  rfl

end

section
variable {s : State} {f : Findings}

theorem booted_bringing (h : s.bringUpDue = true) : (s.booted f).bringing = true := by
  have hbringing : s.bringing = true := by simp_all [State.bringUpDue]
  simp [State.booted, State.bootBegun, hbringing]

theorem doBringup_outcome (h : s.bringUpDue = true) :
    ((∃ k, FailedAt (s.doBringup f) k ∧ (k = 1 ∨ k = 2 ∨ k = 3 ∨ k = 8)) ∨ Succeeded s (s.doBringup f) (s.bringUpDeep f)) ∧
      (s.doBringup f).chip.deep = s.bringUpDeep f ∧ (s.doBringup f).chip.bootFt = s.ft := by
  have hchip := booted_chip s f
  by_cases hboot : ((s.bootBegun f).bootMmc f.mmcSlotA f.mmcSlotB).2 = true
  · rw [doBringup_boots h hboot]
    obtain ⟨hends, hdeep, hft⟩ := bringSteps_outcome (f := f) (s.bringUpDeep f) (booted_bringing h) (bootMmc_up _ hboot)
    rw [hchip] at hdeep hft
    refine ⟨hends.imp (fun ⟨k, hfail, hk⟩ => ⟨k, hfail, .inr hk⟩) fun hsucc => ?_, hdeep, hft⟩
    rwa [Succeeded, hchip] at hsucc
  · rw [doBringup_recovers h (Bool.eq_false_iff.mpr hboot)]
    exact ⟨.inl ⟨1, failBringup_failedAt _ _ (by simp [booted_bringing h]), .inl rfl⟩, by simp [failBringup_chip, State.modChip, hchip],
      by simp [failBringup_chip, State.modChip, hchip]⟩

/-- Neither image starts (R395, R449). -/
theorem doBringup_neither (h : s.bringUpDue = true) (hu : s.bootVerdict f.mmcSlotA f.mmcSlotB true ≠ none)
    (ho : s.bootVerdict f.mmcSlotA f.mmcSlotB false ≠ none) :
    (s.doBringup f).chip.recovery = true ∧ FailedAt (s.doBringup f) 1 ∧ (s.doBringup f).mmc = s.mmc := by
  obtain ⟨hboot, hmmc⟩ := bootMmc_neither (s.bootBegun f) hu ho
  rw [doBringup_recovers h hboot]
  refine ⟨by simp [failBringup_chip, State.modChip], failBringup_failedAt _ _ (by simp [booted_bringing h]), ?_⟩
  simp only [State.failBringup_frame, State.postEvent_frame, State.modChip_frame]
  exact hmmc

/-- A failed base die ends the bring-up of a controller that has started (R395). -/
theorem doBringup_baseDie (h : s.bringUpDue = true) (hboot : ((s.bootBegun f).bootMmc f.mmcSlotA f.mmcSlotB).2 = true)
    (hdie : f.baseDie ≠ none) : FailedAt (s.doBringup f) 2 ∧ (s.doBringup f).mmc = (s.booted f).mmc := by
  rw [doBringup_boots h hboot, bringSteps_baseDie _ f hdie]
  exact ⟨failBringup_failedAt _ _ (by simp [booted_bringing h]), by simp⟩

/-- The boot from the slot in use. -/
theorem booted_inUse (hu : s.bootVerdict f.mmcSlotA f.mmcSlotB true = none) :
    ((s.bootBegun f).bootMmc f.mmcSlotA f.mmcSlotB).2 = true ∧ (s.booted f).mmc =
      { s.mmc.proved 0 with up := true, fallback := false, runMmc := (s.mmc.slotOf 0 true).image } := by
  have hboot := bootMmc_inUse (s.bootBegun f) hu
  rw [State.booted, hboot]
  exact ⟨rfl, rfl⟩

/-- The boot from the other slot. -/
theorem booted_other (hu : s.bootVerdict f.mmcSlotA f.mmcSlotB true ≠ none) (ho : s.bootVerdict f.mmcSlotA f.mmcSlotB false = none) :
    ((s.bootBegun f).bootMmc f.mmcSlotA f.mmcSlotB).2 = true ∧ (s.booted f).mmc =
      { s.mmc.fallBack.proved 0 with up := true, fallback := true, runMmc := (s.mmc.fallBack.slotOf 0 true).image } :=
  bootMmc_other (s.bootBegun f) hu ho

theorem NothingBad.booted (h : NothingBad s f) : NothingBad (s.booted f) f := by
  have hchip := booted_chip s f
  exact { h with
    bank := hchip ▸ h.bank, fuseCores := hchip ▸ h.fuseCores, fuseChans := hchip ▸ h.fuseChans, fuseSlabs := hchip ▸ h.fuseSlabs }

end

/-- Settles O42: the boot of the management controller decides whether the later steps run, and `bringSteps_outcome` says how those
end. Model's choices: a bring-up that is not due changes nothing (log 1), the value of STEP_DONE (log 64), a failed bring-up stays in
bring-up (log 90). -/
theorem bringUp : Obligations.BringUp := by
  intro s f
  refine ⟨fun h => reporting_eq (doBringup_idle s f h), fun h => ⟨_, reporting_eq rfl, ?_⟩, fun h hu ho => ⟨_, reporting_eq rfl, ?_⟩,
    fun h hu hdie => ⟨_, reporting_eq rfl, ?_⟩, fun h hu ho hdie => ⟨_, reporting_eq rfl, ?_⟩,
    fun h hu hdie hstack hchan hcore hslab hbank hfuseCores hfuseChans hfuseSlabs hstacks hlayout hfirmware => ⟨_, reporting_eq rfl, ?_⟩⟩
  · obtain ⟨hends, hdeep, hft⟩ := doBringup_outcome (f := f) h
    refine ⟨by simp, by simp, by simp, by simp, by simp, by simp, hdeep, hft, hends.imp_left ?_⟩
    rintro ⟨k, ⟨hbringing, hresult, rfl⟩, hk⟩
    exact ⟨hbringing, hresult, hk⟩
  · obtain ⟨hrecovery, ⟨hbringing, hresult, hstep⟩, hmmc⟩ := doBringup_neither h hu ((bootVerdict_other s ..).trans_ne ho)
    exact ⟨hrecovery, hstep, hresult, hbringing, hmmc⟩
  · obtain ⟨hboot, hmmc⟩ := booted_inUse hu
    obtain ⟨⟨hbringing, hresult, hstep⟩, hkept⟩ := doBringup_baseDie h hboot hdie
    rw [hkept, hmmc]
    exact ⟨hstep, hresult, hbringing, rfl, rfl⟩
  · obtain ⟨hboot, hmmc⟩ := booted_other hu ((bootVerdict_other s ..).trans ho)
    obtain ⟨⟨-, -, hstep⟩, hkept⟩ := doBringup_baseDie h hboot hdie
    rw [hkept, hmmc]
    exact ⟨hstep, rfl, rfl⟩
  · obtain ⟨hboot, hmmc⟩ := booted_inUse hu
    have hclean : NothingBad s f := ⟨hstack, hchan, hcore, hslab, hbank, hfuseCores, hfuseChans, hfuseSlabs⟩
    obtain ⟨hbringing, hresult, hgood, hup, hfallback, hrun⟩ := bringSteps_clean (s.bringUpDeep f) hclean.booted hdie
      (by simpa [State.booted, State.bootBegun] using hstacks) (by simpa [State.booted, State.bootBegun] using hlayout)
      (by rw [hmmc]; exact hfirmware)
    rw [hmmc] at hup hfallback hrun
    rw [doBringup_boots h hboot]
    exact ⟨hbringing, hresult, hgood, hup, hfallback, hrun⟩

end Sys2Proof.Machine
end
